-- ==== Sys2Proof/Word.lean ====
section
/-!
DEFINITION. The word types of the Mehrox and their plainest arithmetic (R4, R6, R29, R30).
-/

namespace Sys2Proof

/-- One byte. -/
abbrev Byte := BitVec 8

/-- A register of the Mehrox, and a scalar register of a core, is 64 bits wide (R6, R27). -/
abbrev W64 := BitVec 64

/-- An instruction occupies 128 bits (R30). -/
abbrev W128 := BitVec 128

/-- A vector register holds 1,024 bytes (R27, R29); byte 0 is the least significant. -/
abbrev VReg := BitVec 8192

/-- A queue cell, a memory line and a packet unit each hold 64 bytes (R202, R251, R278). -/
abbrev Line := BitVec 512

/-- A stage core C0 to C47 (R27). -/
abbrev CoreId := Fin 48

/-- A micro-batch queue Q0 to Q255 (R202). -/
abbrev QId := Fin 256

/-- A Nafeson link L0 to L23 (R268). -/
abbrev LinkId := Fin 24

/-- A GDDR7 controller G0 to G23 (R249). -/
abbrev CtrlId := Fin 24

/-- A CXL port X0 to X3 (R260). -/
abbrev PortId := Fin 4

/-- A job 0 to 15 (R357). -/
abbrev JobId := Fin 16

/-- A matrix unit MU0 or MU1 (R44). -/
abbrev MuId := Fin 2

/-- A dispatch unit DU0 or DU1 (R154). -/
abbrev DuId := Fin 2

/-- A ring 0 to 33 (the ring table above R339). -/
abbrev RingId := Fin 34

/-- A device ID (R270). -/
abbrev DevId := BitVec 15

end Sys2Proof
end

