-- ==== Sys2Proof/Syntax.lean ====
section
/-!
DEFINITION. The commands the block takes: one constructor per row of the opcode table, with the row's operands. A
command of a core instruction names the core; the instruction's word is the one the core fetches at its PC.
-/

namespace Sys2Proof

/-- A physical upset that strikes before a step: the spec gives the protection against it, the outside gives the upset.
An instruction word takes a single-bit or a double-bit error (R30); a scratchpad lane and a memory line have the bits
of `flip` turned round, one bit being correctable (R226, R251); a queue's pointer copies come to differ (R219); `bursts`
bursts in a row of the next access to a memory line fail their CRC (R257); a memory device reports on-die corrections
(R249); a host port corrects errors, which its AER status codes (R331, R383). -/
inductive Upset where
  | imem (core : CoreId) (index : Nat) (double : Bool)
  | sp (core : CoreId) (lane : Nat) (flip : BitVec 64)
  | gddr (line : Nat) (flip : BitVec 512)
  | queuePtr (q : QId)
  | crc (line bursts : Nat)
  | onDie (g : CtrlId) (corrections : Nat)
  | aer (hb : Bool) (errs : BitVec 32)
deriving DecidableEq, Repr

/-- One of the five unit queues of a core (R46). -/
inductive UnitSel where
  | mu0 | mu1 | ve | dma | fab
deriving DecidableEq, Repr

/-- An error that strikes a residue of the checksum logic (R84, R85): the cube-row, 8 being the checksum row, or in WS and
IS the streamed step; the cube-column, 4 being the checksum column; the element of the 8 × 8 block; and what the residue
has gained. -/
structure CubeErr where
  row : Nat
  col : Nat
  el : Nat
  delta : BitVec 24
deriving DecidableEq, Repr

/-- The residue errors that strike a pass, and those that strike its retry (R85, R86). -/
structure CheckFault where
  first : List CubeErr := []
  again : List CubeErr := []
deriving DecidableEq, Repr

/-- Who offers a cell or a marker to a queue: a core's started QOP, the receive buffer of a link, a ring's QPUSH or
GENERATE, a dispatch unit (R208, R209, R346, R163). -/
inductive Offer where
  | core (c : CoreId) | link (l : LinkId) | host (r : RingId) | du (u : DuId)
deriving DecidableEq, Repr

/-- Who holds signals for a saved core: an issuing core, a queue's notification, the reduction logic for a job (R54,
R213, R313, R321). -/
inductive Holder where
  | core (c : CoreId) | queue (q : QId) | rcl (j : JobId)
deriving DecidableEq, Repr

/-- What the host's memory answers to an access of the module (R331, R338): data of a read (a write's answer carries
none), Unsupported Request, Completer Abort, poison, or no completion in time. -/
inductive HostReply where
  | ok (data : List Byte) | ur | ca | poison | timeout
deriving DecidableEq, Repr

/-- Who accesses a register (R331 to R333, R341, R419, R421): the owner port's physical function, the standby port's,
a virtual function of the owner port (0 for VF 1), the management firmware, or the test access port. -/
inductive Sender where
  | owner | standby | vf (n : Fin 16) | mgmt | tap
deriving DecidableEq, Repr

/-- Who asks a GDDR7 controller for data (R231, R259): a core's DMA, a peer, a host function, or an engine of the module
that no window checks. -/
inductive Asker where
  | core (c : CoreId) | peer (dev : DevId) | host | engine
deriving DecidableEq, Repr

/-- How a CXL.mem access goes wrong: a poisoned response or none in time (R263). -/
inductive CxlErr where
  | poison | timeout
deriving DecidableEq, Repr

/-- Where an access waits for a core that is away: at a channel of the issuing core, in the receive buffer of a link, or at
the host port (R232). -/
inductive Waiter where
  | dma (c : CoreId) (ch : Fin 4) | link (l : LinkId) | host
deriving DecidableEq, Repr

/-- What a host port finds of a write it receives (R331): good, poisoned, or with an ECRC that does not match. -/
inductive Tlp where
  | good | poison | ecrc
deriving DecidableEq, Repr

/-- What a PCIe configuration write sets on a function of a port (R331, R333): VF Enable of the SR-IOV capability, the
power state, Device Control (Max Payload Size, Max Read Request Size, Relaxed Ordering), the completion timeout and the 10-bit tags of
Device Control 2, MSI-X Enable and Function Mask, the bits of the AER correctable or uncorrectable error status to clear, or the ECRC
generation and checking that AER enables. -/
inductive PcieCfg where
  | vfEnable (on : Bool)
  | power (d3 : Bool)
  | control (mps mrrs : Nat) (relaxed : Bool)
  | timeout (v : Nat)
  | tags (ten : Bool)
  | msix (on mask : Bool)
  | aer (clear : BitVec 32)
  | aerUnc (clear : BitVec 32)
  | ecrc (gen chk : Bool)
deriving DecidableEq, Repr

/-- Who waits for the host's answer to a read of its memory (R331, R338, R349): a channel of a core, or a descriptor ring. -/
inductive HostWait where
  | dma (c : CoreId) (ch : Fin 4)
  | ring (r : RingId)
deriving DecidableEq, Repr

/-- The levels of LOC_RACK, LOC_SHELF and LOC_POS on consecutive SCLK cycles while they are sampled (R398); after the
last one listed the pins stay as they are. -/
structure Straps where
  samples : List (BitVec 15)
deriving DecidableEq, Repr

/-- How a register is accessed: whole, its lower or its upper half, or by any other width or alignment (R12, R336). -/
inductive Width where
  | whole | low | high | other
deriving DecidableEq, Repr

/-- What the outside gives a register access that reaches it: the location straps where a write starts a MOD reset (R399),
and what a CXL device answers a configuration read with (R265). -/
structure RegExt where
  straps : Straps
  cxl : BitVec 32
deriving DecidableEq, Repr

/-- What the sensors show at an evaluation of the governor: the input power in W of a 10 µs window that has just ended, the
core-rail currents in A and the hottest junctions in °C of the two dies (R402). -/
structure Sensors where
  window : Option Nat
  cur : Nat × Nat
  tj : Nat × Nat
deriving DecidableEq, Repr

/-- The way an MCTP message comes and its answer goes (R420): over SMBus, with the address it is sent to and whether it ends with
a good PEC, or in a PCIe vendor-defined message at port HA or HB. -/
inductive Via where
  | smbus (addr : BitVec 7) (pec : Bool)
  | vdm (hb : Bool)
deriving DecidableEq, Repr

/-- A command: one constructor for each row of the opcode table. The last arguments that have a default (the place of a
descriptor in its ring, the lanes that lock, whether a flit holds the rest of a bad codeword) may be left out by a writer. -/
inductive Instr where
  /-- REGISTER_WRITE (R9): A write to a register that has no row of its own stores, clears or ignores bits by its
  access type. -/
  | registerWrite (b : Sender) (bar2 : Bool) (o : Nat) (w : Width) (v : W64) (x : RegExt) (e : Tlp := .good)
  /-- RC_REGISTER_READ (R9): A read of a register holding an RC field returns the value and then clears it. -/
  | rcRegisterRead (b : Sender) (bar2 : Bool) (o : Nat) (w : Width) (x : RegExt)
  /-- NOP (R35): The CTL NOP instruction issues and has no effect. -/
  | nop (c : CoreId) (us : List Upset)
  /-- HALT (R57): HALT stops issue and waits for every unit queue and the fabric queue to complete. -/
  | halt (c : CoreId) (us : List Upset)
  /-- YIELD (R55): YIELD has no effect without YIELD_REQ, and otherwise starts a drain and a save of the live
  regions to the bivouac. -/
  | yield (c : CoreId) (us : List Upset)
  /-- JMP (R35): JMP sets the PC to the immediate target. -/
  | jmp (c : CoreId) (us : List Upset)
  /-- CALL (R35): CALL pushes PC + 1 and jumps to the target. -/
  | call (c : CoreId) (us : List Upset)
  /-- RET (R35): RET pops the call stack into the PC. -/
  | ret (c : CoreId) (us : List Upset)
  /-- LOOP (R37): LOOP loads a loop counter and repeats the body count times. -/
  | loop (c : CoreId) (us : List Upset)
  /-- ADD (R35): ADD writes the 64-bit wrapping sum to SD. -/
  | add (c : CoreId) (us : List Upset)
  /-- SUB (R35): SUB writes the 64-bit wrapping difference to SD. -/
  | sub (c : CoreId) (us : List Upset)
  /-- AND (R35): AND writes the bitwise AND to SD. -/
  | and (c : CoreId) (us : List Upset)
  /-- OR (R35): OR writes the bitwise OR to SD. -/
  | or (c : CoreId) (us : List Upset)
  /-- XOR (R35): XOR writes the bitwise XOR to SD. -/
  | xor (c : CoreId) (us : List Upset)
  /-- SHL (R35): SHL shifts left by B[5:0]. -/
  | shl (c : CoreId) (us : List Upset)
  /-- SHR (R35): SHR shifts right logically by B[5:0]. -/
  | shr (c : CoreId) (us : List Upset)
  /-- SRA (R35): SRA shifts right arithmetically by B[5:0]. -/
  | sra (c : CoreId) (us : List Upset)
  /-- MUL (R35): MUL writes the low 64 bits of the product to SD in 4 ACLK cycles. -/
  | mul (c : CoreId) (us : List Upset)
  /-- CMP (R36): CMP writes a predicate from a signed or unsigned comparison. -/
  | cmp (c : CoreId) (us : List Upset)
  /-- LI (R35): LI loads the 64-bit immediate into SD. -/
  | li (c : CoreId) (us : List Upset)
  /-- LD (R39): LD loads 8 bytes of the core's own scratchpad into SD. -/
  | ld (c : CoreId) (us : List Upset)
  /-- ST (R39): ST stores SB into 8 bytes of the core's own scratchpad. -/
  | st (c : CoreId) (us : List Upset)
  /-- GETSYS (R36): GETSYS reads a system value such as the core number, job, cycle counter or TS_NOW. -/
  | getsys (c : CoreId) (us : List Upset)
  /-- VLD (R40): VLD loads a 1,024-byte vector register from the scratchpad. -/
  | vld (c : CoreId) (now : Bool) (us : List Upset)
  /-- VST (R40): VST stores a vector register to the scratchpad. -/
  | vst (c : CoreId) (now : Bool) (us : List Upset)
  /-- VADD (R130): VADD adds lane by lane, rounding to nearest or stochastically. -/
  | vadd (c : CoreId) (now : Bool) (us : List Upset)
  /-- VSUB (R130): VSUB subtracts lane by lane. -/
  | vsub (c : CoreId) (now : Bool) (us : List Upset)
  /-- VMUL (R130): VMUL multiplies lane by lane. -/
  | vmul (c : CoreId) (now : Bool) (us : List Upset)
  /-- VFMA (R130): VFMA computes VA × VB + VC with one rounding. -/
  | vfma (c : CoreId) (now : Bool) (us : List Upset)
  /-- VMAX (R130): VMAX takes the lane-wise maximum. -/
  | vmax (c : CoreId) (now : Bool) (us : List Upset)
  /-- VMIN (R130): VMIN takes the lane-wise minimum. -/
  | vmin (c : CoreId) (now : Bool) (us : List Upset)
  /-- VCVT (R132): VCVT converts formats or computes RECIP, RSQRT or EXP. -/
  | vcvt (c : CoreId) (now : Bool) (us : List Upset)
  /-- VQUANT (R109): VQUANT quantises FP32 elements to codes, updates the exponent entries and adds to a counter
  set. -/
  | vquant (c : CoreId) (now : Bool) (us : List Upset)
  /-- VDEQ (R40): VDEQ dequantises codes into a vector register. -/
  | vdeq (c : CoreId) (now : Bool) (us : List Upset)
  /-- VHAD (R116): VHAD applies a block Hadamard rotation. -/
  | vhad (c : CoreId) (now : Bool) (us : List Upset)
  /-- VRED (R131): VRED reduces the lanes with the fixed tree into lane 0 and optionally SD. -/
  | vred (c : CoreId) (now : Bool) (us : List Upset)
  /-- VCBLD (R97): VCBLD loads and checks a codebook record into a slot. -/
  | vcbld (c : CoreId) (now : Bool) (us : List Upset)
  /-- VHIST (R142): VHIST adds the exponents of lanes to a histogram record. -/
  | vhist (c : CoreId) (now : Bool) (us : List Upset)
  /-- VSTE (R115): VSTE computes straight-through gradients dx or ds of a quantisation. -/
  | vste (c : CoreId) (now : Bool) (us : List Upset)
  /-- VFIX (R133): VFIX converts between FX64 and FP32 with scale k. -/
  | vfix (c : CoreId) (now : Bool) (us : List Upset)
  /-- VADDX (R40): VADDX adds FX64 lanes under add_fx. -/
  | vaddx (c : CoreId) (now : Bool) (us : List Upset)
  /-- VSEL (R40): VSEL selects lanes of VA or VB by the mask in VC. -/
  | vsel (c : CoreId) (now : Bool) (us : List Upset)
  /-- VBCAST (R40): VBCAST writes a scalar into every lane. -/
  | vbcast (c : CoreId) (now : Bool) (us : List Upset)
  /-- VMOVS (R40): VMOVS moves one lane into an S register. -/
  | vmovs (c : CoreId) (now : Bool) (us : List Upset)
  /-- XFER_COPY (R41): XFER COPY queues one DMA transfer in the mode given. -/
  | xferCopy (c : CoreId) (us : List Upset)
  /-- PASS (R65): MPASS PASS queues one matrix-unit pass on MU0 or MU1. -/
  | pass (c : CoreId) (us : List Upset)
  /-- QOP_PUSH (R208): QOP PUSH offers cells from the scratchpad to a queue tail, stalling while the queue is full.
  -/
  | qopPush (c : CoreId) (now : Bool) (us : List Upset)
  /-- QOP_POP (R210): QOP POP writes cells from a queue head to the scratchpad, or Q_LAST when empty. -/
  | qopPop (c : CoreId) (now : Bool) (us : List Upset)
  /-- QOP_DROP (R211): QOP DROP discards the rest of the current packet. -/
  | qopDrop (c : CoreId) (now : Bool) (us : List Upset)
  /-- QOP_STAT (R212): QOP STAT writes the queue status into SD. -/
  | qopStat (c : CoreId) (now : Bool) (us : List Upset)
  /-- QOP_COMMIT (R214): QOP COMMIT sends a commit marker for the core's tentative key. -/
  | qopCommit (c : CoreId) (now : Bool) (us : List Upset)
  /-- QOP_CANCEL (R214): QOP CANCEL sends a cancel marker for the core's tentative key. -/
  | qopCancel (c : CoreId) (now : Bool) (us : List Upset)
  /-- DISP_ROUTE (R155): DISP ROUTE sends a routing request to the die's dispatch unit. -/
  | dispRoute (c : CoreId) (now : Bool) (us : List Upset)
  /-- DISP_COMMIT (R167): DISP COMMIT sends commit markers for an open tentative entry and closes it. -/
  | dispCommit (c : CoreId) (now : Bool) (us : List Upset)
  /-- DISP_CANCEL (R167): DISP CANCEL sends cancel markers for an open tentative entry and closes it. -/
  | dispCancel (c : CoreId) (now : Bool) (us : List Upset)
  /-- DISP_STAT (R172): DISP STAT writes the status of the core's last dispatch request to SD. -/
  | dispStat (c : CoreId) (now : Bool) (us : List Upset)
  /-- SIGNAL (R52): SYNC SIGNAL queues an addition to a semaphore of a target core. -/
  | signal (c : CoreId) (us : List Upset)
  /-- WAIT (R53): SYNC WAIT blocks issue until a semaphore reaches the threshold, then subtracts it. -/
  | wait (c : CoreId) (us : List Upset)
  /-- SET (R52): SYNC SET writes a value into a semaphore of the issuing core. -/
  | set (c : CoreId) (us : List Upset)
  /-- FENCE (R51): FENCE blocks issue until the named units and the fabric queue have completed. -/
  | fence (c : CoreId) (us : List Upset)
  /-- SLOT_FILL (R227): SYNC SLOT_FILL marks a guard FILLED when it takes effect. -/
  | slotFill (c : CoreId) (now : Bool) (us : List Upset)
  /-- SLOT_DRAIN (R227): SYNC SLOT_DRAIN marks a guard DRAINED when it takes effect. -/
  | slotDrain (c : CoreId) (now : Bool) (us : List Upset)
  /-- SLOT_WAITF (R227): SYNC SLOT_WAITF blocks issue until a guard is FILLED. -/
  | slotWaitf (c : CoreId) (us : List Upset)
  /-- SLOT_WAITE (R227): SYNC SLOT_WAITE blocks issue until a guard is DRAINED. -/
  | slotWaite (c : CoreId) (us : List Upset)
  /-- UNIT_INSTR_START (R49): An instruction at the head of a unit queue starts once every guard it names allows it.
  -/
  | unitInstrStart (c : CoreId) (u : UnitSel) (us : List Upset)
  /-- UNIT_INSTR_COMPLETE (R48): A started unit instruction completes, takes its slot actions and releases waiting
  FENCEs. -/
  | unitInstrComplete (c : CoreId) (u : UnitSel) (us : List Upset)
  /-- HALT_DRAIN_COMPLETE (R57): After a HALT, STOP or STEP drain, the core enters HALTED with its status. -/
  | haltDrainComplete (c : CoreId)
  /-- SEMAPHORE_SIGNAL_APPLY (R54): A SIGNAL reaches its target semaphore and is applied, dropped or held by job
  scope. -/
  | semaphoreSignalApply (c : CoreId)
  /-- HELD_SIGNAL_RETRY (R54): Every 256 FCLK cycles a held SIGNAL retries delivery to a lent or saving core. -/
  | heldSignalRetry (h : Holder)
  /-- SEM_TIMEOUT_EXPIRY (R53): A WAIT times out after SEM_TIMEOUT cycles, writing 0 to PT or halting with 0xF003.
  -/
  | semTimeoutExpiry (c : CoreId)
  /-- SLOT_TIMEOUT_EXPIRY (R229): A guard wait reaches SLOT_TIMEOUT and halts or continues per GUARD_FATAL. -/
  | slotTimeoutExpiry (c : CoreId) (w : Option UnitSel)
  /-- CORE_START (R60): BLK_CTRL.START on a HALTED core begins issue at CORE_PC, or restores a saved image. -/
  | coreStart (c : CoreId)
  /-- CORE_STOP (R60): BLK_CTRL.STOP drains a running core and halts it with status 0xF007. -/
  | coreStop (c : CoreId)
  /-- CORE_STEP (R60): BLK_CTRL.STEP issues one instruction, drains and halts with status 0xF008. -/
  | coreStep (c : CoreId)
  /-- YIELD_REQ (R55): Setting YIELD_REQ asks the core to save at its next yield point. -/
  | yieldReq (c : CoreId)
  /-- CORE_SAVE_COMPLETE (R364): A yield or forced save completes; the core halts, is cleared and, for preemption,
  is handed to the arriving job. -/
  | coreSaveComplete (c : CoreId) (us : List Upset)
  /-- CORE_RESTORE_COMPLETE (R361): The restore of a saved image completes and issue resumes from the saved PC. -/
  | coreRestoreComplete (c : CoreId) (us : List Upset)
  /-- IMEM_DATA_LO_WRITE (R31): A write to IMEM_DATA_LO stores the low half, or is ignored while the core runs. -/
  | imemDataLoWrite (c : CoreId) (v : W64)
  /-- IMEM_DATA_HI_WRITE (R59): A write to IMEM_DATA_HI stores the instruction and advances IMEM_ADDR. -/
  | imemDataHiWrite (c : CoreId) (v : W64)
  /-- IMEM_DATA_HI_READ (R59): A read of IMEM_DATA_HI returns the high half and advances IMEM_ADDR. -/
  | imemDataHiRead (c : CoreId)
  /-- PASS_START (R68): A queued pass starts once its guards and spacing allow, reading and checking its PPB. -/
  | passStart (c : CoreId) (u : MuId) (us : List Upset)
  /-- PASS_COMPLETE (R68): A pass completes after its last drain write, with checks and slot actions. -/
  | passComplete (c : CoreId) (u : MuId) (f : CheckFault) (us : List Upset)
  /-- MU_SPARE_WRITE (R88): A write to MU_SPARE selects the spare row, or is ignored while the core is not HALTED.
  -/
  | muSpareWrite (c : CoreId) (u : MuId) (v : W64)
  /-- VQ_CLR (R118): A VQ_CLR write zeroes the counters and hit bits of the named sets. -/
  | vqClr (c : CoreId) (v : W64)
  /-- DISPATCH_REQUEST_START (R154): A dispatch unit takes the next core's request in round-robin order and checks
  it. -/
  | dispatchRequestStart (u : DuId) (us : List Upset)
  /-- DISPATCH_REQUEST_EFFECT (R154): A dispatch request takes effect once its outputs are written, its packets have
  left and its status is recorded. -/
  | dispatchRequestEffect (u : DuId) (us : List Upset)
  /-- DU_CANCEL (R167): A DU_CANCEL write cancels every open tentative entry of a job. -/
  | duCancel (u : DuId) (v : W64)
  /-- DU_STATCLR (R171): A DU_STATCLR write zeroes DT_HIT of the named tables. -/
  | duStatclr (u : DuId) (v : W64)
  /-- DU_TBL_OWNER_WRITE (R173): A DU_TBL_OWNER write changes the owners of disabled tables only. -/
  | duTblOwnerWrite (u : DuId) (v : W64)
  /-- DU_TBL_EN_WRITE (R161): A DU_TBL_EN write enables or disables tables, a disable waiting for a ROUTE in use. -/
  | duTblEnWrite (u : DuId) (v : W64)
  /-- DT_ENTRY_WRITE (R173): A write to an expert table entry is stored only while the table is disabled. -/
  | dtEntryWrite (u : DuId) (t : Fin 16) (e : QId) (v : W64)
  /-- QUEUE_CELL_ACCEPT (R205): A queue accepts an offered cell into the visible stream or a held key, under
  capacity and job checks. -/
  | queueCellAccept (q : QId) (o : Offer) (us : List Upset)
  /-- QUEUE_POOL_REFILL (R205): The head SRAM refills a chunk of 32 cells from the crevasse pool. -/
  | queuePoolRefill (q : QId) (us : List Upset)
  /-- QUEUE_MARKER_APPLY (R166): A commit or cancel marker reaches a LOCAL queue and resolves the held cells of its
  key. -/
  | queueMarkerApply (q : QId) (o : Offer) (us : List Upset)
  /-- QUEUE_FORWARD_SEND (R215): A forwarding queue sends its next visible cell to its destination queue. -/
  | queueForwardSend (q : QId) (us : List Upset)
  /-- QFC_IN_RISE (R213): A rising edge on a mapped QFC_IN pin signals the queue's notify semaphore. -/
  | qfcInRise (pin : Fin 8) (seen : Bool)
  /-- QUEUE_EN (R222): Writing EN enables a queue after its checks, or turns it off discarding every cell. -/
  | queueEn (q : QId) (on : Bool)
  /-- QUEUE_FLUSH (R220): FLUSH discards visible and held cells and clears the sticky flags. -/
  | queueFlush (q : QId)
  /-- QUEUE_CLR (R222): CLR clears UNDERRUN and PTR_RESET. -/
  | queueClr (q : QId)
  /-- Q_WM_WRITE (R216): A Q_WM write sets the marks and tests the current count in the next cycle. -/
  | qWmWrite (q : QId) (v : W64)
  /-- QUEUE_WINDOW_PUSH (R222): A Q_PUSH_CTL write pushes the window's cell, or discards it when the queue cannot
  accept it. -/
  | queueWindowPush (q : QId) (v : W64)
  /-- SP_LANE_REWRITE (R226): A bank rewrites a corrected lane in its next idle cycle. -/
  | spLaneRewrite (c : CoreId) (us : List Upset)
  /-- SP_CLEAR (R234): A write to SP_CLEAR while HALTED starts zeroing the named regions that are not gecko-
  resident. -/
  | spClear (c : CoreId) (v : W64)
  /-- SP_CLEAR_COMPLETE (R234): The clear of every requested region finishes and CLEARING returns to 0. -/
  | spClearComplete (c : CoreId) (us : List Upset)
  /-- SP_BANK_PWR (R235): An SP_BANK_PWR write requests ON, RETAIN or OFF per bank. -/
  | spBankPwr (c : CoreId) (w : Fin 2) (v : W64)
  /-- BANK_TRANSITION_COMPLETE (R236): A bank reaches its requested state after pending accesses or its wake-up. -/
  | bankTransitionComplete (c : CoreId) (b : Fin 64)
  /-- DMA_TRANSFER_START (R239): The DMA queue hands its head transfer to a channel, which decodes it and issues
  requests. -/
  | dmaTransferStart (c : CoreId) (us : List Upset) (hs : List HostReply)
  /-- DMA_TRANSFER_COMPLETE (R246): A transfer completes when its writes are acknowledged, or after a fault, and
  takes its slot action. -/
  | dmaTransferComplete (c : CoreId) (ch : Fin 4) (us : List Upset) (hs : List HostReply)
  /-- WINDOW_ACCESS_RETRY (R232): An access held for a saving or lent core retries every 256 FCLK cycles. -/
  | windowAccessRetry (w : Waiter) (us : List Upset) (err : Option CxlErr)
  /-- MEM_REQUEST (R255): A GDDR7 controller receives a request, checks its memory window and queues it. -/
  | memRequest (g : CtrlId) (a : Asker) (job : JobId) (addr len : Nat) (data : Option (List Byte)) (us : List Upset)
  /-- MEM_REQUEST_COMPLETE (R257): A GDDR7 request completes after SECDED and CRC handling. -/
  | memRequestComplete (g : CtrlId) (crc odecc : Nat) (us : List Upset) (i : Nat := 0)
  /-- GDDR7_RETRAIN (R249): Every MEM_RETRAIN µs a controller retrains, holding traffic for at most 2 µs. -/
  | gddr7Retrain (g : CtrlId) (ok : Bool)
  /-- SCRUB_READ (R256): The patrol scrub reads the next line and corrects or records its error. -/
  | scrubRead (g : CtrlId) (us : List Upset)
  /-- GDDR7_SELF_REFRESH (R264): A management write of SR_REQ puts a device into self-refresh or takes it out. -/
  | gddr7SelfRefresh (g : CtrlId) (by_ : Sender) (on : Bool)
  /-- CXL_PORT_EN (R261): Setting EN of a CXL port starts enumeration; clearing it drives the resets low. -/
  | cxlPortEn (p : PortId) (en : Bool)
  /-- CXL_ENUM_COMPLETE (R261): Enumeration of a port ends with ACTIVE set or ENUM_FAIL. -/
  | cxlEnumComplete (p : PortId) (a b : Option Nat)
  /-- CXL_RESPONSE (R263): A CXL.mem response completes its request. -/
  | cxlResponse (p : PortId) (i : Nat) (poison : Bool)
  /-- CXL_TIMEOUT_EXPIRY (R263): A CXL.mem request has no response after CXL_TIMEOUT HCLK cycles. -/
  | cxlTimeoutExpiry (p : PortId) (i : Nat)
  /-- CXL_LINK_LOSS (R263): A CXL link goes down and its outstanding requests fail. -/
  | cxlLinkLoss (p : PortId) (devB : Bool)
  /-- CXL_CFG_DATA_ACCESS (R265): An access to CXL_CFG_DATA performs a CXL.io configuration read or write. -/
  | cxlCfgDataAccess (p : PortId) (write : Option (BitVec 32)) (reply : BitVec 32)
  /-- LINK_EN (R272): Writing EN of a link starts bring-up or takes the link down. -/
  | linkEn (l : LinkId) (on : Bool) (b : Sender := .owner)
  /-- LANE_LOCK (R272): Both lanes lock their receivers and the link moves to ALIGN; `lanes` says which lanes lock with this
  command. -/
  | laneLock (l : LinkId) (lanes : BitVec 2 := 3)
  /-- LANE_ALIGN (R272): Both lanes reach codeword lock and deskew and the link moves to EXCHANGE. -/
  | laneAlign (l : LinkId)
  /-- PARAM_FLIT (R273): A PARAM flit from the leaf is checked and the link enters ACTIVE or FAILED. -/
  | paramFlit (l : LinkId) (f : List Byte) (corr uncorr : Nat) (accepts : Bool) (more : Bool := false)
  /-- LINK_STATE_TIMEOUT (R272): A bring-up state exceeds its time limit and the link enters FAILED. -/
  | linkStateTimeout (l : LinkId)
  /-- LINK_FAILED_RETRY (R272): After 10 ms in FAILED with AUTO_UP set, the link returns to OPTICS. -/
  | linkFailedRetry (l : LinkId)
  /-- LANE_LOCK_LOSS (R273): A lane loses lock and the link leaves ACTIVE with failover. -/
  | laneLockLoss (l : LinkId) (lane : Fin 2)
  /-- DATA_FLIT (R275): A DATA flit is received, checked, acknowledged and its packets and credit returns taken. -/
  | dataFlit (l : LinkId) (f : List Byte) (corr uncorr : Nat) (more : Bool := false)
  /-- IDLE_FLIT (R274): An IDLE flit is received and its ACK taken. -/
  | idleFlit (l : LinkId) (f : List Byte) (corr uncorr : Nat) (more : Bool := false)
  /-- NAK_FLIT (R275): A NAK flit starts a replay from the oldest unacknowledged flit. -/
  | nakFlit (l : LinkId) (f : List Byte) (corr uncorr : Nat) (more : Bool := false)
  /-- ACK_TIMEOUT_EXPIRY (R275): ACK_TIMEOUT passes without progress and the sender replays. -/
  | ackTimeoutExpiry (l : LinkId)
  /-- LINK_PACKET_START (R279): The link transmitter starts the next eligible packet by class, VC and job priority.
  -/
  | linkPacketStart (l : LinkId)
  /-- QCELLS (R281): A QCELLS packet arrives, is checked and its cells are offered to the target queue. -/
  | qcells (l : LinkId)
  /-- WRITE (R281): A WRITE packet arrives and is performed after window checks, answered by WRITE_ACK. -/
  | write (l : LinkId) (us : List Upset) (err : Option CxlErr)
  /-- READ (R281): A READ packet arrives and is answered by READ_RSP. -/
  | read (l : LinkId) (us : List Upset) (err : Option CxlErr)
  /-- READ_RSP (R281): A READ_RSP completes its read request and frees its tag. -/
  | readRsp (l : LinkId)
  /-- WRITE_ACK (R281): A WRITE_ACK completes its write request and frees its tag. -/
  | writeAck (l : LinkId)
  /-- E2E_TIMEOUT_EXPIRY (R282): A WRITE or READ without response is resent, failing with 0x08 after 4 resends. -/
  | e2eTimeoutExpiry (tag : BitVec 13)
  /-- COLL (R289): A COLL part arrives and updates its transfer's stripe bitmap, completing the transfer with an
  ACK. -/
  | coll (l : LinkId) (us : List Upset)
  /-- COLL_ACK (R290): A COLL_ACK completes a transfer, or names missing stripes, or fails it. -/
  | collAck (l : LinkId)
  /-- COLL_NAK_TIMER_EXPIRY (R290): E2E_TIMEOUT after the last arrival, the receiver sends a NAK naming missing
  stripes. -/
  | collNakTimerExpiry (src : DevId) (job : JobId) (xid : BitVec 16)
  /-- COLL_RESEND_TIMER_EXPIRY (R290): 2 × E2E_TIMEOUT without ACK or NAK, the sender resends every stripe. -/
  | collResendTimerExpiry (dst : DevId) (job : JobId) (xid : BitVec 16)
  /-- QFLOW (R217): A QFLOW message pauses or resumes the forwarding queues that target the queue. -/
  | qflow (l : LinkId)
  /-- REPIN_HOLD_EXPIRY (R286): REPIN_HOLD passes after a plane change and waiting pinned packets leave on the new
  plane. -/
  | repinHoldExpiry (dst : DevId) (job : JobId) (tc : Fin 4)
  /-- ROUTE_ENTRY_WRITE (R284): A routing entry write updates both dies and counts in ROUTE_GEN. -/
  | routeEntryWrite (dst : DevId) (v : W64)
  /-- PLANE_EN_WRITE (R286): A PLANE_EN write changes the usable planes and may repin flows. -/
  | planeEnWrite (v : W64)
  /-- TIME_EXCHANGE (R294): Every PERIOD µs the module sends a TIME request to its parent. -/
  | timeExchange
  /-- TIME_REQUEST (R294): A TIME request arrives and is answered with stamps t2 and t3. -/
  | timeRequest (l : LinkId)
  /-- TIME_REPLY (R294): A TIME reply arrives and the offset θ is computed and applied. -/
  | timeReply (l : LinkId)
  /-- HANDOVER_ACCEPT (R302): After a hand-over guard is filled, the RCL reads and checks the record and sends EXP.
  -/
  | handoverAccept (e : QId) (us : List Upset)
  /-- EXP (R305): An EXP message reaches a vertex host, which may complete and send EXP upward or decide the bucket.
  -/
  | exp (src : Option LinkId)
  /-- PENDING (R305): A PENDING message marks a child as awaited without limit. -/
  | pending (src : Option LinkId)
  /-- DEADLINE_EXPIRY (R306): A vertex deadline expires and excludes silent children. -/
  | deadlineExpiry (e : QId) (level : Fin 16)
  /-- DECIDE (R307): A DECIDE message carries N, EB and exclusions down the tree and starts the data phase. -/
  | decide (src : Option LinkId) (us : List Upset)
  /-- RCL_WORK_RESULT (R313): After a work-record guard is filled, the RCL takes the add or optimiser result and
  sends it on. -/
  | rclWorkResult (j : JobId) (c : CoreId) (i : Nat) (us : List Upset)
  /-- RCL_READY_REACHED (R318): A member becomes READY and sends READY to the summit. -/
  | rclReadyReached (j : JobId)
  /-- BELAY_RELEASE (R319): BELAY_N reads high for 4 SCLK cycles and the rack leader sends READY for the rack. -/
  | belayRelease (j : JobId)
  /-- READY (R320): A READY message reaches the summit, which commits when the count reaches G. -/
  | ready (src : Option LinkId)
  /-- FAIL (R320): A FAIL message reaches the summit, which abandons the step. -/
  | fail (src : Option LinkId)
  /-- COMMIT (R321): A COMMIT is applied: EPOCH bits flip, JOB_STEP increments and a notify record is written. -/
  | commit (src : Option LinkId)
  /-- ABANDON (R323): An ABANDON ends the step's buckets, increments ATTEMPT and notifies. -/
  | abandon (src : Option LinkId)
  /-- COMMIT_TIMEOUT_EXPIRY (R320): COMMIT_TIMEOUT passes at the summit without a full count and the step is
  abandoned. -/
  | commitTimeoutExpiry (j : JobId)
  /-- COMMIT_WAIT_EXPIRY (R320): A READY member waits past COMMIT_TIMEOUT and reports it once. -/
  | commitWaitExpiry (j : JobId)
  /-- CAIRN_COMPLETE (R326): A cairn's writes finish or fail. -/
  | cairnComplete (j : JobId) (err : Option CxlErr)
  /-- JOB_EN (R328): Writing JOB_CTRL.EN makes the RCL serve or stop serving a job. -/
  | jobEn (j : JobId) (on : Bool)
  /-- JOB_BELAY_EN (R319): Writing BELAY_EN makes the job drive BELAY_N. -/
  | jobBelayEn (j : JobId) (on : Bool)
  /-- JOB_FAIL (R322): Writing JOB_CTRL.FAIL marks the step failed and sends FAIL. -/
  | jobFail (j : JobId)
  /-- SQ_DOORBELL (R340): A producer doorbell write moves a descriptor ring's PROD or raises a ring error. -/
  | sqDoorbell (r : RingId) (b : Sender) (v : W64)
  /-- CQ_DOORBELL (R340): A consumer doorbell write frees completion or event ring entries. -/
  | cqDoorbell (r : RingId) (b : Sender) (v : W64)
  /-- DESCRIPTOR_FETCH (R342): The Mehrox fetches descriptors once completion places are reserved. -/
  | descriptorFetch (r : RingId) (n : Nat) (reply : HostReply)
  /-- DESCRIPTOR_START (R342): A fetched descriptor starts in ring order, after FENCE where set. -/
  | descriptorStart (r : RingId)
  /-- DESCRIPTOR_COMPLETE (R350): A descriptor completes and its record is written, with MSI-X as due. -/
  | descriptorComplete (r : RingId) (i : Nat)
  /-- HOST_NOP (R346): A NOP descriptor completes with no effect. -/
  | hostNop (r : RingId) (i : Nat := 0)
  /-- LOAD_PROG (R346): LOAD_PROG writes instructions into the memory of HALTED cores. -/
  | loadProg (r : RingId) (us : List Upset) (hs : List HostReply) (err : Option CxlErr) (i : Nat := 0)
  /-- RUN (R347): RUN sets CORE_PC and START on the named cores. -/
  | run (r : RingId) (i : Nat := 0)
  /-- RUN_COMPLETE (R347): Every core of a RUN has halted and the RUN completes with its status. -/
  | runComplete (r : RingId) (i : Nat)
  /-- RUN_TIMEOUT_EXPIRY (R347): A RUN's TIMEOUT expires and STOP is set on its running cores. -/
  | runTimeoutExpiry (r : RingId) (i : Nat)
  /-- COPY (R346): A COPY descriptor moves bytes between host and device memory. -/
  | copy (r : RingId) (us : List Upset) (hs : List HostReply) (err : Option CxlErr) (i : Nat := 0)
  /-- QPUSH (R346): QPUSH pushes cells from host memory into a queue. -/
  | qpush (r : RingId) (hs : List HostReply) (i : Nat := 0)
  /-- QPOP (R348): QPOP waits for a complete packet on a host-consumed queue. -/
  | qpop (r : RingId) (i : Nat := 0)
  /-- QPOP_COMPLETE (R348): A complete packet is copied to host memory and removed. -/
  | qpopComplete (r : RingId) (i : Nat) (us : List Upset)
  /-- QPOP_TIMEOUT_EXPIRY (R348): No complete packet arrives in time and QPOP completes with TIMEOUT. -/
  | qpopTimeoutExpiry (r : RingId) (i : Nat)
  /-- HOST_SIGNAL (R346): A SIGNAL descriptor adds to a semaphore of a job's core. -/
  | hostSignal (r : RingId) (i : Nat := 0)
  /-- GENERATE (R373): GENERATE opens a monitored request and pushes its request cell. -/
  | generate (r : RingId) (us : List Upset) (err : Option CxlErr) (i : Nat := 0)
  /-- MODEL_INSTALL (R368): MODEL install makes room and copies a model's home image to its resident image. -/
  | modelInstall (r : RingId) (us : List Upset) (hs : List HostReply) (err : Option CxlErr) (i : Nat := 0)
  /-- MODEL_EVICT (R368): MODEL evict writes back a dirty image and clears its residency. -/
  | modelEvict (r : RingId) (us : List Upset) (err : Option CxlErr) (i : Nat := 0)
  /-- MODEL_PIN (R368): MODEL pin sets PINNED. -/
  | modelPin (r : RingId) (i : Nat := 0)
  /-- MODEL_UNPIN (R368): MODEL unpin clears PINNED. -/
  | modelUnpin (r : RingId) (i : Nat := 0)
  /-- MODEL_SET_PRIORITY (R368): MODEL set priority sets the entry's PRIORITY. -/
  | modelSetPriority (r : RingId) (i : Nat := 0)
  /-- JOB_OPEN (R357): JOB_OPEN records a job's priority, driving function and allowed mask. -/
  | jobOpen (i : Nat := 0)
  /-- JOB_CLOSE (R372): JOB_CLOSE closes a job, forcing its cores down when FORCE is 1. -/
  | jobClose (us : List Upset) (err : Option CxlErr) (i : Nat := 0)
  /-- PREEMPT (R363): PREEMPT checks its victims and sets YIELD_REQ on each. -/
  | preempt (i : Nat := 0)
  /-- PREEMPT_TIMEOUT_EXPIRY (R364): PREEMPT_TIMEOUT expires on a victim and a forced save starts. -/
  | preemptTimeoutExpiry (c : CoreId)
  /-- JOB_PLACE (R359): JP_PLACE GO takes the lowest free allowed cores for a job, or none. -/
  | jobPlace (j : JobId) (v : W64)
  /-- JOB_RELEASE (R360): JP_RELEASE frees HALTED cores of a job or returns lent cores to their owner. -/
  | jobRelease (j : JobId) (m : W64)
  /-- MSIX_DELAY_EXPIRY (R351): DELAY µs pass after a due vector and one message is sent. -/
  | msixDelayExpiry (r : RingId)
  /-- MSIX_UNMASK (R351): Unmasking a vector with its pending bit set sends the message. -/
  | msixUnmask (fn : Fin 17) (vec : Fin 2048)
  /-- RING_EN (R345): Writing RING_CFG.EN starts a ring or stops fetching and aborts unstarted descriptors. -/
  | ringEn (r : RingId) (b : Sender) (on : Bool)
  /-- HO_RELEASE (R353): RELEASE from the owner starts the quiesce of step 4 of the handover. -/
  | hoRelease (b : Sender)
  /-- HO_TAKE (R352): TAKE from the standby port starts a handover when allowed, or is refused. -/
  | hoTake (b : Sender)
  /-- HO_HEARTBEAT (R352): HEARTBEAT from the owner proves liveness and clears OWNER_LOST. -/
  | hoHeartbeat (b : Sender)
  /-- HB_TIMEOUT_EXPIRY (R352): HB_TIMEOUT passes without a heartbeat and OWNER_LOST is set. -/
  | hbTimeoutExpiry
  /-- OWNER_LINK_DOWN_TIMER (R352): The owner port's data link has been down for 100 ms and OWNER_LOST is set. -/
  | ownerLinkDownTimer
  /-- HANDOVER_COMPLETE (R353): Outstanding host requests finish, rings and windows are cleared and, after TAKE, the
  roles swap. -/
  | handoverComplete (answers : Bool)
  /-- PORT_DATA_LINK_DOWN (R356): A host port's data link goes down. -/
  | portDataLinkDown (hb : Bool)
  /-- FLR_PF (R354): An FLR of the owner PF clears its rings and windows and disables its VFs. -/
  | flrPf (hb answers : Bool)
  /-- FLR_VF (R354): An FLR of a VF clears and aborts the rings it drives. -/
  | flrVf (n : Fin 16) (answers : Bool)
  /-- BAR4_ACCESS (R337): A BAR4 access reaches a core's scratchpad, checked for VFs. -/
  | bar4Access (b : Sender) (o len : Nat) (data : Option (List Byte)) (us : List Upset) (e : Tlp := .good)
  /-- MOD_RESET (R399): HOST_CTRL.MOD_RESET starts a module reset. -/
  | modReset (b : Sender) (x : Straps)
  /-- PERST_N_OWNER (R399): Assertion of the owner port's PERST_N starts a MOD reset. -/
  | perstNOwner (x : Straps)
  /-- PERST_N_STANDBY (R333): PERST_N of the standby port resets only its function. -/
  | perstNStandby
  /-- TEL_EXPORT (R389): TEL_EXPORT GO triggers an export of a job, merging with a pending one. -/
  | telExport (v : W64)
  /-- TEL_EXPORT_RUN (R389): The next pending export starts when the previous one has finished. -/
  | telExportRun (us : List Upset)
  /-- TEL_EXPORT_DONE (R392): An export finishes writing its snapshot or fails. -/
  | telExportDone (us : List Upset)
  /-- POWER_INPUT_VALID (R397): 54 V becomes valid and PD63 starts on its oscillator. -/
  | powerInputValid
  /-- PON_TIMER_EXPIRY (R397): After 10 ms of valid input, PD63 switches PD62 on with PON reset. -/
  | ponTimerExpiry
  /-- BOOT_CLOCK_READY (R397): SCLK is present and the KCLK PLL locks; the boot ROM latches straps and verifies the
  image. -/
  | bootClockReady (x : Straps)
  /-- BOOT_DONE (R397): The firmware finishes bring-up and sets BOOT_DONE. -/
  | bootDone
  /-- POWER_INPUT_LOST (R451): The 54 V input is lost and every domain switches off. -/
  | powerInputLost
  /-- PD_REQ_WRITE (R395): A PD_REQ write requests domains on or off, subject to refusal. -/
  | pdReqWrite (b : Sender) (v : W64)
  /-- PD_SWITCH_ON_COMPLETE (R395): A domain finishes switching on with its PDR reset. -/
  | pdSwitchOnComplete (d : Fin 64)
  /-- POWER_STAGE_FAULT (R396): A power stage reports a fault and the domain with its descendants switches off. -/
  | powerStageFault (d : Fin 64)
  /-- SCLK_LOSS (R401): SCLK or the ACLK PLL lock is lost and every domain except PD60–PD63 is held. -/
  | sclkLoss (sclk : Bool)
  /-- CLOCK_RECOVERY_TIMER (R401): SCLK has been present for 1 ms with the ACLK PLL locked, and a MOD reset runs. -/
  | clockRecoveryTimer (x : Straps)
  /-- KCLK_PLL_LOSS (R401): The KCLK PLL loses lock and KCLK switches to the oscillator. -/
  | kclkPllLoss
  /-- KCLK_PLL_RELOCK (R401): The KCLK PLL locks again and an MGR reset runs. -/
  | kclkPllRelock
  /-- MCLK_PLL_LOSS (R401): A die's MCLK PLL loses lock and its controllers clear READY. -/
  | mclkPllLoss (die : Fin 2)
  /-- MCLK_PLL_RELOCK (R401): The MCLK PLL locks again and the firmware retrains and rewrites the devices. -/
  | mclkPllRelock (die : Fin 2)
  /-- LCLK_PLL_LOSS (R401): An engine's LCLK PLL loses lock and its four links leave ACTIVE. -/
  | lclkPllLoss (k : Fin 6)
  /-- LCLK_PLL_RELOCK (R401): The LCLK PLL locks again and bring-up restarts under AUTO_UP. -/
  | lclkPllRelock (k : Fin 6)
  /-- HOST_REFCLK_LOSS (R401): A host port's PCIe reference clock is lost and its link goes down. -/
  | hostRefclkLoss (hb : Bool)
  /-- CXL_REFCLK_LOSS (R401): A CXL port's reference clock is lost and its requests fail. -/
  | cxlRefclkLoss (p : PortId)
  /-- CXL_REFCLK_RESTORED (R401): The reference has been present for 1 ms and the port is enumerated again. -/
  | cxlRefclkRestored (p : PortId)
  /-- GOVERNOR_EVALUATION (R402): Every 100 ns the governor steps ACLK down, up or holds. -/
  | governorEvaluation (x : Sensors)
  /-- GOV_CFG_WRITE (R403): A GOV_CFG write sets the ceiling and floor, or sets CFG_ERR. -/
  | govCfgWrite (b : Sender) (v : W64)
  /-- JUNCTION_OVERTEMP (R405): A sensor reads 110 °C twice and every domain but PD62 and PD63 switches off. -/
  | junctionOvertemp
  /-- THERMAL_RECOVERY_TIMER (R405): After 1 s at or below TJ_THROTTLE, a MOD reset runs and THERMTRIP_N is
  released. -/
  | thermalRecoveryTimer (x : Straps)
  /-- BRUMATION_GO (R406): BRUM_CTRL.GO starts brumation entry, or is refused. -/
  | brumationGo (b : Sender) (v : W64)
  /-- BRUMATION_ENTRY_END (R406): Self-refresh is reached and the domains switch off down to PD62. -/
  | brumationEntryEnd (wake : Bool := false)
  /-- WAKE_N (R407): WAKE_N low for 1 µs wakes the module, or stops a brumation entry. -/
  | wakeN
  /-- WAKE_COMPLETE (R407): The wake sequence ends with PD_REQ restored. -/
  | wakeComplete
  /-- WDT_KICK (R409): A WDT_KICK write restarts the watchdog. -/
  | wdtKick (b : Sender)
  /-- WDT_TIMEOUT_EXPIRY (R409): The watchdog expires and an MGR reset starts. -/
  | wdtTimeoutExpiry
  /-- MGR_RESET_COMPLETE (R400): After an MGR reset the boot ROM verifies the image and restarts the firmware or
  enters recovery. -/
  | mgrResetComplete
  /-- ATTEST (R417): ATTEST writes a signed attestation report for a nonce. -/
  | attest (m : Option (Nat × List Byte)) (p : Via := .vdm false)
  /-- GET_CERT (R419): GET_CERT returns a certificate into SEC_BUF. -/
  | getCert (m : Option (Nat × List Byte)) (p : Via := .vdm false)
  /-- ENROL (R416): ENROL installs an owner key, burning an OTP slot. -/
  | enrol (m : Option (Nat × List Byte)) (p : Via := .vdm false)
  /-- REVOKE (R416): REVOKE returns the module to OWNER_MODE 0. -/
  | revoke (m : Option (Nat × List Byte)) (p : Via := .vdm false)
  /-- STAGE (R419): STAGE copies 4 KiB from SEC_BUF into the staging area. -/
  | stage
  /-- COMMIT_FW (R413): COMMIT_FW verifies the staged image and writes it to the flash slot. -/
  | commitFw (flashOk : Bool)
  /-- ACTIVATE (R400): ACTIVATE performs an MGR reset to run the new image. -/
  | activate
  /-- SET_ENDPOINT_ID (R420): MCTP Set Endpoint ID assigns the endpoint ID. -/
  | setEndpointId (op eid : Byte) (p : Via := .vdm false)
  /-- GET_ENDPOINT_ID (R420): MCTP Get Endpoint ID returns the endpoint ID. -/
  | getEndpointId (p : Via := .vdm false)
  /-- GET_MCTP_VERSION_SUPPORT (R420): MCTP Get MCTP Version Support returns versions. -/
  | getMctpVersionSupport (typ : Byte) (p : Via := .vdm false)
  /-- GET_MESSAGE_TYPE_SUPPORT (R420): MCTP Get Message Type Support returns message types. -/
  | getMessageTypeSupport (p : Via := .vdm false)
  /-- GET_VENDOR_DEFINED_MESSAGE_SUPPORT (R420): MCTP Get Vendor Defined Message Support returns vendor support. -/
  | getVendorDefinedMessageSupport (sel : Byte) (p : Via := .vdm false)
  /-- GET_TID (R420): PLDM GetTID returns the terminus ID. -/
  | getTid (p : Via := .vdm false)
  /-- GET_PLDM_VERSION (R420): PLDM GetPLDMVersion returns versions. -/
  | getPldmVersion (typ : Byte) (p : Via := .vdm false)
  /-- GET_PLDM_TYPES (R420): PLDM GetPLDMTypes returns supported types. -/
  | getPldmTypes (p : Via := .vdm false)
  /-- GET_PLDM_COMMANDS (R420): PLDM GetPLDMCommands returns supported commands. -/
  | getPldmCommands (typ : Byte) (version : BitVec 32) (p : Via := .vdm false)
  /-- GET_SENSOR_READING (R420): PLDM GetSensorReading returns a numeric sensor. -/
  | getSensorReading (id : BitVec 16) (p : Via := .vdm false)
  /-- GET_STATE_SENSOR_READINGS (R420): PLDM GetStateSensorReadings returns state sensors. -/
  | getStateSensorReadings (id : BitVec 16) (p : Via := .vdm false)
  /-- GET_PDR_REPOSITORY_INFO (R420): PLDM GetPDRRepositoryInfo returns repository information. -/
  | getPdrRepositoryInfo (p : Via := .vdm false)
  /-- GET_PDR (R420): PLDM GetPDR returns a PDR. -/
  | getPdr (handle : BitVec 32) (p : Via := .vdm false)
  /-- QUERY_DEVICE_IDENTIFIERS (R420): PLDM QueryDeviceIdentifiers returns identifiers. -/
  | queryDeviceIdentifiers (p : Via := .vdm false)
  /-- GET_FIRMWARE_PARAMETERS (R420): PLDM GetFirmwareParameters returns the component parameters. -/
  | getFirmwareParameters (p : Via := .vdm false)
  /-- REQUEST_UPDATE (R420): PLDM RequestUpdate enters update mode. -/
  | requestUpdate (size : BitVec 32) (p : Via := .vdm false)
  /-- PASS_COMPONENT_TABLE (R420): PLDM PassComponentTable accepts the component table. -/
  | passComponentTable (p : Via := .vdm false)
  /-- UPDATE_COMPONENT (R420): PLDM UpdateComponent starts the image transfer into staging. -/
  | updateComponent (image : List Byte) (flashOk : Bool) (p : Via := .vdm false)
  /-- ACTIVATE_FIRMWARE (R420): PLDM ActivateFirmware runs the image by an MGR reset. -/
  | activateFirmware (p : Via := .vdm false)
  /-- GET_STATUS (R420): PLDM GetStatus returns the update status. -/
  | getStatus (p : Via := .vdm false)
  /-- CANCEL_UPDATE (R420): PLDM CancelUpdate abandons the update. -/
  | cancelUpdate (p : Via := .vdm false)
  /-- SHELF_ALERT_ASSERT (R452): SHELF_ALERT_N asserted lowers PEAK_W and SUST_W to 1,800 W. -/
  | shelfAlertAssert
  /-- SHELF_ALERT_RELEASE (R452): SHELF_ALERT_N released restores the power limits. -/
  | shelfAlertRelease
  /-- COOLANT_ALERT_ASSERT (R452): COOLANT_ALERT_N asserted lowers TJ_THROTTLE to 85 °C. -/
  | coolantAlertAssert
  /-- COOLANT_ALERT_RELEASE (R452): COOLANT_ALERT_N released restores TJ_THROTTLE. -/
  | coolantAlertRelease
  /-- TAP_RESET (R449): TRST_N or five TCK cycles with TMS high reset the TAP to Test-Logic-Reset. -/
  | tapReset
  /-- EXTEST (R449): EXTEST drives and captures the sideband and PWR signal pins. -/
  | extest (v : BitVec 64) (outer : BitVec 64 := 0x3FFFFFFFFF#64)
  /-- IDCODE (R449): IDCODE selects the 32-bit identification register. -/
  | idcode
  /-- SAMPLE_PRELOAD (R449): SAMPLE/PRELOAD captures the pins without disturbing them. -/
  | samplePreload (v : BitVec 64) (outer : BitVec 64 := 0x3FFFFFFFFF#64)
  /-- CLAMP (R449): CLAMP holds the preloaded values with BYPASS selected. -/
  | clamp
  /-- HIGHZ (R449): HIGHZ puts every boundary-scan output in high impedance. -/
  | highz
  /-- DBG (R449): Update-DR of DBG starts one 64-bit BAR0 register access. -/
  | dbg (v : BitVec 96) (x : RegExt)
  /-- BYPASS (R449): Any other instruction selects the one-bit bypass. -/
  | bypass (ir : Byte)
  /-- PERST_N_RELEASE (R397): Release of the owner port's PERST_N lets step 8 of the power-on or MOD reset sequence
  proceed to BOOT_DONE. -/
  | perstNRelease (hb : Bool)
  /-- PORT_DATA_LINK_UP (R355): A host port's PCIe data link comes up, setting HA_UP or HB_UP and ending the owner
  link-down interval of R352. -/
  | portDataLinkUp (hb : Bool)
  /-- PCIE_CONFIG_WRITE (R333): A PCIe configuration write sets VF Enable, power state or device control on a port's
  function, and is ignored on the standby port's VF Enable. -/
  | pcieConfigWrite (hb : Bool) (fn : Fin 17) (c : PcieCfg)
  /-- COMPLETION_TIMEOUT_EXPIRY (R331): A host-port request gets no completion within the PCIe completion timeout
  and fails with HOST_ERROR or code 0x09. -/
  | completionTimeoutExpiry (w : HostWait)
deriving DecidableEq, Repr

end Sys2Proof
end

