-- ==== Sys2Proof/Decode.lean ====
section
/-!
DEFINITION. The command a word spells. The opcode table gives no row any bits (its rows have no fields), so no word spells a
command; the instruction words of a core are data of its instruction memory and are read by the core (R32, R33).
-/

namespace Sys2Proof

/-- The command that a word of the opcode table spells: none, for every word. -/
def decodeTableWord (_nbits _w : Nat) : Option Instr := none

end Sys2Proof
end

