-- ==== Sys2Proof/Machine/Bits.lean ====
section
/-!
DEFINITION. Bit fields, little-endian byte strings and saturating counters (R4, R9): the helpers every other file of
the machine reads values with.
-/

namespace Sys2Proof.Machine

/-- The field of `len` bits whose lowest bit is bit `lo` (R4). -/
def fld {n : Nat} (w : BitVec n) (lo len : Nat) : Nat := (w.toNat >>> lo) % 2 ^ len

/-- The field of `len` bits of a number, lowest bit `lo`. -/
def nfld (x lo len : Nat) : Nat := (x >>> lo) % 2 ^ len

/-- Bit `i` of a word. -/
def bit {n : Nat} (w : BitVec n) (i : Nat) : Bool := w.getLsbD i

/-- A word with the field of `len` bits at `lo` replaced by `v`. -/
def setFld {n : Nat} (w : BitVec n) (lo len v : Nat) : BitVec n :=
  let mask := BitVec.ofNat n ((2 ^ len - 1) <<< lo)
  (w &&& ~~~mask) ||| (BitVec.ofNat n ((v % 2 ^ len) <<< lo))

/-- A word with bit `i` set. -/
def setBit {n : Nat} (w : BitVec n) (i : Nat) : BitVec n := w ||| BitVec.ofNat n (2 ^ i)

/-- A word with bit `i` cleared. -/
def clrBit {n : Nat} (w : BitVec n) (i : Nat) : BitVec n := w &&& ~~~(BitVec.ofNat n (2 ^ i))

/-- A word with bit `i` written. -/
def putBit {n : Nat} (w : BitVec n) (i : Nat) (b : Bool) : BitVec n := if b then setBit w i else clrBit w i

/-- The signed reading of the low `n` bits of a number. -/
def sext (n x : Nat) : Int :=
  let y := x % 2 ^ n
  if 2 * y < 2 ^ n then (y : Int) else (y : Int) - (2 ^ n : Nat)

/-- The two's complement code of an integer in `n` bits. -/
def ofInt (n : Nat) (x : Int) : Nat := (x % ((2 ^ n : Nat) : Int)).toNat

/-- The number a little-endian byte string spells (R4). -/
def leNat : List Byte → Nat
  | [] => 0
  | b :: bs => b.toNat + 256 * leNat bs

/-- The little-endian byte string of length `n` that spells a number (R4). -/
def leBytes : Nat → Nat → List Byte
  | 0, _ => []
  | n + 1, x => BitVec.ofNat 8 x :: leBytes n (x / 256)

/-- Bytes `off` to `off + len - 1` of a byte string as a little-endian number; absent bytes read as zero. -/
def leAt (bs : List Byte) (off len : Nat) : Nat := leNat ((bs.drop off).take len)

/-- A list split into pieces of `n` elements, at most `fuel` of them. -/
def chunks {α : Type} (n : Nat) : Nat → List α → List (List α)
  | 0, _ => []
  | fuel + 1, l => if l.isEmpty then [] else l.take n :: chunks n fuel (l.drop n)

/-- A counter field that stops at its maximum (R59, R90, R118). -/
def satAdd (width x k : Nat) : Nat := if x + k < 2 ^ width then x + k else 2 ^ width - 1

/-- The positions of the set bits of a word, ascending. -/
def bitsSet {n : Nat} (w : BitVec n) : List Nat := (List.range n).filter (fun i => w.getLsbD i)

/-- The number of set bits of a number below bit `n`. -/
def popCount (n x : Nat) : Nat := ((List.range n).filter (fun i => x.testBit i)).length

/-- `x` rounded up to a multiple of `n`. -/
def alignUp (x n : Nat) : Nat := (x + n - 1) / n * n

/-- An element of a list, or a value where the list is shorter. -/
def getD {α : Type} (l : List α) (i : Nat) (d : α) : α := (l[i]?).getD d

/-- A list with element `i` replaced; unchanged where the list is shorter. -/
def listSet {α : Type} (l : List α) (i : Nat) (x : α) : List α := l.set i x

/-- The number as an index below `n`, none when it is not below `n`. -/
def fin? (n x : Nat) : Option (Fin n) := if h : x < n then some ⟨x, h⟩ else none

/-- Every index below `n`, ascending. -/
def allFin (n : Nat) : List (Fin n) := List.finRange n

end Sys2Proof.Machine
end

