-- ==== Sys2Proof/Machine/Memory.lean ====
section
/-!
DEFINITION. Byte memory: a list of (address, byte) pairs in one canonical form, addresses strictly rising and no entry
equal to zero, which is what an address without an entry reads as (R395, R397: scratchpads and GDDR7 devices are
zeroed; the CXL tier by DESIGN CHOICE, log entry 2). Sparse tables keyed by number, in the same form.
-/

namespace Sys2Proof.Machine

/-- A byte memory (R224, R249, R262). -/
abbrev Memory := List Host.Cell

/-- Reading one byte. -/
def Memory.get (m : Memory) (a : Nat) : Byte :=
  match m with
  | [] => 0#8
  | (b, x) :: rest => if b = a then x else Memory.get rest a

/-- Writing one byte: a zero removes the entry, so that equal memories are equal lists. -/
def Memory.set (m : Memory) (a : Nat) (v : Byte) : Memory :=
  match m with
  | [] => if v = 0#8 then [] else [(a, v)]
  | (b, x) :: rest =>
    if a < b then (if v = 0#8 then (b, x) :: rest else (a, v) :: (b, x) :: rest)
    else if b = a then (if v = 0#8 then rest else (a, v) :: rest)
    else (b, x) :: Memory.set rest a v

/-- Reading `n` bytes from address `a` on. -/
def Memory.read (m : Memory) (a n : Nat) : List Byte := (List.range n).map (fun i => Memory.get m (a + i))

/-- Writing a byte string from address `a` on. -/
def Memory.write (m : Memory) (a : Nat) (bs : List Byte) : Memory :=
  match bs with
  | [] => m
  | b :: rest => Memory.write (Memory.set m a b) (a + 1) rest

/-- Zeroing the `n` bytes from address `a` on. -/
def Memory.zero (m : Memory) (a n : Nat) : Memory := m.filter (fun c => c.1 < a || a + n ≤ c.1)

/-- The canonical form: addresses strictly rising, no zero byte listed. -/
def Memory.wf : Memory → Bool
  | [] => true
  | [(_, x)] => x != 0#8
  | (a, x) :: (b, y) :: rest => decide (a < b) && x != 0#8 && Memory.wf ((b, y) :: rest)

/-- A sparse table: entries sorted by key, unlisted keys at a value its reader supplies. -/
abbrev Table (α : Type) := List (Nat × α)

/-- The entry of a key. -/
def tget {α : Type} (t : Table α) (k : Nat) : Option α :=
  match t with
  | [] => none
  | (j, x) :: rest => if j = k then some x else tget rest k

/-- The table without the entry of a key. -/
def tdel {α : Type} (t : Table α) (k : Nat) : Table α := t.filter (fun e => e.1 != k)

/-- The table with the entry of a key replaced or put in order. -/
def tset {α : Type} (t : Table α) (k : Nat) (v : α) : Table α :=
  match t with
  | [] => [(k, v)]
  | (j, x) :: rest =>
    if k < j then (k, v) :: (j, x) :: rest
    else if j = k then (k, v) :: rest
    else (j, x) :: tset rest k v

end Sys2Proof.Machine
end

