-- ==== Sys2Proof/Machine/CoreState.lean ====
section
/-!
DEFINITION. The state of one stage core as plain data (R27): scalar and vector registers, codebook slots, instruction
memory, scratchpad, guards, semaphores, the five unit queues with what they have started, and the matrix units.
-/

namespace Sys2Proof.Machine

/-- An instruction in a unit queue: its index, its word, and the scalar registers as they stood at issue (R47).
`after` is the MU0 pass issued directly before an MU1 pass; `mate` marks both passes of a pair (R189). -/
structure Entry where
  pc : Nat
  word : W128
  s : List W64
  after : Option (Nat × W128 × List W64) := none
  mate : Bool := false
deriving DecidableEq, Repr

/-- One loop level: the count left and the body's first and last index (R37). -/
structure LoopLevel where
  count : W64 := 0#64
  first : Nat := 0
  last : Nat := 0
deriving DecidableEq, Repr

/-- The kind of a codebook slot (R96). -/
inductive CbKind where
  | identity | c4 | c8
deriving DecidableEq, Repr

/-- A codebook slot: its kind, its 256 levels by unsigned code (none for identity), and its tag (R96, R97, R120). -/
structure CbSlot where
  kind : CbKind := .identity
  levels : List (BitVec 16) := []
  tag : BitVec 16 := 0#16
deriving DecidableEq, Repr

/-- The four counters of a quantiser counter set (R118). -/
structure QuantSet where
  elem : W64 := 0#64
  sat : W64 := 0#64
  ufl : W64 := 0#64
  nonfin : W64 := 0#64
deriving DecidableEq, Repr

/-- The power state of a scratchpad bank; in `trans` the bank closes or wakes towards ON (0), RETAIN (1) or
OFF (2) (R235, R236). -/
inductive Bank where
  | on | retain | off
  | trans (dst : BitVec 2)
deriving DecidableEq, Repr

/-- Why a core drains (R55, R56, R57, R60): a HALT with its status, STOP, STEP, an honoured YIELD with its index and
mask, a fault with its status, or a forced save. -/
inductive Drain where
  | halt (status : BitVec 16)
  | stop
  | step
  | yield (pc : Nat) (mask : W64)
  | fault (status : BitVec 16)
  | forced
deriving DecidableEq, Repr

/-- The STATE of a core (R60). -/
inductive Run where
  | halted
  | running
  | draining (why : Drain)
  | saving (why : Drain)
  | restoring (stepping : Bool)
deriving DecidableEq, Repr

/-- An instruction that blocks issue (R45, R51, R53, R229). -/
inductive Blocked where
  | wait (sem value pt : Nat)
  | fence (units : Nat) (fab : Bool)
  | slot (guard : Nat) (filled : Bool) (pt : Nat)
deriving DecidableEq, Repr

/-- A SIGNAL held at the issuing core (R54). -/
structure HeldSig where
  target : Nat
  sem : Nat
  value : Nat
  pc : Nat
deriving DecidableEq, Repr

/-- A started vector operation: the scalar register it still has to write (R47), and the guard and faults are decided
at its start. -/
structure VeRun where
  pc : Nat
  sd : Option (Nat × W64) := none
deriving DecidableEq, Repr

/-- How a started matrix pass will end (R68, R86, R89): in a drain, after a parameter fault, after invalid metadata that
streamed in, after an operand error, or refused by gecko residency or a bank. -/
inductive PassEnd where
  | normal | param | badInfo | operand | denied
deriving DecidableEq, Repr

/-- The operand a matrix unit holds for a later pass: the mode (1 WS, 2 IS) and the 8 × 256 bytes of the held image
with the held metadata (R75, R147). -/
structure HeldOp where
  mode : Nat
  image : List Byte
  info : List Byte
deriving DecidableEq, Repr

/-- The edge, held and output offsets of a pass, whether it loads its held operand, and the half of the left edge that the
MU1 pass of a pair takes (R69, R71, R75, R189). -/
structure PassAt where
  saa : Nat := 0
  sab : Nat := 0
  sac : Nat := 0
  loads : Bool := false
  pair : Option Nat := none
deriving DecidableEq, Repr

/-- What a pass computes from: the scratchpad as it stood when the pass started, and the held image with the held
metadata. -/
structure PassSrc where
  sp : Memory := []
  held : List Byte := []
  info : List Byte := []
deriving DecidableEq, Repr

/-- A started matrix pass: its entry and offsets, its parameter block, how it will end, its C slot, and what it has taken
at its start, the levels of the codebook slots among it (R68, R98). `shared` says that an earlier pass of the unit was still
under way, `before` is the operand that the unit held before. -/
structure PassRun where
  entry : Entry
  place : PassAt := {}
  ppb : List Byte := []
  ending : PassEnd
  slotc : Option Nat := none
  src : PassSrc := {}
  cbs : Vector CbSlot 16 := Vector.replicate 16 {}
  shared : Bool := false
  before : Option HeldOp := none
deriving DecidableEq, Repr

/-- One matrix unit: its started passes, oldest first, and its held operand. -/
structure Mu where
  runs : List PassRun := []
  held : Option HeldOp := none
deriving DecidableEq, Repr

/-- A request a transfer still has to make: the check of a gathered row's source span, the fault that the read of a gather
list has met (R246), a read of at most 64 bytes (16 units from a peer) with its place in the source stream, or a write. -/
inductive DmaReq where
  | fault (code addr : Nat)
  | span (addr len : Nat)
  | read (addr len off : Nat)
  | write (addr : Nat) (data : List Byte)
deriving DecidableEq, Repr

/-- A request of a transfer that a peer has still to answer: its tag, its device address, the place of a read in the
source stream, and its length (R239, R282). -/
structure DmaOut where
  tag : Nat
  addr : Nat
  off : Nat
  len : Nat
deriving DecidableEq, Repr

/-- A started DMA transfer (R239 to R246): the requests still to make, the source bytes that have come by their place in
the source stream, the requests out to peers, to the tier and to the host, the failure met and the requests given up at it. `seq`
names the transfer; `writing` says that its source has been read. -/
structure DmaRun where
  seq : Nat
  pc : Nat
  word : W128
  dst : Nat := 0
  job : Option Nat
  writing : Bool := false
  todo : List DmaReq := []
  parts : List (Nat × List Byte) := []
  out : List DmaOut := []
  cxl : Nat := 0
  hreads : Nat := 0
  fail : Option (Nat × W64) := none
  lost : List DmaReq := []
deriving DecidableEq, Repr

/-- What the fabric queue has started: a QOP with the cells of a PUSH already accepted, or a dispatch request handed
over to the dispatch unit. -/
inductive FabRun where
  | qop (e : Entry) (done : Nat)
  | disp (e : Entry)
deriving DecidableEq, Repr

/-- One stage core (R27). `pc` runs from 0 to 32,768, one past the last index (R30, R31). `beat` is the start of the beat in
progress, `beatHeld` the duration of one whose timer a forced save has stopped (R387). -/
structure Core where
  pc : Nat := 0
  sreg : Vector W64 32 := Vector.replicate 32 0#64
  preg : BitVec 8 := 1#8
  loops : Vector LoopLevel 4 := Vector.replicate 4 {}
  calls : List Nat := []
  vreg : Vector VReg 64 := Vector.replicate 64 0#8192
  cbs : Vector CbSlot 16 := Vector.replicate 16 {}
  imem : Table W128 := []
  imemErr : Table Bool := []
  run : Run := .halted
  status : BitVec 16 := 0xF000#16
  stepping : Bool := false
  stopReq : Bool := false
  blocked : Option Blocked := none
  pendSd : List Nat := []
  lastMu0 : Option (Nat × W128 × List W64) := none
  beat : Option W64 := none
  beatHeld : Option W64 := none
deriving DecidableEq, Repr

/-- The unit queues of a core and what they have started (R46, R48); `held` are its held signals (R54); `poolWait` are the DMA
channels that wait for the shared transactions, in order of request (R239);
`told` marks the waiting units, 5 being the scalar unit, whose guard wait has timed out already (R229). -/
structure Units where
  q : Vector (List Entry) 5 := Vector.replicate 5 []
  ve : List VeRun := []
  mu : Vector Mu 2 := Vector.replicate 2 {}
  chan : Vector (List DmaRun) 4 := Vector.replicate 4 []
  poolWait : List (Fin 4) := []
  fab : Option FabRun := none
  held : List HeldSig := []
  told : BitVec 6 := 0#6
deriving DecidableEq, Repr

/-- The scratchpad of a core with its guards, semaphores, banks, error marks and counter sets (R224 to R236, R52,
R118). A mark is `true` for a double-bit error; `fixes` are the corrected lanes still to be rewritten; `clearing` are
the regions of a clear in progress. -/
structure Local where
  sp : Memory := []
  spErr : Table Bool := []
  bank : Vector Bank 64 := Vector.replicate 64 .on
  guards : BitVec 4096 := 0#4096
  sems : Vector (BitVec 16) 64 := Vector.replicate 64 0#16
  sets : Vector QuantSet 16 := Vector.replicate 16 {}
  clearing : Option W64 := none
  fixes : List Nat := []
deriving DecidableEq, Repr

end Sys2Proof.Machine
end

