-- ==== Sys2Proof/Machine/QueueState.lean ====
section
/-!
DEFINITION. The state of a micro-batch queue (R202 to R206, R211, R216, R219) and of a dispatch unit (R154, R165,
R172) as plain data.
-/

namespace Sys2Proof.Machine

/-- A cell with its sideband fields (R202). -/
structure Cell where
  data : Line := 0#512
  mbtag : BitVec 16 := 0#16
  eop : Bool := false
  tent : Bool := false
  marker : Bool := false
  src : DevId := 0#15
  agent : BitVec 7 := 0#7
deriving DecidableEq, Repr

/-- The sideband fields of a cell (R202). -/
structure Side where
  mbtag : BitVec 16 := 0#16
  eop : Bool := false
  tent : Bool := false
  marker : Bool := false
  src : DevId := 0#15
  agent : BitVec 7 := 0#7
deriving DecidableEq, Repr

/-- The sideband fields of a cell. -/
def sideOf (c : Cell) : Side :=
  { mbtag := c.mbtag, eop := c.eop, tent := c.tent, marker := c.marker, src := c.src, agent := c.agent }

/-- A producer's key: device, agent, and the micro-batch of a tentative cell (R203). -/
structure Key where
  src : DevId
  agent : BitVec 7
  mbtag : Option (BitVec 16)
deriving DecidableEq, Repr

/-- A pool chunk in use: its index in the pool, the sideband fields of its cells as the engine wrote them, and how many of its
first cells have been discarded already (R206, R211). DEDUCED, log entry 32: the engine keeps the sideband fields with
its pointers, since it counts EOPs, drops packets and links chunks in one cycle, whether or not a controller serves. -/
structure Chunk where
  idx : Nat
  sides : List Side
  skip : Nat := 0
deriving DecidableEq, Repr

/-- The held cells of a key, in chunks of their own, in arrival order; `shut` tells whether the last of them carries
EOP (R203, R204). -/
structure HeldKey where
  key : Key
  chunks : List Chunk
  shut : Bool := false
deriving DecidableEq, Repr

/-- A queue: the visible stream in its three parts, the held cells by key, the ready packets in the order in which they
became ready, the open packet's key, the last cell delivered, the push window and the sticky flags. `bad` says that the two copies of a pointer differ
(R219). `notify` counts notify signals held for a core that is saved or saving (R54, R213). -/
structure Queue where
  head : List Cell := []
  pool : List Chunk := []
  tail : List Cell := []
  held : List HeldKey := []
  ready : List HeldKey := []
  openKey : Option Key := none
  last : Line := 0#512
  win : Line := 0#512
  above : Bool := false
  underrun : Bool := false
  dropping : Bool := false
  paused : Bool := false
  tentLost : Bool := false
  ptrReset : Bool := false
  bad : Bool := false
  notify : Nat := 0
deriving DecidableEq, Repr

/-- Where a dispatch unit sends a packet or a marker: a queue on this module or on a peer (R160). -/
inductive DispDest where
  | here (q : QId)
  | peer (dev : DevId) (q : QId)
deriving DecidableEq, Repr

/-- Cells a dispatch unit has still to send to one destination, oldest first (R163, R167); `told` says that
LINK_UNREACHABLE has been raised for them. -/
structure DispOut where
  dest : DispDest
  job : Nat
  cells : List Cell
  told : Bool := false
deriving DecidableEq, Repr

/-- An open tentative entry (R165). -/
structure Tentative where
  core : CoreId
  table : Nat
  mbtag : BitVec 16
  dests : List DispDest
  hits : BitVec 256
deriving DecidableEq, Repr

/-- A request waiting at a dispatch unit (R154): the issuing core's instruction and captured registers. -/
structure DispReq where
  core : CoreId
  pc : Nat
  word : W128
  s : List W64
deriving DecidableEq, Repr

/-- The request a dispatch unit has started: its status, the scratchpad bytes it will write, the hit mask, what it
counts, and its tentative entry; `cancel` is a forced cancel that waits for it (R167). -/
structure DispRun where
  req : DispReq
  job : Option Nat
  table : Nat
  mbtag : BitVec 16
  status : BitVec 8
  out : List (Nat × List Byte) := []
  statusAt : Option Nat := none
  record : List Byte := []
  hits : BitVec 256 := 0#256
  dropped : Nat := 0
  nexts : Nat := 0
  packets : Nat := 0
  nan : Bool := false
  tent : Bool := false
  dests : List DispDest := []
  memErr : Option Nat := none
  cancel : Bool := false
deriving DecidableEq, Repr

/-- What DISP STAT reports of a core's last request: its status, its operation and its micro-batch (R172). -/
structure DispLast where
  status : BitVec 8 := 0#8
  op : BitVec 8 := 0#8
  mbtag : BitVec 16 := 0#16
deriving DecidableEq, Repr

/-- A dispatch unit (R154, R165). `run` is the request it runs, and `stuck` are the requests of other jobs that have run and whose cells
cannot leave yet (R433); `rr` is the core served last; `disabling` are the tables whose enable bit clears
when the ROUTE in progress takes effect (R161). -/
structure Dispatch where
  waiting : List DispReq := []
  run : Option DispRun := none
  stuck : List DispRun := []
  rr : Nat := 23
  entries : List Tentative := []
  outs : List DispOut := []
  last : Vector DispLast 24 := Vector.replicate 24 {}
  disabling : BitVec 16 := 0#16
deriving DecidableEq, Repr

end Sys2Proof.Machine
end

