-- ==== Sys2Proof/Machine/NetState.lean ====
section
/-!
DEFINITION. The state of the links (R272 to R279), of the packets between the modules (R280 to R291), of time exchange
(R294), of the GDDR7 controllers (R249, R250) and of the CXL ports (R260 to R263) as plain data.
-/

namespace Sys2Proof.Machine

/-- A packet: its 32-byte header, byte 0 lowest, and its payload (R280). -/
structure Pkt where
  hdr : BitVec 256
  data : List Byte := []
deriving DecidableEq, Repr

/-- The STATE of a link (R272). -/
inductive LinkSt where
  | down | optics | align | exchange | active | failed
deriving DecidableEq, Repr

/-- A packet in a transmit queue: its virtual channel, job, destination and source die, whether it has an OSEQ already,
whether it waits for REPIN_HOLD, and the forwarding queue whose cells it carries (R279, R283, R286, R287). -/
structure TxPkt where
  pkt : Pkt
  vc : Nat
  job : Nat
  dst : Nat
  die : Nat := 0
  ordered : Bool := false
  hold : Bool := false
  queue : Option QId := none
deriving DecidableEq, Repr

/-- A credit return: virtual channel, job, account and units (R274). -/
structure CreditRet where
  vc : Nat
  job : Nat
  pool : Bool
  units : Nat
deriving DecidableEq, Repr

/-- A DATA flit in the retry buffer: its SEQ, its payload, its credit returns, the packet it carries a part of, and
whether it carries the packet's end (R274, R275, R286). -/
structure TxFlit where
  seq : Nat
  payload : List Byte
  rets : List CreditRet
  pkt : Option TxPkt := none
  last : Bool := false
deriving DecidableEq, Repr

/-- Cells that a QCELLS packet brought and that wait in the receive buffer for their queue (R209). -/
structure RxCells where
  q : QId
  job : Nat
  cells : List Cell
  units : Nat
  pooled : Bool
deriving DecidableEq, Repr

/-- A packet in the receive buffer with the units it still has to give back: none once the link has been down since it
came. `waits` are those that wait for a core that is saved or saving, or for a transfer entry (R232, R278, R289); `came` is the
stamp a TIME packet got at its arrival (R292). -/
structure RxWait where
  pkt : Pkt
  units : Nat
  came : W64 := 0#64
deriving DecidableEq, Repr

/-- One link (R272 to R279). `tx` holds the transmit queues of every job and virtual channel, oldest first; `useRsv`
and `usePool` are the units in use at the peer by job × 8 + VC; `rxRsv` and `rxPool` those in use here; `rsv` is
LINK_RSV as the last EXCHANGE took it, `sent` the flits sent, `seen` tells that the link has been ACTIVE before. -/
structure Link where
  st : LinkSt := .down
  lock0 : Bool := false
  lock1 : Bool := false
  tx : List TxPkt := []
  retry : List TxFlit := []
  txSeq : Nat := 0
  rxSeq : Nat := 0
  ack : Option Nat := none
  nakSent : Bool := false
  replays : Nat := 0
  rxPart : List Byte := []
  rxq : List RxWait := []
  cells : List RxCells := []
  waits : List RxWait := []
  useRsv : Table Nat := []
  usePool : Table Nat := []
  rxRsv : Table Nat := []
  rxPool : Table Nat := []
  rsv : List W64 := []
  peerPool : Nat := 0
  rets : List CreditRet := []
  params : Nat := 0
  tc3 : Nat := 0
  round : List Nat := []
  jobRound : List Nat := []
  sent : List (List Byte) := []
  seen : Bool := false
deriving DecidableEq, Repr

/-- Who waits for the answer to a READ or WRITE (R282): a transfer of a core's channel, the cairn's buddy copy of a job,
or a transfer of a ring's descriptor. -/
inductive ReqOwner where
  | dma (core : CoreId) (ch : Fin 4) (seq : Nat)
  | cairn (job : Nat)
  | ring (r : RingId)
deriving DecidableEq, Repr

/-- A READ or WRITE that is out, or a COLL transfer's tag (R282). -/
structure NetReq where
  tag : Nat
  job : Nat
  pkt : Pkt
  owner : Option ReqOwner
  resends : Nat := 0
deriving DecidableEq, Repr

/-- A requester that waits for a tag of the shared pool (R282): of a READ or WRITE, or the COLL transfer of a job with an
XID. -/
inductive TagAsker where
  | req (o : ReqOwner)
  | coll (xid : Nat)
deriving DecidableEq, Repr

/-- A place in the order of the pool's requesters (R282). -/
structure TagAsk where
  job : Nat
  who : TagAsker
deriving DecidableEq, Repr

/-- A COLL transfer being sent (R289, R290). -/
structure CollTx where
  xid : Nat
  tag : Nat
  job : Nat
  dst : Nat
  info : List Byte
  stream : List Byte
  rounds : Nat := 0
deriving DecidableEq, Repr

/-- A COLL transfer being received: the header of the part that came last, and the parts that have arrived, with their bytes
(R289, R290). -/
structure CollRx where
  src : Nat
  job : Nat
  xid : Nat
  tag : Nat
  stripes : Nat
  info : List Byte
  shared : Bool
  hdr : BitVec 256 := 0#256
  parts : List (Nat × Nat × Nat × List Byte) := []
  rounds : Nat := 0
deriving DecidableEq, Repr

/-- The packet state of the module: the requests out, the transfers, those that wait for a tag, the order sequences by flow, the plane last used
by die and virtual channel, the plane in effect for each pinned flow, the flows that wait for REPIN_HOLD, the
flow-control messages kept for peers that cannot be reached, the queues of peers
whose STOP is in force, the messages to the module itself, the time exchange
in progress with the departure of its request, and the requesters that wait for a tag of the pool, in request order. -/
structure Net where
  reqs : List NetReq := []
  collTx : List CollTx := []
  collPend : List CollTx := []
  collRx : List CollRx := []
  nextXid : Table Nat := []
  oseqTx : Table Nat := []
  oseqRx0 : List (Nat × Nat) := []
  oseqRx1 : List (Nat × Nat) := []
  lastPlane : Table Nat := []
  pinned : Table Nat := []
  holding : List Nat := []
  qflow : List (Nat × Nat × Nat × Bool) := []
  stops : List (Nat × Nat) := []
  self : List Pkt := []
  asking : Bool := false
  t1 : Option W64 := none
  missed : Nat := 0
  tagWait : List TagAsk := []
  offRun : Nat := 0
deriving DecidableEq, Repr

/-- A request held by a GDDR7 controller (R255): who asks, for which job, the address, the length, and the bytes of a
write. `queue` is the queue whose pool a write of the queue engine goes to. -/
structure MemReq where
  asker : Asker
  job : Option Nat
  addr : Nat
  len : Nat
  data : Option (List Byte)
  queue : Option QId := none
deriving DecidableEq, Repr

/-- How a request of a controller ended: the bytes read, or a failure code of R246. -/
structure MemDone where
  req : MemReq
  code : Nat
  data : List Byte
deriving DecidableEq, Repr

/-- One GDDR7 controller (R249, R250, R255, R256). `scrub` is the next line of the patrol scrub, `retraining` says that a
periodic retraining holds its traffic. -/
structure Ctrl where
  ready : Bool := false
  retraining : Bool := false
  selfRef : Bool := false
  trainFail : Bool := false
  scrubbing : Bool := false
  reqs : List MemReq := []
  done : List MemDone := []
  scrub : Nat := 0
deriving DecidableEq, Repr

/-- What the controllers share: the one that retrains next (R249), the lines whose next access meets bursts with a bad CRC
and how many in a row (R257), and, where line protection has been switched off, the module memory as it stood then, with
the lines of the check area written since (R251); the devices of the dies in `plain` have lost their contents since. -/
structure MemState where
  turn : Nat := 0
  crc : Table Nat := []
  checks : Option (Memory × List Nat) := none
  plain : List Nat := []
deriving DecidableEq, Repr

/-- A CXL.mem request of at most 64 bytes at a port (R260, R263): its device, its tier offset and length, the bytes of
a write, the transfer that waits for it with the place of the data in its source stream (none for the module's own
copies), and its job. -/
structure CxlReq where
  devB : Bool
  t : Nat
  len : Nat
  data : Option (List Byte)
  owner : Option (CoreId × Fin 4 × Nat × Nat)
  job : Option Nat
deriving DecidableEq, Repr

/-- One CXL port (R260 to R263): which devices are active, whether an enumeration is under way, and its outstanding
requests. -/
structure Cxl where
  activeA : Bool := false
  activeB : Bool := false
  enumFail : Bool := false
  enum : Bool := false
  reqs : List CxlReq := []
deriving DecidableEq, Repr

end Sys2Proof.Machine
end

