-- ==== Sys2Proof/Machine/HostState.lean ====
section
/-!
DEFINITION. The state of the host ports and the Ihlah rings (R331, R339 to R356) and of the jobs (R357 to R376) as
plain data.
-/

namespace Sys2Proof.Machine

/-- A transfer of a descriptor in progress (R342, R346): the offset of the next byte to ask for, the requests out to peers
(tag, offset, length, and whether it reads), the numbers of its reads out to the host, the pieces that have come and wait to
be written, and the failure met: status and RESULT. -/
structure Xfer where
  next : Nat := 0
  outs : List (Nat × Nat × Nat × Bool) := []
  reads : List Nat := []
  parts : List (Nat × List Byte) := []
  fail : Option (BitVec 8 × BitVec 32) := none
deriving DecidableEq, Repr

/-- What a started descriptor still has to do: nothing (its completion is due with status, RESULT and INFO), its own
operation, a transfer of its data, a RUN's cores to halt, the cells a QPUSH still offers, a QPOP's packet, the rest of a
packet that a QPOP copies (its queue, where the rest goes, its bytes, the packet's cells and MBTAG), a monitored
request with the request cell that QIN has still to accept, the victims of a PREEMPT (its number, its job and their mask), or
the cores that a JOB_CLOSE stops. -/
inductive DescRun where
  | due (status : BitVec 8) (result : BitVec 32) (info : BitVec 16)
  | begun
  | xfer (x : Xfer)
  | run (cores : BitVec 48) (timedOut : Bool)
  | push (q : QId) (left : List Cell) (total : Nat)
  | pop (q : QId) (dst cap : Nat)
  | copyOut (q : QId) (dst : Nat) (left : List Byte) (cells mbtag : Nat)
  | gen (slot : Nat) (q : QId) (cell : Option Cell)
  | preempt (id job mask : Nat)
  | close (job : Nat)
deriving DecidableEq, Repr

/-- A fetched descriptor: its 64 bytes and, once started, how far it is (R342). -/
structure Desc where
  bytes : List Byte
  run : Option DescRun := none
  fetched : W64 := 0#64
deriving DecidableEq, Repr

/-- A completion that waits for its ring to be enabled (R345). -/
structure Compl where
  bytes : List Byte
  irq : Bool
deriving DecidableEq, Repr

/-- A ring (R339 to R345): its indices, its error, its fetched descriptors in ring order, the completions it holds back,
and whether the interrupt coalescing timer runs. -/
structure Ring where
  prod : BitVec 32 := 0#32
  cons : BitVec 32 := 0#32
  err : Bool := false
  cause : Nat := 0
  descs : List Desc := []
  held : List Compl := []
  timer : Bool := false
deriving DecidableEq, Repr

/-- A read of host memory that is out at the owner port: who waits for it, its function, address and length, its place in
what it is read for, the transfer and the host window of a channel's read, and whether it may carry Relaxed Ordering
(R331, R338, R355). -/
structure HostRead where
  who : HostWait
  fn : Nat
  addr : Nat
  len : Nat
  off : Nat := 0
  seq : Nat := 0
  win : Nat := 0
  ordered : Bool := false
deriving DecidableEq, Repr

/-- What the module has sent out: a memory write to a host, a read request, with Relaxed Ordering where `relaxed` says so, or
an MSI-X message of a vector (R331, R338, R343, R351), where `fn` is 0 for the physical function of the owner port and n for its VF n; or the answer to a read of the module: the value of a
register, bytes of an aperture, Unsupported Request or Completer Abort (R9, R336, R337). -/
inductive HostOut where
  | write (fn : Nat) (addr : Nat) (data : List Byte)
  | read (fn addr len : Nat) (relaxed : Bool)
  | msix (fn vec : Nat) (addr : W64) (data : BitVec 32)
  | reg (v : W64)
  | data (bs : List Byte)
  | ur
  | ca
deriving DecidableEq, Repr

/-- A host port as configured: VF Enable, its functions in D3hot (0 the physical function, n VF n), Relaxed Ordering,
Max Payload Size, Max Read Request Size and completion timeout as coded, 10-bit tags, the AER correctable and uncorrectable
error status, and whether ECRC is generated and checked (R331, R383).
PRESUMED (log entry 73, unsafe): the values after reset are those of the PCI Express base specification. -/
structure PortFn where
  vfEn : Bool := false
  d3 : List Nat := []
  relaxed : Bool := false
  mps : Nat := 0
  mrrs : Nat := 2
  ctimeout : Nat := 0
  tags10 : Bool := false
  aer : BitVec 32 := 0#32
  aerUnc : BitVec 32 := 0#32
  ecrcGen : Bool := false
  ecrcChk : Bool := false
deriving DecidableEq, Repr

/-- How far a handover is (R353): running normally, quiescing for RELEASE, or quiescing for TAKE. -/
inductive Handover where
  | none
  | release
  | take
deriving DecidableEq, Repr

/-- An access of a VF through BAR4 that waits for a core that is saving, restoring or lent (R232, R337): the core and the
job, the offset and length, and the bytes of a write. -/
structure BarWait where
  core : CoreId
  job : Nat
  off : Nat
  len : Nat
  data : Option (List Byte)
deriving DecidableEq, Repr

/-- The state of the host ports. MSI-X table entries are stored by function × 4,096 + vector, the functions of HB
counting from 32: `vecOpen` are the unmasked ones, `fnOn` the functions with MSI-X enabled and no Function Mask,
`vecPending` the pending bits. `lost` counts records lost
since the last HOST_EVT_LOST (R350); `reads` are the reads of host memory that are out, oldest first, `turn` the ring whose
data the owner port moved last (R342), `waits` the accesses through BAR4 that wait (R232); `hwDead` are the host windows that a handover has cleared and nobody has written
since (R353). -/
structure HostPorts where
  ownerB : Bool := false
  upA : Bool := false
  upB : Bool := false
  ownerLost : Bool := false
  released : Bool := false
  gen : BitVec 8 := 0#8
  ho : Handover := .none
  fnA : PortFn := {}
  fnB : PortFn := {}
  rings : Vector Ring 34 := Vector.replicate 34 {}
  lost : Nat := 0
  vecAddr : Table W64 := []
  vecData : Table (BitVec 32) := []
  vecOpen : List Nat := []
  fnOn : List Nat := []
  vecPending : List Nat := []
  hwDead : List Nat := []
  reads : List HostRead := []
  turn : Nat := 33
  waits : List BarWait := []
  out : List HostOut := []
deriving DecidableEq, Repr

/-- What a bivouac slot holds beside the bytes of R258: the job, the core's halt status, and the parts of the fixed
state for which R258 gives no place: the loop bodies, the depth of the call stack, the captured scalar registers and
indices of the unit-queue entries, and the indices of the held signals. -/
structure Saved where
  job : Nat
  slot : Nat
  status : BitVec 16
  loops : List (Nat × Nat)
  depth : Nat
  queues : List (List Entry)
  heldPcs : List Nat
  lastMu0 : Option (Nat × W128 × List W64) := none
deriving DecidableEq, Repr

/-- A preemption victim: the core, the arriving job, and the number of the PREEMPT (R363, R364). -/
structure Victim where
  core : CoreId
  job : Nat
  id : Nat
deriving DecidableEq, Repr

/-- A monitored request (R373 to R376). -/
structure Monitor where
  job : Nat
  ring : Nat
  mbtag : BitVec 16
  qin : QId
  qout : QId
  tokens : Nat
  deadline : Nat
  t0 : W64
  t1 : W64 := 0#64
  count : Nat := 0
  entry : Nat
  fallback : Nat
  fellBack : Bool := false
  firstFb : Nat := 0xFFFF
  missed : Bool := false
deriving DecidableEq, Repr

/-- A control word that waits for its core: the slot, the job, QOUT and MBTAG of the request, and the word (R375). -/
structure GenWord where
  slot : Nat
  job : Nat
  qout : QId
  mbtag : BitVec 16
  word : W64
deriving DecidableEq, Repr

/-- The jobs' state beside their registers; saved images by core × 16 + job, and the control words that wait, oldest first. -/
structure Jobs where
  saved : Table Saved := []
  victims : List Victim := []
  monitors : Vector (Option Monitor) 64 := Vector.replicate 64 none
  words : List GenWord := []
deriving DecidableEq, Repr

/-- A pending telemetry export: the job, the KIND, the STEP and the ATTEMPT (R389, R390). -/
structure Export where
  job : Nat
  kind : Nat
  step : Nat
  attempt : Nat
deriving DecidableEq, Repr

/-- The export that runs: its failure code, and the address and the bytes it still has to write (R389, R392). -/
structure ExportRun where
  job : Nat
  code : Nat
  addr : Nat
  bytes : List Byte
deriving DecidableEq, Repr

/-- The telemetry block's state beside its registers: exports in trigger order, the one that runs, and the starts of the
step timers (R388, R389). -/
structure Telemetry where
  pending : List Export := []
  running : Option ExportRun := none
  stepT0 : Vector (Option W64) 16 := Vector.replicate 16 none
  roundT0 : Vector (Option W64) 16 := Vector.replicate 16 none
  roundT1 : Vector W64 16 := Vector.replicate 16 0#64
  readyT0 : Vector (Option W64) 16 := Vector.replicate 16 none
deriving DecidableEq, Repr

end Sys2Proof.Machine
end

