-- ==== Sys2Proof/Machine/RclState.lean ====
section
/-!
DEFINITION. The state of the reduction and commit logic (R299 to R326) as plain data.
-/

namespace Sys2Proof.Machine

/-- An accepted hand-over (R302). -/
structure Hand where
  caddr : Nat
  cbaddr : Nat
  empty : BitVec 128
  invalid : Bool
  emax : Int
deriving DecidableEq, Repr

/-- What a child of a vertex of the exponent tree has reported: its members from `lo` to `hi` - 1, the largest exponent
and the number of its included members, and the excluded ones (R305). -/
structure ExpIn where
  lo : Nat
  hi : Nat
  emax : Int
  n : Nat
  excl : List Nat
deriving DecidableEq, Repr

/-- A vertex of the exponent tree that this module hosts: the members `lo` to `hi` - 1 below it, what its children have
sent, the children that have sent PENDING, and whether it has completed (R305, R306). -/
structure ExpVertex where
  level : Nat
  lo : Nat
  hi : Nat
  ins : List ExpIn := []
  pend : List Nat := []
  done : Bool := false
deriving DecidableEq, Repr

/-- The decision of a bucket (R307). -/
structure Decision where
  n : Nat
  eb : Int
  excl : List Nat
deriving DecidableEq, Repr

/-- An input of a vertex in the data phase: empty, or the image at `addr`; the included members below it, its
checksum, and the member whose partial it is, where it has come from another module (R310, R311). -/
structure DataIn where
  empty : Bool
  addr : Nat
  ninc : Nat
  csum : W64
  src : Option Nat := none
deriving DecidableEq, Repr

/-- A vertex of the included tree of shard `s` that this module hosts, with the inputs present by the lowest member of
the child (R311), and how many it needs. `buf` is the first of its two receive buffers; `fired` says that its result
has been formed or its add record posted. -/
structure DataVertex where
  s : Nat
  need : Nat
  level : Nat
  lo : Nat
  hi : Nat
  buf : Nat
  ins : List (Nat × DataIn) := []
  fired : Bool := false
deriving DecidableEq, Repr

/-- How far an owned shard is (R314, R315, R318): waiting for its sum, its optimise record posted or due, its
parameters going to the other members by the transfers `xids`, or done. -/
inductive OwnSt where
  | sum
  | opt (addr : Nat)
  | send (xids : List (Nat × Nat))
  | done
deriving DecidableEq, Repr

/-- A transfer that arrived before this module's DECIDE: its source device, its COLLINFO and its stream. -/
structure Early where
  src : Nat
  info : List Byte
  stream : List Byte
deriving DecidableEq, Repr

/-- The state of a bucket entry beside its registers. `accepted` says that the fill of the hand-over guard has been
taken, whether or not the record was good; `got` are the shards whose inactive half has been written; `sending` the
contribution transfers that still hold the hand-over guard, `released` that the guard has been drained; `early` what
has come before DECIDE or while module memory does not serve, `left` the shards of the contribution that still wait for it. -/
structure Bucket where
  phase : Nat := 0
  hand : Option Hand := none
  accepted : Bool := false
  ev : List ExpVertex := []
  dec : Option Decision := none
  dv : List DataVertex := []
  own : List (Nat × OwnSt) := []
  got : BitVec 128 := 0#128
  sending : List (Nat × Nat) := []
  flushed : Bool := false
  released : Bool := false
  early : List Early := []
  left : List Nat := []
deriving DecidableEq, Repr

/-- A work record: bucket entry, shard, whether it optimises, the vertex of an add, its sources and its core. -/
structure Work where
  e : Nat
  s : Nat
  opt : Bool
  level : Nat
  lo : Nat
  srcA : Nat
  srcB : Nat
  core : Nat
deriving DecidableEq, Repr

/-- A cairn being written (R325, R326): its STEP, the halves it reads (BIDX, shard, address and length), whether it has a buddy
copy, how far it is (0: nothing has been read; 1: the header stands with VALID 0; 2: the records too), its bytes with the
final header, the pieces of 1 KiB of the copy that have been sent, the tags still to be answered, and the failure met. -/
structure Cairn where
  step : Nat
  copy : Bool
  spans : List (Nat × Nat × Nat × Nat) := []
  stage : Nat := 0
  bytes : List Byte := []
  sent : Nat := 0
  buddy : List Nat := []
  fail : Nat := 0
deriving DecidableEq, Repr

/-- A record at NOTIFY_OFS that waits for its core: the core, the offset, the bytes and the semaphore (R232, R321). -/
structure Note where
  core : CoreId
  off : Nat
  bytes : List Byte
  sem : Nat
deriving DecidableEq, Repr

/-- A job at the reduction and commit logic (R318 to R323). `readySent` says that READY has been sent (R320, R322). `failLater` is a failure after READY was sent; `decided`
says that this summit has sent the outcome; `belayDue` that READY waits for BELAY_N; `wq` are the work records posted in ring order and `due` those that wait
for a ring place; `wqNext` is each core's next ring entry; `sigs` are signals held for saved cores (R54), `drains` the hand-over guards still to be
drained and `notes` the records still to be written on cores that are away (R232). -/
structure RclJob where
  phase : Nat := 0
  readySent : Bool := false
  failed : Bool := false
  failLater : Bool := false
  attempt : BitVec 8 := 0#8
  readyCnt : Nat := 0
  firstReady : Bool := false
  decided : Bool := false
  waited : Bool := false
  belayDue : Bool := false
  wq : List (Nat × Work) := []
  due : List Work := []
  wqNext : Table Nat := []
  sigs : List (Nat × Nat) := []
  drains : List (CoreId × Nat) := []
  notes : List Note := []
  cairn : Option Cairn := none
deriving DecidableEq, Repr

/-- The reduction and commit logic: `groups` are the members' device IDs of each job, as read from the member table when EN
was set (R299). -/
structure Rcl where
  groups : Vector (List Nat) 16 := Vector.replicate 16 []
  jobs : Vector RclJob 16 := Vector.replicate 16 {}
  bkts : Vector Bucket 256 := Vector.replicate 256 {}
deriving DecidableEq, Repr

end Sys2Proof.Machine
end

