-- ==== Sys2Proof/Machine/PowerState.lean ====
section
/-!
DEFINITION. The state of power, clocks and boot (R394 to R409), of the security block and the management firmware (R410
to R422), of the pins and of the test access port (R441 to R452) as plain data.
-/

namespace Sys2Proof.Machine

/-- How far the power-on sequence is (R397): no input, 54 V valid, PD62 on and the boot ROM running, the firmware
bringing the module up, up with BOOT_DONE, in brumation (R406), or off after a thermal trip
(R405). -/
inductive Boot where
  | unpowered | input | rom | firmware | up | asleep | tripped
deriving DecidableEq, Repr

/-- How far a brumation entry is (R406, R408). -/
inductive Brum where
  | none
  | entering
deriving DecidableEq, Repr

/-- The values that a pin alert replaced, and the fields the host has written during it (R452). -/
structure Alert where
  peak : Nat
  sust : Nat
  peakHost : Bool := false
  sustHost : Bool := false
deriving DecidableEq, Repr

/-- Power, clocks and boot beside the registers. `recovery` says that the boot ROM is in recovery (R412), `held` that a
clock loss holds the module, `rebooting` that an MGR reset runs, for the cause `why` as RST_STAT codes it, `waking` that
a wake runs, with the GDDR7 contents kept where `keepMem` says so. `windows` are the last input windows of 10 µs, newest
first; `head` counts consecutive evaluations with headroom and `since` the evaluations since the last step, both
stopping at 10; `uj` is the input energy in µJ not yet counted in mJ; `tj` are the hottest junctions of the two dies.
`switching` are the domains that switch on, `wdt` is the time of the last kick. -/
structure Power where
  boot : Boot := .rom
  recovery : Bool := false
  brum : Brum := .none
  held : Bool := false
  rebooting : Bool := false
  why : Nat := 0
  waking : Bool := false
  keepMem : Bool := false
  windows : List Nat := []
  head : Nat := 0
  since : Nat := 10
  uj : Nat := 0
  tj : Nat × Nat := (0, 0)
  shelf : Option Alert := none
  coolant : Option (Nat × Bool) := none
  switching : List Nat := []
  wdt : W64 := 0#64
deriving DecidableEq, Repr

/-- A security command waiting: its code, its argument, and its buffer of 4 KiB where it came over MCTP, on the
way `via` (R419, R420). -/
structure SecCmd where
  cmd : Nat
  arg : Nat
  mctp : Option (List Byte) := none
  via : Via := .vdm false
deriving DecidableEq, Repr

/-- The state of the PLDM firmware update (R420): idle, learning the component, ready to transfer it, or applied and
ready to be activated. -/
inductive Update where
  | idle | learn | ready | applied
deriving DecidableEq, Repr

/-- The security block and the management firmware beside the registers: `flash` and `staging` hold the SPI flash and the
staging area by byte (R410, R413), the OTP fields follow R415 and R416, `svn` is that of the running image, `eid` the
MCTP endpoint ID, `upd` and `updWas` the state of an update and the one before it, `maxXfer` the transfer size of RequestUpdate, `updFail`
the status of a failed update; `replies` are the messages sent over MCTP, each with its way, oldest first. -/
structure Security where
  flash : Memory := []
  staging : Memory := []
  ownerMode : Bool := false
  acceptSlatal : Bool := false
  enrolUsed : Nat := 0
  ownerHash : List Byte := []
  minSvn : Nat := 0
  svn : Nat := 0
  queue : List SecCmd := []
  eid : Nat := 0
  upd : Update := .idle
  updWas : Update := .idle
  maxXfer : Nat := 0
  updFail : Nat := 0
  replies : List (Via × List Byte) := []
deriving DecidableEq, Repr

/-- The levels of the pins as the module sees and drives them (R441, R442, R450); the straps are LOC_RACK, LOC_SHELF
and LOC_POS. A pin whose name ends in _N is true while it is asserted, PERST_A_N and PERST_B_N of the CXL ports while they
are released. -/
structure Pins where
  qfcIn : BitVec 8 := 0#8
  straps : BitVec 15 := 0#15
  belayLow : Bool := false
  thermtrip : Bool := false
  shelfAlert : Bool := false
  coolantAlert : Bool := false
  perstA : Bool := true
  perstB : Bool := true
  cxlA : BitVec 4 := 0#4
  cxlB : BitVec 4 := 0#4
deriving DecidableEq, Repr

/-- The test access port (R449): its instruction, what the last Capture-DR took, the preloaded boundary-scan cells, whether
they drive the outputs or the outputs are in high impedance, and the DBG register. -/
structure Tap where
  ir : BitVec 8 := 1#8
  capture : BitVec 64 := 0#64
  cells : BitVec 64 := 0#64
  driven : Bool := false
  highz : Bool := false
  dbg : BitVec 96 := 0#96
deriving DecidableEq, Repr

end Sys2Proof.Machine
end

