-- ==== Sys2Proof/Config.lean ====
section
/-!
DEFINITION. What an implementation or the outside fixes and the spec leaves open: constants with no value in Lean, so
that a claim holds whatever they are. A constant that takes a number `k` is applied to the step's counter
`State.tick`, which gives a fresh value each time.
-/

namespace Sys2Proof

/-- The spare-row selection burnt into the repair fuses of a core's matrix unit: the replaced logical row, or none
(R88). DESIGN CHOICE, log entry 69. -/
opaque Config.repairFuse : Nat → Nat → Option (Fin 9)

/-- How far time has moved since it was last read, in units of the SCLK timestamp. DESIGN CHOICE, log entry 10. -/
opaque Config.elapsed : Nat → Nat

/-- How many ACLK cycles have passed since a core's cycle counter was last read. DESIGN CHOICE, log entry 10. -/
opaque Config.cycles : Nat → Nat

/-- How many requests have lost bank arbitration since the counter was last read (R225, R247). DESIGN CHOICE, log entry 10. -/
opaque Config.conflicts : Nat → Nat

/-- In how many of a pass's steps an earlier pass of the unit computed as well (R77, R90). DESIGN CHOICE, log entry 10. -/
opaque Config.muOverlap : Nat → Nat

/-- Which of the two NaN codes of E4M3 an instruction word writes for its operand lanes (R93): true for 0xFF. It depends on
nothing else (R122). DESIGN CHOICE, log entry 26. -/
opaque Config.e4m3NanSign : W128 → Nat → Nat → Bool

/-- The lane of VA that VDEQ, as a word, puts into a lane of VD; R40 names VDEQ and no rule gives its layout. DESIGN CHOICE,
log entry 22. -/
opaque Config.vdeqSource : W128 → Nat → Nat

/-- The exponent entry (R99) that VDEQ uses for a lane of VD: its word, its S register SA, the scratchpad it may read it
from, the lane. DESIGN CHOICE, log entry 22. -/
opaque Config.vdeqEntry : W128 → W64 → List Host.Cell → Nat → Nat

/-- The zero point that VDEQ uses for a lane of VD, from the same. DESIGN CHOICE, log entry 22. -/
opaque Config.vdeqZero : W128 → W64 → List Host.Cell → Nat → Int

/-- The result of an element operation in a format whose rounding R130 does not give, from its word and the operand lanes
of VA, VB and VC (R122). DESIGN CHOICE, log entry 22. -/
opaque Config.veOpen : W128 → Nat → Nat → Nat → Nat

/-- Which destination bytes a failed transfer has written (R246): true for byte `i` of transfer `k` when written. DESIGN CHOICE, log entry 77. -/
opaque Config.dmaWritten : Nat → Nat → Bool

/-- The core-rail current limit of a die, in A, burnt into the fuses (R421). DESIGN CHOICE, log entry 69. -/
opaque Config.curFuse : Nat → Nat

/-- Slatal's firmware key, X then Y, whose hash is in the boot ROM (R415). PRESUMED, log entry 64. -/
opaque Config.slatalKey : BitVec 512

/-- The bytes of the identity area of the flash, from offset 0x100_0000 on, write-protected at manufacture (R410, R414). PRESUMED, log
entry 64. -/
opaque Config.identity : Nat → Byte

/-- The signature that the device identity key gives a digest (R414, R417). PRESUMED, log entry 64. -/
opaque Config.dikSign : Nat → BitVec 256 → BitVec 512

/-- What the image slot holds after a write of the flash has failed (R413). DESIGN CHOICE, log entry 79. -/
opaque Config.flashOpen : Nat → Nat → Byte

/-- Slatal's JEDEC manufacturer code (R449). DESIGN CHOICE, log entry 68. -/
opaque Config.jedecCode : BitVec 11

/-- The PCI-SIG vendor ID assigned to Slatal (R332, R420). DESIGN CHOICE, log entry 69. -/
opaque Config.pciVendor : BitVec 16

/-- The versions that the management firmware reports for MCTP base (256), MCTP control (257) and the PLDM types (R420). PRESUMED, log entry 66. -/
opaque Config.dmtfVersion : Nat → BitVec 32

/-- The PLDM terminus ID (R420). PRESUMED, log entry 66. -/
opaque Config.pldmTid : Byte

/-- The PLDM platform descriptor records by number (R420). PRESUMED, log entry 66. -/
opaque Config.pdr : Nat → List Byte

/-- What GetFirmwareParameters reports of the running image, by its SVN (R420). PRESUMED, log entry 66. -/
opaque Config.fwParameters : Nat → List Byte

/-- The 11-bit check code of a memory line: of its data and its device-local line address. The spec gives its size and its
strength, not its bits (R251). DESIGN CHOICE, log entry 78. -/
opaque Config.checkCode : BitVec 512 → Nat → BitVec 11

/-- What the save engine gets of an image in memory that does not answer: byte `i` of read `k` (R250, R251). DESIGN CHOICE, log
entry 24. -/
opaque Config.lostByte : Nat → Nat → Byte

/-- What a memory line holds after a write to it whose fourth retry failed (R257). DESIGN CHOICE, log entry 78. -/
opaque Config.crcLine : Nat → BitVec 512

/-- Whether a ROUTE takes its score tile from SA where SA and SCORE differ; else from SCORE (R43, R155). DESIGN CHOICE, log
entry 76. -/
opaque Config.scoreBySa : Nat → Nat → Bool

end Sys2Proof
end

