-- ==== Sys2Proof/Machine/RegCore.lean ====
section
/-!
DEFINITION. The form of a register table (R9, R13) and the registers of a core block (R59, R60, R90, R120, R247): per
offset, the bits a write stores, the bits a write of 1 clears, the bits a read clears, and the reset value.
-/

namespace Sys2Proof.Machine

/-- How a register behaves: `rw` bits store a write, `w1c` bits are cleared by a 1, `rc` bits are cleared by a read,
all others ignore writes (R9, R11). -/
structure RegSpec where
  rw : W64 := 0#64
  w1c : W64 := 0#64
  rc : W64 := 0#64
  reset : W64 := 0#64
deriving DecidableEq, Repr

/-- The word whose low `n` bits are ones. -/
def ones (n : Nat) : W64 := BitVec.ofNat 64 (2 ^ n - 1)

/-- A read-only register. -/
def regRO (reset : W64 := 0#64) : RegSpec := { reset := reset }
/-- A register whose bits in `m` store a write. -/
def regRW (m : W64) (reset : W64 := 0#64) : RegSpec := { rw := m, reset := reset }
/-- A register whose bits in `m` are cleared by a write of 1. -/
def regW1C (m : W64) : RegSpec := { w1c := m }
/-- A register whose bits in `m` are cleared by a read. -/
def regRC (m : W64) : RegSpec := { rc := m }
/-- An offset that holds no register (R11). -/
def regNone : RegSpec := {}

/-- The entry of an offset in a table; none reads as no register. -/
def regFind (t : List (Nat × RegSpec)) (o : Nat) : RegSpec := ((t.find? (fun e => e.1 == o)).map (·.2)).getD regNone

/-- All 64 bits. -/
def all64 : W64 := ones 64
/-- The VALID bit of a log register. -/
def bit63 : W64 := 0x8000000000000000#64

/-- The base of a core's register block (R59). -/
def coreBase (c : Nat) : Nat := 0x1000000 + c * 0x10000

/-- The common registers and those of R59 that hold a stored value. -/
def coreRegs : List (Nat × RegSpec) := [
  (0x008, regRW 8#64), (0x030, regRO), (0x018, regRW all64), (0x020, regW1C all64), (0x038, regRW (ones 32)),
  (0x040, regRW (ones 15)), (0x048, regRW all64), (0x050, regRW all64), (0x058, regRO), (0x060, regRO),
  (0x068, regRO), (0x070, regRC (ones 32))]

/-- The spare-row register that the repair fuses load: EN and ROW (R88, R90). -/
def fuseSpare (c u : Nat) : W64 :=
  match Config.repairFuse c u with
  | none => 0#64
  | some r => BitVec.ofNat 64 (1 + 2 * r.val)

/-- The registers of matrix unit `u` of core `c` (R90). -/
def muRegs (c u : Nat) : List (Nat × RegSpec) := [
  (0x00, regRW 3#64 3#64), (0x10, { rw := 0x1F#64, reset := fuseSpare c u }), (0x18, regW1C bit63),
  (0x20, regRC all64), (0x28, regRC all64), (0x30, regRC all64), (0x38, regRC all64), (0x40, regRC all64),
  (0x48, regRW all64), (0x50, regW1C all64)]

/-- The numerics registers (R120). -/
def numRegs : List (Nat × RegSpec) := [
  (0x00, regRW 1#64), (0x08, regRW all64 0x0000100010000040#64), (0x10, regW1C (ones 48)), (0x20, regRC (ones 32)),
  (0x28, regRC (ones 32)), (0x38, regRW all64), (0x40, regW1C all64)]

/-- The scratchpad, slot, window and DMA registers below +0x4100 (R247). -/
def spRegs : List (Nat × RegSpec) := [
  (0x4000, regRW 1#64), (0x4008, regRW (ones 32)), (0x4018, regRW all64), (0x4020, regRW all64),
  (0x4028, regRW all64), (0x4030, regRW all64), (0x4038, regRW all64), (0x4048, regRW all64), (0x4050, regRW all64),
  (0x4068, regRC (ones 32)), (0x4070, regRC all64), (0x4078, regRC (ones 32)), (0x4080, regW1C bit63),
  (0x4088, regW1C bit63)]

/-- The four registers of a scratchpad window (R247). -/
def winRegs : List (Nat × RegSpec) := [
  (0x00, regRW 0xFFFFC0#64), (0x08, regRW 0x1FFFFC0#64), (0x10, regRW (ones 27)), (0x18, regRC (ones 32))]

/-- The four registers of a DMA channel; DMA_STAT is a view (R247). -/
def dmaRegs : List (Nat × RegSpec) := [(0x08, regW1C bit63), (0x10, regRO), (0x18, regRC all64)]

/-- The stored registers of core `c` at block offset `o` (R59, R90, R120, R247). -/
def coreSpec (c o : Nat) : RegSpec :=
  if o < 0x1000 then regFind coreRegs o
  else if o < 0x2000 then regFind (muRegs c 0) (o - 0x1000)
  else if o < 0x3000 then regFind (muRegs c 1) (o - 0x2000)
  else if o < 0x4000 then regFind numRegs (o - 0x3000)
  else if o < 0x4400 then regFind spRegs o
  else if o < 0x4600 then regFind winRegs ((o - 0x4400) % 0x20)
  else if o = 0x4600 then regW1C bit63
  else if 0x4800 ≤ o ∧ o < 0x4880 then regFind dmaRegs ((o - 0x4800) % 0x20)
  else regNone

end Sys2Proof.Machine
end

