-- ==== Sys2Proof/Machine/RegBlocks.lean ====
section
/-!
DEFINITION. The register tables of every block but the cores: host, rings and windows (R341, R355), jobs (R377),
dispatch (R173), memory (R264 to R266), links (R296, R297), reduction (R327 to R329), queues (R222), power (R421),
telemetry (R393) and security (R422). A register that only shows live state has no entry with stored bits.
-/

namespace Sys2Proof.Machine

/-- Bits `lo` to `hi`. -/
def bits (lo hi : Nat) : W64 := BitVec.ofNat 64 (2 ^ (hi + 1) - 2 ^ lo)

/-- The four 32-bit or 64-bit kinds of read-cleared counter. -/
def rc32 : RegSpec := regRC (ones 32)
/-- A 64-bit read-cleared counter. -/
def rc64 : RegSpec := regRC all64

/-- The base of ring `r`'s registers (R341). -/
def ringBase (r : Nat) : Nat := 0x2000 + 0x40 * r
/-- The base of host window `h` (R355). -/
def hwBase (h : Nat) : Nat := 0x4000 + 0x20 * h
/-- The base of job partition `j` (R377). -/
def jpBase (j : Nat) : Nat := 0x8000 + 0x80 * j
/-- The base of resident model table entry `e` (R377). -/
def rmtBase (e : Nat) : Nat := 0x9000 + 0x40 * e
/-- The base of dispatch unit `u` (R173). -/
def duBase (u : Nat) : Nat := 0x20000 + 0x10000 * u
/-- The base of the memory registers (R266). -/
def memBase : Nat := 0x40000
/-- The base of the module-wide link registers (R297). -/
def lnkBase : Nat := 0x50000
/-- The base of the module-wide reduction registers (R327). -/
def redBase : Nat := 0x60000
/-- The base of job `j`'s reduction registers (R328). -/
def rclBase (j : Nat) : Nat := 0x61000 + 0x100 * j
/-- The base of bucket entry `e` (R329). -/
def bktBase (e : Nat) : Nat := 0x70000 + 0x80 * e
/-- The address of routing entry `d` (R297). -/
def routeAddr (d : Nat) : Nat := 0x100000 + 8 * d
/-- The base of link `n` (R296). -/
def linkBase (n : Nat) : Nat := 0x400000 + 0x4000 * n
/-- The base of queue `q` (R222). -/
def queueBase (q : Nat) : Nat := 0x600000 + 0x400 * q
/-- The base of GDDR7 controller `g` (R264). -/
def ctrlBase (g : Nat) : Nat := 0x800000 + 0x1000 * g
/-- The base of CXL port `p` (R265). -/
def cxlBase (p : Nat) : Nat := 0x900000 + 0x4000 * p
/-- The base of the power block (R421). -/
def pwrBase : Nat := 0xA00000
/-- The base of the telemetry block (R393). -/
def telBase : Nat := 0xB00000
/-- The base of the security block (R422). -/
def secBase : Nat := 0xC00000

/-- EVT_MASK and EVT_STAT of a block (R6, R8). -/
def evtRegs : List (Nat × RegSpec) := [(0x18, regRW all64), (0x20, regW1C all64)]

/-- A ring (R341). -/
def ringSpec (r o : Nat) : RegSpec :=
  match o with
  | 0x00 => regRW (bits 12 63)
  | 0x08 => regRW (bits 0 4 ||| bits 8 8 ||| bits 10 20 ||| bits 24 31 ||| bits 32 36)
  | 0x28 => if r = 1 then rc32 else regNone
  | _ => regNone

/-- A host window (R355). -/
def hwSpec (o : Nat) : RegSpec :=
  match o with
  | 0x00 => regRW (bits 12 63)
  | 0x08 => regRW (bits 12 32)
  | 0x10 => regRW (ones 12)
  | 0x18 => rc32
  | _ => regNone

/-- A job partition (R377). -/
def jpSpec (o : Nat) : RegSpec :=
  match o with
  | 0x38 => regRW (ones 30)
  | 0x40 => rc32
  | _ => regNone

/-- A dispatch unit (R173). -/
def duSpec (o : Nat) : RegSpec :=
  if 0x8000 ≤ o then regRW (ones 25)
  else
    match o with
    | 0x00 => regRW 1#64 1#64
    | 0x10 => regRW all64
    | 0x18 => regRW (ones 16)
    | 0x30 => rc32
    | 0x38 => rc32
    | 0x40 => rc32
    | 0x48 => rc32
    | 0x50 => rc32
    | 0x58 => regRW all64
    | 0x60 => regW1C all64
    | _ => regNone

/-- The memory registers (R266). DESIGN CHOICE, log entry 38: BIV_SLOTS stores 49 to 63 as they are written, and the read of such
a value is what was written. -/
def memSpec (o : Nat) : RegSpec :=
  if o < 0x100 then
    match o with
    | 0x00 => regRW 3#64 1#64
    | 0x08 => regRW 1#64
    | 0x10 => regW1C 1#64
    | 0x18 => regW1C bit63
    | _ => regNone
  else if o < 0x900 then
    match o % 0x20 with
    | 0x00 => regRW (bits 12 47)
    | 0x08 => regRW (bits 12 48)
    | 0x10 => regRW (ones 27)
    | 0x18 => rc32
    | _ => regNone
  else if o < 0xA00 then (if o % 0x10 = 0 then regRW (bits 12 47) else regRW (ones 6))
  else regNone

/-- The module-wide link registers (R297). -/
def lnkSpec (o : Nat) : RegSpec :=
  match o with
  | 0x10 => regRW (ones 24) (ones 24)
  | 0x18 => regRW all64 0x1111111111111111#64
  | 0x20 => regRW (ones 12) 0x284#64
  | 0x28 => regRW (ones 16) 625#64
  | 0x30 => regRW (ones 32) 3125#64
  | 0x38 => regRW (ones 17 ||| bits 32 47) 0x6400000000#64
  | 0x58 => regRW all64
  | 0x60 => regW1C all64
  | _ => regNone

/-- The module-wide reduction registers (R327). -/
def redSpec (o : Nat) : RegSpec :=
  match o with
  | 0x00 => regRW all64
  | 0x08 => regW1C all64
  | 0x10 => rc64
  | 0x18 => rc32
  | 0x20 => rc32
  | 0x28 => rc64
  | 0x30 => rc64
  | _ => regNone

/-- A job's reduction registers (R328). -/
def rclSpec (o : Nat) : RegSpec :=
  match o with
  | 0x00 => regRW 3#64
  | 0x10 => regRW (ones 32)
  | 0x18 => regRW (ones 48)
  | 0x20 => regRW (bits 6 47)
  | 0x28 => regRW all64 0x000F424000000000#64
  | 0x30 => regRW (ones 30)
  | 0x38 => regRW (ones 56)
  | 0x40 => regRW (ones 17)
  | 0x48 => regRW (bits 12 47)
  | 0x50 => regRW (bits 12 47)
  | _ => regNone

/-- A bucket entry (R329). -/
def bktSpec (o : Nat) : RegSpec :=
  match o with
  | 0x00 => regRW (ones 46)
  | 0x08 => regRW (ones 24)
  | 0x10 => regRW (bits 12 47)
  | 0x18 => regRW (ones 16)
  | 0x20 => regRW (bits 12 47)
  | 0x28 => regRW (bits 12 47)
  | 0x30 => regRW (bits 6 23 ||| bits 30 47)
  | 0x38 => regRW (bits 12 47)
  | 0x40 => regRW (bits 12 47)
  | 0x48 => regRW (bits 6 53)
  | 0x50 => regRW all64
  | 0x58 => regRW all64
  | _ => regNone

/-- A link (R296). -/
def linkSpec (o : Nat) : RegSpec :=
  if 0x100 ≤ o ∧ o < 0x180 then regRW all64 0x1111111111111111#64
  else
    match o with
    | 0x08 => regRW 3#64 2#64
    | 0x18 => regRW all64
    | 0x20 => regW1C all64
    | 0x30 => regRW (ones 8 ||| bits 16 31) 0x08000008#64
    | 0x38 => rc64
    | 0x40 => rc32
    | 0x48 => rc32
    | 0x50 => rc32
    | 0x58 => rc64
    | 0x60 => rc64
    | 0x68 => rc32
    | 0x200 => regRW (ones 12) 1024#64
    | _ => regNone

/-- A queue (R222). -/
def queueSpec (o : Nat) : RegSpec :=
  if 0x58 ≤ o ∧ o ≤ 0x90 then regRW (ones 16)
  else if 0xB8 ≤ o ∧ o ≤ 0xE8 then rc64
  else
    match o with
    | 0x08 => regRW 1#64
    | 0x18 => regRW all64
    | 0x20 => regW1C all64
    | 0x28 => regRW (ones 6 ||| bits 8 30)
    | 0x30 => regRW (bits 12 36)
    | 0x38 => regRW (ones 24)
    | 0x40 => regRW all64
    | 0x48 => regRW (ones 7)
    | 0x50 => regRW (ones 14)
    | _ => regNone

/-- A GDDR7 controller (R264). -/
def ctrlSpec (o : Nat) : RegSpec :=
  match o with
  | 0x08 => regRW 7#64 3#64
  | 0x18 => regRW all64
  | 0x20 => regW1C all64
  | 0x28 => regRW (ones 32) 86400000#64
  | 0x30 => regRW (ones 24) 100000#64
  | 0x38 => rc32
  | 0x40 => rc32
  | 0x48 => rc32
  | 0x50 => regW1C bit63
  | 0x58 => rc64
  | 0x60 => rc64
  | _ => regNone

/-- A CXL port (R265). -/
def cxlSpec (o : Nat) : RegSpec :=
  match o with
  | 0x08 => regRW 3#64
  | 0x18 => regRW all64
  | 0x20 => regW1C all64
  | 0x38 => regRW (ones 32) 1000000#64
  | 0x40 => regW1C bit63
  | 0x48 => rc32
  | 0x50 => rc64
  | 0x58 => rc64
  | 0x100 => regRW (ones 13)
  | _ => regNone

/-- The power block (R421). DESIGN CHOICE, log entry 3: the reference clocks of the ports are present until their loss is
reported. -/
def pwrSpec (o : Nat) : RegSpec :=
  match o with
  | 0x18 => regRW all64
  | 0x20 => regW1C all64
  | 0x28 => regRW (ones 12 ||| bits 16 27) 0x04B00CE4#64
  | 0x30 => { w1c := bits 18 18, reset := 0x20CE4#64 }
  | 0x38 => regRW (ones 12 ||| bits 16 27) 0x08980960#64
  | 0x40 => regRW (ones 8) 0x6E5F#64
  | 0x48 => regRW (ones 32) (BitVec.ofNat 64 (Config.curFuse 0 + 65536 * Config.curFuse 1))
  | 0x58 => rc64
  | 0x60 => regRO 0xC000000000000000#64
  | 0x68 => regRW all64 0xC000000000000000#64
  | 0x70 => regW1C all64
  | 0x78 => regW1C all64
  | 0x80 => regRW 2#64
  | 0x88 => regW1C 1#64
  | 0x98 => regRO 0x1F800#64
  | 0xA0 => regRW (ones 32) 1000#64
  | _ => regNone

/-- The telemetry block (R393). -/
def telSpec (o : Nat) : RegSpec :=
  if o < 0x100 then
    match o with
    | 0x18 => regRW all64
    | 0x20 => regW1C all64
    | 0x30 => regW1C 2#64
    | _ => regNone
  else if o < 0x500 then
    match o % 0x40 with
    | 0x00 => regRW (ones 15)
    | 0x08 => regRW (bits 12 47)
    | 0x10 => regRW (bits 6 47)
    | 0x20 => regRW (ones 32)
    | 0x28 => regRW all64
    | 0x30 => regW1C (ones 49)
    | 0x38 => rc32
    | _ => regNone
  else if 0x1000 ≤ o ∧ o < 0x1600 then
    match o % 0x20 with
    | 0x08 => rc64
    | 0x10 => rc32
    | _ => regNone
  else regNone

/-- The security block (R422). -/
def secSpec (o : Nat) : RegSpec :=
  if 0x1000 ≤ o ∧ o < 0x2000 then regRW all64
  else
    match o with
    | 0x18 => regRW all64
    | 0x20 => regW1C all64
    | 0x30 => regRW (ones 8 ||| bits 16 39)
    | _ => regNone

/-- The Global block (R335). -/
def globalSpec (a : Nat) : RegSpec :=
  if a < 0x1000 then regFind evtRegs a
  else if a < 0x2000 then
    match a with
    | 0x1010 => regRW (1#64 ||| bits 16 31) 0x3E80000#64
    | 0x1028 => regW1C bit63
    | _ => regNone
  else if a < 0x2880 then ringSpec ((a - 0x2000) / 0x40) ((a - 0x2000) % 0x40)
  else if 0x4000 ≤ a ∧ a < 0x4200 then hwSpec (a % 0x20)
  else if 0x8000 ≤ a ∧ a < 0x8800 then jpSpec (a % 0x80)
  else if a = 0x8808 then regRW (ones 32) 500#64
  else if a = 0x8810 then regRW all64
  else if a = 0x8818 then regW1C all64
  else if 0x20000 ≤ a ∧ a < 0x40000 then duSpec (a % 0x10000)
  else if 0x40000 ≤ a ∧ a < 0x50000 then memSpec (a - 0x40000)
  else if 0x50000 ≤ a ∧ a < 0x60000 then lnkSpec (a - 0x50000)
  else if 0x60000 ≤ a ∧ a < 0x61000 then redSpec (a - 0x60000)
  else if 0x61000 ≤ a ∧ a < 0x62000 then rclSpec (a % 0x100)
  else if 0x70000 ≤ a ∧ a < 0x78000 then bktSpec (a % 0x80)
  else if 0x100000 ≤ a ∧ a < 0x140000 then regRW (bits 0 28 ||| bits 31 47)
  else regNone

end Sys2Proof.Machine
end

