-- ==== Sys2Proof/Machine/RegMap.lean ====
section
/-!
DEFINITION. The register map of BAR0 (R335).
-/

namespace Sys2Proof.Machine

/-- The stored register at a BAR0 address: which bits a write stores or clears, which a read clears, and its reset
value. -/
def regSpec (a : Nat) : RegSpec :=
  if a < 0x400000 then globalSpec a
  else if a < 0x460000 then linkSpec (a % 0x4000)
  else if 0x600000 ≤ a ∧ a < 0x640000 then queueSpec (a % 0x400)
  else if 0x800000 ≤ a ∧ a < 0x818000 then ctrlSpec (a % 0x1000)
  else if 0x900000 ≤ a ∧ a < 0x910000 then cxlSpec (a % 0x4000)
  else if 0xA00000 ≤ a ∧ a < 0xB00000 then pwrSpec (a - 0xA00000)
  else if 0xB00000 ≤ a ∧ a < 0xC00000 then telSpec (a - 0xB00000)
  else if 0xC00000 ≤ a ∧ a < 0xD00000 then secSpec (a - 0xC00000)
  else if 0x1000000 ≤ a ∧ a < 0x1300000 then coreSpec ((a - 0x1000000) / 0x10000) ((a - 0x1000000) % 0x10000)
  else regNone

/-! ### What the PCIe functions present (R332) -/

/-- The class code of a port's physical function. -/
def pciClass : Nat := 0x120000
/-- The Device ID of a port's physical function. -/
def pfDeviceId : Nat := 0x4850
/-- The Device ID of a VF. -/
def vfDeviceId : Nat := 0x4851
/-- The Revision ID, of both ports alike. -/
def pciRevision : Nat := 0xA1

end Sys2Proof.Machine
end

