-- ==== Sys2Proof/Machine/State.lean ====
section
/-!
DEFINITION. The state of the block: the queue of commands, and everything the spec gives the machine.
-/

namespace Sys2Proof.Machine

/-- How a step can stop for good. -/
inductive Fault where
  /-- Raised by DISPATCH_REQUEST_START for a ROUTE whose regions overlap: the spec calls the outcome undefined (R155).
  Safe: the model stops where the hardware does anything. -/
  | dpbOverlap
deriving DecidableEq, Repr

/-- Why a command has no meaning. -/
inductive Refusal where
  /-- Raised only by an arm of `exec` that has no meaning yet. Safe: the model stops. -/
  | notModelled (mnemonic : String)
deriving DecidableEq, Repr

/-- The state. `pending` is the queue of commands, `tick` the counter free values are applied to, `ts` is TS_NOW
(R292); `regs` are the registers by BAR0 address that differ from their reset value. -/
structure State where
  pending : List Instr
  tick : Nat
  ts : W64
  regs : Table W64
  cores : Vector Core 48
  units : Vector Units 48
  locals : Vector Local 48
  queues : Vector Queue 256
  dus : Vector Dispatch 2
  gddr : Memory
  gddrErr : Table Bool
  ctrls : Vector Ctrl 24
  mem : MemState
  tier : Memory
  cxl : Vector Cxl 4
  cxlCfg : Table (BitVec 32)
  links : Vector Link 24
  net : Net
  host : HostPorts
  jobs : Jobs
  rcl : Rcl
  tel : Telemetry
  power : Power
  sec : Security
  pins : Pins
  tap : Tap
deriving DecidableEq, Repr

/-- The scratchpad of a core whose domain is off: every bank is off (R395). -/
def localOff : Local := { bank := Vector.replicate 64 .off }

/-- The state right after an AON and PON reset: every register at its reset value, PD63 and PD62 on and the boot ROM
running (R13, R397, R421), RST_STAT naming the PON reset, memories listing nothing, the queue of commands empty. Log
entries 2 to 5 name the values that the spec does not give. -/
def State.reset : State where
  pending := []
  tick := 0
  ts := 0#64
  regs := [(0xA00090, 1#64)]
  cores := Vector.replicate 48 {}
  units := Vector.replicate 48 {}
  locals := Vector.replicate 48 localOff
  queues := Vector.replicate 256 {}
  dus := Vector.replicate 2 {}
  gddr := []
  gddrErr := []
  ctrls := Vector.replicate 24 {}
  mem := {}
  tier := []
  cxl := Vector.replicate 4 {}
  cxlCfg := []
  links := Vector.replicate 24 {}
  net := {}
  host := {}
  jobs := {}
  rcl := {}
  tel := {}
  power := {}
  sec := {}
  pins := {}
  tap := {}

end Sys2Proof.Machine
end

