-- ==== Sys2Proof/Machine/Ops.lean ====
section
/-!
DEFINITION. The named operations every command goes through: the parts of the state, reading and writing a register,
moving time, recording an event with its ring record and its interrupt (R8, R350, R351).
-/

namespace Sys2Proof.Machine

/-- What a command answers. -/
abbrev Out := Host.Outcome State Fault Refusal

/-! ### Cores -/

/-- The core of a state. -/
def State.core (s : State) (c : CoreId) : Core := s.cores[c]
/-- The unit queues of a core. -/
def State.unit (s : State) (c : CoreId) : Units := s.units[c]
/-- The scratchpad, guards and semaphores of a core. -/
def State.loc (s : State) (c : CoreId) : Local := s.locals[c]
/-- The state with a core replaced. -/
def State.setCore (s : State) (c : CoreId) (k : Core) : State := { s with cores := s.cores.set c k }
/-- The state with a core's unit queues replaced. -/
def State.setUnit (s : State) (c : CoreId) (k : Units) : State := { s with units := s.units.set c k }
/-- The state with a core's scratchpad, guards and semaphores replaced. -/
def State.setLoc (s : State) (c : CoreId) (k : Local) : State := { s with locals := s.locals.set c k }

/-! ### Registers (R9, R13) -/

/-- The stored value of the register at a BAR0 address; an unlisted register holds its reset value. -/
def State.rd (s : State) (a : Nat) : W64 := (tget s.regs a).getD (regSpec a).reset

/-- The state with the stored value of a register replaced; a value equal to the reset value leaves the register
unlisted. -/
def State.wr (s : State) (a : Nat) (v : W64) : State :=
  { s with regs := if v = (regSpec a).reset then tdel s.regs a else tset s.regs a v }

/-- A counter field in the low `width` bits of a register stepped by `k`, saturating. -/
def State.count (s : State) (a width k : Nat) : State :=
  s.wr a (BitVec.ofNat 64 (satAdd width (s.rd a).toNat k))

/-- The state with bits of a register set. -/
def State.orReg (s : State) (a : Nat) (v : W64) : State := s.wr a (s.rd a ||| v)

/-! ### Free values and time -/

/-- The next number of the counter that free values are applied to, and the state with the counter moved on. -/
def State.fresh (s : State) : Nat × State := (s.tick, { s with tick := s.tick + 1 })

/-- TS_NOW as read now: while SCLK is present, time has moved by an amount the model leaves free (R292, R293). -/
def State.now (s : State) : W64 × State :=
  let (k, s) := s.fresh
  let t := if bit (s.rd (pwrBase + 0x98)) 0 then s.ts + BitVec.ofNat 64 (Config.elapsed k) else s.ts
  (t, { s with ts := t })

/-! ### Parts of the state -/

/-- The state with a queue replaced. -/
def State.setQueue (s : State) (q : QId) (k : Queue) : State := { s with queues := s.queues.set q k }
/-- The state with a dispatch unit replaced. -/
def State.setDu (s : State) (u : DuId) (k : Dispatch) : State := { s with dus := s.dus.set u k }
/-- The state with a link replaced. -/
def State.setLink (s : State) (l : LinkId) (k : Link) : State := { s with links := s.links.set l k }
/-- The state with a controller replaced. -/
def State.setCtrl (s : State) (g : CtrlId) (k : Ctrl) : State := { s with ctrls := s.ctrls.set g k }
/-- The state with a CXL port replaced. -/
def State.setCxl (s : State) (p : PortId) (k : Cxl) : State := { s with cxl := s.cxl.set p k }
/-- The state with a ring replaced. -/
def State.setRing (s : State) (r : RingId) (k : Ring) : State :=
  { s with host := { s.host with rings := s.host.rings.set r k } }
/-- The state with a job at the reduction and commit logic replaced. -/
def State.setRclJob (s : State) (j : JobId) (k : RclJob) : State :=
  { s with rcl := { s.rcl with jobs := s.rcl.jobs.set j k } }
/-- The state with a bucket replaced. -/
def State.setBkt (s : State) (e : QId) (k : Bucket) : State :=
  { s with rcl := { s.rcl with bkts := s.rcl.bkts.set e k } }

/-- The module's device ID (R270). -/
def State.devid (s : State) : Nat := fld (s.rd lnkBase) 0 15

/-- Whether a power domain is on (R395). -/
def State.domainOn (s : State) (d : Nat) : Bool := bit (s.rd (pwrBase + 0x60)) d && !(s.power.held && d < 60)

/-- What a write does to a register whose domain is on; in a domain that is off it has no effect, and in recovery no write but
those to the security block does (R395, R412). -/
def State.ifOn (s : State) (d : Nat) (t : State) : State := if s.domainOn d && !s.power.recovery then t else s

/-- What happens in the domains that a clock loss holds: nothing, while it holds them (R401). -/
def State.live (s t : State) : State := if s.power.held then s else t

/-- The domain of a queue (R222). -/
def queueDomain (q : QId) : Nat := if q.val < 128 then 48 else 49

/-! ### Jobs (R357, R358) -/

/-- The cores a job holds. -/
def State.heldBy (s : State) (j : Nat) : W64 := s.rd (jpBase j + 0x10)
/-- The cores that carry a saved image of a job. -/
def State.lentBy (s : State) (j : Nat) : W64 := s.rd (jpBase j + 0x18)
/-- Whether a core is in a job's core set (R358). -/
def State.inSet (s : State) (j c : Nat) : Bool := bit (s.heldBy j ||| s.lentBy j) c
/-- Whether a job is open (R357). -/
def State.jobOpen (s : State) (j : Nat) : Bool := bit (s.rd (jpBase j)) 0
/-- The job that holds a core, from CORE_JOB (R59). -/
def State.jobOf (s : State) (c : CoreId) : Option Nat :=
  let v := s.rd (coreBase c + 0x30)
  if v.getLsbD 8 then some (fld v 0 4) else none

/-! ### Rings and interrupts (R339, R350, R351) -/

/-- Entries of a ring. -/
def State.ringSize (s : State) (r : Nat) : Nat := 2 ^ fld (s.rd (ringBase r + 8)) 0 5
/-- Whether a ring is enabled. -/
def State.ringEn (s : State) (r : Nat) : Bool := bit (s.rd (ringBase r + 8)) 8
/-- Whether a ring is enabled and free of an error, so that it fetches or writes (R340, R345). -/
def State.ringLive (s : State) (r : RingId) : Bool := s.ringEn r && !(s.host.rings[r]).err
/-- The driving function of a ring (R339). -/
def State.ringFn (s : State) (r : Nat) : Nat := fld (s.rd (ringBase r + 8)) 32 5

/-- PHASE of the record at a producer index (R350). -/
def phaseOf (prod : BitVec 32) (log2n : Nat) : Nat := (prod.toNat / 2 ^ log2n + 1) % 2

/-- The number of a function of the owner port among the functions of both ports. -/
def State.fnNo (s : State) (fn : Nat) : Nat := (if s.host.ownerB then 32 else 0) + fn

/-- The MSI-X message of a vector of the owner port leaves (R351). -/
def State.message (s : State) (fn vec : Nat) : State :=
  let h := s.host
  let k := s.fnNo fn * 4096 + vec
  { s with host := { h with out := h.out ++ [.msix fn vec ((tget h.vecAddr k).getD 0#64) ((tget h.vecData k).getD 0#32)],
                            vecPending := h.vecPending.filter (fun x => x != k) } }

/-- A vector of a function is sent, or becomes pending where it is masked (R351). -/
def State.vector (s : State) (fn vec : Nat) : State :=
  let k := s.fnNo fn * 4096 + vec
  let h := s.host
  if h.vecOpen.contains k ∧ h.fnOn.contains (s.fnNo fn) then s.message fn vec
  else if h.vecPending.contains k then s
  else { s with host := { h with vecPending := h.vecPending ++ [k] } }

/-- The vector of a ring becomes due: sent at once, or by the coalescing timer (R351). -/
def State.due (s : State) (r : RingId) : State :=
  let cfg := s.rd (ringBase r + 8)
  if fld cfg 24 8 = 0 then s.vector (s.ringFn r) (fld cfg 10 11)
  else s.setRing r { s.host.rings[r] with timer := true }

/-- A record is written at the producer index of a completion or event ring, its PHASE in bit 0 of byte `at` (R343,
R350). -/
def State.putRecord (s : State) (r : RingId) (bytes : List Byte) (phaseAt : Nat) (irq : Bool) : State :=
  let k := s.host.rings[r]
  let l2 := fld (s.rd (ringBase r + 8)) 0 5
  let i := k.prod.toNat % 2 ^ l2
  let b := listSet bytes phaseAt (getD bytes phaseAt 0#8 ||| BitVec.ofNat 8 (phaseOf k.prod l2))
  let a := (s.rd (ringBase r)).toNat + bytes.length * i
  let h := s.host
  let s := { s with host := { h with out := h.out ++ [.write (s.ringFn r) a b],
                                     rings := h.rings.set r { k with prod := k.prod + 1 } } }
  if irq then s.due r else s

/-- Free places of a ring the Mehrox writes. -/
def State.ringRoom (s : State) (r : RingId) : Nat :=
  s.ringSize r - ((s.host.rings[r]).prod - (s.host.rings[r]).cons).toNat

/-- The 32 bytes of an event record without its PHASE (R350). -/
def evtBytes (code typ inst : Nat) (job dev : Option Nat) (ts : W64) (a0 a1 : Nat) : List Byte :=
  leBytes 2 code ++ [0#8] ++ leBytes 1 typ ++ leBytes 1 inst ++
  leBytes 1 (match job with | some j => j % 16 + 16 | none => 0) ++
  leBytes 2 (match dev with | some d => d % 32768 + 32768 | none => 0) ++
  leBytes 8 ts.toNat ++ leBytes 8 a0 ++ leBytes 8 a1

/-- The places the event ring keeps: one for every fetched management descriptor and every record it holds back
(R350). -/
def State.evtPlaces (s : State) : Nat := (s.host.rings[(0 : Fin 34)]).descs.length + (s.host.rings[(1 : Fin 34)]).held.length

/-- HOST_EVT_LOST is due and there is room for it: it is written with the count of lost records (R350). -/
def State.evtLost (s : State) : State :=
  if s.host.lost = 0 ∨ !s.ringLive 1 ∨ s.ringRoom 1 ≤ s.evtPlaces then s
  else
    let n := s.host.lost
    let (t, s) := s.now
    let s := s.orReg 0x20 1#64
    let s := { s with host := { s.host with lost := 0 } }
    if bit (s.rd 0x18) 0 then s
    else s.putRecord 1 (evtBytes 0 1 0 none none t n 0) 2 true

/-- A record goes to the event ring, or is lost where the ring is disabled or has no room beyond the places kept for
management completions and one more (R350). -/
def State.evtRecord (s : State) (bytes : List Byte) : State :=
  let s := s.evtLost
  if s.ringLive 1 ∧ s.host.lost = 0 ∧ s.evtPlaces + 1 < s.ringRoom 1 then
    s.putRecord 1 bytes 2 true
  else { s.count (ringBase 1 + 0x28) 32 1 with host := { s.host with lost := s.host.lost + 1 } }

/-! ### Events (R8, R14) -/

/-- The mask and status registers of an event code and the bit that records it, for instance `inst` of its source and
unit `sub` (R61, R91, R121, R174, R223, R248, R267, R298, R330, R356, R378, R423). -/
def evtReg (code inst sub : Nat) : Nat × Nat × Nat :=
  if code < 0x100 then (0x18, 0x20, code)
  else if code < 0x1000 then (0x8810, 0x8818, code - 0x100)
  else if code < 0x2000 then (coreBase inst + 0x18, coreBase inst + 0x20, code - 0x1000)
  else if code < 0x3000 then
    (coreBase inst + 0x1048 + 0x1000 * sub, coreBase inst + 0x1050 + 0x1000 * sub, code - 0x2000)
  else if code < 0x3100 then (coreBase inst + 0x3038, coreBase inst + 0x3040, code - 0x3000)
  else if code < 0x4000 then (duBase inst + 0x58, duBase inst + 0x60, (code - 0x3100) % 8)
  else if code < 0x5000 then (queueBase inst + 0x18, queueBase inst + 0x20, code - 0x4000)
  else if code < 0x5100 then (ctrlBase inst + 0x18, ctrlBase inst + 0x20, code - 0x5000)
  else if code < 0x5200 then (cxlBase inst + 0x18, cxlBase inst + 0x20, code - 0x5100)
  else if code < 0x6000 then (memBase + 8, memBase + 0x10, code - 0x5200)
  else if code < 0x6100 then (linkBase inst + 0x18, linkBase inst + 0x20, code - 0x6000)
  else if code < 0x7000 then (lnkBase + 0x58, lnkBase + 0x60, code - 0x6100)
  else if code < 0x8000 then (redBase, redBase + 8, code - 0x7000)
  else if code < 0x9000 then (pwrBase + 0x18, pwrBase + 0x20, code - 0x8000)
  else (secBase + 0x18, secBase + 0x20, code - 0x9000)

/-- The block type that an event record names (R7, R350). -/
def evtType (code : Nat) : Nat :=
  if code < 0x1000 then 1
  else if code < 0x3100 then 9
  else if code < 0x4000 then 1
  else if code < 0x5000 then 3
  else if code < 0x5100 then 4
  else if code < 0x5200 then 5
  else if code < 0x6000 then 1
  else if code < 0x6100 then 2
  else if code < 0x8000 then 1
  else if code < 0x9000 then 6
  else 8

/-- The instance byte of an event record: the unit of a dispatch event, none of a Global source (R350). -/
def evtInst (code inst : Nat) : Nat :=
  if code < 0x1000 ∨ (0x5200 ≤ code ∧ code < 0x6000) ∨ 0x6100 ≤ code then 0 else inst

/-- An event is recorded: its status bit is set and, unless it is masked, a record goes to the event ring (R8). -/
def State.record (s : State) (code inst sub : Nat) (job dev : Option Nat) (a0 a1 : Nat) : State :=
  let (m, st, b) := evtReg code inst sub
  let s := s.orReg st (BitVec.ofNat 64 (2 ^ b))
  if bit (s.rd m) b then s
  else
    let (t, s) := s.now
    s.evtRecord (evtBytes code (evtType code) (evtInst code inst) job dev t a0 a1)

/-! ### DIRTY of the resident model table (R370) -/

/-- A device address as the module decodes it: bit 63 with the module's own device ID decodes locally (R238). -/
def State.homeAddr (s : State) (a : Nat) : Nat :=
  if a.testBit 63 ∧ nfld a 48 15 = s.devid then nfld a 0 48 else a

/-- A write to `len` bytes of module memory sets DIRTY of every resident entry whose image it touches (R370). -/
def dirtyGddr (s : State) (a len : Nat) : State :=
  (List.range 8).foldl (fun s e =>
    let b := rmtBase e
    let cfg := s.rd b
    let lo := s.homeAddr (s.rd (b + 8 + 32)).toNat
    let n := fld (s.rd (b + 8)) 32 32
    if fld cfg 0 2 = 1 ∧ fld (s.rd (b + 8)) 0 8 = 2 ∧ lo < a + len ∧ a < lo + n then s.wr b (setBit cfg 3) else s) s

/-- A write to a core's scratchpad sets DIRTY of every resident entry that holds a region it touches (R370). -/
def dirtySp (s : State) (c off len : Nat) : State :=
  (List.range 8).foldl (fun s e =>
    let b := rmtBase e
    let cfg := s.rd b
    let regs := s.rd (b + 8 + 24)
    if fld cfg 0 2 = 1 ∧ fld (s.rd (b + 8)) 0 8 = 1 ∧ bit (s.rd (b + 8 + 16)) c ∧ len ≠ 0 ∧
      (List.range ((off + len - 1) / 0x40000 + 1 - off / 0x40000)).any (fun i => bit regs (off / 0x40000 + i)) then
      s.wr b (setBit cfg 3) else s) s

end Sys2Proof.Machine
end

