-- ==== Sys2Proof/Machine/Packets.lean ====
section
/-!
DEFINITION. Packets (R280 to R283), routing and the planes (R284 to R287), and entry into a transmit queue (R279,
R285, R286).
-/

namespace Sys2Proof.Machine

/-! ### CRC-32 of IEEE 802.3 (R274, R280) -/

/-- One bit of the CRC-32 division. -/
def crcBit (c : BitVec 32) : BitVec 32 := if c.getLsbD 0 then (c >>> 1) ^^^ 0xEDB88320#32 else c >>> 1
/-- One byte of the CRC-32 division. -/
def crcByte (c : BitVec 32) (b : Byte) : BitVec 32 :=
  crcBit (crcBit (crcBit (crcBit (crcBit (crcBit (crcBit (crcBit (c ^^^ b.setWidth 32))))))))
/-- CRC-32 of IEEE 802.3 of a byte string. -/
def crc32 (bs : List Byte) : Nat := (~~~(bs.foldl crcByte 0xFFFFFFFF#32)).toNat

/-! ### The header (R280) -/

/-- PTYPE. -/
def pType (p : Pkt) : Nat := fld p.hdr 0 4
/-- TC. -/
def pTc (p : Pkt) : Nat := fld p.hdr 4 2
/-- RSP. -/
def pRsp (p : Pkt) : Nat := fld p.hdr 6 1
/-- JOB. -/
def pJob (p : Pkt) : Nat := fld p.hdr 8 4
/-- POOLED. -/
def pPooled (p : Pkt) : Bool := bit p.hdr 13
/-- DST. -/
def pDst (p : Pkt) : Nat := fld p.hdr 16 15
/-- SRC. -/
def pSrc (p : Pkt) : Nat := fld p.hdr 32 15
/-- NUNITS. -/
def pUnits (p : Pkt) : Nat := fld p.hdr 48 8
/-- OSEQ. -/
def pOseq (p : Pkt) : Nat := fld p.hdr 64 16
/-- TAG. -/
def pTag (p : Pkt) : Nat := fld p.hdr 80 13
/-- ECRC. -/
def pEcrc (p : Pkt) : Nat := fld p.hdr 224 32
/-- The field of `n` bytes at header byte `o`. -/
def pByte (p : Pkt) (o n : Nat) : Nat := fld p.hdr (8 * o) (8 * n)
/-- The virtual channel of a packet (R277). -/
def pVc (p : Pkt) : Nat := 2 * pTc p + pRsp p
/-- The buffer units of a packet (R278). -/
def pSize (p : Pkt) : Nat := (32 + 64 * pUnits p + 63) / 64

/-- The bytes an ECRC covers (R280). -/
def ecrcBytes (p : Pkt) : List Byte := leBytes 28 p.hdr.toNat ++ p.data
/-- A packet with its ECRC. -/
def withEcrc (p : Pkt) : Pkt := { p with hdr := setFld p.hdr 224 32 (crc32 (ecrcBytes p)) }

/-- A packet of this module: type, class and direction, job, destination, tag, type fields (bytes 12 to 27) and
payload (R270, R280). OSEQ, POOLED and ECRC are filled in when it starts. -/
def mkPkt (s : State) (ptype tc rsp job dst tag : Nat) (tf : List Byte) (data : List Byte) : Pkt :=
  let h := leBytes 1 (ptype + 16 * tc + 64 * rsp) ++ leBytes 1 job ++ leBytes 2 dst ++ leBytes 2 s.devid ++
    leBytes 1 (data.length / 64) ++ leBytes 3 0 ++ leBytes 2 tag ++ (tf ++ List.replicate (16 - tf.length) 0#8)
  { hdr := BitVec.ofNat 256 (leNat h), data := data }

/-- Whether a virtual channel is pinned (R277). -/
def pinnedVc (vc : Nat) : Bool := vc == 0 || vc == 3 || vc == 6 || vc == 7

/-! ### Routing (R284, R285, R287) -/

/-- LINK_LIVE (R272, R297). -/
def liveMask (s : State) : Nat :=
  (allFin 24).foldl (fun m n => if (s.links[n]).st = .active then m + 2 ^ n.val else m) 0

/-- The usable set of a destination for a job (R285, R287): empty where the entry does not route it. -/
def usable (s : State) (dst job : Nat) : Nat :=
  let e := s.rd (routeAddr dst)
  if bit e 31 ∧ bit e (32 + job) then fld e 0 24 &&& liveMask s &&& fld (s.rd (lnkBase + 0x10)) 0 24 else 0

/-- The first plane of a set at or after `from`, counting cyclically upward (R285). -/
def planeFrom (set start : Nat) : Option (Fin 24) :=
  (((List.range 24).map (fun i => (start + i) % 24)).find? (fun n => set.testBit n)).bind (fin? 24)

/-- The plane of a pinned flow: the first usable one at or after its home plane (R285). DESIGN CHOICE, log entry 42: with an invalid
PIN, 24 to 31, there is none, and the destination is unreachable for the flow (R284). -/
def pinPlane (s : State) (dst job : Nat) : Option (Fin 24) :=
  let pin := fld (s.rd (routeAddr dst)) 24 5
  if pin < 24 then planeFrom (usable s dst job) pin else none

/-- The plane of a packet that enters a transmit queue on a die: the home plane onward for a pinned channel, the next
after the one last used for a striped one (R285). -/
def choosePlane (s : State) (die vc dst job : Nat) : Option (Fin 24) :=
  if pinnedVc vc then pinPlane s dst job
  else
    let u := usable s dst job
    match tget s.net.lastPlane (die * 8 + vc) with
    | none => planeFrom u 0
    | some p => planeFrom u (p + 1)

/-- The key of a pinned flow: destination, job and class (R283, R285). -/
def flowKey (dst job vc : Nat) : Nat := (dst * 16 + job) * 4 + vc / 2

/-- A packet enters the transmit queue of its plane; false where the destination is unreachable (R285, R286, R287). A
pinned flow whose plane has changed since its last packet waits for REPIN_HOLD. `q` is the forwarding queue whose cells the packet
carries. -/
def sendPkt (s : State) (die vc job dst : Nat) (p : Pkt) (q : Option QId := none) : State × Bool :=
  match choosePlane s die vc dst job with
  | none => (s, false)
  | some n =>
    let k := flowKey dst job vc
    let net := s.net
    let (net, hold) :=
      if pinnedVc vc then
        let changed := match tget net.pinned k with
          | some q => q != n.val
          | none => false
        let hold := changed || net.holding.contains k
        ({ net with pinned := tset net.pinned k n.val,
                    holding := if changed && !net.holding.contains k then net.holding ++ [k] else net.holding }, hold)
      else ({ net with lastPlane := tset net.lastPlane (die * 8 + vc) n.val }, false)
    let l := s.links[n]
    let s := { s with net := net }
    (s.setLink n { l with tx := l.tx ++ [{ pkt := p, vc := vc, job := job, dst := dst, die := die, hold := hold, queue := q }] }, true)

/-- LINK_UNREACHABLE of a packet, without what hangs on it (R287, R385). -/
def unreachable (s : State) (job : Option Nat) (dst : Nat) (p : Pkt) : State :=
  s.record 0x6102 0 0 job (some dst) (fld p.hdr 0 64) (fld p.hdr 64 64)

/-! ### SYNC messages (R317) -/

/-- Kinds of SYNC message (R317). -/
def skExp : Nat := 1
/-- PENDING. -/
def skPending : Nat := 2
/-- DECIDE. -/
def skDecide : Nat := 3
/-- READY. -/
def skReady : Nat := 4
/-- COMMIT. -/
def skCommit : Nat := 5
/-- ABANDON. -/
def skAbandon : Nat := 6
/-- FAIL. -/
def skFail : Nat := 7

/-- The type fields of a SYNC message, bytes 12 to 27 (R317). -/
def syncFields (kind attempt bidx step level : Nat) (e : Int) (count : Nat) (invalid : Bool) (nexcl : Nat) : List Byte :=
  leBytes 1 kind ++ leBytes 1 attempt ++ leBytes 2 bidx ++ leBytes 4 step ++ leBytes 1 level ++ leBytes 1 (ofInt 8 e) ++
    leBytes 2 count ++ leBytes 1 (if invalid then 1 else 0) ++ leBytes 2 nexcl ++ [0#8]

/-- The payload of a SYNC message: its member indices, padded to whole units (R317). -/
def syncData (excl : List Nat) : List Byte :=
  let b := excl.flatMap (leBytes 2)
  b ++ List.replicate (alignUp b.length 64 - b.length) 0#8

/-- A SYNC message is sent: kept for the module itself, or handed to the links. False where it cannot be sent. -/
def sendSync (s : State) (job dst rsp : Nat) (tf : List Byte) (excl : List Nat) : State × Bool :=
  let p := mkPkt s 9 3 rsp job dst 0 tf (syncData excl)
  if dst = s.devid then ({ s with net := { s.net with self := s.net.self ++ [p] } }, true)
  else
    match sendPkt s 0 (6 + rsp) job dst p with
    | (s, true) => (s, true)
    | (s, false) => (unreachable s (some job) dst p, false)

end Sys2Proof.Machine
end

