-- ==== Sys2Proof/Machine/Events.lean ====
section
/-!
DEFINITION. The failing of a step and the raising of events (R322, R379, R380, R384), and the beats of a core (R387).
-/

namespace Sys2Proof.Machine

/-! ### Members of a group (R299) -/

/-- G of a job (R328). -/
def groupG (s : State) (j : Nat) : Nat := fld (s.rd (rclBase j + 0x18)) 0 16 + 1
/-- SELF of a job (R328). -/
def groupSelf (s : State) (j : Nat) : Nat := fld (s.rd (rclBase j + 0x18)) 16 16
/-- The device IDs of a job's members, in table order. -/
def groupOf (s : State) (j : Nat) : List Nat :=
  match fin? 16 j with
  | some j => s.rcl.groups[j]
  | none => []
/-- The device ID of member `i` (R299). DESIGN CHOICE, log entry 46: the member table is read once, when EN of the job is set. -/
def member (s : State) (j i : Nat) : Nat := getD (groupOf s j) i 0
/-- The index of a device in its group. DESIGN CHOICE, log entry 46: 0xFFFF in an event for a device that is no member. -/
def memberNo (s : State) (j dev : Nat) : Nat := ((groupOf s j).findIdx? (· == dev)).getD 0xFFFF
/-- Whether the reduction and commit logic serves a job (R328). -/
def rclEn (s : State) (j : Nat) : Bool := bit (s.rd (rclBase j)) 0

/-! ### Failing (R322) -/

/-- FAIL goes to the summit, member 0 (R318, R322). A summit that cannot be reached fails the operation to this logic,
whose step has failed already (R287). -/
def sendFail (s : State) (j : JobId) : State :=
  let k := s.rcl.jobs[j]
  let step := (s.rd (rclBase j + 0x10)).toNat
  (sendSync s j (member s j 0) 0 (syncFields skFail k.attempt.toNat 0 step 0 0 0 false 0) []).1

/-- The step in progress of a job fails (R322, R379): STEP_FAILED and FAIL, or after READY a failure of the next step.
A job that the logic does not serve has no step to fail (R380). -/
def State.failStep (s : State) (job : Option Nat) : State :=
  match job.bind (fin? 16) with
  | none => s
  | some j =>
    let k := s.rcl.jobs[j]
    if !rclEn s j then s
    else if k.readySent then s.setRclJob j { k with failLater := true }
    else if k.failed then s
    else sendFail (s.setRclJob j { k with failed := true }) j

/-! ### Raising an event -/

/-- Whether an event sends its operation through R379 (the Fails column of R384). Events that fail only some
operations take their own decision. -/
def evFails (code : Nat) : Bool :=
  [0x0004, 0x0105, 0x1006, 0x1012, 0x1013, 0x1014, 0x1015, 0x1017, 0x2002, 0x2003, 0x2004, 0x3101, 0x3105, 0x3109,
   0x310D, 0x4001, 0x4005, 0x4006, 0x4007, 0x4008, 0x4009, 0x400A, 0x5001, 0x5003, 0x5004, 0x5101, 0x5103, 0x5104,
   0x5200, 0x6102, 0x6104, 0x6105, 0x6106, 0x7002, 0x7003, 0x7004, 0x7005, 0x7007].contains code

/-- An event with the remote device it names, failing the step of `job` where `fails` says so. -/
def State.raiseDev (s : State) (fails : Bool) (code inst sub : Nat) (job dev : Option Nat) (a0 a1 : Nat) : State :=
  let s := s.record code inst sub job dev a0 a1
  if fails then s.failStep job else s

/-- An event, failing the step of `job` where `fails` says so. -/
def State.raiseIf (s : State) (fails : Bool) (code inst sub : Nat) (job : Option Nat) (a0 a1 : Nat) : State :=
  s.raiseDev fails code inst sub job none a0 a1

/-- Raising an event whose code alone decides whether a step fails. -/
def State.raise (s : State) (code inst sub : Nat) (job : Option Nat) (a0 a1 : Nat) : State :=
  s.raiseIf (evFails code) code inst sub job a0 a1

/-- A core event of the core's own job (R61, R248, R380). -/
def State.coreEv (s : State) (c : CoreId) (code a0 a1 : Nat) : State := s.raise code c 0 (s.jobOf c) a0 a1

/-! ### Beats (R387) -/

/-- The duration of a beat goes to BEAT_LAST and BEAT_MAX, and a beat over the job's threshold is counted and flagged
(R387). -/
def noteBeat (s : State) (c : CoreId) (d : W64) : State :=
  let b := telBase + 0x1000 + 0x20 * c.val
  let s := s.wr b d
  let s := if (s.rd (b + 8)).toNat < d.toNat then s.wr (b + 8) d else s
  match s.jobOf c with
  | none => s
  | some j =>
    let thr := fld (s.rd (telBase + 0x120 + 0x40 * j)) 0 32
    if thr ≠ 0 ∧ thr < d.toNat then
      (s.count (b + 0x10) 32 1).orReg (telBase + 0x130 + 0x40 * j) (BitVec.ofNat 64 (2 ^ c.val))
    else s

/-- A forced save stops the timer of the beat, which ends at the entry into HALTED (R387). -/
def stopBeat (s : State) (c : CoreId) : State :=
  match (s.core c).beat with
  | none => s
  | some t0 =>
    let (t, s) := s.now
    s.setCore c { s.core c with beat := none, beatHeld := some (t - t0) }

/-- A beat of a core ends. With no beat begun nothing happens. The timer is left stopped (R387). -/
def endBeat (s : State) (c : CoreId) : State :=
  let s := stopBeat s c
  match (s.core c).beatHeld with
  | none => s
  | some d => noteBeat (s.setCore c { s.core c with beatHeld := none }) c d

/-- A beat of a core begins (R387). -/
def beginBeat (s : State) (c : CoreId) : State :=
  let (t, s) := s.now
  s.setCore c { s.core c with beat := some t }

end Sys2Proof.Machine
end

