-- ==== Sys2Proof/Machine/Gddr.lean ====
section
/-!
DEFINITION. Access to module memory: the controller of an address (R254), line protection (R251, R253, R256, R257), and
whether the controllers serve (R250).
-/

namespace Sys2Proof.Machine

/-- The end of usable module memory: 93 GiB with line protection, else 96 GiB (R251). -/
def gddrTop (s : State) : Nat := if bit (s.rd memBase) 0 then 0x1740000000 else 0x1800000000

/-- The controller of a device address (R254). -/
def ctrlOf (a : Nat) : CtrlId :=
  let g := a / 256
  ⟨(g + g / 24 % 24) % 24, Nat.mod_lt _ (by decide)⟩

/-- The device-local address of a device address (R254). -/
def localAddr (a : Nat) : Nat := a / 256 / 24 * 256 + a % 256

/-- The lines that `len` bytes at `a` touch. -/
def linesOf (a len : Nat) : List Nat :=
  if len = 0 then [] else (List.range ((a + len - 1) / 64 + 1 - a / 64)).map (fun i => a / 64 + i)

/-- Whether `len` bytes at `a` touch a line. -/
def touches (a len l : Nat) : Bool := decide (64 * l < a + len ∧ a < 64 * l + 64)

/-- What keeps a line's controller from serving: nothing, a wait for READY or for a request before it, or a failed training
(R250, R255). -/
inductive Serve where
  | yes | wait | fail
deriving DecidableEq, Repr

/-- The power domain of a controller (R16). -/
def ctrlDomain (g : CtrlId) : Nat := if g.val < 12 then 56 else 57

/-- Whether the controllers of an access serve at all; one whose domain is off fails it (R18, R250). -/
def gddrReady (s : State) (a len : Nat) : Serve :=
  let ns := (linesOf a len).map (fun l => ctrlOf (64 * l))
  let gs := ns.map (fun g => s.ctrls[g])
  if ns.any (fun g => !s.domainOn (ctrlDomain g)) || gs.any (fun g => g.trainFail) then .fail
  else if gs.any (fun g => !g.ready) then .wait
  else .yes

/-- Whether a request to one of the lines of an access waits at a controller, and goes before it (R255). -/
def gddrBusy (s : State) (a len : Nat) : Bool :=
  (linesOf a len).any (fun l => (s.ctrls[ctrlOf (64 * l)]).reqs.any (fun r => touches r.addr r.len l))

/-- Whether the controllers of an access serve it now. -/
def gddrServe (s : State) (a len : Nat) : Serve :=
  match gddrReady s a len with
  | .yes => if gddrBusy s a len then .wait else .yes
  | x => x

/-- The payload counter of a controller moves for each line of an access (R264). -/
def gddrCount (s : State) (a len reg : Nat) : State :=
  (linesOf a len).foldl (fun s l =>
    let lo := max a (64 * l)
    let hi := min (a + len) (64 * l + 64)
    s.count (ctrlBase (ctrlOf (64 * l)) + reg) 64 (hi - lo)) s

/-! ### The check area (R251, R254) -/

/-- The device address of a local line of a controller (R254). -/
def lineAddr (g : CtrlId) (l : Nat) : Nat :=
  let q := l / 4
  256 * (24 * q + (g.val + 24 - q % 24) % 24) + 64 * (l % 4)

/-- The byte of the check entries at an address of the check area, with the lines as `m` holds them: the entry of local
line l at local byte 0xF800_0000 + 2l, its bits [15:11] zero (R251). -/
def checkByte (m : Memory) (a : Nat) : Byte :=
  let o := localAddr a - 0xF8000000
  let line := m.read (lineAddr (ctrlOf a) (o / 2)) 64
  BitVec.ofNat 8 (nfld (Config.checkCode (BitVec.ofNat 512 (leNat line)) (o / 2)).toNat (8 * (o % 2)) 8)

/-- Whether a line of the check area still holds check entries. -/
def holdsChecks (s : State) (written : List Nat) (l : Nat) : Bool :=
  decide (0x1740000000 ≤ 64 * l) && !written.contains l &&
    !s.mem.plain.contains (if (ctrlOf (64 * l)).val < 12 then 0 else 1)

/-- Bytes of module memory as they stand. Where line protection has been switched off, the check area holds the check
entries until it is written (R251). -/
def gddrPeek (s : State) (a len : Nat) : List Byte :=
  match (if a + len ≤ 0x1740000000 then none else s.mem.checks) with
  | none => s.gddr.read a len
  | some (m, written) =>
    (List.range len).map (fun i =>
      if holdsChecks s written ((a + i) / 64) then checkByte m (a + i) else s.gddr.get (a + i))

/-- The writes to some bytes of module memory that controllers hold, oldest first (R255). -/
def heldWrites (s : State) (a len : Nat) : List (Nat × List Byte) :=
  s.ctrls.toList.flatMap (fun k => k.reqs.filterMap (fun r =>
    r.data.bind (fun bs => if r.addr < a + len ∧ a < r.addr + bs.length then some (r.addr, bs) else none)))

/-- Bytes of module memory behind the writes to them that controllers hold. -/
def gddrLater (s : State) (a len : Nat) : List Byte :=
  (heldWrites s a len).foldl (fun old w =>
    (List.range len).map (fun i =>
      if w.1 ≤ a + i ∧ a + i < w.1 + w.2.length then getD w.2 (a + i - w.1) 0#8 else getD old i 0#8)) (gddrPeek s a len)

/-- The lines of the check area that an access touches hold their check entries as plain bytes from now on. -/
def checksSettle (s : State) (a len : Nat) : State :=
  match (if a + len ≤ 0x1740000000 then none else s.mem.checks) with
  | none => s
  | some (m, written) =>
    let ls := (linesOf a len).filter (holdsChecks s written)
    { s with gddr := ls.foldl (fun g l => g.write (64 * l) (gddrPeek s (64 * l) 64)) s.gddr
             mem := { s.mem with checks := some (m, written ++ ls) } }

/-! ### Errors of a line (R256, R257) -/

/-- A corrected line is counted and reported, and rewritten (R256). -/
def lineCorrected (s : State) (l : Nat) : State :=
  let g := ctrlOf (64 * l)
  let s := s.count (ctrlBase g + 0x38) 32 1
  let s := s.raise 0x5000 g 0 none (s.rd (ctrlBase g + 0x50)).toNat 0
  { s with gddrErr := tdel s.gddrErr l }

/-- A failed line is recorded and reported with an event, failing the step of `job` where there is one (R256, R257). -/
def lineFailed (s : State) (code l : Nat) (job : Option Nat) : State :=
  let g := ctrlOf (64 * l)
  let v := bit63 ||| BitVec.ofNat 64 (64 * l)
  (s.wr (ctrlBase g + 0x50) v).raiseIf job.isSome code g 0 job v.toNat 0

/-- An uncorrectable line: MEM_ECC_UNCORR. -/
def lineUncorr (s : State) (l : Nat) (job : Option Nat) : State := lineFailed s 0x5001 l job

/-- Retries after CRC failures: each is counted and reported (R257). -/
def crcRetries (g : CtrlId) : Nat → State → State
  | 0, s => s
  | n + 1, s =>
    let s := s.count (ctrlBase g + 0x48) 32 1
    crcRetries g n (s.raise 0x5002 g 0 none (s.rd (ctrlBase g + 0x50)).toNat 0)

/-- The bursts of an access that fail their CRC are retried, four times at most; the lines whose fourth retry fails, with
MEM_CRC_FAIL (R257). -/
def gddrCrc (s : State) (job : Option Nat) (a len : Nat) : State × List Nat :=
  (s.mem.crc.filter (fun e => touches a len e.1)).foldl (fun (acc : State × List Nat) e =>
    let s := { acc.1 with mem := { acc.1.mem with crc := tdel acc.1.mem.crc e.1 } }
    let s := crcRetries (ctrlOf (64 * e.1)) (min e.2 4) s
    if e.2 ≤ 4 then (s, acc.2) else (lineFailed s 0x5003 e.1 job, acc.2 ++ [e.1])) (s, [])

/-- The marked lines of an access, in order. -/
def gddrMarks (s : State) (a len : Nat) : List (Nat × Bool) :=
  if bit (s.rd memBase) 0 then s.gddrErr.filter (fun e => touches a len e.1) else []

/-- The correctable lines of some marks are corrected, the others reported (R256, R257). -/
def marksRead (s : State) (job : Option Nat) (ms : List (Nat × Bool)) : State :=
  let s := (ms.filter (fun e => !e.2)).foldl (fun s e => lineCorrected s e.1) s
  (ms.filter (·.2)).foldl (fun s e => lineUncorr s e.1 job) s

/-- A read of module memory: corrected lines are rewritten, uncorrectable ones are reported and the address of the first
returned. The bytes are returned as they stand. -/
def gddrRead (s : State) (job : Option Nat) (a len : Nat) : State × List Byte × Option Nat :=
  let (s, crc) := gddrCrc s job a len
  let ms := gddrMarks s a len
  let s := gddrCount (marksRead s job ms) a len 0x58
  (s, gddrPeek s a len, ((crc ++ (ms.filter (·.2)).map (·.1)).head?).map (64 * ·))

/-- A write of module memory: a line covered in part is read first, and one with an uncorrectable error keeps its
content and its error; the address of the first line that failed is returned (R253). What a line holds whose burst failed
its fourth retry the spec does not say. -/
def gddrWrite (s : State) (job : Option Nat) (a : Nat) (bs : List Byte) : State × Option Nat :=
  let len := bs.length
  let whole (l : Nat) : Bool := a ≤ 64 * l && 64 * l + 64 ≤ a + len
  let (s, crc) := gddrCrc (checksSettle s a len) job a len
  let ms := gddrMarks s a len
  let part := ms.filter (fun e => !whole e.1)
  let s := marksRead s job part
  let bad := (part.filter (·.2)).map (·.1)
  let s := { s with gddrErr := s.gddrErr.filter (fun e => !(ms.contains e && whole e.1)) }
  let s := gddrCount s a len 0x60
  let mem := if bad.isEmpty then s.gddr.write a bs
    else (List.range len).foldl (fun m i =>
      if bad.contains ((a + i) / 64) then m else Memory.set m (a + i) (getD bs i 0#8)) s.gddr
  let (k, s) := if crc.isEmpty then (0, s) else s.fresh
  let mem := crc.foldl (fun m l => Memory.write m (64 * l) (leBytes 64 (Config.crcLine (k + l)).toNat)) mem
  let s := dirtyGddr { s with gddr := mem } a len
  (s, ((crc ++ bad).head?).map (64 * ·))

end Sys2Proof.Machine
end

