-- ==== Sys2Proof/Machine/Scratch.lean ====
section
/-!
DEFINITION. Reading and writing a core's scratchpad: gecko residency (R233), bank power (R236), SECDED (R226), windows
(R231, R232), guards (R227 to R229).
-/

namespace Sys2Proof.Machine

/-- 16 MiB (R224). -/
def spSize : Nat := 0x1000000

/-- The bank of a scratchpad offset (R224). -/
def bankOf (o : Nat) : Nat := 8 * nfld o 21 3 + nfld o 7 3

/-- Why a scratchpad access is refused or fails. -/
inductive SpErr where
  | gecko
  | bank (off : Nat)
  | ecc (off : Nat)
deriving DecidableEq, Repr

/-- The regions of 256 KiB that `len` bytes at `off` touch (R224). -/
def regionsOf (off len : Nat) : List Nat :=
  if len = 0 then []
  else (List.range ((off + len - 1) / 0x40000 + 1 - off / 0x40000)).map (fun i => off / 0x40000 + i)

/-- Whether region `r` of a core is gecko-resident for a job other than the access's (R233). -/
def geckoDenied (s : State) (c : CoreId) (job : Option Nat) (r : Nat) : Bool :=
  (s.rd (coreBase c + 0x4018)).getLsbD r &&
    job != some (fld (s.rd (coreBase c + 0x4020 + 8 * (r / 16))) (4 * (r % 16)) 4)

/-- Whether an access of `len` bytes touches another job's gecko region (R233). -/
def spGecko (s : State) (c : CoreId) (job : Option Nat) (off len : Nat) : Bool :=
  (regionsOf off len).any (geckoDenied s c job)

/-- Whether the bank of a word is not ON (R236). -/
def wordOff (s : State) (c : CoreId) (w : Nat) : Bool :=
  match fin? 64 (bankOf w) with
  | some b => (s.loc c).bank[b] != Bank.on
  | none => true

/-- The bank words of an access, by their offsets (R224). -/
def spWords (off len : Nat) : List Nat :=
  if len = 0 then [] else (List.range ((off + len - 1) / 128 + 1 - off / 128)).map (fun i => 128 * (off / 128 + i))

/-- The first bank word of an access whose bank is not ON (R236). -/
def spBankOff (s : State) (c : CoreId) (off len : Nat) : Option Nat := (spWords off len).find? (wordOff s c)

/-- Each request of an access to a bank that is not ON raises SP_BANK_OFF: an access makes one request for each bank word
(R224, R236). -/
def spSomeOff (s : State) (c : CoreId) (job : Option Nat) (off len : Nat) : State :=
  ((spWords off len).filter (wordOff s c)).foldl
    (fun s w => s.raise 0x1015 c 0 job (s.rd (coreBase c + 0x4080)).toNat w) s

/-- The marks of the 8-byte lanes that an access touches: offset of the lane and whether the error is double-bit
(R226). -/
def spMarks (s : State) (c : CoreId) (off len : Nat) : List (Nat × Bool) :=
  (s.loc c).spErr.filter (fun e => off < e.1 + 8 && e.1 < off + len)

/-- A corrected lane counted and reported (R226). -/
def spFixed (s : State) (c : CoreId) (job : Option Nat) (off : Nat) : State :=
  let s := s.count (coreBase c + 0x4068) 32 1
  let k := s.loc c
  (s.setLoc c { k with fixes := k.fixes ++ [off] }).raise 0x1016 c 0 job (s.rd (coreBase c + 0x4080)).toNat off

/-- Every corrected lane of some marks counted and reported, in order (R226). -/
def spCorrected (s : State) (c : CoreId) (job : Option Nat) (ms : List (Nat × Bool)) : State :=
  (ms.filter (fun e => !e.2)).foldl (fun s e => spFixed s c job e.1) s

/-- An uncorrectable lane recorded and reported, the step of the access's job failing (R226, R379). -/
def spUncorr (s : State) (c : CoreId) (job : Option Nat) (off : Nat) : State :=
  let s := s.wr (coreBase c + 0x4080) (bit63 ||| BitVec.ofNat 64 off)
  s.raise 0x1017 c 0 job (s.rd (coreBase c + 0x4080)).toNat off

/-- The bytes of a scratchpad without any check. -/
def spBytes (s : State) (c : CoreId) (off len : Nat) : List Byte := (s.loc c).sp.read off len

/-- Every uncorrectable lane of some marks recorded and reported, in order: SP_ERR_ADDR holds the last (R226, R247). -/
def spUncorrs (s : State) (c : CoreId) (job : Option Nat) (ms : List (Nat × Bool)) : State :=
  (ms.filter (·.2)).foldl (fun s e => spUncorr s c job e.1) s

/-- The ECC part of a read (R226): single-bit errors are corrected and counted, double-bit errors are recorded. -/
def spEcc (s : State) (c : CoreId) (job : Option Nat) (off len : Nat) : State × Option SpErr :=
  let ms := spMarks s c off len
  let s := spUncorrs (spCorrected s c job ms) c job ms
  (s, (ms.find? (·.2)).map (fun e => .ecc e.1))

/-- The checks of an access by one of the core's own engines for job `job`, gecko residency first, then bank power
(R233, R236), each raising its event. -/
def spAllow (s : State) (c : CoreId) (job : Option Nat) (off len : Nat) : State × Option SpErr :=
  if spGecko s c job off len then (s.raise 0x1014 c 0 job (s.rd (coreBase c + 0x4080)).toNat off, some .gecko)
  else
    match spBankOff s c off len with
    | some w => (spSomeOff s c job off len, some (.bank w))
    | none => (s, none)

/-- A checked read: the checks of `spAllow`, then SECDED. -/
def spRead (s : State) (c : CoreId) (job : Option Nat) (off len : Nat) : State × Option SpErr :=
  match spAllow s c job off len with
  | (s, some e) => (s, some e)
  | (s, none) => spEcc s c job off len

/-- Whether lane `l` is written whole by `len` bytes at `off`. -/
def laneWhole (off len l : Nat) : Bool := off ≤ l && l + 8 ≤ off + len

/-- Writing bytes with the merge rules of R226: a lane written in part is read first; a single-bit error is corrected
before the merge, a double-bit error leaves the lane as it is and is reported. -/
def spMerge (s : State) (c : CoreId) (job : Option Nat) (off : Nat) (bs : List Byte) : State × Option SpErr :=
  let len := bs.length
  let ms := spMarks s c off len
  let part := ms.filter (fun e => !laneWhole off len e.1)
  let bad := part.filter (·.2)
  let s := spCorrected s c job part
  let k := s.loc c
  let idx := (List.range len).filter (fun i => !bad.any (fun e => e.1 ≤ off + i && off + i < e.1 + 8))
  let sp := if bad.isEmpty then k.sp.write off bs
    else idx.foldl (fun m i => Memory.set m (off + i) (getD bs i 0#8)) k.sp
  let spErr := k.spErr.filter (fun e => !ms.contains e || bad.contains e)
  let s := dirtySp (s.setLoc c { k with sp := sp, spErr := spErr }) c off len
  (spUncorrs s c job bad, (bad.head?).map (fun e => .ecc e.1))

/-- A checked write. -/
def spWrite (s : State) (c : CoreId) (job : Option Nat) (off : Nat) (bs : List Byte) : State × Option SpErr :=
  match spAllow s c job off bs.length with
  | (s, some e) => (s, some e)
  | (s, none) => spMerge s c job off bs

/-- The parts of an access that fall into one bank word each, as offset and length (R224). -/
def wordParts (off len : Nat) : List (Nat × Nat) :=
  if len = 0 then []
  else
    (List.range ((off + len - 1) / 128 + 1 - off / 128)).map (fun i =>
      let w := 128 * (off / 128 + i)
      (max off w, min (off + len) (w + 128) - max off w))

/-- Whether the bank of an offset is ON (R236). -/
def bankOn (s : State) (c : CoreId) (o : Nat) : Bool := (spBankOff s c o 1).isNone

/-- The parts of an access that lie in banks that are ON. -/
def onParts (s : State) (c : CoreId) (off len : Nat) : List (Nat × Nat) :=
  (wordParts off len).filter (fun p => bankOn s c p.1)

/-- A write by a writer of the last rows of R226 and R236: bytes of a bank that is not ON are dropped, a lane with a
double-bit error is left out, and the writer completes. -/
def spWriteAny (s : State) (c : CoreId) (job : Option Nat) (off : Nat) (bs : List Byte) : State :=
  match spBankOff s c off bs.length with
  | none => (spMerge s c job off bs).1
  | some _ =>
    (onParts s c off bs.length).foldl (fun s p => (spMerge s c job p.1 ((bs.drop (p.1 - off)).take p.2)).1)
      (spSomeOff s c job off bs.length)

/-- A read by a reader of the last rows of R226 and R236: a bank that is not ON reads as zero and is not checked, bytes
with an uncorrectable error are taken as read. -/
def spReadAny (s : State) (c : CoreId) (job : Option Nat) (off len : Nat) : State × List Byte :=
  match spBankOff s c off len with
  | none => ((spEcc s c job off len).1, spBytes s c off len)
  | some _ =>
    ((onParts s c off len).foldl (fun s p => (spEcc s c job p.1 p.2).1) (spSomeOff s c job off len),
      (wordParts off len).flatMap (fun p =>
        if bankOn s c p.1 then spBytes s c p.1 p.2 else List.replicate p.2 0#8))

/-! ### Guards -/

/-- Whether guard `g` is FILLED (R227). -/
def guardFilled (s : State) (c : CoreId) (g : Nat) : Bool := (s.loc c).guards.getLsbD g

/-- Setting a guard at a completion: a guard that already holds the state raises SLOT_REDUNDANT (R227). -/
def setGuard (s : State) (c : CoreId) (g : Nat) (filled : Bool) : State :=
  let k := s.loc c
  if k.guards.getLsbD g = filled then s.coreEv c 0x1011 (s.rd (coreBase c + 0x4088)).toNat 0
  else s.setLoc c { k with guards := putBit k.guards g filled }

end Sys2Proof.Machine
end

