-- ==== Sys2Proof/Machine/Access.lean ====
section
/-!
DEFINITION. Device addresses (R237, R238, R262), windows onto scratchpads and module memory (R231, R232, R259), host
windows (R338), transaction tags (R282), and one access of each kind of requester.
-/

namespace Sys2Proof.Machine

/-! ### Places (R237, R238) -/

/-- Where an address range lies: module memory, the CXL tier by tier offset, a core's scratchpad, the host windows, a
peer, or nowhere. -/
inductive Place where
  | gddr (a : Nat)
  | tier (t : Nat)
  | sp (c : CoreId) (off : Nat)
  | host (x : Nat)
  | peer (dev off : Nat)
  | bad
deriving DecidableEq, Repr

/-- Whether ILV_ACT is set (R262). -/
def ilvAct (s : State) : Bool := bit (s.rd memBase) 2

/-- The port and device of a tier offset (R262). -/
def tierDev (s : State) (t : Nat) : PortId × Bool :=
  if ilvAct s then (⟨t / 4096 % 4, Nat.mod_lt _ (by decide)⟩, false)
  else
    let p : PortId := ⟨t / 0x10000000000 % 4, Nat.mod_lt _ (by decide)⟩
    (p, bit (s.rd (cxlBase p + 8)) 1 && decide (0x8000000000 ≤ t % 0x10000000000))

/-- Whether the byte at a tier offset is present, the tier ending at 4 TiB (R261, R262). -/
def tierHas (s : State) (t : Nat) : Bool :=
  decide (t < 0x40000000000) &&
  let (p, b) := tierDev s t
  let k := s.cxl[p]
  let capA := fld (s.rd (cxlBase p + 0x28)) 0 32 * 0x10000000
  if ilvAct s then k.activeA && decide (t < 4 * capA)
  else
    let x := t % 0x10000000000
    let split := bit (s.rd (cxlBase p + 8)) 1
    if b then k.activeB && decide (x - 0x8000000000 < fld (s.rd (cxlBase p + 0x30)) 0 32 * 0x10000000)
    else k.activeA && decide (x < min capA (if split then 0x8000000000 else 0x10000000000))

/-- Whether `len` bytes of the tier are present: every granule of 4 KiB up to the fourth, every unit of 256 MiB, and the
last byte. -/
def tierPresent (s : State) (t len : Nat) : Bool :=
  len == 0 || ((List.range (min 4 (len / 4096 + 1))).all (fun i => tierHas s (min (t + 4096 * i) (t + len - 1))) &&
    (List.range (len / 0x10000000 + 1)).all (fun i => tierHas s (min (t + 0x10000000 * i) (t + len - 1))) &&
    tierHas s (t + len - 1))

/-- A tier range where it is present. -/
def tierPlace (s : State) (t len : Nat) : Place := if tierPresent s t len then .tier t else .bad

/-- The place of a range of this module's device addresses (R237, R251, R262). -/
def placeLocal (s : State) (a len : Nat) : Place :=
  let e := a + len
  if e ≤ 0x1800000000 then (if e ≤ gddrTop s then .gddr a else .bad)
  else if 0x4000000000 ≤ a ∧ e ≤ 0x10000000000 then tierPlace s (a - 0x4000000000) len
  else if 0x10000000000 ≤ a ∧ e ≤ 0x10030000000 then
    let x := a - 0x10000000000
    match fin? 48 (x / 0x1000000) with
    | some c => if x % 0x1000000 + len ≤ 0x1000000 then .sp c (x % 0x1000000) else .bad
    | none => .bad
  else if 0x10040000000 ≤ a ∧ e ≤ 0x20000000000 then tierPlace s (a - 0x10040000000 + 0xC000000000) len
  else if 0x20000000000 ≤ a ∧ e ≤ 0x21000000000 then .host (a - 0x20000000000)
  else if 0x21000000000 ≤ a ∧ e ≤ 0x48000000000 then tierPlace s (a - 0x21000000000 + 0x1BFC0000000) len
  else .bad

/-- The place of a range of device addresses; the module's own device ID decodes locally (R238). -/
def placeOf (s : State) (a len : Nat) : Place :=
  if a.testBit 63 then
    let dev := nfld a 48 15
    let off := nfld a 0 48
    if dev = s.devid then placeLocal s off len
    else if off + len ≤ 2 ^ 48 then .peer dev off
    else .bad
  else placeLocal s a len

/-! ### Windows (R231, R232, R259) -/

/-- Whose access it is: another core's DMA, a peer's, or a host function's. -/
inductive Source where
  | core (c : CoreId)
  | peer (dev : Nat)
  | host
deriving DecidableEq, Repr

/-- KIND of a rejection log. -/
def Source.kind : Source → Nat
  | .core _ => 0
  | .peer _ => 1
  | .host => 2

/-- SRCDEV of a rejection log. -/
def Source.dev (s : State) : Source → Nat
  | .peer d => d
  | _ => s.devid

/-- AGENT of a rejection log; a peer's packet names none. -/
def Source.agent : Source → Nat
  | .core c => c.val
  | .peer _ => 0
  | .host => 0x7F

/-- Whether a window admits a source, a job and a direction (R231, R247). -/
def admits (ctl : W64) (src : Source) (job : Nat) (write : Bool) : Bool :=
  bit ctl 0 && fld ctl 1 4 == job && bit ctl (5 + 2 * src.kind + (if write then 1 else 0)) &&
  (match src with
    | .peer d => !bit ctl 11 || fld ctl 12 15 == d
    | _ => true)

/-- The lowest-numbered scratchpad window that admits an access (R231). -/
def spWindow (s : State) (t : CoreId) (src : Source) (job off len : Nat) (write : Bool) : Option Nat :=
  (List.range 16).find? (fun w =>
    let b := coreBase t + 0x4400 + 0x20 * w
    admits (s.rd (b + 0x10)) src job write && decide ((s.rd b).toNat ≤ off ∧ off + len ≤ (s.rd (b + 8)).toNat))

/-- The lowest-numbered memory window that admits an access (R259). -/
def memWindow (s : State) (src : Source) (job a len : Nat) (write : Bool) : Option Nat :=
  (List.range 64).find? (fun w =>
    let b := memBase + 0x100 + 0x20 * w
    admits (s.rd (b + 0x10)) src job write && decide ((s.rd b).toNat ≤ a ∧ a + len ≤ (s.rd (b + 8)).toNat))

/-- The fields that both rejection logs open with. -/
def rejHead (s : State) (src : Source) (job : Nat) : Nat :=
  src.dev s + src.agent * 2 ^ 15 + job % 16 * 2 ^ 22

/-- WIN_REJECT on the target core, with WIN_REJ_LOG (R232, R247). The step of the access's job fails (R380). -/
def winReject (s : State) (t : CoreId) (src : Source) (job off : Nat) (write : Bool) : State :=
  let v := bit63 ||| BitVec.ofNat 64 (rejHead s src job + off * 2 ^ 26 + src.kind * 2 ^ 50 + (if write then 2 ^ 52 else 0))
  let s := s.wr (coreBase t + 0x4600) v
  s.raiseDev true 0x1013 t 0 (some job) (some (src.dev s)) v.toNat off

/-- MWIN_REJECT with MWIN_REJ_LOG (R259, R266). -/
def mwinReject (s : State) (src : Source) (job a : Nat) (write : Bool) : State :=
  let v := bit63 ||| BitVec.ofNat 64 (rejHead s src job + nfld a 12 31 * 2 ^ 26 + src.kind * 2 ^ 57 +
    (if write then 2 ^ 59 else 0))
  let s := s.wr (memBase + 0x18) v
  s.raiseDev true 0x5200 0 0 (some job) (some (src.dev s)) v.toNat 0

/-- Whether a core of a job's core set is away: saving, restoring, or held by another job (R232). -/
def coreAway (s : State) (job : Nat) (t : CoreId) : Bool :=
  s.inSet job t && (!bit (s.heldBy job) t ||
    (match (s.core t).run with
      | .saving _ => true
      | .restoring _ => true
      | _ => false))

/-! ### One access -/

/-- How an access ends: done with the bytes read, failed with a code of R246, or to be tried again. -/
inductive AccEnd where
  | ok (bs : List Byte)
  | fail (code : Nat)
  | wait
deriving DecidableEq, Repr

/-- The code of a refused or failed scratchpad access (R246). -/
def spErrCode : SpErr → Nat
  | .gecko => 4
  | .bank _ => 5
  | .ecc _ => 6

/-- An access of `len` bytes to a scratchpad after its window check: gecko residency, bank power, SECDED. `data` are
the bytes of a write. -/
def spDo (s : State) (t : CoreId) (job : Option Nat) (off len : Nat) (data : Option (List Byte)) : State × AccEnd :=
  match data with
  | none =>
    match spRead s t job off len with
    | (s, some e) => (s, .fail (spErrCode e))
    | (s, none) => (s, .ok (spBytes s t off len))
  | some bs =>
    match spWrite s t job off bs with
    | (s, some e) => (s, .fail (spErrCode e))
    | (s, none) => (s, .ok [])

/-- An outside access to a scratchpad (R231 to R233, R236). An access that gecko residency or bank power refuses counts
in no WIN_HITS. Where the target's domain is off it fails, and with it the step of its job, whoever holds the core (R18). DEDUCED, log
entry 60: with code 0x05, as at banks that are off. -/
def spOutside (s : State) (t : CoreId) (src : Source) (job off len : Nat) (data : Option (List Byte)) : State × AccEnd :=
  if !s.domainOn t.val then (s.failStep (some job), .fail 5)
  else if coreAway s job t then (s, .wait)
  else
    match spWindow s t src job off len data.isSome with
    | none => (winReject s t src job off data.isSome, .fail 3)
    | some w =>
      let refused := spGecko s t (some job) off len || (spBankOff s t off len).isSome
      let s := if refused then s else s.count (coreBase t + 0x4418 + 0x20 * w) 32 1
      spDo s t (some job) off len data

/-- MEM_TRAIN_FAIL of a request: it fails, and with it the step of its job (R250). Where the controller's domain is off
the request fails with no event of its own (R18). -/
def trainFailed (s : State) (a : Nat) (job : Option Nat) : State :=
  let g := ctrlOf a
  if !s.domainOn (ctrlDomain g) then s.failStep job
  else s.raiseIf job.isSome 0x5004 g 0 job (s.rd (ctrlBase g + 0x50)).toNat 0

/-- An access to module memory that has passed its window check and goes before all others; memory beyond the end is absent
(R250, R251, R253, R257). -/
def gddrNow (s : State) (job : Option Nat) (a len : Nat) (data : Option (List Byte)) : State × AccEnd :=
  if gddrTop s < a + len then (s, .fail 1)
  else
  match gddrReady s a len with
  | .wait => (s, .wait)
  | .fail => (trainFailed s a job, .fail 6)
  | .yes =>
    match data with
    | none =>
      match gddrRead s job a len with
      | (s, bs, none) => (s, .ok bs)
      | (s, _, some _) => (s, .fail 6)
    | some bs =>
      match gddrWrite s job a bs with
      | (s, none) => (s, .ok [])
      | (s, some _) => (s, .fail 6)

/-- An access of the module's own engines for a job: one to absent memory fails the step too (R251, R379). -/
def gddrOwn (s : State) (job : Option Nat) (a len : Nat) (data : Option (List Byte)) : State × AccEnd :=
  match gddrNow s job a len data with
  | (s, .fail 1) => (s.failStep job, .fail 1)
  | x => x

/-- An access to module memory that has passed its window check: behind the requests to its lines that a controller holds
(R250, R253, R255, R257). -/
def gddrDo (s : State) (job : Option Nat) (a len : Nat) (data : Option (List Byte)) : State × AccEnd :=
  match gddrServe s a len with
  | .wait => (s, .wait)
  | _ => gddrNow s job a len data

/-- The memory-window check of an access: the state with the hit counted, or with the rejection raised (R259). -/
def memCheck (s : State) (src : Source) (job a len : Nat) (write : Bool) : State × Bool :=
  match memWindow s src job a len write with
  | none => (mwinReject s src job a write, false)
  | some w => (s.count (memBase + 0x118 + 0x20 * w) 32 1, true)

/-- An access to module memory under the memory windows (R259). -/
def gddrOutside (s : State) (src : Source) (job a len : Nat) (data : Option (List Byte)) : State × AccEnd :=
  match gddrServe s a len with
  | .wait => (s, .wait)
  | _ =>
    match memCheck s src job a len data.isSome with
    | (s, false) => (s, .fail 3)
    | (s, true) => gddrDo s (some job) a len data

/-! ### The CXL tier (R262, R263) -/

/-- The device address of a tier offset, as the memory windows see it (R262). -/
def tierAddr (t : Nat) : Nat :=
  if t < 0xC000000000 then 0x4000000000 + t
  else if t < 0x1BFC0000000 then 0x10040000000 + (t - 0xC000000000)
  else 0x21000000000 + (t - 0x1BFC0000000)

/-- Requests outstanding at a port, and at all ports. -/
def cxlFull (s : State) (p : PortId) : Bool :=
  decide (1024 ≤ (s.cxl[p]).reqs.length) ||
    decide (4096 ≤ (allFin 4).foldl (fun n q => n + (s.cxl[q]).reqs.length) 0)

/-- A CXL.mem request leaves for its port, where there is room (R260). -/
def cxlSend (s : State) (r : CxlReq) : State × AccEnd :=
  let (p, b) := tierDev s r.t
  if !tierPresent s r.t r.len then (s, .fail 1)
  else if cxlFull s p then (s, .wait)
  else
    let k := s.cxl[p]
    (s.setCxl p { k with reqs := k.reqs ++ [{ r with devB := b }] }, .ok [])

/-! ### Host windows (R338) -/

/-- Whether the owner port can carry a request: its domain is on (R18, R395). -/
def ownerOn (s : State) : Bool := s.domainOn (if s.host.ownerB then 61 else 60)

/-- HOST_REQ_ERROR with HOST_ERR_LOG; the step of the job concerned fails (R338, R355, R356). -/
def hostError (s : State) (ring win err : Nat) (job : Option Nat) (addr : Nat) : State :=
  let v := bit63 ||| BitVec.ofNat 64 (ring % 64 + win % 16 * 64 + err * 1024)
  let s := s.wr 0x1028 v
  s.raise 0x0004 0 0 job v.toNat addr

/-- The error of a host's answer, none where it is data (R355). -/
def replyError : HostReply → Option Nat
  | .ok _ => none
  | .ur => some 1
  | .ca => some 2
  | .poison => some 3
  | .timeout => some 4

/-- The checks of an access in the host windows for a core of a job: the window, the host address and the function, or
a failure code (R338); a window that a handover cleared fails with code 0x09 until it is written again (R353), and so does an
access while the owner port's domain is off (R18). -/
def hostCheck (s : State) (job : Option Nat) (x len : Nat) (write : Bool) : (Nat × Nat × Nat) ⊕ Nat :=
  let h := x / 0x100000000
  let o := x % 0x100000000
  let ctl := s.rd (hwBase h + 0x10)
  if s.host.hwDead.contains h ∨ !ownerOn s then .inr 9
  else if !bit ctl 0 ∨ (s.rd (hwBase h + 8)).toNat < o + len then .inr 1
  else if job ≠ some (fld ctl 1 4) ∨ !bit ctl (if write then 11 else 10) then .inr 3
  else .inl (h, ((s.rd (hwBase h)).toNat + o) % 2 ^ 64, fld ctl 5 5)

/-! ### Tags and requests to peers (R282) -/

/-- Tags in use by a job. -/
def tagsOf (s : State) (job : Nat) : Nat :=
  (s.net.reqs.filter (fun r => r.job == job)).length + (s.net.collTx.filter (fun c => c.job == job)).length

/-- Tags of the shared pool in use. DESIGN CHOICE, log entry 43: they are counted by job, so that a tag that comes back to a job
holding more than 256 goes to the pool. -/
def poolTags (s : State) : Nat := (List.range 16).foldl (fun n j => n + (tagsOf s j - 256)) 0

/-- Whether a requester that waits for a tag still asks for one. -/
def stillAsks (s : State) (a : TagAsk) : Bool :=
  match a.who with
  | .coll xid => s.net.collPend.any (fun c => c.job == a.job && c.xid == xid)
  | .req (.dma c ch seq) => ((s.unit c).chan[ch]).any (fun r => r.seq == seq && !r.todo.isEmpty)
  | .req (.cairn j) =>
    match (fin? 16 j).bind (fun i => (s.rcl.jobs[i]).cairn) with
    | some c => c.copy && c.fail == 0
    | none => false
  | .req (.ring r) => (s.host.rings[r]).descs.any (fun d =>
      match d.run with
      | some (.xfer x) => x.fail.isNone
      | _ => false)

/-- The pool tags that requesters before `a` are to get: those that still ask and whose job has none of its own left
(R282). -/
def poolAhead (s : State) (a : TagAsk) : Nat :=
  ((s.net.tagWait.takeWhile (fun x => x != a)).filter (fun x => stillAsks s x && decide (256 ≤ tagsOf s x.job))).length

/-- Whether a requester can take a tag: from its job's 256, or from the shared 4,096 in request order (R282). -/
def tagFree (s : State) (a : TagAsk) : Bool :=
  decide (tagsOf s a.job < 256) || decide (poolTags s + poolAhead s a < 4096)

/-- A requester asks for a tag: it gets the lowest free one and gives up its place, or takes its place in the request order
(R282). -/
def askTag (s : State) (a : TagAsk) : State × Bool :=
  if tagFree s a then ({ s with net := { s.net with tagWait := s.net.tagWait.erase a } }, true)
  else
    let w := s.net.tagWait.filter (stillAsks s)
    ({ s with net := { s.net with tagWait := if w.contains a then w else w ++ [a] } }, false)

/-- The lowest tag not in use. -/
def newTag (s : State) : Nat :=
  ((List.range 8192).find? (fun t =>
    !s.net.reqs.any (fun r => r.tag == t) && !s.net.collTx.any (fun c => c.tag == t))).getD 0

/-- A READ or WRITE leaves for a peer: `none` where no tag is free, false where the peer is unreachable (R282, R287). -/
def peerSend (s : State) (die job dev off : Nat) (data : Option (List Byte)) (units : Nat) (owner : ReqOwner) :
    State × Option (Nat × Bool) :=
  match askTag s { job := job, who := .req owner } with
  | (s, false) => (s, none)
  | (s, true) =>
    let tag := newTag s
    let p := match data with
      | none => mkPkt s 3 2 0 job dev tag (leBytes 6 off ++ leBytes 1 units) []
      | some bs => mkPkt s 2 2 0 job dev tag (leBytes 6 off) bs
    match sendPkt s die 4 job dev p with
    | (s, false) => (unreachable s (some job) dev p, some (tag, false))
    | (s, true) =>
      let net := s.net
      ({ s with net := { net with reqs := net.reqs ++ [{ tag := tag, job := job, pkt := p, owner := some owner }] } },
        some (tag, true))

end Sys2Proof.Machine
end

