-- ==== Sys2Proof/Machine/Flags.lean ====
section
/-!
DEFINITION. The predicate a comparison writes (R36) and the flags and thresholds of the quantiser (R112, R118).
-/

namespace Sys2Proof.Machine

/-- The predicate of CMP: EQ, NE, LT, LE (signed), LTU, LEU (unsigned) (R36); other conditions are illegal. -/
def cmpCond (cond : Nat) (a b : W64) : Bool :=
  match cond with
  | 0 => decide (a = b)
  | 1 => decide (a ≠ b)
  | 2 => decide (a.toInt < b.toInt)
  | 3 => decide (a.toInt ≤ b.toInt)
  | 4 => decide (a.toNat < b.toNat)
  | 5 => decide (a.toNat ≤ b.toNat)
  | _ => false

/-- A threshold test of a counter set: `x` × 65,536 > `thr` × ELEM, with a threshold of 0 disabling it (R118). -/
def thrCrossed (x thr elem : Nat) : Bool := thr != 0 && decide (x * 65536 > thr * elem)

/-- The flags of a written exponent entry: OVF, DOWN, ZERO at bits 11 to 13 (R99, R112). -/
def entryFlags (ovf down zero : Bool) : Nat :=
  (if ovf then 2 ^ 11 else 0) + (if down then 2 ^ 12 else 0) + (if zero then 2 ^ 13 else 0)

end Sys2Proof.Machine
end

