-- ==== Sys2Proof/Machine/Operands.lean ====
section
/-!
DEFINITION. Every operand form of the 128-bit core instructions: the fields of each class, the operation a word names,
and the encodings that R33 makes illegal (R32 to R45, R65, R66, R109, R115, R116, R130 to R133, R142, R156, R214,
R241 to R245).
-/

namespace Sys2Proof.Machine

/-- The operations of the core instruction set, by class and OP (R32, R35, R40, R41, R42, R43, R45, R65). -/
inductive Op where
  | nop | halt | yield | jmp | call | ret | loop
  | add | sub | and | or | xor | shl | shr | sra | mul | cmp | li | ld | st | getsys
  | vld | vst | vadd | vsub | vmul | vfma | vmax | vmin | vcvt | vquant | vdeq | vhad | vred | vcbld | vhist | vste
  | vfix | vaddx | vsel | vbcast | vmovs
  | xferCopy | pass
  | qopPush | qopPop | qopDrop | qopStat | qopCommit | qopCancel
  | dispRoute | dispCommit | dispCancel | dispStat
  | signal | wait | set | fence | slotFill | slotDrain | slotWaitf | slotWaite
deriving DecidableEq, Repr

/-- CLASS, bits [3:0] (R32). -/
def fClass (w : W128) : Nat := fld w 0 4
/-- PRED, bits [6:4] (R32). -/
def fPred (w : W128) : Nat := fld w 4 3
/-- PINV, bit [7] (R32). -/
def fPinv (w : W128) : Bool := bit w 7
/-- OP, bits [15:8] (R32). -/
def fOp (w : W128) : Nat := fld w 8 8
/-- IMM, bits [127:64], of CTL and VOP (R35, R40). -/
def fImm (w : W128) : W64 := BitVec.ofNat 64 (fld w 64 64)

/-! CTL (the CTL table above R35) -/
/-- CTL SD, bits [20:16]. -/
def ctlSd (w : W128) : Nat := fld w 16 5
/-- CTL SA, bits [25:21]. -/
def ctlSa (w : W128) : Nat := fld w 21 5
/-- CTL SB, bits [30:26]. -/
def ctlSb (w : W128) : Nat := fld w 26 5
/-- CTL IMMB, bit [31]. -/
def ctlImmb (w : W128) : Bool := bit w 31
/-- CTL COND, bits [35:32]. -/
def ctlCond (w : W128) : Nat := fld w 32 4

/-! VOP (the VOP table above R40) -/
/-- VD, bits [21:16]. -/
def vVd (w : W128) : Nat := fld w 16 6
/-- VA, bits [27:22]. -/
def vVa (w : W128) : Nat := fld w 22 6
/-- VB, bits [33:28]. -/
def vVb (w : W128) : Nat := fld w 28 6
/-- VC, bits [39:34]. -/
def vVc (w : W128) : Nat := fld w 34 6
/-- FMT, bits [43:40]. -/
def vFmt (w : W128) : Nat := fld w 40 4
/-- FMT2, bits [47:44]. -/
def vFmt2 (w : W128) : Nat := fld w 44 4
/-- VOP SA, bits [52:48]. -/
def vSa (w : W128) : Nat := fld w 48 5
/-- VOP SD, bits [57:53]. -/
def vSd (w : W128) : Nat := fld w 53 5
/-- AUX, bits [61:58]. -/
def vAux (w : W128) : Nat := fld w 58 4

/-! VQUANT and VSTE fields of IMM (R109) -/
/-- OFS, IMM[23:0]. -/
def qOfs (w : W128) : Nat := fld w 64 24
/-- ZP, IMM[39:24], signed. -/
def qZp (w : W128) : Int := sext 16 (fld w 88 16)
/-- ZPQ, IMM[40]. -/
def qZpq (w : W128) : Bool := bit w 104
/-- PLACE, IMM[43:41]. -/
def qPlace (w : W128) : Nat := fld w 105 3
/-- GSZ, IMM[45:44]. -/
def qGsz (w : W128) : Nat := fld w 108 2
/-- EMODE, IMM[46]. -/
def qEmode (w : W128) : Bool := bit w 110
/-- CSET, IMM[50:47]. -/
def qCset (w : W128) : Nat := fld w 111 4
/-- OUT, IMM[51]. -/
def qOut (w : W128) : Bool := bit w 115

/-! XFER (R41) -/
/-- CH, bits [17:16]. -/
def xCh (w : W128) : Nat := fld w 16 2
/-- SSRC, bits [22:18]. -/
def xSsrc (w : W128) : Nat := fld w 18 5
/-- SDST, bits [27:23]. -/
def xSdst (w : W128) : Nat := fld w 23 5
/-- MODE, bits [31:28]. -/
def xMode (w : W128) : Nat := fld w 28 4
/-- LEN, bits [63:32]. -/
def xLen (w : W128) : Nat := fld w 32 32
/-- SLOT, bits [75:64]. -/
def xSlot (w : W128) : Nat := fld w 64 12
/-- SFILL, bit [76]. -/
def xSfill (w : W128) : Bool := bit w 76
/-- PARAM, bits [127:80]. -/
def xParam (w : W128) : Nat := fld w 80 48

/-! QOP (R42) -/
/-- Q, bits [23:16]. -/
def qopQ (w : W128) : Nat := fld w 16 8
/-- QOP SA, bits [28:24]. -/
def qopSa (w : W128) : Nat := fld w 24 5
/-- QOP SD, bits [33:29]. -/
def qopSd (w : W128) : Nat := fld w 29 5
/-- EOP, bit [34]. -/
def qopEop (w : W128) : Bool := bit w 34
/-- TENT, bit [35]. -/
def qopTent (w : W128) : Bool := bit w 35
/-- CELLS, bits [63:48]; 0 means 65,536. -/
def qopCells (w : W128) : Nat := if fld w 48 16 = 0 then 65536 else fld w 48 16
/-- MBTAG, bits [79:64]. -/
def qopMbtag (w : W128) : Nat := fld w 64 16
/-- SLOT, bits [91:80]. -/
def qopSlot (w : W128) : Nat := fld w 80 12
/-- SEN, bit [92]. -/
def qopSen (w : W128) : Bool := bit w 92

/-! DISP (R43) -/
/-- DISP SA, bits [20:16]. -/
def dispSa (w : W128) : Nat := fld w 16 5
/-- SP, bits [25:21]. -/
def dispSp (w : W128) : Nat := fld w 21 5
/-- DISP SD, bits [30:26]. -/
def dispSd (w : W128) : Nat := fld w 26 5
/-- MBTAG, bits [47:32]. -/
def dispMbtag (w : W128) : Nat := fld w 32 16
/-- Expert table number, bits [55:48]. -/
def dispTable (w : W128) : Nat := fld w 48 8

/-! SYNC (the SYNC table above R45) -/
/-- SEM, bits [21:16]. -/
def sySem (w : W128) : Nat := fld w 16 6
/-- TCORE, bits [27:22]. -/
def syTcore (w : W128) : Nat := fld w 22 6
/-- PT, bits [30:28]. -/
def syPt (w : W128) : Nat := fld w 28 3
/-- UNITS, bits [35:32]. -/
def syUnits (w : W128) : Nat := fld w 32 4
/-- FAB, bit [36]. -/
def syFab (w : W128) : Bool := bit w 36
/-- SLOT, bits [59:48]. -/
def sySlot (w : W128) : Nat := fld w 48 12
/-- VALUE, bits [79:64]. -/
def syValue (w : W128) : Nat := fld w 64 16

/-! MPASS (R44, R65) -/
/-- UNIT, bit [16]. -/
def mUnit (w : W128) : Nat := fld w 16 1
/-- MODE, bits [19:17]: 0 OS, 1 WS, 2 IS, 3 RR, 4 DIAG, 5 CHAM (R64). -/
def mMode (w : W128) : Nat := fld w 17 3
/-- AFMT, bits [23:20]. -/
def mAfmt (w : W128) : Nat := fld w 20 4
/-- BFMT, bits [27:24]. -/
def mBfmt (w : W128) : Nat := fld w 24 4
/-- ACB, bits [31:28]. -/
def mAcb (w : W128) : Nat := fld w 28 4
/-- BCB, bits [35:32]. -/
def mBcb (w : W128) : Nat := fld w 32 4
/-- GSIZE, bits [37:36]. -/
def mGsize (w : W128) : Nat := fld w 36 2
/-- SPARSE, bits [39:38]. -/
def mSparse (w : W128) : Nat := fld w 38 2
/-- RMASK, bits [47:40]. -/
def mRmask (w : W128) : Nat := fld w 40 8
/-- CMASK, bits [51:48]. -/
def mCmask (w : W128) : Nat := fld w 48 4
/-- MVAL, bits [54:52]; 0 means 8. -/
def mMval (w : W128) : Nat := fld w 52 3
/-- NVAL, bits [57:55]; 0 means 8. -/
def mNval (w : W128) : Nat := fld w 55 3
/-- RRH, bits [60:58]. -/
def mRrh (w : W128) : Nat := fld w 58 3
/-- DRAIN, bits [63:61]. -/
def mDrain (w : W128) : Nat := fld w 61 3
/-- LEN, from LENC in bits [75:64]. -/
def mLen (w : W128) : Nat := 8 * (fld w 64 12 + 1)
/-- SAA, bits [80:76]. -/
def mSaa (w : W128) : Nat := fld w 76 5
/-- SAB, bits [85:81]. -/
def mSab (w : W128) : Nat := fld w 81 5
/-- SAC, bits [90:86]. -/
def mSac (w : W128) : Nat := fld w 86 5
/-- SAP, bits [95:91]. -/
def mSap (w : W128) : Nat := fld w 91 5
/-- SLOTA, bits [107:96]. -/
def mSlota (w : W128) : Nat := fld w 96 12
/-- SLOTB, bits [119:108]. -/
def mSlotb (w : W128) : Nat := fld w 108 12
/-- AEN, bit [120]. -/
def mAen (w : W128) : Bool := bit w 120
/-- BEN, bit [121]. -/
def mBen (w : W128) : Bool := bit w 121
/-- AREL, bit [122]. -/
def mArel (w : W128) : Bool := bit w 122
/-- BREL, bit [123]. -/
def mBrel (w : W128) : Bool := bit w 123
/-- ZSKIP, bit [124]. -/
def mZskip (w : W128) : Bool := bit w 124
/-- HOLD, bit [125]. -/
def mHold (w : W128) : Bool := bit w 125

/-- Format codes (R40). -/
def fFP32 : Nat := 0
/-- BF16. -/
def fBF16 : Nat := 1
/-- FP8 E4M3. -/
def fE4M3 : Nat := 2
/-- FP8 E5M2. -/
def fE5M2 : Nat := 3
/-- C8. -/
def fC8 : Nat := 4
/-- C4. -/
def fC4 : Nat := 5
/-- I8. -/
def fI8 : Nat := 6
/-- I32. -/
def fI32 : Nat := 7
/-- FX64. -/
def fFX64 : Nat := 8

/-- The width of an element in bits (R92). -/
def fmtBits (f : Nat) : Nat :=
  match f with
  | 0 => 32 | 1 => 16 | 2 => 8 | 3 => 8 | 4 => 8 | 5 => 4 | 6 => 8 | 7 => 32 | 8 => 64 | _ => 8

/-- The number of elements a vector register holds (R29). -/
def fmtLanes (f : Nat) : Nat := 8192 / fmtBits f

/-- Whether a format is BF16. -/
def isBf (f : Nat) : Bool := f == 1
/-- Whether a format is FP8. -/
def isFp8 (f : Nat) : Bool := f == 2 || f == 3

/-- The sparsity factor f (R63, R455). -/
def mFactor (w : W128) : Nat :=
  match mSparse w with
  | 0 => 1 | 1 => 2 | _ => 4

/-- Logical K per step of a dense pass (R63). -/
def mKdense (w : W128) : Nat := if isBf (mAfmt w) then 4 else if mAfmt w = 5 ∧ mBfmt w = 5 then 16 else 8

/-- Kstep (R63). -/
def mKstep (w : W128) : Nat := mFactor w * mKdense w

/-- The steps S of a pass before any are skipped (R64). -/
def mSteps (w : W128) : Nat :=
  match mMode w with
  | 0 | 3 | 5 => mLen w / mKstep w
  | _ => mLen w / 8

/-- The group size along K, 0 for none (R65). -/
def mGroup (w : W128) : Nat :=
  match mGsize w with
  | 0 => 0 | 1 => 32 | 2 => 64 | _ => 128

/-- The filter height H of an RR pass (R76). -/
def mH (w : W128) : Nat := mRrh w + 1

/-- The operation a CTL OP names (R35). -/
def ctlOp (o : Nat) : Option Op :=
  match o with
  | 0x00 => some .nop | 0x01 => some .halt | 0x02 => some .yield | 0x03 => some .jmp | 0x04 => some .call
  | 0x05 => some .ret | 0x06 => some .loop | 0x10 => some .add | 0x11 => some .sub | 0x12 => some .and
  | 0x13 => some .or | 0x14 => some .xor | 0x15 => some .shl | 0x16 => some .shr | 0x17 => some .sra
  | 0x18 => some .mul | 0x19 => some .cmp | 0x1A => some .li | 0x1B => some .ld | 0x1C => some .st
  | 0x1D => some .getsys | _ => none

/-- The operation a VOP OP names (R40). -/
def vopOp (o : Nat) : Option Op :=
  match o with
  | 0x00 => some .vld | 0x01 => some .vst | 0x02 => some .vadd | 0x03 => some .vsub | 0x04 => some .vmul
  | 0x05 => some .vfma | 0x06 => some .vmax | 0x07 => some .vmin | 0x08 => some .vcvt | 0x09 => some .vquant
  | 0x0A => some .vdeq | 0x0B => some .vhad | 0x0C => some .vred | 0x0D => some .vcbld | 0x0E => some .vhist
  | 0x0F => some .vste | 0x10 => some .vfix | 0x11 => some .vaddx | 0x12 => some .vsel | 0x13 => some .vbcast
  | 0x14 => some .vmovs | _ => none

/-- The operation a QOP OP names (R42). -/
def qopOp (o : Nat) : Option Op :=
  match o with
  | 0 => some .qopPush | 1 => some .qopPop | 2 => some .qopDrop | 3 => some .qopStat | 4 => some .qopCommit
  | 5 => some .qopCancel | _ => none

/-- The operation a SYNC OP names (R45). -/
def syncOp (o : Nat) : Option Op :=
  match o with
  | 0 => some .signal | 1 => some .wait | 2 => some .set | 3 => some .fence | 4 => some .slotFill
  | 5 => some .slotDrain | 6 => some .slotWaitf | 7 => some .slotWaite | _ => none

/-- The operation a DISP OP names (R43). -/
def dispOp (o : Nat) : Option Op :=
  match o with
  | 0 => some .dispRoute | 1 => some .dispCommit | 2 => some .dispCancel | 3 => some .dispStat | _ => none

/-- The operation a word names; none for an illegal CLASS or an OP not listed for its class (R32, R33). -/
def opOf (w : W128) : Option Op :=
  match fClass w with
  | 0 => ctlOp (fOp w)
  | 1 => if fOp w = 0 then some .pass else none
  | 2 => vopOp (fOp w)
  | 3 => if fOp w = 0 then some .xferCopy else none
  | 4 => qopOp (fOp w)
  | 5 => syncOp (fOp w)
  | 6 => dispOp (fOp w)
  | _ => none

/-- A legal CTL word at index `pc` (R35, R36, R37). -/
def ctlLegal (pc : Nat) (w : W128) (o : Op) : Bool :=
  fld w 36 28 == 0 && (!ctlImmb w || ctlSb w == 0) &&
  match o with
  | .cmp => fld w 19 2 == 0 && decide (ctlCond w ≤ 5)
  | .halt => ctlCond w == 0 && decide (fld w 64 16 < 0xF000)
  | .loop => ctlCond w == 0 && decide (pc + 1 ≤ fld w 96 15)
  | .st => ctlCond w == 0 && !ctlImmb w
  | .getsys => ctlCond w == 0 && decide (fld w 64 4 < 4)
  | _ => ctlCond w == 0

/-- The formats VQUANT and VSTE quantise into (R109). -/
def quantFmt (f : Nat) : Bool := f == 5 || f == 4 || f == 6 || isFp8 f

/-- The IMM fields VQUANT and VSTE share (R109). -/
def quantLegal (w : W128) : Bool :=
  vFmt w == 0 && quantFmt (vFmt2 w) && fld w 116 12 == 0 &&
  (!qZpq w || (qGsz w == 0 && !qEmode w && !isFp8 (vFmt2 w))) &&
  (decide (qPlace w ≤ 3) || vFmt2 w == 5) && !(qEmode w && qGsz w == 0)

/-- The formats VCVT converts between (R132). -/
def cvtFmt (f : Nat) : Bool := f == 0 || f == 1 || f == 2 || f == 3 || f == 6 || f == 7

/-- The number of PLACE values of a conversion: the larger lane count divided by the smaller (R132). -/
def cvtPlaces (a b : Nat) : Nat := max (fmtLanes a) (fmtLanes b) / min (fmtLanes a) (fmtLanes b)

/-- A legal VOP word (R40, R109, R115, R116, R130 to R133, R142). DESIGN CHOICE, log entry 22: VADDX with another FMT than
FX64 is legal and adds FX64 lanes. -/
def vopLegal (w : W128) (o : Op) : Bool :=
  fld w 62 2 == 0 && decide (vFmt w ≤ 8) && decide (vFmt2 w ≤ 8) &&
  match o with
  | .vadd | .vsub | .vfma => decide (vAux w ≤ 1) && (vAux w == 0 || vFmt w == 0)
  | .vmul | .vmax | .vmin | .vsel | .vbcast | .vaddx => vAux w == 0
  | .vred => vAux w == 0 && (vFmt w == 0 || vFmt w == 1 || vFmt w == 8)
  | .vmovs => vAux w == 0 && fld w 75 53 == 0 && decide (fld w 64 11 < fmtLanes (vFmt w))
  | .vcvt =>
    if vAux w = 0 then
      cvtFmt (vFmt w) && cvtFmt (vFmt2 w) && fld w 67 61 == 0 && decide (fld w 64 3 < cvtPlaces (vFmt w) (vFmt2 w))
    else decide (vAux w ≤ 3) && vFmt w == 0 && vFmt2 w == 0 && fld w 64 64 == 0
  | .vquant => quantLegal w && !qOut w
  | .vste => quantLegal w && !qEmode w
  | .vhad => vFmt w == 0 && decide (vAux w ≤ 2)
  | .vhist => (vFmt w == 0 || vFmt w == 1) && fld w 106 22 == 0 && decide (fld w 96 10 ≤ fmtLanes (vFmt w))
  | .vfix => fld w 65 63 == 0 && ((vFmt w == 8 && vFmt2 w == 0) || (vFmt w == 0 && vFmt2 w == 8))
  | _ => true

/-- The formats an MPASS operand may have (R66). -/
def passFmt (f : Nat) : Bool := f == 1 || f == 2 || f == 3 || f == 4 || f == 5 || f == 6

/-- Whether a drain operation is allowed for a pass (R78). -/
def drainLegal (w : W128) : Bool :=
  match mDrain w with
  | 0 | 1 | 7 => true
  | 6 => (mMode w == 0 || mMode w == 1) && !isBf (mAfmt w)
  | _ => !isBf (mAfmt w) && mMode w != 5

/-- A legal MPASS word (R65, R66). An RR pass whose filter rows exceed the 512 blocks of a row buffer is illegal too: R76
bounds T and names no other outcome (DEDUCED, log entry 27). -/
def passLegal (w : W128) : Bool :=
  let bf := isBf (mAfmt w)
  let md := mMode w
  let byK := md == 0 || md == 3
  fld w 126 2 == 0 && decide (md ≤ 5) && passFmt (mAfmt w) && passFmt (mBfmt w) && (bf == isBf (mBfmt w)) &&
  !(bf && (md == 1 || md == 2 || md == 3 || md == 4)) &&
  (md != 5 || (((mAfmt w == 6 && mBfmt w == 6) || bf) && mRmask w == 3 && mCmask w == 3 && mLen w % 16 == 0 &&
    decide (mLen w ≤ 8192))) &&
  (md != 4 || !(bf || mAfmt w == 5 || mBfmt w == 5)) &&
  (mGsize w == 0 || (!bf && md != 4 && md != 5 &&
    (!byK || mLen w % mGroup w == 0) && (byK || 8 * mKstep w % mGroup w == 0))) &&
  (mSparse w == 0 || (md != 2 && md != 4 && md != 5 &&
    !(mAfmt w == 5 && mBfmt w == 5 && (mSparse w == 2 || mSparse w == 3)))) &&
  (!(byK || md == 5) || mLen w % mKstep w == 0) && decide (mSteps w ≤ 4096) &&
  (md != 3 || (mLen w % (8 * mH w * mKstep w) == 0 && decide (mSteps w / mH w ≤ 512))) &&
  mRmask w != 0 && mCmask w != 0 &&
  (md != 4 || (mMval w == 0 && mNval w == 0)) && (!(md == 1 || md == 2) || mMval w == 0) &&
  (md == 3 || mRrh w == 0) && (md == 0 || !mZskip w) && (md == 1 || md == 2 || !mHold w) && drainLegal w

/-! PARAM fields of the transfer modes (R241 to R243) -/
/-- RB of a strided transfer. -/
def xRb (p : Nat) : Nat := nfld p 0 16
/-- SSTR of a strided transfer. -/
def xSstr (p : Nat) : Nat := nfld p 16 16
/-- DSTR of a strided transfer. -/
def xDstr (p : Nat) : Nat := nfld p 32 16
/-- SSTR of a transpose. -/
def tSstr (p : Nat) : Nat := nfld p 0 16
/-- DSTR of a transpose. -/
def tDstr (p : Nat) : Nat := nfld p 16 16
/-- CB of a transpose. -/
def tCb (p : Nat) : Nat := nfld p 32 12
/-- EW of a transpose. -/
def tEw (p : Nat) : Nat := nfld p 44 2
/-- SSTR of a blocked mode, in units of 8 bytes. -/
def bSstr (p : Nat) : Nat := nfld p 0 16
/-- EW of a blocked mode. -/
def bEw (p : Nat) : Nat := nfld p 16 2
/-- OPND of a blocked mode. -/
def bOpnd (p : Nat) : Nat := nfld p 18 1
/-- ORIENT of a blocked mode. -/
def bOrient (p : Nat) : Nat := nfld p 19 1
/-- NOSKEW of a blocked mode. -/
def bNoskew (p : Nat) : Bool := p.testBit 20
/-- ZMEN of a blocked mode. -/
def bZmen (p : Nat) : Bool := p.testBit 21
/-- ZMOFS of a blocked mode. -/
def bZmofs (p : Nat) : Nat := nfld p 22 18

/-- Block rows Rb of a blocked mode (R243). -/
def blkRows (opnd ew : Nat) : Nat := if opnd = 0 then 8 else match ew with | 0 => 8 | 1 => 16 | _ => 4
/-- Block row bytes Wb of a blocked mode (R243). -/
def blkBytes (opnd ew : Nat) : Nat := if opnd = 0 then 8 else match ew with | 0 => 8 | 1 => 4 | _ => 16
/-- Positions P of a line: 8 for the skew-A modes, 4 for the skew-B modes (R243). -/
def blkPos (mode : Nat) : Nat := if mode = 1 ∨ mode = 4 then 8 else 4
/-- The steps S of a blocked transfer (R243). -/
def blkSteps (mode len : Nat) : Nat := len / (64 * blkPos mode)

/-- The rows R of a transpose (R242): LEN ÷ (64 × CB). -/
def tRows (len p : Nat) : Nat := len / (64 * tCb p)
/-- The bits of an element of a transpose (R242). -/
def tBits (p : Nat) : Nat := match tEw p with | 0 => 8 | 1 => 4 | _ => 16

/-- A legal XFER word (R41, R241 to R245). -/
def xferLegal (w : W128) : Bool :=
  let p := xParam w
  let len := xLen w
  fld w 77 3 == 0 && decide (xMode w ≤ 7) && len != 0 && len % 64 == 0 &&
  match xMode w with
  | 0 => p == 0
  | 6 => p == 0
  | 7 => xRb p != 0 && len % (64 * xRb p) == 0 && decide (xRb p ≤ xDstr p)
  | 3 =>
    nfld p 46 2 == 0 && tEw p != 3 && tCb p != 0 && len % (64 * tCb p) == 0 &&
    (tRows len p * tBits p) % 512 == 0 && decide (tCb p ≤ tSstr p) && decide (tRows len p * tBits p / 512 ≤ tDstr p)
  | m =>
    nfld p 40 8 == 0 && bSstr p != 0 && bEw p != 3 && len % (64 * blkPos m) == 0 && decide (blkSteps m len ≤ 4096) &&
    8 * bSstr p % blkBytes (bOpnd p) (bEw p) == 0 &&
    (!bZmen p || ((m == 1 || m == 4) && bOpnd p == 0 && bOrient p == 0 && !bNoskew p))

/-- A legal QOP word (R42, R214). -/
def qopLegal (w : W128) (o : Op) : Bool :=
  fld w 36 12 == 0 && fld w 93 35 == 0 &&
  match o with
  | .qopPush => true
  | .qopPop | .qopDrop => !qopEop w && !qopTent w
  | _ => !qopEop w && !qopTent w && fld w 48 16 == 0

/-- A legal DISP word (R43, R156). -/
def dispLegal (w : W128) : Bool := fld w 31 1 == 0 && fld w 56 72 == 0 && decide (dispTable w < 16)

/-- A legal SYNC word (R45, R52). -/
def syncLegal (w : W128) (o : Op) : Bool :=
  fld w 31 1 == 0 && fld w 37 11 == 0 && fld w 60 4 == 0 && fld w 80 48 == 0 &&
  match o with
  | .signal => (decide (syTcore w < 48) || syTcore w == 63) && syValue w != 0
  | .wait => syTcore w == 63 && syValue w != 0
  | _ => syTcore w == 63

/-- Whether the word at index `pc` is a legal instruction of operation `o` (R33). -/
def legalFor (pc : Nat) (w : W128) (o : Op) : Bool :=
  match fClass w with
  | 0 => ctlLegal pc w o
  | 1 => passLegal w
  | 2 => vopLegal w o
  | 3 => xferLegal w
  | 4 => qopLegal w o
  | 5 => syncLegal w o
  | 6 => dispLegal w
  | _ => false

/-- The operation of a legal word at index `pc`; none for an illegal encoding (R33). -/
def decodeOp (pc : Nat) (w : W128) : Option Op :=
  match opOf w with
  | some o => if legalFor pc w o then some o else none
  | none => none

/-- The scalar registers that an instruction reads or writes, that a pending write of VRED or VMOVS holds back: those its
operation uses and no other field (R35, R40, R41, R42, R43, R47, R65, R97, R109, R115, R133, R138, R142). -/
def sregsOf (w : W128) : List Nat :=
  let b := if ctlImmb w then [] else [ctlSb w]
  match opOf w with
  | some .loop => b
  | some .add | some .sub | some .and | some .or | some .xor | some .shl | some .shr | some .sra | some .mul =>
    [ctlSd w, ctlSa w] ++ b
  | some .cmp => ctlSa w :: b
  | some .li | some .getsys => [ctlSd w]
  | some .ld => [ctlSd w, ctlSa w]
  | some .st => [ctlSa w, ctlSb w]
  | some .vld | some .vst | some .vcbld | some .vhist | some .vquant | some .vste | some .vfix | some .vbcast
  | some .vdeq => [vSa w]
  | some .vadd | some .vsub | some .vfma => if vAux w % 2 = 1 then [vSa w] else []
  | some .vred | some .vmovs => [vSd w]
  | some .xferCopy => [xSsrc w, xSdst w]
  | some .pass => [mSaa w, mSab w, mSac w, mSap w]
  | some .qopPush | some .qopPop => [qopSa w]
  | some .qopStat => [qopSd w]
  | some .dispRoute => [dispSa w, dispSp w]
  | some .dispStat => [dispSd w]
  | _ => []

end Sys2Proof.Machine
end

