-- ==== Sys2Proof/Machine/Halting.lean ====
section
/-!
DEFINITION. What a physical upset does to a memory line or a queue (R219, R251), what a dispatch unit and a preemption
do when a core enters HALTED (R167, R364), and the guards that hold a queue head (R49, R227).
-/

namespace Sys2Proof.Machine

/-! ### Upsets of memory lines and queue pointers -/

/-- Bursts of the next access to a line fail their CRC (R257). -/
def strikeCrc (s : State) (l n : Nat) : State :=
  if n = 0 then s else { s with mem := { s.mem with crc := tset s.mem.crc (l % 0x60000000) n } }

/-- A memory device reports on-die corrections (R249). -/
def strikeOnDie (s : State) (g : CtrlId) (n : Nat) : State := s.count (ctrlBase g + 0x40) 32 n

/-- A host port corrects errors: its AER correctable error status codes them (R331, R383). -/
def strikePort (s : State) (hb : Bool) (errs : BitVec 32) : State :=
  let h := s.host
  { s with host := if hb then { h with fnB := { h.fnB with aer := h.fnB.aer ||| errs } }
                   else { h with fnA := { h.fnA with aer := h.fnA.aer ||| errs } } }

/-- An upset of the 64-byte line at `64 * l` of module memory (R251): one bit is corrected on the next read, more are
not; without line protection the bytes simply change. -/
def strikeLine (s : State) (l : Nat) (f : BitVec 512) : State :=
  let a := 64 * (l % 0x60000000)
  let flip (s : State) : State :=
    { s with gddr := s.gddr.write a (leBytes 64 ((BitVec.ofNat 512 (leNat (s.gddr.read a 64))) ^^^ f).toNat) }
  if f = 0#512 then s
  else if !bit (s.rd memBase) 0 then flip s
  else if (bitsSet f).length = 1 ∧ (tget s.gddrErr (l % 0x60000000)).isNone then
    { s with gddrErr := tset s.gddrErr (l % 0x60000000) false }
  else { flip s with gddrErr := tset s.gddrErr (l % 0x60000000) true }

/-- The two copies of a pointer of a queue come to differ (R219). -/
def strikeQueue (s : State) (q : QId) : State := s.setQueue q { s.queues[q] with bad := true }

/-! ### What a dispatch unit sends (R163, R167, R217) -/

/-- The 64 bytes of a marker cell (R214). -/
def markerData (mbtag kind agent src : Nat) : Line :=
  BitVec.ofNat 512 (leNat (leBytes 2 mbtag ++ leBytes 1 kind ++ leBytes 1 agent ++ leBytes 2 src))

/-- A marker cell for a key of this module (R214): kind 1 commits, 2 cancels. -/
def markerCell (s : State) (agent : Nat) (mbtag : BitVec 16) (kind : Nat) : Cell :=
  { data := markerData mbtag.toNat kind agent s.devid, mbtag := mbtag, marker := true,
    src := BitVec.ofNat 15 s.devid, agent := BitVec.ofNat 7 agent }

/-- Whether two cells may share a packet: all sideband fields but EOP are equal (R215). -/
def sameSide (a b : Cell) : Bool :=
  a.mbtag == b.mbtag && a.tent == b.tent && a.marker == b.marker && a.src == b.src && a.agent == b.agent

/-- How many of the first cells may go in one QCELLS packet: at most 16, of equal sideband fields, EOP on the last
only, a marker alone (R215, R281). -/
def packetLen (cells : List Cell) : Nat :=
  match cells with
  | [] => 0
  | c :: rest =>
    if c.marker || c.eop then 1
    else
      let more := (rest.take 15).takeWhile (fun d => sameSide c d)
      let open_ := more.takeWhile (fun d => !d.eop)
      1 + min more.length (open_.length + 1)

/-- The QCELLS packet of some cells of equal sideband fields for queue `q` of a device (R281). -/
def qcellsPkt (s : State) (job dst q : Nat) (cells : List Cell) : Pkt :=
  match cells with
  | [] => mkPkt s 1 0 0 job dst 0 [] []
  | c :: _ =>
    let eop := cells.any (·.eop)
    let flags := (if eop then 1 else 0) + (if c.tent then 2 else 0) + (if c.marker then 4 else 0)
    let tf := leBytes 1 q ++ leBytes 1 c.agent.toNat ++ leBytes 2 c.mbtag.toNat ++ leBytes 2 flags ++
      leBytes 2 c.src.toNat
    mkPkt s 1 0 0 job dst 0 tf (cells.flatMap (fun d => leBytes 64 d.data.toNat))

/-- Packets of the cells of one destination enter transmit queues until none is left or the peer cannot be reached. -/
def sendCells (s : State) (die job dst q : Nat) : Nat → List Cell → State × List Cell
  | 0, cells => (s, cells)
  | fuel + 1, cells =>
    if cells.isEmpty then (s, [])
    else
      let n := packetLen cells
      match sendPkt s die 0 job dst (qcellsPkt s job dst q (cells.take n)) with
      | (s, true) => sendCells s die job dst q fuel (cells.drop n)
      | (s, false) => (s, cells)

/-- Whether a STOP of queue `q` of a peer is in force (R217). -/
def stopped (s : State) (dev q : Nat) : Bool := s.net.stops.contains (dev, q)

/-- The cells a dispatch unit still holds for a peer leave where the peer may be reached and has not stopped the queue;
cells that find it unreachable raise LINK_UNREACHABLE once and are held (R287). -/
def duFlushOne (s : State) (u : DuId) (o : DispOut) : State × Option DispOut :=
  match o.dest with
  | .here _ => (s, some o)
  | .peer dev q =>
    if stopped s dev.toNat q.val then (s, some o)
    else
      match sendCells s u.val o.job dev.toNat q.val o.cells.length o.cells with
      | (s, []) => (s, none)
      | (s, c :: rest) =>
        let s := if o.told then s
          else (unreachable s (some o.job) dev.toNat (qcellsPkt s o.job dev.toNat q.val [c])).failStep (some o.job)
        (s, some { o with cells := c :: rest, told := true })

/-- Everything a dispatch unit holds for peers leaves, in order, as far as it can. -/
def duFlush (s : State) (u : DuId) : State :=
  let (s, keep) := (s.dus[u]).outs.foldl (fun (acc : State × List DispOut) o =>
    match duFlushOne acc.1 u o with
    | (s, some o) => (s, acc.2 ++ [o])
    | (s, none) => (s, acc.2)) (s, [])
  s.setDu u { s.dus[u] with outs := keep }

/-- A dispatch unit queues cells for one destination. -/
def duPush (s : State) (u : DuId) (job : Nat) (d : DispDest) (cells : List Cell) : State :=
  let k := s.dus[u]
  s.setDu u { k with outs := k.outs ++ [{ dest := d, job := job, cells := cells }] }

/-- The agent code of a dispatch unit (R202). -/
def duAgent (u : DuId) : Nat := 0x40 + u.val

/-- A marker of an entry goes to every destination it has recorded (R167). -/
def sendMarkers (s : State) (u : DuId) (job : Nat) (mbtag : BitVec 16) (kind : Nat) (dests : List DispDest) : State :=
  duFlush (dests.foldl (fun s d => duPush s u job d [markerCell s (duAgent u) mbtag kind]) s) u

/-- The dispatch unit of a core's die (R43). -/
def duOf (c : CoreId) : DuId := if c.val < 24 then 0 else 1

/-- Open entries are cancelled by force: their markers go out, they are counted, and DISP_FORCED_CANCEL is raised
where there was one (R167, R174). -/
def forceCancel (s : State) (u : DuId) (job : Nat) (core : Nat) (which : Tentative → Bool) : State :=
  let k := s.dus[u]
  let gone := k.entries.filter which
  if gone.isEmpty then s
  else
    let s := s.setDu u { k with entries := k.entries.filter (fun e => !which e) }
    let s := gone.foldl (fun s e => sendMarkers s u job e.mbtag 2 e.dests) s
    let s := s.count (duBase u + 0x50) 32 gone.length
    s.raise (0x3107 + 8 * u.val) u.val 0 (some job) 0 core

/-- A forced cancel also falls on a tentative ROUTE in progress, which takes it when it takes effect (R167). -/
def cancelRun (s : State) (u : DuId) (which : DispRun → Bool) : State :=
  let k := s.dus[u]
  let mark (r : DispRun) : DispRun := if r.tent && which r then { r with cancel := true } else r
  s.setDu u { k with run := k.run.map mark, stuck := k.stuck.map mark }

/-! ### Preemption (R364) -/

/-- The mask of the victims of a PREEMPT, where the descriptor's run is that of number `id`. -/
def preemptMask (id : Nat) (d : Desc) : Option (Nat × Nat) :=
  match d.run with
  | some (.preempt k job mask) => if k = id then some (job, mask) else none
  | _ => none

/-- A PREEMPT whose last victim has gone completes with OK, and PREEMPT_DONE is raised with the mask of its victims (R364,
R385). -/
def preemptCheck (s : State) (id : Nat) : State :=
  if s.jobs.victims.any (fun v => v.id == id) then s
  else
    let k := s.host.rings[(0 : Fin 34)]
    match k.descs.findSome? (preemptMask id) with
    | none => s
    | some (job, mask) =>
      let ds := k.descs.map (fun d =>
        if (preemptMask id d).isSome then { d with run := some (.due 0#8 0#32 0#16) } else d)
      (s.setRing 0 { k with descs := ds }).raise 0x0101 0 0 (some job) mask 0

/-- A victim that halts before its save leaves the victim set (R364). -/
def victimHalted (s : State) (c : CoreId) : State :=
  match s.jobs.victims.filter (fun v => v.core == c) with
  | [] => s
  | vs =>
    let s := { s with jobs := { s.jobs with victims := s.jobs.victims.filter (fun v => v.core != c) } }
    vs.foldl (fun s v => preemptCheck s v.id) (s.raise 0x0102 0 0 (s.jobOf c) (2 ^ c.val) 0)

/-- What hangs on a core's entry into HALTED: its open dispatch entries are cancelled (R167), and a preemption victim
that was not saved leaves the victim set (R364). -/
def onHalted (s : State) (c : CoreId) : State :=
  let u := duOf c
  let s := match s.jobOf c with
    | some j => forceCancel s u j c.val (fun e => e.core == c)
    | none => forceCancel s u 0 c.val (fun e => e.core == c)
  victimHalted (cancelRun s u (fun r => r.req.core == c)) c

/-! ### Guards at a queue head (R49, R227) -/

/-- The parameter block's SLOTC with SLOTCEN of a queued pass; none where the block is misaligned or beyond 16 MiB, which
is a parameter fault and no guard (R68). DESIGN CHOICE, log entry 75: the guard is taken from the bytes as they stand,
before the block's ECC, gecko and bank checks. -/
def peekSlotc (s : State) (c : CoreId) (e : Entry) : Option Nat :=
  let a := (getD e.s (mSap e.word) 0#64).toNat
  if a % 64 ≠ 0 ∨ spSize < a + 64 then none
  else if (leNat (spBytes s c (a + 36) 1)).testBit 4 then some (nfld (leNat (spBytes s c (a + 37) 2)) 0 12) else none

/-- The guard that holds a queue entry back, with the state it waits for; none where every guard allows it. -/
def holdingGuard (s : State) (c : CoreId) (e : Entry) : Option Nat :=
  let w := e.word
  let filled (g : Nat) : Bool := guardFilled s c g
  match fClass w with
  | 1 =>
    if mAen w ∧ !filled (mSlota w) then some (mSlota w)
    else if mBen w ∧ !filled (mSlotb w) then some (mSlotb w)
    else
      match peekSlotc s c e with
      | some g => if filled g then some g else none
      | none => none
  | 3 => if xSfill w ∧ filled (xSlot w) then some (xSlot w) else none
  | 4 =>
    if qopSen w then
      match fOp w with
      | 0 => if filled (qopSlot w) then none else some (qopSlot w)
      | 1 => if filled (qopSlot w) then some (qopSlot w) else none
      | _ => none
    else none
  | _ => none

/-- Whether a unit's head is unstarted and held by a guard (GUARD_HELD of R60). -/
def guardHeld (s : State) (c : CoreId) : Bool :=
  (s.unit c).q.toList.any (fun l =>
    match l with
    | e :: _ => (holdingGuard s c e).isSome
    | [] => false)

end Sys2Proof.Machine
end

