-- ==== Sys2Proof/Machine/CoreCtl.lean ====
section
/-!
DEFINITION. Fetch and issue (R30, R33, R34, R46, R47), unit queues, draining and halting (R55 to R58), shared by every
core instruction.
-/

namespace Sys2Proof.Machine

/-! ### Physical upsets -/

/-- Whether exactly one bit of a word is set. -/
def oneBit {n : Nat} (w : BitVec n) : Bool := (bitsSet w).length == 1

/-- One upset strikes (R30, R219, R226, R249, R251, R257). A single-bit upset leaves the corrected data as it was; a larger one
turns the stored bits round. -/
def strikeOne (s : State) (u : Upset) : State :=
  match u with
  | .imem c i d =>
    let k := s.core c
    s.setCore c { k with imemErr := tset k.imemErr (i % 32768) (d || (tget k.imemErr (i % 32768)).isSome) }
  | .sp c l f =>
    let o := (l % 0x200000) * 8
    let k := s.loc c
    if f = 0#64 then s
    else if oneBit f && (tget k.spErr o).isNone then s.setLoc c { k with spErr := tset k.spErr o false }
    else s.setLoc c { k with
      spErr := tset k.spErr o true
      sp := k.sp.write o (leBytes 8 ((BitVec.ofNat 64 (leNat (k.sp.read o 8))) ^^^ f).toNat) }
  | .gddr l f => strikeLine s l f
  | .queuePtr q => strikeQueue s q
  | .crc l n => strikeCrc s l n
  | .onDie g n => strikeOnDie s g n
  | .aer hb e => strikePort s hb e

/-- Every upset of a command strikes, in order. -/
def strike (s : State) (us : List Upset) : State := us.foldl strikeOne s

/-! ### Scalar and predicate registers (R28) -/

/-- Reading S register `i`: S0 reads as zero. -/
def Core.sget (k : Core) (i : Nat) : W64 :=
  match fin? 32 i with
  | some j => if i = 0 then 0#64 else k.sreg[j]
  | none => 0#64

/-- Writing S register `i`: a write to S0 is discarded. -/
def Core.sset (k : Core) (i : Nat) (v : W64) : Core :=
  match fin? 32 i with
  | some j => if i = 0 then k else { k with sreg := k.sreg.set j v }
  | none => k

/-- Reading predicate `i`: P0 reads as 1. -/
def Core.pget (k : Core) (i : Nat) : Bool := i == 0 || k.preg.getLsbD i

/-- Writing predicate `i`: a write to P0 is discarded. -/
def Core.pset (k : Core) (i : Nat) (b : Bool) : Core := if i = 0 then k else { k with preg := putBit k.preg i b }

/-- The scalar registers as an instruction reads them at issue (R47). -/
def Core.snap (k : Core) : List W64 := (List.range 32).map k.sget

/-- An S register of a captured set. -/
def snapGet (l : List W64) (i : Nat) : W64 := getD l i 0#64

/-! ### Unit queues -/

/-- The index of a unit queue. -/
def unitIx : UnitSel → Fin 5
  | .mu0 => 0 | .mu1 => 1 | .ve => 2 | .dma => 3 | .fab => 4

/-- The unstarted entries of a unit queue, oldest first. -/
def qOf (s : State) (c : CoreId) (u : UnitSel) : List Entry := (s.unit c).q[unitIx u]

/-- The state with a unit queue's entries replaced. -/
def setQ (s : State) (c : CoreId) (u : UnitSel) (l : List Entry) : State :=
  s.setUnit c { s.unit c with q := (s.unit c).q.set (unitIx u) l }

/-- Whether a core's units may start instructions: its domain is on, and no forced save is under way (R56, R395). -/
def canStart (s : State) (c : CoreId) : Bool :=
  s.domainOn c.val &&
  (match (s.core c).run with
    | .draining .forced => false
    | .draining (.fault _) => false
    | .saving _ => false
    | .restoring _ => false
    | _ => true)

/-- The head of a unit queue leaves it; a guard wait of that head is over (R48, R229). -/
def popHead (s : State) (c : CoreId) (u : UnitSel) (rest : List Entry) : State :=
  let k := s.unit c
  s.setUnit c { k with q := k.q.set (unitIx u) rest, told := clrBit k.told (unitIx u).val }

/-- Whether a unit holds no started and no queued instruction (R51, R57, BUSY of R60). -/
def unitIdle (k : Units) : UnitSel → Bool
  | .mu0 => k.q[0].isEmpty && (k.mu[0]).runs.isEmpty
  | .mu1 => k.q[1].isEmpty && (k.mu[1]).runs.isEmpty
  | .ve => k.q[2].isEmpty && k.ve.isEmpty
  | .dma => k.q[3].isEmpty && k.chan.toList.all List.isEmpty
  | .fab => k.q[4].isEmpty && k.fab.isNone

/-- The five units. -/
def allUnits : List UnitSel := [.mu0, .mu1, .ve, .dma, .fab]

/-- Whether every unit queue and the fabric queue have completed (R57). DESIGN CHOICE, log entry 25: a held SIGNAL has left its
queue, and no drain waits for it. -/
def drained (k : Units) : Bool := allUnits.all (unitIdle k)

/-- Whether nothing started is still running: all that a fault halt or a forced save waits for (R56, R57). -/
def startedDone (k : Units) : Bool :=
  k.ve.isEmpty && k.mu.toList.all (fun m => m.runs.isEmpty) && k.chan.toList.all List.isEmpty && k.fab.isNone

/-- Whether a drain has reached its end (R55, R56, R57). -/
def drainDone (k : Units) : Drain → Bool
  | .fault _ => startedDone k
  | .forced => startedDone k
  | _ => drained k

/-! ### Halting -/

/-- Whether a halt status fails the step of the core's job (R322, R384). -/
def statusFails (st : Nat) : Bool := (0xF001 ≤ st && st ≤ 0xF006) || (0xE000 ≤ st && st ≤ 0xEFFF)

/-- BLK_STAT of a core (R60). -/
def coreStat (s : State) (c : CoreId) : W64 :=
  let k := s.core c
  let u := s.unit c
  let st := match k.run with
    | .halted => 0 | .running => 1 | .draining _ => 2 | .saving _ => 3 | .restoring _ => 3
  let busy := (if unitIdle u .mu0 then 0 else 1) + (if unitIdle u .mu1 then 0 else 2) +
    (if unitIdle u .ve then 0 else 4) + (if unitIdle u .dma then 0 else 8)
  let wait := match k.blocked with
    | some (.wait ..) => 1 | _ => 0
  BitVec.ofNat 64 (st + busy * 2 ^ 4 + (if unitIdle u .fab then 0 else 2 ^ 8) + wait * 2 ^ 9 +
    (if guardHeld s c then 2 ^ 10 else 0) + k.status.toNat * 2 ^ 16 + u.held.length * 2 ^ 48)

/-- Entry into HALTED (R57): the status is recorded, YIELD_REQ is cleared, the beat ends, CORE_HALTED is raised, and
what hangs on a halt is told (R167, R364). -/
def enterHalted (s : State) (c : CoreId) (status : BitVec 16) : State :=
  let s := s.setCore c { s.core c with run := .halted, status := status, stepping := false, stopReq := false,
                                       blocked := none, pendSd := [], lastMu0 := none }
  let s := s.wr (coreBase c + 8) (clrBit (s.rd (coreBase c + 8)) 3)
  let s := endBeat s c
  let s := s.raiseIf (statusFails status.toNat) 0x1000 c 0 (s.jobOf c) (coreStat s c).toNat (s.core c).pc
  onHalted s c

/-- The status a drain halts with (R57, R58). -/
def drainStatus : Drain → BitVec 16
  | .halt st => st
  | .stop => 0xF007#16
  | .step => 0xF008#16
  | .yield .. => 0xF009#16
  | .fault st => st
  | .forced => 0xF00A#16

/-- A drain with nothing left to wait for ends at once: a halt enters HALTED, a save begins (R55, R56, R57). -/
def settle (s : State) (c : CoreId) : State :=
  match (s.core c).run with
  | .draining d =>
    if drainDone (s.unit c) d then
      match d with
      | .yield .. => s.setCore c { s.core c with run := .saving d }
      | .forced => s.setCore c { s.core c with run := .saving d }
      | d => enterHalted s c (drainStatus d)
    else s
  | _ => s

/-- Issue stops and the core drains (R55, R57, R60). -/
def startDrain (s : State) (c : CoreId) (d : Drain) : State :=
  settle (s.setCore c { s.core c with run := .draining d, stopReq := false, stepping := false }) c

/-- A fault halt (R57): issue stops, unstarted entries are discarded, CORE_PC holds the faulting index. A fault while
the core is halting already keeps the first status. -/
def faultHalt (s : State) (c : CoreId) (status : BitVec 16) (pc : Nat) : State :=
  match (s.core c).run with
  | .halted => s
  | .draining (.fault _) => s
  | _ =>
    let s := s.setUnit c { s.unit c with q := Vector.replicate 5 [], told := 0#6 }
    let s := s.setCore c { s.core c with pc := pc, blocked := none }
    startDrain s c (.fault status)

/-- A fault halt with the event that accompanies it (R384, R385). -/
def faultHaltEv (s : State) (c : CoreId) (status : BitVec 16) (pc code a1 : Nat) : State :=
  faultHalt (s.raiseIf (statusFails status.toNat) code c 0 (s.jobOf c) pc a1) c status pc

/-! ### Fetch and issue -/

/-- What the fetch of a core's next instruction finds. -/
inductive Fetch where
  | idle
  | beyond
  | uncorr
  | illegal (corrected : Bool)
  | word (w : W128) (o : Op) (corrected : Bool)
deriving DecidableEq, Repr

/-- The instruction word at an index (R30). -/
def Core.word (k : Core) (i : Nat) : W128 := (tget k.imem i).getD 0#128

/-- The fetch at the PC, where issue is not stopped or blocked (R30, R31, R33). -/
def fetch (k : Core) : Fetch :=
  if k.run ≠ .running ∨ k.blocked.isSome then .idle
  else if 32768 ≤ k.pc then .beyond
  else if tget k.imemErr k.pc = some true then .uncorr
  else
    let corrected := tget k.imemErr k.pc == some false
    match decodeOp k.pc (k.word k.pc) with
    | none => .illegal corrected
    | some o => .word (k.word k.pc) o corrected

/-- The unit queue an instruction goes to, none for the scalar unit (R46). -/
def destOf (w : W128) (o : Op) : Option UnitSel :=
  match fClass w with
  | 1 => some (if mUnit w = 0 then .mu0 else .mu1)
  | 2 => some .ve
  | 3 => some .dma
  | 4 => some .fab
  | 6 => some .fab
  | 5 =>
    match o with
    | .signal | .slotFill | .slotDrain => some .fab
    | _ => none
  | _ => none

/-- Whether the destination queue has room, 16 entries at most (R46). -/
def destRoom (s : State) (c : CoreId) (w : W128) (o : Op) : Bool :=
  match destOf w o with
  | some u => decide ((qOf s c u).length < 16)
  | none => true

/-- Whether an instruction waits for a scalar write of VRED or VMOVS that is still out (R47). -/
def sdPending (k : Core) (w : W128) : Bool := (sregsOf w).any (fun r => r != 0 && k.pendSd.contains r)

/-- The next index after the instruction at `idx`: the body start of the innermost loop that ends here with a count
above 1, with that count lowered, else `idx` + 1 (R37). -/
def loopNext (k : Core) (idx : Nat) : Core :=
  let live := (allFin 4).filter (fun l => k.loops[l].last == idx && decide (1 < k.loops[l].count.toNat))
  let inner := live.foldl (fun (b : Option (Fin 4)) l =>
    match b with
    | none => some l
    | some m => if k.loops[m].first < k.loops[l].first then some l else some m) none
  match inner with
  | none => { k with pc := idx + 1 }
  | some l =>
    let lv := k.loops[l]
    { k with pc := lv.first, loops := k.loops.set l { lv with count := lv.count - 1 } }

/-- After an issue: a single step drains (R60). -/
def afterIssue (s : State) (c : CoreId) : State :=
  let k := s.core c
  if k.run ≠ .running ∨ k.blocked.isSome then s
  else if k.stepping then startDrain s c .step
  else s

/-- The instruction at the PC retires in sequence: the PC moves on, round a loop where one ends here. -/
def retire (s : State) (c : CoreId) : State :=
  afterIssue (s.setCore c (loopNext (s.core c) (s.core c).pc)) c

/-- The instruction at the PC retires with the PC at a target. -/
def retireTo (s : State) (c : CoreId) (target : Nat) : State := afterIssue (s.setCore c { s.core c with pc := target }) c

/-- A fetch that found a single-bit error is counted and raised (R30). -/
def fetchCorrected (s : State) (c : CoreId) (corrected : Bool) : State :=
  if corrected then (s.count (coreBase c + 0x70) 32 1).coreEv c 0x1002 (s.core c).pc 0 else s

/-- The issue of one instruction of operation `o` by core `c`, after the command's upsets have struck. A core that
cannot issue, a word of another operation, a scalar register still to be written or a full destination queue leave
the state as it is. A bad fetch halts the core (R30, R31, R33). A false predicate uses the issue only (R34). DESIGN CHOICE,
log entry 74: an instruction with a false predicate waits for its queue and its scalar registers as well, since the
predicate is evaluated at the issue. -/
def issue (s : State) (c : CoreId) (us : List Upset) (o : Op) (act : State → W128 → State) : State :=
  let s := strike s us
  let k := s.core c
  match (if s.domainOn c.val then fetch k else .idle) with
  | .idle => s
  | .beyond => faultHaltEv s c 0xF001#16 k.pc 0x1001 0
  | .uncorr => faultHaltEv s c 0xF002#16 k.pc 0x1003 0
  | .illegal corrected => faultHaltEv (fetchCorrected s c corrected) c 0xF001#16 k.pc 0x1001 0
  | .word w o' corrected =>
    if o' ≠ o ∨ sdPending k w ∨ !destRoom s c w o then s
    else
      let s := fetchCorrected s c corrected
      let go := k.pget (fPred w) != fPinv w
      let s := s.setCore c { s.core c with
        lastMu0 := if o = .pass ∧ mUnit w = 0 ∧ go then some (k.pc, w, k.snap) else none }
      if go then act s w else retire s c

/-- An issued instruction enters its unit queue with the scalar registers it read (R46, R47); an MU1 pass keeps the
MU0 pass issued directly before it (R189). -/
def enqueue (s : State) (c : CoreId) (w : W128) (u : UnitSel) (after : Option (Nat × W128 × List W64)) : State :=
  let k := s.core c
  setQ s c u (qOf s c u ++ [{ pc := k.pc, word := w, s := k.snap, after := after }])

/-- The issue of an instruction that only enters a unit queue. -/
def issueTo (s : State) (c : CoreId) (us : List Upset) (o : Op) (u : UnitSel) : State :=
  issue s c us o (fun s w => retire (enqueue s c w u none) c)

end Sys2Proof.Machine
end

