-- ==== Sys2Proof/Machine/Float.lean ====
section
/-!
DEFINITION. Exact values of floating-point elements and the named roundings of the reference order (R92 to R94, R122,
R123, R129, R136, R137). A value is an exact dyadic real, so each primitive rounds once, where the spec says it does.
-/

namespace Sys2Proof.Machine

/-- The value of an element: a NaN, an infinity of a sign, or (−1)^neg · m · 2^e (R92; IEEE 754). -/
inductive FVal where
  | nan
  | inf (neg : Bool)
  | fin (neg : Bool) (m : Nat) (e : Int)
deriving DecidableEq, Repr

/-- The value +0. -/
def FVal.zero : FVal := .fin false 0 0

/-- The value of an integer. -/
def FVal.ofInt (x : Int) : FVal := .fin (decide (x < 0)) x.natAbs 0

/-- A value with its sign turned round. -/
def FVal.neg : FVal → FVal
  | .nan => .nan
  | .inf s => .inf (!s)
  | .fin s m e => .fin (!s) m e

/-- Whether a value is a NaN. -/
def FVal.isNan : FVal → Bool
  | .nan => true
  | _ => false

/-- Whether a value is finite. -/
def FVal.isFin : FVal → Bool
  | .fin .. => true
  | _ => false

/-- Whether a value is +0 or −0. -/
def FVal.isZero : FVal → Bool
  | .fin _ 0 _ => true
  | _ => false

/-- The sign of a value that is not a NaN. -/
def FVal.sign : FVal → Bool
  | .nan => false
  | .inf s => s
  | .fin s _ _ => s

/-- The signed significand of a finite value. -/
def FVal.signedM : FVal → Int
  | .fin s m _ => if s then -(m : Int) else m
  | _ => 0

/-- The exact product: the sign is the exclusive OR of the signs (R122). -/
def FVal.mul : FVal → FVal → FVal
  | .nan, _ => .nan
  | _, .nan => .nan
  | .inf s, .inf t => .inf (s ^^ t)
  | .inf s, .fin t m _ => if m = 0 then .nan else .inf (s ^^ t)
  | .fin s m _, .inf t => if m = 0 then .nan else .inf (s ^^ t)
  | .fin s m e, .fin t n f => .fin (s ^^ t) (m * n) (e + f)

/-- The exact sum: a sum that is exactly zero is +0, except that (−0) + (−0) is −0 (R122). -/
def FVal.add : FVal → FVal → FVal
  | .nan, _ => .nan
  | _, .nan => .nan
  | .inf s, .inf t => if s = t then .inf s else .nan
  | .inf s, .fin .. => .inf s
  | .fin .., .inf t => .inf t
  | .fin s m e, .fin t n f =>
    let g := min e f
    let a : Int := (if s then -1 else 1) * ((m * 2 ^ (e - g).toNat : Nat) : Int)
    let b : Int := (if t then -1 else 1) * ((n * 2 ^ (f - g).toNat : Nat) : Int)
    let r := a + b
    if r = 0 then .fin (s && t && m == 0 && n == 0) 0 0 else .fin (decide (r < 0)) r.natAbs g

/-- A value times 2^k. -/
def FVal.scale (v : FVal) (k : Int) : FVal :=
  match v with
  | .fin s m e => .fin s m (e + k)
  | v => v

/-- Three-way comparison of two values that are not NaNs, −0 equal to +0: −1, 0 or 1. -/
def FVal.cmp : FVal → FVal → Int
  | .inf s, .inf t => if s = t then 0 else if s then -1 else 1
  | .inf s, _ => if s then -1 else 1
  | _, .inf t => if t then 1 else -1
  | .fin s m e, .fin t n f =>
    let g := min e f
    let a : Int := (if s then -1 else 1) * ((m * 2 ^ (e - g).toNat : Nat) : Int)
    let b : Int := (if t then -1 else 1) * ((n * 2 ^ (f - g).toNat : Nat) : Int)
    if a < b then -1 else if b < a then 1 else 0
  | _, _ => 0

/-- `m` divided by 2^k, to the nearest integer, ties to even. -/
def rneShift (m k : Nat) : Nat :=
  let q := m >>> k
  let r := m % 2 ^ k
  if 2 * r > 2 ^ k ∨ (2 * r = 2 ^ k ∧ q % 2 = 1) then q + 1 else q

/-- The exponent of the unit in the last place of m · 2^e in a format of `mb` fraction bits whose subnormals count
units of 2^emin. -/
def ulpExp (mb : Nat) (emin : Int) (m : Nat) (e : Int) : Int := max ((Nat.log2 m : Int) + e - mb) emin

/-- The magnitude code of m · 2^e rounded to nearest even, before any limit: exponent above fraction, so that a carry
moves to the next exponent (R93; IEEE 754). -/
def magCode (mb : Nat) (emin : Int) (m : Nat) (e : Int) : Nat :=
  if m = 0 then 0
  else
    let u := ulpExp mb emin m e
    let q := if u ≤ e then m * 2 ^ (e - u).toNat else rneShift m (u - e).toNat
    (u - emin).toNat * 2 ^ mb + q

/-- The value of a code of an IEEE 754 layout with `eb` exponent bits and `mb` fraction bits (R92). -/
def ieeeVal (eb mb x : Nat) : FVal :=
  let s := x.testBit (eb + mb)
  let ex := nfld x mb eb
  let fr := nfld x 0 mb
  let bias : Int := 2 ^ (eb - 1) - 1
  if ex = 2 ^ eb - 1 then (if fr = 0 then .inf s else .nan)
  else if ex = 0 then .fin s fr (1 - bias - mb)
  else .fin s (2 ^ mb + fr) ((ex : Int) - bias - mb)

/-- The value of a binary32 (R92). -/
def val32 (x : BitVec 32) : FVal := ieeeVal 8 23 x.toNat

/-- The value of a BF16 (R92). -/
def val16 (x : BitVec 16) : FVal := ieeeVal 8 7 x.toNat

/-- The value of an E5M2 code (R92, R93). -/
def valE5M2 (x : BitVec 8) : FVal := ieeeVal 5 2 x.toNat

/-- The value of an E4M3 code: no infinity; 0x7F and 0xFF are NaN (R92, R93). -/
def valE4M3 (x : BitVec 8) : FVal :=
  let c := x.toNat
  let s := c.testBit 7
  let ex := nfld c 3 4
  let fr := nfld c 0 3
  if ex = 15 ∧ fr = 7 then .nan
  else if ex = 0 then .fin s fr (-9)
  else .fin s (8 + fr) ((ex : Int) - 10)

/-- rne32: rounding to binary32, nearest, ties to even; overflow gives an infinity; every NaN is 0x7FC0_0000
(R122, R123). -/
def rne32 : FVal → BitVec 32
  | .nan => 0x7FC00000#32
  | .inf s => if s then 0xFF800000#32 else 0x7F800000#32
  | .fin s m e =>
    let c := min (magCode 23 (-149) m e) 0x7F800000
    BitVec.ofNat 32 (if s then c + 0x80000000 else c)

/-- rne16: rounding to BF16 (R122, R123). -/
def rne16 : FVal → BitVec 16
  | .nan => 0x7FC0#16
  | .inf s => if s then 0xFF80#16 else 0x7F80#16
  | .fin s m e =>
    let c := min (magCode 7 (-133) m e) 0x7F80
    BitVec.ofNat 16 (if s then c + 0x8000 else c)

/-- Conversion into E5M2: nearest even, saturating; a NaN is 0x7E (R93). -/
def rneE5M2 : FVal → BitVec 8
  | .nan => 0x7E#8
  | .inf s => if s then 0xFB#8 else 0x7B#8
  | .fin s m e =>
    let c := min (magCode 2 (-16) m e) 0x7B
    BitVec.ofNat 8 (if s then c + 0x80 else c)

/-- Conversion into E4M3: nearest even, saturating; a NaN is the code `nanCode`, which R93 leaves one of two. -/
def rneE4M3 (nanCode : BitVec 8) : FVal → BitVec 8
  | .nan => nanCode
  | .inf s => if s then 0xFE#8 else 0x7E#8
  | .fin s m e =>
    let c := min (magCode 3 (-9) m e) 0x7E
    BitVec.ofNat 8 (if s then c + 0x80 else c)

/-- rne_int: a finite value rounded to an integer, ties to even (R122). -/
def rneInt : FVal → Int
  | .fin s m e =>
    let q : Nat := if 0 ≤ e then m * 2 ^ e.toNat else rneShift m (-e).toNat
    if s then -(q : Int) else q
  | _ => 0

/-- The largest integer at most x · 2^k (R102, R107: the floor rounds toward minus infinity). -/
def floorScale (x : Int) (k : Int) : Int :=
  if 0 ≤ k then x * 2 ^ k.toNat else x / ((2 ^ (-k).toNat : Nat) : Int)

/-- Whether x · 2^k is an integer, that is, the floor discards no non-zero bit (R103). -/
def exactScale (x : Int) (k : Int) : Bool :=
  if 0 ≤ k then true else x % ((2 ^ (-k).toNat : Nat) : Int) == 0

/-- sr32: stochastic rounding to binary32 with 32 random bits (R136). -/
def sr32 (r : FVal) (rnd : Nat) : BitVec 32 :=
  match r with
  | .fin s m e =>
    if m = 0 then rne32 r
    else
      let u := ulpExp 23 (-149) m e
      let sign := if s then 0x80000000 else 0
      if u ≤ e then rne32 r
      else
        let k := (u - e).toNat
        let q := m >>> k
        let rest := m % 2 ^ k
        let d := (rest * 2 ^ 32) >>> k
        let lo := (u + 149).toNat * 2 ^ 23 + q
        if rest = 0 then BitVec.ofNat 32 (sign + min lo 0x7F800000)
        else BitVec.ofNat 32 (sign + min (if d + rnd ≥ 2 ^ 32 then lo + 1 else lo) 0x7F800000)
  | r => rne32 r

/-- The 64-bit mixing function of the random bits (R137). -/
def mix64 (x : W64) : W64 :=
  let x := (x ^^^ (x >>> 30)) * 0xBF58476D1CE4E5B9#64
  let x := (x ^^^ (x >>> 27)) * 0x94D049BB133111EB#64
  x ^^^ (x >>> 31)

/-- A stochastic-rounding descriptor (R138). -/
structure Srd where
  seed : W64
  step : Nat
  tensor : Nat
  base : Nat
  site : Nat
  stride : Nat
deriving DecidableEq, Repr

/-- The descriptor that 32 bytes hold (R138). -/
def srdOf (bs : List Byte) : Srd :=
  { seed := BitVec.ofNat 64 (leAt bs 0 8), step := leAt bs 8 4, tensor := leAt bs 12 4,
    base := leAt bs 16 6, site := leAt bs 24 4, stride := leAt bs 28 4 }

/-- The 32 random bits of an index and a site (R137). -/
def rndBits (d : Srd) (index site : Nat) : Nat :=
  let g : W64 := 0x9E3779B97F4A7C15#64
  let h := mix64 (d.seed + BitVec.ofNat 64 d.step * g)
  let h := mix64 (h + BitVec.ofNat 64 d.tensor * g)
  let h := mix64 (h + BitVec.ofNat 64 index * g)
  let h := mix64 (h + BitVec.ofNat 64 site * g)
  (h >>> 32).toNat

/-- fma: a × b + c rounded once (R122). -/
def fma32 (a b c : BitVec 32) : BitVec 32 := rne32 (((val32 a).mul (val32 b)).add (val32 c))

/-- The binary32 sum, one rounding. -/
def add32 (a b : BitVec 32) : BitVec 32 := rne32 ((val32 a).add (val32 b))

/-- The binary32 difference, one rounding. -/
def sub32 (a b : BitVec 32) : BitVec 32 := rne32 ((val32 a).add (val32 b).neg)

/-- The binary32 product, one rounding. -/
def mul32 (a b : BitVec 32) : BitVec 32 := rne32 ((val32 a).mul (val32 b))

/-- A quotient of naturals, scaled by 2^128, with a sticky last bit, as a dyadic that rounds as the quotient does. -/
def stickyQuot (a b : Nat) : Nat :=
  let n := a * 2 ^ 128
  2 * (n / b) + (if n % b = 0 then 0 else 1)

/-- 1 ÷ x, correctly rounded; ±0 gives ±inf, ±inf gives ±0 (R132). -/
def recip32 (x : BitVec 32) : BitVec 32 :=
  match val32 x with
  | .nan => rne32 .nan
  | .inf s => rne32 (.fin s 0 0)
  | .fin s m e => if m = 0 then rne32 (.inf s) else rne32 (.fin s (stickyQuot 1 m) (-129 - e))

/-- The integer square root of `x` from bit `k` down, added to `r`. -/
def isqrtGo (x : Nat) : Nat → Nat → Nat
  | 0, r => r
  | k + 1, r =>
    let t := r + 2 ^ k
    isqrtGo x k (if t * t ≤ x then t else r)

/-- The integer square root of a number below 2^(2·96). -/
def isqrt (x : Nat) : Nat := isqrtGo x 96 0

/-- 1 ÷ √x, correctly rounded; ±0 gives +inf, +inf gives +0, x < 0 gives NaN (R132). -/
def rsqrt32 (x : BitVec 32) : BitVec 32 :=
  match val32 x with
  | .nan => rne32 .nan
  | .inf s => if s then rne32 .nan else rne32 .zero
  | .fin s m e =>
    if m = 0 then rne32 (.inf false)
    else if s then rne32 .nan
    else
      -- 1/√(m·2^e) = √(2^(2k) / (m·2^b)) · 2^(−k − (e−b)/2), with e − b even
      let b := (e % 2).toNat
      let d := m * 2 ^ b
      let n := 2 ^ 160 / d
      let q := isqrt n
      let exactRoot := q * q * d == 2 ^ 160
      rne32 (.fin false (2 * q + (if exactRoot then 0 else 1)) (-81 - (e - b) / 2))

/-- log2 e, nearest binary32 (R129). -/
def cLog2e : BitVec 32 := 0x3FB8AA3B#32
/-- LN2_HI (R115, R129). -/
def cLn2Hi : BitVec 32 := 0x3F317218#32
/-- LN2_LO, the binary32 nearest ln 2 − LN2_HI (R129). -/
def cLn2Lo : BitVec 32 := 0xB102E308#32
/-- The coefficients c5 down to c0 of exp_ref, nearest 1/k! (R129). -/
def cExp : List (BitVec 32) :=
  [0x3C088889#32, 0x3D2AAAAB#32, 0x3E2AAAAB#32, 0x3F000000#32, 0x3F800000#32, 0x3F800000#32]
/-- The binary32 1.0. -/
def cOne : BitVec 32 := 0x3F800000#32
/-- Nearest √(2/π) (R129). -/
def cCg : BitVec 32 := 0x3F4C422A#32
/-- Nearest 0.044715 (R129). -/
def cKg : BitVec 32 := 0x3D372713#32
/-- Nearest 0.134145 (R129). -/
def cK3 : BitVec 32 := 0x3E095D4F#32

/-- The binary32 with its sign turned round. -/
def neg32 (x : BitVec 32) : BitVec 32 := x ^^^ 0x80000000#32

/-- exp_ref (R129). -/
def expRef (x : BitVec 32) : BitVec 32 :=
  let v := val32 x
  if v.isNan then rne32 .nan
  else if 0 ≤ v.cmp (.ofInt 89) then rne32 (.inf false)
  else if v.cmp (.ofInt (-104)) ≤ 0 then rne32 .zero
  else
    let n := rneInt (val32 (mul32 x cLog2e))
    let nn := rne32 (.ofInt (-n))
    let r := fma32 nn cLn2Hi x
    let r := fma32 nn cLn2Lo r
    let p := cExp.foldl (fun p c => fma32 p r c) 0x3AB60B61#32
    rne32 ((val32 p).scale n)

/-- sig: 1 ÷ (1 + exp_ref(−x)), a correctly rounded quotient (R129). -/
def sig32 (x : BitVec 32) : BitVec 32 := recip32 (add32 cOne (expRef (neg32 x)))

/-- deriv: the derivative functions of the DERIV drain (R78, R129); functions 0x5 to 0xF are invalid and give +0. -/
def deriv32 (dfn : Nat) (z : BitVec 32) : BitVec 32 :=
  let two : FVal := .ofInt 2
  match dfn with
  | 0 => if !(val32 z).isNan && (val32 z).cmp .zero == 1 then cOne else 0#32
  | 1 => let s := sig32 z; mul32 s (sub32 cOne s)
  | 2 =>
    let s := sig32 (rne32 (two.mul (val32 z)))
    let w := mul32 s (sub32 cOne s)
    rne32 ((FVal.ofInt 4).mul (val32 w))
  | 3 => let s := sig32 z; let v := fma32 z (sub32 cOne s) cOne; mul32 s v
  | 4 =>
    let z2 := mul32 z z
    let a := mul32 cCg (fma32 (mul32 cKg z2) z z)
    let s := sig32 (rne32 (two.mul (val32 a)))
    let w := mul32 s (sub32 cOne s)
    let d := fma32 cK3 z2 cOne
    fma32 (rne32 (two.mul (val32 (mul32 z w)))) (mul32 cCg d) s
  | _ => 0#32

/-- The marker of a non-finite FX64 element (R95). -/
def fxNonfin : Int := -(2 ^ 63)

/-- The upper limit of FX64 arithmetic; the lower is its negative (R95). -/
def fxMax : Int := 2 ^ 63 - 1

/-- An exact integer brought to the limits of R95. -/
def fxSat (t : Int) : Int := if t > fxMax then fxMax else if t < -fxMax then -fxMax else t

/-- The FX64 integer of a 64-bit word. -/
def fxOf (x : W64) : Int := x.toInt

/-- The 64-bit word of an FX64 integer. -/
def fxTo (x : Int) : W64 := BitVec.ofInt 64 x

/-- add_fx, of VRED and VADDX (R131). -/
def addFx (a b : W64) : W64 :=
  if fxOf a = fxNonfin ∨ fxOf b = fxNonfin then fxTo fxNonfin else fxTo (fxSat (fxOf a + fxOf b))

/-- sat_add: a sticky saturating addition (R124). -/
def satAddFx (acc c : Int) (sat : Bool) : Int × Bool :=
  if sat then (acc, true)
  else
    let t := acc + c
    if t > fxMax then (fxMax, true) else if t < -fxMax then (-fxMax, true) else (t, false)

end Sys2Proof.Machine
end

