-- ==== Sys2Proof/Machine/Quant.lean ====
section
/-!
DEFINITION. Codebooks (R96 to R98), group exponent entries (R99), the quantiser (R109 to R113) and its gradients (R115,
R135), as functions of values: the instructions that use them read and write state elsewhere.
-/

namespace Sys2Proof.Machine

/-- Lane `i` of a register of elements of `b` bits (R29). -/
def lane (b : Nat) (v : VReg) (i : Nat) : Nat := (v.toNat >>> (b * i)) % 2 ^ b

/-- The number whose lanes of `b` bits are the elements of a list. -/
def lanesNat (b : Nat) : List Nat → Nat
  | [] => 0
  | x :: xs => x % 2 ^ b + 2 ^ b * lanesNat b xs

/-- The register whose lanes of `b` bits are the elements of a list; missing lanes are zero. -/
def ofLanes (b : Nat) (l : List Nat) : VReg := BitVec.ofNat 8192 (lanesNat b l)

/-- All lanes of a register in a format. -/
def lanes (f : Nat) (v : VReg) : List Nat := (List.range (fmtLanes f)).map (lane (fmtBits f) v)

/-- A register with the `n` bytes from byte `off` on replaced by a number. -/
def putBytes (v : VReg) (off n x : Nat) : VReg := setFld v (8 * off) (8 * n) x

/-- The register 1,024 bytes spell. -/
def vregOf (bs : List Byte) : VReg := BitVec.ofNat 8192 (leNat bs)

/-- The signed reading of a code of a codebook format: 4 bits for C4, 8 bits else (R96). -/
def signedCode (f code : Nat) : Int := sext (fmtBits f) code

/-- Whether a slot of a kind serves operands of a format; identity serves every format (R98). -/
def kindFits (f : Nat) : CbKind → Bool
  | .identity => true
  | .c4 => f == 5
  | .c8 => f == 4

/-- The level of a code of format C4, C8 or I8 in a slot: I8 and a slot of the other kind use the identity levels
(R96, R98). -/
def levelOf (f : Nat) (slot : CbSlot) (code : Nat) : Int :=
  match slot.kind with
  | .identity => signedCode f code
  | k => if f = 6 ∨ !kindFits f k then signedCode f code else (getD slot.levels code 0#16).toInt

/-- Whether an operand of format C4 or C8 meets a slot of the other kind (R98). -/
def kindMismatch (f : Nat) (slot : CbSlot) : Bool := (f == 4 || f == 5) && !kindFits f slot.kind

/-- The codes of a format with their levels, in the order of the codes read as signed integers (R97). -/
def codeLevels (f : Nat) (slot : CbSlot) : List (Nat × Int) :=
  let n := 2 ^ fmtBits f
  (List.range n).map (fun i => let c := (i + n / 2) % n; (c, levelOf f slot c))

/-- Byte 0 to 575 of the record form of a slot (R97): an identity slot has KIND 0. -/
def recordOf (s : CbSlot) : List Byte :=
  let kind := match s.kind with
    | .identity => 0 | .c4 => 1 | .c8 => 2
  [BitVec.ofNat 8 kind, 0#8] ++ leBytes 2 s.tag.toNat ++ List.replicate 60 0#8 ++
    (List.range 256).flatMap (fun i => leBytes 2 (getD s.levels i 0#16).toNat)

/-- The slot a record holds, where every condition of R97 is met. -/
def slotOfRecord (bs : List Byte) : Option CbSlot :=
  let kind := leAt bs 0 1
  let f := if kind = 1 then fC4 else fC8
  let used := if kind = 1 then 16 else 256
  let lv := (List.range 256).map (fun i => BitVec.ofNat 16 (leAt bs (64 + 2 * i) 2))
  let slot : CbSlot := { kind := if kind = 1 then .c4 else .c8, levels := lv, tag := BitVec.ofNat 16 (leAt bs 2 2) }
  let order := (codeLevels f slot).map (·.2)
  let lo : Int := if kind = 1 then -128 else -256
  let hi : Int := if kind = 1 then 127 else 255
  let ok := (kind == 1 || kind == 2) && leAt bs 1 1 == 0 && leAt bs 4 60 == 0 &&
    order.all (fun l => decide (lo ≤ l) && decide (l ≤ hi)) && (lv.drop used).all (fun l => l == 0#16) &&
    (order.zip (order.drop 1)).all (fun p => decide (p.1 < p.2)) && (order.filter (fun l => l == 0)).length == 1
  if ok then some slot else none

/-- The slot a saved record holds: KIND 0 is identity (R96, R258). -/
def slotOfSaved (bs : List Byte) : CbSlot := (slotOfRecord bs).getD { tag := BitVec.ofNat 16 (leAt bs 2 2) }

/-! ### Group exponent entries (R99) -/

/-- E8 of an entry. -/
def entE (e : Nat) : Int := sext 8 (nfld e 0 8)
/-- CBSEL of an entry. -/
def entCb (e : Nat) : Nat := nfld e 8 3
/-- An entry from its fields (R99). -/
def mkEntry (e : Int) (cbsel : Nat) (ovf down zero : Bool) : Nat := ofInt 8 e + 2 ^ 8 * cbsel + entryFlags ovf down zero

/-! ### The quantiser -/

/-- The greatest level of a codebook destination. -/
def levMax (cl : List (Nat × Int)) : Int := ((cl.getLast?).map (·.2)).getD 0
/-- The least level of a codebook destination. -/
def levMin (cl : List (Nat × Int)) : Int := ((cl.head?).map (·.2)).getD 0

/-- The code whose level lies nearest t · 2^e, ties to the code that is even read as a signed integer (R110). -/
def nearestCode (f : Nat) (cl : List (Nat × Int)) (t : Int) (e : Int) : Nat :=
  let sc : Int := if 0 ≤ e then 1 else ((2 ^ (-e).toNat : Nat) : Int)
  let tt : Int := if 0 ≤ e then t * ((2 ^ e.toNat : Nat) : Int) else t
  let best := cl.foldl (fun (b : Option (Nat × Nat)) p =>
    let d := (tt - p.2 * sc).natAbs
    match b with
    | none => some (p.1, d)
    | some (c, d0) => if d < d0 ∨ (d = d0 ∧ (signedCode f p.1) % 2 = 0 ∧ (signedCode f c) % 2 ≠ 0) then some (p.1, d)
                      else some (c, d0)) none
  (best.map (·.1)).getD 0

/-- Comparison of t · 2^e with an integer: −1, 0 or 1. -/
def cmpScaled (t e l : Int) : Int := (FVal.fin (decide (t < 0)) t.natAbs e).cmp (.ofInt l)

/-- The largest magnitude of an FP8 format as a value (R92). -/
def fp8Max (f : Nat) : FVal := if f = 2 then .fin false 448 0 else .fin false 57344 0

/-- Conversion into an FP8 format (R93). -/
def rneFp8 (f : Nat) (nanCode : Byte) (v : FVal) : Nat := if f = 2 then (rneE4M3 nanCode v).toNat else (rneE5M2 v).toNat

/-- The value of an FP8 code (R92). -/
def fp8Val (f code : Nat) : FVal := if f = 2 then valE4M3 (BitVec.ofNat 8 code) else valE5M2 (BitVec.ofNat 8 code)

/-- t = x · 2^(−E) + z of R110, exactly, as an integer and an exponent of two. -/
def quantT (x : FVal) (E z : Int) : Int × Int :=
  match (x.scale (-E)).add (.ofInt z) with
  | .fin s m e => ((if s then -(m : Int) else m), e)
  | _ => (0, 0)

/-- The code of one element and whether it saturates (R110, R113). `cl` are the codes and levels of a codebook
destination. -/
def quantOne (f : Nat) (cl : List (Nat × Int)) (x : FVal) (E z : Int) : Nat × Bool :=
  if isFp8 f then
    match x with
    | .nan => (0, false)
    | .inf _ => (rneFp8 f 0#8 x, true)
    | .fin .. =>
      let t := x.scale (-E)
      (rneFp8 f 0#8 t, decide (0 < (FVal.fin false t.signedM.natAbs (match t with | .fin _ _ e => e | _ => 0)).cmp (fp8Max f)))
  else
    match x with
    | .nan => (nearestCode f cl z 0, false)
    | .inf s => (if s then ((cl.head?).map (·.1)).getD 0 else ((cl.getLast?).map (·.1)).getD 0, true)
    | .fin .. =>
      let (t, e) := quantT x E z
      (nearestCode f cl t e, cmpScaled t e (levMax cl) == 1 || cmpScaled t e (levMin cl) == -1)

/-- Whether a code represents zero: the level equal to z, or ±0 (R110, R112). -/
def zeroCode (f : Nat) (cl : List (Nat × Int)) (z : Int) (code : Nat) : Bool :=
  if isFp8 f then (fp8Val f code).isZero else ((cl.find? (fun p => p.1 == code)).map (·.2)) == some z

/-- Whether every finite element fits under exponent E (R111). -/
def fitsE (f : Nat) (cl : List (Nat × Int)) (xs : List FVal) (E : Int) : Bool :=
  xs.all (fun x =>
    if isFp8 f then
      match x with
      | .fin _ m e => decide ((FVal.fin false m (e - E)).cmp (fp8Max f) ≤ 0)
      | _ => true
    else
      match x with
      | .fin s m e => decide ((FVal.fin s m (e - E)).cmp (.ofInt (levMax cl)) ≤ 0) &&
                      decide (0 ≤ (FVal.fin s m (e - E)).cmp (.ofInt (levMin cl)))
      | _ => true)

/-- The exponent MAXABS derives: the smallest that fits, 127 when none does (R111). -/
def maxabsE (f : Nat) (cl : List (Nat × Int)) (xs : List FVal) : Int :=
  (((List.range 256).map (fun (i : Nat) => (i : Int) - 128)).find? (fitsE f cl xs)).getD 127

/-- What the quantiser makes of one group (R110 to R113). -/
structure QGroup where
  codes : List Nat
  entry : Nat
  sat : Nat
  ufl : Nat
  nonfin : Nat
deriving DecidableEq, Repr

/-- One group quantised: its codes, its entry written back, and its counts. -/
def quantGroup (f : Nat) (cl : List (Nat × Int)) (xs : List FVal) (entry : Nat) (z : Int) (maxabs autoDown : Bool) :
    QGroup :=
  let fin := xs.filter FVal.isFin
  let nz := fin.filter (fun x => !x.isZero)
  let E := if maxabs && !nz.isEmpty then maxabsE f cl fin else entE entry
  let rs := xs.map (fun x => quantOne f cl x E z)
  let sat := (rs.filter (·.2)).length
  let ufl := ((xs.zip rs).filter (fun p => p.1.isFin && !p.1.isZero && zeroCode f cl z p.2.1)).length
  let nonfin := xs.length - fin.length
  let allZero := nz.isEmpty && nonfin == 0
  let collapsed := !nz.isEmpty && rs.all (fun r => zeroCode f cl z r.1)
  { codes := rs.map (·.1)
    entry := mkEntry E (entCb entry) (decide (0 < sat) && !allZero) (collapsed && autoDown) allZero
    sat := if allZero then 0 else sat
    ufl := ufl
    nonfin := nonfin }

/-- The gradient VSTE writes for one element (R115, R135): `out` chooses ds over dx. -/
def steOne (f : Nat) (cl : List (Nat × Int)) (x g : BitVec 32) (E z : Int) (out : Bool) : BitVec 32 :=
  match val32 x with
  | .fin s m e =>
    let xv := FVal.fin s m e
    let (code, sat) := quantOne f cl xv E z
    if !out then (if sat then 0#32 else g)
    else
      let lz : FVal := if isFp8 f then fp8Val f code
        else .ofInt (((cl.find? (fun p => p.1 == code)).map (·.2)).getD 0 - z)
      let q := rne32 (lz.scale E)
      let gl := mul32 g cLn2Hi
      if sat then mul32 gl q else mul32 gl (sub32 q x)
  | _ => 0#32

end Sys2Proof.Machine
end

