-- ==== Sys2Proof/Machine/Vector.lean ====
section
/-!
DEFINITION. The vector engine (R40, R96 to R98, R109 to R118, R129 to R138, R142): what a VOP does when it starts. The
commands that issue one stand in VectorCmds.lean.
-/

namespace Sys2Proof.Machine

/-- The NaN code that an instruction word writes for its operand lanes in E4M3 (R93 leaves one of two). -/
def e4m3Nan (w : W128) (a b : Nat) : Byte := if Config.e4m3NanSign w a b then 0xFF#8 else 0x7F#8

/-- The exact value of a lane of a floating-point or integer format; none for codebook codes and FX64. -/
def laneVal (f x : Nat) : Option FVal :=
  match f with
  | 0 => some (val32 (BitVec.ofNat 32 x))
  | 1 => some (val16 (BitVec.ofNat 16 x))
  | 2 => some (valE4M3 (BitVec.ofNat 8 x))
  | 3 => some (valE5M2 (BitVec.ofNat 8 x))
  | 6 => some (.ofInt (sext 8 x))
  | 7 => some (.ofInt (sext 32 x))
  | _ => none

/-- An integer brought to the limits of an n-bit format and coded. -/
def satInt (n : Nat) (x : Int) : Nat := ofInt n (max (-(2 ^ (n - 1))) (min (2 ^ (n - 1) - 1) x))

/-- A value converted into a format with nearest-even rounding (R93, R132); integers saturate and take a NaN as 0; FX64
saturates at its own limits and marks what is not finite (R95). -/
def intoFmt (f : Nat) (nan8 : Byte) (v : FVal) : Nat :=
  match f with
  | 0 => (rne32 v).toNat
  | 1 => (rne16 v).toNat
  | 2 => (rneE4M3 nan8 v).toNat
  | 3 => (rneE5M2 v).toNat
  | 8 =>
    match v with
    | .fin .. => ofInt 64 (fxSat (rneInt v))
    | _ => 2 ^ 63
  | n =>
    let w := fmtBits n
    match v with
    | .nan => 0
    | .inf s => satInt w (if s then -(2 ^ w) else 2 ^ w)
    | v => satInt w (rneInt v)

/-- The NaN a format is written with; only formats with a NaN are asked. -/
def nanOf (f : Nat) (nan8 : Byte) : Nat := intoFmt f nan8 .nan

/-- Addition, subtraction or multiplication of one lane, 0, 1 or 2, with the random bits of stochastic rounding where
chosen, into the FP8 formats under R93. An FX64 result beyond the limits of R95, one of a non-finite element and one of
a codebook code are unstated (R130). -/
def arithLane (kind f a b : Nat) (nan8 : Byte) (rnd : Option Nat) : Option Nat :=
  let comb (x y : FVal) : FVal := match kind with
    | 0 => x.add y | 1 => x.add y.neg | _ => x.mul y
  match f with
  | 0 =>
    let r := comb (val32 (BitVec.ofNat 32 a)) (val32 (BitVec.ofNat 32 b))
    some (match rnd with
      | some d => (sr32 r d).toNat
      | none => (rne32 r).toNat)
  | 1 => some (rne16 (comb (val16 (BitVec.ofNat 16 a)) (val16 (BitVec.ofNat 16 b)))).toNat
  | 6 => some (match kind with
    | 0 => satInt 8 (sext 8 a + sext 8 b) | 1 => satInt 8 (sext 8 a - sext 8 b) | _ => a * b % 2 ^ 8)
  | 7 => some (match kind with
    | 0 => satInt 32 (sext 32 a + sext 32 b) | 1 => satInt 32 (sext 32 a - sext 32 b) | _ => a * b % 2 ^ 32)
  | 2 => some (rneE4M3 nan8 (comb (valE4M3 (BitVec.ofNat 8 a)) (valE4M3 (BitVec.ofNat 8 b)))).toNat
  | 3 => some (rneE5M2 (comb (valE5M2 (BitVec.ofNat 8 a)) (valE5M2 (BitVec.ofNat 8 b)))).toNat
  | 8 =>
    let r := match kind with
      | 0 => sext 64 a + sext 64 b | 1 => sext 64 a - sext 64 b | _ => sext 64 a * sext 64 b
    if a ≠ 2 ^ 63 ∧ b ≠ 2 ^ 63 ∧ -(2 ^ 63 - 1) ≤ r ∧ r ≤ 2 ^ 63 - 1 then some (ofInt 64 r) else none
  | _ => none

/-- VA × VB + VC of one lane with one rounding, into the FP8 formats under R93; an integer result beyond its format, a
non-finite FX64 element and a codebook code are unstated (R130). -/
def fmaLane (f a b d : Nat) (nan8 : Byte) (rnd : Option Nat) : Option Nat :=
  match f with
  | 0 =>
    let r := ((val32 (BitVec.ofNat 32 a)).mul (val32 (BitVec.ofNat 32 b))).add (val32 (BitVec.ofNat 32 d))
    some (match rnd with
      | some x => (sr32 r x).toNat
      | none => (rne32 r).toNat)
  | 1 => some (rne16 (((val16 (BitVec.ofNat 16 a)).mul (val16 (BitVec.ofNat 16 b))).add (val16 (BitVec.ofNat 16 d)))).toNat
  | 6 =>
    let r := sext 8 a * sext 8 b + sext 8 d
    if -(2 ^ 7) ≤ r ∧ r ≤ 2 ^ 7 - 1 then some (ofInt 8 r) else none
  | 7 =>
    let r := sext 32 a * sext 32 b + sext 32 d
    if -(2 ^ 31) ≤ r ∧ r ≤ 2 ^ 31 - 1 then some (ofInt 32 r) else none
  | 2 =>
    let v (x : Nat) : FVal := valE4M3 (BitVec.ofNat 8 x)
    some (rneE4M3 nan8 (((v a).mul (v b)).add (v d))).toNat
  | 3 =>
    let v (x : Nat) : FVal := valE5M2 (BitVec.ofNat 8 x)
    some (rneE5M2 (((v a).mul (v b)).add (v d))).toNat
  | 8 =>
    let r := sext 64 a * sext 64 b + sext 64 d
    if a ≠ 2 ^ 63 ∧ b ≠ 2 ^ 63 ∧ d ≠ 2 ^ 63 ∧ -(2 ^ 63 - 1) ≤ r ∧ r ≤ 2 ^ 63 - 1 then some (ofInt 64 r) else none
  | _ => none

/-- Whether `x` is ordered below `y`: as values, with −0 below +0 (R130). -/
def ltVal (x y : FVal) : Bool := x.cmp y == -1 || (x.isZero && y.isZero && x.sign && !y.sign)

/-- The maximum or minimum of one lane: a NaN where either input is one (R130); unstated for codebook codes and for a
non-finite FX64 element. -/
def maxLane (isMax : Bool) (f a b : Nat) (nan8 : Byte) : Option Nat :=
  match laneVal f a, laneVal f b with
  | some x, some y =>
    if x.isNan || y.isNan then some (nanOf f nan8)
    else some (if ltVal x y = isMax then b else a)
  | _, _ =>
    if f = 8 ∧ a ≠ 2 ^ 63 ∧ b ≠ 2 ^ 63 then some (if decide (sext 64 a < sext 64 b) = isMax then b else a) else none

/-- The free value of an unstated lane, from the word and the operand lanes alone (R122). In FX64 it is not the code of a
non-finite element where no operand is one (R95). -/
def veFree (w : W128) (a b d : Nat) : Nat :=
  let x := Config.veOpen w a b d
  if vFmt w = 8 ∧ x % 2 ^ 64 = 2 ^ 63 ∧ a ≠ 2 ^ 63 ∧ b ≠ 2 ^ 63 ∧ d ≠ 2 ^ 63 then 2 ^ 63 + 1 else x

/-- A register of lanes, an unstated lane taken from the free values of the word for its operand lanes; `vc` is the third
operand of VFMA, zero for an operation without one. -/
def laneReg (w : W128) (va vb vc : VReg) (g : Nat → Option Nat) : VReg :=
  let b := fmtBits (vFmt w)
  ofLanes b ((List.range (fmtLanes (vFmt w))).map (fun i => (g i).getD (veFree w (lane b va i) (lane b vb i) (lane b vc i))))

/-- Whether a lane of VC selects VA: its element is not zero as a value of the format (R40). -/
def selLane (f x : Nat) : Bool :=
  match f with
  | 0 => x % 2 ^ 31 != 0
  | 1 => x % 2 ^ 15 != 0
  | 2 => x % 2 ^ 7 != 0
  | 3 => x % 2 ^ 7 != 0
  | _ => x != 0

/-- The halving tree of VRED over a list (R131), with `fuel` at least the list's length in halvings. -/
def foldTree {α : Type} (add : α → α → α) (z : α) : Nat → List α → α
  | 0, l => (l.head?).getD z
  | fuel + 1, l =>
    match l with
    | [] => z
    | [x] => x
    | l =>
      let h := l.length / 2
      foldTree add z fuel (List.zipWith add (l.take h) (l.drop h))

/-- The result of VRED: a binary32 or an FX64 (R131). -/
def vredVal (f : Nat) (v : VReg) : Nat :=
  match f with
  | 8 => (foldTree addFx 0#64 16 ((lanes 8 v).map (BitVec.ofNat 64))).toNat
  | 1 => (foldTree add32 0#32 16 ((lanes 1 v).map (fun x => rne32 (val16 (BitVec.ofNat 16 x))))).toNat
  | _ => (foldTree add32 0#32 16 ((lanes 0 v).map (BitVec.ofNat 32))).toNat

/-- One level of the Hadamard butterfly at distance h (R134). -/
def hadLevel (h : Nat) (l : List (BitVec 32)) : List (BitVec 32) :=
  (List.range l.length).map (fun i =>
    if (i / h) % 2 = 0 then add32 (getD l i 0#32) (getD l (i + h) 0#32)
    else sub32 (getD l (i - h) 0#32) (getD l i 0#32))

/-- A block Hadamard rotation with its scaling by 2^(−a) (R116, R134). -/
def hadBlock (n a : Nat) (l : List (BitVec 32)) : List (BitVec 32) :=
  let hs := [1, 2, 4, 8, 16, 32, 64].filter (fun h => h < n)
  (hs.foldl (fun l h => hadLevel h l) l).map (fun x => rne32 ((val32 x).scale (-(a : Int))))

/-- The bin of VHIST (R142). -/
def histBin (f x : Nat) (base : Int) : Nat :=
  let mb := if f = 0 then 23 else 7
  let ex := nfld x mb 8
  if ex = 255 then 63
  else if ex = 0 then 0
  else (min (max ((ex : Int) - 127 - base + 1) 0) 63).toNat

/-- A conversion of VCVT between lanes (R132): the lane of VA a lane of VD takes, none where VD keeps its own. -/
def cvtSource (fs fd place i : Nat) : Option Nat :=
  let ns := fmtLanes fs
  let nd := fmtLanes fd
  if ns ≤ nd then (if place * ns ≤ i ∧ i < place * ns + ns then some (i - place * ns) else none)
  else some (place * nd + i)

/-- The result of VCVT (R132). -/
def cvtReg (w : W128) (va vd : VReg) : VReg :=
  match vAux w with
  | 1 => ofLanes 32 ((lanes 0 va).map (fun x => (recip32 (BitVec.ofNat 32 x)).toNat))
  | 2 => ofLanes 32 ((lanes 0 va).map (fun x => (rsqrt32 (BitVec.ofNat 32 x)).toNat))
  | 3 => ofLanes 32 ((lanes 0 va).map (fun x => (expRef (BitVec.ofNat 32 x)).toNat))
  | _ =>
    let fs := vFmt w
    let fd := vFmt2 w
    let place := if fmtLanes fs = fmtLanes fd then 0 else fld w 64 3
    ofLanes (fmtBits fd) ((List.range (fmtLanes fd)).map (fun i =>
      match cvtSource fs fd place i with
      | none => lane (fmtBits fd) vd i
      | some j =>
        let x := lane (fmtBits fs) va j
        intoFmt fd (e4m3Nan w x 0) ((laneVal fs x).getD .nan)))

/-- The result of VFIX with scale k (R133). -/
def fixReg (w : W128) (va vd : VReg) (k : Int) : VReg :=
  let h := fld w 64 1
  if vFmt w = 8 then
    ofLanes 32 ((List.range 256).map (fun i =>
      if 128 * h ≤ i ∧ i < 128 * h + 128 then
        let x := lane 64 va (i - 128 * h)
        if x = 2 ^ 63 then (rne32 .nan).toNat else (rne32 ((FVal.ofInt (sext 64 x)).scale k)).toNat
      else lane 32 vd i))
  else
    ofLanes 64 ((List.range 128).map (fun i =>
      match val32 (BitVec.ofNat 32 (lane 32 va (128 * h + i))) with
      | .fin s m e => ofInt 64 (fxSat (rneInt (.fin s m (e - k))))
      | _ => 2 ^ 63))

/-- One lane dequantised exactly: 2^E × (L − z), with L the level of a code or the value of the element (R92, R98,
R115), into the destination format. -/
def deqLane (w : W128) (slot : CbSlot) (x : Nat) (e z : Int) : Nat :=
  let f := vFmt w
  let v : FVal :=
    if f = 4 ∨ f = 5 ∨ f = 6 then .ofInt (levelOf f slot x - z)
    else if f = 8 then (if x = 2 ^ 63 then .nan else .ofInt (sext 64 x - z))
    else
      let y := (laneVal f x).getD .nan
      if z = 0 then y else y.add (FVal.ofInt (-z))
  intoFmt (vFmt2 w) (e4m3Nan w x 0) (v.scale e)

/-! ### The effect of a VOP -/

/-- How a VOP ends: with a write of a scalar register still to come, or in a fault halt. -/
inductive VeEnd where
  | done (sd : Option (Nat × W64))
  | fault
deriving DecidableEq, Repr

/-- A V register of a core. -/
def vget (s : State) (c : CoreId) (i : Nat) : VReg :=
  match fin? 64 i with
  | some j => (s.core c).vreg[j]
  | none => 0#8192

/-- Writing a V register of a core. -/
def vset (s : State) (c : CoreId) (i : Nat) (v : VReg) : State :=
  match fin? 64 i with
  | some j => s.setCore c { s.core c with vreg := (s.core c).vreg.set j v }
  | none => s

/-- A codebook slot of a core. -/
def cbGet (s : State) (c : CoreId) (i : Nat) : CbSlot := (s.core c).cbs[(⟨i % 16, Nat.mod_lt _ (by decide)⟩ : Fin 16)]

/-- The vector engine's access fault: SCALAR_ACCESS_FAULT, halt status 0xF004 (R40, R61). -/
def veBad (s : State) (c : CoreId) (e : Entry) (off : Nat) : State × VeEnd :=
  (s.raiseIf true 0x1007 c 0 (s.jobOf c) e.pc off, .fault)

/-- A scratchpad read of a VOP: alignment and range, then the checks of `spRead`; the bytes, or none on a fault. -/
def veRead (s : State) (c : CoreId) (e : Entry) (off align len : Nat) : State × Option (List Byte) :=
  if off % align ≠ 0 ∨ spSize < off + len then
    (s.raiseIf true 0x1007 c 0 (s.jobOf c) e.pc off, none)
  else
    let bs := spBytes s c off len
    match spRead s c (s.jobOf c) off len with
    | (s, some _) => (s, none)
    | (s, none) => (s, some bs)

/-- A scratchpad write of a VOP. -/
def veWrite (s : State) (c : CoreId) (off : Nat) (bs : List Byte) : State × VeEnd :=
  match spWrite s c (s.jobOf c) off bs with
  | (s, some _) => (s, .fault)
  | (s, none) => (s, .done none)

/-- A numerics event of core `c`, with the counter set or slot and the instruction index (R121, R385). -/
def numEv (s : State) (c : CoreId) (code a0 pc : Nat) : State := s.raise code c 0 (s.jobOf c) a0 pc

/-- The base of a VE operand in the scratchpad: SA + IMM (R40). -/
def veOff (e : Entry) : Nat := (snapGet e.s (vSa e.word) + fImm e.word).toNat

/-- SA + IMM[23:0] (R109, R142). -/
def veOfs (e : Entry) : Nat := (snapGet e.s (vSa e.word) + BitVec.ofNat 64 (qOfs e.word)).toNat

/-- The stochastic-rounding descriptor of a VOP with AUX[0] = 1 (R138): none where it names none; a fault where it
cannot be read. -/
def veSrd (s : State) (c : CoreId) (e : Entry) : State × Option (Option Srd) :=
  if vAux e.word % 2 = 1 then
    match veRead s c e (veOff e) 32 32 with
    | (s, some bs) => (s, some (some (srdOf bs)))
    | (s, none) => (s, none)
  else (s, some none)

/-- The random bits of a lane (R138). -/
def laneRnd (d : Option Srd) (i : Nat) : Option Nat := d.map (fun d => rndBits d (d.base + i) d.site)

/-- VADD, VSUB, VMUL and VFMA (R130). -/
def veArith (s : State) (c : CoreId) (e : Entry) (kind : Nat) : State × VeEnd :=
  let w := e.word
  match (if kind = 2 then (s, some none) else veSrd s c e) with
  | (s, none) => (s, .fault)
  | (s, some d) =>
    let f := vFmt w
    let b := fmtBits f
    let va := vget s c (vVa w)
    let vb := vget s c (vVb w)
    let vc := if kind = 3 then vget s c (vVc w) else 0#8192
    let r := laneReg w va vb vc (fun i =>
      if kind = 3 then
        fmaLane f (lane b va i) (lane b vb i) (lane b vc i) (e4m3Nan w (lane b va i) (lane b vb i)) (laneRnd d i)
      else arithLane kind f (lane b va i) (lane b vb i) (e4m3Nan w (lane b va i) (lane b vb i)) (laneRnd d i))
    (vset s c (vVd w) r, .done none)

/-- VMAX and VMIN (R130). -/
def veMax (s : State) (c : CoreId) (e : Entry) (isMax : Bool) : State × VeEnd :=
  let w := e.word
  let f := vFmt w
  let b := fmtBits f
  let va := vget s c (vVa w)
  let vb := vget s c (vVb w)
  let r := laneReg w va vb 0#8192 (fun i =>
    maxLane isMax f (lane b va i) (lane b vb i) (e4m3Nan w (lane b va i) (lane b vb i)))
  (vset s c (vVd w) r, .done none)

/-- The counter set of VQUANT stepped, and its thresholds tested (R118). -/
def quantCount (s : State) (c : CoreId) (pc set sat ufl nonfin : Nat) : State :=
  let i : Fin 16 := ⟨set % 16, Nat.mod_lt _ (by decide)⟩
  let k := s.loc c
  let q := k.sets[i]
  let add (x : W64) (n : Nat) : W64 := BitVec.ofNat 64 (satAdd 64 x.toNat n)
  let q : QuantSet := { elem := add q.elem 256, sat := add q.sat sat, ufl := add q.ufl ufl, nonfin := add q.nonfin nonfin }
  let s := s.setLoc c { k with sets := k.sets.set i q }
  let thr := s.rd (coreBase c + 0x3008)
  let hit := s.rd (coreBase c + 0x3010)
  let live := decide (fld thr 32 32 ≤ q.elem.toNat)
  let s := if live ∧ thrCrossed q.sat.toNat (fld thr 0 16) q.elem.toNat ∧ !hit.getLsbD i.val then
      numEv (s.orReg (coreBase c + 0x3010) (BitVec.ofNat 64 (2 ^ i.val))) c 0x3000 i.val pc else s
  if live ∧ thrCrossed q.ufl.toNat (fld thr 16 16) q.elem.toNat ∧ !hit.getLsbD (16 + i.val) then
    numEv (s.orReg (coreBase c + 0x3010) (BitVec.ofNat 64 (2 ^ (16 + i.val)))) c 0x3001 i.val pc
  else s

/-- The elements of a group and the number of groups of VQUANT and VSTE (R109). -/
def quantGsz (w : W128) : Nat :=
  match qGsz w with
  | 0 => 256 | 1 => 32 | 2 => 64 | _ => 128

/-- The entries a list of bytes holds. -/
def entries (bs : List Byte) : List Nat := (List.range (bs.length / 2)).map (fun i => leAt bs (2 * i) 2)

/-- Whether any group of a VQUANT or VSTE meets a slot of the other kind (R98). -/
def quantMismatch (s : State) (c : CoreId) (w : W128) (es : List Nat) : Option Nat :=
  (es.map (fun e => (vAux w + entCb e) % 16)).find? (fun i => kindMismatch (vFmt2 w) (cbGet s c i))

/-- VQUANT (R109 to R113, R118). -/
def veQuant (s : State) (c : CoreId) (e : Entry) : State × VeEnd :=
  let w := e.word
  let f := vFmt2 w
  let g := quantGsz w
  let n := 256 / g
  match veRead s c e (veOfs e) 16 (2 * n) with
  | (s, none) => (s, .fault)
  | (s, some bs) =>
    let es := entries bs
    let va := vget s c (vVa w)
    let z := if qZpq w then qZp w else 0
    let down := bit (s.rd (coreBase c + 0x3000)) 0
    let xs := (lanes 0 va).map (fun x => val32 (BitVec.ofNat 32 x))
    let gs := (List.range n).map (fun i =>
      let en := getD es i 0
      quantGroup f (codeLevels f (cbGet s c (vAux w + entCb en))) ((xs.drop (g * i)).take g) en z (qEmode w) down)
    let codes := gs.flatMap (·.codes)
    let bits := fmtBits f
    let len := 256 * bits / 8
    let vd := putBytes (vget s c (vVd w)) (qPlace w * len) len (lanesNat bits codes)
    let sum (h : QGroup → Nat) : Nat := gs.foldl (fun a q => a + h q) 0
    let nonfin := sum (·.nonfin)
    match veWrite s c (veOfs e) (gs.flatMap (fun q => leBytes 2 q.entry)) with
    | (s, .fault) => (s, .fault)
    | (s, r) =>
      let s := match quantMismatch s c w es with
        | some i => numEv s c 0x3004 i e.pc
        | none => s
      let s := vset s c (vVd w) vd
      let s := if nonfin = 0 then s
        else numEv (s.orReg (coreBase c + 0x3010) (BitVec.ofNat 64 (2 ^ (32 + qCset w)))) c 0x3002 (qCset w) e.pc
      (quantCount s c e.pc (qCset w) (sum (·.sat)) (sum (·.ufl)) nonfin, r)

/-- VSTE (R115, R135). -/
def veSte (s : State) (c : CoreId) (e : Entry) : State × VeEnd :=
  let w := e.word
  let f := vFmt2 w
  let g := quantGsz w
  match veRead s c e (veOfs e) 16 (2 * (256 / g)) with
  | (s, none) => (s, .fault)
  | (s, some bs) =>
    let es := entries bs
    let va := vget s c (vVa w)
    let vb := vget s c (vVb w)
    let z := if qZpq w then qZp w else 0
    let s := match quantMismatch s c w es with
      | some i => numEv s c 0x3004 i e.pc
      | none => s
    let r := ofLanes 32 ((List.range 256).map (fun i =>
      let en := getD es (i / g) 0
      (steOne f (codeLevels f (cbGet s c (vAux w + entCb en))) (BitVec.ofNat 32 (lane 32 va i))
        (BitVec.ofNat 32 (lane 32 vb i)) (entE en) z (qOut w)).toNat))
    (vset s c (vVd w) r, .done none)

/-- VCBLD: an accepted record replaces the slot, a rejected one raises CB_INVALID (R97). -/
def veCbld (s : State) (c : CoreId) (e : Entry) : State × VeEnd :=
  match veRead s c e (veOff e) 64 576 with
  | (s, none) => (s, .fault)
  | (s, some bs) =>
    match slotOfRecord bs with
    | none => (numEv s c 0x3003 (vAux e.word) e.pc, .done none)
    | some slot =>
      let k := s.core c
      (s.setCore c { k with cbs := k.cbs.set (⟨vAux e.word % 16, Nat.mod_lt _ (by decide)⟩ : Fin 16) slot }, .done none)

/-- VHIST (R142). -/
def veHist (s : State) (c : CoreId) (e : Entry) : State × VeEnd :=
  let w := e.word
  match veRead s c e (veOfs e) 256 256 with
  | (s, none) => (s, .fault)
  | (s, some bs) =>
    let n := if fld w 96 10 = 0 then fmtLanes (vFmt w) else fld w 96 10
    let va := vget s c (vVa w)
    let bins := (List.range n).map (fun i => histBin (vFmt w) (lane (fmtBits (vFmt w)) va i) (sext 8 (fld w 88 8)))
    veWrite s c (veOfs e) ((List.range 64).flatMap (fun b =>
      leBytes 4 (satAdd 32 (leAt bs (4 * b) 4) (bins.filter (fun x => x == b)).length)))

/-- The rotation of every block of a register (R116). -/
def hadReg (n a : Nat) (v : VReg) : VReg :=
  let xs : List (BitVec 32) := (lanes 0 v).map (fun x => BitVec.ofNat 32 x)
  ofLanes 32 (((chunks n 8 xs).flatMap (fun b => hadBlock n a b)).map (fun x => x.toNat))

/-- The block size of VHAD (R116). -/
def hadSize (w : W128) : Nat :=
  match vAux w with
  | 0 => 32 | 1 => 64 | _ => 128

/-- The exponent a of VHAD (R116). -/
def hadShift (w : W128) : Nat :=
  match vAux w with
  | 0 => 3 | 1 => 3 | _ => 4

/-- VHAD (R116, R134). -/
def veHad (s : State) (c : CoreId) (e : Entry) : State × VeEnd :=
  let w := e.word
  (vset s c (vVd w) (hadReg (hadSize w) (hadShift w) (vget s c (vVa w))), .done none)

/-- VRED: the reduction to lane 0, and to SD where it is not S0 (R131). -/
def veRed (s : State) (c : CoreId) (e : Entry) : State × VeEnd :=
  let w := e.word
  let x := vredVal (vFmt w) (vget s c (vVa w))
  (vset s c (vVd w) (BitVec.ofNat 8192 x), .done (if vSd w = 0 then none else some (vSd w, BitVec.ofNat 64 x)))

/-- VMOVS: a lane of VA, sign-extended for I8 and I32 (R40). -/
def veMovs (s : State) (c : CoreId) (e : Entry) : State × VeEnd :=
  let w := e.word
  let f := vFmt w
  let x := lane (fmtBits f) (vget s c (vVa w)) (fld w 64 11)
  let v := if f = 6 ∨ f = 7 then ofInt 64 (sext (fmtBits f) x) else x
  (s, .done (if vSd w = 0 then none else some (vSd w, BitVec.ofNat 64 v)))

/-- The exponent entry that VDEQ uses for a lane of VD (R99). -/
def deqEntry (s : State) (c : CoreId) (e : Entry) (i : Nat) : Nat :=
  Config.vdeqEntry e.word (snapGet e.s (vSa e.word)) (s.loc c).sp i

/-- The register that VDEQ writes: each lane of VD from a lane of VA with its exponent, zero point and codebook slot (R92,
R98, R115, R122). -/
def deqReg (s : State) (c : CoreId) (e : Entry) : VReg :=
  let w := e.word
  let b := fmtBits (vFmt w)
  let va := vget s c (vVa w)
  ofLanes (fmtBits (vFmt2 w)) ((List.range (fmtLanes (vFmt2 w))).map (fun i =>
    let en := deqEntry s c e i
    deqLane w (cbGet s c (vAux w + entCb en)) (lane b va (Config.vdeqSource w i)) (entE en)
      (Config.vdeqZero w (snapGet e.s (vSa w)) (s.loc c).sp i)))

/-- VDEQ: VD takes the exact values of the elements of VA; a C4 or C8 element that meets a slot of the other kind raises
CB_KIND_MISMATCH (R40, R92, R98). DESIGN CHOICE, log entry 22: which lane, entry and zero point an element takes. -/
def veDeq (s : State) (c : CoreId) (e : Entry) : State × VeEnd :=
  let w := e.word
  let slots := (List.range (fmtLanes (vFmt2 w))).map (fun i => (vAux w + entCb (deqEntry s c e i)) % 16)
  let v := deqReg s c e
  let s := match slots.find? (fun i => kindMismatch (vFmt w) (cbGet s c i)) with
    | some i => numEv s c 0x3004 i e.pc
    | none => s
  (vset s c (vVd w) v, .done none)

/-- The effect of a VOP of operation `o` when it starts (R40). -/
def veDo (s : State) (c : CoreId) (e : Entry) (o : Op) : State × VeEnd :=
  let w := e.word
  match o with
  | .vld =>
    match veRead s c e (veOff e) 1024 1024 with
    | (s, none) => (s, .fault)
    | (s, some bs) => (vset s c (vVd w) (vregOf bs), .done none)
  | .vst =>
    if veOff e % 1024 ≠ 0 ∨ spSize < veOff e + 1024 then veBad s c e (veOff e)
    else veWrite s c (veOff e) (leBytes 1024 (vget s c (vVa w)).toNat)
  | .vadd => veArith s c e 0
  | .vsub => veArith s c e 1
  | .vmul => veArith s c e 2
  | .vfma => veArith s c e 3
  | .vmax => veMax s c e true
  | .vmin => veMax s c e false
  | .vcvt => (vset s c (vVd w) (cvtReg w (vget s c (vVa w)) (vget s c (vVd w))), .done none)
  | .vquant => veQuant s c e
  | .vdeq => veDeq s c e
  | .vhad => veHad s c e
  | .vred => veRed s c e
  | .vcbld => veCbld s c e
  | .vhist => veHist s c e
  | .vste => veSte s c e
  | .vfix => (vset s c (vVd w) (fixReg w (vget s c (vVa w)) (vget s c (vVd w)) (sext 8 (snapGet e.s (vSa w)).toNat)), .done none)
  | .vaddx =>
    (vset s c (vVd w) (ofLanes 64 (List.zipWith (fun a b => (addFx (BitVec.ofNat 64 a) (BitVec.ofNat 64 b)).toNat)
      (lanes 8 (vget s c (vVa w))) (lanes 8 (vget s c (vVb w))))), .done none)
  | .vsel =>
    let f := vFmt w
    let b := fmtBits f
    (vset s c (vVd w) (ofLanes b ((List.range (fmtLanes f)).map (fun i =>
      if selLane f (lane b (vget s c (vVc w)) i) then lane b (vget s c (vVa w)) i else lane b (vget s c (vVb w)) i))),
      .done none)
  | .vbcast =>
    (vset s c (vVd w) (ofLanes (fmtBits (vFmt w)) (List.replicate (fmtLanes (vFmt w)) (snapGet e.s (vSa w)).toNat)), .done none)
  | .vmovs => veMovs s c e
  | _ => (s, .done none)

/-- The instruction at the head of the VE queue starts (R48): its registers are read and written, its scratchpad
accesses made; a fault halts the core with status 0xF004. -/
def veStart (s : State) (c : CoreId) : State :=
  match (if canStart s c then qOf s c .ve else []) with
  | [] => s
  | e :: rest =>
    match decodeOp e.pc e.word with
    | none => s
    | some o =>
      let s := popHead s c .ve rest
      match veDo s c e o with
      | (s, .fault) => faultHalt s c 0xF004#16 e.pc
      | (s, .done sd) => s.setUnit c { s.unit c with ve := (s.unit c).ve ++ [{ pc := e.pc, sd := sd }] }

end Sys2Proof.Machine
end

