-- ==== Sys2Proof/Machine/MatrixUnit.lean ====
section
/-!
DEFINITION. The matrix units (R62 to R91, R100 to R108, R124 to R127, R145 to R152, R189 to R191, R455): what one pass
reads, computes and writes, its start and its completion.
-/

namespace Sys2Proof.Machine

/-! ### The pass parameter block (R67) -/

/-- AEXP, the A exponent table. -/
def pAexp (p : List Byte) : Nat := leAt p 0 4
/-- BEXP, the B exponent table. -/
def pBexp (p : List Byte) : Nat := leAt p 4 4
/-- CRT, the channel entries. -/
def pCrt (p : List Byte) : Nat := leAt p 8 4
/-- META, the sparsity metadata. -/
def pMeta (p : List Byte) : Nat := leAt p 12 4
/-- ZMAP, the zero map. -/
def pZmap (p : List Byte) : Nat := leAt p 16 4
/-- DACC, the image added at the drain. -/
def pDacc (p : List Byte) : Nat := leAt p 20 4
/-- PREACT, the pre-activation tile. -/
def pPreact (p : List Byte) : Nat := leAt p 24 4
/-- ZPTAB, the per-token zero points. -/
def pZptab (p : List Byte) : Nat := leAt p 28 4
/-- ZP, the per-tensor zero point. -/
def pZp (p : List Byte) : Int := sext 16 (leAt p 32 2)
/-- DFN. -/
def pDfn (p : List Byte) : Nat := nfld (leAt p 34 1) 0 4
/-- DOUT. -/
def pDout (p : List Byte) : Bool := (leAt p 34 1).testBit 4
/-- F32ACC. -/
def pF32acc (p : List Byte) : Bool := (leAt p 34 1).testBit 5
/-- ZPMODE. -/
def pZpmode (p : List Byte) : Nat := nfld (leAt p 34 1) 6 2
/-- DWROW. -/
def pDwrow (p : List Byte) : Nat := leAt p 35 1
/-- DWCOL. -/
def pDwcol (p : List Byte) : Nat := nfld (leAt p 36 1) 0 4
/-- SLOTCEN. -/
def pSlotcen (p : List Byte) : Bool := (leAt p 36 1).testBit 4
/-- SLOTC. -/
def pSlotc (p : List Byte) : Nat := nfld (leAt p 37 2) 0 12

/-- Whether ZPMODE selects a zero point in this pass: narrow formats only (R106, R107). -/
def zpOn (w : W128) (p : List Byte) : Bool := !isBf (mAfmt w) && (pZpmode p == 1 || pZpmode p == 2)
/-- Whether stage 2 of the drain runs (R106). -/
def zpStage (w : W128) (p : List Byte) : Bool :=
  zpOn w p && (mDrain w == 0 || mDrain w == 1 || mDrain w == 4 || mDrain w == 5 || mDrain w == 6)
/-- Whether the drain adds an FX64 image (R78). -/
def daccFx (w : W128) : Bool := mDrain w == 3 || mDrain w == 4 || mDrain w == 5
/-- Whether the drain adds an FP32 image (R78, R108). -/
def daccF32 (w : W128) (p : List Byte) : Bool := isBf (mAfmt w) && pF32acc p && (mDrain w == 0 || mDrain w == 1)
/-- Whether the pass rounds its accumulation stochastically (R126, R127). -/
def srdOn (w : W128) : Bool := isBf (mAfmt w) && decide (4096 < mLen w)
/-- Whether the pass uses its CRT entries: a narrow pass for ANCH, any pass that converts. -/
def crtOn (w : W128) : Bool := !isBf (mAfmt w) || mDrain w != 7

/-- Rows of C a pass covers (R64). -/
def mRows (w : W128) : Nat :=
  match mMode w with
  | 1 => mLen w | 2 => 32 | 5 => 16 | _ => 64
/-- Columns of C a pass covers (R64). -/
def mCols (w : W128) : Nat :=
  match mMode w with
  | 2 => mLen w | 5 => 16 | _ => 32
/-- The width of an output element in bytes (R78). -/
def outWidth (w : W128) (p : List Byte) : Nat :=
  match mDrain w with
  | 1 | 5 => 2 | 2 | 3 => 8 | 6 => if pDout p then 2 else 4 | _ => 4
/-- CRT entries the table holds (R67). -/
def crtCount (w : W128) : Nat :=
  match mMode w with
  | 2 => mLen w | 5 => 16 | _ => 32
/-- Logical K elements of the pass: the reduction of one output element (R64). -/
def mK (w : W128) : Nat :=
  match mMode w with
  | 1 | 2 => 8 * mKstep w | 4 => mSteps w | _ => mLen w
/-- R of the A exponent table (R100). -/
def expRowsA (w : W128) : Nat := mRows w
/-- R of the B exponent table (R100). -/
def expRowsB (w : W128) : Nat := mCols w
/-- Groups along K (R100). -/
def groupCount (w : W128) : Nat := if mGroup w = 0 then 1 else mK w / mGroup w
/-- Index bits of the sparsity pattern (R145). -/
def metaBits (w : W128) : Nat := if mSparse w = 3 then 4 else 2
/-- Bytes MB of a metadata block (R147). -/
def metaMB (w : W128) : Nat := mKdense w * metaBits w

/-- Whether a field of the PPB that the pass uses is invalid, or a zero field is not zero (R67, R68, R79, R107). -/
def ppbBad (w : W128) (p : List Byte) : Bool :=
  (mDrain w == 6 && decide (4 < pDfn p)) || (!isBf (mAfmt w) && pZpmode p == 3) ||
  ((pZpmode p == 1 || pZpmode p == 2) && (isFp8 (mAfmt w) || mMode w == 4 || mMode w == 5)) ||
  ((mMode w == 1 || mMode w == 2) && pDwrow p != 0xFF) ||
  nfld (leAt p 36 1) 5 3 != 0 || nfld (leAt p 37 2) 12 4 != 0 || leAt p 39 25 != 0

/-- The images a pass uses: offset, length and alignment of each (R68, R69, R71, R76, R82, R83, R100, R101, R147, R150,
R455). -/
def passImages (w : W128) (p : List Byte) (a : PassAt) : List (Nat × Nat × Nat) :=
  let S := mSteps w
  let md := mMode w
  let wd := if isBf (mAfmt w) then 2 else 1
  let edge := match md with
    | 4 => [(a.saa, S * 2048, 64)]
    | 5 => [(a.saa, (mLen w + 15) * 16 * wd, 512)]
    | 3 => (List.range (mFactor w)).map (fun q => (a.saa + q * 0x200000, (7 + mH w) * S * 64 / mH w, 512))
    | _ => (List.range (mFactor w)).map (fun q => (a.saa + q * 0x200000, (S + 7) * 512, 512))
  let top := match md with
    | 4 => [(a.sab, S * 2048, 64)]
    | 5 => [(a.sab, (mLen w + 15) * 16 * wd, 256)]
    | 1 | 2 => if a.loads then [(a.sab, 2048, 256)] else []
    | _ => if a.pair.isSome then [] else [(a.sab, (S + 3) * 256, 256)]
  let gs := mGsize w != 0
  edge ++ top ++
  (if gs then [(pAexp p, 2 * expRowsA w * (if zpOn w p then 1 else groupCount w), 64),
               (pBexp p, 2 * expRowsB w * groupCount w, 64)] else []) ++
  (if crtOn w then [(pCrt p, 32 * crtCount w, 32)] else []) ++
  (if mSparse w != 0 && (md != 1 || a.loads) then
    [(pMeta p, 4 * metaMB w * (if md = 1 then 8 else S + 3), 4 * metaMB w)] else []) ++
  (if mZskip w then [(pZmap p, alignUp S 64, 64)] else []) ++
  (if daccFx w then [(pDacc p, 8 * mRows w * mCols w, 64)] else []) ++
  (if daccF32 w p then [(pDacc p, 4 * mRows w * mCols w, 64)] else []) ++
  (if mDrain w == 6 then [(pPreact p, 4 * mRows w * mCols w, 64)] else []) ++
  (if zpOn w p && pZpmode p == 2 then [(pZptab p, 2 * mRows w, 64)] else []) ++
  (if mDrain w != 7 then [(a.sac, outWidth w p * mRows w * mCols w, 64)] else [])

/-- Whether an image is misaligned or runs beyond 16 MiB (R68). -/
def imageBad (i : Nat × Nat × Nat) : Bool := i.1 % i.2.2 != 0 || decide (spSize < i.1 + i.2.1)

/-! ### Blocks and elements (R69 to R71, R76, R82, R83, R146, R191, R455) -/

/-- A byte of the scratchpad as a number. -/
def PassSrc.b (x : PassSrc) (o : Nat) : Nat := (x.sp.get o).toNat

/-- The offset of part `q` of the streamed A block (row block `i`, K-block `k`) (R69, R76, R455). -/
def aBlkOff (w : W128) (a : PassAt) (i k q : Nat) : Nat :=
  let o := a.saa + q * 0x200000
  match mMode w with
  | 1 => o + (i + k) * 512 + 64 * k
  | 3 =>
    let T := mSteps w / mH w
    o + ((i + (mH w - 1) - k / T) * T + k % T) * 64
  | _ => o + (k + i) * 512 + 64 * i

/-- The offset of the streamed B block (K-block `k`, column block `j`): the top edge, the left edge in IS, or the
block of the paired MU0 image (R69, R191). -/
def bBlkOff (w : W128) (a : PassAt) (k j : Nat) : Nat :=
  match mMode w with
  | 2 => a.saa + (j + k) * 512 + 64 * k
  | _ =>
    match a.pair with
    | some h => a.sab - 256 * h + (k + j + 4 * h) * 512 + 64 * (j + 4 * h)
    | none => a.sab + (k + j) * 256 + 64 * j

/-- The code at an element of a block, from a byte reader: row `r`, column `c` in the layouts of R70. -/
def blkCode (isA : Bool) (f : Nat) (rd : Nat → Nat) (r c : Nat) : Nat :=
  match f with
  | 1 => let o := if isA then 8 * r + 2 * c else 16 * r + 2 * c
         rd o + 256 * rd (o + 1)
  | 5 => let o := if isA then 8 * r + c / 2 else 4 * r + c / 2
         nfld (rd o) (4 * (c % 2)) 4
  | _ => rd (8 * r + c)

/-- The code of A element (m, k). -/
def aCode (w : W128) (a : PassAt) (x : PassSrc) (m k : Nat) : Nat :=
  match mMode w with
  | 4 => x.b (a.saa + k * 2048 + m)
  | 5 =>
    if isBf (mAfmt w) then let o := a.saa + (k + m) * 32 + 2 * m; x.b o + 256 * x.b (o + 1)
    else x.b (a.saa + (k + m) * 16 + m)
  | 2 =>
    let ks := mKstep w
    blkCode true (mAfmt w) (fun o => (getD x.held (256 * (k / ks) + 64 * (m / 8) + o) 0#8).toNat) (m % 8) (k % ks)
  | _ =>
    let ks := mKstep w
    let kd := mKdense w
    let q := (k % ks) / kd
    let o := aBlkOff w a (m / 8) (k / ks) q
    blkCode true (mAfmt w) (fun i => x.b (o + i)) (m % 8) (k % ks % kd)

/-- The code of B at physical row `r` of K-block `kb`, column `n`. -/
def bCodeAt (w : W128) (a : PassAt) (x : PassSrc) (kb r n : Nat) : Nat :=
  match mMode w with
  | 1 => blkCode false (mBfmt w) (fun o => (getD x.held (256 * kb + 64 * (n / 8) + o) 0#8).toNat) r (n % 8)
  | 2 => let o := bBlkOff w a kb (n / 8); blkCode false (mBfmt w) (fun i => x.b (o + i)) r (n % 8)
  | _ => let o := bBlkOff w a kb (n / 8); blkCode false (mBfmt w) (fun i => x.b (o + i)) r (n % 8)

/-- The index of physical row `pr` of column `c` in a metadata block (R147). -/
def metaIdx (w : W128) (rd : Nat → Nat) (pr c : Nat) : Nat :=
  let b := metaBits w
  let q := 8 * pr + c
  nfld (rd (b * q / 8)) (b * q % 8) b

/-- The reader of the metadata block of K-block `kb` and column block `j` (R147). -/
def metaRd (w : W128) (p : List Byte) (x : PassSrc) (kb j : Nat) : Nat → Nat := fun o =>
  if mMode w = 1 then (getD x.info (4 * metaMB w * kb + metaMB w * j + o) 0#8).toNat
  else x.b (pMeta p + (kb + j) * (4 * metaMB w) + metaMB w * j + o)

/-- The logical row of physical row `pr` with an index (R146). -/
def logicalRow (w : W128) (pr idx : Nat) : Nat :=
  match mSparse w with
  | 1 => 4 * (pr / 2) + idx
  | 2 => 4 * pr + idx
  | _ => 8 * (pr / 2) + idx

/-- The physical row that stores logical row `k` mod Kstep of a column; none when it is pruned (R146, R149). -/
def physRow (w : W128) (p : List Byte) (x : PassSrc) (k n : Nat) : Option Nat :=
  let ks := mKstep w
  if mSparse w = 0 then some (k % ks)
  else
    let rd := metaRd w p x (k / ks) (n / 8)
    (List.range (mKdense w)).find? (fun pr => logicalRow w pr (metaIdx w rd pr (n % 8)) == k % ks)

/-- The code of B element (k, n), none when it is pruned. -/
def bCode (w : W128) (a : PassAt) (p : List Byte) (x : PassSrc) (k n : Nat) : Option Nat :=
  match mMode w with
  | 4 => some (x.b (a.sab + k * 2048 + n))
  | 5 =>
    some (if isBf (mBfmt w) then let o := a.sab + (k + n) * 32 + 2 * n; x.b o + 256 * x.b (o + 1)
          else x.b (a.sab + (k + n) * 16 + n))
  | _ => (physRow w p x k n).map (fun r => bCodeAt w a x (k / mKstep w) r n)

/-! ### Masks and skipping (R79, R81, R150, R151) -/

/-- The highest set bit of a mask of `n` bits. -/
def highBit (n mask : Nat) : Nat := (((List.range n).filter (fun i => mask.testBit i)).getLast?).getD 0

/-- Whether cube index `x / 8` is active in a mask and the element lies within the valid count of the highest one. -/
def lineOn (n mask val x : Nat) : Bool :=
  mask.testBit (x / 8) && (x / 8 != highBit n mask || decide (x % 8 < (if val = 0 then 8 else val)))

/-- Whether the pass computes output element (m, n) (R79, R81). -/
def elemOn (w : W128) (m n : Nat) : Bool :=
  match mMode w with
  | 1 => lineOn 4 (mCmask w) (mNval w) n
  | 2 => lineOn 4 (mCmask w) (mNval w) m
  | _ => lineOn 8 (mRmask w) (mMval w) m && lineOn 4 (mCmask w) (mNval w) n

/-- Whether the drain writes output element (m, n) (R79). -/
def elemWritten (w : W128) (p : List Byte) (m n : Nat) : Bool :=
  mDrain w != 7 && elemOn w m n &&
  match mMode w with
  | 1 => (pDwcol p).testBit (n / 8)
  | 2 => (pDwcol p).testBit (m / 8)
  | _ => (pDwrow p).testBit (m / 8) && (pDwcol p).testBit (n / 8)

/-- Whether K-step `k` of an OS pass is skipped (R151). -/
def stepSkipped (w : W128) (p : List Byte) (x : PassSrc) (k : Nat) : Bool :=
  mZskip w && mMode w == 0 && (Nat.land (x.b (pZmap p + k)) (mRmask w) == mRmask w)

/-- Whether the products of K-block `kb` are formed: a gated cube-row of WS or IS and a skipped step form none (R81,
R151). -/
def blockOn (w : W128) (p : List Byte) (x : PassSrc) (kb : Nat) : Bool :=
  match mMode w with
  | 1 | 2 => (mRmask w).testBit kb
  | 4 | 5 => true
  | _ => !stepSkipped w p x kb

/-- The K-block of a logical K index. -/
def kBlock (w : W128) (k : Nat) : Nat := if mMode w = 4 then k else k / mKstep w

/-! ### Narrow passes (R102 to R107, R124, R125) -/

/-- The slot an operand's group uses (R98). -/
def opSlot (k : Vector CbSlot 16) (base cb : Nat) : CbSlot := k[(⟨(base + cb) % 16, Nat.mod_lt _ (by decide)⟩ : Fin 16)]

/-- The exponent entry of A for group `g` and row `m`; zero without groups (R100). -/
def aEntry (w : W128) (p : List Byte) (x : PassSrc) (g m : Nat) : Nat :=
  if mGsize w = 0 then 0
  else
    let o := pAexp p + 2 * (if zpOn w p then m else g * expRowsA w + m)
    x.b o + 256 * x.b (o + 1)

/-- The exponent entry of B for group `g` and column `n`; zero without groups (R100). -/
def bEntry (w : W128) (p : List Byte) (x : PassSrc) (g n : Nat) : Nat :=
  if mGsize w = 0 then 0 else let o := pBexp p + 2 * (g * expRowsB w + n); x.b o + 256 * x.b (o + 1)

/-- The integer image of a BF16 element: its signed significand, with the hidden bit for a normal value (R84). -/
def bfImage (code : Nat) : Int :=
  let m := nfld code 0 7 + (if 0 < nfld code 7 8 ∧ nfld code 7 8 < 255 then 128 else 0)
  if code.testBit 15 then -(m : Int) else m

/-- The integer image of an operand code: its level, or the FP8 value scaled to an integer; none for a non-finite FP8
code (R84, R102, R105). -/
def intImage (k : Vector CbSlot 16) (f base cb code : Nat) : Option Int :=
  if isBf f then some (bfImage code)
  else if isFp8 f then
    match fp8Val f code with
    | .fin s m e => some ((if s then -1 else 1) * ((m * 2 ^ (e + (if f = 2 then 9 else 16)).toNat : Nat) : Int))
    | _ => none
  else some (levelOf f (opSlot k base cb) code)

/-- The fraction bits of a format's integer image (R102). -/
def fracBits (f : Nat) : Int := if f = 2 then 9 else if f = 3 then 16 else 0

/-- What the accumulation of one element has come to. -/
structure Acc where
  acc : Int := 0
  sat : Bool := false
  nonfin : Bool := false
  inexact : Bool := false
deriving DecidableEq, Repr

/-- One unit of contribution added (R102, R103). -/
def Acc.unit (a : Acc) (i wt anch : Int) : Acc :=
  let c := floorScale i (wt - anch + 48)
  let (v, st) := satAddFx a.acc c a.sat
  { a with acc := v, sat := st, inexact := a.inexact || !exactScale i (wt - anch + 48) }

/-- The CRT entry of an output element (R101). -/
def crtOff (w : W128) (p : List Byte) (n : Nat) : Nat := pCrt p + 32 * (if mMode w = 2 then n else n % crtCount w)

/-- ANCH of an entry. -/
def crtAnch (x : PassSrc) (o : Nat) : Int := sext 8 (x.b (o + 16))

/-- The little-endian number of `n` scratchpad bytes. -/
def PassSrc.num (x : PassSrc) (o n : Nat) : Nat := leNat (x.sp.read o n)

/-- The products of a range of K for one element, none where pruned or not formed: integer images of both operands
with their exponents summed. -/
def prodAt (k : Vector CbSlot 16) (w : W128) (a : PassAt) (p : List Byte) (x : PassSrc) (g kk m n : Nat) :
    Option (Option Int × Option Int) :=
  if !blockOn w p x (kBlock w kk) then none
  else
    -- DIAG reads tile element (m, n) of both tiles: 32 m + n (R82)
    let m' := if mMode w = 4 then 32 * m + n else m
    let n' := if mMode w = 4 then 32 * m + n else n
    match bCode w a p x kk n' with
    | none => none
    | some bc =>
      some (intImage k (mAfmt w) (mAcb w) (entCb (aEntry w p x g m)) (aCode w a x m' kk),
            intImage k (mBfmt w) (mBcb w) (entCb (bEntry w p x g n)) bc)

/-- The K indexes of group `g`. -/
def groupKs (w : W128) (g : Nat) : List Nat :=
  if mGroup w = 0 then List.range (mK w) else (List.range (mGroup w)).map (fun i => g * mGroup w + i)

/-- The accumulation of one narrow element before the drain (R102, R124). -/
def narrowAcc (k : Vector CbSlot 16) (w : W128) (a : PassAt) (p : List Byte) (x : PassSrc) (m n : Nat) : Acc :=
  let anch := crtAnch x (crtOff w p n)
  let fp8 := isFp8 (mAfmt w) || isFp8 (mBfmt w)
  (List.range (groupCount w)).foldl (fun acc g =>
    let wt := entE (aEntry w p x g m) + entE (bEntry w p x g n)
    if fp8 then
      (groupKs w g).foldl (fun acc kk =>
        match prodAt k w a p x g kk m n with
        | none => acc
        | some (some ia, some ib) => acc.unit (ia * ib) (wt - fracBits (mAfmt w) - fracBits (mBfmt w)) anch
        | some _ => { acc with nonfin := true }) acc
    else
      let i := (groupKs w g).foldl (fun (t : Int) kk =>
        match prodAt k w a p x g kk m n with
        | some (some ia, some ib) => t + ia * ib
        | _ => t) 0
      acc.unit i wt anch) {}

/-- The index of an output element in the output image, in elements (R64). -/
def outIndex (w : W128) (m n : Nat) : Nat :=
  match mMode w with
  | 2 => n * 32 + m | 5 => m * 16 + n | _ => m * 32 + n

/-- One drained element: the number written and its width's flags. -/
structure Drained where
  val : Nat
  sat : Bool := false
  inexact : Bool := false
  fp8 : Bool := false
  ovf : Bool := false
deriving DecidableEq, Repr

/-- The zero-point correction of row `m` and whether its shift discards a bit (R107). -/
def zpCorr (w : W128) (p : List Byte) (x : PassSrc) (m n : Nat) : Int × Bool :=
  let z : Int := if pZpmode p = 1 then pZp p else sext 16 (x.num (pZptab p + 2 * m) 2)
  let ws : Int := sext 64 (x.num (crtOff w p n + 8) 8)
  let ea := entE (aEntry w p x 0 m)
  (floorScale (z * ws) ea, !exactScale (z * ws) ea)

/-- The drain of a narrow element; the DACC and PREACT elements are read from the scratchpad `now`, as the drain finds it
(R78, R106, R125, R194). -/
def narrowDrain (w : W128) (p : List Byte) (x : PassSrc) (now : Memory) (m n : Nat) (a : Acc) : Drained :=
  let o := outIndex w m n
  let d : Int := if daccFx w then sext 64 (leNat (now.read (pDacc p + 8 * o) 8)) else 0
  let bad := daccFx w && d == fxNonfin
  let s1 := if daccFx w && !bad then satAddFx a.acc d a.sat else (a.acc, a.sat)
  let z := if zpStage w p then zpCorr w p x m n else (0, false)
  let s2 := if zpStage w p then satAddFx s1.1 (-z.1) s1.2 else s1
  let nonfin := a.nonfin || bad
  let fl : Drained := { val := 0, sat := s2.2 && !a.sat, inexact := z.2, fp8 := bad }
  let c := crtOff w p n
  let dr := mDrain w
  if dr = 2 ∨ dr = 3 then { fl with val := if nonfin then 2 ^ 63 else ofInt 64 s2.1 }
  else
    let narrow := dr = 1 ∨ dr = 5 ∨ (dr = 6 ∧ pDout p)
    if nonfin then { fl with val := if narrow then (rne16 .nan).toNat else (rne32 .nan).toNat }
    else
      let av := (FVal.ofInt s2.1).scale (crtAnch x c - 48)
      let sc := val32 (BitVec.ofNat 32 (x.num c 4))
      let co := val32 (BitVec.ofNat 32 (x.num (c + 4) 4))
      let y := rne32 ((av.mul sc).add co)
      let ovf := sc.isFin && co.isFin && !(val32 y).isFin
      let y := if dr = 6 then mul32 y (deriv32 (pDfn p) (BitVec.ofNat 32 (leNat (now.read (pPreact p + 4 * o) 4)))) else y
      { fl with ovf := ovf, val := if narrow then (rne16 (val32 y)).toNat else y.toNat }

/-! ### BF16 passes (R108, R126, R127) -/

/-- The exact product of a K index, +0 when pruned or in a skipped step (R126). -/
def bfProd (w : W128) (a : PassAt) (p : List Byte) (x : PassSrc) (m n k : Nat) : FVal :=
  if !blockOn w p x (kBlock w k) then .zero
  else
    match bCode w a p x k n with
    | none => .zero
    | some b => (val16 (BitVec.ofNat 16 (aCode w a x m k))).mul (val16 (BitVec.ofNat 16 b))

/-- The accumulation of one BF16 element over octets (R126). -/
def bfAcc (w : W128) (a : PassAt) (p : List Byte) (x : PassSrc) (srd : Srd) (m n : Nat) : BitVec 32 :=
  (List.range (mLen w / 8)).foldl (fun acc j =>
    let t (i : Nat) : FVal := bfProd w a p x m n (8 * j + i)
    let pr (i : Nat) : BitVec 32 := rne32 ((t i).add (t (i + 1)))
    let s := add32 (add32 (pr 0) (pr 2)) (add32 (pr 4) (pr 6))
    if srdOn w then sr32 ((val32 acc).add (val32 s)) (rndBits srd (srd.base + m * srd.stride + n) (srd.site + j))
    else add32 acc s) 0#32

/-- The drain of a BF16 element, which reads its DACC element from the scratchpad `now` (R108, R126). -/
def bfDrain (w : W128) (p : List Byte) (x : PassSrc) (now : Memory) (m n : Nat) (acc : BitVec 32) : Drained :=
  let acc := if daccF32 w p then add32 acc (BitVec.ofNat 32 (leNat (now.read (pDacc p + 4 * outIndex w m n) 4))) else acc
  let c := crtOff w p n
  let y := fma32 acc (BitVec.ofNat 32 (x.num c 4)) (BitVec.ofNat 32 (x.num (c + 4) 4))
  { val := if mDrain w = 1 then (rne16 (val32 y)).toNat else y.toNat }

/-! ### A whole pass -/

/-- The output lines of a pass: for each line of the output image and each block of eight elements, the elements as
(m, n). -/
def outBlocks (w : W128) : List (List (Nat × Nat)) :=
  let lines := if mMode w = 2 then mCols w else mRows w
  let blocks := if mMode w = 5 then 2 else 4
  (List.range lines).flatMap (fun l => (List.range blocks).map (fun b =>
    (List.range 8).map (fun i => if mMode w = 2 then (8 * b + i, l) else (l, 8 * b + i))))

/-- What the elements of one block come to: the bytes written with their offset, and the flags. -/
def passBlock (k : Vector CbSlot 16) (w : W128) (a : PassAt) (p : List Byte) (x : PassSrc) (now : Memory) (srd : Srd)
    (l : List (Nat × Nat)) :
    Option (Nat × List Byte) × Drained :=
  let on := l.filter (fun e => elemOn w e.1 e.2)
  let rs := on.map (fun e =>
    let wr := elemWritten w p e.1 e.2
    if isBf (mAfmt w) then
      (if wr then some (bfDrain w p x now e.1 e.2 (bfAcc w a p x srd e.1 e.2)) else none, ({} : Acc))
    else
      let ac := narrowAcc k w a p x e.1 e.2
      (if wr then some (narrowDrain w p x now e.1 e.2 ac) else none, ac))
  let ds := rs.filterMap (·.1)
  let fl : Drained := { val := 0
                        sat := ds.any (·.sat) || rs.any (fun r => r.2.sat)
                        inexact := ds.any (·.inexact) || rs.any (fun r => r.2.inexact)
                        fp8 := ds.any (·.fp8) || rs.any (fun r => r.2.nonfin)
                        ovf := ds.any (·.ovf) }
  match on.filter (fun e => elemWritten w p e.1 e.2) with
  | [] => (none, fl)
  | e :: _ =>
    let wd := outWidth w p
    (some (a.sac + wd * outIndex w e.1 e.2, ds.flatMap (fun d => leBytes wd d.val)), fl)

/-- The steps S′ that are not skipped (R151). -/
def liveSteps (w : W128) (p : List Byte) (x : PassSrc) : Nat :=
  ((List.range (mSteps w)).filter (fun k => !stepSkipped w p x k)).length

/-- The active data cubes of a pass as (row, column); CHAM uses its four (R81, R83). -/
def activeCubes (w : W128) : List (Nat × Nat) :=
  ((List.range 8).filter (fun i => (mRmask w).testBit i)).flatMap (fun i =>
    ((List.range 4).filter (fun j => (mCmask w).testBit j)).map (fun j => (i, j)))

/-- The steps in which any data cube computes, and the sum of active cubes over the steps (R90); the rows at and below a
replaced data row `spare` compute one step later (R87). DESIGN CHOICE, log entry 75: a DIAG pass computes in the steps of
an OS pass. -/
def passCounts (w : W128) (spare : Option Nat) (n : Nat) : Nat × Nat :=
  let cs := activeCubes w
  let at_ (c : Nat × Nat) : Nat := c.1 + c.2 + (match spare with | some r => if r ≤ c.1 then 1 else 0 | none => 0)
  let steps := (List.range (n + 12)).filter (fun t => cs.any (fun c => at_ c ≤ t && decide (t < n + at_ c)))
  if n = 0 then (0, 0) else (steps.length, n * cs.length)

/-- The scratchpad ranges that the drain of a pass reads: the DACC and PREACT elements of what it writes (R78, R106). -/
def drainReads (w : W128) (p : List Byte) : List (Nat × Nat) :=
  (outBlocks w).flatMap (fun l =>
    match l.filter (fun e => elemWritten w p e.1 e.2) with
    | [] => []
    | e :: rest =>
      let n := rest.length + 1
      let o := outIndex w e.1 e.2
      (if daccFx w then [(pDacc p + 8 * o, 8 * n)] else []) ++ (if daccF32 w p then [(pDacc p + 4 * o, 4 * n)] else []) ++
      (if mDrain w == 6 then [(pPreact p + 4 * o, 4 * n)] else []))

/-- The top-edge blocks of an OS or RR pass, which a paired MU1 pass takes from the lines that MU0's feeder reads (R190). -/
def topReads (w : W128) (p : List Byte) (a : PassAt) (x : PassSrc) : List (Nat × Nat) :=
  ((List.range 4).filter (fun j => (mCmask w).testBit j)).flatMap (fun j =>
    ((List.range (mSteps w)).filter (fun k => !stepSkipped w p x k)).map (fun k => (bBlkOff w a k j, 64)))

/-- The scratchpad ranges a pass reads at its start, padding and gated positions left out (R69, R81, R151). -/
def passReads (w : W128) (p : List Byte) (a : PassAt) (x : PassSrc) : List (Nat × Nat) :=
  let S := mSteps w
  let md := mMode w
  let rows := (List.range 8).filter (fun i => (mRmask w).testBit i)
  let cols := (List.range 4).filter (fun j => (mCmask w).testBit j)
  let ks := (List.range S).filter (fun k => !stepSkipped w p x k)
  let wd := if isBf (mAfmt w) then 2 else 1
  let parts := List.range (mFactor w)
  let left := match md with
    | 4 => (List.range S).flatMap (fun t => rows.flatMap (fun i => (List.range 8).flatMap (fun r => cols.flatMap (fun j =>
        let o := 2048 * t + 32 * (8 * i + r) + 8 * j
        [(a.saa + o, 8), (a.sab + o, 8)]))))
    | 5 => (List.range 16).flatMap (fun r => (List.range (mLen w)).flatMap (fun t =>
        [(a.saa + ((t + r) * 16 + r) * wd, wd), (a.sab + ((t + r) * 16 + r) * wd, wd)]))
    | 1 => parts.flatMap (fun q => rows.flatMap (fun i => (List.range S).map (fun t => (aBlkOff w a t i q, 64))))
    | 2 => rows.flatMap (fun i => (List.range S).map (fun t => (bBlkOff w a i t, 64)))
    | _ => parts.flatMap (fun q => rows.flatMap (fun i => ks.map (fun k => (aBlkOff w a i k q, 64))))
  let top := match md with
    | 0 | 3 => if a.pair.isSome then [] else topReads w p a x
    | 1 | 2 => if a.loads then rows.flatMap (fun i => cols.map (fun j => (a.sab + 256 * i + 64 * j, 64))) else []
    | _ => []
  let mb := metaMB w
  let info := if mSparse w = 0 then [] else
    match md with
    | 1 => if a.loads then rows.flatMap (fun i => cols.map (fun j => (pMeta p + 4 * mb * i + mb * j, mb))) else []
    | _ => cols.flatMap (fun j => ks.map (fun k => (pMeta p + 4 * mb * (k + j) + mb * j, mb)))
  let gs := mGsize w != 0
  let tabs := (if gs then [(pAexp p, 2 * expRowsA w * (if zpOn w p then 1 else groupCount w)),
                           (pBexp p, 2 * expRowsB w * groupCount w)] else []) ++
    (if crtOn w then [(pCrt p, 32 * crtCount w)] else []) ++ (if mZskip w then [(pZmap p, S)] else []) ++
    (if zpOn w p && pZpmode p == 2 then [(pZptab p, 2 * mRows w)] else [])
  left ++ top ++ info ++ tabs

/-- Whether metadata that streams in is invalid: an index pair out of order or bit 3 of a 2:8 entry (R148). -/
def metaBad (w : W128) (p : List Byte) (x : PassSrc) : Bool :=
  if mSparse w = 0 then false
  else
    let cols := (List.range 4).filter (fun j => (mCmask w).testBit j)
    let kbs := if mMode w = 1 then (List.range 8).filter (fun i => (mRmask w).testBit i)
      else (List.range (mSteps w)).filter (fun k => !stepSkipped w p x k)
    kbs.any (fun kb => cols.any (fun j =>
      let rd := metaRd w p x kb j
      (List.range 8).any (fun c => (List.range (mKdense w)).any (fun pr =>
        let i := metaIdx w rd pr c
        (mSparse w == 3 && i.testBit 3) ||
          (mSparse w != 2 && pr % 2 == 0 && decide (metaIdx w rd (pr + 1) c ≤ i))))))

/-- The codebook slot of the other kind that an operand meets, if any (R98). DESIGN CHOICE, log entry 75: an operand meets
the slot of every entry of its table, those of masked, skipped and pruned groups too, and the first such slot is named, A
before B. -/
def passMismatch (k : Vector CbSlot 16) (w : W128) (p : List Byte) (x : PassSrc) : Option Nat :=
  let gl := List.range (groupCount w)
  let one (f base : Nat) (en : Nat → Nat → Nat) (n : Nat) : Option Nat :=
    (gl.flatMap (fun g => (List.range n).map (fun r => (base + entCb (en g r)) % 16))).find?
      (fun i => kindMismatch f (opSlot k i 0))
  match one (mAfmt w) (mAcb w) (fun g r => aEntry w p x g r) (if mGsize w = 0 then 1 else expRowsA w) with
  | some i => some i
  | none => one (mBfmt w) (mBcb w) (fun g r => bEntry w p x g r) (if mGsize w = 0 then 1 else expRowsB w)

/-! ### Start (R68, R75, R89, R189, R190) -/

/-- The base of a matrix unit's registers (R90). -/
def muBase (c : CoreId) (u : MuId) : Nat := coreBase c + 0x1000 + 0x1000 * u.val

/-- The unit queue of a matrix unit. -/
def muSel (u : MuId) : UnitSel := if u = 0 then .mu0 else .mu1

/-- MU_ERR_LOG written with a fault (R90). -/
def muLog (s : State) (c : CoreId) (u : MuId) (kind row col pc : Nat) (retried : Bool) : State :=
  s.wr (muBase c u + 0x18) (bit63 ||| BitVec.ofNat 64 (kind + row * 2 ^ 4 + col * 2 ^ 8 + pc * 2 ^ 12 +
    (if retried then 2 ^ 27 else 0)))

/-- A matrix-unit event with MU_ERR_LOG and the unit as arguments (R91, R385). -/
def muEv (s : State) (c : CoreId) (u : MuId) (code : Nat) : State :=
  s.raise code c u.val (s.jobOf c) (s.rd (muBase c u + 0x18)).toNat u.val

/-- A numerics event of a pass: the record names the unit besides the core (R121). DESIGN CHOICE, log entry 75: the unit
stands in ARG0[4], above the slot that R385 puts into ARG0[3:0]. -/
def passEv (s : State) (c : CoreId) (u : MuId) (code a0 pc : Nat) : State :=
  s.raise code c u.val (s.jobOf c) (a0 + 16 * u.val) pc

/-- Whether the unit takes an MU1 pass as paired with the MU0 pass issued directly before it: none when unpaired, some
none when a condition other than the last and the slot condition fails, some h when paired (R189). -/
def pairing (e : Entry) : Option (Option Nat) :=
  match e.after with
  | none => none
  | some (_, w0, s0) =>
    let w1 := e.word
    let saa0 := (snapGet s0 (mSaa w0)).toNat
    let sab1 := (snapGet e.s (mSab w1)).toNat
    let h := if sab1 = saa0 then some 0 else if sab1 = saa0 + 256 then some 1 else none
    let slots := mLen w1 == mLen w0 && mSlotb w1 == mSlota w0 && mBen w1 == mAen w0
    if mMode w1 ≠ 0 then none
    else
      match h with
      | none => none
      | some h =>
        if !slots then none
        else if mMode w0 = 1 ∧ mRmask w0 = 0xFF ∧ mSparse w1 = 0 ∧ mBfmt w1 = mAfmt w0 ∧ mBcb w1 = mAcb w0 then some (some h)
        else some none

/-- An MU1 pass that has just entered its queue and is paired marks itself and the MU0 pass at the end of that queue
(R189). -/
def pairUp (s : State) (c : CoreId) : State :=
  match (qOf s c .mu0).reverse, (qOf s c .mu1).reverse with
  | e0 :: r0, e1 :: r1 =>
    match pairing e1 with
    | some (some _) =>
      setQ (setQ s c .mu0 ({ e0 with mate := true } :: r0).reverse) c .mu1 ({ e1 with mate := true } :: r1).reverse
    | _ => s
  | _, _ => s

/-- Whether an MU0 pass must wait to learn whether it is paired: the next instruction has not issued yet (R189). -/
def pairUnknown (s : State) (c : CoreId) (u : MuId) (e : Entry) (isLast : Bool) : Bool :=
  u == 0 && mMode e.word == 1 && mRmask e.word == 0xFF && isLast && (s.core c).run == .running &&
    (s.core c).lastMu0.isSome

/-- The parameter block and descriptor bytes of a pass, 64 or 96 of them (R67, R127). -/
def ppbLen (w : W128) : Nat := if srdOn w then 96 else 64

/-- Whether a pass may start: every guard it names allows it, and a pass of another mode waits until the earlier passes of
the unit have completed (R49, R68, R77). -/
def passReady (s : State) (c : CoreId) (u : MuId) (e : Entry) : Bool :=
  (holdingGuard s c e).isNone && ((s.unit c).mu[u]).runs.all (fun r => mMode r.entry.word == mMode e.word)

/-- The held operand after a pass that has not run: a pass of another mode discards it, and nothing else does (R75). -/
def keptOp (w : W128) (old : Option HeldOp) : Option HeldOp := old.filter (fun h => h.mode == mMode w)

/-- A pass enters the unit's started passes. -/
def muPush (s : State) (c : CoreId) (u : MuId) (r : PassRun) (held : Option HeldOp) : State :=
  let k := s.unit c
  let m := k.mu[u]
  let runs := m.runs ++ [{ r with shared := !m.runs.isEmpty, before := m.held }]
  s.setUnit c { k with mu := k.mu.set u { runs := runs, held := held } }

/-- Whether gecko residency or bank power refuses an access of the core's own engines (R233, R236). -/
def spShut (s : State) (c : CoreId) (r : Nat × Nat) : Bool :=
  spGecko s c (s.jobOf c) r.1 r.2 || (spBankOff s c r.1 r.2).isSome

/-- Whether a list of accesses is allowed, each refusal by gecko residency or a bank raising its event (R233, R236). -/
def allowAll (s : State) (c : CoreId) (l : List (Nat × Nat)) : State × Bool :=
  let bad := l.filter (spShut s c)
  (bad.foldl (fun s r => (spAllow s c (s.jobOf c) r.1 r.2).1) s, bad.isEmpty)

/-- SECDED over a list of reads: corrected lanes are counted, uncorrectable ones recorded (R226). -/
def eccAll (s : State) (c : CoreId) (l : List (Nat × Nat)) : State × Bool :=
  let ms := (s.loc c).spErr.filter (fun e => l.any (fun r => r.1 < e.1 + 8 && e.1 < r.1 + r.2))
  let s := spCorrected s c (s.jobOf c) ms
  (spUncorrs s c (s.jobOf c) ms, ms.all (fun e => !e.2))

/-- A parameter fault of a pass: MU_PARAM_FAULT with its log (R68, R90). -/
def paramFault (s : State) (c : CoreId) (u : MuId) (pc : Nat) : State := muEv (muLog s c u 3 0xF 0xF pc false) c u 0x2004

/-- Whether what a paired MU1 pass captures from MU0's lines is refused, or holds a lane that cannot be read: MU0's feeder has
reported it, and MU1 reads nothing at SAB (R190). DESIGN CHOICE, log entry 75: MU1 then ends without output as well. -/
def pairShut (s : State) (c : CoreId) (r : PassRun) (x : PassSrc) : Bool × Bool :=
  let l := if r.place.pair.isSome then topReads r.entry.word r.ppb r.place x else []
  (l.any (spShut s c), l.any (fun b => (spMarks s c b.1 b.2).any (·.2)))

/-- The reads of a pass that its parameters allow, from the scratchpad as it stands: the pass with what it has taken, and the
operand then held. `again` is a retry, or a start after one: it keeps the codebook levels copied at the start and raises
no second CB_KIND_MISMATCH (R86, R98). DESIGN CHOICE, log entry 75: blocks loaded with an uncorrectable error stay held. -/
def passTake (s : State) (c : CoreId) (u : MuId) (r : PassRun) (old : Option HeldOp) (again : Bool) :
    State × PassRun × Option HeldOp :=
  let w := r.entry.word
  let a := r.place
  let p := r.ppb
  let sp := (s.loc c).sp
  let held : Option HeldOp :=
    if mMode w = 1 ∨ mMode w = 2 then
      if a.loads then some { mode := mMode w, image := sp.read a.sab 2048,
                             info := if mSparse w = 0 then [] else sp.read (pMeta p) (32 * metaMB w) }
      else old
    else none
  let x : PassSrc := { sp := sp, held := (held.map (·.image)).getD [], info := (held.map (·.info)).getD [] }
  let shut := pairShut s c r x
  let reads := passReads w p a x
  match allowAll s c reads with
  | (s, false) => (s, { r with ending := .denied }, keptOp w old)
  | (s, true) =>
    if shut.1 then (s, { r with ending := .denied }, keptOp w old)
    else
      let (s, good) := eccAll s c reads
      let k := if again then r.cbs else (s.core c).cbs
      let s := match (if again || isBf (mAfmt w) then none else passMismatch k w p x) with
        | some i => passEv s c u 0x3004 i r.entry.pc
        | none => s
      let r := { r with src := x, cbs := k, ending := .normal }
      if !good || shut.2 then (s, { r with ending := .operand }, held)
      else if metaBad w p x then (paramFault s c u r.entry.pc, { r with ending := .badInfo }, held)
      else (s, r, held)

/-- The body of a start: the pass's parameters are checked, its images read and kept for the completion. `a` are its offsets,
`p` its parameter block. -/
def passBody (s : State) (c : CoreId) (u : MuId) (e : Entry) (a : PassAt) (p : List Byte) (pairBad : Bool) : State :=
  let w := e.word
  let run : PassRun := { entry := e, place := a, ppb := p, ending := .normal,
                         slotc := if pSlotcen p then some (pSlotc p) else none }
  let old := ((s.unit c).mu[u]).held
  if pairBad || ppbBad w p || (passImages w p a).any imageBad then
    muPush (paramFault s c u e.pc) c u { run with ending := .param } (keptOp w old)
  else
    match passTake s c u run old false with
    | (s, run, held) => muPush s c u run held

/-- The pass at the head of a matrix-unit queue leaves it and starts: its parameter block is read and checked, then its
images (R68). A block that cannot be read names no C slot to fill; a descriptor beyond the scratchpad is a parameter fault
of a block that can (R127). DESIGN CHOICE, log entry 75: a block that is misaligned, denied or uncorrectable fills no C
slot. -/
def passGo (s : State) (c : CoreId) (u : MuId) (e : Entry) (rest : List Entry) : State :=
  let w := e.word
  let sap := (snapGet e.s (mSap w)).toNat
  let old := ((s.unit c).mu[u]).held
  let loads := (mMode w = 1 ∨ mMode w = 2) ∧ !(mHold w && (old.map (·.mode)) == some (mMode w))
  let pr := if u = 1 then pairing e else none
  let a : PassAt := { saa := (snapGet e.s (mSaa w)).toNat, sab := (snapGet e.s (mSab w)).toNat,
                      sac := (snapGet e.s (mSac w)).toNat, loads := loads, pair := if e.mate then pr.getD none else none }
  let s := popHead s c (muSel u) rest
  let run : PassRun := { entry := e, place := a, ending := .param }
  if sap % 64 ≠ 0 ∨ spSize < sap + 64 then muPush (paramFault s c u e.pc) c u run (keptOp w old)
  else
    let cut := decide (spSize < sap + ppbLen w)
    let len := if cut then 64 else ppbLen w
    let p := spBytes s c sap len
    match allowAll s c [(sap, len)] with
    | (s, false) => muPush s c u { run with ending := .denied } (keptOp w old)
    | (s, true) =>
      match eccAll s c [(sap, len)] with
      | (s, false) => muPush s c u { run with ending := .operand } (keptOp w old)
      | (s, true) => passBody s c u e a p (cut || pr == some none)

/-- The pass at the head of a matrix-unit queue starts, where it may and its pairing is known (R68, R189). A pair starts as
one: MU0's pass waits until MU1's may start too, and both read the left edge together (R190). -/
def passStart (s : State) (c : CoreId) (u : MuId) : State :=
  match (if canStart s c then qOf s c (muSel u) else []) with
  | [] => s
  | e :: rest =>
    if pairUnknown s c u e rest.isEmpty || !passReady s c u e then s
    else if e.mate then
      match u.val, qOf s c .mu1 with
      | 0, e1 :: rest1 => if e1.mate && passReady s c 1 e1 then passGo (passGo s c u e rest) c 1 e1 rest1 else s
      | _, _ => s
    else passGo s c u e rest

/-! ### Checksums (R84, R85) -/

/-- The integer image of A element (m, k) as the checksum feeders take it: zero where the row is off or the element is not
finite (R81, R84, R105). -/
def sumA (r : PassRun) (m k : Nat) : Int :=
  let w := r.entry.word
  let on := match mMode w with
    | 1 => (mRmask w).testBit (kBlock w k)
    | 2 => lineOn 4 (mCmask w) (mNval w) m && (mRmask w).testBit (kBlock w k)
    | _ => lineOn 8 (mRmask w) (mMval w) m && blockOn w r.ppb r.src (kBlock w k)
  if !on then 0
  else
    let g := if mGroup w = 0 then 0 else k / mGroup w
    (intImage r.cbs (mAfmt w) (mAcb w) (entCb (aEntry w r.ppb r.src g m)) (aCode w r.place r.src m k)).getD 0

/-- The integer image of B element (k, n): zero where the column is off, the element pruned or not finite. -/
def sumB (r : PassRun) (k n : Nat) : Int :=
  let w := r.entry.word
  let on := match mMode w with
    | 2 => (mRmask w).testBit (kBlock w k)
    | 1 => lineOn 4 (mCmask w) (mNval w) n && (mRmask w).testBit (kBlock w k)
    | _ => lineOn 4 (mCmask w) (mNval w) n && blockOn w r.ppb r.src (kBlock w k)
  if !on then 0
  else
    match bCode w r.place r.ppb r.src k n with
    | none => 0
    | some code =>
      let g := if mGroup w = 0 then 0 else k / mGroup w
      (intImage r.cbs (mBfmt w) (mBcb w) (entCb (bEntry w r.ppb r.src g n)) code).getD 0

/-- A sum of integers over a range of indexes. -/
def sumTo (n : Nat) (f : Nat → Int) : Int := (List.range n).foldl (fun t i => t + f i) 0

/-- The residue of element `el` of cube (i, j) in OS, RR and CHAM: the sum of the integer images of its products; row 8
holds the sums over the 8 A blocks, column 4 those over the 4 B blocks (R84). -/
def residue (r : PassRun) (i j el : Nat) : Int :=
  let a (k : Nat) : Int := if i < 8 then sumA r (8 * i + el / 8) k else sumTo 8 (fun x => sumA r (8 * x + el / 8) k)
  let b (k : Nat) : Int := if j < 4 then sumB r k (8 * j + el % 8) else sumTo 4 (fun x => sumB r k (8 * x + el % 8))
  sumTo (mK r.entry.word) (fun k => a k * b k)

/-- The residue that leaves column `j` for element `el` of streamed step `t` in WS and IS; column 4 holds the sum of the
held blocks of its rows (R85). -/
def residueOut (r : PassRun) (t j el : Nat) : Int :=
  let w := r.entry.word
  let held (k x : Nat) : Int := if mMode w = 1 then sumB r k (8 * x + el % 8) else sumA r (8 * x + el % 8) k
  let strm (k : Nat) : Int := if mMode w = 1 then sumA r (8 * t + el / 8) k else sumB r k (8 * t + el / 8)
  sumTo (mK w) (fun k => strm k * (if j < 4 then held k j else sumTo 4 (held k)))

/-- What the errors add to one residue. -/
def errAt (errs : List CubeErr) (i j el : Nat) : Int :=
  errs.foldl (fun t e => if e.row = i ∧ e.col = j ∧ e.el = el then t + (e.delta.toNat : Int) else t) 0

/-- Whether two residues differ modulo 2^24 (R84). -/
def unequal24 (x y : Int) : Bool := (x - y) % 2 ^ 24 != 0

/-- Where a failing check of a pass locates its fault, as row and column with 0xF for one it does not locate; none where
every check holds (R85, R86). The column check runs in OS, RR and CHAM, over column 4 too where B is dense; the row check,
the corner included, only with a dense B. In WS and IS the checksum column alone runs and locates neither. -/
def checkFails (r : PassRun) (errs : List CubeErr) : Option (Nat × Nat) :=
  let w := r.entry.word
  let res (i j el : Nat) : Int := residue r i j el + errAt errs i j el
  let els := List.range 64
  match mMode w with
  | 1 | 2 =>
    let out (t j el : Nat) : Int := residueOut r t j el + errAt errs t j el
    if (List.range (mSteps w)).any (fun t => els.any (fun el =>
      unequal24 (out t 4 el) (sumTo 4 (fun j => out t j el)))) then some (0xF, 0xF) else none
  | _ =>
    let dense := mSparse w == 0
    let col := (List.range (if dense then 5 else 4)).find? (fun j => els.any (fun el =>
      unequal24 (res 8 j el) (sumTo 8 (fun i => res i j el))))
    let row := if dense then (List.range 9).find? (fun i => els.any (fun el =>
      unequal24 (res i 4 el) (sumTo 4 (fun j => res i j el)))) else none
    if col.isNone && row.isNone then none else some (row.getD 0xF, col.getD 0xF)

/-- Whether the checksum row and column check a pass (R82, R85). -/
def checksRun (s : State) (c : CoreId) (u : MuId) (w : W128) : Bool :=
  bit (s.rd (muBase c u)) 0 && mMode w != 4 && !(mMode w == 1 && mSparse w != 0)

/-- The outcome of the checks of a pass that some errors strike. Without an error every check holds, being linear in the
residues (R84), so that nothing is summed. -/
def passChecks (s : State) (c : CoreId) (u : MuId) (r : PassRun) (errs : List CubeErr) : Option (Nat × Nat) :=
  if checksRun s c u r.entry.word && !errs.isEmpty then checkFails r errs else none

/-! ### Completion (R68, R85, R86, R89) -/

/-- The slot actions of a completed pass, the drains before the fill (R68, R227). -/
def passSlots (s : State) (c : CoreId) (r : PassRun) : State :=
  let s := if mArel r.entry.word then setGuard s c (mSlota r.entry.word) false else s
  let s := if mBrel r.entry.word then setGuard s c (mSlotb r.entry.word) false else s
  match r.slotc with
  | some g => setGuard s c g true
  | none => s

/-- The data row that the spare row of a unit replaces (R87, R90). -/
def spareRow (s : State) (c : CoreId) (u : MuId) : Option Nat :=
  let v := s.rd (muBase c u + 0x10)
  if bit v 0 then some (fld v 1 4) else none

/-- The counters of a completed pass (R90): it counts as completed, and as a fault where it wrote no output. The steps in
which an earlier pass computed as well count once. DESIGN CHOICE, log entry 75: a pass ended by a parameter fault or a
refusal before it streamed counts no step. -/
def passCount (s : State) (c : CoreId) (u : MuId) (r : PassRun) (times : Nat) (fault : Bool) : State :=
  let b := muBase c u
  let k := match r.ending with
    | .param | .denied => (0, 0)
    | _ => if r.ppb = [] then (0, 0) else passCounts r.entry.word (spareRow s c u) (liveSteps r.entry.word r.ppb r.src)
  let (f, s) := s.fresh
  let s := s.count (b + 0x20) 64 1
  let s := s.count (b + 0x28) 64 (times * k.1 - (if r.shared then Config.muOverlap f else 0))
  let s := s.count (b + 0x30) 64 (times * k.2)
  if fault then s.count (b + 0x40) 64 1 else s

/-- What the drain of a pass writes and flags, with the DACC and PREACT elements as the scratchpad `now` holds them (R78,
R106). -/
def passDrain (r : PassRun) (now : Memory) : List (Option (Nat × List Byte) × Drained) :=
  let w := r.entry.word
  (outBlocks w).map (passBlock r.cbs w r.place r.ppb r.src now (srdOf (r.ppb.drop 64)))

/-- The bytes that a pass writes, with their offsets. -/
def passOut (r : PassRun) (now : Memory) : List (Nat × List Byte) := (passDrain r now).filterMap (·.1)

/-- An operand error of a pass: MU_OPERAND_ERROR with its log (R89, R90). -/
def operandError (s : State) (c : CoreId) (u : MuId) (r : PassRun) : State :=
  muEv (muLog s c u 2 0xF 0xF r.entry.pc false) c u 0x2003

/-- The output of a pass written, or an operand error where a lane written in part cannot be read, or a refusal by
gecko residency or bank power (R79, R89, R226, R233, R236). -/
def passWrite (s : State) (c : CoreId) (u : MuId) (r : PassRun) (out : List (Nat × List Byte)) : State × Bool :=
  match allowAll s c (out.map (fun o => (o.1, o.2.length))) with
  | (s, false) => (s, false)
  | (s, true) =>
    let part := out.flatMap (fun o => (spMarks s c o.1 o.2.length).filter (fun e => !laneWhole o.1 o.2.length e.1))
    if part.any (·.2) then (operandError (spUncorrs (spCorrected s c (s.jobOf c) part) c (s.jobOf c) part) c u r, false)
    else (out.foldl (fun s o => (spMerge s c (s.jobOf c) o.1 o.2).1) s, true)

/-- The numerics events and counts of a pass that ran (R103, R105, R106, R121). DESIGN CHOICE, log entry 75: a pass that
a failing check or an operand error discards counts and raises none of them. -/
def passFlags (s : State) (c : CoreId) (u : MuId) (r : PassRun) (ds : List Drained) : State :=
  let ev (s : State) (code : Nat) : State := passEv s c u code 0 r.entry.pc
  let s := if ds.any (·.inexact) then s.count (coreBase c + 0x3020) 32 1 else s
  let s := if ds.any (·.sat) then ev (s.count (coreBase c + 0x3028) 32 1) 0x3005 else s
  let s := if ds.any (·.fp8) then ev s 0x3006 else s
  if ds.any (·.ovf) then ev s 0x3007 else s

/-- The drain of a pass: its DACC and PREACT elements are read, its output is written (R78, R89). DESIGN CHOICE, log entry 75:
a DISCARD pass completes with its output dropped and counts in no MU_FAULTS (R90). -/
def passFinish (s : State) (c : CoreId) (u : MuId) (r : PassRun) (times : Nat) : State :=
  let reads := drainReads r.entry.word r.ppb
  match allowAll s c reads with
  | (s, false) => passCount s c u r times true
  | (s, true) =>
    let ds := passDrain r (s.loc c).sp
    match eccAll s c reads with
    | (s, false) => passCount (operandError s c u r) c u r times true
    | (s, true) =>
      let (s, ok) := passWrite s c u r (ds.filterMap (·.1))
      passFlags (passCount s c u r times (!ok)) c u r (ds.map (·.2))

/-- The later passes of a unit start anew once a retry has run, since a retry comes before any of them (R86): what they read
they read again, from the operand that the retry left held. -/
def restartRuns (s : State) (c : CoreId) (u : MuId) (held : Option HeldOp) (later : List PassRun) : State :=
  let k := s.unit c
  let s := s.setUnit c { k with mu := k.mu.set u { runs := [], held := held } }
  later.foldl (fun s r =>
    let old := ((s.unit c).mu[u]).held
    if r.ending = .normal then
      match passTake s c u r old true with
      | (s, r, held) => muPush s c u r held
    else muPush s c u r old) s

/-- The retry of a pass whose check has failed: it reads its images once more; `errs` are the residue errors that strike it
(R86, R89). -/
def passRetry (s : State) (c : CoreId) (u : MuId) (r : PassRun) (errs : List CubeErr) : State :=
  match r.ending with
  | .operand => passCount (operandError s c u r) c u r 2 true
  | .normal =>
    match passChecks s c u r errs with
    | some pl =>
      let s := muEv (muEv (muLog s c u 1 pl.1 pl.2 r.entry.pc true) c u 0x2000) c u 0x2002
      passCount s c u r 2 true
    | none => passFinish (muEv s c u 0x2001) c u r 2
  | .badInfo => passCount s c u r 2 true
  | .param | .denied => passCount s c u { r with ending := .normal } 1 true

/-- The oldest started pass of a unit completes; `f` are the residue errors that strike it and its retry (R68, R86,
R89). -/
def passComplete (s : State) (c : CoreId) (u : MuId) (f : CheckFault) : State :=
  let k := s.unit c
  let m := k.mu[u]
  match m.runs with
  | [] => s
  | r :: rest =>
    let s := s.setUnit c { k with mu := k.mu.set u { m with runs := rest } }
    match r.ending with
    | .param | .denied | .badInfo => passSlots (passCount s c u r 1 true) c r
    | .operand => passSlots (passCount (operandError s c u r) c u r 1 true) c r
    | .normal =>
      match passChecks s c u r f.first with
      | none => passSlots (passFinish s c u r 1) c r
      | some pl =>
        let s := muEv (muLog s c u 1 pl.1 pl.2 r.entry.pc false) c u 0x2000
        if !bit (s.rd (muBase c u)) 1 then passSlots (passCount (muEv s c u 0x2002) c u r 1 true) c r
        else
          match passTake (s.count (muBase c u + 0x38) 64 1) c u r r.before true with
          | (s, r, held) => restartRuns (passSlots (passRetry s c u r f.again) c r) c u held rest

end Sys2Proof.Machine
end

