-- ==== Sys2Proof/Machine/Scalar.lean ====
section
/-!
DEFINITION. The CTL instructions (R35 to R39, R55, R57). Each is fetched at the core's PC and executed at issue.
-/

namespace Sys2Proof.Machine

/-- Operand B: IMM where IMMB is 1, else SB (the CTL table above R35). -/
def ctlB (k : Core) (w : W128) : W64 := if ctlImmb w then fImm w else k.sget (ctlSb w)

/-- The target of a branch, IMM[14:0] (R35). -/
def ctlTarget (w : W128) : Nat := fld w 64 15

/-- An arithmetic or logical operation: SD := f SA B (R35). -/
def aluStep (s : State) (c : CoreId) (us : List Upset) (o : Op) (f : W64 → W64 → W64) : State :=
  issue s c us o (fun s w =>
    let k := s.core c
    retire (s.setCore c (k.sset (ctlSd w) (f (k.sget (ctlSa w)) (ctlB k w)))) c)

/-- NOP: no effect (R35). -/
def execNop (c : CoreId) (us : List Upset) (s : State) : Out := .next (issue s c us .nop (fun s _ => retire s c))

/-- HALT: issue stops, the core drains and halts with status IMM[15:0]; CORE_PC is the index after it (R35, R57). DEDUCED,
log entry 18: at the last index of a loop body too, where no iteration begins and LC keeps its value. -/
def execHalt (c : CoreId) (us : List Upset) (s : State) : Out :=
  .next (issue s c us .halt (fun s w =>
    let k := s.core c
    startDrain (s.setCore c { k with pc := k.pc + 1 }) c (.halt (BitVec.ofNat 16 (fld w 64 16)))))

/-- YIELD: no effect without YIELD_REQ but that a beat ends and the next begins; else the core drains towards a save
with PC + 1 and the live-range mask (R55, R387). DEDUCED, log entry 18: an honoured YIELD at the last index of a loop body
saves PC + 1 too, and LC keeps its value. -/
def execYield (c : CoreId) (us : List Upset) (s : State) : Out :=
  .next (issue s c us .yield (fun s w =>
    let s := endBeat s c
    if bit (s.rd (coreBase c + 8)) 3 then
      let k := s.core c
      startDrain (s.setCore c { k with pc := k.pc + 1 }) c (.yield k.pc (fImm w))
    else retire (beginBeat s c) c))

/-- JMP: PC := IMM[14:0] (R35). -/
def execJmp (c : CoreId) (us : List Upset) (s : State) : Out :=
  .next (issue s c us .jmp (fun s w => retireTo s c (ctlTarget w)))

/-- CALL: push PC + 1, then PC := IMM[14:0]; a full call stack halts the core (R35, R38). -/
def execCall (c : CoreId) (us : List Upset) (s : State) : Out :=
  .next (issue s c us .call (fun s w =>
    let k := s.core c
    if 16 ≤ k.calls.length then faultHaltEv s c 0xF005#16 k.pc 0x1008 0
    else retireTo (s.setCore c { k with calls := (k.pc + 1) :: k.calls }) c (ctlTarget w)))

/-- RET: PC := the popped value; an empty call stack halts the core (R35, R38). -/
def execRet (c : CoreId) (us : List Upset) (s : State) : Out :=
  .next (issue s c us .ret (fun s _ =>
    let k := s.core c
    match k.calls with
    | [] => faultHaltEv s c 0xF005#16 k.pc 0x1008 0
    | t :: rest => retireTo (s.setCore c { k with calls := rest }) c t))

/-- The count of a LOOP: IMM[31:0] where B is the immediate, whose [46:32] names the end index, else SB (R35, R37). -/
def loopCount (k : Core) (w : W128) : W64 := if ctlImmb w then BitVec.ofNat 64 (fld w 64 32) else k.sget (ctlSb w)

/-- LOOP: load the level's counter and body; a count of zero skips the body (R37). -/
def execLoop (c : CoreId) (us : List Upset) (s : State) : Out :=
  .next (issue s c us .loop (fun s w =>
    let k := s.core c
    let last := fld w 96 15
    let n := loopCount k w
    let l : Fin 4 := ⟨fld w 16 2, Nat.mod_lt _ (by decide)⟩
    let s := s.setCore c { k with loops := k.loops.set l { count := n, first := k.pc + 1, last := last } }
    retireTo s c (if n = 0#64 then last + 1 else k.pc + 1)))

/-- ADD: the 64-bit wrapping sum (R35). -/
def execAdd (c : CoreId) (us : List Upset) (s : State) : Out := .next (aluStep s c us .add (fun a b => a + b))
/-- SUB: the 64-bit wrapping difference (R35). -/
def execSub (c : CoreId) (us : List Upset) (s : State) : Out := .next (aluStep s c us .sub (fun a b => a - b))
/-- AND (R35). -/
def execAnd (c : CoreId) (us : List Upset) (s : State) : Out := .next (aluStep s c us .and (fun a b => a &&& b))
/-- OR (R35). -/
def execOr (c : CoreId) (us : List Upset) (s : State) : Out := .next (aluStep s c us .or (fun a b => a ||| b))
/-- XOR (R35). -/
def execXor (c : CoreId) (us : List Upset) (s : State) : Out := .next (aluStep s c us .xor (fun a b => a ^^^ b))
/-- SHL by B[5:0] (R35). -/
def execShl (c : CoreId) (us : List Upset) (s : State) : Out :=
  .next (aluStep s c us .shl (fun a b => a <<< (fld b 0 6)))
/-- SHR, logical, by B[5:0] (R35). -/
def execShr (c : CoreId) (us : List Upset) (s : State) : Out :=
  .next (aluStep s c us .shr (fun a b => a >>> (fld b 0 6)))
/-- SRA, arithmetic, by B[5:0] (R35). -/
def execSra (c : CoreId) (us : List Upset) (s : State) : Out :=
  .next (aluStep s c us .sra (fun a b => a.sshiftRight (fld b 0 6)))
/-- MUL: the low 64 bits of the product (R35). -/
def execMul (c : CoreId) (us : List Upset) (s : State) : Out := .next (aluStep s c us .mul (fun a b => a * b))

/-- CMP: P[SD[2:0]] := SA cond B (R35, R36). -/
def execCmp (c : CoreId) (us : List Upset) (s : State) : Out :=
  .next (issue s c us .cmp (fun s w =>
    let k := s.core c
    retire (s.setCore c (k.pset (fld w 16 3) (cmpCond (ctlCond w) (k.sget (ctlSa w)) (ctlB k w)))) c))

/-- LI: SD := IMM (R35). -/
def execLi (c : CoreId) (us : List Upset) (s : State) : Out :=
  .next (issue s c us .li (fun s w => retire (s.setCore c ((s.core c).sset (ctlSd w) (fImm w))) c))

/-- The address of LD and ST: SA + IMM (R35). -/
def ldstAddr (k : Core) (w : W128) : Nat := (k.sget (ctlSa w) + fImm w).toNat

/-- Whether LD and ST may access an address: 8-byte aligned and below 16 MiB (R39). -/
def ldstOk (a : Nat) : Bool := a % 8 == 0 && decide (a < spSize)

/-- LD: SD := 8 bytes of the core's own scratchpad (R39, R226, R233, R236). -/
def execLd (c : CoreId) (us : List Upset) (s : State) : Out :=
  .next (issue s c us .ld (fun s w =>
    let k := s.core c
    let a := ldstAddr k w
    if !ldstOk a then faultHaltEv s c 0xF004#16 k.pc 0x1007 a
    else
      let v := BitVec.ofNat 64 (leNat (spBytes s c a 8))
      match spRead s c (s.jobOf c) a 8 with
      | (s, some _) => faultHalt s c 0xF004#16 k.pc
      | (s, none) => retire (s.setCore c ((s.core c).sset (ctlSd w) v)) c))

/-- ST: 8 bytes of the core's own scratchpad := SB (R39, R226, R233, R236). -/
def execSt (c : CoreId) (us : List Upset) (s : State) : Out :=
  .next (issue s c us .st (fun s w =>
    let k := s.core c
    let a := ldstAddr k w
    if !ldstOk a then faultHaltEv s c 0xF004#16 k.pc 0x1007 a
    else
      match spWrite s c (s.jobOf c) a (leBytes 8 (k.sget (ctlSb w)).toNat) with
      | (s, some _) => faultHalt s c 0xF004#16 k.pc
      | (s, none) => retire s c))

/-- CYCLES of a core as read now: it has moved by an amount the model leaves free (R59). -/
def readCycles (s : State) (c : CoreId) : W64 × State :=
  let (k, s) := s.fresh
  let v := s.rd (coreBase c + 0x68) + BitVec.ofNat 64 (Config.cycles k)
  (v, s.wr (coreBase c + 0x68) v)

/-- A system value of GETSYS: core number, job ID (0 for a core held by no job), CYCLES, TS_NOW (R36). -/
def sysValue (s : State) (c : CoreId) (sel : Nat) : W64 × State :=
  match sel with
  | 0 => (BitVec.ofNat 64 c.val, s)
  | 1 => (BitVec.ofNat 64 ((s.jobOf c).getD 0), s)
  | 2 => readCycles s c
  | _ => s.now

/-- GETSYS: SD := system value IMM[3:0] (R35, R36). -/
def execGetsys (c : CoreId) (us : List Upset) (s : State) : Out :=
  .next (issue s c us .getsys (fun s w =>
    let (v, s) := sysValue s c (fld w 64 4)
    retire (s.setCore c ((s.core c).sset (ctlSd w) v)) c))

end Sys2Proof.Machine
end

