-- ==== Sys2Proof/Machine/Sync.lean ====
section
/-!
DEFINITION. Semaphores and job scope (R52 to R54), the blocking SYNC instructions and what lets them go (R45, R51, R53,
R227, R229), and the SYNC instructions of the fabric queue (R45, R48).
-/

namespace Sys2Proof.Machine

/-! ### Semaphores -/

/-- The count of a semaphore. -/
def semGet (k : Local) (i : Nat) : BitVec 16 :=
  match fin? 64 i with
  | some j => k.sems[j]
  | none => 0#16

/-- The state with a semaphore's count replaced. -/
def semSet (s : State) (c : CoreId) (i : Nat) (v : BitVec 16) : State :=
  match fin? 64 i with
  | some j => s.setLoc c { s.loc c with sems := (s.loc c).sems.set j v }
  | none => s

/-- A blocking instruction completes with 1 in PT and issue goes on (R53, R229). -/
def unblock (s : State) (c : CoreId) (pt : Nat) (ok : Bool) : State :=
  let k := s.unit c
  let s := s.setUnit c { k with told := clrBit k.told 5 }
  retire (s.setCore c ({ s.core c with blocked := none }.pset pt ok)) c

/-- What a core's blocking instruction waits for is tested, and a drain with nothing left ends: the last act of every
command that changes a semaphore, a guard or a unit (R51, R53, R57, R227). -/
def wake (s : State) (c : CoreId) : State :=
  let k := s.core c
  let s :=
    if k.run = .running then
      match k.blocked with
      | none => s
      | some (.wait sem v pt) =>
        let n := (semGet (s.loc c) sem).toNat
        if v ≤ n then unblock (semSet s c sem (BitVec.ofNat 16 (n - v))) c pt true else s
      | some (.fence units fab) =>
        let u := s.unit c
        let free (i : Nat) (x : UnitSel) : Bool := !units.testBit i || unitIdle u x
        if free 0 .mu0 && free 1 .mu1 && free 2 .ve && free 3 .dma && (!fab || unitIdle u .fab) then
          unblock s c 0 true
        else s
      | some (.slot g filled pt) => if guardFilled s c g == filled then unblock s c pt true else s
    else s
  settle s c

/-- A SIGNAL is applied to a core's semaphore: the count saturates, with SEM_OVERFLOW on the target core (R52). -/
def semAdd (s : State) (c : CoreId) (sem v : Nat) : State :=
  let n := (semGet (s.loc c) sem).toNat + v
  let s := semSet s c sem (BitVec.ofNat 16 (min n 0xFFFF))
  let s := if 0xFFFF < n then s.coreEv c 0x1005 (s.core c).pc 0 else s
  wake s c

/-- Where a SIGNAL of a job finds its target core (R54). -/
inductive SigPath where
  | drop | apply (t : CoreId) | hold
deriving DecidableEq, Repr

/-- The table of R54 for a job and a target core; a core whose domain is off takes nothing (R18). -/
def sigPath (s : State) (job : Option Nat) (target : Nat) : SigPath :=
  match job, fin? 48 target with
  | some j, some t =>
    if !s.inSet j t ∨ !s.domainOn t.val then .drop
    else
      let k := s.core t
      let here := bit (s.heldBy j) t
      let saved := k.status = 0xF009#16 ∨ k.status = 0xF00A#16
      match k.run with
      | .running => if here then .apply t else .hold
      | .draining _ => if here then .apply t else .hold
      | .halted => if here ∧ ¬saved then .apply t else .hold
      | _ => .hold
  | _, _ => .drop

/-- Delivery of a SIGNAL: applied, or dropped with `reject`; none where it is held (R54). -/
def sigSend (s : State) (job : Option Nat) (target sem v : Nat) (reject : State → State) : Option State :=
  match sigPath s job target with
  | .drop => some (reject s)
  | .apply t => some (semAdd s t sem v)
  | .hold => none

/-- SEM_REMOTE_REJECT of an issuing core (R54). -/
def sigReject (c : CoreId) (pc : Nat) (s : State) : State := s.coreEv c 0x1006 pc 0

/-- A core's held signals retry delivery in order, until one is held again (R54). -/
def retryHeld (c : CoreId) : Nat → State → State
  | 0, s => s
  | fuel + 1, s =>
    match (s.unit c).held with
    | [] => s
    | h :: rest =>
      let t := s.setUnit c { s.unit c with held := rest }
      match sigSend t (s.jobOf c) h.target h.sem h.value (sigReject c h.pc) with
      | none => s
      | some t => retryHeld c fuel t

/-! ### Unit completions of the VE (R47, R48) -/

/-- The oldest started vector operation completes: VRED and VMOVS write SD, which lets waiting instructions issue. -/
def veComplete (s : State) (c : CoreId) : State :=
  let u := s.unit c
  match u.ve with
  | [] => s
  | r :: rest =>
    let s := s.setUnit c { u with ve := rest }
    let s := match r.sd with
      | none => s
      | some (i, v) => let k := s.core c; s.setCore c { k.sset i v with pendSd := k.pendSd.erase i }
    wake s c

/-! ### Fabric SYNC entries -/

/-- The entry at the head of the fabric queue where the fabric may act on it: nothing has started and no signal is held
(R48, R54). DEDUCED, log entry 25: the entries behind a held SIGNAL stay in the queue and keep the drain of a YIELD or HALT
waiting, so that one SIGNAL is held at a time; a restore sends the held signals of the image again. -/
def fabHead (s : State) (c : CoreId) : Option (Entry × List Entry) :=
  if !canStart s c || (s.unit c).fab.isSome || !(s.unit c).held.isEmpty then none
  else
    match qOf s c .fab with
    | [] => none
    | e :: rest => some (e, rest)

/-- The target core of a SIGNAL of core `c`: TCORE 0x3F is the issuing core (R45). -/
def signalTarget (c : CoreId) (w : W128) : Nat := if syTcore w = 0x3F then c.val else syTcore w

/-- The SIGNAL at the head of the fabric queue reaches its target: applied, dropped or held (R54). -/
def signalApply (s : State) (c : CoreId) : State :=
  match fabHead s c with
  | none => s
  | some (e, rest) =>
    if decodeOp e.pc e.word ≠ some .signal then s
    else
      let w := e.word
      let s := popHead s c .fab rest
      match sigSend s (s.jobOf c) (signalTarget c w) (sySem w) (syValue w) (sigReject c e.pc) with
      | some s => wake s c
      | none =>
        let u := s.unit c
        wake (s.setUnit c { u with
          held := u.held ++ [{ target := signalTarget c w, sem := sySem w, value := syValue w, pc := e.pc }] }) c

/-- The SLOT_FILL or SLOT_DRAIN at the head of the fabric queue takes effect (R227). -/
def slotSync (s : State) (c : CoreId) : State :=
  match fabHead s c with
  | none => s
  | some (e, rest) =>
    match decodeOp e.pc e.word with
    | some .slotFill => wake (setGuard (popHead s c .fab rest) c (sySlot e.word) true) c
    | some .slotDrain => wake (setGuard (popHead s c .fab rest) c (sySlot e.word) false) c
    | _ => s

/-! ### Timeouts (R53, R229) -/

/-- A WAIT times out (R53). -/
def semTimeout (s : State) (c : CoreId) : State :=
  let k := s.core c
  if fld (s.rd (coreBase c + 0x38)) 0 32 = 0 ∨ k.run ≠ .running then s
  else
    match k.blocked with
    | some (.wait _ _ pt) =>
      if pt = 0 then faultHaltEv s c 0xF003#16 k.pc 0x1004 0
      else unblock (s.coreEv c 0x1004 k.pc 0) c pt false
    | _ => s

/-- SLOT_GUARD_TIMEOUT of a guard and a waiting unit: logged, counted and raised; fatal timeouts fail the step (R229,
R384). -/
def slotTimeoutEv (s : State) (c : CoreId) (guard unit : Nat) (fatal : Bool) : State :=
  let log := bit63 ||| BitVec.ofNat 64 (guard + unit * 4096)
  let s := (s.wr (coreBase c + 0x4088) log).count (coreBase c + 0x4078) 32 1
  s.raiseIf fatal 0x1010 c 0 (s.jobOf c) log.toNat 0

/-- The code of a unit in SLOT_TO_LOG (R247). -/
def slotUnit : UnitSel → Nat
  | .mu0 => 0 | .mu1 => 1 | .ve => 2 | .dma => 2 | .fab => 3

/-- The guard timer of a waiting unit expires, `none` being the scalar unit (R229). -/
def slotTimeout (s : State) (c : CoreId) (w : Option UnitSel) : State :=
  let fatal := bit (s.rd (coreBase c + 0x4000)) 0
  let k := s.core c
  if fld (s.rd (coreBase c + 0x4008)) 0 32 = 0 ∨ !s.domainOn c.val then s
  else
    match w with
    | none =>
      match (if k.run = .running then k.blocked else none) with
      | some (.slot g filled pt) =>
        if guardFilled s c g = filled ∨ bit (s.unit c).told 5 then s
        else
          let s := slotTimeoutEv s c g 4 fatal
          if fatal then faultHalt s c 0xF006#16 k.pc
          else if pt ≠ 0 then unblock s c pt false
          else s.setUnit c { s.unit c with told := setBit (s.unit c).told 5 }
      | _ => s
    | some u =>
      match (if canStart s c then qOf s c u else []) with
      | [] => s
      | e :: _ =>
        match (if bit (s.unit c).told (unitIx u).val then none else holdingGuard s c e) with
        | none => s
        | some g =>
          let s := slotTimeoutEv s c g (slotUnit u) fatal
          if fatal then faultHalt s c 0xF006#16 e.pc
          else s.setUnit c { s.unit c with told := setBit (s.unit c).told (unitIx u).val }

/-! ### The instructions (R45, R51 to R53, R227) -/

/-- SIGNAL: queued on the fabric queue (R45, R52). -/
def execSignal (c : CoreId) (us : List Upset) (s : State) : Out := .next (issueTo s c us .signal .fab)

/-- WAIT: issue blocks until the semaphore holds at least VALUE, which is then subtracted (R52, R53). -/
def execWait (c : CoreId) (us : List Upset) (s : State) : Out :=
  .next (issue s c us .wait (fun s w =>
    wake (s.setCore c { s.core c with blocked := some (.wait (sySem w) (syValue w) (syPt w)) }) c))

/-- SET: the semaphore of the issuing core takes VALUE (R52). -/
def execSet (c : CoreId) (us : List Upset) (s : State) : Out :=
  .next (issue s c us .set (fun s w => retire (semSet s c (sySem w) (BitVec.ofNat 16 (syValue w))) c))

/-- FENCE: issue blocks until every instruction of the named units, and of the fabric queue, has completed (R51). -/
def execFence (c : CoreId) (us : List Upset) (s : State) : Out :=
  .next (issue s c us .fence (fun s w =>
    wake (s.setCore c { s.core c with blocked := some (.fence (syUnits w) (syFab w)) }) c))

/-- SLOT_FILL: queued on the fabric queue; where that queue is empty and `now` holds, it takes effect in the same
command (R45, R227). -/
def execSlotFill (c : CoreId) (now : Bool) (us : List Upset) (s : State) : Out :=
  let idle := now && unitIdle (s.unit c) .fab
  let s := issueTo s c us .slotFill .fab
  .next (if idle then slotSync s c else s)

/-- SLOT_DRAIN: as SLOT_FILL (R45, R227). -/
def execSlotDrain (c : CoreId) (now : Bool) (us : List Upset) (s : State) : Out :=
  let idle := now && unitIdle (s.unit c) .fab
  let s := issueTo s c us .slotDrain .fab
  .next (if idle then slotSync s c else s)

/-- SLOT_WAITF: issue blocks until the guard is FILLED, and 1 goes to PT (R45, R227, R229). -/
def execSlotWaitf (c : CoreId) (us : List Upset) (s : State) : Out :=
  .next (issue s c us .slotWaitf (fun s w =>
    wake (s.setCore c { s.core c with blocked := some (.slot (sySlot w) true (syPt w)) }) c))

/-- SLOT_WAITE: issue blocks until the guard is DRAINED, and 1 goes to PT (R45, R227, R229). -/
def execSlotWaite (c : CoreId) (us : List Upset) (s : State) : Out :=
  .next (issue s c us .slotWaite (fun s w =>
    wake (s.setCore c { s.core c with blocked := some (.slot (sySlot w) false (syPt w)) }) c))

/-- HALT_DRAIN_COMPLETE: a drain with nothing left to wait for ends in HALTED (R57). -/
def execHaltDrainComplete (c : CoreId) (s : State) : Out := .next (s.live (settle s c))

/-- SEMAPHORE_SIGNAL_APPLY: the SIGNAL at the head of a core's fabric queue reaches its target (R54). -/
def execSemaphoreSignalApply (c : CoreId) (s : State) : Out := .next (s.live (signalApply s c))

/-- SEM_TIMEOUT_EXPIRY: a core's WAIT has waited SEM_TIMEOUT cycles (R53). -/
def execSemTimeoutExpiry (c : CoreId) (s : State) : Out := .next (s.live (semTimeout s c))

/-- SLOT_TIMEOUT_EXPIRY: a guard wait has reached SLOT_TIMEOUT (R229). -/
def execSlotTimeoutExpiry (c : CoreId) (w : Option UnitSel) (s : State) : Out := .next (slotTimeout s c w)

end Sys2Proof.Machine
end

