-- ==== Sys2Proof/Machine/Dma.lean ====
section
/-!
DEFINITION. The DMA channels (R239 to R246): the requests of each transfer mode, their progress, and the completion of
a transfer.
-/

namespace Sys2Proof.Machine

/-! ### Spans and requests (R239, R241 to R245) -/

/-- The requests for `len` bytes at `a`: aligned 64-byte units, up to 16 of them in one packet from or to a peer. -/
def splitReads (s : State) (a len off : Nat) : List DmaReq :=
  let unit := match placeOf s a len with
    | .peer _ _ => 1024
    | _ => 64
  let first := a / unit
  let n := if len = 0 then 0 else (a + len - 1) / unit + 1 - first
  (List.range n).map (fun i =>
    let lo := max a ((first + i) * unit)
    let hi := min (a + len) ((first + i + 1) * unit)
    .read lo (hi - lo) (off + (lo - a)))

/-- The requests that write `bs` at `a`. -/
def splitWrites (s : State) (a : Nat) (bs : List Byte) : List DmaReq :=
  (splitReads s a bs.length 0).map (fun r =>
    match r with
    | .read lo len off => .write lo ((bs.drop off).take len)
    | r => r)

/-- The source rows of a strided-like source: address, length and place in the source stream. -/
def rowReads (s : State) (src n len stride : Nat) : List DmaReq :=
  (List.range n).flatMap (fun i => splitReads s (src + stride * i) len (len * i))

/-- Bits of an element of a blocked mode (R243). -/
def blkBits (p : Nat) : Nat := match bEw p with | 0 => 8 | 1 => 4 | _ => 16
/-- Whether a mode's logical source is the transpose of the matrix at SSRC (R243). -/
def blkTrans (mode : Nat) : Bool := mode == 4 || mode == 5
/-- The blocks (a, b) of a blocked transfer with line and position, padding left out (R243). -/
def blkPlaces (mode len p : Nat) : List (Nat × Nat × Nat × Nat) :=
  let P := blkPos mode
  let S := blkSteps mode len
  let lines := if bNoskew p then S else S + P - 1
  (List.range lines).flatMap (fun t => (List.range P).filterMap (fun j =>
    let i := if bNoskew p then t else t - j
    if (!bNoskew p && decide (t < j)) || decide (S ≤ i) then none
    else if bOrient p = 0 then some (j, i, t, j) else some (i, j, t, j)))
/-- Lines of the image of a blocked transfer. -/
def blkLines (mode len p : Nat) : Nat :=
  if bNoskew p then blkSteps mode len else blkSteps mode len + blkPos mode - 1

/-- Rows and bytes of a row of one block of the matrix at SSRC: of the block of X, or of its transpose. -/
def blkShape (mode p : Nat) : Nat × Nat :=
  let r := blkRows (bOpnd p) (bEw p)
  let b := blkBytes (bOpnd p) (bEw p)
  if blkTrans mode then (8 * b / blkBits p, r * blkBits p / 8) else (r, b)

/-- The block rows of a blocked transfer: a row that crosses an aligned 64-byte unit is two reads (R239, R243). -/
def blkReads (s : State) (mode len p src : Nat) : List DmaReq :=
  let (r, b) := blkShape mode p
  let ps := blkPlaces mode len p
  (List.range ps.length).flatMap (fun n =>
    let x := getD ps n (0, 0, 0, 0)
    let (bi, bj) := if blkTrans mode then (x.2.1, x.1) else (x.1, x.2.1)
    (List.range r).flatMap (fun i => splitReads s (src + 8 * bSstr p * (bi * r + i) + bj * b) b (64 * n + b * i)))

/-- The source span of a blocked transfer in bytes. -/
def blkSpan (mode len p : Nat) : Nat :=
  let (r, b) := blkShape mode p
  let P := blkPos mode
  let S := blkSteps mode len
  let (na, nb) := if bOrient p = 0 then (P, S) else (S, P)
  let (nr, nb) := if blkTrans mode then (nb * r, na * b) else (na * r, nb * b)
  (nr - 1) * (8 * bSstr p) + nb

/-- The transpose of a matrix of `rows` × `cols` elements of `w` bits, row by row (R242, R243). -/
def transpose (w rows cols : Nat) (bs : List Byte) : List Byte :=
  let x := leNat bs
  let out := (List.range (rows * cols)).foldl (fun (n : Nat) k =>
    let c := k / rows
    let r := k % rows
    n + nfld x (w * (r * cols + c)) w * 2 ^ (w * k)) 0
  leBytes bs.length out

/-- The writes of a transfer of word `w` to `dst` from its whole source stream `bs`; `core` is the device address of
the issuing core's scratchpad (R241 to R245). -/
def dmaWrites (s : State) (w : W128) (dst core : Nat) (bs : List Byte) : List DmaReq :=
  let p := xParam w
  let len := xLen w
  match xMode w with
  | 0 => splitWrites s dst bs
  | 6 => splitWrites s dst bs
  | 7 =>
    let row := 64 * xRb p
    (List.range (len / row)).flatMap (fun i => splitWrites s (dst + 64 * xDstr p * i) ((bs.drop (row * i)).take row))
  | 3 =>
    let rows := tRows len p
    let cols := 512 * tCb p / tBits p
    let t := transpose (tBits p) rows cols bs
    let row := rows * tBits p / 8
    (List.range cols).flatMap (fun i => splitWrites s (dst + 64 * tDstr p * i) ((t.drop (row * i)).take row))
  | m =>
    let ps := blkPlaces m len p
    let P := blkPos m
    let (r, b) := blkShape m p
    let blk (n : Nat) : List Byte :=
      let x := (bs.drop (64 * n)).take 64
      if blkTrans m then transpose (blkBits p) r (8 * b / blkBits p) x else x
    let img := (List.range ps.length).map (fun n =>
      let x := getD ps n (0, 0, 0, 0)
      DmaReq.write (dst + 64 * P * x.2.2.1 + 64 * x.2.2.2) (blk n))
    let S := blkSteps m len
    let zero (i k : Nat) : Bool := (List.range ps.length).any (fun n =>
      let x := getD ps n (0, 0, 0, 0)
      x.1 == i && x.2.1 == k && (blk n).all (· == 0#8))
    let map := (List.range (alignUp S 64)).map (fun k =>
      if S ≤ k then 0#8
      else BitVec.ofNat 8 ((List.range 8).foldl (fun n i => if zero i k then n + 2 ^ i else n) 0))
    img ++ (if bZmen p then splitWrites s (core + 64 * bZmofs p) map else [])

/-! ### The checks before the first request (R241 to R246) -/

/-- The device address of a core's scratchpad (R237). -/
def spDev (c : CoreId) : Nat := 0x10000000000 + c.val * 0x1000000

/-- Whether a span decodes (R237, R246). -/
def spanOk (s : State) (a len : Nat) : Bool := placeOf s a len != .bad

/-- The bytes between the first and last byte of a transfer's destination. -/
def dstSpan (w : W128) : Nat :=
  let p := xParam w
  let len := xLen w
  match xMode w with
  | 0 => len
  | 6 => len
  | 7 => (len / (64 * xRb p) - 1) * (64 * xDstr p) + 64 * xRb p
  | 3 => (512 * tCb p / tBits p - 1) * (64 * tDstr p) + tRows len p * tBits p / 8
  | m => blkLines m len p * (64 * blkPos m)

/-- The bytes between the first and last byte of a transfer's source. -/
def srcSpan (w : W128) : Nat :=
  let p := xParam w
  let len := xLen w
  match xMode w with
  | 0 => len
  | 6 => 64
  | 7 => (len / (64 * xRb p) - 1) * (64 * xSstr p) + 64 * xRb p
  | 3 => (tRows len p - 1) * (64 * tSstr p) + 64 * tCb p
  | m => blkSpan m len p

/-- A span of addresses that lies in the issuing core's own scratchpad. -/
def ownSp (s : State) (c : CoreId) (a len : Nat) : Option Nat :=
  match placeOf s a len with
  | .sp t off => if t = c then some off else none
  | _ => none

/-- The failure of a transfer before its first request, with the address at fault: a span that does not decode, a
blocked destination outside the issuing core's scratchpad, or a misaligned address (R241 to R243, R246). DESIGN CHOICE,
log entry 35: a gather-list transfer needs the alignment of the linear mode, of its descriptor and of its destination. -/
def dmaCheck (s : State) (c : CoreId) (w : W128) (src dst : Nat) : Option (Nat × Nat) :=
  let p := xParam w
  let m := xMode w
  if !spanOk s src (srcSpan w) then some (1, src)
  else if m ≠ 6 ∧ !spanOk s dst (dstSpan w) then some (1, dst)
  else if m = 0 ∨ m = 3 ∨ m = 6 ∨ m = 7 then
    if src % 64 ≠ 0 then some (2, src) else if dst % 64 ≠ 0 then some (2, dst) else none
  else if (ownSp s c dst (dstSpan w)).isNone then some (7, dst)
  else if bZmen p && decide (spSize < 64 * bZmofs p + alignUp (blkSteps m (xLen w)) 64) then some (7, spDev c + 64 * bZmofs p)
  else if src % blkBytes (bOpnd p) (bEw p) ≠ 0 then some (2, src)
  else if dst % (64 * blkPos m) ≠ 0 then some (2, dst)
  else none

/-- Whether a gather descriptor is valid (R245). -/
def gatherOk (d : List Byte) : Bool :=
  leAt d 0 8 % 64 == 0 && leAt d 8 4 % 64 == 0 && decide (1 ≤ leAt d 12 2 ∧ leAt d 12 2 ≤ 256) &&
  decide (leAt d 14 1 ≤ 1) && leAt d 15 1 == 0 && leAt d 16 4 % 4 == 0 && decide (leAt d 20 4 ≤ 65536) &&
  leAt d 24 40 == 0 && decide (leAt d 16 4 + 4 * leAt d 20 4 ≤ spSize)

/-- The requests of a gather from its descriptor and its list of row indices: each row's span, then its reads (R245,
R246). -/
def gatherReads (s : State) (d : List Byte) (idx : List Nat) : List DmaReq :=
  let len := 64 * leAt d 12 2
  (List.range idx.length).flatMap (fun j =>
    let a := leAt d 0 8 + leAt d 8 4 * getD idx j 0
    .span a len :: splitReads s a len (len * j))

/-- The reads of a gather list, one aligned unit of 64 bytes after another: the bytes read before the first fault, and that
fault (R246). -/
def listRead (c : CoreId) (job : Option Nat) : List (Nat × Nat) → State → List Byte → State × List Byte × Option (Nat × Nat)
  | [], s, got => (s, got, none)
  | (a, n) :: l, s, got =>
    match spRead s c job a n with
    | (s, some e) => (s, got, some (spErrCode e, spDev c + a))
    | (s, none) => listRead c job l s (got ++ spBytes s c a n)

/-- The parts of a span that lie in one aligned unit of 64 bytes each. -/
def unitParts (a len : Nat) : List (Nat × Nat) :=
  if len = 0 then []
  else
    (List.range ((a + len - 1) / 64 + 1 - a / 64)).map (fun i =>
      let lo := max a (64 * (a / 64 + i))
      (lo, min (a + len) (64 * (a / 64 + i) + 64) - lo))

/-- The reads of a gather-list transfer: its descriptor is read and checked, then its list, whose fault the transfer meets
after the rows named before it (R245, R246). -/
def gatherStart (s : State) (c : CoreId) (w : W128) (src dst : Nat) (job : Option Nat) :
    State × (List DmaReq ⊕ (Nat × Nat)) :=
  match ownSp s c src 64 with
  | none => (s, .inr (7, src))
  | some off =>
    match spRead s c job off 64 with
    | (s, some e) => (s, .inr (spErrCode e, src))
    | (s, none) =>
      let d := spBytes s c off 64
      let n := leAt d 20 4
      let total := 64 * leAt d 12 2 * n
      if !gatherOk d ∨ xLen w < total then (s, .inr (7, src))
      else if !spanOk s dst total then (s, .inr (1, dst))
      else
        match listRead c job (unitParts (leAt d 16 4) (4 * n)) s [] with
        | (s, l, f) =>
          let idx := (List.range (l.length / 4)).map (fun j => if leAt d 14 1 = 0 then leAt l (4 * j) 2 else leAt l (4 * j) 4)
          (s, .inl (gatherReads s d idx ++ (match f with | some (k, a) => [.fault k a] | none => [])))

/-- The reads of a transfer in order, or the failure before its first request. -/
def dmaReads (s : State) (c : CoreId) (w : W128) (src dst : Nat) (job : Option Nat) :
    State × (List DmaReq ⊕ (Nat × Nat)) :=
  let p := xParam w
  let len := xLen w
  match dmaCheck s c w src dst with
  | some f => (s, .inr f)
  | none =>
    match xMode w with
    | 0 => (s, .inl (splitReads s src len 0))
    | 7 => (s, .inl (rowReads s src (len / (64 * xRb p)) (64 * xRb p) (64 * xSstr p)))
    | 3 => (s, .inl (rowReads s src (tRows len p) (64 * tCb p) (64 * tSstr p)))
    | 6 => gatherStart s c w src dst job
    | m => (s, .inl (blkReads s m len p src))

/-! ### Progress -/

/-- The device address of the scratchpad of the issuing core, as a transfer's failure address names it. -/
def dmaAddr (a : Nat) : W64 := BitVec.ofNat 64 a

/-- What one request of a transfer comes to: done, sent to a peer, to the tier or to the host, failed, or not possible
yet. -/
inductive Step1 where
  | got (bs : List Byte)
  | sent (o : DmaOut)
  | tier
  | host
  | fail (code : Nat)
  | wait
deriving DecidableEq, Repr

/-- The state and outcome of a local access as one request. -/
def fromAcc (x : State × AccEnd) : State × Step1 :=
  match x with
  | (s, .ok bs) => (s, .got bs)
  | (s, .fail k) => (s, .fail k)
  | (s, .wait) => (s, .wait)

/-- The configured port of the owner or of the standby. -/
def portOf (s : State) (owner : Bool) : PortFn := if s.host.ownerB == owner then s.host.fnB else s.host.fnA

/-- Whether a function may have one more read request out (R19, R331, R355). -/
def hostRoom (s : State) (fn : Nat) : Bool :=
  let p := portOf s true
  decide (s.host.reads.length < 4096) &&
    decide ((s.host.reads.filter (fun x => x.fn == fn)).length < (if p.tags10 then 768 else 256))

/-- A read request leaves the owner port for the memory of a function (R331, R338). -/
def hostSend (s : State) (x : HostRead) : State :=
  let h := s.host
  let p := portOf s true
  { s with host := { h with out := h.out ++ [.read x.fn x.addr x.len (x.ordered && p.relaxed)], reads := h.reads ++ [x] } }

/-- A write to the memory of a function leaves the owner port, in requests of at most Max Payload Size (R331, R343). -/
def hostPut (s : State) (fn a : Nat) (bs : List Byte) : State :=
  let m := min 512 (128 * 2 ^ (portOf s true).mps)
  let ws := (List.range ((bs.length + m - 1) / m)).map (fun k => HostOut.write fn (a + m * k) ((bs.drop (m * k)).take m))
  { s with host := { s.host with out := s.host.out ++ ws } }

/-- A read that a transfer of core `c` makes; `off` is its place in the source stream. -/
def dmaRead (s : State) (c : CoreId) (ch : Fin 4) (r : DmaRun) (a len off : Nat) : State × Step1 :=
  let job := r.job.getD 0
  match placeOf s a len with
  | .bad => (s, .fail 1)
  | .gddr x => fromAcc (gddrOutside s (.core c) job x len none)
  | .sp t o => fromAcc (if t = c then spDo s c r.job o len none else spOutside s t (.core c) job o len none)
  | .tier t =>
    match memCheck s (.core c) job (tierAddr t) len false with
    | (s, false) => (s, .fail 3)
    | (s, true) =>
      match cxlSend s { devB := false, t := t, len := len, data := none, owner := some (c, ch, r.seq, off), job := r.job } with
      | (s, .ok _) => (s, .tier)
      | (s, .fail k) => (s, .fail k)
      | (s, .wait) => (s, .wait)
  | .host x =>
    match hostCheck s r.job x len false with
    | .inr k => (s, .fail k)
    | .inl (h, addr, fn) =>
      if !hostRoom s fn then (s, .wait)
      else
        let q : HostRead := { who := .dma c ch, fn := fn, addr := addr, len := len, off := off, seq := r.seq, win := h,
                              ordered := true }
        (hostSend (s.count (hwBase h + 0x18) 32 1) q, .host)
  | .peer dev o =>
    let lo := o / 64 * 64
    let units := (o + len - lo + 63) / 64
    match peerSend s (duOf c).val job dev lo none units (.dma c ch r.seq) with
    | (s, none) => (s, .wait)
    | (s, some (_, false)) => (s, .fail 8)
    | (s, some (tag, true)) => (s, .sent { tag := tag, addr := a, off := off, len := len })

/-- A write that a transfer of core `c` makes. -/
def dmaWrite (s : State) (c : CoreId) (ch : Fin 4) (r : DmaRun) (a : Nat) (bs : List Byte) : State × Step1 :=
  let job := r.job.getD 0
  let len := bs.length
  match placeOf s a len with
  | .bad => (s, .fail 1)
  | .gddr x => fromAcc (gddrOutside s (.core c) job x len (some bs))
  | .sp t o => fromAcc (if t = c then spDo s c r.job o len (some bs) else spOutside s t (.core c) job o len (some bs))
  | .tier t =>
    match memCheck s (.core c) job (tierAddr t) len true with
    | (s, false) => (s, .fail 3)
    | (s, true) =>
      match cxlSend s { devB := false, t := t, len := len, data := some bs, owner := some (c, ch, r.seq, 0), job := r.job } with
      | (s, .ok _) => (s, .tier)
      | (s, .fail k) => (s, .fail k)
      | (s, .wait) => (s, .wait)
  | .host x =>
    match hostCheck s r.job x len true with
    | .inr k => (s, .fail k)
    | .inl (h, addr, fn) =>
      let s := s.count (hwBase h + 0x18) 32 1
      (hostPut s fn addr bs, .got [])
  | .peer dev o =>
    match peerSend s (duOf c).val job dev o (some bs) 0 (.dma c ch r.seq) with
    | (s, none) => (s, .wait)
    | (s, some (_, false)) => (s, .fail 8)
    | (s, some (tag, true)) => (s, .sent { tag := tag, addr := a, off := 0, len := len })

/-- The aligned 64-byte units that `len` bytes at `a` touch. -/
def unitsOf (a len : Nat) : Nat := (a % 64 + len + 63) / 64

/-- Transactions of a transfer that are out, in units of 64 bytes (R239). -/
def runOut (r : DmaRun) : Nat := r.out.foldl (fun n o => n + unitsOf o.addr o.len) 0 + r.cxl + r.hreads

/-- Transactions of a channel that are out. -/
def chanOut (s : State) (c : CoreId) (ch : Fin 4) : Nat := ((s.unit c).chan[ch]).foldl (fun n r => n + runOut r) 0

/-- The channels that wait for shared transactions and still have requests to issue, in order of request (R239). -/
def poolQueue (s : State) (c : CoreId) : List (Fin 4) :=
  (s.unit c).poolWait.filter (fun k => ((s.unit c).chan[k]).any (fun r => !r.todo.isEmpty))

/-- Whether the 512 transactions that the channels share have room for `n` more of a channel (R239). -/
def poolRoom (s : State) (c : CoreId) (ch : Fin 4) (n : Nat) : Bool :=
  decide ((allFin 4).foldl (fun m k => m + (chanOut s c k + (if k = ch then n else 0) - 128)) 0 ≤ 512)

/-- A channel asks for `n` more transactions: within its 128, or from the 512 the channels share, which go out in order of
request. A channel that must wait takes its place (R239). -/
def chanAsk (s : State) (c : CoreId) (ch : Fin 4) (n : Nat) : State × Bool :=
  let q := poolQueue s c
  let u := s.unit c
  if chanOut s c ch + n ≤ 128 ∨ ((q.head?).getD ch = ch ∧ poolRoom s c ch n) then
    (s.setUnit c { u with poolWait := q.erase ch }, true)
  else (s.setUnit c { u with poolWait := if q.contains ch then q else q ++ [ch] }, false)

/-- The transactions that a request takes. -/
def reqUnits : DmaReq → Nat
  | .fault _ _ => 0
  | .span _ _ => 0
  | .read a len _ => unitsOf a len
  | .write a bs => unitsOf a bs.length

/-- The run of a channel with a sequence number, and the state with it replaced. -/
def runOf (s : State) (c : CoreId) (ch : Fin 4) (seq : Nat) : Option DmaRun :=
  ((s.unit c).chan[ch]).find? (fun r => r.seq == seq)

/-- A run of a channel replaced by its sequence number. -/
def setRun (s : State) (c : CoreId) (ch : Fin 4) (r : DmaRun) : State :=
  let u := s.unit c
  s.setUnit c { u with chan := u.chan.set ch ((u.chan[ch]).map (fun x => if x.seq == r.seq then r else x)) }

/-- A transfer meets a fault: it issues no further request (R246). The first fault stands. -/
def runFail (r : DmaRun) (code a : Nat) : DmaRun :=
  { r with fail := if r.fail.isSome then r.fail else some (code, dmaAddr a), todo := [], lost := r.lost ++ r.todo }

/-- DMA_BYTES of a channel moves on (R247). -/
def dmaCount (s : State) (c : CoreId) (ch : Fin 4) (n : Nat) : State := s.count (coreBase c + 0x4818 + 0x20 * ch.val) 64 n

/-- The whole source stream of a transfer from the parts that have come; missing bytes are zero. -/
def runStream (r : DmaRun) (total : Nat) : List Byte :=
  let m : Memory := r.parts.foldl (fun m p => m.write p.1 p.2) []
  m.read 0 total

/-- The bytes of the source stream of a transfer. -/
def streamLen (w : W128) (parts : List (Nat × List Byte)) : Nat :=
  match xMode w with
  | 6 => parts.foldl (fun n p => max n (p.1 + p.2.length)) 0
  | _ => xLen w

/-- The channel's transfer issues requests until it has to wait, fails, or has issued its last (R239, R246); when its
whole source has come, its writes are laid out. -/
def dmaIssue (c : CoreId) (ch : Fin 4) (seq : Nat) : Nat → State → State
  | 0, s => s
  | fuel + 1, s =>
    match runOf s c ch seq with
    | none => s
    | some r =>
      match r.todo with
      | [] =>
        if r.writing ∨ r.fail.isSome ∨ !r.out.isEmpty ∨ r.cxl ≠ 0 ∨ r.hreads ≠ 0 then s
        else
          let ws := dmaWrites s r.word r.dst (spDev c) (runStream r (streamLen r.word r.parts))
          dmaIssue c ch seq fuel (setRun s c ch { r with writing := true, todo := ws, parts := [] })
      | q :: rest =>
        match chanAsk s c ch (reqUnits q) with
        | (s, false) => s
        | (s, true) =>
          let r' := { r with todo := rest }
          match q with
          | .fault k a => setRun s c ch (runFail r' k a)
          | .span a len =>
            if spanOk s a len then dmaIssue c ch seq fuel (setRun s c ch r') else setRun s c ch (runFail r 1 a)
          | .read a len off =>
            match dmaRead s c ch r a len off with
            | (s, .got bs) => dmaIssue c ch seq fuel (setRun s c ch { r' with parts := r.parts ++ [(off, bs)] })
            | (s, .sent o) => dmaIssue c ch seq fuel (setRun s c ch { r' with out := r.out ++ [o] })
            | (s, .tier) => dmaIssue c ch seq fuel (setRun s c ch { r' with cxl := r.cxl + 1 })
            | (s, .host) => dmaIssue c ch seq fuel (setRun s c ch { r' with hreads := r.hreads + 1 })
            | (s, .fail k) => setRun s c ch (runFail r' k a)
            | (s, .wait) => s
          | .write a bs =>
            match dmaWrite s c ch r a bs with
            | (s, .got _) => dmaIssue c ch seq fuel (dmaCount (setRun s c ch r') c ch bs.length)
            | (s, .sent o) => dmaIssue c ch seq fuel (setRun s c ch { r' with out := r.out ++ [o] })
            | (s, .tier) => dmaIssue c ch seq fuel (setRun s c ch { r' with cxl := r.cxl + 1 })
            | (s, .fail k) => setRun s c ch (runFail r' k a)
            | (s, _) => s

/-- Fuel for a transfer: its requests left, the writes still to lay out, and one more. -/
def dmaFuel (r : DmaRun) : Nat := r.todo.length + 2 * (xLen r.word / 4 + 4096) + 16

/-- The transfer of a channel that still has requests to issue goes on: the last one it has started. -/
def dmaNext (s : State) (c : CoreId) (ch : Fin 4) : State :=
  match ((s.unit c).chan[ch]).getLast? with
  | none => s
  | some r => dmaIssue c ch r.seq (dmaFuel r) s

/-- The host's answer to a read of its memory that a requester waits for: the oldest such read leaves, with the bytes it
returned or the error (R331, R355). -/
def takeRead (s : State) (who : HostWait) : State × Option HostRead :=
  match s.host.reads.find? (fun x => x.who == who) with
  | none => (s, none)
  | some x => ({ s with host := { s.host with reads := s.host.reads.erase x } }, some x)

/-- The host's answer to the oldest read of a channel: its data, or an error, which fails the transfer with code 0x09 and
raises HOST_REQ_ERROR (R338). -/
def dmaHostAnswer (s : State) (c : CoreId) (ch : Fin 4) (reply : HostReply) : State :=
  match takeRead s (.dma c ch) with
  | (s, none) => s
  | (s, some x) =>
    let run := (runOf s c ch x.seq).map (fun r => { r with hreads := r.hreads - 1 })
    match reply, replyError reply with
    | .ok bs, _ =>
      match run with
      | none => s
      | some r =>
        setRun s c ch { r with parts := r.parts ++ [(x.off, bs.take x.len ++ List.replicate (x.len - bs.length) 0#8)] }
    | _, e =>
      let s := hostError s 0x3F x.win (e.getD 0) (match run with | some r => r.job | none => none) x.addr
      match run with
      | none => s
      | some r => setRun s c ch (runFail r 9 (0x20000000000 + x.win * 0x100000000 +
          (x.addr + 2 ^ 64 - (s.rd (hwBase x.win)).toNat) % 2 ^ 64 % 0x100000000))

/-- The transfer of a channel goes on, the host's answers coming in one after another. -/
def dmaGo (s : State) (c : CoreId) (ch : Fin 4) : List HostReply → State
  | [] => dmaNext s c ch
  | h :: hs => dmaGo (dmaHostAnswer (dmaNext s c ch) c ch h) c ch hs

/-- Whether a channel has issued the last request of every transfer it has started (R239). -/
def chanIdle (s : State) (c : CoreId) (ch : Fin 4) : Bool :=
  ((s.unit c).chan[ch]).all (fun r => (r.writing || r.fail.isSome) && r.todo.isEmpty)

/-- The DMA queue hands its head to its channel, which decodes it and issues its requests (R239, R246). -/
def dmaStart (s : State) (c : CoreId) (hs : List HostReply) : State :=
  match (if canStart s c then qOf s c .dma else []) with
  | [] => s
  | e :: rest =>
    match fin? 4 (xCh e.word) with
    | none => s
    | some ch =>
      if !chanIdle s c ch ∨ (holdingGuard s c e).isSome then s
      else
        let (seq, s) := (popHead s c .dma rest).fresh
        let src := (snapGet e.s (xSsrc e.word)).toNat
        let dst := (snapGet e.s (xSdst e.word)).toNat
        let (s, plan) := dmaReads s c e.word src dst (s.jobOf c)
        let r : DmaRun := { seq := seq, pc := e.pc, word := e.word, dst := dst, job := s.jobOf c }
        let r := match plan with
          | .inl todo => { r with todo := todo }
          | .inr (k, a) => { r with fail := some (k, dmaAddr a) }
        let u := s.unit c
        let s := s.setUnit c { u with chan := u.chan.set ch (u.chan[ch] ++ [r]) }
        dmaGo s c ch hs

/-! ### Completion (R246, R248) -/

/-- Whether a write of a failed transfer would have been allowed at its place, with no side effect. -/
def quietOk (s : State) (c : CoreId) (r : DmaRun) (a len : Nat) : Option Place :=
  let job := r.job.getD 0
  match placeOf s a len with
  | .gddr x => if (memWindow s (.core c) job x len true).isSome ∧ gddrServe s x len = .yes then some (.gddr x) else none
  | .sp t o =>
    if (t = c ∨ (!coreAway s job t ∧ (spWindow s t (.core c) job o len true).isSome)) ∧ !spGecko s t r.job o len ∧
      (spBankOff s t o len).isNone then some (.sp t o) else none
  | _ => none

/-- Of a write that a failed transfer has not made, the bytes that are written all the same, and counted: R246 leaves open
which
(each byte holds its earlier value or the one it would have been given). `have_` tells which bytes of the write come
from source bytes that were read. -/
def strayWrite (s : State) (c : CoreId) (ch : Fin 4) (r : DmaRun) (k base a : Nat) (bs have_ : List Byte) : State :=
  match quietOk s c r a bs.length with
  | none => s
  | some pl =>
    (List.range bs.length).foldl (fun (s : State) i =>
      if getD have_ i 0#8 = 0xFF#8 ∧ Config.dmaWritten k (base + i) then
        let s := dmaCount s c ch 1
        match pl with
        | .gddr x => dirtyGddr { s with gddr := Memory.set s.gddr (x + i) (getD bs i 0#8) } (x + i) 1
        | .sp t o =>
          let l := s.loc t
          dirtySp (s.setLoc t { l with sp := Memory.set l.sp (o + i) (getD bs i 0#8) }) t (o + i) 1
        | _ => s
      else s) s

/-- The writes a failed transfer gave up, taken as far as R246 leaves open. -/
def strayWrites (s : State) (c : CoreId) (ch : Fin 4) (r : DmaRun) : State :=
  let (k, s) := s.fresh
  let ws :=
    if r.writing then r.lost.filterMap (fun q => match q with
      | .write a bs => some (a, bs, List.replicate bs.length (0xFF#8 : Byte))
      | _ => none)
    else if r.parts.isEmpty then []
    else
      let n := streamLen r.word r.parts
      let ones : List (Nat × List Byte) := r.parts.map (fun p => (p.1, List.replicate p.2.length 0xFF#8))
      let val : List DmaReq := dmaWrites s r.word r.dst (spDev c) (runStream r n)
      let ok : List DmaReq := dmaWrites s r.word r.dst (spDev c) (runStream { r with parts := ones } n)
      (val.zip ok).filterMap (fun x =>
        match x.1, x.2 with
        | .write a bs, .write _ os => some (a, bs, os)
        | _, _ => none)
  (ws.foldl (fun (acc : State × Nat) x => (strayWrite acc.1 c ch r k acc.2 x.1 x.2.1 x.2.2, acc.2 + x.2.1.length)) (s, 0)).1

/-- The failure of a transfer is recorded, and DMA_FAULT raised; the step of its job fails (R246, R385). DESIGN CHOICE, log
entry 35: the record names the channel (R248) in ARG0[62:61], where DMA_ERR has no field. -/
def dmaFault (s : State) (c : CoreId) (ch : Fin 4) (r : DmaRun) (code : Nat) (addr : W64) : State :=
  let b := coreBase c + 0x4808 + 0x20 * ch.val
  let v := bit63 ||| BitVec.ofNat 64 (code + xMode r.word * 2 ^ 8 + r.pc * 2 ^ 12)
  ((s.wr b v).wr (b + 8) addr).raise 0x1012 c 0 r.job (v.toNat + ch.val * 2 ^ 61) addr.toNat

/-- The oldest transfer of a channel completes where nothing of it is out: its failure is recorded, its slot action
taken (R48, R227, R246). -/
def dmaFinish (s : State) (c : CoreId) (ch : Fin 4) : State :=
  let u := s.unit c
  match u.chan[ch] with
  | [] => s
  | r :: rest =>
    if !(r.writing || r.fail.isSome) ∨ !r.todo.isEmpty ∨ !r.out.isEmpty ∨ r.cxl ≠ 0 ∨ r.hreads ≠ 0 then s
    else
      let s := s.setUnit c { u with chan := u.chan.set ch rest }
      let s := match r.fail with
        | none => s
        | some (code, addr) => dmaFault (strayWrites s c ch r) c ch r code addr
      let s := if xSfill r.word then setGuard s c (xSlot r.word) true else s
      wake s c

/-- A transfer goes on as far as it can, and completes where it can. -/
def dmaComplete (s : State) (c : CoreId) (ch : Fin 4) (hs : List HostReply) : State :=
  dmaFinish (dmaGo s c ch hs) c ch

/-- The answer of a peer to a transfer's READ or WRITE (R281): the data of a read, or a failure code. -/
def dmaAnswer (s : State) (c : CoreId) (ch : Fin 4) (seq tag code : Nat) (data : List Byte) : State :=
  match runOf s c ch seq with
  | none => s
  | some r =>
    match r.out.find? (fun o => o.tag == tag) with
    | none => s
    | some o =>
      let r := { r with out := r.out.erase o }
      if code ≠ 0 then setRun s c ch (runFail r code o.addr)
      else if r.writing then dmaCount (setRun s c ch r) c ch o.len
      else setRun s c ch { r with parts := r.parts ++ [(o.off, (data.drop (o.addr % 64)).take o.len)] }

/-- The answer of the tier to a transfer's request (R263). -/
def dmaTier (s : State) (c : CoreId) (ch : Fin 4) (seq off code : Nat) (len : Nat) (data : List Byte) (addr : Nat) :
    State :=
  match runOf s c ch seq with
  | none => s
  | some r =>
    let r := { r with cxl := r.cxl - 1 }
    if code ≠ 0 then setRun s c ch (runFail r code addr)
    else if r.writing then dmaCount (setRun s c ch r) c ch len
    else setRun s c ch { r with parts := r.parts ++ [(off, data)] }

/-- A host read that a channel waits for times out: the transfer fails with code 0x09 (R331, R338). -/
def dmaHostTimeout (s : State) (c : CoreId) (ch : Fin 4) : State := dmaHostAnswer s c ch .timeout

/-! ### The commands -/

/-- XFER COPY: queued on the DMA queue (R41, R46). -/
def execXferCopy (c : CoreId) (us : List Upset) (s : State) : Out := .next (issueTo s c us .xferCopy .dma)

/-- DMA_TRANSFER_START (R239, R246). -/
def execDmaTransferStart (c : CoreId) (us : List Upset) (hs : List HostReply) (s : State) : Out :=
  .next (wake (dmaStart (strike s us) c hs) c)

/-- DMA_TRANSFER_COMPLETE (R246). -/
def execDmaTransferComplete (c : CoreId) (ch : Fin 4) (us : List Upset) (hs : List HostReply) (s : State) : Out :=
  .next (s.live (dmaComplete (strike s us) c ch hs))

end Sys2Proof.Machine
end

