-- ==== Sys2Proof/Machine/Monitor.lean ====
section
/-!
DEFINITION. The deadline monitor (R373 to R376): counting the tokens of monitored requests.
-/

namespace Sys2Proof.Machine

/-- The units of TS_NOW in `us` microseconds: 2,500 of 0.4 ns each (R292). -/
def usUnits (us : Nat) : Nat := 2500 * us

/-- The control word of a monitored request (R375). -/
def monitorWord (m : Monitor) (active : Bool) : W64 :=
  BitVec.ofNat 64 (m.entry % 8 + (if m.fellBack then 8 else 0) + (if active then 16 else 0) +
    m.count % 65536 * 2 ^ 16 + m.mbtag.toNat * 2 ^ 32)

/-- A control word goes to the scratchpad of the job's GEN_CORE, and it waits behind an earlier one of its slot, or while that core
saves, restores or runs another job (R232, R365, R375). DESIGN CHOICE, log entry 57: where GEN_CORE names no core of the job's core set
there is no such scratchpad, and nothing is written. -/
def putWord (s : State) (w : GenWord) : State :=
  let g := s.rd (jpBase w.job + 0x38)
  match fin? 48 (fld g 0 6) with
  | none => s
  | some c =>
    if !s.inSet w.job c then s
    else if coreAway s w.job c || s.jobs.words.any (fun x => x.slot == w.slot) then
      { s with jobs := { s.jobs with words := s.jobs.words ++ [w] } }
    else spWriteAny s c (some w.job) ((64 * fld g 6 24 + 8 * w.slot) % spSize) (leBytes 8 w.word.toNat)

/-- The control word of a slot is written (R375). -/
def writeWord (s : State) (slot : Nat) (m : Monitor) (active : Bool) : State :=
  putWord s { slot := slot, job := m.job, qout := m.qout, mbtag := m.mbtag, word := monitorWord m active }

/-- The control words that wait are tried again, in their order (R232). -/
def retryWords (s : State) : State := s.jobs.words.foldl putWord { s with jobs := { s.jobs with words := [] } }

/-- Whether a control word of a micro-batch's request on a queue still waits: until it is written, the PUSH that ended the token's packet
is not complete (R375). -/
def wordWaits (s : State) (q : QId) (mbtag : BitVec 16) : Bool :=
  s.jobs.words.any (fun w => w.qout == q && w.mbtag == mbtag)

/-- The state with a monitor slot replaced. -/
def setMonitor (s : State) (i : Fin 64) (m : Option Monitor) : State :=
  { s with jobs := { s.jobs with monitors := s.jobs.monitors.set i m } }

/-- The descriptor of a monitored request is due with its status, RESULT and INFO. -/
def monitorDue (s : State) (slot ring : Nat) (status : BitVec 8) (result : BitVec 32) (info : BitVec 16) : State :=
  match fin? 34 ring with
  | none => s
  | some r =>
    let k := s.host.rings[r]
    s.setRing r { k with descs := k.descs.map (fun d =>
      match d.run with
      | some (.gen i _ _) => if i = slot then { d with run := some (.due status result info) } else d
      | _ => d) }

/-- Whether the projection of R374 misses the deadline at token `k`, stamped `t`. -/
def projMiss (m : Monitor) (k : Nat) (t : W64) : Bool :=
  let el := (t - m.t1).toNat
  decide (m.t0.toNat + usUnits m.deadline < t.toNat + (m.tokens - k) * el / (k - 1))

/-- The last token of a monitored request: it completes by the table of R376, and its slot is free. -/
def monitorEnd (s : State) (i : Fin 64) (m : Monitor) (t : W64) : State :=
  let late := decide (usUnits m.deadline < (t - m.t0).toNat)
  let result := BitVec.ofNat 32 (m.tokens % 65536 + m.firstFb * 65536)
  let fb := BitVec.ofNat 16 (if m.fellBack then 1 else 0)
  let s := writeWord s i m false
  let s := setMonitor s i none
  if !late then monitorDue s i m.ring 0#8 result fb
  else if m.fallback ≠ 0xFF then
    monitorDue (s.raise 0x0108 0 0 (some m.job) i.val 0) i m.ring 0#8 result fb
  else monitorDue (s.raise 0x0109 0 0 (some m.job) i.val 0) i m.ring 0x1B#8 result 0#16

/-- The monitor counts one token of the request in a slot (R374). -/
def monitorCount (s : State) (i : Fin 64) (m : Monitor) : State :=
  let (t, s) := s.now
  let k := m.count + 1
  let m := { m with count := k, t1 := if k = 1 then t else m.t1 }
  if m.tokens ≤ k then monitorEnd s i m t
  else
    let miss := decide (2 ≤ k) && projMiss m k t
    let (s, m) :=
      if miss && m.fallback != 0xFF && !m.fellBack then
        (s.raise 0x0106 0 0 (some m.job) i.val 0, { m with entry := m.fallback, fellBack := true, firstFb := k })
      else if miss && m.fallback == 0xFF && !m.missed then
        (s.raise 0x0107 0 0 (some m.job) i.val 0, { m with missed := true })
      else (s, m)
    setMonitor (writeWord s i m true) i (some m)

/-- A packet's EOP cell has been accepted at the tail of a queue: the monitored request of its micro-batch counts a
token (R374). -/
def monitorToken (s : State) (q : QId) (mbtag : BitVec 16) : State :=
  match (allFin 64).find? (fun i =>
    match s.jobs.monitors[i] with
    | some m => m.qout == q && m.mbtag == mbtag
    | none => false) with
  | none => s
  | some i =>
    match s.jobs.monitors[i] with
    | some m => monitorCount s i m
    | none => s

end Sys2Proof.Machine
end

