-- ==== Sys2Proof/Machine/Queue.lean ====
section
/-!
DEFINITION. The micro-batch queues (R202 to R223): the three parts of a queue, acceptance, popping, held cells and
markers, watermarks and flow control, notification, self-reset.
-/

namespace Sys2Proof.Machine

/-! ### Configuration and counts (R222) -/

/-- Whether a queue is enabled. -/
def qOn (s : State) (q : QId) : Bool := bit (s.rd (queueBase q + 8)) 0
/-- The job of a queue. -/
def qJob (s : State) (q : QId) : Nat := fld (s.rd (queueBase q + 0x28)) 0 4
/-- Whether a queue forwards (MODE 0b10). -/
def qForward (s : State) (q : QId) : Bool := fld (s.rd (queueBase q + 0x28)) 4 2 == 2
/-- DEST_Q. -/
def qDestQ (s : State) (q : QId) : Nat := fld (s.rd (queueBase q + 0x28)) 8 8
/-- DEST_DEV. -/
def qDestDev (s : State) (q : QId) : Nat := fld (s.rd (queueBase q + 0x28)) 16 15
/-- P, the chunks of the pool. -/
def qChunks (s : State) (q : QId) : Nat := fld (s.rd (queueBase q + 0x38)) 0 24
/-- The address of a pool chunk (R206). -/
def chunkAddr (s : State) (q : QId) (i : Nat) : Nat := (s.rd (queueBase q + 0x30)).toNat + 2176 * i

/-- Cells still used in a chunk. -/
def chunkUsed (c : Chunk) : Nat := c.sides.length - c.skip
/-- The sideband fields of the cells still used in a chunk. -/
def chunkSides (c : Chunk) : List Side := c.sides.drop c.skip
/-- Cells in a list of chunks. -/
def chunksUsed (l : List Chunk) : Nat := l.foldl (fun n c => n + chunkUsed c) 0
/-- Visible cells (R205, R210). -/
def qVis (k : Queue) : Nat := k.head.length + chunksUsed k.pool + k.tail.length
/-- Held cells, those of ready packets among them (R203). -/
def qHeld (k : Queue) : Nat := (k.ready ++ k.held).foldl (fun n h => n + chunksUsed h.chunks) 0
/-- The chunks of a queue in use. -/
def qInUse (k : Queue) : List Chunk := k.pool ++ (k.ready ++ k.held).flatMap (·.chunks)
/-- F, the free chunks (R205). -/
def qFree (s : State) (q : QId) : Nat := qChunks s q - (qInUse s.queues[q]).length
/-- The keys of a queue that have an entry in the key table (R204). -/
def qKeys (k : Queue) : List Key := ((k.ready ++ k.held).map (·.key)).eraseDups
/-- The free entries of the key table of a queue's half (R204). -/
def keysFree (s : State) (q : QId) : Nat :=
  let half := (allFin 256).filter (fun p => (p.val < 128) == (q.val < 128))
  1024 - half.foldl (fun n p => n + (qKeys s.queues[p]).length) 0

/-- Whether a visible-stream cell is accepted (R205). -/
def qRoom (s : State) (q : QId) : Bool :=
  let t := (s.queues[q]).tail.length
  decide (t < 1024 ∧ t + 1 ≤ 32 * qFree s q)

/-- The BLK_STAT of a queue (R222). -/
def qStat (s : State) (q : QId) : W64 :=
  let k := s.queues[q]
  let b (x : Bool) (i : Nat) : Nat := if x then 2 ^ i else 0
  BitVec.ofNat 64 (b (qOn s q) 0 + b (qVis k == 0) 1 + b (qOn s q && !qRoom s q) 2 + b k.above 3 + b k.underrun 4 +
    b k.dropping 5 + b k.paused 6 + b k.tentLost 7 + b k.ptrReset 8)

/-- ARG1 of a queue event about a cell: its MBTAG and AGENT (R385). -/
def cellArg (mbtag agent : Nat) : Nat := mbtag + agent * 65536

/-- A queue event for a job and, where it has one, a cell. -/
def qEv (s : State) (q : QId) (code : Nat) (job dev : Option Nat) (a1 : Nat) : State :=
  s.raiseDev (evFails code) code q 0 job dev (qStat s q).toNat a1

/-! ### Flow control (R216, R217) -/

/-- A flow-control message for a peer: kept, and LINK_UNREACHABLE raised, where the peer cannot be reached (R217,
R287). -/
def sendQflow (s : State) (job dev q : Nat) (stop : Bool) : State :=
  let p := mkPkt s 8 3 0 job dev 0 (leBytes 1 q ++ leBytes 1 (if stop then 1 else 2)) []
  let keep := s.net.qflow.filter (fun m => !(m.1 == dev && m.2.1 == q))
  match sendPkt s (if q < 128 then 0 else 1) 6 job dev p with
  | (s, true) => { s with net := { s.net with qflow := keep } }
  | (s, false) => unreachable { s with net := { s.net with qflow := keep ++ [(dev, q, job, stop)] } } (some job) dev p

/-- The messages kept for peers are sent to those that can be reached (R287). -/
def retryQflow (s : State) : State :=
  s.net.qflow.foldl (fun s m =>
    if usable s m.1 m.2.2.1 = 0 then s else sendQflow s m.2.2.1 m.1 m.2.1 m.2.2.2) s

/-- Every forwarding queue of the module that sends to queue `q` of device `dev` pauses or resumes, an off one too, whose
PAUSED says whether a STOP is in force (R217, R222, R281). -/
def pauseFor (s : State) (dev q : Nat) (stop : Bool) : State :=
  (allFin 256).foldl (fun s p =>
    if qForward s p && qDestDev s p == dev && qDestQ s p == q then
      s.setQueue p { s.queues[p] with paused := stop } else s) s

/-- A STOP or GO for queue `q` of device `dev` takes effect on the forwarding queues and the dispatch units that send to it
(R217). -/
def flowIn (s : State) (dev q : Nat) (stop : Bool) : State :=
  let key := (dev, q)
  let stops := s.net.stops.filter (· != key)
  let s := { s with net := { s.net with stops := if stop then stops ++ [key] else stops } }
  let s := pauseFor s dev q stop
  if stop then s else duFlush (duFlush s 0) 1

/-- STOP or GO to every valid peer of a queue; a peer entry with the module's own ID is served as a received message would
be (R217). -/
def flowOut (s : State) (q : QId) (stop : Bool) : State :=
  (List.range 8).foldl (fun s i =>
    let e := s.rd (queueBase q + 0x58 + 8 * i)
    if !bit e 15 then s
    else if fld e 0 15 = s.devid then flowIn s s.devid q stop
    else sendQflow s (qJob s q) (fld e 0 15) q stop) s

/-- The visible count is compared with the watermarks, and Q_PEAK kept (R216, R222). -/
def qMarks (s : State) (q : QId) : State :=
  let k := s.queues[q]
  let v := qVis k
  let wm := s.rd (queueBase q + 0x40)
  let s := if (s.rd (queueBase q + 0xE0)).toNat < v then s.wr (queueBase q + 0xE0) (BitVec.ofNat 64 v) else s
  if !qOn s q then s
  else if fld wm 0 32 ≤ v ∧ !k.above then
    flowOut (qEv (s.setQueue q { k with above := true }) q 0x4002 (some (qJob s q)) none 0) q true
  else if v ≤ fld wm 32 32 ∧ k.above then
    flowOut (qEv (s.setQueue q { k with above := false }) q 0x4003 (some (qJob s q)) none 0) q false
  else s

/-- ABOVE is cleared as any clear of it, with its GO and Q_WM_LOW (R219, R220). -/
def clearAbove (s : State) (q : QId) : State :=
  let k := s.queues[q]
  if k.above then flowOut (qEv (s.setQueue q { k with above := false }) q 0x4003 (some (qJob s q)) none 0) q false else s

/-! ### Notification (R213) -/

/-- A notify event: SIGNAL 1 to the queue's semaphore for the queue's job; rejected with Q_NOTIFY_REJECT, or held for a
core that is saved (R54, R213). -/
def qNotify (s : State) (q : QId) : State :=
  let n := s.rd (queueBase q + 0x50)
  match sigSend s (some (qJob s q)) (fld n 2 6) (fld n 8 6) 1 (fun s => qEv s q 0x4008 (some (qJob s q)) none 0) with
  | some s => s
  | none => s.setQueue q { s.queues[q] with notify := (s.queues[q]).notify + 1 }

/-- Packets have become visible: a notify signal for each where SRC is 0 (R213). -/
def qArrived (s : State) (q : QId) (packets : Nat) : State :=
  let n := s.rd (queueBase q + 0x50)
  if bit n 0 ∧ !bit n 1 then (List.range packets).foldl (fun s _ => qNotify s q) s else s

/-- The notify signals a queue holds are tried again (R54, R213). -/
def retryNotify (s : State) (q : QId) : State :=
  let k := (s.queues[q]).notify
  (List.range k).foldl (fun s _ => qNotify s q) (s.setQueue q { s.queues[q] with notify := 0 })

/-! ### Discarding and self-reset (R219, R220) -/

/-- Every visible and held cell of a queue is discarded. -/
def qEmpty (k : Queue) : Queue :=
  { k with head := [], pool := [], tail := [], held := [], ready := [], openKey := none }

/-- The queue resets itself after a pointer mismatch or a pool error (R219). -/
def qReset (s : State) (q : QId) (code a1 : Nat) : State :=
  let k := s.queues[q]
  let s := s.setQueue q { qEmpty k with last := 0#512, dropping := false, paused := false, bad := false,
                                        ptrReset := true }
  qEv (clearAbove s q) q code (some (qJob s q)) none a1

/-- The copies of the pointers are compared on every update (R219). -/
def qCheck (s : State) (q : QId) : State := if (s.queues[q]).bad then qReset s q 0x4001 0 else s

/-- The packets of a flushed forwarding queue that wait for a plane of an unreachable peer are discarded with its cells (R287).
DEDUCED, log entry 42: one that has its OSEQ has left the queue and stays, since its flow would miss it (R283). -/
def dropStranded (s : State) (q : QId) : State :=
  { s with links := s.links.map (fun k =>
      if k.st = .active then k else { k with tx := k.tx.filter (fun t => t.ordered || t.queue != some q) }) }

/-- FLUSH (R220, R287). -/
def qFlush (s : State) (q : QId) : State :=
  let s := dropStranded s q
  let k := s.queues[q]
  clearAbove (s.setQueue q { qEmpty k with underrun := false, dropping := false, tentLost := false,
                                           ptrReset := false }) q

/-! ### Pool chunks in module memory (R206) -/

/-- One bit for each cell of a chunk, bit i for cell i. -/
def sideBits (f : Side → Bool) (l : List Side) : Nat :=
  (List.range l.length).foldl (fun n i => if f (getD l i {}) then n + 2 ^ i else n) 0

/-- Line 33 of a chunk. DESIGN CHOICE, log entry 32: SRCDEV is that of the first cell, where the cells of a chunk come
from several devices. -/
def chunkTail (l : List Side) (next : Nat) : List Byte :=
  l.map (fun c => c.agent.setWidth 8) ++ List.replicate (32 - l.length) 0#8 ++ leBytes 4 (sideBits (·.eop) l) ++
    leBytes 4 (sideBits (·.tent) l) ++ leBytes 4 (sideBits (·.marker) l) ++ leBytes 2 l.length ++ leBytes 2 0 ++
    leBytes 4 next ++ leBytes 2 (match l with | c :: _ => c.src.toNat | [] => 0) ++ leBytes 10 0

/-- Lines 32 and 33 of a chunk. -/
def sideLines (l : List Side) (next : Nat) : List Byte :=
  l.flatMap (fun c => leBytes 2 c.mbtag.toNat) ++ List.replicate (2 * (32 - l.length)) 0#8 ++ chunkTail l next

/-- The 34 lines of a chunk. -/
def chunkBytes (cells : List Cell) (next : Nat) : List Byte :=
  cells.flatMap (fun c => leBytes 64 c.data.toNat) ++ List.replicate (64 * (32 - cells.length)) 0#8 ++
    sideLines (cells.map sideOf) next

/-- How a read of the pool by the queue engine ends: with the bytes read, or with the address that failed. -/
inductive PoolEnd where
  | ok (bs : List Byte)
  | fail (a : Nat)
deriving DecidableEq, Repr

/-- Whether a read of chunks of the pool has to wait for a controller (R250, R255). -/
def poolWaits (s : State) (q : QId) (is : List Nat) : Bool :=
  is.any (fun i => gddrServe s (chunkAddr s q i) 2176 == .wait)

/-- A read of the pool that does not wait; it bypasses the memory windows (R219, R250, R256, R257, R259). -/
def poolRead (s : State) (q : QId) (a len : Nat) : State × PoolEnd :=
  let job := some (qJob s q)
  match gddrReady s a len with
  | .yes =>
    match gddrRead s job a len with
    | (s, bs, none) => (s, .ok bs)
    | (s, _, some x) => (s, .fail x)
  | _ => (trainFailed s a job, .fail a)

/-- Bytes at an address, cut at the granules of 256 bytes that the controllers take turns with (R254). -/
def granules : Nat → Nat → List Byte → List (Nat × List Byte)
  | 0, _, _ => []
  | n + 1, a, bs =>
    if bs.isEmpty then []
    else (a, bs.take (256 - a % 256)) :: granules n (a + (256 - a % 256)) (bs.drop (256 - a % 256))

/-- A write of the queue engine within one granule. Where the controller holds its traffic or an earlier request to the line, the
write waits there in its turn and the queue goes on (R250, R255); one that fails resets the queue with Q_SPILL_ERROR
(R219, R223). False where it has failed. -/
def poolPut (s : State) (q : QId) (a : Nat) (bs : List Byte) : State × Bool :=
  let job := some (qJob s q)
  match gddrServe s a bs.length with
  | .fail => (qReset (trainFailed s a job) q 0x400A a, false)
  | .wait =>
    let g := ctrlOf a
    let k := s.ctrls[g]
    (s.setCtrl g { k with reqs := k.reqs ++
      [{ asker := .engine, job := job, addr := a, len := bs.length, data := some bs, queue := some q }] }, true)
  | .yes =>
    match gddrWrite s job a bs with
    | (s, none) => (s, true)
    | (s, some x) => (qReset s q 0x400A x, false)

/-- The writes of the queue engine to some granules, up to one that fails. -/
def poolPuts (q : QId) : List (Nat × List Byte) → State → State × Bool
  | [], s => (s, true)
  | x :: rest, s =>
    match poolPut s q x.1 x.2 with
    | (s, false) => (s, false)
    | (s, true) => poolPuts q rest s

/-- A write to the pool. False where it has failed and the queue has been reset. -/
def poolWrite (s : State) (q : QId) (a : Nat) (bs : List Byte) : State × Bool :=
  poolPuts q (granules (bs.length / 256 + 2) a bs) s

/-- The cells that the bytes of a chunk hold, for the devices they come from. -/
def chunkCells (bs : List Byte) (c : Chunk) : List Cell :=
  ((List.range c.sides.length).map (fun i =>
    { data := BitVec.ofNat 512 (leAt bs (64 * i) 64), mbtag := BitVec.ofNat 16 (leAt bs (2048 + 2 * i) 2),
      eop := (leAt bs (2112 + 32) 4).testBit i, tent := (leAt bs (2112 + 36) 4).testBit i,
      marker := (leAt bs (2112 + 40) 4).testBit i, src := (getD c.sides i {}).src,
      agent := BitVec.ofNat 7 (leAt bs (2112 + i) 1) : Cell })).drop c.skip

/-- Which visible cells of a queue carry EOP, head first. -/
def visEops (k : Queue) : List Bool :=
  k.head.map (·.eop) ++ (k.pool.flatMap chunkSides).map (·.eop) ++ k.tail.map (·.eop)

/-- The chunk that a new chunk takes. DESIGN CHOICE, log entry 32: the lowest one not in use; the spec gives no order of
allocation. -/
def freeChunk (s : State) (q : QId) : Nat :=
  let used := (qInUse s.queues[q]).map (·.idx)
  ((List.range (used.length + 1)).find? (fun i => !used.contains i)).getD 0

/-- The link of the last chunk of a list to the next one is written, with the rest of its line 33 (R206). False where the write failed
and the queue has been reset. -/
def linkChunk (s : State) (q : QId) (l : List Chunk) (next : Nat) : State × Bool :=
  match l.getLast? with
  | none => (s, true)
  | some c => poolWrite s q (chunkAddr s q c.idx + 2112) (chunkTail c.sides next)

/-- A new chunk is linked behind a list and written; false where the pool failed and the queue has been reset. -/
def newChunk (s : State) (q : QId) (l : List Chunk) (i : Nat) (cells : List Cell) : State × Bool :=
  match linkChunk s q l i with
  | (s, false) => (s, false)
  | (s, true) =>
    match poolWrite s q (chunkAddr s q i) (chunkBytes cells 0xFFFFFF) with
    | (s, false) => (s, false)
    | (s, true) => (s.count (queueBase q + 0xE8) 64 1, true)

/-- The first 32 cells of the tail, or all where there are fewer, are written to the pool as one chunk at the end of the
visible order; false where the pool failed and the queue has been reset. -/
def spillTail (s : State) (q : QId) : State × Bool :=
  let i := freeChunk s q
  let cells := (s.queues[q]).tail.take 32
  match newChunk s q (s.queues[q]).pool i cells with
  | (s, false) => (s, false)
  | (s, true) =>
    let k := s.queues[q]
    (s.setQueue q { k with pool := k.pool ++ [{ idx := i, sides := cells.map sideOf }], tail := k.tail.drop 32 }, true)

/-- The whole tail is written to the pool, in chunks of which the last may be partial. -/
def spillAll (q : QId) : Nat → State → State × Bool
  | 0, s => (s, true)
  | fuel + 1, s =>
    if (s.queues[q]).tail.isEmpty then (s, true)
    else
      match spillTail s q with
      | (s, false) => (s, false)
      | (s, true) => spillAll q fuel s

/-- Cells move from the tail: straight to the head while the pool holds no visible cell, then, once the head is full,
to the pool in whole chunks of 32. -/
def qFlow (q : QId) : Nat → State → State
  | 0, s => s
  | fuel + 1, s =>
    let k := s.queues[q]
    let n := min (1024 - k.head.length) k.tail.length
    if k.pool.isEmpty ∧ 0 < n then
      qFlow q fuel (s.setQueue q { k with head := k.head ++ k.tail.take n, tail := k.tail.drop n })
    else if 32 ≤ k.tail.length ∧ 0 < qFree s q then qFlow q fuel (spillTail s q).1
    else s

/-- `qFlow` with fuel for every chunk of the tail. -/
def qSettle (s : State) (q : QId) : State := qFlow q 40 s

/-! ### The visible stream and held cells (R203) -/

/-- The key of a cell: its producer, and the micro-batch of a tentative cell. A marker that a forwarding queue stores goes
with the cells it follows (R203, R214, R215). -/
def keyOf (c : Cell) : Key :=
  { src := c.src, agent := c.agent, mbtag := if c.tent ∨ c.marker then some c.mbtag else none }

/-- Whether the cells of a list close a packet, open one, or leave the open key: the key after them. -/
def keyAfter (cur : Option Key) (k : Key) (cells : List Side) : Option Key :=
  match (cells.filter (fun c => !c.marker)).getLast? with
  | none => cur
  | some c => if c.eop then none else some k

/-- Cells discarded under DROPPING, of cells that carry EOP or not: those up to and with the first EOP; how many, and whether
DROPPING ends (R211). -/
def dropSpan (eops : List Bool) : Nat × Bool :=
  let n := (eops.takeWhile (fun e => !e)).length
  if n < eops.length then (n + 1, true) else (eops.length, false)

/-- The chunks of a list without their first `n` cells. -/
def dropChunks (l : List Chunk) (n : Nat) : List Chunk × Nat :=
  l.foldl (fun (acc : List Chunk × Nat) c =>
    let u := chunkUsed c
    if u ≤ acc.2 then (acc.1, acc.2 - u) else (acc.1 ++ [{ c with skip := c.skip + acc.2 }], 0)) ([], n)

/-- The visible order goes on with a chunk: the tail's cells first go to the pool, so that they keep their place (the text
above R205). False where the pool failed and the queue has been reset. -/
def linkVis (s : State) (q : QId) (i : Nat) : State × Bool :=
  match spillAll q 33 s with
  | (s, false) => (s, false)
  | (s, true) => linkChunk s q (s.queues[q]).pool i

/-- A ready packet joins the visible stream, without the cells that DROPPING discards (R203, R211). -/
def joinPacket (s : State) (q : QId) (h : HeldKey) : State :=
  let cells := h.chunks.flatMap chunkSides
  let k := s.queues[q]
  let (n, ends) := if k.dropping then dropSpan (cells.map (·.eop)) else (0, false)
  let s := if n = 0 then s
    else (s.setQueue q { k with dropping := !ends }).count (queueBase q + 0xD8) 64 n
  let keep := (dropChunks h.chunks n).1
  match (match keep with | [] => (s, true) | c :: _ => linkVis s q c.idx) with
  | (s, false) => s
  | (s, true) =>
    let k := s.queues[q]
    let s := s.setQueue q { k with ready := k.ready.erase h, pool := k.pool ++ keep,
                                   openKey := keyAfter k.openKey h.key cells }
    qArrived (qMarks (qSettle s q) q) q (((cells.drop n).filter (·.eop)).length)

/-- Ready packets join, in the order in which they became ready, while no packet is open; a packet that a commit left
open first takes its own key's next ready cells (R203, R214). -/
def drainReady (q : QId) : Nat → State → State
  | 0, s => s
  | fuel + 1, s =>
    let k := s.queues[q]
    let pick := match k.openKey with
      | none => k.ready.head?
      | some o => k.ready.find? (fun h => h.key == o)
    match pick with
    | none => s
    | some h => drainReady q fuel (joinPacket s q h)

/-- `drainReady` with fuel for every ready packet. -/
def qDrain (s : State) (q : QId) : State := drainReady q ((s.queues[q]).ready.length + 1) s

/-- A cell joins the visible stream at the tail, or is discarded under DROPPING (R203, R211). -/
def joinCell (s : State) (q : QId) (c : Cell) : State :=
  let k := s.queues[q]
  let o := keyAfter k.openKey (keyOf c) [sideOf c]
  if k.dropping then
    let s := (s.setQueue q { k with dropping := !c.eop, openKey := o }).count (queueBase q + 0xD8) 64 1
    qDrain s q
  else
    let s := qMarks (qSettle (s.setQueue q { k with tail := k.tail ++ [c], openKey := o }) q) q
    let s := if c.eop then qArrived s q 1 else s
    qDrain s q

/-- Whether a held cell of a key needs a new chunk (R205). -/
def needsChunk (k : Queue) (key : Key) : Bool :=
  match k.held.find? (fun h => h.key == key) with
  | none => true
  | some h =>
    match h.chunks.getLast? with
    | none => true
    | some c => decide (32 ≤ c.sides.length)

/-- What becomes of a cell at a queue's tail (R205): accepted, discarded, or refused for now. -/
inductive Taken where
  | accepted | discarded | refused
deriving DecidableEq, Repr

/-- A cell joins the last chunk of its key: its line and lines 32 and 33 are written (R206). -/
def growChunk (s : State) (q : QId) (c : Chunk) (x : Cell) : State × Bool :=
  match poolWrite s q (chunkAddr s q c.idx + 64 * c.sides.length) (leBytes 64 x.data.toNat) with
  | (s, false) => (s, false)
  | (s, true) => poolWrite s q (chunkAddr s q c.idx + 2048) (sideLines (c.sides ++ [sideOf x]) 0xFFFFFF)

/-- A cell is held under its key, in the key's last chunk or a new one; it goes with the rest where the pool fails and the
queue resets itself (R203, R205, R219). -/
def holdCell (s : State) (q : QId) (key : Key) (c : Cell) : State × Taken :=
  let k := s.queues[q]
  let old := (k.held.find? (fun h => h.key == key)).getD { key := key, chunks := [] }
  let rest := k.held.filter (fun h => !(h.key == key))
  let put (x : State × Bool) (chunks : List Chunk) : State × Taken :=
    match x with
    | (s, false) => (s, .discarded)
    | (s, true) => (s.setQueue q { s.queues[q] with held := rest ++ [{ old with chunks := chunks, shut := c.eop }] }, .accepted)
  match (if needsChunk k key then none else old.chunks.getLast?) with
  | none =>
    let i := freeChunk s q
    put (newChunk s q old.chunks i [c]) (old.chunks ++ [{ idx := i, sides := [sideOf c] }])
  | some last =>
    put (growChunk s q last c) (old.chunks.dropLast ++ [{ last with sides := last.sides ++ [sideOf c] }])

/-- The held cells of a key become a ready packet (R203). -/
def makeReady (s : State) (q : QId) (key : Key) : State :=
  let k := s.queues[q]
  match k.held.find? (fun h => h.key == key) with
  | none => s
  | some h => qDrain (s.setQueue q { k with held := k.held.filter (fun x => !(x.key == key)), ready := k.ready ++ [h] }) q

/-- A cell accepted is counted, and a packet's EOP cell may be a token of a monitored request (R222, R374). -/
def acceptedCell (s : State) (q : QId) (c : Cell) : State :=
  let s := s.count (queueBase q + 0xB8) 64 1
  if c.eop then monitorToken s q c.mbtag else s

/-- A cell of an enabled queue's own job arrives at its tail (R203 to R205). A forwarding queue holds no tentative cell
apart (R215), and its markers are held only behind held cells of their key: one whose key has no entry resolves nothing and
joins the visible stream (R204). -/
def acceptCell (s : State) (q : QId) (c : Cell) : State × Taken :=
  let s := qCheck s q
  let k := s.queues[q]
  let key := keyOf c
  let apart := c.tent && !qForward s q
  if k.tentLost ∧ (c.tent ∨ c.marker) then (s, .discarded)
  else
    let mine := (k.ready ++ k.held).any (fun h => h.key == key)
    let joins := !apart && ((c.marker && !mine) || (match k.openKey with | some o => o == key | none => !mine))
    if joins then
      if qRoom s q then (joinCell (acceptedCell s q c) q c, .accepted) else (s, .refused)
    else if !mine && keysFree s q == 0 then
      if c.tent then
        (qEv (s.setQueue q { k with tentLost := true }) q 0x4007 (some (qJob s q)) (some c.src.toNat)
          (cellArg c.mbtag.toNat c.agent.toNat), .discarded)
      else (s, .refused)
    else if needsChunk k key ∧ 32 * qFree s q < k.tail.length + 32 then (s, .refused)
    else
      let part := (k.held.find? (fun h => h.key == key)).map (·.shut)
      match holdCell s q key c with
      | (s, .accepted) =>
        let s := acceptedCell s q c
        let ends := !apart && (c.eop || (c.marker && part != some false))
        (if ends then makeReady s q key else s, .accepted)
      | r => r

/-! ### Markers (R166, R214) -/

/-- A marker is resolved at a LOCAL queue: a commit makes the key's held cells ready, a cancel discards those that are
still held (R166, R203, R214). -/
def applyMarker (s : State) (q : QId) (c : Cell) : State :=
  let s := qCheck s q
  let k := s.queues[q]
  let d := leBytes 64 c.data.toNat
  let kind := leAt d 2 1
  let key : Key := { src := BitVec.ofNat 15 (leAt d 4 2), agent := BitVec.ofNat 7 (leAt d 3 1),
                     mbtag := some (BitVec.ofNat 16 (leAt d 0 2)) }
  if kind ≠ 1 ∧ kind ≠ 2 then
    qEv s q 0x4007 (some (qJob s q)) (some c.src.toNat) (cellArg c.mbtag.toNat c.agent.toNat)
  else if k.tentLost then s
  else if kind = 1 then makeReady s q key
  else qMarks (s.setQueue q { k with held := k.held.filter (fun h => !(h.key == key)) }) q

/-- A cell or marker of a job reaches a queue: the checks of R220, then a marker at a LOCAL queue is applied and
anything else goes to the tail. A cell that meets a refusal is offered again. -/
def qOffer (s : State) (q : QId) (job : Option Nat) (c : Cell) : State × Taken :=
  let a1 := cellArg c.mbtag.toNat c.agent.toNat
  if !qOn s q then (qEv s q 0x4006 job (some c.src.toNat) a1, .discarded)
  else if job ≠ some (qJob s q) then (qEv s q 0x4005 job (some c.src.toNat) a1, .discarded)
  else if c.marker ∧ !qForward s q then (applyMarker s q c, .accepted)
  else
    match acceptCell s q c with
    | (s, .refused) => (s.count (queueBase q + 0xD0) 64 1, .refused)
    | r => r

/-! ### The head (R205, R210, R211) -/

/-- The head refills one chunk from the pool where it has room for 32 cells and the controllers serve. An uncorrectable line
resets the queue (R205, R219, R250). -/
def qRefill (s : State) (q : QId) : State :=
  let s := qCheck s q
  let k := s.queues[q]
  match k.pool with
  | [] => s
  | c :: rest =>
    if 1024 < k.head.length + 32 ∨ poolWaits s q [c.idx] then s
    else
      match poolRead s q (chunkAddr s q c.idx) 2176 with
      | (s, .fail a) => qReset s q 0x400A a
      | (s, .ok bs) =>
        let k := s.queues[q]
        qSettle (s.setQueue q { k with head := k.head ++ chunkCells bs c, pool := rest }) q

/-- A cell is taken from the head; a head whose next cell lies in the pool refills first (R205, R210). -/
def takeHead (s : State) (q : QId) : State × Option Cell :=
  let s := if (s.queues[q]).head.isEmpty then qRefill s q else s
  let k := s.queues[q]
  match k.head with
  | [] => (s, none)
  | c :: rest => (qSettle (s.setQueue q { k with head := rest, last := c.data }) q, some c)

/-- One cell of a POP: the head's next cell, or Q_LAST where nothing is visible; true where it came from Q_LAST
(R210). -/
def popCell (s : State) (q : QId) : State × Line × Bool :=
  match takeHead (qCheck s q) q with
  | (s, some c) => (qMarks (s.count (queueBase q + 0xC0) 64 1) q, c.data, false)
  | (s, none) =>
    let k := s.queues[q]
    ((s.setQueue q { k with underrun := true }).count (queueBase q + 0xC8) 64 1, k.last, true)

/-- Whether the visible cells of a queue that lie in the pool have to wait for a controller. -/
def visWaits (s : State) (q : QId) : Bool := poolWaits s q ((s.queues[q]).pool.map (·.idx))

/-- The first `n` visible cells of a queue are removed. -/
def removeVis (k : Queue) (n : Nat) : Queue :=
  let h := min n k.head.length
  let pool := dropChunks k.pool (n - h)
  { k with head := k.head.drop h, pool := pool.1, tail := k.tail.drop pool.2 }

/-- DROP: the rest of the current packet is discarded; without a visible EOP everything visible goes and DROPPING is
set (R211). -/
def qDrop (s : State) (q : QId) : State :=
  let s := qCheck s q
  let k := s.queues[q]
  let (n, ends) := dropSpan (visEops k)
  let s := (s.setQueue q { removeVis k n with dropping := k.dropping || !ends }).count (queueBase q + 0xD8) 64 n
  qMarks (qSettle s q) q

/-- The status word of QOP STAT (R212). -/
def qStatWord (s : State) (q : QId) : W64 :=
  let k := s.queues[q]
  let b (x : Bool) (i : Nat) : Nat := if x then 2 ^ i else 0
  BitVec.ofNat 64 (qVis k % 2 ^ 32 + min ((visEops k).filter id).length 0xFFFF * 2 ^ 32 + b (qVis k == 0) 48 +
    b k.underrun 49 + b (!qRoom s q) 50 + b k.dropping 51 + b k.above 52)

end Sys2Proof.Machine
end

