-- ==== Sys2Proof/Machine/MemCmds.lean ====
section
/-!
DEFINITION. The commands of the GDDR7 controllers (R249 to R257, R264) and of the CXL ports (R260 to R265).
-/

namespace Sys2Proof.Machine

/-! ### Requests to a controller (R250, R255, R257, R259) -/


/-- A request is answered; a write of the queue engine that fails resets its queue, where that is still on (R219). -/
def memAnswer (s : State) (g : CtrlId) (r : MemReq) (code : Nat) (data : List Byte) : State :=
  match r.queue with
  | some q => if code = 0 ∨ !qOn s q then s else qReset s q 0x400A r.addr
  | none =>
    let k := s.ctrls[g]
    s.setCtrl g { k with done := k.done ++ [{ req := r, code := code, data := data }] }

/-- The window check of a request; the module's own engines pass unchecked (R259). -/
def memAdmit (s : State) (r : MemReq) : State × Bool :=
  match r.asker with
  | .core c => memCheck s (.core c) (r.job.getD 0) r.addr r.len r.data.isSome
  | .peer d => memCheck s (.peer d.toNat) (r.job.getD 0) r.addr r.len r.data.isSome
  | .host => memCheck s .host (r.job.getD 0) r.addr r.len r.data.isSome
  | .engine => (s, true)

/-- A controller receives a request for bytes of one of its granules: absent memory fails, a window refuses, a full
queue of 512 takes nothing (R249, R251, R254, R259); a request to a controller whose domain is off fails, and with it the
step of its job (R18). -/
def memRequest (s : State) (g : CtrlId) (r : MemReq) : State :=
  let k := s.ctrls[g]
  let mine := r.len ≠ 0 ∧ r.addr / 256 = (r.addr + r.len - 1) / 256 ∧ ctrlOf r.addr = g
  if ¬mine ∨ 512 ≤ k.reqs.length then s
  else if !s.domainOn (ctrlDomain g) then memAnswer (s.failStep r.job) g r 6 []
  else if gddrTop s < r.addr + r.len then memAnswer s g r 1 []
  else
    match memAdmit s r with
    | (s, false) => memAnswer s g r 3 []
    | (s, true) => s.setCtrl g { s.ctrls[g] with reqs := (s.ctrls[g]).reqs ++ [r] }

/-- Whether request `i` of a controller may complete: no request before it is to one of its lines (R255, R429). -/
def memFirst (reqs : List MemReq) (i : Nat) (r : MemReq) : Bool :=
  (linesOf r.addr r.len).all (fun l => (reqs.take i).all (fun x => !touches x.addr x.len l))

/-- Request `i` of a controller, the oldest being 0, completes; `crc` bursts in a row fail their CRC and `odecc`
corrections are reported by the device (R249, R250, R257). Requests to different lines complete in any order, those to one
line in theirs (R255, R429). A controller that is not READY holds its requests. -/
def memComplete (s : State) (g : CtrlId) (crc odecc i : Nat) : State :=
  let k := s.ctrls[g]
  match k.reqs[i]? with
  | none => s
  | some r =>
    let rest := k.reqs.eraseIdx i
    if !memFirst k.reqs i r then s
    else if k.trainFail then memAnswer (trainFailed (s.setCtrl g { k with reqs := rest }) r.addr r.job) g r 6 []
    else if !k.ready then s
    else
      let s := strikeCrc (strikeOnDie (s.setCtrl g { k with reqs := rest }) g odecc) (r.addr / 64) crc
      match gddrNow s r.job r.addr r.len r.data with
      | (s, .ok bs) => memAnswer s g r 0 bs
      | (s, .fail c) => memAnswer s g r c []
      | (s, .wait) => s

/-- MEM_REQUEST (R255, R259). -/
def execMemRequest (g : CtrlId) (a : Asker) (job : JobId) (addr len : Nat) (data : Option (List Byte)) (us : List Upset)
    (s : State) : Out :=
  let data := data.map (fun bs => bs.take len ++ List.replicate (len - bs.length) 0#8)
  .next (s.live <| memRequest (strike s us) g { asker := a, job := some job.val, addr := addr, len := len, data := data })

/-- MEM_REQUEST_COMPLETE (R255, R257, R429). -/
def execMemRequestComplete (g : CtrlId) (crc odecc : Nat) (us : List Upset) (s : State) (i : Nat := 0) : Out :=
  .next (s.live (memComplete (strike s us) g crc odecc i))

/-! ### Training, scrubbing, self-refresh -/

/-- Every request that a controller holds fails (R250). -/
def failHeld (s : State) (g : CtrlId) : State :=
  let k := s.ctrls[g]
  let s := s.setCtrl g { k with reqs := [] }
  k.reqs.foldl (fun s r => memAnswer (s.failStep r.job) g r 6 []) s

/-- Whether a controller takes part in the periodic retraining: it serves, with RETRAIN_EN set (R249). -/
def retrains (s : State) (g : CtrlId) : Bool :=
  s.domainOn (ctrlDomain g) && (s.ctrls[g]).ready && bit (s.rd (ctrlBase g + 8)) 1

/-- The controller whose periodic retraining is next: ascending from the last one on, and none while one retrains (R249). -/
def retrainNext (s : State) : Option CtrlId :=
  if s.ctrls.toList.any (fun k => k.retraining) then none
  else ((List.range 24).map (fun i => (⟨(s.mem.turn + i) % 24, Nat.mod_lt _ (by decide)⟩ : CtrlId))).find? (retrains s)

/-- A training of a controller: a controller that serves begins its periodic retraining where it is its turn, and holds its
traffic; one that does not serve ends its training: it serves from now on where the MCLK PLL of its die has locked, or it has failed and so does every request it
holds or receives (R249, R250). A device in self-refresh does not train. DEDUCED, log entry 38: READY is 0 while a
retraining holds the traffic. DESIGN CHOICE, log entry 38: a failed controller that trains again with success serves
again, TRAIN_FAIL cleared. -/
def retrain (s : State) (g : CtrlId) (ok : Bool) : State :=
  let k := s.ctrls[g]
  if !s.domainOn (ctrlDomain g) ∨ k.selfRef then s
  else if k.ready then
    if retrainNext s ≠ some g then s
    else
      { s with mem := { s.mem with turn := (g.val + 1) % 24 } }.setCtrl g { k with ready := false, retraining := true }
  else if ok then
    if bit (s.rd (pwrBase + 0x98)) (if g.val < 12 then 2 else 3) then
      s.setCtrl g { k with ready := true, retraining := false, trainFail := false }
    else s
  else
    let s := s.setCtrl g { k with ready := false, retraining := false, trainFail := true }
    failHeld (s.raiseIf false 0x5004 g 0 none (s.rd (ctrlBase g + 0x50)).toNat 0) g

/-- Lines of a device that hold data (R251, R254). -/
def scrubLines (s : State) : Nat := if bit (s.rd memBase) 0 then 0xF8000000 / 64 else 0x100000000 / 64

/-- The patrol scrub reads the next line of a controller: its bursts are checked and retried as any, one bit is corrected,
more are recorded and left (R256, R257). -/
def scrubRead (s : State) (g : CtrlId) : State :=
  let k := s.ctrls[g]
  if !k.ready ∨ !bit (s.rd (ctrlBase g + 8)) 0 then s
  else
    let n := lineAddr g k.scrub / 64
    let next := (k.scrub + 1) % scrubLines s
    let s := s.setCtrl g { k with scrub := next, scrubbing := next != 0 }
    marksRead (gddrCrc s none (64 * n) 64).1 none (gddrMarks s (64 * n) 64)

/-- SR_REQ is written: only the management processor's writes act. A device in self-refresh does not serve, and on
leaving it the controller must retrain first (R250, R264). -/
def selfRefresh (s : State) (g : CtrlId) (by_ : Sender) (on : Bool) : State :=
  if by_ ≠ .mgmt ∨ !s.domainOn (ctrlDomain g) then s
  else
    let a := ctrlBase g + 8
    let s := s.wr a (putBit (s.rd a) 2 on)
    let k := s.ctrls[g]
    if on then s.setCtrl g { k with selfRef := true, ready := false, retraining := false }
    else if k.selfRef then s.setCtrl g { k with selfRef := false, ready := false }
    else s

/-- GDDR7_RETRAIN (R249, R250). -/
def execGddr7Retrain (g : CtrlId) (ok : Bool) (s : State) : Out := .next (retrain s g ok)
/-- SCRUB_READ (R256). -/
def execScrubRead (g : CtrlId) (us : List Upset) (s : State) : Out := .next (scrubRead (strike s us) g)
/-- GDDR7_SELF_REFRESH (R264). -/
def execGddr7SelfRefresh (g : CtrlId) (by_ : Sender) (on : Bool) (s : State) : Out := .next (selfRefresh s g by_ on)

/-! ### CXL ports (R261 to R265) -/

/-- The power domain of a port (R265). -/
def cxlDomain (p : PortId) : Nat := if p.val < 2 then 58 else 59

/-- CXL_ERR_ADDR of a failed request (R265). -/
def cxlLog (r : CxlReq) : W64 := bit63 ||| BitVec.ofNat 64 (r.t / 64 % 2 ^ 36 * 64 + (if r.devB then 2 ^ 62 else 0))

/-- A request of a port fails with an uncorrectable-error status (R263). -/
def cxlFailed (s : State) (p : PortId) (r : CxlReq) : State :=
  let s := s.wr (cxlBase p + 0x40) (cxlLog r)
  match r.owner with
  | none => s
  | some (c, ch, seq, off) => dmaTier s c ch seq off 6 r.len [] (tierAddr r.t)

/-- Every request of a device of a port fails, and with it the step of its job (R263). -/
def cxlDrop (s : State) (p : PortId) (devB : Bool) : State :=
  let k := s.cxl[p]
  let gone := k.reqs.filter (fun r => r.devB == devB)
  let s := s.setCxl p { k with reqs := k.reqs.filter (fun r => r.devB != devB) }
  gone.foldl (fun s r => (cxlFailed s p r).failStep r.job) s

/-- A link of a port goes down: its requests fail, ACTIVE clears, CXL_LINK_DOWN is raised (R263). -/
def cxlDown (s : State) (p : PortId) (devB : Bool) : State :=
  let k := s.cxl[p]
  let was := if devB then k.activeB else k.activeA
  let s := cxlDrop s p devB
  let k := s.cxl[p]
  let s := s.setCxl p (if devB then { k with activeB := false } else { k with activeA := false })
  if was then s.raiseIf false 0x5101 p 0 none (s.rd (cxlBase p + 0x40)).toNat 0 else s

/-- The reset pins of a port (R440). -/
def cxlPins (s : State) (p : PortId) (a b : Bool) : State :=
  { s with pins := { s.pins with cxlA := putBit s.pins.cxlA p.val a, cxlB := putBit s.pins.cxlB p.val b } }

/-- The first step of an enumeration: it releases PERST_A_N, and PERST_B_N where BIF is 1. It waits while PD62 is in MGR reset, and
while no firmware runs (R261, R400, R440). -/
def cxlRelease (s : State) (p : PortId) : State :=
  if !(s.cxl[p]).enum || s.power.rebooting || s.power.recovery then s
  else cxlPins s p true (bit (s.rd (cxlBase p + 8)) 1)

/-- EN of a port is written: an enumeration begins, or the resets go low and the links with them (R261, R440). -/
def cxlEnable (s : State) (p : PortId) (en : Bool) : State :=
  if !s.domainOn (cxlDomain p) then s
  else
    let a := cxlBase p + 8
    let was := bit (s.rd a) 0
    let s := s.wr a (putBit (s.rd a) 0 en)
    let k := s.cxl[p]
    if en ∧ !was then
      cxlRelease (s.setCxl p { k with enum := true, enumFail := false }) p
    else if was ∧ !en then
      let s := cxlDown (cxlDown s p false) p true
      cxlPins (s.setCxl p { s.cxl[p] with enum := false, enumFail := false }) p false false
    else s

/-- The capacity of a device's range in its window, in units of 256 MiB (R261). -/
def cxlCap (split : Bool) (range : Nat) : Nat := min (range / 0x10000000) (if split then 2048 else 4096)

/-- ILV_ACT as the firmware leaves it after an enumeration (R262). -/
def ilvSettle (s : State) : State :=
  let ok := bit (s.rd memBase) 1 && (allFin 4).all (fun p =>
    (s.cxl[p]).activeA && !bit (s.rd (cxlBase p + 8)) 1 &&
    fld (s.rd (cxlBase p + 0x28)) 0 32 == fld (s.rd (cxlBase 0 + 0x28)) 0 32)
  s.wr memBase (putBit (s.rd memBase) 2 ok)

/-- One device of a port after its enumeration: its range in bytes, or none where a step failed (R261). -/
def cxlDevice (s : State) (p : PortId) (devB : Bool) (range : Option Nat) : State :=
  let k := s.cxl[p]
  let split := bit (s.rd (cxlBase p + 8)) 1
  match range with
  | none => (s.setCxl p { k with enumFail := true }).raise 0x5102 p 0 none (s.rd (cxlBase p + 0x40)).toNat 0
  | some n =>
    let s := s.wr (cxlBase p + (if devB then 0x30 else 0x28)) (BitVec.ofNat 64 (cxlCap split n))
    let s := s.setCxl p (if devB then { k with activeB := true } else { k with activeA := true })
    s.raise 0x5100 p 0 none (s.rd (cxlBase p + 0x40)).toNat 0

/-- An enumeration ends, with what the devices answered (R261, R262). -/
def cxlEnumerated (s : State) (p : PortId) (a b : Option Nat) : State :=
  let k := s.cxl[p]
  if !k.enum ∨ s.power.rebooting ∨ s.power.recovery then s
  else
    let s := cxlDevice (s.setCxl p { k with enum := false }) p false a
    let s := if bit (s.rd (cxlBase p + 8)) 1 then cxlDevice s p true b else s
    ilvSettle s

/-- The response of a device to request `i` of a port: its data, or poison (R263). -/
def cxlRespond (s : State) (p : PortId) (i : Nat) (poison : Bool) : State :=
  let k := s.cxl[p]
  match k.reqs[i]? with
  | none => s
  | some r =>
    let s := s.setCxl p { k with reqs := k.reqs.eraseIdx i }
    if poison then
      let s := cxlFailed (s.count (cxlBase p + 0x48) 32 1) p r
      s.raiseIf r.job.isSome 0x5103 p 0 r.job (s.rd (cxlBase p + 0x40)).toNat 0
    else
      let (s, bs) := match r.data with
        | some bs => ({ s with tier := s.tier.write r.t bs }.count (cxlBase p + 0x58) 64 r.len, [])
        | none => (s.count (cxlBase p + 0x50) 64 r.len, s.tier.read r.t r.len)
      match r.owner with
      | none => s
      | some (c, ch, seq, off) => dmaTier s c ch seq off 0 r.len bs (tierAddr r.t)

/-- Request `i` of a port has had no response in time (R263). -/
def cxlTimeout (s : State) (p : PortId) (i : Nat) : State :=
  let k := s.cxl[p]
  match k.reqs[i]? with
  | none => s
  | some r =>
    let s := cxlFailed (s.setCxl p { k with reqs := k.reqs.eraseIdx i }) p r
    s.raiseIf r.job.isSome 0x5104 p 0 r.job (s.rd (cxlBase p + 0x40)).toNat 0

/-- An access to CXL_CFG_DATA: a write goes out to the device, a read returns what the device answers (R265). -/
def cxlConfig (s : State) (p : PortId) (write : Option (BitVec 32)) (reply : BitVec 32) : State :=
  let a := s.rd (cxlBase p + 0x100)
  match write with
  | some v => { s with cxlCfg := tset s.cxlCfg ((p.val * 2 + fld a 12 1) * 4096 + fld a 0 12) v }
  | none => { s with host := { s.host with out := s.host.out ++ [.reg (reply.setWidth 64)] } }

/-- CXL_PORT_EN (R261). -/
def execCxlPortEn (p : PortId) (en : Bool) (s : State) : Out :=
  .next (s.ifOn (cxlDomain p) (cxlEnable s p en))
/-- CXL_ENUM_COMPLETE (R261). -/
def execCxlEnumComplete (p : PortId) (a b : Option Nat) (s : State) : Out := .next (s.live (cxlEnumerated s p a b))
/-- CXL_RESPONSE (R263). -/
def execCxlResponse (p : PortId) (i : Nat) (poison : Bool) (s : State) : Out := .next (s.live (cxlRespond s p i poison))
/-- CXL_TIMEOUT_EXPIRY (R263). -/
def execCxlTimeoutExpiry (p : PortId) (i : Nat) (s : State) : Out := .next (s.live (cxlTimeout s p i))
/-- CXL_LINK_LOSS (R263). -/
def execCxlLinkLoss (p : PortId) (devB : Bool) (s : State) : Out := .next (s.live (cxlDown s p devB))
/-- CXL_CFG_DATA_ACCESS (R265). -/
def execCxlCfgDataAccess (p : PortId) (write : Option (BitVec 32)) (reply : BitVec 32) (s : State) : Out :=
  .next (s.ifOn (cxlDomain p) (cxlConfig s p write reply))

/-- The bytes of an access to the tier move the counters of the ports its granules belong to (R262, R265). -/
def tierCount (s : State) (t len reg : Nat) : State :=
  (List.range ((t + len + 4095) / 4096 - t / 4096)).foldl (fun s i =>
    let g := 4096 * (t / 4096 + i)
    s.count (cxlBase (tierDev s g).1 + reg) 64 (min (t + len) (g + 4096) - max t g)) s

/-- An access of an engine or a peer to the tier as a whole; `err` is how its CXL.mem requests go wrong, if they do
(R262, R263). -/
def tierDo (s : State) (job : Option Nat) (t len : Nat) (data : Option (List Byte)) (err : Option CxlErr) :
    State × AccEnd :=
  let (p, b) := tierDev s t
  let r : CxlReq := { devB := b, t := t, len := len, data := data, owner := none, job := job }
  if !tierPresent s t len then (s, .fail 1)
  else
    match err with
    | some .poison =>
      let s := (s.count (cxlBase p + 0x48) 32 1).wr (cxlBase p + 0x40) (cxlLog r)
      (s.raiseIf job.isSome 0x5103 p 0 job (cxlLog r).toNat 0, .fail 6)
    | some .timeout =>
      let s := s.wr (cxlBase p + 0x40) (cxlLog r)
      (s.raiseIf job.isSome 0x5104 p 0 job (cxlLog r).toNat 0, .fail 6)
    | none =>
      match data with
      | some bs => (tierCount { s with tier := s.tier.write t bs } t len 0x58, .ok [])
      | none => (tierCount s t len 0x50, .ok (s.tier.read t len))

end Sys2Proof.Machine
end

