-- ==== Sys2Proof/Machine/QueueOps.lean ====
section
/-!
DEFINITION. The QOP instructions (R42, R208 to R214, R220) and the commands of the queues (R203 to R222).
-/

namespace Sys2Proof.Machine

/-! ### Fabric entries -/

/-- A QOP has completed: its slot action, and the fabric goes on (R208, R210, R227). -/
def qopFinish (s : State) (c : CoreId) (e : Entry) : State :=
  let w := e.word
  let s := s.setUnit c { s.unit c with fab := none }
  let s :=
    if !qopSen w then s
    else
      match fOp w with
      | 0 => setGuard s c (qopSlot w) false
      | 1 => setGuard s c (qopSlot w) true
      | _ => s
  wake s c

/-- The scratchpad offset of a QOP. -/
def qopOff (e : Entry) : Nat := (snapGet e.s (qopSa e.word)).toNat

/-- The QOP at the head of the fabric queue starts: the offset of a PUSH or POP (R42, R233), its guard, then the queue's
job and whether it is on (R220). A rejected QOP takes its slot action and nothing else. -/
def qopStart (s : State) (c : CoreId) (e : Entry) (rest : List Entry) : State :=
  let w := e.word
  let moves := fOp w == 0 || fOp w == 1
  let off := qopOff e
  let len := 64 * qopCells w
  if moves && (off % 64 != 0 || decide (spSize < off + len)) then
    faultHaltEv (popHead s c .fab rest) c 0xF004#16 e.pc 0x1007 off
  else if moves && spGecko s c (s.jobOf c) off len then
    faultHaltEv (popHead s c .fab rest) c 0xF004#16 e.pc 0x1014 off
  else if (holdingGuard s c e).isSome then s
  else
    let s := popHead s c .fab rest
    let s := s.setUnit c { s.unit c with fab := some (.qop e 0) }
    match fin? 256 (qopQ w) with
    | none => s
    | some q =>
      let a1 := cellArg (qopMbtag w) c.val
      if !qOn s q then qopFinish (qEv s q 0x4006 (s.jobOf c) none a1) c e
      else if s.jobOf c ≠ some (qJob s q) then qopFinish (qEv s q 0x4005 (s.jobOf c) none a1) c e
      else s

/-- A PUSH whose cells are all accepted completes, once no control word of its micro-batch waits (R208, R375). -/
def pushEnd (s : State) (c : CoreId) (e : Entry) (done : Nat) : State :=
  match fin? 256 (qopQ e.word) with
  | none => s
  | some q => if done < qopCells e.word ∨ wordWaits s q (BitVec.ofNat 16 (qopMbtag e.word)) then s else qopFinish s c e

/-- A PUSH offers its next cell; with the last one accepted it completes (R208). -/
def pushCell (s : State) (c : CoreId) : State :=
  match (s.unit c).fab with
  | some (.qop e done) =>
    let w := e.word
    match fin? 256 (qopQ w) with
    | none => s
    | some q =>
      if fOp w ≠ 0 ∨ fClass w ≠ 4 ∨ qopCells w ≤ done then s
      else
        let (s, bs) := spReadAny s c (s.jobOf c) (qopOff e + 64 * done) 64
        let cell : Cell := { data := BitVec.ofNat 512 (leNat bs), mbtag := BitVec.ofNat 16 (qopMbtag w),
                             eop := qopEop w && done + 1 == qopCells w, tent := qopTent w,
                             src := BitVec.ofNat 15 s.devid, agent := BitVec.ofNat 7 c.val }
        match qOffer s q (s.jobOf c) cell with
        | (s, .refused) => s
        | (s, _) =>
          pushEnd (s.setUnit c { s.unit c with fab := some (.qop e (done + 1)) }) c e (done + 1)
  | _ => s

/-- A PUSH offers up to `n` cells. -/
def pushCells (c : CoreId) : Nat → State → State
  | 0, s => s
  | n + 1, s => pushCells c n (pushCell s c)

/-- `n` cells of a POP from cell `i` on; true where one came from Q_LAST (R210). -/
def popCells (q : QId) (c : CoreId) (off : Nat) : Nat → Nat → State → State × Bool
  | 0, _, s => (s, false)
  | n + 1, i, s =>
    let (s, d, under) := popCell s q
    let s := spWriteAny s c (s.jobOf c) (off + 64 * i) (leBytes 64 d.toNat)
    let (s, more) := popCells q c off n (i + 1) s
    (s, under || more)

/-- The effect of a started QOP other than PUSH (R210 to R214): a POP waits for cells of the pool while a controller
does not serve (R210, R250); a marker that a forwarding queue has no room for waits
(R215). -/
def qopEffect (s : State) (c : CoreId) (e : Entry) : State :=
  let w := e.word
  match fin? 256 (qopQ w) with
  | none => s
  | some q =>
    let mark (kind : Nat) : State :=
      match qOffer s q (s.jobOf c) (markerCell s c.val (BitVec.ofNat 16 (qopMbtag w)) kind) with
      | (s, .refused) => s
      | (s, _) => qopFinish s c e
    match fOp w with
    | 1 =>
      if decide ((s.queues[q]).head.length < qopCells w) && visWaits s q then s
      else
      let (s, under) := popCells q c (qopOff e) (qopCells w) 0 s
      let s := if under then qEv s q 0x4000 (some (qJob s q)) none (cellArg (qopMbtag w) c.val) else s
      qopFinish s c e
    | 2 => qopFinish (qDrop s q) c e
    | 3 => qopFinish (s.setCore c ((s.core c).sset (qopSd w) (qStatWord s q))) c e
    | 4 => mark 1
    | 5 => mark 2
    | _ => s

/-- The dispatch request at the head of the fabric queue is handed to the dispatch unit of the core's die (R43,
R154). -/
def dispStart (s : State) (c : CoreId) (e : Entry) (rest : List Entry) : State :=
  let s := popHead s c .fab rest
  let s := s.setUnit c { s.unit c with fab := some (.disp e) }
  let u := duOf c
  let k := s.dus[u]
  s.setDu u { k with waiting := k.waiting ++ [{ core := c, pc := e.pc, word := e.word, s := e.s }] }

/-- The fabric queue starts its head, where that is a QOP or a DISP (R48, R49). -/
def fabStart (s : State) (c : CoreId) : State :=
  match fabHead s c with
  | none => s
  | some (e, rest) =>
    match fClass e.word with
    | 4 => qopStart s c e rest
    | 6 => dispStart s c e rest
    | _ => s

/-- What the fabric queue has started completes, where it can: any QOP, a PUSH once its cells are accepted, and a slot instruction
(R48). -/
def fabComplete (s : State) (c : CoreId) : State :=
  match (s.unit c).fab with
  | some (.qop e n) => if fOp e.word = 0 then pushEnd s c e n else qopEffect s c e
  | some (.disp _) => s
  | none => slotSync s c

/-- Issue of a QOP; where the fabric queue is empty and `now` holds, it starts and, as far as the queue lets it, runs in
the same command. -/
def qopIssue (c : CoreId) (now : Bool) (us : List Upset) (o : Op) (s : State) : State :=
  let idle := now && unitIdle (s.unit c) .fab
  let s := issueTo s c us o .fab
  if !idle then s
  else
    let s := fabStart s c
    match (s.unit c).fab with
    | some (.qop e _) => if o = .qopPush then pushCells c (qopCells e.word) s else fabComplete s c
    | _ => s

/-- QOP PUSH (R42, R208). -/
def execQopPush (c : CoreId) (now : Bool) (us : List Upset) (s : State) : Out := .next (qopIssue c now us .qopPush s)
/-- QOP POP (R42, R210). -/
def execQopPop (c : CoreId) (now : Bool) (us : List Upset) (s : State) : Out := .next (qopIssue c now us .qopPop s)
/-- QOP DROP (R211). -/
def execQopDrop (c : CoreId) (now : Bool) (us : List Upset) (s : State) : Out := .next (qopIssue c now us .qopDrop s)
/-- QOP STAT (R212). -/
def execQopStat (c : CoreId) (now : Bool) (us : List Upset) (s : State) : Out := .next (qopIssue c now us .qopStat s)
/-- QOP COMMIT (R214). -/
def execQopCommit (c : CoreId) (now : Bool) (us : List Upset) (s : State) : Out :=
  .next (qopIssue c now us .qopCommit s)
/-- QOP CANCEL (R214). -/
def execQopCancel (c : CoreId) (now : Bool) (us : List Upset) (s : State) : Out :=
  .next (qopIssue c now us .qopCancel s)

/-! ### Cells from outside the cores -/

/-- Credits of a receive buffer go back once a packet has left it (R278). -/
def returnCredit (s : State) (l : LinkId) (vc job units : Nat) (pooled : Bool) : State :=
  if units = 0 then s
  else
  let k := s.links[l]
  let key := job * 8 + vc
  let dec (t : Table Nat) : Table Nat := tset t key ((tget t key).getD 0 - units)
  let k := if pooled then { k with rxPool := dec k.rxPool } else { k with rxRsv := dec k.rxRsv }
  s.setLink l { k with rets := k.rets ++ [{ vc := vc, job := job, pool := pooled, units := units }] }

/-- The cell a source offers to a queue now, with its job and the state once the queue has taken it; a receive buffer
offers the oldest cells of each job (R209), and a dispatch unit none while a STOP of the queue is in force (R217). A core's PUSH
takes another path. -/
def offered (s : State) (q : QId) (o : Offer) : Option (Cell × Nat × (State → State)) :=
  match o with
  | .core _ => none
  | .link l =>
    let k := s.links[l]
    match k.cells.find? (fun r => r.q == q && (k.cells.find? (fun x => x.job == r.job)).any (fun x => x == r)) with
    | some r =>
      match r.cells with
      | [] => none
      | c :: rest =>
        some (c, r.job, fun s =>
          let k := s.links[l]
          if rest.isEmpty then
            returnCredit (s.setLink l { k with cells := k.cells.erase r }) l 0 r.job r.units r.pooled
          else
            s.setLink l { k with cells := k.cells.map (fun x => if x == r then { r with cells := rest } else x) })
    | none => none
  | .host r =>
    let k := s.host.rings[r]
    ((List.range k.descs.length).findSome? (fun n =>
      match ((k.descs[n]?).bind (fun (d : Desc) => d.run) : Option DescRun) with
      | some (.push q' (c :: rest) m) =>
        if q' == q then some (n, c, if rest.isEmpty then DescRun.due 0#8 (BitVec.ofNat 32 m) 0#16 else .push q rest m)
        else none
      | some (.gen i q' (some c)) => if q' == q then some (n, c, .gen i q none) else none
      | _ => none)).map (fun (n, c, run) =>
        (c, (r.val - 2) / 2, fun s =>
          let k := s.host.rings[r]
          s.setRing r { k with descs := k.descs.modify n (fun d => { d with run := some run }) }))
  | .du u =>
    let k := s.dus[u]
    match (if stopped s s.devid q.val then none else k.outs.find? (fun x => x.dest == .here q)) with
    | some x =>
      match x.cells with
      | [] => none
      | c :: rest =>
        some (c, x.job, fun s =>
          let k := s.dus[u]
          let outs := if rest.isEmpty then k.outs.erase x
            else k.outs.map (fun y => if y == x then { x with cells := rest } else y)
          s.setDu u { k with outs := outs })
    | none => none

/-- A source's next cell is offered to a queue; a refused cell stays where it is (R205, R208, R209). Markers are taken
only where `marker` says so. -/
def offerOne (s : State) (q : QId) (o : Offer) (marker : Bool) : State :=
  match o with
  | .core c =>
    match (s.unit c).fab with
    | some (.qop e _) => if qopQ e.word = q.val ∧ !marker then pushCell s c else s
    | _ => s
  | o =>
    match offered s q o with
    | none => s
    | some (cell, job, took) =>
      if (cell.marker && !qForward s q) != marker then s
      else
        match qOffer s q (some job) cell with
        | (s, .refused) => s
        | (s, _) => took s

/-- QUEUE_CELL_ACCEPT: the next cell of a source is offered to a queue (R205). -/
def execQueueCellAccept (q : QId) (o : Offer) (us : List Upset) (s : State) : Out :=
  .next (s.live (offerOne (strike s us) q o false))

/-- QUEUE_POOL_REFILL: the head refills a chunk from the pool (R205). -/
def execQueuePoolRefill (q : QId) (us : List Upset) (s : State) : Out := .next (s.live (qRefill (strike s us) q))

/-- QUEUE_MARKER_APPLY: a marker that a source holds for a LOCAL queue arrives there (R166, R214). -/
def execQueueMarkerApply (q : QId) (o : Offer) (us : List Upset) (s : State) : Out :=
  .next (s.live (offerOne (strike s us) q o true))

/-! ### Forwarding (R215) -/

/-- The cells a forwarding queue may put in one packet now: head cells of equal sideband fields. -/
def forwardCells (s : State) (q : QId) : List Cell := (s.queues[q]).head.take (packetLen (s.queues[q]).head)

/-- The head cells of a forwarding queue leave it. -/
def forwarded (s : State) (q : QId) (n : Nat) : State :=
  let k := s.queues[q]
  let s := s.setQueue q { k with head := k.head.drop n }
  qMarks ((qSettle s q).count (queueBase q + 0xC0) 64 n) q

/-- A forwarding queue sends: one cell to a queue of its own module, else one QCELLS packet of cells to the peer. A
paused queue sends nothing; an unreachable peer raises LINK_UNREACHABLE and the cells stay (R215, R217, R287). -/
def forwardSend (s : State) (q : QId) : State :=
  let s := qCheck s q
  if !qOn s q ∨ !qForward s q ∨ (s.queues[q]).paused then s
  else
    let s := if (s.queues[q]).head.isEmpty then qRefill s q else s
    let dev := qDestDev s q
    let die := if q.val < 128 then 0 else 1
    match (s.queues[q]).head with
    | [] => s
    | c :: _ =>
      if dev = s.devid then
        match fin? 256 (qDestQ s q) with
        | none => s
        | some d =>
          match qOffer s d (some (qJob s q)) c with
          | (s, .refused) => s
          | (s, _) => forwarded s q 1
      else
        let cells := forwardCells s q
        let p := qcellsPkt s (qJob s q) dev (qDestQ s q) cells
        match sendPkt s die 0 (qJob s q) dev p (some q) with
        | (s, true) => forwarded s q cells.length
        | (s, false) => (unreachable s (some (qJob s q)) dev p).failStep (some (qJob s q))

/-- QUEUE_FORWARD_SEND (R215). -/
def execQueueForwardSend (q : QId) (us : List Upset) (s : State) : Out := .next (s.live (forwardSend (strike s us) q))

/-- QFC_IN_RISE: a rising edge of a QFC_IN pin; `seen` says that the pin was held low and then high long enough. Every
enabled queue mapped to the pin with notification by pin signals its semaphore (R213, R445). -/
def execQfcInRise (pin : Fin 8) (seen : Bool) (s : State) : Out :=
  let s := { s with pins := { s.pins with qfcIn := setBit s.pins.qfcIn pin.val } }
  .next (if !seen || s.power.held then s
    else (allFin 256).foldl (fun (s : State) (q : QId) =>
      let n := s.rd (queueBase q + 0x50)
      if qOn s q && bit n 0 && bit n 1 && fld (s.rd (queueBase q + 0x48)) 4 3 == pin.val then qNotify s q else s) s)

/-! ### Register commands of the queues (R222) -/

/-- The checks of enabling a queue (R222). -/
def qCfgOk (s : State) (q : QId) : Bool :=
  let mode := fld (s.rd (queueBase q + 0x28)) 4 2
  let p := qChunks s q
  let wm := s.rd (queueBase q + 0x40)
  let others := (allFin 256).foldl (fun n r => if qOn s r && r != q then n + 2176 * qChunks s r else n) 0
  (mode == 1 || mode == 2) && decide (32 ≤ p) &&
    decide ((s.rd (queueBase q + 0x30)).toNat + 2176 * p ≤ gddrTop s) && decide (others + 2176 * p ≤ 0x800000000) &&
    decide (fld wm 32 32 < fld wm 0 32) && decide (fld wm 0 32 ≤ 1024 + 32 * p)

/-- A write of EN (R222): enabling after the checks, paused where a STOP of its destination is in force (R217), turning off with every cell discarded, nothing where EN already
holds the value. -/
def queueEn (s : State) (q : QId) (on : Bool) : State :=
  if qOn s q = on then s
  else if on then
    if qCfgOk s q then
      (s.setQueue q { s.queues[q] with paused := qForward s q && stopped s (qDestDev s q) (qDestQ s q) }).wr
        (queueBase q + 8) 1#64
    else qEv s q 0x4004 (some (qJob s q)) none 0
  else (qFlush s q).wr (queueBase q + 8) 0#64

/-- QUEUE_EN (R222). -/
def execQueueEn (q : QId) (on : Bool) (s : State) : Out := .next (s.ifOn (queueDomain q) (queueEn s q on))

/-- QUEUE_FLUSH (R220). -/
def execQueueFlush (q : QId) (s : State) : Out := .next (s.ifOn (queueDomain q) (qFlush s q))

/-- UNDERRUN and PTR_RESET are cleared (R222). -/
def qClear (s : State) (q : QId) : State := s.setQueue q { s.queues[q] with underrun := false, ptrReset := false }

/-- QUEUE_CLR (R222). -/
def execQueueClr (q : QId) (s : State) : Out :=
  .next (s.ifOn (queueDomain q) (qClear s q))

/-- Q_WM_WRITE: the marks are stored and tested on the current count (R216). -/
def execQWmWrite (q : QId) (v : W64) (s : State) : Out := .next (s.ifOn (queueDomain q) (qMarks (s.wr (queueBase q + 0x40) v) q))

/-- A write of Q_PUSH_CTL pushes the window's cell; one that the queue cannot accept is discarded (R222). -/
def windowPush (s : State) (q : QId) (v : W64) : State :=
  let cell : Cell := { data := (s.queues[q]).win, mbtag := BitVec.ofNat 16 (fld v 0 16), eop := bit v 16,
                       src := BitVec.ofNat 15 s.devid, agent := 0x7F#7 }
  match qOffer s q (some (qJob s q)) cell with
  | (s, .refused) => qEv s q 0x4009 (some (qJob s q)) none (cellArg cell.mbtag.toNat 0x7F)
  | (s, _) => s

/-- QUEUE_WINDOW_PUSH (R222). -/
def execQueueWindowPush (q : QId) (v : W64) (s : State) : Out := .next (s.ifOn (queueDomain q) (windowPush s q v))

end Sys2Proof.Machine
end

