-- ==== Sys2Proof/Machine/Links.lean ====
section
/-!
DEFINITION. The links: flits (R274), bring-up (R272, R273), retry (R275), credits (R278), the transmitter (R279),
failover (R286, R287) and the receive buffer up to the packets in it.
-/

namespace Sys2Proof.Machine

/-! ### Flits (R274) -/

/-- The four flit types. -/
def ftData : Nat := 0
/-- IDLE. -/
def ftIdle : Nat := 1
/-- NAK. -/
def ftNak : Nat := 2
/-- PARAM. -/
def ftParam : Nat := 3

/-- The two bytes of a credit return; a count of 0 returns nothing. -/
def retBytes (r : CreditRet) : List Byte :=
  leBytes 2 (r.vc % 8 + r.job % 16 * 8 + (if r.pool then 128 else 0) + r.units % 256 * 256)

/-- A flit: type, SEQ, ACK, credit returns and 244 payload bytes, with its CRC. -/
def flitOf (ftype seq : Nat) (ack : Option Nat) (rets : List CreditRet) (payload : List Byte) : List Byte :=
  let body := payload.take 244 ++ List.replicate (244 - payload.length) 0#8 ++
    leBytes 2 (seq % 4096 + ftype * 4096) ++ leBytes 2 (match ack with | some a => a % 4096 + 4096 | none => 0) ++
    (rets.take 2).flatMap retBytes ++ List.replicate (4 - 2 * min 2 rets.length) 0#8
  body ++ leBytes 4 (crc32 body)

/-- SEQ of a flit. -/
def fSeq (f : List Byte) : Nat := nfld (leAt f 244 2) 0 12
/-- FTYPE. -/
def fType (f : List Byte) : Nat := nfld (leAt f 244 2) 12 4
/-- ACK, where ACKV is 1. -/
def fAck (f : List Byte) : Option Nat := if (leAt f 246 2).testBit 12 then some (nfld (leAt f 246 2) 0 12) else none
/-- A credit return of a flit. -/
def fRet (f : List Byte) (o : Nat) : CreditRet :=
  let w := leAt f o 2
  { vc := nfld w 0 3, job := nfld w 3 4, pool := w.testBit 7, units := nfld w 8 8 }
/-- Whether a flit passes the receive check; `hit` says that an uncorrectable codeword holds words of it (R271, R275). -/
def flitOk (f : List Byte) (hit : Bool) : Bool :=
  f.length == 256 && !hit && leAt f 252 4 == crc32 (f.take 252) && decide (fType f ≤ 3)

/-! ### Registers and events -/

/-- The power domain of a link's optical engine (R296). -/
def linkDomain (l : LinkId) : Nat := 50 + l.val / 4
/-- EN. -/
def linkEn (s : State) (l : LinkId) : Bool := bit (s.rd (linkBase l + 8)) 0
/-- AUTO_UP. -/
def linkAuto (s : State) (l : LinkId) : Bool := bit (s.rd (linkBase l + 8)) 1
/-- A link event with LINK_PEER and a count (R298, R385). -/
def linkEv (s : State) (l : LinkId) (code a1 : Nat) : State :=
  s.record code l 0 none none (s.rd (linkBase l + 0x28)).toNat a1

/-- The units a list of LINK_RSV words reserves for a job and a virtual channel (R296). -/
def rsvOf (ws : List W64) (key : Nat) : Nat := fld (getD ws (key / 8) 0#64) (8 * (key % 8)) 8
/-- All units that a list of words reserves. -/
def rsvSum (ws : List W64) : Nat := (List.range 128).foldl (fun n k => n + rsvOf ws k) 0
/-- The units that the peer reserves (R273, R296). -/
def peerRsv (s : State) (l : LinkId) (key : Nat) : Nat :=
  fld (s.rd (linkBase l + 0x180 + 8 * (key / 8))) (8 * (key % 8)) 8
/-- The shared units of the link's own receive buffer (R278). -/
def ownPool (k : Link) : Nat := 4096 - rsvSum k.rsv
/-- The sum of a table of counts. -/
def tsum (t : Table Nat) : Nat := t.foldl (fun n e => n + e.2) 0
/-- A count of a table. -/
def tnat (t : Table Nat) (k : Nat) : Nat := (tget t k).getD 0

/-! ### Requests that cannot go on (R282, R287) -/

/-- A buddy packet of a cairn has been answered or has failed (R326). -/
def cairnAnswer (s : State) (job tag code : Nat) : State :=
  match fin? 16 job with
  | none => s
  | some j =>
    let k := s.rcl.jobs[j]
    match k.cairn with
    | none => s
    | some c =>
      s.setRclJob j { k with cairn := some { c with buddy := c.buddy.erase tag,
                                                    fail := if c.fail = 0 then code else c.fail } }

/-- The answer of a peer to a request of a ring's descriptor: the bytes of a read wait to be written, and a failure code
stops the transfer (R246, R349). -/
def ringAnswer (s : State) (r : RingId) (tag code : Nat) (data : List Byte) : State :=
  let k := s.host.rings[r]
  let upd (d : Desc) : Desc :=
    match d.run with
    | some (.xfer x) =>
      match x.outs.find? (fun o => o.1 == tag) with
      | none => d
      | some o =>
        let outs := x.outs.erase o
        if code ≠ 0 then
          { d with run := some (.xfer { x with outs := outs, fail := x.fail.or (some (0x17#8, BitVec.ofNat 32 code)) }) }
        else if o.2.2.2 then
          { d with run := some (.xfer { x with outs := outs, parts := x.parts ++ [(o.2.1, data.take o.2.2.1)] }) }
        else { d with run := some (.xfer { x with outs := outs }) }
    | _ => d
  s.setRing r { k with descs := k.descs.map upd }

/-- The answer of a READ or WRITE reaches who waits for it, and its tag is free (R282). -/
def reqAnswer (s : State) (r : NetReq) (code : Nat) (data : List Byte) : State :=
  let s := { s with net := { s.net with reqs := s.net.reqs.filter (fun x => x.tag != r.tag) } }
  match r.owner with
  | none => s
  | some (.dma c ch seq) => dmaAnswer s c ch seq r.tag code data
  | some (.cairn j) => cairnAnswer s j r.tag code
  | some (.ring q) => ringAnswer s q r.tag code data

/-- A READ or WRITE whose peer cannot be reached fails with code 0x08, and with it the step of its job, but for a cairn's (R287,
R326). -/
def reqStrand (s : State) (r : NetReq) : State :=
  match r.owner with
  | some (.cairn _) => reqAnswer s r 8 []
  | _ => (reqAnswer s r 8 []).failStep (some r.job)

/-- A COLL transfer fails to the reduction and commit logic, whose step fails (R287, R290). -/
def collDrop (s : State) (job dst xid : Nat) : State :=
  let net := s.net
  let s := { s with net := { net with
    collTx := net.collTx.filter (fun c => !(c.job == job && c.dst == dst && c.xid == xid)) } }
  s.failStep (some job)

/-- A packet whose destination can no longer be reached leaves its queue, or stays in it (R287): cells stay, requests fail with
code 0x08, operations of the reduction and commit logic fail, and of the flow-control messages the latest is kept. The table
names no sender of answers and of TIME packets. DESIGN CHOICE, log entry 42: an answer is dropped and fails the step of its job,
as one that finds no plane when it is made; a TIME packet, which is no job's, is dropped and fails none (R294). True where the
packet stays. -/
def strandPkt (s : State) (t : TxPkt) : State × Bool :=
  let s := unreachable s (if pType t.pkt = 10 then none else some t.job) t.dst t.pkt
  let p := t.pkt
  match pType p with
  | 1 => (s.failStep (some t.job), true)
  | 2 | 3 =>
    match s.net.reqs.find? (fun r => r.tag == pTag p) with
    | some r => (reqStrand s r, false)
    | none => (s, false)
  | 6 => (collDrop s t.job t.dst (pByte p 12 2), false)
  | 8 =>
    let q := pByte p 12 1
    let keep := s.net.qflow.filter (fun m => !(m.1 == t.dst && m.2.1 == q))
    ({ s with net := { s.net with qflow := keep ++ [(t.dst, q, t.job, pByte p 13 1 == 1)] } }, false)
  | 10 => (s, false)
  | _ => (s.failStep (some t.job), false)

/-- What still waits at a link that has gone down and has no other plane. -/
def strand (s : State) (l : LinkId) : State :=
  let (s, keep) := (s.links[l]).tx.foldl (fun (acc : State × List TxPkt) t =>
    let (s, stays) := strandPkt acc.1 t
    (s, if stays then acc.2 ++ [t] else acc.2)) (s, [])
  s.setLink l { s.links[l] with tx := keep }

/-! ### Planes that change (R285, R286) -/

/-- Packets go to the front of a link's transmit queues, in their order. -/
def placeFront (s : State) (n : LinkId) (ts : List TxPkt) : State :=
  s.setLink n { s.links[n] with tx := ts ++ (s.links[n]).tx }

/-- Whether a queued packet belongs to a pinned flow. -/
def ofFlow (key : Nat) (t : TxPkt) : Bool := pinnedVc t.vc && flowKey t.dst t.job t.vc == key

/-- The effective plane of a pinned flow is compared with the one in effect, `old`; where it has changed, the flow's
packets move there and wait for REPIN_HOLD (R286). -/
def repinFlow (s : State) (key old : Nat) : State :=
  match pinPlane s (key / 64) (key / 4 % 16), fin? 24 old with
  | some n, some o =>
    if n = o then s
    else
      let mine := ((s.links[o]).tx.filter (ofFlow key)).map (fun t => { t with hold := true })
      let s := s.setLink o { s.links[o] with tx := (s.links[o]).tx.filter (fun t => !ofFlow key t) }
      let net := s.net
      placeFront { s with net := { net with
        pinned := tset net.pinned key n.val,
        holding := if net.holding.contains key then net.holding else net.holding ++ [key] } } n mine
  | _, _ => s

/-- The stripe a COLL packet belongs to: destination, job, XID and STRIPE. -/
def stripeOf (t : TxPkt) : Option (Nat × Nat × Nat × Nat) :=
  if t.vc = 2 then some (t.dst, t.job, pByte t.pkt 12 2, pByte t.pkt 14 2) else none

/-- New planes for the striped packets of a link that is down, in order; all parts of a stripe go to one plane (R285,
R289). -/
def restripe (s : State) (ts : List TxPkt) : State × List (TxPkt × LinkId) :=
  let r := ts.foldl (fun (acc : State × List (TxPkt × LinkId)) t =>
    let s := acc.1
    if pinnedVc t.vc then acc
    else
      match acc.2.find? (fun m => stripeOf t ≠ none ∧ stripeOf t = stripeOf m.1) with
      | some m => (s, acc.2 ++ [(t, m.2)])
      | none =>
        match choosePlane s t.die t.vc t.dst t.job with
        | none => acc
        | some n =>
          ({ s with net := { s.net with lastPlane := tset s.net.lastPlane (t.die * 8 + t.vc) n.val } },
            acc.2 ++ [(t, n)])) (s, [])
  r

/-- The striped packets of a link that is not ACTIVE go to live planes where there are any (R286). -/
def restripeLink (s : State) (l : LinkId) : State :=
  let k := s.links[l]
  if k.st = .active then s
  else
    let (s, moves) := restripe s k.tx
    let gone := moves.map (·.1)
    let s := s.setLink l { k with tx := k.tx.filter (fun t => pinnedVc t.vc || !gone.contains t) }
    moves.reverse.foldl (fun s m => placeFront s m.2 [m.1]) s

/-- The planes in use have changed: pinned flows move to their effective plane, packets of links that are down to live
ones (R286). -/
def repin (s : State) : State :=
  let s := s.net.pinned.foldl (fun s e => repinFlow s e.1 e.2) s
  (allFin 24).foldl restripeLink s

/-- Pinned packets that a link hands back go to the plane in effect of their flow where that is another one, ahead of later
packets of the flow (R286). -/
def rejoinFlows (s : State) (l : LinkId) : State :=
  let moves := (s.links[l]).tx.filterMap (fun t =>
    match (if pinnedVc t.vc then pinPlane s t.dst t.job else none) with
    | some n => if n = l then none else some (t, n)
    | none => none)
  let s := s.setLink l { s.links[l] with tx := (s.links[l]).tx.filter (fun t => !moves.any (fun m => m.1 == t)) }
  moves.reverse.foldl (fun s m =>
    placeFront s m.2 [{ m.1 with hold := s.net.holding.contains (flowKey m.1.dst m.1.job m.1.vc) }]) s

/-- Destinations may have become reachable: what waited for them leaves (R286, R287). -/
def reachAgain (s : State) : State := duFlush (duFlush (retryQflow (repin s)) 0) 1

/-- REPIN_HOLD has passed for a flow: its packets may start on their new plane (R286). -/
def holdOver (s : State) (key : Nat) : State :=
  let s := { s with net := { s.net with holding := s.net.holding.filter (fun x => x != key) } }
  (allFin 24).foldl (fun (s : State) (n : LinkId) =>
    let k := s.links[n]
    s.setLink n { k with tx := k.tx.map (fun t => if ofFlow key t then { t with hold := false } else t) }) s

/-! ### The states of a link (R272, R273) -/

/-- A link with nothing left of its last connection: what its receive buffer still holds gives no units back. -/
def linkFresh (k : Link) (st : LinkSt) : Link :=
  { k with st := st, lock0 := false, lock1 := false, retry := [], txSeq := 0, rxSeq := 0, ack := none,
           nakSent := false, replays := 0, rxPart := [], useRsv := [], usePool := [], rxRsv := [], rxPool := [],
           rets := [], tc3 := 0, round := [], jobRound := [],
           rxq := k.rxq.map (fun r => { r with units := 0 }), waits := k.waits.map (fun r => { r with units := 0 }),
           cells := k.cells.map (fun r => { r with units := 0 }) }

/-- The state a link leaves ACTIVE for. -/
def leaveFor (s : State) (l : LinkId) : LinkSt :=
  if linkEn s l && s.domainOn (linkDomain l) && linkAuto s l then .optics else .down

/-- A link leaves ACTIVE: LINK_DOWN, PLANE_DROPPED, and the packets not delivered to its plane are placed again ahead of
later ones (R273, R286). -/
def linkLeave (s : State) (l : LinkId) : State :=
  let k := s.links[l]
  if k.st ≠ .active then s
  else
    let back := k.retry.filterMap (fun f => if f.last then f.pkt else none)
    let s := s.setLink l { linkFresh k (leaveFor s l) with tx := back ++ k.tx }
    let s := linkEv (s.count (linkBase l + 0x68) 32 1) l 0x6001 0
    let s := s.record 0x6100 0 0 none none 0 0
    strand (rejoinFlows (repin s) l) l

/-- A link in a bring-up state enters FAILED with an event. -/
def linkFail (s : State) (l : LinkId) (code : Nat) : State :=
  linkEv (s.setLink l (linkFresh s.links[l] .failed)) l code 0

/-- EN is written: DOWN goes to OPTICS, and 0 takes the link down from any state (R272, R273). -/
def linkEnable (s : State) (l : LinkId) (on : Bool) : State :=
  if !s.domainOn (linkDomain l) then s
  else
    let a := linkBase l + 8
    let s := s.wr a (putBit (s.rd a) 0 on)
    let k := s.links[l]
    if on then (if k.st = .down then s.setLink l { k with st := .optics } else s)
    else if k.st = .active then linkLeave s l
    else s.setLink l (linkFresh k .down)

/-- The lanes that `lanes` names lock their receivers; with both locked the link goes to ALIGN (R272, R296). -/
def laneLock (s : State) (l : LinkId) (lanes : BitVec 2) : State :=
  let k := s.links[l]
  let a := k.lock0 || lanes.getLsbD 0
  let b := k.lock1 || lanes.getLsbD 1
  if k.st = .optics then s.setLink l { k with st := if a && b then .align else .optics, lock0 := a, lock1 := b } else s

/-- The payload of the PARAM flit that the module sends (R273). -/
def paramPayload (s : State) (l : LinkId) (rsv : List W64) : List Byte :=
  [1#8] ++ leBytes 1 l.val ++ [0#8, 0#8] ++ leBytes 2 s.devid ++ [0#8, 0#8] ++ rsv.flatMap (fun w => leBytes 8 w.toNat) ++
    leBytes 2 (4096 - rsvSum rsv)

/-- Both lanes are aligned: EXCHANGE begins, LINK_RSV takes effect, and a PARAM flit leaves (R272, R273, R278). -/
def laneAlign (s : State) (l : LinkId) : State :=
  let k := s.links[l]
  if k.st = .align ∧ k.lock0 ∧ k.lock1 then
    let rsv := (List.range 16).map (fun j => s.rd (linkBase l + 0x100 + 8 * j))
    s.setLink l { k with st := .exchange, rsv := rsv, sent := k.sent ++ [flitOf ftParam 0 none [] (paramPayload s l rsv)] }
  else s

/-- A bring-up state has exceeded its time limit (R272). -/
def stateTimeout (s : State) (l : LinkId) : State :=
  match (s.links[l]).st with
  | .optics => linkFail s l 0x6002
  | .align => linkFail s l 0x6002
  | .exchange => linkFail s l 0x6002
  | _ => s

/-- 10 ms in FAILED with AUTO_UP (R272). -/
def failedRetry (s : State) (l : LinkId) : State :=
  let k := s.links[l]
  if k.st = .failed ∧ linkAuto s l ∧ s.domainOn (linkDomain l) then s.setLink l { k with st := .optics } else s

/-- A lane loses lock (R273). -/
def lockLoss (s : State) (l : LinkId) (lane : Fin 2) : State :=
  let k := s.links[l]
  let s := s.setLink l (if lane = 0 then { k with lock0 := false } else { k with lock1 := false })
  linkLeave s l

/-- The link enters ACTIVE (R272, R286). -/
def linkUp (s : State) (l : LinkId) : State :=
  let k := s.links[l]
  let s := s.setLink l { linkFresh k .active with lock0 := k.lock0, lock1 := k.lock1, seen := true }
  let s := linkEv s l 0x6000 0
  let s := if k.seen then s.record 0x6101 0 0 none none 0 0 else s
  reachAgain s

/-- LINK_PEER takes ROLE, PLANE and PORT of a PARAM flit received (R296). -/
def takePeer (s : State) (l : LinkId) (f : List Byte) : State := s.wr (linkBase l + 0x28) (BitVec.ofNat 64 (leAt f 0 3))

/-- What the leaf advertises is stored (R273, R296). -/
def takeParam (s : State) (l : LinkId) (f : List Byte) : State :=
  let b := linkBase l
  let s := takePeer s l f
  let s := (List.range 16).foldl (fun s j => s.wr (b + 0x180 + 8 * j) (BitVec.ofNat 64 (leAt f (8 + 8 * j) 8))) s
  s.setLink l { s.links[l] with peerPool := leAt f 136 2 }

/-- A good PARAM flit of the leaf in EXCHANGE; `accepts` says that the leaf accepts the module's own (R272, R273). -/
def paramIn (s : State) (l : LinkId) (f : List Byte) (accepts : Bool) : State :=
  let s := takeParam s l f
  let rsv := (List.range 128).map (fun i => leAt f (8 + i) 1)
  if leAt f 0 1 ≠ 2 ∨ leAt f 1 1 ≠ l.val ∨ leAt f 2 1 ≠ s.devid % 64 then linkFail s l 0x6003
  else if rsv.any (fun v => 1 ≤ v && v ≤ 16) ∨ 4096 < rsv.foldl (· + ·) 0 + leAt f 136 2 then linkFail s l 0x6004
  else if accepts then linkUp s l
  else s

/-- Whether a byte of LINK_RSV is a value from 1 to 16, which is no reservation (R296). -/
def rsvSmall (n : Nat) : Bool := decide (1 ≤ n ∧ n ≤ 16)

/-- LINK_RSV after a write of `v` over `old`: a byte from 1 to 16 leaves its field alone (R296). -/
def rsvTaken (old v : W64) : W64 :=
  (List.range 8).foldl (fun x i => if rsvSmall (fld v (8 * i) 8) then setFld x (8 * i) 8 (fld old (8 * i) 8) else x) v

/-- A write of LINK_RSV or LINK_POOL_CAP, taken only in DOWN and FAILED; of LINK_RSV a byte from 1 to 16 is ignored
(R296). -/
def linkCfgWrite (s : State) (l : LinkId) (off : Nat) (v : W64) : State :=
  let st := (s.links[l]).st
  let a := linkBase l + off
  if st ≠ .down ∧ st ≠ .failed then linkEv s l 0x6004 0
  else if off < 0x200 then
    let t := s.wr a (rsvTaken (s.rd a) v)
    if (List.range 8).any (fun i => rsvSmall (fld v (8 * i) 8)) then linkEv t l 0x6004 0 else t
  else s.wr a (v &&& (regSpec a).rw)

/-- A write of a link's BLK_CTRL (R296). -/
def linkCtrlWrite (s : State) (l : LinkId) (v : W64) : State :=
  let a := linkBase l + 8
  let s := s.wr a (putBit (s.rd a) 1 (bit v 1))
  if bit v 0 = linkEn s l ∧ ((s.links[l]).st ≠ .down ∨ !bit v 0) then s else linkEnable s l (bit v 0)

/-! ### The sender (R275, R278, R279) -/

/-- A flit leaves the link. -/
def emit (k : Link) (f : List Byte) : Link := { k with sent := k.sent ++ [f] }

/-- The account that covers a packet of a job and virtual channel: the reserved units (false) or the pool (true)
(R278). -/
def chargeFor (s : State) (l : LinkId) (key units : Nat) : Option Bool :=
  let k := s.links[l]
  if tnat k.useRsv key + units ≤ peerRsv s l key then some false
  else if tsum k.usePool + units ≤ k.peerPool ∧
      tnat k.usePool key + units ≤ fld (s.rd (linkBase l + 0x200)) 0 12 then some true
  else none

/-- Flits of a packet. -/
def flitsOf (p : Pkt) : Nat := (32 + p.data.length + 243) / 244

/-- The head packet of a (job, VC) of a link: its oldest that does not wait for REPIN_HOLD. -/
def headPkt (k : Link) (vc job : Nat) : Option TxPkt := k.tx.find? (fun t => t.vc == vc && t.job == job && !t.hold)

/-- Whether the head packet of a (job, VC) lacks credits (R279). -/
def lacksCredits (s : State) (l : LinkId) (vc job : Nat) : Bool :=
  match headPkt s.links[l] vc job with
  | none => false
  | some t => (chargeFor s l (job * 8 + vc) (pSize t.pkt)).isNone

/-- The packet that a (job, VC) of a link may start: its head packet, where the credits cover it and the retry buffer has
room. A packet that was on another plane goes before others of its flow. -/
def eligible (s : State) (l : LinkId) (vc job : Nat) : Option (TxPkt × Bool) :=
  let k := s.links[l]
  match headPkt k vc job with
  | none => none
  | some t =>
    let behind := pinnedVc vc && !t.ordered && k.tx.any (fun x => x.ordered && ofFlow (flowKey t.dst job vc) x)
    if behind ∨ 256 < k.retry.length + flitsOf t.pkt then none
    else (chargeFor s l (job * 8 + vc) (pSize t.pkt)).map (fun pool => (t, pool))

/-- The weight of a job: 0 counts as 1 (R297). -/
def jobWt (s : State) (j : Nat) : Nat := max 1 (fld (s.rd (lnkBase + 0x18)) (4 * j) 4)
/-- The weight of a class. -/
def clsWt (s : State) (c : Nat) : Nat := max 1 (fld (s.rd (lnkBase + 0x20)) (4 * c) 4)
/-- A list of `n` counts with entry `i` one higher. -/
def bump (l : List Nat) (n i : Nat) : List Nat :=
  (List.range n).map (fun k => getD l k 0 + (if k = i then 1 else 0))

/-- The counts of a round with job `j` next: a job before it whose head packet lacks credits has had its turn (R279). -/
def roundAt (s : State) (l : LinkId) (vc j : Nat) (r : List Nat) : List Nat :=
  (List.range 128).map (fun i =>
    if i / 16 = vc ∧ i % 16 < j ∧ lacksCredits s l vc (i % 16) then max (getD r i 0) (jobWt s (i % 16)) else getD r i 0)

/-- The job of a virtual channel whose turn it is, with the counts of the round after it (R279). -/
def pickJob (s : State) (l : LinkId) (vc : Nat) : Option (Nat × List Nat) :=
  let r := (s.links[l]).jobRound
  let js := (List.range 16).filter (fun j => (eligible s l vc j).isSome)
  match js.find? (fun j => getD r (vc * 16 + j) 0 < jobWt s j), js with
  | some j, _ => some (j, bump (roundAt s l vc j r) 128 (vc * 16 + j))
  | none, j :: _ =>
    let clear := (List.range 128).map (fun i => if i / 16 = vc then 0 else getD r i 0)
    some (j, bump (roundAt s l vc j clear) 128 (vc * 16 + j))
  | none, [] => none

/-- The virtual channel and job of a class whose turn it is: responses first (R279). -/
def pickVc (s : State) (l : LinkId) (cls : Nat) : Option (Nat × Nat × List Nat) :=
  match pickJob s l (2 * cls + 1) with
  | some (j, r) => some (2 * cls + 1, j, r)
  | none => (pickJob s l (2 * cls)).map (fun x => (2 * cls, x.1, x.2))

/-- The class of TC0 to TC2 whose turn it is, with the counts of the round after it (R279). -/
def pickClass (s : State) (l : LinkId) : Option (Nat × List Nat) :=
  let r := (s.links[l]).round
  let cs := (List.range 3).filter (fun c => (pickVc s l c).isSome)
  match cs.find? (fun c => getD r c 0 < clsWt s c), cs with
  | some c, _ => some (c, bump r 3 c)
  | none, c :: _ => some (c, bump [] 3 c)
  | none, [] => none

/-- The virtual channel and job that start next, with the link's counts after it (R279): TC3 first, but at most one
packet in eight while another class has an eligible packet. -/
def pickNext (s : State) (l : LinkId) : Option (Nat × Nat × Link) :=
  let k := s.links[l]
  match pickVc s l 3, pickClass s l with
  | some (vc, j, jr), none => some (vc, j, { k with tc3 := 7, jobRound := jr })
  | some (vc, j, jr), some (c, r) =>
    if k.tc3 = 0 then some (vc, j, { k with tc3 := 7, jobRound := jr })
    else (pickVc s l c).map (fun x => (x.1, x.2.1, { k with tc3 := k.tc3 - 1, round := r, jobRound := x.2.2 }))
  | none, some (c, r) =>
    (pickVc s l c).map (fun x => (x.1, x.2.1, { k with tc3 := k.tc3 - 1, round := r, jobRound := x.2.2 }))
  | none, none => none

/-- The stamp of a TIME packet at its departure: t1 of a request is noted, t3 of a reply goes into its header (R292, R294). -/
def timeOut (s : State) (h : BitVec 256) : State × BitVec 256 :=
  if fld h 0 4 ≠ 10 then (s, h)
  else
    let (t, s) := s.now
    if bit h 6 then (s, setFld h 160 64 t.toNat) else ({ s with net := { s.net with t1 := some t } }, h)

/-- The packet as it leaves: with its OSEQ, its credit account, its stamp if it is a TIME packet, and its ECRC (R278, R280,
R283, R292). -/
def stamp (s : State) (t : TxPkt) (pool : Bool) : State × TxPkt :=
  let (s, h) := timeOut s (putBit t.pkt.hdr 13 pool)
  if pinnedVc t.vc ∧ !t.ordered then
    let key := flowKey t.dst t.job t.vc
    let n := tnat s.net.oseqTx key
    let t := { t with pkt := withEcrc { t.pkt with hdr := setFld h 64 16 n }, ordered := true }
    ({ s with net := { s.net with oseqTx := tset s.net.oseqTx key ((n + 1) % 65536) } }, t)
  else (s, { t with pkt := withEcrc { t.pkt with hdr := h } })

/-- The bytes of a packet. -/
def pktBytes (p : Pkt) : List Byte := leBytes 32 p.hdr.toNat ++ p.data

/-- A DATA flit leaves: it takes the next SEQ and up to two credit returns, and stays in the retry buffer (R274,
R275). -/
def sendFlit (k : Link) (payload : List Byte) (pkt : Option TxPkt) (last : Bool) : Link :=
  let rets := k.rets.take 2
  let f : TxFlit := { seq := k.txSeq, payload := payload, rets := rets, pkt := pkt, last := last }
  let k := { k with retry := k.retry ++ [f], txSeq := (k.txSeq + 1) % 4096, rets := k.rets.drop 2 }
  emit k (flitOf ftData f.seq k.ack rets payload)

/-- The flits of a packet leave. -/
def sendFlits (k : Link) (t : TxPkt) : Link :=
  let ps := chunks 244 8 (pktBytes t.pkt)
  (List.range ps.length).foldl (fun k i => sendFlit k (getD ps i []) (some t) (i + 1 == ps.length)) k

/-- An IDLE flit leaves: the next SEQ and the ACK (R274, R275). -/
def sendIdle (k : Link) : Link := emit k (flitOf ftIdle k.txSeq k.ack [] [])

/-- The transmitter starts its next packet. With none eligible it sends a flit of padding where there are credits to return and
the retry buffer has room, and an IDLE flit otherwise (R274, R275, R279). -/
def packetStart (s : State) (l : LinkId) : State :=
  let k := s.links[l]
  if k.st ≠ .active then s
  else
    match pickNext s l with
    | none => s.setLink l (if k.rets.isEmpty || decide (256 ≤ k.retry.length) then sendIdle k else sendFlit k [] none false)
    | some (vc, job, k) =>
      match eligible s l vc job with
      | none => s
      | some (t, pool) =>
        let key := job * 8 + vc
        let (s, u) := stamp s t pool
        let units := pSize u.pkt
        let k := { k with tx := k.tx.erase t }
        let k := if pool then { k with usePool := tset k.usePool key (tnat k.usePool key + units) }
          else { k with useRsv := tset k.useRsv key (tnat k.useRsv key + units) }
        (s.setLink l (sendFlits k u)).count (linkBase l + 0x58) 64 (32 + u.pkt.data.length)

/-- An ACK takes the flits it covers out of the retry buffer (R275). -/
def ackIn (k : Link) (a : Option Nat) : Link :=
  match a with
  | none => k
  | some n =>
    if k.retry.any (fun f => f.seq == n) then
      { k with retry := (k.retry.dropWhile (fun f => f.seq != n)).drop 1, replays := 0 }
    else k

/-- The sender replays from the oldest flit without an ACK; where REPLAY_LIMIT replays have brought no progress the link
leaves ACTIVE instead (R275). -/
def replay (s : State) (l : LinkId) : State :=
  let k := s.links[l]
  if k.retry.isEmpty ∨ k.st ≠ .active then s
  else if fld (s.rd (linkBase l + 0x30)) 0 8 ≤ k.replays then linkLeave (linkEv s l 0x6007 k.replays) l
  else
    let k := { k with replays := k.replays + 1 }
    let k := k.retry.foldl (fun k f => emit k (flitOf ftData f.seq k.ack f.rets f.payload)) k
    linkEv ((s.setLink l k).count (linkBase l + 0x50) 32 1) l 0x6006 k.replays

/-! ### The receiver (R271, R275, R278) -/

/-- LINK_CREDIT_FAULT: the link leaves ACTIVE (R278). -/
def creditFault (s : State) (l : LinkId) : State := linkLeave (linkEv s l 0x6008 0) l

/-- A credit return is taken; one beyond what is outstanding is a credit fault (R278). -/
def creditIn (s : State) (l : LinkId) (r : CreditRet) : State :=
  let k := s.links[l]
  let key := r.job * 8 + r.vc
  let use := if r.pool then tnat k.usePool key else tnat k.useRsv key
  if r.units = 0 ∨ k.st ≠ .active then s
  else if use < r.units then creditFault s l
  else if r.pool then s.setLink l { k with usePool := tset k.usePool key (use - r.units) }
  else s.setLink l { k with useRsv := tset k.useRsv key (use - r.units) }

/-- The stamp of a packet at its arrival, which a TIME packet gets (R292). -/
def timeIn (s : State) (p : Pkt) : W64 × State := if pType p = 10 then s.now else (0#64, s)

/-- A packet has come whole: it is charged to its account, or the link takes a credit fault (R278). -/
def pktArrived (s : State) (l : LinkId) (p : Pkt) : State :=
  let k := s.links[l]
  let key := pJob p * 8 + pVc p
  let units := pSize p
  let (t, s) := timeIn (s.count (linkBase l + 0x60) 64 (32 + p.data.length)) p
  if k.st ≠ .active then s
  else if pPooled p then
    if ownPool k < tsum k.rxPool + units then creditFault s l
    else s.setLink l { k with rxPool := tset k.rxPool key (tnat k.rxPool key + units),
                              rxq := k.rxq ++ [{ pkt := p, units := units, came := t }] }
  else if rsvOf k.rsv key < tnat k.rxRsv key + units then creditFault s l
  else s.setLink l { k with rxRsv := tset k.rxRsv key (tnat k.rxRsv key + units),
                            rxq := k.rxq ++ [{ pkt := p, units := units, came := t }] }

/-- The packets in the bytes that have come, at 4-byte boundaries; a zero word where a header could start is padding
(R274). -/
def parsePkts (l : LinkId) : Nat → State → State
  | 0, s => s
  | fuel + 1, s =>
    let k := s.links[l]
    let b := k.rxPart
    if b.length < 4 then s
    else if leAt b 0 4 = 0 then parsePkts l fuel (s.setLink l { k with rxPart := b.drop 4 })
    else
      let n := 32 + 64 * leAt b 6 1
      if b.length < 7 ∨ b.length < n then s
      else
        let p : Pkt := { hdr := BitVec.ofNat 256 (leAt b 0 32), data := (b.take n).drop 32 }
        parsePkts l fuel (pktArrived (s.setLink l { k with rxPart := b.drop n }) l p)

/-- FEC counts of a received flit: `corr` corrected symbols and `uncorr` uncorrectable codewords of which it is the first flit
(R271). -/
def fecIn (s : State) (l : LinkId) (corr uncorr : Nat) : State :=
  let s := s.count (linkBase l + 0x38) 64 corr
  if uncorr = 0 then s else linkEv (s.count (linkBase l + 0x40) 32 uncorr) l 0x6005 uncorr

/-- A flit that fails the receive check: counted, and one NAK is sent (R275). -/
def badFlit (s : State) (l : LinkId) : State :=
  let s := s.count (linkBase l + 0x48) 32 1
  let k := s.links[l]
  if k.nakSent ∨ k.st ≠ .active then s
  else s.setLink l (emit { k with nakSent := true } (flitOf ftNak k.txSeq k.ack [] []))

/-- A flit reaches a link that receives; `body` is what a flit that passes the check does where its type is `want`. A
flit of another type has its own command. An uncorrectable codeword counts at the first flit that holds a word of it; `more`
says that such a codeword of an earlier flit holds words of this one as well, which fails it too (R271). -/
def flitIn (s : State) (l : LinkId) (f : List Byte) (corr uncorr : Nat) (more : Bool) (want : Nat) (body : State → State) :
    State :=
  let st := (s.links[l]).st
  if st ≠ .active ∧ st ≠ .exchange then s
  else if !flitOk f (more || uncorr != 0) then badFlit (fecIn s l corr uncorr) l
  else if fType f ≠ want then s
  else body (fecIn s l corr uncorr)

/-- A good DATA flit: out of sequence it is discarded; otherwise its ACK, credit returns and packets are taken (R275,
R278). -/
def dataIn (s : State) (l : LinkId) (f : List Byte) : State :=
  let k := s.links[l]
  if k.st ≠ .active ∨ fSeq f ≠ k.rxSeq then s
  else
    let k := ackIn { k with rxSeq := (k.rxSeq + 1) % 4096, ack := some (fSeq f), nakSent := false } (fAck f)
    let s := s.setLink l { k with rxPart := k.rxPart ++ f.take 244 }
    let s := creditIn (creditIn s l (fRet f 248)) l (fRet f 250)
    parsePkts l ((s.links[l]).rxPart.length / 4 + 1) s

/-- The ACK of a flit. -/
def takeAck (s : State) (l : LinkId) (f : List Byte) : State := s.setLink l (ackIn s.links[l] (fAck f))

/-! ### The commands -/

/-- LANE_LOCK (R272). -/
def execLaneLock (l : LinkId) (s : State) (lanes : BitVec 2 := 3) : Out := .next (s.live (laneLock s l lanes))
/-- LANE_ALIGN (R272). -/
def execLaneAlign (l : LinkId) (s : State) : Out := .next (s.live (laneAlign s l))
/-- PARAM_FLIT (R273): checked in EXCHANGE; in ACTIVE its ACK is taken and LINK_PEER follows it (R296). -/
def execParamFlit (l : LinkId) (f : List Byte) (corr uncorr : Nat) (accepts : Bool) (s : State) (more : Bool := false) : Out :=
  .next (s.live (flitIn s l f corr uncorr more ftParam (fun s =>
    if (s.links[l]).st = .exchange then paramIn s l f accepts else takeAck (takePeer s l f) l f)))
/-- LINK_STATE_TIMEOUT (R272). -/
def execLinkStateTimeout (l : LinkId) (s : State) : Out := .next (s.live (stateTimeout s l))
/-- LINK_FAILED_RETRY (R272). -/
def execLinkFailedRetry (l : LinkId) (s : State) : Out := .next (failedRetry s l)
/-- LANE_LOCK_LOSS (R273). -/
def execLaneLockLoss (l : LinkId) (lane : Fin 2) (s : State) : Out := .next (s.live (lockLoss s l lane))
/-- DATA_FLIT (R275). -/
def execDataFlit (l : LinkId) (f : List Byte) (corr uncorr : Nat) (s : State) (more : Bool := false) : Out :=
  .next (s.live (flitIn s l f corr uncorr more ftData (fun s => dataIn s l f)))
/-- IDLE_FLIT (R274). -/
def execIdleFlit (l : LinkId) (f : List Byte) (corr uncorr : Nat) (s : State) (more : Bool := false) : Out :=
  .next (s.live (flitIn s l f corr uncorr more ftIdle (fun s => takeAck s l f)))
/-- NAK_FLIT (R275). -/
def execNakFlit (l : LinkId) (f : List Byte) (corr uncorr : Nat) (s : State) (more : Bool := false) : Out :=
  .next (s.live (flitIn s l f corr uncorr more ftNak (fun s => replay (takeAck s l f) l)))
/-- ACK_TIMEOUT_EXPIRY (R275). -/
def execAckTimeoutExpiry (l : LinkId) (s : State) : Out := .next (s.live (replay s l))
/-- LINK_PACKET_START (R279). -/
def execLinkPacketStart (l : LinkId) (s : State) : Out := .next (s.live (packetStart s l))

/-- REPIN_HOLD_EXPIRY of the flow of a destination, a job and a class (R286). -/
def execRepinHoldExpiry (dst : DevId) (job : JobId) (tc : Fin 4) (s : State) : Out :=
  .next (s.live (holdOver s ((dst.toNat * 16 + job.val) * 4 + tc.val)))

/-- A routing entry is written: the write counts in ROUTE_GEN (R284, R286, R418). -/
def routeWrite (s : State) (dst : Nat) (v : W64) : State :=
  let s := s.count (secBase + 0x88) 64 1
  reachAgain (s.wr (routeAddr dst) (v &&& (regSpec (routeAddr dst)).rw))

/-- PLANE_EN is written (R286). -/
def planeEnWrite (s : State) (v : W64) : State := reachAgain (s.wr (lnkBase + 0x10) (v &&& ones 24))

/-- ROUTE_ENTRY_WRITE (R284). -/
def execRouteEntryWrite (dst : DevId) (v : W64) (s : State) : Out := .next (s.ifOn 48 (routeWrite s dst.toNat v))
/-- PLANE_EN_WRITE (R286). -/
def execPlaneEnWrite (v : W64) (s : State) : Out := .next (s.ifOn 48 (planeEnWrite s v))

end Sys2Proof.Machine
end

