-- ==== Sys2Proof/Machine/Coll.lean ====
section
/-!
DEFINITION. COLL transfers on the sender's side (R282, R285, R289, R290): starting, resending, waiting for a tag.
-/

namespace Sys2Proof.Machine

/-- Stripes of a stream: 4 KiB each, the last may hold less (R289). -/
def stripesOf (stream : List Byte) : Nat := (stream.length + 4095) / 4096

/-- The packets of stripe `i` of a transfer (R281, R289). -/
def stripePkts (s : State) (c : CollTx) (i : Nat) : List Pkt :=
  let parts := chunks 1024 4 ((c.stream.drop (4096 * i)).take 4096)
  (List.range parts.length).map (fun p =>
    mkPkt s 6 1 0 c.job c.dst c.tag (leBytes 2 c.xid ++ leBytes 2 i ++ leBytes 2 (stripesOf c.stream) ++ leBytes 1 p ++
      leBytes 1 parts.length ++ c.info) (getD parts p []))

/-- A stripe leaves: all its parts on one plane, the next after the one last used; false where the destination is
unreachable (R285). -/
def sendStripe (s : State) (c : CollTx) (i : Nat) : State × Bool :=
  match choosePlane s 0 2 c.dst c.job with
  | none => (s, false)
  | some n =>
    let s := { s with net := { s.net with lastPlane := tset s.net.lastPlane 2 n.val } }
    let ts : List TxPkt := (stripePkts s c i).map (fun p => { pkt := p, vc := 2, job := c.job, dst := c.dst })
    (s.setLink n { s.links[n] with tx := (s.links[n]).tx ++ ts }, true)

/-- Stripes of a transfer leave; where the destination is unreachable the transfer fails to the reduction and commit
logic (R287). -/
def sendStripes (s : State) (c : CollTx) : List Nat → State
  | [] => s
  | i :: rest =>
    match sendStripe s c i with
    | (s, true) => sendStripes s c rest
    | (s, false) =>
      collDrop (unreachable s (some c.job) c.dst (getD (stripePkts s c i) 0 (mkPkt s 6 1 0 c.job c.dst c.tag [] [])))
        c.job c.dst c.xid

/-- A transfer with a tag starts. -/
def collBegin (s : State) (c : CollTx) : State :=
  let s := { s with net := { s.net with collTx := s.net.collTx ++ [c] } }
  sendStripes (s.count (redBase + 0x28) 64 c.stream.length) c (List.range (stripesOf c.stream))

/-- A transfer of a job is asked for: it starts, or waits for a tag (R282). Its XID is returned. -/
def collStart (s : State) (job dst : Nat) (info stream : List Byte) : State × Nat :=
  let net := s.net
  let xid := tnat net.nextXid job
  let s := { s with net := { net with nextXid := tset net.nextXid job ((xid + 1) % 65536) } }
  let c : CollTx := { xid := xid, tag := 0, job := job, dst := dst, info := info, stream := stream }
  let pend (s : State) : State := { s with net := { s.net with collPend := s.net.collPend ++ [c] } }
  if s.net.collPend.any (fun x => x.job == job) then ((askTag (pend s) { job := job, who := .coll xid }).1, xid)
  else
    match askTag s { job := job, who := .coll xid } with
    | (s, true) => (collBegin s { c with tag := newTag s }, xid)
    | (s, false) => (pend s, xid)

/-- Whether a job's step has failed on this module (R322). -/
def stepFailed (s : State) (job : Nat) : Bool :=
  match fin? 16 job with
  | some j => (s.rcl.jobs[j]).failed
  | none => false

/-- Transfers that wait for a tag start in order as tags become free; those of a failed step are given up (R282,
R322). -/
def collKick (s : State) : State :=
  s.net.collPend.foldl (fun (s : State) c =>
    let gone (s : State) : State := { s with net := { s.net with collPend := s.net.collPend.erase c } }
    if stepFailed s c.job then gone s
    else
      match askTag s { job := c.job, who := .coll c.xid } with
      | (s, true) =>
        let s := gone s
        collBegin s { c with tag := newTag s }
      | (s, false) => s) s

end Sys2Proof.Machine
end

