-- ==== Sys2Proof/Machine/DispatchUnit.lean ====
section
/-!
DEFINITION. The dispatch units: ROUTE (R154 to R163), tentative entries (R165 to R167), statistics (R170 to R173) and
their commands.
-/

namespace Sys2Proof.Machine

/-! ### The parameter block (R155) -/

/-- The 32-bit field of a DPB at a byte offset. -/
def dpbW (d : List Byte) (o : Nat) : Nat := leAt d o 4
/-- T. -/
def dpbT (d : List Byte) : Nat := leAt d 0 2
/-- E. -/
def dpbE (d : List Byte) : Nat := leAt d 2 1 + 1
/-- The control byte. -/
def dpbCtl (d : List Byte) : Nat := leAt d 3 1
/-- K. -/
def dpbK (d : List Byte) : Nat := nfld (dpbCtl d) 0 4
/-- POLICY is NEXT. -/
def dpbNext (d : List Byte) : Bool := (dpbCtl d).testBit 4
/-- TENT. -/
def dpbTent (d : List Byte) : Bool := (dpbCtl d).testBit 5
/-- EMPTYPK. -/
def dpbEmpty (d : List Byte) : Bool := (dpbCtl d).testBit 6
/-- CAP. -/
def dpbCap (d : List Byte) : Nat := leAt d 4 2
/-- ROWC. -/
def dpbRowc (d : List Byte) : Nat := leAt d 6 2
/-- SCORE. -/
def dpbScore (d : List Byte) : Nat := dpbW d 8
/-- SSTR. -/
def dpbSstr (d : List Byte) : Nat := dpbW d 12
/-- ACT. -/
def dpbAct (d : List Byte) : Nat := dpbW d 16
/-- ASTR. -/
def dpbAstr (d : List Byte) : Nat := dpbW d 20
/-- TOKREC. -/
def dpbTokrec (d : List Byte) : Nat := dpbW d 24
/-- EXPLIST. -/
def dpbExplist (d : List Byte) : Nat := dpbW d 28
/-- EXPCNT. -/
def dpbExpcnt (d : List Byte) : Nat := dpbW d 32
/-- GDESC. -/
def dpbGdesc (d : List Byte) : Nat := dpbW d 36
/-- STATUS. -/
def dpbStatus (d : List Byte) : Nat := dpbW d 40

/-- The regions of a DPB, offset and length, the STATUS record last; a region without bytes is left out (R155). -/
def dpbRegions (d : List Byte) : List (Nat × Nat) :=
  let t1 := dpbT d - 1
  ([(dpbScore d, t1 * dpbSstr d + 4 * dpbE d),
    (dpbAct d, if dpbRowc d = 0 then 0 else t1 * dpbAstr d + 64 * dpbRowc d),
    (dpbTokrec d, 64 * dpbT d), (dpbExplist d, 4 * dpbE d * dpbCap d), (dpbExpcnt d, 1024),
    (dpbGdesc d, 64 * dpbE d), (dpbStatus d, 16)]).filter (fun r => r.2 != 0)

/-- Whether the fields of a DPB are in range, apart from gecko residency (R155, R156). -/
def dpbFieldsOk (d : List Byte) : Bool :=
  decide (1 ≤ dpbT d ∧ dpbT d ≤ 4096 ∧ 1 ≤ dpbK d ∧ dpbK d ≤ 8 ∧ dpbK d ≤ dpbE d ∧ dpbCtl d < 128 ∧
    1 ≤ dpbCap d ∧ dpbCap d ≤ 4096 ∧ dpbRowc d ≤ 256 ∧ dpbSstr d % 64 = 0 ∧ 4 * dpbE d ≤ dpbSstr d ∧
    dpbAstr d % 64 = 0 ∧ 64 * dpbRowc d ≤ dpbAstr d ∧ leAt d 44 20 = 0 ∧ dpbAct d % 64 = 0 ∧ dpbAct d ≤ spSize) &&
  (dpbRegions d).all (fun r => r.1 % 64 == 0 && decide (r.1 + r.2 ≤ spSize))

/-- Whether two of the regions of a DPB overlap (R155). -/
def dpbOverlaps : List (Nat × Nat) → Bool
  | [] => false
  | r :: rest => rest.any (fun q => decide (r.1 < q.1 + q.2 ∧ q.1 < r.1 + r.2)) || dpbOverlaps rest

/-- Whether the STATUS region of a DPB may be written (R156). -/
def dpbStatusOk (s : State) (c : CoreId) (d : List Byte) : Bool :=
  dpbStatus d % 64 == 0 && decide (dpbStatus d + 16 ≤ spSize) && !spGecko s c (s.jobOf c) (dpbStatus d) 16

/-! ### Choosing experts (R157, R158) -/

/-- FP32 scores in their order: −0 equals +0 and a NaN lies below every number (R157). -/
def scoreKey (x : Nat) : Int :=
  let m := x % 0x80000000
  if 0x7F800000 < m then -0x80000000 else if x.testBit 31 then -(m : Int) else m

/-- Whether a score is a NaN. -/
def scoreNan (x : Nat) : Bool := decide (0x7F800000 < x % 0x80000000)

/-- Insertion of expert `e` with its key behind every expert of at least that key. -/
def rankInsert (k : Int) (e : Nat) : List (Int × Nat) → List (Int × Nat)
  | [] => [(k, e)]
  | x :: rest => if x.1 < k then (k, e) :: x :: rest else x :: rankInsert k e rest

/-- The candidate list of a token's scores (R157). -/
def candidates (scores : List Nat) : List Nat :=
  let l := (List.range scores.length).foldl (fun l e => rankInsert (scoreKey (getD scores e 0)) e l) []
  (l.map (·.2)).take 16

/-- One settled choice: token, rank, the expert unless it was dropped, and the status byte (R158, R159). -/
structure Choice where
  t : Nat
  r : Nat
  e : Option Nat
  how : Nat
deriving DecidableEq, Repr

/-- cnt[e] of R158. -/
def choiceCount (cs : List Choice) (e : Nat) : Nat := (cs.filter (fun c => c.e == some e)).length

/-- The first pass, rank by rank and token by token: the settled choices and those left pending (R158). -/
def routeFirst (cap : Nat) (next : Bool) (cand : List (List Nat)) (k : Nat) : List Choice × List (Nat × Nat) :=
  let order := (List.range k).flatMap (fun r => (List.range cand.length).map (fun t => (t, r)))
  order.foldl (fun (acc : List Choice × List (Nat × Nat)) tr =>
    let e := getD (getD cand tr.1 []) tr.2 0
    if choiceCount acc.1 e < cap then (acc.1 ++ [{ t := tr.1, r := tr.2, e := some e, how := 1 }], acc.2)
    else if next then (acc.1, acc.2 ++ [tr])
    else (acc.1 ++ [{ t := tr.1, r := tr.2, e := none, how := 3 }], acc.2)) ([], [])

/-- The pending choices, in list order: the first candidate from rank K on that is not the token's already and not full,
else a drop (R158). -/
def routeNext (cap : Nat) (cand : List (List Nat)) (k : Nat) (cs : List Choice) (pend : List (Nat × Nat)) : List Choice :=
  pend.foldl (fun (cs : List Choice) tr =>
    let free (e : Nat) : Bool :=
      !cs.any (fun c => c.t == tr.1 && c.e == some e) && decide (choiceCount cs e < cap)
    match ((getD cand tr.1 []).drop k).find? free with
    | some e => cs ++ [{ t := tr.1, r := tr.2, e := some e, how := 2 }]
    | none => cs ++ [{ t := tr.1, r := tr.2, e := none, how := 3 }]) cs

/-- Every choice of a ROUTE, in assignment order (R158). -/
def routeChoices (cap : Nat) (next : Bool) (cand : List (List Nat)) (k : Nat) : List Choice :=
  let (cs, pend) := routeFirst cap next cand k
  routeNext cap cand k cs pend

/-! ### Outputs (R159, R162, R163) -/

/-- The EXPLIST entries of an expert (R159). -/
def expEntries (cs : List Choice) (e : Nat) : List Nat :=
  (cs.filter (fun c => c.e == some e)).map (fun c => c.t + c.r * 0x10000 + (if c.how = 2 then 0x80000 else 0))

/-- The record of a token (R159). -/
def tokenRecord (cs : List Choice) (scores : List Nat) (t : Nat) : List Byte :=
  let at' (r : Nat) : Option Choice := cs.find? (fun c => c.t == t && c.r == r)
  let ranks := List.range 8
  ranks.flatMap (fun r => leBytes 4 (match (at' r).bind (·.e) with | some e => getD scores e 0 | none => 0)) ++
  ranks.map (fun r => BitVec.ofNat 8 (match (at' r).bind (·.e) with | some e => e | none => 0xFF)) ++
  ranks.map (fun r => BitVec.ofNat 8 (match at' r with | some c => c.how | none => 0)) ++ List.replicate 16 0#8

/-- The gather descriptor of a self expert (R162, R245). -/
def gatherDesc (c : CoreId) (d : List Byte) (e n : Nat) : List Byte :=
  leBytes 8 (0x10000000000 + c.val * 0x1000000 + dpbAct d) ++ leBytes 4 (dpbAstr d) ++ leBytes 2 (dpbRowc d) ++
  [0#8, 0#8] ++ leBytes 4 (dpbExplist d + 4 * e * dpbCap d) ++ leBytes 4 n ++ List.replicate 40 0#8

/-- The 16 bytes of a STATUS record (R156). -/
def statusRecord (status mbtag dropped nexts packets : Nat) : List Byte :=
  leBytes 1 status ++ [0#8] ++ leBytes 2 mbtag ++ leBytes 4 dropped ++ leBytes 4 nexts ++ leBytes 4 packets

/-- KIND of an entry of an expert table (R160). -/
def entryKind (w : W64) : Nat := fld w 0 2

/-- Where the packets of a queue expert go; KIND 3 with the module's own ID stays on the module (R160, R238). -/
def entryDest (s : State) (w : W64) : Option DispDest :=
  (fin? 256 (fld w 2 8)).map (fun q =>
    let dev := fld w 10 15
    if entryKind w = 3 ∧ dev ≠ s.devid then .peer (BitVec.ofNat 15 dev) q else .here q)

/-- The regions a ROUTE writes before its STATUS record, with their bytes (R159, R162). -/
def routeOutputs (c : CoreId) (d : List Byte) (entries : List W64) (scores : List (List Nat)) (cs : List Choice) :
    List (Nat × List Byte) :=
  let es := List.range (dpbE d)
  (List.range (dpbT d)).map (fun t => (dpbTokrec d + 64 * t, tokenRecord cs (getD scores t []) t)) ++
  (es.filter (fun e => choiceCount cs e != 0)).map (fun e =>
    (dpbExplist d + 4 * e * dpbCap d, (expEntries cs e).flatMap (leBytes 4))) ++
  [(dpbExpcnt d, (List.range 256).flatMap (fun e => leBytes 4 (if e < dpbE d then choiceCount cs e else 0)))] ++
  (es.filter (fun e => entryKind (getD entries e 0#64) == 1 && choiceCount cs e != 0)).map (fun e =>
    (dpbGdesc d + 64 * e, gatherDesc c d e (choiceCount cs e)))

/-- The cells of a packet to a queue expert (R163). -/
def expertCells (s : State) (u : DuId) (mbtag : Nat) (d : List Byte) (e : Nat) (list : List Nat) (rows : List Byte) :
    List Cell :=
  let head := leBytes 2 mbtag ++ leBytes 1 e ++ leBytes 1 (if dpbTent d then 1 else 0) ++ leBytes 2 list.length ++
    leBytes 2 (dpbRowc d) ++ leBytes 2 s.devid ++ leBytes 1 u.val
  let idx := list.flatMap (leBytes 4)
  let idx := idx ++ List.replicate (alignUp idx.length 64 - idx.length) 0#8
  let body := idx ++ rows
  let cells := (head ++ List.replicate 53 0#8) :: chunks 64 (body.length / 64) body
  let last := cells.length - 1
  (List.range cells.length).map (fun i =>
    { data := BitVec.ofNat 512 (leNat (getD cells i [])), mbtag := BitVec.ofNat 16 mbtag, eop := i == last,
      tent := dpbTent d, src := BitVec.ofNat 15 s.devid, agent := BitVec.ofNat 7 (duAgent u) })

/-- What sending has done so far: destinations in order of first use, packets sent, and whether an uncorrectable row
stopped it (R156, R165). -/
structure SendAcc where
  dests : List DispDest := []
  packets : Nat := 0
  failed : Bool := false
deriving DecidableEq, Repr

/-- The packet of queue expert `e`: its rows are read, then it leaves towards its queue. An uncorrectable row stops
the sending (R156, R163). -/
def sendExpert (u : DuId) (c : CoreId) (job mbtag : Nat) (d : List Byte) (w : W64) (e : Nat) (list : List Nat)
    (s : State) (acc : SendAcc) : State × SendAcc :=
  match entryDest s w with
  | none => (s, acc)
  | some dest =>
    let (s, rows, bad) := list.foldl (fun (a : State × List Byte × Bool) x =>
      let off := dpbAct d + x % 0x10000 * dpbAstr d
      let len := 64 * dpbRowc d
      let hit := (spMarks a.1 c off len).any (·.2)
      let (s, bs) := spReadAny a.1 c (some job) off len
      (s, a.2.1 ++ bs, a.2.2 || hit)) (s, [], false)
    if bad then (s, { acc with failed := true })
    else
      let s := duPush s u job dest (expertCells s u mbtag d e list rows)
      (s, { acc with dests := if acc.dests.contains dest then acc.dests else acc.dests ++ [dest],
                     packets := acc.packets + 1 })

/-- The packets of a ROUTE, in ascending expert index (R163). -/
def sendExperts (u : DuId) (c : CoreId) (job mbtag : Nat) (d : List Byte) (entries : List W64) (cs : List Choice)
    (s : State) : State × SendAcc :=
  (List.range (dpbE d)).foldl (fun (a : State × SendAcc) e =>
    let w := getD entries e 0#64
    let list := expEntries cs e
    if a.2.failed || decide (entryKind w < 2) || (list.isEmpty && !dpbEmpty d) then a
    else sendExpert u c job mbtag d w e list a.1 a.2) (s, {})

/-! ### Requests (R154, R156) -/

/-- Whether a table is enabled (R161). -/
def tableOn (s : State) (u : DuId) (t : Nat) : Bool := bit (s.rd (duBase u + 0x18)) t
/-- The job that owns a table (R173). -/
def tableJob (s : State) (u : DuId) (t : Nat) : Nat := fld (s.rd (duBase u + 0x10)) (4 * t) 4
/-- An entry of an expert table. -/
def tableEntry (s : State) (u : DuId) (t e : Nat) : W64 := s.rd (duBase u + 0x8000 + 0x800 * t + 8 * e)

/-- SP_GECKO_FAULT of an access at an offset (R233). -/
def geckoFault (s : State) (c : CoreId) (off : Nat) : State :=
  s.raise 0x1014 c 0 (s.jobOf c) (s.rd (coreBase c + 0x4080)).toNat off

/-- A DPB that names a region gecko-resident for another job raises SP_GECKO_FAULT, where the unit gets as far as checking
it (R156, R233). -/
def geckoRegions (s : State) (u : DuId) (c : CoreId) (d : Option (List Byte)) : State :=
  match d with
  | none => s
  | some d =>
    match (if bit (s.rd (duBase u)) 0 then dpbRegions d else []).find? (fun r => spGecko s c (s.jobOf c) r.1 r.2) with
    | some r => geckoFault s c r.1
    | none => s

/-- The DPB with the score tile at the offset that SA holds: SA and SCORE both name that tile (R43, R155). Where they
differ the spec does not say which the unit reads, and `Config.scoreBySa` leaves it free (DESIGN CHOICE, log entry 76). -/
def dpbWithTile (d : List Byte) (sa : Nat) : List Byte :=
  if sa ≠ dpbScore d ∧ Config.scoreBySa sa (dpbScore d) then d.take 8 ++ leBytes 4 (min sa 0xFFFFFFC0) ++ d.drop 12 else d

/-- The DPB of a ROUTE: its bytes where they could be read, and whether an uncorrectable error kept them from it
(R156). -/
def readDpb (s : State) (c : CoreId) (off : Nat) : State × Option (List Byte) × Bool :=
  if off % 64 ≠ 0 ∨ spSize < off + 64 then (s, none, false)
  else if spGecko s c (s.jobOf c) off 64 then (geckoFault s c off, none, false)
  else
    let bad := (spMarks s c off 64).any (·.2)
    let (s, d) := spReadAny s c (s.jobOf c) off 64
    if bad then (s, none, true) else (s, some d, false)

/-- The status of a ROUTE's checks in the order of R156, before the scores are read; none where all pass. `d` is the
DPB, `uncorr` an uncorrectable error in it. -/
def routeCheck (s : State) (u : DuId) (c : CoreId) (table : Nat) (mbtag : BitVec 16) (d : Option (List Byte))
    (uncorr : Bool) : Option Nat :=
  let job := s.jobOf c
  let k := s.dus[u]
  let gecko (d : List Byte) : Bool := (dpbRegions d).any (fun r => spGecko s c job r.1 r.2)
  let ents (d : List Byte) : List W64 := (List.range (dpbE d)).map (tableEntry s u table)
  if !bit (s.rd (duBase u)) 0 then some 0x18
  else if (d.isNone && !uncorr) || d.any (fun d => !dpbFieldsOk d || gecko d) then some 0x10
  else if !tableOn s u table then some 0x11
  else if job ≠ some (tableJob s u table) then some 0x12
  else if d.any (fun d => (ents d).any (fun w => entryKind w == 0 || (dpbRowc d == 0 && decide (2 ≤ entryKind w)))) then
    some 0x13
  else if k.entries.any (fun e => e.table == table && e.mbtag == mbtag) then some 0x15
  else if d.any (fun d => dpbTent d && decide (4 ≤ (k.entries.filter (fun e => e.core == c)).length)) then some 0x14
  else if uncorr then some 0x17
  else none

/-- The score rows of a tile, and whether one met an uncorrectable error (R155, R156). -/
def readScores (s : State) (c : CoreId) (d : List Byte) : State × List (List Nat) × Bool :=
  (List.range (dpbT d)).foldl (fun (a : State × List (List Nat) × Bool) t =>
    let off := dpbScore d + t * dpbSstr d
    let bad := (spMarks a.1 c off (4 * dpbE d)).any (·.2)
    let (s, bs) := spReadAny a.1 c (s.jobOf c) off (4 * dpbE d)
    (s, a.2.1 ++ [(chunks 4 (dpbE d) bs).map leNat], a.2.2 || bad)) (s, [], false)

/-- A ROUTE that fails a check writes only its STATUS record, where it may (R156). -/
def routeFail (s : State) (req : DispReq) (d : Option (List Byte)) (status : Nat) : DispRun :=
  let mb := dispMbtag req.word
  let rec_ := statusRecord status mb 0 0 0
  let at' := match d with
    | some d => if dpbStatusOk s req.core d then some (dpbStatus d) else none
    | none => none
  { req := req, job := s.jobOf req.core, table := dispTable req.word, mbtag := BitVec.ofNat 16 mb,
    status := BitVec.ofNat 8 status, statusAt := at', record := rec_ }

/-- The work of a ROUTE whose checks pass: ranking, assignment, outputs, packets, and the tentative entry it opens
(R157 to R165). -/
def routeWork (s : State) (u : DuId) (req : DispReq) (d : List Byte) (scores : List (List Nat)) : State :=
  let c := req.core
  let job := (s.jobOf c).getD 0
  let mb := dispMbtag req.word
  let t := dispTable req.word
  let entries := (List.range (dpbE d)).map (tableEntry s u t)
  let cs := routeChoices (dpbCap d) (dpbNext d) (scores.map candidates) (dpbK d)
  let (s, acc) := sendExperts u c job mb d entries cs s
  let s := duFlush s u
  let dropped := (cs.filter (fun x => x.how == 3)).length
  let nexts := (cs.filter (fun x => x.how == 2)).length
  let nan := scores.any (fun l => l.any scoreNan)
  let status := if acc.failed then 0x17 else if nan then 1 else 0
  let hits : BitVec 256 := cs.foldl (fun h x => match x.e with | some e => setBit h e | none => h) 0#256
  let run : DispRun :=
    { req := req, job := some job, table := t, mbtag := BitVec.ofNat 16 mb, status := BitVec.ofNat 8 status,
      out := routeOutputs c d entries scores cs, statusAt := some (dpbStatus d),
      record := statusRecord status mb dropped nexts acc.packets, hits := hits, dropped := dropped, nexts := nexts,
      packets := acc.packets, nan := nan, tent := dpbTent d, dests := acc.dests }
  s.setDu u { s.dus[u] with run := some run }

/-- The entry of a core for a table and micro-batch (R165). -/
def findEntry (k : Dispatch) (c : CoreId) (t : Nat) (mb : BitVec 16) : Option Tentative :=
  k.entries.find? (fun e => e.core == c && e.table == t && e.mbtag == mb)

/-- A COMMIT or CANCEL starts: the entry is closed and its markers leave (R167). -/
def resolveStart (s : State) (u : DuId) (req : DispReq) (commit : Bool) : State :=
  let w := req.word
  let mb := BitVec.ofNat 16 (dispMbtag w)
  let k := s.dus[u]
  match findEntry k req.core (dispTable w) mb with
  | none => s.setDu u { k with run := some (routeFail s req none 0x16) }
  | some e =>
    let run : DispRun := { req := req, job := s.jobOf req.core, table := e.table, mbtag := mb, status := 0#8,
                           record := statusRecord 0 mb.toNat 0 0 0, hits := if commit then e.hits else 0#256 }
    let s := s.setDu u { k with run := some run, entries := k.entries.erase e }
    sendMarkers s u ((s.jobOf req.core).getD 0) mb (if commit then 1 else 2) e.dests

/-- Whether a unit still holds cells of a request's job. -/
def outsLeft (k : Dispatch) (r : DispRun) : Bool := k.outs.any (fun o => o.job == r.job.getD 0)

/-- Whether the cells for one destination cannot leave now: a peer that cannot be reached or has stopped its queue, or a queue of the
module that refuses the next cell (R205, R217, R287). -/
def outBlocked (s : State) (o : DispOut) : Bool :=
  match o.dest with
  | .peer .. => true
  | .here q =>
    match o.cells with
    | [] => false
    | c :: _ => stopped s s.devid q.val || (qOffer s q (some o.job) c).2 == .refused

/-- What cannot leave for a job stalls no other one: the request whose remaining cells are all blocked makes room for the requests of
other jobs, and takes effect once its cells have left (R433, R434). DEDUCED, log entry 30: R154's one request at a time is the one that
is being routed. -/
def setAside (s : State) (u : DuId) : State :=
  let t := duFlush s u
  let k := t.dus[u]
  match k.run with
  | none => s
  | some r =>
    let mine := k.outs.filter (fun o => o.job == r.job.getD 0)
    if mine.isEmpty || !mine.all (outBlocked t) then s
    else t.setDu u { k with run := none, stuck := k.stuck ++ [r] }

/-- A unit's waiting requests without those of a job whose request is set aside. -/
def freeReqs (s : State) (k : Dispatch) : Dispatch :=
  { k with waiting := k.waiting.filter (fun r => !k.stuck.any (fun x => x.job == s.jobOf r.core)) }

/-- The waiting request a unit takes next: the first core after the one served last (R154). -/
def nextReq (k : Dispatch) : Option DispReq :=
  ((List.range 24).map (fun i => (k.rr + 1 + i) % 24)).findSome? (fun c =>
    k.waiting.find? (fun r => r.core.val % 24 == c))

/-- A dispatch unit that runs none starts its next request. Overlapping regions of a ROUTE end the run: the spec calls the outcome
undefined (R155). -/
def requestStart (s : State) (u : DuId) : Out :=
  let k := s.dus[u]
  if k.run.isSome ∨ !s.domainOn (48 + u.val) then .next s
  else
    match nextReq (freeReqs s k) with
    | none => .next s
    | some req =>
      let s := s.setDu u { k with waiting := k.waiting.erase req, rr := req.core.val % 24 }
      let w := req.word
      match fOp w with
      | 0 =>
        let (s, d, uncorr) := readDpb s req.core (snapGet req.s (dispSp w)).toNat
        let d := d.map (fun d => dpbWithTile d (snapGet req.s (dispSa w)).toNat)
        let s := geckoRegions s u req.core d
        match routeCheck s u req.core (dispTable w) (BitVec.ofNat 16 (dispMbtag w)) d uncorr, d with
        | some st, d => .next (s.setDu u { s.dus[u] with run := some (routeFail s req d st) })
        | none, none => .next s
        | none, some d =>
          if dpbOverlaps (dpbRegions d) then .fault .dpbOverlap
          else
            let (s, scores, bad) := readScores s req.core d
            if bad then .next (s.setDu u { s.dus[u] with run := some (routeFail s req (some d) 0x17) })
            else .next (routeWork s u req d scores)
      | 1 => .next (resolveStart s u req true)
      | 2 => .next (resolveStart s u req false)
      | _ => .next (s.setDu u { s.dus[u] with run := some (routeFail s req none 0) })

/-- A dispatch unit starts its next request, past one whose cells cannot leave (R154, R433). -/
def dispatchStart (s : State) (u : DuId) : Out :=
  requestStart (if s.domainOn (48 + u.val) then setAside s u else s) u

/-- The event of a status (R156, R174). -/
def statusEv (st : Nat) : Option Nat :=
  match st with
  | 0x10 => some 0x3100 | 0x18 => some 0x3100
  | 0x11 => some 0x3101 | 0x12 => some 0x3101 | 0x13 => some 0x3101
  | 0x14 => some 0x3102 | 0x15 => some 0x3102 | 0x16 => some 0x3102
  | 0x01 => some 0x3103
  | 0x17 => some 0x3105
  | _ => none

/-- The hit mask of a table takes more experts (R170). -/
def orHits (s : State) (u : DuId) (t : Nat) (h : BitVec 256) : State :=
  (List.range 4).foldl (fun s w => s.orReg (duBase u + 0x100 + 0x20 * t + 8 * w) (BitVec.ofNat 64 (fld h (64 * w) 64))) s

/-- DISP STAT's word for a core (R172). -/
def dispStatWord (k : Dispatch) (c : CoreId) : W64 :=
  let l := match fin? 24 (c.val % 24) with
    | some i => k.last[i]
    | none => {}
  BitVec.ofNat 64 (l.status.toNat + l.op.toNat * 2 ^ 8 + l.mbtag.toNat * 2 ^ 16 +
    (k.entries.filter (fun e => e.core == c)).length * 2 ^ 32)

/-- The tentative entry of a ROUTE that takes effect is opened, or cancelled at once where a cancel waited for it
(R165, R167). -/
def openEntry (s : State) (u : DuId) (r : DispRun) : State :=
  let k := s.dus[u]
  let e : Tentative := { core := r.req.core, table := r.table, mbtag := r.mbtag, dests := r.dests, hits := r.hits }
  let s := s.setDu u { k with entries := k.entries ++ [e] }
  if r.cancel then forceCancel s u (r.job.getD 0) r.req.core.val (fun x => x == e) else s

/-- A ROUTE has run past its checks. -/
def ranRoute (r : DispRun) : Bool := !r.out.isEmpty

/-- What a request counts and records when it takes effect (R156, R170, R173). -/
def countRun (s : State) (u : DuId) (r : DispRun) : State :=
  let b := duBase u
  let s := if fOp r.req.word = 0 then
      (((s.count (b + 0x30) 32 1).count (b + 0x38) 32 r.dropped).count (b + 0x40) 32 r.nexts).count (b + 0x48) 32 r.packets
    else s
  let s := if fOp r.req.word = 2 ∧ r.status = 0#8 then s.count (b + 0x50) 32 1 else s
  let s := if r.tent then s else orHits s u r.table r.hits
  if fOp r.req.word = 3 then s
  else
    match fin? 24 (r.req.core.val % 24) with
    | none => s
    | some i =>
      let k := s.dus[u]
      s.setDu u { k with last := k.last.set i { status := r.status, op := BitVec.ofNat 8 (fOp r.req.word),
                                                mbtag := r.mbtag } }

/-- The events of a request that takes effect (R156, R174). -/
def runEvents (s : State) (u : DuId) (r : DispRun) : State :=
  let arg0 := leNat (r.record.take 8)
  let ev (s : State) (code : Nat) : State := s.raise (code + 8 * u.val) u.val 0 r.job arg0 r.req.core.val
  let s := if r.nan ∧ r.status ≠ 1#8 then ev s 0x3103 else s
  let s := if r.dropped ≠ 0 then ev s 0x3104 else s
  match statusEv r.status.toNat with
  | some code => ev s code
  | none => s

/-- The request of a unit that takes effect next: the oldest whose packets have all left. -/
def effectRun (k : Dispatch) : Option DispRun := (k.stuck ++ k.run.toList).find? (fun r => !outsLeft k r)

/-- A request leaves its unit, and a table that it has kept enabled is disabled (R161). -/
def runGone (s : State) (u : DuId) (r : DispRun) : State :=
  let k := s.dus[u]
  let off := ranRoute r && bit k.disabling r.table
  let k := if k.run = some r then { k with run := none } else { k with stuck := k.stuck.erase r }
  let s := s.setDu u (if off then { k with disabling := clrBit k.disabling r.table } else k)
  if off then s.wr (duBase u + 0x18) (clrBit (s.rd (duBase u + 0x18)) r.table) else s

/-- A dispatch unit's request takes effect, once every packet has left it (R154). -/
def dispatchEffect (s : State) (u : DuId) : State :=
  let s := duFlush s u
  match effectRun s.dus[u] with
  | none => s
  | some r =>
    if !s.domainOn (48 + u.val) then s
    else
      let c := r.req.core
      let s := r.out.foldl (fun s o => spWriteAny s c r.job o.1 o.2) s
      let s := match r.statusAt with
        | some a => spWriteAny s c r.job a r.record
        | none => s
      let s := if fOp r.req.word = 3 then s.setCore c ((s.core c).sset (dispSd r.req.word) (dispStatWord s.dus[u] c)) else s
      let s := countRun s u r
      let s := runGone s u r
      let s := if r.tent ∧ ranRoute r then openEntry s u r else s
      let s := runEvents s u r
      let s := s.setUnit c { s.unit c with fab := none }
      wake s c

/-! ### Register commands (R161, R167, R171, R173) -/

/-- DU_TABLE_WRITE_IGNORED (R161). -/
def tableIgnored (s : State) (u : DuId) : State := s.raise (0x3106 + 8 * u.val) u.val 0 none 0 0

/-- DU_CANCEL (R167). -/
def duCancel (s : State) (u : DuId) (v : W64) : State :=
  if !bit v 4 then s
  else
    let j := fld v 0 4
    let of (c : CoreId) : Bool := s.jobOf c == some j
    let s := cancelRun s u (fun r => r.job == some j)
    (allFin 48).foldl (fun s c =>
      if of c ∧ duOf c = u then forceCancel s u j c.val (fun e => e.core == c) else s) s

/-- DU_STATCLR (R171). -/
def duStatclr (s : State) (u : DuId) (v : W64) : State :=
  (List.range 16).foldl (fun s t =>
    if bit v t then (List.range 4).foldl (fun s w => s.wr (duBase u + 0x100 + 0x20 * t + 8 * w) 0#64) s else s) s

/-- DU_TBL_OWNER: fields of enabled tables keep their value; one that would change raises DU_TABLE_WRITE_IGNORED
(R173). -/
def duOwner (s : State) (u : DuId) (v : W64) : State :=
  let old := s.rd (duBase u + 0x10)
  let on := (List.range 16).filter (tableOn s u)
  let clash := on.any (fun t => fld v (4 * t) 4 != fld old (4 * t) 4)
  let new := on.foldl (fun (x : W64) t => setFld x (4 * t) 4 (fld old (4 * t) 4)) v
  let s := s.wr (duBase u + 0x10) new
  if clash then tableIgnored s u else s

/-- DU_TBL_EN: a bit cleared while a ROUTE uses its table keeps reading 1 until that ROUTE takes effect (R161). -/
def duTblEn (s : State) (u : DuId) (v : W64) : State :=
  let k := s.dus[u]
  let v := BitVec.ofNat 64 (fld v 0 16)
  let used := (k.run.toList ++ k.stuck).filter (fun r => fOp r.req.word == 0 && ranRoute r && tableOn s u r.table)
  let d := used.foldl (fun (d : BitVec 16) r => putBit d r.table (!bit v r.table)) k.disabling
  (s.setDu u { k with disabling := d }).wr (duBase u + 0x18) (used.foldl (fun (v : W64) r => setBit v r.table) v)

/-- DT_ENTRY: ignored with DU_TABLE_WRITE_IGNORED while the table is enabled (R161, R173). -/
def dtEntryWrite (s : State) (u : DuId) (t e : Nat) (v : W64) : State :=
  if tableOn s u t then tableIgnored s u
  else s.wr (duBase u + 0x8000 + 0x800 * t + 8 * e) (v &&& ones 25)

/-! ### The commands -/

/-- Issue of a DISP; where the fabric queue is empty and `now` holds, it reaches the dispatch unit in the same
command. -/
def dispIssue (c : CoreId) (now : Bool) (us : List Upset) (o : Op) (s : State) : State :=
  let idle := now && unitIdle (s.unit c) .fab
  let s := issueTo s c us o .fab
  if idle then fabStart s c else s

/-- DISP ROUTE (R43, R155). -/
def execDispRoute (c : CoreId) (now : Bool) (us : List Upset) (s : State) : Out := .next (dispIssue c now us .dispRoute s)
/-- DISP COMMIT (R43, R167). -/
def execDispCommit (c : CoreId) (now : Bool) (us : List Upset) (s : State) : Out := .next (dispIssue c now us .dispCommit s)
/-- DISP CANCEL (R43, R167). -/
def execDispCancel (c : CoreId) (now : Bool) (us : List Upset) (s : State) : Out := .next (dispIssue c now us .dispCancel s)
/-- DISP STAT (R43, R172). -/
def execDispStat (c : CoreId) (now : Bool) (us : List Upset) (s : State) : Out := .next (dispIssue c now us .dispStat s)

/-- DISPATCH_REQUEST_START (R154, R156). -/
def execDispatchRequestStart (u : DuId) (us : List Upset) (s : State) : Out := dispatchStart (strike s us) u

/-- DISPATCH_REQUEST_EFFECT (R154). -/
def execDispatchRequestEffect (u : DuId) (us : List Upset) (s : State) : Out := .next (dispatchEffect (strike s us) u)

/-- DU_CANCEL (R167). -/
def execDuCancel (u : DuId) (v : W64) (s : State) : Out := .next (s.ifOn (48 + u.val) (duCancel s u v))
/-- DU_STATCLR (R171). -/
def execDuStatclr (u : DuId) (v : W64) (s : State) : Out := .next (s.ifOn (48 + u.val) (duStatclr s u v))
/-- DU_TBL_OWNER_WRITE (R173). -/
def execDuTblOwnerWrite (u : DuId) (v : W64) (s : State) : Out := .next (s.ifOn (48 + u.val) (duOwner s u v))
/-- DU_TBL_EN_WRITE (R161). -/
def execDuTblEnWrite (u : DuId) (v : W64) (s : State) : Out := .next (s.ifOn (48 + u.val) (duTblEn s u v))
/-- DT_ENTRY_WRITE (R161). -/
def execDtEntryWrite (u : DuId) (t : Fin 16) (e : QId) (v : W64) (s : State) : Out :=
  .next (s.ifOn (48 + u.val) (dtEntryWrite s u t.val e.val v))

end Sys2Proof.Machine
end

