-- ==== Sys2Proof/Machine/CoreSave.lean ====
section
/-!
DEFINITION. Starting, stopping, saving and restoring a core (R55, R56, R60, R258, R361, R362, R364), and the hand-over
of a preempted core.
-/

namespace Sys2Proof.Machine

/-! ### The bivouac (R258, R362) -/

/-- The slot of a core in a job's bivouac: its rank in the allowed mask (R362). -/
def bivSlot (s : State) (j c : Nat) : Nat :=
  ((List.range c).filter (fun i => bit (s.rd (jpBase j + 8)) i)).length
/-- BIV_SLOTS of a job. -/
def bivSlots (s : State) (j : Nat) : Nat := fld (s.rd (memBase + 0x908 + 0x10 * j)) 0 6
/-- The address of a slot. -/
def bivAddr (s : State) (j k : Nat) : Nat := (s.rd (memBase + 0x900 + 0x10 * j)).toNat + k * 16908288

/-- 8 bytes of a held signal in the image. -/
def heldBytes (h : HeldSig) : List Byte := leBytes 2 h.value ++ leBytes 1 h.sem ++ leBytes 1 h.target ++ leBytes 4 h.pc
/-- A held signal from its 8 bytes. -/
def heldOf (b : List Byte) : HeldSig :=
  { value := leAt b 0 2, sem := leAt b 2 1, target := leAt b 3 1, pc := leAt b 4 4 }

/-- Bytes padded with zeros to a length. -/
def padTo (n : Nat) (bs : List Byte) : List Byte := bs ++ List.replicate (n - bs.length) 0#8

/-- The entries of the five unit queues. -/
def unitQueues (u : Units) : List (List Entry) := u.q.toList

/-- The fixed state of a core, 128 KiB (R55, R56, R258): `mask` and `status` go into its header. -/
def fixedImage (s : State) (c : CoreId) (mask : W64) (status : BitVec 16) : List Byte :=
  let k := s.core c
  let u := s.unit c
  let l := s.loc c
  let vregs := k.vreg.toList.flatMap (fun v => leBytes 1024 v.toNat)
  let cbs := k.cbs.toList.flatMap (fun b => padTo 576 (recordOf b))
  let sregs := (List.range 32).flatMap (fun i => leBytes 8 (k.sget i).toNat)
  let ctl := leBytes 8 k.pc ++ leBytes 8 k.preg.toNat ++ k.loops.toList.flatMap (fun v => leBytes 8 v.count.toNat) ++
    padTo 128 (k.calls.flatMap (leBytes 8))
  let sems := l.sems.toList.flatMap (fun v => leBytes 2 v.toNat)
  let held := padTo 128 (u.held.flatMap heldBytes)
  let ents := (unitQueues u).flatMap (fun q => padTo 256 (q.flatMap (fun e => leBytes 16 e.word.toNat)))
  let head := leBytes 8 mask.toNat ++ leBytes 2 status.toNat ++ (unitQueues u).flatMap (fun q => leBytes 1 q.length)
  padTo 0x20000 (vregs ++ cbs ++ sregs ++ padTo 256 ctl ++ sems ++ held ++ leBytes 512 l.guards.toNat ++ ents ++ head)

/-- The regions of a mask that are not gecko-resident (R55, R56, R233). -/
def saveRegions (s : State) (c : CoreId) (mask : W64) : List Nat :=
  (List.range 64).filter (fun r => bit mask r && !bit (s.rd (coreBase c + 0x4018)) r)

/-- What a save read of a region is written to the bivouac. -/
def regionOut (job : Option Nat) (a n : Nat) (x : State × List Byte) : State := (gddrOwn x.1 job a n (some x.2)).1

/-- The save engine reads a region and writes it to the bivouac; it bypasses the windows (R231, R259). -/
def saveRegion (c : CoreId) (job : Option Nat) (base : Nat) (s : State) (r : Nat) : State :=
  regionOut job (base + 0x20000 + r * 0x40000) 0x40000 (spReadAny s c job (r * 0x40000) 0x40000)

/-- The image of a core is written to slot `k` of its job's bivouac (R55, R56, R258). -/
def saveImage (s : State) (c : CoreId) (j k : Nat) (mask : W64) (status : BitVec 16) : State :=
  let base := bivAddr s j k
  let rec_ : Saved :=
    { job := j, slot := k, status := status, loops := (s.core c).loops.toList.map (fun l => (l.first, l.last)),
      depth := (s.core c).calls.length, queues := unitQueues (s.unit c), heldPcs := (s.unit c).held.map (·.pc),
      lastMu0 := (s.core c).lastMu0 }
  let s := (gddrOwn s (some j) base 0x20000 (some (fixedImage s c mask status))).1
  let s := (saveRegions s c mask).foldl (saveRegion c (some j) base) s
  { s with jobs := { s.jobs with saved := tset s.jobs.saved (c.val * 16 + j) rec_ } }

/-- `len` bytes of a scratchpad at `a` are zeroed, with valid check bits. -/
def clearSpan (s : State) (c : CoreId) (a len : Nat) : State :=
  let l := s.loc c
  dirtySp (s.setLoc c { l with sp := l.sp.zero a len
                               spErr := l.spErr.filter (fun e => e.1 < a || a + len ≤ e.1) }) c a len

/-- A core's regions that are not gecko-resident are zeroed (R234, R364); what lies in a bank that is not ON is dropped, each
such request raising SP_BANK_OFF (R236). -/
def clearRegions (s : State) (c : CoreId) (regions : List Nat) : State :=
  regions.foldl (fun s r =>
    let a := r * 0x40000
    match spBankOff s c a 0x40000 with
    | none => clearSpan s c a 0x40000
    | some _ =>
      (onParts s c a 0x40000).foldl (fun s p => clearSpan s c p.1 p.2) (spSomeOff s c (s.jobOf c) a 0x40000)) s

/-- A saved victim is handed to the arriving job (R364). -/
def handOver (s : State) (c : CoreId) (v : Victim) : State :=
  let s := clearRegions s c (saveRegions s c all64)
  let s := s.setLoc c { s.loc c with guards := 0#4096 }
  let s := match s.jobOf c with
    | none => s
    | some j =>
      let b := jpBase j
      let s := s.wr (b + 0x10) (clrBit (s.rd (b + 0x10)) c)
      let s := s.orReg (b + 0x18) (BitVec.ofNat 64 (2 ^ c.val))
      s.count (b + 0x40) 32 1
  let s := s.orReg (jpBase v.job + 0x10) (BitVec.ofNat 64 (2 ^ c.val))
  let s := s.wr (coreBase c + 0x30) (BitVec.ofNat 64 (0x100 + v.job))
  preemptCheck s v.id

/-- Whether the controllers let a save or a restore of a slot begin (R250). -/
def bivReady (s : State) (base : Nat) : Bool := gddrServe s base 16908288 != .wait

/-- A save completes: the image is written, the core halts with status 0xF009 or 0xF00A, and a preemption victim is
handed over (R55, R56, R364). A core whose job has no slot for it saves no image. -/
def saveComplete (s : State) (c : CoreId) : State :=
  match (s.core c).run with
  | .saving d =>
    let status := drainStatus d
    let mask := match d with
      | .yield _ m => m
      | _ => all64
    let slot := match s.jobOf c with
      | none => none
      | some j => if bivSlot s j c < bivSlots s j then some (j, bivSlot s j c) else none
    if slot.any (fun x => !bivReady s (bivAddr s x.1 x.2)) then s
    else
      let s := match slot with
        | none => s
        | some (j, k) => saveImage s c j k mask status
      let s := s.setUnit c { s.unit c with q := Vector.replicate 5 [], held := [], told := 0#6 }
      let s := match d with
        | .yield pc m =>
          ((s.wr (coreBase c + 0x58) (BitVec.ofNat 64 pc)).wr (coreBase c + 0x60) m).coreEv c 0x100A pc 0
        | _ => s.coreEv c 0x100B (s.core c).pc 0
      let vs := s.jobs.victims.filter (fun v => v.core == c)
      let s := { s with jobs := { s.jobs with victims := s.jobs.victims.filter (fun v => v.core != c) } }
      let s := enterHalted s c status
      match vs with
      | [] => s
      | v :: rest => rest.foldl (fun s v => preemptCheck s v.id) (handOver s c v)
  | _ => s

/-! ### Restoring (R55, R56, R361) -/

/-- The image a core can resume from: that of its job. -/
def savedOf (s : State) (c : CoreId) : Option Saved :=
  match s.jobOf c with
  | none => none
  | some j => tget s.jobs.saved (c.val * 16 + j)

/-- The unit queues as saved: words from the image, captured registers and indices from the record. -/
def restoreQueue (img : List Byte) (n i : Nat) (old : List Entry) : List Entry :=
  (List.range n).map (fun k =>
    let w : W128 := BitVec.ofNat 128 (leAt img (0x12900 + 256 * i + 16 * k) 16)
    match old[k]? with
    | some e => { e with word := w }
    | none => { pc := 0, word := w, s := [] })

/-- The S register that a queued VRED or VMOVS has still to write (R47). -/
def lateSd (e : Entry) : Option Nat :=
  match decodeOp e.pc e.word with
  | some .vred => some (vSd e.word)
  | some .vmovs => some (vSd e.word)
  | _ => none

/-- The fixed state comes back from its image (R55, R258), and with the queues the writes of S registers that are
outstanding in them (R47, R56). -/
def restoreFixed (s : State) (c : CoreId) (sv : Saved) (img : List Byte) : State :=
  let k := s.core c
  let u := s.unit c
  let l := s.loc c
  let at8 (o i : Nat) : Nat := leAt img (o + 8 * i) 8
  let k := { k with
    vreg := Vector.ofFn (fun i => vregOf ((img.drop (1024 * i.val)).take 1024))
    cbs := Vector.ofFn (fun i => slotOfSaved ((img.drop (0x10000 + 576 * i.val)).take 576))
    sreg := Vector.ofFn (fun i => BitVec.ofNat 64 (at8 0x12400 i.val))
    pc := at8 0x12500 0
    preg := setBit (BitVec.ofNat 8 (leAt img 0x12508 1)) 0
    loops := Vector.ofFn (fun i =>
      let b := getD sv.loops i.val (0, 0)
      { count := BitVec.ofNat 64 (at8 0x12510 i.val), first := b.1, last := b.2 })
    calls := (List.range sv.depth).map (at8 0x12530)
    lastMu0 := sv.lastMu0 }
  let held := (List.range sv.heldPcs.length).map (fun i => heldOf ((img.drop (0x12680 + 8 * i)).take 8))
  let cnt (i : Nat) : Nat := leAt img (0x12E0A + i) 1
  let u := { u with
    held := held
    q := Vector.ofFn (fun i => restoreQueue img (min 16 (cnt i.val)) i.val (getD sv.queues i.val [])) }
  let l := { l with
    sems := Vector.ofFn (fun i => BitVec.ofNat 16 (leAt img (0x12600 + 2 * i.val) 2))
    guards := BitVec.ofNat 4096 (leAt img 0x12700 512) }
  let k := { k with pendSd := ((u.q[2]).filterMap lateSd).filter (· != 0) }
  ((s.setCore c k).setUnit c u).setLoc c l

/-- What a restore read of the bivouac is written to the scratchpad. -/
def regionIn (c : CoreId) (job : Option Nat) (off : Nat) (x : State × AccEnd) : State :=
  match x with
  | (s, .ok bs) => spWriteAny s c job off bs
  | (s, _) => s

/-- A region comes back from the bivouac. -/
def restoreRegion (c : CoreId) (job : Option Nat) (base : Nat) (s : State) (r : Nat) : State :=
  regionIn c job (r * 0x40000) (gddrOwn s job (base + 0x20000 + r * 0x40000) 0x40000 none)

/-- The fixed image of a restore, as it is read: bytes with an uncorrectable error as they stand, and bytes that no one can say where
the memory does not answer, log entry 24; the step fails (R250, R251, R379). -/
def restoreRead (s : State) (job : Option Nat) (base n : Nat) : State × List Byte :=
  match gddrOwn s job base n none with
  | (s, .ok bs) => (s, bs)
  | (s, _) =>
    if gddrTop s < base + n ∨ gddrReady s base n = .fail then
      let (k, s) := s.fresh
      (s, (List.range n).map (Config.lostByte k))
    else (s, gddrPeek s base n)

/-- What a restore does with the fixed part of its image: the state it holds comes back, then the regions of the saved map, and issue
resumes from the saved PC; held signals are sent again (R55, R258, R361). -/
def restoreRest (s : State) (c : CoreId) (sv : Saved) (base : Nat) (step : Bool) (img : List Byte) : State :=
  let s := restoreFixed s c sv img
  let s := (saveRegions s c (BitVec.ofNat 64 (leAt img 0x12E00 8))).foldl (restoreRegion c (some sv.job) base) s
  let s := { s with jobs := { s.jobs with saved := tdel s.jobs.saved (c.val * 16 + sv.job) } }
  let s := s.setCore c { s.core c with run := .running, stepping := step, blocked := none }
  let s := retryHeld c 16 s
  if (s.core c).stopReq then startDrain s c .stop else s

/-- A restore from an image whose fixed part is `n` bytes long. -/
def restoreFrom (n : Nat) (s : State) (c : CoreId) : State :=
  match (s.core c).run, savedOf s c with
  | .restoring step, some sv =>
    let base := bivAddr s sv.job sv.slot
    if !bivReady s base then s
    else
      let back := restoreRead s (some sv.job) base n
      restoreRest back.1 c sv base step back.2
  | _, _ => s

/-- A restore completes (R55, R361). -/
def restoreComplete (s : State) (c : CoreId) : State := restoreFrom 0x20000 s c

/-! ### BLK_CTRL (R60) -/

/-- START or STEP on a HALTED core: a core with a saved image of its job restores it first (R361).
A beat begins (R387). -/
def coreGo (s : State) (c : CoreId) (step : Bool) : State :=
  let k := s.core c
  if k.run ≠ .halted ∨ !s.domainOn c.val then s
  else
    let saved := (k.status = 0xF009#16 ∨ k.status = 0xF00A#16) ∧ (savedOf s c).isSome
    beginBeat (s.setCore c (if saved then { k with run := .restoring step, stopReq := false }
      else { k with run := .running, stepping := step, stopReq := false, blocked := none })) c

/-- STOP on a core that is not HALTED: it drains as for HALT, then halts with status 0xF007 (R60). DEDUCED, log entry 16:
an instruction that blocks issue is given up and stands at CORE_PC, as in R56; a drain or a save under way turns into that
drain; a restore comes to its end first. -/
def coreStop (s : State) (c : CoreId) : State :=
  let k := s.core c
  match k.run with
  | .halted => s
  | .restoring _ => s.setCore c { k with stopReq := true }
  | _ =>
    let s := s.setUnit c { s.unit c with told := clrBit (s.unit c).told 5 }
    startDrain (s.setCore c { k with blocked := none }) c .stop

/-- YIELD_REQ takes a value (R55, R60). -/
def yieldReq (s : State) (c : CoreId) (on : Bool) : State := s.wr (coreBase c + 8) (putBit (s.rd (coreBase c + 8)) 3 on)

/-- A write of BLK_CTRL: YIELD_REQ is stored, then START, STOP and STEP act by the state at the write (R60).
DESIGN CHOICE, log entry 16: of START and STEP written together START acts. -/
def coreCtlWrite (s : State) (c : CoreId) (v : W64) : State :=
  let halted := (s.core c).run = .halted
  let s := yieldReq s c (bit v 3)
  if halted then
    if bit v 0 then coreGo s c false else if bit v 2 then coreGo s c true else s
  else if bit v 1 then coreStop s c
  else s

/-- CORE_START (R60, R361). -/
def execCoreStart (c : CoreId) (s : State) : Out := .next (s.ifOn c.val (coreGo s c false))
/-- CORE_STOP (R60). -/
def execCoreStop (c : CoreId) (s : State) : Out := .next (s.ifOn c.val (coreStop s c))
/-- CORE_STEP (R60). -/
def execCoreStep (c : CoreId) (s : State) : Out := .next (s.ifOn c.val (coreGo s c true))
/-- YIELD_REQ (R55). -/
def execYieldReq (c : CoreId) (s : State) : Out := .next (s.ifOn c.val (yieldReq s c true))
/-- CORE_SAVE_COMPLETE (R55, R56, R364). -/
def execCoreSaveComplete (c : CoreId) (us : List Upset) (s : State) : Out := .next (s.live (saveComplete (strike s us) c))
/-- CORE_RESTORE_COMPLETE (R361). -/
def execCoreRestoreComplete (c : CoreId) (us : List Upset) (s : State) : Out := .next (s.live (restoreComplete (strike s us) c))

end Sys2Proof.Machine
end

