-- ==== Sys2Proof/Machine/CoreCmds.lean ====
section
/-!
DEFINITION. The commands of a core that are left: the VOP instructions (R40), PASS (R65), the starts and completions of
the units (R48, R49, R68), instruction memory (R31, R59), and the register commands of the scratchpad, the matrix units
and the counter sets (R88, R118, R226, R234 to R236).
-/

namespace Sys2Proof.Machine

/-- Issue of a VOP: it enters the VE queue, and VRED and VMOVS have their write of SD outstanding (R46, R47). Where the
queue is empty and `now` holds, it starts and completes in the same command. -/
def veIssue (c : CoreId) (now : Bool) (us : List Upset) (o : Op) (s : State) : State :=
  let idle := now && unitIdle (s.unit c) .ve
  let s := issue s c us o (fun s w =>
    let s := enqueue s c w .ve none
    let late := (o = .vred ∨ o = .vmovs) ∧ vSd w ≠ 0
    let s := if late then s.setCore c { s.core c with pendSd := (s.core c).pendSd ++ [vSd w] } else s
    retire s c)
  if idle then veComplete (veStart s c) c else s

/-- VLD (R40). -/
def execVld (c : CoreId) (now : Bool) (us : List Upset) (s : State) : Out := .next (veIssue c now us .vld s)
/-- VST (R40). -/
def execVst (c : CoreId) (now : Bool) (us : List Upset) (s : State) : Out := .next (veIssue c now us .vst s)
/-- VADD (R130). -/
def execVadd (c : CoreId) (now : Bool) (us : List Upset) (s : State) : Out := .next (veIssue c now us .vadd s)
/-- VSUB (R130). -/
def execVsub (c : CoreId) (now : Bool) (us : List Upset) (s : State) : Out := .next (veIssue c now us .vsub s)
/-- VMUL (R130). -/
def execVmul (c : CoreId) (now : Bool) (us : List Upset) (s : State) : Out := .next (veIssue c now us .vmul s)
/-- VFMA (R130). -/
def execVfma (c : CoreId) (now : Bool) (us : List Upset) (s : State) : Out := .next (veIssue c now us .vfma s)
/-- VMAX (R130). -/
def execVmax (c : CoreId) (now : Bool) (us : List Upset) (s : State) : Out := .next (veIssue c now us .vmax s)
/-- VMIN (R130). -/
def execVmin (c : CoreId) (now : Bool) (us : List Upset) (s : State) : Out := .next (veIssue c now us .vmin s)
/-- VCVT (R132). -/
def execVcvt (c : CoreId) (now : Bool) (us : List Upset) (s : State) : Out := .next (veIssue c now us .vcvt s)
/-- VQUANT (R109). -/
def execVquant (c : CoreId) (now : Bool) (us : List Upset) (s : State) : Out := .next (veIssue c now us .vquant s)
/-- VDEQ (R40). -/
def execVdeq (c : CoreId) (now : Bool) (us : List Upset) (s : State) : Out := .next (veIssue c now us .vdeq s)
/-- VHAD (R116). -/
def execVhad (c : CoreId) (now : Bool) (us : List Upset) (s : State) : Out := .next (veIssue c now us .vhad s)
/-- VRED (R131). -/
def execVred (c : CoreId) (now : Bool) (us : List Upset) (s : State) : Out := .next (veIssue c now us .vred s)
/-- VCBLD (R97). -/
def execVcbld (c : CoreId) (now : Bool) (us : List Upset) (s : State) : Out := .next (veIssue c now us .vcbld s)
/-- VHIST (R142). -/
def execVhist (c : CoreId) (now : Bool) (us : List Upset) (s : State) : Out := .next (veIssue c now us .vhist s)
/-- VSTE (R115). -/
def execVste (c : CoreId) (now : Bool) (us : List Upset) (s : State) : Out := .next (veIssue c now us .vste s)
/-- VFIX (R133). -/
def execVfix (c : CoreId) (now : Bool) (us : List Upset) (s : State) : Out := .next (veIssue c now us .vfix s)
/-- VADDX (R40). -/
def execVaddx (c : CoreId) (now : Bool) (us : List Upset) (s : State) : Out := .next (veIssue c now us .vaddx s)
/-- VSEL (R40). -/
def execVsel (c : CoreId) (now : Bool) (us : List Upset) (s : State) : Out := .next (veIssue c now us .vsel s)
/-- VBCAST (R40). -/
def execVbcast (c : CoreId) (now : Bool) (us : List Upset) (s : State) : Out := .next (veIssue c now us .vbcast s)
/-- VMOVS (R40). -/
def execVmovs (c : CoreId) (now : Bool) (us : List Upset) (s : State) : Out := .next (veIssue c now us .vmovs s)

/-- PASS: queued on the unit its UNIT names; an MU1 pass keeps the MU0 pass issued directly before it (R65, R189). -/
def execPass (c : CoreId) (us : List Upset) (s : State) : Out :=
  let prev := (s.core c).lastMu0
  .next (issue s c us .pass (fun s w =>
    if mUnit w = 0 then retire (enqueue s c w .mu0 none) c
    else retire (pairUp (enqueue s c w .mu1 prev) c) c))

/-! ### Units -/

/-- PASS_START (R68). -/
def execPassStart (c : CoreId) (u : MuId) (us : List Upset) (s : State) : Out :=
  .next (wake (passStart (strike s us) c u) c)

/-- PASS_COMPLETE: `f` are the failing checks that the pass meets (R68, R85, R86). -/
def execPassComplete (c : CoreId) (u : MuId) (f : CheckFault) (us : List Upset) (s : State) : Out :=
  .next (s.live (wake (passComplete (strike s us) c u f) c))

/-- The instruction at the head of a unit queue starts, where its guards allow it (R48, R49). -/
def unitStart (s : State) (c : CoreId) (u : UnitSel) : State :=
  match u with
  | .mu0 => passStart s c 0
  | .mu1 => passStart s c 1
  | .ve => veStart s c
  | .dma => dmaStart s c []
  | .fab => fabStart s c

/-- What a unit has started completes, where it can (R48). -/
def unitComplete (s : State) (c : CoreId) (u : UnitSel) : State :=
  match u with
  | .mu0 => passComplete s c 0 {}
  | .mu1 => passComplete s c 1 {}
  | .ve => veComplete s c
  | .dma => (allFin 4).foldl (fun s ch => dmaComplete s c ch []) s
  | .fab => fabComplete s c

/-- UNIT_INSTR_START (R49). -/
def execUnitInstrStart (c : CoreId) (u : UnitSel) (us : List Upset) (s : State) : Out :=
  .next (wake (unitStart (strike s us) c u) c)

/-- UNIT_INSTR_COMPLETE (R48, R51). -/
def execUnitInstrComplete (c : CoreId) (u : UnitSel) (us : List Upset) (s : State) : Out :=
  .next (s.live (wake (unitComplete (strike s us) c u) c))

/-! ### Instruction memory (R31, R59) -/

/-- IMEM_WRITE_RUNNING (R31). -/
def imemRunning (s : State) (c : CoreId) : State := s.coreEv c 0x1009 (s.core c).pc 0

/-- IMEM_ADDR moves on by 1 (R59). -/
def imemNext (s : State) (c : CoreId) : State :=
  s.wr (coreBase c + 0x40) (BitVec.ofNat 64 ((fld (s.rd (coreBase c + 0x40)) 0 15 + 1) % 32768))

/-- An instruction is stored, with fresh check bits (R30). -/
def imemStore (s : State) (c : CoreId) (i : Nat) (w : W128) : State :=
  let k := s.core c
  s.setCore c { k with imem := if w = 0#128 then tdel k.imem i else tset k.imem i w, imemErr := tdel k.imemErr i }

/-- A write of IMEM_DATA_LO: kept for the write of the other half (R31, R59). -/
def imemLo (s : State) (c : CoreId) (v : W64) : State :=
  if (s.core c).run ≠ .halted then imemRunning s c else s.wr (coreBase c + 0x48) v

/-- A write of IMEM_DATA_HI: both halves are stored at IMEM_ADDR, which moves on (R31, R59). -/
def imemHi (s : State) (c : CoreId) (v : W64) : State :=
  if (s.core c).run ≠ .halted then imemRunning s c
  else
    let i := fld (s.rd (coreBase c + 0x40)) 0 15
    let w : W128 := v ++ s.rd (coreBase c + 0x48)
    imemNext (imemStore s c i w) c

/-- What a read of IMEM_DATA_HI returns. -/
def imemHiValue (s : State) (c : CoreId) : W64 :=
  BitVec.ofNat 64 (fld ((s.core c).word (fld (s.rd (coreBase c + 0x40)) 0 15)) 64 64)

/-- The answer to a read leaves the module. -/
def answer (s : State) (o : HostOut) : State := { s with host := { s.host with out := s.host.out ++ [o] } }

/-- IMEM_DATA_LO_WRITE (R31). -/
def execImemDataLoWrite (c : CoreId) (v : W64) (s : State) : Out := .next (s.ifOn c.val (imemLo s c v))
/-- IMEM_DATA_HI_WRITE (R59). -/
def execImemDataHiWrite (c : CoreId) (v : W64) (s : State) : Out := .next (s.ifOn c.val (imemHi s c v))
/-- IMEM_DATA_HI_READ (R59). -/
def execImemDataHiRead (c : CoreId) (s : State) : Out :=
  .next (if s.domainOn c.val && !s.power.recovery then imemNext (answer s (.reg (imemHiValue s c))) c else answer s (.reg 0#64))

/-! ### Matrix units and counter sets -/

/-- A write of MU_SPARE: ignored with MU_SPARE_WRITE_IGNORED while the core is not HALTED (R88); a ROW of 9 to 15 is
ignored, and ROW keeps its value (R90). -/
def muSpare (s : State) (c : CoreId) (u : MuId) (v : W64) : State :=
  let a := muBase c u + 0x10
  if (s.core c).run ≠ .halted then muEv s c u 0x2005
  else if fld v 1 4 ≤ 8 then s.wr a (v &&& 0x1F#64)
  else s.wr a (putBit (s.rd a) 0 (bit v 0))

/-- Where the firmware's configuration store keeps the repair record of a matrix unit (R88, R410). DESIGN CHOICE (log entry 64): two
bytes from the store's start on, 1 where there is a record, and the value of MU_SPARE. -/
def repairAt (c : CoreId) (u : MuId) : Nat := 0x1020000 + 2 * (2 * c.val + u.val)

/-- A write of MU_SPARE by the management firmware. Its value, where it is taken, becomes the unit's repair record (R88; DESIGN CHOICE,
log entry 64: every value that the firmware writes is one). -/
def muRepair (s : State) (c : CoreId) (u : MuId) (v : W64) : State :=
  let t := muSpare s c u v
  if (s.core c).run ≠ .halted then t
  else
    let kept := BitVec.ofNat 8 (fld (t.rd (muBase c u + 0x10)) 0 5)
    { t with sec := { t.sec with flash := t.sec.flash.write (repairAt c u) [1#8, kept] } }

/-- The firmware writes MU_SPARE again from the repair records of a core that has come up (R88). -/
def repairCore (s : State) (c : CoreId) : State :=
  (allFin 2).foldl (fun (s : State) (u : MuId) =>
    if s.sec.flash.get (repairAt c u) = 1#8 then
      s.wr (muBase c u + 0x10) (BitVec.ofNat 64 (s.sec.flash.get (repairAt c u + 1)).toNat)
    else s) s

/-- MU_SPARE_WRITE (R88): the write of the management firmware. -/
def execMuSpareWrite (c : CoreId) (u : MuId) (v : W64) (s : State) : Out :=
  .next (s.ifOn c.val (muRepair s c u v))

/-- VQ_CLR: the named sets lose their counts and their hit and invalid bits (R118, R120). -/
def vqClr (s : State) (c : CoreId) (v : W64) : State :=
  (allFin 16).foldl (fun (s : State) (i : Fin 16) =>
    if bit v i.val then
      let l := s.loc c
      let hit := s.rd (coreBase c + 0x3010)
      (s.setLoc c { l with sets := l.sets.set i {} }).wr (coreBase c + 0x3010)
        (clrBit (clrBit (clrBit hit i.val) (16 + i.val)) (32 + i.val))
    else s) s

/-- VQ_CLR (R118). -/
def execVqClr (c : CoreId) (v : W64) (s : State) : Out := .next (s.ifOn c.val (vqClr s c v))

/-! ### The scratchpad (R226, R234 to R236) -/

/-- The next corrected lane is rewritten, unless an error has struck it again (R226). -/
def laneRewrite (s : State) (c : CoreId) : State :=
  let l := s.loc c
  match l.fixes with
  | [] => s
  | a :: rest =>
    let err := if tget l.spErr a = some false then tdel l.spErr a else l.spErr
    s.setLoc c { l with spErr := err, fixes := rest.filter (· != a) }

/-- SP_LANE_REWRITE (R226). -/
def execSpLaneRewrite (c : CoreId) (us : List Upset) (s : State) : Out := .next (s.live (laneRewrite (strike s us) c))

/-- A write of SP_CLEAR: the named regions that are not gecko-resident join the clear, while the core is HALTED
(R234). -/
def spClear (s : State) (c : CoreId) (v : W64) : State :=
  if (s.core c).run ≠ .halted ∨ !s.domainOn c.val then s
  else
    let m := v &&& ~~~(s.rd (coreBase c + 0x4018))
    let l := s.loc c
    s.setLoc c { l with clearing := some (m ||| l.clearing.getD 0#64) }

/-- The clear in progress finishes: its regions are zero, and SP_CLEAR_DONE is raised (R234). -/
def spClearDone (s : State) (c : CoreId) : State :=
  match (s.loc c).clearing with
  | none => s
  | some m =>
    let s := clearRegions s c ((List.range 64).filter (fun r => bit m r))
    (s.setLoc c { s.loc c with clearing := none }).coreEv c 0x1019 (s.rd (coreBase c + 0x4080)).toNat 0

/-- SP_CLEAR (R234). -/
def execSpClear (c : CoreId) (v : W64) (s : State) : Out := .next (s.ifOn c.val (spClear s c v))
/-- SP_CLEAR_COMPLETE (R234). -/
def execSpClearComplete (c : CoreId) (us : List Upset) (s : State) : Out := .next (s.live (spClearDone (strike s us) c))

/-- A bank after a request: 0 ON, 1 RETAIN, 2 OFF; a bank already there does not move (R235). -/
def bankAfter (b : Bank) (r : Nat) : Bank :=
  match r, b with
  | 0, .on => .on
  | 1, .retain => .retain
  | 2, .off => .off
  | 3, b => b
  | r, _ => .trans (BitVec.ofNat 2 r)

/-- A write of SP_BANK_PWR word `w`: each named bank goes into TRANSITION towards the state asked for (R235, R236). -/
def bankPwr (s : State) (c : CoreId) (w : Nat) (v : W64) : State :=
  let s := s.wr (coreBase c + 0x4048 + 8 * w) v
  let l := s.loc c
  let req (b : Nat) : Nat := if b / 32 = w then fld v (2 * (b % 32)) 2 else 3
  s.setLoc c { l with bank := Vector.ofFn (fun b => bankAfter l.bank[b] (req b.val)) }

/-- The contents of a bank are gone. -/
def bankLose (s : State) (c : CoreId) (b : Nat) : State :=
  let l := s.loc c
  s.setLoc c { l with sp := l.sp.filter (fun e => bankOf e.1 != b), spErr := l.spErr.filter (fun e => bankOf e.1 != b) }

/-- A bank reaches the state it was asked for, and BANK_PWR_DONE is raised; a bank that is OFF has lost its contents
(R235, R236). -/
def bankDone (s : State) (c : CoreId) (b : Fin 64) : State :=
  match (s.loc c).bank[b] with
  | .trans d =>
    let s := if d = 2#2 then bankLose s c b.val else s
    let st : Bank := match d.toNat with | 0 => .on | 1 => .retain | _ => .off
    let l := s.loc c
    (s.setLoc c { l with bank := l.bank.set b st }).coreEv c 0x1018 (s.rd (coreBase c + 0x4080)).toNat 0
  | _ => s

/-- SP_BANK_PWR (R235). -/
def execSpBankPwr (c : CoreId) (w : Fin 2) (v : W64) (s : State) : Out :=
  .next (s.ifOn c.val (bankPwr s c w.val v))
/-- BANK_TRANSITION_COMPLETE (R236). -/
def execBankTransitionComplete (c : CoreId) (b : Fin 64) (s : State) : Out := .next (s.live (bankDone s c b))

end Sys2Proof.Machine
end

