-- ==== Sys2Proof/Machine/Export.lean ====
section
/-!
DEFINITION. Telemetry: the step timers of a job (R388) and the exports (R389 to R392).
-/

namespace Sys2Proof.Machine

/-- TEL_JOB_CFG of a job. -/
def telCfg (j : Nat) : Nat := telBase + 0x100 + 0x40 * j

/-! ### Triggers (R389) -/

/-- A job's export is triggered: it merges with one that is still pending, or joins the end. -/
def telTrigger (s : State) (j kind step attempt : Nat) : State :=
  let x : Export := { job := j, kind := kind, step := step, attempt := attempt }
  if s.tel.pending.any (fun e => e.job == j) then
    { s with tel := { s.tel with pending := s.tel.pending.map (fun (e : Export) => if e.job == j then x else e) } }.count
      (telCfg j + 0x38) 32 1
  else { s with tel := { s.tel with pending := s.tel.pending ++ [x] } }

/-- A commit or an abandon triggers an export where AUTO is 1. -/
def telAuto (s : State) (j kind step attempt : Nat) : State :=
  if bit (s.rd (telCfg j)) 0 then telTrigger s j kind step attempt else s

/-- TEL_EXPORT is written (R389, R393). -/
def telExportWrite (s : State) (v : W64) : State :=
  let j := fld v 0 4
  if bit v 4 then
    telTrigger s j 3 (s.rd (rclBase j + 0x10)).toNat (match fin? 16 j with | some i => (s.rcl.jobs[i]).attempt.toNat | none => 0)
  else s

/-! ### The snapshot (R390, R391) -/

/-- How far a snapshot has come: the state with what it has read cleared, the bytes so far, the histogram records that
were not read, and the failure code. -/
structure Snap where
  s : State
  bytes : List Byte := []
  skipped : Nat := 0
  code : Nat := 0

/-- The section of one core. -/
def snapCore (j : Nat) (clr : Bool) (x : Snap) (c : CoreId) : Snap :=
  let s := x.s
  if !s.inSet j c then { x with bytes := x.bytes ++ List.replicate 576 0#8 }
  else
    let l := s.loc c
    let q := coreBase c + 0x3000
    let b := telBase + 0x1000 + 0x20 * c.val
    let sets := l.sets.toList.flatMap (fun k =>
      leBytes 8 k.elem.toNat ++ leBytes 8 k.sat.toNat ++ leBytes 8 k.ufl.toNat ++ leBytes 8 k.nonfin.toNat)
    let rest := leBytes 8 (s.rd (q + 0x20)).toNat ++ leBytes 8 (s.rd (q + 0x28)).toNat ++ leBytes 8 (s.rd b).toNat ++
      leBytes 8 (s.rd (b + 8)).toNat ++ leBytes 8 (s.rd (b + 0x10)).toNat ++ List.replicate 24 0#8
    let s := (s.wr (q + 0x20) 0#64).wr (q + 0x28) 0#64
    let s := if clr then ((s.setLoc c { s.loc c with sets := Vector.replicate 16 {} }).wr (b + 8) 0#64).wr (b + 0x10) 0#64
      else s
    { x with s := s, bytes := x.bytes ++ sets ++ rest }

/-- One histogram record, from its list entry. -/
def snapHist (j : Nat) (clr : Bool) (x : Snap) (ent : Nat) : Snap :=
  if x.code ≠ 0 then x
  else
    let s := x.s
    match fin? 48 (nfld ent 0 6) with
    | none => { x with bytes := x.bytes ++ List.replicate 256 0#8 }
    | some c =>
      let off := 256 * nfld ent 6 16
      if !s.inSet j c then { x with bytes := x.bytes ++ List.replicate 256 0#8 }
      else if (spBankOff s c off 256).isSome then
        { x with bytes := x.bytes ++ List.replicate 256 0#8, skipped := x.skipped + 1 }
      else
        match spEcc s c (s.jobOf c) off 256 with
        | (s, some _) => { x with s := s, code := 6 }
        | (s, none) =>
          let d := spBytes s c off 256
          let s := if clr then (spMerge s c (s.jobOf c) off (List.replicate 256 0#8)).1 else s
          { x with s := s, bytes := x.bytes ++ d }

/-- HCOUNT of a job. -/
def telCount (s : State) (j : Nat) : Nat := fld (s.rd (telCfg j)) 2 9

/-- The entries of a job's histogram list, or a failure code (R390, R392). -/
def histList (s : State) (j : Nat) : State × (List Nat ⊕ Nat) :=
  let n := telCount s j
  let a := (s.rd (telCfg j + 0x10)).toNat
  if n = 0 then (s, .inl [])
  else if gddrTop s < a + 4 * n then (s, .inr 1)
  else
    match gddrNow s none a (4 * n) none with
    | (s, .ok bs) => (s, .inl ((chunks 4 n bs).map leNat))
    | (s, _) => (s, .inr 6)

/-- The header of a snapshot, its SEQ still 0. -/
def snapHeader (s : State) (x : Export) (t : W64) (skipped flags : Nat) : List Byte :=
  let j := x.job
  let b := telBase + 0x800 + 0x20 * j
  leBytes 4 0 ++ leBytes 4 x.step ++ leBytes 1 x.attempt ++ leBytes 1 x.kind ++ leBytes 1 j ++ leBytes 1 skipped ++
    leBytes 4 (telCount s j) ++ leBytes 8 t.toNat ++ leBytes 6 (s.heldBy j ||| s.lentBy j).toNat ++ leBytes 2 0 ++
    leBytes 8 (s.rd b).toNat ++ leBytes 8 (s.rd (b + 8)).toNat ++ leBytes 8 (s.rd (b + 16)).toNat ++ leBytes 8 flags

/-- The address of the slot that a job's next snapshot takes (R389). -/
def telSlot (s : State) (j : Nat) : Nat :=
  (s.rd (telCfg j + 8)).toNat + 131072 * ((s.rd (telCfg j + 0x18)).toNat % 2 ^ fld (s.rd (telCfg j)) 11 4)

/-- The next pending export starts where none runs: it writes SEQ 0 to its slot and reads its sources (R389 to
R392). -/
def exportRun (s : State) : State :=
  match s.tel.running, s.tel.pending with
  | none, x :: rest =>
    let j := x.job
    let a := telSlot s j
    let go (s : State) (code : Nat) (bytes : List Byte) : State :=
      { s with tel := { s.tel with pending := rest,
                                   running := some { job := j, code := code, addr := a, bytes := bytes } } }
    if !s.domainOn 48 then s
    else if gddrTop s < a + 131072 then go s 1 []
    else if gddrServe s a 131072 = .wait ∨ gddrServe s (s.rd (telCfg j + 0x10)).toNat (4 * telCount s j) = .wait then s
    else
      match gddrNow s none a 4 (some (leBytes 4 0)) with
      | (s, .fail _) => go s 6 []
      | (s, _) =>
        match histList s j with
        | (s, .inr k) => go s k []
        | (s, .inl es) =>
          let (t, s) := s.now
          let clr := bit (s.rd (telCfg j)) 1
          let p := (allFin 48).foldl (snapCore j clr) { s := s }
          let cores := p.bytes
          let q := es.foldl (snapHist j clr) { p with bytes := [] }
          let flags := (q.s.rd (telCfg j + 0x30)).toNat
          let s := if clr ∧ q.code = 0 then q.s.wr (telCfg j + 0x30) 0#64 else q.s
          go s q.code (snapHeader s x t q.skipped flags ++ padTo (0x7000 - 64) cores ++ q.bytes)
  | _, _ => s

/-- The export that runs ends: its bytes and then its SEQ are written, or TEL_STAT takes the failure (R390, R392). -/
def exportDone (s : State) : State :=
  match s.tel.running with
  | none => s
  | some r =>
    let off (s : State) : State := { s with tel := { s.tel with running := none } }
    let failed (s : State) (k : Nat) : State := (off s).wr (telBase + 0x30) (BitVec.ofNat 64 (2 + k * 4 + r.job * 1024))
    if r.code ≠ 0 then failed s r.code
    else
      match gddrDo s none r.addr r.bytes.length (some r.bytes) with
      | (s, .wait) => s
      | (s, .fail _) => failed s 6
      | (s, .ok _) =>
        let n := ((s.rd (telCfg r.job + 0x18)).toNat + 1) % 2 ^ 32
        match gddrNow s none r.addr 4 (some (leBytes 4 n)) with
        | (s, .ok _) => (off s).wr (telCfg r.job + 0x18) (BitVec.ofNat 64 n)
        | (s, _) => failed s 6

/-! ### The step timers (R388) -/

/-- The state with the step timers of a job replaced. -/
def setTel (s : State) (f : Telemetry → Telemetry) : State := { s with tel := f s.tel }

/-- EN of a job starts its step timer. -/
def stepBegin (s : State) (j : JobId) : State :=
  let (t, s) := s.now
  setTel s (fun x => { x with stepT0 := x.stepT0.set j (some t), roundT0 := x.roundT0.set j none,
                              readyT0 := x.readyT0.set j none })

/-- The first accepted hand-over of the step. -/
def roundBegin (s : State) (j : JobId) : State :=
  if (s.tel.roundT0[j]).isSome then s
  else
    let (t, s) := s.now
    setTel s (fun x => { x with roundT0 := x.roundT0.set j (some t), roundT1 := x.roundT1.set j t })

/-- A DECIDE is received. -/
def roundMark (s : State) (j : JobId) : State :=
  let (t, s) := s.now
  setTel s (fun x => { x with roundT1 := x.roundT1.set j t })

/-- READY is sent. -/
def readyMark (s : State) (j : JobId) : State :=
  let (t, s) := s.now
  setTel s (fun x => { x with readyT0 := x.readyT0.set j (some t) })

/-- The outcome of a step is applied: the three timers take their values, and STEP_OVER is set where the step took
longer than STEP_THR. -/
def stepEnd (s : State) (j : JobId) : State :=
  let (t, s) := s.now
  let b := telBase + 0x800 + 0x20 * j.val
  let x := s.tel
  let s := match x.stepT0[j] with
    | none => s
    | some t0 =>
      let s := s.wr b (t - t0)
      let thr := (s.rd (telCfg j + 0x28)).toNat
      if thr ≠ 0 ∧ thr < (t - t0).toNat then s.orReg (telCfg j + 0x30) (BitVec.ofNat 64 (2 ^ 48)) else s
  let s := match x.roundT0[j] with
    | none => s
    | some t0 => s.wr (b + 8) (x.roundT1[j] - t0)
  let s := match x.readyT0[j] with
    | none => s
    | some t0 => s.wr (b + 16) (t - t0)
  setTel s (fun x => { x with stepT0 := x.stepT0.set j (some t), roundT0 := x.roundT0.set j none,
                              readyT0 := x.readyT0.set j none })

/-! ### The commands -/

/-- TEL_EXPORT (R389). -/
def execTelExport (v : W64) (s : State) : Out := .next (s.ifOn 48 (telExportWrite s v))
/-- TEL_EXPORT_RUN (R389). -/
def execTelExportRun (us : List Upset) (s : State) : Out := .next (exportRun (strike s us))
/-- TEL_EXPORT_DONE (R392). -/
def execTelExportDone (us : List Upset) (s : State) : Out := .next (s.live (exportDone (strike s us)))

end Sys2Proof.Machine
end

