-- ==== Sys2Proof/Machine/Tree.lean ====
section
/-!
DEFINITION. The reduction tree of a group (R303, R304): vertices by the members below them, the chain of vertices above
a member, hosts, and the tree of the included members (R311).
-/

namespace Sys2Proof.Machine

/-- A vertex of the tree: its level, its members `lo` to `hi` - 1, and its children as level and members (R303). -/
structure Vtx where
  level : Nat
  lo : Nat
  hi : Nat
  kids : List (Nat × Nat × Nat)
deriving DecidableEq, Repr

/-- The runs of indices from `lo` to `hi` - 1 on which `f` is the same. -/
def groupRuns (f : Nat → Nat) (lo hi : Nat) : List (Nat × Nat) :=
  (List.range (hi - lo)).foldl (fun acc k =>
    let i := lo + k
    match acc.getLast? with
    | some (a, b) => if f i = f a ∧ b = i then acc.dropLast ++ [(a, i + 1)] else acc ++ [(i, i + 1)]
    | none => [(i, i + 1)]) []

/-- Whether a range of members holds member `i`. -/
def holds (r : Nat × Nat) (i : Nat) : Bool := decide (r.1 ≤ i ∧ i < r.2)

/-- The vertices from level `l` down to the leaf of member `i` inside a node: pairs and quads by position, `ms` being
the members' device IDs (R303). -/
def downIn (ms : List Nat) (i : Nat) : Nat → Nat → Nat → List Vtx
  | 0, lo, hi => [{ level := 0, lo := lo, hi := hi, kids := [] }]
  | l + 1, lo, hi =>
    let gs := groupRuns (fun k => getD ms k 0 % 8 / 2 ^ l) lo hi
    { level := l + 1, lo := lo, hi := hi, kids := gs.map (fun g => (l, g.1, g.2)) } ::
      (match gs.find? (fun g => holds g i) with
        | some g => downIn ms i l g.1 g.2
        | none => [])

/-- The height of the node tree over `n` nodes: ⌈log2 n⌉ (R303). -/
def treeHeight (n : Nat) : Nat := if n ≤ 1 then 0 else Nat.log2 (n - 1) + 1

/-- The members of a list of nodes. -/
def nodesRange (ns : List (Nat × Nat)) : Nat × Nat := (((ns.head?).map (·.1)).getD 0, ((ns.getLast?).map (·.2)).getD 0)

/-- The vertices above member `i` in the node tree over `ns` and inside its node, root first (R303). -/
def downNodes (ms : List Nat) (i : Nat) : Nat → List (Nat × Nat) → List Vtx
  | 0, _ => []
  | fuel + 1, ns =>
    match ns with
    | [] => []
    | [n] => downIn ms i 3 n.1 n.2
    | _ =>
      let h := (ns.length + 1) / 2
      let a := ns.take h
      let b := ns.drop h
      let r := nodesRange ns
      let kid (x : List (Nat × Nat)) : Nat × Nat × Nat := (3 + treeHeight x.length, (nodesRange x).1, (nodesRange x).2)
      { level := 3 + treeHeight ns.length, lo := r.1, hi := r.2, kids := [kid a, kid b] } ::
        downNodes ms i fuel (if holds (nodesRange a) i then a else b)

/-- The vertices above member `i`, the summit first and the leaf last. -/
def chain (ms : List Nat) (i : Nat) : List Vtx :=
  downNodes ms i 16 (groupRuns (fun k => getD ms k 0 / 8) 0 ms.length)

/-- The vertex of a chain at a level. -/
def vtxAt (c : List Vtx) (level : Nat) : Option Vtx := c.find? (fun v => v.level == level)

/-- The next vertex of a chain above a level. -/
def nextAbove (c : List Vtx) (level : Nat) : Option Vtx := (c.filter (fun v => decide (level < v.level))).getLast?

/-- The member that hosts a vertex under rotation `r` (R304). -/
def hostOf (v : Vtx) (r : Nat) : Nat := v.lo + r % (v.hi - v.lo)

/-- The members of a group (R299). -/
def membersOf (s : State) (j : Nat) : List Nat := (List.range (groupG s j)).map (member s j)

/-- The index of a device in a group. -/
def memberIx (ms : List Nat) (dev : Nat) : Option Nat := (List.range ms.length).find? (fun i => getD ms i 0 == dev)

/-- Whether the child of a vertex holds an included member. -/
def kidIn (excl : List Nat) (k : Nat × Nat × Nat) : Bool :=
  (List.range (k.2.2 - k.2.1)).any (fun i => !excl.contains (k.2.1 + i))

/-- Whether a vertex of the included tree is no pass-through (R311). -/
def working (excl : List Nat) (v : Vtx) : Bool := decide (2 ≤ (v.kids.filter (kidIn excl)).length)

/-- The vertices of a chain at which data meet. Where a single member is included there is none, and the summit takes
that member's contribution. -/
def workChain (excl : List Nat) (n : Nat) (c : List Vtx) : List Vtx :=
  if n ≤ 1 then (c.head?).toList else c.filter (working excl)

end Sys2Proof.Machine
end

