-- ==== Sys2Proof/Machine/Rcl.lean ====
section
/-!
DEFINITION. The reduction and commit logic, its data side: hand-over (R301, R302), the exponent round (R305 to R308),
exact sums (R309, R310), the data phase (R311 to R313), owners and parameters (R314, R315), transfers (R316).
-/

namespace Sys2Proof.Machine

/-! ### Bucket entries (R329) and events (R330, R385) -/

/-- VALID of a bucket entry. -/
def bValid (s : State) (e : QId) : Bool := bit (s.rd (bktBase e)) 0
/-- JOB. -/
def bJob (s : State) (e : QId) : Nat := fld (s.rd (bktBase e)) 1 4
/-- BIDX. -/
def bIdx (s : State) (e : QId) : Nat := fld (s.rd (bktBase e)) 5 16
/-- NS. -/
def bShards (s : State) (e : QId) : Nat := fld (s.rd (bktBase e)) 21 7 + 1
/-- HCORE. -/
def bCore (s : State) (e : QId) : Nat := fld (s.rd (bktBase e)) 28 6
/-- HGUARD. -/
def bGuard (s : State) (e : QId) : Nat := fld (s.rd (bktBase e)) 34 12
/-- The valid entries of a job. -/
def jobBkts (s : State) (j : Nat) : List QId := (allFin 256).filter (fun e => bValid s e && bJob s e == j)
/-- The entry of a job's bucket. -/
def bktFor (s : State) (j bidx : Nat) : Option QId := (jobBkts s j).find? (fun e => bIdx s e == bidx)
/-- The EPOCH bit of a shard. -/
def bEpoch (s : State) (e : QId) (sh : Nat) : Bool := bit (s.rd (bktBase e + 0x50 + 8 * (sh / 64))) (sh % 64)
/-- The parameter half `p` of a shard: PBASE and PSTRIDE (R314). -/
def paramAddr (s : State) (e : QId) (p : Bool) (sh : Nat) : Nat :=
  (s.rd (bktBase e + (if p then 0x28 else 0x20))).toNat + sh * (64 * fld (s.rd (bktBase e + 0x30)) 6 18)
/-- PLEN. -/
def paramLen (s : State) (e : QId) : Nat := 64 * fld (s.rd (bktBase e + 0x30)) 30 18
/-- The optimiser-state half `p` of a shard (R314). -/
def optAddr (s : State) (e : QId) (p : Bool) (sh : Nat) : Nat :=
  (s.rd (bktBase e + (if p then 0x40 else 0x38))).toNat + sh * (64 * fld (s.rd (bktBase e + 0x48)) 6 24)
/-- OLEN. -/
def optLen (s : State) (e : QId) : Nat := 64 * fld (s.rd (bktBase e + 0x48)) 30 24

/-- JOB_STEP. -/
def jobStep (s : State) (j : Nat) : Nat := (s.rd (rclBase j + 0x10)).toNat
/-- N that an event names: the included members where they are decided. -/
def bktN (s : State) (e : QId) : Nat :=
  match (s.rcl.bkts[e]).dec with
  | some d => d.n
  | none => 0

/-- An event of the reduction and commit logic (R330, R385). -/
def redEv (s : State) (fails : Bool) (code : Nat) (j : JobId) (bidx shard step member n : Nat) (dev : Option Nat) :
    State :=
  s.raiseDev fails code 0 0 (some j.val) dev (bidx + shard * 2 ^ 16 + step * 2 ^ 24) (member + n * 2 ^ 16)

/-- An event about a bucket. -/
def bktEv (s : State) (code : Nat) (j : JobId) (e : QId) (shard member : Nat) (dev : Option Nat) : State :=
  redEv s (evFails code) code j (bIdx s e) shard (jobStep s j) member (bktN s e) dev

/-- An arrival is discarded (R306, R316). -/
def stale (s : State) : State := s.count (redBase + 0x20) 32 1

/-- A SYNC message goes to a member; where it cannot be sent the step fails (R287). -/
def say (s : State) (j : JobId) (m rsp : Nat) (tf : List Byte) (excl : List Nat) : State :=
  match sendSync s j (member s j m) rsp tf excl with
  | (s, true) => s
  | (s, false) => s.failStep (some j.val)

/-- The type fields of a message of a job about a bucket. -/
def sayFields (s : State) (j : JobId) (kind bidx level : Nat) (e : Int) (count : Nat) (invalid : Bool) (nexcl : Nat) :
    List Byte :=
  syncFields kind (s.rcl.jobs[j]).attempt.toNat bidx (jobStep s j) level e count invalid nexcl

/-- The state with a bucket changed. -/
def modBkt (s : State) (e : QId) (f : Bucket → Bucket) : State := s.setBkt e (f s.rcl.bkts[e])

/-! ### Images (R309, R310) -/

/-- The fixed-point image of one element: level and exponent against EB; true where a non-zero element is flushed. -/
def imageOf (l e eb : Int) : W64 × Bool :=
  if eb - 48 ≤ e then (BitVec.ofInt 64 (l * (2 ^ (e - eb + 48).toNat : Nat)), false)
  else (0#64, decide (l ≠ 0))

/-- The image of a contribution: its codebook record, codes and exponent entries (R99, R301). -/
def contribImage (rec_ codes ents : List Byte) (eb : Int) : List W64 × Nat :=
  let tab := chunks 2 256 (rec_.drop 64)
  let lev (c : Byte) : Int := sext 16 (leNat (getD tab c.toNat []))
  let gs := (chunks 32 8192 codes).zip (chunks 2 8192 ents)
  let xs := gs.flatMap (fun g => g.1.map (fun c => imageOf (lev c) (entE (leNat g.2)) eb))
  (xs.map (·.1), (xs.filter (·.2)).length)

/-- The checksum of an image. -/
def csumOf (ws : List W64) : W64 := ws.foldl (· + ·) 0#64
/-- The 64-bit words of a byte string. -/
def wordsOf (bs : List Byte) : List W64 := (chunks 8 (bs.length / 8 + 1) bs).map (fun b => BitVec.ofNat 64 (leNat b))

/-- Elements flushed in a conversion are counted; the first of a bucket raises RED_FLUSH (R309). -/
def countFlush (s : State) (j : JobId) (e : QId) (shard n : Nat) : State :=
  if n = 0 then s
  else
    let s := s.count (redBase + 0x10) 64 n
    if (s.rcl.bkts[e]).flushed then s
    else bktEv (modBkt s e (fun b => { b with flushed := true })) 0x7006 j e shard (groupSelf s j) none

/-! ### Transfers (R316) -/

/-- The header of a transfer. -/
def xferHeader (s : State) (j : JobId) (kind bidx shard : Nat) (empty : Bool) (eb8 : Int) (ninc : Nat) (csum : W64) :
    List Byte :=
  padTo 64 (leBytes 4 (jobStep s j) ++ [(s.rcl.jobs[j]).attempt.setWidth 8] ++ leBytes 1 kind ++ leBytes 2 bidx ++
    leBytes 1 shard ++ leBytes 1 (if empty then 1 else 0) ++ leBytes 1 (ofInt 8 eb8) ++ [0#8] ++ leBytes 4 ninc ++
    leBytes 8 csum.toNat)

/-- COLLINFO. -/
def collInfo (s : State) (j : JobId) (kind bidx shard level : Nat) : List Byte :=
  leBytes 2 bidx ++ leBytes 1 shard ++ leBytes 1 level ++ leBytes 1 kind ++ [(s.rcl.jobs[j]).attempt.setWidth 8] ++
    leBytes 2 0

/-! ### The tree of a bucket -/

/-- SELF, the members, and the chain above SELF of a job. -/
def selfChain (s : State) (j : Nat) : List Vtx := chain (membersOf s j) (groupSelf s j)
/-- The rotation of a shard (R304). -/
def rotOf (s : State) (e : QId) (sh : Nat) : Nat := bIdx s e * 128 + sh
/-- The vertices above SELF at which data of a bucket meet. -/
def dataChain (s : State) (j : Nat) (d : Decision) : List Vtx := workChain d.excl d.n (selfChain s j)
/-- The owner of a shard (R304). -/
def ownerOf (s : State) (j : Nat) (e : QId) (sh : Nat) : Nat := rotOf s e sh % groupG s j

/-- The receive buffer `i` of a bucket (R312). -/
def rxBuf (s : State) (e : QId) (i : Nat) : Nat := (s.rd (bktBase e + 0x10)).toNat + i * 2101248

/-- A hand-over guard is drained; that of a core that is away waits for it (R232, R302). -/
def drainGuard (s : State) (j : JobId) (c : CoreId) (g : Nat) : State :=
  if coreAway s j c then
    s.setRclJob j { s.rcl.jobs[j] with drains := (s.rcl.jobs[j]).drains ++ [(c, g)] }
  else if guardFilled s c g then wake (setGuard s c g false) c
  else s

/-- A shard of the hand-over has gone out or been converted; once all have, the hand-over guard is drained (R302). -/
def drainHand (s : State) (e : QId) : State :=
  match fin? 16 (bJob s e), fin? 48 (bCore s e) with
  | some j, some c => drainGuard (modBkt s e (fun b => { b with released := true })) j c (bGuard s e)
  | _, _ => s

/-! ### Module memory (R250, R379) -/

/-- Whether module memory serves the logic now: no controller is short of READY or still holds requests. -/
def memServes (s : State) : Bool :=
  (allFin 24).all (fun (g : CtrlId) =>
    !s.domainOn (ctrlDomain g) || (s.ctrls[g]).trainFail || ((s.ctrls[g]).ready && (s.ctrls[g]).reqs.isEmpty))

/-- A read of module memory by the logic; a failed one fails the step (R379). -/
def rclGet (s : State) (j : JobId) (a n : Nat) : State × Option (List Byte) :=
  match gddrOwn s (some j.val) a n none with
  | (s, .ok bs) => (s, some bs)
  | (s, _) => (s, none)

/-- A write of module memory by the logic; false where it failed, and the step with it (R379). -/
def rclPut (s : State) (j : JobId) (a : Nat) (bs : List Byte) : State × Bool :=
  match gddrOwn s (some j.val) a bs.length (some bs) with
  | (s, .ok _) => (s, true)
  | (s, _) => (s, false)

/-! ### Work records (R313) -/

/-- The core that does the adds of a shard. -/
def addCore (s : State) (j sh : Nat) : Nat :=
  let w := s.rd (rclBase j + 0x38)
  fld w 0 6 + (if fld w 6 6 = 0 then 0 else sh % fld w 6 6)

/-- The cores that hold a ring of work records of a job. -/
def workCores (s : State) (j : Nat) : List Nat :=
  let w := s.rd (rclBase j + 0x38)
  (List.range (max 1 (fld w 6 6))).map (fld w 0 6 + ·)

/-- The 64 bytes of a work record. -/
def workBytes (s : State) (j : JobId) (w : Work) : List Byte :=
  match fin? 256 w.e with
  | none => []
  | some e =>
    let head := leBytes 1 (if w.opt then 2 else 1) ++ leBytes 1 w.s ++ leBytes 2 (bIdx s e) ++ leBytes 4 (jobStep s j) ++
      leBytes 8 w.srcA
    if !w.opt then padTo 64 (head ++ leBytes 8 w.srcB ++ leBytes 8 w.srcA)
    else
      let p := bEpoch s e w.s
      let kb : Int := match (s.rcl.bkts[e]).dec with
        | some d => d.eb - 48
        | none => 0
      padTo 64 (head ++ leBytes 8 (paramAddr s e (!p) w.s) ++ leBytes 8 (optAddr s e p w.s) ++
        leBytes 8 (optAddr s e (!p) w.s) ++ leBytes 2 (bktN s e) ++ leBytes 1 (ofInt 8 kb))

/-- SIGNAL of the logic for a job: applied, dropped, or held for a core that is saved (R54, R313, R321). -/
def rclSignal (s : State) (j : JobId) (core sem : Nat) : State :=
  match sigSend s (some j.val) core sem 1 (fun s => s.raise 0x1006 (core % 48) 0 (some j.val) 0 0) with
  | some s => s
  | none => s.setRclJob j { s.rcl.jobs[j] with sigs := (s.rcl.jobs[j]).sigs ++ [(core, sem)] }

/-- Whether a cairn still reads the half that an optimise record of this step would write (R326). -/
def cairnHolds (s : State) (j : JobId) : Bool :=
  match (s.rcl.jobs[j]).cairn with
  | some c => decide (c.step + 2 ≤ jobStep s j)
  | none => false

/-- A record is posted at the next ring entry of its core where that entry is free: its guard is DRAINED and no earlier
record waits for it. False where it has to wait. -/
def postWork (s : State) (j : JobId) (w : Work) : State × Bool :=
  let k := s.rcl.jobs[j]
  let cfg := s.rd (rclBase j + 0x38)
  let len := fld cfg 48 8
  match fin? 48 w.core with
  | none => (s, false)
  | some c =>
    let i := tnat k.wqNext w.core % (if len = 0 then 1 else len)
    let g := (fld cfg 36 12 + i) % 4096
    if len = 0 ∨ k.wq.any (fun x => x.1 == i && x.2.core == w.core) ∨ guardFilled s c g ∨ coreAway s j c ∨
        (w.opt ∧ cairnHolds s j) then (s, false)
    else
      let s := spWriteAny s c (some j.val) ((64 * fld cfg 18 18 + 64 * i) % spSize) (workBytes s j w)
      let k := s.rcl.jobs[j]
      let s := s.setRclJob j { k with wq := k.wq ++ [(i, w)], wqNext := tset k.wqNext w.core ((i + 1) % len) }
      (rclSignal s j w.core (fld cfg 12 6), true)

/-- The records that are due are posted in order; one that has to wait holds back the later ones of its core. -/
def postDue (s : State) (j : JobId) : State :=
  let ws := (s.rcl.jobs[j]).due
  let s := s.setRclJob j { s.rcl.jobs[j] with due := [] }
  ws.foldl (fun (s : State) w =>
    let wait (s : State) : State := s.setRclJob j { s.rcl.jobs[j] with due := (s.rcl.jobs[j]).due ++ [w] }
    if (s.rcl.jobs[j]).due.any (fun x => x.core == w.core) then wait s
    else
      match postWork s j w with
      | (s, true) => s
      | (s, false) => wait s) s

/-- A record becomes due. -/
def addWork (s : State) (j : JobId) (w : Work) : State :=
  s.setRclJob j { s.rcl.jobs[j] with due := (s.rcl.jobs[j]).due ++ [w] }

/-! ### The data phase (R311, R314) -/

/-- A vertex of the data phase changed. -/
def setDv (s : State) (e : QId) (v : DataVertex) : State :=
  modBkt s e (fun b => { b with dv := b.dv.map (fun x => if x.s == v.s && x.level == v.level then v else x) })

/-- A partial goes to a member (R311, R316). -/
def sendPartial (s : State) (j : JobId) (e : QId) (sh m level : Nat) (d : Decision) (r : DataIn) (img : List Byte) :
    State :=
  if (s.rcl.jobs[j]).failed then s
  else
    (collStart s j (member s j m) (collInfo s j 2 (bIdx s e) sh level)
      (xferHeader s j 2 (bIdx s e) sh r.empty (d.eb - 8) r.ninc r.csum ++ img)).1

/-- An event about data that reaches a vertex or an owner: the member it names is the one whose partial it is, with its device,
or this one (R330, R385). -/
def dataEv (s : State) (code : Nat) (j : JobId) (e : QId) (sh : Nat) (r : DataIn) : State :=
  match r.src with
  | some i => bktEv s code j e sh i (some (member s j i))
  | none => bktEv s code j e sh (groupSelf s j) none

/-- The sum of a shard is delivered to its owner: NINC is checked, an empty sum is written as zeros, and the optimise
record becomes due (R314). -/
def deliver (s : State) (j : JobId) (e : QId) (sh : Nat) (d : Decision) (r : DataIn) (buf : Nat) : State :=
  if r.ninc ≠ d.n then dataEv s 0x7007 j e sh r
  else
    let a := if r.empty then rxBuf s e buf + 0x1000 else r.addr
    let (s, good) := if r.empty then rclPut s j a (List.replicate 2097152 0#8) else (s, true)
    if !good ∨ (s.rcl.jobs[j]).failed then s
    else
      let s := modBkt s e (fun b => { b with own := b.own.map (fun x => if x.1 == sh then (sh, .opt a) else x) })
      addWork s j { e := e, s := sh, opt := true, level := 0, lo := 0, srcA := a, srcB := 0, core := addCore s j sh }

/-- An input reaches a vertex of this module; `lo` is the lowest member of its child. With every input present the
vertex forms its result: an add record becomes due where both inputs hold data, else the result is returned (R311). -/
def putInput (s : State) (j : JobId) (e : QId) (sh : Nat) (v : DataVertex) (lo : Nat) (r : DataIn) :
    State × Option DataIn :=
  let v := { v with ins := v.ins ++ [(lo, r)] }
  let s := setDv s e v
  if v.ins.length < v.need ∨ v.fired then (s, none)
  else
    let s := setDv s e { v with fired := true }
    let ninc := v.ins.foldl (fun n x => n + x.2.ninc) 0
    let csum := csumOf (v.ins.map (fun x => x.2.csum))
    let swap := match v.ins with
      | (a, _) :: (b, _) :: _ => decide (b < a)
      | _ => false
    match (v.ins.filter (fun x => !x.2.empty)).map (·.2) with
    | [] => (s, some { empty := true, addr := 0, ninc := ninc, csum := 0#64 })
    | [x] => (s, some { x with ninc := ninc, csum := csum })
    | x :: y :: _ =>
      if (s.rcl.jobs[j]).failed then (s, none)
      else
        (addWork s j { e := e, s := sh, opt := false, level := v.level, lo := v.lo,
                       srcA := if swap then y.addr else x.addr, srcB := if swap then x.addr else y.addr,
                       core := addCore s j sh }, none)

/-- The result of the vertex at `level` whose members begin at `lo` goes on: its checksum is compared as it is read,
and it goes to the next vertex above, here or elsewhere, or to its owner. `fuel` bounds the levels (R310, R311). -/
def onward (j : JobId) (e : QId) (sh : Nat) (d : Decision) : Nat → State → Nat → Nat → DataIn → Nat → State
  | 0, s, _, _, _, _ => s
  | fuel + 1, s, level, lo, r, buf =>
    let me := groupSelf s j
    match (if r.empty then (s, some []) else rclGet s j r.addr 2097152) with
    | (s, none) => s
    | (s, some img) =>
    if !r.empty ∧ csumOf (wordsOf img) ≠ r.csum then dataEv s 0x7002 j e sh r
    else
      match nextAbove (dataChain s j d) level with
      | none =>
        let o := ownerOf s j e sh
        if o = me then deliver s j e sh d r buf
        else sendPartial s j e sh o (((selfChain s j).head?.map (·.level)).getD 0) d r img
      | some p =>
        let h := hostOf p (rotOf s e sh)
        if h ≠ me then sendPartial s j e sh h p.level d r img
        else
          match (s.rcl.bkts[e]).dv.find? (fun v => v.s == sh && v.level == p.level) with
          | none => s
          | some v =>
            match putInput s j e sh v lo r with
            | (s, none) => s
            | (s, some x) => onward j e sh d fuel s v.level v.lo x v.buf

/-- The first member of the child that holds member `i` below a vertex, and the child's place among the included
children. -/
def kidOf (d : Decision) (v : Vtx) (i : Nat) : Option (Nat × Nat) :=
  let ks := v.kids.filter (kidIn d.excl)
  ((List.range ks.length).find? (fun n => holds (getD ks n (0, 0, 0)).2 i)).map (fun n =>
    (n, (getD ks n (0, 0, 0)).2.1))

/-- An input from member `i` has come for the vertex of this module at `level`. -/
def inputIn (s : State) (j : JobId) (e : QId) (sh level i : Nat) (d : Decision) (r : DataIn) : State :=
  match (vtxAt (selfChain s j) level).bind (fun v => kidOf d v i),
      (s.rcl.bkts[e]).dv.find? (fun x => x.s == sh && x.level == level) with
  | some (_, lo), some v =>
    if v.ins.any (fun x => x.1 == lo) then stale s
    else
      match putInput s j e sh v lo r with
      | (s, none) => s
      | (s, some x) => onward j e sh d 20 s level v.lo x v.buf
  | _, _ => stale s

/-- Where an input for a vertex is put: the receive buffer of its child (R312). -/
def inputBuf (s : State) (j : JobId) (e : QId) (sh level i : Nat) (d : Decision) : Nat :=
  let side := match vtxAt (selfChain s j) level with
    | some v => ((kidOf d v i).map (·.1)).getD 0
    | none => 0
  let buf := (((s.rcl.bkts[e]).dv.find? (fun x => x.s == sh && x.level == level)).map (·.buf)).getD 0
  rxBuf s e (buf + side)

/-- The header and the image of an input are written to its receive buffer (R312). -/
def fillBuf (s : State) (j : JobId) (a : Nat) (hdr img : List Byte) : State × Bool :=
  match rclPut s j a hdr with
  | (s, false) => (s, false)
  | (s, true) => if img.isEmpty then (s, true) else rclPut s j (a + 0x1000) img

/-- A contribution, of the device `dev` where it has come from another, is converted into a receive buffer and its checksum
compared (R309 to R311). -/
def takeContrib (s : State) (j : JobId) (e : QId) (sh level i : Nat) (d : Decision) (dev : Option Nat)
    (hdr rec_ codes ents : List Byte) (csum : W64) : State :=
  let (ws, n) := contribImage rec_ codes ents d.eb
  let a := inputBuf s j e sh level i d
  let s := countFlush s j e sh n
  if csumOf ws ≠ csum then bktEv s 0x7002 j e sh i dev
  else
    match fillBuf s j a hdr (ws.flatMap (fun w => leBytes 8 w.toNat)) with
    | (s, false) => s
    | (s, true) => inputIn s j e sh level i d { empty := false, addr := a + 0x1000, ninc := 1, csum := csum }

/-- The codebook record, the codes and the exponent entries of a contribution's bytes. -/
def contribParts (data : List Byte) : List Byte × List Byte × List Byte :=
  (data.take 576, (data.drop 576).take 262144, (data.drop 262720).take 16384)

/-- A contribution or partial transfer that has come whole (R311, R316). -/
def takeData (s : State) (j : JobId) (e : QId) (src : Nat) (info stream : List Byte) : State :=
  match (s.rcl.bkts[e]).dec, memberIx (membersOf s j) src with
  | some d, some i =>
    let sh := leAt info 2 1
    let level := leAt info 3 1
    let hdr := stream.take 64
    let ninc := leAt stream 12 4
    let csum : W64 := BitVec.ofNat 64 (leAt stream 16 8)
    let body := stream.drop 64
    if leAt stream 9 1 % 2 = 1 then
      match fillBuf s j (inputBuf s j e sh level i d) hdr [] with
      | (s, false) => s
      | (s, true) => inputIn s j e sh level i d { empty := true, addr := 0, ninc := ninc, csum := csum, src := some i }
    else if leAt info 4 1 = 1 then
      let p := contribParts body
      takeContrib s j e sh level i d (some src) hdr p.1 p.2.1 p.2.2 csum
    else
      let a := inputBuf s j e sh level i d
      match fillBuf s j a hdr (padTo 2097152 (body.take 2097152)) with
      | (s, false) => s
      | (s, true) =>
        inputIn s j e sh level i d { empty := false, addr := a + 0x1000, ninc := ninc, csum := csum, src := some i }
  | _, _ => stale s

/-- A parameter transfer: the bytes go to the inactive half of the shard (R315). -/
def takeParams (s : State) (j : JobId) (e : QId) (sh src : Nat) (stream : List Byte) : State :=
  let body := stream.drop 64
  if csumOf (wordsOf body) ≠ BitVec.ofNat 64 (leAt stream 16 8) then bktEv s 0x7002 j e sh (memberNo s j src) (some src)
  else
    match rclPut s j (paramAddr s e (!bEpoch s e sh) sh) (body.take (paramLen s e)) with
    | (s, false) => s
    | (s, true) => modBkt s e (fun b => { b with got := setBit b.got sh })

/-- Whether a transfer that has come whole can be taken now: memory serves, and one of the data phase has its DECIDE. -/
def canTake (s : State) (e : QId) (info : List Byte) : Bool :=
  memServes s && (leAt info 4 1 == 3 || (s.rcl.bkts[e]).dec.isSome)

/-- A transfer that has come whole is taken (R311, R315). -/
def takeCome (s : State) (j : JobId) (e : QId) (x : Early) : State :=
  if leAt x.info 4 1 = 3 then takeParams s j e (leAt x.info 2 1) x.src x.stream else takeData s j e x.src x.info x.stream

/-- The transfers of a bucket that waited and can be taken now are taken, in their order. -/
def takeEarly (s : State) (j : JobId) (e : QId) : State :=
  let all := (s.rcl.bkts[e]).early
  let s := modBkt s e (fun b => { b with early := all.filter (fun x => !canTake s e x.info) })
  (all.filter (fun x => canTake s e x.info)).foldl (fun s x => takeCome s j e x) s

/-- A COLL transfer has come whole (R315, R316): one of another step or attempt is discarded. -/
def collArrived (s : State) (src job : Nat) (info stream : List Byte) : State :=
  let s := s.count (redBase + 0x30) 64 stream.length
  match fin? 16 job with
  | none => s
  | some j =>
    let bidx := leAt info 0 2
    let sh := leAt info 2 1
    let kind := leAt info 4 1
    if !rclEn s j ∨ leAt stream 0 4 ≠ jobStep s j ∨ leAt stream 4 1 ≠ (s.rcl.jobs[j]).attempt.toNat then stale s
    else
      match bktFor s j bidx with
      | none => if kind = 3 then redEv s true 0x7007 j bidx sh (jobStep s j) (memberNo s j src) 0 (some src) else stale s
      | some e =>
        let x : Early := { src := src, info := info, stream := stream }
        if kind ≠ 1 ∧ kind ≠ 2 ∧ kind ≠ 3 then stale s
        else if canTake s e info then postDue (takeCome s j e x) j
        else modBkt s e (fun b => { b with early := b.early ++ [x] })

/-- The bytes of a shard of a contribution, its codebook record first: nothing of an empty one (R301). -/
def readContrib (s : State) (j : JobId) (h : Hand) (sh : Nat) : State × Option (List Byte) :=
  if h.empty.getLsbD sh then (s, some [])
  else
    match rclGet s j h.cbaddr 576 with
    | (s, none) => (s, none)
    | (s, some cb) =>
      match rclGet s j (h.caddr + sh * 278528) 278528 with
      | (s, none) => (s, none)
      | (s, some bs) => (s, some (cb ++ bs))

/-- A shard that has been read goes to member `t`, or is converted here. -/
def sendContrib (s : State) (j : JobId) (e : QId) (d : Decision) (empty : Bool) (sh level t : Nat) (data : List Byte) : State :=
  let me := groupSelf s j
  let p := contribParts data
  let csum := if empty then 0#64 else csumOf (contribImage p.1 p.2.1 p.2.2 d.eb).1
  let hdr := xferHeader s j 1 (bIdx s e) sh empty (d.eb - 8) 1 csum
  if (s.rcl.jobs[j]).failed then s
  else if t = me then
    if empty then inputIn s j e sh level me d { empty := true, addr := 0, ninc := 1, csum := 0#64 }
    else takeContrib s j e sh level me d none hdr p.1 p.2.1 p.2.2 csum
  else
    let (s, xid) := collStart s j (member s j t) (collInfo s j 1 (bIdx s e) sh level) (hdr ++ data)
    modBkt s e (fun b => { b with sending := b.sending ++ [(member s j t, xid)] })

/-- An included member sends a shard of its contribution to the host of the first vertex above its leaf, or converts it
where that is itself (R310, R311). -/
def contribute (s : State) (j : JobId) (e : QId) (d : Decision) (h : Hand) (sh : Nat) : State :=
  match nextAbove (dataChain s j d) 0 with
  | none => s
  | some v =>
    match readContrib s j h sh with
    | (s, none) => s
    | (s, some data) => sendContrib s j e d (h.empty.getLsbD sh) sh v.level (hostOf v (rotOf s e sh)) data

/-- The vertices of a bucket's shards that this module hosts in the included trees, with their buffers; then the owned
shards whose sum meets below the summit, for which R312 counts none. -/
def hostedVertices (s : State) (j : Nat) (e : QId) (d : Decision) : List DataVertex × List DataVertex :=
  let me := groupSelf s j
  let vs := dataChain s j d
  let mine := (List.range (bShards s e)).flatMap (fun sh =>
    (vs.reverse.filter (fun v => hostOf v (rotOf s e sh) == me)).map (fun v => (sh, v)))
  let need := if d.n ≤ 1 then 1 else 2
  let a := (List.range mine.length).map (fun i =>
    match mine[i]? with
    | some (sh, v) => ({ s := sh, need := need, level := v.level, lo := v.lo, hi := v.hi, buf := 2 * i } : DataVertex)
    | none => { s := 0, need := 0, level := 0, lo := 0, hi := 0, buf := 0 })
  let tops := match (selfChain s j).head? with
    | none => []
    | some top =>
      if vs.any (fun v => v.level == top.level) then []
      else ((List.range (bShards s e)).filter (fun sh => ownerOf s j e sh == me)).map (fun sh => (sh, top))
  let b := (List.range tops.length).map (fun i =>
    match tops[i]? with
    | some (sh, v) =>
      ({ s := sh, need := 1, level := v.level, lo := v.lo, hi := v.hi, buf := 2 * (mine.length + i) } : DataVertex)
    | none => { s := 0, need := 0, level := 0, lo := 0, hi := 0, buf := 0 })
  (a, b)

/-- The shards of a contribution that wait for memory go out or are converted; with the last one gone the hand-over guard is
drained (R302, R311). -/
def sendShards (s : State) (j : JobId) (e : QId) : State :=
  match (s.rcl.bkts[e]).hand, (s.rcl.bkts[e]).dec with
  | some h, some d =>
    let left := (s.rcl.bkts[e]).left
    if left.isEmpty ∨ !memServes s ∨ (s.rcl.jobs[j]).failed then s
    else
      let s := modBkt s e (fun b => { b with left := [] })
      let s := left.foldl (fun s sh => contribute s j e d h sh) s
      if (s.rcl.bkts[e]).sending.isEmpty ∧ !(s.rcl.jobs[j]).failed then drainHand s e else s
  | _, _ => s

/-- DECIDE has reached this member: the data phase begins (R307, R311, R312). With one included member every vertex is a
pass-through, and no receive buffer is counted. -/
def applyDecide (s : State) (j : JobId) (e : QId) (d : Decision) : State :=
  let me := groupSelf s j
  let (a, b) := hostedVertices s j e d
  let own := ((List.range (bShards s e)).filter (fun sh => ownerOf s j e sh == me)).map (fun sh => (sh, OwnSt.sum))
  let out := d.excl.contains me
  let left := if out then [] else List.range (bShards s e)
  let s := modBkt s e (fun k => { k with phase := 3, dec := some d, dv := a ++ b, own := own, left := left })
  let s := roundMark s j
  if (s.rcl.jobs[j]).failed then s
  else if fld (s.rd (bktBase e + 0x18)) 0 16 < (if d.n ≤ 1 then 0 else 2 * a.length) then bktEv s 0x7004 j e 0 me none
  else
    let s := if out && (s.rcl.bkts[e]).hand.isSome then drainHand s e else s
    postDue (takeEarly (sendShards s j e) j e) j

/-! ### Results of work records (R313, R315) -/

/-- The owner's parameters go to every other member (R315). -/
def sendParams (s : State) (j : JobId) (e : QId) (sh : Nat) : State :=
  let me := groupSelf s j
  let a := paramAddr s e (!bEpoch s e sh) sh
  match rclGet s j a (paramLen s e) with
  | (s, none) => s
  | (s, some bs) =>
    let s := modBkt s e (fun b => { b with got := setBit b.got sh })
    if (s.rcl.jobs[j]).failed then s
    else
      let hdr := xferHeader s j 3 (bIdx s e) sh false 0 0 (csumOf (wordsOf bs))
      let others := (List.range (groupG s j)).filter (· != me)
      let (s, xs) := others.foldl (fun (acc : State × List (Nat × Nat)) m =>
        let (s, xid) := collStart acc.1 j (member s j m) (collInfo s j 3 (bIdx s e) sh 0) (hdr ++ bs)
        (s, acc.2 ++ [(member s j m, xid)])) (s, [])
      modBkt s e (fun b => { b with own := b.own.map (fun x =>
        if x.1 == sh then (sh, if xs.isEmpty then .done else .send xs) else x) })

/-- The result of a work record is taken, once memory serves and its core is not away: the guard is drained, and an add's sum
or an owner's parameters go on. The fill of an entry whose record an abandoned step has freed is drained and leads to nothing
(R232, R313, R315, R323). -/
def workResult (s : State) (j : JobId) (c : CoreId) (i : Nat) : State :=
  let k := s.rcl.jobs[j]
  let cfg := s.rd (rclBase j + 0x38)
  let g := (fld cfg 36 12 + i) % 4096
  let drained (s : State) : State := wake (setGuard s c g false) c
  if !guardFilled s c g ∨ !s.domainOn 48 ∨ !rclEn s j ∨ fld cfg 48 8 ≤ i ∨ coreAway s j c ∨ !memServes s then s
  else
    match k.wq.find? (fun x => x.1 == i && x.2.core == c.val) with
    | none => if (workCores s j).contains c.val then postDue (drained s) j else s
    | some (n, w) =>
      let s := drained (s.setRclJob j { k with wq := k.wq.erase (n, w) })
      let s := match fin? 256 w.e with
        | some e =>
          match (s.rcl.bkts[e]).dec with
          | none => s
          | some d =>
            if w.opt then sendParams s j e w.s
            else
              match (s.rcl.bkts[e]).dv.find? (fun v => v.s == w.s && v.level == w.level) with
              | none => s
              | some v =>
                let ninc := v.ins.foldl (fun n x => n + x.2.ninc) 0
                onward j e w.s d 20 s w.level w.lo
                  { empty := false, addr := w.srcA, ninc := ninc, csum := csumOf (v.ins.map (fun x => x.2.csum)) } v.buf
        | none => s
      postDue s j

/-- A COLL transfer of this module has completed (R302, R318). -/
def collDone (s : State) (job dst xid : Nat) : State :=
  (jobBkts s job).foldl (fun (s : State) (e : QId) =>
    let b := s.rcl.bkts[e]
    let own := b.own.map (fun x =>
      match x.2 with
      | .send xs => (x.1, if (xs.erase (dst, xid)).isEmpty then OwnSt.done else .send (xs.erase (dst, xid)))
      | _ => x)
    let held := b.sending.contains (dst, xid)
    let rest := b.sending.erase (dst, xid)
    let s := s.setBkt e { b with own := own, sending := rest }
    if held && rest.isEmpty then drainHand s e else s) s

/-! ### The exponent round (R302, R305 to R308) -/

/-- The rotation of the exponent round (R304). -/
def expRot (s : State) (e : QId) : Nat := bIdx s e * 128

/-- A vertex of the exponent tree as it stands. -/
def expVertex (s : State) (e : QId) (level : Nat) : Option ExpVertex :=
  (s.rcl.bkts[e]).ev.find? (fun v => v.level == level)

/-- A vertex of the exponent tree replaced or added. -/
def setEv (s : State) (e : QId) (v : ExpVertex) : State :=
  modBkt s e (fun b => { b with ev := b.ev.filter (fun x => x.level != v.level) ++ [v] })

/-- The decision leaves the summit: DECIDE to the hosts of its children, or the step fails (R307). -/
def decide_ (s : State) (j : JobId) (e : QId) (top : Vtx) (emax : Int) (n : Nat) (excl : List Nat) : State :=
  let eb := max (emax + 8) (-80)
  let least := max 1 (fld (s.rd (rclBase j + 0x18)) 32 16)
  if n < least ∨ 512 < excl.length then redEv s true 0x7005 j (bIdx s e) 0 (jobStep s j) (groupSelf s j) n none
  else
    top.kids.foldl (fun s k =>
      let v : Vtx := { level := k.1, lo := k.2.1, hi := k.2.2, kids := [] }
      say s j (hostOf v (expRot s e)) 1 (sayFields s j skDecide (bIdx s e) top.level (eb - 8) n false excl.length) excl) s

/-- A vertex completes once every child has reported or been excluded: EXP goes up, or the summit decides (R305,
R307). More exclusions than a message can carry fail the step. -/
def expComplete (s : State) (j : JobId) (e : QId) (v : Vtx) : State :=
  match expVertex s e v.level with
  | none => s
  | some x =>
    if x.done ∨ x.ins.length < v.kids.length then s
    else
      let s := setEv s e { x with done := true }
      let inc := x.ins.filter (fun i => decide (0 < i.n))
      let emax := inc.foldl (fun (m : Int) i => max m i.emax) (-128)
      let n := inc.foldl (fun k i => k + i.n) 0
      let excl := ((List.range (v.hi - v.lo)).map (v.lo + ·)).filter (fun m => x.ins.any (fun i => i.excl.contains m))
      match nextAbove (selfChain s j) v.level with
      | none => decide_ s j e v emax n excl
      | some p =>
        if 512 < excl.length then redEv s true 0x7005 j (bIdx s e) 0 (jobStep s j) (groupSelf s j) n none
        else say s j (hostOf p (expRot s e)) 0
          (sayFields s j skExp (bIdx s e) v.level emax n false excl.length) excl

/-- The first arrival at a vertex starts it: PENDING goes to the host of its parent (R305). -/
def expStart (s : State) (j : JobId) (e : QId) (v : Vtx) : State :=
  if (expVertex s e v.level).isSome then s
  else
    let s := setEv s e { level := v.level, lo := v.lo, hi := v.hi }
    match nextAbove (selfChain s j) v.level with
    | none => s
    | some p => say s j (hostOf p (expRot s e)) 0 (sayFields s j skPending (bIdx s e) v.level 0 0 false 0) []

/-- The vertex of this module that a message from a device's vertex at `level` concerns, with the child it comes from:
members of the child. None where the module does not host it. -/
def parentOf (s : State) (j : JobId) (e : QId) (src level : Nat) : Option (Vtx × Nat × Nat) :=
  let ms := membersOf s j
  match memberIx ms src with
  | none => none
  | some i =>
    match nextAbove (chain ms i) level with
    | none => none
    | some p =>
      if hostOf p (expRot s e) ≠ groupSelf s j then none
      else ((p.kids.find? (fun k => holds k.2 i)).map (fun k => (p, k.2.1, k.2.2)))

/-- The excluded members that a message names (R317). -/
def syncExcl (p : Pkt) : List Nat := (List.range (pByte p 25 2)).map (fun i => leAt p.data (2 * i) 2)

/-- Whether a message belongs to the step and attempt in progress (R316). -/
def syncFresh (s : State) (j : JobId) (p : Pkt) : Bool :=
  rclEn s j && pByte p 16 4 == jobStep s j && pByte p 13 1 == (s.rcl.jobs[j]).attempt.toNat

/-- EXP reaches the host of a vertex (R305, R306). -/
def expIn (s : State) (j : JobId) (p : Pkt) : State :=
  if !syncFresh s j p then stale s
  else
    match bktFor s j (pByte p 14 2) with
    | none => stale s
    | some e =>
      match parentOf s j e (pSrc p) (pByte p 20 1) with
      | none => stale s
      | some (v, lo, hi) =>
        let s := expStart s j e v
        match expVertex s e v.level with
        | none => s
        | some x =>
          if x.done ∨ x.ins.any (fun i => i.lo == lo) then stale s
          else
            let all := (List.range (hi - lo)).map (lo + ·)
            let invalid := (pByte p 24 1).testBit 0
            let i : ExpIn :=
              if invalid then { lo := lo, hi := hi, emax := -128, n := 0, excl := all }
              else { lo := lo, hi := hi, emax := sext 8 (pByte p 21 1), n := pByte p 22 2, excl := syncExcl p }
            let s := setEv s e { x with ins := x.ins ++ [i] }
            let s := if invalid then bktEv s 0x7001 j e 0 lo (some (member s j lo)) else s
            expComplete s j e v

/-- PENDING marks a child as awaited without limit (R305, R306). -/
def pendingIn (s : State) (j : JobId) (p : Pkt) : State :=
  if !syncFresh s j p then stale s
  else
    match bktFor s j (pByte p 14 2) with
    | none => stale s
    | some e =>
      match parentOf s j e (pSrc p) (pByte p 20 1) with
      | none => stale s
      | some (v, lo, _) =>
        let s := expStart s j e v
        match expVertex s e v.level with
        | none => s
        | some x => if x.done ∨ x.ins.any (fun i => i.lo == lo) then stale s else setEv s e { x with pend := x.pend ++ [lo] }

/-- The deadline of a vertex expires: children that have sent neither EXP nor PENDING are excluded with all their
members (R306). -/
def deadline (s : State) (e : QId) (level : Nat) : State :=
  match fin? 16 (bJob s e) with
  | none => s
  | some j =>
    match vtxAt (selfChain s j) level, expVertex s e level with
    | some v, some x =>
      if fld (s.rd (rclBase j + 0x28)) 0 32 = 0 ∨ x.done ∨ !rclEn s j then s
      else
        let silent := v.kids.filter (fun k => !x.ins.any (fun i => i.lo == k.2.1) && !x.pend.contains k.2.1)
        let outs := silent.map (fun k => ({ lo := k.2.1, hi := k.2.2, emax := -128, n := 0,
                                            excl := (List.range (k.2.2 - k.2.1)).map (k.2.1 + ·) } : ExpIn))
        let s := setEv s e { x with ins := x.ins ++ outs }
        let s := (outs.flatMap (·.excl)).foldl (fun s m =>
          bktEv (s.count (redBase + 0x18) 32 1) 0x7000 j e 0 m (some (member s j m))) s
        expComplete s j e v
    | _, _ => s

/-- DECIDE reaches the host of a vertex's child, which forwards it, or the member itself (R307). -/
def decideIn (s : State) (j : JobId) (p : Pkt) : State :=
  if !syncFresh s j p then stale s
  else
    match bktFor s j (pByte p 14 2) with
    | none => stale s
    | some e =>
      let ms := membersOf s j
      let me := groupSelf s j
      let above := (memberIx ms (pSrc p)).bind (fun i => vtxAt (chain ms i) (pByte p 20 1))
      match above.bind (fun v => v.kids.find? (fun k => holds k.2 me)) with
      | none => stale s
      | some k =>
        if k.1 = 0 then
          if (s.rcl.bkts[e]).dec.isSome then stale s
          else applyDecide s j e { n := pByte p 22 2, eb := sext 8 (pByte p 21 1) + 8, excl := syncExcl p }
        else
          match vtxAt (selfChain s j) k.1 with
          | none => s
          | some v =>
            v.kids.foldl (fun s q =>
              let w : Vtx := { level := q.1, lo := q.2.1, hi := q.2.2, kids := [] }
              say s j (hostOf w (expRot s e)) 1 (sayFields s j skDecide (bIdx s e) v.level (sext 8 (pByte p 21 1))
                (pByte p 22 2) false (pByte p 25 2)) (syncExcl p)) s

/-! ### The hand-over (R302) -/

/-- Whether a hand-over record and its codebook are good. -/
def handOk (s : State) (j : JobId) (e : QId) (r cb : List Byte) : Bool :=
  leAt r 0 4 == jobStep s j && leAt r 4 2 == bIdx s e && leAt r 6 2 == 0 && leAt r 48 16 == 0 &&
    leAt r 8 8 % 4096 == 0 && leAt cb 0 1 == 2 &&
    (List.range 256).all (fun i =>
      let l := sext 16 (leAt cb (64 + 2 * i) 2)
      decide (-255 ≤ l) && decide (l ≤ 255))

/-- Whether a counter set that quantised a contribution met a non-finite input (R113, R302). -/
def handInvalid (s : State) (r : List Byte) : Bool :=
  (List.range 48).any (fun c => (leAt r 24 6).testBit c &&
    (List.range 16).any (fun i => (leAt r 30 2).testBit i && bit (s.rd (coreBase c + 0x3010)) (32 + i)))

/-- The largest E8 of some exponent entries whose ZERO is clear, at least `m`. -/
def entsMax (m : Int) (ents : List Byte) : Int :=
  (chunks 2 8192 ents).foldl (fun (m : Int) b => if (leNat b).testBit 13 then m else max m (entE (leNat b))) m

/-- EMAX of a contribution over its shards that are not empty; none where module memory fails, and the step with it. -/
def handEmax (s : State) (j : JobId) (e : QId) (caddr : Nat) (empty : BitVec 128) : State × Option Int :=
  (List.range (bShards s e)).foldl (fun (acc : State × Option Int) sh =>
    match acc with
    | (s, none) => (s, none)
    | (s, some m) =>
      if empty.getLsbD sh then (s, some m)
      else
        match rclGet s j (caddr + sh * 278528 + 262144) 16384 with
        | (s, none) => (s, none)
        | (s, some ents) => (s, some (entsMax m ents))) (s, some (-128))

/-- The filled hand-over guard of a bucket is taken, once memory serves and its core is not away: the record is read and checked,
and EXP leaves for the leaf; one that comes after this member's exclusion is drained at once (R232, R302, R305, R308). -/
def handover (s : State) (e : QId) : State :=
  match fin? 16 (bJob s e), fin? 48 (bCore s e) with
  | some j, some c =>
    let b := s.rcl.bkts[e]
    if !bValid s e ∨ !rclEn s j ∨ !s.domainOn 48 ∨ b.accepted ∨ !guardFilled s c (bGuard s e) ∨ coreAway s j c ∨
        (s.rcl.jobs[j]).drains.contains (c, bGuard s e) ∨ !memServes s then s
    else
      let s := modBkt s e (fun b => { b with accepted := true })
      let me := groupSelf s j
      if b.dec.any (fun d => d.excl.contains me) then
        bktEv (drainHand s e) 0x700C j e 0 me none
      else
        let (s, r) := spReadAny s c (some j.val) (s.rd (bktBase e + 8)).toNat 64
        match rclGet s j (leAt r 16 8) 576 with
        | (s, none) => s
        | (s, some cb) =>
        if !handOk s j e r cb then bktEv s 0x7003 j e 0 me none
        else
          let empty := BitVec.ofNat 128 (leAt r 32 16)
          let invalid := handInvalid s r
          match handEmax s j e (leAt r 8 8) empty with
          | (s, none) => s
          | (s, some emax) =>
          let h : Hand := { caddr := leAt r 8 8, cbaddr := leAt r 16 8, empty := empty, invalid := invalid, emax := emax }
          let s := modBkt s e (fun b => { b with hand := some h, phase := 2 })
          let s := roundBegin s j
          match nextAbove (selfChain s j) 0 with
          | none => s
          | some p => say s j (hostOf p (expRot s e)) 0 (sayFields s j skExp (bIdx s e) 0 emax 1 invalid 0) []
  | _, _ => s

end Sys2Proof.Machine
end

