-- ==== Sys2Proof/Machine/Commit.lean ====
section
/-!
DEFINITION. The reduction and commit logic, its commit side: READY (R318, R319), the summit (R320), COMMIT and ABANDON
(R321, R323), cairns (R325, R326), and the job and bucket registers (R328, R329).
-/

namespace Sys2Proof.Machine

/-! ### Racks and BELAY_N (R319) -/

/-- The rack of a member. -/
def rackOf (s : State) (j m : Nat) : Nat := member s j m / 64
/-- The members of a job in the rack of this module. -/
def rackMates (s : State) (j : Nat) : List Nat :=
  (List.range (groupG s j)).filter (fun m => rackOf s j m == rackOf s j (groupSelf s j))
/-- Whether this module is the leader of its rack: its member of the lowest index. -/
def rackLeader (s : State) (j : Nat) : Bool := (rackMates s j).head? == some (groupSelf s j)
/-- BELAY_EN of a job. -/
def belayEn (s : State) (j : Nat) : Bool := bit (s.rd (rclBase j)) 1

/-- BELAY_N is driven low while a job with BELAY_EN has not become READY (R319). -/
def belayPin (s : State) : State :=
  { s with pins := { s.pins with belayLow := (allFin 16).any (fun j =>
      rclEn s j && belayEn s j && (s.rcl.jobs[j]).phase != 2) } }

/-! ### READY (R318) -/

/-- Whether a bucket is through: every inactive half written, every owned shard distributed, the hand-over taken. -/
def bktReady (s : State) (e : QId) : Bool :=
  let b := s.rcl.bkts[e]
  (List.range (bShards s e)).all (fun sh => b.got.getLsbD sh) && b.own.all (fun x => x.2 == .done) && b.accepted

/-- READY goes to the summit, counting `n` members. -/
def sendReady (s : State) (j : JobId) (n : Nat) : State :=
  let s := s.setRclJob j { s.rcl.jobs[j] with readySent := true }
  say (readyMark s j) j 0 0 (sayFields s j skReady 0 0 0 n false 0) []

/-- The member becomes READY: it sends READY, or releases BELAY_N where belay covers it (R318, R319). A member whose leader
sends READY for it counts as having sent READY from then on; the leader once it has sent it. -/
def readyReached (s : State) (j : JobId) : State :=
  let k := s.rcl.jobs[j]
  if !rclEn s j ∨ k.phase ≠ 1 ∨ k.failed ∨ !s.domainOn 48 ∨ !(jobBkts s j).all (bktReady s) then s
  else
    let s := s.setRclJob j { k with phase := 2 }
    if belayEn s j then
      belayPin (s.setRclJob j { s.rcl.jobs[j] with belayDue := rackLeader s j, readySent := !rackLeader s j })
    else sendReady s j 1

/-- BELAY_N has read high for four SCLK cycles: the rack leader sends READY for its rack (R319). -/
def belayRelease (s : State) (j : JobId) : State :=
  let k := s.rcl.jobs[j]
  if !k.belayDue ∨ k.phase ≠ 2 ∨ k.failed ∨ s.pins.belayLow then s
  else sendReady (s.setRclJob j { k with belayDue := false }) j (rackMates s j).length

/-! ### The summit (R320) -/

/-- COMMIT or ABANDON goes to every rack leader of the member table. -/
def sendOutcome (s : State) (j : JobId) (kind : Nat) : State :=
  let ms := List.range (groupG s j)
  let leaders := ms.filter (fun m => (ms.find? (fun i => rackOf s j i == rackOf s j m)) == some m)
  leaders.foldl (fun s m => say s j m 1 (sayFields s j kind 0 0 0 0 false 0) []) s

/-- The summit abandons the step. -/
def abandonNow (s : State) (j : JobId) : State :=
  sendOutcome (s.setRclJob j { s.rcl.jobs[j] with decided := true, phase := 3 }) j skAbandon

/-- READY reaches the summit (R320). -/
def readyIn (s : State) (j : JobId) (p : Pkt) : State :=
  let k := s.rcl.jobs[j]
  if !syncFresh s j p ∨ groupSelf s j ≠ 0 ∨ k.decided then stale s
  else
    let n := satAdd 16 k.readyCnt (pByte p 22 2)
    let s := s.setRclJob j { k with readyCnt := n, firstReady := true }
    if groupG s j ≤ n then sendOutcome (s.setRclJob j { s.rcl.jobs[j] with decided := true }) j skCommit else s

/-- FAIL reaches the summit, which abandons the step (R320). -/
def failIn (s : State) (j : JobId) (p : Pkt) : State :=
  if !syncFresh s j p ∨ groupSelf s j ≠ 0 ∨ (s.rcl.jobs[j]).decided then stale s else abandonNow s j

/-- COMMIT_TIMEOUT has passed since the first READY (R320). -/
def commitTimeout (s : State) (j : JobId) : State :=
  let k := s.rcl.jobs[j]
  if !rclEn s j ∨ groupSelf s j ≠ 0 ∨ !k.firstReady ∨ k.decided then s
  else abandonNow (redEv s false 0x700A j 0 0 (jobStep s j) (groupSelf s j) 0 none) j

/-- A READY member has waited past COMMIT_TIMEOUT, and reports it once (R320). -/
def commitWait (s : State) (j : JobId) : State :=
  let k := s.rcl.jobs[j]
  if !k.readySent ∨ k.phase ≠ 2 ∨ k.waited then s
  else redEv (s.setRclJob j { k with waited := true }) false 0x700B j 0 0 (jobStep s j) (groupSelf s j) 0 none

/-! ### Cairns (R325, R326) -/

/-- CAIRN_STAT of a job. -/
def cairnStat (j : JobId) : Nat := rclBase j + 0x58

/-- The owned shards of a job, in ascending BIDX and then shard. -/
def ownedShards (s : State) (j : Nat) : List (QId × Nat) :=
  let es := (List.range 65536).filterMap (fun i => if (jobBkts s j).any (fun e => bIdx s e == i) then bktFor s j i else none)
  es.flatMap (fun e =>
    ((List.range (bShards s e)).filter (fun sh => ownerOf s j e sh == groupSelf s j)).map (fun sh => (e, sh)))

/-- The bytes of an optimiser-state half in the tier or in module memory, with the failure code of the read; `err` is how
a read of the tier goes wrong, if it does (R263). No step fails because of a cairn: an error has its record and no job
(R326). -/
def stateBytes (s : State) (a n : Nat) (err : Option CxlErr) : State × List Byte × Nat :=
  match (match placeLocal s a n with
    | .tier t => tierDo s none t n none err
    | .gddr x => gddrDo s none x n none
    | _ => (s, .fail 1)) with
  | (s, .ok bs) => (s, bs, 0)
  | (s, .fail k) => (s, List.replicate n 0#8, k)
  | (s, .wait) => (s, List.replicate n 0#8, 6)

/-- Whether a half that lies in module memory has to wait for a controller (R250, R255). -/
def halfWaits (s : State) (a n : Nat) : Bool :=
  match placeLocal s a n with
  | .gddr x => gddrServe s x n == .wait
  | _ => false

/-- Whether a half lies in the tier. -/
def halfTier (s : State) (a n : Nat) : Bool :=
  match placeLocal s a n with
  | .tier _ => true
  | _ => false

/-- The record of a shard in a cairn, with the checksum of its data. -/
def cairnRecord (bidx sh len : Nat) (d : List Byte) : List Byte × W64 :=
  let c := csumOf (wordsOf d)
  (padTo 64 (leBytes 2 bidx ++ leBytes 1 sh ++ [0#8] ++ leBytes 4 len ++ leBytes 8 c.toNat) ++ d, c)

/-- What has been read of a cairn: the state, the records with their checksums, the first failure, and how the next read of
the tier goes wrong. -/
structure CairnRead where
  st : State
  recs : List (List Byte × W64) := []
  fail : Nat := 0
  err : Option CxlErr

/-- One half of a cairn is read. -/
def cairnHalf (r : CairnRead) (x : Nat × Nat × Nat × Nat) : CairnRead :=
  match stateBytes r.st x.2.2.1 x.2.2.2 r.err with
  | (s, d, k) =>
    { st := s, recs := r.recs ++ [cairnRecord x.1 x.2.1 x.2.2.2 d], fail := if r.fail = 0 then k else r.fail,
      err := if halfTier r.st x.2.2.1 x.2.2.2 then none else r.err }

/-- The bytes of a cairn with its final header, from its records (R325). -/
def cairnImage (s : State) (j : JobId) (step : Nat) (rs : List (List Byte × W64)) : List Byte :=
  let body := rs.flatMap (·.1)
  padTo 4096 (leBytes 4 step ++ leBytes 2 (groupG s j - 1) ++ leBytes 2 (groupSelf s j) ++ leBytes 4 rs.length ++
    leBytes 4 0 ++ leBytes 8 body.length ++ leBytes 8 (csumOf (rs.map (·.2))).toNat ++ [1#8]) ++ body

/-- A cairn's image with VALID 0. -/
def notValid (img : List Byte) : List Byte := listSet img 32 0#8

/-- Pieces of 1 KiB of a cairn's image, without the final header. -/
def cairnPieces (c : Cairn) : Nat := (c.bytes.length + 1023) / 1024

/-- The place in the image and the bytes of piece `i` of the buddy copy: the image with VALID 0, then the final header
(R325, R326). -/
def cairnPiece (c : Cairn) (i : Nat) : Nat × List Byte :=
  let n := cairnPieces c
  if i < n then (1024 * i, ((notValid c.bytes).drop (1024 * i)).take 1024)
  else (1024 * (i - n), (c.bytes.drop (1024 * (i - n))).take 1024)

/-- The buddy copy goes on while tags are free; the final header waits until everything before it is acknowledged and the
records of the module's own copy are written. -/
def cairnPump (j : JobId) : Nat → State → State
  | 0, s => s
  | fuel + 1, s =>
    let k := s.rcl.jobs[j]
    match k.cairn with
    | none => s
    | some c =>
      let n := cairnPieces c
      if !c.copy ∨ c.stage = 0 ∨ c.fail ≠ 0 ∨ n + 4 ≤ c.sent ∨ (c.sent = n ∧ (!c.buddy.isEmpty ∨ c.stage < 2)) then s
      else
        let (off, bs) := cairnPiece c c.sent
        let dev := fld (s.rd (rclBase j + 0x40)) 2 15
        match peerSend s 0 j dev ((s.rd (rclBase j + 0x50)).toNat + off) (some bs) 0 (.cairn j) with
        | (s, none) => s
        | (s, some (_, false)) => s.setRclJob j { s.rcl.jobs[j] with cairn := some { c with fail := 8 } }
        | (s, some (tag, true)) =>
          cairnPump j fuel (s.setRclJob j { s.rcl.jobs[j] with
            cairn := some { c with sent := c.sent + 1, buddy := c.buddy ++ [tag] } })

/-- Cairns of every job go on. -/
def cairnsGo (s : State) : State := (allFin 16).foldl (fun (s : State) (j : JobId) => cairnPump j 4352 s) s

/-- Bytes of a cairn are written to its place in the tier, with the failure code (R263, R325). -/
def cairnPut (s : State) (a size : Nat) (bs : List Byte) (err : Option CxlErr) : State × Nat :=
  match placeLocal s a size with
  | .tier t =>
    match tierDo s none t bs.length (some bs) err with
    | (s, .fail k) => (s, k)
    | (s, _) => (s, 0)
  | _ => (s, 1)

/-- A commit that finds REQ set and no cairn in progress begins one, of the halves that are active now (R325). -/
def cairnStart (s : State) (j : JobId) (step : Nat) : State :=
  let cfg := s.rd (rclBase j + 0x40)
  if !bit cfg 0 ∨ (s.rcl.jobs[j]).cairn.isSome then s
  else
    let s := s.wr (rclBase j + 0x40) (clrBit cfg 0)
    let s := s.wr (cairnStat j) (setBit (s.rd (cairnStat j)) 0)
    let spans := (ownedShards s j).map (fun x => (bIdx s x.1, x.2, optAddr s x.1 (bEpoch s x.1 x.2) x.2, optLen s x.1))
    s.setRclJob j { s.rcl.jobs[j] with cairn := some { step := step, copy := bit cfg 1, spans := spans } }

/-- A cairn reads the halves and writes its header with VALID 0; then its buddy copy begins (R325, R326). `err` is how the
first access to the tier goes wrong. It waits for a controller that does not serve. -/
def cairnBegin (s : State) (j : JobId) (c : Cairn) (err : Option CxlErr) : State :=
  if c.spans.any (fun x => halfWaits s x.2.2.1 x.2.2.2) then s
  else
    let r := c.spans.foldl cairnHalf { st := s, err := err }
    let img := cairnImage s j c.step r.recs
    let (s, k) := cairnPut r.st (s.rd (rclBase j + 0x48)).toNat img.length (notValid (img.take 4096)) r.err
    cairnPump j 4352 (s.setRclJob j { s.rcl.jobs[j] with
      cairn := some { c with stage := 1, bytes := img, fail := if r.fail = 0 then k else r.fail } })

/-- Of a cairn that failed, the records that were written all the same: the spec leaves open which (R326). -/
def cairnStray (s : State) (t : Nat) (c : Cairn) : State :=
  let (k, s) := s.fresh
  let bs := c.bytes.drop 4096
  { s with tier := (List.range bs.length).foldl (fun m i =>
      if Config.dmaWritten k i then Memory.set m (t + 4096 + i) (getD bs i 0#8) else m) s.tier }

/-- A cairn that failed stops: CAIRN_FAIL with the failure code, and VALID stays 0 (R326). -/
def cairnFailed (s : State) (j : JobId) (c : Cairn) (code : Nat) : State :=
  let stat := cairnStat j
  let s := s.wr stat (clrBit (clrBit (s.rd stat) 0) 1)
  let s := match placeLocal s (s.rd (rclBase j + 0x48)).toNat c.bytes.length with
    | .tier t => cairnStray s t c
    | _ => s
  postDue (redEv (s.setRclJob j { s.rcl.jobs[j] with cairn := none }) false 0x700E j 0 0 c.step code 0 none) j

/-- A cairn is complete: its STEP is recorded, with CAIRN_DONE (R326). -/
def cairnDone (s : State) (j : JobId) (c : Cairn) : State :=
  let s := s.wr (cairnStat j) (BitVec.ofNat 64 (2 + c.step * 2 ^ 32))
  postDue (redEv (s.setRclJob j { s.rcl.jobs[j] with cairn := none }) false 0x700D j 0 0 c.step (groupSelf s j) 0 none) j

/-- A cairn goes on with its next part, or ends (R325, R326): the halves are read; the module's own copy is written, with
VALID 1 where there is no other copy; the buddy's final header goes out once everything before it has been acknowledged, and with its
acknowledgement the module's own. `err` is how the tier fails, if it does. -/
def cairnComplete (s : State) (j : JobId) (err : Option CxlErr) : State :=
  match (s.rcl.jobs[j]).cairn with
  | none => s
  | some c =>
    let a := (s.rd (rclBase j + 0x48)).toNat
    if c.fail ≠ 0 then cairnFailed s j c c.fail
    else if c.stage = 0 then cairnBegin s j c err
    else if err = none ∧ c.copy ∧ (!c.buddy.isEmpty ∨ c.sent < cairnPieces c + (if c.stage = 1 then 0 else 4)) then s
    else if c.copy ∧ c.stage = 1 then
      match cairnPut s a c.bytes.length (notValid c.bytes) err with
      | (s, 0) => cairnPump j 4352 (s.setRclJob j { s.rcl.jobs[j] with cairn := some { c with stage := 2 } })
      | (s, k) => cairnFailed s j c k
    else
      match cairnPut s a c.bytes.length (if c.copy then c.bytes.take 4096 else c.bytes) err with
      | (s, 0) => cairnDone s j c
      | (s, k) => cairnFailed s j c k

/-! ### The outcome (R321, R323) -/

/-- The records that wait for their core are written in order, each with its SIGNAL, as far as the cores are not away (R232,
R321). -/
def postNotes (s : State) (j : JobId) : State :=
  let ws := (s.rcl.jobs[j]).notes
  let s := s.setRclJob j { s.rcl.jobs[j] with notes := [] }
  ws.foldl (fun (s : State) n =>
    if !(s.rcl.jobs[j]).notes.isEmpty || coreAway s j n.core then
      s.setRclJob j { s.rcl.jobs[j] with notes := (s.rcl.jobs[j]).notes ++ [n] }
    else rclSignal (spWriteAny s n.core (some j.val) n.off n.bytes) j n.core n.sem) s

/-- The record at NOTIFY_OFS and its SIGNAL. -/
def notifyStep (s : State) (j : JobId) (kind step attempt next : Nat) : State :=
  let n := s.rd (rclBase j + 0x30)
  let r := padTo 64 (leBytes 4 step ++ leBytes 1 kind ++ leBytes 1 attempt ++ leBytes 2 0 ++ leBytes 4 next)
  match fin? 48 (fld n 0 6) with
  | none => rclSignal s j (fld n 0 6) (fld n 6 6)
  | some c =>
    postNotes (s.setRclJob j { s.rcl.jobs[j] with
      notes := (s.rcl.jobs[j]).notes ++ [{ core := c, off := (64 * fld n 12 18) % spSize, bytes := r, sem := fld n 6 6 }] }) j

/-- The EPOCH bits of a bucket's shards are inverted. -/
def flipEpoch (s : State) (e : QId) : State :=
  let m := 2 ^ bShards s e - 1
  let b := bktBase e
  let s := s.wr (b + 0x50) (s.rd (b + 0x50) ^^^ BitVec.ofNat 64 (m % 2 ^ 64))
  s.wr (b + 0x58) (s.rd (b + 0x58) ^^^ BitVec.ofNat 64 (m / 2 ^ 64))

/-- Every bucket of a job begins anew. -/
def freshBkts (s : State) (j : Nat) (phase : Nat) : State :=
  (jobBkts s j).foldl (fun (s : State) (e : QId) => s.setBkt e { phase := phase }) s

/-- What a failure noted after READY does once the outcome is applied: it fails the next step (R322). -/
def lateFail (s : State) (j : JobId) (late : Bool) : State := if late then s.failStep (some j.val) else s

/-- The job's next step or attempt begins: nothing of the one before is left but its places in the rings of work records,
what waits for cores that are away, and its cairn (R321, R323). -/
def nextStep (s : State) (j : JobId) (attempt : BitVec 8) : State :=
  let k := s.rcl.jobs[j]
  s.setRclJob j { phase := 1, attempt := attempt, wqNext := k.wqNext, sigs := k.sigs, drains := k.drains, notes := k.notes,
                  cairn := k.cairn }

/-- A COMMIT is applied (R321). -/
def applyCommit (s : State) (j : JobId) : State :=
  let step := jobStep s j
  let k := s.rcl.jobs[j]
  let attempt := k.attempt.toNat
  let s := (jobBkts s j).foldl flipEpoch s
  let next := (step + 1) % 2 ^ 32
  let s := s.wr (rclBase j + 0x10) (BitVec.ofNat 64 next)
  let s := freshBkts s j 1
  let s := nextStep s j 0#8
  let s := notifyStep (stepEnd s j) j 1 step attempt next
  let s := redEv s false 0x7008 j 0 0 step (groupSelf s j) 0 none
  let s := cairnStart (telAuto s j 1 step attempt) j step
  lateFail (belayPin s) j k.failLater

/-- The hand-over guards that an abandoned step still held are drained. -/
def dropHands (s : State) (j : Nat) : State :=
  (jobBkts s j).foldl (fun (s : State) (e : QId) =>
    let b := s.rcl.bkts[e]
    if b.accepted && !b.released then drainHand s e else s) s

/-- The posted work records of an abandoned step are freed, with the fills that nobody has taken yet (R323). -/
def freeWork (s : State) (j : JobId) : State :=
  let g0 := fld (s.rd (rclBase j + 0x38)) 36 12
  (s.rcl.jobs[j]).wq.foldl (fun s x =>
    match fin? 48 x.2.core with
    | none => s
    | some c => drainGuard s j c ((g0 + x.1) % 4096)) s

/-- An ABANDON is applied (R323): what the ended attempt still wanted to send is given up. -/
def applyAbandon (s : State) (j : JobId) : State :=
  let step := jobStep s j
  let k := s.rcl.jobs[j]
  let attempt := (k.attempt + 1).toNat
  let s := freshBkts (dropHands s j) j 1
  let s := { s with net := { s.net with collPend := s.net.collPend.filter (fun c => c.job != j.val) } }
  let s := nextStep (freeWork s j) j (k.attempt + 1)
  let s := notifyStep (stepEnd s j) j 2 step attempt step
  let s := redEv s false 0x7009 j 0 0 step (groupSelf s j) 0 none
  lateFail (belayPin (telAuto s j 2 step attempt)) j k.failLater

/-- COMMIT or ABANDON reaches a member: a rack leader forwards it to the other members of its rack, and it is applied
(R320, R321, R323). -/
def outcomeIn (s : State) (j : JobId) (p : Pkt) (commit : Bool) : State :=
  if !syncFresh s j p then stale s
  else
    let kind := if commit then skCommit else skAbandon
    let s := if rackLeader s j then
        ((rackMates s j).filter (· != groupSelf s j)).foldl (fun s m =>
          say s j m 1 (sayFields s j kind 0 0 0 0 false 0) []) s
      else s
    if commit then applyCommit s j else applyAbandon s j

/-! ### Job and bucket registers (R328, R329) -/

/-- The member table of a job is read as EN is set, behind the writes to it that controllers hold; a read that fails fails the
step (R299, R379). -/
def groupRead (s : State) (j : JobId) : State :=
  let a := (s.rd (rclBase j + 0x20)).toNat
  let n := 2 * groupG s j
  let (s, good) :=
    if gddrTop s < a + n then (s, false)
    else
      match gddrReady s a n with
      | .fail => (trainFailed s a (some j.val), true)
      | _ =>
        match gddrRead s (some j.val) a n with
        | (s, _, _) => (s, true)
  let bs := gddrLater s a n
  let s := { s with rcl := { s.rcl with
    groups := s.rcl.groups.set j ((List.range (groupG s j)).map (fun i => leAt bs (2 * i) 2 % 32768)) } }
  if good then s else s.failStep (some j.val)

/-- EN of a job is written (R328): the member table is read and its buckets await hand-overs, or the logic stops serving it. -/
def jobEn (s : State) (j : JobId) (on : Bool) : State :=
  let a := rclBase j
  if rclEn s j = on then s
  else
    let s := s.wr a (putBit (s.rd a) 0 on)
    let c := (s.rcl.jobs[j]).cairn
    let s := s.setRclJob j (if on then { phase := 1, cairn := c } else { cairn := c })
    let s := freshBkts s j (if on then 1 else 0)
    belayPin (if on then groupRead (stepBegin s j) j else s)

/-- BELAY_EN of a job is written (R319). -/
def jobBelay (s : State) (j : JobId) (on : Bool) : State :=
  let a := rclBase j
  belayPin (s.wr a (putBit (s.rd a) 1 on))

/-- JOB_CTRL is written (R328). -/
def jobCtrlWrite (s : State) (j : JobId) (v : W64) : State :=
  let s := jobEn (jobBelay s j (bit v 1)) j (bit v 0)
  if bit v 2 then s.failStep (some j.val) else s

/-- A write of GRP_CFG, GRP_TABLE, JOB_STEP or WQ_CFG, taken only while EN is 0 (R328). -/
def rclCfgWrite (s : State) (j : JobId) (off : Nat) (v : W64) : State :=
  if rclEn s j then redEv s false 0x7007 j 0 0 (jobStep s j) (groupSelf s j) 0 none
  else s.wr (rclBase j + off) (v &&& (regSpec (rclBase j + off)).rw)

/-- A write of a bucket entry, taken only while the EN of the job it names is 0 (R329). -/
def bktWrite (s : State) (e : QId) (off : Nat) (v : W64) : State :=
  match fin? 16 (bJob s e) with
  | none => s
  | some j =>
    if rclEn s j then redEv s false 0x7007 j (bIdx s e) 0 (jobStep s j) (groupSelf s j) 0 none
    else s.wr (bktBase e + off) (v &&& (regSpec (bktBase e + off)).rw)

/-- What the logic holds back for a job is tried again: guards to drain, records to write, transfers to take, shards to send
and work records to post (R232, R250). -/
def rclRetry (s : State) (j : JobId) : State :=
  let ds := (s.rcl.jobs[j]).drains
  let s := s.setRclJob j { s.rcl.jobs[j] with drains := [] }
  let s := postNotes (ds.foldl (fun s x => drainGuard s j x.1 x.2) s) j
  postDue ((jobBkts s j).foldl (fun s e => takeEarly (sendShards s j e) j e) s) j

/-- The signals that the logic holds for a job are sent again (R54). -/
def retrySigs (s : State) (j : JobId) : State :=
  let l := (s.rcl.jobs[j]).sigs
  l.foldl (fun s x => rclSignal s j x.1 x.2) (s.setRclJob j { s.rcl.jobs[j] with sigs := [] })

/-! ### The commands -/

/-- HANDOVER_ACCEPT (R302). -/
def execHandoverAccept (e : QId) (us : List Upset) (s : State) : Out := .next (handover (strike s us) e)
/-- DEADLINE_EXPIRY of the vertex of a level of a bucket (R306). -/
def execDeadlineExpiry (e : QId) (level : Fin 16) (s : State) : Out := .next (s.live (deadline s e level))
/-- RCL_WORK_RESULT of entry `i` of a core's ring (R313). -/
def execRclWorkResult (j : JobId) (c : CoreId) (i : Nat) (us : List Upset) (s : State) : Out :=
  .next (workResult (strike s us) j c i)
/-- RCL_READY_REACHED (R318). -/
def execRclReadyReached (j : JobId) (s : State) : Out := .next (s.live (readyReached s j))
/-- BELAY_RELEASE (R319). -/
def execBelayRelease (j : JobId) (s : State) : Out := .next (s.live (belayRelease s j))
/-- COMMIT_TIMEOUT_EXPIRY (R320). -/
def execCommitTimeoutExpiry (j : JobId) (s : State) : Out := .next (s.live (commitTimeout s j))
/-- COMMIT_WAIT_EXPIRY (R320). -/
def execCommitWaitExpiry (j : JobId) (s : State) : Out := .next (s.live (commitWait s j))
/-- CAIRN_COMPLETE (R326). -/
def execCairnComplete (j : JobId) (err : Option CxlErr) (s : State) : Out := .next (s.live (cairnComplete s j err))
/-- JOB_EN (R328). -/
def execJobEn (j : JobId) (on : Bool) (s : State) : Out := .next (s.ifOn 48 (jobEn s j on))
/-- JOB_BELAY_EN (R319). -/
def execJobBelayEn (j : JobId) (on : Bool) (s : State) : Out := .next (s.ifOn 48 (jobBelay s j on))
/-- JOB_FAIL (R322). -/
def execJobFail (j : JobId) (s : State) : Out := .next (s.ifOn 48 (s.failStep (some j.val)))

/-- HELD_SIGNAL_RETRY (R54); the logic also tries again what it holds back for cores that are away and for memory (R232). -/
def execHeldSignalRetry (h : Holder) (s : State) : Out :=
  .next (s.live (match h with
    | .core c => wake (retryHeld c 16 s) c
    | .queue q => retryNotify s q
    | .rcl j => rclRetry (retrySigs s j) j))

end Sys2Proof.Machine
end

