-- ==== Sys2Proof/Machine/Crypto.lean ====
section
/-!
DEFINITION. SHA-256 and the verification of ECDSA signatures on P-256, which R411, R416, R417 and R418 name by their
standards: the algorithms are those of FIPS 180-4 and FIPS 186-4 (PRESUMED, from outside the spec, log entry 64).
-/

namespace Sys2Proof.Machine

/-! ### SHA-256 -/

/-- The first half of the round constants of SHA-256. -/
def shaK1 : List (BitVec 32) := [
  0x428a2f98#32, 0x71374491#32, 0xb5c0fbcf#32, 0xe9b5dba5#32, 0x3956c25b#32, 0x59f111f1#32, 0x923f82a4#32, 0xab1c5ed5#32,
  0xd807aa98#32, 0x12835b01#32, 0x243185be#32, 0x550c7dc3#32, 0x72be5d74#32, 0x80deb1fe#32, 0x9bdc06a7#32, 0xc19bf174#32,
  0xe49b69c1#32, 0xefbe4786#32, 0x0fc19dc6#32, 0x240ca1cc#32, 0x2de92c6f#32, 0x4a7484aa#32, 0x5cb0a9dc#32, 0x76f988da#32,
  0x983e5152#32, 0xa831c66d#32, 0xb00327c8#32, 0xbf597fc7#32, 0xc6e00bf3#32, 0xd5a79147#32, 0x06ca6351#32, 0x14292967#32]

/-- The second half of the round constants of SHA-256. -/
def shaK2 : List (BitVec 32) := [
  0x27b70a85#32, 0x2e1b2138#32, 0x4d2c6dfc#32, 0x53380d13#32, 0x650a7354#32, 0x766a0abb#32, 0x81c2c92e#32, 0x92722c85#32,
  0xa2bfe8a1#32, 0xa81a664b#32, 0xc24b8b70#32, 0xc76c51a3#32, 0xd192e819#32, 0xd6990624#32, 0xf40e3585#32, 0x106aa070#32,
  0x19a4c116#32, 0x1e376c08#32, 0x2748774c#32, 0x34b0bcb5#32, 0x391c0cb3#32, 0x4ed8aa4a#32, 0x5b9cca4f#32, 0x682e6ff3#32,
  0x748f82ee#32, 0x78a5636f#32, 0x84c87814#32, 0x8cc70208#32, 0x90befffa#32, 0xa4506ceb#32, 0xbef9a3f7#32, 0xc67178f2#32]

/-- The initial hash value of SHA-256. -/
def shaH : List (BitVec 32) := [
  0x6a09e667#32, 0xbb67ae85#32, 0x3c6ef372#32, 0xa54ff53a#32, 0x510e527f#32, 0x9b05688c#32, 0x1f83d9ab#32, 0x5be0cd19#32]

/-- A number as `n` bytes, most significant first. -/
def beBytes (n x : Nat) : List Byte := (leBytes n x).reverse

/-- The number a byte string spells, most significant byte first. -/
def beNat (bs : List Byte) : Nat := leNat bs.reverse

/-- A message padded to whole blocks of 64 bytes. -/
def shaPad (m : List Byte) : List Byte :=
  let n := m.length
  m ++ [0x80#8] ++ List.replicate ((119 - n % 64) % 64) 0#8 ++ beBytes 8 (8 * n)

/-- One word of the message schedule from the 16 before it, latest first. -/
def shaNext (ws : List (BitVec 32)) : BitVec 32 :=
  let w (i : Nat) : BitVec 32 := getD ws (i - 1) 0#32
  let s0 := (w 15).rotateRight 7 ^^^ (w 15).rotateRight 18 ^^^ ((w 15) >>> 3)
  let s1 := (w 2).rotateRight 17 ^^^ (w 2).rotateRight 19 ^^^ ((w 2) >>> 10)
  w 16 + s0 + w 7 + s1

/-- The message schedule of a block, latest word first, extended by `n` words. -/
def shaSchedule : Nat → List (BitVec 32) → List (BitVec 32)
  | 0, ws => ws
  | n + 1, ws => shaSchedule n (shaNext ws :: ws)

/-- One round over the eight working variables. -/
def shaRound (v : List (BitVec 32)) (kw : BitVec 32) : List (BitVec 32) :=
  match v with
  | [a, b, c, d, e, f, g, h] =>
    let s1 := e.rotateRight 6 ^^^ e.rotateRight 11 ^^^ e.rotateRight 25
    let ch := (e &&& f) ^^^ (~~~e &&& g)
    let t1 := h + s1 + ch + kw
    let s0 := a.rotateRight 2 ^^^ a.rotateRight 13 ^^^ a.rotateRight 22
    let maj := (a &&& b) ^^^ (a &&& c) ^^^ (b &&& c)
    [t1 + s0 + maj, a, b, c, d + t1, e, f, g]
  | _ => v

/-- A block is hashed into the eight hash words. -/
def shaBlock (h : List (BitVec 32)) (b : List Byte) : List (BitVec 32) :=
  let ws := (List.range 16).map (fun i => BitVec.ofNat 32 (beNat ((b.drop (4 * i)).take 4)))
  let sched := (shaSchedule 48 ws.reverse).reverse
  let v := ((shaK1 ++ shaK2).zip sched).foldl (fun v p => shaRound v (p.1 + p.2)) h
  (h.zip v).map (fun p => p.1 + p.2)

/-- SHA-256 of a byte string. -/
def sha256 (m : List Byte) : List Byte :=
  let p := shaPad m
  ((chunks 64 (p.length / 64) p).foldl shaBlock shaH).flatMap (fun w => beBytes 4 w.toNat)

/-! ### P-256 -/

/-- The prime of the field. -/
def curveP : Nat := 0xffffffff00000001000000000000000000000000ffffffffffffffffffffffff
/-- The order of the base point. -/
def curveN : Nat := 0xffffffff00000000ffffffffffffffffbce6faada7179e84f3b9cac2fc632551
/-- The constant of the curve equation. -/
def curveB : Nat := 0x5ac635d8aa3a93e7b3ebbd55769886bc651d06b0cc53b0f63bce3c3e27d2604b
/-- The base point. -/
def curveG : Nat × Nat :=
  (0x6b17d1f2e12c4247f8bce6e563a440f277037d812deb33a0f4a13945d898c296,
    0x4fe342e2fe1a7f9b8ee7eb4a7c0f9e162bce33576b315ececbb6406837bf51f5)

/-- A power modulo `m`, with the exponent's low 256 bits. -/
def powMod (m b e : Nat) : Nat :=
  (List.range 256).foldl (fun acc i =>
    let sq := acc * acc % m
    if e.testBit (255 - i) then sq * b % m else sq) (1 % m)

/-- The inverse modulo a prime. -/
def invMod (m x : Nat) : Nat := powMod m x (m - 2)

/-- Addition of two points of the curve; none is the point at infinity. -/
def ecAdd (a b : Option (Nat × Nat)) : Option (Nat × Nat) :=
  match a, b with
  | none, b => b
  | a, none => a
  | some (x1, y1), some (x2, y2) =>
    let p := curveP
    if x1 = x2 ∧ (y1 + y2) % p = 0 then none
    else
      let l := if x1 = x2 then (3 * x1 * x1 + (p - 3)) * invMod p (2 * y1) % p
        else (y2 + p - y1) * invMod p ((x2 + p - x1) % p) % p
      let x3 := (l * l + 2 * p - x1 - x2) % p
      some (x3, (l * (x1 + p - x3) + p - y1) % p)

/-- A multiple of a point. -/
def ecMul (k : Nat) (a : Option (Nat × Nat)) : Option (Nat × Nat) :=
  (List.range 256).foldl (fun acc i =>
    let d := ecAdd acc acc
    if k.testBit (255 - i) then ecAdd d a else d) none

/-- Whether a point lies on the curve. -/
def onCurve (x y : Nat) : Bool :=
  decide (x < curveP ∧ y < curveP) && (y * y) % curveP == (x * x * x + (curveP - 3) * x + curveB) % curveP

/-- Whether a signature of 64 bytes, r then s, over a digest verifies under a public key of 64 bytes, X then Y, all
little-endian (R411, R416). -/
def ecdsaOk (key digest sig : List Byte) : Bool :=
  let x := leAt key 0 32
  let y := leAt key 32 32
  let r := leAt sig 0 32
  let t := leAt sig 32 32
  if !onCurve x y ∨ r = 0 ∨ curveN ≤ r ∨ t = 0 ∨ curveN ≤ t then false
  else
    let w := invMod curveN t
    let z := beNat digest
    match ecAdd (ecMul (z * w % curveN) (some curveG)) (ecMul (r * w % curveN) (some (x, y))) with
    | none => false
    | some (px, _) => px % curveN == r

end Sys2Proof.Machine
end

