-- ==== Sys2Proof/Machine/Models.lean ====
section
/-!
DEFINITION. The resident model table (R367 to R371): model records, conflicts, eviction with write-back and installing.
-/

namespace Sys2Proof.Machine

/-! ### Entries (R377) -/

/-- RMT_CFG of an entry. -/
def rmtCfg (s : State) (e : Nat) : W64 := s.rd (rmtBase e)
/-- STATE of an entry: 0 EMPTY, 1 RESIDENT, 2 EVICTED. -/
def rmtState (s : State) (e : Nat) : Nat := fld (rmtCfg s e) 0 2
/-- PINNED of an entry. -/
def rmtPinned (s : State) (e : Nat) : Bool := bit (rmtCfg s e) 2
/-- JOB of an entry. -/
def rmtJob (s : State) (e : Nat) : Nat := fld (rmtCfg s e) 4 4
/-- PRIORITY of an entry. -/
def rmtPrio (s : State) (e : Nat) : Nat := fld (rmtCfg s e) 8 8
/-- Bytes 0 to 55 of an entry's model record. -/
def rmtRec (s : State) (e : Nat) : List Byte := (List.range 7).flatMap (fun i => leBytes 8 (s.rd (rmtBase e + 8 + 8 * i)).toNat)

/-- The state with an entry's RMT_CFG written. -/
def setRmt (s : State) (e : Nat) (v : W64) : State := s.wr (rmtBase e) v

/-- The state with an entry's model record written. -/
def setRmtRec (s : State) (e : Nat) (rec_ : List Byte) : State :=
  (List.range 7).foldl (fun (s : State) i => s.wr (rmtBase e + 8 + 8 * i) (BitVec.ofNat 64 (leAt rec_ (8 * i) 8))) s

/-! ### Model records (R367) -/

/-- TIER of a record. -/
def mrTier (r : List Byte) : Nat := leAt r 0 1
/-- LEN of a record. -/
def mrLen (r : List Byte) : Nat := leAt r 4 4
/-- HOME of a record. -/
def mrHome (r : List Byte) : Nat := leAt r 8 8
/-- CMASK of a record. -/
def mrCmask (r : List Byte) : Nat := leAt r 16 6
/-- RMASK of a record. -/
def mrRmask (r : List Byte) : Nat := leAt r 24 8
/-- RADDR of a record. -/
def mrRaddr (r : List Byte) : Nat := leAt r 32 8
/-- TAG of a record. -/
def mrTag (r : List Byte) : Nat := leAt r 40 2

/-- The cores of a TIER 0x01 image, ascending. -/
def mrCores (r : List Byte) : List CoreId := (allFin 48).filter (fun c => (mrCmask r).testBit c.val)
/-- The regions of a TIER 0x01 image on each core, ascending. -/
def mrRegions (r : List Byte) : List Nat := (List.range 64).filter (fun i => (mrRmask r).testBit i)

/-- Whether a range is module memory. -/
def inGddr (s : State) (a len : Nat) : Bool :=
  match placeOf s a len with | .gddr _ => true | _ => false
/-- Whether a range is in the tier. -/
def inTier (s : State) (a len : Nat) : Bool :=
  match placeOf s a len with | .tier _ => true | _ => false

/-- Whether a model record is valid (R367). -/
def recOk (s : State) (r : List Byte) : Bool :=
  let zero (o n : Nat) : Bool := leAt r o n == 0
  let len := mrLen r
  zero 1 3 && zero 22 2 && zero 42 22 && len % 64 == 0 && mrHome r % 64 == 0 &&
  (inGddr s (mrHome r) len || inTier s (mrHome r) len) &&
  (match mrTier r with
    | 1 => decide (len ≤ (mrCores r).length * (mrRegions r).length * 0x40000)
    | 2 => mrRaddr r % 4096 == 0 && inGddr s (mrRaddr r) len
    | _ => false)

/-- The pieces of a TIER 0x01 image: offset in the image, core, scratchpad offset, length (R367). -/
def imagePieces (r : List Byte) : List (Nat × CoreId × Nat × Nat) :=
  let places := (mrCores r).flatMap (fun c => (mrRegions r).map (fun g => (c, g)))
  ((List.range places.length).zip places).filterMap (fun (i, c, g) =>
    let n := min 0x40000 (mrLen r - i * 0x40000)
    if n = 0 then none else some (i * 0x40000, c, g * 0x40000, n))

/-- Whether two resident images overlap: a shared region on a shared core, or a shared byte of module memory (R369). -/
def overlap (s : State) (a b : List Byte) : Bool :=
  match mrTier a, mrTier b with
  | 1, 1 => mrCmask a &&& mrCmask b != 0 && mrRmask a &&& mrRmask b != 0
  | 2, 2 =>
    let x := s.homeAddr (mrRaddr a)
    let y := s.homeAddr (mrRaddr b)
    decide (x < y + mrLen b ∧ y < x + mrLen a)
  | _, _ => false

/-! ### Copies (R368) -/

/-- An engine's access to a home or resident image in module memory or the tier. The engine bypasses the windows; none
where it failed. -/
def imageDo (s : State) (job a len : Nat) (data : Option (List Byte)) (err : Option CxlErr) : State × Option (List Byte) :=
  if len = 0 then (s, some [])
  else
  match placeOf s a len with
  | .gddr x =>
    match gddrDo s (some job) x len data with
    | (s, .ok bs) => (s, some bs)
    | (s, _) => (s, none)
  | .tier t =>
    match tierDo s (some job) t len data err with
    | (s, .ok bs) => (s, some bs)
    | (s, _) => (s, none)
  | _ => (s, none)

/-- The save engine's read of an image piece in a scratchpad: none at an uncorrectable error. -/
def pieceRead (s : State) (c : CoreId) (job off len : Nat) : State × Option (List Byte) :=
  let bad := (spMarks s c off len).any (·.2)
  let (s, bs) := spReadAny s c (some job) off len
  (s, if bad then none else some bs)

/-- The home image is copied to the resident image; false at an uncorrectable error. -/
def copyIn (s : State) (job : Nat) (r : List Byte) (err : Option CxlErr) : State × Bool :=
  match mrTier r with
  | 1 =>
    (imagePieces r).foldl (fun (acc : State × Bool) (p : Nat × CoreId × Nat × Nat) =>
      if !acc.2 then acc
      else
        match imageDo acc.1 job (mrHome r + p.1) p.2.2.2 none err with
        | (s, none) => (s, false)
        | (s, some bs) => (spWriteAny s p.2.1 (some job) p.2.2.1 bs, true)) (s, true)
  | _ =>
    match imageDo s job (mrHome r) (mrLen r) none err with
    | (s, none) => (s, false)
    | (s, some bs) =>
      match imageDo s job (mrRaddr r) (mrLen r) (some bs) err with
      | (s, none) => (s, false)
      | (s, some _) => (s, true)

/-- The resident image is written back to its home; false at an uncorrectable error, when the home holds the pieces
written before it. -/
def copyOut (s : State) (job : Nat) (r : List Byte) (err : Option CxlErr) : State × Bool :=
  match mrTier r with
  | 1 =>
    (imagePieces r).foldl (fun (acc : State × Bool) (p : Nat × CoreId × Nat × Nat) =>
      if !acc.2 then acc
      else
        match pieceRead acc.1 p.2.1 job p.2.2.1 p.2.2.2 with
        | (s, none) => (s, false)
        | (s, some bs) =>
          match imageDo s job (mrHome r + p.1) bs.length (some bs) err with
          | (s, none) => (s, false)
          | (s, some _) => (s, true)) (s, true)
  | _ =>
    match imageDo s job (mrRaddr r) (mrLen r) none err with
    | (s, none) => (s, false)
    | (s, some bs) =>
      match imageDo s job (mrHome r) (mrLen r) (some bs) err with
      | (s, none) => (s, false)
      | (s, some _) => (s, true)

/-- RMT_COPY_FAIL of an entry; the step of its job fails (R368, R378). -/
def copyFailed (s : State) (e job : Nat) : State := s.raise 0x0105 0 0 (some job) e 0

/-- SP_GECKO of an image's regions, and their owner fields where it is set (R233, R247, R368). -/
def setGecko (s : State) (r : List Byte) (on : Bool) (job : Nat) : State :=
  if mrTier r ≠ 1 then s
  else (mrCores r).foldl (fun (s : State) (c : CoreId) =>
    let b := coreBase c + 0x4018
    let m : W64 := BitVec.ofNat 64 (mrRmask r)
    if !on then s.wr b (s.rd b &&& ~~~m)
    else (mrRegions r).foldl (fun (s : State) g =>
      let o := b + 8 + 8 * (g / 16)
      s.wr o (setFld (s.rd o) (4 * (g % 16)) 4 job)) (s.orReg b m)) s

/-! ### Eviction and installing (R368, R369) -/

/-- An entry is evicted: a DIRTY resident image is written back, its regions lose their residency, and the entry is
EVICTED; false where the write-back failed. -/
def rmtEvict (s : State) (e : Nat) (err : Option CxlErr) : State × Bool :=
  if rmtState s e ≠ 1 then (s, true)
  else
    let r := rmtRec s e
    let job := rmtJob s e
    let (s, ok) := if bit (rmtCfg s e) 3 then copyOut s job r err else (s, true)
    let s := if ok then s else copyFailed s e job
    let s := setGecko s r false job
    (setRmt s e (setFld (clrBit (rmtCfg s e) 3) 0 2 2), ok)

/-- The resident entries an image conflicts with, ascending (R369). -/
def conflicts (s : State) (e : Nat) (r : List Byte) : List Nat :=
  (List.range 8).filter (fun x => x != e && rmtState s x == 1 && overlap s r (rmtRec s x))

/-- Whether there is room for an image of a job with a priority (R369). -/
def roomFor (s : State) (e job prio : Nat) (r : List Byte) : Bool :=
  (conflicts s e r).all (fun x => !rmtPinned s x && decide (rmtPrio s x ≤ prio)) &&
  (mrTier r != 1 || (mrCores r).all (fun c =>
    !(List.range 16).any (fun j => bit (s.lentBy j) c) && (mrRegions r).all (fun g => !geckoDenied s c (some job) g)))

/-- Whether the controllers of an image's memory serve or have failed for good, so that its copies do not wait (R250). -/
def recServed (s : State) (r : List Byte) : Bool :=
  let ok (a : Nat) : Bool :=
    match placeOf s a (mrLen r) with
    | .gddr x => gddrServe s x (mrLen r) != .wait
    | _ => true
  ok (mrHome r) && (mrTier r != 2 || ok (mrRaddr r))

/-- Whether the copies of an install of an image can run now. -/
def installReady (s : State) (e : Nat) (r : List Byte) : Bool :=
  recServed s r && (conflicts s e r).all (fun x => recServed s (rmtRec s x)) &&
    (rmtState s e != 1 || recServed s (rmtRec s e))

/-- The conflicting entries are evicted in ascending order, each with RMT_EVICT (R369). -/
def makeRoom (s : State) (e : Nat) (r : List Byte) (err : Option CxlErr) : State × Bool :=
  (conflicts s e r).foldl (fun (acc : State × Bool) x =>
    if !acc.2 then acc
    else
      let (s, ok) := rmtEvict acc.1 x err
      (s.raise 0x0104 0 0 (some (rmtJob s x)) x 0, ok)) (s, true)

/-- An image is made resident in an entry for a job: the entry is freed, room is made, and the home image copied. False
where a copy failed: then the entry keeps no resident image (R368, R369). -/
def rmtInstall (s : State) (e job prio : Nat) (r : List Byte) (err : Option CxlErr) : State × Bool :=
  let (s, a) := rmtEvict s e err
  if !a then (s, false)
  else
    let (s, b) := makeRoom s e r err
    if !b then (s, false)
    else
      let (s, c) := copyIn s job r err
      if !c then (copyFailed s e job, false)
      else
        let s := setGecko s r true job
        let s := setRmtRec s e r
        (setRmt s e (BitVec.ofNat 64 (1 + job % 16 * 2 ^ 4 + prio % 256 * 2 ^ 8 + mrTag r * 2 ^ 16)), true)

/-- JOB_CLOSE evicts every entry of a job and marks it EMPTY, its record reading as zero; false where a write-back failed (R368,
R371, R377). -/
def rmtClose (s : State) (job : Nat) (err : Option CxlErr) : State × Bool :=
  (List.range 8).foldl (fun (acc : State × Bool) e =>
    if rmtState acc.1 e = 0 ∨ rmtJob acc.1 e ≠ job then acc
    else
      let (s, ok) := rmtEvict acc.1 e err
      (setRmt (setRmtRec s e []) e 0#64, acc.2 && ok)) (s, true)

end Sys2Proof.Machine
end

