-- ==== Sys2Proof/Machine/Rings.lean ====
section
/-!
DEFINITION. The Ihlah rings (R339 to R345, R349 to R351): doorbells, fetching, starting and completing descriptors,
enabling a ring, MSI-X.
-/

namespace Sys2Proof.Machine

/-! ### Functions and rings (R331, R339) -/

/-- Whether a sender's function answers: a function in D3hot and a VF that is not enabled do not (R331). -/
def fnUp (s : State) (b : Sender) : Bool :=
  match b with
  | .owner => !(portOf s true).d3.contains 0
  | .standby => !(portOf s false).d3.contains 0
  | .vf n => (portOf s true).vfEn && !(portOf s true).d3.contains (n.val + 1)
  | _ => true

/-- Whether the ports answer an access of a function to something other than the security block: the module is up, not in
recovery, and the function is there; `some` is what it answers otherwise (R331, R397, R401, R412). -/
def barGate (s : State) (b : Sender) : Option HostOut :=
  if !(b == .owner || b == .standby || (match b with | .vf _ => true | _ => false)) then none
  else if s.power.held then some .ca
  else if s.power.boot ≠ .up ∨ !fnUp s b then some .ur
  else if s.power.recovery then some (.reg 0#64)
  else none

/-- Whether an access of a sender reaches a register: a function's does where the ports answer it (R331, R397, R401, R412). -/
def hears (s : State) (b : Sender) : Bool := (barGate s b).isNone

/-- The number of a sender's function at the owner port. -/
def fnOf : Sender → Option Nat
  | .owner => some 0
  | .vf n => some (n.val + 1)
  | _ => none

/-- The job of a ring, none for the management and event rings. -/
def ringJob (r : RingId) : Option Nat := if r.val < 2 then none else some ((r.val - 2) / 2)

/-- Whether a ring is read by the Mehrox. -/
def sqRing (r : RingId) : Bool := r.val % 2 == 0

/-- The ring that a descriptor ring's completions go to: the job's completion ring, or the event ring. -/
def cqOf (r : RingId) : RingId := if h : r.val + 1 < 34 then ⟨r.val + 1, h⟩ else r

/-- HOST_RING_ERROR of a ring that stops with a cause (R340, R343). -/
def ringError (s : State) (r : RingId) (cause : Nat) : State :=
  (s.setRing r { s.host.rings[r] with err := true, cause := cause }).raise 0x0002 0 0 (ringJob r) 0 0

/-- HOST_DB_IGNORED (R339). -/
def dbIgnored (s : State) (r : RingId) : State := s.raise 0x0003 0 0 (ringJob r) 0 0

/-! ### Completions (R345, R350) -/

/-- A record as it is written: a completion takes CONS of its submission ring then (R350). -/
def sqStamp (s : State) (r : RingId) (bs : List Byte) : List Byte :=
  let cons (q : Nat) : List Byte := match fin? 34 q with
    | some q => leBytes 4 (s.host.rings[q]).cons.toNat
    | none => []
  if r.val ≠ 1 then bs.take 4 ++ cons (r.val - 1) ++ bs.drop 8
  else if leAt bs 0 2 = 1 then bs.take 20 ++ cons 0 ++ bs.drop 24
  else bs

/-- The records a ring holds back are written in order while it is enabled and has room. -/
def writeHeld (r : RingId) : Nat → State → State
  | 0, s => s
  | fuel + 1, s =>
    let k := s.host.rings[r]
    match k.held with
    | [] => s
    | c :: rest =>
      if !s.ringLive r ∨ s.ringRoom r = 0 then s
      else
        let s := s.setRing r { k with held := rest }
        writeHeld r fuel (s.putRecord r (sqStamp s r c.bytes) (if r.val = 1 then 2 else 9) c.irq)

/-- A ring that the Mehrox writes goes on as far as it can: on the event ring HOST_EVT_LOST first, then what was held
(R350, R353). -/
def ringFlow (s : State) (r : RingId) : State :=
  let s := if r.val = 1 then s.evtLost else s
  writeHeld r (s.host.rings[r]).held.length s

/-- A completion is handed to its ring: written behind those held before it, or held (R345). -/
def postCompl (s : State) (r : RingId) (bytes : List Byte) (irq : Bool) : State :=
  let k := s.host.rings[r]
  ringFlow (s.setRing r { k with held := k.held ++ [{ bytes := bytes, irq := irq }] }) r

/-- A field of a descriptor: `n` bytes at offset `o` (R344). -/
def dN (d : Desc) (o n : Nat) : Nat := leAt d.bytes o n
/-- OPCODE of a descriptor. -/
def dOp (d : Desc) : Nat := dN d 0 1

/-- The completion record of a descriptor without its PHASE and SQCONS (R350). -/
def complBytes (d : Desc) (status : BitVec 8) (result : BitVec 32) (info : BitVec 16) : List Byte :=
  leBytes 4 (dN d 4 4) ++ leBytes 4 0 ++ [status, 0#8] ++ leBytes 2 info.toNat ++
    leBytes 4 result.toNat

/-- A descriptor has completed: its record, unless QUIET spares one that is OK; a management completion is the event
MGMT_COMPLETION (R344, R350, R351). -/
def complete (s : State) (r : RingId) (d : Desc) (status : BitVec 8) (result : BitVec 32) (info : BitVec 16) : State :=
  let quiet := (dN d 1 1).testBit 2 && status == 0#8
  let bytes := complBytes d status result info
  if r.val = 0 then
    let s := s.orReg 0x20 2#64
    if quiet ∨ bit (s.rd 0x18) 1 then s
    else
      let (t, s) := s.now
      postCompl s 1 (evtBytes 1 1 0 none none t (leAt bytes 0 8) (leAt bytes 8 8)) true
  else if quiet then s
  else postCompl s (cqOf r) bytes ((dN d 1 1).testBit 0 || status != 0#8)

/-- The `i`-th fetched descriptor of a ring. -/
def descAt (s : State) (r : RingId) (i : Nat) : Option Desc := (s.host.rings[r]).descs[i]?

/-- Whether the descriptors of a ring go on: not while a clock loss holds PD48 or it is off, and those of the management ring not while
PD62 is in MGR reset (R395, R400, R401). -/
def ringGoes (s : State) (r : RingId) : Bool := s.domainOn 48 && !(r.val == 0 && s.power.rebooting)

/-- The `i`-th fetched descriptor of a ring, while its descriptors go on. -/
def goingDesc (s : State) (r : RingId) (i : Nat) : Option Desc := if ringGoes s r then descAt s r i else none

/-- How far the `i`-th fetched descriptor of a ring is. -/
def setRun1 (s : State) (r : RingId) (i : Nat) (run : DescRun) : State :=
  let k := s.host.rings[r]
  s.setRing r { k with descs := k.descs.modify i (fun d => { d with run := some run }) }

/-- The `i`-th fetched descriptor of a ring is due. -/
def dueDesc (s : State) (r : RingId) (i : Nat) (status : BitVec 8) (result : Nat := 0) (info : Nat := 0) : State :=
  setRun1 s r i (.due status (BitVec.ofNat 32 result) (BitVec.ofNat 16 info))

/-- The `i`-th fetched descriptor of a ring completes where it is due. -/
def descComplete (s : State) (r : RingId) (i : Nat) : State :=
  match descAt s r i with
  | some d =>
    match d.run with
    | some (.due status result info) =>
      let k := s.host.rings[r]
      complete (s.setRing r { k with descs := k.descs.eraseIdx i }) r d status result info
    | _ => s
  | none => s

/-! ### Doorbells (R339, R340) -/

/-- A new producer index (R340). -/
def prodWrite (s : State) (r : RingId) (v : BitVec 32) : State :=
  let k := s.host.rings[r]
  if v = k.prod then s
  else if (v - k.cons).toNat ≤ s.ringSize r ∧ (k.prod - k.cons).toNat < (v - k.cons).toNat then
    s.setRing r { k with prod := v }
  else ringError s r 1

/-- A new consumer index (R340): places come free, so what was held or lost is written. -/
def consWrite (s : State) (r : RingId) (v : BitVec 32) : State :=
  let k := s.host.rings[r]
  if v = k.cons then s
  else if (k.prod - v).toNat ≤ s.ringSize r ∧ (k.prod - v).toNat < (k.prod - k.cons).toNat then
    ringFlow (s.setRing r { k with cons := v }) r
  else ringError s r 1

/-- A write to a doorbell page of ring `r`: the page of the driving function acts, the other function's is ignored with
HOST_DB_IGNORED (R339). -/
def doorbell (s : State) (r : RingId) (b : Sender) (v : W64) (act : State → RingId → BitVec 32 → State) : State :=
  match fnOf b with
  | none => s
  | some f =>
    if !hears s b then s
    else if s.ringFn r = f then act s r (v.setWidth 32) else dbIgnored s r

/-- SQ_DOORBELL (R340). -/
def execSqDoorbell (r : RingId) (b : Sender) (v : W64) (s : State) : Out :=
  .next (if sqRing r then doorbell s r b v prodWrite else s)
/-- CQ_DOORBELL (R340). -/
def execCqDoorbell (r : RingId) (b : Sender) (v : W64) (s : State) : Out :=
  .next (if sqRing r then s else doorbell s r b v consWrite)

/-! ### Fetching (R342, R343) -/

/-- How many descriptors the Mehrox may fetch from a ring with one read now: a read of at most Max Read Request Size that
does not wrap (R331, R339, R342). -/
def fetchable (s : State) (r : RingId) : Nat :=
  let k := s.host.rings[r]
  let started := (k.descs.filter (fun d => d.run.isSome)).length
  let room :=
    if r.val = 0 then s.ringRoom 1 - s.evtPlaces
    else s.ringRoom (cqOf r) - (k.descs.length + (s.host.rings[cqOf r]).held.length)
  if !sqRing r ∨ !s.ringLive r ∨ s.host.ho != .none ∨ s.power.brum != .none ∨ !ringGoes s r ∨ (if r.val = 0 then 16 else 64) ≤ started ∨
      !ownerOn s ∨ !hostRoom s (s.ringFn r) then 0
  else
    min (min 16 (2 * 2 ^ (portOf s true).mrrs))
      (min (s.ringSize r - k.cons.toNat % s.ringSize r) (min (k.prod - k.cons).toNat room))

/-- A read of up to `n` descriptors of a ring from its entry CONS on, with the host's answer: CONS moves past them, or the ring stops with
CAUSE 2 (R342, R343). -/
def descFetch (s : State) (r : RingId) (n : Nat) (reply : HostReply) : State :=
  let n := min n (fetchable s r)
  if n = 0 then s
  else
    let k := s.host.rings[r]
    let a := (s.rd (ringBase r)).toNat + 64 * (k.cons.toNat % s.ringSize r)
    let s := { s with host := { s.host with out := s.host.out ++ [.read (s.ringFn r) a (64 * n) false] } }
    match reply with
    | .ok bs =>
      let (t, s) := s.now
      let new := (List.range n).map (fun i =>
        { bytes := (List.range 64).map (fun j => getD bs (64 * i + j) 0#8), fetched := t : Desc })
      s.setRing r { k with descs := k.descs ++ new, cons := k.cons + BitVec.ofNat 32 n }
    | _ => ringError s r 2

/-- DESCRIPTOR_FETCH (R342). -/
def execDescriptorFetch (r : RingId) (n : Nat) (reply : HostReply) (s : State) : Out := .next (descFetch s r n reply)

/-- DESCRIPTOR_COMPLETE (R350). -/
def execDescriptorComplete (r : RingId) (i : Nat) (s : State) : Out := 
  .next (if ringGoes s r then descComplete s r i else s)

/-! ### The checks of a descriptor (R344, R346, R349) -/

/-- The bytes an opcode's row names, beside the header's; none for an opcode that is not listed (R346). -/
def descNamed (op : Nat) : Option (List (Nat × Nat)) :=
  match op with
  | 0x00 => some []
  | 0x01 => some [(8, 6), (16, 8), (24, 1), (28, 2), (32, 4)]
  | 0x02 => some [(8, 6), (16, 2), (20, 4)]
  | 0x03 => some [(8, 8), (16, 8), (24, 8), (32, 1)]
  | 0x04 => some [(8, 1), (9, 1), (10, 2), (12, 4), (16, 8)]
  | 0x05 => some [(8, 1), (12, 4), (16, 8), (24, 4)]
  | 0x06 => some [(8, 1), (9, 1), (10, 2)]
  | 0x07 => some [(8, 1), (9, 1), (10, 2), (12, 1), (13, 1), (16, 4), (20, 4)]
  | 0x08 => some [(8, 1), (9, 1), (10, 1), (16, 8), (24, 1)]
  | 0x41 => some [(8, 1), (9, 1), (10, 1), (16, 6)]
  | 0x42 => some [(8, 1), (9, 1)]
  | 0x43 => some [(8, 1), (16, 6)]
  | _ => none

/-- Whether an opcode is allowed on a ring (R346). -/
def opAllowed (r : RingId) (op : Nat) : Bool :=
  match op with
  | 0x00 => true
  | 0x03 => true
  | 0x41 => r.val == 0
  | 0x42 => r.val == 0
  | 0x43 => r.val == 0
  | _ => r.val != 0

/-- Whether every byte outside the header and the named fields is zero, and so are the unused flags (R344). -/
def zerosOk (d : Desc) (named : List (Nat × Nat)) : Bool :=
  (List.range 64).all (fun i =>
    getD d.bytes i 0#8 == 0#8 || ((0, 2) :: (4, 4) :: named).any (fun p => p.1 ≤ i && decide (i < p.1 + p.2))) &&
  decide (dN d 1 1 < 8)

/-- The cores of the field at byte `o` of a descriptor. -/
def dCores (d : Desc) (o : Nat) : List CoreId := (allFin 48).filter (fun c => (dN d o 6).testBit c.val)

/-- Whether a request for an MBTAG is active on a queue (R373). -/
def tagActive (s : State) (q : Nat) (mbtag : Nat) : Bool :=
  s.jobs.monitors.toList.any (fun m => m.any (fun m => m.qout.val == q && m.mbtag.toNat == mbtag))

/-- Whether the fields of a descriptor are in range (R346, R348, R357, R368, R373). -/
def fieldsOk (s : State) (r : RingId) (d : Desc) : Bool :=
  let n := dN d
  let al (o : Nat) : Bool := n o 8 % 64 == 0
  match dOp d with
  | 0x01 => al 16 && decide (n 24 1 < 2 ∧ n 28 2 < 32768 ∧ 1 ≤ n 32 4 ∧ n 28 2 + n 32 4 ≤ 32768)
  | 0x02 => decide (n 16 2 < 32768)
  | 0x03 => al 8 && al 16 && n 24 8 % 64 == 0 && decide (64 ≤ n 24 8 ∧ n 24 8 ≤ 2 ^ 32 ∧ n 32 1 < 3)
  | 0x04 => al 16 && decide (n 9 1 < 2 ∧ 1 ≤ n 12 4 ∧ n 12 4 ≤ 65536)
  | 0x05 => al 16 && (match fin? 256 (n 8 1) with | some q => !qForward s q | none => false)
  | 0x06 => decide (n 8 1 < 48 ∧ n 9 1 < 64 ∧ 1 ≤ n 10 2)
  | 0x07 =>
    let f := n 9 1
    decide (n 8 1 < 8 ∧ (f < 8 ∨ f = 0xFF) ∧ 1 ≤ n 16 4 ∧ n 16 4 ≤ 65535) && !tagActive s (n 13 1) (n 10 2) &&
      rmtState s (n 8 1) != 0 && (f == 0xFF || rmtState s f != 0)
  | 0x08 =>
    let e := n 8 1
    let a := n 9 1
    decide (e < 8 ∧ 1 ≤ a ∧ a ≤ 5 ∧ n 24 1 < 2) && (a != 1 || al 16) && (a == 1 || rmtState s e != 0) &&
      !((a == 1 || a == 2) && ringJob r == some (rmtJob s e) && rmtPinned s e)
  | 0x41 =>
    let f := n 10 1
    decide (n 8 1 < 16 ∧ n 9 1 < 8 ∧ f ≤ 16) && n 16 6 != 0 &&
      (f == 0 || !(List.range 16).any (fun j => j != n 8 1 && s.jobOpen j && fld (s.rd (jpBase j)) 4 5 == f))
  | 0x42 => decide (n 8 1 < 16 ∧ n 9 1 < 2)
  | 0x43 => decide (n 8 1 < 16)
  | _ => true

/-- Whether every core a job holds is HALTED and the job has no lent core (R372). -/
def jobQuiet (s : State) (j : Nat) : Bool :=
  s.lentBy j == 0#64 && (allFin 48).all (fun c => !bit (s.heldBy j) c || (s.core c).run == .halted)

/-- Whether the states of the jobs allow a descriptor (R349, R363, R372). -/
def jobStateOk (s : State) (r : RingId) (d : Desc) : Bool :=
  let j := dN d 8 1
  match ringJob r with
  | some k => s.jobOpen k
  | none =>
    match dOp d with
    | 0x41 => !s.jobOpen j
    | 0x42 => (dN d 9 1).testBit 0 || jobQuiet s j
    | 0x43 => s.jobOpen j
    | _ => true

/-- Whether a core is held by no job, neither by CORE_JOB nor by any JP_HELD (R358). -/
def coreFree (s : State) (c : CoreId) : Bool :=
  (s.jobOf c).isNone && !(List.range 16).any (fun j => bit (s.heldBy j) c)

/-- Whether a PREEMPT may take a victim for an arriving job (R363). -/
def victimOk (s : State) (arriving : Nat) (c : CoreId) : Bool :=
  bit (s.rd (jpBase arriving + 8)) c && (s.core c).run == .running && !(List.range 16).any (fun j => bit (s.lentBy j) c) &&
  (match s.jobOf c with
    | some j => s.jobOpen j && decide (fld (s.rd (jpBase j)) 1 3 < fld (s.rd (jpBase arriving)) 1 3)
    | none => false)

/-- The checks of a PREEMPT after the first (R363). -/
def preemptStatus (s : State) (d : Desc) : Option (BitVec 8) :=
  let j := dN d 8 1
  let vs := dCores d 16
  if (allFin 48).any (fun c => bit (s.rd (jpBase j + 8)) c && coreFree s c) then some 0x11#8
  else if !vs.all (victimOk s j) then some 0x11#8
  else if !vs.all (fun c => match s.jobOf c with | some v => decide (bivSlot s v c < bivSlots s v) | none => false) then
    some 0x15#8
  else none

/-- Whether a job's descriptor names only what is the job's (R349): LOAD_PROG and RUN name cores the job holds, SIGNAL one
of its core set; queues and model entries are the job's. -/
def owned (s : State) (j : Nat) (d : Desc) : Bool :=
  let cores := (dCores d 8).all (fun c => bit (s.heldBy j) c)
  let q (o : Nat) : Bool := match fin? 256 (dN d o 1) with | some q => qJob s q == j | none => false
  let e (x : Nat) : Bool := rmtState s x == 0 || rmtJob s x == j
  match dOp d with
  | 0x01 => cores
  | 0x02 => cores
  | 0x04 => q 8
  | 0x05 => q 8
  | 0x06 => s.inSet j (dN d 8 1)
  | 0x07 => e (dN d 8 1) && (dN d 9 1 == 0xFF || e (dN d 9 1)) && q 12 && q 13
  | 0x08 => e (dN d 8 1)
  | _ => true

/-- Q_JOB_REJECT for every queue of another job that a descriptor names (R220, R349). -/
def queueRejects (s : State) (j : Nat) (d : Desc) : State :=
  let rej (s : State) (o : Nat) : State :=
    match fin? 256 (dN d o 1) with
    | some q => if qJob s q = j then s else qEv s q 0x4005 (some j) none 0
    | none => s
  match dOp d with
  | 0x04 => rej s 8
  | 0x05 => rej s 8
  | 0x07 => rej (rej s 12) 13
  | _ => s

/-- The first status that applies to a descriptor before its execution, none where it may run (R349, R363). -/
def descCheck (s : State) (r : RingId) (d : Desc) : Option (BitVec 8) :=
  match descNamed (dOp d) with
  | none => some 0x10#8
  | some named =>
    if !opAllowed r (dOp d) then some 0x10#8
    else if !zerosOk d named || !fieldsOk s r d then some 0x11#8
    else if !jobStateOk s r d then some 0x12#8
    else if dOp d = 0x43 then preemptStatus s d
    else
      match ringJob r with
      | none => none
      | some j =>
        if !owned s j d then some 0x13#8
        else if (dOp d = 1 ∨ dOp d = 2) ∧ (dCores d 8).any (fun c => (s.core c).run != .halted) then some 0x14#8
        else none

/-- The first fetched descriptor of a ring that has not started. -/
def nextStart (s : State) (r : RingId) : Option (Nat × Desc) :=
  let ds := (s.host.rings[r]).descs
  match ds.findIdx? (fun d => d.run.isNone) with
  | none => none
  | some i => (ds[i]?).map (fun d => (i, d))

/-- The next descriptor of a ring starts, where FENCE lets it: it is due at once where a check fails (R342, R349). -/
def descStart (s : State) (r : RingId) : State :=
  match nextStart s r with
  | none => s
  | some (i, d) =>
    if ((dN d 1 1).testBit 1 ∧ i ≠ 0) ∨ !ringGoes s r then s
    else
      match descCheck s r d with
      | none => setRun1 s r i .begun
      | some st =>
        let s := match ringJob r with
          | some j => if st = 0x13#8 then queueRejects s j d else s
          | none => s
        dueDesc s r i st

/-- DESCRIPTOR_START (R342). -/
def execDescriptorStart (r : RingId) (s : State) : Out := .next (descStart s r)

/-! ### Enabling and aborting (R341, R345) -/

/-- Every fetched descriptor of a ring that has not started is due with ABORTED (R345). -/
def abortUnstarted (s : State) (r : RingId) : State :=
  let k := s.host.rings[r]
  s.setRing r { k with descs := k.descs.map (fun d =>
    if d.run.isNone then { d with run := some (.due 0x1C#8 0#32 0#16) } else d) }

/-- A write of EN (R340, R341, R345). -/
def ringEnable (s : State) (r : RingId) (on : Bool) : State :=
  let a := ringBase r + 8
  if s.ringEn r = on then s
  else if on then
    let n := fld (s.rd a) 0 5
    if n < 6 ∨ 16 < n then s.raise 0x0002 0 0 (ringJob r) 0 0
    else
      let s := s.setRing r { s.host.rings[r] with prod := 0#32, cons := 0#32, err := false, cause := 0 }
      ringFlow (s.wr a (setBit (s.rd a) 8)) r
  else abortUnstarted (s.wr a (clrBit (s.rd a) 8)) r

/-- RUNNING of a ring (R345). -/
def ringRunning (s : State) (r : RingId) : Bool := s.ringEn r || !(s.host.rings[r]).descs.isEmpty

/-- A write of RING_CFG by a function: LOG2N and FUNC only while the ring is off and at rest, FUNC by the owner PF only,
then EN (R341). -/
def ringCfgWrite (s : State) (r : RingId) (pf : Bool) (v : W64) : State :=
  let a := ringBase r + 8
  let old := s.rd a
  let rest := !ringRunning s r
  let new := setFld (setFld old 10 11 (fld v 10 11)) 24 8 (fld v 24 8)
  let new := if rest then setFld new 0 5 (fld v 0 5) else new
  let new := if rest && pf && decide (2 ≤ r.val) && decide (fld v 32 5 ≤ 16) then setFld new 32 5 (fld v 32 5) else new
  ringEnable (s.wr a new) r (bit v 8)

/-- A write of RING_BASE (R341). -/
def ringBaseWrite (s : State) (r : RingId) (v : W64) : State :=
  if ringRunning s r then s else s.wr (ringBase r) (v &&& bits 12 63)

/-- Whether a function may write the registers of a ring: the owner PF, or the VF that drives a job ring (R341). -/
def ringBy (s : State) (r : RingId) (b : Sender) : Bool :=
  match b with
  | .owner => true
  | .mgmt => true
  | .vf n => decide (2 ≤ r.val) && s.ringFn r == n.val + 1
  | _ => false

/-- RING_EN (R345). -/
def execRingEn (r : RingId) (b : Sender) (on : Bool) (s : State) : Out :=
  .next (if hears s b && ringBy s r b then ringEnable s r on else s)

/-! ### MSI-X (R351) -/

/-- DELAY has passed since the first due vector of a ring: one message goes. -/
def msixDelay (s : State) (r : RingId) : State :=
  let k := s.host.rings[r]
  if !k.timer then s
  else (s.setRing r { k with timer := false }).vector (s.ringFn r) (fld (s.rd (ringBase r + 8)) 10 11)

/-- The pending vectors of the owner port's function `fn` that are no longer masked are sent. -/
def msixFlush (s : State) (fn : Nat) : State :=
  let n := s.fnNo fn
  let go := s.host.vecPending.filter (fun k => k / 4096 == n && s.host.vecOpen.contains k && s.host.fnOn.contains n)
  go.foldl (fun (s : State) k => s.message fn (k % 4096)) s

/-- The mask bit of a vector of the owner port is written (R351). -/
def msixMask (s : State) (fn vec : Nat) (masked : Bool) : State :=
  let k := s.fnNo fn * 4096 + vec
  let h := s.host
  let open_ := h.vecOpen.filter (fun x => x != k)
  msixFlush { s with host := { h with vecOpen := if masked then open_ else open_ ++ [k] } } fn

/-- MSIX_DELAY_EXPIRY (R351). -/
def execMsixDelayExpiry (r : RingId) (s : State) : Out := .next (s.live (msixDelay s r))
/-- The sender that a function of the owner port is: 0 the PF, n VF n - 1. -/
def fnSender (fn : Fin 17) : Sender :=
  match fin? 16 (fn.val - 1) with
  | some n => if fn.val = 0 then .owner else .vf n
  | none => .owner

/-- MSIX_UNMASK (R351): function `fn` of the owner port, 0 for the PF. -/
def execMsixUnmask (fn : Fin 17) (vec : Fin 2048) (s : State) : Out :=
  .next (if hears s (fnSender fn) ∧ (fn.val = 0 ∨ vec.val < 64) then msixMask s fn.val vec.val false else s)

end Sys2Proof.Machine
end

