-- ==== Sys2Proof/Machine/HostOps.lean ====
section
/-!
DEFINITION. What the descriptors of the job rings do (R346 to R349, R368, R373): NOP, LOAD_PROG, RUN, COPY, QPUSH, QPOP,
SIGNAL, MODEL and GENERATE.
-/

namespace Sys2Proof.Machine

/-! ### The data transfers of a descriptor (R331, R337, R342, R346) -/

/-- What the outside gives a transfer: the host's answers to its reads of host memory, in order, and how its first access to
the tier goes wrong, if it does. -/
structure Answers where
  hs : List HostReply
  err : Option CxlErr
deriving DecidableEq, Repr

/-- What becomes of one access of a transfer: done, sent to a peer under a tag, asked of the host under a number, not
possible yet, or failed with a status and RESULT. -/
inductive Piece where
  | got (bs : List Byte)
  | sent (tag : Nat)
  | asked (k : Nat)
  | wait
  | fail (status : BitVec 8) (code : BitVec 32)
deriving DecidableEq, Repr

/-- A piece from an access that ends at once: a failure is DEVICE_ERROR with its code (R349). -/
def pieceOf (x : State × AccEnd) : State × Piece :=
  match x with
  | (s, .ok bs) => (s, .got bs)
  | (s, .fail k) => (s, .fail 0x17#8 (BitVec.ofNat 32 k))
  | (s, .wait) => (s, .wait)

/-- Whether a ring's accesses to device memory bypass the windows (R231, R259, R346). -/
def ringPf (s : State) (r : RingId) : Bool := decide (r.val < 2) || s.ringFn r == 0

/-- A scratchpad access that no window and no residency checks: bank power and SECDED only (R231, R236). -/
def spPlain (s : State) (t : CoreId) (job : Option Nat) (off len : Nat) (data : Option (List Byte)) : State × AccEnd :=
  match spBankOff s t off len with
  | some w => (s.raise 0x1015 t 0 job (s.rd (coreBase t + 0x4080)).toNat w, .fail 5)
  | none =>
    match data with
    | none =>
      match spEcc s t job off len with
      | (s, some _) => (s, .fail 6)
      | (s, none) => (s, .ok (spBytes s t off len))
    | some bs =>
      match spMerge s t job off bs with
      | (s, some _) => (s, .fail 6)
      | (s, none) => (s, .ok [])

/-- An access of a ring's descriptor to a device address, the tier failing as `err` says: a window of the host is not for
it, a peer gets a packet (R237, R259, R338, R346). -/
def ringDevice (s : State) (r : RingId) (a len : Nat) (data : Option (List Byte)) (err : Option CxlErr) : State × Piece :=
  let job := ringJob r
  let j := job.getD 0
  let pf := ringPf s r
  match placeOf s a len with
  | .bad => (s, .fail 0x17#8 1#32)
  | .host _ => (s, .fail 0x17#8 3#32)
  | .gddr x => pieceOf (if pf then gddrDo s job x len data else gddrOutside s .host j x len data)
  | .sp t o => pieceOf (if pf then spPlain s t job o len data else spOutside s t .host j o len data)
  | .tier t =>
    match (if pf then (s, true) else memCheck s .host j (tierAddr t) len data.isSome) with
    | (s, false) => (s, .fail 0x17#8 3#32)
    | (s, true) => pieceOf (tierDo s job t len data err)
  | .peer dev o =>
    match peerSend s 0 j dev o data (match data with | none => (len + 63) / 64 | some _ => 0) (.ring r) with
    | (s, none) => (s, .wait)
    | (s, some (_, false)) => (s, .fail 0x17#8 8#32)
    | (s, some (tag, true)) => (s, .sent tag)

/-- A read of `len` bytes of the memory of a ring's function leaves the owner port, for place `off` of a transfer; during a
handover no new request does, and with the port's domain off it fails (R18, R331, R339, R353). Only a COPY's reads may carry
Relaxed Ordering. -/
def ringAsk (s : State) (r : RingId) (a off len : Nat) (ordered : Bool) : State × Piece :=
  if !ownerOn s then (s, .fail 0x16#8 0#32)
  else if s.host.ho != .none ∨ !hostRoom s (s.ringFn r) then (s, .wait)
  else
    let (k, s) := s.fresh
    (hostSend s { who := .ring r, fn := s.ringFn r, addr := a + off, len := len, off := off, seq := k, ordered := ordered },
      .asked k)

/-- A write of a descriptor's data: posted to the memory of the ring's function, or to a device address. -/
def ringWrite (s : State) (r : RingId) (a : Nat) (host : Bool) (bs : List Byte) (err : Option CxlErr) : State × Piece :=
  if !host then ringDevice s r a bs.length (some bs) err
  else if !ownerOn s then (s, .fail 0x16#8 0#32)
  else if s.host.ho != .none then (s, .wait)
  else (hostPut s (s.ringFn r) a bs, .got [])

/-- The bytes one access takes at an address: a line of this module's memory, 16 units of a peer, of the host's memory up
to Max Read Request Size within a page to read, and 4 KiB to write (R331). -/
def pieceSize (s : State) (a : Nat) (host write : Bool) : Nat :=
  if host then (if write then 4096 else min (128 * 2 ^ (portOf s true).mrrs) (4096 - a % 4096))
  else
    match placeOf s a 64 with
    | .peer .. => 1024
    | _ => 64

/-- Where a transfer moves its data: from an address, to an address or to the Mehrox's own buffer, each in host memory where
the flag says so, and whether it is a COPY. -/
structure XferPath where
  src : Nat × Bool
  dst : Option (Nat × Bool)
  copy : Bool
deriving DecidableEq, Repr

/-- A transfer goes on as far as it can, in ascending order: pieces that have come are written, then the next piece below
`stop` is asked for. Without a destination the pieces are kept. -/
def xferGo (r : RingId) (p : XferPath) (stop : Nat) (err : Option CxlErr) : Nat → State → Xfer → State × Xfer
  | 0, s, x => (s, x)
  | fuel + 1, s, x =>
    if x.fail.isSome then (s, x)
    else
      let n := min (pieceSize s (p.src.1 + x.next) p.src.2 false) (stop - x.next)
      let next : State × Xfer :=
        if n = 0 then (s, x)
        else
          match (if p.src.2 then ringAsk s r p.src.1 x.next n p.copy else ringDevice s r (p.src.1 + x.next) n none err) with
          | (s, .got bs) => xferGo r p stop err fuel s { x with next := x.next + n, parts := x.parts ++ [(x.next, bs)] }
          | (s, .sent tag) =>
            xferGo r p stop err fuel s { x with next := x.next + n, outs := x.outs ++ [(tag, x.next, n, true)] }
          | (s, .asked k) => xferGo r p stop err fuel s { x with next := x.next + n, reads := x.reads ++ [k] }
          | (s, .wait) => (s, x)
          | (s, .fail st k) => (s, { x with fail := some (st, k) })
      match p.dst, x.parts with
      | some d, (off, part) :: more =>
        let k := pieceSize s (d.1 + off) d.2 true
        let bs := part.take k
        let rest := if part.length ≤ k then more else (off + k, part.drop k) :: more
        match ringWrite s r (d.1 + off) d.2 bs err with
        | (s, .sent tag) =>
          xferGo r p stop err fuel s { x with parts := rest, outs := x.outs ++ [(tag, off, bs.length, false)] }
        | (s, .wait) => (s, x)
        | (s, .fail st k) => (s, { x with fail := some (st, k), parts := rest })
        | (s, _) => xferGo r p stop err fuel s { x with parts := rest }
      | _, _ => next

/-- The host's answer to the oldest read of a transfer: its data, or an error, which is HOST_ERROR and raises HOST_REQ_ERROR
(R331, R349). -/
def hostAnswer (s : State) (r : RingId) (x : Xfer) (reply : HostReply) : State × Xfer :=
  match s.host.reads.find? (fun q => q.who == .ring r && x.reads.contains q.seq) with
  | none => (s, x)
  | some q =>
    let s := { s with host := { s.host with reads := s.host.reads.erase q } }
    let x := { x with reads := x.reads.erase q.seq }
    match reply, replyError reply with
    | .ok bs, _ => (s, { x with parts := x.parts ++ [(q.off, (List.range q.len).map (fun i => getD bs i 0#8))] })
    | _, e => (hostError s r 0 (e.getD 0) (ringJob r) q.addr, { x with fail := x.fail.or (some (0x16#8, 0#32)) })

/-- A transfer goes on, the host's answers coming in one after another. -/
def xferRun (r : RingId) (p : XferPath) (stop fuel : Nat) (err : Option CxlErr) : List HostReply → State → Xfer → State × Xfer
  | [], s, x => xferGo r p stop err fuel s x
  | h :: hs, s, x =>
    let (s, x) := xferGo r p stop err fuel s x
    let (s, x) := hostAnswer s r x h
    xferRun r p stop fuel err hs s x

/-- Where a turn of a transfer of `len` bytes at the owner port ends: after at most 4 KiB (R342). -/
def turnEnd (p : XferPath) (x : Xfer) (len : Nat) : Nat :=
  if p.src.2 ∨ p.dst.any (·.2) then min len (x.next / 4096 * 4096 + 4096) else len

/-- Whether a transfer has moved everything, with nothing out. -/
def xferOver (x : Xfer) (len : Nat) (keep : Bool) : Bool :=
  x.outs.isEmpty && x.reads.isEmpty && decide (len ≤ x.next) && (keep || x.parts.isEmpty)

/-- Of the pieces that a failed transfer has read and not written, those that are written all the same: R246 leaves open
which. -/
def xferStray (s : State) (r : RingId) (dst : Nat × Bool) (x : Xfer) : State :=
  let (k, s) := s.fresh
  x.parts.foldl (fun (s : State) (p : Nat × List Byte) =>
    if Config.dmaWritten k p.1 then (ringWrite s r (dst.1 + p.1) dst.2 p.2 none).1 else s) s

/-- The bytes of a kept transfer. -/
def xferBytes (x : Xfer) (len : Nat) : List Byte :=
  (x.parts.foldl (fun (m : Memory) (p : Nat × List Byte) => m.write p.1 p.2) []).read 0 len

/-- The transfer of a started descriptor as it stands, none where the descriptor does something else. -/
def xferOf (d : Desc) : Option Xfer :=
  match d.run with
  | some .begun => some {}
  | some (.xfer x) => some x
  | _ => none

/-- The `i`-th fetched descriptor of a ring, where it meets a test. -/
def findDesc (s : State) (r : RingId) (i : Nat) (p : Desc → Bool) : Option Desc :=
  match goingDesc s r i with
  | none => none
  | some d => if p d then some d else none

/-- Whether a descriptor has begun an operation with no state of its own yet. -/
def begunOp (op : Nat) (d : Desc) : Bool := dOp d == op && d.run == some .begun

/-- Whether a descriptor moves data through the owner port in turns: LOAD_PROG, COPY, QPUSH and the record of a MODEL
install, where an address is the host's, and the packet of a QPOP (R342, R346, R348). -/
def usesPort (d : Desc) : Bool :=
  match d.run with
  | some (.copyOut ..) => true
  | _ =>
    (xferOf d).isSome &&
    (match dOp d with
      | 0x01 => (dN d 24 1).testBit 0
      | 0x03 => dN d 32 1 % 4 != 0
      | 0x04 => true
      | 0x08 => dN d 9 1 == 1 && (dN d 24 1).testBit 0
      | _ => false)

/-- Whether it is a ring's turn at the owner port: it is the next one, cyclically by number after the ring served last, that
has data to move (R342). -/
def inTurn (s : State) (r : RingId) : Bool :=
  ((List.range 34).map (fun k => (s.host.turn + 1 + k) % 34)).find? (fun q =>
    match fin? 34 q with
    | some q => (s.host.rings[q]).descs.any usesPort
    | none => false) == some r.val

/-- A descriptor's transfer goes on: at once where it does not use the owner port, else in its ring's turn, which then is
over (R342). -/
def portTurn (s : State) (r : RingId) (d : Desc) (act : State → State) : State :=
  if !usesPort d then act s
  else if inTurn s r then act { s with host := { s.host with turn := r.val } }
  else s

/-- A transfer is put back; one that has failed is due once nothing of it is out (R349). A COPY keeps the bytes it has
written, and may have written more (R246). -/
def xferSettle (s : State) (r : RingId) (i : Nat) (dst : Option (Nat × Bool)) (x : Xfer) : State :=
  match x.fail with
  | none => setRun1 s r i (.xfer x)
  | some (st, k) =>
    if !x.outs.isEmpty ∨ !x.reads.isEmpty then setRun1 s r i (.xfer x)
    else
      dueDesc (match dst with
        | some d => xferStray s r d x
        | none => s) r i st k.toNat

/-! ### NOP, LOAD_PROG, COPY -/

/-- HOST_NOP (R346). -/
def execHostNop (r : RingId) (s : State) (i : Nat := 0) : Out :=
  .next (match findDesc s r i (begunOp 0x00) with
    | none => s
    | some _ => dueDesc s r i 0#8)

/-- A transfer into the Mehrox's own buffer goes on; its bytes once they have all come. -/
def fetchBuf (s : State) (r : RingId) (i : Nat) (d : Desc) (src : Nat × Bool) (len : Nat) (h : Answers) :
    State × Option (List Byte) :=
  match xferOf d with
  | none => (s, none)
  | some x =>
    if !src.2 ∧ !spanOk s src.1 len then (dueDesc s r i 0x17#8 1, none)
    else
      let p : XferPath := { src := src, dst := none, copy := false }
      match xferRun r p (turnEnd p x len) (len / 64 + 2) h.err h.hs s x with
      | (s, x) =>
        if x.fail.isNone && xferOver x len true then (setRun1 s r i (.xfer x), some (xferBytes x len))
        else (xferSettle s r i none x, none)

/-- The words of a LOAD_PROG go to the instruction memory of a core (R31, R346). -/
def loadCore (c : CoreId) (start : Nat) (bs : List Byte) (count : Nat) (s : State) : State :=
  (List.range count).foldl (fun (s : State) k =>
    imemStore s c (start + k) (BitVec.ofNat 128 (leAt bs (16 * k) 16))) s

/-- LOAD_PROG goes on: once its program has come, every core named gets it, unless one is no longer HALTED (R31, R346,
R349). -/
def loadProg (s : State) (r : RingId) (i : Nat) (h : Answers) : State :=
  match findDesc s r i (fun d => dOp d == 0x01 && (xferOf d).isSome) with
  | none => s
  | some d => portTurn s r d (fun s =>
    let n := dN d 32 4
    match fetchBuf s r i d (dN d 16 8, (dN d 24 1).testBit 0) (16 * n) h with
    | (s, none) => s
    | (s, some bs) =>
      let cs := dCores d 8
      if cs.any (fun c => (s.core c).run != .halted) then dueDesc s r i 0x14#8
      else dueDesc (cs.foldl (fun (s : State) c => if s.domainOn c.val then loadCore c (dN d 28 2) bs n s else s) s) r i 0#8)

/-- LOAD_PROG (R346). -/
def execLoadProg (r : RingId) (us : List Upset) (hs : List HostReply) (err : Option CxlErr) (s : State) (i : Nat := 0) : Out :=
  .next (loadProg (strike s us) r i { hs := hs, err := err })

/-- COPY goes on; it is due once everything has been written, or once it has failed and nothing of it is out (R346,
R349). -/
def copyRun (s : State) (r : RingId) (i : Nat) (h : Answers) : State :=
  match findDesc s r i (fun d => dOp d == 0x03 && (xferOf d).isSome) with
  | none => s
  | some d => portTurn s r d (fun s =>
    let len := dN d 24 8
    let src := (dN d 8 8, (dN d 32 1).testBit 0)
    let dst := (dN d 16 8, (dN d 32 1).testBit 1)
    if (!src.2 && !spanOk s src.1 len) || (!dst.2 && !spanOk s dst.1 len) then dueDesc s r i 0x17#8 1
    else
      let x := (xferOf d).getD {}
      let p : XferPath := { src := src, dst := some dst, copy := true }
      match xferRun r p (turnEnd p x len) (2 * (len / 64) + 4) h.err h.hs s x with
      | (s, x) =>
        if x.fail.isNone && xferOver x len false then dueDesc s r i 0#8 (len / 64)
        else xferSettle s r i (some dst) x)

/-- COPY (R346). -/
def execCopy (r : RingId) (us : List Upset) (hs : List HostReply) (err : Option CxlErr) (s : State) (i : Nat := 0) : Out :=
  .next (copyRun (strike s us) r i { hs := hs, err := err })

/-- A read of host memory that a descriptor of a ring waits for times out, the oldest first: the transfer fails with
HOST_ERROR (R331, R349). -/
def ringTimeout (s : State) (r : RingId) : State :=
  match s.host.reads.find? (fun q => q.who == .ring r) with
  | none => s
  | some q =>
    let mine (d : Desc) : Bool := match d.run with
      | some (.xfer x) => x.reads.contains q.seq
      | _ => false
    match (s.host.rings[r]).descs.findIdx? mine with
    | none => { s with host := { s.host with reads := s.host.reads.erase q } }
    | some i =>
      match (goingDesc s r i).bind xferOf with
      | none => s
      | some x =>
        let (s, x) := hostAnswer s r x .timeout
        setRun1 s r i (.xfer x)

/-! ### RUN (R347) -/

/-- RUN writes CORE_PC and sets START on every core named, in ascending order. -/
def runStart (s : State) (r : RingId) (i : Nat) : State :=
  match findDesc s r i (begunOp 0x02) with
  | none => s
  | some d =>
    let s := (dCores d 8).foldl (fun (s : State) (c : CoreId) =>
      if s.domainOn c.val ∧ (s.core c).run = .halted then coreGo (s.setCore c { s.core c with pc := dN d 16 2 }) c false else s) s
    setRun1 s r i (.run (BitVec.ofNat 48 (dN d 8 6)) false)

/-- Whether a core is lent by the job of a ring: what runs on it is another job's (R358). -/
def lentOf (s : State) (r : RingId) (c : CoreId) : Bool :=
  match ringJob r with
  | some j => bit (s.lentBy j) c
  | none => false

/-- Whether a core counts as halted for a RUN of a ring: not while it is lent, nor with the status of a save (R347, R361). -/
def runHalted (s : State) (r : RingId) (c : CoreId) : Bool :=
  let k := s.core c
  !lentOf s r c && k.run == .halted && k.status != 0xF009#16 && k.status != 0xF00A#16

/-- Whether every core of a RUN has halted. -/
def runDone (s : State) (r : RingId) (d : Desc) : Bool := (dCores d 8).all (runHalted s r)

/-- Every core of a RUN has halted: its status is due. -/
def runComplete (s : State) (r : RingId) (i : Nat) : State :=
  match goingDesc s r i with
  | some d =>
    match d.run with
    | some (.run _ timedOut) =>
      if !runDone s r d then s
      else if timedOut then dueDesc s r i 0x18#8
      else
        let bad := (dCores d 8).filter (fun c => decide (0xDFFF < (s.core c).status.toNat))
        match bad with
        | [] => dueDesc s r i 0#8
        | c :: _ => dueDesc s r i 0x1A#8 ((s.core c).status.toNat + c.val * 2 ^ 16) bad.length
    | _ => s
  | none => s

/-- TIMEOUT has passed since a RUN's start: STOP on every core still running its program; a RUN whose last core has halted
completes as if it had not. -/
def runTimeout (s : State) (r : RingId) (i : Nat) : State :=
  match goingDesc s r i with
  | some d =>
    match d.run with
    | some (.run cores false) =>
      if dN d 20 4 = 0 ∨ runDone s r d then s
      else
        setRun1 ((dCores d 8).foldl (fun (s : State) (c : CoreId) => if lentOf s r c then s else coreStop s c) s) r i
          (.run cores true)
    | _ => s
  | none => s

/-- RUN (R347). -/
def execRun (r : RingId) (s : State) (i : Nat := 0) : Out := .next (runStart s r i)
/-- RUN_COMPLETE (R347). -/
def execRunComplete (r : RingId) (i : Nat) (s : State) : Out := .next (runComplete s r i)
/-- RUN_TIMEOUT_EXPIRY (R347). -/
def execRunTimeoutExpiry (r : RingId) (i : Nat) (s : State) : Out := .next (runTimeout s r i)

/-! ### QPUSH and QPOP (R346, R348) -/

/-- QPUSH goes on reading its cells from the host; once they have come they are offered to the queue one by one (R208,
R346). -/
def qpush (s : State) (r : RingId) (i : Nat) (hs : List HostReply) : State :=
  match findDesc s r i (fun d => dOp d == 0x04 && (xferOf d).isSome) with
  | none => s
  | some d => portTurn s r d (fun s =>
    let n := dN d 12 4
    let eop := (dN d 9 1).testBit 0
    match fetchBuf s r i d (dN d 16 8, true) (64 * n) { hs := hs, err := none } with
    | (s, none) => s
    | (s, some bs) =>
      let cell (k : Nat) : Cell :=
        { data := BitVec.ofNat 512 (leAt bs (64 * k) 64), mbtag := BitVec.ofNat 16 (dN d 10 2),
          eop := eop && k + 1 == n, src := BitVec.ofNat 15 s.devid, agent := 0x7F#7 }
      match fin? 256 (dN d 8 1) with
      | none => s
      | some q => setRun1 s r i (.push q ((List.range n).map cell) n))

/-- The cells of the first complete packet of a queue's visible stream, none where its EOP has not come. -/
def firstLen (k : Queue) : Option Nat :=
  let n := ((visEops k).takeWhile (fun e => !e)).length
  if n < (visEops k).length then some (n + 1) else none

/-- The cells of the chunks that hold the next `n` cells of the pool; none where a line fails and the queue resets itself
(R219). -/
def readPool (q : QId) : Nat → List Chunk → State → State × Option (List Cell)
  | _, [], s => (s, some [])
  | n, c :: rest, s =>
    if n = 0 then (s, some [])
    else
      match poolRead s q (chunkAddr s q c.idx) 2176 with
      | (s, .fail a) => (qReset s q 0x400A a, none)
      | (s, .ok bs) =>
        match readPool q (n - chunkUsed c) rest s with
        | (s, none) => (s, none)
        | (s, some more) => (s, some (chunkCells bs c ++ more))

/-- The first `n` visible cells of a queue, which stay in it; none where the pool fails. -/
def packetCells (s : State) (q : QId) (n : Nat) : State × Option (List Cell) :=
  let k := s.queues[q]
  match readPool q (n - k.head.length) k.pool s with
  | (s, none) => (s, none)
  | (s, some cells) => (s, some ((k.head ++ cells ++ k.tail).take n))

/-- A packet whose copy is complete leaves its queue (R348): Q_LAST holds its last cell, of bytes `last`. A packet that a flush or reset has taken
in the meantime is not there any more. -/
def packetGone (s : State) (q : QId) (n : Nat) (last : List Byte) : State :=
  let k := s.queues[q]
  if firstLen k ≠ some n then s
  else
    let s := s.setQueue q { removeVis k n with last := BitVec.ofNat 512 (leNat last) }
    qMarks (qSettle (s.count (queueBase q + 0xC0) 64 n) q) q

/-- QPOP starts to wait; without a TIMEOUT it is over at once where no packet is there. -/
def qpop (s : State) (r : RingId) (i : Nat) : State :=
  match findDesc s r i (begunOp 0x05) with
  | none => s
  | some d =>
    match fin? 256 (dN d 8 1) with
    | none => s
    | some q =>
      if dN d 24 4 = 0 ∧ (firstLen s.queues[q]).isNone then dueDesc s r i 0x18#8
      else setRun1 s r i (.pop q (dN d 16 8) (dN d 12 4))

/-- The copy of a QPOP's packet goes on in its ring's turn, 4 KiB at a time; once it is complete the packet leaves the queue.
It waits during a handover, and fails with the owner port's domain off (R18, R342, R348). -/
def packetCopy (s : State) (r : RingId) (i : Nat) : State :=
  match (goingDesc s r i).bind (fun (d : Desc) => d.run) with
  | some (.copyOut q dst left n mbtag) =>
    if !ownerOn s then dueDesc s r i 0x16#8
    else if s.host.ho != .none || !inTurn s r then s
    else
      let s := hostPut { s with host := { s.host with turn := r.val } } (s.ringFn r) dst (left.take 4096)
      let rest := left.drop 4096
      if rest.isEmpty then dueDesc (packetGone s q n (left.drop (left.length - 64))) r i 0#8 n mbtag
      else setRun1 s r i (.copyOut q (dst + 4096) rest n mbtag)
  | _ => s

/-- The packet of a waiting QPOP is copied to the host and removed, or is too long for the buffer; an uncorrectable line of
the pool ends it with DEVICE_ERROR (R348, R349). It waits while a controller does not serve, and during a handover. -/
def qpopComplete (s : State) (r : RingId) (i : Nat) : State :=
  match (goingDesc s r i).bind (fun (d : Desc) => d.run) with
  | some (.pop q dst cap) =>
    let s := qCheck s q
    match (if s.host.ho != .none then none else firstLen s.queues[q]) with
    | none => s
    | some n =>
      if cap < n then dueDesc s r i 0x19#8 n
      else if visWaits s q then s
      else
        match packetCells s q n with
        | (s, none) => dueDesc s r i 0x17#8 6
        | (s, some cells) =>
          let data := cells.flatMap (fun c => leBytes 64 c.data.toNat)
          packetCopy (setRun1 s r i (.copyOut q dst data n ((cells.head?.map (fun c => c.mbtag.toNat)).getD 0))) r i
  | some (.copyOut ..) => packetCopy s r i
  | _ => s

/-- TIMEOUT has passed for a waiting QPOP; a packet that is there wins. -/
def qpopTimeout (s : State) (r : RingId) (i : Nat) : State :=
  match (goingDesc s r i).bind (fun (d : Desc) => d.run) with
  | some (.pop q _ _) => if (firstLen s.queues[q]).isSome then s else dueDesc s r i 0x18#8
  | _ => s

/-- QPUSH (R346). -/
def execQpush (r : RingId) (hs : List HostReply) (s : State) (i : Nat := 0) : Out := .next (qpush s r i hs)
/-- QPOP (R348). -/
def execQpop (r : RingId) (s : State) (i : Nat := 0) : Out := .next (qpop s r i)
/-- QPOP_COMPLETE (R348). -/
def execQpopComplete (r : RingId) (i : Nat) (us : List Upset) (s : State) : Out := .next (qpopComplete (strike s us) r i)
/-- QPOP_TIMEOUT_EXPIRY (R348). -/
def execQpopTimeoutExpiry (r : RingId) (i : Nat) (s : State) : Out := .next (qpopTimeout s r i)

/-! ### SIGNAL (R52, R54, R346) -/

/-- A SIGNAL descriptor reaches its core, or is held while the core is saved or saving. -/
def hostSignal (s : State) (r : RingId) (i : Nat) : State :=
  match findDesc s r i (begunOp 0x06), ringJob r with
  | some d, some j =>
    match sigPath s (some j) (dN d 8 1) with
    | .hold => s
    | .drop => dueDesc s r i 0x13#8
    | .apply t => dueDesc (semAdd s t (dN d 9 1) (dN d 10 2)) r i 0#8
  | _, _ => s

/-- HOST_SIGNAL (R346). -/
def execHostSignal (r : RingId) (s : State) (i : Nat := 0) : Out := .next (hostSignal s r i)

/-! ### MODEL (R367 to R369) -/

/-- A MODEL descriptor of an action that has not finished. -/
def modelOp (action : Nat) (d : Desc) : Bool := dOp d == 0x08 && dN d 9 1 == action && (xferOf d).isSome

/-- The status a failed copy completes a MODEL descriptor with. -/
def copyDue (s : State) (r : RingId) (i : Nat) (ok : Bool) : State :=
  if ok then dueDesc s r i 0#8 else dueDesc s r i 0x17#8 6

/-- What a descriptor on a model entry comes to where the entry has changed since it started: BAD_FIELD or NOT_OWNED
(R368, R373). -/
def entryStatus (s : State) (r : RingId) (j : Nat) (d : Desc) : Option (BitVec 8) :=
  if !fieldsOk s r d then some 0x11#8 else if !owned s j d then some 0x13#8 else none

/-- MODEL install: the record is read, its checks made in the order of R349, and the image made resident. -/
def modelInstall (s : State) (r : RingId) (i : Nat) (h : Answers) : State :=
  match findDesc s r i (modelOp 1), ringJob r with
  | some d, some j => portTurn s r d (fun s =>
    let e := dN d 8 1
    let prio := dN d 10 1
    match fetchBuf s r i d (dN d 16 8, (dN d 24 1).testBit 0) 64 h with
    | (s, none) => s
    | (s, some m) =>
      match (if recOk s m then entryStatus s r j d else some 0x11#8) with
      | some st => dueDesc s r i st
      | none =>
        if mrTier m == 1 && (mrCores m).any (fun c => !s.inSet j c) then dueDesc s r i 0x13#8
        else if !roomFor s e j prio m then dueDesc s r i 0x15#8
        else if !installReady s e m then s
        else
          let (s, ok) := rmtInstall s e j prio m h.err
          copyDue s r i ok)
  | _, _ => s

/-- MODEL evict. -/
def modelEvict (s : State) (r : RingId) (i : Nat) (err : Option CxlErr) : State :=
  match findDesc s r i (modelOp 2), ringJob r with
  | some d, some j =>
    let e := dN d 8 1
    match entryStatus s r j d with
    | some st => dueDesc s r i st
    | none =>
      if rmtState s e == 1 && !recServed s (rmtRec s e) then s
      else
        let (s, ok) := rmtEvict s e err
        copyDue s r i ok
  | _, _ => s

/-- MODEL pin, unpin or set priority: RMT_CFG of the entry changes. -/
def modelSet (s : State) (r : RingId) (i : Nat) (action : Nat) (f : W64 → Desc → W64) : State :=
  match findDesc s r i (modelOp action), ringJob r with
  | some d, some j =>
    match entryStatus s r j d with
    | some st => dueDesc s r i st
    | none => dueDesc (setRmt s (dN d 8 1) (f (rmtCfg s (dN d 8 1)) d)) r i 0#8
  | _, _ => s

/-- MODEL_INSTALL (R368, R369). -/
def execModelInstall (r : RingId) (us : List Upset) (hs : List HostReply) (err : Option CxlErr) (s : State) (i : Nat := 0) : Out :=
  .next (modelInstall (strike s us) r i { hs := hs, err := err })
/-- MODEL_EVICT (R368). -/
def execModelEvict (r : RingId) (us : List Upset) (err : Option CxlErr) (s : State) (i : Nat := 0) : Out :=
  .next (modelEvict (strike s us) r i err)
/-- MODEL_PIN (R368). -/
def execModelPin (r : RingId) (s : State) (i : Nat := 0) : Out := .next (modelSet s r i 3 (fun v _ => setBit v 2))
/-- MODEL_UNPIN (R368). -/
def execModelUnpin (r : RingId) (s : State) (i : Nat := 0) : Out := .next (modelSet s r i 4 (fun v _ => clrBit v 2))
/-- MODEL_SET_PRIORITY (R368). -/
def execModelSetPriority (r : RingId) (s : State) (i : Nat := 0) : Out :=
  .next (modelSet s r i 5 (fun v d => setFld v 8 8 (dN d 10 1)))

/-! ### GENERATE (R373, R375) -/

/-- The request cell of a monitored request (R373). -/
def requestCell (s : State) (d : Desc) (slot : Nat) : Cell :=
  let bs := leBytes 2 (dN d 10 2) ++ leBytes 1 (dN d 8 1) ++ leBytes 1 (dN d 9 1) ++ leBytes 4 (dN d 16 4) ++
    leBytes 1 slot ++ leBytes 3 0 ++ leBytes 4 (dN d 20 4) ++ leBytes 8 d.fetched.toNat
  { data := BitVec.ofNat 512 (leNat bs), mbtag := BitVec.ofNat 16 (dN d 10 2), eop := true,
    src := BitVec.ofNat 15 s.devid, agent := 0x7F#7 }

/-- An EVICTED entry is refilled; false where R369 refuses it or the copy fails. -/
def refill (s : State) (e j : Nat) (err : Option CxlErr) : State × Bool :=
  if rmtState s e ≠ 2 then (s, true)
  else
    let m := rmtRec s e
    let pinned := rmtPinned s e
    if !roomFor s e j (rmtPrio s e) m then (s, false)
    else
      let (s, ok) := rmtInstall s e j (rmtPrio s e) (padTo 64 m) err
      (if ok && pinned then setRmt s e (setBit (rmtCfg s e) 2) else s, ok)

/-- Whether the refill of an entry can run now. -/
def refillReady (s : State) (e : Nat) : Bool := rmtState s e != 2 || installReady s e (rmtRec s e)

/-- GENERATE: the entries are refilled, the lowest free monitor slot is taken, and the request cell is offered to QIN
(R373). -/
def generate (s : State) (r : RingId) (i : Nat) (err : Option CxlErr) : State :=
  match findDesc s r i (begunOp 0x07), ringJob r with
  | some d, some j =>
    let e := dN d 8 1
    let f := dN d 9 1
    if (entryStatus s r j d).isSome then dueDesc s r i ((entryStatus s r j d).getD 0#8)
    else if !refillReady s e || (f != 0xFF && !refillReady s f) then s
    else
      match refill s e j err with
      | (s, false) => dueDesc s r i 0x15#8
      | (s, true) =>
        match (if f = 0xFF then (s, true) else refill s f j err) with
        | (s, false) => dueDesc s r i 0x15#8
        | (s, true) =>
          match (allFin 64).find? (fun k => (s.jobs.monitors[k]).isNone), fin? 256 (dN d 12 1), fin? 256 (dN d 13 1) with
          | some k, some qin, some qout =>
            let m : Monitor := { job := j, ring := r.val, mbtag := BitVec.ofNat 16 (dN d 10 2), qin := qin, qout := qout,
                                 tokens := dN d 16 4, deadline := dN d 20 4, t0 := d.fetched, entry := e, fallback := f }
            let s := writeWord (setMonitor s k (some m)) k.val m true
            setRun1 s r i (.gen k.val qin (some (requestCell s d k.val)))
          | _, _, _ => dueDesc s r i 0x15#8
  | _, _ => s

/-- GENERATE (R373). -/
def execGenerate (r : RingId) (us : List Upset) (err : Option CxlErr) (s : State) (i : Nat := 0) : Out :=
  .next (generate (strike s us) r i err)

end Sys2Proof.Machine
end

