-- ==== Sys2Proof/Machine/JobCmds.lean ====
section
/-!
DEFINITION. Jobs and core sets (R357 to R360), preemption (R363, R364) and the closing of a job (R372).
-/

namespace Sys2Proof.Machine

/-! ### Opening, placing and releasing -/

/-- JOB_OPEN records the job in JP_CFG and JP_ALLOWED, unless another job has come to use its VF or it has been opened
meanwhile (R349, R357). -/
def openJob (s : State) (i : Nat) : State :=
  match findDesc s 0 i (begunOp 0x41) with
  | none => s
  | some d =>
    let j := dN d 8 1
    if !fieldsOk s 0 d then dueDesc s 0 i 0x11#8
    else if s.jobOpen j then dueDesc s 0 i 0x12#8
    else
      let s := s.wr (jpBase j) (BitVec.ofNat 64 (1 + dN d 9 1 * 2 + dN d 10 1 * 16))
      dueDesc (s.wr (jpBase j + 8) (BitVec.ofNat 64 (dN d 16 6))) 0 i 0#8

/-- JOB_OPEN (R357). -/
def execJobOpen (s : State) (i : Nat := 0) : Out := .next (openJob s i)

/-- A core comes to be held by a job (R358). -/
def holdCore (s : State) (c : CoreId) (j : Nat) : State :=
  (s.orReg (jpBase j + 0x10) (BitVec.ofNat 64 (2 ^ c.val))).wr (coreBase c + 0x30) (BitVec.ofNat 64 (0x100 + j))

/-- The cores a job holds, ascending. -/
def heldCores (s : State) (j : Nat) : List CoreId := (allFin 48).filter (fun (c : CoreId) => bit (s.heldBy j) c.val)

/-- The mask of some cores. -/
def coreMask (cs : List CoreId) : Nat := cs.foldl (fun n (c : CoreId) => n + 2 ^ c.val) 0

/-- A write of JP_PLACE: with GO, the COUNT lowest-numbered free cores of the allowed mask are taken, or none (R359). The core
mask that JOB_PLACE_FAIL carries is the allowed mask (DEDUCED, log entry 53). -/
def jobPlace (s : State) (j : JobId) (v : W64) : State :=
  if !bit v 6 then s
  else
    let n := fld v 0 6
    let cs : List CoreId := ((allFin 48).filter (fun (c : CoreId) => bit (s.rd (jpBase j + 8)) c.val && coreFree s c)).take n
    if cs.length < n then (s.wr (jpBase j + 0x28) bit63).raise 0x0100 0 0 (some j.val) (fld (s.rd (jpBase j + 8)) 0 48) 0
    else
      (cs.foldl (fun (s : State) (c : CoreId) => holdCore s c j) s).wr (jpBase j + 0x28) (BitVec.ofNat 64 (coreMask cs))

/-- A core leaves the job that holds it: it returns to the job whose saved image it carries, HALTED with the status of
the save, or becomes free (R360). -/
def freeCore (s : State) (c : CoreId) (j : Nat) : State :=
  let s := s.wr (jpBase j + 0x10) (clrBit (s.heldBy j) c)
  match (List.range 16).find? (fun i => bit (s.lentBy i) c) with
  | none => s.wr (coreBase c + 0x30) 0#64
  | some i =>
    let s := holdCore (s.wr (jpBase i + 0x18) (clrBit (s.lentBy i) c)) c i
    let s := match tget s.jobs.saved (c.val * 16 + i) with
      | some sv => s.setCore c { s.core c with status := sv.status }
      | none => s
    s.raise 0x0103 0 0 (some i) (2 ^ c.val) 0

/-- A write of JP_RELEASE: every named core that the job holds and that is HALTED is released (R360). -/
def jobRelease (s : State) (j : JobId) (m : W64) : State :=
  ((heldCores s j).filter (fun c => bit m c.val && (s.core c).run == .halted)).foldl
    (fun (s : State) (c : CoreId) => freeCore s c j) s

/-- JOB_PLACE (R359). -/
def execJobPlace (j : JobId) (v : W64) (s : State) : Out := .next (s.ifOn 48 (jobPlace s j v))
/-- JOB_RELEASE (R360). -/
def execJobRelease (j : JobId) (m : W64) (s : State) : Out := .next (s.ifOn 48 (jobRelease s j m))

/-! ### Preemption (R363, R364) -/

/-- PREEMPT sets YIELD_REQ on every victim and starts its timer (R364). -/
def preempt (s : State) (i : Nat) : State :=
  match findDesc s 0 i (begunOp 0x43) with
  | none => s
  | some d =>
    match (if s.jobOpen (dN d 8 1) then preemptStatus s d else some 0x12#8) with
    | some st => dueDesc s 0 i st
    | none =>
      let j := dN d 8 1
      let vs := dCores d 16
      let (id, s) := s.fresh
      let s := vs.foldl (fun (s : State) (c : CoreId) => yieldReq s c true) s
      let s := { s with jobs := { s.jobs with victims := s.jobs.victims ++ vs.map (fun c => { core := c, job := j, id := id }) } }
      preemptCheck (setRun1 s 0 i (.preempt id j (coreMask vs))) id

/-- PREEMPT_TIMEOUT has passed for a victim: a forced save begins unless the core has halted or a YIELD has been honoured, and
stops the beat's timer (R56, R364, R387). -/
def preemptTimeout (s : State) (c : CoreId) : State :=
  if s.jobs.victims.any (fun v => v.core == c) && (s.core c).run == .running then startDrain (stopBeat s c) c .forced else s

/-- PREEMPT (R363). -/
def execPreempt (s : State) (i : Nat := 0) : Out := .next (preempt s i)
/-- PREEMPT_TIMEOUT_EXPIRY (R364). -/
def execPreemptTimeoutExpiry (c : CoreId) (s : State) : Out := .next (s.live (preemptTimeout s c))

/-! ### Closing a job (R371, R372) -/

/-- A monitored request ends before its last token: its slot is free and ACTIVE of its control word cleared, and its descriptor is due
with a status and RESULT (R376). -/
def endMonitor (s : State) (i : Fin 64) (status : BitVec 8) (result : BitVec 32) : State :=
  match s.jobs.monitors[i] with
  | none => s
  | some m => monitorDue (setMonitor (writeWord s i m false) i none) i m.ring status result 0#16

/-- A monitored request ends with ABORTED (R376). -/
def abortMonitor (s : State) (i : Fin 64) : State := endMonitor s i 0x1C#8 0#32

/-- The steps of a JOB_CLOSE once its cores are HALTED; false where the write-back of an image failed (R371, R372). -/
def closeJob (s : State) (j : Nat) (err : Option CxlErr) : State × Bool :=
  let held := heldCores s j
  let mine (c : CoreId) : Bool := s.jobOf c == some j
  let s := (allFin 2).foldl (fun (s : State) (u : DuId) =>
    cancelRun (forceCancel s u j 0 (fun e => mine e.core)) u (fun r => r.job == some j)) s
  let s := { s with jobs := { s.jobs with saved := s.jobs.saved.filter (fun e => e.2.job != j) } }
  let s := s.wr (jpBase j + 0x18) 0#64
  let s := (allFin 64).foldl (fun (s : State) (i : Fin 64) =>
    if (s.jobs.monitors[i]).any (fun m => m.job == j) then abortMonitor s i else s) s
  let s := { s with jobs := { s.jobs with words := s.jobs.words.filter (fun w => w.job != j) } }
  let (s, ok) := rmtClose s j err
  let s := held.foldl (fun (s : State) (c : CoreId) =>
    freeCore (clearRegions s c ((List.range 64).filter (fun g => !geckoDenied s c (some j) g))) c j) s
  ((s.wr (jpBase j) 0#64).wr (jpBase j + 8) 0#64, ok)

/-- JOB_CLOSE goes on: with FORCE each core of the job is stopped first (R372). The job is closed and the descriptor completes with
DEVICE_ERROR where an image could not be written back (R349, R368). -/
def closeRun (s : State) (i : Nat) (err : Option CxlErr) : State :=
  match findDesc s 0 i (fun d => dOp d == 0x42 && (d.run == some .begun || d.run == some (.close (dN d 8 1)))) with
  | none => s
  | some d =>
    let j := dN d 8 1
    let force := (dN d 9 1).testBit 0
    let held := heldCores s j
    let s := if force && d.run == some .begun then held.foldl (fun (s : State) (c : CoreId) => coreStop s c) s else s
    if held.all (fun c => (s.core c).run == .halted) then
      if !force && s.lentBy j != 0#64 then dueDesc s 0 i 0x12#8
      else if (List.range 8).any (fun e => rmtState s e == 1 && rmtJob s e == j && !recServed s (rmtRec s e)) then
        setRun1 s 0 i (.close j)
      else
        match closeJob s j err with
        | (s, true) => dueDesc s 0 i 0#8
        | (s, false) => dueDesc s 0 i 0x17#8 6
    else if force then setRun1 s 0 i (.close j)
    else dueDesc s 0 i 0x12#8

/-- JOB_CLOSE (R372). -/
def execJobClose (us : List Upset) (err : Option CxlErr) (s : State) (i : Nat := 0) : Out := .next (closeRun (strike s us) i err)

end Sys2Proof.Machine
end

