-- ==== Sys2Proof/Machine/Power.lean ====
section
/-!
DEFINITION. The power domains (R394 to R396), boot (R397, R398, R411, R412), the resets (R13, R399, R400), clock loss
(R401), the thermal trip (R405), brumation (R406 to R408) and the watchdog (R409).
-/

namespace Sys2Proof.Machine

/-! ### The domain tree (R394) -/

/-- The parent of a domain. -/
def pdParent (d : Nat) : Option Nat :=
  if d = 63 then none
  else if d = 62 then some 63
  else if d = 48 then some 62
  else if d = 49 then some 48
  else if d < 24 ∨ (50 ≤ d ∧ d ≤ 52) ∨ d = 56 ∨ d = 58 ∨ d = 60 then some 48
  else some 49

/-- The children of a domain. -/
def childrenOf (d : Nat) : List Nat := (List.range 64).filter (fun x => pdParent x == some d)

/-- PD_STATE. -/
def pdState (s : State) : W64 := s.rd (pwrBase + 0x60)

/-- A bit of PD_STATE is written. -/
def setPd (s : State) (d : Nat) (on : Bool) : State := s.wr (pwrBase + 0x60) (putBit (pdState s) d on)

/-- The ACLK frequency in MHz (R421). -/
def aclk (s : State) : Nat := fld (s.rd (pwrBase + 0x30)) 0 12

/-- A power event about a domain (R385). -/
def pwrEv (s : State) (code d : Nat) : State := s.record code 0 0 none none d (aclk s)

/-- The domain of the owner port. -/
def ownerDomain (s : State) : Nat := if s.host.ownerB then 61 else 60

/-! ### The registers of a domain (R13, R16) -/

/-- Whether a register lies in a domain. -/
def inDomain (d a : Nat) : Bool :=
  let within (lo n : Nat) : Bool := decide (lo ≤ a ∧ a < lo + n)
  let du1 := within (duBase 1) 0x10000
  if d < 48 then within (coreBase d) 0x10000
  else if d = 48 then
    within (queueBase 0) 0x20000 || within telBase 0x100000 || (decide (a < 0x400000) && !du1 && a != 0x1010)
  else if d = 49 then within (queueBase 128) 0x20000 || du1
  else if d < 56 then within (linkBase (4 * (d - 50))) 0x10000
  else if d < 58 then within (ctrlBase (12 * (d - 56))) 0xC000
  else if d < 60 then within (cxlBase (2 * (d - 58))) 0x8000
  else if d = 62 then within secBase 0x100000 || a == 0x1010
  else if d = 63 then within pwrBase 0x100000
  else false

/-- Whether a register has no PDR among its reset domains: the host registers, the rings and the host windows, the registers of the
jobs, the memory registers, and DEVID (R266, R297, R341, R355, R377). -/
def noPdr (a : Nat) : Bool :=
  (decide (0x1000 ≤ a) && decide (a < 0x5000)) || (decide (0x8000 ≤ a) && decide (a < 0x10000)) ||
    (decide (memBase ≤ a) && decide (a < lnkBase + 8))

/-- The registers of a domain that its PDR resets go to their reset values (R13). -/
def clearDomain (s : State) (d : Nat) : State :=
  { s with regs := s.regs.filter (fun e => !(inDomain d e.1 && !noPdr e.1)) }

/-- The PDR reset of a domain that has come on. That of PD49 also resets the module-wide link registers and the routing table (R13,
R297; DEDUCED, log entry 60, for the routing table). -/
def pdrReset (s : State) (d : Nat) : State :=
  let s := clearDomain s d
  if d ≠ 49 then s
  else { s with regs := s.regs.filter (fun e => !((decide (lnkBase < e.1) && decide (e.1 < lnkBase + 0x10000)) ||
    (decide (0x100000 ≤ e.1) && decide (e.1 < 0x140000)))) }

/-! ### Switching off (R395, R396) -/

/-- The step of every job that holds a core or is open fails. -/
def failJobs (s : State) (which : Nat → Bool) : State :=
  (List.range 16).foldl (fun (s : State) j => if which j then s.failStep (some j) else s) s

/-- A core loses its power: what hangs on it is told as for a halt, and its state is gone. The job that holds it goes on
holding it. -/
def coreOff (s : State) (c : CoreId) : State :=
  let s := if (s.core c).run == .halted then s else onHalted s c
  let s := clearDomain s c.val
  ((s.setCore c {}).setUnit c {}).setLoc c localOff

/-- A half of the queue engine and the dispatch unit of its die lose their power; with die 0 so do what the rings hold, the
preemptions and monitored requests, the reduction logic, packets and telemetry; BELAY_N is released (R444). The indices and errors of
the rings, RING_LOST and the jobs have no PDR among their reset domains and stay (R341, R377). -/
def fabricOff (s : State) (die : Nat) : State :=
  let s := failJobs s (fun j => (allFin 256).any (fun q => (q.val < 128) == (die == 0) && qOn s q && qJob s q == j) || die == 0)
  let s := (allFin 256).foldl (fun (s : State) (q : QId) => if (q.val < 128) == (die == 0) then s.setQueue q {} else s) s
  let s := if die = 0 then s.setDu 0 {} else s.setDu 1 {}
  let s := clearDomain s (48 + die)
  if die ≠ 0 then s
  else
    { s with jobs := { saved := s.jobs.saved, words := s.jobs.words }, rcl := {}, tel := {}, net := {}, pins := { s.pins with belayLow := false }
             host := { s.host with rings := s.host.rings.map (fun k => { k with descs := [], timer := false }), waits := []
                                   reads := s.host.reads.filter (fun q => match q.who with | .ring _ => false | _ => true) } }

/-- The fetched descriptors of a ring from the `i`-th on that `lost` names complete with DEVICE_ERROR, in their order. -/
def ringFails (lost : Desc → Bool) (r : RingId) : Nat → Nat → State → State
  | 0, _, s => s
  | fuel + 1, i, s =>
    match descAt s r i with
    | none => s
    | some d =>
      if lost d then
        let s := match d.run with
          | some (.gen slot _ _) =>
            match fin? 64 slot with
            | some k => endMonitor s k 0x17#8 6#32
            | none => s
          | _ => s
        ringFails lost r fuel i (descComplete (dueDesc s r i 0x17#8 6) r i)
      else ringFails lost r fuel (i + 1) s

/-- The fetched descriptors of every ring that `lost` names complete with DEVICE_ERROR (R18, R396). DEDUCED, log entry 60: code
0x06. -/
def ringsFail (s : State) (lost : Desc → Bool) : State :=
  (allFin 34).foldl (fun (s : State) (r : RingId) =>
    if sqRing r then ringFails lost r (s.host.rings[r]).descs.length 0 s else s) s

/-- Whether a started descriptor waits for a queue of die 1: a QPUSH, a QPOP or a GENERATE with its QIN or QOUT there. -/
def onDie1 (d : Desc) : Bool :=
  match d.run with
  | some (.push q _ _) => decide (128 ≤ q.val)
  | some (.pop q _ _) => decide (128 ≤ q.val)
  | some (.copyOut q _ _ _ _) => decide (128 ≤ q.val)
  | some (.gen _ q _) => decide (128 ≤ q.val ∨ 128 ≤ dN d 13 1)
  | _ => false

/-- Every read of host memory that is out fails as a completion timeout does (R18, R396). -/
def readsFail (s : State) : State :=
  (List.range s.host.reads.length).foldl (fun (s : State) _ =>
    match s.host.reads.head? with
    | none => s
    | some q =>
      match q.who with
      | .dma c ch => dmaHostTimeout s c ch
      | .ring r => ringTimeout s r) s

/-! ### The functions of a port (R331, R333) -/

/-- The owner port's or the standby port's configuration is replaced. -/
def setPort (s : State) (owner : Bool) (p : PortFn) : State :=
  { s with host := if s.host.ownerB == owner then { s.host with fnB := p } else { s.host with fnA := p } }

/-- The functions of a port, as MSI-X counts them. -/
def portFns (hb : Bool) (k : Nat) : Bool := if hb then decide (32 ≤ k) else decide (k < 32)

/-- Functions of the ports go to their reset: MSI-X off, every vector masked, nothing pending. -/
def fnReset (s : State) (which : Nat → Bool) : State :=
  let h := s.host
  let gone (k : Nat) : Bool := which (k / 4096)
  { s with host := { h with
      fnOn := h.fnOn.filter (fun f => !which f)
      vecOpen := h.vecOpen.filter (fun k => !gone k)
      vecPending := h.vecPending.filter (fun k => !gone k)
      vecAddr := h.vecAddr.filter (fun e => !gone e.1)
      vecData := h.vecData.filter (fun e => !gone e.1) } }

/-- A port's functions are reset (R333). -/
def portReset (s : State) (hb : Bool) : State := fnReset (setPort s (s.host.ownerB == hb) {}) (portFns hb)

/-- Four links lose their power (R273). -/
def opticsOff (s : State) (k : Nat) : State :=
  let s := (allFin 24).foldl (fun (s : State) (l : LinkId) =>
    if l.val / 4 ≠ k then s
    else
      let s := linkLeave s l
      s.setLink l { linkFresh s.links[l] .down with params := 0 }) s
  clearDomain s (50 + k)

/-- The contents of the devices of a die are lost. -/
def gddrLost (s : State) (die : Nat) : State :=
  let mine (a : Nat) : Bool := (decide ((ctrlOf a).val < 12)) == (die == 0)
  { s with gddr := s.gddr.filter (fun c => !mine c.1), gddrErr := s.gddrErr.filter (fun e => !mine (64 * e.1))
           mem := { s.mem with crc := s.mem.crc.filter (fun e => !mine (64 * e.1))
                               plain := die :: s.mem.plain.filter (fun x => x != die) } }

/-- The controllers of a die lose their power: what they hold fails, and their devices' contents are lost unless they
are in self-refresh (R250, R406). -/
def memoryOff (s : State) (die : Nat) (keep : Bool) : State :=
  let s := (allFin 24).foldl (fun (s : State) (g : CtrlId) =>
    if (decide (g.val < 12)) == (die == 0) then (failHeld s g).setCtrl g { done := (s.ctrls[g]).done } else s) s
  let s := if keep then s else gddrLost s die
  clearDomain s (56 + die)

/-- Two CXL ports lose their power (R263, R440). -/
def cxlOff (s : State) (die : Nat) : State :=
  let s := (allFin 4).foldl (fun (s : State) (p : PortId) =>
    if (decide (p.val < 2)) == (die == 0) then
      (cxlPins (cxlDown (cxlDown s p false) p true) p false false).setCxl p {}
    else s) s
  clearDomain s (58 + die)

/-- A host port's data link goes down; HOST_LINK_DOWN where it was up (R356). -/
def portDown (s : State) (hb : Bool) : State :=
  let up := if hb then s.host.upB else s.host.upA
  if !up then s
  else
    let h := s.host
    ({ s with host := if hb then { h with upB := false } else { h with upA := false } }).raise 0x0009 0 0 none 0 0

/-- A domain that is on switches off, whatever it holds. -/
def domainOff (s : State) (d : Nat) (keep : Bool) : State :=
  if !bit (pdState s) d then s
  else
    let s := setPd s d false
    let s := { s with power := { s.power with switching := s.power.switching.filter (fun x => x != d) } }
    match fin? 48 d with
    | some c => coreOff s c
    | none =>
      if d = 48 ∨ d = 49 then fabricOff s (d - 48)
      else if d < 56 then opticsOff s (d - 50)
      else if d < 58 then memoryOff s (d - 56) keep
      else if d < 60 then cxlOff s (d - 58)
      else if d < 62 then
        let s := if d = ownerDomain s then readsFail s else s
        portReset (portDown s (d == 61)) (d == 61)
      else s

/-- The domains below a domain and itself, children first. -/
def subtree (d : Nat) : List Nat :=
  if d = 48 then
    (List.range 64).filter (fun x => x != 48 && x != 49 && x < 62) ++ [49, 48]
  else if d = 49 then childrenOf 49 ++ [49]
  else if d = 62 then (List.range 64).filter (fun x => x != 48 && x != 49 && x < 62) ++ [49, 48, 62]
  else [d]

/-- Every domain of a list switches off in order. -/
def domainsOff (s : State) (ds : List Nat) (keep : Bool) : State := ds.foldl (fun (s : State) d => domainOff s d keep) s

/-! ### Switching on (R395) -/

/-- A domain has come on, with its PDR reset: a core comes up HALTED with every bank on and zeroed, and the firmware writes its repair
records again (R88). -/
def domainOn1 (s : State) (d : Nat) : State :=
  let s := pdrReset (setPd s d true) d
  match fin? 48 d with
  | none => s
  | some c => repairCore (((s.setCore c {}).setUnit c {}).setLoc c {}) c

/-- A domain comes on in a boot sequence, where its parent is on and no power stage has faulted it (R394, R396). -/
def bootOn (s : State) (d : Nat) : State :=
  match pdParent d with
  | none => s
  | some p =>
    if bit (pdState s) p ∧ !bit (pdState s) d ∧ !bit (s.rd (pwrBase + 0x78)) d then domainOn1 s d else s

/-- PD_SWITCH_ON_COMPLETE: a domain that switches on has come on (R395). -/
def switchedOn (s : State) (d : Nat) : State :=
  if !s.power.switching.contains d then s
  else
    let s := { s with power := { s.power with switching := s.power.switching.filter (fun x => x != d) } }
    match pdParent d with
    | some p => if bit (pdState s) p ∧ !bit (pdState s) d then domainOn1 s d else s
    | none => s

/-! ### PD_REQ (R395) -/

/-- Whether any job is open. -/
def anyOpen (s : State) : Bool := (List.range 16).any s.jobOpen

/-- Whether a request to switch a domain off is refused. -/
def offRefused (s : State) (d : Nat) : Bool :=
  (childrenOf d).any (fun c => bit (pdState s) c) || d == ownerDomain s || d == 62 || d == 63 ||
  (match fin? 48 d with
    | some c => !coreFree s c || (s.core c).run != .halted || s.rd (coreBase c + 0x4018) != 0#64
    | none =>
      if 50 ≤ d ∧ d ≤ 55 then (allFin 24).any (fun l => l.val / 4 == d - 50 && linkEn s l)
      else if d = 48 ∨ d = 49 ∨ (56 ≤ d ∧ d ≤ 59) then anyOpen s
      else false)

/-- A bit of PD_REFUSED is written by the latest request for its domain. -/
def pdRefused (s : State) (d : Nat) (r : Bool) : State :=
  s.wr (pwrBase + 0x70) (putBit (s.rd (pwrBase + 0x70)) d r)

/-- One domain of a PD_REQ write, judged by PD_STATE as it was before the write. -/
def pdRequest (before : State) (v : W64) (s : State) (d : Nat) : State :=
  let on := bit (pdState before) d
  if bit v d = on then s
  else if on then
    if offRefused before d then pdRefused s d true else domainOff (pdRefused s d false) d false
  else if bit (s.rd (pwrBase + 0x78)) d ∨ s.power.switching.contains d then s
  else
    match pdParent d with
    | none => s
    | some p =>
      if bit (pdState before) p then
        let s := pdRefused s d false
        { s with power := { s.power with switching := s.power.switching ++ [d] } }
      else pdRefused s d true

/-- A write of the bits of PD_REQ for the domains `ds` (R395). -/
def pdReqWrite (s : State) (v : W64) (ds : List Nat) : State :=
  let a := pwrBase + 0x68
  let t := s.wr a (ds.foldl (fun (x : W64) d => putBit x d (bit v d)) (s.rd a))
  ds.foldl (pdRequest s v) t

/-- Whether a sender is the owner PF or the management firmware. -/
def ownerOrMgmt (b : Sender) : Bool :=
  match b with
  | .owner => true
  | .mgmt => true
  | _ => false

/-- PD_REQ_WRITE (R395). -/
def execPdReqWrite (b : Sender) (v : W64) (s : State) : Out := .next (if ownerOrMgmt b && hears s b then pdReqWrite s v (List.range 64) else s)
/-- PD_SWITCH_ON_COMPLETE (R395). -/
def execPdSwitchOnComplete (d : Fin 64) (s : State) : Out := .next (switchedOn s d)

/-- A power stage reports a fault: the domain and its descendants switch off, PD_FAULT is raised, what their units hold
completes with an error, and the step of each job concerned fails (R396). -/
def stageFault (s : State) (d : Nat) : State :=
  if !bit (pdState s) d ∨ d = 63 then s
  else
    let lost (c : CoreId) : Bool := (subtree d).contains c.val && bit (pdState s) c.val
    let s := failJobs s (fun j => (allFin 48).any (fun c => lost c && s.inSet j c.val))
    let s := if (subtree d).contains 48 then ringsFail s (fun _ => true)
      else if d = 49 then ringsFail s onDie1
      else s
    let s := domainsOff s (subtree d) false
    pwrEv (s.orReg (pwrBase + 0x78) (BitVec.ofNat 64 (2 ^ d))) 0x8003 d

/-- POWER_STAGE_FAULT (R396). -/
def execPowerStageFault (d : Fin 64) (s : State) : Out := .next (stageFault s d)

/-! ### The image and its verification (R411, R415) -/

/-- The keys the boot ROM accepts (R415): Slatal's, and the enrolled owner's where the record matches its hash in OTP. -/
def acceptedKeys (s : State) : List (List Byte) :=
  let slatal := leBytes 64 Config.slatalKey.toNat
  let rec_ := s.sec.flash.read 0x1010000 64
  let owner := if sha256 rec_ = s.sec.ownerHash then [rec_] else []
  if !s.sec.ownerMode then [slatal]
  else if s.sec.acceptSlatal then owner ++ [slatal]
  else owner

/-- The first check that an image with its header fails, as a status of R419; none where it passes (R411). -/
def imageCheck (s : State) (m : Memory) : Option Nat :=
  let h := m.read 0 4096
  let len := leAt h 8 4
  let form := leAt h 0 2 == 1 && decide (leAt h 2 2 < 2) && leAt h 12 4 == 0 && (h.drop 144).all (· == 0#8) &&
    decide (64 ≤ len ∧ len ≤ 16773120)
  if !form then some 3
  else
    match (acceptedKeys s).find? (fun k => sha256 k == (h.drop 48).take 32) with
    | none => some 5
    | some key =>
      if !ecdsaOk key (sha256 (h.take 80)) ((h.drop 80).take 64) then some 2
      else if sha256 (m.read 4096 len) ≠ (h.drop 16).take 32 then some 3
      else if leAt h 4 4 < s.sec.minSvn then some 4
      else none

/-- A security event with the status it carries (R385). -/
def secEv (s : State) (code status : Nat) : State := s.record code 0 0 none none status 0

/-- The boot ROM verifies the image of the flash: it starts the firmware, with the image's measurement and SVN, or enters
recovery with FW_VERIFY_FAIL (R411, R412, R422). True where the firmware starts. -/
def verifyBoot (s : State) : State × Bool :=
  match imageCheck s s.sec.flash with
  | some st => ({ secEv s 0x9000 st with power := { s.power with recovery := true } }, false)
  | none =>
    let h := s.sec.flash.read 0 4096
    let svn := leAt h 4 4
    let meas := sha256 (s.sec.flash.read 4096 (leAt h 8 4))
    let s := (List.range 4).foldl (fun (s : State) i =>
      s.wr (secBase + 0x40 + 8 * i) (BitVec.ofNat 64 (leAt meas (8 * i) 8))) s
    ({ s with sec := { s.sec with svn := svn, minSvn := if leAt h 2 1 % 2 = 1 then svn else s.sec.minSvn }
              power := { s.power with recovery := false } }, true)

/-! ### Resets (R13) -/

/-- RST_STAT with a cause in its low field (R421). -/
def setCause (s : State) (cause : Nat) : State := s.wr (pwrBase + 0x90) (setFld (s.rd (pwrBase + 0x90)) 0 4 cause)

/-- BOOT_DONE of RST_STAT. -/
def setBootDone (s : State) (on : Bool) : State := s.wr (pwrBase + 0x90) (putBit (s.rd (pwrBase + 0x90)) 5 on)

/-- The straps as the boot ROM samples them in at most `n` tries of 16 samples each: the value on which the 16 agree, or the
final sample with false after the last try (R398). -/
def strapSample : Nat → List (BitVec 15) → BitVec 15 × Bool
  | 0, xs => (xs.getLast?.getD 0#15, false)
  | n + 1, xs =>
    let last := xs.getLast?.getD 0#15
    let w := (List.range 16).map (fun i => getD xs i last)
    let v := getD w 15 last
    if w.all (· == v) then (v, true)
    else if n = 0 then (v, false)
    else strapSample n (if xs.length ≤ 16 then [last] else xs.drop 16)

/-- The straps are latched in DEVID, with STRAP_UNSTABLE where no 16 samples agreed in 64 tries (R270, R398). -/
def latchStraps (s : State) (x : Straps) : State :=
  let (v, stable) := strapSample 64 x.samples
  let s := s.wr (pwrBase + 0x90) (putBit (s.rd (pwrBase + 0x90)) 4 (!stable))
  let s := s.wr lnkBase (BitVec.ofNat 64 (v.toNat + v.toNat * 2 ^ 15))
  { s with pins := { s.pins with straps := v } }

/-- The state of everything outside PD62 and PD63 goes to its reset value; `keep` says which registers stay. The power
domains stay as they are. -/
def resetAll (s : State) (keep : Nat → Bool) : State :=
  let k := State.reset
  { s with
    regs := s.regs.filter (fun e => keep e.1)
    cores := k.cores, units := k.units,
    locals := Vector.ofFn (fun (c : CoreId) => if bit (pdState s) c.val then {} else localOff)
    queues := k.queues, dus := k.dus, ctrls := k.ctrls, cxl := k.cxl, links := k.links, net := k.net,
    jobs := k.jobs, rcl := k.rcl, tel := k.tel
    pins := { s.pins with belayLow := false, cxlA := 0#4, cxlB := 0#4 } }

/-- The host ports after a MOD reset: the role, GEN and the data links stay; everything else goes to its reset value, the
functions of both ports with it, which lie outside PD62 and PD63 (R13, R332, R352). -/
def hostReset (h : HostPorts) : HostPorts := { ownerB := h.ownerB, gen := h.gen, upA := h.upA, upB := h.upB, out := h.out }

/-- Which devices keep their contents over a MOD reset: those of a die whose MCLK PLL is locked and whose controllers serve,
retrain or are in self-refresh (R399). -/
def keptLine (s : State) (a : Nat) : Bool :=
  let g := ctrlOf a
  bit (s.rd (pwrBase + 0x98)) (if g.val < 12 then 2 else 3) &&
    ((s.ctrls[g]).ready || (s.ctrls[g]).retraining || (s.ctrls[g]).selfRef)

/-- A MOD reset starts for a cause of RST_STAT: everything outside PD62 and PD63 stops and is reset, the straps are
latched again, THERMTRIP_N is released, and the firmware brings the module up again (R399, R448). Contents of module memory are kept
unless a clock loss or a thermal trip has lost them. Where no firmware runs, the boot ROM goes on with the boot or its recovery
(R412); a clock loss that still holds the module goes on holding it (R401). -/
def modReset (s : State) (cause : Nat) (x : Straps) : State :=
  let keep := cause ≠ 4 ∧ cause ≠ 5
  let gddr := s.gddr.filter (fun c => decide keep && keptLine s c.1)
  let gddrErr := s.gddrErr.filter (fun e => decide keep && keptLine s (64 * e.1))
  let s := resetAll s (fun a => inDomain 63 a || (inDomain 62 a && a != secBase + 0x88))
  let s := { s with gddr := gddr, gddrErr := gddrErr, mem := {}, host := hostReset s.host
                    pins := { s.pins with thermtrip := false }
                    power := { s.power with boot := if s.power.boot = .rom then .rom else .firmware
                                            held := s.power.held && cause != 4, brum := .none, switching := [] } }
  latchStraps (setBootDone (setCause s cause) false) x

/-- An MGR reset starts: the management processor, its SRAM and the security block are reset (R400). -/
def mgrReset (s : State) (why : Nat) : State :=
  { s with
    regs := s.regs.filter (fun e => !(inDomain 62 e.1 && e.1 != secBase + 0x88 && e.1 != 0x1010))
    power := { s.power with rebooting := true, why := why }
    sec := { s.sec with staging := [], queue := [], eid := 0, upd := .idle, updWas := .idle, maxXfer := 0, updFail := 0, svn := 0 } }

/-- Whether a MOD reset, or the bring-up after one, is in progress (R352). -/
def modBusy (s : State) : Bool := s.power.boot == .firmware || s.power.boot == .tripped || s.power.held

/-! ### Power-on (R397) -/

/-- POWER_INPUT_VALID: PD63 comes up on its oscillator with its AON reset; every other domain is off. -/
def inputValid (s : State) : State :=
  if s.power.boot ≠ .unpowered then s
  else
    let r := { State.reset with pending := s.pending, tick := s.tick, regs := [], tier := s.tier, pins := s.pins, sec := s.sec,
                                host := { out := s.host.out }, power := { boot := .input } }
    (r.wr (pwrBase + 0x60) 0x8000000000000000#64)

/-- PON_TIMER_EXPIRY: PD62 comes on with PON reset, which resets every register outside PD63 (R13, R397). After a wake the
contents of module memory stay where they were kept. -/
def ponReset (s : State) : State :=
  if s.power.boot ≠ .input then s
  else
    let p := s.power
    let gddr := if p.waking && p.keepMem then s.gddr else []
    let gddrErr := if p.waking && p.keepMem then s.gddrErr else []
    let s := resetAll s (inDomain 63)
    let s := { s with pins := { s.pins with thermtrip := false }, gddr := gddr, gddrErr := gddrErr, mem := {}, ts := 0#64, host := { out := s.host.out }, tap := {},
                      sec := { s.sec with staging := [], queue := [], eid := 0, upd := .idle, updWas := .idle, maxXfer := 0, updFail := 0,
                                          svn := 0 }
                      power := { p with boot := .rom, recovery := false, held := false, rebooting := false, switching := [] } }
    setBootDone (setCause (setPd s 62 true) (if p.waking then 8 else 1)) false

/-- BOOT_CLOCK_READY: SCLK is present and the KCLK PLL has locked; the boot ROM latches the straps, switches PD48, PD49,
PD60 and PD61 on, and verifies the image (R397, R398). -/
def clockReady (s : State) (x : Straps) : State :=
  if s.power.boot ≠ .rom ∨ s.power.recovery then s
  else
    let s := s.wr (pwrBase + 0x98) (setBit (setBit (s.rd (pwrBase + 0x98)) 0) 10)
    let s := latchStraps s x
    let s := [48, 49, 60, 61].foldl bootOn s
    match verifyBoot s with
    | (s, true) => { s with power := { s.power with boot := .firmware } }
    | (s, false) => s

/-- A domain that PD_REQ asks for comes on where its parent is. -/
def bringUp (s : State) (d : Nat) : State :=
  if bit (s.rd (pwrBase + 0x68)) d then bootOn s d else s

/-- BOOT_DONE: the firmware has locked the PLLs, switched on the domains in PD_REQ, and trained and zeroed every
controller whose contents are not kept; one whose training has failed does not serve (R250); the repair records are written to the
cores that are on (R88). It waits while the owner port's PERST_N is asserted (R397). -/
def bootDone (s : State) : State :=
  let perst := if s.host.ownerB then s.pins.perstB else s.pins.perstA
  if s.power.boot ≠ .firmware ∨ s.power.rebooting ∨ s.power.recovery ∨ s.power.held ∨ perst then s
  else
    let s := s.wr (pwrBase + 0x98) (s.rd (pwrBase + 0x98) ||| 0x7FF#64)
    let s := [48, 49, 60, 61].foldl bootOn s
    let s := ((List.range 64).filter (fun d => d < 48 || 49 < d)).foldl bringUp s
    let s := (allFin 24).foldl (fun (s : State) (g : CtrlId) =>
      if s.domainOn (ctrlDomain g) then s.setCtrl g { s.ctrls[g] with ready := !(s.ctrls[g]).trainFail, retraining := false, selfRef := false }
      else s) s
    let s := (allFin 48).foldl (fun (s : State) (c : CoreId) => if s.domainOn c.val then repairCore s c else s) s
    setBootDone { s with power := { s.power with boot := .up } } true

/-- POWER_INPUT_LOST: every domain switches off, PD63 included, and no state is kept but the flash and the OTP (R451). -/
def inputLost (s : State) : State :=
  let r := { State.reset with pending := s.pending, tick := s.tick, regs := [], tier := s.tier,
                              pins := { s.pins with belayLow := false, thermtrip := false, cxlA := 0#4, cxlB := 0#4 }
                              sec := { s.sec with staging := [], queue := [], eid := 0, upd := .idle, updWas := .idle, maxXfer := 0, updFail := 0, svn := 0 }
                              host := { out := s.host.out }, power := { boot := .unpowered } }
  r.wr (pwrBase + 0x60) 0#64

/-- POWER_INPUT_VALID (R397). -/
def execPowerInputValid (s : State) : Out := .next (inputValid s)
/-- PON_TIMER_EXPIRY (R397). -/
def execPonTimerExpiry (s : State) : Out := .next (ponReset s)
/-- BOOT_CLOCK_READY (R397, R398). -/
def execBootClockReady (x : Straps) (s : State) : Out := .next (clockReady s x)
/-- BOOT_DONE (R397). -/
def execBootDone (s : State) : Out := .next (bootDone s)
/-- POWER_INPUT_LOST (R451). -/
def execPowerInputLost (s : State) : Out := .next (inputLost s)

/-! ### MOD and MGR resets (R399, R400, R409) -/

/-- Whether the module runs far enough for a MOD reset to start. -/
def running (s : State) : Bool := s.power.boot == .up || s.power.boot == .firmware

/-- MOD_RESET: HOST_CTRL.MOD_RESET of the owner (R355, R399). -/
def execModReset (b : Sender) (x : Straps) (s : State) : Out :=
  .next (if b = .owner ∧ hears s b ∧ running s then modReset s 3 x else s)

/-- PERST_N of a port takes a level. -/
def setPerst (s : State) (hb on : Bool) : State :=
  { s with pins := if hb then { s.pins with perstB := on } else { s.pins with perstA := on } }

/-- PERST_N_OWNER: a MOD reset starts while PD62 is on, in the boot ROM, in recovery and after a thermal trip too (R399, R439). -/
def execPerstNOwner (x : Straps) (s : State) : Out :=
  let t := setPerst s s.host.ownerB true
  .next (if bit (pdState s) 62 then modReset t 2 x else t)

/-- PERST_N_RELEASE (R397). -/
def execPerstNRelease (hb : Bool) (s : State) : Out := .next (setPerst s hb false)

/-- MGR_RESET_COMPLETE: the boot ROM has verified the image; the firmware starts again, or the ROM is in recovery and the
rest of the module runs on (R400, R412). -/
def mgrDone (s : State) : State :=
  if !s.power.rebooting then s
  else
    let why := s.power.why
    let s := { s with power := { s.power with rebooting := false } }
    let s := if why = 0 then s else setCause s why
    match verifyBoot s with
    | (s, false) => s
    | (s, true) =>
      let s := (allFin 4).foldl (fun (s : State) (p : PortId) => if s.domainOn (cxlDomain p) then cxlRelease s p else s) s
      let s := if s.power.boot = .rom then { s with power := { s.power with boot := .firmware } } else s
      if why = 6 then pwrEv s 0x8005 62 else s

/-- WDT_KICK: a write of the management firmware restarts the watchdog (R409). -/
def wdtKick (s : State) : State :=
  let (t, s) := s.now
  { s with power := { s.power with wdt := t } }

/-- MGR_RESET_COMPLETE (R400). -/
def execMgrResetComplete (s : State) : Out := .next (mgrDone s)
/-- WDT_KICK (R409); a write of the owner or the standby port is ignored with SEC_ACCESS_DENIED (R419, R421). -/
def execWdtKick (b : Sender) (s : State) : Out :=
  .next (if b = .mgmt then wdtKick s else if (b = .owner ∨ b = .standby) ∧ hears s b then secEv s 0x9004 6 else s)
/-- WDT_TIMEOUT_EXPIRY (R409). -/
def execWdtTimeoutExpiry (s : State) : Out :=
  .next (if bit (pdState s) 62 ∧ !s.power.rebooting then mgrReset s 6 else s)

/-! ### Clock loss (R401) -/

/-- A bit of CLK_STAT takes a value. -/
def setClk (s : State) (i : Nat) (on : Bool) : State := s.wr (pwrBase + 0x98) (putBit (s.rd (pwrBase + 0x98)) i on)

/-- PLL_UNLOCK about a domain. -/
def pllUnlock (s : State) (d : Nat) : State := pwrEv s 0x8004 d

/-- SCLK, or the lock of the ACLK PLL, is lost: every domain but PD60 to PD63 is held, the contents of module memory are
lost, and PLL_UNLOCK waits for the event ring. The monitor in PD62 sees the loss whatever runs (R401, R443). -/
def sclkLoss (s : State) (sclk : Bool) : State :=
  if !bit (pdState s) 62 ∨ s.power.held ∨ !bit (s.rd (pwrBase + 0x98)) (if sclk then 0 else 1) then s
  else
    let s := setClk (if sclk then setClk s 0 false else s) 1 false
    let s := s.wr (pwrBase + 0x90) (setBit (s.rd (pwrBase + 0x90)) 6)
    let s := s.orReg (pwrBase + 0x20) 0x10#64
    { s with gddr := [], gddrErr := [], mem := { s.mem with crc := [], checks := none }
             power := { s.power with held := true } }

/-- SCLK has been present for 1 ms with the ACLK PLL locked: a MOD reset runs, and the event ring holds PLL_UNLOCK
(R401). -/
def clockBack (s : State) (x : Straps) : State :=
  if !s.power.held then s
  else
    let s := modReset (setClk (setClk s 0 true) 1 true) 4 x
    let s := s.wr (pwrBase + 0x90) (clrBit (s.rd (pwrBase + 0x90)) 6)
    if bit (s.rd (pwrBase + 0x18)) 4 then s
    else
      let (t, s) := s.now
      postCompl s 1 (evtBytes 0x8004 6 0 none none t 48 (aclk s)) true

/-- SCLK_LOSS (R401); `sclk` tells SCLK itself from the lock of the ACLK PLL. -/
def execSclkLoss (sclk : Bool) (s : State) : Out := .next (sclkLoss s sclk)
/-- CLOCK_RECOVERY_TIMER (R401). -/
def execClockRecoveryTimer (x : Straps) (s : State) : Out := .next (clockBack s x)
/-- KCLK_PLL_LOSS (R401). -/
def execKclkPllLoss (s : State) : Out :=
  .next (if bit (s.rd (pwrBase + 0x98)) 10 ∧ bit (s.rd (pwrBase + 0x98)) 0 then pllUnlock (setClk s 10 false) 62 else s)
/-- KCLK_PLL_RELOCK: an MGR reset runs (R401). The first lock after power-on is part of BOOT_CLOCK_READY (R397). -/
def execKclkPllRelock (s : State) : Out :=
  .next (if !bit (pdState s) 62 ∨ bit (s.rd (pwrBase + 0x98)) 10 ∨ (s.power.boot = .rom ∧ !s.power.recovery) then s
    else mgrReset (setClk s 10 true) 0)

/-- The controllers of a die stop serving or serve again, but for those whose training has failed meanwhile (R250). -/
def dieReady (s : State) (die : Fin 2) (on : Bool) : State :=
  (allFin 24).foldl (fun (s : State) (g : CtrlId) =>
    if (decide (g.val < 12)) == (die == 0) then
      if on then (if (s.ctrls[g]).selfRef || !s.domainOn (ctrlDomain g) then s
        else s.setCtrl g { s.ctrls[g] with ready := !(s.ctrls[g]).trainFail, retraining := false })
      else s.setCtrl g { s.ctrls[g] with ready := false, retraining := false, trainFail := false }
    else s) s

/-- MCLK_PLL_LOSS: the controllers of the die clear READY and their devices lose their contents (R401). -/
def execMclkPllLoss (die : Fin 2) (s : State) : Out :=
  .next (if !bit (s.rd (pwrBase + 0x98)) (2 + die.val) then s
    else pllUnlock (gddrLost (dieReady (setClk s (2 + die.val) false) die false) die.val) (56 + die.val))
/-- MCLK_PLL_RELOCK: the firmware retrains and rewrites the devices (R401). -/
def execMclkPllRelock (die : Fin 2) (s : State) : Out :=
  .next (if bit (s.rd (pwrBase + 0x98)) (2 + die.val) ∨ s.power.boot ≠ .up then s
    else dieReady (gddrLost (setClk s (2 + die.val) true) die.val) die true)

/-- LCLK_PLL_LOSS: the engine's four links leave ACTIVE, and bring-up stops (R273, R401). -/
def lclkLoss (s : State) (k : Fin 6) : State :=
  if !bit (s.rd (pwrBase + 0x98)) (4 + k.val) then s
  else
    let s := setClk s (4 + k.val) false
    let s := (allFin 24).foldl (fun (s : State) (l : LinkId) =>
      if l.val / 4 ≠ k.val then s
      else
        let s := linkLeave s l
        s.setLink l (linkFresh s.links[l] .down)) s
    pllUnlock s (50 + k.val)

/-- LCLK_PLL_RELOCK: bring-up starts again for enabled links with AUTO_UP (R401). -/
def lclkRelock (s : State) (k : Fin 6) : State :=
  if bit (s.rd (pwrBase + 0x98)) (4 + k.val) ∨ s.power.boot ≠ .up then s
  else
    (allFin 24).foldl (fun (s : State) (l : LinkId) =>
      if l.val / 4 = k.val ∧ linkEn s l ∧ linkAuto s l ∧ s.domainOn (linkDomain l) ∧ (s.links[l]).st = .down then
        s.setLink l { s.links[l] with st := .optics }
      else s) (setClk s (4 + k.val) true)

/-- LCLK_PLL_LOSS (R401). -/
def execLclkPllLoss (k : Fin 6) (s : State) : Out := .next (lclkLoss s k)
/-- LCLK_PLL_RELOCK (R401). -/
def execLclkPllRelock (k : Fin 6) (s : State) : Out := .next (lclkRelock s k)

/-- HOST_REFCLK_LOSS: the port's link goes down (R401). -/
def execHostRefclkLoss (hb : Bool) (s : State) : Out :=
  .next (portDown (pllUnlock (setClk s (if hb then 12 else 11) false) (if hb then 61 else 60)) hb)

/-- CXL_REFCLK_LOSS: the port's links go down, its requests fail, and its resets are driven low (R401). -/
def execCxlRefclkLoss (p : PortId) (s : State) : Out :=
  let t := pllUnlock (setClk s (13 + p.val) false) (cxlDomain p)
  let t := t.setCxl p { t.cxl[p] with enum := false }
  .next (cxlPins (cxlDown (cxlDown t p false) p true) p false false)

/-- CXL_REFCLK_RESTORED: the firmware enumerates the port again while EN is 1 (R401). -/
def execCxlRefclkRestored (p : PortId) (s : State) : Out :=
  let t := setClk s (13 + p.val) true
  .next (if bit (t.rd (cxlBase p + 8)) 0 ∧ t.domainOn (cxlDomain p) then
      cxlRelease (t.setCxl p { t.cxl[p] with enum := true, enumFail := false }) p
    else t)

/-! ### The thermal trip (R405) -/

/-- What the controllers, the CXL ports and the host have not answered is dropped with no completion. -/
def dropRequests (s : State) : State :=
  { s with ctrls := s.ctrls.map (fun k => { k with reqs := [] }), cxl := s.cxl.map (fun k => { k with reqs := [] })
           host := { s.host with reads := [], waits := [] } }

/-- A sensor has read 110 °C twice: every domain but PD62 and PD63 switches off, THERMTRIP_N is asserted and THERMAL_TRIP
raised; the step of every open job fails (R405, R423). It acts whenever PD62 is on. Before the firmware runs, the boot goes on, or
the recovery. -/
def overtemp (s : State) : State :=
  if !bit (pdState s) 62 ∨ s.power.boot = .tripped then s
  else
    let s := failJobs s (fun j => s.jobOpen j)
    let s := domainsOff (dropRequests s) (subtree 48) false
    let s := { s with pins := { s.pins with thermtrip := true }
                      power := { s.power with boot := if running s then .tripped else s.power.boot } }
    pwrEv s 0x8002 0

/-- The junctions have stayed cool for 1 s: the firmware, where it runs, starts a MOD reset and releases THERMTRIP_N
(R405, R448). -/
def thermalBack (s : State) (x : Straps) : State :=
  if !s.pins.thermtrip ∨ s.power.rebooting ∨ s.power.recovery ∨ !(running s || s.power.boot == .tripped) then s
  else modReset s 5 x

/-- JUNCTION_OVERTEMP (R405). -/
def execJunctionOvertemp (s : State) : Out := .next (overtemp s)
/-- THERMAL_RECOVERY_TIMER (R405). -/
def execThermalRecoveryTimer (x : Straps) (s : State) : Out := .next (thermalBack s x)

/-! ### Brumation (R406 to R408) -/

/-- A write of BRUM_CTRL: with GO entry starts, unless a job is open or a core is not HALTED: such a write is ignored
(R406). -/
def brumGo (s : State) (v : W64) : State :=
  let starts := bit v 0 && s.power.boot == .up && s.power.brum == .none
  if starts && (anyOpen s || (allFin 48).any (fun c => (s.core c).run != .halted)) then s.orReg (pwrBase + 0x88) 1#64
  else
    let s := s.wr (pwrBase + 0x80) (v &&& 2#64)
    if !starts then s
    else
      let s := { s with power := { s.power with brum := .entering } }
      let s := (allFin 24).foldl (fun (s : State) (l : LinkId) => linkEnable s l false) s
      let s := (allFin 4).foldl (fun (s : State) (p : PortId) => cxlEnable s p false) s
      if !bit v 1 then s
      else (allFin 24).foldl (fun (s : State) (g : CtrlId) => selfRefresh s g .mgmt true) s

/-- Step 3 of the entry: with every controller in self-refresh where KEEP_SR asks for it, the domains switch off down to PD48 (R406). -/
def brumDark (s : State) : State :=
  let keep := bit (s.rd (pwrBase + 0x80)) 1
  let s := domainsOff s (subtree 48) keep
  if keep then s else gddrLost (gddrLost s 0) 1

/-- The wake sequence starts from the domains as an entry has left them (R408). -/
def wakeFrom (s : State) : State :=
  { s with power := { s.power with boot := .input, brum := .none, waking := true, keepMem := bit (s.rd (pwrBase + 0x80)) 1 } }

/-- BRUMATION_ENTRY_END: the domains switch off down to PD48, and PD62 after the entry has been recorded in RST_STAT, under the code
that a wake has there (R406, R421; DEDUCED, log entry 71). With WAKE_N low in the cycle that would switch PD62 off, PD62 stays on, and
the module wakes from there (R408). -/
def brumEnd (s : State) (wake : Bool) : State :=
  if s.power.brum ≠ .entering then s
  else
    let keep := bit (s.rd (pwrBase + 0x80)) 1
    let s := setBootDone (setCause (brumDark s) 8) false
    if wake then wakeFrom s
    else
      let s := domainOff s 62 keep
      { s with pins := { s.pins with thermtrip := false }
               power := { s.power with boot := .asleep, brum := .none, keepMem := keep, recovery := false, rebooting := false } }

/-- WAKE_N low for 1 µs: a module in brumation, or entering it, wakes (R407, R408). -/
def wakeUp (s : State) : State :=
  let p := s.power
  if p.boot = .asleep then { s with power := { p with boot := .input, waking := true } }
  else if p.brum = .entering then wakeFrom s
  else s

/-- WAKE_COMPLETE: PD_REQ is restored, the wake counted and WAKE_EXIT raised (R407, R421). -/
def wakeDone (s : State) : State :=
  if !(s.power.waking && s.power.boot == .up) then s
  else
    let s := { s with power := { s.power with waking := false, keepMem := false } }
    let a := pwrBase + 0x88
    let s := s.wr a (setFld (s.rd a) 8 8 (fld (s.rd a) 8 8 + 1))
    pwrEv s 0x8006 62

/-- BRUMATION_GO (R406). -/
def execBrumationGo (b : Sender) (v : W64) (s : State) : Out := .next (if b = .owner ∧ hears s b then brumGo s v else s)
/-- BRUMATION_ENTRY_END (R406). -/
def execBrumationEntryEnd (s : State) (wake : Bool := false) : Out := .next (brumEnd s wake)
/-- WAKE_N (R407, R408). -/
def execWakeN (s : State) : Out := .next (wakeUp s)
/-- WAKE_COMPLETE (R407). -/
def execWakeComplete (s : State) : Out := .next (wakeDone s)

end Sys2Proof.Machine
end

