-- ==== Sys2Proof/Machine/Governor.lean ====
section
/-!
DEFINITION. The governor (R402 to R404), the limits it reads (R421), and the alerts of the shelf and the coolant loop
(R452).
-/

namespace Sys2Proof.Machine

/-! ### The governor's registers (R421) -/

/-- CEIL of GOV_CFG. -/
def govCeil (s : State) : Nat := fld (s.rd (pwrBase + 0x28)) 0 12
/-- FLOOR of GOV_CFG. -/
def govFloor (s : State) : Nat := fld (s.rd (pwrBase + 0x28)) 16 12
/-- PEAK_W. -/
def peakW (s : State) : Nat := fld (s.rd (pwrBase + 0x38)) 0 12
/-- SUST_W. -/
def sustW (s : State) : Nat := fld (s.rd (pwrBase + 0x38)) 16 12
/-- TJ_THROTTLE. -/
def throttle (s : State) : Nat := fld (s.rd (pwrBase + 0x40)) 0 8
/-- CUR_A of a die. -/
def curA (s : State) (die : Nat) : Nat := fld (s.rd (pwrBase + 0x48)) (16 * die) 16

/-- The state with GOV_STAT written. -/
def setGov (s : State) (v : W64) : State := s.wr (pwrBase + 0x30) v
/-- GOV_STAT. -/
def govStat (s : State) : W64 := s.rd (pwrBase + 0x30)

/-- BELOW follows ACLK and FLOOR, and ARMED is set once ACLK reaches FLOOR + 8 steps, or CEIL when that is lower
(R404). -/
def govFlags (s : State) : State :=
  let a := aclk s
  let v := putBit (govStat s) 16 (decide (a < govFloor s))
  setGov s (if min (govFloor s + 200) (govCeil s) ≤ a then setBit v 17 else v)

/-! ### One evaluation (R402) -/

/-- The lowest code of a limit that breaches, none where none does. -/
def breach (s : State) (x : Sensors) : Option Nat :=
  let w := s.power.windows
  if w.head?.any (fun v => decide (peakW s < v)) then some 1
  else if 1000 ≤ w.length ∧ (w.take 1000).all (fun v => decide (sustW s < v)) then some 2
  else if curA s 0 < x.cur.1 ∨ curA s 1 < x.cur.2 then some 3
  else if throttle s ≤ max x.tj.1 x.tj.2 then some 4
  else none

/-- Whether every limit shows headroom. -/
def headroom (s : State) (x : Sensors) : Bool :=
  let w := s.power.windows
  w.head?.all (fun v => decide (100 * v < 96 * peakW s ∧ v ≤ sustW s)) &&
    decide (100 * x.cur.1 < 96 * curA s 0 ∧ 100 * x.cur.2 < 96 * curA s 1 ∧ max x.tj.1 x.tj.2 + 3 ≤ throttle s)

/-- PWR_NOW and ENERGY take what the sensors show (R421). -/
def powerNow (s : State) (x : Sensors) : State :=
  let p := s.power
  let ws := match x.window with
    | some v => (v :: p.windows).take 1000
    | none => p.windows
  let s := { s with power := { p with windows := ws, tj := x.tj } }
  let avg := ws.foldl (· + ·) 0 / max 1 ws.length
  let s := s.wr (pwrBase + 0x50) (BitVec.ofNat 64 (ws.headD 0 % 2 ^ 16 + avg % 2 ^ 16 * 2 ^ 16 + max x.tj.1 x.tj.2 % 2 ^ 8 * 2 ^ 32))
  match x.window with
  | none => s
  | some v =>
    let uj := p.uj + 10 * v
    { s.count (pwrBase + 0x58) 64 (uj / 1000) with power := { s.power with uj := uj % 1000 } }

/-- A down-step: LIMITER takes the code, GOV_LIMIT is raised where ACLK stood at the ceiling and a limit breached, and
FLOOR_VIOLATED where ACLK falls below FLOOR while ARMED (R402, R404). -/
def stepDown (s : State) (code : Nat) : State :=
  let old := aclk s
  let v := setFld (setFld (govStat s) 0 12 (old - 25)) 12 3 code
  let s := setGov s v
  let s := if code ≠ 0 ∧ old = govCeil s then s.record 0x8000 0 0 none none (code * 2 ^ 8) (old - 25) else s
  if old - 25 < govFloor s ∧ bit v 17 then
    (setGov s (clrBit (govStat s) 17)).record 0x8001 0 0 none none (code * 2 ^ 8) (old - 25)
  else s

/-- One evaluation of the governor, which lies in PD63 (R402). -/
def govern (s : State) (x : Sensors) : State :=
  if !bit (pdState s) 63 then s
  else
    let s := powerNow s x
    let p := s.power
    let high := govCeil s < aclk s
    let b := breach s x
    let down := (b.isSome || high) && decide (1200 < aclk s)
    let up := b.isNone && decide (aclk s < govCeil s) && decide (10 ≤ p.head) && decide (10 ≤ p.since)
    let s := if down then stepDown s (b.getD 0)
      else if up then setGov s (setFld (govStat s) 0 12 (min (aclk s + 25) (govCeil s)))
      else s
    let head := if headroom s x then min 10 (p.head + 1) else 0
    let since := if down || up then 1 else min 10 (p.since + 1)
    govFlags { s with power := { s.power with head := head, since := since } }

/-- A write of GOV_CFG (R403). -/
def govCfgWrite (s : State) (v : W64) : State :=
  let c := fld v 0 12
  let f := fld v 16 12
  let ok (x : Nat) : Bool := x % 25 == 0 && decide (1200 ≤ x ∧ x ≤ 3300)
  if ok c && ok f && decide (f ≤ c) then govFlags (s.wr (pwrBase + 0x28) (v &&& (ones 12 ||| bits 16 27)))
  else setGov s (setBit (govStat s) 18)

/-- GOV_CFG_WRITE (R403). -/
def execGovCfgWrite (b : Sender) (v : W64) (s : State) : Out := .next (if ownerOrMgmt b && hears s b then govCfgWrite s v else s)

/-! ### The limits (R421) -/

/-- A field takes a new value that does not exceed a maximum, else keeps its own. -/
def fieldUpTo (old v : W64) (lo len top : Nat) : W64 := if fld v lo len ≤ top then setFld old lo len (fld v lo len) else old

/-- A write of PWR_LIMITS by the host or the firmware; a field that the host writes during an alert stands after it (R452). -/
def limitsWrite (s : State) (v : W64) (host : Bool) : State :=
  let a := pwrBase + 0x38
  let w := fieldUpTo (fieldUpTo (s.rd a) v 0 12 2400) v 16 12 2200
  let p := s.power
  let shelf := p.shelf.map (fun x => if host then
    { x with peakHost := x.peakHost || decide (fld v 0 12 ≤ 2400), sustHost := x.sustHost || decide (fld v 16 12 ≤ 2200) } else x)
  { s.wr a w with power := { p with shelf := shelf } }

/-- A write of TJ_CFG: TJ_THROTTLE at most 100 °C; a host's write during an alert stands after it (R421, R452). -/
def throttleWrite (s : State) (v : W64) (host : Bool) : State :=
  let a := pwrBase + 0x40
  let p := s.power
  let cool := p.coolant.map (fun x => (x.1, x.2 || (host && decide (fld v 0 8 ≤ 100))))
  { s.wr a (fieldUpTo (s.rd a) v 0 8 100) with power := { p with coolant := cool } }

/-- A write of CUR_LIMIT: no field above its fused value. -/
def currentWrite (s : State) (v : W64) : State :=
  let a := pwrBase + 0x48
  s.wr a (fieldUpTo (fieldUpTo (s.rd a) v 0 16 (Config.curFuse 0)) v 16 16 (Config.curFuse 1))

/-- WDT_TIMEOUT, from 10 to 60,000 ms, by the management firmware only. -/
def wdtCfgWrite (s : State) (v : W64) : State :=
  if 10 ≤ fld v 0 32 ∧ fld v 0 32 ≤ 60000 then s.wr (pwrBase + 0xA0) (v &&& ones 32) else s

/-! ### Alerts (R452) -/

/-- Whether the management firmware runs. -/
def firmwareRuns (s : State) : Bool :=
  (s.power.boot == .firmware || s.power.boot == .up || s.power.boot == .tripped) && !s.power.rebooting && !s.power.recovery

/-- SHELF_ALERT_N is asserted: the firmware writes PEAK_W and SUST_W to 1,800 W. -/
def shelfOn (s : State) : State :=
  let s := { s with pins := { s.pins with shelfAlert := true } }
  if !firmwareRuns s ∨ s.power.shelf.isSome then s
  else
    let old : Alert := { peak := peakW s, sust := sustW s }
    { s.wr (pwrBase + 0x38) (setFld (setFld (s.rd (pwrBase + 0x38)) 0 12 1800) 16 12 1800) with
      power := { s.power with shelf := some old } }

/-- SHELF_ALERT_N is released: the values come back that stood before, but for fields the host has written since. -/
def shelfOff (s : State) : State :=
  let s := { s with pins := { s.pins with shelfAlert := false } }
  match s.power.shelf with
  | none => s
  | some a =>
    if !firmwareRuns s then s
    else
      let v := s.rd (pwrBase + 0x38)
      let v := if a.peakHost then v else setFld v 0 12 a.peak
      let v := if a.sustHost then v else setFld v 16 12 a.sust
      { s.wr (pwrBase + 0x38) v with power := { s.power with shelf := none } }

/-- COOLANT_ALERT_N is asserted: the firmware writes TJ_THROTTLE to 85 °C. -/
def coolantOn (s : State) : State :=
  let s := { s with pins := { s.pins with coolantAlert := true } }
  if !firmwareRuns s ∨ s.power.coolant.isSome then s
  else
    { s.wr (pwrBase + 0x40) (setFld (s.rd (pwrBase + 0x40)) 0 8 85) with
      power := { s.power with coolant := some (throttle s, false) } }

/-- COOLANT_ALERT_N is released: TJ_THROTTLE comes back unless the host has written it since. -/
def coolantOff (s : State) : State :=
  let s := { s with pins := { s.pins with coolantAlert := false } }
  match s.power.coolant with
  | none => s
  | some (old, host) =>
    if !firmwareRuns s then s
    else
      let s := { s with power := { s.power with coolant := none } }
      if host then s else s.wr (pwrBase + 0x40) (setFld (s.rd (pwrBase + 0x40)) 0 8 old)

/-- The firmware's samples of the alert pins: an alert that was asserted or released while no firmware ran is seen now. -/
def sampleAlerts (s : State) : State :=
  let s := if s.pins.shelfAlert then shelfOn s else shelfOff s
  if s.pins.coolantAlert then coolantOn s else coolantOff s

/-- GOVERNOR_EVALUATION (R402), with the alert pins sampled before it (R452). -/
def execGovernorEvaluation (x : Sensors) (s : State) : Out := .next (govern (sampleAlerts s) x)

/-- SHELF_ALERT_ASSERT (R452). -/
def execShelfAlertAssert (s : State) : Out := .next (shelfOn s)
/-- SHELF_ALERT_RELEASE (R452). -/
def execShelfAlertRelease (s : State) : Out := .next (shelfOff s)
/-- COOLANT_ALERT_ASSERT (R452). -/
def execCoolantAlertAssert (s : State) : Out := .next (coolantOn s)
/-- COOLANT_ALERT_RELEASE (R452). -/
def execCoolantAlertRelease (s : State) : Out := .next (coolantOff s)

end Sys2Proof.Machine
end

