-- ==== Sys2Proof/Machine/Net.lean ====
section
/-!
DEFINITION. The packets that arrive (R281, R283): their checks, the requests of peers (R231, R232, R259), the answers
(R282), COLL transfers on the receiver's side (R289, R290), flow control (R217), time exchange (R294), and the SYNC
messages (R317).
-/

namespace Sys2Proof.Machine

/-! ### The checks of R283 -/

/-- Whether bytes `a` to `b` - 1 of a header are zero. -/
def hzero (p : Pkt) (a b : Nat) : Bool := pByte p a (b - a) == 0

/-- Whether the common header fields are as R280 gives them. -/
def headOk (s : State) (p : Pkt) : Bool :=
  pDst p == s.devid && !bit p.hdr 7 && !bit p.hdr 12 && fld p.hdr 14 2 == 0 && !bit p.hdr 31 && !bit p.hdr 47 &&
    hzero p 7 8 && fld p.hdr 93 3 == 0 && (pinnedVc (pVc p) || pOseq p == 0)

/-- Whether TC, RSP, the type fields and NUNITS are as R281 lists them for the type. -/
def typeOk (p : Pkt) : Bool :=
  let tc := pTc p
  let rsp := pRsp p
  let n := pUnits p
  let some16 := decide (1 ≤ n ∧ n ≤ 16)
  match pType p with
  | 1 => tc == 0 && rsp == 0 && some16 && pByte p 13 1 < 128 && pByte p 16 1 < 8 && hzero p 17 18 &&
      pByte p 18 2 < 32768 && hzero p 20 28 && (!(pByte p 16 1).testBit 2 || n == 1)
  | 2 => tc == 2 && rsp == 0 && some16 && hzero p 18 28
  | 3 => tc == 2 && rsp == 0 && n == 0 && 1 ≤ pByte p 18 1 && pByte p 18 1 ≤ 16 && hzero p 19 28
  | 4 => tc == 2 && rsp == 1 && pByte p 12 1 ≤ 9 && hzero p 13 28 && (if pByte p 12 1 = 0 then some16 else n == 0)
  | 5 => tc == 2 && rsp == 1 && n == 0 && pByte p 12 1 ≤ 9 && hzero p 13 28
  | 6 => tc == 1 && rsp == 0 && some16 && pByte p 18 1 < 4 && 1 ≤ pByte p 19 1 && pByte p 19 1 ≤ 4
  | 7 => tc == 1 && rsp == 1 && n == 0 && 1 ≤ pByte p 14 1 && pByte p 14 1 ≤ 3 && hzero p 15 16 && hzero p 26 28
  | 8 => tc == 3 && rsp == 0 && n == 0 && 1 ≤ pByte p 13 1 && pByte p 13 1 ≤ 2 && hzero p 14 28
  | 9 => tc == 3 && n ≤ 16 && pByte p 24 1 < 2 && pByte p 25 2 ≤ 512 && hzero p 27 28
  | 10 => tc == 3 && n == 0 && (rsp == 1 || hzero p 12 28)
  | _ => false

/-- The order sequences of the die that checks a source (R283). -/
def oseqs (s : State) (src : Nat) : List (Nat × Nat) := if src % 2 = 0 then s.net.oseqRx0 else s.net.oseqRx1

/-- Whether a packet of a pinned channel is the next of its flow; a flow that is not tracked accepts any (R283). -/
def orderOk (s : State) (p : Pkt) : Bool :=
  !pinnedVc (pVc p) ||
    (match tget (oseqs s (pSrc p)) (flowKey (pSrc p) (pJob p) (pVc p)) with
      | some n => pOseq p == (n + 1) % 65536
      | none => true)

/-- The order sequence of a packet's flow is noted; the least recently used flow of 4,096 makes room (R283). -/
def noteOrder (s : State) (p : Pkt) : State :=
  if !pinnedVc (pVc p) then s
  else
    let k := flowKey (pSrc p) (pJob p) (pVc p)
    let l := ((k, pOseq p) :: (oseqs s (pSrc p)).filter (fun e => e.1 != k)).take 4096
    if pSrc p % 2 = 0 then { s with net := { s.net with oseqRx0 := l } } else { s with net := { s.net with oseqRx1 := l } }

/-- A packet event with the packet's first 16 header bytes (R385). -/
def pktEv (s : State) (fails : Bool) (code : Nat) (p : Pkt) : State :=
  s.raiseDev fails code 0 0 (some (pJob p)) (some (pSrc p)) (fld p.hdr 0 64) (fld p.hdr 64 64)

/-- The units of a packet that has left the receive buffer go back (R278). -/
def leaveBuffer (s : State) (l : LinkId) (r : RxWait) : State :=
  returnCredit s l (pVc r.pkt) (pJob r.pkt) r.units (pPooled r.pkt)

/-- The oldest packet of a receive buffer is checked in the order of R283 and discarded at the first failure; a good
packet that `want` names is taken by `body`, with its units still held. Another packet has its own command. -/
def intake (s : State) (l : LinkId) (want : Pkt → Bool) (body : State → RxWait → State) : State :=
  let k := s.links[l]
  match k.rxq with
  | [] => s
  | r :: rest =>
    let p := r.pkt
    let out := s.setLink l { k with rxq := rest }
    if pEcrc p ≠ crc32 (ecrcBytes p) then leaveBuffer (pktEv out (pType p != 6) 0x6106 p) l r
    else if !headOk s p || !typeOk p then leaveBuffer (pktEv out false 0x6107 p) l r
    else if !orderOk s p then leaveBuffer (pktEv (noteOrder out p) true 0x6105 p) l r
    else if want p then body (noteOrder out p) r
    else s

/-- A packet type taken whole: its units go back at once. -/
def take (s : State) (l : LinkId) (ptype : Nat) (body : State → Pkt → State) : State :=
  intake s l (fun p => pType p == ptype) (fun s r => leaveBuffer (body s r.pkt) l r)

/-- The die of a link: links 0 to 11 enter at die 0. -/
def linkDie (l : LinkId) : Nat := if l.val < 12 then 0 else 1

/-! ### QCELLS and QFLOW (R209, R217) -/

/-- The cells of a QCELLS packet (R281). -/
def cellsOf (p : Pkt) : List Cell :=
  let flags := pByte p 16 1
  (List.range (pUnits p)).map (fun i =>
    { data := BitVec.ofNat 512 (leAt p.data (64 * i) 64), mbtag := BitVec.ofNat 16 (pByte p 14 2),
      eop := flags.testBit 0 && i + 1 == pUnits p, tent := flags.testBit 1, marker := flags.testBit 2,
      src := BitVec.ofNat 15 (pByte p 18 2), agent := BitVec.ofNat 7 (pByte p 13 1) })

/-- QCELLS: the cells wait in the receive buffer for their queue (R209). -/
def qcellsIn (s : State) (l : LinkId) : State :=
  intake s l (fun p => pType p == 1) (fun s r =>
    match fin? 256 (pByte r.pkt 12 1) with
    | none => s
    | some q =>
      let k := s.links[l]
      s.setLink l { k with cells := k.cells ++ [{ q := q, job := pJob r.pkt, cells := cellsOf r.pkt, units := r.units,
                                                  pooled := pPooled r.pkt }] })

/-- QFLOW: the forwarding queues that send to the peer's queue pause or resume, and so do the dispatch units (R217). -/
def qflowIn (s : State) (p : Pkt) : State :=
  flowIn s (pSrc p) (pByte p 12 1) (pByte p 13 1 == 1)

/-! ### WRITE and READ (R231, R232, R259, R281) -/

/-- The access a request asks for: its bytes or its length. -/
def reqData (p : Pkt) : Option (List Byte) := if pType p = 2 then some p.data else none
/-- Bytes a request covers. -/
def reqLen (p : Pkt) : Nat := if pType p = 2 then 64 * pUnits p else 64 * pByte p 18 1

/-- A request is performed after its checks; the host windows are no target of a peer (R237, R338). -/
def serveReq (s : State) (p : Pkt) (err : Option CxlErr) : State × AccEnd :=
  let src : Source := .peer (pSrc p)
  let job := pJob p
  let n := reqLen p
  let w := reqData p
  match placeLocal s (pByte p 12 6) n with
  | .bad => (s, .fail 1)
  | .peer _ _ => (s, .fail 1)
  | .host _ => (s, .fail 3)
  | .gddr a => gddrOutside s src job a n w
  | .sp c o => spOutside s c src job o n w
  | .tier t =>
    match memCheck s src job (pByte p 12 6) n w.isSome with
    | (s, false) => (s, .fail 3)
    | (s, true) => tierDo s (some job) t n w err

/-- The answer to a request leaves on a plane of its own (R281, R285). -/
def answerReq (s : State) (l : LinkId) (p : Pkt) (e : AccEnd) : State :=
  let code := match e with
    | .fail k => k
    | _ => 0
  let data := match e with
    | .ok bs => if pType p = 3 then bs else []
    | _ => []
  let a := mkPkt s (if pType p = 2 then 5 else 4) 2 1 (pJob p) (pSrc p) (pTag p) (leBytes 1 code) data
  match sendPkt s (linkDie l) 5 (pJob p) (pSrc p) a with
  | (s, true) => s
  | (s, false) => (unreachable s (some (pJob p)) (pSrc p) a).failStep (some (pJob p))

/-- Whether a request of a job waits in a receive buffer. -/
def reqWaits (k : Link) (job : Nat) : Bool := k.waits.any (fun r => pTc r.pkt == 2 && pJob r.pkt == job)

/-- A request is served and answered, or waits in the receive buffer: for a core that is away, for memory that does not
serve yet, or behind a request of its job that waits (R232, R250). -/
def reqGo (s : State) (l : LinkId) (r : RxWait) (err : Option CxlErr) : State :=
  let wait (s : State) : State := s.setLink l { s.links[l] with waits := (s.links[l]).waits ++ [r] }
  if reqWaits s.links[l] (pJob r.pkt) then wait s
  else
    match serveReq s r.pkt err with
    | (s, .wait) => wait s
    | (s, e) => leaveBuffer (answerReq s l r.pkt e) l r

/-- WRITE or READ (R281). -/
def reqIn (s : State) (l : LinkId) (ptype : Nat) (err : Option CxlErr) : State :=
  intake s l (fun p => pType p == ptype) (fun s r => reqGo s l r err)

/-! ### COLL (R289, R290) -/

/-- The transfer a part belongs to. -/
def collOf (s : State) (src job xid : Nat) : Option CollRx :=
  s.net.collRx.find? (fun c => c.src == src && c.job == job && c.xid == xid)

/-- Whether a new transfer of a job takes one of its own 32 entries (false) or a shared one (true); none where it has to
wait (R289). -/
def collEntry (s : State) (job : Nat) : Option Bool :=
  if ((s.net.collRx.filter (fun c => c.job == job && !c.shared)).length) < 32 then some false
  else if (s.net.collRx.filter (·.shared)).length < 512 then some true
  else none

/-- Whether a stripe has all its parts. -/
def stripeDone (c : CollRx) (i : Nat) : Bool :=
  match c.parts.find? (fun x => x.1 == i) with
  | none => false
  | some (_, _, n, _) => (List.range n).all (fun p => c.parts.any (fun x => x.1 == i && x.2.1 == p))

/-- The incomplete stripes of a transfer. -/
def missing (c : CollRx) : List Nat := (List.range c.stripes).filter (fun i => !stripeDone c i)

/-- The stream of a transfer from its parts. -/
def collStream (c : CollRx) : List Byte :=
  (List.range c.stripes).flatMap (fun i => (List.range 4).flatMap (fun p =>
    match c.parts.find? (fun x => x.1 == i && x.2.1 == p) with
    | some (_, _, _, d) => d
    | none => []))

/-- A COLL_ACK leaves (R281, R289, R290). -/
def sendCollAck (s : State) (c : CollRx) (kind base mask : Nat) : State :=
  let p := mkPkt s 7 1 1 c.job c.src c.tag (leBytes 2 c.xid ++ leBytes 1 kind ++ [0#8] ++ leBytes 2 base ++ leBytes 8 mask) []
  match sendPkt s 0 3 c.job c.src p with
  | (s, true) => s
  | (s, false) => (unreachable s (some c.job) c.src p).failStep (some c.job)

/-- The transfers of the receiver without one. -/
def dropColl (s : State) (c : CollRx) : State :=
  { s with net := { s.net with collRx := s.net.collRx.filter (fun x =>
      !(x.src == c.src && x.job == c.job && x.xid == c.xid)) } }

/-- A part reaches its transfer; a second arrival is discarded. The last one completes it, with ACK (R289). -/
def collPart (s : State) (c : CollRx) (p : Pkt) : State :=
  let i := pByte p 14 2
  let n := pByte p 18 1
  let c := { c with hdr := p.hdr }
  let c := if c.parts.any (fun x => x.1 == i && x.2.1 == n) then c
    else { c with parts := c.parts ++ [(i, n, pByte p 19 1, p.data)] }
  if (missing c).isEmpty then collArrived (sendCollAck (dropColl s c) c 1 0 0) c.src c.job c.info (collStream c)
  else
    { s with net := { s.net with collRx := s.net.collRx.map (fun x =>
        if x.src == c.src && x.job == c.job && x.xid == c.xid then c else x) } }

/-- A COLL part: its transfer is found or begun; a new transfer without an entry waits in the receive buffer (R289). -/
def collGo (s : State) (l : LinkId) (r : RxWait) : State :=
  let p := r.pkt
  match collOf s (pSrc p) (pJob p) (pByte p 12 2) with
  | some c => leaveBuffer (collPart s c p) l r
  | none =>
    match collEntry s (pJob p) with
    | none => s.setLink l { s.links[l] with waits := (s.links[l]).waits ++ [r] }
    | some shared =>
      let c : CollRx := { src := pSrc p, job := pJob p, xid := pByte p 12 2, tag := pTag p, stripes := pByte p 16 2,
                          info := leBytes 8 (pByte p 20 8), shared := shared }
      let s := { s with net := { s.net with collRx := s.net.collRx ++ [c] } }
      leaveBuffer (collPart s c p) l r

/-- What waits in a receive buffer is tried again in order (R232, R289). -/
def retryWaits (s : State) (l : LinkId) (err : Option CxlErr) : State :=
  let ws := (s.links[l]).waits
  let s := s.setLink l { s.links[l] with waits := [] }
  ws.foldl (fun s r => if pType r.pkt = 6 then collGo s l r else reqGo s l r err) s

/-- The receive buffers try again the COLL parts that wait for an entry. -/
def retryColl (s : State) : State :=
  (allFin 24).foldl (fun (s : State) (l : LinkId) =>
    if (s.links[l]).waits.any (fun r => pType r.pkt == 6) then
      let ws := (s.links[l]).waits
      let s := s.setLink l { s.links[l] with waits := ws.filter (fun r => pType r.pkt != 6) }
      (ws.filter (fun r => pType r.pkt == 6)).foldl (fun s r => collGo s l r) s
    else s) s

/-- STRIPE_GAP of a transfer with a device (R290). -/
def stripeGap (s : State) (job dev : Nat) (p : Pkt) : State :=
  s.raiseDev false 0x6103 0 0 (some job) (some dev) (fld p.hdr 0 64) (fld p.hdr 64 64)

/-- E2E_FAIL of a transfer: the step of its job fails (R290). -/
def e2eFail (s : State) (job dev : Nat) (p : Pkt) : State :=
  s.raiseDev true 0x6104 0 0 (some job) (some dev) (fld p.hdr 0 64) (fld p.hdr 64 64)

/-- The packet that an event of a transfer names at its sender: its first part, of which the header counts
(R385). -/
def collHead (s : State) (c : CollTx) : Pkt := getD (stripePkts s c 0) 0 (mkPkt s 6 1 0 c.job c.dst c.tag [] [])

/-- A COLL_ACK: the transfer is complete, stripes are resent, or it has failed (R289, R290). -/
def collAckIn (s : State) (p : Pkt) : State :=
  match s.net.collTx.find? (fun c => c.dst == pSrc p && c.job == pJob p && c.xid == pByte p 12 2) with
  | none => s
  | some c =>
    let gone := { s with net := { s.net with collTx := s.net.collTx.erase c } }
    match pByte p 14 1 with
    | 1 => collKick (collDone gone c.job c.dst c.xid)
    | 2 =>
      if 4 ≤ c.rounds then collKick (collDrop (e2eFail s c.job c.dst p) c.job c.dst c.xid)
      else
        let d := { c with rounds := c.rounds + 1 }
        let s := { s with net := { s.net with collTx := s.net.collTx.map (fun x => if x == c then d else x) } }
        let named := ((List.range 64).filter (fun i => (pByte p 18 8).testBit i)).map (pByte p 16 2 + ·)
        sendStripes s d (named.filter (fun i => i < stripesOf d.stream))
    | _ => collKick (collDrop (e2eFail s c.job c.dst p) c.job c.dst c.xid)

/-- E2E_TIMEOUT has passed since the last arrival of a transfer: a NAK names what is missing, and after four rounds the
transfer fails (R290). -/
def nakTimer (s : State) (src job xid : Nat) : State :=
  match collOf s src job xid with
  | none => s
  | some c =>
    let h : Pkt := { hdr := c.hdr }
    if 4 ≤ c.rounds then retryColl (sendCollAck (dropColl (e2eFail s job src h) c) c 3 0 0)
    else
      let m := missing c
      let base := m.head?.getD 0
      let mask := (m.filter (fun i => i < base + 64)).foldl (fun n i => n + 2 ^ (i - base)) 0
      let d := { c with rounds := c.rounds + 1 }
      let s := { s with net := { s.net with collRx := s.net.collRx.map (fun x => if x == c then d else x) } }
      sendCollAck (stripeGap s job src h) d 2 base mask

/-- 2 × E2E_TIMEOUT has passed without an ACK or a NAK: every stripe is resent, and after four rounds the transfer fails
(R290). -/
def resendTimer (s : State) (dst job xid : Nat) : State :=
  match s.net.collTx.find? (fun c => c.dst == dst && c.job == job && c.xid == xid) with
  | none => s
  | some c =>
    let h := collHead s c
    if 4 ≤ c.rounds then collKick (collDrop (e2eFail s job dst h) job dst xid)
    else
      let d := { c with rounds := c.rounds + 1 }
      let s := { s with net := { s.net with collTx := s.net.collTx.map (fun x => if x == c then d else x) } }
      sendStripes (stripeGap s job dst h) d (List.range (stripesOf d.stream))

/-! ### Answers and their timer (R282) -/

/-- An answer completes its request; one that no request waits for is dropped. -/
def answerIn (s : State) (p : Pkt) : State :=
  match s.net.reqs.find? (fun r => r.tag == pTag p && pDst r.pkt == pSrc p &&
      r.job == pJob p && (pType r.pkt == 2) == (pType p == 5)) with
  | none => s
  | some r => cairnsGo (collKick (reqAnswer s r (pByte p 12 1) p.data))

/-- E2E_TIMEOUT has passed for a request: it is sent again on a live plane, and fails with code 0x08 after four resends
(R282). -/
def e2eTimeout (s : State) (tag : Nat) : State :=
  match s.net.reqs.find? (fun r => r.tag == tag) with
  | none => s
  | some r =>
    if 4 ≤ r.resends then collKick (reqAnswer s r 8 [])
    else
      let die := match r.owner with
        | some (.dma c _ _) => (duOf c).val
        | _ => 0
      match sendPkt s die 4 r.job (pDst r.pkt) r.pkt with
      | (s, true) =>
        { s with net := { s.net with reqs := s.net.reqs.map (fun x =>
            if x.tag == tag then { x with resends := x.resends + 1 } else x) } }
      | (s, false) =>
        let s := unreachable s (some r.job) (pDst r.pkt) r.pkt
        collKick (reqStrand s r)

/-! ### Time exchange (R294) -/

/-- TIME_CTRL. -/
def timeCtrl (s : State) : W64 := s.rd (lnkBase + 0x38)

/-- TIME_SYNC_LOST (R294). -/
def syncLost (s : State) (p : Pkt) : State :=
  s.raiseDev false 0x6108 0 0 none (some (fld (timeCtrl s) 2 15)) (fld p.hdr 0 64) (fld p.hdr 64 64)

/-- An exchange begins: a TIME request leaves for the parent with its stamp t1; one still without a reply has failed, and
the fourth in a row raises TIME_SYNC_LOST. -/
def timeExchange (s : State) : State :=
  let c := timeCtrl s
  if !bit c 0 ∨ bit c 1 then s
  else
    let m := if s.net.asking then s.net.missed + 1 else s.net.missed
    let dev := fld c 2 15
    let p := mkPkt s 10 3 0 0 dev 0 [] []
    let s := { s with net := { s.net with missed := m % 4, asking := true, t1 := none } }
    let s := if m = 4 then syncLost s p else s
    match sendPkt s 0 6 0 dev p with
    | (s, true) => s
    | (s, false) => unreachable s none dev p

/-- A TIME request is answered with the stamp of its arrival; that of the reply's departure goes in when it leaves. -/
def timeRequest (s : State) (t2 : W64) (p : Pkt) : State :=
  let a := mkPkt s 10 3 1 (pJob p) (pSrc p) (pTag p) (leBytes 8 t2.toNat) []
  match sendPkt s 0 7 (pJob p) (pSrc p) a with
  | (s, true) => s
  | (s, false) => unreachable s none (pSrc p) a

/-- A TIME reply: θ = ((t2 − t1) − (t4 − t3)) ÷ 2 goes to TS_OFFSET, and is added at once where it exceeds 4,096 units;
a smaller one is removed as time goes on, whose pace the model leaves free. Eight exchanges in a row beyond 50 units
raise TIME_SYNC_LOST. -/
def timeReply (s : State) (t4 : W64) (p : Pkt) : State :=
  match s.net.t1 with
  | none => s
  | some t1 =>
    if pSrc p ≠ fld (timeCtrl s) 2 15 then s
    else
      let t2 : W64 := BitVec.ofNat 64 (pByte p 12 8)
      let t3 : W64 := BitVec.ofNat 64 (pByte p 20 8)
      let th : Int := ((t2 - t1).toInt - (t4 - t3).toInt) / 2
      let off := if 50 < th.natAbs then s.net.offRun + 1 else 0
      let s := { s with net := { s.net with asking := false, t1 := none, missed := 0, offRun := off % 8 } }
      let s := s.wr (lnkBase + 0x48) (BitVec.ofInt 64 th)
      let s := if 4096 < th.natAbs then { s with ts := s.ts + BitVec.ofInt 64 th } else s
      if off = 8 then syncLost s p else s

/-! ### SYNC (R317) -/

/-- The kinds of SYNC message. -/
def syncBody (kind : Nat) (s : State) (j : JobId) (p : Pkt) : State :=
  match kind with
  | 1 => expIn s j p
  | 2 => pendingIn s j p
  | 3 => decideIn s j p
  | 4 => readyIn s j p
  | 5 => outcomeIn s j p true
  | 6 => outcomeIn s j p false
  | _ => failIn s j p

/-- A message of a kind that R317 does not list is discarded with RED_PROTOCOL. -/
def syncBad (s : State) (p : Pkt) : State :=
  match fin? 16 (pJob p) with
  | none => s
  | some j => redEv s true 0x7007 j (pByte p 14 2) 0 (pByte p 16 4) (memberNo s j (pSrc p)) 0 (some (pSrc p))

/-- A SYNC message of a kind arrives, over a link or from this module itself. -/
def syncIn (s : State) (src : Option LinkId) (kind : Nat) : State :=
  let mine (p : Pkt) : Bool := pType p == 9 && (pByte p 12 1 == kind || !decide (1 ≤ pByte p 12 1 ∧ pByte p 12 1 ≤ 7))
  let run (s : State) (p : Pkt) : State :=
    if pByte p 12 1 ≠ kind then syncBad s p
    else
      match fin? 16 (pJob p) with
      | some j => syncBody kind s j p
      | none => s
  match src with
  | some l => intake s l mine (fun s r => leaveBuffer (run s r.pkt) l r)
  | none =>
    match s.net.self with
    | [] => s
    | p :: rest => if mine p then run { s with net := { s.net with self := rest } } p else s

/-! ### The commands -/

/-- QCELLS (R209, R281). -/
def execQcells (l : LinkId) (s : State) : Out := .next (s.live (qcellsIn s l))
/-- WRITE (R281); `err` is how the CXL tier fails, if it does. -/
def execWrite (l : LinkId) (us : List Upset) (err : Option CxlErr) (s : State) : Out := .next (s.live (reqIn (strike s us) l 2 err))
/-- READ (R281). -/
def execRead (l : LinkId) (us : List Upset) (err : Option CxlErr) (s : State) : Out := .next (s.live (reqIn (strike s us) l 3 err))
/-- READ_RSP (R281). -/
def execReadRsp (l : LinkId) (s : State) : Out := .next (s.live (take s l 4 answerIn))
/-- WRITE_ACK (R281). -/
def execWriteAck (l : LinkId) (s : State) : Out := .next (s.live (take s l 5 answerIn))
/-- E2E_TIMEOUT_EXPIRY of a tag (R282). -/
def execE2eTimeoutExpiry (tag : BitVec 13) (s : State) : Out := .next (s.live (e2eTimeout s tag.toNat))
/-- COLL (R289). -/
def execColl (l : LinkId) (us : List Upset) (s : State) : Out :=
  .next (s.live (retryColl (intake (strike s us) l (fun p => pType p == 6) (fun s r => collGo s l r))))
/-- COLL_ACK (R290). -/
def execCollAck (l : LinkId) (s : State) : Out := .next (s.live (take s l 7 collAckIn))
/-- COLL_NAK_TIMER_EXPIRY (R290). -/
def execCollNakTimerExpiry (src : DevId) (job : JobId) (xid : BitVec 16) (s : State) : Out :=
  .next (s.live (nakTimer s src.toNat job xid.toNat))
/-- COLL_RESEND_TIMER_EXPIRY (R290). -/
def execCollResendTimerExpiry (dst : DevId) (job : JobId) (xid : BitVec 16) (s : State) : Out :=
  .next (s.live (resendTimer s dst.toNat job xid.toNat))
/-- QFLOW (R217). -/
def execQflow (l : LinkId) (s : State) : Out := .next (s.live (take s l 8 qflowIn))
/-- TIME_EXCHANGE (R294). -/
def execTimeExchange (s : State) : Out := .next (s.live (timeExchange s))
/-- TIME_REQUEST (R294). -/
def execTimeRequest (l : LinkId) (s : State) : Out :=
  .next (s.live (intake s l (fun p => pType p == 10 && pRsp p == 0) (fun s r => leaveBuffer (timeRequest s r.came r.pkt) l r)))
/-- TIME_REPLY (R294). -/
def execTimeReply (l : LinkId) (s : State) : Out :=
  .next (s.live (intake s l (fun p => pType p == 10 && pRsp p == 1) (fun s r => leaveBuffer (timeReply s r.came r.pkt) l r)))
/-- EXP (R305). -/
def execExp (src : Option LinkId) (s : State) : Out := .next (s.live (syncIn s src 1))
/-- PENDING (R305). -/
def execPending (src : Option LinkId) (s : State) : Out := .next (s.live (syncIn s src 2))
/-- DECIDE (R307). -/
def execDecide (src : Option LinkId) (us : List Upset) (s : State) : Out := .next (s.live (syncIn (strike s us) src 3))
/-- READY (R320). -/
def execReady (src : Option LinkId) (s : State) : Out := .next (s.live (syncIn s src 4))
/-- FAIL (R320). -/
def execFail (src : Option LinkId) (s : State) : Out := .next (s.live (syncIn s src 7))
/-- COMMIT (R321). -/
def execCommit (src : Option LinkId) (s : State) : Out := .next (s.live (syncIn s src 5))
/-- ABANDON (R323). -/
def execAbandon (src : Option LinkId) (s : State) : Out := .next (s.live (syncIn s src 6))

end Sys2Proof.Machine
end

