-- ==== Sys2Proof/Machine/Handover.lean ====
section
/-!
DEFINITION. The host ports (R331, R333), ownership and handover (R352 to R354), and the scratchpad aperture (R337).
-/

namespace Sys2Proof.Machine

/-! ### Stopping the rings (R353, R354) -/

/-- A started descriptor stops with ABORTED: a monitored request gives its slot back (R353, R376). -/
def abortDesc (s : State) (r : RingId) (i : Nat) : State :=
  match descAt s r i with
  | none => s
  | some d =>
    match d.run with
    | some (.due ..) => s
    | some (.gen slot _ _) =>
      match fin? 64 slot with
      | some k => abortMonitor s k
      | none => s
    | _ => dueDesc s r i 0x1C#8

/-- Every descriptor of a ring stops with ABORTED, and all that are due complete: with a record where the ring's owner still
answers, else without (R353). -/
def stopRing (s : State) (r : RingId) (answers : Bool) : State :=
  let n := (s.host.rings[r]).descs.length
  let s := { s with host := { s.host with reads := s.host.reads.filter (fun q => q.who != .ring r) } }
  let s := (List.range n).foldl (fun (s : State) i => abortDesc s r i) s
  let s := if answers && s.ringLive (cqOf r) then (List.range n).foldl (fun (s : State) _ => descComplete s r 0) s else s
  s.setRing r { s.host.rings[r] with descs := [] }

/-- EN of a ring is cleared. -/
def ringOff (s : State) (r : RingId) : State := s.wr (ringBase r + 8) (clrBit (s.rd (ringBase r + 8)) 8)

/-- VALID of every host window is cleared; with `dead`, accesses fail with code 0x09 until a window is written again
(R353, R354). -/
def windowsOff (s : State) (dead : Bool) : State :=
  let s := (List.range 16).foldl (fun (s : State) h => s.wr (hwBase h + 0x10) (clrBit (s.rd (hwBase h + 0x10)) 0)) s
  if dead then { s with host := { s.host with hwDead := List.range 16 } } else s

/-- Every ring stops, its EN is cleared with VALID of every host window, and the owner port's VFs are disabled: step 4 of a
handover (R353), and an FLR of the owner PF (R354). -/
def quiesce (s : State) (answers dead : Bool) : State :=
  let s := (allFin 34).foldl (fun (s : State) (r : RingId) => if sqRing r then stopRing s r answers else s) s
  let s := (allFin 34).foldl (fun (s : State) (r : RingId) => ringOff s r) s
  let s := windowsOff s dead
  setPort s true { portOf s true with vfEn := false }

/-! ### Owner, standby and handover (R352, R353) -/

/-- Step 4 of a handover begins: unstarted descriptors are due with ABORTED, nothing is fetched or asked of the host any
more, and core DMA to the host windows fails from here on (R353). -/
def beginHandover (s : State) (h : Handover) : State :=
  let s := { s with host := { s.host with ho := h, hwDead := List.range 16 } }
  (allFin 34).foldl (fun (s : State) (r : RingId) => if sqRing r then abortUnstarted s r else s) s

/-- RELEASE from the owner (R353). -/
def release (s : State) : State :=
  if s.host.ho ≠ .none ∨ s.host.released then s else beginHandover s .release

/-- TAKE from the standby port: it succeeds on RELEASED, or on OWNER_LOST where ALLOW_TAKE lets it; it has no effect while a
MOD reset is in progress (R352). -/
def take_ (s : State) : State :=
  let h := s.host
  if modBusy s ∨ h.ho = .take then s
  else if h.released ∨ (bit (s.rd 0x1010) 0 ∧ h.ownerLost) then beginHandover s .take
  else s.raise 0x0007 0 0 none 0 0

/-- The outstanding host requests have finished: step 4 of a handover is done, and after TAKE the roles are swapped
(R353). HOST_TAKEOVER goes before every completion that the event ring still holds. -/
def handoverDone (s : State) (answers : Bool) : State :=
  match (if s.host.reads.isEmpty then s.host.ho else .none) with
  | .none => s
  | .release =>
    let s := quiesce s answers true
    let s := { s with host := { s.host with ho := .none, released := true } }
    s.raise 0x0005 0 0 none 0 0
  | .take =>
    let s := if s.host.released then s else quiesce s answers true
    let h := s.host
    let s := { s with host := { h with ho := .none, released := false, ownerB := !h.ownerB, gen := h.gen + 1 } }
    let s := s.orReg 0x20 0x40#64
    if bit (s.rd 0x18) 6 then s
    else
      let (t, s) := s.now
      let k := s.host.rings[(1 : Fin 34)]
      let c : Compl := { bytes := evtBytes 0x0006 1 0 none none t 0 0, irq := true }
      ringFlow (s.setRing 1 { k with held := c :: k.held }) 1

/-- A heartbeat (R352). -/
def heartbeat (s : State) : State := { s with host := { s.host with ownerLost := false } }

/-- OWNER_LOST is set, with HOST_OWNER_LOST (R352, R356). -/
def ownerGone (s : State) : State :=
  if s.host.ownerLost then s
  else ({ s with host := { s.host with ownerLost := true } }).raise 0x0008 0 0 none 0 0

/-- Whether the owner port's data link is up. -/
def ownerUp (s : State) : Bool := if s.host.ownerB then s.host.upB else s.host.upA

/-- HO_RELEASE: RELEASE counts from the owner port only (R353, R355). -/
def execHoRelease (b : Sender) (s : State) : Out := .next (if b = .owner ∧ hears s b then release s else s)
/-- HO_TAKE: TAKE counts from the standby port only (R352, R355). -/
def execHoTake (b : Sender) (s : State) : Out := .next (if b = .standby ∧ hears s b then take_ s else s)
/-- HO_HEARTBEAT: HEARTBEAT counts from the owner port only (R352, R355). -/
def execHoHeartbeat (b : Sender) (s : State) : Out := .next (if b = .owner ∧ hears s b then heartbeat s else s)
/-- HB_TIMEOUT_EXPIRY (R352); an HB_TIMEOUT of 0 disables it. -/
def execHbTimeoutExpiry (s : State) : Out := .next (if fld (s.rd 0x1010) 16 16 = 0 then s else ownerGone s)
/-- OWNER_LINK_DOWN_TIMER (R352). -/
def execOwnerLinkDownTimer (s : State) : Out := .next (if ownerUp s then s else ownerGone s)
/-- HANDOVER_COMPLETE (R353); `answers` tells whether the old owner still answers. -/
def execHandoverComplete (answers : Bool) (s : State) : Out := .next (s.live (handoverDone s answers))

/-! ### The ports (R331, R333, R354, R356) -/

/-- An FLR of a port's PF: on the owner port its rings and windows are cleared and its VFs disabled, with the role kept; on
the standby port only the function is reset (R333, R354). -/
def flrPf (s : State) (hb answers : Bool) : State :=
  let s := if s.host.ownerB == hb then quiesce s answers false else s
  portReset s hb

/-- The job of a VF: the open job whose FUNC names it (R357). -/
def vfJob (s : State) (n : Fin 16) : Option Nat :=
  (List.range 16).find? (fun j => s.jobOpen j && fld (s.rd (jpBase j)) 4 5 == n.val + 1)

/-- An FLR of a VF of the owner port: the rings it drives stop, and its function is reset (R354). -/
def flrVf (s : State) (n : Fin 16) (answers : Bool) : State :=
  let mine (r : RingId) : Bool := decide (2 ≤ r.val) && s.ringFn r == n.val + 1
  let s := (allFin 34).foldl (fun (s : State) (r : RingId) => if mine r && sqRing r then stopRing s r answers else s) s
  let s := (allFin 34).foldl (fun (s : State) (r : RingId) => if mine r then ringOff s r else s) s
  let p := portOf s true
  let s := setPort s true { p with d3 := p.d3.filter (fun x => x != n.val + 1) }
  let s := { s with host := { s.host with waits := s.host.waits.filter (fun w => vfJob s n != some w.job) } }
  fnReset s (fun k => k == s.fnNo (n.val + 1))

/-- Whether a port answers configuration requests otherwise than with Request Retry Status: its domain is on, and the module is up
or in recovery (R397, R412). -/
def cfgUp (s : State) (hb : Bool) : Bool :=
  bit (pdState s) (if hb then 61 else 60) && (s.power.boot == .up || s.power.recovery)

/-- A configuration write of a function of a port (R331, R333). -/
def pcieWrite (s : State) (hb : Bool) (fn : Fin 17) (c : PcieCfg) : State :=
  let owner := s.host.ownerB == hb
  let p := portOf s owner
  let n := (if hb then 32 else 0) + fn.val
  match c with
  | .vfEnable on => if owner && fn == 0 then setPort s owner { p with vfEn := on } else s
  | .power d3 => setPort s owner { p with d3 := if d3 then n % 32 :: p.d3.filter (fun x => x != n % 32) else p.d3.filter (fun x => x != n % 32) }
  | .control mps mrrs relaxed => if fn = 0 then setPort s owner { p with mps := mps, mrrs := mrrs, relaxed := relaxed } else s
  | .timeout v => if fn = 0 then setPort s owner { p with ctimeout := v } else s
  | .aer v => if fn = 0 then setPort s owner { p with aer := p.aer &&& ~~~v } else s
  | .aerUnc v => if fn = 0 then setPort s owner { p with aerUnc := p.aerUnc &&& ~~~v } else s
  | .ecrc gen chk => if fn = 0 then setPort s owner { p with ecrcGen := gen, ecrcChk := chk } else s
  | .tags ten => if fn = 0 then setPort s owner { p with tags10 := ten } else s
  | .msix on mask =>
    let h := s.host
    let s := { s with host := { h with fnOn := if on && !mask then n :: h.fnOn.filter (fun x => x != n) else h.fnOn.filter (fun x => x != n) } }
    if owner then msixFlush s fn.val else s

/-- A port's data link comes up, with its reference clock (R355, R421). -/
def portUp (s : State) (hb : Bool) : State :=
  if !bit (pdState s) (if hb then 61 else 60) then s
  else
    let s := setClk s (if hb then 12 else 11) true
    { s with host := if hb then { s.host with upB := true } else { s.host with upA := true } }

/-- PORT_DATA_LINK_DOWN (R356). -/
def execPortDataLinkDown (hb : Bool) (s : State) : Out := .next (portDown s hb)
/-- PORT_DATA_LINK_UP (R355). -/
def execPortDataLinkUp (hb : Bool) (s : State) : Out := .next (portUp s hb)
/-- FLR_PF (R354). -/
def execFlrPf (hb answers : Bool) (s : State) : Out := .next (if cfgUp s hb then flrPf s hb answers else s)
/-- FLR_VF (R354). -/
def execFlrVf (n : Fin 16) (answers : Bool) (s : State) : Out := .next (if cfgUp s s.host.ownerB then flrVf s n answers else s)
/-- PERST_N_STANDBY: only that port's function is reset (R333). -/
def execPerstNStandby (s : State) : Out := .next (portReset (setPerst s (!s.host.ownerB) true) (!s.host.ownerB))
/-- PCIE_CONFIG_WRITE (R333). -/
def execPcieConfigWrite (hb : Bool) (fn : Fin 17) (c : PcieCfg) (s : State) : Out :=
  .next (if cfgUp s hb then pcieWrite s hb fn c else s)

/-! ### Completion timeouts (R331, R338, R349) -/

/-- COMPLETION_TIMEOUT_EXPIRY (R331): the request of a channel fails with code 0x09, that of a descriptor with
HOST_ERROR. -/
def execCompletionTimeoutExpiry (w : HostWait) (s : State) : Out :=
  .next (s.live (match w with
    | .dma c ch => dmaHostTimeout s c ch
    | .ring r => ringTimeout s r))

/-! ### Poisoned writes and ECRC (R331) -/

/-- Whether a host port drops a write: it is poisoned, or its ECRC does not match and AER has checking enabled (R331). -/
def tlpDropped (s : State) (b : Sender) (e : Tlp) : Bool :=
  let owner := b != .standby
  match b with
  | .mgmt => false
  | .tap => false
  | _ => cfgUp s (s.host.ownerB == owner) && (e == .poison || (e == .ecrc && (portOf s owner).ecrcChk))

/-- What a dropped write leaves: its bit in the port's AER uncorrectable error status, and for a poisoned one a host error, of the job
of a VF (R331, R349). DESIGN CHOICE (log entry 15): HOST_ERR_LOG names no ring and window 0, and the address is the offset in the BAR. -/
def dropWrite (s : State) (b : Sender) (o : Nat) (e : Tlp) : State :=
  let owner := b != .standby
  let p := portOf s owner
  let s := setPort s owner { p with aerUnc := p.aerUnc ||| (if e = .poison then 0x1000#32 else 0x80000#32) }
  if e = .poison ∧ (barGate s b).isNone then
    hostError s 0x3F 0 3 (match b with | .vf n => vfJob s n | _ => none) o
  else s

/-! ### The scratchpad aperture (R231 to R233, R236, R337, R401) -/

/-- A read or a write of an aperture answers: only a read has an answer. -/
def reply (s : State) (write : Bool) (o : HostOut) : State := if write then s else answer s o

/-- An access of the aperture to a core's scratchpad, past its checks. -/
def barGo (s : State) (c : CoreId) (job : Option Nat) (off len : Nat) (data : Option (List Byte)) : State :=
  match data with
  | some bs => spWriteAny s c job off bs
  | none =>
    let (s, bs) := spReadAny s c job off len
    answer s (.data bs)

/-- An access of a job's host function through the windows and the residency of the core (R231, R233). -/
def barChecked (s : State) (w : BarWait) : State :=
  let c := w.core
  let write := w.data.isSome
  match spWindow s c .host w.job w.off w.len write with
  | none => reply (winReject s c .host w.job w.off write) write .ca
  | some n =>
    if spGecko s c (some w.job) w.off w.len then
      reply (s.raise 0x1014 c 0 (some w.job) (s.rd (coreBase c + 0x4080)).toNat w.off) write .ca
    else
      let s := if (spBankOff s c w.off w.len).isSome then s else s.count (coreBase c + 0x4418 + 0x20 * n) 32 1
      barGo s c (some w.job) w.off w.len w.data

/-- An access of a job's host function goes ahead, or waits while the core is away, and behind an access of the job that
waits (R232, R365). -/
def barTry (s : State) (w : BarWait) : State :=
  if coreAway s w.job w.core ∨ s.host.waits.any (fun x => x.job == w.job) then
    { s with host := { s.host with waits := s.host.waits ++ [w] } }
  else barChecked s w

/-- The accesses of host functions that wait are tried again in order, and the control words of monitored requests (R232, R375). -/
def retryHost (s : State) : State :=
  retryWords (s.host.waits.foldl barTry { s with host := { s.host with waits := [] } })

/-- A BAR4 access of `len` bytes at offset `o`, or a write of bytes there (R337). -/
def bar4 (s : State) (b : Sender) (o len : Nat) (data : Option (List Byte)) : State :=
  let len := match data with | some bs => bs.length | none => len
  let write := data.isSome
  let zeros : HostOut := .data (List.replicate len 0#8)
  match barGate s b with
  | some out => reply s write (match out with | .reg _ => zeros | x => x)
  | none =>
    match b with
    | .standby => reply s write zeros
    | .mgmt => s
    | .tap => s
    | _ =>
      if 0x30000000 ≤ o then reply s write zeros
      else if len = 0 ∨ 512 < len ∨ 0x1000000 < o % 0x1000000 + len then reply s write .ur
      else
        match fin? 48 (o / 0x1000000) with
        | none => s
        | some c =>
          if !s.domainOn c.val then reply s write zeros
          else
            match b with
            | .vf n =>
              match vfJob s n with
              | none => reply s write .ca
              | some j => barTry s { core := c, job := j, off := o % 0x1000000, len := len, data := data }
            | _ => barGo s c none (o % 0x1000000) len data

/-- BAR4_ACCESS (R337). -/
def execBar4Access (b : Sender) (o len : Nat) (data : Option (List Byte)) (us : List Upset) (s : State) (e : Tlp := .good) : Out :=
  .next (if data.isSome && tlpDropped s b e then dropWrite (strike s us) b o e else bar4 (strike s us) b o len data)

/-- WINDOW_ACCESS_RETRY (R232): an access held at a channel, in a receive buffer or at the host port is tried again. -/
def execWindowAccessRetry (w : Waiter) (us : List Upset) (err : Option CxlErr) (s : State) : Out :=
  .next (s.live (match w with
    | .dma c ch => dmaGo (strike s us) c ch []
    | .link l => retryWaits (strike s us) l err
    | .host => retryHost (strike s us)))

end Sys2Proof.Machine
end

