-- ==== Sys2Proof/Machine/Security.lean ====
section
/-!
DEFINITION. The security commands (R412 to R419): the queue that SEC_CMD and MCTP feed, and what each command does.
-/

namespace Sys2Proof.Machine

/-! ### SEC_BUF, SEC_RESULT and the queue (R419, R422) -/

/-- The bytes of SEC_BUF from an 8-byte aligned offset on. -/
def secBuf (s : State) (off words : Nat) : List Byte :=
  (List.range words).flatMap (fun i => leBytes 8 (s.rd (secBase + 0x1000 + off + 8 * i)).toNat)

/-- Bytes are written to SEC_BUF from its start on, whole registers at a time. -/
def secBufWrite (s : State) (bs : List Byte) : State :=
  let bs := bs.take 4096
  (List.range ((bs.length + 7) / 8)).foldl (fun (s : State) i =>
    s.wr (secBase + 0x1000 + 8 * i) (BitVec.ofNat 64 (leAt bs (8 * i) 8))) s

/-- SEC_RESULT: status, BUSY, length. -/
def secResult (s : State) (status : Nat) (busy : Bool) (len : Nat) : State :=
  s.wr (secBase + 0x38) (BitVec.ofNat 64 (status % 2 ^ 16 + (if busy then 2 ^ 16 else 0) + len % 2 ^ 16 * 2 ^ 32))

/-- Whether a command of the host waits. -/
def hostWaits (q : List SecCmd) : Bool := q.any (fun c => c.mctp.isNone)

/-- Whether the security block runs commands: the firmware runs, or the boot ROM is in recovery. -/
def secReady (s : State) : Bool :=
  bit (pdState s) 62 && !s.power.rebooting && (firmwareRuns s || s.power.recovery)

/-- The buffer of a command: SEC_BUF, or the one that came with it over MCTP. -/
def cmdBuf (s : State) (c : SecCmd) : List Byte :=
  match c.mctp with
  | none => secBuf s 0 512
  | some b => (b ++ List.replicate 4096 0#8).take 4096

/-- The front command ends: its status, and the bytes it returns, go to SEC_RESULT and SEC_BUF, or back over MCTP. -/
def secDone (s : State) (status : Nat) (data : List Byte) : State :=
  match s.sec.queue with
  | [] => s
  | c :: rest =>
    let s := { s with sec := { s.sec with queue := rest } }
    match c.mctp with
    | none => secResult (secBufWrite s data) status (hostWaits rest) data.length
    | some _ => { s with sec := { s.sec with replies := s.sec.replies ++ [(c.via, leBytes 1 c.cmd ++ leBytes 2 status ++ data)] } }

/-- Commands whose code is unknown, or not allowed in recovery, end with BAD_CMD when they come to the front. -/
def secSettle : Nat → State → State
  | 0, s => s
  | n + 1, s =>
    match s.sec.queue with
    | [] => s
    | c :: _ =>
      let known := decide (1 ≤ c.cmd ∧ c.cmd ≤ 7)
      let allowed := !s.power.recovery || c.cmd == 2 || c.cmd == 5 || c.cmd == 6
      if !secReady s ∨ (known && allowed) then s else secSettle n (secDone s 1 [])

/-- The front commands that no row runs are ended. -/
def secTrim (s : State) : State := secSettle s.sec.queue.length s

/-- A command enters the queue; BUSY follows. -/
def secEnqueue (s : State) (c : SecCmd) : State :=
  let s := { s with sec := { s.sec with queue := s.sec.queue ++ [c] } }
  let s := if c.mctp.isNone then secResult s 0 true 0 else s
  secTrim s

/-- A write of SEC_CMD by the owner PF: GO puts the command in the queue. -/
def secCmdWrite (s : State) (v : W64) : State :=
  let s := s.wr (secBase + 0x30) (v &&& (ones 8 ||| bits 16 39))
  if bit v 8 then secEnqueue s { cmd := fld v 0 8, arg := fld v 16 24 } else s

/-- Whether the module takes an MCTP message on a way (R420): over SMBus at the address 0x60 + LOC_POS with a good PEC, or over the
owner port while its domain is on and its link is up. -/
def viaOk (s : State) (p : Via) : Bool :=
  match p with
  | .smbus addr pec => pec && addr.toNat == 0x60 + fld (s.rd lnkBase) 15 3
  | .vdm hb => hb == s.host.ownerB && ownerOn s && (if hb then s.host.upB else s.host.upA)

/-- The front command runs where it has a given code; a request that has come over MCTP enters the queue first (R419,
R420). `run` gives the status and the bytes returned. -/
def secRun (code : Nat) (m : Option (Nat × List Byte)) (p : Via) (run : SecCmd → State → State × Nat × List Byte) (s : State) :
    State :=
  let s := match m with
    | none => s
    | some (arg, buf) =>
      if firmwareRuns s && viaOk s p then secEnqueue s { cmd := code, arg := arg, mctp := some buf, via := p } else s
  match s.sec.queue.head? with
  | none => s
  | some c =>
    if c.cmd ≠ code ∨ !secReady s then s
    else
      match run c s with
      | (s, status, data) => secTrim (secDone s status data)

/-! ### ATTEST (R417, R418) -/

/-- The registers that CONFIG_MEAS covers, in order (R418). -/
def configRegs : List Nat :=
  [memBase, lnkBase + 0x10] ++ (List.range 16).flatMap (fun j => [jpBase j, jpBase j + 8]) ++
  (List.range 64).flatMap (fun w => [memBase + 0x100 + 0x20 * w, memBase + 0x108 + 0x20 * w, memBase + 0x110 + 0x20 * w]) ++
  (List.range 16).flatMap (fun h => [hwBase h, hwBase h + 8, hwBase h + 0x10]) ++
  [pwrBase + 0x28, lnkBase + 0x18, lnkBase + 0x20]

/-- CONFIG_MEAS (R418). -/
def configMeas (s : State) : List Byte := sha256 (configRegs.flatMap (fun a => leBytes 8 (s.rd a).toNat))

/-- ROUTE_MEAS (R418). -/
def routeMeas (s : State) : List Byte :=
  sha256 ((List.range 32768).flatMap (fun d => leBytes 8 (s.rd (routeAddr d)).toNat))

/-- The SHA-256 of the owner key, zero when there is none. -/
def ownerHash (s : State) : List Byte := if s.sec.ownerMode then s.sec.ownerHash else List.replicate 32 0#8

/-- Bytes 0 to 191 of the report at a time (R417). The table cannot change while the command runs, so UNSTABLE is 0. -/
def reportBody (s : State) (ts : W64) (nonce : List Byte) : List Byte :=
  leBytes 2 1 ++ leBytes 2 ((if s.sec.ownerMode then 2 else 0) + (if s.sec.acceptSlatal then 4 else 0)) ++
  leBytes 2 s.devid ++ leBytes 2 0 ++ leBytes 8 ts.toNat ++ nonce.take 32 ++
  (List.range 4).flatMap (fun i => leBytes 8 (s.rd (secBase + 0x40 + 8 * i)).toNat) ++
  leBytes 4 s.sec.svn ++ leBytes 4 s.sec.minSvn ++ ownerHash s ++ configMeas s ++ routeMeas s ++
  leBytes 8 (s.rd (secBase + 0x88)).toNat

/-- The attestation report, signed by the device identity key. -/
def attest (c : SecCmd) (s : State) : State × Nat × List Byte :=
  let (ts, s) := s.now
  let (k, s) := s.fresh
  let body := reportBody s ts (cmdBuf s c)
  let sig := Config.dikSign k (BitVec.ofNat 256 (leNat (sha256 body)))
  (secEv s 0x9003 0, 0, body ++ leBytes 64 sig.toNat)

/-- ATTEST (R417). -/
def execAttest (m : Option (Nat × List Byte)) (s : State) (p : Via := .vdm false) : Out := .next (secRun 1 m p attest s)

/-! ### GET_CERT (R414, R419) -/

/-- The bytes of the DER element that begins at an offset of the identity area, its tag and length among them. -/
def derLen (a : Nat) : Nat :=
  let b (i : Nat) : Nat := (Config.identity (a + i)).toNat
  if b 1 < 0x80 then 2 + b 1
  else if b 1 = 0x81 then 3 + b 2
  else 4 + 256 * b 2 + b 3

/-- Where certificate `n` of the chain begins in the identity area (R410, R414). DESIGN CHOICE (log entry 64): the three DER elements
lie one behind the other from the area's start on, in the order of their indices. -/
def certAt (n : Nat) : Nat := (List.range n).foldl (fun a _ => a + derLen a) 0

/-- A certificate of the identity area. -/
def certificate (n : Nat) : List Byte := (List.range (derLen (certAt n))).map (fun i => Config.identity (certAt n + i))

/-- Certificate ARG. -/
def getCert (c : SecCmd) (s : State) : State × Nat × List Byte :=
  if 2 < c.arg then (s, 1, []) else (s, 0, certificate c.arg)

/-- GET_CERT (R419). -/
def execGetCert (m : Option (Nat × List Byte)) (s : State) (p : Via := .vdm false) : Out := .next (secRun 2 m p getCert s)

/-! ### ENROL and REVOKE (R416) -/

/-- Whether a request carries the signature of the current owner key, whose record must match its hash in OTP. -/
def ownerSigned (s : State) (code : Nat) (buf : List Byte) : Bool :=
  let key := s.sec.flash.read 0x1010000 64
  let msg := leBytes 1 code ++ leBytes 2 s.devid ++ leBytes 1 s.sec.enrolUsed ++ buf.take 65
  s.sec.ownerMode && sha256 key == s.sec.ownerHash && ecdsaOk key (sha256 msg) ((buf.drop 128).take 64)

/-- The first check that an ENROL or a REVOKE fails; none where it is accepted. -/
def enrolCheck (s : State) (code : Nat) (buf : List Byte) : Option Nat :=
  if 8 ≤ s.sec.enrolUsed then some 7
  else if code = 3 ∧ !s.sec.ownerMode then (if anyOpen s then some 6 else none)
  else if ownerSigned s code buf then none else some 2

/-- ENROL: the key record and OTP change at once. -/
def enrol (c : SecCmd) (s : State) : State × Nat × List Byte :=
  let buf := cmdBuf s c
  match enrolCheck s 3 buf with
  | some st => (s, st, [])
  | none =>
    let key := buf.take 64
    let s := { s with sec := { s.sec with
      flash := s.sec.flash.write 0x1010000 key, ownerMode := true, acceptSlatal := bit (getD buf 64 0#8) 0,
      ownerHash := sha256 key, enrolUsed := s.sec.enrolUsed + 1 } }
    (secEv s 0x9002 0, 0, [])

/-- REVOKE: the module returns to OWNER_MODE 0. -/
def revoke (c : SecCmd) (s : State) : State × Nat × List Byte :=
  match enrolCheck s 4 (cmdBuf s c) with
  | some st => (s, st, [])
  | none =>
    let s := { s with sec := { s.sec with
      flash := s.sec.flash.zero 0x1010000 64, ownerMode := false, acceptSlatal := false, ownerHash := [],
      enrolUsed := s.sec.enrolUsed + 1 } }
    (secEv s 0x9002 0, 0, [])

/-- ENROL (R416). -/
def execEnrol (m : Option (Nat × List Byte)) (s : State) (p : Via := .vdm false) : Out := .next (secRun 3 m p enrol s)
/-- REVOKE (R416). -/
def execRevoke (m : Option (Nat × List Byte)) (s : State) (p : Via := .vdm false) : Out := .next (secRun 4 m p revoke s)

/-! ### STAGE, COMMIT_FW and ACTIVATE (R412, R413, R419) -/

/-- 4,096 bytes go to the staging area. -/
def stage (c : SecCmd) (s : State) : State × Nat × List Byte :=
  if 4096 ≤ c.arg then (s, 1, [])
  else ({ s with sec := { s.sec with staging := s.sec.staging.write (4096 * c.arg) (cmdBuf s c) } }, 0, [])

/-- The staged image replaces the slot of the flash. -/
def writeSlot (s : State) : State :=
  let n := 4096 + leAt (s.sec.staging.read 0 4096) 8 4
  { s with sec := { s.sec with
    flash := s.sec.staging.filter (fun c => c.1 < min n 0x1000000) ++ s.sec.flash.filter (fun c => 0x1000000 ≤ c.1) } }

/-- The staged image is verified as the boot ROM does, then the slot is erased and written, and FW_UPDATED raised. A flash
that fails leaves the slot open. In recovery no event is raised: the ROM boots the image (R412, R413). -/
def commitImage (s : State) (flashOk : Bool) : State × Nat :=
  match imageCheck s s.sec.staging with
  | some st => (secEv s 0x9000 st, st)
  | none =>
    if !flashOk then
      let (k, s) := s.fresh
      let rest := s.sec.flash.filter (fun c => 0x1000000 ≤ c.1)
      ({ s with sec := { s.sec with flash := Memory.write rest 0 ((List.range 0x1000000).map (Config.flashOpen k)) } }, 8)
    else
      let s := writeSlot s
      (if s.power.recovery then s else secEv s 0x9001 0, 0)

/-- COMMIT_FW: in recovery an image that passes boots by an MGR reset. -/
def commitFw (flashOk : Bool) (_ : SecCmd) (s : State) : State × Nat × List Byte :=
  match commitImage s flashOk with
  | (s, st) => (if st = 0 ∧ s.power.recovery then mgrReset s 0 else s, st, [])

/-- ACTIVATE: an MGR reset, with cause 7 (R400, R421). -/
def activate (_ : SecCmd) (s : State) : State × Nat × List Byte := (mgrReset s 7, 0, [])

/-- STAGE (R419). -/
def execStage (s : State) : Out := .next (secRun 5 none (.vdm false) stage s)
/-- COMMIT_FW (R412, R413); `flashOk` tells whether the flash takes the image. -/
def execCommitFw (flashOk : Bool) (s : State) : Out := .next (secRun 6 none (.vdm false) (commitFw flashOk) s)
/-- ACTIVATE (R400). -/
def execActivate (s : State) : Out := .next (secRun 7 none (.vdm false) activate s)

end Sys2Proof.Machine
end

