-- ==== Sys2Proof/Machine/Mctp.lean ====
section
/-!
DEFINITION. The MCTP control messages and the PLDM commands that the management firmware answers (R413, R420). The form of
the messages is that of the DMTF standards that R420 names (PRESUMED, log entry 66: DSP0236, DSP0240, DSP0248, DSP0267); an answer is
kept as its command code followed by its bytes from the completion code on.
-/

namespace Sys2Proof.Machine

/-- A message of a command code and the bytes after it goes out on a way. -/
def fdSends (s : State) (p : Via) (code : Nat) (bs : List Byte) : State :=
  { s with sec := { s.sec with replies := s.sec.replies ++ [(p, leBytes 1 code ++ bs)] } }

/-- The firmware answers a message where it runs, on the way the message came; one that comes while it does not run goes unanswered
(R400), and so does one on a way that the module does not take (R420). -/
def mctp (code : Nat) (p : Via) (body : State → State × List Byte) (s : State) : State :=
  if !firmwareRuns s ∨ !bit (pdState s) 62 ∨ !viaOk s p then s
  else
    match body s with
    | (s, bs) => fdSends s p code bs

/-- An answer that changes nothing. -/
def answers (bs : State → List Byte) (s : State) : State × List Byte := (s, bs s)

/-! ### MCTP control (R420) -/

/-- Set Endpoint ID: set and force are taken, the null and the broadcast ID are invalid, and so are the operations of
endpoints with a static ID. -/
def setEid (op eid : Nat) (s : State) : State × List Byte :=
  if 2 ≤ op ∨ eid = 0 ∨ eid = 0xFF then (s, leBytes 1 2)
  else ({ s with sec := { s.sec with eid := eid } }, leBytes 2 0 ++ leBytes 1 eid ++ leBytes 1 0)

/-- Get MCTP Version Support for the base specification or for control messages. -/
def mctpVersions (typ : Nat) : List Byte :=
  if typ = 0xFF then leBytes 2 0x100 ++ leBytes 4 (Config.dmtfVersion 256).toNat
  else if typ = 0 then leBytes 2 0x100 ++ leBytes 4 (Config.dmtfVersion 257).toNat
  else leBytes 1 0x80

/-- SET_ENDPOINT_ID (R420). -/
def execSetEndpointId (op eid : Byte) (s : State) (p : Via := .vdm false) : Out := .next (mctp 0x01 p (setEid (op.toNat % 4) eid.toNat) s)
/-- GET_ENDPOINT_ID (R420): a simple endpoint with a dynamic ID. -/
def execGetEndpointId (s : State) (p : Via := .vdm false) : Out :=
  .next (mctp 0x02 p (answers (fun s => leBytes 1 0 ++ leBytes 1 s.sec.eid ++ leBytes 2 0)) s)
/-- GET_MCTP_VERSION_SUPPORT (R420). -/
def execGetMctpVersionSupport (typ : Byte) (s : State) (p : Via := .vdm false) : Out :=
  .next (mctp 0x04 p (answers (fun _ => mctpVersions typ.toNat)) s)
/-- GET_MESSAGE_TYPE_SUPPORT (R420): PLDM and the vendor-defined messages of a PCI vendor. -/
def execGetMessageTypeSupport (s : State) (p : Via := .vdm false) : Out :=
  .next (mctp 0x05 p (answers (fun _ => leBytes 4 0x7E010200)) s)
/-- GET_VENDOR_DEFINED_MESSAGE_SUPPORT (R420): one set, of Slatal's PCI vendor ID. -/
def execGetVendorDefinedMessageSupport (sel : Byte) (s : State) (p : Via := .vdm false) : Out :=
  .next (mctp 0x06 p (answers (fun _ =>
    if sel = 0#8 then leBytes 1 0 ++ leBytes 1 0xFF ++ leBytes 1 0 ++ beBytes 2 Config.pciVendor.toNat ++ leBytes 2 0
    else leBytes 1 2)) s)

/-! ### PLDM Type 0 (R420) -/

/-- The commands of a PLDM type. -/
def pldmCommands (typ : Nat) : Option (List Nat) :=
  match typ with
  | 0 => some [0x02, 0x03, 0x04, 0x05]
  | 2 => some [0x11, 0x21, 0x50, 0x51]
  | 5 => some [0x01, 0x02, 0x10, 0x13, 0x14, 0x15, 0x16, 0x17, 0x18, 0x1A, 0x1B, 0x1D]
  | _ => none

/-- GetPLDMVersion: one version, with its CRC-32. -/
def pldmVersion (typ : Nat) : List Byte :=
  match pldmCommands typ with
  | none => leBytes 1 0x83
  | some _ =>
    let v := leBytes 4 (Config.dmtfVersion typ).toNat
    leBytes 5 0 ++ leBytes 1 5 ++ v ++ leBytes 4 (crc32 v)

/-- GetPLDMCommands: a bit for each command. -/
def pldmCommandSet (typ version : Nat) : List Byte :=
  match pldmCommands typ with
  | none => leBytes 1 0x83
  | some cs =>
    if version ≠ (Config.dmtfVersion typ).toNat then leBytes 1 0x84
    else leBytes 1 0 ++ leBytes 32 (cs.foldl (fun n c => n + 2 ^ c) 0)

/-- GET_TID (R420). -/
def execGetTid (s : State) (p : Via := .vdm false) : Out := .next (mctp 0x02 p (answers (fun _ => [0#8, Config.pldmTid])) s)
/-- GET_PLDM_VERSION (R420). -/
def execGetPldmVersion (typ : Byte) (s : State) (p : Via := .vdm false) : Out := .next (mctp 0x03 p (answers (fun _ => pldmVersion typ.toNat)) s)
/-- GET_PLDM_TYPES (R420): types 0, 2 and 5. -/
def execGetPldmTypes (s : State) (p : Via := .vdm false) : Out := .next (mctp 0x04 p (answers (fun _ => leBytes 1 0 ++ leBytes 8 0x25)) s)
/-- GET_PLDM_COMMANDS (R420). -/
def execGetPldmCommands (typ : Byte) (version : BitVec 32) (s : State) (p : Via := .vdm false) : Out :=
  .next (mctp 0x05 p (answers (fun _ => pldmCommandSet typ.toNat version.toNat)) s)

/-! ### PLDM Type 2 (R420) -/

/-- The numeric sensors, numbered from 1 in the order of R420. -/
def numericSensor (s : State) (id : Nat) : Option Nat :=
  let p := s.rd (pwrBase + 0x50)
  match id with
  | 1 => some (fld p 0 16)
  | 2 => some (fld p 16 16)
  | 3 => some (max s.power.tj.1 s.power.tj.2)
  | 4 => some s.power.tj.1
  | 5 => some s.power.tj.2
  | 6 => some (aclk s)
  | _ => none

/-- The state sensors, numbered from 16 on: the 64 power domains, 1 on and 2 off, and the firmware state, 1 while it
runs. -/
def stateSensor (s : State) (id : Nat) : Option Nat :=
  if 16 ≤ id ∧ id < 80 then some (if bit (pdState s) (id - 16) then 1 else 2)
  else if id = 80 then some 1
  else none

/-- The records of the PDR repository: one for each sensor. -/
def pdrCount : Nat := 71

/-- GetPDRRepositoryInfo. -/
def pdrInfo : List Byte :=
  let ls := (List.range pdrCount).map (fun i => (Config.pdr (i + 1)).length)
  leBytes 28 0 ++ leBytes 4 pdrCount ++ leBytes 4 (ls.foldl (· + ·) 0) ++ leBytes 4 (ls.foldl max 0) ++ leBytes 1 0

/-- GetPDR: record handle 0 names the first record. -/
def getPdr (handle : Nat) : List Byte :=
  let h := if handle = 0 then 1 else handle
  if pdrCount < h then leBytes 1 0x82
  else
    let r := Config.pdr h
    leBytes 1 0 ++ leBytes 4 (if h = pdrCount then 0 else h + 1) ++ leBytes 4 0 ++ leBytes 1 5 ++ leBytes 2 r.length ++ r

/-- GET_SENSOR_READING (R420). -/
def execGetSensorReading (id : BitVec 16) (s : State) (p : Via := .vdm false) : Out :=
  .next (mctp 0x11 p (answers (fun s =>
    match numericSensor s id.toNat with
    | some v => leBytes 1 0 ++ leBytes 1 2 ++ leBytes 2 0 ++ leBytes 3 0x010101 ++ leBytes 2 v
    | none => leBytes 1 0x80)) s)
/-- GET_STATE_SENSOR_READINGS (R420). -/
def execGetStateSensorReadings (id : BitVec 16) (s : State) (p : Via := .vdm false) : Out :=
  .next (mctp 0x21 p (answers (fun s =>
    match stateSensor s id.toNat with
    | some v => leBytes 1 0 ++ leBytes 1 1 ++ leBytes 1 0 ++ leBytes 1 v ++ leBytes 1 0 ++ leBytes 1 v
    | none => leBytes 1 0x80)) s)
/-- GET_PDR_REPOSITORY_INFO (R420). -/
def execGetPdrRepositoryInfo (s : State) (p : Via := .vdm false) : Out := .next (mctp 0x50 p (answers (fun _ => pdrInfo)) s)
/-- GET_PDR (R420). -/
def execGetPdr (handle : BitVec 32) (s : State) (p : Via := .vdm false) : Out := .next (mctp 0x51 p (answers (fun _ => getPdr handle.toNat)) s)

/-! ### PLDM Type 5 (R413, R420) -/

/-- The state of an update as GetStatus codes it; READY XFER also once the component is applied. -/
def updCode : Update → Nat
  | .idle => 0
  | .learn => 1
  | .ready => 2
  | .applied => 2

/-- The update enters a state. -/
def setUpd (s : State) (u : Update) : State := { s with sec := { s.sec with upd := u, updWas := s.sec.upd } }

/-- The module's identifiers: PCI vendor ID and device ID. -/
def deviceIds : List Byte :=
  leBytes 1 0 ++ leBytes 4 12 ++ leBytes 1 2 ++ leBytes 2 0 ++ leBytes 2 2 ++ leBytes 2 Config.pciVendor.toNat ++
  leBytes 2 0x100 ++ leBytes 2 2 ++ leBytes 2 pfDeviceId

/-- RequestUpdate: update mode begins. -/
def requestUpdate (size : Nat) (s : State) : State × List Byte :=
  if s.sec.upd ≠ .idle then (s, leBytes 1 0x81)
  else
    let s := setUpd s .learn
    ({ s with sec := { s.sec with maxXfer := size, updFail := 0 } }, leBytes 4 0)

/-- PassComponentTable: the one component is accepted. -/
def passTable (s : State) : State × List Byte :=
  match s.sec.upd with
  | .idle => (s, leBytes 1 0x80)
  | .learn => (setUpd s .ready, leBytes 3 0)
  | _ => (s, leBytes 1 0x84)

/-- The module asks for the image in pieces of the transfer size. -/
def requestData (s : State) (p : Via) (len : Nat) : State :=
  let n := max 1 s.sec.maxXfer
  (List.range ((len + n - 1) / n)).foldl (fun (s : State) i =>
    fdSends s p 0x15 (leBytes 4 (i * n) ++ leBytes 4 (min n (len - i * n)))) s

/-- UpdateComponent: the image is transferred into the staging area, verified as the boot ROM does, and written to the
slot; TransferComplete, VerifyComplete and ApplyComplete report each step (R413). -/
def updateComponent (p : Via) (image : List Byte) (flashOk : Bool) (s : State) : State × List Byte :=
  match s.sec.upd with
  | .idle => (s, leBytes 1 0x80)
  | .learn => (s, leBytes 1 0x84)
  | _ =>
    let ok := leBytes 9 0
    let image := image.take 0x1000000
    let s := requestData s p image.length
    let s := fdSends { s with sec := { s.sec with staging := Memory.write [] 0 image } } p 0x16 (leBytes 1 0)
    match commitImage s flashOk with
    | (s, 0) => (setUpd (fdSends (fdSends s p 0x17 (leBytes 1 0)) p 0x18 (leBytes 3 0)) .applied, ok)
    | (s, 8) =>
      let s := fdSends (fdSends s p 0x17 (leBytes 1 0)) p 0x18 (leBytes 1 2 ++ leBytes 2 0)
      ({ setUpd s .ready with sec := { (setUpd s .ready).sec with updFail := 8 } }, ok)
    | (s, st) =>
      let s := fdSends s p 0x17 (leBytes 1 1)
      ({ setUpd s .ready with sec := { (setUpd s .ready).sec with updFail := st } }, ok)

/-- ActivateFirmware: an MGR reset runs the new image; the host and the module are not reset (R420). -/
def activateFirmware (s : State) : State × List Byte :=
  match s.sec.upd with
  | .idle => (s, leBytes 1 0x80)
  | .applied => (mgrReset s 7, leBytes 3 0)
  | _ => (s, leBytes 1 0x84)

/-- GetStatus. -/
def updStatus (s : State) : List Byte :=
  leBytes 1 0 ++ leBytes 1 (updCode s.sec.upd) ++ leBytes 1 (updCode s.sec.updWas) ++ leBytes 1 3 ++
  leBytes 1 s.sec.updFail ++ leBytes 1 101 ++ leBytes 1 0 ++ leBytes 4 0

/-- CancelUpdate: update mode ends. -/
def cancelUpdate (s : State) : State × List Byte :=
  if s.sec.upd = .idle then (s, leBytes 1 0x80) else (setUpd s .idle, leBytes 10 0)

/-- QUERY_DEVICE_IDENTIFIERS (R420). -/
def execQueryDeviceIdentifiers (s : State) (p : Via := .vdm false) : Out := .next (mctp 0x01 p (answers (fun _ => deviceIds)) s)
/-- GET_FIRMWARE_PARAMETERS (R420). -/
def execGetFirmwareParameters (s : State) (p : Via := .vdm false) : Out :=
  .next (mctp 0x02 p (answers (fun s => leBytes 1 0 ++ Config.fwParameters s.sec.svn)) s)
/-- REQUEST_UPDATE (R420); `size` is the largest transfer. -/
def execRequestUpdate (size : BitVec 32) (s : State) (p : Via := .vdm false) : Out := .next (mctp 0x10 p (requestUpdate size.toNat) s)
/-- PASS_COMPONENT_TABLE (R420). -/
def execPassComponentTable (s : State) (p : Via := .vdm false) : Out := .next (mctp 0x13 p passTable s)
/-- UPDATE_COMPONENT (R413, R420); `image` is the component and `flashOk` tells whether the flash takes it. -/
def execUpdateComponent (image : List Byte) (flashOk : Bool) (s : State) (p : Via := .vdm false) : Out :=
  .next (mctp 0x14 p (updateComponent p image flashOk) s)
/-- ACTIVATE_FIRMWARE (R420). -/
def execActivateFirmware (s : State) (p : Via := .vdm false) : Out := .next (mctp 0x1A p activateFirmware s)
/-- GET_STATUS (R420). -/
def execGetStatus (s : State) (p : Via := .vdm false) : Out := .next (mctp 0x1B p (answers updStatus) s)
/-- CANCEL_UPDATE (R420). -/
def execCancelUpdate (s : State) (p : Via := .vdm false) : Out := .next (mctp 0x1D p cancelUpdate s)

end Sys2Proof.Machine
end

