-- ==== Sys2Proof/Machine/RegViews.lean ====
section
/-!
DEFINITION. What registers read as that show live state (R6, R7, R59, R60, R90, R120, R173, R222, R247, R264, R265,
R296, R297, R328, R329, R341, R355, R377, R393, R422).
-/

namespace Sys2Proof.Machine

/-- A word of fields: each a value and the position of its lowest bit. -/
def word (fs : List (Nat × Nat)) : W64 := BitVec.ofNat 64 (fs.foldl (fun n f => n + f.1 * 2 ^ f.2) 0)

/-- A flag as a field value. -/
def flag (b : Bool) : Nat := if b then 1 else 0

/-- BLK_ID (R6, R7). -/
def blkId (typ inst : Nat) : W64 := word [(typ, 8), (inst, 0)]

/-! ### The Global block -/

/-- HO_STAT (R355). -/
def hoStat (s : State) : W64 :=
  let h := s.host
  word [(flag h.ownerB, 0), (flag h.upA, 1), (flag h.upB, 2), (flag h.ownerLost, 3), (flag h.released, 4), (h.gen.toNat, 8)]

/-- RING_STAT (R341). -/
def ringStat (s : State) (r : RingId) : W64 :=
  let k := s.host.rings[r]
  word [(flag (ringRunning s r), 0), (flag k.err, 1), (k.cause % 16, 4), ((k.descs.filter (fun d => d.run.isSome)).length, 8)]

/-- A register of a ring (R341). -/
def ringView (s : State) (r : RingId) (o : Nat) : Option W64 :=
  match o with
  | 0x10 => some ((s.host.rings[r]).prod.setWidth 64)
  | 0x18 => some ((s.host.rings[r]).cons.setWidth 64)
  | 0x20 => some (ringStat s r)
  | _ => none

/-- DU_STAT (R173). -/
def duStat (s : State) (u : DuId) : W64 :=
  let k := s.dus[u]
  word [(flag (k.run.isSome || !k.stuck.isEmpty), 0), (k.entries.length, 8), (k.waiting.length, 16)]

/-- The registers of a monitor slot; a slot not in use reads zero (R377). -/
def monitorView (s : State) (i : Fin 64) (o : Nat) : W64 :=
  match s.jobs.monitors[i] with
  | none => 0#64
  | some m =>
    match o with
    | 0x00 => monitorWord m true
    | 0x08 => m.t0
    | 0x10 => word [(m.deadline % 2 ^ 32, 0), (m.tokens % 2 ^ 16, 32)]
    | 0x18 => word [(m.job % 16, 0), (m.qout.val, 4)]
    | _ => 0#64

/-- BKT_STAT: the data phase ends for this member when every vertex it hosts has fired and every contribution has been
acknowledged; the entry is done when its inactive halves are written (R318, R329). -/
def bktStat (s : State) (e : QId) : W64 :=
  let b := s.rcl.bkts[e]
  let ph := if b.phase < 3 then b.phase
    else if bktReady s e then 5
    else if b.dv.all (·.fired) && b.sending.isEmpty && b.left.isEmpty then 4
    else 3
  match b.dec with
  | none => word [(ph, 0)]
  | some d => word [(ph, 0), (ofInt 8 (d.eb - 8), 4), (d.n % 2 ^ 16, 12)]

/-- JOB_STAT (R328). -/
def jobStat (s : State) (j : JobId) : W64 :=
  let k := s.rcl.jobs[j]
  word [(if k.phase = 2 ∧ !k.readySent then 1 else k.phase % 4, 0), (flag k.failed, 2), (flag (rclEn s j && groupSelf s j == 0), 3), (k.attempt.toNat, 8),
    (min k.readyCnt 0xFFFF, 16)]

/-- The module registers of jobs at 0x8800, the model table and the monitor slots (R377). -/
def jobsView (s : State) (a : Nat) : Option W64 :=
  if a = 0x8800 then some (BitVec.ofNat 64 (coreMask ((allFin 48).filter (coreFree s))))
  else if a = 0x8820 then
    some (word ((allFin 64).map (fun (i : Fin 64) => (flag (s.jobs.monitors[i]).isSome, i.val))))
  else if 0x9000 ≤ a ∧ a < 0x9200 then
    if a % 0x40 ≠ 0 ∧ rmtState s ((a - 0x9000) / 0x40) = 0 then some 0#64 else none
  else if 0xA100 ≤ a ∧ a < 0xA900 then (fin? 64 ((a - 0xA100) / 0x20)).map (fun i => monitorView s i (a % 0x20))
  else none

/-- A register of the Global block. -/
def globalView (s : State) (a : Nat) : Option W64 :=
  if a = 0 then some (blkId 1 0)
  else if a = 0x1000 then some (hoStat s)
  else if a = 0x1020 then some (word [(min 4096 s.host.reads.length, 0)])
  else if 0x2000 ≤ a ∧ a < 0x2880 then (fin? 34 ((a - 0x2000) / 0x40)).bind (fun r => ringView s r (a % 0x40))
  else if 0x8000 ≤ a ∧ a < 0x10000 then jobsView s a
  else if 0x20000 ≤ a ∧ a < 0x40000 then
    if a % 0x10000 = 8 then (fin? 2 ((a - 0x20000) / 0x10000)).map (duStat s) else none
  else if a = lnkBase + 8 then some (BitVec.ofNat 64 (liveMask s))
  else if a = lnkBase + 0x50 then some (BitVec.ofNat 64 (8192 - (s.net.reqs.length + s.net.collTx.length)))
  else if 0x61000 ≤ a ∧ a < 0x62000 then
    if a % 0x100 = 8 then (fin? 16 ((a - 0x61000) / 0x100)).map (jobStat s) else none
  else if 0x70000 ≤ a ∧ a < 0x78000 then
    if a % 0x80 = 0x60 then (fin? 256 ((a - 0x70000) / 0x80)).map (bktStat s) else none
  else none

/-! ### Links, queues, controllers, ports -/

/-- STATE of a link (R272). -/
def linkCode : LinkSt → Nat
  | .down => 0 | .optics => 1 | .align => 2 | .exchange => 3 | .active => 4 | .failed => 5

/-- A register of a link (R296). -/
def linkView (s : State) (l : LinkId) (o : Nat) : Option W64 :=
  let k := s.links[l]
  match o with
  | 0x00 => some (blkId 2 l)
  | 0x10 => some (word [(linkCode k.st, 0), (flag (k.st == .active), 3), (flag k.lock0, 4), (flag k.lock1, 5),
      (flag (decide (256 ≤ k.retry.length)), 6)])
  | 0x70 => some (if k.st = .active then
      word [(min 4095 (k.peerPool - tsum k.usePool), 0), (min 4095 (ownPool k - tsum k.rxPool), 16)] else 0#64)
  | 0x78 => some (word [(k.retry.length, 0)])
  | _ => none

/-- A register of a queue (R222). DESIGN CHOICE, log entry 32: with all 1,024 keys of a half on one queue, the 10 bits of
Q_HELD [41:32] read 0. -/
def queueView (s : State) (q : QId) (o : Nat) : Option W64 :=
  let k := s.queues[q]
  if 0xF0 ≤ o ∧ o ≤ 0x128 then some (BitVec.ofNat 64 (fld k.last (64 * ((o - 0xF0) / 8)) 64))
  else
    match o with
    | 0x00 => some (blkId 3 q)
    | 0x10 => some (qStat s q)
    | 0x98 => some (word [(qVis k % 2 ^ 32, 0)])
    | 0xA0 => some (word [(qHeld k % 2 ^ 32, 0), ((qKeys k).length % 1024, 32)])
    | 0xA8 => some (word [(qFree s q, 0)])
    | 0xB0 => some (word [(((visEops s.queues[q]).filter id).length % 2 ^ 32, 0)])
    | 0x130 => some (word [(keysFree s q, 0)])
    | _ => none

/-- A register of a controller (R264). -/
def ctrlView (s : State) (g : CtrlId) (o : Nat) : Option W64 :=
  let k := s.ctrls[g]
  match o with
  | 0x00 => some (blkId 4 g)
  | 0x10 => some (word [(flag k.ready, 0), (flag k.selfRef, 1), (flag k.trainFail, 2), (flag k.scrubbing, 3)])
  | 0x68 => some (word [(min 512 k.reqs.length, 0)])
  | _ => none

/-- A register of a CXL port (R265). -/
def cxlView (s : State) (p : PortId) (o : Nat) : Option W64 :=
  let k := s.cxl[p]
  match o with
  | 0x00 => some (blkId 5 p)
  | 0x10 => some (word [(flag k.activeA, 0), (flag k.activeB, 1), (flag k.enumFail, 2)])
  | 0x60 => some (word [(k.reqs.length, 0)])
  | _ => none

/-! ### Telemetry and security -/

/-- A register of the telemetry block (R393). -/
def telView (s : State) (o : Nat) : Option W64 :=
  match o with
  | 0x00 => some (blkId 7 0)
  | 0x30 => some (putBit (s.rd (telBase + 0x30)) 0 s.tel.running.isSome)
  | 0x38 => some (word ((List.range 16).map (fun j => (flag (s.tel.pending.any (fun x => x.job == j)), j))))
  | _ => none

/-- A register of the security block (R422). -/
def secView (s : State) (o : Nat) : Option W64 :=
  if 0x60 ≤ o ∧ o ≤ 0x78 then some (BitVec.ofNat 64 (leAt (ownerHash s) (o - 0x60) 8))
  else
    match o with
    | 0x00 => some (blkId 8 0)
    | 0x28 => some (word [(flag s.sec.ownerMode, 0), (flag s.power.recovery, 1), (flag s.sec.acceptSlatal, 2),
        (s.sec.enrolUsed % 16, 8), (s.sec.svn % 2 ^ 32, 32)])
    | 0x80 => some (word [(s.sec.minSvn % 2 ^ 32, 0)])
    | _ => none

/-! ### Cores -/

/-- MU_GEOM (R90). -/
def muGeom (s : State) (c : CoreId) (u : Nat) : W64 :=
  let v := s.rd (coreBase c + 0x1010 + 0x1000 * u)
  let used := bit v 0
  word [(8, 0), (4, 4), (10, 8), (5, 12), (flag used, 16), (if used then fld v 1 4 else 15, 20),
    (if used then 13 else 12, 24), (8, 32)]

/-- KIND of a codebook slot as a code (R120). -/
def cbCode (k : CbKind) : Nat := match k with | .identity => 0 | .c4 => 1 | .c8 => 2

/-- A counter of a quantiser counter set (R120). -/
def setView (q : QuantSet) (o : Nat) : W64 :=
  match o with
  | 0x00 => q.elem
  | 0x08 => q.sat
  | 0x10 => q.ufl
  | _ => q.nonfin

/-- STATE of a bank as a code (R247). -/
def bankCode : Bank → Nat
  | .on => 0 | .retain => 1 | .off => 2 | .trans _ => 3

/-- Whether a bank is in TRANSITION. -/
def bankMoves : Bank → Bool
  | .trans _ => true
  | _ => false

/-- A register of the numerics block at core-block offset `o` (R120). -/
def numView (s : State) (c : CoreId) (o : Nat) : Option W64 :=
  let k := s.core c
  if o = 0x3030 then some (word ((allFin 16).map (fun (i : Fin 16) => (cbCode (k.cbs[i]).kind, 2 * i.val))))
  else if 0x3100 ≤ o ∧ o < 0x3300 then
    (fin? 16 ((o - 0x3100) / 0x20)).map (fun (i : Fin 16) => setView (s.loc c).sets[i] (o % 0x20))
  else if 0x3300 ≤ o ∧ o < 0x3380 then
    (fin? 16 ((o - 0x3300) / 8)).map (fun (i : Fin 16) => word [((k.cbs[i]).tag.toNat, 0), (cbCode (k.cbs[i]).kind, 16)])
  else none

/-- A register of the scratchpad, slots and DMA at core-block offset `o` (R247). -/
def spView (s : State) (c : CoreId) (o : Nat) : Option W64 :=
  let l := s.loc c
  if o = 0x4010 then some (word [(flag l.clearing.isSome, 0), (flag ((allFin 64).any (fun (b : Fin 64) => bankMoves l.bank[b])), 1)])
  else if o = 0x4058 ∨ o = 0x4060 then
    some (word ((allFin 64).filterMap (fun (b : Fin 64) =>
      if b.val / 32 = (o - 0x4058) / 8 then some (bankCode l.bank[b], 2 * (b.val % 32)) else none)))
  else if 0x4100 ≤ o ∧ o < 0x4300 then some (BitVec.ofNat 64 (fld l.guards (64 * ((o - 0x4100) / 8)) 64))
  else if 0x4800 ≤ o ∧ o < 0x4880 ∧ o % 0x20 = 0 then
    (fin? 4 ((o - 0x4800) / 0x20)).map (fun (ch : Fin 4) =>
      let n := ((s.unit c).chan[ch]).length
      word [(flag (n != 0), 0), (n % 512, 1), (min 1023 (chanOut s c ch), 16)])
  else if o = 0x4880 then some (word [((allFin 4).foldl (fun n (ch : Fin 4) => n + chanOut s c ch) 0, 0)])
  else none

/-- A register of a core (R59, R60, R90, R120, R247). -/
def coreView (s : State) (c : CoreId) (o : Nat) : Option W64 :=
  let k := s.core c
  if o < 0x1000 then
    if 0x100 ≤ o ∧ o < 0x1F8 then some (k.sget ((o - 0x100) / 8 + 1))
    else if 0x400 ≤ o ∧ o < 0x600 then some ((semGet (s.loc c) ((o - 0x400) / 8)).setWidth 64)
    else
      match o with
      | 0x00 => some (blkId 9 c)
      | 0x10 => some (coreStat s c)
      | 0x28 => some (word [(k.pc % 32768, 0)])
      | 0x48 => some (BitVec.ofNat 64 (fld (k.word (fld (s.rd (coreBase c + 0x40)) 0 15)) 0 64))
      | 0x50 => some (imemHiValue s c)
      | 0x200 => some ((setBit k.preg 0).setWidth 64)
      | _ => none
  else if o = 0x1008 then some (muGeom s c 0)
  else if o = 0x2008 then some (muGeom s c 1)
  else if 0x3000 ≤ o ∧ o < 0x4000 then numView s c o
  else if 0x4000 ≤ o ∧ o < 0x8000 then spView s c o
  else none

/-- What the register at a BAR0 address reads as, where it shows live state; none where it shows its stored value. -/
def viewOf (s : State) (a : Nat) : Option W64 :=
  if a < 0x400000 then globalView s a
  else if a < 0x460000 then (fin? 24 ((a - 0x400000) / 0x4000)).bind (fun l => linkView s l (a % 0x4000))
  else if 0x600000 ≤ a ∧ a < 0x640000 then (fin? 256 ((a - 0x600000) / 0x400)).bind (fun q => queueView s q (a % 0x400))
  else if 0x800000 ≤ a ∧ a < 0x818000 then (fin? 24 ((a - 0x800000) / 0x1000)).bind (fun g => ctrlView s g (a % 0x1000))
  else if 0x900000 ≤ a ∧ a < 0x910000 then (fin? 4 ((a - 0x900000) / 0x4000)).bind (fun p => cxlView s p (a % 0x4000))
  else if a = pwrBase then some (blkId 6 0)
  else if telBase ≤ a ∧ a < telBase + 0x100000 then telView s (a - telBase)
  else if secBase ≤ a ∧ a < secBase + 0x100000 then secView s (a - secBase)
  else if 0x1000000 ≤ a ∧ a < 0x1300000 then
    (fin? 48 ((a - 0x1000000) / 0x10000)).bind (fun c => coreView s c ((a - 0x1000000) % 0x10000))
  else none

end Sys2Proof.Machine
end

