-- ==== Sys2Proof/Machine/RegAccess.lean ====
section
/-!
DEFINITION. Reading and writing registers (R9 to R12, R332 to R336, R339 to R341, R419): who may reach what, and what a
write does to the registers that act.
-/

namespace Sys2Proof.Machine

/-! ### Reading (R9, R12) -/

/-- Whether every domain that a register lies in is on; others read zero and ignore writes (R395). -/
def regOn (s : State) (a : Nat) : Bool := (List.range 64).all (fun d => !inDomain d a || s.domainOn d)

/-- The core and the offset in its block of a core register. -/
def coreAt (a : Nat) : Option (CoreId × Nat) :=
  if 0x1000000 ≤ a then (fin? 48 ((a - 0x1000000) / 0x10000)).map (fun c => (c, (a - 0x1000000) % 0x10000)) else none

/-- The CXL port whose CXL_CFG_DATA lies at an address. -/
def cfgDataAt (a : Nat) : Option PortId :=
  if 0x900000 ≤ a ∧ a < 0x910000 ∧ a % 0x4000 = 0x108 then fin? 4 ((a - 0x900000) / 0x4000) else none

/-- The value of a register of a core that moves by itself or on a read: CYCLES, SP_CONFLICT_CYC, IMEM_DATA_HI. -/
def coreRead (s : State) (c : CoreId) (o : Nat) : Option (State × W64) :=
  match o with
  | 0x68 =>
    let (v, s) := readCycles s c
    some (s, v)
  | 0x4070 =>
    let (k, s) := s.fresh
    let s := s.count (coreBase c + 0x4070) 64 (Config.conflicts k)
    some (s, s.rd (coreBase c + 0x4070))
  | 0x50 => some (imemNext s c, imemHiValue s c)
  | _ => none

/-- The 64 bits of a register as read now, before anything that the read clears. -/
def regValue (s : State) (a : Nat) (x : RegExt) : State × W64 :=
  if a = lnkBase + 0x40 then
    let (t, s) := s.now
    (s, t)
  else if (cfgDataAt a).isSome then (s, x.cxl.setWidth 64)
  else
    match (coreAt a).bind (fun p => coreRead s p.1 p.2) with
    | some r => r
    | none => (s, (viewOf s a).getD (s.rd a))

/-- A read of a register: a 64-bit read clears its RC fields, a 32-bit read returns a half and clears nothing. -/
def regRead (s : State) (a : Nat) (w : Width) (x : RegExt) : State × W64 :=
  if !regOn s a then (s, 0#64)
  else
    let (s, v) := regValue s a x
    match w with
    | .low => (s, BitVec.ofNat 64 (fld v 0 32))
    | .high => (s, BitVec.ofNat 64 (fld v 32 32))
    | _ =>
      let rc := (regSpec a).rc
      (if rc = 0#64 then s else s.wr a (s.rd a &&& ~~~rc), v)

/-! ### Writing: the plain registers (R9, R11, R12) -/

/-- A write of a register that only stores: RW bits take the value, W1C bits clear where it has a 1. -/
def plainWrite (s : State) (a : Nat) (v : W64) : State :=
  let p := regSpec a
  s.wr a (((s.rd a &&& ~~~p.rw) ||| (v &&& p.rw)) &&& ~~~(v &&& p.w1c))

/-- What the half of a register that a 32-bit write leaves alone holds: the RW fields as they are. -/
def oldHalf (s : State) (a : Nat) : W64 :=
  let live := match coreAt a with
    | some (_, o) => o == 0x28 || o == 0x50 || (decide (0x100 ≤ o) && decide (o < 0x600)) || (decide (0x4100 ≤ o) && decide (o < 0x4300))
    | none => false
  if live then (viewOf s a).getD 0#64
  else if 0x600000 ≤ a ∧ a < 0x640000 ∧ 0x200 ≤ a % 0x400 ∧ a % 0x400 < 0x240 then
    match fin? 256 ((a - 0x600000) / 0x400) with
    | some q => BitVec.ofNat 64 (fld (s.queues[q]).win (64 * ((a % 0x400 - 0x200) / 8)) 64)
    | none => 0#64
  else s.rd a &&& (regSpec a).rw

/-- The 64 bits that a write of some width stands for. -/
def widen (s : State) (a : Nat) (w : Width) (v : W64) : W64 :=
  match w with
  | .low => setFld (oldHalf s a) 0 32 (fld v 0 32)
  | .high => setFld (oldHalf s a) 32 32 (fld v 0 32)
  | _ => v

/-- Whether a write of some width reaches the lower half, which holds the fields. -/
def hitsLow (w : Width) : Bool := w == .whole || w == .low

/-! ### Writing: the registers that act -/

/-- HO_CTRL: a bit from the wrong port is ignored; a heartbeat counts before the rest (R352, R355). -/
def hoCtrl (s : State) (b : Sender) (v : W64) : State :=
  match b with
  | .owner =>
    let s := if bit v 2 then heartbeat s else s
    if bit v 0 then release s else s
  | .standby => if bit v 1 then take_ s else s
  | _ => s

/-- A host window: HW_LIMIT takes no more than 4 GiB, and a write of the new owner ends the deadness of a handover (R353,
R355). -/
def windowWrite (s : State) (h o : Nat) (v : W64) : State :=
  let a := hwBase h + o
  let live := s.host.ho == .none && !s.host.released
  let s := if o < 0x18 ∧ live then { s with host := { s.host with hwDead := s.host.hwDead.filter (fun x => x != h) } } else s
  if o = 8 ∧ 0x100000000 < (v &&& bits 12 32).toNat then s else plainWrite s a v

/-- A register of a dispatch unit (R173). -/
def duWrite (s : State) (u : DuId) (o : Nat) (v : W64) (w : Width) : State :=
  if 0x8000 ≤ o then dtEntryWrite s u ((o - 0x8000) / 0x800) ((o - 0x8000) % 0x800 / 8) v
  else
    match o with
    | 0x10 => duOwner s u v
    | 0x18 => if hitsLow w then duTblEn s u v else s
    | 0x20 => duCancel s u v
    | 0x28 => duStatclr s u v
    | _ => plainWrite s (duBase u + o) v

/-- MEM_CFG: LINE_ECC takes a write of the firmware while no controller is READY, ILV one while EN of every port is 0
(R251, R261). -/
def memCfgWrite (s : State) (b : Sender) (v : W64) : State :=
  let old := s.rd memBase
  let ecc := b == .mgmt && (allFin 24).all (fun (g : CtrlId) => !(s.ctrls[g]).ready)
  let ilv := (allFin 4).all (fun (p : PortId) => !bit (s.rd (cxlBase p + 8)) 0)
  let new := if ecc then bit v 0 else bit old 0
  let s := if new = bit old 0 then s
    else { s with mem := { s.mem with checks := if new then none else some (s.gddr, []), plain := [] } }
  s.wr memBase (putBit (putBit old 0 new) 1 (if ilv then bit v 1 else bit old 1))

/-- A register of a job at the reduction and commit logic (R328). -/
def rclWrite (s : State) (j : JobId) (o : Nat) (v : W64) : State :=
  if o = 0 then jobCtrlWrite s j v
  else if o = 0x10 ∨ o = 0x18 ∨ o = 0x20 ∨ o = 0x38 then rclCfgWrite s j o v
  else plainWrite s (rclBase j + o) v

/-- A register of the Global block. -/
def globalWrite (s : State) (b : Sender) (a : Nat) (v : W64) (w : Width) (x : RegExt) : State :=
  if a = 0x1008 then hoCtrl s b v
  else if a = 0x1018 then (if bit v 0 ∧ b = .owner ∧ running s then modReset s 3 x.straps else s)
  else if 0x2000 ≤ a ∧ a < 0x2880 then
    match fin? 34 ((a - 0x2000) / 0x40) with
    | none => s
    | some r =>
      match a % 0x40 with
      | 0x00 => ringBaseWrite s r v
      | 0x08 => ringCfgWrite s r true v
      | _ => s
  else if 0x4000 ≤ a ∧ a < 0x4200 then windowWrite s ((a - 0x4000) / 0x20) (a % 0x20) v
  else if 0x8000 ≤ a ∧ a < 0x8800 ∧ a % 0x80 = 0x20 then
    match fin? 16 ((a - 0x8000) / 0x80) with
    | none => s
    | some j => jobPlace s j v
  else if 0x8000 ≤ a ∧ a < 0x8800 ∧ a % 0x80 = 0x30 then
    match fin? 16 ((a - 0x8000) / 0x80) with
    | none => s
    | some j => jobRelease s j v
  else if 0x20000 ≤ a ∧ a < 0x40000 then
    match fin? 2 ((a - 0x20000) / 0x10000) with
    | none => s
    | some u => duWrite s u (a % 0x10000) v w
  else if a = memBase then memCfgWrite s b v
  else if a = lnkBase + 0x10 then planeEnWrite s v
  else if 0x61000 ≤ a ∧ a < 0x62000 then
    match fin? 16 ((a - 0x61000) / 0x100) with
    | none => s
    | some j => rclWrite s j (a % 0x100) v
  else if 0x70000 ≤ a ∧ a < 0x78000 then
    match fin? 256 ((a - 0x70000) / 0x80) with
    | none => s
    | some e => if a % 0x80 < 0x60 then bktWrite s e (a % 0x80) v else s
  else if 0x100000 ≤ a ∧ a < 0x140000 then routeWrite s ((a - 0x100000) / 8) v
  else plainWrite s a v

/-- Whether the straps keep a sender from setting EN of a link: the firmware sets it on none while STRAP_UNSTABLE is 1 (R398). -/
def enBarred (s : State) (b : Sender) (l : LinkId) : Bool :=
  b == .mgmt && bit (s.rd (pwrBase + 0x90)) 4 && !linkEn s l

/-- LINK_EN (R272, R273, R398). -/
def execLinkEn (l : LinkId) (on : Bool) (s : State) (b : Sender := .owner) : Out :=
  .next (if !ownerOrMgmt b || !hears s b || (on && enBarred s b l) then s else s.ifOn (linkDomain l) (linkEnable s l on))

/-- A register of a link (R296, R398). -/
def linkWrite (s : State) (b : Sender) (l : LinkId) (o : Nat) (v : W64) (w : Width) : State :=
  let v := if o = 8 ∧ enBarred s b l then clrBit v 0 else v
  if o = 8 then (if hitsLow w then linkCtrlWrite s l v else s)
  else if (0x100 ≤ o ∧ o < 0x180) ∨ o = 0x200 then linkCfgWrite s l o v
  else plainWrite s (linkBase l + o) v

/-- BLK_CTRL of a queue: EN, FLUSH, CLR (R222). -/
def queueCtrl (s : State) (q : QId) (v : W64) : State :=
  let s := queueEn s q (bit v 0)
  let s := if bit v 1 then qFlush s q else s
  if bit v 2 then qClear s q else s

/-- A register of a queue (R222). -/
def queueWrite (s : State) (q : QId) (o : Nat) (v : W64) (w : Width) : State :=
  if o = 8 then queueCtrl s q v
  else if o = 0x28 ∨ o = 0x30 ∨ o = 0x38 then
    if qOn s q then qEv s q 0x4004 (some (qJob s q)) none 0 else plainWrite s (queueBase q + o) v
  else if o = 0x40 then qMarks (s.wr (queueBase q + 0x40) v) q
  else if 0x200 ≤ o ∧ o < 0x240 then
    s.setQueue q { s.queues[q] with win := setFld (s.queues[q]).win (64 * ((o - 0x200) / 8)) 64 v.toNat }
  else if o = 0x240 then (if hitsLow w then windowPush s q v else s)
  else plainWrite s (queueBase q + o) v

/-- A register of a controller: SR_REQ takes the firmware's writes only (R264). -/
def ctrlWrite (s : State) (b : Sender) (g : CtrlId) (o : Nat) (v : W64) : State :=
  let a := ctrlBase g + o
  if o ≠ 8 then plainWrite s a v
  else
    let old := s.rd a
    let s := s.wr a (putBit (putBit old 0 (bit v 0)) 1 (bit v 1))
    if b = .mgmt ∧ bit v 2 ≠ bit old 2 then selfRefresh s g .mgmt (bit v 2) else s

/-- A register of a CXL port: BIF takes a write while EN is 0 (R261, R265). -/
def cxlWrite (s : State) (p : PortId) (o : Nat) (v : W64) (w : Width) : State :=
  let a := cxlBase p + o
  if o = 8 then
    let s := if bit (s.rd a) 0 then s else s.wr a (putBit (s.rd a) 1 (bit v 1))
    cxlEnable s p (bit v 0)
  else if o = 0x108 then (if hitsLow w then cxlConfig s p (some (v.setWidth 32)) 0#32 else s)
  else plainWrite s a v

/-- SEC_ACCESS_DENIED, with status NOT_PERMITTED (R419). -/
def denied (s : State) : State := secEv s 0x9004 6

/-- A register of the power block: the watchdog is the firmware's own (R421). -/
def powerWrite (s : State) (b : Sender) (o : Nat) (v : W64) (w : Width) : State :=
  let host := b == .owner
  let ds := match w with
    | .low => List.range 32
    | .high => (List.range 32).map (· + 32)
    | _ => List.range 64
  match o with
  | 0x28 => if hitsLow w then govCfgWrite s v else s
  | 0x38 => if hitsLow w then limitsWrite s v host else s
  | 0x40 => if hitsLow w then throttleWrite s v host else s
  | 0x48 => if hitsLow w then currentWrite s v else s
  | 0x68 => pdReqWrite s v ds
  | 0x80 => if hitsLow w then brumGo s (if host then v else clrBit v 0) else s
  | 0xA0 => if b = .mgmt then (if hitsLow w then wdtCfgWrite s v else s) else denied s
  | 0xA8 => if b = .mgmt then wdtKick s else denied s
  | _ => plainWrite s (pwrBase + o) v

/-- A register of the telemetry block: fields of TEL_JOB_CFG out of range keep their value (R393). -/
def telWrite (s : State) (o : Nat) (v : W64) : State :=
  let a := telBase + o
  if o = 0x28 then telExportWrite s v
  else if 0x100 ≤ o ∧ o < 0x500 ∧ o % 0x40 = 0 then
    let old := s.rd a
    let v := if 256 < fld v 2 9 then setFld v 2 9 (fld old 2 9) else v
    plainWrite s a (if 10 < fld v 11 4 then setFld v 11 4 (fld old 11 4) else v)
  else plainWrite s a v

/-- A register of the security block (R422). -/
def secWrite (s : State) (o : Nat) (v : W64) : State :=
  if o = 0x30 then secCmdWrite s v else plainWrite s (secBase + o) v

/-- A register of a core that takes a write only while the core is HALTED: CORE_PC, SREG, PREG, SEM, SLOT_STATE,
SP_GECKO_OWNER (R59, R60, R247). -/
def haltedWrite (s : State) (c : CoreId) (o : Nat) (v : W64) : State :=
  let k := s.core c
  if k.run ≠ .halted then s
  else if o = 0x28 then s.setCore c { k with pc := fld v 0 15 }
  else if 0x100 ≤ o ∧ o < 0x1F8 then s.setCore c (k.sset ((o - 0x100) / 8 + 1) v)
  else if o = 0x200 then s.setCore c { k with preg := setBit (BitVec.ofNat 8 (fld v 0 8)) 0 }
  else if 0x400 ≤ o ∧ o < 0x600 then semSet s c ((o - 0x400) / 8) (BitVec.ofNat 16 (fld v 0 16))
  else if 0x4100 ≤ o ∧ o < 0x4300 then
    let l := s.loc c
    s.setLoc c { l with guards := setFld l.guards (64 * ((o - 0x4100) / 8)) 64 v.toNat }
  else plainWrite s (coreBase c + o) v

/-- Whether a core register takes writes only while the core is HALTED. -/
def haltedOnly (o : Nat) : Bool :=
  o == 0x28 || (decide (0x100 ≤ o) && decide (o < 0x1F8)) || o == 0x200 || (decide (0x400 ≤ o) && decide (o < 0x600)) ||
  (decide (0x4020 ≤ o) && decide (o < 0x4040)) || (decide (0x4100 ≤ o) && decide (o < 0x4300))

/-- WIN_LIMIT of a scratchpad window, at most 0x100_0000: a larger value is ignored, as HW_LIMIT's is (R247, R355).
DEDUCED (log entry 36): R247 gives the bound and not what a larger write does. -/
def winLimitWrite (s : State) (a : Nat) (v : W64) : State :=
  if 0x1000000 < (v &&& 0x1FFFFC0#64).toNat then s else plainWrite s a v

/-- A register of a core (R59, R60, R88, R118, R234, R235, R247). -/
def coreWrite (s : State) (b : Sender) (c : CoreId) (o : Nat) (v : W64) : State :=
  if haltedOnly o then haltedWrite s c o v
  else if 0x4400 ≤ o ∧ o < 0x4600 ∧ o % 0x20 = 8 then winLimitWrite s (coreBase c + o) v
  else
    match o with
    | 0x08 => coreCtlWrite s c v
    | 0x48 => imemLo s c v
    | 0x50 => imemHi s c v
    | 0x1010 => if b = .mgmt then muRepair s c 0 v else muSpare s c 0 v
    | 0x2010 => if b = .mgmt then muRepair s c 1 v else muSpare s c 1 v
    | 0x3018 => vqClr s c v
    | 0x4040 => spClear s c v
    | 0x4048 => bankPwr s c 0 v
    | 0x4050 => bankPwr s c 1 v
    | _ => plainWrite s (coreBase c + o) v

/-- A write of 64 effective bits to the register at a BAR0 address by the owner PF or the management firmware. -/
def regWrite (s : State) (b : Sender) (a : Nat) (v : W64) (w : Width) (x : RegExt) : State :=
  if a < 0x400000 then globalWrite s b a v w x
  else if a < 0x460000 then
    match fin? 24 ((a - 0x400000) / 0x4000) with
    | none => s
    | some l => linkWrite s b l (a % 0x4000) v w
  else if 0x600000 ≤ a ∧ a < 0x640000 then
    match fin? 256 ((a - 0x600000) / 0x400) with
    | none => s
    | some q => queueWrite s q (a % 0x400) v w
  else if 0x800000 ≤ a ∧ a < 0x818000 then
    match fin? 24 ((a - 0x800000) / 0x1000) with
    | none => s
    | some g => ctrlWrite s b g (a % 0x1000) v
  else if 0x900000 ≤ a ∧ a < 0x910000 then
    match fin? 4 ((a - 0x900000) / 0x4000) with
    | none => s
    | some p => cxlWrite s p (a % 0x4000) v w
  else if pwrBase ≤ a ∧ a < pwrBase + 0x100000 then powerWrite s b (a - pwrBase) v w
  else if telBase ≤ a ∧ a < telBase + 0x100000 then telWrite s (a - telBase) v
  else if secBase ≤ a ∧ a < secBase + 0x100000 then secWrite s (a - secBase) v
  else
    match coreAt a with
    | none => s
    | some (c, o) => coreWrite s b c o v

/-- A write of some width (R12); a register whose domain is off ignores it. -/
def regStore (s : State) (b : Sender) (a : Nat) (w : Width) (v : W64) (x : RegExt) : State :=
  if regOn s a then regWrite s b a (widen s a w v) w x else s

/-! ### BAR2 (R334, R340, R351) -/

/-- The ring of a VF's page 0 or 1: the submission or the completion ring of its job (R334, R357). -/
def vfRing (s : State) (n : Fin 16) (page : Nat) : Option RingId :=
  (vfJob s n).bind (fun j => fin? 34 (2 + 2 * j + page))

/-- The ring whose doorbell lies at an offset of a sender's BAR2. -/
def doorbellAt (s : State) (b : Sender) (o : Nat) : Option RingId :=
  if o % 0x1000 ≠ 0 then none
  else
    match b with
    | .vf n => if o < 0x2000 then vfRing s n (o / 0x1000) else none
    | _ => fin? 34 (o / 0x1000)

/-- What lies in the MSI-X table or the PBA of a function: the vector and whether it is the upper half of its entry. -/
inductive MsixPlace where
  | entry (vec : Nat) (upper : Bool)
  | pending (i : Nat)
deriving DecidableEq, Repr

/-- The place of an offset in the MSI-X structures of a sender's BAR2. -/
def msixAt (b : Sender) (o : Nat) : Option MsixPlace :=
  let place (table pba n : Nat) : Option MsixPlace :=
    if table ≤ o ∧ o < table + 16 * n then some (.entry ((o - table) / 16) (o % 16 == 8))
    else if pba ≤ o ∧ o < pba + n / 8 then some (.pending ((o - pba) / 8))
    else none
  match b with
  | .vf _ => place 0x2000 0x3000 64
  | _ => place 0x40000 0x60000 2048

/-- What a place of the MSI-X structures of function `fn` reads as. -/
def msixRead (s : State) (fn : Nat) (p : MsixPlace) : W64 :=
  let h := s.host
  let key (vec : Nat) : Nat := s.fnNo fn * 4096 + vec
  match p with
  | .entry vec false => (tget h.vecAddr (key vec)).getD 0#64
  | .entry vec true => word [(((tget h.vecData (key vec)).getD 0#32).toNat, 0), (flag (!h.vecOpen.contains (key vec)), 32)]
  | .pending i => word ((List.range 64).map (fun k => (flag (h.vecPending.contains (key (64 * i + k))), k)))

/-- A write to a place of the MSI-X structures of function `fn`; the PBA takes none. -/
def msixWrite (s : State) (fn : Nat) (p : MsixPlace) (w : Width) (v : W64) : State :=
  let h := s.host
  let key (vec : Nat) : Nat := s.fnNo fn * 4096 + vec
  let old := msixRead s fn p
  let v := match w with
    | .low => setFld old 0 32 (fld v 0 32)
    | .high => setFld old 32 32 (fld v 0 32)
    | _ => v
  match p with
  | .entry vec false => { s with host := { h with vecAddr := tset h.vecAddr (key vec) v } }
  | .entry vec true =>
    let s := { s with host := { h with vecData := tset h.vecData (key vec) (BitVec.ofNat 32 (fld v 0 32)) } }
    if bit v 32 = bit old 32 then s else msixMask s fn vec (bit v 32)
  | .pending _ => s

/-- A read of BAR2. -/
def bar2Read (s : State) (b : Sender) (o : Nat) (w : Width) : W64 :=
  let v := match doorbellAt s b o with
    | some r => if sqRing r then ((s.host.rings[r]).cons.setWidth 64) else ((s.host.rings[r]).prod.setWidth 64)
    | none =>
      match msixAt b o, fnOf b with
      | some p, some fn => msixRead s fn p
      | _, _ => 0#64
  match w with
  | .low => BitVec.ofNat 64 (fld v 0 32)
  | .high => BitVec.ofNat 64 (fld v 32 32)
  | _ => v

/-- A write of BAR2: a doorbell takes the new index from its lower half. -/
def bar2Write (s : State) (b : Sender) (o : Nat) (w : Width) (v : W64) : State :=
  match doorbellAt s b o with
  | some r => if hitsLow w then doorbell s r b v (if sqRing r then prodWrite else consWrite) else s
  | none =>
    match msixAt b o, fnOf b with
    | some p, some fn => msixWrite s fn p w v
    | _, _ => s

/-! ### The ports (R333, R336, R341, R400, R401, R412, R419) -/

/-- Whether an address lies in the security block. -/
def inSec (a : Nat) : Bool := decide (secBase ≤ a ∧ a < secBase + 0x100000)

/-- Whether a port answers an access to BAR0 or BAR2; `some` is what it answers otherwise. In recovery the security block
answers, and while PD62 is in reset it reads zero. -/
def portGate (s : State) (b : Sender) (sec : Bool) : Option HostOut :=
  if !sec then barGate s b
  else if !fnUp s b ∨ (s.power.boot ≠ .up ∧ !s.power.recovery) then some .ur
  else if s.power.rebooting ∨ !bit (pdState s) 62 then some (.reg 0#64)
  else none

/-- The register of a VF's BAR0 page: the ring of its job and the offset in its registers, where the ring's FUNC is the
VF's (R341). -/
def vfReg (s : State) (n : Fin 16) (o : Nat) : Option (RingId × Nat) :=
  if 0x80 ≤ o then none
  else
    match vfRing s n (o / 0x40) with
    | some r => if s.ringFn r = n.val + 1 then some (r, o % 0x40) else none
    | none => none

/-- A read of BAR0 or BAR2 by a function of a port: what it returns, before anything clears. -/
def portRead (s : State) (b : Sender) (bar2 : Bool) (o : Nat) (w : Width) (x : RegExt) : State :=
  let sec := !bar2 && inSec o && (b == .owner || b == .standby)
  match portGate s b sec with
  | some out => answer s out
  | none =>
    let ret (r : State × W64) : State := answer r.1 (.reg r.2)
    match b with
    | .standby =>
      if sec then ret (denied s, 0#64)
      else if !bar2 ∧ o = 0x1000 then ret (regRead s o w x)
      else ret (s, 0#64)
    | .vf n =>
      if bar2 then ret (s, bar2Read s b o w)
      else
        match vfReg s n o with
        | some (r, i) => ret (regRead s (ringBase r + i) w x)
        | none => ret (s, 0#64)
    | _ => if bar2 then ret (s, bar2Read s b o w) else ret (regRead s o w x)

/-- A write of BAR0 or BAR2 by a function of a port. -/
def portWrite (s : State) (b : Sender) (bar2 : Bool) (o : Nat) (w : Width) (v : W64) (x : RegExt) : State :=
  let sec := !bar2 && inSec o && (b == .owner || b == .standby)
  match portGate s b sec with
  | some _ => s
  | none =>
    match b with
    | .standby =>
      if sec || (!bar2 && (o == pwrBase + 0xA0 || o == pwrBase + 0xA8)) then denied s
      else if !bar2 ∧ o = 0x1008 ∧ hitsLow w then hoCtrl s b v
      else s
    | .vf n =>
      if bar2 then bar2Write s b o w v
      else
        match vfReg s n o with
        | some (r, 0x00) => ringBaseWrite s r (widen s (ringBase r) w v)
        | some (r, 0x08) => ringCfgWrite s r false (widen s (ringBase r + 8) w v)
        | _ => s
    | _ => if bar2 then bar2Write s b o w v else regStore s b o w v x

/-- Whether an access has a width and an alignment that BAR0 accepts (R12, R336). -/
def goodAccess (o : Nat) (w : Width) : Bool := w != .other && o % 8 == 0

/-- Whether the TAP reaches a register: not in the security block, not while OWNER_MODE is 1, and not in recovery, where no
access of the owner PF does (R412, R449). -/
def tapOk (s : State) (o : Nat) : Bool := !inSec o && !s.sec.ownerMode && !s.power.recovery

/-- A register write by any sender: of a port's function, of the management firmware, or through the TAP, which acts as the
owner PF. -/
def anyWrite (s : State) (b : Sender) (bar2 : Bool) (o : Nat) (w : Width) (v : W64) (x : RegExt) : State :=
  if !goodAccess o w then s
  else
    match b with
    | .mgmt => if bar2 then s else regStore s b o w v x
    | .tap => if !bar2 && tapOk s o then regStore s .owner o w v x else s
    | _ => portWrite s b bar2 o w v x

/-- A register read by any sender; one of a port's function is answered. -/
def anyRead (s : State) (b : Sender) (bar2 : Bool) (o : Nat) (w : Width) (x : RegExt) : State :=
  match b with
  | .mgmt => if goodAccess o w && !bar2 then (regRead s o w x).1 else s
  | .tap => if goodAccess o w && !bar2 && tapOk s o then (regRead s o w x).1 else s
  | _ => if goodAccess o w then portRead s b bar2 o w x else answer s .ur

/-- REGISTER_WRITE (R9, R12): the register at byte offset `o` of BAR0, or of BAR2 for the doorbell pages and MSI-X, takes
a write of width `w`, whose data are the low bits of `v`; one that its port drops stores nothing. -/
def execRegisterWrite (b : Sender) (bar2 : Bool) (o : Nat) (w : Width) (v : W64) (x : RegExt) (s : State) (e : Tlp := .good) :
    Out :=
  .next (if tlpDropped s b e then dropWrite s b o e else anyWrite s b bar2 o w v x)
/-- RC_REGISTER_READ (R9, R12): a read of a register, which clears its RC fields where it is 64 bits wide. -/
def execRcRegisterRead (b : Sender) (bar2 : Bool) (o : Nat) (w : Width) (x : RegExt) (s : State) : Out :=
  .next (anyRead s b bar2 o w x)

end Sys2Proof.Machine
end

