-- ==== Sys2Proof/Machine/Tap.lean ====
section
/-!
DEFINITION. The test access port (R449). The order of the boundary-scan cells is the order of the pin table of R441
(DESIGN CHOICE, log entry 68).
-/

namespace Sys2Proof.Machine

/-- QFC_OUT: a pin is the OR of ABOVE of the queues mapped to it (R216, R442). -/
def qfcOut (s : State) : Nat :=
  (allFin 256).foldl (fun n (q : QId) =>
    let c := s.rd (queueBase q + 0x48)
    let p := fld c 1 3
    if s.domainOn (queueDomain q) && qOn s q && bit c 0 && (s.queues[q]).above && !n.testBit p then n + 2 ^ p else n) 0

/-- How an output drives its pin: low, high, or not at all. -/
inductive Drive where
  | low | high | z
deriving DecidableEq, Repr

/-- A push-pull output at a level (R442). -/
def pushPull (b : Bool) : Drive := if b then .high else .low
/-- An open-drain output: it pulls low or releases the line (R442). -/
def openDrain (low : Bool) : Drive := if low then .low else .z

/-- What the core logic drives on a pin of the chain (R442, R444). The pins in order are QFC_OUT 0 to 7, QFC_IN 8 to 15, BELAY_N 16,
LOC_POS and LOC_SHELF 17 to 22, WAKE_N 23, THERMTRIP_N 24, SMB_CLK and SMB_DAT 25 and 26, COOLANT_ALERT_N 27, LOC_RACK 28 to 36
and SHELF_ALERT_N 37; inputs drive nothing. An SMBus message is one command, between which its lines are released. -/
def coreDrive (s : State) (i : Nat) : Drive :=
  if i < 8 then pushPull ((qfcOut s).testBit i)
  else if i = 16 then openDrain s.pins.belayLow
  else if i = 24 then openDrain s.pins.thermtrip
  else .z

/-- What a boundary-scan cell drives on its pin (R442). -/
def cellDrive (s : State) (i : Nat) : Drive :=
  let b := s.tap.cells.getLsbD i
  if i < 8 then pushPull b
  else if i = 16 ∨ i = 24 ∨ i = 25 ∨ i = 26 then openDrain (!b)
  else .z

/-- What the module drives on a pin of the chain: EXTEST and CLAMP take the outputs from the core logic, and HIGHZ releases every
one of them, while PD62, which holds the TAP, is on (R449). -/
def padDrive (s : State) (i : Nat) : Drive :=
  if !bit (pdState s) 62 then coreDrive s i
  else if s.tap.highz then .z
  else if s.tap.driven then cellDrive s i
  else coreDrive s i

/-- The level of a pin of the chain; `outer` holds what stands on the lines that the module does not drive. An open-drain line that
another side holds low is low (R442, R444). QFC_IN and the two alerts are as their last events left them. -/
def padLevel (s : State) (outer : BitVec 64) (i : Nat) : Bool :=
  match padDrive s i with
  | .low => false
  | .high => true
  | .z =>
    if 8 ≤ i ∧ i < 16 then s.pins.qfcIn.getLsbD (i - 8)
    else if i = 27 then !s.pins.coolantAlert
    else if i = 37 then !s.pins.shelfAlert
    else outer.getLsbD i

/-- The levels of the sideband and PWR signal pins, as the chain captures them. -/
def pinLevels (s : State) (outer : BitVec 64) : BitVec 64 :=
  (List.range 38).foldl (fun v i => putBit v i (padLevel s outer i)) 0#64

/-- TDO: high impedance outside Shift-IR and Shift-DR, where it carries a bit, and while PD62 is off (R442, R449). `shift` is the
bit shifted out in those states; a command of the TAP ends outside them. -/
def tdoDrive (s : State) (shift : Option Bool) : Drive :=
  match shift with
  | some b => if bit (pdState s) 62 then pushPull b else .z
  | none => .z

/-- Whether the lasers of a link emit: in the states 1 to 4 of R272 alone, with the domain of its engine on (R438). -/
def laserOn (s : State) (l : LinkId) : Bool :=
  s.domainOn (linkDomain l) && (match (s.links[l]).st with
    | .optics | .align | .exchange | .active => true
    | .down | .failed => false)

/-- IDCODE of stepping A1. -/
def idcode : BitVec 32 := BitVec.ofNat 32 (1 + 2 * Config.jedecCode.toNat + 0x4850 * 2 ^ 12)

/-- An instruction is loaded, where PD62 is on: what Capture-DR takes with it, and whether the cells drive the pins or
leave them in high impedance. -/
def tapLoad (s : State) (ir : Byte) (capture : BitVec 64) (driven highz : Bool) : State :=
  if !bit (pdState s) 62 then s
  else { s with tap := { s.tap with ir := ir, capture := capture, driven := driven, highz := highz } }

/-- Values are shifted into the boundary-scan cells and updated. -/
def tapShift (s : State) (v : BitVec 64) : State :=
  if bit (pdState s) 62 then { s with tap := { s.tap with cells := v } } else s

/-- Update-DR of DBG: one 64-bit access to a register of BAR0; the register then shows DONE and, for a read, DATA. -/
def dbgRun (s : State) (v : BitVec 96) (x : RegExt) : State :=
  let s := tapLoad s 0x10#8 s.tap.capture false false
  if !bit (pdState s) 62 then s
  else
    let o := fld v 64 25
    let data : W64 := BitVec.ofNat 64 (fld v 0 64)
    if bit v 89 then
      let s := anyWrite s .tap false o .whole data x
      { s with tap := { s.tap with dbg := setBit v 95 } }
    else if goodAccess o .whole && tapOk s o then
      let (s, r) := regRead s o .whole x
      { s with tap := { s.tap with dbg := setBit (setFld v 0 64 r.toNat) 95 } }
    else { s with tap := { s.tap with dbg := setBit (setFld v 0 64 0) 95 } }

/-- TAP_RESET: Test-Logic-Reset, with IDCODE selected. -/
def execTapReset (s : State) : Out := .next (tapLoad s 1#8 (idcode.setWidth 64) false false)
/-- EXTEST: the preloaded cells drive the outputs, the pins are captured so, and then the cells drive `v`; `outer` holds the levels
that come from outside. -/
def execExtest (v : BitVec 64) (s : State) (outer : BitVec 64 := 0x3FFFFFFFFF#64) : Out :=
  .next (tapShift (tapLoad s 0#8 (pinLevels (tapLoad s 0#8 s.tap.capture true false) outer) true false) v)
/-- IDCODE. -/
def execIdcode (s : State) : Out := .next (tapLoad s 1#8 (idcode.setWidth 64) false false)
/-- SAMPLE_PRELOAD: the pins are captured undisturbed, and `v` is preloaded. -/
def execSamplePreload (v : BitVec 64) (s : State) (outer : BitVec 64 := 0x3FFFFFFFFF#64) : Out :=
  .next (tapShift (tapLoad s 2#8 (pinLevels s outer) false false) v)
/-- CLAMP: the preloaded values hold the outputs, with BYPASS selected. -/
def execClamp (s : State) : Out := .next (tapLoad s 4#8 0#64 true false)
/-- HIGHZ. -/
def execHighz (s : State) : Out := .next (tapLoad s 5#8 0#64 false true)
/-- DBG: `v` is the 96-bit register as updated. -/
def execDbg (v : BitVec 96) (x : RegExt) (s : State) : Out := .next (dbgRun s v x)
/-- BYPASS: any instruction code that the table does not list. -/
def execBypass (ir : Byte) (s : State) : Out :=
  .next (if [0#8, 1#8, 2#8, 4#8, 5#8, 0x10#8].contains ir then s else tapLoad s ir 0#64 false false)

end Sys2Proof.Machine
end

