-- ==== Sys2Proof/Machine/Dispatch.lean ====
section
/-!
DEFINITION. What a command does: one arm for each constructor of Instr, a direct call of its meaning.
-/

namespace Sys2Proof.Machine

def exec (i : Instr) (s : State) : Host.Outcome State Fault Refusal :=
  match i with
  | .registerWrite b bar2 o w v x e => Sys2Proof.Machine.execRegisterWrite b bar2 o w v x s e
  | .rcRegisterRead b bar2 o w x => Sys2Proof.Machine.execRcRegisterRead b bar2 o w x s
  | .nop c us => Sys2Proof.Machine.execNop c us s
  | .halt c us => Sys2Proof.Machine.execHalt c us s
  | .yield c us => Sys2Proof.Machine.execYield c us s
  | .jmp c us => Sys2Proof.Machine.execJmp c us s
  | .call c us => Sys2Proof.Machine.execCall c us s
  | .ret c us => Sys2Proof.Machine.execRet c us s
  | .loop c us => Sys2Proof.Machine.execLoop c us s
  | .add c us => Sys2Proof.Machine.execAdd c us s
  | .sub c us => Sys2Proof.Machine.execSub c us s
  | .and c us => Sys2Proof.Machine.execAnd c us s
  | .or c us => Sys2Proof.Machine.execOr c us s
  | .xor c us => Sys2Proof.Machine.execXor c us s
  | .shl c us => Sys2Proof.Machine.execShl c us s
  | .shr c us => Sys2Proof.Machine.execShr c us s
  | .sra c us => Sys2Proof.Machine.execSra c us s
  | .mul c us => Sys2Proof.Machine.execMul c us s
  | .cmp c us => Sys2Proof.Machine.execCmp c us s
  | .li c us => Sys2Proof.Machine.execLi c us s
  | .ld c us => Sys2Proof.Machine.execLd c us s
  | .st c us => Sys2Proof.Machine.execSt c us s
  | .getsys c us => Sys2Proof.Machine.execGetsys c us s
  | .vld c now us => Sys2Proof.Machine.execVld c now us s
  | .vst c now us => Sys2Proof.Machine.execVst c now us s
  | .vadd c now us => Sys2Proof.Machine.execVadd c now us s
  | .vsub c now us => Sys2Proof.Machine.execVsub c now us s
  | .vmul c now us => Sys2Proof.Machine.execVmul c now us s
  | .vfma c now us => Sys2Proof.Machine.execVfma c now us s
  | .vmax c now us => Sys2Proof.Machine.execVmax c now us s
  | .vmin c now us => Sys2Proof.Machine.execVmin c now us s
  | .vcvt c now us => Sys2Proof.Machine.execVcvt c now us s
  | .vquant c now us => Sys2Proof.Machine.execVquant c now us s
  | .vdeq c now us => Sys2Proof.Machine.execVdeq c now us s
  | .vhad c now us => Sys2Proof.Machine.execVhad c now us s
  | .vred c now us => Sys2Proof.Machine.execVred c now us s
  | .vcbld c now us => Sys2Proof.Machine.execVcbld c now us s
  | .vhist c now us => Sys2Proof.Machine.execVhist c now us s
  | .vste c now us => Sys2Proof.Machine.execVste c now us s
  | .vfix c now us => Sys2Proof.Machine.execVfix c now us s
  | .vaddx c now us => Sys2Proof.Machine.execVaddx c now us s
  | .vsel c now us => Sys2Proof.Machine.execVsel c now us s
  | .vbcast c now us => Sys2Proof.Machine.execVbcast c now us s
  | .vmovs c now us => Sys2Proof.Machine.execVmovs c now us s
  | .xferCopy c us => Sys2Proof.Machine.execXferCopy c us s
  | .pass c us => Sys2Proof.Machine.execPass c us s
  | .qopPush c now us => Sys2Proof.Machine.execQopPush c now us s
  | .qopPop c now us => Sys2Proof.Machine.execQopPop c now us s
  | .qopDrop c now us => Sys2Proof.Machine.execQopDrop c now us s
  | .qopStat c now us => Sys2Proof.Machine.execQopStat c now us s
  | .qopCommit c now us => Sys2Proof.Machine.execQopCommit c now us s
  | .qopCancel c now us => Sys2Proof.Machine.execQopCancel c now us s
  | .dispRoute c now us => Sys2Proof.Machine.execDispRoute c now us s
  | .dispCommit c now us => Sys2Proof.Machine.execDispCommit c now us s
  | .dispCancel c now us => Sys2Proof.Machine.execDispCancel c now us s
  | .dispStat c now us => Sys2Proof.Machine.execDispStat c now us s
  | .signal c us => Sys2Proof.Machine.execSignal c us s
  | .wait c us => Sys2Proof.Machine.execWait c us s
  | .set c us => Sys2Proof.Machine.execSet c us s
  | .fence c us => Sys2Proof.Machine.execFence c us s
  | .slotFill c now us => Sys2Proof.Machine.execSlotFill c now us s
  | .slotDrain c now us => Sys2Proof.Machine.execSlotDrain c now us s
  | .slotWaitf c us => Sys2Proof.Machine.execSlotWaitf c us s
  | .slotWaite c us => Sys2Proof.Machine.execSlotWaite c us s
  | .unitInstrStart c u us => Sys2Proof.Machine.execUnitInstrStart c u us s
  | .unitInstrComplete c u us => Sys2Proof.Machine.execUnitInstrComplete c u us s
  | .haltDrainComplete c => Sys2Proof.Machine.execHaltDrainComplete c s
  | .semaphoreSignalApply c => Sys2Proof.Machine.execSemaphoreSignalApply c s
  | .heldSignalRetry h => Sys2Proof.Machine.execHeldSignalRetry h s
  | .semTimeoutExpiry c => Sys2Proof.Machine.execSemTimeoutExpiry c s
  | .slotTimeoutExpiry c w => Sys2Proof.Machine.execSlotTimeoutExpiry c w s
  | .coreStart c => Sys2Proof.Machine.execCoreStart c s
  | .coreStop c => Sys2Proof.Machine.execCoreStop c s
  | .coreStep c => Sys2Proof.Machine.execCoreStep c s
  | .yieldReq c => Sys2Proof.Machine.execYieldReq c s
  | .coreSaveComplete c us => Sys2Proof.Machine.execCoreSaveComplete c us s
  | .coreRestoreComplete c us => Sys2Proof.Machine.execCoreRestoreComplete c us s
  | .imemDataLoWrite c v => Sys2Proof.Machine.execImemDataLoWrite c v s
  | .imemDataHiWrite c v => Sys2Proof.Machine.execImemDataHiWrite c v s
  | .imemDataHiRead c => Sys2Proof.Machine.execImemDataHiRead c s
  | .passStart c u us => Sys2Proof.Machine.execPassStart c u us s
  | .passComplete c u f us => Sys2Proof.Machine.execPassComplete c u f us s
  | .muSpareWrite c u v => Sys2Proof.Machine.execMuSpareWrite c u v s
  | .vqClr c v => Sys2Proof.Machine.execVqClr c v s
  | .dispatchRequestStart u us => Sys2Proof.Machine.execDispatchRequestStart u us s
  | .dispatchRequestEffect u us => Sys2Proof.Machine.execDispatchRequestEffect u us s
  | .duCancel u v => Sys2Proof.Machine.execDuCancel u v s
  | .duStatclr u v => Sys2Proof.Machine.execDuStatclr u v s
  | .duTblOwnerWrite u v => Sys2Proof.Machine.execDuTblOwnerWrite u v s
  | .duTblEnWrite u v => Sys2Proof.Machine.execDuTblEnWrite u v s
  | .dtEntryWrite u t e v => Sys2Proof.Machine.execDtEntryWrite u t e v s
  | .queueCellAccept q o us => Sys2Proof.Machine.execQueueCellAccept q o us s
  | .queuePoolRefill q us => Sys2Proof.Machine.execQueuePoolRefill q us s
  | .queueMarkerApply q o us => Sys2Proof.Machine.execQueueMarkerApply q o us s
  | .queueForwardSend q us => Sys2Proof.Machine.execQueueForwardSend q us s
  | .qfcInRise pin seen => Sys2Proof.Machine.execQfcInRise pin seen s
  | .queueEn q on => Sys2Proof.Machine.execQueueEn q on s
  | .queueFlush q => Sys2Proof.Machine.execQueueFlush q s
  | .queueClr q => Sys2Proof.Machine.execQueueClr q s
  | .qWmWrite q v => Sys2Proof.Machine.execQWmWrite q v s
  | .queueWindowPush q v => Sys2Proof.Machine.execQueueWindowPush q v s
  | .spLaneRewrite c us => Sys2Proof.Machine.execSpLaneRewrite c us s
  | .spClear c v => Sys2Proof.Machine.execSpClear c v s
  | .spClearComplete c us => Sys2Proof.Machine.execSpClearComplete c us s
  | .spBankPwr c w v => Sys2Proof.Machine.execSpBankPwr c w v s
  | .bankTransitionComplete c b => Sys2Proof.Machine.execBankTransitionComplete c b s
  | .dmaTransferStart c us hs => Sys2Proof.Machine.execDmaTransferStart c us hs s
  | .dmaTransferComplete c ch us hs => Sys2Proof.Machine.execDmaTransferComplete c ch us hs s
  | .windowAccessRetry w us err => Sys2Proof.Machine.execWindowAccessRetry w us err s
  | .memRequest g a job addr len data us => Sys2Proof.Machine.execMemRequest g a job addr len data us s
  | .memRequestComplete g crc odecc us n => Sys2Proof.Machine.execMemRequestComplete g crc odecc us s n
  | .gddr7Retrain g ok => Sys2Proof.Machine.execGddr7Retrain g ok s
  | .scrubRead g us => Sys2Proof.Machine.execScrubRead g us s
  | .gddr7SelfRefresh g by_ on => Sys2Proof.Machine.execGddr7SelfRefresh g by_ on s
  | .cxlPortEn p en => Sys2Proof.Machine.execCxlPortEn p en s
  | .cxlEnumComplete p a b => Sys2Proof.Machine.execCxlEnumComplete p a b s
  | .cxlResponse p slot poison => Sys2Proof.Machine.execCxlResponse p slot poison s
  | .cxlTimeoutExpiry p slot => Sys2Proof.Machine.execCxlTimeoutExpiry p slot s
  | .cxlLinkLoss p devB => Sys2Proof.Machine.execCxlLinkLoss p devB s
  | .cxlCfgDataAccess p write reply => Sys2Proof.Machine.execCxlCfgDataAccess p write reply s
  | .linkEn l on b => Sys2Proof.Machine.execLinkEn l on s b
  | .laneLock l lanes => Sys2Proof.Machine.execLaneLock l s lanes
  | .laneAlign l => Sys2Proof.Machine.execLaneAlign l s
  | .paramFlit l f corr uncorr accepts more => Sys2Proof.Machine.execParamFlit l f corr uncorr accepts s more
  | .linkStateTimeout l => Sys2Proof.Machine.execLinkStateTimeout l s
  | .linkFailedRetry l => Sys2Proof.Machine.execLinkFailedRetry l s
  | .laneLockLoss l lane => Sys2Proof.Machine.execLaneLockLoss l lane s
  | .dataFlit l f corr uncorr more => Sys2Proof.Machine.execDataFlit l f corr uncorr s more
  | .idleFlit l f corr uncorr more => Sys2Proof.Machine.execIdleFlit l f corr uncorr s more
  | .nakFlit l f corr uncorr more => Sys2Proof.Machine.execNakFlit l f corr uncorr s more
  | .ackTimeoutExpiry l => Sys2Proof.Machine.execAckTimeoutExpiry l s
  | .linkPacketStart l => Sys2Proof.Machine.execLinkPacketStart l s
  | .qcells l => Sys2Proof.Machine.execQcells l s
  | .write l us err => Sys2Proof.Machine.execWrite l us err s
  | .read l us err => Sys2Proof.Machine.execRead l us err s
  | .readRsp l => Sys2Proof.Machine.execReadRsp l s
  | .writeAck l => Sys2Proof.Machine.execWriteAck l s
  | .e2eTimeoutExpiry tag => Sys2Proof.Machine.execE2eTimeoutExpiry tag s
  | .coll l us => Sys2Proof.Machine.execColl l us s
  | .collAck l => Sys2Proof.Machine.execCollAck l s
  | .collNakTimerExpiry src job xid => Sys2Proof.Machine.execCollNakTimerExpiry src job xid s
  | .collResendTimerExpiry dst job xid => Sys2Proof.Machine.execCollResendTimerExpiry dst job xid s
  | .qflow l => Sys2Proof.Machine.execQflow l s
  | .repinHoldExpiry dst job tc => Sys2Proof.Machine.execRepinHoldExpiry dst job tc s
  | .routeEntryWrite dst v => Sys2Proof.Machine.execRouteEntryWrite dst v s
  | .planeEnWrite v => Sys2Proof.Machine.execPlaneEnWrite v s
  | .timeExchange => Sys2Proof.Machine.execTimeExchange s
  | .timeRequest l => Sys2Proof.Machine.execTimeRequest l s
  | .timeReply l => Sys2Proof.Machine.execTimeReply l s
  | .handoverAccept e us => Sys2Proof.Machine.execHandoverAccept e us s
  | .exp src => Sys2Proof.Machine.execExp src s
  | .pending src => Sys2Proof.Machine.execPending src s
  | .deadlineExpiry e level => Sys2Proof.Machine.execDeadlineExpiry e level s
  | .decide src us => Sys2Proof.Machine.execDecide src us s
  | .rclWorkResult j c slot us => Sys2Proof.Machine.execRclWorkResult j c slot us s
  | .rclReadyReached j => Sys2Proof.Machine.execRclReadyReached j s
  | .belayRelease j => Sys2Proof.Machine.execBelayRelease j s
  | .ready src => Sys2Proof.Machine.execReady src s
  | .fail src => Sys2Proof.Machine.execFail src s
  | .commit src => Sys2Proof.Machine.execCommit src s
  | .abandon src => Sys2Proof.Machine.execAbandon src s
  | .commitTimeoutExpiry j => Sys2Proof.Machine.execCommitTimeoutExpiry j s
  | .commitWaitExpiry j => Sys2Proof.Machine.execCommitWaitExpiry j s
  | .cairnComplete j err => Sys2Proof.Machine.execCairnComplete j err s
  | .jobEn j on => Sys2Proof.Machine.execJobEn j on s
  | .jobBelayEn j on => Sys2Proof.Machine.execJobBelayEn j on s
  | .jobFail j => Sys2Proof.Machine.execJobFail j s
  | .sqDoorbell r b v => Sys2Proof.Machine.execSqDoorbell r b v s
  | .cqDoorbell r b v => Sys2Proof.Machine.execCqDoorbell r b v s
  | .descriptorFetch r n reply => Sys2Proof.Machine.execDescriptorFetch r n reply s
  | .descriptorStart r => Sys2Proof.Machine.execDescriptorStart r s
  | .descriptorComplete r slot => Sys2Proof.Machine.execDescriptorComplete r slot s
  | .hostNop r n => Sys2Proof.Machine.execHostNop r s n
  | .loadProg r us hs err n => Sys2Proof.Machine.execLoadProg r us hs err s n
  | .run r n => Sys2Proof.Machine.execRun r s n
  | .runComplete r slot => Sys2Proof.Machine.execRunComplete r slot s
  | .runTimeoutExpiry r slot => Sys2Proof.Machine.execRunTimeoutExpiry r slot s
  | .copy r us hs err n => Sys2Proof.Machine.execCopy r us hs err s n
  | .qpush r hs n => Sys2Proof.Machine.execQpush r hs s n
  | .qpop r n => Sys2Proof.Machine.execQpop r s n
  | .qpopComplete r slot us => Sys2Proof.Machine.execQpopComplete r slot us s
  | .qpopTimeoutExpiry r slot => Sys2Proof.Machine.execQpopTimeoutExpiry r slot s
  | .hostSignal r n => Sys2Proof.Machine.execHostSignal r s n
  | .generate r us err n => Sys2Proof.Machine.execGenerate r us err s n
  | .modelInstall r us hs err n => Sys2Proof.Machine.execModelInstall r us hs err s n
  | .modelEvict r us err n => Sys2Proof.Machine.execModelEvict r us err s n
  | .modelPin r n => Sys2Proof.Machine.execModelPin r s n
  | .modelUnpin r n => Sys2Proof.Machine.execModelUnpin r s n
  | .modelSetPriority r n => Sys2Proof.Machine.execModelSetPriority r s n
  | .jobOpen n => Sys2Proof.Machine.execJobOpen s n
  | .jobClose us err n => Sys2Proof.Machine.execJobClose us err s n
  | .preempt n => Sys2Proof.Machine.execPreempt s n
  | .preemptTimeoutExpiry c => Sys2Proof.Machine.execPreemptTimeoutExpiry c s
  | .jobPlace j v => Sys2Proof.Machine.execJobPlace j v s
  | .jobRelease j m => Sys2Proof.Machine.execJobRelease j m s
  | .msixDelayExpiry r => Sys2Proof.Machine.execMsixDelayExpiry r s
  | .msixUnmask fn vec => Sys2Proof.Machine.execMsixUnmask fn vec s
  | .ringEn r b on => Sys2Proof.Machine.execRingEn r b on s
  | .hoRelease b => Sys2Proof.Machine.execHoRelease b s
  | .hoTake b => Sys2Proof.Machine.execHoTake b s
  | .hoHeartbeat b => Sys2Proof.Machine.execHoHeartbeat b s
  | .hbTimeoutExpiry => Sys2Proof.Machine.execHbTimeoutExpiry s
  | .ownerLinkDownTimer => Sys2Proof.Machine.execOwnerLinkDownTimer s
  | .handoverComplete answers => Sys2Proof.Machine.execHandoverComplete answers s
  | .portDataLinkDown hb => Sys2Proof.Machine.execPortDataLinkDown hb s
  | .flrPf hb answers => Sys2Proof.Machine.execFlrPf hb answers s
  | .flrVf n answers => Sys2Proof.Machine.execFlrVf n answers s
  | .bar4Access b o len data us e => Sys2Proof.Machine.execBar4Access b o len data us s e
  | .modReset b x => Sys2Proof.Machine.execModReset b x s
  | .perstNOwner x => Sys2Proof.Machine.execPerstNOwner x s
  | .perstNStandby => Sys2Proof.Machine.execPerstNStandby s
  | .telExport v => Sys2Proof.Machine.execTelExport v s
  | .telExportRun us => Sys2Proof.Machine.execTelExportRun us s
  | .telExportDone us => Sys2Proof.Machine.execTelExportDone us s
  | .powerInputValid => Sys2Proof.Machine.execPowerInputValid s
  | .ponTimerExpiry => Sys2Proof.Machine.execPonTimerExpiry s
  | .bootClockReady x => Sys2Proof.Machine.execBootClockReady x s
  | .bootDone => Sys2Proof.Machine.execBootDone s
  | .powerInputLost => Sys2Proof.Machine.execPowerInputLost s
  | .pdReqWrite b v => Sys2Proof.Machine.execPdReqWrite b v s
  | .pdSwitchOnComplete d => Sys2Proof.Machine.execPdSwitchOnComplete d s
  | .powerStageFault d => Sys2Proof.Machine.execPowerStageFault d s
  | .sclkLoss sclk => Sys2Proof.Machine.execSclkLoss sclk s
  | .clockRecoveryTimer x => Sys2Proof.Machine.execClockRecoveryTimer x s
  | .kclkPllLoss => Sys2Proof.Machine.execKclkPllLoss s
  | .kclkPllRelock => Sys2Proof.Machine.execKclkPllRelock s
  | .mclkPllLoss die => Sys2Proof.Machine.execMclkPllLoss die s
  | .mclkPllRelock die => Sys2Proof.Machine.execMclkPllRelock die s
  | .lclkPllLoss k => Sys2Proof.Machine.execLclkPllLoss k s
  | .lclkPllRelock k => Sys2Proof.Machine.execLclkPllRelock k s
  | .hostRefclkLoss hb => Sys2Proof.Machine.execHostRefclkLoss hb s
  | .cxlRefclkLoss p => Sys2Proof.Machine.execCxlRefclkLoss p s
  | .cxlRefclkRestored p => Sys2Proof.Machine.execCxlRefclkRestored p s
  | .governorEvaluation x => Sys2Proof.Machine.execGovernorEvaluation x s
  | .govCfgWrite b v => Sys2Proof.Machine.execGovCfgWrite b v s
  | .junctionOvertemp => Sys2Proof.Machine.execJunctionOvertemp s
  | .thermalRecoveryTimer x => Sys2Proof.Machine.execThermalRecoveryTimer x s
  | .brumationGo b v => Sys2Proof.Machine.execBrumationGo b v s
  | .brumationEntryEnd wake => Sys2Proof.Machine.execBrumationEntryEnd s wake
  | .wakeN => Sys2Proof.Machine.execWakeN s
  | .wakeComplete => Sys2Proof.Machine.execWakeComplete s
  | .wdtKick b => Sys2Proof.Machine.execWdtKick b s
  | .wdtTimeoutExpiry => Sys2Proof.Machine.execWdtTimeoutExpiry s
  | .mgrResetComplete => Sys2Proof.Machine.execMgrResetComplete s
  | .attest m p => Sys2Proof.Machine.execAttest m s p
  | .getCert m p => Sys2Proof.Machine.execGetCert m s p
  | .enrol m p => Sys2Proof.Machine.execEnrol m s p
  | .revoke m p => Sys2Proof.Machine.execRevoke m s p
  | .stage => Sys2Proof.Machine.execStage s
  | .commitFw flashOk => Sys2Proof.Machine.execCommitFw flashOk s
  | .activate => Sys2Proof.Machine.execActivate s
  | .setEndpointId op eid p => Sys2Proof.Machine.execSetEndpointId op eid s p
  | .getEndpointId p => Sys2Proof.Machine.execGetEndpointId s p
  | .getMctpVersionSupport typ p => Sys2Proof.Machine.execGetMctpVersionSupport typ s p
  | .getMessageTypeSupport p => Sys2Proof.Machine.execGetMessageTypeSupport s p
  | .getVendorDefinedMessageSupport sel p => Sys2Proof.Machine.execGetVendorDefinedMessageSupport sel s p
  | .getTid p => Sys2Proof.Machine.execGetTid s p
  | .getPldmVersion typ p => Sys2Proof.Machine.execGetPldmVersion typ s p
  | .getPldmTypes p => Sys2Proof.Machine.execGetPldmTypes s p
  | .getPldmCommands typ version p => Sys2Proof.Machine.execGetPldmCommands typ version s p
  | .getSensorReading id p => Sys2Proof.Machine.execGetSensorReading id s p
  | .getStateSensorReadings id p => Sys2Proof.Machine.execGetStateSensorReadings id s p
  | .getPdrRepositoryInfo p => Sys2Proof.Machine.execGetPdrRepositoryInfo s p
  | .getPdr handle p => Sys2Proof.Machine.execGetPdr handle s p
  | .queryDeviceIdentifiers p => Sys2Proof.Machine.execQueryDeviceIdentifiers s p
  | .getFirmwareParameters p => Sys2Proof.Machine.execGetFirmwareParameters s p
  | .requestUpdate size p => Sys2Proof.Machine.execRequestUpdate size s p
  | .passComponentTable p => Sys2Proof.Machine.execPassComponentTable s p
  | .updateComponent image flashOk p => Sys2Proof.Machine.execUpdateComponent image flashOk s p
  | .activateFirmware p => Sys2Proof.Machine.execActivateFirmware s p
  | .getStatus p => Sys2Proof.Machine.execGetStatus s p
  | .cancelUpdate p => Sys2Proof.Machine.execCancelUpdate s p
  | .shelfAlertAssert => Sys2Proof.Machine.execShelfAlertAssert s
  | .shelfAlertRelease => Sys2Proof.Machine.execShelfAlertRelease s
  | .coolantAlertAssert => Sys2Proof.Machine.execCoolantAlertAssert s
  | .coolantAlertRelease => Sys2Proof.Machine.execCoolantAlertRelease s
  | .tapReset => Sys2Proof.Machine.execTapReset s
  | .extest v outer => Sys2Proof.Machine.execExtest v s outer
  | .idcode => Sys2Proof.Machine.execIdcode s
  | .samplePreload v outer => Sys2Proof.Machine.execSamplePreload v s outer
  | .clamp => Sys2Proof.Machine.execClamp s
  | .highz => Sys2Proof.Machine.execHighz s
  | .dbg v x => Sys2Proof.Machine.execDbg v x s
  | .bypass ir => Sys2Proof.Machine.execBypass ir s
  | .perstNRelease hb => Sys2Proof.Machine.execPerstNRelease hb s
  | .portDataLinkUp hb => Sys2Proof.Machine.execPortDataLinkUp hb s
  | .pcieConfigWrite hb fn c => Sys2Proof.Machine.execPcieConfigWrite hb fn c s
  | .completionTimeoutExpiry w => Sys2Proof.Machine.execCompletionTimeoutExpiry w s

end Sys2Proof.Machine
end

