-- ==== Sys2Proof/Safety.lean ====
section
/-!
DEFINITION. The predicates that the statements are made in: the invariant of the memories, the command that issues an
operation of a core, and when a core can issue.
-/

namespace Sys2Proof.Machine

/-- Every byte memory of the block is in its canonical form: module memory, the CXL tier, every scratchpad, the flash
and the staging area (R224, R249, R262, R410, R413). -/
def MemOk (s : State) : Prop :=
  Memory.wf s.gddr = true ∧ Memory.wf s.tier = true ∧ (∀ c : CoreId, Memory.wf (s.loc c).sp = true) ∧
  Memory.wf s.sec.flash = true ∧ Memory.wf s.sec.staging = true

/-- The command by which core `c` issues an instruction of operation `o` (R32, R35, R40 to R45, R65). `now` says, for an
instruction that goes to a unit queue, whether the unit may run it in the same command. -/
def instrOf (o : Op) (c : CoreId) (now : Bool) (us : List Upset) : Instr :=
  match o with
  | .nop => .nop c us | .halt => .halt c us | .yield => .yield c us | .jmp => .jmp c us | .call => .call c us
  | .ret => .ret c us | .loop => .loop c us | .add => .add c us | .sub => .sub c us | .and => .and c us
  | .or => .or c us | .xor => .xor c us | .shl => .shl c us | .shr => .shr c us | .sra => .sra c us
  | .mul => .mul c us | .cmp => .cmp c us | .li => .li c us | .ld => .ld c us | .st => .st c us
  | .getsys => .getsys c us
  | .vld => .vld c now us | .vst => .vst c now us | .vadd => .vadd c now us | .vsub => .vsub c now us
  | .vmul => .vmul c now us | .vfma => .vfma c now us | .vmax => .vmax c now us | .vmin => .vmin c now us
  | .vcvt => .vcvt c now us | .vquant => .vquant c now us | .vdeq => .vdeq c now us | .vhad => .vhad c now us
  | .vred => .vred c now us | .vcbld => .vcbld c now us | .vhist => .vhist c now us | .vste => .vste c now us
  | .vfix => .vfix c now us | .vaddx => .vaddx c now us | .vsel => .vsel c now us | .vbcast => .vbcast c now us
  | .vmovs => .vmovs c now us
  | .xferCopy => .xferCopy c us | .pass => .pass c us
  | .qopPush => .qopPush c now us | .qopPop => .qopPop c now us | .qopDrop => .qopDrop c now us
  | .qopStat => .qopStat c now us | .qopCommit => .qopCommit c now us | .qopCancel => .qopCancel c now us
  | .dispRoute => .dispRoute c now us | .dispCommit => .dispCommit c now us | .dispCancel => .dispCancel c now us
  | .dispStat => .dispStat c now us
  | .signal => .signal c us | .wait => .wait c us | .set => .set c us | .fence => .fence c us
  | .slotFill => .slotFill c now us | .slotDrain => .slotDrain c now us
  | .slotWaitf => .slotWaitf c us | .slotWaite => .slotWaite c us

/-- The instruction word `w` of operation `o` stands at the PC of a core that runs and whose domain is on, no scalar
register of it is still to be written, and its unit queue has room (R30, R31, R33, R46, R47, R395). -/
def AtPc (s : State) (c : CoreId) (w : W128) (o : Op) : Prop :=
  s.domainOn c.val = true ∧ fetch (s.core c) = .word w o false ∧ sdPending (s.core c) w = false ∧
  destRoom s c w o = true

/-- The predicate of a word is true on a core (R34). -/
def PredTrue (s : State) (c : CoreId) (w : W128) : Prop := (s.core c).pget (fPred w) ≠ fPinv w

/-- The core does not run a single step (R60). -/
def Flowing (s : State) (c : CoreId) : Prop := (s.core c).stepping = false

/-- The core issues the instruction at its PC and goes on. -/
def Issues (s : State) (c : CoreId) (w : W128) (o : Op) : Prop := AtPc s c w o ∧ PredTrue s c w ∧ Flowing s c

/-- Nothing stands in the way of an access to `len` bytes of a core's own scratchpad by the core: no byte lies in a
region that is gecko-resident for another job, every bank is on, no lane has an error mark (R226, R233, R236). -/
def SpFree (s : State) (c : CoreId) (off len : Nat) : Prop :=
  spGecko s c (s.jobOf c) off len = false ∧ spBankOff s c off len = none ∧ spMarks s c off len = []

/-- The `len` bytes at `a` are module memory, no line of them has an error mark, no burst of them fails its CRC, and they are no check
entries (R250, R251, R257). -/
def GddrPlain (s : State) (a len : Nat) : Prop :=
  a + len ≤ gddrTop s ∧ gddrMarks s a len = [] ∧ s.mem.crc.filter (fun e => touches a len e.1) = [] ∧
  (a + len ≤ 0x1740000000 ∨ s.mem.checks = none)

/-- Module memory serves an access to `len` bytes at `a`, and nothing is wrong with them (R250, R255). -/
def GddrFree (s : State) (a len : Nat) : Prop := gddrServe s a len = .yes ∧ GddrPlain s a len

/-- A core runs and no instruction of it waits, so that a command that frees a unit wakes nothing (R51, R53, R60). -/
def RunsFree (s : State) (c : CoreId) : Prop := (s.core c).run = .running ∧ (s.core c).blocked = none

/-- An enabled queue whose visible cells all lie in its head, that holds no cell apart, has no packet open, is in no
special state, notifies nobody of arriving packets, and has a chunk free (R203, R205, R211, R213, R219). -/
def QPlain (s : State) (q : QId) : Prop :=
  qOn s q = true ∧ (s.queues[q]).pool = [] ∧ (s.queues[q]).tail = [] ∧ (s.queues[q]).held = [] ∧
  (s.queues[q]).ready = [] ∧ (s.queues[q]).openKey = none ∧ (s.queues[q]).dropping = false ∧
  (s.queues[q]).tentLost = false ∧ (s.queues[q]).bad = false ∧ bit (s.rd (queueBase q + 0x50)) 0 = false ∧
  qFree s q ≠ 0

/-- The packet `r` stands first in the receive buffer of a link, with `rest` behind it, and passes every check of R283. -/
def Arrived (s : State) (l : LinkId) (r : RxWait) (rest : List RxWait) : Prop :=
  (s.links[l]).rxq = r :: rest ∧ pEcrc r.pkt = crc32 (ecrcBytes r.pkt) ∧ headOk s r.pkt = true ∧ typeOk r.pkt = true ∧
  orderOk s r.pkt = true

/-- The SYNC message `p` of a kind to a job stands first among the module's messages to itself, and belongs to the step
and attempt in progress (R316, R317). -/
def OwnSync (s : State) (j : JobId) (kind : Nat) (p : Pkt) : Prop :=
  (∃ rest, s.net.self = p :: rest) ∧ pType p = 9 ∧ pByte p 12 1 = kind ∧ pJob p = j.val ∧ syncFresh s j p = true

/-- The state `t` differs from `s` at most in the counter of free values, the clock, the registers, and what the host
ports, the reduction and commit logic, the network and the links hold: all that the raising of an event touches (R8,
R322, R350, R379). -/
def Quiet (s t : State) : Prop :=
  t = { s with tick := t.tick, ts := t.ts, regs := t.regs, host := t.host, rcl := t.rcl, net := t.net, links := t.links }

/-- The core `c`, which ran in `s`, is halted by a fault in `t` (R57, R384): CORE_PC holds the faulting index, the entries
that had not started are discarded, the core is HALTED with the status, or drains towards it while something started is
still running, the event's status bit is set, and no register of the core, no other core and no byte of the memories has
changed. -/
def Faulted (s t : State) (c : CoreId) (status : BitVec 16) (pc code : Nat) : Prop :=
  (t.core c).pc = pc ∧ (∀ u, qOf t c u = []) ∧
  (startedDone (s.unit c) = true → (t.core c).run = .halted ∧ (t.core c).status = status) ∧
  (startedDone (s.unit c) = false → (t.core c).run = .draining (.fault status)) ∧
  bit (t.rd (evtReg code c 0).2.1) (evtReg code c 0).2.2 = true ∧
  (t.core c).sreg = (s.core c).sreg ∧ (t.core c).vreg = (s.core c).vreg ∧ (t.core c).preg = (s.core c).preg ∧
  t.locals = s.locals ∧ t.gddr = s.gddr ∧ ∀ d, d ≠ c → t.core d = s.core d

end Sys2Proof.Machine
end

