-- ==== Sys2Proof/Certificates/Slice0/Obligations.lean ====
section
/-!
DEFINITION. The statements about the block, one definition each, grouped by the chapters of the spec.
-/

open Sys2Proof Sys2Proof.Machine

/-! ### The machine as a whole -/

/-- One step runs the command at the front of the queue on the state that holds the rest of the queue, and with an empty
queue the block idles.

Section: spec/95_what_each_step_holds.md. Choices of the model: log entry 1. -/
def Obligations.StepRunsTheFrontCommand : Prop :=
  (∀ (i : Instr) (rest : List Instr) (s : State), step { s with pending := i :: rest } = exec i { s with pending := rest }) ∧
  (∀ s : State, s.pending = [] → step s = .next s)

/-- A step takes the front command from the queue and no other: the commands that wait behind it stay as they are, whatever
the command does.

Section: spec/95_what_each_step_holds.md. Choices of the model: log entry 1. -/
def Obligations.StepLeavesTheWaitingCommands : Prop :=
  ∀ (i : Instr) (rest : List Instr) (s t : State), s.pending = i :: rest → step s = .next t → t.pending = rest

/-- The state after reset: PD62 and PD63 alone are on, RST_STAT names the PON reset and the module waits for its boot clock; every core is HALTED with status
0xF000, PC 0 and empty unit queues, its guards DRAINED, its semaphores 0, its banks without power, and no job holds it; the queues and the rings
hold nothing and are off, the dispatch units are idle with no entry, every link is DOWN and every controller out of service; HA
owns the module, no job is open; each byte memory is canonical, and module memory, the tier and the scratchpads list nothing.

Rules: R6, R13, R27, R57, R227, R272, R394, R397. Choices of the model: log entries 2, 3, 4, 5. -/
def Obligations.ResetResult : Prop :=
  let s := State.reset
  MemOk s ∧ s.gddr = [] ∧ s.tier = [] ∧ s.pending = [] ∧ s.power.boot = .rom ∧ fld (s.rd (pwrBase + 0x90)) 0 4 = 1 ∧
  (∀ d : Fin 64, bit (pdState s) d.val = decide (62 ≤ d.val)) ∧
  (∀ c : CoreId, (s.core c).run = .halted ∧ (s.core c).status = 0xF000#16 ∧ (s.core c).pc = 0 ∧ (∀ u, qOf s c u = []) ∧
    (s.loc c).sp = [] ∧ (s.loc c).guards = 0#4096 ∧ (∀ i : Fin 64, (s.loc c).sems[i] = 0#16 ∧ (s.loc c).bank[i] = .off) ∧
    ∀ j : JobId, bit (s.heldBy j) c.val = false) ∧
  (∀ q : QId, s.queues[q] = {} ∧ qOn s q = false) ∧ (∀ r : RingId, s.host.rings[r] = {} ∧ s.ringEn r = false) ∧
  (∀ l : LinkId, (s.links[l]).st = .down) ∧ (∀ g : CtrlId, (s.ctrls[g]).ready = false) ∧
  (∀ u : DuId, (s.dus[u]).run = none ∧ (s.dus[u]).entries = []) ∧ s.host.ownerB = false ∧
  ∀ j : JobId, s.jobOpen j = false

/-- Every step keeps every byte memory in its canonical form: module memory, the CXL tier, the 48 scratchpads, the flash
and the staging area.

Rules: R224, R246, R249, R253, R259, R262, R410, R413. Choices of the model: log entry 2. -/
def Obligations.StepKeepsMemoriesCanonical : Prop :=
  ∀ s t : State, MemOk s → step s = .next t → MemOk t

/-- No command is ever refused, and only the start of a dispatch request can end in a fault, whose one reason is a ROUTE that passes its
checks and whose parameter block names regions that overlap: the request that the unit takes next, of those no request set aside holds
back, with the parameter block as its core's scratchpad gives it.

Rules: R155, R156. Choices of the model: log entries 7, 8. -/
def Obligations.OnlyAnOverlappingRouteStops : Prop :=
  ∀ (i : Instr) (s : State),
    (∃ t, exec i s = .next t) ∨
    (exec i s = .fault .dpbOverlap ∧ ∃ (u : DuId) (us : List Upset) (r : State) (req : DispReq) (d : List Byte) (no : Bool),
      i = .dispatchRequestStart u us ∧ r = setAside (strike s us) u ∧ nextReq (freeReqs r (r.dus[u])) = some req ∧
      fOp req.word = 0 ∧ dpbOverlaps (dpbRegions (dpbWithTile d (snapGet req.s (dispSa req.word)).toNat)) = true ∧
      (readDpb (r.setDu u { r.dus[u] with waiting := (r.dus[u]).waiting.erase req, rr := req.core.val % 24 }) req.core
        (snapGet req.s (dispSp req.word)).toNat).2 = (some d, no))

/-! ### Core instructions: control -/

/-- The arithmetic and logical instructions of the CTL class write SD with the 64-bit result and go on to the next
instruction; nothing else changes.

NOP only goes on; LI writes SD with IMM; CMP writes the predicate SD[2:0] with the comparison COND of SA and B:
equal, not equal, signed less, signed at most, unsigned less, unsigned at most; GETSYS writes SD with the core number or
the number of the core's job for the selectors 0 and 1. Nothing else changes.

Rules: R35, R36, R46. Choices of the model: log entries 9, 19. -/
def Obligations.ScalarResult : Prop :=
  (∀ (c : CoreId) (us : List Upset) (s : State) (w : W128),
     let r := strike s us
     let k := r.core c
     let a := k.sget (ctlSa w)
     let b := ctlB k w
     let done (v : W64) : Out := .next (r.setCore c (loopNext ({ k with lastMu0 := none }.sset (ctlSd w) v) k.pc))
     (Issues r c w .add → exec (.add c us) s = done (BitVec.ofNat 64 (a.toNat + b.toNat))) ∧
     (Issues r c w .sub → exec (.sub c us) s = done (BitVec.ofNat 64 (2 ^ 64 + a.toNat - b.toNat))) ∧
     (Issues r c w .and → exec (.and c us) s = done (a &&& b)) ∧
     (Issues r c w .or → exec (.or c us) s = done (a ||| b)) ∧
     (Issues r c w .xor → exec (.xor c us) s = done (a ^^^ b)) ∧
     (Issues r c w .shl → exec (.shl c us) s = done (a <<< (b.toNat % 64))) ∧
     (Issues r c w .shr → exec (.shr c us) s = done (a >>> (b.toNat % 64))) ∧
     (Issues r c w .sra → exec (.sra c us) s = done (a.sshiftRight (b.toNat % 64))) ∧
     (Issues r c w .mul → exec (.mul c us) s = done (BitVec.ofNat 64 (a.toNat * b.toNat)))) ∧
  (∀ (c : CoreId) (us : List Upset) (s : State) (w : W128),
     let r := strike s us
     let k := r.core c
     let a := k.sget (ctlSa w)
     let b := ctlB k w
     let go (k' : Core) : Out := .next (r.setCore c (loopNext k' k.pc))
     let k0 : Core := { k with lastMu0 := none }
     (Issues r c w .nop → exec (.nop c us) s = go k0) ∧
     (Issues r c w .li → exec (.li c us) s = go (k0.sset (ctlSd w) (BitVec.ofNat 64 (w.toNat / 2 ^ 64)))) ∧
     (Issues r c w .cmp → ∀ p : Bool,
       (ctlCond w = 0 → p = decide (a = b)) → (ctlCond w = 1 → p = decide (a ≠ b)) →
       (ctlCond w = 2 → p = decide (a.toInt < b.toInt)) → (ctlCond w = 3 → p = decide (a.toInt ≤ b.toInt)) →
       (ctlCond w = 4 → p = decide (a.toNat < b.toNat)) → (ctlCond w = 5 → p = decide (a.toNat ≤ b.toNat)) →
       exec (.cmp c us) s = go (k0.pset (fld w 16 3) p)) ∧
     (Issues r c w .getsys → fld w 64 4 = 0 → exec (.getsys c us) s = go (k0.sset (ctlSd w) (BitVec.ofNat 64 c.val))) ∧
     (Issues r c w .getsys → fld w 64 4 = 1 →
       exec (.getsys c us) s = go (k0.sset (ctlSd w) (BitVec.ofNat 64 ((r.jobOf c).getD 0)))))

/-- S0 and P0: a write to S0 changes nothing, reading it gives zero; a write to P0 changes nothing, reading it gives 1; a
write of any other register is read back and leaves the others. The predicate P0 without inversion is true in every state
(R28).

Rules: R28. -/
def Obligations.HardwiredScalarAndPredicate : Prop :=
  ∀ (k : Core) (i j : Nat) (v : W64) (b : Bool),
    k.sget 0 = 0#64 ∧ k.sset 0 v = k ∧ k.pget 0 = true ∧ k.pset 0 b = k ∧
    (0 < i → i < 32 → (k.sset i v).sget i = v) ∧ (i ≠ j → (k.sset i v).sget j = k.sget j) ∧
    (0 < i → i < 8 → (k.pset i b).pget i = b) ∧ (i ≠ j → (k.pset i b).pget j = k.pget j) ∧
    ∀ (s : State) (c : CoreId) (w : W128), fPred w = 0 → fPinv w = false → PredTrue s c w

/-- JMP goes to IMM[14:0]; CALL pushes the index after it and goes to IMM[14:0]; RET pops the index it goes to; LOOP loads
the counter and the body of its level and goes to the body, or past its end where the count is zero. Nothing else
changes.

After an instruction that ends no loop body the PC is the next index; after the last instruction of exactly one body
with a count above 1 the count goes down by 1 and the PC goes back to the body's start; no other part of the core
changes.

Rules: R35, R37. Choices of the model: log entries 9, 18. -/
def Obligations.BranchResult : Prop :=
  (∀ (c : CoreId) (us : List Upset) (s : State) (w : W128),
     let r := strike s us
     let k : Core := { r.core c with lastMu0 := none }
     let target := fld w 64 15
     (Issues r c w .jmp → exec (.jmp c us) s = .next (r.setCore c { k with pc := target })) ∧
     (Issues r c w .call → k.calls.length < 16 →
       exec (.call c us) s = .next (r.setCore c { k with calls := (k.pc + 1) :: k.calls, pc := target })) ∧
     (Issues r c w .ret → ∀ t rest, k.calls = t :: rest →
       exec (.ret c us) s = .next (r.setCore c { k with calls := rest, pc := t })) ∧
     (Issues r c w .loop → ∀ l : Fin 4, l.val = fld w 16 2 →
       exec (.loop c us) s = .next (r.setCore c { k with
         loops := k.loops.set l { count := loopCount k w, first := k.pc + 1, last := fld w 96 15 }
         pc := if loopCount k w = 0#64 then fld w 96 15 + 1 else k.pc + 1 }))) ∧
  (∀ (k : Core) (idx : Nat),
     ((∀ l : Fin 4, k.loops[l].last = idx → k.loops[l].count.toNat ≤ 1) → loopNext k idx = { k with pc := idx + 1 }) ∧
     (∀ l : Fin 4, k.loops[l].last = idx → 1 < k.loops[l].count.toNat →
       (∀ m : Fin 4, m ≠ l → k.loops[m].last = idx → k.loops[m].count.toNat ≤ 1) →
       loopNext k idx = { k with
         pc := k.loops[l].first
         loops := k.loops.set l { k.loops[l] with count := k.loops[l].count - 1 } }))

/-- CALL with a full 16-entry call stack and RET with an empty one halt the core with status 0xF005 and raise CALL_STACK_FAULT
(R38).

Rules: R38. -/
def Obligations.CallStackFaults : Prop :=
  ∀ (c : CoreId) (us : List Upset) (s : State) (w : W128),
    let r := strike s us
    (Issues r c w .call → 16 ≤ (r.core c).calls.length →
      ∃ t, exec (.call c us) s = .next t ∧ Faulted r t c 0xF005#16 (r.core c).pc 0x1008) ∧
    (Issues r c w .ret → (r.core c).calls = [] →
      ∃ t, exec (.ret c us) s = .next t ∧ Faulted r t c 0xF005#16 (r.core c).pc 0x1008)

/-- An instruction whose predicate is false changes nothing but the PC, whichever instruction it is.

Rules: R34. -/
def Obligations.FalsePredicateOnlyAdvances : Prop :=
  ∀ (o : Op) (c : CoreId) (now : Bool) (us : List Upset) (s : State) (w : W128),
    let r := strike s us
    AtPc r c w o → ¬ PredTrue r c w → Flowing r c →
    exec (instrOf o c now us) s = .next (r.setCore c (loopNext { r.core c with lastMu0 := none } (r.core c).pc))

/-- A core that is not running, or whose issue a blocking SYNC instruction holds, or whose domain is off, issues nothing,
whatever the command asks for.

A running core at an index beyond the instruction memory, at an uncorrectable word or at an illegal word halts by a
fault with status 0xF001, 0xF002 and 0xF001, whichever instruction is asked for.

Rules: R30, R33, R57, R60, R383. Choices of the model: log entries 8, 9, 13. -/
def Obligations.NoIssueAndBadFetch : Prop :=
  (∀ (o : Op) (c : CoreId) (now : Bool) (us : List Upset) (s : State),
     let r := strike s us
     ((r.core c).run ≠ .running ∨ (r.core c).blocked.isSome ∨ r.domainOn c.val = false) →
     exec (instrOf o c now us) s = .next r) ∧
  (∀ (o : Op) (c : CoreId) (us : List Upset) (s : State),
     let r := strike s us
     let k := r.core c
     r.domainOn c.val = true → k.run = .running → k.blocked = none →
     let halts (status : BitVec 16) (code : Nat) : Prop :=
       ∃ t, exec (instrOf o c false us) s = .next t ∧ Faulted r t c status k.pc code
     (32768 ≤ k.pc → halts 0xF001#16 0x1001) ∧
     (k.pc < 32768 → tget k.imemErr k.pc = some true → halts 0xF002#16 0x1003) ∧
     (k.pc < 32768 → tget k.imemErr k.pc ≠ some true → decodeOp k.pc (k.word k.pc) = none → halts 0xF001#16 0x1001))

/-! ### Core instructions: scratchpad, halting, predicates -/

/-- LD writes SD with the 8 bytes at SA + IMM, least significant byte first, and changes nothing else; an address that is
not a multiple of 8, or not below 16 MiB, halts the core by a fault with status 0xF004 and SCALAR_ACCESS_FAULT.

ST writes the 8 bytes at SA + IMM with SB, least significant byte first, and goes on. Every other byte of every memory,
every register of the core, every other core and every guard and semaphore stay as they were. A bad address halts the core as
for LD.

Rules: R35, R39, R226. Choices of the model: log entries 2, 9. -/
def Obligations.LoadStoreResult : Prop :=
  (∀ (c : CoreId) (us : List Upset) (s : State) (w : W128),
     let r := strike s us
     let k : Core := { r.core c with lastMu0 := none }
     let a := (k.sget (ctlSa w) + fImm w).toNat
     Issues r c w .ld →
     (a % 8 = 0 → a < 0x1000000 → SpFree r c a 8 →
       exec (.ld c us) s = .next (r.setCore c (loopNext
         (k.sset (ctlSd w) (BitVec.ofNat 64 (leNat ((List.range 8).map (fun i => (r.loc c).sp.get (a + i)))))) k.pc))) ∧
     (a % 8 ≠ 0 ∨ 0x1000000 ≤ a → ∃ t, exec (.ld c us) s = .next t ∧ Faulted r t c 0xF004#16 k.pc 0x1007)) ∧
  (∀ (c : CoreId) (us : List Upset) (s : State) (w : W128),
     let r := strike s us
     let k : Core := { r.core c with lastMu0 := none }
     let a := (k.sget (ctlSa w) + fImm w).toNat
     Issues r c w .st →
     (a % 8 ≠ 0 ∨ 0x1000000 ≤ a → ∃ t, exec (.st c us) s = .next t ∧ Faulted r t c 0xF004#16 k.pc 0x1007) ∧
     (MemOk r → a % 8 = 0 → a < 0x1000000 → SpFree r c a 8 →
     ∃ t, exec (.st c us) s = .next t ∧
       (∀ x, (t.loc c).sp.get x = if a ≤ x ∧ x < a + 8 then BitVec.ofNat 8 ((k.sget (ctlSb w)).toNat / 2 ^ (8 * (x - a)))
         else (r.loc c).sp.get x) ∧
       t.core c = loopNext k k.pc ∧ (∀ d, d ≠ c → t.core d = r.core d ∧ t.loc d = r.loc d) ∧
       (t.loc c).guards = (r.loc c).guards ∧ (t.loc c).sems = (r.loc c).sems ∧ t.units = r.units ∧
       t.gddr = r.gddr ∧ t.tier = r.tier ∧ t.queues = r.queues ∧ t.sec = r.sec))

/-- HALT stops issue with CORE_PC after it and drains towards the status IMM[15:0]: with unit instructions outstanding the
core is DRAINING, and nothing else changes.

YIELD with YIELD_REQ clear only goes on: the scalar, vector and predicate registers, the memories and every other core
stay as they were. With YIELD_REQ set and unit instructions outstanding the core drains towards a save.

Rules: R35, R55, R57. Choices of the model: log entries 9, 20. -/
def Obligations.HaltAndYieldResult : Prop :=
  (∀ (c : CoreId) (us : List Upset) (s : State) (w : W128),
     let r := strike s us
     let k : Core := { r.core c with lastMu0 := none }
     let d : Drain := .halt (BitVec.ofNat 16 (fld w 64 16))
     Issues r c w .halt →
     (drained (r.unit c) = false →
       exec (.halt c us) s = .next (r.setCore c { k with pc := k.pc + 1, run := .draining d })) ∧
     (drained (r.unit c) = true →
       ∃ t, exec (.halt c us) s = .next t ∧ (t.core c).run = .halted ∧ (t.core c).pc = k.pc + 1 ∧
         (t.core c).status = BitVec.ofNat 16 (fld w 64 16) ∧ (t.core c).sreg = k.sreg ∧ t.locals = r.locals ∧
         ∀ e, e ≠ c → t.core e = r.core e)) ∧
  (∀ (c : CoreId) (us : List Upset) (s : State) (w : W128),
     let r := strike s us
     let k : Core := { r.core c with lastMu0 := none }
     Issues r c w .yield →
     (bit (r.rd (coreBase c + 8)) 3 = false →
       ∃ t, exec (.yield c us) s = .next t ∧ (t.core c).pc = (loopNext k k.pc).pc ∧ (t.core c).run = .running ∧
         (t.core c).sreg = k.sreg ∧ (t.core c).vreg = k.vreg ∧ (t.core c).preg = k.preg ∧ t.locals = r.locals ∧
         t.units = r.units ∧ t.gddr = r.gddr ∧ ∀ e, e ≠ c → t.core e = r.core e) ∧
     (bit (r.rd (coreBase c + 8)) 3 = true → drained (r.unit c) = false →
       ∃ t, exec (.yield c us) s = .next t ∧ (t.core c).run = .draining (.yield k.pc (fImm w)) ∧
         (t.core c).pc = k.pc + 1 ∧ t.units = r.units ∧ t.locals = r.locals))

/-- An instruction of a unit enters the queue of its unit at the end, with its index, its word and the scalar registers as
they stand, and issue goes on; VRED and VMOVS leave a write of SD outstanding. Nothing else changes, but that an MU1 pass
whose pairing holds marks itself and the MU0 pass issued directly before it as a pair.

Rules: R41, R42, R43, R44, R45, R46, R47. Choices of the model: log entries 9, 31, 33. -/
def Obligations.UnitInstructionEntersItsQueue : Prop :=
  ∀ (o : Op) (u : UnitSel) (c : CoreId) (us : List Upset) (s : State) (w : W128),
    let r := strike s us
    let k := r.core c
    let e : Entry := { pc := k.pc, word := w, s := k.snap,
                       after := if o = .pass ∧ mUnit w = 1 then (s.core c).lastMu0 else none }
    let k' : Core := { k with
      lastMu0 := if o = .pass ∧ mUnit w = 0 then some (k.pc, w, k.snap) else none
      pendSd := if (o = .vred ∨ o = .vmovs) ∧ vSd w ≠ 0 then k.pendSd ++ [vSd w] else k.pendSd }
    Issues r c w o → destOf w o = some u →
    ((∀ h, pairing e ≠ some (some h)) → exec (instrOf o c false us) s = .next ((r.setUnit c { r.unit c with
      q := (r.unit c).q.set (unitIx u) ((r.unit c).q[unitIx u] ++ [e]) }).setCore c (loopNext k' k.pc))) ∧
    (∀ h q0 m, pairing e = some (some h) → qOf r c .mu0 = q0 ++ [m] →
      exec (instrOf o c false us) s = .next ((r.setUnit c { r.unit c with
        q := ((r.unit c).q.set (unitIx .mu0) (q0 ++ [{ m with mate := true }])).set (unitIx .mu1)
          ((r.unit c).q[unitIx .mu1] ++ [{ e with mate := true }]) }).setCore c (loopNext k' k.pc)))

/-! ### Core instructions: vector operations -/

/-- The vector operations that touch no memory, run in the command that issues them on an idle vector engine: VD takes
the result, lane by lane, and the PC goes on. Every other V register, the S registers, the predicates, the scratchpad, the
queues and every other core stay as they were, and so does every other register of the module but where a C4 or C8 element of
VDEQ meets a codebook slot of the other kind.

VRED writes lane 0 of VD with the reduction of VA and clears the rest, and writes SD with it; VMOVS writes SD with the
lane IMM[10:0] of VA, sign-extended for the integer formats, and no V register. Where SD is S0 nothing is written
there.

Rules: R29, R40, R116, R130, R131, R132, R133, R134. Choices of the model: log entries 22, 23, 29, 33. -/
def Obligations.VectorRegisterResult : Prop :=
  (∀ (c : CoreId) (us : List Upset) (s : State) (w : W128) (o : Op),
     let r := strike s us
     let k := r.core c
     let va := vget r c (vVa w)
     let vb := vget r c (vVb w)
     let vc := vget r c (vVc w)
     let vd := vget r c (vVd w)
     let f := vFmt w
     let b := fmtBits f
     let e : Entry := { pc := k.pc, word := w, s := k.snap }
     let fits : Prop := o = .vdeq → ∀ i, i < fmtLanes (vFmt2 w) →
       kindMismatch (vFmt w) (cbGet r c ((vAux w + entCb (deqEntry r c e i)) % 16)) = false
     let put (v : VReg) : Prop :=
       ∃ t, exec (instrOf o c true us) s = .next t ∧ vget t c (vVd w) = v ∧ (∀ i, i ≠ vVd w → vget t c i = vget r c i) ∧
         (t.core c).pc = (loopNext k k.pc).pc ∧ (t.core c).sreg = k.sreg ∧ (t.core c).preg = k.preg ∧
         (t.core c).run = .running ∧ t.locals = r.locals ∧ t.gddr = r.gddr ∧ (fits → t.regs = r.regs) ∧
         t.queues = r.queues ∧ ∀ d, d ≠ c → t.core d = r.core d ∧ t.unit d = r.unit d
     Issues r c w o → unitIdle (s.unit c) .ve = true →
     (o = .vadd → vAux w % 2 = 0 → put (laneReg w va vb 0#8192 (fun i => arithLane 0 f (lane b va i) (lane b vb i) (e4m3Nan w (lane b va i) (lane b vb i)) none))) ∧
     (o = .vsub → vAux w % 2 = 0 → put (laneReg w va vb 0#8192 (fun i => arithLane 1 f (lane b va i) (lane b vb i) (e4m3Nan w (lane b va i) (lane b vb i)) none))) ∧
     (o = .vmul → put (laneReg w va vb 0#8192 (fun i => arithLane 2 f (lane b va i) (lane b vb i) (e4m3Nan w (lane b va i) (lane b vb i)) none))) ∧
     (o = .vfma → vAux w % 2 = 0 →
       put (laneReg w va vb vc (fun i => fmaLane f (lane b va i) (lane b vb i) (lane b vc i)
         (e4m3Nan w (lane b va i) (lane b vb i)) none))) ∧
     (o = .vmax → put (laneReg w va vb 0#8192 (fun i => maxLane true f (lane b va i) (lane b vb i)
       (e4m3Nan w (lane b va i) (lane b vb i))))) ∧
     (o = .vmin → put (laneReg w va vb 0#8192 (fun i => maxLane false f (lane b va i) (lane b vb i)
       (e4m3Nan w (lane b va i) (lane b vb i))))) ∧
     (o = .vcvt → put (cvtReg w va vd)) ∧
     (o = .vdeq → put (deqReg r c e)) ∧
     (o = .vhad → put (hadReg (hadSize w) (hadShift w) va)) ∧
     (o = .vfix → put (fixReg w va vd (sext 8 (k.sget (vSa w)).toNat))) ∧
     (o = .vaddx → put (ofLanes 64 ((List.range 128).map (fun i =>
       (addFx (BitVec.ofNat 64 (lane 64 va i)) (BitVec.ofNat 64 (lane 64 vb i))).toNat)))) ∧
     (o = .vsel → put (ofLanes b ((List.range (fmtLanes f)).map (fun i =>
       if selLane f (lane b vc i) then lane b va i else lane b vb i)))) ∧
     (o = .vbcast → put (ofLanes b (List.replicate (fmtLanes f) (k.sget (vSa w)).toNat)))) ∧
  (∀ (c : CoreId) (us : List Upset) (s : State) (w : W128),
     let r := strike s us
     let k := r.core c
     let va := vget r c (vVa w)
     let f := vFmt w
     let x := lane (fmtBits f) va (fld w 64 11)
     unitIdle (s.unit c) .ve = true →
     (Issues r c w .vred → ∃ t, exec (.vred c true us) s = .next t ∧
       vget t c (vVd w) = BitVec.ofNat 8192 (vredVal f va) ∧ (∀ i, i ≠ vVd w → vget t c i = vget r c i) ∧
       (t.core c).sreg = (k.sset (vSd w) (BitVec.ofNat 64 (vredVal f va))).sreg ∧
       (t.core c).pc = (loopNext k k.pc).pc ∧ t.locals = r.locals ∧ t.regs = r.regs) ∧
     (Issues r c w .vmovs → ∃ t, exec (.vmovs c true us) s = .next t ∧ (t.core c).vreg = k.vreg ∧
       (t.core c).sreg = (k.sset (vSd w) (BitVec.ofNat 64
         (if f = 6 ∨ f = 7 then ofInt 64 (sext (fmtBits f) x) else x))).sreg ∧
       (t.core c).pc = (loopNext k k.pc).pc ∧ t.locals = r.locals ∧ t.regs = r.regs))

/-- The vector operations that touch the scratchpad, run in the command that issues them on an idle vector engine, at an
aligned address below 16 MiB in banks that are on: VLD fills VD from 1,024 bytes; VST writes the 1,024 bytes
of VA; VCBLD fills its codebook slot from an accepted record of 576 bytes; VHIST adds the lanes' bins to 64 counts. Bytes
outside the ones named keep their values.

Rules: R40, R97, R142, R143. Choices of the model: log entries 2, 29, 33. -/
def Obligations.VectorMemoryResult : Prop :=
  ∀ (c : CoreId) (us : List Upset) (s : State) (w : W128),
    let r := strike s us
    let k := r.core c
    let a := (k.sget (vSa w) + fImm w).toNat
    let h := (k.sget (vSa w) + BitVec.ofNat 64 (qOfs w)).toNat
    let bytes (n : Nat) : List Byte := (List.range n).map (fun i => (r.loc c).sp.get (a + i))
    unitIdle (s.unit c) .ve = true → MemOk r →
    (Issues r c w .vld → a % 1024 = 0 → a + 1024 ≤ 0x1000000 → SpFree r c a 1024 →
      ∃ t, exec (.vld c true us) s = .next t ∧ vget t c (vVd w) = vregOf (bytes 1024) ∧
        (∀ i, i ≠ vVd w → vget t c i = vget r c i) ∧ (t.core c).pc = (loopNext k k.pc).pc ∧ (t.loc c).sp = (r.loc c).sp) ∧
    (Issues r c w .vst → a % 1024 = 0 → a + 1024 ≤ 0x1000000 → SpFree r c a 1024 →
      ∃ t, exec (.vst c true us) s = .next t ∧ (t.core c).vreg = k.vreg ∧ (t.core c).pc = (loopNext k k.pc).pc ∧
        ∀ x, (t.loc c).sp.get x =
          if a ≤ x ∧ x < a + 1024 then BitVec.ofNat 8 ((vget r c (vVa w)).toNat / 2 ^ (8 * (x - a))) else (r.loc c).sp.get x) ∧
    (Issues r c w .vcbld → a % 64 = 0 → a + 576 ≤ 0x1000000 → SpFree r c a 576 →
      ∀ slot, slotOfRecord (bytes 576) = some slot →
      ∃ t, exec (.vcbld c true us) s = .next t ∧ cbGet t c (vAux w) = slot ∧
        (∀ i, i % 16 ≠ vAux w % 16 → cbGet t c i = cbGet r c i) ∧ (t.core c).pc = (loopNext k k.pc).pc ∧
        (t.loc c).sp = (r.loc c).sp) ∧
    (Issues r c w .vhist → h % 256 = 0 → h + 256 ≤ 0x1000000 → SpFree r c h 256 →
      ∃ t, exec (.vhist c true us) s = .next t ∧ (t.core c).vreg = k.vreg ∧ (t.core c).pc = (loopNext k k.pc).pc ∧
        (∀ b, b < 64 → leNat ((List.range 4).map (fun i => (t.loc c).sp.get (h + 4 * b + i))) =
          min (2 ^ 32 - 1) (leNat ((List.range 4).map (fun i => (r.loc c).sp.get (h + 4 * b + i))) +
            ((List.range (if fld w 96 10 = 0 then fmtLanes (vFmt w) else fld w 96 10)).filter (fun i =>
              histBin (vFmt w) (lane (fmtBits (vFmt w)) (vget r c (vVa w)) i) (sext 8 (fld w 88 8)) = b)).length)) ∧
        ∀ x, x < h ∨ h + 256 ≤ x → (t.loc c).sp.get x = (r.loc c).sp.get x)

/-- VQUANT quantises VA, group by group with the exponent entries at its address: VD's named part takes the codes, the
entries are written back, and the counter set counts 256 elements and what saturated, flushed to zero or was not finite, each counter
stopping at its largest value, and no other set counts; VSTE writes VD from VA, VB and the entries and changes
no memory. Both with entries aligned, below 16 MiB and in banks that are on.

Rules: R99, R109, R110, R111, R112, R113, R115, R118, R135. Choices of the model: log entries 29, 33. -/
def Obligations.VectorQuantiseResult : Prop :=
  ∀ (c : CoreId) (us : List Upset) (s : State) (w : W128),
    let r := strike s us
    let k := r.core c
    let h := (k.sget (vSa w) + BitVec.ofNat 64 (qOfs w)).toNat
    let n := 256 / quantGsz w
    let es := entries ((List.range (2 * n)).map (fun i => (r.loc c).sp.get (h + i)))
    let f := vFmt2 w
    let z := if qZpq w then qZp w else 0
    let xs := (lanes 0 (vget r c (vVa w))).map (fun x => val32 (BitVec.ofNat 32 x))
    let gs := (List.range n).map (fun i =>
      quantGroup f (codeLevels f (cbGet r c (vAux w + entCb (getD es i 0)))) ((xs.drop (quantGsz w * i)).take (quantGsz w))
        (getD es i 0) z (qEmode w) (bit (r.rd (coreBase c + 0x3000)) 0))
    let len := 256 * fmtBits f / 8
    let sum (p : QGroup → Nat) : Nat := gs.foldl (fun a q => a + p q) 0
    let up (x : W64) (m : Nat) : W64 := BitVec.ofNat 64 (min (2 ^ 64 - 1) (x.toNat + m))
    unitIdle (s.unit c) .ve = true → MemOk r → h % 16 = 0 → h + 2 * n ≤ 0x1000000 → SpFree r c h (2 * n) →
    (Issues r c w .vquant → ∃ t, exec (.vquant c true us) s = .next t ∧
      vget t c (vVd w) = putBytes (vget r c (vVd w)) (qPlace w * len) len (lanesNat (fmtBits f) (gs.flatMap (·.codes))) ∧
      (∀ i, i ≠ vVd w → vget t c i = vget r c i) ∧ (t.core c).pc = (loopNext k k.pc).pc ∧
      (∀ x, x < h ∨ h + 2 * n ≤ x → (t.loc c).sp.get x = (r.loc c).sp.get x) ∧
      (∀ i, i < 2 * n → (t.loc c).sp.get (h + i) = getD (gs.flatMap (fun q => leBytes 2 q.entry)) i 0#8) ∧
      (∀ i : Fin 16, i.val = qCset w →
        (t.loc c).sets[i] = { elem := up (r.loc c).sets[i].elem 256, sat := up (r.loc c).sets[i].sat (sum (·.sat))
                              ufl := up (r.loc c).sets[i].ufl (sum (·.ufl)), nonfin := up (r.loc c).sets[i].nonfin (sum (·.nonfin)) }) ∧
      (∀ i : Fin 16, i.val ≠ qCset w → (t.loc c).sets[i] = (r.loc c).sets[i]) ∧
      (t.loc c).guards = (r.loc c).guards) ∧
    (Issues r c w .vste → ∃ t, exec (.vste c true us) s = .next t ∧
      vget t c (vVd w) = ofLanes 32 ((List.range 256).map (fun i =>
        (steOne f (codeLevels f (cbGet r c (vAux w + entCb (getD es (i / quantGsz w) 0))))
          (BitVec.ofNat 32 (lane 32 (vget r c (vVa w)) i)) (BitVec.ofNat 32 (lane 32 (vget r c (vVb w)) i))
          (entE (getD es (i / quantGsz w) 0)) z (qOut w)).toNat)) ∧
      (∀ i, i ≠ vVd w → vget t c i = vget r c i) ∧ (t.core c).pc = (loopNext k k.pc).pc ∧ (t.loc c).sp = (r.loc c).sp)

/-! ### Core instructions: synchronisation -/

/-- SET gives a semaphore VALUE. WAIT on a semaphore that holds at least VALUE subtracts VALUE and writes 1 to PT; on one
that holds less it blocks issue, and nothing else changes. FENCE completes where the units it names, and with FAB the
fabric queue, hold nothing, and blocks otherwise. SLOT_WAITF and SLOT_WAITE complete with 1 in PT where the guard is FILLED and
DRAINED, and block otherwise.

Rules: R45, R51, R52, R53, R227. Choices of the model: log entries 9, 21. -/
def Obligations.BlockingSyncResult : Prop :=
  ∀ (c : CoreId) (us : List Upset) (s : State) (w : W128),
    let r := strike s us
    let k : Core := { r.core c with lastMu0 := none }
    let u := r.unit c
    let go (t : State) (k' : Core) : Out :=
      .next ((t.setUnit c { u with told := clrBit u.told 5 }).setCore c (loopNext k' k.pc))
    let block (b : Blocked) : Out := .next (r.setCore c { k with blocked := some b })
    let l := r.loc c
    let met : Prop := (∀ x ∈ [(0, UnitSel.mu0), (1, .mu1), (2, .ve), (3, .dma)],
      (syUnits w).testBit x.1 = true → unitIdle u x.2 = true) ∧ (syFab w = true → unitIdle u .fab = true)
    (∀ i : Fin 64, i.val = sySem w →
      (Issues r c w .set → exec (.set c us) s =
        .next ((r.setLoc c { l with sems := l.sems.set i (BitVec.ofNat 16 (syValue w)) }).setCore c (loopNext k k.pc))) ∧
      (Issues r c w .wait → syValue w ≤ (l.sems[i]).toNat → exec (.wait c us) s =
        go (r.setLoc c { l with sems := l.sems.set i (l.sems[i] - BitVec.ofNat 16 (syValue w)) }) (k.pset (syPt w) true)) ∧
      (Issues r c w .wait → (l.sems[i]).toNat < syValue w → exec (.wait c us) s =
        block (.wait (sySem w) (syValue w) (syPt w)))) ∧
    (Issues r c w .fence → met → exec (.fence c us) s = go r k) ∧
    (Issues r c w .fence → ¬ met → exec (.fence c us) s = block (.fence (syUnits w) (syFab w))) ∧
    (Issues r c w .slotWaitf → guardFilled r c (sySlot w) = true →
      exec (.slotWaitf c us) s = go r (k.pset (syPt w) true)) ∧
    (Issues r c w .slotWaitf → guardFilled r c (sySlot w) = false →
      exec (.slotWaitf c us) s = block (.slot (sySlot w) true (syPt w))) ∧
    (Issues r c w .slotWaite → guardFilled r c (sySlot w) = false →
      exec (.slotWaite c us) s = go r (k.pset (syPt w) true)) ∧
    (Issues r c w .slotWaite → guardFilled r c (sySlot w) = true →
      exec (.slotWaite c us) s = block (.slot (sySlot w) false (syPt w)))

/-- SLOT_FILL and SLOT_DRAIN, on an empty fabric queue in the command that issues them: the guard named takes the state,
every other guard of the core and of every other core keeps its own, and the PC goes on.

Rules: R45, R46, R227. Choices of the model: log entry 33. -/
def Obligations.SlotGuardResult : Prop :=
  ∀ (c : CoreId) (us : List Upset) (s : State) (w : W128) (f : Bool),
    let r := strike s us
    let k := r.core c
    Issues r c w (if f then .slotFill else .slotDrain) → unitIdle (r.unit c) .fab = true → (r.unit c).held = [] →
    ∃ t, exec (if f then .slotFill c true us else .slotDrain c true us) s = .next t ∧
      guardFilled t c (sySlot w) = f ∧ (∀ g, g ≠ sySlot w → guardFilled t c g = guardFilled r c g) ∧
      (t.core c).pc = (loopNext k k.pc).pc ∧ (t.core c).sreg = k.sreg ∧ (t.core c).preg = k.preg ∧
      (t.loc c).sp = (r.loc c).sp ∧ (t.loc c).sems = (r.loc c).sems ∧
      (∀ d, d ≠ c → t.loc d = r.loc d ∧ t.core d = r.core d ∧ t.unit d = r.unit d) ∧ t.gddr = r.gddr ∧ t.queues = r.queues

/-- The SIGNAL at the head of a core's fabric queue leaves it; TCORE 0x3F names the issuing core. It is applied to a target of the job's
core set that the job holds and that runs, drains or is HALTED with a status of its own, the count saturating; dropped with
SEM_REMOTE_REJECT where the target is in no core set of the job; held where the target is being saved or restored, is HALTED with its job's
image in the bivouac (0xF009 or 0xF00A), or is lent.

Rules: R45, R52, R54. Choices of the model: log entry 25. -/
def Obligations.SignalResult : Prop :=
  ∀ (c : CoreId) (s : State) (e : Entry) (rest : List Entry),
    let w := e.word
    let dst := if syTcore w = 0x3F then c.val else syTcore w
    let popped := popHead s c .fab rest
    qOf s c .fab = e :: rest → decodeOp e.pc e.word = some .signal → canStart s c = true → (s.unit c).fab = none →
    (s.unit c).held = [] → (s.core c).run = .running → (s.core c).blocked = none →
    (∀ (j : Nat) (d : CoreId) (i : Fin 64), s.jobOf c = some j → d.val = dst → i.val = sySem w →
      bit (s.heldBy j) d.val = true → s.domainOn d.val = true →
      ((s.core d).run = .running ∧ (s.core d).blocked = none) ∨
        (∃ y, (s.core d).run = .draining y ∧ drainDone (s.unit d) y = false) ∨
        ((s.core d).run = .halted ∧ (s.core d).status ≠ 0xF009#16 ∧ (s.core d).status ≠ 0xF00A#16) →
      ∃ t, exec (.semaphoreSignalApply c) s = .next t ∧
        ((t.loc d).sems[i]).toNat = min 0xFFFF (((s.loc d).sems[i]).toNat + syValue w) ∧
        (∀ m : Fin 64, m ≠ i → (t.loc d).sems[m] = (s.loc d).sems[m]) ∧ (∀ x, x ≠ d → t.loc x = s.loc x) ∧
        t.units = popped.units ∧ t.cores = s.cores ∧ t.gddr = s.gddr) ∧
    (∀ j, s.jobOf c = some j → s.inSet j dst = false ∨ s.domainOn dst = false ∨ 48 ≤ dst →
      exec (.semaphoreSignalApply c) s = .next (popped.coreEv c 0x1006 e.pc 0)) ∧
    (∀ (j : Nat) (d : CoreId), s.jobOf c = some j → d.val = dst → s.inSet j d.val = true → s.domainOn d.val = true →
      (∃ y, (s.core d).run = .saving y) ∨ (∃ y, (s.core d).run = .restoring y) ∨
        ((s.core d).run = .halted ∧ ((s.core d).status = 0xF009#16 ∨ (s.core d).status = 0xF00A#16)) ∨
        bit (s.heldBy j) d.val = false →
      exec (.semaphoreSignalApply c) s = .next (popped.setUnit c { popped.unit c with
        held := [{ target := dst, sem := sySem w, value := syValue w, pc := e.pc }] }))

/-- HALT_DRAIN_COMPLETE: a core that drains towards a halt and whose units hold nothing is HALTED with the halt's status;
with a unit still at work nothing changes. SEM_TIMEOUT_EXPIRY of a WAIT with PT not 0 writes 0 to PT, leaves the semaphore
and goes on; with PT 0 it halts the core by a fault with status 0xF003. SLOT_TIMEOUT_EXPIRY of the scalar unit's wait, not fatal
and with PT not 0, writes 0 to PT, leaves the guard and goes on. A timeout of 0 disables.

Rules: R53, R57, R229. Choices of the model: log entries 8, 10, 20, 34. -/
def Obligations.DrainEndsAndWaitsTimeOut : Prop :=
  ∀ (c : CoreId) (s : State),
    let k := s.core c
    s.power.held = false →
    (∀ st, k.run = .draining (.halt st) → drained (s.unit c) = true →
      ∃ t, exec (.haltDrainComplete c) s = .next t ∧ (t.core c).run = .halted ∧ (t.core c).status = st ∧
        (t.core c).pc = k.pc ∧ (t.core c).sreg = k.sreg ∧ (t.core c).vreg = k.vreg ∧ t.locals = s.locals ∧
        ∀ e, e ≠ c → t.core e = s.core e) ∧
    (∀ st, k.run = .draining (.halt st) → drained (s.unit c) = false → exec (.haltDrainComplete c) s = .next s) ∧
    (k.run = .running → Flowing s c → ∀ sem v pt, k.blocked = some (.wait sem v pt) → fld (s.rd (coreBase c + 0x38)) 0 32 ≠ 0 →
      (0 < pt → pt < 8 → ∃ t, exec (.semTimeoutExpiry c) s = .next t ∧ (t.core c).pget pt = false ∧
        (t.core c).blocked = none ∧ (t.core c).pc = (loopNext k k.pc).pc ∧ (t.core c).sreg = k.sreg ∧ t.locals = s.locals) ∧
      (pt = 0 → ∃ t, exec (.semTimeoutExpiry c) s = .next t ∧ Faulted s t c 0xF003#16 k.pc 0x1004)) ∧
    (fld (s.rd (coreBase c + 0x38)) 0 32 = 0 → exec (.semTimeoutExpiry c) s = .next s) ∧
    (k.run = .running → Flowing s c → s.domainOn c.val = true → fld (s.rd (coreBase c + 0x4008)) 0 32 ≠ 0 →
      bit (s.rd (coreBase c + 0x4000)) 0 = false → bit (s.unit c).told 5 = false →
      ∀ g f pt, k.blocked = some (.slot g f pt) → guardFilled s c g = !f → 0 < pt → pt < 8 →
      ∃ t, exec (.slotTimeoutExpiry c none) s = .next t ∧ (t.core c).pget pt = false ∧ (t.core c).blocked = none ∧
        (t.core c).pc = (loopNext k k.pc).pc ∧ t.locals = s.locals)

/-! ### Units -/

/-- UNIT_INSTR_START starts the head of a queue. A VBCAST, VADDX or VSEL at the head of the vector queue takes effect on VD and enters the
started operations; a VMOVS enters them with the value that SD waits for, and writes no register. A DISP at the head of the fabric
queue enters the requests of its dispatch unit; a QOP of the core's own job and an enabled queue is started and waits for its effect.
UNIT_INSTR_COMPLETE ends the oldest started vector operation, which writes the scalar register it still had to write; on the fabric unit
it ends a started QOP STAT, which writes SD, and the SLOT_FILL or SLOT_DRAIN at the head of the queue takes effect on its guard.

PASS_START takes the pass at the head of a matrix unit's queue once its guards allow it and no started pass of the unit has
another mode: it leaves the queue and enters the unit's started passes. A pair starts as one: both passes leave their
queues and enter their units together. PASS_START writes no scratchpad byte, no guard and no byte of module memory.

Rules: R40, R42, R43, R45, R47, R48, R49, R68, R95, R131, R212, R227. Choices of the model: log entries 22, 23, 28, 29, 31, 33. -/
def Obligations.UnitEventsResult : Prop :=
  (∀ (c : CoreId) (us : List Upset) (s : State),
     let r := strike s us
     (r.core c).run = .running → (r.core c).blocked = none → r.power.held = false →
     (∀ e rest, qOf r c .ve = e :: rest → canStart r c = true →
       let w := e.word
       let b := fmtBits (vFmt w)
       let va := vget r c (vVa w)
       let vb := vget r c (vVb w)
       let vc := vget r c (vVc w)
       let starts (o : Op) (v : VReg) : Prop := decodeOp e.pc w = some o → ∃ t, exec (.unitInstrStart c .ve us) s = .next t ∧
         qOf t c .ve = rest ∧ (t.unit c).ve = (r.unit c).ve ++ [{ pc := e.pc, sd := none }] ∧ vget t c (vVd w) = v ∧
         (∀ i, i ≠ vVd w → vget t c i = vget r c i) ∧ (t.core c).pc = (r.core c).pc ∧ (t.core c).sreg = (r.core c).sreg ∧
         t.locals = r.locals
       starts .vbcast (ofLanes b (List.replicate (fmtLanes (vFmt w)) (snapGet e.s (vSa w)).toNat)) ∧
       starts .vaddx (ofLanes 64 ((List.range 128).map (fun i =>
         (addFx (BitVec.ofNat 64 (lane 64 va i)) (BitVec.ofNat 64 (lane 64 vb i))).toNat))) ∧
       starts .vsel (ofLanes b ((List.range (fmtLanes (vFmt w))).map (fun i =>
         if selLane (vFmt w) (lane b vc i) then lane b va i else lane b vb i))) ∧
       (decodeOp e.pc w = some .vmovs → vSd w ≠ 0 →
         let x := lane b va (fld w 64 11)
         ∃ t, exec (.unitInstrStart c .ve us) s = .next t ∧ qOf t c .ve = rest ∧ t.cores = r.cores ∧ t.locals = r.locals ∧
           (t.unit c).ve = (r.unit c).ve ++ [{ pc := e.pc, sd := some (vSd w, BitVec.ofNat 64
             (if vFmt w = 6 ∨ vFmt w = 7 then ofInt 64 (sext b x) else x)) }])) ∧
     (∀ e rest, qOf r c .fab = e :: rest → canStart r c = true → (r.unit c).fab = none → (r.unit c).held = [] →
       (fClass e.word = 6 → ∃ t, exec (.unitInstrStart c .fab us) s = .next t ∧ qOf t c .fab = rest ∧
         (t.unit c).fab = some (.disp e) ∧ t.cores = r.cores ∧ t.locals = r.locals ∧ (t.dus[duOf c]).entries = (r.dus[duOf c]).entries ∧
         (t.dus[duOf c]).waiting = (r.dus[duOf c]).waiting ++ [{ core := c, pc := e.pc, word := e.word, s := e.s }]) ∧
       (fClass e.word = 4 → 2 ≤ fOp e.word → ∀ q : QId, qopQ e.word = q.val → qOn r q = true → r.jobOf c = some (qJob r q) →
         ∃ t, exec (.unitInstrStart c .fab us) s = .next t ∧ qOf t c .fab = rest ∧ (t.unit c).fab = some (.qop e 0) ∧
           t.queues = r.queues ∧ t.cores = r.cores ∧ t.locals = r.locals) ∧
       (∀ f : Bool, decodeOp e.pc e.word = some (if f then .slotFill else .slotDrain) →
         ∃ t, exec (.unitInstrComplete c .fab us) s = .next t ∧ qOf t c .fab = rest ∧ guardFilled t c (sySlot e.word) = f ∧
           (∀ g, g ≠ sySlot e.word → guardFilled t c g = guardFilled r c g) ∧ t.cores = r.cores ∧ (t.loc c).sp = (r.loc c).sp)) ∧
     (∀ e n (q : QId), (r.unit c).fab = some (.qop e n) → fOp e.word = 3 → qopQ e.word = q.val →
       ∃ t, exec (.unitInstrComplete c .fab us) s = .next t ∧ (t.unit c).fab = none ∧ t.queues = r.queues ∧ t.locals = r.locals ∧
         (t.core c).sreg = ((r.core c).sset (qopSd e.word) (qStatWord r q)).sreg ∧ (t.core c).pc = (r.core c).pc) ∧
     (∀ x rest, (r.unit c).ve = x :: rest →
       exec (.unitInstrComplete c .ve us) s = .next (
         let q := r.setUnit c { r.unit c with ve := rest }
         match x.sd with
         | none => q
         | some (i, v) => q.setCore c { (r.core c).sset i v with pendSd := (r.core c).pendSd.erase i }))) ∧
  (∀ (c : CoreId) (u : MuId) (us : List Upset) (s : State) (e : Entry) (rest : List Entry),
     let r := strike s us
     let still (t : State) : Prop := (t.loc c).sp = (r.loc c).sp ∧ (t.loc c).guards = (r.loc c).guards ∧ t.gddr = r.gddr ∧
       t.cores = r.cores ∧ ∀ d, d ≠ c → t.unit d = r.unit d ∧ t.loc d = r.loc d
     (r.core c).run = .running → (r.core c).blocked = none → canStart r c = true → qOf r c (muSel u) = e :: rest →
     (r.core c).lastMu0 = none →
     (e.mate = false → passReady r c u e = true → ∃ (t : State) (x : PassRun), exec (.passStart c u us) s = .next t ∧ qOf t c (muSel u) = rest ∧
       ((t.unit c).mu[u]).runs = ((r.unit c).mu[u]).runs ++ [x] ∧ x.entry = e ∧ still t) ∧
     (∀ e1 rest1, u = 0 → e.mate = true → passReady r c u e = true → qOf r c .mu1 = e1 :: rest1 →
       e1.mate = true → passReady r c 1 e1 = true → ∃ (t : State) (x y : PassRun), exec (.passStart c u us) s = .next t ∧ qOf t c .mu0 = rest ∧ qOf t c .mu1 = rest1 ∧
         ((t.unit c).mu[0]).runs = ((r.unit c).mu[0]).runs ++ [x] ∧ x.entry = e ∧
         ((t.unit c).mu[1]).runs = ((r.unit c).mu[1]).runs ++ [y] ∧ y.entry = e1 ∧ still t) ∧
     (passReady r c u e = false → exec (.passStart c u us) s = .next r))

/-- PASS_COMPLETE of the oldest started pass of a matrix unit: where no error strikes it and the bytes it drains from and to
are free, the output bytes are written, the guards it releases become DRAINED, then the guard of its C slot FILLED, and the pass
leaves the unit. A pass whose check fails with retry off, and a pass that could not run, write no byte.

Rules: R67, R79, R86, R89, R227. Choices of the model: log entry 28. -/
def Obligations.PassCompleteResult : Prop :=
  ∀ (c : CoreId) (u : MuId) (us : List Upset) (s : State) (x : PassRun) (rest : List PassRun) (f : CheckFault),
    let r := strike s us
    let w := x.entry.word
    let out := passOut x (r.loc c).sp
    let ends (p : State → Prop) : Prop :=
      ∃ t, exec (.passComplete c u f us) s = .next t ∧ ((t.unit c).mu[u]).runs = rest ∧ t.cores = r.cores ∧ t.gddr = r.gddr ∧ p t
    (r.core c).run = .running → (r.core c).blocked = none → r.power.held = false → ((r.unit c).mu[u]).runs = x :: rest → MemOk r →
    (x.ending = .normal → passChecks r c u x f.first = none → (∀ o ∈ drainReads w x.ppb, SpFree r c o.1 o.2) →
      (∀ o ∈ out, SpFree r c o.1 o.2.length) → out.Pairwise (fun a b => a.1 + a.2.length ≤ b.1) →
      ends (fun t =>
        (∀ o ∈ out, ∀ i, (h : i < o.2.length) → (t.loc c).sp.get (o.1 + i) = o.2[i]) ∧
        (∀ a, (∀ o ∈ out, a < o.1 ∨ o.1 + o.2.length ≤ a) → (t.loc c).sp.get a = (r.loc c).sp.get a) ∧
        (∀ g, x.slotc = some g → g < 4096 → guardFilled t c g = true) ∧
        (x.slotc ≠ some (mSlota w) → mArel w = true → guardFilled t c (mSlota w) = false) ∧
        (x.slotc ≠ some (mSlotb w) → mBrel w = true → guardFilled t c (mSlotb w) = false))) ∧
    (∀ pl, x.ending = .normal → passChecks r c u x f.first = some pl → bit (r.rd (muBase c u)) 1 = false →
      ends (fun t => (t.loc c).sp = (r.loc c).sp)) ∧
    (x.ending ≠ .normal → ends (fun t => (t.loc c).sp = (r.loc c).sp))

/-! ### Starting, stopping and saving a core -/

/-- START of a HALTED core without a saved image makes it RUNNING at its PC, and STEP does so for a single instruction; with
a saved image of its job they begin a restore. STOP of a core that runs, blocked or not, drains it towards status 0xF007: with
work outstanding the core is DRAINING, with none it is HALTED; a blocking instruction is given up. YIELD_REQ sets its bit. On a
core that is not HALTED START and STEP change nothing, and on a HALTED one STOP does not.

Of a HALTED core: IMEM_DATA_LO keeps the low half of a word; IMEM_DATA_HI stores the whole word at IMEM_ADDR, without
error marks, and moves the address on; a read of IMEM_DATA_HI returns the high half there and moves the address on; a
write of MU_SPARE by the firmware stores EN, and ROW where it is 0 to 8, and becomes the unit's repair record in the flash (log entry 64), with
every other byte of the flash as it was. Of a core that is not HALTED the writes only raise their event.

Rules: R31, R55, R57, R59, R60, R87, R88, R361. Choices of the model: log entries 14, 16, 64. -/
def Obligations.CoreControlResult : Prop :=
  (∀ (c : CoreId) (s : State),
     let k := s.core c
     let u := s.unit c
     let begun (i : Instr) (run : Run) (stepping : Bool) : Prop :=
       ∃ t, exec i s = .next t ∧ (t.core c).run = run ∧ (t.core c).stepping = stepping ∧ (t.core c).pc = k.pc ∧
         (t.core c).sreg = k.sreg ∧ (t.core c).vreg = k.vreg ∧ (t.core c).status = k.status ∧ t.units = s.units ∧
         t.locals = s.locals ∧ t.regs = s.regs ∧ ∀ d, d ≠ c → t.core d = s.core d
     s.domainOn c.val = true → s.power.recovery = false →
     (k.run = .halted → k.status ≠ 0xF009#16 → k.status ≠ 0xF00A#16 →
       begun (.coreStart c) .running false ∧ begun (.coreStep c) .running true) ∧
     (∀ j sv, k.run = .halted → k.status = 0xF009#16 ∨ k.status = 0xF00A#16 → s.jobOf c = some j →
       tget s.jobs.saved (c.val * 16 + j) = some sv →
       begun (.coreStart c) (.restoring false) k.stepping ∧ begun (.coreStep c) (.restoring true) k.stepping) ∧
     (k.run ≠ .halted → exec (.coreStart c) s = .next s ∧ exec (.coreStep c) s = .next s) ∧
     (k.run = .running → drained u = false → exec (.coreStop c) s =
       .next ((s.setUnit c { u with told := clrBit u.told 5 }).setCore c
         { k with run := .draining .stop, blocked := none, stopReq := false, stepping := false })) ∧
     (k.run = .running → drained u = true → ∃ t, exec (.coreStop c) s = .next t ∧ (t.core c).run = .halted ∧
       (t.core c).status = 0xF007#16 ∧ (t.core c).pc = k.pc ∧ (t.core c).sreg = k.sreg ∧ (t.core c).vreg = k.vreg ∧
       t.locals = s.locals ∧ t.gddr = s.gddr ∧ ∀ d, d ≠ c → t.core d = s.core d) ∧
     (k.run = .halted → exec (.coreStop c) s = .next s) ∧
     exec (.yieldReq c) s = .next (s.wr (coreBase c + 8) (setBit (s.rd (coreBase c + 8)) 3))) ∧
  (∀ (c : CoreId) (v : W64) (s : State),
     let k := s.core c
     let a := coreBase c + 0x40
     let i := fld (s.rd a) 0 15
     s.domainOn c.val = true → s.power.recovery = false →
     (k.run = .halted → exec (.imemDataLoWrite c v) s = .next (s.wr (coreBase c + 0x48) v)) ∧
     (k.run = .halted → ∃ t, exec (.imemDataHiWrite c v) s = .next t ∧
       (t.core c).word i = v ++ s.rd (coreBase c + 0x48) ∧ (∀ j, j ≠ i → (t.core c).word j = k.word j) ∧
       tget (t.core c).imemErr i = none ∧ t.rd a = BitVec.ofNat 64 ((i + 1) % 32768) ∧
       (t.core c).pc = k.pc ∧ t.locals = s.locals ∧ ∀ d, d ≠ c → t.core d = s.core d) ∧
     (∃ t, exec (.imemDataHiRead c) s = .next t ∧
       t.host.out = s.host.out ++ [.reg (BitVec.ofNat 64 (fld (k.word i) 64 64))] ∧
       t.rd a = BitVec.ofNat 64 ((i + 1) % 32768) ∧ t.cores = s.cores) ∧
     (∀ u, k.run = .halted → ∃ t, exec (.muSpareWrite c u v) s = .next t ∧
       bit (t.rd (muBase c u + 0x10)) 0 = bit v 0 ∧
       fld (t.rd (muBase c u + 0x10)) 1 4 = (if fld v 1 4 ≤ 8 then fld v 1 4 else fld (s.rd (muBase c u + 0x10)) 1 4) ∧
       (∀ x, x ≠ muBase c u + 0x10 → t.rd x = s.rd x) ∧ t.cores = s.cores ∧ t.units = s.units ∧ t.locals = s.locals ∧
       (Memory.wf s.sec.flash = true → t.sec.flash.get (repairAt c u) = 1#8 ∧
         (t.sec.flash.get (repairAt c u + 1)).toNat = fld (t.rd (muBase c u + 0x10)) 0 5 ∧
         ∀ x, x ≠ repairAt c u → x ≠ repairAt c u + 1 → t.sec.flash.get x = s.sec.flash.get x)) ∧
     (k.run ≠ .halted → exec (.imemDataLoWrite c v) s = .next (s.coreEv c 0x1009 k.pc 0) ∧
       exec (.imemDataHiWrite c v) s = .next (s.coreEv c 0x1009 k.pc 0) ∧
       ∀ u, exec (.muSpareWrite c u v) s = .next (muEv s c u 0x2005)))

/-- A save that completes leaves the core HALTED with status 0xF009 for an honoured YIELD and 0xF00A for a forced save, its unit
queues empty. Where the core's job has a bivouac slot for it, the image's first 128 KiB stand at the slot, and the core can be
restored from it.

A restore that completes makes the core RUNNING with the PC, the scalar registers, the semaphores and the guards of the image
in its slot, and the image is used up.

Rules: R55, R56, R230, R258, R361, R362. Choices of the model: log entry 24. -/
def Obligations.SaveAndRestoreResult : Prop :=
  (∀ (c : CoreId) (us : List Upset) (s : State) (d : Drain),
     let r := strike s us
     let mask := match d with | .yield _ m => m | _ => all64
     r.power.held = false → (r.core c).run = .saving d → (d = .forced ∨ ∃ pc m, d = .yield pc m) → r.jobs.victims = [] →
     (r.jobOf c = none → ∃ t, exec (.coreSaveComplete c us) s = .next t ∧ (t.core c).run = .halted ∧
       (t.core c).status = drainStatus d ∧ (∀ u, qOf t c u = []) ∧ (t.unit c).held = [] ∧ t.gddr = r.gddr) ∧
     (∀ j, r.jobOf c = some j → bivSlot r j c < bivSlots r j → bivReady r (bivAddr r j (bivSlot r j c)) = true →
       let a := bivAddr r j (bivSlot r j c)
       GddrFree r a 0x20000 →
       ∃ t, exec (.coreSaveComplete c us) s = .next t ∧ (t.core c).run = .halted ∧ (t.core c).status = drainStatus d ∧
         (∀ u, qOf t c u = []) ∧ (t.unit c).held = [] ∧ (tget t.jobs.saved (c.val * 16 + j)).isSome = true ∧
         (MemOk r → (fixedImage r c mask (drainStatus d)).length = 0x20000 →
           t.gddr.read a 0x20000 = fixedImage r c mask (drainStatus d)))) ∧
  (∀ (c : CoreId) (us : List Upset) (s : State) (stepping : Bool) (j : Nat) (sv : Saved),
     let r := strike s us
     let a := bivAddr r sv.job sv.slot
     let img := r.gddr.read a 0x20000
     r.power.held = false → (r.core c).run = .restoring stepping → (r.core c).stopReq = false → r.jobOf c = some j →
     tget r.jobs.saved (c.val * 16 + j) = some sv → sv.job = j → bivReady r a = true → GddrFree r a 0x20000 → sv.heldPcs = [] →
     ∃ t, exec (.coreRestoreComplete c us) s = .next t ∧ (t.core c).run = .running ∧ (t.core c).stepping = stepping ∧
       (t.core c).pc = leAt img 0x12500 8 ∧
       (∀ i : Fin 32, (t.core c).sreg[i] = BitVec.ofNat 64 (leAt img (0x12400 + 8 * i.val) 8)) ∧
       (∀ i : Fin 64, (t.loc c).sems[i] = BitVec.ofNat 16 (leAt img (0x12600 + 2 * i.val) 2)) ∧
       (t.loc c).guards = BitVec.ofNat 4096 (leAt img 0x12700 512) ∧ tget t.jobs.saved (c.val * 16 + j) = none ∧
       t.gddr = r.gddr ∧ ∀ d, d ≠ c → t.core d = r.core d ∧ t.loc d = r.loc d)

/-! ### Instruction memory and the scratchpad's commands -/

/-- VQ_CLR zeroes the counter sets it names and no other. A rewrite of a corrected lane clears its error mark. SP_CLEAR of a
HALTED core puts the regions it names that are not gecko-resident into the clear, and its completion zeroes them and no other
byte, with every bank on. SP_BANK_PWR moves the banks it names towards the state asked for; a bank that reaches OFF has lost its bytes, one that
reaches ON or RETAIN keeps them.

Rules: R118, R226, R233, R234, R235, R236. Choices of the model: log entries 2, 37. -/
def Obligations.ScratchpadCommandResult : Prop :=
  ∀ (c : CoreId) (v : W64) (s : State),
    let l := s.loc c
    s.domainOn c.val = true → s.power.recovery = false →
    (∃ t, exec (.vqClr c v) s = .next t ∧
      (∀ i : Fin 16, (t.loc c).sets[i] = if bit v i.val then {} else l.sets[i]) ∧ (t.loc c).sp = l.sp ∧ t.cores = s.cores) ∧
    (∀ a rest, l.fixes = a :: rest → tget l.spErr a = some false →
      ∃ t, exec (.spLaneRewrite c []) s = .next t ∧ tget (t.loc c).spErr a = none ∧ (t.loc c).sp = l.sp ∧
        (t.loc c).guards = l.guards ∧ a ∉ (t.loc c).fixes) ∧
    ((s.core c).run = .halted → l.clearing = none → exec (.spClear c v) s =
      .next (s.setLoc c { l with clearing := some (v &&& ~~~(s.rd (coreBase c + 0x4018))) })) ∧
    (∀ m, l.clearing = some m → (∀ b : Fin 64, l.bank[b] = .on) → ∃ t, exec (.spClearComplete c []) s = .next t ∧ (t.loc c).clearing = none ∧
      (∀ x, (t.loc c).sp.get x = if x < 0x1000000 ∧ bit m (x / 0x40000) = true then 0#8 else l.sp.get x) ∧
      (t.loc c).guards = l.guards ∧ t.cores = s.cores) ∧
    (∀ w : Fin 2, ∃ t, exec (.spBankPwr c w v) s = .next t ∧ (t.loc c).sp = l.sp ∧
      ∀ b : Fin 64, (t.loc c).bank[b] =
        if b.val / 32 ≠ w.val ∨ fld v (2 * (b.val % 32)) 2 = 3 then l.bank[b]
        else if (fld v (2 * (b.val % 32)) 2 = 0 ∧ l.bank[b] = .on) ∨ (fld v (2 * (b.val % 32)) 2 = 1 ∧ l.bank[b] = .retain) ∨
          (fld v (2 * (b.val % 32)) 2 = 2 ∧ l.bank[b] = .off) then l.bank[b]
        else .trans (BitVec.ofNat 2 (fld v (2 * (b.val % 32)) 2))) ∧
    (∀ b : Fin 64, ∃ t, exec (.bankTransitionComplete c b) s = .next t ∧
      (l.bank[b] = .trans 0#2 → (t.loc c).bank[b] = .on ∧ (t.loc c).sp = l.sp) ∧
      (l.bank[b] = .trans 1#2 → (t.loc c).bank[b] = .retain ∧ (t.loc c).sp = l.sp) ∧
      (l.bank[b] = .trans 2#2 → (t.loc c).bank[b] = .off ∧
        ∀ x, (t.loc c).sp.get x = if bankOf x = b.val then 0#8 else l.sp.get x))

/-! ### DMA -/

/-- A MODE 0 transfer of 64 aligned bytes within the scratchpad of its own core, started on an empty channel with both ends
free: it leaves the queue for its channel, the destination holds the source's bytes, and every other byte of every memory stays as it
was.

The oldest transfer of a channel, with all its requests made and answered, completes: it leaves the channel, the guard
it names with SFILL becomes FILLED, and no byte of memory changes. With a request still out nothing changes.

Rules: R41, R48, R227, R237, R239, R240, R241, R246. Choices of the model: log entries 8, 35. -/
def Obligations.DmaResult : Prop :=
  (∀ (c : CoreId) (us : List Upset) (hs : List HostReply) (s : State) (e : Entry) (rest : List Entry) (ch : Fin 4) (a b : Nat),
     let r := strike s us
     (∀ x ∈ r.host.reads, x.who ≠ .dma c ch) →
     RunsFree r c → canStart r c = true → MemOk r → qOf r c .dma = e :: rest → fClass e.word = 3 → xMode e.word = 0 → xLen e.word = 64 →
     xCh e.word = ch.val → xSfill e.word = false → (r.unit c).chan[ch] = [] →
     (snapGet e.s (xSsrc e.word)).toNat = 0x10000000000 + c.val * 0x1000000 + a →
     (snapGet e.s (xSdst e.word)).toNat = 0x10000000000 + c.val * 0x1000000 + b →
     a % 64 = 0 → b % 64 = 0 → a + 64 ≤ 0x1000000 → b + 64 ≤ 0x1000000 → SpFree r c a 64 → SpFree r c b 64 →
     ∃ t x, exec (.dmaTransferStart c us hs) s = .next t ∧ qOf t c .dma = rest ∧ (t.unit c).chan[ch] = [x] ∧
       x.pc = e.pc ∧ x.fail = none ∧ x.todo = [] ∧ x.writing = true ∧
       (∀ y, (t.loc c).sp.get y = if b ≤ y ∧ y < b + 64 then (r.loc c).sp.get (a + (y - b)) else (r.loc c).sp.get y) ∧
       (t.loc c).guards = (r.loc c).guards ∧ t.cores = r.cores ∧ t.gddr = r.gddr ∧ t.tier = r.tier ∧ t.sec = r.sec ∧
       ∀ d, d ≠ c → t.loc d = r.loc d) ∧
  (∀ (c : CoreId) (ch : Fin 4) (us : List Upset) (hs : List HostReply) (s : State) (x : DmaRun),
     let r := strike s us
     (hs = [] ∨ ∀ y ∈ r.host.reads, y.who ≠ .dma c ch) →
     r.power.held = false → RunsFree r c → (r.unit c).chan[ch] = [x] → x.todo = [] → x.writing = true → x.fail = none →
     (x.out = [] → x.cxl = 0 → x.hreads = 0 →
       ∃ t, exec (.dmaTransferComplete c ch us hs) s = .next t ∧ (t.unit c).chan[ch] = [] ∧
         (xSfill x.word = true → guardFilled t c (xSlot x.word) = true) ∧
         (∀ g, g ≠ xSlot x.word ∨ xSfill x.word = false → guardFilled t c g = guardFilled r c g) ∧
         (t.loc c).sp = (r.loc c).sp ∧ t.cores = r.cores ∧ t.gddr = r.gddr ∧ t.tier = r.tier ∧ t.sec = r.sec) ∧
     (x.out ≠ [] ∨ x.cxl ≠ 0 ∨ x.hreads ≠ 0 → exec (.dmaTransferComplete c ch us hs) s = .next r))

/-! ### Dispatch -/

/-- A dispatch unit that runs no request starts the next one, of those that no request set aside holds back; one whose cells have all left
waits for its effect. A ROUTE that passes its checks ends the run where its regions overlap,
and else leaves its outputs and its hit mask for its effect; a COMMIT or CANCEL of an open entry closes it; STAT only waits
for its effect. The effect of a request that has nothing to send, of the oldest one set aside or else of the one that runs, writes its outputs and its STATUS record and no other byte, writes SD for
STAT, and frees the fabric queue of the core.

Rules: R43, R154, R155, R156, R159, R165, R167, R172. Choices of the model: log entries 7, 30, 76. -/
def Obligations.DispatchRequestResult : Prop :=
  ∀ (u : DuId) (us : List Upset) (s : State),
    let r := strike s us
    let k := r.dus[u]
    r.domainOn (48 + u.val) = true →
    (∀ x, k.run = some x → k.outs = [] → exec (.dispatchRequestStart u us) s = .next r) ∧
    (∀ req, k.run = none → nextReq (freeReqs r k) = some req →
      let c := req.core
      let w := req.word
      let q := r.setDu u { k with waiting := k.waiting.erase req, rr := c.val % 24 }
      (∀ (q0 q'' : State) d0 scores, fOp w = 0 → readDpb q c (snapGet req.s (dispSp w)).toNat = (q0, some d0, false) →
        let d := dpbWithTile d0 (snapGet req.s (dispSa w)).toNat
        let q' := geckoRegions q0 u c (some d)
        routeCheck q' u c (dispTable w) (BitVec.ofNat 16 (dispMbtag w)) (some d) false = none →
        (dpbOverlaps (dpbRegions d) = true → exec (.dispatchRequestStart u us) s = .fault .dpbOverlap) ∧
        (dpbOverlaps (dpbRegions d) = false → readScores q' c d = (q'', scores, false) →
          let es := (List.range (dpbE d)).map (tableEntry q'' u (dispTable w))
          let cs := routeChoices (dpbCap d) (dpbNext d) (scores.map candidates) (dpbK d)
          ∃ t x, exec (.dispatchRequestStart u us) s = .next t ∧ (t.dus[u]).run = some x ∧ x.req = req ∧
            x.out = routeOutputs c d es scores cs ∧ x.statusAt = some (dpbStatus d) ∧ x.tent = dpbTent d ∧
            (∀ e : Fin 256, x.hits.getLsbD e.val = cs.any (fun y => y.e == some e.val)) ∧ t.cores = r.cores)) ∧
      (∀ e, fOp w = 1 ∨ fOp w = 2 → findEntry k c (dispTable w) (BitVec.ofNat 16 (dispMbtag w)) = some e →
        ∃ t x, exec (.dispatchRequestStart u us) s = .next t ∧ (t.dus[u]).run = some x ∧ x.req = req ∧ x.status = 0#8 ∧
          x.hits = (if fOp w = 1 then e.hits else 0#256) ∧ (t.dus[u]).entries = k.entries.erase e ∧ t.locals = r.locals) ∧
      (3 ≤ fOp w → ∃ t x, exec (.dispatchRequestStart u us) s = .next t ∧ (t.dus[u]).run = some x ∧ x.req = req ∧
        (t.dus[u]).entries = k.entries ∧ t.locals = r.locals ∧ t.queues = r.queues)) ∧
    (∀ x, (k.stuck = [] ∧ k.run = some x) ∨ (∃ rest, k.stuck = x :: rest ∧ k.run ≠ some x) → k.outs = [] → x.tent = false →
      RunsFree r x.req.core → MemOk r →
      let c := x.req.core
      let all := x.out ++ (match x.statusAt with | some a => [(a, x.record)] | none => [])
      (∀ o ∈ all, SpFree r c o.1 o.2.length) → all.Pairwise (fun a b => a.1 + a.2.length ≤ b.1 ∨ b.1 + b.2.length ≤ a.1) →
      ∃ t, exec (.dispatchRequestEffect u us) s = .next t ∧ (t.dus[u]).stuck = k.stuck.tail ∧
        (t.dus[u]).run = (if k.stuck = [] then none else k.run) ∧ (t.unit c).fab = none ∧
        (∀ o ∈ all, ∀ i, (h : i < o.2.length) → (t.loc c).sp.get (o.1 + i) = o.2[i]) ∧
        (∀ a, (∀ o ∈ all, a < o.1 ∨ o.1 + o.2.length ≤ a) → (t.loc c).sp.get a = (r.loc c).sp.get a) ∧
        (t.core c).sreg = (if fOp x.req.word = 3 then (r.core c).sset (dispSd x.req.word) (dispStatWord k c) else r.core c).sreg ∧
        (t.core c).pc = (r.core c).pc ∧ (t.dus[u]).entries = k.entries ∧ ∀ d, d ≠ c → t.loc d = r.loc d)

/-- However the choices of a ROUTE fall, no expert is given more tokens than CAP, and every choice has one of the status
bytes 1, 2 and 3, with an expert unless it is 3.

Rules: R157, R158. -/
def Obligations.RouteKeepsToItsCapacity : Prop :=
  ∀ (cap k : Nat) (next : Bool) (cand : List (List Nat)),
    (∀ e, choiceCount (routeChoices cap next cand k) e ≤ cap) ∧
    (∀ x ∈ routeChoices cap next cand k, (x.how = 1 ∨ x.how = 2 ∨ x.how = 3) ∧ (x.e = none ↔ x.how = 3) ∧ x.r < k ∧ x.t < cand.length)

/-- The registers of a dispatch unit. DU_CANCEL without its start bit does nothing, and with it the entries of the
job's cores are gone; DU_STATCLR zeroes the hit masks it names; the owner of an enabled table stays with DU_TABLE_WRITE_IGNORED; a
bit of DU_TBL_EN cleared under a ROUTE that uses the table reads 1 until its effect; an entry of an enabled table keeps its value.

The registers of a queue whose domain is on. Enabling a queue that is off sets EN where the configuration passes its
checks, and PAUSED where a forwarding queue's destination has stopped it; turning it off, and FLUSH, discard every cell; CLR clears UNDERRUN and PTR_RESET only; the watermarks are stored and tested on
the current count; a push through the window of a plain queue adds the window's cell.

Rules: R160, R161, R165, R170, R173, R216, R217, R222. Choices of the model: log entries 8, 55. -/
def Obligations.DispatchAndQueueRegisterResult : Prop :=
  (∀ (u : DuId) (v : W64) (s : State),
     let k := s.dus[u]
     let en := duBase u + 0x18
     s.domainOn (48 + u.val) = true → s.power.recovery = false →
     (bit v 4 = false → exec (.duCancel u v) s = .next s) ∧
     (bit v 4 = true → ∃ t, exec (.duCancel u v) s = .next t ∧ t.cores = s.cores ∧ t.locals = s.locals ∧
       ∀ e ∈ (t.dus[u]).entries, s.jobOf e.core = some (fld v 0 4) → duOf e.core ≠ u) ∧
     (∃ t, exec (.duStatclr u v) s = .next t ∧ t.dus = s.dus ∧
       ∀ (i : Fin 16) (w : Fin 4), t.rd (duBase u + 0x100 + 0x20 * i.val + 8 * w.val) =
         if bit v i.val then 0#64 else s.rd (duBase u + 0x100 + 0x20 * i.val + 8 * w.val)) ∧
     ((∀ i, i < 16 → tableOn s u i = false) → exec (.duTblOwnerWrite u v) s = .next (s.wr (duBase u + 0x10) v)) ∧
     ((∀ i, i < 16 → tableOn s u i = true) → v ≠ s.rd (duBase u + 0x10) →
       ∃ t, exec (.duTblOwnerWrite u v) s = .next t ∧ t.rd (duBase u + 0x10) = s.rd (duBase u + 0x10) ∧ t.dus = s.dus) ∧
     (k.run = none → k.stuck = [] → exec (.duTblEnWrite u v) s = .next (s.wr en (BitVec.ofNat 64 (fld v 0 16)))) ∧
     (∀ x, k.run = some x ∨ x ∈ k.stuck → fOp x.req.word = 0 → x.out ≠ [] → x.table < 16 → bit (s.rd en) x.table = true →
       bit v x.table = false → ∃ t, exec (.duTblEnWrite u v) s = .next t ∧ bit (t.rd en) x.table = true ∧
         bit (t.dus[u]).disabling x.table = true) ∧
     (∀ (i : Fin 16) (e : QId), tableOn s u i.val = false → exec (.dtEntryWrite u i e v) s =
       .next (s.wr (duBase u + 0x8000 + 0x800 * i.val + 8 * e.val) (v &&& 0x1FFFFFF#64))) ∧
     (∀ (i : Fin 16) (e : QId), tableOn s u i.val = true → exec (.dtEntryWrite u i e v) s =
       .next (s.raise (0x3106 + 8 * u.val) u.val 0 none 0 0))) ∧
  (∀ (q : QId) (v : W64) (s : State),
     let k := s.queues[q]
     let empty (t : State) : Prop := (t.queues[q]).head = [] ∧ (t.queues[q]).pool = [] ∧ (t.queues[q]).tail = [] ∧
       (t.queues[q]).held = [] ∧ (t.queues[q]).ready = [] ∧ (t.queues[q]).openKey = none ∧ t.cores = s.cores ∧ t.locals = s.locals
     s.domainOn (queueDomain q) = true → s.power.recovery = false →
     (qOn s q = false → qCfgOk s q = true → exec (.queueEn q true) s = .next ((s.setQueue q { k with
       paused := qForward s q && stopped s (qDestDev s q) (qDestQ s q) }).wr (queueBase q + 8) 1#64)) ∧
     (qOn s q = false → qCfgOk s q = false → exec (.queueEn q true) s = .next (qEv s q 0x4004 (some (qJob s q)) none 0)) ∧
     (qOn s q = true → ∃ t, exec (.queueEn q false) s = .next t ∧ empty t ∧ qOn t q = false) ∧
     (∃ t, exec (.queueFlush q) s = .next t ∧ empty t ∧ (t.queues[q]).tentLost = false ∧ (t.queues[q]).dropping = false) ∧
     exec (.queueClr q) s = .next (s.setQueue q { k with underrun := false, ptrReset := false }) ∧
     (qOn s q = true → ∃ t, exec (.qWmWrite q v) s = .next t ∧ t.rd (queueBase q + 0x40) = v ∧ (t.queues[q]).head = k.head ∧
       (fld v 0 32 ≤ qVis k → fld v 32 32 < qVis k → (t.queues[q]).above = true) ∧
       (qVis k < fld v 0 32 → qVis k ≤ fld v 32 32 → (t.queues[q]).above = false)) ∧
     (QPlain s q → k.head.length < 1024 → ∃ t, exec (.queueWindowPush q v) s = .next t ∧
       (t.queues[q]).head = k.head ++ [{ data := k.win, mbtag := BitVec.ofNat 16 (fld v 0 16), eop := bit v 16,
                                         src := BitVec.ofNat 15 s.devid, agent := 0x7F#7 }] ∧
       t.cores = s.cores ∧ t.locals = s.locals))

/-! ### Micro-batch queues -/

/-- The QOP instructions on a plain queue of the core's own job, issued on an empty fabric queue and run in the same command. PUSH
adds CELLS cells from the scratchpad at the end, the last one with EOP; POP moves the first CELLS cells to the
scratchpad; DROP removes the cells up to the first EOP cell; STAT writes SD with the status word; COMMIT and CANCEL of a
micro-batch that the queue holds nothing of leave its cells as they are.

Rules: R42, R202, R208, R210, R211, R212, R214. Choices of the model: log entries 32, 33. -/
def Obligations.QueueInstructionResult : Prop :=
  ∀ (c : CoreId) (us : List Upset) (s : State) (w : W128) (q : QId),
    let r := strike s us
    let k := r.core c
    let h := (r.queues[q]).head
    let n := qopCells w
    let off := (k.sget (qopSa w)).toNat
    let ready (o : Op) : Prop := Issues r c w o ∧ unitIdle (r.unit c) .fab = true ∧ (r.unit c).held = [] ∧
      qopQ w = q.val ∧ QPlain r q ∧ r.jobOf c = some (qJob r q) ∧ MemOk r
    let cellAt (i : Nat) : Cell := {
      data := BitVec.ofNat 512 (leNat ((List.range 64).map (fun b => (r.loc c).sp.get (off + 64 * i + b))))
      mbtag := BitVec.ofNat 16 (qopMbtag w), eop := qopEop w && i + 1 == n, tent := false
      src := BitVec.ofNat 15 r.devid, agent := BitVec.ofNat 7 c.val }
    let on (i : Instr) (h' : List Cell) : Prop := ∃ t, exec i s = .next t ∧ (t.queues[q]).head = h' ∧
      (t.unit c).fab = none ∧ qOf t c .fab = [] ∧ (t.core c).pc = (loopNext k k.pc).pc ∧ (t.core c).vreg = k.vreg ∧
      (t.loc c).guards = (r.loc c).guards
    (ready .qopPush → qopTent w = false → qopSen w = false → off % 64 = 0 → off + 64 * n ≤ 0x1000000 → SpFree r c off (64 * n) →
      h.length + n ≤ 1024 → on (.qopPush c true us) (h ++ (List.range n).map cellAt)) ∧
    (ready .qopPop → qopSen w = false → off % 64 = 0 → off + 64 * n ≤ 0x1000000 → SpFree r c off (64 * n) → n ≤ h.length →
      ∃ t, exec (.qopPop c true us) s = .next t ∧ (t.queues[q]).head = h.drop n ∧ (t.unit c).fab = none ∧
        (t.core c).pc = (loopNext k k.pc).pc ∧
        (∀ (i b : Nat) (hi : i < n) (hh : i < h.length), b < 64 →
          (t.loc c).sp.get (off + 64 * i + b) = BitVec.ofNat 8 ((h[i]).data.toNat / 2 ^ (8 * b))) ∧
        (∀ a, a < off ∨ off + 64 * n ≤ a → (t.loc c).sp.get a = (r.loc c).sp.get a)) ∧
    (ready .qopDrop → ∀ pre x post, h = pre ++ x :: post → (∀ y ∈ pre, y.eop = false) → x.eop = true →
      on (.qopDrop c true us) post) ∧
    (ready .qopStat → ∃ t, exec (.qopStat c true us) s = .next t ∧ (t.core c).sreg = (k.sset (qopSd w) (qStatWord r q)).sreg ∧
      (t.core c).pc = (loopNext k k.pc).pc ∧ (t.queues[q]).head = h ∧ (t.unit c).fab = none) ∧
    (ready .qopCommit → qForward r q = false → on (.qopCommit c true us) h) ∧
    (ready .qopCancel → qForward r q = false → on (.qopCancel c true us) h)

/-- What reaches a plain queue that has stopped nobody from outside the cores. An accepted cell of a dispatch unit goes to the end of the queue and
leaves the unit; a marker that cancels takes the held cells of its key; a refill moves the oldest chunk of the pool to the
head; a forwarding queue's first cell moves to a queue of its own module; a rising QFC_IN pin signals the semaphore of the one queue
that is mapped to it.

Rules: R166, R167, R202, R205, R206, R209, R213, R215, R218. Choices of the model: log entries 13, 32. -/
def Obligations.QueueTrafficResult : Prop :=
  ∀ (q : QId) (us : List Upset) (s : State),
    let r := strike s us
    let k := r.queues[q]
    r.power.held = false →
    (∀ (u : DuId) (x : DispOut) (cell : Cell), QPlain r q → stopped r r.devid q.val = false → (r.dus[u]).outs = [x] → x.dest = .here q → x.cells = [cell] →
      x.job = qJob r q → cell.marker = false → cell.tent = false → k.head.length < 1024 →
      ∃ t, exec (.queueCellAccept q (.du u) us) s = .next t ∧ (t.queues[q]).head = k.head ++ [cell] ∧ (t.dus[u]).outs = [] ∧
        t.cores = r.cores ∧ t.locals = r.locals) ∧
    (∀ (u : DuId) (x : DispOut) (cell : Cell) (h : HeldKey), qOn r q = true → stopped r r.devid q.val = false →
      qForward r q = false → k.bad = false →
      k.tentLost = false → k.held = [h] → (r.dus[u]).outs = [x] → x.dest = .here q → x.cells = [cell] → x.job = qJob r q →
      cell.marker = true → h.key.mbtag = some (cell.mbtag) →
      cell.data = markerData cell.mbtag.toNat 2 h.key.agent.toNat h.key.src.toNat →
      ∃ t, exec (.queueMarkerApply q (.du u) us) s = .next t ∧ (t.queues[q]).held = [] ∧ (t.queues[q]).head = k.head ∧
        (t.dus[u]).outs = []) ∧
    (∀ c rest, k.bad = false → k.pool = c :: rest → k.tail = [] → k.ready = [] → k.head.length ≤ 992 → GddrFree r (chunkAddr r q c.idx) 2176 →
      ∃ t, exec (.queuePoolRefill q us) s = .next t ∧ (t.queues[q]).head = k.head ++ chunkCells (gddrPeek r (chunkAddr r q c.idx) 2176) c ∧
        (t.queues[q]).pool = rest ∧ (t.queues[q]).tail = [] ∧ t.gddr = r.gddr ∧ t.cores = r.cores) ∧
    (∀ (d : QId) (cell : Cell) rest, QPlain r q → qForward r q = true → k.paused = false → k.head = cell :: rest →
      qDestDev r q = r.devid → qDestQ r q = d.val → d ≠ q → QPlain r d → qJob r d = qJob r q → (r.queues[d]).head.length < 1024 →
      cell.marker = false → cell.tent = false →
      ∃ t, exec (.queueForwardSend q us) s = .next t ∧ (t.queues[q]).head = rest ∧
        (t.queues[d]).head = (r.queues[d]).head ++ [cell] ∧ t.locals = r.locals) ∧
    (∀ (p : Fin 8) (j : Nat) (d : CoreId) (i : Fin 64),
      let n := s.rd (queueBase q + 0x50)
      let mapped (x : QId) : Prop := qOn s x = true ∧ bit (s.rd (queueBase x + 0x50)) 0 = true ∧
        bit (s.rd (queueBase x + 0x50)) 1 = true ∧ fld (s.rd (queueBase x + 0x48)) 4 3 = p.val
      (∀ x, mapped x ↔ x = q) → j = qJob s q → fld n 2 6 = d.val → fld n 8 6 = i.val → bit (s.heldBy j) d.val = true →
      RunsFree s d → ((s.loc d).sems[i]).toNat < 0xFFFF →
      ∃ t, exec (.qfcInRise p true) s = .next t ∧ ((t.loc d).sems[i]).toNat = ((s.loc d).sems[i]).toNat + 1 ∧
        t.queues = s.queues ∧ t.cores = s.cores ∧ bit t.pins.qfcIn p.val = true)

/-! ### Events -/

/-- An event changes no core, no unit, no memory, no queue and no job: it differs from the state before it at most in the
registers, the clock, the free values' counter, and what the host ports, the reduction and commit logic, the network and the links
hold. Its status bit is set, masked or not; a masked event of a job without a step to fail changes nothing but its status bit.

Rules: R8, R14, R356, R379, R384. Choices of the model: log entries 10, 46, 49. -/
def Obligations.EventsTouchNoStorage : Prop :=
  ∀ (s : State) (code inst sub : Nat) (job dev : Option Nat) (a0 a1 : Nat) (f : Bool),
    Quiet s (s.raiseDev f code inst sub job dev a0 a1) ∧
    (let e := evtReg code inst sub
     e.2.2 < 64 → bit ((s.raiseDev f code inst sub job dev a0 a1).rd e.2.1) e.2.2 = true) ∧
    (let e := evtReg code inst sub
     bit (s.rd e.1) e.2.2 = true → s.raiseDev false code inst sub job dev a0 a1 = s.orReg e.2.1 (BitVec.ofNat 64 (2 ^ e.2.2)))

/-! ### Module memory and the CXL tier -/

/-- A request of the module's own engines for bytes of one granule of a controller enters the controller's queue; one beyond the
memory that is present fails with code 1. A request of a READY controller with no older one to its lines completes: a read answers the
bytes that stand there, a write stores its own and no others. A retraining begins at the controller whose turn it is, which
holds its traffic; a training that ends makes a controller READY, or fails what it holds; a scrub
read goes on to the next line and mends a corrected one; self-refresh, which only the management processor sets, ends service.

Rules: R249, R250, R251, R253, R255, R256, R257, R264. Choices of the model: log entries 8, 38. -/
def Obligations.MemoryControllerResult : Prop :=
  ∀ (g : CtrlId) (us : List Upset) (s : State),
    let r := strike s us
    let k := r.ctrls[g]
    r.domainOn (ctrlDomain g) = true →
    (∀ (job : JobId) (addr len : Nat) (data : Option (List Byte)), len ≠ 0 → addr / 256 = (addr + len - 1) / 256 →
      ctrlOf addr = g → k.reqs.length < 512 → (∀ bs, data = some bs → bs.length = len) →
      let q : MemReq := { asker := .engine, job := some job.val, addr := addr, len := len, data := data }
      (addr + len ≤ gddrTop r → exec (.memRequest g .engine job addr len data us) s =
        .next (r.setCtrl g { k with reqs := k.reqs ++ [q] })) ∧
      (gddrTop r < addr + len → exec (.memRequest g .engine job addr len data us) s =
        .next (r.setCtrl g { k with done := k.done ++ [{ req := q, code := 1, data := [] }] }))) ∧
    (∀ i q, k.reqs[i]? = some q → memFirst k.reqs i q = true → k.ready = true → k.trainFail = false →
      gddrReady r q.addr q.len = .yes → GddrPlain r q.addr q.len → MemOk r →
      ∃ t, exec (.memRequestComplete g 0 0 us i) s = .next t ∧ (t.ctrls[g]).reqs = k.reqs.eraseIdx i ∧
        (q.data = none → t.gddr = r.gddr ∧
          (t.ctrls[g]).done = k.done ++ [{ req := q, code := 0, data := r.gddr.read q.addr q.len }]) ∧
        (∀ bs, q.data = some bs → bs.length = q.len → (t.ctrls[g]).done = k.done ++ [{ req := q, code := 0, data := [] }] ∧
          (∀ i, (h : i < bs.length) → t.gddr.get (q.addr + i) = bs[i]) ∧
          ∀ a, a < q.addr ∨ q.addr + bs.length ≤ a → t.gddr.get a = r.gddr.get a) ∧
        t.cores = r.cores ∧ t.locals = r.locals) ∧
    (s.domainOn (ctrlDomain g) = true → (s.ctrls[g]).selfRef = false → (s.ctrls[g]).ready = true →
      (retrainNext s = some g → exec (.gddr7Retrain g true) s = .next ({ s with mem := { s.mem with
        turn := (g.val + 1) % 24 } }.setCtrl g { s.ctrls[g] with ready := false, retraining := true })) ∧
      (retrainNext s ≠ some g → exec (.gddr7Retrain g true) s = .next s)) ∧
    (s.domainOn (ctrlDomain g) = true → (s.ctrls[g]).selfRef = false → (s.ctrls[g]).ready = false →
      (bit (s.rd (pwrBase + 0x98)) (if g.val < 12 then 2 else 3) = true → exec (.gddr7Retrain g true) s =
        .next (s.setCtrl g { s.ctrls[g] with ready := true, retraining := false, trainFail := false })) ∧
      ∃ t, exec (.gddr7Retrain g false) s = .next t ∧ (t.ctrls[g]).ready = false ∧ (t.ctrls[g]).trainFail = true ∧
        (t.ctrls[g]).reqs = [] ∧ (t.ctrls[g]).done.length = (s.ctrls[g]).done.length + (s.ctrls[g]).reqs.length) ∧
    (k.ready = true → bit (r.rd (ctrlBase g + 8)) 0 = true → r.mem.crc = [] →
      let n := lineAddr g k.scrub / 64
      ∃ t, exec (.scrubRead g us) s = .next t ∧ (t.ctrls[g]).scrub = (k.scrub + 1) % scrubLines r ∧ t.gddr = r.gddr ∧
        (bit (r.rd memBase) 0 = true → r.gddrErr = [(n, false)] → t.gddrErr = []) ∧
        (r.gddrErr = [(n, true)] → t.gddrErr = [(n, true)])) ∧
    (s.domainOn (ctrlDomain g) = true →
      (∃ t, exec (.gddr7SelfRefresh g .mgmt true) s = .next t ∧ (t.ctrls[g]).selfRef = true ∧ (t.ctrls[g]).ready = false ∧
        t.gddr = s.gddr) ∧
      ∀ b, b ≠ .mgmt → exec (.gddr7SelfRefresh g b true) s = .next s)

/-- Enabling a CXL port that is off begins an enumeration, which ends with the device ACTIVE and its capacity in the register, or with
CXL_ENUM_FAIL; disabling it, and losing a link, leaves the device inactive with no request out. A response to a write stores its
bytes in the tier and to a read changes no byte; a poisoned one, and a timeout, only drop the request.

Rules: R260, R261, R262, R263, R265. Choices of the model: log entries 14, 15, 39. -/
def Obligations.CxlPortResult : Prop :=
  ∀ (p : PortId) (s : State),
    let k := s.cxl[p]
    let ctl := cxlBase p + 8
    s.domainOn (cxlDomain p) = true → s.power.recovery = false →
    (bit (s.rd ctl) 0 = false → ∃ t, exec (.cxlPortEn p true) s = .next t ∧ (t.cxl[p]).enum = true ∧
      bit (t.rd ctl) 0 = true ∧ t.tier = s.tier) ∧
    (bit (s.rd ctl) 0 = true → ∃ t, exec (.cxlPortEn p false) s = .next t ∧ (t.cxl[p]).activeA = false ∧
      (t.cxl[p]).activeB = false ∧ (t.cxl[p]).reqs = [] ∧ (t.cxl[p]).enum = false ∧ t.tier = s.tier) ∧
    (k.enum = true → s.power.rebooting = false → bit (s.rd ctl) 1 = false →
      (∀ n b, ∃ t, exec (.cxlEnumComplete p (some n) b) s = .next t ∧ (t.cxl[p]).activeA = true ∧ (t.cxl[p]).enum = false ∧
        t.rd (cxlBase p + 0x28) = BitVec.ofNat 64 (min (n / 0x10000000) 4096)) ∧
      ∀ b, ∃ t, exec (.cxlEnumComplete p none b) s = .next t ∧ (t.cxl[p]).enumFail = true ∧ (t.cxl[p]).enum = false ∧
        (t.cxl[p]).activeA = k.activeA) ∧
    (∀ (i : Nat) (q : CxlReq), k.reqs[i]? = some q → q.owner = none →
      let reqs := k.reqs.eraseIdx i
      (∀ bs, q.data = some bs → Memory.wf s.tier = true → ∃ t, exec (.cxlResponse p i false) s = .next t ∧
        (t.cxl[p]).reqs = reqs ∧ (∀ n, (h : n < bs.length) → t.tier.get (q.t + n) = bs[n]) ∧
        ∀ a, a < q.t ∨ q.t + bs.length ≤ a → t.tier.get a = s.tier.get a) ∧
      (q.data = none → ∃ t, exec (.cxlResponse p i false) s = .next t ∧ (t.cxl[p]).reqs = reqs ∧ t.tier = s.tier) ∧
      (∃ t, exec (.cxlResponse p i true) s = .next t ∧ (t.cxl[p]).reqs = reqs ∧ t.tier = s.tier ∧ t.cores = s.cores) ∧
      ∃ t, exec (.cxlTimeoutExpiry p i) s = .next t ∧ (t.cxl[p]).reqs = reqs ∧ t.tier = s.tier ∧ t.cores = s.cores) ∧
    (∀ b, ∃ t, exec (.cxlLinkLoss p b) s = .next t ∧ (if b then (t.cxl[p]).activeB else (t.cxl[p]).activeA) = false ∧
      (t.cxl[p]).reqs = k.reqs.filter (fun q => q.devB != b) ∧ t.tier = s.tier) ∧
    (∀ v, exec (.cxlCfgDataAccess p none v) s =
      .next { s with host := { s.host with out := s.host.out ++ [.reg (v.setWidth 64)] } }) ∧
    (∀ v x, let a := s.rd (cxlBase p + 0x100)
      ∃ t, exec (.cxlCfgDataAccess p (some v) x) s = .next t ∧
        tget t.cxlCfg ((p.val * 2 + fld a 12 1) * 4096 + fld a 0 12) = some v ∧ t.host = s.host)

/-! ### Links -/

/-- A link goes from DOWN to OPTICS by EN, which the firmware sets nowhere while STRAP_UNSTABLE is 1, to ALIGN once both lanes have locked, in one event or one after the other, to EXCHANGE with a PARAM flit sent, and to
ACTIVE on a PARAM flit that matches and is accepted; a mismatch and a time limit lead to FAILED, and from there AUTO_UP to
OPTICS. Losing a lane's lock takes an ACTIVE link to OPTICS with AUTO_UP and to DOWN without.

Rules: R271, R272, R273, R296. Choices of the model: log entries 40, 61. -/
def Obligations.LinkBringUpResult : Prop :=
  ∀ (l : LinkId) (s : State),
    let k := s.links[l]
    let ctl := linkBase l + 8
    let st (i : Instr) (x : LinkSt) : Prop := ∃ t, exec i s = .next t ∧ (t.links[l]).st = x
    s.domainOn (linkDomain l) = true → s.power.recovery = false →
    (∀ b : Sender, ownerOrMgmt b = true → hears s b = true →
      (k.st = .down → enBarred s b l = false →
        exec (.linkEn l true b) s = .next ((s.wr ctl (setBit (s.rd ctl) 0)).setLink l { k with st := .optics })) ∧
      (enBarred s b l = true → exec (.linkEn l true b) s = .next s) ∧ st (.linkEn l false b) .down) ∧
    (∀ lanes : BitVec 2,
      let a := k.lock0 || lanes.getLsbD 0
      let b := k.lock1 || lanes.getLsbD 1
      (k.st = .optics → exec (.laneLock l lanes) s =
        .next (s.setLink l { k with st := if a && b then .align else .optics, lock0 := a, lock1 := b })) ∧
      (k.st ≠ .optics → exec (.laneLock l lanes) s = .next s)) ∧
    (k.st = .align → k.lock0 = true → k.lock1 = true → ∃ t f, exec (.laneAlign l) s = .next t ∧
      (t.links[l]).st = .exchange ∧ (t.links[l]).sent = k.sent ++ [f] ∧ fType f = ftParam ∧ t.regs = s.regs) ∧
    (∀ f, k.st = .exchange → flitOk f false = true → fType f = ftParam →
      (leAt f 0 1 = 2 → leAt f 1 1 = l.val → leAt f 2 1 = s.devid % 64 → (∀ i, i < 128 → leAt f (8 + i) 1 = 0) →
        leAt f 136 2 ≤ 4096 → st (.paramFlit l f 0 0 true false) .active ∧ st (.paramFlit l f 0 0 false false) .exchange) ∧
      (leAt f 0 1 ≠ 2 ∨ leAt f 1 1 ≠ l.val ∨ leAt f 2 1 ≠ s.devid % 64 ∨ (∃ i, i < 128 ∧ 1 ≤ leAt f (8 + i) 1 ∧ leAt f (8 + i) 1 ≤ 16) →
        ∀ a, st (.paramFlit l f 0 0 a false) .failed)) ∧
    (k.st = .optics ∨ k.st = .align ∨ k.st = .exchange → st (.linkStateTimeout l) .failed) ∧
    (k.st = .failed → linkAuto s l = true → exec (.linkFailedRetry l) s = .next (s.setLink l { k with st := .optics })) ∧
    (k.st = .active → ∀ lane, (linkEn s l = true → linkAuto s l = true → st (.laneLockLoss l lane) .optics) ∧
      (linkAuto s l = false → st (.laneLockLoss l lane) .down))

/-- On an ACTIVE link: a good DATA flit in sequence is acknowledged, its padding skipped, the packet it holds put in the receive buffer
at the charge of its account, and the credits it returns given back; an ACK takes its flits and all older ones out
of the retry buffer; a NAK and an expired ACK timer send every flit of the retry buffer again in order; a flit that fails the check is
counted and answered with one NAK; a packet that may start leaves the transmit queue for the retry buffer; with nothing to
send an IDLE flit with the ACK leaves; a PARAM flit renews LINK_PEER.

Rules: R274, R275, R276, R277, R278, R279. Choices of the model: log entries 40, 41. -/
def Obligations.LinkTrafficResult : Prop :=
  ∀ (l : LinkId) (f : List Byte) (s : State),
    let k := s.links[l]
    let good (ty : Nat) : Prop := flitOk f false = true ∧ fType f = ty
    let again (k' : Link) : List (List Byte) := k'.retry.map (fun x => flitOf ftData x.seq k'.ack x.rets x.payload)
    let taken (p : State → Prop) : Prop := ∃ t, exec (.dataFlit l f 0 0 false) s = .next t ∧
      (t.links[l]).rxSeq = (k.rxSeq + 1) % 4096 ∧ (t.links[l]).ack = some (fSeq f) ∧ (t.links[l]).rxPart = [] ∧
      (t.links[l]).retry = k.retry ∧ p t
    k.st = .active → s.power.held = false →
    (good ftData → fSeq f = k.rxSeq → fAck f = none → k.rxPart = [] → (fRet f 248).units = 0 → (fRet f 250).units = 0 →
      let n := 32 + 64 * leAt f 6 1
      let p : Pkt := { hdr := BitVec.ofNat 256 (leAt f 0 32), data := (f.take n).drop 32 }
      let key := pJob p * 8 + pVc p
      leAt f 0 4 ≠ 0 → n ≤ 244 → (∀ i, n ≤ i → i < 244 → getD f i 0#8 = 0#8) → pType p ≠ 10 → pPooled p = false →
      tnat k.rxRsv key + pSize p ≤ rsvOf k.rsv key →
      taken (fun t => (t.links[l]).rxq = k.rxq ++ [{ pkt := p, units := pSize p, came := 0#64 }] ∧
        tnat (t.links[l]).rxRsv key = tnat k.rxRsv key + pSize p ∧ t.cores = s.cores ∧ t.gddr = s.gddr)) ∧
    (good ftData → fSeq f = k.rxSeq → fAck f = none → k.rxPart = [] → (∀ i, i < 244 → getD f i 0#8 = 0#8) → (fRet f 250).units = 0 →
      let x := fRet f 248
      let key := x.job * 8 + x.vc
      x.pool = false → 0 < x.units → x.units ≤ tnat k.useRsv key →
      taken (fun t => (t.links[l]).rxq = k.rxq ∧ (t.links[l]).usePool = k.usePool ∧
        ∀ i, tnat (t.links[l]).useRsv i = if i = key then tnat k.useRsv key - x.units else tnat k.useRsv i)) ∧
    (good ftData → fSeq f = k.rxSeq → (∀ i, i < 244 → getD f i 0#8 = 0#8) → (fRet f 248).units = 0 → (fRet f 250).units = 0 →
      fAck f = none → k.rxPart = [] → taken (fun t => (t.links[l]).rxq = k.rxq)) ∧
    (good ftIdle → ∀ pre x post, k.retry = pre ++ x :: post → (∀ y ∈ pre, y.seq ≠ x.seq) → fAck f = some x.seq →
      ∃ t, exec (.idleFlit l f 0 0 false) s = .next t ∧ (t.links[l]).retry = post ∧ (t.links[l]).sent = k.sent) ∧
    (good ftNak → fAck f = none → k.retry ≠ [] → k.replays < fld (s.rd (linkBase l + 0x30)) 0 8 →
      ∃ t, exec (.nakFlit l f 0 0 false) s = .next t ∧ (t.links[l]).sent = k.sent ++ again k ∧ (t.links[l]).retry = k.retry ∧
        (t.links[l]).replays = k.replays + 1) ∧
    (k.retry ≠ [] → k.replays < fld (s.rd (linkBase l + 0x30)) 0 8 → ∃ t, exec (.ackTimeoutExpiry l) s = .next t ∧
      (t.links[l]).sent = k.sent ++ again k ∧ (t.links[l]).retry = k.retry) ∧
    (k.retry ≠ [] → fld (s.rd (linkBase l + 0x30)) 0 8 ≤ k.replays → ∃ t, exec (.ackTimeoutExpiry l) s = .next t ∧
      (t.links[l]).st ≠ .active) ∧
    (flitOk f false = false → k.nakSent = false → ∃ t, exec (.dataFlit l f 0 0 false) s = .next t ∧
      (t.links[l]).sent = k.sent ++ [flitOf ftNak k.txSeq k.ack [] []] ∧ (t.links[l]).rxSeq = k.rxSeq ∧
      (t.links[l]).rxq = k.rxq ∧
      t.rd (linkBase l + 0x48) = BitVec.ofNat 64 (satAdd 32 (s.rd (linkBase l + 0x48)).toNat 1)) ∧
    (∀ x pool, k.tx = [x] → x.vc < 8 → x.job < 16 → x.pkt.data.length ≤ 1024 → eligible s l x.vc x.job = some (x, pool) →
      ∃ t, exec (.linkPacketStart l) s = .next t ∧ (t.links[l]).tx = [] ∧
        (t.links[l]).retry.length = k.retry.length + flitsOf x.pkt ∧
        (t.links[l]).sent.length = k.sent.length + flitsOf x.pkt ∧
        (t.links[l]).txSeq = (k.txSeq + flitsOf x.pkt) % 4096 ∧ t.cores = s.cores) ∧
    (k.tx = [] → k.rets = [] → exec (.linkPacketStart l) s =
      .next (s.setLink l { k with sent := k.sent ++ [flitOf ftIdle k.txSeq k.ack [] []] })) ∧
    (good ftParam → fAck f = none → ∀ a, ∃ t, exec (.paramFlit l f 0 0 a false) s = .next t ∧
      t.rd (linkBase l + 0x28) = BitVec.ofNat 64 (leAt f 0 3) ∧ (t.links[l]).st = .active ∧ (t.links[l]).retry = k.retry)

/-- The end of REPIN_HOLD lets the packets of its flow start; a routing entry and PLANE_EN take the value written, and a routing
entry's write counts in ROUTE_GEN.

A time exchange sends a TIME request to the parent; the request's stamp t1 is taken when it leaves its link, and that of a
reply, t3, goes into the reply then. A TIME request is answered with the stamp of its arrival. A TIME reply of the parent ends the
exchange and puts the offset ((t2 - t1) - (t4 - t3)) / 2 into TS_OFFSET, t4 being the stamp of the reply's arrival.

Rules: R284, R285, R286, R292, R293, R294, R297. Choices of the model: log entries 10, 42, 45. -/
def Obligations.RoutingAndTimeResult : Prop :=
  (∀ (dst : DevId) (job : JobId) (tc : Fin 4) (v : W64) (s : State),
     let key := (dst.toNat * 16 + job.val) * 4 + tc.val
     s.power.held = false → s.power.recovery = false →
     (∃ t, exec (.repinHoldExpiry dst job tc) s = .next t ∧ key ∉ t.net.holding ∧
       (∀ (n : LinkId) (x : TxPkt), x ∈ (t.links[n]).tx → ofFlow key x = true → x.hold = false) ∧
       (∀ n : LinkId, (t.links[n]).tx.length = (s.links[n]).tx.length) ∧ t.regs = s.regs ∧ t.cores = s.cores) ∧
     (s.domainOn 48 = true → ∃ t, exec (.routeEntryWrite dst v) s = .next t ∧
       t.rd (routeAddr dst.toNat) = v &&& (regSpec (routeAddr dst.toNat)).rw ∧
       t.rd (secBase + 0x88) = BitVec.ofNat 64 (satAdd 64 (s.rd (secBase + 0x88)).toNat 1) ∧ t.cores = s.cores ∧ t.gddr = s.gddr) ∧
     (s.domainOn 48 = true → ∃ t, exec (.planeEnWrite v) s = .next t ∧ t.rd (lnkBase + 0x10) = v &&& 0xFFFFFF#64 ∧
       t.cores = s.cores ∧ t.gddr = s.gddr)) ∧
  (∀ (l m : LinkId) (s : State) (r : RxWait) (rest : List RxWait),
     let p := r.pkt
     let ctl := s.rd (lnkBase + 0x38)
     let parent := fld ctl 2 15
     s.power.held = false →
     (bit ctl 0 = true → bit ctl 1 = false → s.net.asking = false → s.net.missed < 4 → choosePlane s 0 6 parent 0 = some m →
       ∃ t, exec .timeExchange s = .next t ∧ t.net.asking = true ∧ t.net.t1 = none ∧ t.net.missed = s.net.missed ∧
         (∃ y ∈ (t.links[m]).tx, y.pkt = mkPkt s 10 3 0 0 parent 0 [] []) ∧ t.regs = s.regs ∧ t.cores = s.cores) ∧
     (∀ (x : TxPkt) pool, (s.links[l]).st = .active → (s.links[l]).tx = [x] → x.vc < 8 → x.job < 16 → pType x.pkt = 10 →
       eligible s l x.vc x.job = some (x, pool) →
       ∃ t, exec (.linkPacketStart l) s = .next t ∧ (t.links[l]).tx = [] ∧ t.cores = s.cores ∧
         (pRsp x.pkt = 0 → t.net.t1 = some (s.now).1) ∧
         (pRsp x.pkt = 1 → ∃ f ∈ (t.links[l]).retry, ∃ y, f.pkt = some y ∧ fld y.pkt.hdr 160 64 = ((s.now).1).toNat)) ∧
     (Arrived s l r rest → pType p = 10 → pRsp p = 0 → choosePlane s 0 7 (pSrc p) (pJob p) = some m →
       ∃ t, exec (.timeRequest l) s = .next t ∧ (t.links[l]).rxq = rest ∧
         (∃ y ∈ (t.links[m]).tx, y.pkt = mkPkt s 10 3 1 (pJob p) (pSrc p) (pTag p) (leBytes 8 r.came.toNat) []) ∧
         t.regs = s.regs) ∧
     (∀ t1 : W64, Arrived s l r rest → pType p = 10 → pRsp p = 1 → s.net.t1 = some t1 → pSrc p = parent →
       ∃ t, exec (.timeReply l) s = .next t ∧ (t.links[l]).rxq = rest ∧ t.net.t1 = none ∧ t.net.asking = false ∧
         t.net.missed = 0 ∧ t.rd (lnkBase + 0x48) = BitVec.ofInt 64
           (((BitVec.ofNat 64 (pByte p 12 8) - t1).toInt - (r.came - BitVec.ofNat 64 (pByte p 20 8)).toInt) / 2)))

/-! ### Packets between the modules -/

/-- A WRITE that arrives, passes the checks and finds a window that admits it stores its bytes and no others and is answered
with code 0; a READ so admitted is answered with the bytes that stand there and changes none; a WRITE that no window
admits stores nothing, is logged and answered with code 3. A request held in the receive buffer does the same when it is
tried again.

Rules: R231, R232, R237, R259, R281, R283. Choices of the model: log entries 2, 36, 43. -/
def Obligations.PeerRequestResult : Prop :=
  ∀ (l m : LinkId) (us : List Upset) (err : Option CxlErr) (s : State) (r : RxWait) (rest : List RxWait) (a : Nat),
    let z := strike s us
    let p := r.pkt
    let n := reqLen p
    let win (w : Bool) : Option Nat := memWindow z (.peer (pSrc p)) (pJob p) a n w
    let first : Prop := Arrived z l r rest ∧ reqWaits z.links[l] (pJob p) = false
    let held : Prop := (z.links[l]).waits = [r]
    let answered (t : State) (ptype code : Nat) (bs : List Byte) : Prop :=
      ∃ y ∈ (t.links[m]).tx, y.pkt = mkPkt z ptype 2 1 (pJob p) (pSrc p) (pTag p) (leBytes 1 code) bs
    let stored (t : State) : Prop := (∀ i, (h : i < p.data.length) → t.gddr.get (a + i) = p.data[i]) ∧
      ∀ b, b < a ∨ a + n ≤ b → t.gddr.get b = z.gddr.get b
    z.power.held = false → placeLocal z (pByte p 12 6) n = .gddr a → GddrFree z a n → Memory.wf z.gddr = true →
    choosePlane z (linkDie l) 5 (pSrc p) (pJob p) = some m →
    (pType p = 2 → p.data.length = n → (win true).isSome →
      (first → ∃ t, exec (.write l us err) s = .next t ∧ (t.links[l]).rxq = rest ∧ stored t ∧ answered t 5 0 [] ∧
        t.cores = z.cores) ∧
      (held → ∃ t, exec (.windowAccessRetry (.link l) us err) s = .next t ∧ (t.links[l]).waits = [] ∧ stored t ∧
        answered t 5 0 [])) ∧
    (pType p = 3 → (win false).isSome →
      (first → ∃ t, exec (.read l us err) s = .next t ∧ (t.links[l]).rxq = rest ∧ t.gddr = z.gddr ∧
        answered t 4 0 (z.gddr.read a n) ∧ t.cores = z.cores) ∧
      (held → ∃ t, exec (.windowAccessRetry (.link l) us err) s = .next t ∧ (t.links[l]).waits = [] ∧ t.gddr = z.gddr ∧
        answered t 4 0 (z.gddr.read a n))) ∧
    (pType p = 2 → win true = none → first → ∃ t, exec (.write l us err) s = .next t ∧ t.gddr = z.gddr ∧
      answered t 5 3 [] ∧ bit (t.rd (memBase + 0x18)) 63 = true)

/-- An answer completes the request it answers: its tag is free, a READ_RSP's bytes reach the transfer that asked for them, a
WRITE_ACK's write is out no more, a code other than 0 fails the transfer. E2E_TIMEOUT sends a request again, and after four
resends fails it with code 8. QCELLS brings its cells to the receive buffer; QFLOW pauses or resumes the forwarding queues
that send to the queue it names. A packet with a wrong ECRC is discarded by each of these commands.

Rules: R209, R217, R281, R282, R283. Choices of the model: log entry 43. -/
def Obligations.PeerAnswerResult : Prop :=
  ∀ (l : LinkId) (s : State) (r : RxWait) (rest : List RxWait) (q : NetReq) (c : CoreId) (ch : Fin 4) (seq : Nat)
    (d : DmaRun) (o : DmaOut),
    let p := r.pkt
    let waiting : Prop := s.net.reqs = [q] ∧ q.owner = some (.dma c ch seq) ∧ runOf s c ch seq = some d ∧
      d.out.find? (fun x => x.tag == q.tag) = some o ∧ d.fail = none ∧ s.net.collPend = [] ∧
      ∀ j : JobId, (s.rcl.jobs[j]).cairn = none
    let mine : Prop := waiting ∧ Arrived s l r rest ∧ q.tag = pTag p ∧ pDst q.pkt = pSrc p ∧ q.job = pJob p
    let d' : DmaRun := { d with out := d.out.erase o }
    let done (i : Instr) (x : DmaRun) : Prop := ∃ t, exec i s = .next t ∧ (t.links[l]).rxq = rest ∧ t.net.reqs = [] ∧
      runOf t c ch seq = some x ∧ t.gddr = s.gddr
    s.power.held = false →
    (mine → pType p = 4 → pType q.pkt = 3 → pByte p 12 1 = 0 → d.writing = false →
      done (.readRsp l) { d' with parts := d.parts ++ [(o.off, (p.data.drop (o.addr % 64)).take o.len)] }) ∧
    (mine → pType p = 4 → pType q.pkt = 3 → pByte p 12 1 ≠ 0 → done (.readRsp l) (runFail d' (pByte p 12 1) o.addr)) ∧
    (mine → pType p = 5 → pType q.pkt = 2 → pByte p 12 1 = 0 → d.writing = true → done (.writeAck l) d') ∧
    (∀ (tag : BitVec 13), waiting → q.tag = tag.toNat →
      (∀ m : LinkId, q.resends < 4 → choosePlane s (duOf c).val 4 (pDst q.pkt) q.job = some m →
        ∃ t, exec (.e2eTimeoutExpiry tag) s = .next t ∧ t.net.reqs = [{ q with resends := q.resends + 1 }] ∧
          ∃ y ∈ (t.links[m]).tx, y.pkt = q.pkt) ∧
      (4 ≤ q.resends → ∃ t, exec (.e2eTimeoutExpiry tag) s = .next t ∧ t.net.reqs = [] ∧
        runOf t c ch seq = some (runFail d' 8 o.addr))) ∧
    (∀ (v : QId), Arrived s l r rest → pType p = 1 → pByte p 12 1 = v.val → ∃ t, exec (.qcells l) s = .next t ∧
      (t.links[l]).rxq = rest ∧ (t.links[l]).cells = (s.links[l]).cells ++
        [{ q := v, job := pJob p, cells := cellsOf p, units := r.units, pooled := pPooled p }] ∧ t.queues = s.queues) ∧
    (Arrived s l r rest → pType p = 8 →
      let key := (pSrc p, pByte p 12 1)
      ∃ t, exec (.qflow l) s = .next t ∧ (t.links[l]).rxq = rest ∧ (key ∈ t.net.stops ↔ pByte p 13 1 = 1) ∧
        ∀ v : QId, qForward s v = true → (qDestDev s v, qDestQ s v) = key →
          (t.queues[v]).paused = (pByte p 13 1 == 1)) ∧
    ((s.links[l]).rxq = r :: rest → pEcrc p ≠ crc32 (ecrcBytes p) →
      ∀ i ∈ [Instr.qcells l, .readRsp l, .writeAck l, .collAck l, .qflow l, .timeRequest l, .timeReply l],
        ∃ t, exec i s = .next t ∧ (t.links[l]).rxq = rest ∧ t.gddr = s.gddr ∧ t.queues = s.queues ∧ t.cores = s.cores)

/-- The first part of a COLL transfer of several takes an entry and waits there for the others; the part that completes its last stripe
frees the entry and, of a job that the module does not serve, is answered with a COLL_ACK of completion. A COLL_ACK that tells of
completion frees the transfer, as does one that tells of failure; one that names stripes sends all their parts again, each stripe on one
plane. With nothing heard, the receiver asks for what is missing with a COLL_ACK that names it, and the sender sends every part of every
stripe again, each at most four times; then the transfer ends.

Rules: R289, R290, R291, R316. Choices of the model: log entry 44. -/
def Obligations.CollTransferResult : Prop :=
  ∀ (l : LinkId) (us : List Upset) (s : State) (r : RxWait) (rest : List RxWait) (dev : DevId) (job : JobId) (xid : BitVec 16),
    let z := strike s us
    let p := r.pkt
    let quiet (x : State) : Prop := ∀ k : LinkId, ∀ w ∈ (x.links[k]).waits, pType w.pkt ≠ 6
    let resent (t : State) (c : CollTx) (i : Nat) : Prop := ∃ m : LinkId, ∀ x ∈ stripePkts s c i, ∃ y ∈ (t.links[m]).tx, y.pkt = x
    s.power.held = false →
    (Arrived z l r rest → pType p = 6 → 2 ≤ pByte p 19 1 → 1 ≤ pByte p 16 2 → z.net.collRx = [] → quiet z →
      ∃ t, exec (.coll l us) s = .next t ∧ (t.links[l]).rxq = rest ∧ t.net.collRx = [{
        src := pSrc p, job := pJob p, xid := pByte p 12 2, tag := pTag p, stripes := pByte p 16 2,
        info := leBytes 8 (pByte p 20 8), shared := false, hdr := p.hdr
        parts := [(pByte p 14 2, pByte p 18 1, pByte p 19 1, p.data)] }] ∧ t.gddr = z.gddr) ∧
    (∀ c : CollRx, Arrived z l r rest → pType p = 6 → z.net.collRx = [c] → c.src = pSrc p → c.job = pJob p → c.xid = pByte p 12 2 →
      quiet z → (c.parts.all (fun x => !(x.1 == pByte p 14 2 && x.2.1 == pByte p 18 1))) = true →
      missing { c with parts := c.parts ++ [(pByte p 14 2, pByte p 18 1, pByte p 19 1, p.data)] } = [] →
      (∀ j : JobId, j.val = c.job → rclEn z j = false) →
      ∃ t, exec (.coll l us) s = .next t ∧ (t.links[l]).rxq = rest ∧ t.net.collRx = [] ∧ t.gddr = z.gddr ∧ t.cores = z.cores ∧
        ∀ m : LinkId, choosePlane z 0 3 c.src c.job = some m → ∃ y ∈ (t.links[m]).tx,
          pType y.pkt = 7 ∧ pDst y.pkt = c.src ∧ pJob y.pkt = c.job ∧ pByte y.pkt 12 2 = c.xid ∧ pByte y.pkt 14 1 = 1) ∧
    (∀ c : CollTx, s.net.collTx = [c] → s.net.collPend = [] →
      (Arrived s l r rest → pType p = 7 → c.dst = pSrc p → c.job = pJob p → c.xid = pByte p 12 2 →
        ∃ t, exec (.collAck l) s = .next t ∧ (t.links[l]).rxq = rest ∧
          (pByte p 14 1 ≠ 2 → t.net.collTx = []) ∧
          (pByte p 14 1 = 2 → c.rounds < 4 → usable s c.dst c.job ≠ 0 →
            t.net.collTx = [{ c with rounds := c.rounds + 1 }] ∧ ∀ i, i < 64 → (pByte p 18 8).testBit i = true →
              pByte p 16 2 + i < stripesOf c.stream → resent t c (pByte p 16 2 + i))) ∧
      (c.dst = dev.toNat → c.job = job.val → c.xid = xid.toNat →
        (c.rounds < 4 → usable s c.dst c.job ≠ 0 → ∃ t, exec (.collResendTimerExpiry dev job xid) s = .next t ∧
          t.net.collTx = [{ c with rounds := c.rounds + 1 }] ∧ t.gddr = s.gddr ∧
          ∀ i, i < stripesOf c.stream → resent t c i) ∧
        (4 ≤ c.rounds → ∃ t, exec (.collResendTimerExpiry dev job xid) s = .next t ∧ t.net.collTx = []))) ∧
    (∀ c : CollRx, s.net.collRx = [c] → c.src = dev.toNat → c.job = job.val → c.xid = xid.toNat →
      (c.rounds < 4 → ∃ t, exec (.collNakTimerExpiry dev job xid) s = .next t ∧
        t.net.collRx = [{ c with rounds := c.rounds + 1 }] ∧ t.gddr = s.gddr ∧
        (c.src < 32768 → c.job < 16 → c.xid < 65536 → (∀ i ∈ missing c, i < 65536) → ∀ m : LinkId, choosePlane s 0 3 c.src c.job = some m →
          let base := (missing c).head?.getD 0
          ∃ y ∈ (t.links[m]).tx, pType y.pkt = 7 ∧ pDst y.pkt = c.src ∧ pJob y.pkt = c.job ∧ pByte y.pkt 12 2 = c.xid ∧
            pByte y.pkt 14 1 = 2 ∧ pByte y.pkt 16 2 = base ∧
            ∀ i, i < 64 → ((pByte y.pkt 18 8).testBit i = true ↔ base + i ∈ missing c))) ∧
      (4 ≤ c.rounds → quiet s → ∃ t, exec (.collNakTimerExpiry dev job xid) s = .next t ∧ t.net.collRx = []))

/-! ### Reduction and commit -/

/-- A SYNC message of the step in progress. PENDING marks the child it comes from as awaited, EXP adds the child's report to the
vertex. DECIDE gives the bucket its decision. READY counts its members, and once all are counted the summit decides; FAIL makes it
decide to abandon. COMMIT moves JOB_STEP on by 1, inverts every EPOCH bit and begins a new step; ABANDON leaves JOB_STEP and begins
the next attempt.

Rules: R305, R307, R317, R318, R320, R321, R322, R323. Choices of the model: log entries 47, 49. -/
def Obligations.SyncMessageResult : Prop :=
  ∀ (j : JobId) (us : List Upset) (s : State) (p : Pkt) (e : QId),
    let z := strike s us
    let k := s.rcl.jobs[j]
    let job (t : State) : RclJob := t.rcl.jobs[j]
    let bkt (t : State) : Bucket := t.rcl.bkts[e]
    s.power.held = false →
    (∀ v lo hi x, bktFor s j (pByte p 14 2) = some e → parentOf s j e (pSrc p) (pByte p 20 1) = some (v, lo, hi) →
      expVertex s e v.level = some x → x.done = false → (∀ i ∈ x.ins, i.lo ≠ lo) →
      let others := (bkt s).ev.filter (fun y => y.level != x.level)
      (OwnSync s j 2 p → ∃ t, exec (.pending none) s = .next t ∧
        (bkt t).ev = others ++ [{ x with pend := x.pend ++ [lo] }] ∧ t.regs = s.regs ∧ t.cores = s.cores) ∧
      (OwnSync s j 1 p → (pByte p 24 1).testBit 0 = false → x.ins.length + 1 < v.kids.length →
        ∃ t, exec (.exp none) s = .next t ∧ t.regs = s.regs ∧ t.cores = s.cores ∧
          (bkt t).ev = others ++ [{ x with ins := x.ins ++
            [{ lo := lo, hi := hi, emax := sext 8 (pByte p 21 1), n := pByte p 22 2, excl := syncExcl p }] }])) ∧
    (∀ v c, OwnSync z j 3 p → bktFor z j (pByte p 14 2) = some e →
      (memberIx (membersOf z j) (pSrc p)).bind (fun i => vtxAt (chain (membersOf z j) i) (pByte p 20 1)) = some v →
      v.kids.find? (fun q => holds q.2 (groupSelf z j)) = some c → c.1 = 0 → (bkt z).dec = none → (bkt z).hand = none →
      (bkt z).early = [] → (job z).due = [] →
      ∃ t, exec (.decide none us) s = .next t ∧ (bkt t).phase = 3 ∧
        (bkt t).dec = some { n := pByte p 22 2, eb := sext 8 (pByte p 21 1) + 8, excl := syncExcl p }) ∧
    (OwnSync s j 4 p → groupSelf s j = 0 → k.decided = false →
      let n := satAdd 16 k.readyCnt (pByte p 22 2)
      ∃ t, exec (.ready none) s = .next t ∧ (job t).readyCnt = n ∧ (job t).firstReady = true ∧
        (job t).decided = decide (groupG s j ≤ n) ∧ t.gddr = s.gddr ∧ t.cores = s.cores) ∧
    (OwnSync s j 7 p → groupSelf s j = 0 → k.decided = false →
      ∃ t, exec (.fail none) s = .next t ∧ (job t).decided = true ∧ (job t).phase = 3 ∧ t.gddr = s.gddr ∧ t.cores = s.cores) ∧
    (OwnSync s j 5 p → ∃ t, exec (.commit none) s = .next t ∧ (job t).phase = 1 ∧ (job t).attempt = 0#8 ∧
      t.rd (rclBase j + 0x10) = BitVec.ofNat 64 ((jobStep s j + 1) % 2 ^ 32) ∧
      ∀ x ∈ jobBkts s j, ∀ sh, sh < bShards s x → bEpoch t x sh = !bEpoch s x sh) ∧
    (OwnSync s j 6 p → ∃ t, exec (.abandon none) s = .next t ∧ (job t).phase = 1 ∧ (job t).attempt = k.attempt + 1 ∧
      t.rd (rclBase j + 0x10) = s.rd (rclBase j + 0x10) ∧ ∀ x ∈ jobBkts s j, ∀ sh, sh < bShards s x →
        bEpoch t x sh = bEpoch s x sh)

/-- Inside a module: a good hand-over record is taken with the largest exponent of its contribution; a deadline excludes the
children that have sent nothing; a work record's result frees its ring entry and drains its guard, an optimised shard's inactive
half then counts as written, and a fill that no record waits for is drained; a member whose buckets are all through becomes READY;
BELAY_N's release sends READY for the rack; a summit abandons at COMMIT_TIMEOUT; a member that has sent READY notes its wait for
the outcome once.

EN of a job starts its service afresh, with the member table that stands in module memory then (log entry 46), or ends it; BELAY_EN takes the value written; FAIL fails the step in progress, or after
READY has been sent the next one. A held signal whose target has come back is applied to it, and a notification that waited for
its core is written once the core is back, with its SIGNAL.

Rules: R302, R306, R309, R313, R314, R319, R320, R325, R328. Choices of the model: log entries 25, 46, 47, 48. -/
def Obligations.CommitServiceResult : Prop :=
  (∀ (j : JobId) (e : QId) (us : List Upset) (s : State),
     let z := strike s us
     let k := s.rcl.jobs[j]
     let job (t : State) : RclJob := t.rcl.jobs[j]
     let bkt (t : State) : Bucket := t.rcl.bkts[e]
     let said (t : State) (n : Nat) : Prop := t.net.self = s.net.self ++
       [mkPkt s 9 3 0 j.val s.devid 0 (sayFields s j skReady 0 0 0 n false 0) (syncData [])]
     s.power.held = false →
     (∀ c : CoreId, bValid z e = true → bJob z e = j.val → rclEn z j = true → z.domainOn 48 = true → bCore z e = c.val →
       (bkt z).accepted = false → (bkt z).dec = none → guardFilled z c (bGuard z e) = true → coreAway z j c = false →
       (c, bGuard z e) ∉ (job z).drains → memServes z = true →
       let at_ := (z.rd (bktBase e + 8)).toNat
       let rec_ := spBytes z c at_ 64
       let empty := BitVec.ofNat 128 (leAt rec_ 32 16)
       let entries (sh : Nat) : Nat := leAt rec_ 8 8 + sh * 278528 + 262144
       spBankOff z c at_ 64 = none → spMarks z c at_ 64 = [] → GddrFree z (leAt rec_ 16 8) 576 →
       (∀ sh, sh < bShards z e → empty.getLsbD sh = false → GddrFree z (entries sh) 16384) →
       handOk z j e rec_ (z.gddr.read (leAt rec_ 16 8) 576) = true →
       ∃ t h, exec (.handoverAccept e us) s = .next t ∧ (bkt t).accepted = true ∧ (bkt t).phase = 2 ∧ (bkt t).hand = some h ∧
         h.caddr = leAt rec_ 8 8 ∧ h.cbaddr = leAt rec_ 16 8 ∧ h.empty = empty ∧
         h.emax = (List.range (bShards z e)).foldl (fun m sh =>
           if empty.getLsbD sh then m else entsMax m (z.gddr.read (entries sh) 16384)) (-128) ∧
         t.gddr = z.gddr ∧ t.cores = z.cores) ∧
     (∀ (lv : Fin 16) (v : Vtx) (x : ExpVertex), bJob s e = j.val → vtxAt (selfChain s j) lv = some v →
       expVertex s e lv = some x → x.done = false → rclEn s j = true → fld (s.rd (rclBase j + 0x28)) 0 32 ≠ 0 →
       let silent := v.kids.filter (fun q => !x.ins.any (fun i => i.lo == q.2.1) && !x.pend.contains q.2.1)
       ∃ t y, exec (.deadlineExpiry e lv) s = .next t ∧ expVertex t e lv = some y ∧ y.pend = x.pend ∧
         y.ins = x.ins ++ silent.map (fun q => { lo := q.2.1, hi := q.2.2, emax := -128, n := 0
                                                 excl := (List.range (q.2.2 - q.2.1)).map (q.2.1 + ·) })) ∧
     (∀ (c : CoreId) (i : Nat), z.domainOn 48 = true → rclEn z j = true → i < fld (z.rd (rclBase j + 0x38)) 48 8 →
       coreAway z j c = false → memServes z = true →
       let g := (fld (z.rd (rclBase j + 0x38)) 36 12 + i) % 4096
       guardFilled z c g = true → (job z).due = [] →
       ((job z).wq = [] → (workCores z j).contains c.val = true →
         ∃ t, exec (.rclWorkResult j c i us) s = .next t ∧ guardFilled t c g = false ∧ (job t).wq = [] ∧ t.gddr = z.gddr) ∧
       (∀ w, (job z).wq = [(i, w)] → w.core = c.val → w.e = e.val →
         ((bkt z).dec = none → ∃ t, exec (.rclWorkResult j c i us) s = .next t ∧ guardFilled t c g = false ∧
           (job t).wq = [] ∧ t.gddr = z.gddr) ∧
         ((bkt z).dec.isSome = true → w.opt = true → w.s < 128 → bJob z e = j.val →
           GddrFree z (paramAddr z e (!bEpoch z e w.s) w.s) (paramLen z e) →
           ∃ t, exec (.rclWorkResult j c i us) s = .next t ∧ guardFilled t c g = false ∧ (job t).wq = [] ∧
             (bkt t).got.getLsbD w.s = true ∧ t.gddr = z.gddr))) ∧
     (rclEn s j = true → k.phase = 1 → k.failed = false → s.domainOn 48 = true → (∀ x ∈ jobBkts s j, bktReady s x = true) →
       ∃ t, exec (.rclReadyReached j) s = .next t ∧ (job t).phase = 2 ∧ t.cores = s.cores ∧
         (belayEn s j = true → (job t).belayDue = rackLeader s j ∧ (job t).readySent = !rackLeader s j ∧ t.net = s.net) ∧
         (belayEn s j = false → (job t).readySent = true ∧ (member s j 0 = s.devid → said t 1))) ∧
     (k.belayDue = true → k.phase = 2 → k.failed = false → s.pins.belayLow = false →
       ∃ t, exec (.belayRelease j) s = .next t ∧ (job t).belayDue = false ∧ (job t).readySent = true ∧
         (member s j 0 = s.devid → said t (rackMates s j).length)) ∧
     (rclEn s j = true → groupSelf s j = 0 → k.firstReady = true → k.decided = false →
       ∃ t, exec (.commitTimeoutExpiry j) s = .next t ∧ (job t).decided = true ∧ (job t).phase = 3 ∧ t.cores = s.cores) ∧
     (k.phase = 2 → k.readySent = true → k.waited = false → ∃ t, exec (.commitWaitExpiry j) s = .next t ∧
       (job t).waited = true ∧ (job t).phase = 2 ∧ t.cores = s.cores ∧ t.gddr = s.gddr) ∧
     (k.readySent = false → exec (.commitWaitExpiry j) s = .next s) ∧
     (∀ (c : Cairn) (a : Nat), k.cairn = some c → c.fail = 0 → c.copy = false → c.stage ≠ 0 → c.step < 2 ^ 32 → k.due = [] →
       placeLocal s (s.rd (rclBase j + 0x48)).toNat c.bytes.length = .tier a → Memory.wf s.tier = true →
       ∃ t, exec (.cairnComplete j none) s = .next t ∧ (job t).cairn = none ∧
         t.rd (rclBase j + 0x58) = BitVec.ofNat 64 (2 + c.step * 2 ^ 32) ∧
         (∀ i, (h : i < c.bytes.length) → t.tier.get (a + i) = c.bytes[i]) ∧
         ∀ b, b < a ∨ a + c.bytes.length ≤ b → t.tier.get b = s.tier.get b)) ∧
  (∀ (j : JobId) (on : Bool) (s : State),
     let k := s.rcl.jobs[j]
     let job (t : State) : RclJob := t.rcl.jobs[j]
     s.power.held = false → s.power.recovery = false →
     (let a := (s.rd (rclBase j + 0x20)).toNat
      let n := 2 * groupG s j
      s.domainOn 48 = true → rclEn s j ≠ on → (on = true → GddrFree s a n) → ∃ t, exec (.jobEn j on) s = .next t ∧ rclEn t j = on ∧
       job t = (if on then { phase := 1, cairn := k.cairn } else { cairn := k.cairn }) ∧
       (on = true → groupOf t j = (List.range (groupG s j)).map (fun i => leAt (gddrLater s a n) (2 * i) 2 % 32768)) ∧
       (∀ e ∈ jobBkts s j, t.rcl.bkts[e] = { phase := if on then 1 else 0 }) ∧ t.cores = s.cores ∧ t.gddr = s.gddr) ∧
     (s.domainOn 48 = true → ∃ t, exec (.jobBelayEn j on) s = .next t ∧ bit (t.rd (rclBase j)) 1 = on ∧ t.rcl = s.rcl ∧
       t.cores = s.cores) ∧
     (s.domainOn 48 = true → rclEn s j = true →
       (k.readySent = true → exec (.jobFail j) s = .next (s.setRclJob j { k with failLater := true })) ∧
       (k.readySent = false → ∃ t, exec (.jobFail j) s = .next t ∧ (job t).failed = true ∧ t.cores = s.cores ∧ t.gddr = s.gddr)) ∧
     (∀ (c t : CoreId) (h : HeldSig), (s.unit c).held = [h] → h.target = t.val → h.sem < 64 →
       sigPath s (s.jobOf c) h.target = .apply t → RunsFree s c → RunsFree s t →
       let n := (semGet (s.loc t) h.sem).toNat + h.value
       n ≤ 0xFFFF →
       exec (.heldSignalRetry (.core c)) s =
         .next (semSet (s.setUnit c { s.unit c with held := [] }) t h.sem (BitVec.ofNat 16 n))) ∧
     (∀ n : Note, k.notes = [n] → k.sigs = [] → k.drains = [] → k.due = [] → coreAway s j n.core = false → n.bytes.length = 64 →
       Memory.wf (s.loc n.core).sp = true →
       n.off % 64 = 0 → n.off + 64 ≤ spSize → spBankOff s n.core n.off 64 = none →
       (∀ e ∈ jobBkts s j, (s.rcl.bkts[e]).left = [] ∧ (s.rcl.bkts[e]).early = []) → sigPath s (some j.val) n.core = .apply n.core →
       RunsFree s n.core → n.sem < 64 → (semGet (s.loc n.core) n.sem).toNat < 0xFFFF →
       ∃ t, exec (.heldSignalRetry (.rcl j)) s = .next t ∧ (job t).notes = [] ∧ spBytes t n.core n.off 64 = n.bytes ∧
         (semGet (t.loc n.core) n.sem).toNat = (semGet (s.loc n.core) n.sem).toNat + 1 ∧ t.gddr = s.gddr))

/-! ### The Ihlah rings and their descriptors -/

/-- Doorbells, fetching, starting and completing. A producer or consumer index in range is taken, another stops the ring with
CAUSE 1; a doorbell of a function that does not drive the ring, the producer's or the consumer's, changes neither index. A fetch reads the host's memory at the ring's entry CONS and takes the descriptors that the host
answers with, and a failed one stops the ring with CAUSE 2. A descriptor that passes its checks begins, another is due with the
first status that applies; a due descriptor leaves the ring. Enabling a ring sets PROD and CONS to 0, before what the ring holds back is written, disabling it aborts what has not
started. The coalescing delay ends. A vector whose mask ends while it is pending is sent, with the address and data of its entry, and is no
longer pending.

Rules: R339, R340, R342, R343, R344, R345, R349, R350, R351. Choices of the model: log entries 15, 50, 54. -/
def Obligations.RingResult : Prop :=
  ∀ (r : RingId) (b : Sender) (v : W64) (s : State),
    let k := s.host.rings[r]
    let ring (t : State) : Ring := t.host.rings[r]
    let w : BitVec 32 := v.setWidth 32
    (∀ f, fnOf b = some f → barGate s b = none →
      (sqRing r = true → s.ringFn r = f → w ≠ k.prod →
        ((w - k.cons).toNat ≤ s.ringSize r → (k.prod - k.cons).toNat < (w - k.cons).toNat →
          exec (.sqDoorbell r b v) s = .next (s.setRing r { k with prod := w })) ∧
        (s.ringSize r < (w - k.cons).toNat → ∃ t, exec (.sqDoorbell r b v) s = .next t ∧ (ring t).err = true ∧
          (ring t).cause = 1 ∧ (ring t).prod = k.prod)) ∧
      (sqRing r = false → s.ringFn r = f → w ≠ k.cons →
        ((k.prod - w).toNat ≤ s.ringSize r → (k.prod - w).toNat < (k.prod - k.cons).toNat →
          ∃ t, exec (.cqDoorbell r b v) s = .next t ∧ (ring t).cons = w ∧ (ring t).err = k.err) ∧
        (s.ringSize r < (k.prod - w).toNat → ∃ t, exec (.cqDoorbell r b v) s = .next t ∧ (ring t).err = true ∧
          (ring t).cause = 1 ∧ (ring t).cons = k.cons)) ∧
      (sqRing r = true → s.ringFn r ≠ f → ∃ t, exec (.sqDoorbell r b v) s = .next t ∧ ring t = k) ∧
      (sqRing r = false → s.ringFn r ≠ f → ∃ t, exec (.cqDoorbell r b v) s = .next t ∧ (ring t).cons = k.cons ∧
        (r.val ≠ 1 → ring t = k))) ∧
    (∀ n : Nat, let m := min n (fetchable s r)
      m ≠ 0 →
      (∀ bs, ∃ t, exec (.descriptorFetch r n (.ok bs)) s = .next t ∧ (ring t).cons = k.cons + BitVec.ofNat 32 m ∧
        t.host.out = s.host.out ++
          [.read (s.ringFn r) ((s.rd (ringBase r)).toNat + 64 * (k.cons.toNat % s.ringSize r)) (64 * m) false] ∧
        (ring t).descs.map (·.bytes) = k.descs.map (·.bytes) ++
          (List.range m).map (fun i => (List.range 64).map (fun x => getD bs (64 * i + x) 0#8))) ∧
      ∃ t, exec (.descriptorFetch r n .ur) s = .next t ∧ (ring t).err = true ∧ (ring t).cause = 2 ∧
        (ring t).cons = k.cons ∧ (ring t).descs = k.descs) ∧
    (∀ i d, nextStart s r = some (i, d) → ((dN d 1 1).testBit 1 = false ∨ i = 0) → ringGoes s r = true →
      (descCheck s r d = none → exec (.descriptorStart r) s = .next (setRun1 s r i .begun)) ∧
      (∀ st, descCheck s r d = some st → ∃ t, exec (.descriptorStart r) s = .next t ∧
        (ring t).descs[i]? = some { d with run := some (.due st 0#32 0#16) })) ∧
    (∀ i d st res info, k.descs[i]? = some d → d.run = some (.due st res info) → ringGoes s r = true →
      ∃ t, exec (.descriptorComplete r i) s = .next t ∧ (ring t).descs = k.descs.eraseIdx i ∧
        (r.val ≠ 0 → (dN d 1 1).testBit 2 = true → st = 0#8 →
          t = s.setRing r { k with descs := k.descs.eraseIdx i })) ∧
    (barGate s b = none → ringBy s r b = true →
      (s.ringEn r = false → 6 ≤ fld (s.rd (ringBase r + 8)) 0 5 → fld (s.rd (ringBase r + 8)) 0 5 ≤ 16 →
        ∃ t, exec (.ringEn r b true) s = .next t ∧ t.ringEn r = true ∧ (ring t).cons = 0#32 ∧ (ring t).err = false ∧
          (k.held = [] → r.val ≠ 1 → (ring t).prod = 0#32)) ∧
      (s.ringEn r = true → ∃ t, exec (.ringEn r b false) s = .next t ∧ t.ringEn r = false ∧
        (ring t).descs = k.descs.map (fun d =>
          if d.run.isNone then { d with run := some (.due 0x1C#8 0#32 0#16) } else d))) ∧
    (k.timer = true → s.power.held = false → ∃ t, exec (.msixDelayExpiry r) s = .next t ∧ (ring t).timer = false ∧ t.regs = s.regs) ∧
    (∀ (fn : Fin 17) (vec : Fin 2048), fn.val = 0 ∨ vec.val < 64 → hears s (fnSender fn) = true →
      let key := s.fnNo fn.val * 4096 + vec.val
      ∃ t, exec (.msixUnmask fn vec) s = .next t ∧ key ∈ t.host.vecOpen ∧
        (s.host.fnOn.contains (s.fnNo fn.val) = true → key ∉ t.host.vecPending ∧
          (key ∈ s.host.vecPending → HostOut.msix fn.val vec.val ((tget s.host.vecAddr key).getD 0#64)
            ((tget s.host.vecData key).getD 0#32) ∈ t.host.out.drop s.host.out.length)) ∧ t.regs = s.regs)

/-- A descriptor of a ring that has begun, whose turn it is at the owner port: NOP is done; LOAD_PROG from the host puts its words
into the instruction memory of every core named; COPY of one line from the host to module memory writes its bytes and no others;
SIGNAL adds to the semaphore. Where the host's answer is an error, the descriptor is due with HOST_ERROR.

Rules: R31, R52, R344, R346, R349. Choices of the model: log entries 15, 51. -/
def Obligations.DescriptorResult : Prop :=
  ∀ (r : RingId) (us : List Upset) (s : State) (d : Desc) (bs : List Byte),
    let z := strike s us
    let begun (x : State) (op : Nat) : Prop := (x.host.rings[r]).descs = [d] ∧ d.run = some .begun ∧ dOp d = op ∧ ringGoes x r = true
    let due (t : State) (st : BitVec 8) (res info : Nat) : Prop := (t.host.rings[r]).descs =
      [{ d with run := some (.due st (BitVec.ofNat 32 res) (BitVec.ofNat 16 info)) }]
    let asks (a len : Nat) : Prop := ownerOn z = true ∧ z.host.ho = .none ∧ hostRoom z (z.ringFn r) = true ∧ inTurn z r = true ∧
      (∀ q ∈ z.host.reads, q.who ≠ .ring r) ∧ 0 < len ∧ len ≤ min (128 * 2 ^ (portOf z true).mrrs) (4096 - a % 4096)
    (begun s 0 → exec (.hostNop r 0) s = .next (dueDesc s r 0 0#8 0 0)) ∧
    (begun z 1 → (dN d 24 1).testBit 0 = true → asks (dN d 16 8) (16 * dN d 32 4) →
      (∀ c ∈ dCores d 8, (z.core c).run = .halted ∧ z.domainOn c.val = true) →
      (bs.length = 16 * dN d 32 4 → ∃ t, exec (.loadProg r us [.ok bs] none 0) s = .next t ∧ due t 0#8 0 0 ∧
        ∀ c ∈ dCores d 8, ∀ i, i < dN d 32 4 → (t.core c).word (dN d 28 2 + i) = BitVec.ofNat 128 (leAt bs (16 * i) 16)) ∧
      ∃ t, exec (.loadProg r us [.ur] none 0) s = .next t ∧ due t 0x16#8 0 0 ∧ t.cores = z.cores) ∧
    (∀ a, begun z 3 → dN d 24 8 = 64 → (dN d 32 1).testBit 0 = true → (dN d 32 1).testBit 1 = false → asks (dN d 8 8) 64 →
      placeOf z (dN d 16 8) 64 = .gddr a → ringPf z r = true → GddrFree z a 64 → Memory.wf z.gddr = true →
      bs.length = 64 → ∃ t, exec (.copy r us [.ok bs] none 0) s = .next t ∧ due t 0#8 1 0 ∧
        (∀ i, (h : i < bs.length) → t.gddr.get (a + i) = bs[i]) ∧
        (∀ x, x < a ∨ a + 64 ≤ x → t.gddr.get x = z.gddr.get x) ∧ t.cores = z.cores) ∧
    (∀ (j : Nat) (c : CoreId) (i : Fin 64), begun s 6 → ringJob r = some j → sigPath s (some j) (dN d 8 1) = .apply c →
      dN d 9 1 = i.val → RunsFree s c → ((s.loc c).sems[i]).toNat + dN d 10 2 ≤ 0xFFFF →
      ∃ t, exec (.hostSignal r 0) s = .next t ∧ due t 0#8 0 0 ∧
        ((t.loc c).sems[i]).toNat = ((s.loc c).sems[i]).toNat + dN d 10 2 ∧ t.cores = s.cores ∧ t.gddr = s.gddr)

/-- RUN starts the cores it names at its INDEX, and is due once all have halted: OK, or CORE_FAULT with the first status at or
above 0xE000, or TIMEOUT where its time had passed, which stops the cores. QPUSH brings its cells; QPOP waits for a packet, copies it to
the host's memory, 4 KiB at a time in its ring's turns at the owner port, and takes it from the queue once it is whole there; it fails with
BUFFER_TOO_SMALL where the packet is longer than the buffer, with HOST_ERROR where the port is off, and with TIMEOUT where none comes.

Rules: R346, R347, R348, R349. Choices of the model: log entries 15, 51, 52. -/
def Obligations.RunAndQueueDescriptorResult : Prop :=
  ∀ (r : RingId) (us : List Upset) (s : State) (d : Desc),
    let z := strike s us
    let only (x : State) (run : DescRun) : Prop := (x.host.rings[r]).descs = [d] ∧ d.run = some run ∧ ringGoes x r = true
    let run_ (t : State) (run : DescRun) : Prop := (t.host.rings[r]).descs = [{ d with run := some run }]
    (only s .begun → dOp d = 2 →
      (∀ c ∈ dCores d 8, runHalted s r c = true ∧ s.domainOn c.val = true) →
      ∃ t, exec (.run r 0) s = .next t ∧ run_ t (.run (BitVec.ofNat 48 (dN d 8 6)) false) ∧
        ∀ c ∈ dCores d 8, (t.core c).run = .running ∧ (t.core c).pc = dN d 16 2) ∧
    (∀ cs, only s (.run cs false) → runDone s r d = true →
      ((∀ c ∈ dCores d 8, (s.core c).status.toNat < 0xE000) → exec (.runComplete r 0) s = .next (dueDesc s r 0 0#8 0 0)) ∧
      (∀ c rest, (dCores d 8).filter (fun c => decide (0xDFFF < (s.core c).status.toNat)) = c :: rest →
        exec (.runComplete r 0) s =
          .next (dueDesc s r 0 0x1A#8 ((s.core c).status.toNat + c.val * 2 ^ 16) (rest.length + 1)))) ∧
    (∀ cs, only s (.run cs true) → runDone s r d = true → exec (.runComplete r 0) s = .next (dueDesc s r 0 0x18#8 0 0)) ∧
    (∀ cs, only s (.run cs false) → runDone s r d = false → dN d 20 4 ≠ 0 →
      ∃ t, exec (.runTimeoutExpiry r 0) s = .next t ∧ run_ t (.run cs true) ∧
        ∀ c ∈ dCores d 8, lentOf s r c = false → (t.core c).run ≠ .running) ∧
    (∀ (q : QId) (bs : List Byte), only s .begun → dOp d = 4 → dN d 8 1 = q.val → ownerOn s = true → s.host.ho = .none →
      hostRoom s (s.ringFn r) = true → inTurn s r = true → (∀ x ∈ s.host.reads, x.who ≠ .ring r) → 0 < dN d 12 4 →
      64 * dN d 12 4 ≤ min (128 * 2 ^ (portOf s true).mrrs) (4096 - dN d 16 8 % 4096) → bs.length = 64 * dN d 12 4 →
      ∃ t cells, exec (.qpush r [.ok bs] 0) s = .next t ∧ run_ t (.push q cells (dN d 12 4)) ∧
        cells.map (fun c => c.data) = (List.range (dN d 12 4)).map (fun i => BitVec.ofNat 512 (leAt bs (64 * i) 64)) ∧
        t.queues = s.queues) ∧
    (∀ q : QId, only s .begun → dOp d = 5 → dN d 8 1 = q.val →
      (dN d 24 4 = 0 → firstLen s.queues[q] = none → exec (.qpop r 0) s = .next (dueDesc s r 0 0x18#8 0 0)) ∧
      (dN d 24 4 ≠ 0 → exec (.qpop r 0) s = .next (setRun1 s r 0 (.pop q (dN d 16 8) (dN d 12 4))))) ∧
    (∀ (q : QId) (dst cap n : Nat), only z (.pop q dst cap) → firstLen z.queues[q] = some n →
      (z.queues[q]).bad = false → z.host.ho = .none → visWaits z q = false →
      (cap < n → exec (.qpopComplete r 0 us) s = .next (dueDesc z r 0 0x19#8 n 0)) ∧
      (n ≤ cap → QPlain z q →
        let cells := (z.queues[q]).head.take n
        let data := cells.flatMap (fun c => leBytes 64 c.data.toNat)
        let tag := (cells.head?.map (fun c => c.mbtag.toNat)).getD 0
        let x := setRun1 z r 0 (.copyOut q dst data n tag)
        let m := min 512 (128 * 2 ^ (portOf z true).mps)
        let part := data.take 4096
        let parts := (part.length + m - 1) / m
        (ownerOn z = false → exec (.qpopComplete r 0 us) s = .next (dueDesc x r 0 0x16#8 0 0)) ∧
        (ownerOn z = true → inTurn x r = false → exec (.qpopComplete r 0 us) s = .next x) ∧
        (ownerOn z = true → inTurn x r = true → ∃ t, exec (.qpopComplete r 0 us) s = .next t ∧
          t.host.out.take (z.host.out.length + parts) = z.host.out ++ (List.range parts).map (fun k =>
            .write (z.ringFn r) (dst + m * k) ((part.drop (m * k)).take m)) ∧
          (4096 < data.length → t.queues = z.queues ∧ run_ t (.copyOut q (dst + 4096) (data.drop 4096) n tag)) ∧
          (data.length ≤ 4096 → (t.queues[q]).head = (z.queues[q]).head.drop n ∧
            run_ t (.due 0#8 (BitVec.ofNat 32 n) (BitVec.ofNat 16 tag)))))) ∧
    (∀ (q : QId) (dst cap : Nat), only s (.pop q dst cap) → firstLen s.queues[q] = none →
      exec (.qpopTimeoutExpiry r 0) s = .next (dueDesc s r 0 0x18#8 0 0))

/-! ### Models, generation and jobs -/

/-- MODEL install of a record that the host gives, for an image in module memory with no conflict, copies the home image to the
resident place and makes the entry RESIDENT for the job. MODEL evict of a clean entry makes it EVICTED and changes no memory. MODEL
pin, unpin and set priority change that one field. GENERATE with resident entries takes the lowest free monitor slot.

Rules: R346, R367, R368, R369, R373. Choices of the model: log entries 15, 52. -/
def Obligations.ModelResult : Prop :=
  ∀ (r : RingId) (us : List Upset) (s : State) (d : Desc) (e : Nat),
    let z := strike s us
    let begun (x : State) (op act : Nat) : Prop := (x.host.rings[r]).descs = [d] ∧ d.run = some .begun ∧ dOp d = op ∧
      dN d 8 1 = e ∧ e < 8 ∧ (op = 8 → dN d 9 1 = act) ∧ ringGoes x r = true
    let due (t : State) (st : BitVec 8) : Prop := (t.host.rings[r]).descs = [{ d with run := some (.due st 0#32 0#16) }]
    let cfg := s.rd (rmtBase e)
    (∀ (j : Nat) (m : List Byte) (x y : Nat), begun z 8 1 → ringJob r = some j → (dN d 24 1).testBit 0 = true →
      ownerOn z = true → z.host.ho = .none → hostRoom z (z.ringFn r) = true → inTurn z r = true →
      (∀ q ∈ z.host.reads, q.who ≠ .ring r) → dN d 16 8 % 64 = 0 → entryStatus z r j d = none →
      m.length = 64 → recOk z m = true → mrTier m = 2 → rmtState z e ≠ 1 → conflicts z e m = [] → mrLen m ≠ 0 →
      placeOf z (mrHome m) (mrLen m) = .gddr x → placeOf z (mrRaddr m) (mrLen m) = .gddr y →
      GddrFree z x (mrLen m) → GddrFree z y (mrLen m) → Memory.wf z.gddr = true →
      ∃ t, exec (.modelInstall r us [.ok m] none 0) s = .next t ∧ due t 0#8 ∧ rmtState t e = 1 ∧ rmtPrio t e = dN d 10 1 ∧
        rmtRec t e = m.take 56 ∧ (∀ i, i < mrLen m → t.gddr.get (y + i) = z.gddr.get (x + i)) ∧
        ∀ a, a < y ∨ y + mrLen m ≤ a → t.gddr.get a = z.gddr.get a) ∧
    (∀ j, begun z 8 2 → ringJob r = some j → entryStatus z r j d = none → rmtState z e = 1 →
      bit (z.rd (rmtBase e)) 3 = false → recServed z (rmtRec z e) = true → ∃ t, exec (.modelEvict r us none 0) s = .next t ∧ due t 0#8 ∧ rmtState t e = 2 ∧ t.gddr = z.gddr ∧ t.tier = z.tier ∧
        t.locals = z.locals) ∧
    (∀ j, ringJob r = some j → entryStatus s r j d = none →
      (begun s 8 3 → exec (.modelPin r 0) s = .next (dueDesc (s.wr (rmtBase e) (setBit cfg 2)) r 0 0#8 0 0)) ∧
      (begun s 8 4 → exec (.modelUnpin r 0) s = .next (dueDesc (s.wr (rmtBase e) (clrBit cfg 2)) r 0 0#8 0 0)) ∧
      (begun s 8 5 → exec (.modelSetPriority r 0) s =
        .next (dueDesc (s.wr (rmtBase e) (setFld cfg 8 8 (dN d 10 1))) r 0 0#8 0 0))) ∧
    (∀ (j : Nat) (slot : Fin 64), begun z 7 0 → ringJob r = some j → rmtState z e ≠ 2 →
      (dN d 9 1 = 0xFF ∨ rmtState z (dN d 9 1) ≠ 2) → entryStatus z r j d = none →
      z.jobs.monitors[slot] = none → (∀ i : Fin 64, i < slot → z.jobs.monitors[i] ≠ none) →
      ∃ t m q c, exec (.generate r us none 0) s = .next t ∧ t.jobs.monitors[slot] = some m ∧ m.job = j ∧ m.ring = r.val ∧
        m.tokens = dN d 16 4 ∧ m.mbtag = BitVec.ofNat 16 (dN d 10 2) ∧ q.val = dN d 12 1 ∧
        (t.host.rings[r]).descs = [{ d with run := some (.gen slot.val q (some c)) }] ∧ c.eop = true ∧ t.queues = z.queues)

/-- JOB_OPEN opens a closed job with its allowed cores; JP_PLACE takes the lowest free cores of the mask or, where there are
too few, none, and JP_RELEASE frees the named cores that are HALTED. PREEMPT asks its victims to yield; the victim's time
limit begins a forced save. JOB_CLOSE closes a job whose cores are HALTED and frees them.

Rules: R346, R357, R358, R359, R360, R363, R364, R371, R372. Choices of the model: log entry 53. -/
def Obligations.JobResult : Prop :=
  ∀ (j : JobId) (v : W64) (us : List Upset) (s : State) (d : Desc),
    let z := strike s us
    let begun (x : State) (op : Nat) : Prop := (x.host.rings[(0 : RingId)]).descs = [d] ∧ d.run = some .begun ∧ dOp d = op ∧
      dN d 8 1 = j.val ∧ ringGoes x 0 = true
    let run_ (t : State) (run : DescRun) : Prop := (t.host.rings[(0 : RingId)]).descs = [{ d with run := some run }]
    let free := (allFin 48).filter (fun (c : CoreId) => bit (s.rd (jpBase j + 8)) c.val && coreFree s c)
    (begun s 0x41 → fieldsOk s 0 d = true → s.jobOpen j = false → ∃ t, exec (.jobOpen 0) s = .next t ∧ run_ t (.due 0#8 0#32 0#16) ∧
      t.jobOpen j = true ∧ t.rd (jpBase j + 8) = BitVec.ofNat 64 (dN d 16 6) ∧ t.cores = s.cores) ∧
    (s.domainOn 48 = true → s.power.recovery = false → bit v 6 = true →
      (fld v 0 6 ≤ free.length → ∃ t, exec (.jobPlace j v) s = .next t ∧ t.cores = s.cores ∧
        ∀ c : CoreId, bit (t.heldBy j) c.val = (bit (s.heldBy j) c.val || (free.take (fld v 0 6)).contains c) ∧
          t.jobOf c = (if (free.take (fld v 0 6)).contains c then some j.val else s.jobOf c)) ∧
      (free.length < fld v 0 6 → ∃ t, exec (.jobPlace j v) s = .next t ∧ t.heldBy j = s.heldBy j ∧
        bit (t.rd (jpBase j + 0x28)) 63 = true)) ∧
    (s.domainOn 48 = true → s.power.recovery = false → (∀ i : JobId, s.lentBy i = 0#64) → ∃ t, exec (.jobRelease j v) s = .next t ∧ t.cores = s.cores ∧
      ∀ c : CoreId,
        let go := bit (s.heldBy j) c.val && bit v c.val && (s.core c).run == .halted
        bit (t.heldBy j) c.val = (bit (s.heldBy j) c.val && !go) ∧ t.jobOf c = (if go then none else s.jobOf c)) ∧
    (begun s 0x43 → s.jobOpen j = true → preemptStatus s d = none → dCores d 16 ≠ [] → ∃ t id, exec (.preempt 0) s = .next t ∧
      run_ t (.preempt id j.val (coreMask (dCores d 16))) ∧
      (∀ c ∈ dCores d 16, bit (t.rd (coreBase c + 8)) 3 = true ∧
        { core := c, job := j.val, id := id } ∈ t.jobs.victims) ∧
      t.cores = s.cores) ∧
    (∀ c : CoreId, s.jobs.victims.any (fun x => x.core == c) = true → (s.core c).run = .running → s.power.held = false →
      ∃ t, exec (.preemptTimeoutExpiry c) s = .next t ∧ t.gddr = s.gddr ∧ t.regs = s.regs ∧
        ((t.core c).run = .draining .forced ∨ (t.core c).run = .saving .forced)) ∧
    (begun z 0x42 → (∀ c : CoreId, bit (z.heldBy j) c.val = true → (z.core c).run = .halted) → z.lentBy j = 0#64 →
      (∀ i : Fin 64, ∀ m, z.jobs.monitors[i] = some m → m.job ≠ j.val) →
      (∀ e, e < 8 → rmtState z e = 1 → rmtJob z e ≠ j.val) →
      ∃ t, exec (.jobClose us none 0) s = .next t ∧ run_ t (.due 0#8 0#32 0#16) ∧ t.jobOpen j = false ∧
        ∀ c : CoreId, bit (t.heldBy j) c.val = false)

/-! ### Telemetry and the governor -/

/-- TEL_EXPORT with GO joins the pending exports of a job that has none pending. The export that runs next writes SEQ 0 to its slot, or fails
with code 1 where the slot is not module memory; at its end its bytes stand in the slot behind the new SEQ, or TEL_STAT takes the
failure.

Rules: R389, R390, R391, R392, R393. Choices of the model: log entry 58. -/
def Obligations.TelemetryExportResult : Prop :=
  ∀ (v : W64) (us : List Upset) (s : State),
    let z := strike s us
    (s.domainOn 48 = true → s.power.recovery = false → bit v 4 = true → s.tel.pending.any (fun e => e.job == fld v 0 4) = false →
      ∃ t x, exec (.telExport v) s = .next t ∧ t.tel.pending = s.tel.pending ++ [x] ∧ x.job = fld v 0 4 ∧ x.kind = 3 ∧
        x.step = jobStep s (fld v 0 4) ∧ t.cores = s.cores ∧ t.gddr = s.gddr) ∧
    (∀ x rest, z.tel.running = none → z.tel.pending = x :: rest → z.domainOn 48 = true →
      let a := telSlot z x.job
      (gddrTop z < a + 131072 → ∃ t, exec (.telExportRun us) s = .next t ∧ t.tel.pending = rest ∧
        t.tel.running = some { job := x.job, code := 1, addr := a, bytes := [] } ∧ t.gddr = z.gddr) ∧
      (a + 131072 ≤ gddrTop z → GddrFree z a 131072 → telCount z x.job = 0 → Memory.wf z.gddr = true →
        ∃ t bs, exec (.telExportRun us) s = .next t ∧ t.tel.pending = rest ∧
          t.tel.running = some { job := x.job, code := 0, addr := a, bytes := bs } ∧ (∀ i, i < 4 → t.gddr.get (a + i) = 0#8) ∧
          ∀ b, b < a ∨ a + 4 ≤ b → t.gddr.get b = z.gddr.get b)) ∧
    (∀ r : ExportRun, z.tel.running = some r → s.power.held = false →
      (r.code ≠ 0 → ∃ t, exec (.telExportDone us) s = .next t ∧ t.tel.running = none ∧ t.gddr = z.gddr ∧
        t.rd (telBase + 0x30) = BitVec.ofNat 64 (2 + r.code * 4 + r.job * 1024)) ∧
      (r.code = 0 → 4 ≤ r.bytes.length → GddrFree z r.addr r.bytes.length → Memory.wf z.gddr = true →
        let n := ((z.rd (telCfg r.job + 0x18)).toNat + 1) % 2 ^ 32
        ∃ t, exec (.telExportDone us) s = .next t ∧ t.tel.running = none ∧ t.rd (telCfg r.job + 0x18) = BitVec.ofNat 64 n ∧
          (∀ i, i < 4 → t.gddr.get (r.addr + i) = getD (leBytes 4 n) i 0#8) ∧
          (∀ i, (h : i < r.bytes.length) → 4 ≤ i → t.gddr.get (r.addr + i) = r.bytes[i]) ∧
          ∀ b, b < r.addr ∨ r.addr + r.bytes.length ≤ b → t.gddr.get b = z.gddr.get b))

/-- With PD63 on, an evaluation of the governor steps ACLK down by 25 MHz where a limit breaches, with the lowest such code
as LIMITER, or where it stands above CEIL, steps it up towards CEIL after ten evaluations with headroom, and else leaves it; at 1,200 MHz a
breach leaves it too. GOV_CFG takes a legal value; one that is illegal, with CEIL or FLOOR not a multiple of 25 or outside 1,200 to 3,300, or
with FLOOR above CEIL, sets CFG_ERR and changes nothing else. SHELF_ALERT_N puts both power limits to 1,800 W and COOLANT_ALERT_N the throttle to 85 °C, and their release brings
back what stood before.

Rules: R402, R403, R404, R452. Choices of the model: log entry 63. -/
def Obligations.GovernorResult : Prop :=
  ∀ (x : Sensors) (v : W64) (b : Sender) (s : State),
    let w := powerNow (sampleAlerts s) x
    let next (a : Nat) (t : State) : Prop := exec (.governorEvaluation x) s = .next t ∧ aclk t = a ∧ t.cores = s.cores ∧ t.gddr = s.gddr
    (bit (pdState s) 63 = true →
      (∀ k, breach w x = some k → 1200 < aclk w → ∃ t, next (aclk w - 25) t ∧ fld (govStat t) 12 3 = k) ∧
      (∀ k, breach w x = some k → aclk w = 1200 → ∃ t, next 1200 t) ∧
      (breach w x = none → govCeil w < aclk w → 1200 < aclk w → ∃ t, next (aclk w - 25) t ∧ fld (govStat t) 12 3 = 0) ∧
      (breach w x = none → aclk w < govCeil w → 10 ≤ w.power.head → 10 ≤ w.power.since →
        ∃ t, next (min (aclk w + 25) (govCeil w)) t) ∧
      (breach w x = none → aclk w ≤ govCeil w → w.power.head < 10 → ∃ t, next (aclk w) t)) ∧
    (ownerOrMgmt b = false → exec (.govCfgWrite b v) s = .next s) ∧
    (ownerOrMgmt b = true → barGate s b = none →
      let ok (n : Nat) : Prop := n % 25 = 0 ∧ 1200 ≤ n ∧ n ≤ 3300
      (ok (fld v 0 12) → ok (fld v 16 12) → fld v 16 12 ≤ fld v 0 12 → ∃ t, exec (.govCfgWrite b v) s = .next t ∧
        govCeil t = fld v 0 12 ∧ govFloor t = fld v 16 12 ∧ aclk t = aclk s ∧ t.cores = s.cores) ∧
      (¬ ok (fld v 0 12) ∨ ¬ ok (fld v 16 12) ∨ fld v 0 12 < fld v 16 12 → exec (.govCfgWrite b v) s = .next (setGov s (setBit (govStat s) 18)))) ∧
    (firmwareRuns s = true → s.power.shelf = none → ∃ t, exec .shelfAlertAssert s = .next t ∧ peakW t = 1800 ∧ sustW t = 1800 ∧
      t.power.shelf = some { peak := peakW s, sust := sustW s } ∧ t.pins.shelfAlert = true ∧ aclk t = aclk s) ∧
    (∀ a : Alert, firmwareRuns s = true → s.power.shelf = some a → a.peakHost = false → a.sustHost = false → a.peak < 4096 →
      a.sust < 4096 → ∃ t, exec .shelfAlertRelease s = .next t ∧ peakW t = a.peak ∧ sustW t = a.sust ∧ t.power.shelf = none ∧
        t.pins.shelfAlert = false) ∧
    (firmwareRuns s = true → s.power.coolant = none → ∃ t, exec .coolantAlertAssert s = .next t ∧ throttle t = 85 ∧
      t.power.coolant = some (throttle s, false) ∧ t.pins.coolantAlert = true ∧ peakW t = peakW s) ∧
    (∀ n, firmwareRuns s = true → s.power.coolant = some (n, false) → n < 256 →
      ∃ t, exec .coolantAlertRelease s = .next t ∧ throttle t = n ∧ t.power.coolant = none ∧ t.pins.coolantAlert = false)

/-! ### Ownership and the host ports -/

/-- RELEASE counts from the owner and TAKE from the standby port, each beginning to quiesce; a heartbeat ends OWNER_LOST, which a
missed heartbeat and a link down set. A RELEASE that completes leaves every ring disabled and the module RELEASED; a TAKE of a
released module swaps the ports' roles and counts in GEN.

Rules: R352, R353, R355, R356. Choices of the model: log entries 8, 54. -/
def Obligations.HandoverResult : Prop :=
  ∀ (b : Sender) (ans : Bool) (s : State),
    let h := s.host
    (b ≠ .owner → exec (.hoRelease b) s = .next s ∧ exec (.hoHeartbeat b) s = .next s) ∧
    (b ≠ .standby → exec (.hoTake b) s = .next s) ∧
    (barGate s .owner = none → h.ho = .none → h.released = false → ∃ t, exec (.hoRelease .owner) s = .next t ∧ t.host.ho = .release ∧
      (∀ r : RingId, sqRing r = true → ∀ d ∈ (t.host.rings[r]).descs, d.run ≠ none) ∧ t.regs = s.regs ∧ t.cores = s.cores) ∧
    (barGate s .standby = none → h.ho ≠ .take → h.released = true → ∃ t, exec (.hoTake .standby) s = .next t ∧ t.host.ho = .take ∧
      t.regs = s.regs ∧ t.cores = s.cores) ∧
    (barGate s .standby = none → h.ho ≠ .take → h.released = false → h.ownerLost = false → ∃ t, exec (.hoTake .standby) s = .next t ∧
      t.host.ho = h.ho ∧ t.host.ownerB = h.ownerB ∧ t.cores = s.cores) ∧
    (barGate s .owner = none → exec (.hoHeartbeat .owner) s = .next { s with host := { h with ownerLost := false } }) ∧
    (fld (s.rd 0x1010) 16 16 ≠ 0 → ∃ t, exec .hbTimeoutExpiry s = .next t ∧ t.host.ownerLost = true ∧ t.cores = s.cores) ∧
    (ownerUp s = false → ∃ t, exec .ownerLinkDownTimer s = .next t ∧ t.host.ownerLost = true ∧ t.cores = s.cores) ∧
    (h.ho = .release → h.reads = [] → s.power.held = false → ∃ t, exec (.handoverComplete ans) s = .next t ∧ t.host.ho = .none ∧ t.host.released = true ∧
      t.host.ownerB = h.ownerB ∧ ∀ r : RingId, t.ringEn r = false) ∧
    (h.ho = .take → h.reads = [] → h.released = true → s.power.held = false → ∃ t, exec (.handoverComplete ans) s = .next t ∧ t.host.ho = .none ∧
      t.host.released = false ∧ t.host.ownerB = !h.ownerB ∧ t.host.gen = h.gen + 1 ∧ t.cores = s.cores)

/-- The host ports. A data link goes down and comes up; an FLR of the owner's PF disables every ring, keeping the role, one of the standby's
PF touches no ring; an FLR of a VF disables the rings it drives; the standby's PERST_N touches no register; VF Enable takes what is
written; an error that a port corrects shows in its AER status until it is cleared; a completion timeout fails the transfer of the descriptor that waits
with HOST_ERROR and is logged; a poisoned write to BAR0 stores nothing and is logged, in the AER uncorrectable status too. A BAR4 read of the owner answers the bytes of the scratchpad, a write stores
them, and the standby reads zeros.

Rules: R331, R332, R333, R336, R337, R354, R383. Choices of the model: log entries 14, 15, 54, 73. -/
def Obligations.HostPortResult : Prop :=
  ∀ (hb ans : Bool) (us : List Upset) (s : State),
    let z := strike s us
    let up (t : State) : Bool := if hb then t.host.upB else t.host.upA
    (up s = true → ∃ t, exec (.portDataLinkDown hb) s = .next t ∧ up t = false ∧ t.cores = s.cores) ∧
    (bit (pdState s) (if hb then 61 else 60) = true → ∃ t, exec (.portDataLinkUp hb) s = .next t ∧ up t = true ∧
      t.cores = s.cores ∧ t.gddr = s.gddr) ∧
    (cfgUp s hb = true → s.host.ownerB = hb → ∃ t, exec (.flrPf hb ans) s = .next t ∧ t.host.ownerB = hb ∧ portOf t true = {} ∧
      ∀ r : RingId, t.ringEn r = false) ∧
    (cfgUp s hb = true → s.host.ownerB = !hb → ∃ t, exec (.flrPf hb ans) s = .next t ∧ portOf t false = {} ∧ t.host.rings = s.host.rings ∧
      t.regs = s.regs ∧ t.cores = s.cores) ∧
    (∀ n : Fin 16, cfgUp s s.host.ownerB = true → ∃ t, exec (.flrVf n ans) s = .next t ∧ ∀ r : RingId,
      t.ringEn r = (s.ringEn r && !(decide (2 ≤ r.val) && s.ringFn r == n.val + 1))) ∧
    (∃ t, exec .perstNStandby s = .next t ∧ portOf t false = {} ∧ t.host.rings = s.host.rings ∧ t.regs = s.regs ∧
      (if s.host.ownerB then t.pins.perstA else t.pins.perstB) = true) ∧
    (∀ on, cfgUp s hb = true → s.host.ownerB = hb → exec (.pcieConfigWrite hb 0 (.vfEnable on)) s =
      .next (setPort s true { portOf s true with vfEn := on })) ∧
    (∀ e : BitVec 32,
      let was : BitVec 32 := (portOf s (s.host.ownerB == hb)).aer
      (portOf (strike s [.aer hb e]) (s.host.ownerB == hb)).aer = was ||| e ∧ (strike s [.aer hb e]).gddr = s.gddr ∧
      (strike s [.aer hb e]).locals = s.locals ∧
      (cfgUp s hb = true → ∃ t, exec (.pcieConfigWrite hb 0 (.aer e)) s = .next t ∧
        (portOf t (s.host.ownerB == hb)).aer = was &&& ~~~e ∧ t.regs = s.regs ∧ t.cores = s.cores)) ∧
    (∀ (r : RingId) (d : Desc) (x : Xfer) (q : HostRead), (s.host.rings[r]).descs = [d] → d.run = some (.xfer x) →
      s.host.reads = [q] → q.who = .ring r → x.reads = [q.seq] → x.fail = none → ringGoes s r = true →
      ∃ t, exec (.completionTimeoutExpiry (.ring r)) s = .next t ∧ t.host.reads = [] ∧ t.queues = s.queues ∧
        t.rd 0x1028 = (bit63 ||| BitVec.ofNat 64 (r.val + 4 * 1024)) ∧
        (t.host.rings[r]).descs = [{ d with run := some (.xfer { x with reads := [], fail := some (0x16#8, 0#32) }) }]) ∧
    (∀ (o : Nat) (w : Width) (v : W64) (x : RegExt), cfgUp s s.host.ownerB = true →
      ∃ t, exec (.registerWrite .owner false o w v x .poison) s = .next t ∧
        (portOf t true).aerUnc = (portOf s true).aerUnc ||| 0x1000#32 ∧ t.cores = s.cores ∧ t.locals = s.locals ∧ t.gddr = s.gddr ∧
        t.queues = s.queues ∧ (barGate s .owner = none → t.rd 0x1028 = (bit63 ||| BitVec.ofNat 64 (0x3F + 3 * 1024)))) ∧
    (∀ (c : CoreId) (off len : Nat) (bs : List Byte), barGate z .owner = none → z.domainOn c.val = true → 0 < len → len ≤ 512 →
      off + len ≤ 0x1000000 → spBankOff z c off len = none → spMarks z c off len = [] →
      exec (.bar4Access .owner (c.val * 0x1000000 + off) len none us) s = .next (answer z (.data (spBytes z c off len))) ∧
      (bs.length = len → Memory.wf (z.loc c).sp = true →
        ∃ t, exec (.bar4Access .owner (c.val * 0x1000000 + off) len (some bs) us) s = .next t ∧
          (∀ i, (h : i < bs.length) → (t.loc c).sp.get (off + i) = bs[i]) ∧
          (∀ a, a < off ∨ off + len ≤ a → (t.loc c).sp.get a = (z.loc c).sp.get a) ∧ t.cores = z.cores ∧ t.gddr = z.gddr)) ∧
    (∀ o len, barGate z .standby = none →
      exec (.bar4Access .standby o len none us) s = .next (answer z (.data (List.replicate len 0#8))))

/-- The standby port's PF answers only at BAR0 offsets 0x1000 to 0x1FFF: elsewhere a write changes nothing and a read returns
zero, in BAR2 and BAR4 too. An access to the security block, and a write to a register that is the management firmware's own, leave the
event SEC_ACCESS_DENIED and nothing else (R419). Of the host control registers it reads HO_STAT (R355). A write to its VF Enable is ignored.
Its PERST_N and its FLR reset that port's function only, and the owner port's PERST_N resets the module (R333).

Rules: R333, R355, R399, R419, R439. Choices of the model: log entries 54, 56. -/
def Obligations.StandbyPortResult : Prop :=
  ∀ (o len : Nat) (bar2 : Bool) (w : Width) (v : W64) (x : RegExt) (y : Straps) (bs : List Byte) (us : List Upset)
    (hb ans : Bool) (s : State),
    let z := strike s us
    let writes : Out := exec (.registerWrite .standby bar2 o w v x) s
    let reads : Out := exec (.rcRegisterRead .standby bar2 o w x) s
    let mgmtOnly : Prop := o = pwrBase + 0xA0 ∨ o = pwrBase + 0xA8
    let denied : State := secEv s 0x9004 6
    let onlyItsFunction (t : State) : Prop := portOf t false = {} ∧ portOf t true = portOf s true ∧
      t = { s with host := { s.host with fnA := t.host.fnA, fnB := t.host.fnB, fnOn := t.host.fnOn, vecOpen := t.host.vecOpen,
                                         vecPending := t.host.vecPending, vecAddr := t.host.vecAddr, vecData := t.host.vecData }
                   pins := t.pins }
    (barGate s .standby = none →
      (w ≠ .other → o % 8 = 0 →
        (bar2 = true ∨ ((o < 0x1000 ∨ 0x2000 ≤ o) ∧ inSec o = false) →
          (bar2 = true ∨ ¬ mgmtOnly → writes = .next s) ∧ reads = .next (answer s (.reg 0#64))) ∧
        (bar2 = false → mgmtOnly → writes = .next denied) ∧
        (bar2 = false → inSec o = true → s.power.rebooting = false → bit (pdState s) 62 = true →
          writes = .next denied ∧ reads = .next (answer denied (.reg 0#64)) ∧ bit (denied.rd (secBase + 0x20)) 4 = true ∧
          Quiet s denied)) ∧
      (regOn s 0x1000 = true → exec (.rcRegisterRead .standby false 0x1000 .whole x) s = .next (answer s (.reg (hoStat s))))) ∧
    (barGate z .standby = none →
      exec (.bar4Access .standby o len none us) s = .next (answer z (.data (List.replicate len 0#8))) ∧
      exec (.bar4Access .standby o len (some bs) us) s = .next z) ∧
    (s.host.ownerB = !hb →
      (∀ on, exec (.pcieConfigWrite hb 0 (.vfEnable on)) s = .next s) ∧
      (∃ t, exec .perstNStandby s = .next t ∧ onlyItsFunction t) ∧
      (cfgUp s hb = true → ∃ t, exec (.flrPf hb ans) s = .next t ∧ onlyItsFunction t)) ∧
    (bit (pdState s) 62 = true → ∃ t, exec (.perstNOwner y) s = .next t ∧ (∀ q : QId, qOn t q = false) ∧ (∀ r : RingId, t.ringEn r = false) ∧
      (∀ c : CoreId, (t.core c).run = .halted ∧ (t.core c).status = 0xF000#16) ∧ fld (t.rd (pwrBase + 0x90)) 0 4 = 2)

/-! ### Power, clocks and resets -/

/-- Power-on and the resets. A valid input brings PD63 up alone, the PON timer PD62 with the boot ROM; the ROM latches the straps and
starts the firmware of an image that passes its checks, or enters recovery; BOOT_DONE brings the module up. The loss of the input
switches every domain off and keeps the flash. A MOD reset resets the cores and keeps the power domains, an MGR reset touches no core and
no module memory. The owner port's PERST_N runs a MOD reset
whenever PD62 is on, in the boot ROM, in recovery and after a thermal trip too. The firmware's write restarts the watchdog; one of a host
port leaves the event SEC_ACCESS_DENIED. The values that the cores start with are those of
State.reset, the model's choice where the spec gives none.

Rules: R397, R398, R399, R400, R409, R411, R412, R421, R451. Choices of the model: log entries 3, 5, 56, 61, 62. -/
def Obligations.BootAndResetResult : Prop :=
  ∀ (x : Straps) (s : State),
    let p := s.power
    let cause (t : State) : Nat := fld (t.rd (pwrBase + 0x90)) 0 4
    let fresh (t : State) (n : Nat) : Prop := t.power.boot = (if p.boot = .rom then .rom else .firmware) ∧ t.cores = State.reset.cores ∧ t.queues = State.reset.queues ∧
      cause t = n ∧ bit (t.rd (pwrBase + 0x90)) 5 = false ∧ pdState t = pdState s ∧ t.sec = s.sec ∧ t.host.ownerB = s.host.ownerB ∧
      t.pins.thermtrip = false ∧ t.power.held = p.held ∧ t.power.recovery = p.recovery
    (p.boot = .unpowered → ∃ t, exec .powerInputValid s = .next t ∧ t.power.boot = .input ∧
      (∀ d : Fin 64, bit (pdState t) d.val = decide (d.val = 63)) ∧ t.sec = s.sec ∧ t.gddr = []) ∧
    (p.boot = .input → p.waking = false → ∃ t, exec .ponTimerExpiry s = .next t ∧ t.power.boot = .rom ∧
      bit (pdState t) 62 = true ∧ cause t = 1 ∧ t.gddr = [] ∧ t.sec.flash = s.sec.flash ∧ t.cores = State.reset.cores) ∧
    (p.boot = .rom → p.recovery = false → ∃ t, exec (.bootClockReady x) s = .next t ∧ t.devid = (strapSample 64 x.samples).1.toNat ∧
      bit (t.rd (pwrBase + 0x90)) 4 = !(strapSample 64 x.samples).2 ∧
      (∀ v, x.samples.take 16 = List.replicate 16 v → t.devid = v.toNat ∧ bit (t.rd (pwrBase + 0x90)) 4 = false) ∧
      t.power.boot = (if imageCheck s s.sec.flash = none then .firmware else .rom) ∧
      t.power.recovery = (imageCheck s s.sec.flash).isSome ∧ t.cores = s.cores) ∧
    (p.boot = .firmware → p.rebooting = false → p.recovery = false → p.held = false → (if s.host.ownerB then s.pins.perstB else s.pins.perstA) = false →
      ∃ t, exec .bootDone s = .next t ∧ t.power.boot = .up ∧ bit (t.rd (pwrBase + 0x90)) 5 = true ∧
        (∀ g : CtrlId, t.domainOn (ctrlDomain g) = true → (t.ctrls[g]).ready = !(s.ctrls[g]).trainFail) ∧ t.gddr = s.gddr) ∧
    (∃ t, exec .powerInputLost s = .next t ∧ t.power.boot = .unpowered ∧ pdState t = 0#64 ∧ t.gddr = [] ∧
      t.sec.flash = s.sec.flash ∧ t.sec.ownerHash = s.sec.ownerHash ∧ t.cores = State.reset.cores) ∧
    (barGate s .owner = none → ∃ t, exec (.modReset .owner x) s = .next t ∧ fresh t 3) ∧
    (bit (pdState s) 62 = true → ∃ t, exec (.perstNOwner x) s = .next t ∧ fresh t 2 ∧ (if s.host.ownerB then t.pins.perstB else t.pins.perstA) = true) ∧
    (∀ b, b ≠ .owner → exec (.modReset b x) s = .next s) ∧
    (∀ hb, exec (.perstNRelease hb) s =
      .next { s with pins := if hb then { s.pins with perstB := false } else { s.pins with perstA := false } }) ∧
    (bit (pdState s) 62 = true → p.rebooting = false → ∃ t, exec .wdtTimeoutExpiry s = .next t ∧ t.power.rebooting = true ∧
      t.power.why = 6 ∧ t.cores = s.cores ∧ t.gddr = s.gddr ∧ t.queues = s.queues ∧ t.sec.staging = []) ∧
    (∃ t, exec (.wdtKick .mgmt) s = .next t ∧ t.power.wdt = (s.now).1 ∧ t.regs = s.regs ∧ t.cores = s.cores) ∧
    (∀ b, b = .owner ∨ b = .standby →
      (barGate s b = none → exec (.wdtKick b) s = .next (secEv s 0x9004 6) ∧ Quiet s (secEv s 0x9004 6) ∧
        bit ((secEv s 0x9004 6).rd (secBase + 0x20)) 4 = true) ∧
      (barGate s b ≠ none → exec (.wdtKick b) s = .next s)) ∧
    (∀ b, b ≠ .owner → b ≠ .standby → b ≠ .mgmt → exec (.wdtKick b) s = .next s) ∧
    (p.rebooting = true → ∃ t, exec .mgrResetComplete s = .next t ∧ t.power.rebooting = false ∧ t.cores = s.cores ∧
      t.gddr = s.gddr ∧ t.power.recovery = (imageCheck s s.sec.flash).isSome)

/-- The power domains. PD_REQ switches a core's domain off where nothing stands against it, which leaves the core in its reset state,
and is refused where something does; it begins to switch one on whose parent is on. A domain that has come on is on. A power
stage's fault switches its domain off and sets its bit of PD_FAULT.

Rules: R394, R395, R396. Choices of the model: log entries 3, 60. -/
def Obligations.PowerDomainResult : Prop :=
  ∀ (c : CoreId) (d : Fin 64) (b : Sender) (s : State),
    let v := pdState s
    let heard : Prop := ownerOrMgmt b = true ∧ barGate s b = none
    let refused (t : State) : Bool := bit (t.rd (pwrBase + 0x70)) c.val
    (ownerOrMgmt b = false → exec (.pdReqWrite b v) s = .next s) ∧
    (heard → bit v c.val = true → offRefused s c.val = false → ∃ t, exec (.pdReqWrite b (clrBit v c.val)) s = .next t ∧
      bit (pdState t) c.val = false ∧ refused t = false ∧ t.core c = {} ∧ t.unit c = {} ∧ (t.loc c).sp = [] ∧
      ∀ e : CoreId, e ≠ c → t.core e = s.core e) ∧
    (heard → bit v c.val = true → offRefused s c.val = true → ∃ t, exec (.pdReqWrite b (clrBit v c.val)) s = .next t ∧
      pdState t = v ∧ refused t = true ∧ t.cores = s.cores ∧ t.locals = s.locals) ∧
    (heard → bit v c.val = false → (∀ p, pdParent c.val = some p → bit v p = true) → bit (s.rd (pwrBase + 0x78)) c.val = false →
      s.power.switching.contains c.val = false → ∃ t, exec (.pdReqWrite b (setBit v c.val)) s = .next t ∧
        t.power.switching = s.power.switching ++ [c.val] ∧ pdState t = v ∧ t.cores = s.cores) ∧
    (∀ p, s.power.switching.contains d.val = true → pdParent d.val = some p → bit v p = true → bit v d.val = false →
      ∃ t, exec (.pdSwitchOnComplete d) s = .next t ∧ bit (pdState t) d.val = true ∧
        t.power.switching.contains d.val = false ∧ (d.val = c.val → t.core c = {} ∧ (t.loc c).sp = []) ∧ t.gddr = s.gddr) ∧
    (bit v d.val = true → d.val ≠ 63 → ∃ t, exec (.powerStageFault d) s = .next t ∧ bit (pdState t) d.val = false ∧
      bit (t.rd (pwrBase + 0x78)) d.val = true)

/-- The clocks. The loss of SCLK holds the module and loses module memory, whatever runs; while it is held, rings, links and packets do
nothing; its return runs a MOD reset with cause 4. The loss of the KCLK
lock clears its bit, and the relock runs an MGR reset. The loss of an MCLK lock ends service of the die's controllers and loses its devices'
contents; the loss of an LCLK lock takes its four links DOWN with their lasers dark, and the relock brings those back up that are enabled with AUTO_UP. A reference
clock's loss takes its port down.

Rules: R401. Choices of the model: log entries 61, 62. -/
def Obligations.ClockResult : Prop :=
  ∀ (x : Straps) (sclk : Bool) (die : Fin 2) (k : Fin 6) (hb : Bool) (p : PortId) (s : State),
    let clk (t : State) (i : Nat) : Bool := bit (t.rd (pwrBase + 0x98)) i
    let ofDie (g : CtrlId) : Prop := g.val / 12 = die.val
    (bit (pdState s) 62 = true → s.power.held = false → clk s (if sclk then 0 else 1) = true → ∃ t, exec (.sclkLoss sclk) s = .next t ∧ t.power.held = true ∧ clk t 1 = false ∧
      (sclk = true → clk t 0 = false) ∧ bit (t.rd (pwrBase + 0x90)) 6 = true ∧ t.gddr = [] ∧ t.cores = s.cores) ∧
    (s.power.held = true → ∀ (r : RingId) (n i : Nat) (reply : HostReply) (l : LinkId) (lanes : BitVec 2),
      exec (.descriptorFetch r n reply) s = .next s ∧ exec (.descriptorStart r) s = .next s ∧
      exec (.descriptorComplete r i) s = .next s ∧ exec (.hostNop r i) s = .next s ∧ exec (.jobOpen i) s = .next s ∧
      exec (.laneLock l lanes) s = .next s ∧ exec (.laneAlign l) s = .next s) ∧
    (s.power.held = true → ∃ t, exec (.clockRecoveryTimer x) s = .next t ∧ t.power.held = false ∧
      t.power.boot = (if s.power.boot = .rom then .rom else .firmware) ∧
      clk t 0 = true ∧ clk t 1 = true ∧ fld (t.rd (pwrBase + 0x90)) 0 4 = 4 ∧ t.gddr = [] ∧ t.cores = State.reset.cores) ∧
    (clk s 10 = true → clk s 0 = true → ∃ t, exec .kclkPllLoss s = .next t ∧ clk t 10 = false ∧ t.cores = s.cores ∧
      t.gddr = s.gddr) ∧
    (clk s 10 = false → bit (pdState s) 62 = true → (s.power.boot ≠ .rom ∨ s.power.recovery = true) → ∃ t, exec .kclkPllRelock s = .next t ∧ clk t 10 = true ∧ t.power.rebooting = true ∧
      t.cores = s.cores ∧ t.gddr = s.gddr) ∧
    (clk s (2 + die.val) = true → ∃ t, exec (.mclkPllLoss die) s = .next t ∧ clk t (2 + die.val) = false ∧
      (∀ g : CtrlId, ofDie g → (t.ctrls[g]).ready = false) ∧ (∀ a, ofDie (ctrlOf a) → t.gddr.get a = 0#8) ∧
      (∀ a, ¬ ofDie (ctrlOf a) → t.gddr.get a = s.gddr.get a) ∧ t.cores = s.cores) ∧
    (clk s (2 + die.val) = false → s.power.boot = .up → ∃ t, exec (.mclkPllRelock die) s = .next t ∧ clk t (2 + die.val) = true ∧
      (∀ g : CtrlId, ofDie g → (s.ctrls[g]).selfRef = false → s.domainOn (ctrlDomain g) = true →
        (t.ctrls[g]).ready = !(s.ctrls[g]).trainFail) ∧
      t.cores = s.cores) ∧
    (clk s (4 + k.val) = true → ∃ t, exec (.lclkPllLoss k) s = .next t ∧ clk t (4 + k.val) = false ∧
      (∀ l : LinkId, l.val / 4 = k.val → (t.links[l]).st = .down ∧ laserOn t l = false) ∧
      (∀ l : LinkId, l.val / 4 ≠ k.val → (t.links[l]).st = (s.links[l]).st) ∧ t.cores = s.cores ∧ t.gddr = s.gddr) ∧
    (clk s (4 + k.val) = false → s.power.boot = .up → ∃ t, exec (.lclkPllRelock k) s = .next t ∧ clk t (4 + k.val) = true ∧
      ∀ l : LinkId, (t.links[l]).st = (if l.val / 4 = k.val ∧ linkEn s l ∧ linkAuto s l ∧ s.domainOn (linkDomain l) ∧
        (s.links[l]).st = .down then .optics else (s.links[l]).st)) ∧
    (∃ t, exec (.hostRefclkLoss hb) s = .next t ∧ (if hb then t.host.upB else t.host.upA) = false ∧
      clk t (if hb then 12 else 11) = false ∧ t.cores = s.cores) ∧
    (∃ t, exec (.cxlRefclkLoss p) s = .next t ∧ (t.cxl[p]).activeA = false ∧ (t.cxl[p]).activeB = false ∧
      (t.cxl[p]).reqs = [] ∧ clk t (13 + p.val) = false ∧ t.tier = s.tier) ∧
    (bit (s.rd (cxlBase p + 8)) 0 = true → s.domainOn (cxlDomain p) = true → ∃ t, exec (.cxlRefclkRestored p) s = .next t ∧
      (t.cxl[p]).enum = true ∧ clk t (13 + p.val) = true ∧ t.tier = s.tier ∧
      t.pins.cxlA.getLsbD p.val = (s.pins.cxlA.getLsbD p.val || (!s.power.rebooting && !s.power.recovery)))

/-- The thermal trip and brumation. A junction at 110 °C switches the domains below PD62 off and asserts THERMTRIP_N, and the recovery runs a MOD
reset with cause 5. Brumation begins where no job is open and every core is HALTED, and is refused where a job is open or a core is not HALTED;
its entry ends with every domain but PD63 off, and with PD62 on where WAKE_N comes then; WAKE_N wakes the module, from the entry too, with
the domains as they stand, and a wake that completes counts.

Rules: R405, R406, R407, R408, R447. Choices of the model: log entries 61, 71. -/
def Obligations.ThermalAndBrumationResult : Prop :=
  ∀ (x : Straps) (v : W64) (s : State),
    let p := s.power
    let brum := pwrBase + 0x88
    (bit (pdState s) 62 = true → p.boot ≠ .tripped → ∃ t, exec .junctionOvertemp s = .next t ∧
      t.power.boot = (if running s = true then .tripped else p.boot) ∧ t.pins.thermtrip = true ∧
      (∀ d : Fin 64, d.val < 62 → bit (pdState t) d.val = false) ∧ bit (pdState t) 62 = bit (pdState s) 62) ∧
    (p.boot = .tripped → s.pins.thermtrip = true → p.rebooting = false → p.recovery = false → ∃ t, exec (.thermalRecoveryTimer x) s = .next t ∧ t.power.boot = .firmware ∧ t.pins.thermtrip = false ∧
      fld (t.rd (pwrBase + 0x90)) 0 4 = 5 ∧ t.gddr = []) ∧
    (∀ b, b ≠ .owner → exec (.brumationGo b v) s = .next s) ∧
    (bit v 0 = true → barGate s .owner = none → p.brum = .none →
      (anyOpen s = false → (∀ c : CoreId, (s.core c).run = .halted) → ∃ t, exec (.brumationGo .owner v) s = .next t ∧
        t.power.brum = .entering ∧ t.cores = s.cores ∧ t.gddr = s.gddr) ∧
      (anyOpen s = true ∨ (∃ c : CoreId, (s.core c).run ≠ .halted) → ∃ t, exec (.brumationGo .owner v) s = .next t ∧ t.power.brum = .none ∧ bit (t.rd brum) 0 = true ∧
        t.rd (pwrBase + 0x80) = s.rd (pwrBase + 0x80) ∧ t.links = s.links ∧ t.cores = s.cores)) ∧
    (p.brum = .entering → ∃ t, exec .brumationEntryEnd s = .next t ∧ t.power.boot = .asleep ∧ t.power.brum = .none ∧
      ∀ d : Fin 64, d.val < 63 → bit (pdState t) d.val = false) ∧
    (p.brum = .entering → ∃ t, exec (.brumationEntryEnd true) s = .next t ∧ t.power.boot = .input ∧ t.power.brum = .none ∧
      t.power.waking = true ∧ bit (pdState t) 62 = bit (pdState s) 62 ∧ ∀ d : Fin 64, d.val < 62 → bit (pdState t) d.val = false) ∧
    (p.boot ≠ .asleep → p.brum = .entering → ∃ t, exec .wakeN s = .next t ∧ t.power.boot = .input ∧ t.power.brum = .none ∧
      t.power.waking = true ∧ t.regs = s.regs ∧ t.gddr = s.gddr) ∧
    (p.boot = .asleep → exec .wakeN s = .next { s with power := { p with boot := .input, waking := true } }) ∧
    (p.waking = true → p.boot = .up → ∃ t, exec .wakeComplete s = .next t ∧ t.power.waking = false ∧
      fld (t.rd brum) 8 8 = (fld (s.rd brum) 8 8 + 1) % 256 ∧ t.cores = s.cores ∧ t.gddr = s.gddr)

/-! ### Security and management -/

/-- A security command at the front of the queue of a host, with no other behind it. ATTEST returns its report, GET_CERT the certificate of the identity area that
it names, ENROL and REVOKE
change the owner where their request is good and answer with the failed check where not, STAGE stores its 4 KiB, COMMIT_FW
writes the slot where the staged image passes and answers with the failed check where not, ACTIVATE runs an MGR reset. Each ends with its
status in SEC_RESULT and BUSY 0.

Rules: R412, R413, R415, R416, R417, R418, R419. Choices of the model: log entries 64, 65. -/
def Obligations.SecurityCommandResult : Prop :=
  ∀ (c : SecCmd) (s : State),
    let buf := cmdBuf s c
    let front (code : Nat) : Prop := s.sec.queue = [c] ∧ c.cmd = code ∧ c.mctp = none ∧ secReady s = true
    let ends (i : Instr) (status : Nat) (p : State → Prop) : Prop := ∃ t, exec i s = .next t ∧ t.sec.queue = [] ∧
      fld (t.rd (secBase + 0x38)) 0 17 = status ∧ t.cores = s.cores ∧ t.gddr = s.gddr ∧ p t
    let same (t : State) : Prop := t.sec = { s.sec with queue := [] }
    (front 1 → ends (.attest none) 0 same) ∧
    (front 2 → (c.arg ≤ 2 → ends (.getCert none) 0 (fun t => same t ∧
        fld (t.rd (secBase + 0x38)) 32 16 = (certificate c.arg).length % 65536 ∧
        (secBuf t 0 512).take (min 4096 (certificate c.arg).length) = (certificate c.arg).take 4096)) ∧ (2 < c.arg → ends (.getCert none) 1 same)) ∧
    (front 3 → (enrolCheck s 3 buf = none → ends (.enrol none) 0 (fun t => t.sec.ownerMode = true ∧
        t.sec.ownerHash = sha256 (buf.take 64) ∧ t.sec.enrolUsed = s.sec.enrolUsed + 1)) ∧
      ∀ n, enrolCheck s 3 buf = some n → ends (.enrol none) n same) ∧
    (front 4 → (enrolCheck s 4 buf = none → ends (.revoke none) 0 (fun t => t.sec.ownerMode = false ∧ t.sec.ownerHash = [] ∧
        t.sec.enrolUsed = s.sec.enrolUsed + 1)) ∧
      ∀ n, enrolCheck s 4 buf = some n → ends (.revoke none) n same) ∧
    (front 5 → c.arg < 4096 → Memory.wf s.sec.staging = true → ends .stage 0 (fun t =>
      (∀ i, i < 4096 → t.sec.staging.get (4096 * c.arg + i) = getD buf i 0#8) ∧
      ∀ a, a < 4096 * c.arg ∨ 4096 * c.arg + 4096 ≤ a → t.sec.staging.get a = s.sec.staging.get a)) ∧
    (front 6 → s.power.recovery = false → ends (.commitFw true) ((imageCheck s s.sec.staging).getD 0) (fun t =>
      if imageCheck s s.sec.staging = none then
        ∀ a, a < 4096 + leAt (s.sec.staging.read 0 4096) 8 4 → t.sec.flash.get a = s.sec.staging.get a
      else same t)) ∧
    (front 7 → ∃ t, exec .activate s = .next t ∧ t.power.rebooting = true ∧ t.power.why = 7 ∧ t.sec.queue = [] ∧
      t.cores = s.cores ∧ t.gddr = s.gddr)

/-- The MCTP control messages and the PLDM commands of types 0 and 2, while the management firmware runs: each is answered with its
command code and the answer's bytes on the way it came, over SMBus at the module's address with a good PEC or over the owner port, and
changes nothing else but an endpoint ID that is set; one that comes another way changes nothing. The answers' form is the model's (log entry
on the DMTF standards).

A firmware update over PLDM, while the firmware runs: RequestUpdate begins it, PassComponentTable makes it ready, UpdateComponent
stages the image and applies one that passes, ActivateFirmware then runs an MGR reset, CancelUpdate ends the update. Each is answered, and
GetStatus tells the state without changing it.

Rules: R413, R419, R420. Choices of the model: log entries 66, 67, 69. -/
def Obligations.ManagementResult : Prop :=
  (∀ (s : State), firmwareRuns s = true → bit (pdState s) 62 = true →
     let answersTo (i : Via → Instr) (bs : List Byte) : Prop := ∀ p : Via,
       (viaOk s p = true → exec (i p) s = .next { s with sec := { s.sec with replies := s.sec.replies ++ [(p, bs)] } }) ∧
       (viaOk s p = false → exec (i p) s = .next s)
     (∀ addr pec, viaOk s (.smbus addr pec) = (pec && addr.toNat == 0x60 + fld (s.rd lnkBase) 15 3)) ∧
     (∀ (op eid : Byte) (p : Via), op.toNat % 4 < 2 → eid ≠ 0#8 → eid ≠ 0xFF#8 → viaOk s p = true → exec (.setEndpointId op eid p) s =
       .next { s with sec := { s.sec with eid := eid.toNat, replies := s.sec.replies ++ [(p, [1#8, 0#8, 0#8, eid, 0#8])] } }) ∧
     answersTo (.getEndpointId ·) [2#8, 0#8, BitVec.ofNat 8 s.sec.eid, 0#8, 0#8] ∧
     (∀ typ : Byte, typ ≠ 0xFF#8 → typ ≠ 0#8 → answersTo (.getMctpVersionSupport typ ·) [4#8, 0x80#8]) ∧
     answersTo (.getMctpVersionSupport 0xFF#8 ·) ([4#8, 0#8, 1#8] ++ leBytes 4 (Config.dmtfVersion 256).toNat) ∧
     answersTo (.getMessageTypeSupport ·) [5#8, 0#8, 2#8, 1#8, 0x7E#8] ∧
     answersTo (.getVendorDefinedMessageSupport 0#8 ·) ([6#8, 0#8, 0xFF#8, 0#8] ++ beBytes 2 Config.pciVendor.toNat ++ [0#8, 0#8]) ∧
     answersTo (.getTid ·) [2#8, 0#8, Config.pldmTid] ∧
     (∀ typ : Byte, ∀ v, answersTo (.getPldmVersion typ ·) (3#8 :: pldmVersion typ.toNat) ∧
       answersTo (.getPldmCommands typ v ·) (5#8 :: pldmCommandSet typ.toNat v.toNat)) ∧
     answersTo (.getPldmTypes ·) [4#8, 0#8, 0x25#8, 0#8, 0#8, 0#8, 0#8, 0#8, 0#8, 0#8] ∧
     (∀ (id : BitVec 16) (v : Nat), numericSensor s id.toNat = some v →
       answersTo (.getSensorReading id ·) ([0x11#8, 0#8, 2#8, 0#8, 0#8, 1#8, 1#8, 1#8] ++ leBytes 2 v)) ∧
     (∀ (id : BitVec 16) (v : Nat), stateSensor s id.toNat = some v → answersTo (.getStateSensorReadings id ·)
       [0x21#8, 0#8, 1#8, 0#8, BitVec.ofNat 8 v, 0#8, BitVec.ofNat 8 v]) ∧
     answersTo (.getPdrRepositoryInfo ·) (0x50#8 :: pdrInfo) ∧
     (∀ h : BitVec 32, answersTo (.getPdr h ·) (0x51#8 :: getPdr h.toNat) ∧ (71 < h.toNat → getPdr h.toNat = [0x82#8])) ∧
     answersTo (.queryDeviceIdentifiers ·) (1#8 :: deviceIds) ∧
     answersTo (.getFirmwareParameters ·) ([2#8, 0#8] ++ Config.fwParameters s.sec.svn)) ∧
  (∀ (s : State), firmwareRuns s = true → bit (pdState s) 62 = true →
     let k := s.sec
     let answersTo (i : Via → Instr) (bs : List Byte) (q : State → Prop) : Prop := ∀ p : Via, viaOk s p = true →
       ∃ t, exec (i p) s = .next t ∧ t.sec.replies.getLast? = some (p, bs) ∧ t.cores = s.cores ∧ t.gddr = s.gddr ∧ q t
     (∀ size : BitVec 32,
       (k.upd = .idle → answersTo (.requestUpdate size ·) [0x10#8, 0#8, 0#8, 0#8, 0#8] (fun t =>
         t.sec.upd = .learn ∧ t.sec.maxXfer = size.toNat ∧ t.sec.flash = k.flash)) ∧
       (k.upd ≠ .idle → answersTo (.requestUpdate size ·) [0x10#8, 0x81#8] (fun t => t.sec.upd = k.upd))) ∧
     (k.upd = .learn → answersTo (.passComponentTable ·) [0x13#8, 0#8, 0#8, 0#8] (fun t => t.sec.upd = .ready ∧ t.sec.flash = k.flash)) ∧
     (∀ image : List Byte, k.upd = .ready → image.length ≤ 0x1000000 →
       answersTo (.updateComponent image true ·) (0x14#8 :: leBytes 9 0) (fun t =>
         if imageCheck s (Memory.write [] 0 image) = none then
           t.sec.upd = .applied ∧ t.sec.staging = Memory.write [] 0 image ∧
           ∀ a, a < 4096 + leAt ((Memory.write [] 0 image).read 0 4096) 8 4 →
             t.sec.flash.get a = (Memory.write [] 0 image).get a
         else t.sec.upd = .ready ∧ t.sec.flash = k.flash)) ∧
     (k.upd = .applied → answersTo (.activateFirmware ·) [0x1A#8, 0#8, 0#8, 0#8] (fun t => t.power.rebooting = true ∧ t.sec.upd = .idle)) ∧
     (∀ p : Via, viaOk s p = true →
       exec (.getStatus p) s = .next { s with sec := { k with replies := k.replies ++ [(p, 0x1B#8 :: updStatus s)] } }) ∧
     (k.upd ≠ .idle → answersTo (.cancelUpdate ·) (0x1D#8 :: leBytes 10 0) (fun t => t.sec.upd = .idle ∧ t.sec.flash = k.flash)))

/-! ### Registers and the test access port -/

/-- A write of 64 bits by the management firmware or the owner's PF to the host block's event mask stores the writable bits
of the register, and to its event status clears the bits written 1; a 32-bit write does so in the half it names, with its 32 bits, and leaves
the other half. A write to a register of the block that the spec lists as read only, or that holds none, changes none. A write neither 32 nor
64 bits wide, or at an offset that is no multiple of 8, changes nothing. A read by
the owner's PF answers the register; one of 64 bits clears what a read clears, one of 32 bits does not.

The instructions of the test access port, with PD62 on. Each is loaded with what Capture-DR takes and with whether the cells drive the
outputs or leave them in high impedance; EXTEST and SAMPLE/PRELOAD update the cells; under EXTEST and CLAMP the cells drive the pins
of QFC_OUT, under HIGHZ nothing does, else the core logic; DBG makes one access to a register and shows DONE.

Rules: R9, R11, R12, R335, R336, R449. Choices of the model: log entries 14, 55, 68. -/
def Obligations.RegisterAndTestAccessResult : Prop :=
  (∀ (b : Sender) (o : Nat) (v : W64) (x : RegExt) (s : State),
     let stored : W64 := ((s.rd o &&& ~~~(regSpec o).rw) ||| (v &&& (regSpec o).rw)) &&& ~~~(v &&& (regSpec o).w1c)
     let into (half : W64) (data : W64) : W64 := (s.rd o &&& ~~~half) |||
       ((((s.rd o &&& ~~~(regSpec o).rw) ||| (data &&& (regSpec o).rw)) &&& ~~~(data &&& (regSpec o).w1c)) &&& half)
     (o = 0x18 ∨ o = 0x20 → regOn s o = true → ∀ q : Sender, q = .mgmt ∨ (q = .owner ∧ barGate s .owner = none) →
       exec (.registerWrite q false o .low v x) s = .next (s.wr o (into 0xFFFFFFFF#64 v)) ∧
       exec (.registerWrite q false o .high v x) s = .next (s.wr o (into 0xFFFFFFFF00000000#64 (v <<< 32)))) ∧
     (o < 0x1000 → o % 8 = 0 → (regSpec o).rw = 0#64 → (regSpec o).w1c = 0#64 → ∀ w : Width,
       ∃ t, exec (.registerWrite .mgmt false o w v x) s = .next t ∧ (∀ a, t.rd a = s.rd a) ∧ t = { s with regs := t.regs }) ∧
     ((regSpec 0).rw = 0#64 ∧ (regSpec 0).w1c = 0#64) ∧
     (o = 0x18 ∨ o = 0x20 → regOn s o = true →
       exec (.registerWrite .mgmt false o .whole v x) s = .next (s.wr o stored) ∧
       (barGate s .owner = none → exec (.registerWrite .owner false o .whole v x) s = .next (s.wr o stored))) ∧
     (o % 8 ≠ 0 → ∀ bar2 w, exec (.registerWrite b bar2 o w v x) s = .next s) ∧
     (∀ bar2, exec (.registerWrite b bar2 o .other v x) s = .next s ∧
       exec (.rcRegisterRead .owner bar2 o .other x) s = .next (answer s .ur)) ∧
     (o = 0x18 ∨ o = 0x20 → regOn s o = true → barGate s .owner = none →
       exec (.rcRegisterRead .owner false o .whole x) s = .next (answer s (.reg (s.rd o)))) ∧
     (∀ c : CoreId, o = coreBase c + 0x3020 → regOn s o = true →
       exec (.rcRegisterRead .mgmt false o .whole x) s = .next (s.wr o (s.rd o &&& ~~~(regSpec o).rc)) ∧
       exec (.rcRegisterRead .mgmt false o .low x) s = .next s)) ∧
  (∀ (v : BitVec 64) (x : RegExt) (s : State), bit (pdState s) 62 = true →
     let id : BitVec 64 := idcode.setWidth 64
     let load (ir : Byte) (cap : BitVec 64) (driven hz : Bool) : Tap :=
       { s.tap with ir := ir, capture := cap, driven := driven, highz := hz }
     exec .tapReset s = .next { s with tap := load 1#8 id false false } ∧
     exec .idcode s = .next { s with tap := load 1#8 id false false } ∧
     (∀ outer : BitVec 64,
       exec (.extest v outer) s = .next { s with tap := { load 0#8 (pinLevels { s with tap := load 0#8 s.tap.capture true false } outer)
         true false with cells := v } } ∧
       exec (.samplePreload v outer) s = .next { s with tap := { load 2#8 (pinLevels s outer) false false with cells := v } }) ∧
     (∀ (outer : BitVec 64) (i : Nat), i < 8 →
       padDrive { s with tap := { load 0#8 (pinLevels { s with tap := load 0#8 s.tap.capture true false } outer) true false with cells := v } } i
         = pushPull (v.getLsbD i) ∧
       padDrive { s with tap := load 4#8 0#64 true false } i = pushPull (s.tap.cells.getLsbD i) ∧
       padDrive { s with tap := { load 2#8 (pinLevels s outer) false false with cells := v } } i = pushPull ((qfcOut s).testBit i)) ∧
     (∀ i, padDrive { s with tap := load 5#8 0#64 false true } i = .z) ∧
     exec .clamp s = .next { s with tap := load 4#8 0#64 true false } ∧
     exec .highz s = .next { s with tap := load 5#8 0#64 false true } ∧
     (∀ ir : Byte, ir ∉ [0#8, 1#8, 2#8, 4#8, 5#8, 0x10#8] → exec (.bypass ir) s = .next { s with tap := load ir 0#64 false false }) ∧
     (∀ w : BitVec 96, fld w 64 25 = 0x18 → s.sec.ownerMode = false → s.power.recovery = false → regOn s 0x18 = true →
       (bit w 89 = true → ∃ t, exec (.dbg w x) s = .next t ∧ bit t.tap.dbg 95 = true ∧ t.tap.ir = 0x10#8 ∧
         t.rd 0x18 = ((s.rd 0x18 &&& ~~~(regSpec 0x18).rw) ||| (BitVec.ofNat 64 (fld w 0 64) &&& (regSpec 0x18).rw))
           &&& ~~~(BitVec.ofNat 64 (fld w 0 64) &&& (regSpec 0x18).w1c)) ∧
       (bit w 89 = false → ∃ t, exec (.dbg w x) s = .next t ∧ bit t.tap.dbg 95 = true ∧ fld t.tap.dbg 0 64 = (s.rd 0x18).toNat ∧
         t.regs = s.regs)))
end

