-- ==== Sys2Proof/Laws/State.lean ====
section
/-!
SUPPORT. What each named update of the state leaves alone, one lemma for each field, and what it makes of the part it
replaces.
-/

-- The declarations of this file are elaborated in turn, so that checking the package as one text needs few threads.
set_option Elab.async false

namespace Sys2Proof.Machine

/-! ### State.setCore -/

@[simp] theorem State.setCore_pending (s : State) (c : CoreId) (k : Core) : (s.setCore c k).pending = s.pending := rfl
@[simp] theorem State.setCore_tick (s : State) (c : CoreId) (k : Core) : (s.setCore c k).tick = s.tick := rfl
@[simp] theorem State.setCore_ts (s : State) (c : CoreId) (k : Core) : (s.setCore c k).ts = s.ts := rfl
@[simp] theorem State.setCore_regs (s : State) (c : CoreId) (k : Core) : (s.setCore c k).regs = s.regs := rfl
@[simp] theorem State.setCore_units (s : State) (c : CoreId) (k : Core) : (s.setCore c k).units = s.units := rfl
@[simp] theorem State.setCore_locals (s : State) (c : CoreId) (k : Core) : (s.setCore c k).locals = s.locals := rfl
@[simp] theorem State.setCore_queues (s : State) (c : CoreId) (k : Core) : (s.setCore c k).queues = s.queues := rfl
@[simp] theorem State.setCore_dus (s : State) (c : CoreId) (k : Core) : (s.setCore c k).dus = s.dus := rfl
@[simp] theorem State.setCore_gddr (s : State) (c : CoreId) (k : Core) : (s.setCore c k).gddr = s.gddr := rfl
@[simp] theorem State.setCore_gddrErr (s : State) (c : CoreId) (k : Core) : (s.setCore c k).gddrErr = s.gddrErr := rfl
@[simp] theorem State.setCore_ctrls (s : State) (c : CoreId) (k : Core) : (s.setCore c k).ctrls = s.ctrls := rfl
@[simp] theorem State.setCore_mem (s : State) (c : CoreId) (k : Core) : (s.setCore c k).mem = s.mem := rfl
@[simp] theorem State.setCore_tier (s : State) (c : CoreId) (k : Core) : (s.setCore c k).tier = s.tier := rfl
@[simp] theorem State.setCore_cxl (s : State) (c : CoreId) (k : Core) : (s.setCore c k).cxl = s.cxl := rfl
@[simp] theorem State.setCore_cxlCfg (s : State) (c : CoreId) (k : Core) : (s.setCore c k).cxlCfg = s.cxlCfg := rfl
@[simp] theorem State.setCore_links (s : State) (c : CoreId) (k : Core) : (s.setCore c k).links = s.links := rfl
@[simp] theorem State.setCore_net (s : State) (c : CoreId) (k : Core) : (s.setCore c k).net = s.net := rfl
@[simp] theorem State.setCore_host (s : State) (c : CoreId) (k : Core) : (s.setCore c k).host = s.host := rfl
@[simp] theorem State.setCore_jobs (s : State) (c : CoreId) (k : Core) : (s.setCore c k).jobs = s.jobs := rfl
@[simp] theorem State.setCore_rcl (s : State) (c : CoreId) (k : Core) : (s.setCore c k).rcl = s.rcl := rfl
@[simp] theorem State.setCore_tel (s : State) (c : CoreId) (k : Core) : (s.setCore c k).tel = s.tel := rfl
@[simp] theorem State.setCore_power (s : State) (c : CoreId) (k : Core) : (s.setCore c k).power = s.power := rfl
@[simp] theorem State.setCore_sec (s : State) (c : CoreId) (k : Core) : (s.setCore c k).sec = s.sec := rfl
@[simp] theorem State.setCore_pins (s : State) (c : CoreId) (k : Core) : (s.setCore c k).pins = s.pins := rfl
@[simp] theorem State.setCore_tap (s : State) (c : CoreId) (k : Core) : (s.setCore c k).tap = s.tap := rfl

/-! ### State.setUnit -/

@[simp] theorem State.setUnit_pending (s : State) (c : CoreId) (k : Units) : (s.setUnit c k).pending = s.pending := rfl
@[simp] theorem State.setUnit_tick (s : State) (c : CoreId) (k : Units) : (s.setUnit c k).tick = s.tick := rfl
@[simp] theorem State.setUnit_ts (s : State) (c : CoreId) (k : Units) : (s.setUnit c k).ts = s.ts := rfl
@[simp] theorem State.setUnit_regs (s : State) (c : CoreId) (k : Units) : (s.setUnit c k).regs = s.regs := rfl
@[simp] theorem State.setUnit_cores (s : State) (c : CoreId) (k : Units) : (s.setUnit c k).cores = s.cores := rfl
@[simp] theorem State.setUnit_locals (s : State) (c : CoreId) (k : Units) : (s.setUnit c k).locals = s.locals := rfl
@[simp] theorem State.setUnit_queues (s : State) (c : CoreId) (k : Units) : (s.setUnit c k).queues = s.queues := rfl
@[simp] theorem State.setUnit_dus (s : State) (c : CoreId) (k : Units) : (s.setUnit c k).dus = s.dus := rfl
@[simp] theorem State.setUnit_gddr (s : State) (c : CoreId) (k : Units) : (s.setUnit c k).gddr = s.gddr := rfl
@[simp] theorem State.setUnit_gddrErr (s : State) (c : CoreId) (k : Units) : (s.setUnit c k).gddrErr = s.gddrErr := rfl
@[simp] theorem State.setUnit_ctrls (s : State) (c : CoreId) (k : Units) : (s.setUnit c k).ctrls = s.ctrls := rfl
@[simp] theorem State.setUnit_mem (s : State) (c : CoreId) (k : Units) : (s.setUnit c k).mem = s.mem := rfl
@[simp] theorem State.setUnit_tier (s : State) (c : CoreId) (k : Units) : (s.setUnit c k).tier = s.tier := rfl
@[simp] theorem State.setUnit_cxl (s : State) (c : CoreId) (k : Units) : (s.setUnit c k).cxl = s.cxl := rfl
@[simp] theorem State.setUnit_cxlCfg (s : State) (c : CoreId) (k : Units) : (s.setUnit c k).cxlCfg = s.cxlCfg := rfl
@[simp] theorem State.setUnit_links (s : State) (c : CoreId) (k : Units) : (s.setUnit c k).links = s.links := rfl
@[simp] theorem State.setUnit_net (s : State) (c : CoreId) (k : Units) : (s.setUnit c k).net = s.net := rfl
@[simp] theorem State.setUnit_host (s : State) (c : CoreId) (k : Units) : (s.setUnit c k).host = s.host := rfl
@[simp] theorem State.setUnit_jobs (s : State) (c : CoreId) (k : Units) : (s.setUnit c k).jobs = s.jobs := rfl
@[simp] theorem State.setUnit_rcl (s : State) (c : CoreId) (k : Units) : (s.setUnit c k).rcl = s.rcl := rfl
@[simp] theorem State.setUnit_tel (s : State) (c : CoreId) (k : Units) : (s.setUnit c k).tel = s.tel := rfl
@[simp] theorem State.setUnit_power (s : State) (c : CoreId) (k : Units) : (s.setUnit c k).power = s.power := rfl
@[simp] theorem State.setUnit_sec (s : State) (c : CoreId) (k : Units) : (s.setUnit c k).sec = s.sec := rfl
@[simp] theorem State.setUnit_pins (s : State) (c : CoreId) (k : Units) : (s.setUnit c k).pins = s.pins := rfl
@[simp] theorem State.setUnit_tap (s : State) (c : CoreId) (k : Units) : (s.setUnit c k).tap = s.tap := rfl

/-! ### State.setLoc -/

@[simp] theorem State.setLoc_pending (s : State) (c : CoreId) (k : Local) : (s.setLoc c k).pending = s.pending := rfl
@[simp] theorem State.setLoc_tick (s : State) (c : CoreId) (k : Local) : (s.setLoc c k).tick = s.tick := rfl
@[simp] theorem State.setLoc_ts (s : State) (c : CoreId) (k : Local) : (s.setLoc c k).ts = s.ts := rfl
@[simp] theorem State.setLoc_regs (s : State) (c : CoreId) (k : Local) : (s.setLoc c k).regs = s.regs := rfl
@[simp] theorem State.setLoc_cores (s : State) (c : CoreId) (k : Local) : (s.setLoc c k).cores = s.cores := rfl
@[simp] theorem State.setLoc_units (s : State) (c : CoreId) (k : Local) : (s.setLoc c k).units = s.units := rfl
@[simp] theorem State.setLoc_queues (s : State) (c : CoreId) (k : Local) : (s.setLoc c k).queues = s.queues := rfl
@[simp] theorem State.setLoc_dus (s : State) (c : CoreId) (k : Local) : (s.setLoc c k).dus = s.dus := rfl
@[simp] theorem State.setLoc_gddr (s : State) (c : CoreId) (k : Local) : (s.setLoc c k).gddr = s.gddr := rfl
@[simp] theorem State.setLoc_gddrErr (s : State) (c : CoreId) (k : Local) : (s.setLoc c k).gddrErr = s.gddrErr := rfl
@[simp] theorem State.setLoc_ctrls (s : State) (c : CoreId) (k : Local) : (s.setLoc c k).ctrls = s.ctrls := rfl
@[simp] theorem State.setLoc_mem (s : State) (c : CoreId) (k : Local) : (s.setLoc c k).mem = s.mem := rfl
@[simp] theorem State.setLoc_tier (s : State) (c : CoreId) (k : Local) : (s.setLoc c k).tier = s.tier := rfl
@[simp] theorem State.setLoc_cxl (s : State) (c : CoreId) (k : Local) : (s.setLoc c k).cxl = s.cxl := rfl
@[simp] theorem State.setLoc_cxlCfg (s : State) (c : CoreId) (k : Local) : (s.setLoc c k).cxlCfg = s.cxlCfg := rfl
@[simp] theorem State.setLoc_links (s : State) (c : CoreId) (k : Local) : (s.setLoc c k).links = s.links := rfl
@[simp] theorem State.setLoc_net (s : State) (c : CoreId) (k : Local) : (s.setLoc c k).net = s.net := rfl
@[simp] theorem State.setLoc_host (s : State) (c : CoreId) (k : Local) : (s.setLoc c k).host = s.host := rfl
@[simp] theorem State.setLoc_jobs (s : State) (c : CoreId) (k : Local) : (s.setLoc c k).jobs = s.jobs := rfl
@[simp] theorem State.setLoc_rcl (s : State) (c : CoreId) (k : Local) : (s.setLoc c k).rcl = s.rcl := rfl
@[simp] theorem State.setLoc_tel (s : State) (c : CoreId) (k : Local) : (s.setLoc c k).tel = s.tel := rfl
@[simp] theorem State.setLoc_power (s : State) (c : CoreId) (k : Local) : (s.setLoc c k).power = s.power := rfl
@[simp] theorem State.setLoc_sec (s : State) (c : CoreId) (k : Local) : (s.setLoc c k).sec = s.sec := rfl
@[simp] theorem State.setLoc_pins (s : State) (c : CoreId) (k : Local) : (s.setLoc c k).pins = s.pins := rfl
@[simp] theorem State.setLoc_tap (s : State) (c : CoreId) (k : Local) : (s.setLoc c k).tap = s.tap := rfl

/-! ### State.setQueue -/

@[simp] theorem State.setQueue_pending (s : State) (q : QId) (k : Queue) : (s.setQueue q k).pending = s.pending := rfl
@[simp] theorem State.setQueue_tick (s : State) (q : QId) (k : Queue) : (s.setQueue q k).tick = s.tick := rfl
@[simp] theorem State.setQueue_ts (s : State) (q : QId) (k : Queue) : (s.setQueue q k).ts = s.ts := rfl
@[simp] theorem State.setQueue_regs (s : State) (q : QId) (k : Queue) : (s.setQueue q k).regs = s.regs := rfl
@[simp] theorem State.setQueue_cores (s : State) (q : QId) (k : Queue) : (s.setQueue q k).cores = s.cores := rfl
@[simp] theorem State.setQueue_units (s : State) (q : QId) (k : Queue) : (s.setQueue q k).units = s.units := rfl
@[simp] theorem State.setQueue_locals (s : State) (q : QId) (k : Queue) : (s.setQueue q k).locals = s.locals := rfl
@[simp] theorem State.setQueue_dus (s : State) (q : QId) (k : Queue) : (s.setQueue q k).dus = s.dus := rfl
@[simp] theorem State.setQueue_gddr (s : State) (q : QId) (k : Queue) : (s.setQueue q k).gddr = s.gddr := rfl
@[simp] theorem State.setQueue_gddrErr (s : State) (q : QId) (k : Queue) : (s.setQueue q k).gddrErr = s.gddrErr := rfl
@[simp] theorem State.setQueue_ctrls (s : State) (q : QId) (k : Queue) : (s.setQueue q k).ctrls = s.ctrls := rfl
@[simp] theorem State.setQueue_mem (s : State) (q : QId) (k : Queue) : (s.setQueue q k).mem = s.mem := rfl
@[simp] theorem State.setQueue_tier (s : State) (q : QId) (k : Queue) : (s.setQueue q k).tier = s.tier := rfl
@[simp] theorem State.setQueue_cxl (s : State) (q : QId) (k : Queue) : (s.setQueue q k).cxl = s.cxl := rfl
@[simp] theorem State.setQueue_cxlCfg (s : State) (q : QId) (k : Queue) : (s.setQueue q k).cxlCfg = s.cxlCfg := rfl
@[simp] theorem State.setQueue_links (s : State) (q : QId) (k : Queue) : (s.setQueue q k).links = s.links := rfl
@[simp] theorem State.setQueue_net (s : State) (q : QId) (k : Queue) : (s.setQueue q k).net = s.net := rfl
@[simp] theorem State.setQueue_host (s : State) (q : QId) (k : Queue) : (s.setQueue q k).host = s.host := rfl
@[simp] theorem State.setQueue_jobs (s : State) (q : QId) (k : Queue) : (s.setQueue q k).jobs = s.jobs := rfl
@[simp] theorem State.setQueue_rcl (s : State) (q : QId) (k : Queue) : (s.setQueue q k).rcl = s.rcl := rfl
@[simp] theorem State.setQueue_tel (s : State) (q : QId) (k : Queue) : (s.setQueue q k).tel = s.tel := rfl
@[simp] theorem State.setQueue_power (s : State) (q : QId) (k : Queue) : (s.setQueue q k).power = s.power := rfl
@[simp] theorem State.setQueue_sec (s : State) (q : QId) (k : Queue) : (s.setQueue q k).sec = s.sec := rfl
@[simp] theorem State.setQueue_pins (s : State) (q : QId) (k : Queue) : (s.setQueue q k).pins = s.pins := rfl
@[simp] theorem State.setQueue_tap (s : State) (q : QId) (k : Queue) : (s.setQueue q k).tap = s.tap := rfl

/-! ### State.setDu -/

@[simp] theorem State.setDu_pending (s : State) (u : DuId) (k : Dispatch) : (s.setDu u k).pending = s.pending := rfl
@[simp] theorem State.setDu_tick (s : State) (u : DuId) (k : Dispatch) : (s.setDu u k).tick = s.tick := rfl
@[simp] theorem State.setDu_ts (s : State) (u : DuId) (k : Dispatch) : (s.setDu u k).ts = s.ts := rfl
@[simp] theorem State.setDu_regs (s : State) (u : DuId) (k : Dispatch) : (s.setDu u k).regs = s.regs := rfl
@[simp] theorem State.setDu_cores (s : State) (u : DuId) (k : Dispatch) : (s.setDu u k).cores = s.cores := rfl
@[simp] theorem State.setDu_units (s : State) (u : DuId) (k : Dispatch) : (s.setDu u k).units = s.units := rfl
@[simp] theorem State.setDu_locals (s : State) (u : DuId) (k : Dispatch) : (s.setDu u k).locals = s.locals := rfl
@[simp] theorem State.setDu_queues (s : State) (u : DuId) (k : Dispatch) : (s.setDu u k).queues = s.queues := rfl
@[simp] theorem State.setDu_gddr (s : State) (u : DuId) (k : Dispatch) : (s.setDu u k).gddr = s.gddr := rfl
@[simp] theorem State.setDu_gddrErr (s : State) (u : DuId) (k : Dispatch) : (s.setDu u k).gddrErr = s.gddrErr := rfl
@[simp] theorem State.setDu_ctrls (s : State) (u : DuId) (k : Dispatch) : (s.setDu u k).ctrls = s.ctrls := rfl
@[simp] theorem State.setDu_mem (s : State) (u : DuId) (k : Dispatch) : (s.setDu u k).mem = s.mem := rfl
@[simp] theorem State.setDu_tier (s : State) (u : DuId) (k : Dispatch) : (s.setDu u k).tier = s.tier := rfl
@[simp] theorem State.setDu_cxl (s : State) (u : DuId) (k : Dispatch) : (s.setDu u k).cxl = s.cxl := rfl
@[simp] theorem State.setDu_cxlCfg (s : State) (u : DuId) (k : Dispatch) : (s.setDu u k).cxlCfg = s.cxlCfg := rfl
@[simp] theorem State.setDu_links (s : State) (u : DuId) (k : Dispatch) : (s.setDu u k).links = s.links := rfl
@[simp] theorem State.setDu_net (s : State) (u : DuId) (k : Dispatch) : (s.setDu u k).net = s.net := rfl
@[simp] theorem State.setDu_host (s : State) (u : DuId) (k : Dispatch) : (s.setDu u k).host = s.host := rfl
@[simp] theorem State.setDu_jobs (s : State) (u : DuId) (k : Dispatch) : (s.setDu u k).jobs = s.jobs := rfl
@[simp] theorem State.setDu_rcl (s : State) (u : DuId) (k : Dispatch) : (s.setDu u k).rcl = s.rcl := rfl
@[simp] theorem State.setDu_tel (s : State) (u : DuId) (k : Dispatch) : (s.setDu u k).tel = s.tel := rfl
@[simp] theorem State.setDu_power (s : State) (u : DuId) (k : Dispatch) : (s.setDu u k).power = s.power := rfl
@[simp] theorem State.setDu_sec (s : State) (u : DuId) (k : Dispatch) : (s.setDu u k).sec = s.sec := rfl
@[simp] theorem State.setDu_pins (s : State) (u : DuId) (k : Dispatch) : (s.setDu u k).pins = s.pins := rfl
@[simp] theorem State.setDu_tap (s : State) (u : DuId) (k : Dispatch) : (s.setDu u k).tap = s.tap := rfl

/-! ### State.setLink -/

@[simp] theorem State.setLink_pending (s : State) (l : LinkId) (k : Link) : (s.setLink l k).pending = s.pending := rfl
@[simp] theorem State.setLink_tick (s : State) (l : LinkId) (k : Link) : (s.setLink l k).tick = s.tick := rfl
@[simp] theorem State.setLink_ts (s : State) (l : LinkId) (k : Link) : (s.setLink l k).ts = s.ts := rfl
@[simp] theorem State.setLink_regs (s : State) (l : LinkId) (k : Link) : (s.setLink l k).regs = s.regs := rfl
@[simp] theorem State.setLink_cores (s : State) (l : LinkId) (k : Link) : (s.setLink l k).cores = s.cores := rfl
@[simp] theorem State.setLink_units (s : State) (l : LinkId) (k : Link) : (s.setLink l k).units = s.units := rfl
@[simp] theorem State.setLink_locals (s : State) (l : LinkId) (k : Link) : (s.setLink l k).locals = s.locals := rfl
@[simp] theorem State.setLink_queues (s : State) (l : LinkId) (k : Link) : (s.setLink l k).queues = s.queues := rfl
@[simp] theorem State.setLink_dus (s : State) (l : LinkId) (k : Link) : (s.setLink l k).dus = s.dus := rfl
@[simp] theorem State.setLink_gddr (s : State) (l : LinkId) (k : Link) : (s.setLink l k).gddr = s.gddr := rfl
@[simp] theorem State.setLink_gddrErr (s : State) (l : LinkId) (k : Link) : (s.setLink l k).gddrErr = s.gddrErr := rfl
@[simp] theorem State.setLink_ctrls (s : State) (l : LinkId) (k : Link) : (s.setLink l k).ctrls = s.ctrls := rfl
@[simp] theorem State.setLink_mem (s : State) (l : LinkId) (k : Link) : (s.setLink l k).mem = s.mem := rfl
@[simp] theorem State.setLink_tier (s : State) (l : LinkId) (k : Link) : (s.setLink l k).tier = s.tier := rfl
@[simp] theorem State.setLink_cxl (s : State) (l : LinkId) (k : Link) : (s.setLink l k).cxl = s.cxl := rfl
@[simp] theorem State.setLink_cxlCfg (s : State) (l : LinkId) (k : Link) : (s.setLink l k).cxlCfg = s.cxlCfg := rfl
@[simp] theorem State.setLink_net (s : State) (l : LinkId) (k : Link) : (s.setLink l k).net = s.net := rfl
@[simp] theorem State.setLink_host (s : State) (l : LinkId) (k : Link) : (s.setLink l k).host = s.host := rfl
@[simp] theorem State.setLink_jobs (s : State) (l : LinkId) (k : Link) : (s.setLink l k).jobs = s.jobs := rfl
@[simp] theorem State.setLink_rcl (s : State) (l : LinkId) (k : Link) : (s.setLink l k).rcl = s.rcl := rfl
@[simp] theorem State.setLink_tel (s : State) (l : LinkId) (k : Link) : (s.setLink l k).tel = s.tel := rfl
@[simp] theorem State.setLink_power (s : State) (l : LinkId) (k : Link) : (s.setLink l k).power = s.power := rfl
@[simp] theorem State.setLink_sec (s : State) (l : LinkId) (k : Link) : (s.setLink l k).sec = s.sec := rfl
@[simp] theorem State.setLink_pins (s : State) (l : LinkId) (k : Link) : (s.setLink l k).pins = s.pins := rfl
@[simp] theorem State.setLink_tap (s : State) (l : LinkId) (k : Link) : (s.setLink l k).tap = s.tap := rfl

/-! ### State.setCtrl -/

@[simp] theorem State.setCtrl_pending (s : State) (g : CtrlId) (k : Ctrl) : (s.setCtrl g k).pending = s.pending := rfl
@[simp] theorem State.setCtrl_tick (s : State) (g : CtrlId) (k : Ctrl) : (s.setCtrl g k).tick = s.tick := rfl
@[simp] theorem State.setCtrl_ts (s : State) (g : CtrlId) (k : Ctrl) : (s.setCtrl g k).ts = s.ts := rfl
@[simp] theorem State.setCtrl_regs (s : State) (g : CtrlId) (k : Ctrl) : (s.setCtrl g k).regs = s.regs := rfl
@[simp] theorem State.setCtrl_cores (s : State) (g : CtrlId) (k : Ctrl) : (s.setCtrl g k).cores = s.cores := rfl
@[simp] theorem State.setCtrl_units (s : State) (g : CtrlId) (k : Ctrl) : (s.setCtrl g k).units = s.units := rfl
@[simp] theorem State.setCtrl_locals (s : State) (g : CtrlId) (k : Ctrl) : (s.setCtrl g k).locals = s.locals := rfl
@[simp] theorem State.setCtrl_queues (s : State) (g : CtrlId) (k : Ctrl) : (s.setCtrl g k).queues = s.queues := rfl
@[simp] theorem State.setCtrl_dus (s : State) (g : CtrlId) (k : Ctrl) : (s.setCtrl g k).dus = s.dus := rfl
@[simp] theorem State.setCtrl_gddr (s : State) (g : CtrlId) (k : Ctrl) : (s.setCtrl g k).gddr = s.gddr := rfl
@[simp] theorem State.setCtrl_gddrErr (s : State) (g : CtrlId) (k : Ctrl) : (s.setCtrl g k).gddrErr = s.gddrErr := rfl
@[simp] theorem State.setCtrl_mem (s : State) (g : CtrlId) (k : Ctrl) : (s.setCtrl g k).mem = s.mem := rfl
@[simp] theorem State.setCtrl_tier (s : State) (g : CtrlId) (k : Ctrl) : (s.setCtrl g k).tier = s.tier := rfl
@[simp] theorem State.setCtrl_cxl (s : State) (g : CtrlId) (k : Ctrl) : (s.setCtrl g k).cxl = s.cxl := rfl
@[simp] theorem State.setCtrl_cxlCfg (s : State) (g : CtrlId) (k : Ctrl) : (s.setCtrl g k).cxlCfg = s.cxlCfg := rfl
@[simp] theorem State.setCtrl_links (s : State) (g : CtrlId) (k : Ctrl) : (s.setCtrl g k).links = s.links := rfl
@[simp] theorem State.setCtrl_net (s : State) (g : CtrlId) (k : Ctrl) : (s.setCtrl g k).net = s.net := rfl
@[simp] theorem State.setCtrl_host (s : State) (g : CtrlId) (k : Ctrl) : (s.setCtrl g k).host = s.host := rfl
@[simp] theorem State.setCtrl_jobs (s : State) (g : CtrlId) (k : Ctrl) : (s.setCtrl g k).jobs = s.jobs := rfl
@[simp] theorem State.setCtrl_rcl (s : State) (g : CtrlId) (k : Ctrl) : (s.setCtrl g k).rcl = s.rcl := rfl
@[simp] theorem State.setCtrl_tel (s : State) (g : CtrlId) (k : Ctrl) : (s.setCtrl g k).tel = s.tel := rfl
@[simp] theorem State.setCtrl_power (s : State) (g : CtrlId) (k : Ctrl) : (s.setCtrl g k).power = s.power := rfl
@[simp] theorem State.setCtrl_sec (s : State) (g : CtrlId) (k : Ctrl) : (s.setCtrl g k).sec = s.sec := rfl
@[simp] theorem State.setCtrl_pins (s : State) (g : CtrlId) (k : Ctrl) : (s.setCtrl g k).pins = s.pins := rfl
@[simp] theorem State.setCtrl_tap (s : State) (g : CtrlId) (k : Ctrl) : (s.setCtrl g k).tap = s.tap := rfl

/-! ### State.setCxl -/

@[simp] theorem State.setCxl_pending (s : State) (p : PortId) (k : Cxl) : (s.setCxl p k).pending = s.pending := rfl
@[simp] theorem State.setCxl_tick (s : State) (p : PortId) (k : Cxl) : (s.setCxl p k).tick = s.tick := rfl
@[simp] theorem State.setCxl_ts (s : State) (p : PortId) (k : Cxl) : (s.setCxl p k).ts = s.ts := rfl
@[simp] theorem State.setCxl_regs (s : State) (p : PortId) (k : Cxl) : (s.setCxl p k).regs = s.regs := rfl
@[simp] theorem State.setCxl_cores (s : State) (p : PortId) (k : Cxl) : (s.setCxl p k).cores = s.cores := rfl
@[simp] theorem State.setCxl_units (s : State) (p : PortId) (k : Cxl) : (s.setCxl p k).units = s.units := rfl
@[simp] theorem State.setCxl_locals (s : State) (p : PortId) (k : Cxl) : (s.setCxl p k).locals = s.locals := rfl
@[simp] theorem State.setCxl_queues (s : State) (p : PortId) (k : Cxl) : (s.setCxl p k).queues = s.queues := rfl
@[simp] theorem State.setCxl_dus (s : State) (p : PortId) (k : Cxl) : (s.setCxl p k).dus = s.dus := rfl
@[simp] theorem State.setCxl_gddr (s : State) (p : PortId) (k : Cxl) : (s.setCxl p k).gddr = s.gddr := rfl
@[simp] theorem State.setCxl_gddrErr (s : State) (p : PortId) (k : Cxl) : (s.setCxl p k).gddrErr = s.gddrErr := rfl
@[simp] theorem State.setCxl_ctrls (s : State) (p : PortId) (k : Cxl) : (s.setCxl p k).ctrls = s.ctrls := rfl
@[simp] theorem State.setCxl_mem (s : State) (p : PortId) (k : Cxl) : (s.setCxl p k).mem = s.mem := rfl
@[simp] theorem State.setCxl_tier (s : State) (p : PortId) (k : Cxl) : (s.setCxl p k).tier = s.tier := rfl
@[simp] theorem State.setCxl_cxlCfg (s : State) (p : PortId) (k : Cxl) : (s.setCxl p k).cxlCfg = s.cxlCfg := rfl
@[simp] theorem State.setCxl_links (s : State) (p : PortId) (k : Cxl) : (s.setCxl p k).links = s.links := rfl
@[simp] theorem State.setCxl_net (s : State) (p : PortId) (k : Cxl) : (s.setCxl p k).net = s.net := rfl
@[simp] theorem State.setCxl_host (s : State) (p : PortId) (k : Cxl) : (s.setCxl p k).host = s.host := rfl
@[simp] theorem State.setCxl_jobs (s : State) (p : PortId) (k : Cxl) : (s.setCxl p k).jobs = s.jobs := rfl
@[simp] theorem State.setCxl_rcl (s : State) (p : PortId) (k : Cxl) : (s.setCxl p k).rcl = s.rcl := rfl
@[simp] theorem State.setCxl_tel (s : State) (p : PortId) (k : Cxl) : (s.setCxl p k).tel = s.tel := rfl
@[simp] theorem State.setCxl_power (s : State) (p : PortId) (k : Cxl) : (s.setCxl p k).power = s.power := rfl
@[simp] theorem State.setCxl_sec (s : State) (p : PortId) (k : Cxl) : (s.setCxl p k).sec = s.sec := rfl
@[simp] theorem State.setCxl_pins (s : State) (p : PortId) (k : Cxl) : (s.setCxl p k).pins = s.pins := rfl
@[simp] theorem State.setCxl_tap (s : State) (p : PortId) (k : Cxl) : (s.setCxl p k).tap = s.tap := rfl

/-! ### State.setRing -/

@[simp] theorem State.setRing_pending (s : State) (r : RingId) (k : Ring) : (s.setRing r k).pending = s.pending := rfl
@[simp] theorem State.setRing_tick (s : State) (r : RingId) (k : Ring) : (s.setRing r k).tick = s.tick := rfl
@[simp] theorem State.setRing_ts (s : State) (r : RingId) (k : Ring) : (s.setRing r k).ts = s.ts := rfl
@[simp] theorem State.setRing_regs (s : State) (r : RingId) (k : Ring) : (s.setRing r k).regs = s.regs := rfl
@[simp] theorem State.setRing_cores (s : State) (r : RingId) (k : Ring) : (s.setRing r k).cores = s.cores := rfl
@[simp] theorem State.setRing_units (s : State) (r : RingId) (k : Ring) : (s.setRing r k).units = s.units := rfl
@[simp] theorem State.setRing_locals (s : State) (r : RingId) (k : Ring) : (s.setRing r k).locals = s.locals := rfl
@[simp] theorem State.setRing_queues (s : State) (r : RingId) (k : Ring) : (s.setRing r k).queues = s.queues := rfl
@[simp] theorem State.setRing_dus (s : State) (r : RingId) (k : Ring) : (s.setRing r k).dus = s.dus := rfl
@[simp] theorem State.setRing_gddr (s : State) (r : RingId) (k : Ring) : (s.setRing r k).gddr = s.gddr := rfl
@[simp] theorem State.setRing_gddrErr (s : State) (r : RingId) (k : Ring) : (s.setRing r k).gddrErr = s.gddrErr := rfl
@[simp] theorem State.setRing_ctrls (s : State) (r : RingId) (k : Ring) : (s.setRing r k).ctrls = s.ctrls := rfl
@[simp] theorem State.setRing_mem (s : State) (r : RingId) (k : Ring) : (s.setRing r k).mem = s.mem := rfl
@[simp] theorem State.setRing_tier (s : State) (r : RingId) (k : Ring) : (s.setRing r k).tier = s.tier := rfl
@[simp] theorem State.setRing_cxl (s : State) (r : RingId) (k : Ring) : (s.setRing r k).cxl = s.cxl := rfl
@[simp] theorem State.setRing_cxlCfg (s : State) (r : RingId) (k : Ring) : (s.setRing r k).cxlCfg = s.cxlCfg := rfl
@[simp] theorem State.setRing_links (s : State) (r : RingId) (k : Ring) : (s.setRing r k).links = s.links := rfl
@[simp] theorem State.setRing_net (s : State) (r : RingId) (k : Ring) : (s.setRing r k).net = s.net := rfl
@[simp] theorem State.setRing_jobs (s : State) (r : RingId) (k : Ring) : (s.setRing r k).jobs = s.jobs := rfl
@[simp] theorem State.setRing_rcl (s : State) (r : RingId) (k : Ring) : (s.setRing r k).rcl = s.rcl := rfl
@[simp] theorem State.setRing_tel (s : State) (r : RingId) (k : Ring) : (s.setRing r k).tel = s.tel := rfl
@[simp] theorem State.setRing_power (s : State) (r : RingId) (k : Ring) : (s.setRing r k).power = s.power := rfl
@[simp] theorem State.setRing_sec (s : State) (r : RingId) (k : Ring) : (s.setRing r k).sec = s.sec := rfl
@[simp] theorem State.setRing_pins (s : State) (r : RingId) (k : Ring) : (s.setRing r k).pins = s.pins := rfl
@[simp] theorem State.setRing_tap (s : State) (r : RingId) (k : Ring) : (s.setRing r k).tap = s.tap := rfl

/-! ### State.setRclJob -/

@[simp] theorem State.setRclJob_pending (s : State) (j : JobId) (k : RclJob) : (s.setRclJob j k).pending = s.pending := rfl
@[simp] theorem State.setRclJob_tick (s : State) (j : JobId) (k : RclJob) : (s.setRclJob j k).tick = s.tick := rfl
@[simp] theorem State.setRclJob_ts (s : State) (j : JobId) (k : RclJob) : (s.setRclJob j k).ts = s.ts := rfl
@[simp] theorem State.setRclJob_regs (s : State) (j : JobId) (k : RclJob) : (s.setRclJob j k).regs = s.regs := rfl
@[simp] theorem State.setRclJob_cores (s : State) (j : JobId) (k : RclJob) : (s.setRclJob j k).cores = s.cores := rfl
@[simp] theorem State.setRclJob_units (s : State) (j : JobId) (k : RclJob) : (s.setRclJob j k).units = s.units := rfl
@[simp] theorem State.setRclJob_locals (s : State) (j : JobId) (k : RclJob) : (s.setRclJob j k).locals = s.locals := rfl
@[simp] theorem State.setRclJob_queues (s : State) (j : JobId) (k : RclJob) : (s.setRclJob j k).queues = s.queues := rfl
@[simp] theorem State.setRclJob_dus (s : State) (j : JobId) (k : RclJob) : (s.setRclJob j k).dus = s.dus := rfl
@[simp] theorem State.setRclJob_gddr (s : State) (j : JobId) (k : RclJob) : (s.setRclJob j k).gddr = s.gddr := rfl
@[simp] theorem State.setRclJob_gddrErr (s : State) (j : JobId) (k : RclJob) : (s.setRclJob j k).gddrErr = s.gddrErr := rfl
@[simp] theorem State.setRclJob_ctrls (s : State) (j : JobId) (k : RclJob) : (s.setRclJob j k).ctrls = s.ctrls := rfl
@[simp] theorem State.setRclJob_mem (s : State) (j : JobId) (k : RclJob) : (s.setRclJob j k).mem = s.mem := rfl
@[simp] theorem State.setRclJob_tier (s : State) (j : JobId) (k : RclJob) : (s.setRclJob j k).tier = s.tier := rfl
@[simp] theorem State.setRclJob_cxl (s : State) (j : JobId) (k : RclJob) : (s.setRclJob j k).cxl = s.cxl := rfl
@[simp] theorem State.setRclJob_cxlCfg (s : State) (j : JobId) (k : RclJob) : (s.setRclJob j k).cxlCfg = s.cxlCfg := rfl
@[simp] theorem State.setRclJob_links (s : State) (j : JobId) (k : RclJob) : (s.setRclJob j k).links = s.links := rfl
@[simp] theorem State.setRclJob_net (s : State) (j : JobId) (k : RclJob) : (s.setRclJob j k).net = s.net := rfl
@[simp] theorem State.setRclJob_host (s : State) (j : JobId) (k : RclJob) : (s.setRclJob j k).host = s.host := rfl
@[simp] theorem State.setRclJob_jobs (s : State) (j : JobId) (k : RclJob) : (s.setRclJob j k).jobs = s.jobs := rfl
@[simp] theorem State.setRclJob_tel (s : State) (j : JobId) (k : RclJob) : (s.setRclJob j k).tel = s.tel := rfl
@[simp] theorem State.setRclJob_power (s : State) (j : JobId) (k : RclJob) : (s.setRclJob j k).power = s.power := rfl
@[simp] theorem State.setRclJob_sec (s : State) (j : JobId) (k : RclJob) : (s.setRclJob j k).sec = s.sec := rfl
@[simp] theorem State.setRclJob_pins (s : State) (j : JobId) (k : RclJob) : (s.setRclJob j k).pins = s.pins := rfl
@[simp] theorem State.setRclJob_tap (s : State) (j : JobId) (k : RclJob) : (s.setRclJob j k).tap = s.tap := rfl

/-! ### State.setBkt -/

@[simp] theorem State.setBkt_pending (s : State) (e : QId) (k : Bucket) : (s.setBkt e k).pending = s.pending := rfl
@[simp] theorem State.setBkt_tick (s : State) (e : QId) (k : Bucket) : (s.setBkt e k).tick = s.tick := rfl
@[simp] theorem State.setBkt_ts (s : State) (e : QId) (k : Bucket) : (s.setBkt e k).ts = s.ts := rfl
@[simp] theorem State.setBkt_regs (s : State) (e : QId) (k : Bucket) : (s.setBkt e k).regs = s.regs := rfl
@[simp] theorem State.setBkt_cores (s : State) (e : QId) (k : Bucket) : (s.setBkt e k).cores = s.cores := rfl
@[simp] theorem State.setBkt_units (s : State) (e : QId) (k : Bucket) : (s.setBkt e k).units = s.units := rfl
@[simp] theorem State.setBkt_locals (s : State) (e : QId) (k : Bucket) : (s.setBkt e k).locals = s.locals := rfl
@[simp] theorem State.setBkt_queues (s : State) (e : QId) (k : Bucket) : (s.setBkt e k).queues = s.queues := rfl
@[simp] theorem State.setBkt_dus (s : State) (e : QId) (k : Bucket) : (s.setBkt e k).dus = s.dus := rfl
@[simp] theorem State.setBkt_gddr (s : State) (e : QId) (k : Bucket) : (s.setBkt e k).gddr = s.gddr := rfl
@[simp] theorem State.setBkt_gddrErr (s : State) (e : QId) (k : Bucket) : (s.setBkt e k).gddrErr = s.gddrErr := rfl
@[simp] theorem State.setBkt_ctrls (s : State) (e : QId) (k : Bucket) : (s.setBkt e k).ctrls = s.ctrls := rfl
@[simp] theorem State.setBkt_mem (s : State) (e : QId) (k : Bucket) : (s.setBkt e k).mem = s.mem := rfl
@[simp] theorem State.setBkt_tier (s : State) (e : QId) (k : Bucket) : (s.setBkt e k).tier = s.tier := rfl
@[simp] theorem State.setBkt_cxl (s : State) (e : QId) (k : Bucket) : (s.setBkt e k).cxl = s.cxl := rfl
@[simp] theorem State.setBkt_cxlCfg (s : State) (e : QId) (k : Bucket) : (s.setBkt e k).cxlCfg = s.cxlCfg := rfl
@[simp] theorem State.setBkt_links (s : State) (e : QId) (k : Bucket) : (s.setBkt e k).links = s.links := rfl
@[simp] theorem State.setBkt_net (s : State) (e : QId) (k : Bucket) : (s.setBkt e k).net = s.net := rfl
@[simp] theorem State.setBkt_host (s : State) (e : QId) (k : Bucket) : (s.setBkt e k).host = s.host := rfl
@[simp] theorem State.setBkt_jobs (s : State) (e : QId) (k : Bucket) : (s.setBkt e k).jobs = s.jobs := rfl
@[simp] theorem State.setBkt_tel (s : State) (e : QId) (k : Bucket) : (s.setBkt e k).tel = s.tel := rfl
@[simp] theorem State.setBkt_power (s : State) (e : QId) (k : Bucket) : (s.setBkt e k).power = s.power := rfl
@[simp] theorem State.setBkt_sec (s : State) (e : QId) (k : Bucket) : (s.setBkt e k).sec = s.sec := rfl
@[simp] theorem State.setBkt_pins (s : State) (e : QId) (k : Bucket) : (s.setBkt e k).pins = s.pins := rfl
@[simp] theorem State.setBkt_tap (s : State) (e : QId) (k : Bucket) : (s.setBkt e k).tap = s.tap := rfl

/-! ### State.wr -/

@[simp] theorem State.wr_pending (s : State) (a : Nat) (v : W64) : (s.wr a v).pending = s.pending := rfl
@[simp] theorem State.wr_tick (s : State) (a : Nat) (v : W64) : (s.wr a v).tick = s.tick := rfl
@[simp] theorem State.wr_ts (s : State) (a : Nat) (v : W64) : (s.wr a v).ts = s.ts := rfl
@[simp] theorem State.wr_cores (s : State) (a : Nat) (v : W64) : (s.wr a v).cores = s.cores := rfl
@[simp] theorem State.wr_units (s : State) (a : Nat) (v : W64) : (s.wr a v).units = s.units := rfl
@[simp] theorem State.wr_locals (s : State) (a : Nat) (v : W64) : (s.wr a v).locals = s.locals := rfl
@[simp] theorem State.wr_queues (s : State) (a : Nat) (v : W64) : (s.wr a v).queues = s.queues := rfl
@[simp] theorem State.wr_dus (s : State) (a : Nat) (v : W64) : (s.wr a v).dus = s.dus := rfl
@[simp] theorem State.wr_gddr (s : State) (a : Nat) (v : W64) : (s.wr a v).gddr = s.gddr := rfl
@[simp] theorem State.wr_gddrErr (s : State) (a : Nat) (v : W64) : (s.wr a v).gddrErr = s.gddrErr := rfl
@[simp] theorem State.wr_ctrls (s : State) (a : Nat) (v : W64) : (s.wr a v).ctrls = s.ctrls := rfl
@[simp] theorem State.wr_mem (s : State) (a : Nat) (v : W64) : (s.wr a v).mem = s.mem := rfl
@[simp] theorem State.wr_tier (s : State) (a : Nat) (v : W64) : (s.wr a v).tier = s.tier := rfl
@[simp] theorem State.wr_cxl (s : State) (a : Nat) (v : W64) : (s.wr a v).cxl = s.cxl := rfl
@[simp] theorem State.wr_cxlCfg (s : State) (a : Nat) (v : W64) : (s.wr a v).cxlCfg = s.cxlCfg := rfl
@[simp] theorem State.wr_links (s : State) (a : Nat) (v : W64) : (s.wr a v).links = s.links := rfl
@[simp] theorem State.wr_net (s : State) (a : Nat) (v : W64) : (s.wr a v).net = s.net := rfl
@[simp] theorem State.wr_host (s : State) (a : Nat) (v : W64) : (s.wr a v).host = s.host := rfl
@[simp] theorem State.wr_jobs (s : State) (a : Nat) (v : W64) : (s.wr a v).jobs = s.jobs := rfl
@[simp] theorem State.wr_rcl (s : State) (a : Nat) (v : W64) : (s.wr a v).rcl = s.rcl := rfl
@[simp] theorem State.wr_tel (s : State) (a : Nat) (v : W64) : (s.wr a v).tel = s.tel := rfl
@[simp] theorem State.wr_power (s : State) (a : Nat) (v : W64) : (s.wr a v).power = s.power := rfl
@[simp] theorem State.wr_sec (s : State) (a : Nat) (v : W64) : (s.wr a v).sec = s.sec := rfl
@[simp] theorem State.wr_pins (s : State) (a : Nat) (v : W64) : (s.wr a v).pins = s.pins := rfl
@[simp] theorem State.wr_tap (s : State) (a : Nat) (v : W64) : (s.wr a v).tap = s.tap := rfl

/-! ### Reading a part after an update -/

@[simp] theorem State.setCore_cores_val (s : State) (i : CoreId) (k : Core) : (s.setCore i k).cores[i.val] = k := by simp [State.setCore]
theorem State.setCore_cores_self (s : State) (i : CoreId) (k : Core) : (s.setCore i k).cores[i] = k := State.setCore_cores_val s i k
theorem State.setCore_cores_other (s : State) (i j : CoreId) (k : Core) (h : j ≠ i) : (s.setCore i k).cores[j] = s.cores[j] := by
  have h : i.val ≠ j.val := fun e => h (Fin.ext e.symm)
  simp [State.setCore, Vector.getElem_set_ne, h]
@[simp] theorem State.setUnit_units_val (s : State) (i : CoreId) (k : Units) : (s.setUnit i k).units[i.val] = k := by simp [State.setUnit]
theorem State.setUnit_units_self (s : State) (i : CoreId) (k : Units) : (s.setUnit i k).units[i] = k := State.setUnit_units_val s i k
theorem State.setUnit_units_other (s : State) (i j : CoreId) (k : Units) (h : j ≠ i) : (s.setUnit i k).units[j] = s.units[j] := by
  have h : i.val ≠ j.val := fun e => h (Fin.ext e.symm)
  simp [State.setUnit, Vector.getElem_set_ne, h]
@[simp] theorem State.setLoc_locals_val (s : State) (i : CoreId) (k : Local) : (s.setLoc i k).locals[i.val] = k := by simp [State.setLoc]
theorem State.setLoc_locals_self (s : State) (i : CoreId) (k : Local) : (s.setLoc i k).locals[i] = k := State.setLoc_locals_val s i k
theorem State.setLoc_locals_other (s : State) (i j : CoreId) (k : Local) (h : j ≠ i) : (s.setLoc i k).locals[j] = s.locals[j] := by
  have h : i.val ≠ j.val := fun e => h (Fin.ext e.symm)
  simp [State.setLoc, Vector.getElem_set_ne, h]
@[simp] theorem State.setQueue_queues_val (s : State) (i : QId) (k : Queue) : (s.setQueue i k).queues[i.val] = k := by simp [State.setQueue]
theorem State.setQueue_queues_self (s : State) (i : QId) (k : Queue) : (s.setQueue i k).queues[i] = k := State.setQueue_queues_val s i k
theorem State.setQueue_queues_other (s : State) (i j : QId) (k : Queue) (h : j ≠ i) : (s.setQueue i k).queues[j] = s.queues[j] := by
  have h : i.val ≠ j.val := fun e => h (Fin.ext e.symm)
  simp [State.setQueue, Vector.getElem_set_ne, h]
@[simp] theorem State.setDu_dus_val (s : State) (i : DuId) (k : Dispatch) : (s.setDu i k).dus[i.val] = k := by simp [State.setDu]
theorem State.setDu_dus_self (s : State) (i : DuId) (k : Dispatch) : (s.setDu i k).dus[i] = k := State.setDu_dus_val s i k
theorem State.setDu_dus_other (s : State) (i j : DuId) (k : Dispatch) (h : j ≠ i) : (s.setDu i k).dus[j] = s.dus[j] := by
  have h : i.val ≠ j.val := fun e => h (Fin.ext e.symm)
  simp [State.setDu, Vector.getElem_set_ne, h]
@[simp] theorem State.setLink_links_val (s : State) (i : LinkId) (k : Link) : (s.setLink i k).links[i.val] = k := by simp [State.setLink]
theorem State.setLink_links_self (s : State) (i : LinkId) (k : Link) : (s.setLink i k).links[i] = k := State.setLink_links_val s i k
theorem State.setLink_links_other (s : State) (i j : LinkId) (k : Link) (h : j ≠ i) : (s.setLink i k).links[j] = s.links[j] := by
  have h : i.val ≠ j.val := fun e => h (Fin.ext e.symm)
  simp [State.setLink, Vector.getElem_set_ne, h]
@[simp] theorem State.setCtrl_ctrls_val (s : State) (i : CtrlId) (k : Ctrl) : (s.setCtrl i k).ctrls[i.val] = k := by simp [State.setCtrl]
theorem State.setCtrl_ctrls_self (s : State) (i : CtrlId) (k : Ctrl) : (s.setCtrl i k).ctrls[i] = k := State.setCtrl_ctrls_val s i k
theorem State.setCtrl_ctrls_other (s : State) (i j : CtrlId) (k : Ctrl) (h : j ≠ i) : (s.setCtrl i k).ctrls[j] = s.ctrls[j] := by
  have h : i.val ≠ j.val := fun e => h (Fin.ext e.symm)
  simp [State.setCtrl, Vector.getElem_set_ne, h]
@[simp] theorem State.setCxl_cxl_val (s : State) (i : PortId) (k : Cxl) : (s.setCxl i k).cxl[i.val] = k := by simp [State.setCxl]
theorem State.setCxl_cxl_self (s : State) (i : PortId) (k : Cxl) : (s.setCxl i k).cxl[i] = k := State.setCxl_cxl_val s i k
theorem State.setCxl_cxl_other (s : State) (i j : PortId) (k : Cxl) (h : j ≠ i) : (s.setCxl i k).cxl[j] = s.cxl[j] := by
  have h : i.val ≠ j.val := fun e => h (Fin.ext e.symm)
  simp [State.setCxl, Vector.getElem_set_ne, h]

@[simp] theorem State.core_setCore_self (s : State) (c : CoreId) (k : Core) : (s.setCore c k).core c = k :=
  State.setCore_cores_self s c k
theorem State.core_setCore_other (s : State) (c d : CoreId) (k : Core) (h : d ≠ c) : (s.setCore c k).core d = s.core d :=
  State.setCore_cores_other s c d k h
@[simp] theorem State.unit_setUnit_self (s : State) (c : CoreId) (k : Units) : (s.setUnit c k).unit c = k :=
  State.setUnit_units_self s c k
@[simp] theorem State.loc_setLoc_self (s : State) (c : CoreId) (k : Local) : (s.setLoc c k).loc c = k :=
  State.setLoc_locals_self s c k
@[simp] theorem State.core_setUnit (s : State) (c d : CoreId) (k : Units) : (s.setUnit c k).core d = s.core d := rfl
@[simp] theorem State.core_setLoc (s : State) (c d : CoreId) (k : Local) : (s.setLoc c k).core d = s.core d := rfl
@[simp] theorem State.core_wr (s : State) (a : Nat) (v : W64) (d : CoreId) : (s.wr a v).core d = s.core d := rfl
@[simp] theorem State.unit_setCore (s : State) (c d : CoreId) (k : Core) : (s.setCore c k).unit d = s.unit d := rfl
@[simp] theorem State.unit_setLoc (s : State) (c d : CoreId) (k : Local) : (s.setLoc c k).unit d = s.unit d := rfl
@[simp] theorem State.unit_wr (s : State) (a : Nat) (v : W64) (d : CoreId) : (s.wr a v).unit d = s.unit d := rfl
@[simp] theorem State.loc_setCore (s : State) (c d : CoreId) (k : Core) : (s.setCore c k).loc d = s.loc d := rfl
@[simp] theorem State.loc_setUnit (s : State) (c d : CoreId) (k : Units) : (s.setUnit c k).loc d = s.loc d := rfl
@[simp] theorem State.loc_wr (s : State) (a : Nat) (v : W64) (d : CoreId) : (s.wr a v).loc d = s.loc d := rfl
@[simp] theorem State.rd_setCore (s : State) (c : CoreId) (k : Core) (a : Nat) : (s.setCore c k).rd a = s.rd a := rfl
@[simp] theorem State.rd_setUnit (s : State) (c : CoreId) (k : Units) (a : Nat) : (s.setUnit c k).rd a = s.rd a := rfl
@[simp] theorem State.rd_setLoc (s : State) (c : CoreId) (k : Local) (a : Nat) : (s.setLoc c k).rd a = s.rd a := rfl
@[simp] theorem State.rd_setQueue (s : State) (q : QId) (k : Queue) (a : Nat) : (s.setQueue q k).rd a = s.rd a := rfl
@[simp] theorem State.rd_setDu (s : State) (u : DuId) (k : Dispatch) (a : Nat) : (s.setDu u k).rd a = s.rd a := rfl
@[simp] theorem State.rd_setLink (s : State) (l : LinkId) (k : Link) (a : Nat) : (s.setLink l k).rd a = s.rd a := rfl
@[simp] theorem State.rd_setCtrl (s : State) (g : CtrlId) (k : Ctrl) (a : Nat) : (s.setCtrl g k).rd a = s.rd a := rfl
@[simp] theorem State.rd_setCxl (s : State) (p : PortId) (k : Cxl) (a : Nat) : (s.setCxl p k).rd a = s.rd a := rfl
@[simp] theorem State.rd_setRing (s : State) (r : RingId) (k : Ring) (a : Nat) : (s.setRing r k).rd a = s.rd a := rfl
@[simp] theorem State.rd_setRclJob (s : State) (j : JobId) (k : RclJob) (a : Nat) : (s.setRclJob j k).rd a = s.rd a := rfl
@[simp] theorem State.rd_setBkt (s : State) (e : QId) (k : Bucket) (a : Nat) : (s.setBkt e k).rd a = s.rd a := rfl

/-! ### Registers -/

/-- The entry of a key after an entry has been put in. -/
theorem tget_tset {α : Type} (t : Table α) (k j : Nat) (v : α) : tget (tset t k v) j = if j = k then some v else tget t j := by
  induction t with
  | nil =>
    by_cases h : k = j <;> simp [tset, tget, h, Ne.symm, eq_comm]
  | cons e rest ih =>
    obtain ⟨i, x⟩ := e
    simp only [tset]
    split
    · by_cases h : k = j
      · simp [tget, h]
      · simp [tget, h, Ne.symm h]
    · split
      · rename_i h1 h2
        subst h2
        by_cases h : i = j
        · simp [tget, h]
        · simp [tget, h, Ne.symm h]
      · rename_i h1 h2
        simp only [tget]
        by_cases h : i = j
        · have : j ≠ k := fun e => h2 (h.trans e)
          simp [h, this]
        · simp [h, ih]

/-- The entry of a key after an entry has been taken out. -/
theorem tget_tdel {α : Type} (t : Table α) (k j : Nat) : tget (tdel t k) j = if j = k then none else tget t j := by
  induction t with
  | nil => simp [tdel, tget]
  | cons e rest ih =>
    obtain ⟨i, x⟩ := e
    by_cases hi : i = k
    · have : tdel ((i, x) :: rest) k = tdel rest k := by simp [tdel, hi]
      rw [this, ih]
      by_cases hj : j = k
      · simp [hj]
      · have : i ≠ j := fun e => hj (e.symm.trans hi)
        simp [hj, tget, this]
    · have : tdel ((i, x) :: rest) k = (i, x) :: tdel rest k := by simp [tdel, hi]
      rw [this]
      simp only [tget]
      by_cases hj : i = j
      · have : j ≠ k := fun e => hi (hj.trans e)
        simp [hj, this]
      · simp [hj, ih]

/-- A register holds what was last written to it. -/
@[simp] theorem State.rd_wr_self (s : State) (a : Nat) (v : W64) : (s.wr a v).rd a = v := by
  simp only [State.wr, State.rd]
  split
  · rename_i h
    simp [tget_tdel, h]
  · simp [tget_tset]

/-- Writing one register leaves every other alone. -/
theorem State.rd_wr_other (s : State) (a b : Nat) (v : W64) (h : b ≠ a) : (s.wr a v).rd b = s.rd b := by
  simp only [State.wr, State.rd]
  split <;> simp [tget_tdel, tget_tset, h]

/-- Two parts of a state that its named updates do not share commute with reading. -/
theorem State.rd_wr (s : State) (a b : Nat) (v : W64) : (s.wr a v).rd b = if b = a then v else s.rd b := by
  split
  · rename_i h
    rw [h, State.rd_wr_self]
  · rename_i h
    exact State.rd_wr_other s a b v h

end Sys2Proof.Machine
end

