-- ==== Sys2Proof/Laws/Issue.lean ====
section
/-!
SUPPORT. What the issue of an instruction does, once for every core instruction: the four ways it can go, and what
retiring does.
-/

-- The declarations of this file are elaborated in turn, so that checking the package as one text needs few threads.
set_option Elab.async false

namespace Sys2Proof.Machine

/-- A word can be fetched only by a core that runs and is not blocked. -/
theorem fetch_running {k : Core} {w : W128} {o : Op} {b : Bool} (h : fetch k = .word w o b) :
    k.run = .running ∧ k.blocked = none := by
  unfold fetch at h
  split at h
  · cases h
  · rename_i hn
    simp only [not_or, ne_eq, not_not] at hn
    exact ⟨hn.1, by cases hb : k.blocked with
      | none => rfl
      | some _ => simp [hb] at hn⟩

/-- The word at the PC with a true predicate takes its action. -/
theorem issue_taken {s : State} {c : CoreId} {us : List Upset} {w : W128} {o : Op} {act : State → W128 → State}
    (h : AtPc (strike s us) c w o) (hp : PredTrue (strike s us) c w) :
    issue s c us o act = act ((strike s us).setCore c { (strike s us).core c with
      lastMu0 := if o = .pass ∧ mUnit w = 0 then some (((strike s us).core c).pc, w, ((strike s us).core c).snap)
        else none }) w := by
  obtain ⟨hd, hf, hs, hr⟩ := h
  unfold issue
  have hp' : ((strike s us).core c).pget (fPred w) != fPinv w := by simpa [PredTrue] using hp
  simp only [hd, if_true, hf, ne_eq, not_true, hs, hr, Bool.not_true, Bool.false_eq_true, or_self, if_false, hp', and_true,
    fetchCorrected]

/-- The word at the PC with a false predicate only retires (R34). -/
theorem issue_skipped {s : State} {c : CoreId} {us : List Upset} {w : W128} {o : Op} {act : State → W128 → State}
    (h : AtPc (strike s us) c w o) (hp : ¬ PredTrue (strike s us) c w) :
    issue s c us o act = retire ((strike s us).setCore c { (strike s us).core c with lastMu0 := none }) c := by
  obtain ⟨hd, hf, hs, hr⟩ := h
  unfold issue
  have hp' : (((strike s us).core c).pget (fPred w) != fPinv w) = false := by
    simpa [PredTrue] using hp
  simp only [hd, if_true, hf, ne_eq, not_true, hs, hr, Bool.not_true, Bool.false_eq_true, or_self, if_false, hp', and_false,
    fetchCorrected]

/-- A core that runs freely goes on with the next instruction. -/
theorem retire_flowing {s : State} {c : CoreId} (hr : (s.core c).run = .running) (hb : (s.core c).blocked = none)
    (hf : Flowing s c) : retire s c = s.setCore c (loopNext (s.core c) (s.core c).pc) := by
  have hn : (loopNext (s.core c) (s.core c).pc).run = .running ∧
      (loopNext (s.core c) (s.core c).pc).blocked = none ∧
      (loopNext (s.core c) (s.core c).pc).stepping = false := by
    unfold loopNext
    dsimp only
    split <;> exact ⟨hr, hb, hf⟩
  unfold retire afterIssue
  simp [hn]

/-- A core that runs freely goes on at a target. -/
theorem retireTo_flowing {s : State} {c : CoreId} {t : Nat} (hr : (s.core c).run = .running)
    (hb : (s.core c).blocked = none) (hf : Flowing s c) : retireTo s c t = s.setCore c { s.core c with pc := t } := by
  unfold retireTo afterIssue
  simp [hr, hb, show (s.core c).stepping = false from hf]

/-- A core that runs and waits for nothing is woken to no effect. -/
theorem wake_running {s : State} {c : CoreId} (hr : (s.core c).run = .running) (hb : (s.core c).blocked = none) :
    wake s c = s := by
  unfold wake settle
  simp [hr, hb]

/-- An upset touches no unit. -/
theorem strikeOne_units (s : State) (u : Upset) : (strikeOne s u).units = s.units := by
  cases u with
  | imem c i d => rfl
  | sp c l f =>
    simp only [strikeOne]
    generalize (l % 0x200000) * 8 = o
    split
    · rfl
    · split <;> rfl
  | gddr l f =>
    simp only [strikeOne, strikeLine]
    generalize l % 0x60000000 = o
    split
    · rfl
    · split
      · rfl
      · split <;> rfl
  | queuePtr q => rfl
  | crc l n =>
    simp only [strikeOne, strikeCrc]
    split <;> rfl
  | onDie g n => rfl
  | aer hb e => rfl

/-- Upsets touch no unit. -/
theorem strike_units (s : State) (us : List Upset) : (strike s us).units = s.units := by
  unfold strike
  induction us generalizing s with
  | nil => rfl
  | cons u us ih => rw [List.foldl_cons, ih, strikeOne_units]

end Sys2Proof.Machine
end

