-- ==== Sys2Proof/Laws/Memory.lean ====
section
/-!
SUPPORT. The laws of byte memory: every operation keeps the canonical form, a read after a write gives what was written,
and a write leaves every other address alone.
-/

-- The declarations of this file are elaborated in turn, so that checking the package as one text needs few threads.
set_option Elab.async false

namespace Sys2Proof.Machine

/-- The canonical form as a property of the whole list. -/
theorem memory_wf_iff (m : Memory) :
    Memory.wf m = true ↔ m.Pairwise (fun a b => a.1 < b.1) ∧ ∀ e ∈ m, e.2 ≠ 0#8 := by
  induction m with
  | nil => simp [Memory.wf]
  | cons e rest ih =>
    obtain ⟨a, x⟩ := e
    cases rest with
    | nil => simp [Memory.wf]
    | cons f more =>
      obtain ⟨b, y⟩ := f
      simp only [Memory.wf, Bool.and_eq_true, decide_eq_true_eq, bne_iff_ne, ih, List.pairwise_cons, List.mem_cons]
      constructor
      · rintro ⟨⟨hab, hx⟩, ⟨hb, hp⟩, hz⟩
        refine ⟨⟨?_, hb, hp⟩, ?_⟩
        · rintro z (rfl | hz')
          · exact hab
          · exact Nat.lt_trans hab (hb z hz')
        · rintro z (rfl | hz')
          · exact hx
          · exact hz z hz'
      · rintro ⟨⟨ha, hb, hp⟩, hz⟩
        exact ⟨⟨ha _ (Or.inl rfl), hz _ (Or.inl rfl)⟩, ⟨hb, hp⟩, fun z hz' => hz z (Or.inr hz')⟩

/-- A byte memory keeps its canonical form when entries are left out. -/
theorem memory_filter_wf (m : Memory) (p : Host.Cell → Bool) (h : Memory.wf m = true) : Memory.wf (m.filter p) = true := by
  rw [memory_wf_iff] at h ⊢
  exact ⟨h.1.filter p, fun e he => h.2 e (List.mem_filter.mp he).1⟩

/-- Zeroing a span keeps the canonical form. -/
theorem memory_zero_wf (m : Memory) (a n : Nat) (h : Memory.wf m = true) : Memory.wf (m.zero a n) = true :=
  memory_filter_wf m _ h

/-- An entry of a memory after a write of one byte is the written one or an old one. -/
theorem memory_mem_set (m : Memory) (a : Nat) (v : Byte) (e : Host.Cell) (h : e ∈ m.set a v) :
    (e.1 = a ∧ e.2 = v ∧ v ≠ 0#8) ∨ e ∈ m := by
  induction m with
  | nil =>
    simp only [Memory.set] at h
    split at h
    · simp at h
    · rename_i hv
      simp only [List.mem_singleton] at h
      subst h
      exact .inl ⟨rfl, rfl, hv⟩
  | cons f rest ih =>
    obtain ⟨b, x⟩ := f
    simp only [Memory.set] at h
    split at h
    · split at h
      · exact .inr h
      · rename_i hv
        rcases List.mem_cons.mp h with rfl | h
        · exact .inl ⟨rfl, rfl, hv⟩
        · exact .inr h
    · split at h
      · split at h
        · exact .inr (List.mem_cons_of_mem _ h)
        · rename_i hv
          rcases List.mem_cons.mp h with rfl | h
          · exact .inl ⟨rfl, rfl, hv⟩
          · exact .inr (List.mem_cons_of_mem _ h)
      · rcases List.mem_cons.mp h with rfl | h
        · exact .inr List.mem_cons_self
        · rcases ih h with h | h
          · exact .inl h
          · exact .inr (List.mem_cons_of_mem _ h)

/-- Writing one byte keeps the canonical form. -/
theorem memory_set_wf (m : Memory) (a : Nat) (v : Byte) (h : Memory.wf m = true) : Memory.wf (m.set a v) = true := by
  rw [memory_wf_iff] at h ⊢
  refine ⟨?_, ?_⟩
  · obtain ⟨h, -⟩ := h
    induction m with
    | nil => simp only [Memory.set]; split <;> simp
    | cons f rest ih =>
      obtain ⟨b, x⟩ := f
      rw [List.pairwise_cons] at h
      obtain ⟨hb, hp⟩ := h
      simp only [Memory.set]
      split
      · rename_i hab
        split
        · exact List.pairwise_cons.mpr ⟨hb, hp⟩
        · refine List.pairwise_cons.mpr ⟨?_, List.pairwise_cons.mpr ⟨hb, hp⟩⟩
          intro z hz
          rcases List.mem_cons.mp hz with rfl | hz
          · exact hab
          · exact Nat.lt_trans hab (hb z hz)
      · rename_i hab
        split
        · rename_i hba
          split
          · exact hp
          · exact List.pairwise_cons.mpr ⟨fun z hz => hba ▸ hb z hz, hp⟩
        · rename_i hba
          refine List.pairwise_cons.mpr ⟨?_, ih hp⟩
          intro z hz
          rcases memory_mem_set rest a v z hz with ⟨hz, -, -⟩ | hz
          · show b < z.1
            omega
          · exact hb z hz
  · intro e he
    rcases memory_mem_set m a v e he with ⟨-, he, hv⟩ | he
    · exact he ▸ hv
    · exact h.2 e he

/-- Writing a byte string keeps the canonical form. -/
theorem memory_write_wf (bs : List Byte) (m : Memory) (a : Nat) (h : Memory.wf m = true) :
    Memory.wf (m.write a bs) = true := by
  induction bs generalizing m a with
  | nil => exact h
  | cons b rest ih => exact ih _ _ (memory_set_wf m a b h)

/-- A canonical memory has no entry below its first. -/
theorem memory_get_below (m : Memory) (a : Nat) (h : ∀ e ∈ m, a < e.1) : m.get a = 0#8 := by
  induction m with
  | nil => rfl
  | cons f rest ih =>
    obtain ⟨b, x⟩ := f
    have hb : a < b := h (b, x) List.mem_cons_self
    simp only [Memory.get]
    rw [if_neg (by omega)]
    exact ih (fun e he => h e (List.mem_cons_of_mem _ he))

/-- A read of any byte after a write of one byte. -/
theorem memory_get_set (m : Memory) (a c : Nat) (v : Byte) (h : Memory.wf m = true) :
    (m.set a v).get c = if c = a then v else m.get c := by
  have h0 := h
  replace h := ((memory_wf_iff m).mp h).1
  induction m with
  | nil =>
    simp only [Memory.set]
    split
    · rename_i hv
      subst hv
      simp [Memory.get]
    · simp only [Memory.get]
      by_cases hc : c = a
      · simp [hc]
      · simp [hc, Ne.symm hc]
  | cons f rest ih =>
    obtain ⟨b, x⟩ := f
    rw [List.pairwise_cons] at h
    obtain ⟨hb, hp⟩ := h
    simp only [Memory.set]
    split
    · rename_i hab
      split
      · rename_i hv
        by_cases hc : c = a
        · subst hc
          rw [if_pos rfl, hv]
          exact memory_get_below _ _ (fun e he => by
            rcases List.mem_cons.mp he with rfl | he
            · exact hab
            · exact Nat.lt_trans hab (hb e he))
        · rw [if_neg hc]
      · simp only [Memory.get]
        by_cases hc : c = a
        · simp [hc]
        · simp [hc, Ne.symm hc]
    · split
      · rename_i hba
        subst hba
        split
        · rename_i hv
          by_cases hc : c = b
          · subst hc
            rw [if_pos rfl, hv]
            exact memory_get_below _ _ hb
          · simp [Memory.get, hc, Ne.symm hc]
        · by_cases hc : c = b
          · simp [Memory.get, hc]
          · simp [Memory.get, hc, Ne.symm hc]
      · rename_i hab hba
        simp only [Memory.get]
        by_cases hc : b = c
        · simp [hc]
          intro h'
          omega
        · rw [if_neg hc, if_neg hc]
          have hz := ((memory_wf_iff _).mp h0).2
          exact ih ((memory_wf_iff _).mpr ⟨hp, fun e he => hz e (List.mem_cons_of_mem _ he)⟩) hp

/-- A byte written is the byte read. -/
theorem memory_get_set_self (m : Memory) (a : Nat) (v : Byte) (h : Memory.wf m = true) : (m.set a v).get a = v := by
  rw [memory_get_set m a a v h, if_pos rfl]

/-- A read outside a written string gives what it gave before. -/
theorem memory_get_write_outside (bs : List Byte) (m : Memory) (a c : Nat) (h : Memory.wf m = true)
    (hc : c < a ∨ a + bs.length ≤ c) : (m.write a bs).get c = m.get c := by
  induction bs generalizing m a with
  | nil => rfl
  | cons b rest ih =>
    have hl : (b :: rest).length = rest.length + 1 := rfl
    simp only [Memory.write]
    rw [ih _ _ (memory_set_wf m a b h) (by omega), memory_get_set m a c b h, if_neg (by omega)]

/-- A read inside a written string gives the byte written there. -/
theorem memory_get_write_inside (bs : List Byte) (m : Memory) (a i : Nat) (h : Memory.wf m = true) (hi : i < bs.length) :
    (m.write a bs).get (a + i) = bs[i] := by
  induction bs generalizing m a i with
  | nil => simp at hi
  | cons b rest ih =>
    simp only [Memory.write]
    cases i with
    | zero =>
      have := memory_get_write_outside rest (m.set a b) (a + 1) a (memory_set_wf m a b h) (by omega)
      exact this.trans (memory_get_set_self m a b h)
    | succ j =>
      have := ih (m.set a b) (a + 1) j (memory_set_wf m a b h) (by simpa using hi)
      rw [show a + (j + 1) = a + 1 + j by omega, this]
      rfl

/-- The empty memory is canonical. -/
@[simp] theorem memory_nil_wf : Memory.wf [] = true := rfl

end Sys2Proof.Machine
end

