-- ==== Sys2Proof/Laws/Keeps.lean ====
section
/-!
SUPPORT. A state that holds a given list of waiting commands and canonical memories, and the updates that keep it so.
-/

-- The declarations of this file are elaborated in turn, so that checking the package as one text needs few threads.
set_option Elab.async false

namespace Sys2Proof.Machine

/-- The waiting commands are `p` and every memory is canonical. -/
def Keeps (p : List Instr) (s : State) : Prop := s.pending = p ∧ MemOk s

/-- A state that agrees on the commands and on every memory. -/
theorem keeps_of {p : List Instr} {s t : State} (h : Keeps p s) (h1 : t.pending = s.pending) (h2 : t.gddr = s.gddr)
    (h3 : t.tier = s.tier) (h4 : t.locals = s.locals) (h5 : t.sec.flash = s.sec.flash)
    (h6 : t.sec.staging = s.sec.staging) : Keeps p t := by
  obtain ⟨hp, hg, ht, hl, hf, hs⟩ := h
  refine ⟨h1.trans hp, h2 ▸ hg, h3 ▸ ht, fun c => ?_, h5 ▸ hf, h6 ▸ hs⟩
  have := hl c
  simp only [State.loc, h4] at *
  exact this

/-- A state written out that takes the commands and every memory from another. -/
theorem keeps_mk {p : List Instr} {s : State}
    {xPending : List Instr} {xTick : Nat} {xTs : W64} {xRegs : Table W64} {xCores : Vector Core 48} {xUnits :
    Vector Units 48} {xLocals : Vector Local 48} {xQueues : Vector Queue 256} {xDus : Vector Dispatch 2} {xGddr :
    Memory} {xGddrerr : Table Bool} {xCtrls : Vector Ctrl 24} {xMem :
    MemState} {xTier : Memory} {xCxl : Vector Cxl 4} {xCxlcfg :
    Table (BitVec 32)} {xLinks : Vector Link 24} {xNet : Net} {xHost : HostPorts} {xJobs : Jobs} {xRcl : Rcl}
    {xTel : Telemetry} {xPower : Power} {xSec : Security} {xPins : Pins} {xTap : Tap}
    (h : Keeps p s) (h1 : xPending = s.pending := by rfl) (h2 : xGddr = s.gddr := by rfl)
    (h3 : xTier = s.tier := by rfl) (h4 : xLocals = s.locals := by rfl) (h5 : xSec.flash = s.sec.flash := by rfl)
    (h6 : xSec.staging = s.sec.staging := by rfl) :
    Keeps p (State.mk xPending xTick xTs xRegs xCores xUnits xLocals xQueues xDus xGddr xGddrerr xCtrls xMem xTier xCxl xCxlcfg xLinks xNet xHost xJobs xRcl xTel xPower xSec xPins xTap) :=
  keeps_of h h1 h2 h3 h4 h5 h6

/-- A state that takes the commands, the tier and the flash from another, whose module memory is canonical, and whose
scratchpads and staging area are canonical too. -/
theorem keeps_fresh {p : List Instr} {s t : State} (h : Keeps p s) (h1 : t.pending = s.pending)
    (h2 : Memory.wf t.gddr = true) (h3 : t.tier = s.tier) (h4 : ∀ c : CoreId, Memory.wf (t.loc c).sp = true)
    (h5 : t.sec.flash = s.sec.flash) (h6 : Memory.wf t.sec.staging = true) : Keeps p t :=
  ⟨h1.trans h.1, h2, h3 ▸ h.2.2.1, h4, h5 ▸ h.2.2.2.2.1, h6⟩

/-- A new module memory. -/
theorem keeps_gddr {p : List Instr} {s : State} {m : Memory} (h : Keeps p s) (hm : Memory.wf m = true) :
    Keeps p { s with gddr := m } := ⟨h.1, hm, h.2.2⟩

/-- A new tier memory. -/
theorem keeps_tier {p : List Instr} {s : State} {m : Memory} (h : Keeps p s) (hm : Memory.wf m = true) :
    Keeps p { s with tier := m } := ⟨h.1, h.2.1, hm, h.2.2.2⟩

/-- A new flash and staging area. -/
theorem keeps_sec {p : List Instr} {s : State} {k : Security} (h : Keeps p s) (hf : Memory.wf k.flash = true)
    (hs : Memory.wf k.staging = true) : Keeps p { s with sec := k } :=
  ⟨h.1, h.2.1, h.2.2.1, h.2.2.2.1, hf, hs⟩

/-- A new scratchpad of one core. -/
theorem keeps_loc {p : List Instr} {s : State} {c : CoreId} {k : Local} (h : Keeps p s)
    (hk : Memory.wf k.sp = true) : Keeps p (s.setLoc c k) := by
  refine ⟨h.1, h.2.1, h.2.2.1, fun d => ?_, h.2.2.2.2⟩
  by_cases e : c = d
  · subst e; simpa using hk
  · have := h.2.2.2.1 d
    have hl : (s.setLoc c k).loc d = s.loc d := State.setLoc_locals_other s c d k (Ne.symm e)
    rw [hl]; exact this

/-- The scratchpad of a core is canonical. -/
theorem keeps_sp {p : List Instr} {s : State} (h : Keeps p s) (c : CoreId) : Memory.wf (s.loc c).sp = true := h.2.2.2.1 c

/-- A core's part replaced by one with the same scratchpad. -/
theorem keeps_loc_same {p : List Instr} {s : State} {c : CoreId} {k : Local} (h : Keeps p s)
    (hk : k.sp = (s.loc c).sp) : Keeps p (s.setLoc c k) := keeps_loc h (hk ▸ keeps_sp h c)

/-- Two canonical memories, one wholly below the other, joined. -/
theorem memory_append_wf (m k : Memory) (n : Nat) (hm : Memory.wf m = true) (hk : Memory.wf k = true)
    (h1 : ∀ e ∈ m, e.1 < n) (h2 : ∀ e ∈ k, n ≤ e.1) : Memory.wf (m ++ k) = true := by
  rw [memory_wf_iff] at hm hk ⊢
  refine ⟨List.pairwise_append.mpr ⟨hm.1, hk.1, fun a ha b hb => Nat.lt_of_lt_of_le (h1 a ha) (h2 b hb)⟩, ?_⟩
  intro e he
  rcases List.mem_append.mp he with he | he
  · exact hm.2 e he
  · exact hk.2 e he

/-- A fold of steps that keep it keeps it. -/
theorem keeps_foldl {α : Type} {p : List Instr} {f : State → α → State} {l : List α} {s : State} (h : Keeps p s)
    (hf : ∀ (s : State) (a : α), Keeps p s → Keeps p (f s a)) : Keeps p (l.foldl f s) := by
  induction l generalizing s with
  | nil => exact h
  | cons a l ih => exact ih (hf s a h)

/-- A fold that carries a state beside another value. -/
theorem keeps_foldl_pair {α β : Type} {p : List Instr} {f : State × β → α → State × β} {l : List α} {x : State × β}
    (h : Keeps p x.1) (hf : ∀ (x : State × β) (a : α), Keeps p x.1 → Keeps p (f x a).1) : Keeps p (l.foldl f x).1 := by
  induction l generalizing x with
  | nil => exact h
  | cons a l ih => exact ih (hf x a h)

/-- Writing bytes one by one keeps the canonical form. -/
theorem memory_foldl_set_wf {α : Type} (l : List α) (m : Memory) (f : α → Nat) (g : α → Byte)
    (h : Memory.wf m = true) : Memory.wf (l.foldl (fun m i => Memory.set m (f i) (g i)) m) = true := by
  induction l generalizing m with
  | nil => exact h
  | cons a l ih => exact ih _ (memory_set_wf m _ _ h)

/-- A fold of steps that keep the canonical form keeps it. -/
theorem memory_foldl_wf {α : Type} (l : List α) (m : Memory) (f : Memory → α → Memory) (h : Memory.wf m = true)
    (hf : ∀ m a, Memory.wf m = true → Memory.wf (f m a) = true) : Memory.wf (l.foldl f m) = true := by
  induction l generalizing m with
  | nil => exact h
  | cons a l ih => exact ih _ (hf m a h)

/-- The scratchpads of the reset state list nothing. -/
theorem reset_sp (c : CoreId) : Memory.wf (State.reset.loc c).sp = true := by
  unfold State.reset State.loc
  simp only [Fin.getElem_fin, Vector.getElem_replicate]
  rfl

/-- A choice between two states that keep it. -/
theorem keeps_ite {p : List Instr} {c : Prop} [Decidable c] {s t : State} (hs : Keeps p s) (ht : Keeps p t) :
    Keeps p (if c then s else t) := by
  split
  · exact hs
  · exact ht

/-- The state of a known pair. -/
theorem keeps_fst {α : Type} {p : List Instr} {x : State × α} {s : State} {a : α} (h : Keeps p x.1) (e : x = (s, a)) :
    Keeps p s := by subst e; exact h

/-- The state of a known pair. -/
theorem keeps_snd {α : Type} {p : List Instr} {x : α × State} {s : State} {a : α} (h : Keeps p x.2) (e : x = (a, s)) :
    Keeps p s := by subst e; exact h

end Sys2Proof.Machine
end

