-- ==== Sys2Proof/Laws/KeepsOps.lean ====
section
/-!
SUPPORT. The operations of Ops keep the waiting commands and the canonical memories.
-/

-- The declarations of this file are elaborated in turn, so that checking the package as one text needs few threads.
set_option Elab.async false

namespace Sys2Proof.Machine

theorem State.setCore_keeps {pq : List Instr} {s : State} {c : CoreId} {k : Core} (hq : Keeps pq s) :
    Keeps pq (State.setCore s c k) := by
  unfold State.setCore
  try dsimp only
  with_reducible repeat' (
    first
    | assumption | refine keeps_fst ?_ (by assumption) | split | intro _ | refine keeps_mk ?_)

theorem State.setUnit_keeps {pq : List Instr} {s : State} {c : CoreId} {k : Units} (hq : Keeps pq s) :
    Keeps pq (State.setUnit s c k) := by
  unfold State.setUnit
  try dsimp only
  with_reducible repeat' (
    first
    | assumption | refine keeps_fst ?_ (by assumption) | split | intro _ | refine keeps_mk ?_)

theorem State.wr_keeps {pq : List Instr} {s : State} {a : Nat} {v : W64} (hq : Keeps pq s) :
    Keeps pq (State.wr s a v) := by
  unfold State.wr
  try dsimp only
  with_reducible repeat' (
    first
    | assumption | refine keeps_fst ?_ (by assumption) | split | intro _ | refine keeps_mk ?_)

theorem State.count_keeps {pq : List Instr} {s : State} {a width k : Nat} (hq : Keeps pq s) :
    Keeps pq (State.count s a width k) := by
  unfold State.count
  try dsimp only
  with_reducible repeat' (
    first
    | assumption | refine keeps_fst ?_ (by assumption) | refine State.wr_keeps ?_ | split | intro _
    | refine keeps_mk ?_)

theorem State.orReg_keeps {pq : List Instr} {s : State} {a : Nat} {v : W64} (hq : Keeps pq s) :
    Keeps pq (State.orReg s a v) := by
  unfold State.orReg
  try dsimp only
  with_reducible repeat' (
    first
    | assumption | refine keeps_fst ?_ (by assumption) | refine State.wr_keeps ?_ | split | intro _
    | refine keeps_mk ?_)

theorem State.fresh_keeps {pq : List Instr} {s : State} (hq : Keeps pq s) :
    Keeps pq (State.fresh s).2 := by
  unfold State.fresh
  try dsimp only
  with_reducible repeat' (
    first
    | assumption | refine keeps_fst ?_ (by assumption) | split | intro _ | refine keeps_mk ?_)

theorem State.now_keeps {pq : List Instr} {s : State} (hq : Keeps pq s) :
    Keeps pq (State.now s).2 := by
  unfold State.now
  try dsimp only
  with_reducible repeat' (
    first
    | assumption | refine keeps_fst ?_ (by assumption) | refine keeps_snd ?_ (by assumption)
    | refine State.fresh_keeps ?_ | split | intro _ | refine keeps_mk ?_)

theorem State.setQueue_keeps {pq : List Instr} {s : State} {q : QId} {k : Queue} (hq : Keeps pq s) :
    Keeps pq (State.setQueue s q k) := by
  unfold State.setQueue
  try dsimp only
  with_reducible repeat' (
    first
    | assumption | refine keeps_fst ?_ (by assumption) | split | intro _ | refine keeps_mk ?_)

theorem State.setDu_keeps {pq : List Instr} {s : State} {u : DuId} {k : Dispatch} (hq : Keeps pq s) :
    Keeps pq (State.setDu s u k) := by
  unfold State.setDu
  try dsimp only
  with_reducible repeat' (
    first
    | assumption | refine keeps_fst ?_ (by assumption) | split | intro _ | refine keeps_mk ?_)

theorem State.setLink_keeps {pq : List Instr} {s : State} {l : LinkId} {k : Link} (hq : Keeps pq s) :
    Keeps pq (State.setLink s l k) := by
  unfold State.setLink
  try dsimp only
  with_reducible repeat' (
    first
    | assumption | refine keeps_fst ?_ (by assumption) | split | intro _ | refine keeps_mk ?_)

theorem State.setCtrl_keeps {pq : List Instr} {s : State} {g : CtrlId} {k : Ctrl} (hq : Keeps pq s) :
    Keeps pq (State.setCtrl s g k) := by
  unfold State.setCtrl
  try dsimp only
  with_reducible repeat' (
    first
    | assumption | refine keeps_fst ?_ (by assumption) | split | intro _ | refine keeps_mk ?_)

theorem State.setCxl_keeps {pq : List Instr} {s : State} {p : PortId} {k : Cxl} (hq : Keeps pq s) :
    Keeps pq (State.setCxl s p k) := by
  unfold State.setCxl
  try dsimp only
  with_reducible repeat' (
    first
    | assumption | refine keeps_fst ?_ (by assumption) | split | intro _ | refine keeps_mk ?_)

theorem State.setRing_keeps {pq : List Instr} {s : State} {r : RingId} {k : Ring} (hq : Keeps pq s) :
    Keeps pq (State.setRing s r k) := by
  unfold State.setRing
  try dsimp only
  with_reducible repeat' (
    first
    | assumption | refine keeps_fst ?_ (by assumption) | split | intro _ | refine keeps_mk ?_)

theorem State.setRclJob_keeps {pq : List Instr} {s : State} {j : JobId} {k : RclJob} (hq : Keeps pq s) :
    Keeps pq (State.setRclJob s j k) := by
  unfold State.setRclJob
  try dsimp only
  with_reducible repeat' (
    first
    | assumption | refine keeps_fst ?_ (by assumption) | split | intro _ | refine keeps_mk ?_)

theorem State.setBkt_keeps {pq : List Instr} {s : State} {e : QId} {k : Bucket} (hq : Keeps pq s) :
    Keeps pq (State.setBkt s e k) := by
  unfold State.setBkt
  try dsimp only
  with_reducible repeat' (
    first
    | assumption | refine keeps_fst ?_ (by assumption) | split | intro _ | refine keeps_mk ?_)

theorem State.ifOn_keeps {pq : List Instr} {s : State} {d : Nat} {t : State} (hq : Keeps pq s) (ht : Keeps pq t) :
    Keeps pq (State.ifOn s d t) := by
  unfold State.ifOn
  try dsimp only
  with_reducible repeat' (
    first
    | assumption | refine keeps_fst ?_ (by assumption) | split | intro _ | refine keeps_mk ?_)

theorem State.live_keeps {pq : List Instr} {s t : State} (hq : Keeps pq s) (ht : Keeps pq t) :
    Keeps pq (State.live s t) := by
  unfold State.live
  try dsimp only
  with_reducible repeat' (
    first
    | assumption | refine keeps_fst ?_ (by assumption) | split | intro _ | refine keeps_mk ?_)

theorem State.message_keeps {pq : List Instr} {s : State} {fn vec : Nat} (hq : Keeps pq s) :
    Keeps pq (State.message s fn vec) := by
  unfold State.message
  try dsimp only
  with_reducible repeat' (
    first
    | assumption | refine keeps_fst ?_ (by assumption) | split | intro _ | refine keeps_mk ?_)

theorem State.vector_keeps {pq : List Instr} {s : State} {fn vec : Nat} (hq : Keeps pq s) :
    Keeps pq (State.vector s fn vec) := by
  unfold State.vector
  try dsimp only
  with_reducible repeat' (
    first
    | assumption | refine keeps_fst ?_ (by assumption) | refine State.message_keeps ?_ | split | intro _
    | refine keeps_mk ?_)

theorem State.due_keeps {pq : List Instr} {s : State} {r : RingId} (hq : Keeps pq s) :
    Keeps pq (State.due s r) := by
  unfold State.due
  try dsimp only
  with_reducible repeat' (
    first
    | assumption | refine keeps_fst ?_ (by assumption) | refine State.setRing_keeps ?_
    | refine State.vector_keeps ?_ | split | intro _ | refine keeps_mk ?_)

theorem State.putRecord_keeps {pq : List Instr} {s : State} {r : RingId} {bytes : List Byte} {phaseAt : Nat} {irq : Bool} (hq : Keeps pq s) :
    Keeps pq (State.putRecord s r bytes phaseAt irq) := by
  unfold State.putRecord
  try dsimp only
  with_reducible repeat' (
    first
    | assumption | refine keeps_fst ?_ (by assumption) | refine State.due_keeps ?_ | split | intro _
    | refine keeps_mk ?_)

theorem State.evtLost_keeps {pq : List Instr} {s : State} (hq : Keeps pq s) :
    Keeps pq (State.evtLost s) := by
  unfold State.evtLost
  try dsimp only
  with_reducible repeat' (
    first
    | assumption | refine keeps_fst ?_ (by assumption) | refine keeps_snd ?_ (by assumption)
    | refine State.now_keeps ?_ | refine State.orReg_keeps ?_ | refine State.putRecord_keeps ?_ | split
    | intro _ | refine keeps_mk ?_)

theorem State.evtRecord_keeps {pq : List Instr} {s : State} {bytes : List Byte} (hq : Keeps pq s) :
    Keeps pq (State.evtRecord s bytes) := by
  unfold State.evtRecord
  try dsimp only
  with_reducible repeat' (
    first
    | assumption | refine keeps_fst ?_ (by assumption) | refine State.count_keeps ?_
    | refine State.evtLost_keeps ?_ | refine State.putRecord_keeps ?_ | split | intro _ | refine keeps_mk ?_)

theorem State.record_keeps {pq : List Instr} {s : State} {code inst sub : Nat} {job dev : Option Nat} {a0 a1 : Nat} (hq : Keeps pq s) :
    Keeps pq (State.record s code inst sub job dev a0 a1) := by
  unfold State.record
  try dsimp only
  with_reducible repeat' (
    first
    | assumption | refine keeps_fst ?_ (by assumption) | refine keeps_snd ?_ (by assumption)
    | refine State.evtRecord_keeps ?_ | refine State.now_keeps ?_ | refine State.orReg_keeps ?_ | split
    | intro _ | refine keeps_mk ?_)

theorem dirtyGddr_keeps {pq : List Instr} {s : State} {a len : Nat} (hq : Keeps pq s) :
    Keeps pq (dirtyGddr s a len) := by
  unfold dirtyGddr
  try dsimp only
  with_reducible repeat' (
    first
    | assumption | refine keeps_fst ?_ (by assumption) | refine keeps_foldl ?_ ?_
    | refine keeps_foldl_pair ?_ ?_ | refine State.wr_keeps ?_ | split | intro _ | refine keeps_mk ?_)

theorem dirtySp_keeps {pq : List Instr} {s : State} {c off len : Nat} (hq : Keeps pq s) :
    Keeps pq (dirtySp s c off len) := by
  unfold dirtySp
  try dsimp only
  with_reducible repeat' (
    first
    | assumption | refine keeps_fst ?_ (by assumption) | refine keeps_foldl ?_ ?_
    | refine keeps_foldl_pair ?_ ?_ | refine State.wr_keeps ?_ | split | intro _ | refine keeps_mk ?_)

end Sys2Proof.Machine
end

