-- ==== Sys2Proof/Laws/KeepsPackets.lean ====
section
/-!
SUPPORT. The operations of Packets keep the waiting commands and the canonical memories.
-/

-- The declarations of this file are elaborated in turn, so that checking the package as one text needs few threads.
set_option Elab.async false

namespace Sys2Proof.Machine

theorem sendPkt_keeps {pq : List Instr} {s : State} {die vc job dst : Nat} {p : Pkt} {q : Option QId} (hq : Keeps pq s) :
    Keeps pq (sendPkt s die vc job dst p q).1 := by
  unfold sendPkt
  try dsimp only
  with_reducible repeat' (
    first
    | assumption | refine keeps_fst ?_ (by assumption) | refine State.setLink_keeps ?_ | split | intro _
    | refine keeps_mk ?_)

theorem unreachable_keeps {pq : List Instr} {s : State} {job : Option Nat} {dst : Nat} {p : Pkt} (hq : Keeps pq s) :
    Keeps pq (unreachable s job dst p) := by
  unfold unreachable
  try dsimp only
  with_reducible repeat' (
    first
    | assumption | refine keeps_fst ?_ (by assumption) | refine State.record_keeps ?_ | split | intro _
    | refine keeps_mk ?_)

theorem sendSync_keeps {pq : List Instr} {s : State} {job dst rsp : Nat} {tf : List Byte} {excl : List Nat} (hq : Keeps pq s) :
    Keeps pq (sendSync s job dst rsp tf excl).1 := by
  unfold sendSync
  try dsimp only
  with_reducible repeat' (
    first
    | assumption | refine keeps_fst ?_ (by assumption) | refine sendPkt_keeps ?_
    | refine unreachable_keeps ?_ | split | intro _ | refine keeps_mk ?_)

end Sys2Proof.Machine
end

