-- ==== Sys2Proof/Laws/KeepsEvents.lean ====
section
/-!
SUPPORT. The operations of Events keep the waiting commands and the canonical memories.
-/

-- The declarations of this file are elaborated in turn, so that checking the package as one text needs few threads.
set_option Elab.async false

namespace Sys2Proof.Machine

theorem sendFail_keeps {pq : List Instr} {s : State} {j : JobId} (hq : Keeps pq s) :
    Keeps pq (sendFail s j) := by
  unfold sendFail
  try dsimp only
  with_reducible repeat' (
    first
    | assumption | refine keeps_fst ?_ (by assumption) | refine sendSync_keeps ?_ | split | intro _
    | refine keeps_mk ?_)

theorem State.failStep_keeps {pq : List Instr} {s : State} {job : Option Nat} (hq : Keeps pq s) :
    Keeps pq (State.failStep s job) := by
  unfold State.failStep
  try dsimp only
  with_reducible repeat' (
    first
    | assumption | refine keeps_fst ?_ (by assumption) | refine State.setRclJob_keeps ?_
    | refine sendFail_keeps ?_ | split | intro _ | refine keeps_mk ?_)

theorem State.raiseDev_keeps {pq : List Instr} {s : State} {fails : Bool} {code inst sub : Nat} {job dev : Option Nat} {a0 a1 : Nat} (hq : Keeps pq s) :
    Keeps pq (State.raiseDev s fails code inst sub job dev a0 a1) := by
  unfold State.raiseDev
  try dsimp only
  with_reducible repeat' (
    first
    | assumption | refine keeps_fst ?_ (by assumption) | refine State.failStep_keeps ?_
    | refine State.record_keeps ?_ | split | intro _ | refine keeps_mk ?_)

theorem State.raiseIf_keeps {pq : List Instr} {s : State} {fails : Bool} {code inst sub : Nat} {job : Option Nat} {a0 a1 : Nat} (hq : Keeps pq s) :
    Keeps pq (State.raiseIf s fails code inst sub job a0 a1) := by
  unfold State.raiseIf
  try dsimp only
  with_reducible repeat' (
    first
    | assumption | refine keeps_fst ?_ (by assumption) | refine State.raiseDev_keeps ?_ | split | intro _
    | refine keeps_mk ?_)

theorem State.raise_keeps {pq : List Instr} {s : State} {code inst sub : Nat} {job : Option Nat} {a0 a1 : Nat} (hq : Keeps pq s) :
    Keeps pq (State.raise s code inst sub job a0 a1) := by
  unfold State.raise
  try dsimp only
  with_reducible repeat' (
    first
    | assumption | refine keeps_fst ?_ (by assumption) | refine State.raiseIf_keeps ?_ | split | intro _
    | refine keeps_mk ?_)

theorem State.coreEv_keeps {pq : List Instr} {s : State} {c : CoreId} {code a0 a1 : Nat} (hq : Keeps pq s) :
    Keeps pq (State.coreEv s c code a0 a1) := by
  unfold State.coreEv
  try dsimp only
  with_reducible repeat' (
    first
    | assumption | refine keeps_fst ?_ (by assumption) | refine State.raise_keeps ?_ | split | intro _
    | refine keeps_mk ?_)

theorem noteBeat_keeps {pq : List Instr} {s : State} {c : CoreId} {d : W64} (hq : Keeps pq s) :
    Keeps pq (noteBeat s c d) := by
  unfold noteBeat
  try dsimp only
  with_reducible repeat' (
    first
    | assumption | refine keeps_fst ?_ (by assumption) | refine State.count_keeps ?_
    | refine State.orReg_keeps ?_ | refine State.wr_keeps ?_ | split | intro _ | refine keeps_mk ?_)

theorem stopBeat_keeps {pq : List Instr} {s : State} {c : CoreId} (hq : Keeps pq s) :
    Keeps pq (stopBeat s c) := by
  unfold stopBeat
  try dsimp only
  with_reducible repeat' (
    first
    | assumption | refine keeps_fst ?_ (by assumption) | refine keeps_snd ?_ (by assumption)
    | refine State.now_keeps ?_ | refine State.setCore_keeps ?_ | split | intro _ | refine keeps_mk ?_)

theorem endBeat_keeps {pq : List Instr} {s : State} {c : CoreId} (hq : Keeps pq s) :
    Keeps pq (endBeat s c) := by
  unfold endBeat
  try dsimp only
  with_reducible repeat' (
    first
    | assumption | refine keeps_fst ?_ (by assumption) | refine State.setCore_keeps ?_
    | refine noteBeat_keeps ?_ | refine stopBeat_keeps ?_ | split | intro _ | refine keeps_mk ?_)

theorem beginBeat_keeps {pq : List Instr} {s : State} {c : CoreId} (hq : Keeps pq s) :
    Keeps pq (beginBeat s c) := by
  unfold beginBeat
  try dsimp only
  with_reducible repeat' (
    first
    | assumption | refine keeps_fst ?_ (by assumption) | refine keeps_snd ?_ (by assumption)
    | refine State.now_keeps ?_ | refine State.setCore_keeps ?_ | split | intro _ | refine keeps_mk ?_)

end Sys2Proof.Machine
end

