-- ==== Sys2Proof/Laws/KeepsScratch.lean ====
section
/-!
SUPPORT. The operations of Scratch keep the waiting commands and the canonical memories.
-/

-- The declarations of this file are elaborated in turn, so that checking the package as one text needs few threads.
set_option Elab.async false

namespace Sys2Proof.Machine

theorem spSomeOff_keeps {pq : List Instr} {s : State} {c : CoreId} {job : Option Nat} {off len : Nat} (hq : Keeps pq s) :
    Keeps pq (spSomeOff s c job off len) := by
  unfold spSomeOff
  try dsimp only
  with_reducible repeat' (
    first
    | assumption | refine keeps_fst ?_ (by assumption) | refine keeps_foldl ?_ ?_
    | refine keeps_foldl_pair ?_ ?_ | refine State.raise_keeps ?_ | split | intro _ | refine keeps_mk ?_)

theorem spFixed_keeps {pq : List Instr} {s : State} {c : CoreId} {job : Option Nat} {off : Nat} (hq : Keeps pq s) :
    Keeps pq (spFixed s c job off) := by
  unfold spFixed
  try dsimp only
  with_reducible repeat' (
    first
    | assumption | refine keeps_fst ?_ (by assumption) | refine State.count_keeps ?_
    | refine State.raise_keeps ?_ | refine keeps_loc_same ?_ rfl | refine keeps_loc ?_ (keeps_sp ?_ _)
    | split | intro _ | refine keeps_mk ?_)

theorem spCorrected_keeps {pq : List Instr} {s : State} {c : CoreId} {job : Option Nat} {ms : List (Nat × Bool)} (hq : Keeps pq s) :
    Keeps pq (spCorrected s c job ms) := by
  unfold spCorrected
  try dsimp only
  with_reducible repeat' (
    first
    | assumption | refine keeps_fst ?_ (by assumption) | refine keeps_foldl ?_ ?_
    | refine keeps_foldl_pair ?_ ?_ | refine spFixed_keeps ?_ | split | intro _ | refine keeps_mk ?_)

theorem spUncorr_keeps {pq : List Instr} {s : State} {c : CoreId} {job : Option Nat} {off : Nat} (hq : Keeps pq s) :
    Keeps pq (spUncorr s c job off) := by
  unfold spUncorr
  try dsimp only
  with_reducible repeat' (
    first
    | assumption | refine keeps_fst ?_ (by assumption) | refine State.raise_keeps ?_
    | refine State.wr_keeps ?_ | split | intro _ | refine keeps_mk ?_)

theorem spUncorrs_keeps {pq : List Instr} {s : State} {c : CoreId} {job : Option Nat} {ms : List (Nat × Bool)} (hq : Keeps pq s) :
    Keeps pq (spUncorrs s c job ms) := by
  unfold spUncorrs
  try dsimp only
  with_reducible repeat' (
    first
    | assumption | refine keeps_fst ?_ (by assumption) | refine keeps_foldl ?_ ?_
    | refine keeps_foldl_pair ?_ ?_ | refine spUncorr_keeps ?_ | split | intro _ | refine keeps_mk ?_)

theorem spEcc_keeps {pq : List Instr} {s : State} {c : CoreId} {job : Option Nat} {off len : Nat} (hq : Keeps pq s) :
    Keeps pq (spEcc s c job off len).1 := by
  unfold spEcc
  try dsimp only
  with_reducible repeat' (
    first
    | assumption | refine keeps_fst ?_ (by assumption) | refine spCorrected_keeps ?_
    | refine spUncorrs_keeps ?_ | split | intro _ | refine keeps_mk ?_)

theorem spAllow_keeps {pq : List Instr} {s : State} {c : CoreId} {job : Option Nat} {off len : Nat} (hq : Keeps pq s) :
    Keeps pq (spAllow s c job off len).1 := by
  unfold spAllow
  try dsimp only
  with_reducible repeat' (
    first
    | assumption | refine keeps_fst ?_ (by assumption) | refine State.raise_keeps ?_
    | refine spSomeOff_keeps ?_ | split | intro _ | refine keeps_mk ?_)

theorem spRead_keeps {pq : List Instr} {s : State} {c : CoreId} {job : Option Nat} {off len : Nat} (hq : Keeps pq s) :
    Keeps pq (spRead s c job off len).1 := by
  unfold spRead
  try dsimp only
  with_reducible repeat' (
    first
    | assumption | refine keeps_fst ?_ (by assumption) | refine spAllow_keeps ?_ | refine spEcc_keeps ?_
    | split | intro _ | refine keeps_mk ?_)

theorem spMerge_keeps {pq : List Instr} {s : State} {c : CoreId} {job : Option Nat} {off : Nat} {bs : List Byte}
    (h : Keeps pq s) : Keeps pq (spMerge s c job off bs).1 := by
  unfold spMerge
  dsimp only
  have key (m : List (Nat × Bool)) (k : Local) (hk : Memory.wf k.sp = true) :
      Keeps pq (dirtySp ((spCorrected s c job m).setLoc c k) c off bs.length) :=
    dirtySp_keeps (keeps_loc (spCorrected_keeps h) hk)
  have hm (m : List (Nat × Bool)) : Memory.wf ((spCorrected s c job m).loc c).sp = true :=
    keeps_sp (spCorrected_keeps h) c
  refine spUncorrs_keeps (key _ _ ?_)
  dsimp only
  split
  · exact memory_write_wf _ _ _ (hm _)
  · exact memory_foldl_set_wf _ _ _ _ (hm _)

theorem spWrite_keeps {pq : List Instr} {s : State} {c : CoreId} {job : Option Nat} {off : Nat} {bs : List Byte} (hq : Keeps pq s) :
    Keeps pq (spWrite s c job off bs).1 := by
  unfold spWrite
  try dsimp only
  with_reducible repeat' (
    first
    | assumption | refine keeps_fst ?_ (by assumption) | refine spAllow_keeps ?_ | refine spMerge_keeps ?_
    | split | intro _ | refine keeps_mk ?_)

theorem spWriteAny_keeps {pq : List Instr} {s : State} {c : CoreId} {job : Option Nat} {off : Nat} {bs : List Byte} (hq : Keeps pq s) :
    Keeps pq (spWriteAny s c job off bs) := by
  unfold spWriteAny
  try dsimp only
  with_reducible repeat' (
    first
    | assumption | refine keeps_fst ?_ (by assumption) | refine keeps_foldl ?_ ?_
    | refine keeps_foldl_pair ?_ ?_ | refine spMerge_keeps ?_ | refine spSomeOff_keeps ?_ | split | intro _
    | refine keeps_mk ?_)

theorem spReadAny_keeps {pq : List Instr} {s : State} {c : CoreId} {job : Option Nat} {off len : Nat} (hq : Keeps pq s) :
    Keeps pq (spReadAny s c job off len).1 := by
  unfold spReadAny
  try dsimp only
  with_reducible repeat' (
    first
    | assumption | refine keeps_fst ?_ (by assumption) | refine keeps_foldl ?_ ?_
    | refine keeps_foldl_pair ?_ ?_ | refine spEcc_keeps ?_ | refine spSomeOff_keeps ?_ | split | intro _
    | refine keeps_mk ?_)

theorem setGuard_keeps {pq : List Instr} {s : State} {c : CoreId} {g : Nat} {filled : Bool} (hq : Keeps pq s) :
    Keeps pq (setGuard s c g filled) := by
  unfold setGuard
  try dsimp only
  with_reducible repeat' (
    first
    | assumption | refine keeps_fst ?_ (by assumption) | refine State.coreEv_keeps ?_
    | refine keeps_loc_same ?_ rfl | refine keeps_loc ?_ (keeps_sp ?_ _) | split | intro _
    | refine keeps_mk ?_)

end Sys2Proof.Machine
end

