-- ==== Sys2Proof/Laws/KeepsGddr.lean ====
section
/-!
SUPPORT. The operations of Gddr keep the waiting commands and the canonical memories.
-/

-- The declarations of this file are elaborated in turn, so that checking the package as one text needs few threads.
set_option Elab.async false

namespace Sys2Proof.Machine

theorem gddrCount_keeps {pq : List Instr} {s : State} {a len reg : Nat} (hq : Keeps pq s) :
    Keeps pq (gddrCount s a len reg) := by
  unfold gddrCount
  try dsimp only
  with_reducible repeat' (
    first
    | assumption | refine keeps_fst ?_ (by assumption) | refine keeps_foldl ?_ ?_
    | refine keeps_foldl_pair ?_ ?_ | refine State.count_keeps ?_ | split | intro _ | refine keeps_mk ?_)

theorem checksSettle_keeps {pq : List Instr} {s : State} {a len : Nat} (hq : Keeps pq s) :
    Keeps pq (checksSettle s a len) := by
  unfold checksSettle
  split
  · exact hq
  · dsimp only
    refine keeps_fresh hq rfl (memory_foldl_wf _ _ _ hq.2.1 (fun m l h => memory_write_wf _ _ _ h)) rfl
      (by exact hq.2.2.2.1) rfl hq.2.2.2.2.2

theorem lineCorrected_keeps {pq : List Instr} {s : State} {l : Nat} (hq : Keeps pq s) :
    Keeps pq (lineCorrected s l) := by
  unfold lineCorrected
  try dsimp only
  with_reducible repeat' (
    first
    | assumption | refine keeps_fst ?_ (by assumption) | refine State.count_keeps ?_
    | refine State.raise_keeps ?_ | split | intro _ | refine keeps_mk ?_)

theorem lineFailed_keeps {pq : List Instr} {s : State} {code l : Nat} {job : Option Nat} (hq : Keeps pq s) :
    Keeps pq (lineFailed s code l job) := by
  unfold lineFailed
  try dsimp only
  with_reducible repeat' (
    first
    | assumption | refine keeps_fst ?_ (by assumption) | refine State.raiseIf_keeps ?_
    | refine State.wr_keeps ?_ | split | intro _ | refine keeps_mk ?_)

theorem lineUncorr_keeps {pq : List Instr} {s : State} {l : Nat} {job : Option Nat} (hq : Keeps pq s) :
    Keeps pq (lineUncorr s l job) := by
  unfold lineUncorr
  try dsimp only
  with_reducible repeat' (
    first
    | assumption | refine keeps_fst ?_ (by assumption) | refine lineFailed_keeps ?_ | split | intro _
    | refine keeps_mk ?_)

theorem crcRetries_keeps {pq : List Instr} {g : CtrlId} {x0 : Nat} {x1 : State} (hq : Keeps pq x1) :
    Keeps pq (crcRetries g x0 x1) := by
  induction x0 generalizing x1 with
  | zero => simp only [crcRetries]; exact hq
  | succ n ih =>
    unfold crcRetries
    try dsimp only
    with_reducible repeat' (
      first
      | assumption | refine keeps_fst ?_ (by assumption) | refine ih ?_ | refine State.count_keeps ?_
      | refine State.raise_keeps ?_ | split | intro _ | refine keeps_mk ?_)

theorem gddrCrc_keeps {pq : List Instr} {s : State} {job : Option Nat} {a len : Nat} (hq : Keeps pq s) :
    Keeps pq (gddrCrc s job a len).1 := by
  unfold gddrCrc
  try dsimp only
  with_reducible repeat' (
    first
    | assumption | refine keeps_fst ?_ (by assumption) | refine keeps_foldl ?_ ?_
    | refine keeps_foldl_pair ?_ ?_ | refine crcRetries_keeps ?_ | refine lineFailed_keeps ?_ | split
    | intro _ | refine keeps_mk ?_)

theorem marksRead_keeps {pq : List Instr} {s : State} {job : Option Nat} {ms : List (Nat × Bool)} (hq : Keeps pq s) :
    Keeps pq (marksRead s job ms) := by
  unfold marksRead
  try dsimp only
  with_reducible repeat' (
    first
    | assumption | refine keeps_fst ?_ (by assumption) | refine keeps_foldl ?_ ?_
    | refine keeps_foldl_pair ?_ ?_ | refine lineCorrected_keeps ?_ | refine lineUncorr_keeps ?_ | split
    | intro _ | refine keeps_mk ?_)

theorem gddrRead_keeps {pq : List Instr} {s : State} {job : Option Nat} {a len : Nat} (hq : Keeps pq s) :
    Keeps pq (gddrRead s job a len).1 := by
  unfold gddrRead
  try dsimp only
  with_reducible repeat' (
    first
    | assumption | refine keeps_fst ?_ (by assumption) | refine gddrCount_keeps ?_ | refine gddrCrc_keeps ?_
    | refine marksRead_keeps ?_ | split | intro _ | refine keeps_mk ?_)

theorem gddrWrite_keeps {pq : List Instr} {s : State} {job : Option Nat} {a : Nat} {bs : List Byte}
    (h : Keeps pq s) : Keeps pq (gddrWrite s job a bs).1 := by
  unfold gddrWrite
  dsimp only
  generalize hS : gddrCount _ a bs.length 0x60 = S
  have hk : Keeps pq S := by
    subst hS
    exact gddrCount_keeps (keeps_mk (marksRead_keeps (gddrCrc_keeps (checksSettle_keeps h))))
  have ht (l : List Nat) : Keeps pq (if l.isEmpty = true then (0, S) else S.fresh).2 := by
    split
    · exact hk
    · exact State.fresh_keeps hk
  refine dirtyGddr_keeps (keeps_gddr (ht _) (memory_foldl_wf _ _ _ ?_ (fun m l h => memory_write_wf _ _ _ h)))
  split
  · exact memory_write_wf _ _ _ hk.2.1
  · refine memory_foldl_wf _ _ _ hk.2.1 ?_
    intro m i hm
    try dsimp only
    split
    · exact hm
    · exact memory_set_wf _ _ _ hm

end Sys2Proof.Machine
end

