-- ==== Sys2Proof/Laws/KeepsAccess.lean ====
section
/-!
SUPPORT. The operations of Access keep the waiting commands and the canonical memories.
-/

-- The declarations of this file are elaborated in turn, so that checking the package as one text needs few threads.
set_option Elab.async false

namespace Sys2Proof.Machine

theorem winReject_keeps {pq : List Instr} {s : State} {t : CoreId} {src : Source} {job off : Nat} {write : Bool} (hq : Keeps pq s) :
    Keeps pq (winReject s t src job off write) := by
  unfold winReject
  try dsimp only
  with_reducible repeat' (
    first
    | assumption | refine keeps_fst ?_ (by assumption) | refine State.raiseDev_keeps ?_
    | refine State.wr_keeps ?_ | split | intro _ | refine keeps_mk ?_)

theorem mwinReject_keeps {pq : List Instr} {s : State} {src : Source} {job a : Nat} {write : Bool} (hq : Keeps pq s) :
    Keeps pq (mwinReject s src job a write) := by
  unfold mwinReject
  try dsimp only
  with_reducible repeat' (
    first
    | assumption | refine keeps_fst ?_ (by assumption) | refine State.raiseDev_keeps ?_
    | refine State.wr_keeps ?_ | split | intro _ | refine keeps_mk ?_)

theorem spDo_keeps {pq : List Instr} {s : State} {t : CoreId} {job : Option Nat} {off len : Nat} {data : Option (List Byte)} (hq : Keeps pq s) :
    Keeps pq (spDo s t job off len data).1 := by
  unfold spDo
  try dsimp only
  with_reducible repeat' (
    first
    | assumption | refine keeps_fst ?_ (by assumption) | refine spRead_keeps ?_ | refine spWrite_keeps ?_
    | split | intro _ | refine keeps_mk ?_)

theorem spOutside_keeps {pq : List Instr} {s : State} {t : CoreId} {src : Source} {job off len : Nat} {data : Option (List Byte)} (hq : Keeps pq s) :
    Keeps pq (spOutside s t src job off len data).1 := by
  unfold spOutside
  try dsimp only
  with_reducible repeat' (
    first
    | assumption | refine keeps_fst ?_ (by assumption) | refine State.count_keeps ?_
    | refine State.failStep_keeps ?_ | refine spDo_keeps ?_ | refine winReject_keeps ?_ | split | intro _
    | refine keeps_mk ?_)

theorem trainFailed_keeps {pq : List Instr} {s : State} {a : Nat} {job : Option Nat} (hq : Keeps pq s) :
    Keeps pq (trainFailed s a job) := by
  unfold trainFailed
  try dsimp only
  with_reducible repeat' (
    first
    | assumption | refine keeps_fst ?_ (by assumption) | refine State.failStep_keeps ?_
    | refine State.raiseIf_keeps ?_ | split | intro _ | refine keeps_mk ?_)

theorem gddrNow_keeps {pq : List Instr} {s : State} {job : Option Nat} {a len : Nat} {data : Option (List Byte)} (hq : Keeps pq s) :
    Keeps pq (gddrNow s job a len data).1 := by
  unfold gddrNow
  try dsimp only
  with_reducible repeat' (
    first
    | assumption | refine keeps_fst ?_ (by assumption) | refine gddrRead_keeps ?_ | refine gddrWrite_keeps ?_
    | refine trainFailed_keeps ?_ | split | intro _ | refine keeps_mk ?_)

theorem gddrOwn_keeps {pq : List Instr} {s : State} {job : Option Nat} {a len : Nat} {data : Option (List Byte)} (hq : Keeps pq s) :
    Keeps pq (gddrOwn s job a len data).1 := by
  unfold gddrOwn
  try dsimp only
  with_reducible repeat' (
    first
    | assumption | refine keeps_fst ?_ (by assumption) | refine State.failStep_keeps ?_
    | refine gddrNow_keeps ?_ | split | intro _ | refine keeps_mk ?_)

theorem gddrDo_keeps {pq : List Instr} {s : State} {job : Option Nat} {a len : Nat} {data : Option (List Byte)} (hq : Keeps pq s) :
    Keeps pq (gddrDo s job a len data).1 := by
  unfold gddrDo
  try dsimp only
  with_reducible repeat' (
    first
    | assumption | refine keeps_fst ?_ (by assumption) | refine gddrNow_keeps ?_ | split | intro _
    | refine keeps_mk ?_)

theorem memCheck_keeps {pq : List Instr} {s : State} {src : Source} {job a len : Nat} {write : Bool} (hq : Keeps pq s) :
    Keeps pq (memCheck s src job a len write).1 := by
  unfold memCheck
  try dsimp only
  with_reducible repeat' (
    first
    | assumption | refine keeps_fst ?_ (by assumption) | refine State.count_keeps ?_
    | refine mwinReject_keeps ?_ | split | intro _ | refine keeps_mk ?_)

theorem gddrOutside_keeps {pq : List Instr} {s : State} {src : Source} {job a len : Nat} {data : Option (List Byte)} (hq : Keeps pq s) :
    Keeps pq (gddrOutside s src job a len data).1 := by
  unfold gddrOutside
  try dsimp only
  with_reducible repeat' (
    first
    | assumption | refine keeps_fst ?_ (by assumption) | refine gddrDo_keeps ?_ | refine memCheck_keeps ?_
    | split | intro _ | refine keeps_mk ?_)

theorem cxlSend_keeps {pq : List Instr} {s : State} {r : CxlReq} (hq : Keeps pq s) :
    Keeps pq (cxlSend s r).1 := by
  unfold cxlSend
  try dsimp only
  with_reducible repeat' (
    first
    | assumption | refine keeps_fst ?_ (by assumption) | refine State.setCxl_keeps ?_ | split | intro _
    | refine keeps_mk ?_)

theorem hostError_keeps {pq : List Instr} {s : State} {ring win err : Nat} {job : Option Nat} {addr : Nat} (hq : Keeps pq s) :
    Keeps pq (hostError s ring win err job addr) := by
  unfold hostError
  try dsimp only
  with_reducible repeat' (
    first
    | assumption | refine keeps_fst ?_ (by assumption) | refine State.raise_keeps ?_
    | refine State.wr_keeps ?_ | split | intro _ | refine keeps_mk ?_)

theorem askTag_keeps {pq : List Instr} {s : State} {a : TagAsk} (hq : Keeps pq s) :
    Keeps pq (askTag s a).1 := by
  unfold askTag
  try dsimp only
  with_reducible repeat' (
    first
    | assumption | refine keeps_fst ?_ (by assumption) | split | intro _ | refine keeps_mk ?_)

theorem peerSend_keeps {pq : List Instr} {s : State} {die job dev off : Nat} {data : Option (List Byte)} {units : Nat} {owner : ReqOwner} (hq : Keeps pq s) :
    Keeps pq (peerSend s die job dev off data units owner).1 := by
  unfold peerSend
  try dsimp only
  with_reducible repeat' (
    first
    | assumption | refine keeps_fst ?_ (by assumption) | refine askTag_keeps ?_ | refine sendPkt_keeps ?_
    | refine unreachable_keeps ?_ | split | intro _ | refine keeps_mk ?_)

end Sys2Proof.Machine
end

