-- ==== Sys2Proof/Laws/KeepsHalting.lean ====
section
/-!
SUPPORT. The operations of Halting keep the waiting commands and the canonical memories.
-/

-- The declarations of this file are elaborated in turn, so that checking the package as one text needs few threads.
set_option Elab.async false

namespace Sys2Proof.Machine

theorem strikeCrc_keeps {pq : List Instr} {s : State} {l n : Nat} (hq : Keeps pq s) :
    Keeps pq (strikeCrc s l n) := by
  unfold strikeCrc
  try dsimp only
  with_reducible repeat' (
    first
    | assumption | refine keeps_fst ?_ (by assumption) | split | intro _ | refine keeps_mk ?_)

theorem strikeOnDie_keeps {pq : List Instr} {s : State} {g : CtrlId} {n : Nat} (hq : Keeps pq s) :
    Keeps pq (strikeOnDie s g n) := by
  unfold strikeOnDie
  try dsimp only
  with_reducible repeat' (
    first
    | assumption | refine keeps_fst ?_ (by assumption) | refine State.count_keeps ?_ | split | intro _
    | refine keeps_mk ?_)

theorem strikePort_keeps {pq : List Instr} {s : State} {hb : Bool} {errs : BitVec 32} (hq : Keeps pq s) :
    Keeps pq (strikePort s hb errs) := by
  unfold strikePort
  try dsimp only
  with_reducible repeat' (
    first
    | assumption | refine keeps_fst ?_ (by assumption) | split | intro _ | refine keeps_mk ?_)

theorem strikeLine_keeps {pq : List Instr} {s : State} {l : Nat} {f : BitVec 512} (h : Keeps pq s) :
    Keeps pq (strikeLine s l f) := by
  unfold strikeLine
  dsimp only
  have hf := keeps_gddr h (memory_write_wf (leBytes 64 ((BitVec.ofNat 512 (leNat (s.gddr.read
    (64 * (l % 0x60000000)) 64))) ^^^ f).toNat) _ (64 * (l % 0x60000000)) h.2.1)
  split
  · exact h
  · split
    · exact hf
    · split
      · with_reducible exact keeps_mk h
      · with_reducible exact keeps_mk hf

theorem strikeQueue_keeps {pq : List Instr} {s : State} {q : QId} (hq : Keeps pq s) :
    Keeps pq (strikeQueue s q) := by
  unfold strikeQueue
  try dsimp only
  with_reducible repeat' (
    first
    | assumption | refine keeps_fst ?_ (by assumption) | refine State.setQueue_keeps ?_ | split | intro _
    | refine keeps_mk ?_)

theorem sendCells_keeps {pq : List Instr} {s : State} {die job dst q : Nat} {x0 : Nat} {x1 : List Cell} (hq : Keeps pq s) :
    Keeps pq (sendCells s die job dst q x0 x1).1 := by
  induction x0 generalizing s x1 with
  | zero => simp only [sendCells]; exact hq
  | succ n ih =>
    unfold sendCells
    try dsimp only
    with_reducible repeat' (
      first
      | assumption | refine keeps_fst ?_ (by assumption) | refine ih ?_ | refine sendPkt_keeps ?_ | split
      | intro _ | refine keeps_mk ?_)

theorem duFlushOne_keeps {pq : List Instr} {s : State} {u : DuId} {o : DispOut} (hq : Keeps pq s) :
    Keeps pq (duFlushOne s u o).1 := by
  unfold duFlushOne
  try dsimp only
  with_reducible repeat' (
    first
    | assumption | refine keeps_fst ?_ (by assumption) | refine State.failStep_keeps ?_
    | refine sendCells_keeps ?_ | refine unreachable_keeps ?_ | split | intro _ | refine keeps_mk ?_)

theorem duFlush_keeps {pq : List Instr} {s : State} {u : DuId} (hq : Keeps pq s) :
    Keeps pq (duFlush s u) := by
  unfold duFlush
  try dsimp only
  with_reducible repeat' (
    first
    | assumption | refine keeps_fst ?_ (by assumption) | refine keeps_foldl ?_ ?_
    | refine keeps_foldl_pair ?_ ?_ | refine State.setDu_keeps ?_ | refine duFlushOne_keeps ?_ | split
    | intro _ | refine keeps_mk ?_)

theorem duPush_keeps {pq : List Instr} {s : State} {u : DuId} {job : Nat} {d : DispDest} {cells : List Cell} (hq : Keeps pq s) :
    Keeps pq (duPush s u job d cells) := by
  unfold duPush
  try dsimp only
  with_reducible repeat' (
    first
    | assumption | refine keeps_fst ?_ (by assumption) | refine State.setDu_keeps ?_ | split | intro _
    | refine keeps_mk ?_)

theorem sendMarkers_keeps {pq : List Instr} {s : State} {u : DuId} {job : Nat} {mbtag : BitVec 16} {kind : Nat} {dests : List DispDest} (hq : Keeps pq s) :
    Keeps pq (sendMarkers s u job mbtag kind dests) := by
  unfold sendMarkers
  try dsimp only
  with_reducible repeat' (
    first
    | assumption | refine keeps_fst ?_ (by assumption) | refine keeps_foldl ?_ ?_
    | refine keeps_foldl_pair ?_ ?_ | refine duFlush_keeps ?_ | refine duPush_keeps ?_ | split | intro _
    | refine keeps_mk ?_)

theorem forceCancel_keeps {pq : List Instr} {s : State} {u : DuId} {job : Nat} {core : Nat} {which : Tentative → Bool} (hq : Keeps pq s) :
    Keeps pq (forceCancel s u job core which) := by
  unfold forceCancel
  try dsimp only
  with_reducible repeat' (
    first
    | assumption | refine keeps_fst ?_ (by assumption) | refine keeps_foldl ?_ ?_
    | refine keeps_foldl_pair ?_ ?_ | refine State.count_keeps ?_ | refine State.raise_keeps ?_
    | refine State.setDu_keeps ?_ | refine sendMarkers_keeps ?_ | split | intro _ | refine keeps_mk ?_)

theorem cancelRun_keeps {pq : List Instr} {s : State} {u : DuId} {which : DispRun → Bool} (hq : Keeps pq s) :
    Keeps pq (cancelRun s u which) := by
  unfold cancelRun
  try dsimp only
  with_reducible repeat' (
    first
    | assumption | refine keeps_fst ?_ (by assumption) | refine State.setDu_keeps ?_ | split | intro _
    | refine keeps_mk ?_)

theorem preemptCheck_keeps {pq : List Instr} {s : State} {id : Nat} (hq : Keeps pq s) :
    Keeps pq (preemptCheck s id) := by
  unfold preemptCheck
  try dsimp only
  with_reducible repeat' (
    first
    | assumption | refine keeps_fst ?_ (by assumption) | refine State.due_keeps ?_
    | refine State.raise_keeps ?_ | refine State.setRing_keeps ?_ | split | intro _ | refine keeps_mk ?_)

theorem victimHalted_keeps {pq : List Instr} {s : State} {c : CoreId} (hq : Keeps pq s) :
    Keeps pq (victimHalted s c) := by
  unfold victimHalted
  try dsimp only
  with_reducible repeat' (
    first
    | assumption | refine keeps_fst ?_ (by assumption) | refine keeps_foldl ?_ ?_
    | refine keeps_foldl_pair ?_ ?_ | refine State.raise_keeps ?_ | refine preemptCheck_keeps ?_ | split
    | intro _ | refine keeps_mk ?_)

theorem onHalted_keeps {pq : List Instr} {s : State} {c : CoreId} (hq : Keeps pq s) :
    Keeps pq (onHalted s c) := by
  unfold onHalted
  try dsimp only
  with_reducible repeat' (
    first
    | assumption | refine keeps_fst ?_ (by assumption) | refine cancelRun_keeps ?_
    | refine forceCancel_keeps ?_ | refine victimHalted_keeps ?_ | split | intro _ | refine keeps_mk ?_)

end Sys2Proof.Machine
end

