-- ==== Sys2Proof/Laws/KeepsCoreCtl.lean ====
section
/-!
SUPPORT. The operations of CoreCtl keep the waiting commands and the canonical memories.
-/

-- The declarations of this file are elaborated in turn, so that checking the package as one text needs few threads.
set_option Elab.async false

namespace Sys2Proof.Machine

theorem strikeOne_keeps {pq : List Instr} {s : State} {u : Upset} (h : Keeps pq s) : Keeps pq (strikeOne s u) := by
  unfold strikeOne
  dsimp only
  split
  · exact State.setCore_keeps h
  · split
    · exact h
    · split
      · exact keeps_loc_same h rfl
      · exact keeps_loc h (memory_write_wf _ _ _ (keeps_sp h _))
  · exact strikeLine_keeps h
  · exact strikeQueue_keeps h
  · exact strikeCrc_keeps h
  · exact strikeOnDie_keeps h
  · exact strikePort_keeps h

theorem strike_keeps {pq : List Instr} {s : State} {us : List Upset} (hq : Keeps pq s) :
    Keeps pq (strike s us) := by
  unfold strike
  try dsimp only
  with_reducible repeat' (
    first
    | assumption | refine keeps_fst ?_ (by assumption) | refine keeps_foldl ?_ ?_
    | refine keeps_foldl_pair ?_ ?_ | refine strikeOne_keeps ?_ | split | intro _ | refine keeps_mk ?_)

theorem setQ_keeps {pq : List Instr} {s : State} {c : CoreId} {u : UnitSel} {l : List Entry} (hq : Keeps pq s) :
    Keeps pq (setQ s c u l) := by
  unfold setQ
  try dsimp only
  with_reducible repeat' (
    first
    | assumption | refine keeps_fst ?_ (by assumption) | refine State.setUnit_keeps ?_ | split | intro _
    | refine keeps_mk ?_)

theorem popHead_keeps {pq : List Instr} {s : State} {c : CoreId} {u : UnitSel} {rest : List Entry} (hq : Keeps pq s) :
    Keeps pq (popHead s c u rest) := by
  unfold popHead
  try dsimp only
  with_reducible repeat' (
    first
    | assumption | refine keeps_fst ?_ (by assumption) | refine State.setUnit_keeps ?_ | split | intro _
    | refine keeps_mk ?_)

theorem enterHalted_keeps {pq : List Instr} {s : State} {c : CoreId} {status : BitVec 16} (hq : Keeps pq s) :
    Keeps pq (enterHalted s c status) := by
  unfold enterHalted
  try dsimp only
  with_reducible repeat' (
    first
    | assumption | refine keeps_fst ?_ (by assumption) | refine State.raiseIf_keeps ?_
    | refine State.setCore_keeps ?_ | refine State.wr_keeps ?_ | refine endBeat_keeps ?_
    | refine onHalted_keeps ?_ | split | intro _ | refine keeps_mk ?_)

theorem settle_keeps {pq : List Instr} {s : State} {c : CoreId} (hq : Keeps pq s) :
    Keeps pq (settle s c) := by
  unfold settle
  try dsimp only
  with_reducible repeat' (
    first
    | assumption | refine keeps_fst ?_ (by assumption) | refine State.setCore_keeps ?_
    | refine enterHalted_keeps ?_ | split | intro _ | refine keeps_mk ?_)

theorem startDrain_keeps {pq : List Instr} {s : State} {c : CoreId} {d : Drain} (hq : Keeps pq s) :
    Keeps pq (startDrain s c d) := by
  unfold startDrain
  try dsimp only
  with_reducible repeat' (
    first
    | assumption | refine keeps_fst ?_ (by assumption) | refine State.setCore_keeps ?_
    | refine settle_keeps ?_ | split | intro _ | refine keeps_mk ?_)

theorem faultHalt_keeps {pq : List Instr} {s : State} {c : CoreId} {status : BitVec 16} {pc : Nat} (hq : Keeps pq s) :
    Keeps pq (faultHalt s c status pc) := by
  unfold faultHalt
  try dsimp only
  with_reducible repeat' (
    first
    | assumption | refine keeps_fst ?_ (by assumption) | refine State.setCore_keeps ?_
    | refine State.setUnit_keeps ?_ | refine startDrain_keeps ?_ | split | intro _ | refine keeps_mk ?_)

theorem faultHaltEv_keeps {pq : List Instr} {s : State} {c : CoreId} {status : BitVec 16} {pc code a1 : Nat} (hq : Keeps pq s) :
    Keeps pq (faultHaltEv s c status pc code a1) := by
  unfold faultHaltEv
  try dsimp only
  with_reducible repeat' (
    first
    | assumption | refine keeps_fst ?_ (by assumption) | refine State.raiseIf_keeps ?_
    | refine faultHalt_keeps ?_ | split | intro _ | refine keeps_mk ?_)

theorem afterIssue_keeps {pq : List Instr} {s : State} {c : CoreId} (hq : Keeps pq s) :
    Keeps pq (afterIssue s c) := by
  unfold afterIssue
  try dsimp only
  with_reducible repeat' (
    first
    | assumption | refine keeps_fst ?_ (by assumption) | refine startDrain_keeps ?_ | split | intro _
    | refine keeps_mk ?_)

theorem retire_keeps {pq : List Instr} {s : State} {c : CoreId} (hq : Keeps pq s) :
    Keeps pq (retire s c) := by
  unfold retire
  try dsimp only
  with_reducible repeat' (
    first
    | assumption | refine keeps_fst ?_ (by assumption) | refine State.setCore_keeps ?_
    | refine afterIssue_keeps ?_ | split | intro _ | refine keeps_mk ?_)

theorem retireTo_keeps {pq : List Instr} {s : State} {c : CoreId} {target : Nat} (hq : Keeps pq s) :
    Keeps pq (retireTo s c target) := by
  unfold retireTo
  try dsimp only
  with_reducible repeat' (
    first
    | assumption | refine keeps_fst ?_ (by assumption) | refine State.setCore_keeps ?_
    | refine afterIssue_keeps ?_ | split | intro _ | refine keeps_mk ?_)

theorem fetchCorrected_keeps {pq : List Instr} {s : State} {c : CoreId} {corrected : Bool} (hq : Keeps pq s) :
    Keeps pq (fetchCorrected s c corrected) := by
  unfold fetchCorrected
  try dsimp only
  with_reducible repeat' (
    first
    | assumption | refine keeps_fst ?_ (by assumption) | refine State.coreEv_keeps ?_
    | refine State.count_keeps ?_ | split | intro _ | refine keeps_mk ?_)

theorem issue_keeps {pq : List Instr} {s : State} {c : CoreId} {us : List Upset} {o : Op} {act : State → W128 → State} (hq : Keeps pq s) (hf1 : ∀ (a0 : State) (a1 : W128), Keeps pq a0 → Keeps pq (act a0 a1)) :
    Keeps pq (issue s c us o act) := by
  unfold issue
  try dsimp only
  with_reducible repeat' (
    first
    | assumption | refine keeps_fst ?_ (by assumption) | refine State.setCore_keeps ?_
    | refine faultHaltEv_keeps ?_ | refine fetchCorrected_keeps ?_ | refine retire_keeps ?_
    | refine strike_keeps ?_ | refine hf1 _ ?_ | refine hf1 _ _ ?_ | refine hf1 _ _ _ ?_ | split | intro _
    | refine keeps_mk ?_)

theorem enqueue_keeps {pq : List Instr} {s : State} {c : CoreId} {w : W128} {u : UnitSel} {after : Option (Nat × W128 × List W64)} (hq : Keeps pq s) :
    Keeps pq (enqueue s c w u after) := by
  unfold enqueue
  try dsimp only
  with_reducible repeat' (
    first
    | assumption | refine keeps_fst ?_ (by assumption) | refine setQ_keeps ?_ | split | intro _
    | refine keeps_mk ?_)

theorem issueTo_keeps {pq : List Instr} {s : State} {c : CoreId} {us : List Upset} {o : Op} {u : UnitSel} (hq : Keeps pq s) :
    Keeps pq (issueTo s c us o u) := by
  unfold issueTo
  try dsimp only
  with_reducible repeat' (
    first
    | assumption | refine keeps_fst ?_ (by assumption) | refine enqueue_keeps ?_ | refine issue_keeps ?_ ?_ 
    | refine retire_keeps ?_ | split | intro _ | refine keeps_mk ?_)

end Sys2Proof.Machine
end

