-- ==== Sys2Proof/Laws/KeepsVector.lean ====
section
/-!
SUPPORT. The operations of Vector keep the waiting commands and the canonical memories.
-/

-- The declarations of this file are elaborated in turn, so that checking the package as one text needs few threads.
set_option Elab.async false

namespace Sys2Proof.Machine

theorem vset_keeps {pq : List Instr} {s : State} {c : CoreId} {i : Nat} {v : VReg} (hq : Keeps pq s) :
    Keeps pq (vset s c i v) := by
  unfold vset
  try dsimp only
  with_reducible repeat' (
    first
    | assumption | refine keeps_fst ?_ (by assumption) | refine State.setCore_keeps ?_ | split | intro _
    | refine keeps_mk ?_)

theorem veBad_keeps {pq : List Instr} {s : State} {c : CoreId} {e : Entry} {off : Nat} (hq : Keeps pq s) :
    Keeps pq (veBad s c e off).1 := by
  unfold veBad
  try dsimp only
  with_reducible repeat' (
    first
    | assumption | refine keeps_fst ?_ (by assumption) | refine State.raiseIf_keeps ?_ | split | intro _
    | refine keeps_mk ?_)

theorem veRead_keeps {pq : List Instr} {s : State} {c : CoreId} {e : Entry} {off align len : Nat} (hq : Keeps pq s) :
    Keeps pq (veRead s c e off align len).1 := by
  unfold veRead
  try dsimp only
  with_reducible repeat' (
    first
    | assumption | refine keeps_fst ?_ (by assumption) | refine State.raiseIf_keeps ?_
    | refine spRead_keeps ?_ | split | intro _ | refine keeps_mk ?_)

theorem veWrite_keeps {pq : List Instr} {s : State} {c : CoreId} {off : Nat} {bs : List Byte} (hq : Keeps pq s) :
    Keeps pq (veWrite s c off bs).1 := by
  unfold veWrite
  try dsimp only
  with_reducible repeat' (
    first
    | assumption | refine keeps_fst ?_ (by assumption) | refine spWrite_keeps ?_ | split | intro _
    | refine keeps_mk ?_)

theorem numEv_keeps {pq : List Instr} {s : State} {c : CoreId} {code a0 pc : Nat} (hq : Keeps pq s) :
    Keeps pq (numEv s c code a0 pc) := by
  unfold numEv
  try dsimp only
  with_reducible repeat' (
    first
    | assumption | refine keeps_fst ?_ (by assumption) | refine State.raise_keeps ?_ | split | intro _
    | refine keeps_mk ?_)

theorem veSrd_keeps {pq : List Instr} {s : State} {c : CoreId} {e : Entry} (hq : Keeps pq s) :
    Keeps pq (veSrd s c e).1 := by
  unfold veSrd
  try dsimp only
  with_reducible repeat' (
    first
    | assumption | refine keeps_fst ?_ (by assumption) | refine veRead_keeps ?_ | split | intro _
    | refine keeps_mk ?_)

theorem veArith_keeps {pq : List Instr} {s : State} {c : CoreId} {e : Entry} {kind : Nat} (hq : Keeps pq s) :
    Keeps pq (veArith s c e kind).1 := by
  unfold veArith
  try dsimp only
  with_reducible repeat' (
    first
    | assumption | refine keeps_fst ?_ (by assumption) | refine veSrd_keeps ?_ | refine vset_keeps ?_ | split
    | intro _ | refine keeps_mk ?_)

theorem veMax_keeps {pq : List Instr} {s : State} {c : CoreId} {e : Entry} {isMax : Bool} (hq : Keeps pq s) :
    Keeps pq (veMax s c e isMax).1 := by
  unfold veMax
  try dsimp only
  with_reducible repeat' (
    first
    | assumption | refine keeps_fst ?_ (by assumption) | refine vset_keeps ?_ | split | intro _
    | refine keeps_mk ?_)

theorem quantCount_keeps {pq : List Instr} {s : State} {c : CoreId} {pc set sat ufl nonfin : Nat} (hq : Keeps pq s) :
    Keeps pq (quantCount s c pc set sat ufl nonfin) := by
  unfold quantCount
  try dsimp only
  with_reducible repeat' (
    first
    | assumption | refine keeps_fst ?_ (by assumption) | refine State.live_keeps ?_ ?_ 
    | refine State.orReg_keeps ?_ | refine keeps_loc_same ?_ rfl | refine keeps_loc ?_ (keeps_sp ?_ _)
    | refine numEv_keeps ?_ | split | intro _ | refine keeps_mk ?_)

theorem veQuant_keeps {pq : List Instr} {s : State} {c : CoreId} {e : Entry} (hq : Keeps pq s) :
    Keeps pq (veQuant s c e).1 := by
  unfold veQuant
  try dsimp only
  with_reducible repeat' (
    first
    | assumption | refine keeps_fst ?_ (by assumption) | refine keeps_foldl ?_ ?_
    | refine keeps_foldl_pair ?_ ?_ | refine State.orReg_keeps ?_ | refine numEv_keeps ?_
    | refine quantCount_keeps ?_ | refine veRead_keeps ?_ | refine veWrite_keeps ?_ | refine vset_keeps ?_
    | split | intro _ | refine keeps_mk ?_)

theorem veSte_keeps {pq : List Instr} {s : State} {c : CoreId} {e : Entry} (hq : Keeps pq s) :
    Keeps pq (veSte s c e).1 := by
  unfold veSte
  try dsimp only
  with_reducible repeat' (
    first
    | assumption | refine keeps_fst ?_ (by assumption) | refine numEv_keeps ?_ | refine veRead_keeps ?_
    | refine vset_keeps ?_ | split | intro _ | refine keeps_mk ?_)

theorem veCbld_keeps {pq : List Instr} {s : State} {c : CoreId} {e : Entry} (hq : Keeps pq s) :
    Keeps pq (veCbld s c e).1 := by
  unfold veCbld
  try dsimp only
  with_reducible repeat' (
    first
    | assumption | refine keeps_fst ?_ (by assumption) | refine State.setCore_keeps ?_
    | refine numEv_keeps ?_ | refine veRead_keeps ?_ | split | intro _ | refine keeps_mk ?_)

theorem veHist_keeps {pq : List Instr} {s : State} {c : CoreId} {e : Entry} (hq : Keeps pq s) :
    Keeps pq (veHist s c e).1 := by
  unfold veHist
  try dsimp only
  with_reducible repeat' (
    first
    | assumption | refine keeps_fst ?_ (by assumption) | refine veRead_keeps ?_ | refine veWrite_keeps ?_
    | split | intro _ | refine keeps_mk ?_)

theorem veHad_keeps {pq : List Instr} {s : State} {c : CoreId} {e : Entry} (hq : Keeps pq s) :
    Keeps pq (veHad s c e).1 := by
  unfold veHad
  try dsimp only
  with_reducible repeat' (
    first
    | assumption | refine keeps_fst ?_ (by assumption) | refine vset_keeps ?_ | split | intro _
    | refine keeps_mk ?_)

theorem veRed_keeps {pq : List Instr} {s : State} {c : CoreId} {e : Entry} (hq : Keeps pq s) :
    Keeps pq (veRed s c e).1 := by
  unfold veRed
  try dsimp only
  with_reducible repeat' (
    first
    | assumption | refine keeps_fst ?_ (by assumption) | refine vset_keeps ?_ | split | intro _
    | refine keeps_mk ?_)

theorem veMovs_keeps {pq : List Instr} {s : State} {c : CoreId} {e : Entry} (hq : Keeps pq s) :
    Keeps pq (veMovs s c e).1 := by
  unfold veMovs
  try dsimp only
  with_reducible repeat' (
    first
    | assumption | refine keeps_fst ?_ (by assumption) | split | intro _ | refine keeps_mk ?_)

theorem veDeq_keeps {pq : List Instr} {s : State} {c : CoreId} {e : Entry} (hq : Keeps pq s) :
    Keeps pq (veDeq s c e).1 := by
  unfold veDeq
  try dsimp only
  with_reducible repeat' (
    first
    | assumption | refine keeps_fst ?_ (by assumption) | refine numEv_keeps ?_ | refine vset_keeps ?_ | split
    | intro _ | refine keeps_mk ?_)

theorem veDo_keeps {pq : List Instr} {s : State} {c : CoreId} {e : Entry} {o : Op} (hq : Keeps pq s) :
    Keeps pq (veDo s c e o).1 := by
  unfold veDo
  try dsimp only
  with_reducible repeat' (
    first
    | assumption | refine keeps_fst ?_ (by assumption) | refine veArith_keeps ?_ | refine veBad_keeps ?_
    | refine veCbld_keeps ?_ | refine veDeq_keeps ?_ | refine veHad_keeps ?_ | refine veHist_keeps ?_
    | refine veMax_keeps ?_ | refine veMovs_keeps ?_ | refine veQuant_keeps ?_ | refine veRead_keeps ?_
    | refine veRed_keeps ?_ | refine veSte_keeps ?_ | refine veWrite_keeps ?_ | refine vset_keeps ?_ | split
    | intro _ | refine keeps_mk ?_)

theorem veStart_keeps {pq : List Instr} {s : State} {c : CoreId} (hq : Keeps pq s) :
    Keeps pq (veStart s c) := by
  unfold veStart
  try dsimp only
  with_reducible repeat' (
    first
    | assumption | refine keeps_fst ?_ (by assumption) | refine State.setUnit_keeps ?_
    | refine faultHalt_keeps ?_ | refine popHead_keeps ?_ | refine veDo_keeps ?_ | split | intro _
    | refine keeps_mk ?_)

end Sys2Proof.Machine
end

