-- ==== Sys2Proof/Laws/KeepsMatrixUnit.lean ====
section
/-!
SUPPORT. The operations of MatrixUnit keep the waiting commands and the canonical memories.
-/

-- The declarations of this file are elaborated in turn, so that checking the package as one text needs few threads.
set_option Elab.async false

namespace Sys2Proof.Machine

theorem muLog_keeps {pq : List Instr} {s : State} {c : CoreId} {u : MuId} {kind row col pc : Nat} {retried : Bool} (hq : Keeps pq s) :
    Keeps pq (muLog s c u kind row col pc retried) := by
  unfold muLog
  try dsimp only
  with_reducible repeat' (
    first
    | assumption | refine keeps_fst ?_ (by assumption) | refine State.wr_keeps ?_ | split | intro _
    | refine keeps_mk ?_)

theorem muEv_keeps {pq : List Instr} {s : State} {c : CoreId} {u : MuId} {code : Nat} (hq : Keeps pq s) :
    Keeps pq (muEv s c u code) := by
  unfold muEv
  try dsimp only
  with_reducible repeat' (
    first
    | assumption | refine keeps_fst ?_ (by assumption) | refine State.raise_keeps ?_ | split | intro _
    | refine keeps_mk ?_)

theorem passEv_keeps {pq : List Instr} {s : State} {c : CoreId} {u : MuId} {code a0 pc : Nat} (hq : Keeps pq s) :
    Keeps pq (passEv s c u code a0 pc) := by
  unfold passEv
  try dsimp only
  with_reducible repeat' (
    first
    | assumption | refine keeps_fst ?_ (by assumption) | refine State.raise_keeps ?_ | split | intro _
    | refine keeps_mk ?_)

theorem pairUp_keeps {pq : List Instr} {s : State} {c : CoreId} (hq : Keeps pq s) :
    Keeps pq (pairUp s c) := by
  unfold pairUp
  try dsimp only
  with_reducible repeat' (
    first
    | assumption | refine keeps_fst ?_ (by assumption) | refine setQ_keeps ?_ | split | intro _
    | refine keeps_mk ?_)

theorem muPush_keeps {pq : List Instr} {s : State} {c : CoreId} {u : MuId} {r : PassRun} {held : Option HeldOp} (hq : Keeps pq s) :
    Keeps pq (muPush s c u r held) := by
  unfold muPush
  try dsimp only
  with_reducible repeat' (
    first
    | assumption | refine keeps_fst ?_ (by assumption) | refine State.setUnit_keeps ?_ | split | intro _
    | refine keeps_mk ?_)

theorem allowAll_keeps {pq : List Instr} {s : State} {c : CoreId} {l : List (Nat × Nat)} (hq : Keeps pq s) :
    Keeps pq (allowAll s c l).1 := by
  unfold allowAll
  try dsimp only
  with_reducible repeat' (
    first
    | assumption | refine keeps_fst ?_ (by assumption) | refine keeps_foldl ?_ ?_
    | refine keeps_foldl_pair ?_ ?_ | refine spAllow_keeps ?_ | split | intro _ | refine keeps_mk ?_)

theorem eccAll_keeps {pq : List Instr} {s : State} {c : CoreId} {l : List (Nat × Nat)} (hq : Keeps pq s) :
    Keeps pq (eccAll s c l).1 := by
  unfold eccAll
  try dsimp only
  with_reducible repeat' (
    first
    | assumption | refine keeps_fst ?_ (by assumption) | refine spCorrected_keeps ?_
    | refine spUncorrs_keeps ?_ | split | intro _ | refine keeps_mk ?_)

theorem paramFault_keeps {pq : List Instr} {s : State} {c : CoreId} {u : MuId} {pc : Nat} (hq : Keeps pq s) :
    Keeps pq (paramFault s c u pc) := by
  unfold paramFault
  try dsimp only
  with_reducible repeat' (
    first
    | assumption | refine keeps_fst ?_ (by assumption) | refine muEv_keeps ?_ | refine muLog_keeps ?_ | split
    | intro _ | refine keeps_mk ?_)

theorem passTake_keeps {pq : List Instr} {s : State} {c : CoreId} {u : MuId} {r : PassRun} {old : Option HeldOp} {again : Bool} (hq : Keeps pq s) :
    Keeps pq (passTake s c u r old again).1 := by
  unfold passTake
  try dsimp only
  with_reducible repeat' (
    first
    | assumption | refine keeps_fst ?_ (by assumption) | refine allowAll_keeps ?_ | refine eccAll_keeps ?_
    | refine paramFault_keeps ?_ | refine passEv_keeps ?_ | split | intro _ | refine keeps_mk ?_)

theorem passBody_keeps {pq : List Instr} {s : State} {c : CoreId} {u : MuId} {e : Entry} {a : PassAt} {p : List Byte} {pairBad : Bool} (hq : Keeps pq s) :
    Keeps pq (passBody s c u e a p pairBad) := by
  unfold passBody
  try dsimp only
  with_reducible repeat' (
    first
    | assumption | refine keeps_fst ?_ (by assumption) | refine muPush_keeps ?_ | refine paramFault_keeps ?_
    | refine passTake_keeps ?_ | split | intro _ | refine keeps_mk ?_)

theorem passGo_keeps {pq : List Instr} {s : State} {c : CoreId} {u : MuId} {e : Entry} {rest : List Entry} (hq : Keeps pq s) :
    Keeps pq (passGo s c u e rest) := by
  unfold passGo
  try dsimp only
  with_reducible repeat' (
    first
    | assumption | refine keeps_fst ?_ (by assumption) | refine allowAll_keeps ?_ | refine eccAll_keeps ?_
    | refine muPush_keeps ?_ | refine paramFault_keeps ?_ | refine passBody_keeps ?_
    | refine popHead_keeps ?_ | split | intro _ | refine keeps_mk ?_)

theorem passStart_keeps {pq : List Instr} {s : State} {c : CoreId} {u : MuId} (hq : Keeps pq s) :
    Keeps pq (passStart s c u) := by
  unfold passStart
  try dsimp only
  with_reducible repeat' (
    first
    | assumption | refine keeps_fst ?_ (by assumption) | refine keeps_snd ?_ (by assumption)
    | refine passGo_keeps ?_ | split | intro _ | refine keeps_mk ?_)

theorem passSlots_keeps {pq : List Instr} {s : State} {c : CoreId} {r : PassRun} (hq : Keeps pq s) :
    Keeps pq (passSlots s c r) := by
  unfold passSlots
  try dsimp only
  with_reducible repeat' (
    first
    | assumption | refine keeps_fst ?_ (by assumption) | refine setGuard_keeps ?_ | split | intro _
    | refine keeps_mk ?_)

theorem passCount_keeps {pq : List Instr} {s : State} {c : CoreId} {u : MuId} {r : PassRun} {times : Nat} {fault : Bool} (hq : Keeps pq s) :
    Keeps pq (passCount s c u r times fault) := by
  unfold passCount
  try dsimp only
  with_reducible repeat' (
    first
    | assumption | refine keeps_fst ?_ (by assumption) | refine keeps_snd ?_ (by assumption)
    | refine State.count_keeps ?_ | refine State.fresh_keeps ?_ | split | intro _ | refine keeps_mk ?_)

theorem operandError_keeps {pq : List Instr} {s : State} {c : CoreId} {u : MuId} {r : PassRun} (hq : Keeps pq s) :
    Keeps pq (operandError s c u r) := by
  unfold operandError
  try dsimp only
  with_reducible repeat' (
    first
    | assumption | refine keeps_fst ?_ (by assumption) | refine muEv_keeps ?_ | refine muLog_keeps ?_ | split
    | intro _ | refine keeps_mk ?_)

theorem passWrite_keeps {pq : List Instr} {s : State} {c : CoreId} {u : MuId} {r : PassRun} {out : List (Nat × List Byte)} (hq : Keeps pq s) :
    Keeps pq (passWrite s c u r out).1 := by
  unfold passWrite
  try dsimp only
  with_reducible repeat' (
    first
    | assumption | refine keeps_fst ?_ (by assumption) | refine keeps_foldl ?_ ?_
    | refine keeps_foldl_pair ?_ ?_ | refine allowAll_keeps ?_ | refine operandError_keeps ?_
    | refine spCorrected_keeps ?_ | refine spMerge_keeps ?_ | refine spUncorrs_keeps ?_ | split | intro _
    | refine keeps_mk ?_)

theorem passFlags_keeps {pq : List Instr} {s : State} {c : CoreId} {u : MuId} {r : PassRun} {ds : List Drained} (hq : Keeps pq s) :
    Keeps pq (passFlags s c u r ds) := by
  unfold passFlags
  try dsimp only
  with_reducible repeat' (
    first
    | assumption | refine keeps_fst ?_ (by assumption) | refine State.count_keeps ?_ | refine passEv_keeps ?_
    | split | intro _ | refine keeps_mk ?_)

theorem passFinish_keeps {pq : List Instr} {s : State} {c : CoreId} {u : MuId} {r : PassRun} {times : Nat} (hq : Keeps pq s) :
    Keeps pq (passFinish s c u r times) := by
  unfold passFinish
  try dsimp only
  with_reducible repeat' (
    first
    | assumption | refine keeps_fst ?_ (by assumption) | refine allowAll_keeps ?_ | refine eccAll_keeps ?_
    | refine operandError_keeps ?_ | refine passCount_keeps ?_ | refine passFlags_keeps ?_
    | refine passWrite_keeps ?_ | split | intro _ | refine keeps_mk ?_)

theorem restartRuns_keeps {pq : List Instr} {s : State} {c : CoreId} {u : MuId} {held : Option HeldOp} {later : List PassRun} (hq : Keeps pq s) :
    Keeps pq (restartRuns s c u held later) := by
  unfold restartRuns
  try dsimp only
  with_reducible repeat' (
    first
    | assumption | refine keeps_fst ?_ (by assumption) | refine keeps_foldl ?_ ?_
    | refine keeps_foldl_pair ?_ ?_ | refine State.setUnit_keeps ?_ | refine muPush_keeps ?_
    | refine passTake_keeps ?_ | split | intro _ | refine keeps_mk ?_)

theorem passRetry_keeps {pq : List Instr} {s : State} {c : CoreId} {u : MuId} {r : PassRun} {errs : List CubeErr} (hq : Keeps pq s) :
    Keeps pq (passRetry s c u r errs) := by
  unfold passRetry
  try dsimp only
  with_reducible repeat' (
    first
    | assumption | refine keeps_fst ?_ (by assumption) | refine muEv_keeps ?_ | refine muLog_keeps ?_
    | refine operandError_keeps ?_ | refine passCount_keeps ?_ | refine passFinish_keeps ?_ | split | intro _
    | refine keeps_mk ?_)

theorem passComplete_keeps {pq : List Instr} {s : State} {c : CoreId} {u : MuId} {f : CheckFault} (hq : Keeps pq s) :
    Keeps pq (passComplete s c u f) := by
  unfold passComplete
  try dsimp only
  with_reducible repeat' (
    first
    | assumption | refine keeps_fst ?_ (by assumption) | refine State.count_keeps ?_
    | refine State.setUnit_keeps ?_ | refine muEv_keeps ?_ | refine muLog_keeps ?_
    | refine operandError_keeps ?_ | refine passCount_keeps ?_ | refine passFinish_keeps ?_
    | refine passRetry_keeps ?_ | refine passSlots_keeps ?_ | refine passTake_keeps ?_
    | refine restartRuns_keeps ?_ | split | intro _ | refine keeps_mk ?_)

end Sys2Proof.Machine
end

