-- ==== Sys2Proof/Laws/KeepsScalar.lean ====
section
/-!
SUPPORT. The operations of Scalar keep the waiting commands and the canonical memories.
-/

-- The declarations of this file are elaborated in turn, so that checking the package as one text needs few threads.
set_option Elab.async false

namespace Sys2Proof.Machine

theorem aluStep_keeps {pq : List Instr} {s : State} {c : CoreId} {us : List Upset} {o : Op} {f : W64 → W64 → W64} (hq : Keeps pq s) :
    Keeps pq (aluStep s c us o f) := by
  unfold aluStep
  try dsimp only
  with_reducible repeat' (
    first
    | assumption | refine keeps_fst ?_ (by assumption) | refine State.setCore_keeps ?_
    | refine issue_keeps ?_ ?_  | refine retire_keeps ?_ | split | intro _ | refine keeps_mk ?_)

theorem execNop_keeps {pq : List Instr} {c : CoreId} {us : List Upset} {s : State} {t' : State} (hq : Keeps pq s)
    (he : execNop c us s = .next t') : Keeps pq t' := by
  unfold execNop at he
  injection he with he
  rw [← he]
  try dsimp only
  with_reducible repeat' (
    first
    | assumption | refine keeps_fst ?_ (by assumption) | refine issue_keeps ?_ ?_  | refine retire_keeps ?_
    | split | intro _ | refine keeps_mk ?_)

theorem execHalt_keeps {pq : List Instr} {c : CoreId} {us : List Upset} {s : State} {t' : State} (hq : Keeps pq s)
    (he : execHalt c us s = .next t') : Keeps pq t' := by
  unfold execHalt at he
  injection he with he
  rw [← he]
  try dsimp only
  with_reducible repeat' (
    first
    | assumption | refine keeps_fst ?_ (by assumption) | refine State.setCore_keeps ?_
    | refine issue_keeps ?_ ?_  | refine startDrain_keeps ?_ | split | intro _ | refine keeps_mk ?_)

theorem execYield_keeps {pq : List Instr} {c : CoreId} {us : List Upset} {s : State} {t' : State} (hq : Keeps pq s)
    (he : execYield c us s = .next t') : Keeps pq t' := by
  unfold execYield at he
  injection he with he
  rw [← he]
  try dsimp only
  with_reducible repeat' (
    first
    | assumption | refine keeps_fst ?_ (by assumption) | refine State.setCore_keeps ?_
    | refine beginBeat_keeps ?_ | refine endBeat_keeps ?_ | refine issue_keeps ?_ ?_ 
    | refine retire_keeps ?_ | refine startDrain_keeps ?_ | split | intro _ | refine keeps_mk ?_)

theorem execJmp_keeps {pq : List Instr} {c : CoreId} {us : List Upset} {s : State} {t' : State} (hq : Keeps pq s)
    (he : execJmp c us s = .next t') : Keeps pq t' := by
  unfold execJmp at he
  injection he with he
  rw [← he]
  try dsimp only
  with_reducible repeat' (
    first
    | assumption | refine keeps_fst ?_ (by assumption) | refine issue_keeps ?_ ?_  | refine retireTo_keeps ?_
    | split | intro _ | refine keeps_mk ?_)

theorem execCall_keeps {pq : List Instr} {c : CoreId} {us : List Upset} {s : State} {t' : State} (hq : Keeps pq s)
    (he : execCall c us s = .next t') : Keeps pq t' := by
  unfold execCall at he
  injection he with he
  rw [← he]
  try dsimp only
  with_reducible repeat' (
    first
    | assumption | refine keeps_fst ?_ (by assumption) | refine State.setCore_keeps ?_
    | refine faultHaltEv_keeps ?_ | refine issue_keeps ?_ ?_  | refine retireTo_keeps ?_ | split | intro _
    | refine keeps_mk ?_)

theorem execRet_keeps {pq : List Instr} {c : CoreId} {us : List Upset} {s : State} {t' : State} (hq : Keeps pq s)
    (he : execRet c us s = .next t') : Keeps pq t' := by
  unfold execRet at he
  injection he with he
  rw [← he]
  try dsimp only
  with_reducible repeat' (
    first
    | assumption | refine keeps_fst ?_ (by assumption) | refine State.setCore_keeps ?_
    | refine faultHaltEv_keeps ?_ | refine issue_keeps ?_ ?_  | refine retireTo_keeps ?_ | split | intro _
    | refine keeps_mk ?_)

theorem execLoop_keeps {pq : List Instr} {c : CoreId} {us : List Upset} {s : State} {t' : State} (hq : Keeps pq s)
    (he : execLoop c us s = .next t') : Keeps pq t' := by
  unfold execLoop at he
  injection he with he
  rw [← he]
  try dsimp only
  with_reducible repeat' (
    first
    | assumption | refine keeps_fst ?_ (by assumption) | refine State.count_keeps ?_
    | refine State.setCore_keeps ?_ | refine issue_keeps ?_ ?_  | refine retireTo_keeps ?_ | split | intro _
    | refine keeps_mk ?_)

theorem execAdd_keeps {pq : List Instr} {c : CoreId} {us : List Upset} {s : State} {t' : State} (hq : Keeps pq s)
    (he : execAdd c us s = .next t') : Keeps pq t' := by
  unfold execAdd at he
  injection he with he
  rw [← he]
  try dsimp only
  with_reducible repeat' (
    first
    | assumption | refine keeps_fst ?_ (by assumption) | refine aluStep_keeps ?_ | split | intro _
    | refine keeps_mk ?_)

theorem execSub_keeps {pq : List Instr} {c : CoreId} {us : List Upset} {s : State} {t' : State} (hq : Keeps pq s)
    (he : execSub c us s = .next t') : Keeps pq t' := by
  unfold execSub at he
  injection he with he
  rw [← he]
  try dsimp only
  with_reducible repeat' (
    first
    | assumption | refine keeps_fst ?_ (by assumption) | refine aluStep_keeps ?_ | split | intro _
    | refine keeps_mk ?_)

theorem execAnd_keeps {pq : List Instr} {c : CoreId} {us : List Upset} {s : State} {t' : State} (hq : Keeps pq s)
    (he : execAnd c us s = .next t') : Keeps pq t' := by
  unfold execAnd at he
  injection he with he
  rw [← he]
  try dsimp only
  with_reducible repeat' (
    first
    | assumption | refine keeps_fst ?_ (by assumption) | refine aluStep_keeps ?_ | split | intro _
    | refine keeps_mk ?_)

theorem execOr_keeps {pq : List Instr} {c : CoreId} {us : List Upset} {s : State} {t' : State} (hq : Keeps pq s)
    (he : execOr c us s = .next t') : Keeps pq t' := by
  unfold execOr at he
  injection he with he
  rw [← he]
  try dsimp only
  with_reducible repeat' (
    first
    | assumption | refine keeps_fst ?_ (by assumption) | refine aluStep_keeps ?_ | split | intro _
    | refine keeps_mk ?_)

theorem execXor_keeps {pq : List Instr} {c : CoreId} {us : List Upset} {s : State} {t' : State} (hq : Keeps pq s)
    (he : execXor c us s = .next t') : Keeps pq t' := by
  unfold execXor at he
  injection he with he
  rw [← he]
  try dsimp only
  with_reducible repeat' (
    first
    | assumption | refine keeps_fst ?_ (by assumption) | refine aluStep_keeps ?_ | split | intro _
    | refine keeps_mk ?_)

theorem execShl_keeps {pq : List Instr} {c : CoreId} {us : List Upset} {s : State} {t' : State} (hq : Keeps pq s)
    (he : execShl c us s = .next t') : Keeps pq t' := by
  unfold execShl at he
  injection he with he
  rw [← he]
  try dsimp only
  with_reducible repeat' (
    first
    | assumption | refine keeps_fst ?_ (by assumption) | refine aluStep_keeps ?_ | split | intro _
    | refine keeps_mk ?_)

theorem execShr_keeps {pq : List Instr} {c : CoreId} {us : List Upset} {s : State} {t' : State} (hq : Keeps pq s)
    (he : execShr c us s = .next t') : Keeps pq t' := by
  unfold execShr at he
  injection he with he
  rw [← he]
  try dsimp only
  with_reducible repeat' (
    first
    | assumption | refine keeps_fst ?_ (by assumption) | refine aluStep_keeps ?_ | split | intro _
    | refine keeps_mk ?_)

theorem execSra_keeps {pq : List Instr} {c : CoreId} {us : List Upset} {s : State} {t' : State} (hq : Keeps pq s)
    (he : execSra c us s = .next t') : Keeps pq t' := by
  unfold execSra at he
  injection he with he
  rw [← he]
  try dsimp only
  with_reducible repeat' (
    first
    | assumption | refine keeps_fst ?_ (by assumption) | refine aluStep_keeps ?_ | split | intro _
    | refine keeps_mk ?_)

theorem execMul_keeps {pq : List Instr} {c : CoreId} {us : List Upset} {s : State} {t' : State} (hq : Keeps pq s)
    (he : execMul c us s = .next t') : Keeps pq t' := by
  unfold execMul at he
  injection he with he
  rw [← he]
  try dsimp only
  with_reducible repeat' (
    first
    | assumption | refine keeps_fst ?_ (by assumption) | refine aluStep_keeps ?_ | split | intro _
    | refine keeps_mk ?_)

theorem execCmp_keeps {pq : List Instr} {c : CoreId} {us : List Upset} {s : State} {t' : State} (hq : Keeps pq s)
    (he : execCmp c us s = .next t') : Keeps pq t' := by
  unfold execCmp at he
  injection he with he
  rw [← he]
  try dsimp only
  with_reducible repeat' (
    first
    | assumption | refine keeps_fst ?_ (by assumption) | refine State.setCore_keeps ?_
    | refine issue_keeps ?_ ?_  | refine retire_keeps ?_ | split | intro _ | refine keeps_mk ?_)

theorem execLi_keeps {pq : List Instr} {c : CoreId} {us : List Upset} {s : State} {t' : State} (hq : Keeps pq s)
    (he : execLi c us s = .next t') : Keeps pq t' := by
  unfold execLi at he
  injection he with he
  rw [← he]
  try dsimp only
  with_reducible repeat' (
    first
    | assumption | refine keeps_fst ?_ (by assumption) | refine State.setCore_keeps ?_
    | refine issue_keeps ?_ ?_  | refine retire_keeps ?_ | split | intro _ | refine keeps_mk ?_)

theorem execLd_keeps {pq : List Instr} {c : CoreId} {us : List Upset} {s : State} {t' : State} (hq : Keeps pq s)
    (he : execLd c us s = .next t') : Keeps pq t' := by
  unfold execLd at he
  injection he with he
  rw [← he]
  try dsimp only
  with_reducible repeat' (
    first
    | assumption | refine keeps_fst ?_ (by assumption) | refine State.setCore_keeps ?_
    | refine faultHalt_keeps ?_ | refine faultHaltEv_keeps ?_ | refine issue_keeps ?_ ?_ 
    | refine retire_keeps ?_ | refine spRead_keeps ?_ | split | intro _ | refine keeps_mk ?_)

theorem execSt_keeps {pq : List Instr} {c : CoreId} {us : List Upset} {s : State} {t' : State} (hq : Keeps pq s)
    (he : execSt c us s = .next t') : Keeps pq t' := by
  unfold execSt at he
  injection he with he
  rw [← he]
  try dsimp only
  with_reducible repeat' (
    first
    | assumption | refine keeps_fst ?_ (by assumption) | refine faultHalt_keeps ?_
    | refine faultHaltEv_keeps ?_ | refine issue_keeps ?_ ?_  | refine retire_keeps ?_
    | refine spWrite_keeps ?_ | split | intro _ | refine keeps_mk ?_)

theorem readCycles_keeps {pq : List Instr} {s : State} {c : CoreId} (hq : Keeps pq s) :
    Keeps pq (readCycles s c).2 := by
  unfold readCycles
  try dsimp only
  with_reducible repeat' (
    first
    | assumption | refine keeps_fst ?_ (by assumption) | refine keeps_snd ?_ (by assumption)
    | refine State.fresh_keeps ?_ | refine State.wr_keeps ?_ | split | intro _ | refine keeps_mk ?_)

theorem sysValue_keeps {pq : List Instr} {s : State} {c : CoreId} {sel : Nat} (hq : Keeps pq s) :
    Keeps pq (sysValue s c sel).2 := by
  unfold sysValue
  try dsimp only
  with_reducible repeat' (
    first
    | assumption | refine keeps_fst ?_ (by assumption) | refine keeps_snd ?_ (by assumption)
    | refine State.now_keeps ?_ | refine readCycles_keeps ?_ | split | intro _ | refine keeps_mk ?_)

theorem execGetsys_keeps {pq : List Instr} {c : CoreId} {us : List Upset} {s : State} {t' : State} (hq : Keeps pq s)
    (he : execGetsys c us s = .next t') : Keeps pq t' := by
  unfold execGetsys at he
  injection he with he
  rw [← he]
  try dsimp only
  with_reducible repeat' (
    first
    | assumption | refine keeps_fst ?_ (by assumption) | refine keeps_snd ?_ (by assumption)
    | refine State.setCore_keeps ?_ | refine issue_keeps ?_ ?_  | refine retire_keeps ?_
    | refine sysValue_keeps ?_ | split | intro _ | refine keeps_mk ?_)

end Sys2Proof.Machine
end

