-- ==== Sys2Proof/Laws/KeepsSync.lean ====
section
/-!
SUPPORT. The operations of Sync keep the waiting commands and the canonical memories.
-/

-- The declarations of this file are elaborated in turn, so that checking the package as one text needs few threads.
set_option Elab.async false

namespace Sys2Proof.Machine

theorem semSet_keeps {pq : List Instr} {s : State} {c : CoreId} {i : Nat} {v : BitVec 16} (hq : Keeps pq s) :
    Keeps pq (semSet s c i v) := by
  unfold semSet
  try dsimp only
  with_reducible repeat' (
    first
    | assumption | refine keeps_fst ?_ (by assumption) | refine keeps_loc_same ?_ rfl
    | refine keeps_loc ?_ (keeps_sp ?_ _) | split | intro _ | refine keeps_mk ?_)

theorem unblock_keeps {pq : List Instr} {s : State} {c : CoreId} {pt : Nat} {ok : Bool} (hq : Keeps pq s) :
    Keeps pq (unblock s c pt ok) := by
  unfold unblock
  try dsimp only
  with_reducible repeat' (
    first
    | assumption | refine keeps_fst ?_ (by assumption) | refine State.setCore_keeps ?_
    | refine State.setUnit_keeps ?_ | refine retire_keeps ?_ | split | intro _ | refine keeps_mk ?_)

theorem wake_keeps {pq : List Instr} {s : State} {c : CoreId} (hq : Keeps pq s) :
    Keeps pq (wake s c) := by
  unfold wake
  try dsimp only
  with_reducible repeat' (
    first
    | assumption | refine keeps_fst ?_ (by assumption) | refine semSet_keeps ?_ | refine settle_keeps ?_
    | refine unblock_keeps ?_ | split | intro _ | refine keeps_mk ?_)

theorem semAdd_keeps {pq : List Instr} {s : State} {c : CoreId} {sem v : Nat} (hq : Keeps pq s) :
    Keeps pq (semAdd s c sem v) := by
  unfold semAdd
  try dsimp only
  with_reducible repeat' (
    first
    | assumption | refine keeps_fst ?_ (by assumption) | refine State.coreEv_keeps ?_
    | refine semSet_keeps ?_ | refine wake_keeps ?_ | split | intro _ | refine keeps_mk ?_)

theorem sigSend_keeps {pq : List Instr} {s u : State} {job : Option Nat} {target sem v : Nat} {reject : State → State}
    (h : Keeps pq s) (hf : ∀ s : State, Keeps pq s → Keeps pq (reject s))
    (e : sigSend s job target sem v reject = some u) : Keeps pq u := by
  unfold sigSend at e
  split at e
  · injection e with e; exact e ▸ hf s h
  · injection e with e; exact e ▸ semAdd_keeps h
  · cases e

theorem sigReject_keeps {pq : List Instr} {c : CoreId} {pc : Nat} {s : State} (hq : Keeps pq s) :
    Keeps pq (sigReject c pc s) := by
  unfold sigReject
  try dsimp only
  with_reducible repeat' (
    first
    | assumption | refine keeps_fst ?_ (by assumption) | refine State.coreEv_keeps ?_ | split | intro _
    | refine keeps_mk ?_)

theorem retryHeld_keeps {pq : List Instr} {c : CoreId} {x0 : Nat} {x1 : State} (hq : Keeps pq x1) :
    Keeps pq (retryHeld c x0 x1) := by
  induction x0 generalizing x1 with
  | zero => simp only [retryHeld]; exact hq
  | succ n ih =>
    unfold retryHeld
    try dsimp only
    with_reducible repeat' (
      first
      | assumption | refine keeps_fst ?_ (by assumption) | refine ih ?_ | refine State.setUnit_keeps ?_
      | refine sigReject_keeps ?_ | refine sigSend_keeps ?_ ?_ (by assumption) | split | intro _
      | refine keeps_mk ?_)

theorem veComplete_keeps {pq : List Instr} {s : State} {c : CoreId} (hq : Keeps pq s) :
    Keeps pq (veComplete s c) := by
  unfold veComplete
  try dsimp only
  with_reducible repeat' (
    first
    | assumption | refine keeps_fst ?_ (by assumption) | refine State.setCore_keeps ?_
    | refine State.setUnit_keeps ?_ | refine wake_keeps ?_ | split | intro _ | refine keeps_mk ?_)

theorem signalApply_keeps {pq : List Instr} {s : State} {c : CoreId} (hq : Keeps pq s) :
    Keeps pq (signalApply s c) := by
  unfold signalApply
  try dsimp only
  with_reducible repeat' (
    first
    | assumption | refine keeps_fst ?_ (by assumption) | refine State.setUnit_keeps ?_
    | refine popHead_keeps ?_ | refine sigReject_keeps ?_ | refine sigSend_keeps ?_ ?_ (by assumption)
    | refine wake_keeps ?_ | split | intro _ | refine keeps_mk ?_)

theorem slotSync_keeps {pq : List Instr} {s : State} {c : CoreId} (hq : Keeps pq s) :
    Keeps pq (slotSync s c) := by
  unfold slotSync
  try dsimp only
  with_reducible repeat' (
    first
    | assumption | refine keeps_fst ?_ (by assumption) | refine popHead_keeps ?_ | refine setGuard_keeps ?_
    | refine wake_keeps ?_ | split | intro _ | refine keeps_mk ?_)

theorem semTimeout_keeps {pq : List Instr} {s : State} {c : CoreId} (hq : Keeps pq s) :
    Keeps pq (semTimeout s c) := by
  unfold semTimeout
  try dsimp only
  with_reducible repeat' (
    first
    | assumption | refine keeps_fst ?_ (by assumption) | refine State.coreEv_keeps ?_
    | refine faultHaltEv_keeps ?_ | refine unblock_keeps ?_ | split | intro _ | refine keeps_mk ?_)

theorem slotTimeoutEv_keeps {pq : List Instr} {s : State} {c : CoreId} {guard unit : Nat} {fatal : Bool} (hq : Keeps pq s) :
    Keeps pq (slotTimeoutEv s c guard unit fatal) := by
  unfold slotTimeoutEv
  try dsimp only
  with_reducible repeat' (
    first
    | assumption | refine keeps_fst ?_ (by assumption) | refine State.count_keeps ?_
    | refine State.raiseIf_keeps ?_ | refine State.wr_keeps ?_ | split | intro _ | refine keeps_mk ?_)

theorem slotTimeout_keeps {pq : List Instr} {s : State} {c : CoreId} {w : Option UnitSel} (hq : Keeps pq s) :
    Keeps pq (slotTimeout s c w) := by
  unfold slotTimeout
  try dsimp only
  with_reducible repeat' (
    first
    | assumption | refine keeps_fst ?_ (by assumption) | refine State.setUnit_keeps ?_
    | refine faultHalt_keeps ?_ | refine slotTimeoutEv_keeps ?_ | refine unblock_keeps ?_ | split | intro _
    | refine keeps_mk ?_)

theorem execSignal_keeps {pq : List Instr} {c : CoreId} {us : List Upset} {s : State} {t' : State} (hq : Keeps pq s)
    (he : execSignal c us s = .next t') : Keeps pq t' := by
  unfold execSignal at he
  injection he with he
  rw [← he]
  try dsimp only
  with_reducible repeat' (
    first
    | assumption | refine keeps_fst ?_ (by assumption) | refine issueTo_keeps ?_ | split | intro _
    | refine keeps_mk ?_)

theorem execWait_keeps {pq : List Instr} {c : CoreId} {us : List Upset} {s : State} {t' : State} (hq : Keeps pq s)
    (he : execWait c us s = .next t') : Keeps pq t' := by
  unfold execWait at he
  injection he with he
  rw [← he]
  try dsimp only
  with_reducible repeat' (
    first
    | assumption | refine keeps_fst ?_ (by assumption) | refine State.setCore_keeps ?_
    | refine issue_keeps ?_ ?_  | refine wake_keeps ?_ | split | intro _ | refine keeps_mk ?_)

theorem execSet_keeps {pq : List Instr} {c : CoreId} {us : List Upset} {s : State} {t' : State} (hq : Keeps pq s)
    (he : execSet c us s = .next t') : Keeps pq t' := by
  unfold execSet at he
  injection he with he
  rw [← he]
  try dsimp only
  with_reducible repeat' (
    first
    | assumption | refine keeps_fst ?_ (by assumption) | refine issue_keeps ?_ ?_  | refine retire_keeps ?_
    | refine semSet_keeps ?_ | split | intro _ | refine keeps_mk ?_)

theorem execFence_keeps {pq : List Instr} {c : CoreId} {us : List Upset} {s : State} {t' : State} (hq : Keeps pq s)
    (he : execFence c us s = .next t') : Keeps pq t' := by
  unfold execFence at he
  injection he with he
  rw [← he]
  try dsimp only
  with_reducible repeat' (
    first
    | assumption | refine keeps_fst ?_ (by assumption) | refine State.setCore_keeps ?_
    | refine issue_keeps ?_ ?_  | refine wake_keeps ?_ | split | intro _ | refine keeps_mk ?_)

theorem execSlotFill_keeps {pq : List Instr} {c : CoreId} {now : Bool} {us : List Upset} {s : State} {t' : State} (hq : Keeps pq s)
    (he : execSlotFill c now us s = .next t') : Keeps pq t' := by
  unfold execSlotFill at he
  injection he with he
  rw [← he]
  try dsimp only
  with_reducible repeat' (
    first
    | assumption | refine keeps_fst ?_ (by assumption) | refine keeps_snd ?_ (by assumption)
    | refine State.now_keeps ?_ | refine issueTo_keeps ?_ | refine slotSync_keeps ?_ | split | intro _
    | refine keeps_mk ?_)

theorem execSlotDrain_keeps {pq : List Instr} {c : CoreId} {now : Bool} {us : List Upset} {s : State} {t' : State} (hq : Keeps pq s)
    (he : execSlotDrain c now us s = .next t') : Keeps pq t' := by
  unfold execSlotDrain at he
  injection he with he
  rw [← he]
  try dsimp only
  with_reducible repeat' (
    first
    | assumption | refine keeps_fst ?_ (by assumption) | refine keeps_snd ?_ (by assumption)
    | refine State.now_keeps ?_ | refine issueTo_keeps ?_ | refine slotSync_keeps ?_ | split | intro _
    | refine keeps_mk ?_)

theorem execSlotWaitf_keeps {pq : List Instr} {c : CoreId} {us : List Upset} {s : State} {t' : State} (hq : Keeps pq s)
    (he : execSlotWaitf c us s = .next t') : Keeps pq t' := by
  unfold execSlotWaitf at he
  injection he with he
  rw [← he]
  try dsimp only
  with_reducible repeat' (
    first
    | assumption | refine keeps_fst ?_ (by assumption) | refine State.setCore_keeps ?_
    | refine issue_keeps ?_ ?_  | refine wake_keeps ?_ | split | intro _ | refine keeps_mk ?_)

theorem execSlotWaite_keeps {pq : List Instr} {c : CoreId} {us : List Upset} {s : State} {t' : State} (hq : Keeps pq s)
    (he : execSlotWaite c us s = .next t') : Keeps pq t' := by
  unfold execSlotWaite at he
  injection he with he
  rw [← he]
  try dsimp only
  with_reducible repeat' (
    first
    | assumption | refine keeps_fst ?_ (by assumption) | refine State.setCore_keeps ?_
    | refine issue_keeps ?_ ?_  | refine wake_keeps ?_ | split | intro _ | refine keeps_mk ?_)

theorem execHaltDrainComplete_keeps {pq : List Instr} {c : CoreId} {s : State} {t' : State} (hq : Keeps pq s)
    (he : execHaltDrainComplete c s = .next t') : Keeps pq t' := by
  unfold execHaltDrainComplete at he
  injection he with he
  rw [← he]
  try dsimp only
  with_reducible repeat' (
    first
    | assumption | refine keeps_fst ?_ (by assumption) | refine State.live_keeps ?_ ?_ 
    | refine settle_keeps ?_ | split | intro _ | refine keeps_mk ?_)

theorem execSemaphoreSignalApply_keeps {pq : List Instr} {c : CoreId} {s : State} {t' : State} (hq : Keeps pq s)
    (he : execSemaphoreSignalApply c s = .next t') : Keeps pq t' := by
  unfold execSemaphoreSignalApply at he
  injection he with he
  rw [← he]
  try dsimp only
  with_reducible repeat' (
    first
    | assumption | refine keeps_fst ?_ (by assumption) | refine State.live_keeps ?_ ?_ 
    | refine signalApply_keeps ?_ | split | intro _ | refine keeps_mk ?_)

theorem execSemTimeoutExpiry_keeps {pq : List Instr} {c : CoreId} {s : State} {t' : State} (hq : Keeps pq s)
    (he : execSemTimeoutExpiry c s = .next t') : Keeps pq t' := by
  unfold execSemTimeoutExpiry at he
  injection he with he
  rw [← he]
  try dsimp only
  with_reducible repeat' (
    first
    | assumption | refine keeps_fst ?_ (by assumption) | refine State.live_keeps ?_ ?_ 
    | refine semTimeout_keeps ?_ | split | intro _ | refine keeps_mk ?_)

theorem execSlotTimeoutExpiry_keeps {pq : List Instr} {c : CoreId} {w : Option UnitSel} {s : State} {t' : State} (hq : Keeps pq s)
    (he : execSlotTimeoutExpiry c w s = .next t') : Keeps pq t' := by
  unfold execSlotTimeoutExpiry at he
  injection he with he
  rw [← he]
  try dsimp only
  with_reducible repeat' (
    first
    | assumption | refine keeps_fst ?_ (by assumption) | refine slotTimeout_keeps ?_ | split | intro _
    | refine keeps_mk ?_)

end Sys2Proof.Machine
end

