-- ==== Sys2Proof/Laws/KeepsDma.lean ====
section
/-!
SUPPORT. The operations of Dma keep the waiting commands and the canonical memories.
-/

-- The declarations of this file are elaborated in turn, so that checking the package as one text needs few threads.
set_option Elab.async false

namespace Sys2Proof.Machine

theorem listRead_keeps {pq : List Instr} {c : CoreId} {job : Option Nat} {x0 : List (Nat × Nat)} {x1 : State} {x2 : List Byte} (hq : Keeps pq x1) :
    Keeps pq (listRead c job x0 x1 x2).1 := by
  induction x0 generalizing x1 x2 with
  | nil => simp only [listRead]; exact hq
  | cons x l ih =>
    unfold listRead
    try dsimp only
    with_reducible repeat' (
      first
      | assumption | refine keeps_fst ?_ (by assumption) | refine ih ?_ | refine spRead_keeps ?_ | split
      | intro _ | refine keeps_mk ?_)

theorem gatherStart_keeps {pq : List Instr} {s : State} {c : CoreId} {w : W128} {src dst : Nat} {job : Option Nat} (hq : Keeps pq s) :
    Keeps pq (gatherStart s c w src dst job).1 := by
  unfold gatherStart
  try dsimp only
  with_reducible repeat' (
    first
    | assumption | refine keeps_fst ?_ (by assumption) | refine listRead_keeps ?_ | refine spRead_keeps ?_
    | split | intro _ | refine keeps_mk ?_)

theorem dmaReads_keeps {pq : List Instr} {s : State} {c : CoreId} {w : W128} {src dst : Nat} {job : Option Nat} (hq : Keeps pq s) :
    Keeps pq (dmaReads s c w src dst job).1 := by
  unfold dmaReads
  try dsimp only
  with_reducible repeat' (
    first
    | assumption | refine keeps_fst ?_ (by assumption) | refine gatherStart_keeps ?_ | split | intro _
    | refine keeps_mk ?_)

theorem fromAcc_keeps {pq : List Instr} {x : State × AccEnd} (h : Keeps pq x.1) : Keeps pq (fromAcc x).1 := by
  unfold fromAcc
  split <;> exact h

theorem hostSend_keeps {pq : List Instr} {s : State} {x : HostRead} (hq : Keeps pq s) :
    Keeps pq (hostSend s x) := by
  unfold hostSend
  try dsimp only
  with_reducible repeat' (
    first
    | assumption | refine keeps_fst ?_ (by assumption) | split | intro _ | refine keeps_mk ?_)

theorem hostPut_keeps {pq : List Instr} {s : State} {fn a : Nat} {bs : List Byte} (hq : Keeps pq s) :
    Keeps pq (hostPut s fn a bs) := by
  unfold hostPut
  try dsimp only
  with_reducible repeat' (
    first
    | assumption | refine keeps_fst ?_ (by assumption) | split | intro _ | refine keeps_mk ?_)

theorem dmaRead_keeps {pq : List Instr} {s : State} {c : CoreId} {ch : Fin 4} {r : DmaRun} {a len off : Nat} (hq : Keeps pq s) :
    Keeps pq (dmaRead s c ch r a len off).1 := by
  unfold dmaRead
  try dsimp only
  with_reducible repeat' (
    first
    | assumption | refine keeps_fst ?_ (by assumption) | refine State.count_keeps ?_
    | refine cxlSend_keeps ?_ | refine fromAcc_keeps ?_ | refine gddrOutside_keeps ?_
    | refine hostSend_keeps ?_ | refine memCheck_keeps ?_ | refine peerSend_keeps ?_ | refine spDo_keeps ?_
    | refine spOutside_keeps ?_ | split | intro _ | refine keeps_mk ?_)

theorem dmaWrite_keeps {pq : List Instr} {s : State} {c : CoreId} {ch : Fin 4} {r : DmaRun} {a : Nat} {bs : List Byte} (hq : Keeps pq s) :
    Keeps pq (dmaWrite s c ch r a bs).1 := by
  unfold dmaWrite
  try dsimp only
  with_reducible repeat' (
    first
    | assumption | refine keeps_fst ?_ (by assumption) | refine State.count_keeps ?_
    | refine cxlSend_keeps ?_ | refine fromAcc_keeps ?_ | refine gddrOutside_keeps ?_
    | refine hostPut_keeps ?_ | refine memCheck_keeps ?_ | refine peerSend_keeps ?_ | refine spDo_keeps ?_
    | refine spOutside_keeps ?_ | split | intro _ | refine keeps_mk ?_)

theorem chanAsk_keeps {pq : List Instr} {s : State} {c : CoreId} {ch : Fin 4} {n : Nat} (hq : Keeps pq s) :
    Keeps pq (chanAsk s c ch n).1 := by
  unfold chanAsk
  try dsimp only
  with_reducible repeat' (
    first
    | assumption | refine keeps_fst ?_ (by assumption) | refine State.setUnit_keeps ?_ | split | intro _
    | refine keeps_mk ?_)

theorem setRun_keeps {pq : List Instr} {s : State} {c : CoreId} {ch : Fin 4} {r : DmaRun} (hq : Keeps pq s) :
    Keeps pq (setRun s c ch r) := by
  unfold setRun
  try dsimp only
  with_reducible repeat' (
    first
    | assumption | refine keeps_fst ?_ (by assumption) | refine State.setUnit_keeps ?_ | split | intro _
    | refine keeps_mk ?_)

theorem dmaCount_keeps {pq : List Instr} {s : State} {c : CoreId} {ch : Fin 4} {n : Nat} (hq : Keeps pq s) :
    Keeps pq (dmaCount s c ch n) := by
  unfold dmaCount
  try dsimp only
  with_reducible repeat' (
    first
    | assumption | refine keeps_fst ?_ (by assumption) | refine State.count_keeps ?_ | split | intro _
    | refine keeps_mk ?_)

theorem dmaIssue_keeps {pq : List Instr} {c : CoreId} {ch : Fin 4} {seq : Nat} {x0 : Nat} {x1 : State} (hq : Keeps pq x1) :
    Keeps pq (dmaIssue c ch seq x0 x1) := by
  induction x0 generalizing x1 with
  | zero => simp only [dmaIssue]; exact hq
  | succ n ih =>
    unfold dmaIssue
    try dsimp only
    with_reducible repeat' (
      first
      | assumption | refine keeps_fst ?_ (by assumption) | refine ih ?_ | refine chanAsk_keeps ?_
      | refine dmaCount_keeps ?_ | refine dmaRead_keeps ?_ | refine dmaWrite_keeps ?_ | refine setRun_keeps ?_
      | split | intro _ | refine keeps_mk ?_)

theorem dmaNext_keeps {pq : List Instr} {s : State} {c : CoreId} {ch : Fin 4} (hq : Keeps pq s) :
    Keeps pq (dmaNext s c ch) := by
  unfold dmaNext
  try dsimp only
  with_reducible repeat' (
    first
    | assumption | refine keeps_fst ?_ (by assumption) | refine dmaIssue_keeps ?_ | split | intro _
    | refine keeps_mk ?_)

theorem takeRead_keeps {pq : List Instr} {s : State} {who : HostWait} (hq : Keeps pq s) :
    Keeps pq (takeRead s who).1 := by
  unfold takeRead
  try dsimp only
  with_reducible repeat' (
    first
    | assumption | refine keeps_fst ?_ (by assumption) | split | intro _ | refine keeps_mk ?_)

theorem dmaHostAnswer_keeps {pq : List Instr} {s : State} {c : CoreId} {ch : Fin 4} {reply : HostReply} (hq : Keeps pq s) :
    Keeps pq (dmaHostAnswer s c ch reply) := by
  unfold dmaHostAnswer
  try dsimp only
  with_reducible repeat' (
    first
    | assumption | refine keeps_fst ?_ (by assumption) | refine hostError_keeps ?_ | refine setRun_keeps ?_
    | refine takeRead_keeps ?_ | split | intro _ | refine keeps_mk ?_)

theorem dmaGo_keeps {pq : List Instr} {s : State} {c : CoreId} {ch : Fin 4} {hs : List HostReply} (hq : Keeps pq s) :
    Keeps pq (dmaGo s c ch hs) := by
  induction hs generalizing s with
  | nil => exact dmaNext_keeps hq
  | cons x l ih => exact ih (dmaHostAnswer_keeps (dmaNext_keeps hq))

theorem dmaStart_keeps {pq : List Instr} {s : State} {c : CoreId} {hs : List HostReply} (hq : Keeps pq s) :
    Keeps pq (dmaStart s c hs) := by
  unfold dmaStart
  try dsimp only
  with_reducible repeat' (
    first
    | assumption | refine keeps_fst ?_ (by assumption) | refine keeps_snd ?_ (by assumption)
    | refine State.fresh_keeps ?_ | refine State.setUnit_keeps ?_ | refine dmaGo_keeps ?_
    | refine dmaReads_keeps ?_ | refine popHead_keeps ?_ | split | intro _ | refine keeps_mk ?_)

theorem strayWrite_keeps {pq : List Instr} {s : State} {c : CoreId} {ch : Fin 4} {r : DmaRun} {k base a : Nat} {bs have_ : List Byte}
    (h : Keeps pq s) : Keeps pq (strayWrite s c ch r k base a bs have_) := by
  unfold strayWrite
  split
  · exact h
  · refine keeps_foldl h ?_
    intro s i h
    dsimp only
    split
    · have h := dmaCount_keeps (c := c) (ch := ch) (n := 1) h
      split
      · exact dirtyGddr_keeps (keeps_gddr h (memory_set_wf _ _ _ h.2.1))
      · exact dirtySp_keeps (keeps_loc h (memory_set_wf _ _ _ (keeps_sp h _)))
      · exact h
    · exact h

theorem strayWrites_keeps {pq : List Instr} {s : State} {c : CoreId} {ch : Fin 4} {r : DmaRun} (hq : Keeps pq s) :
    Keeps pq (strayWrites s c ch r) := by
  unfold strayWrites
  try dsimp only
  with_reducible repeat' (
    first
    | assumption | refine keeps_fst ?_ (by assumption) | refine keeps_snd ?_ (by assumption)
    | refine keeps_foldl ?_ ?_ | refine keeps_foldl_pair ?_ ?_ | refine State.fresh_keeps ?_
    | refine strayWrite_keeps ?_ | split | intro _ | refine keeps_mk ?_)

theorem dmaFault_keeps {pq : List Instr} {s : State} {c : CoreId} {ch : Fin 4} {r : DmaRun} {code : Nat} {addr : W64} (hq : Keeps pq s) :
    Keeps pq (dmaFault s c ch r code addr) := by
  unfold dmaFault
  try dsimp only
  with_reducible repeat' (
    first
    | assumption | refine keeps_fst ?_ (by assumption) | refine State.raise_keeps ?_
    | refine State.wr_keeps ?_ | split | intro _ | refine keeps_mk ?_)

theorem dmaFinish_keeps {pq : List Instr} {s : State} {c : CoreId} {ch : Fin 4} (hq : Keeps pq s) :
    Keeps pq (dmaFinish s c ch) := by
  unfold dmaFinish
  try dsimp only
  with_reducible repeat' (
    first
    | assumption | refine keeps_fst ?_ (by assumption) | refine State.setUnit_keeps ?_
    | refine dmaFault_keeps ?_ | refine setGuard_keeps ?_ | refine strayWrites_keeps ?_
    | refine wake_keeps ?_ | split | intro _ | refine keeps_mk ?_)

theorem dmaComplete_keeps {pq : List Instr} {s : State} {c : CoreId} {ch : Fin 4} {hs : List HostReply} (hq : Keeps pq s) :
    Keeps pq (dmaComplete s c ch hs) := by
  unfold dmaComplete
  try dsimp only
  with_reducible repeat' (
    first
    | assumption | refine keeps_fst ?_ (by assumption) | refine dmaFinish_keeps ?_ | refine dmaGo_keeps ?_
    | split | intro _ | refine keeps_mk ?_)

theorem dmaAnswer_keeps {pq : List Instr} {s : State} {c : CoreId} {ch : Fin 4} {seq tag code : Nat} {data : List Byte} (hq : Keeps pq s) :
    Keeps pq (dmaAnswer s c ch seq tag code data) := by
  unfold dmaAnswer
  try dsimp only
  with_reducible repeat' (
    first
    | assumption | refine keeps_fst ?_ (by assumption) | refine dmaCount_keeps ?_ | refine setRun_keeps ?_
    | split | intro _ | refine keeps_mk ?_)

theorem dmaTier_keeps {pq : List Instr} {s : State} {c : CoreId} {ch : Fin 4} {seq off code : Nat} {len : Nat} {data : List Byte} {addr : Nat} (hq : Keeps pq s) :
    Keeps pq (dmaTier s c ch seq off code len data addr) := by
  unfold dmaTier
  try dsimp only
  with_reducible repeat' (
    first
    | assumption | refine keeps_fst ?_ (by assumption) | refine dmaCount_keeps ?_ | refine setRun_keeps ?_
    | split | intro _ | refine keeps_mk ?_)

theorem dmaHostTimeout_keeps {pq : List Instr} {s : State} {c : CoreId} {ch : Fin 4} (hq : Keeps pq s) :
    Keeps pq (dmaHostTimeout s c ch) := by
  unfold dmaHostTimeout
  try dsimp only
  with_reducible repeat' (
    first
    | assumption | refine keeps_fst ?_ (by assumption) | refine dmaHostAnswer_keeps ?_ | split | intro _
    | refine keeps_mk ?_)

theorem execXferCopy_keeps {pq : List Instr} {c : CoreId} {us : List Upset} {s : State} {t' : State} (hq : Keeps pq s)
    (he : execXferCopy c us s = .next t') : Keeps pq t' := by
  unfold execXferCopy at he
  injection he with he
  rw [← he]
  try dsimp only
  with_reducible repeat' (
    first
    | assumption | refine keeps_fst ?_ (by assumption) | refine issueTo_keeps ?_ | split | intro _
    | refine keeps_mk ?_)

theorem execDmaTransferStart_keeps {pq : List Instr} {c : CoreId} {us : List Upset} {hs : List HostReply} {s : State} {t' : State} (hq : Keeps pq s)
    (he : execDmaTransferStart c us hs s = .next t') : Keeps pq t' := by
  unfold execDmaTransferStart at he
  injection he with he
  rw [← he]
  try dsimp only
  with_reducible repeat' (
    first
    | assumption | refine keeps_fst ?_ (by assumption) | refine dmaStart_keeps ?_ | refine strike_keeps ?_
    | refine wake_keeps ?_ | split | intro _ | refine keeps_mk ?_)

theorem execDmaTransferComplete_keeps {pq : List Instr} {c : CoreId} {ch : Fin 4} {us : List Upset} {hs : List HostReply} {s : State} {t' : State} (hq : Keeps pq s)
    (he : execDmaTransferComplete c ch us hs s = .next t') : Keeps pq t' := by
  unfold execDmaTransferComplete at he
  injection he with he
  rw [← he]
  try dsimp only
  with_reducible repeat' (
    first
    | assumption | refine keeps_fst ?_ (by assumption) | refine State.live_keeps ?_ ?_ 
    | refine dmaComplete_keeps ?_ | refine strike_keeps ?_ | split | intro _ | refine keeps_mk ?_)

end Sys2Proof.Machine
end

