-- ==== Sys2Proof/Laws/KeepsMonitor.lean ====
section
/-!
SUPPORT. The operations of Monitor keep the waiting commands and the canonical memories.
-/

-- The declarations of this file are elaborated in turn, so that checking the package as one text needs few threads.
set_option Elab.async false

namespace Sys2Proof.Machine

theorem putWord_keeps {pq : List Instr} {s : State} {w : GenWord} (hq : Keeps pq s) :
    Keeps pq (putWord s w) := by
  unfold putWord
  try dsimp only
  with_reducible repeat' (
    first
    | assumption | refine keeps_fst ?_ (by assumption) | refine spWriteAny_keeps ?_ | split | intro _
    | refine keeps_mk ?_)

theorem writeWord_keeps {pq : List Instr} {s : State} {slot : Nat} {m : Monitor} {active : Bool} (hq : Keeps pq s) :
    Keeps pq (writeWord s slot m active) := by
  unfold writeWord
  try dsimp only
  with_reducible repeat' (
    first
    | assumption | refine keeps_fst ?_ (by assumption) | refine putWord_keeps ?_ | split | intro _
    | refine keeps_mk ?_)

theorem retryWords_keeps {pq : List Instr} {s : State} (hq : Keeps pq s) :
    Keeps pq (retryWords s) := by
  unfold retryWords
  try dsimp only
  with_reducible repeat' (
    first
    | assumption | refine keeps_fst ?_ (by assumption) | refine keeps_foldl ?_ ?_
    | refine keeps_foldl_pair ?_ ?_ | refine putWord_keeps ?_ | split | intro _ | refine keeps_mk ?_)

theorem setMonitor_keeps {pq : List Instr} {s : State} {i : Fin 64} {m : Option Monitor} (hq : Keeps pq s) :
    Keeps pq (setMonitor s i m) := by
  unfold setMonitor
  try dsimp only
  with_reducible repeat' (
    first
    | assumption | refine keeps_fst ?_ (by assumption) | split | intro _ | refine keeps_mk ?_)

theorem monitorDue_keeps {pq : List Instr} {s : State} {slot ring : Nat} {status : BitVec 8} {result : BitVec 32} {info : BitVec 16} (hq : Keeps pq s) :
    Keeps pq (monitorDue s slot ring status result info) := by
  unfold monitorDue
  try dsimp only
  with_reducible repeat' (
    first
    | assumption | refine keeps_fst ?_ (by assumption) | refine State.due_keeps ?_
    | refine State.setRing_keeps ?_ | split | intro _ | refine keeps_mk ?_)

theorem monitorEnd_keeps {pq : List Instr} {s : State} {i : Fin 64} {m : Monitor} {t : W64} (hq : Keeps pq s) :
    Keeps pq (monitorEnd s i m t) := by
  unfold monitorEnd
  try dsimp only
  with_reducible repeat' (
    first
    | assumption | refine keeps_fst ?_ (by assumption) | refine State.raise_keeps ?_
    | refine monitorDue_keeps ?_ | refine setMonitor_keeps ?_ | refine writeWord_keeps ?_ | split | intro _
    | refine keeps_mk ?_)

theorem monitorCount_keeps {pq : List Instr} {s : State} {i : Fin 64} {m : Monitor} (hq : Keeps pq s) :
    Keeps pq (monitorCount s i m) := by
  unfold monitorCount
  try dsimp only
  with_reducible repeat' (
    first
    | assumption | refine keeps_fst ?_ (by assumption) | refine keeps_snd ?_ (by assumption)
    | refine State.count_keeps ?_ | refine State.now_keeps ?_ | refine State.raise_keeps ?_
    | refine monitorEnd_keeps ?_ | refine setMonitor_keeps ?_ | refine writeWord_keeps ?_ | split | intro _
    | refine keeps_mk ?_)

theorem monitorToken_keeps {pq : List Instr} {s : State} {q : QId} {mbtag : BitVec 16} (hq : Keeps pq s) :
    Keeps pq (monitorToken s q mbtag) := by
  unfold monitorToken
  try dsimp only
  with_reducible repeat' (
    first
    | assumption | refine keeps_fst ?_ (by assumption) | refine monitorCount_keeps ?_ | split | intro _
    | refine keeps_mk ?_)

end Sys2Proof.Machine
end

