-- ==== Sys2Proof/Laws/KeepsQueue.lean ====
section
/-!
SUPPORT. The operations of Queue keep the waiting commands and the canonical memories.
-/

-- The declarations of this file are elaborated in turn, so that checking the package as one text needs few threads.
set_option Elab.async false

namespace Sys2Proof.Machine

theorem qEv_keeps {pq : List Instr} {s : State} {q : QId} {code : Nat} {job dev : Option Nat} {a1 : Nat} (hq : Keeps pq s) :
    Keeps pq (qEv s q code job dev a1) := by
  unfold qEv
  try dsimp only
  with_reducible repeat' (
    first
    | assumption | refine keeps_fst ?_ (by assumption) | refine State.raiseDev_keeps ?_ | split | intro _
    | refine keeps_mk ?_)

theorem sendQflow_keeps {pq : List Instr} {s : State} {job dev q : Nat} {stop : Bool} (hq : Keeps pq s) :
    Keeps pq (sendQflow s job dev q stop) := by
  unfold sendQflow
  try dsimp only
  with_reducible repeat' (
    first
    | assumption | refine keeps_fst ?_ (by assumption) | refine sendPkt_keeps ?_
    | refine unreachable_keeps ?_ | split | intro _ | refine keeps_mk ?_)

theorem retryQflow_keeps {pq : List Instr} {s : State} (hq : Keeps pq s) :
    Keeps pq (retryQflow s) := by
  unfold retryQflow
  try dsimp only
  with_reducible repeat' (
    first
    | assumption | refine keeps_fst ?_ (by assumption) | refine keeps_foldl ?_ ?_
    | refine keeps_foldl_pair ?_ ?_ | refine sendQflow_keeps ?_ | split | intro _ | refine keeps_mk ?_)

theorem pauseFor_keeps {pq : List Instr} {s : State} {dev q : Nat} {stop : Bool} (hq : Keeps pq s) :
    Keeps pq (pauseFor s dev q stop) := by
  unfold pauseFor
  try dsimp only
  with_reducible repeat' (
    first
    | assumption | refine keeps_fst ?_ (by assumption) | refine keeps_foldl ?_ ?_
    | refine keeps_foldl_pair ?_ ?_ | refine State.setQueue_keeps ?_ | split | intro _ | refine keeps_mk ?_)

theorem flowIn_keeps {pq : List Instr} {s : State} {dev q : Nat} {stop : Bool} (hq : Keeps pq s) :
    Keeps pq (flowIn s dev q stop) := by
  unfold flowIn
  try dsimp only
  with_reducible repeat' (
    first
    | assumption | refine keeps_fst ?_ (by assumption) | refine duFlush_keeps ?_ | refine pauseFor_keeps ?_
    | split | intro _ | refine keeps_mk ?_)

theorem flowOut_keeps {pq : List Instr} {s : State} {q : QId} {stop : Bool} (hq : Keeps pq s) :
    Keeps pq (flowOut s q stop) := by
  unfold flowOut
  try dsimp only
  with_reducible repeat' (
    first
    | assumption | refine keeps_fst ?_ (by assumption) | refine keeps_foldl ?_ ?_
    | refine keeps_foldl_pair ?_ ?_ | refine flowIn_keeps ?_ | refine sendQflow_keeps ?_ | split | intro _
    | refine keeps_mk ?_)

theorem qMarks_keeps {pq : List Instr} {s : State} {q : QId} (hq : Keeps pq s) :
    Keeps pq (qMarks s q) := by
  unfold qMarks
  try dsimp only
  with_reducible repeat' (
    first
    | assumption | refine keeps_fst ?_ (by assumption) | refine State.setQueue_keeps ?_
    | refine State.wr_keeps ?_ | refine flowOut_keeps ?_ | refine qEv_keeps ?_ | split | intro _
    | refine keeps_mk ?_)

theorem clearAbove_keeps {pq : List Instr} {s : State} {q : QId} (hq : Keeps pq s) :
    Keeps pq (clearAbove s q) := by
  unfold clearAbove
  try dsimp only
  with_reducible repeat' (
    first
    | assumption | refine keeps_fst ?_ (by assumption) | refine State.setQueue_keeps ?_
    | refine flowOut_keeps ?_ | refine qEv_keeps ?_ | split | intro _ | refine keeps_mk ?_)

theorem qNotify_keeps {pq : List Instr} {s : State} {q : QId} (hq : Keeps pq s) :
    Keeps pq (qNotify s q) := by
  unfold qNotify
  try dsimp only
  with_reducible repeat' (
    first
    | assumption | refine keeps_fst ?_ (by assumption) | refine State.setQueue_keeps ?_ | refine qEv_keeps ?_
    | refine sigSend_keeps ?_ ?_ (by assumption) | split | intro _ | refine keeps_mk ?_)

theorem qArrived_keeps {pq : List Instr} {s : State} {q : QId} {packets : Nat} (hq : Keeps pq s) :
    Keeps pq (qArrived s q packets) := by
  unfold qArrived
  try dsimp only
  with_reducible repeat' (
    first
    | assumption | refine keeps_fst ?_ (by assumption) | refine keeps_foldl ?_ ?_
    | refine keeps_foldl_pair ?_ ?_ | refine qNotify_keeps ?_ | split | intro _ | refine keeps_mk ?_)

theorem retryNotify_keeps {pq : List Instr} {s : State} {q : QId} (hq : Keeps pq s) :
    Keeps pq (retryNotify s q) := by
  unfold retryNotify
  try dsimp only
  with_reducible repeat' (
    first
    | assumption | refine keeps_fst ?_ (by assumption) | refine keeps_foldl ?_ ?_
    | refine keeps_foldl_pair ?_ ?_ | refine State.setQueue_keeps ?_ | refine qNotify_keeps ?_ | split
    | intro _ | refine keeps_mk ?_)

theorem qReset_keeps {pq : List Instr} {s : State} {q : QId} {code a1 : Nat} (hq : Keeps pq s) :
    Keeps pq (qReset s q code a1) := by
  unfold qReset
  try dsimp only
  with_reducible repeat' (
    first
    | assumption | refine keeps_fst ?_ (by assumption) | refine State.setQueue_keeps ?_
    | refine clearAbove_keeps ?_ | refine qEv_keeps ?_ | split | intro _ | refine keeps_mk ?_)

theorem qCheck_keeps {pq : List Instr} {s : State} {q : QId} (hq : Keeps pq s) :
    Keeps pq (qCheck s q) := by
  unfold qCheck
  try dsimp only
  with_reducible repeat' (
    first
    | assumption | refine keeps_fst ?_ (by assumption) | refine qReset_keeps ?_ | split | intro _
    | refine keeps_mk ?_)

theorem dropStranded_keeps {pq : List Instr} {s : State} {q : QId} (hq : Keeps pq s) :
    Keeps pq (dropStranded s q) := by
  unfold dropStranded
  try dsimp only
  with_reducible repeat' (
    first
    | assumption | refine keeps_fst ?_ (by assumption) | split | intro _ | refine keeps_mk ?_)

theorem qFlush_keeps {pq : List Instr} {s : State} {q : QId} (hq : Keeps pq s) :
    Keeps pq (qFlush s q) := by
  unfold qFlush
  try dsimp only
  with_reducible repeat' (
    first
    | assumption | refine keeps_fst ?_ (by assumption) | refine State.setQueue_keeps ?_
    | refine clearAbove_keeps ?_ | refine dropStranded_keeps ?_ | split | intro _ | refine keeps_mk ?_)

theorem poolRead_keeps {pq : List Instr} {s : State} {q : QId} {a len : Nat} (hq : Keeps pq s) :
    Keeps pq (poolRead s q a len).1 := by
  unfold poolRead
  try dsimp only
  with_reducible repeat' (
    first
    | assumption | refine keeps_fst ?_ (by assumption) | refine gddrRead_keeps ?_
    | refine trainFailed_keeps ?_ | split | intro _ | refine keeps_mk ?_)

theorem poolPut_keeps {pq : List Instr} {s : State} {q : QId} {a : Nat} {bs : List Byte} (hq : Keeps pq s) :
    Keeps pq (poolPut s q a bs).1 := by
  unfold poolPut
  try dsimp only
  with_reducible repeat' (
    first
    | assumption | refine keeps_fst ?_ (by assumption) | refine State.setCtrl_keeps ?_
    | refine gddrWrite_keeps ?_ | refine qReset_keeps ?_ | refine trainFailed_keeps ?_ | split | intro _
    | refine keeps_mk ?_)

theorem poolPuts_keeps {pq : List Instr} {q : QId} {x0 : List (Nat × List Byte)} {x1 : State} (hq : Keeps pq x1) :
    Keeps pq (poolPuts q x0 x1).1 := by
  induction x0 generalizing x1 with
  | nil => simp only [poolPuts]; exact hq
  | cons x l ih =>
    unfold poolPuts
    try dsimp only
    with_reducible repeat' (
      first
      | assumption | refine keeps_fst ?_ (by assumption) | refine ih ?_ | refine poolPut_keeps ?_ | split
      | intro _ | refine keeps_mk ?_)

theorem poolWrite_keeps {pq : List Instr} {s : State} {q : QId} {a : Nat} {bs : List Byte} (hq : Keeps pq s) :
    Keeps pq (poolWrite s q a bs).1 := by
  unfold poolWrite
  try dsimp only
  with_reducible repeat' (
    first
    | assumption | refine keeps_fst ?_ (by assumption) | refine poolPuts_keeps ?_ | split | intro _
    | refine keeps_mk ?_)

theorem linkChunk_keeps {pq : List Instr} {s : State} {q : QId} {l : List Chunk} {next : Nat} (hq : Keeps pq s) :
    Keeps pq (linkChunk s q l next).1 := by
  unfold linkChunk
  try dsimp only
  with_reducible repeat' (
    first
    | assumption | refine keeps_fst ?_ (by assumption) | refine poolWrite_keeps ?_ | split | intro _
    | refine keeps_mk ?_)

theorem newChunk_keeps {pq : List Instr} {s : State} {q : QId} {l : List Chunk} {i : Nat} {cells : List Cell} (hq : Keeps pq s) :
    Keeps pq (newChunk s q l i cells).1 := by
  unfold newChunk
  try dsimp only
  with_reducible repeat' (
    first
    | assumption | refine keeps_fst ?_ (by assumption) | refine State.count_keeps ?_
    | refine linkChunk_keeps ?_ | refine poolWrite_keeps ?_ | split | intro _ | refine keeps_mk ?_)

theorem spillTail_keeps {pq : List Instr} {s : State} {q : QId} (hq : Keeps pq s) :
    Keeps pq (spillTail s q).1 := by
  unfold spillTail
  try dsimp only
  with_reducible repeat' (
    first
    | assumption | refine keeps_fst ?_ (by assumption) | refine State.setQueue_keeps ?_
    | refine newChunk_keeps ?_ | split | intro _ | refine keeps_mk ?_)

theorem spillAll_keeps {pq : List Instr} {q : QId} {x0 : Nat} {x1 : State} (hq : Keeps pq x1) :
    Keeps pq (spillAll q x0 x1).1 := by
  induction x0 generalizing x1 with
  | zero => simp only [spillAll]; exact hq
  | succ n ih =>
    unfold spillAll
    try dsimp only
    with_reducible repeat' (
      first
      | assumption | refine keeps_fst ?_ (by assumption) | refine ih ?_ | refine spillTail_keeps ?_ | split
      | intro _ | refine keeps_mk ?_)

theorem qFlow_keeps {pq : List Instr} {q : QId} {x0 : Nat} {x1 : State} (hq : Keeps pq x1) :
    Keeps pq (qFlow q x0 x1) := by
  induction x0 generalizing x1 with
  | zero => simp only [qFlow]; exact hq
  | succ n ih =>
    unfold qFlow
    try dsimp only
    with_reducible repeat' (
      first
      | assumption | refine keeps_fst ?_ (by assumption) | refine ih ?_ | refine State.setQueue_keeps ?_
      | refine spillTail_keeps ?_ | split | intro _ | refine keeps_mk ?_)

theorem qSettle_keeps {pq : List Instr} {s : State} {q : QId} (hq : Keeps pq s) :
    Keeps pq (qSettle s q) := by
  unfold qSettle
  try dsimp only
  with_reducible repeat' (
    first
    | assumption | refine keeps_fst ?_ (by assumption) | refine qFlow_keeps ?_ | split | intro _
    | refine keeps_mk ?_)

theorem linkVis_keeps {pq : List Instr} {s : State} {q : QId} {i : Nat} (hq : Keeps pq s) :
    Keeps pq (linkVis s q i).1 := by
  unfold linkVis
  try dsimp only
  with_reducible repeat' (
    first
    | assumption | refine keeps_fst ?_ (by assumption) | refine linkChunk_keeps ?_ | refine spillAll_keeps ?_
    | split | intro _ | refine keeps_mk ?_)

theorem joinPacket_keeps {pq : List Instr} {s : State} {q : QId} {h : HeldKey} (hq : Keeps pq s) :
    Keeps pq (joinPacket s q h) := by
  unfold joinPacket
  try dsimp only
  with_reducible repeat' (
    first
    | assumption | refine keeps_fst ?_ (by assumption) | refine State.count_keeps ?_
    | refine State.setQueue_keeps ?_ | refine linkVis_keeps ?_ | refine qArrived_keeps ?_
    | refine qMarks_keeps ?_ | refine qSettle_keeps ?_ | split | intro _ | refine keeps_mk ?_)

theorem drainReady_keeps {pq : List Instr} {q : QId} {x0 : Nat} {x1 : State} (hq : Keeps pq x1) :
    Keeps pq (drainReady q x0 x1) := by
  induction x0 generalizing x1 with
  | zero => simp only [drainReady]; exact hq
  | succ n ih =>
    unfold drainReady
    try dsimp only
    with_reducible repeat' (
      first
      | assumption | refine keeps_fst ?_ (by assumption) | refine ih ?_ | refine joinPacket_keeps ?_ | split
      | intro _ | refine keeps_mk ?_)

theorem qDrain_keeps {pq : List Instr} {s : State} {q : QId} (hq : Keeps pq s) :
    Keeps pq (qDrain s q) := by
  unfold qDrain
  try dsimp only
  with_reducible repeat' (
    first
    | assumption | refine keeps_fst ?_ (by assumption) | refine drainReady_keeps ?_ | split | intro _
    | refine keeps_mk ?_)

theorem joinCell_keeps {pq : List Instr} {s : State} {q : QId} {c : Cell} (hq : Keeps pq s) :
    Keeps pq (joinCell s q c) := by
  unfold joinCell
  try dsimp only
  with_reducible repeat' (
    first
    | assumption | refine keeps_fst ?_ (by assumption) | refine State.count_keeps ?_
    | refine State.setQueue_keeps ?_ | refine qArrived_keeps ?_ | refine qDrain_keeps ?_
    | refine qMarks_keeps ?_ | refine qSettle_keeps ?_ | split | intro _ | refine keeps_mk ?_)

theorem growChunk_keeps {pq : List Instr} {s : State} {q : QId} {c : Chunk} {x : Cell} (hq : Keeps pq s) :
    Keeps pq (growChunk s q c x).1 := by
  unfold growChunk
  try dsimp only
  with_reducible repeat' (
    first
    | assumption | refine keeps_fst ?_ (by assumption) | refine poolWrite_keeps ?_ | split | intro _
    | refine keeps_mk ?_)

theorem holdCell_keeps {pq : List Instr} {s : State} {q : QId} {key : Key} {c : Cell} (hq : Keeps pq s) :
    Keeps pq (holdCell s q key c).1 := by
  unfold holdCell
  try dsimp only
  with_reducible repeat' (
    first
    | assumption | refine keeps_fst ?_ (by assumption) | refine State.setQueue_keeps ?_
    | refine growChunk_keeps ?_ | refine newChunk_keeps ?_ | split | intro _ | refine keeps_mk ?_)

theorem makeReady_keeps {pq : List Instr} {s : State} {q : QId} {key : Key} (hq : Keeps pq s) :
    Keeps pq (makeReady s q key) := by
  unfold makeReady
  try dsimp only
  with_reducible repeat' (
    first
    | assumption | refine keeps_fst ?_ (by assumption) | refine State.setQueue_keeps ?_
    | refine qDrain_keeps ?_ | split | intro _ | refine keeps_mk ?_)

theorem acceptedCell_keeps {pq : List Instr} {s : State} {q : QId} {c : Cell} (hq : Keeps pq s) :
    Keeps pq (acceptedCell s q c) := by
  unfold acceptedCell
  try dsimp only
  with_reducible repeat' (
    first
    | assumption | refine keeps_fst ?_ (by assumption) | refine State.count_keeps ?_
    | refine monitorToken_keeps ?_ | split | intro _ | refine keeps_mk ?_)

theorem acceptCell_keeps {pq : List Instr} {s : State} {q : QId} {c : Cell} (hq : Keeps pq s) :
    Keeps pq (acceptCell s q c).1 := by
  unfold acceptCell
  try dsimp only
  with_reducible repeat' (
    first
    | assumption | refine keeps_fst ?_ (by assumption) | refine State.setQueue_keeps ?_
    | refine acceptedCell_keeps ?_ | refine holdCell_keeps ?_ | refine joinCell_keeps ?_
    | refine makeReady_keeps ?_ | refine qCheck_keeps ?_ | refine qEv_keeps ?_ | split | intro _
    | refine keeps_mk ?_)

theorem applyMarker_keeps {pq : List Instr} {s : State} {q : QId} {c : Cell} (hq : Keeps pq s) :
    Keeps pq (applyMarker s q c) := by
  unfold applyMarker
  try dsimp only
  with_reducible repeat' (
    first
    | assumption | refine keeps_fst ?_ (by assumption) | refine State.setQueue_keeps ?_
    | refine makeReady_keeps ?_ | refine qCheck_keeps ?_ | refine qEv_keeps ?_ | refine qMarks_keeps ?_
    | split | intro _ | refine keeps_mk ?_)

theorem qOffer_keeps {pq : List Instr} {s : State} {q : QId} {job : Option Nat} {c : Cell} (hq : Keeps pq s) :
    Keeps pq (qOffer s q job c).1 := by
  unfold qOffer
  try dsimp only
  with_reducible repeat' (
    first
    | assumption | refine keeps_fst ?_ (by assumption) | refine State.count_keeps ?_
    | refine acceptCell_keeps ?_ | refine applyMarker_keeps ?_ | refine qEv_keeps ?_ | split | intro _
    | refine keeps_mk ?_)

theorem qRefill_keeps {pq : List Instr} {s : State} {q : QId} (hq : Keeps pq s) :
    Keeps pq (qRefill s q) := by
  unfold qRefill
  try dsimp only
  with_reducible repeat' (
    first
    | assumption | refine keeps_fst ?_ (by assumption) | refine State.setQueue_keeps ?_
    | refine poolRead_keeps ?_ | refine qCheck_keeps ?_ | refine qReset_keeps ?_ | refine qSettle_keeps ?_
    | split | intro _ | refine keeps_mk ?_)

theorem takeHead_keeps {pq : List Instr} {s : State} {q : QId} (hq : Keeps pq s) :
    Keeps pq (takeHead s q).1 := by
  unfold takeHead
  try dsimp only
  with_reducible repeat' (
    first
    | assumption | refine keeps_fst ?_ (by assumption) | refine State.setQueue_keeps ?_
    | refine qRefill_keeps ?_ | refine qSettle_keeps ?_ | split | intro _ | refine keeps_mk ?_)

theorem popCell_keeps {pq : List Instr} {s : State} {q : QId} (hq : Keeps pq s) :
    Keeps pq (popCell s q).1 := by
  unfold popCell
  try dsimp only
  with_reducible repeat' (
    first
    | assumption | refine keeps_fst ?_ (by assumption) | refine State.count_keeps ?_
    | refine State.setQueue_keeps ?_ | refine qCheck_keeps ?_ | refine qMarks_keeps ?_
    | refine takeHead_keeps ?_ | split | intro _ | refine keeps_mk ?_)

theorem qDrop_keeps {pq : List Instr} {s : State} {q : QId} (hq : Keeps pq s) :
    Keeps pq (qDrop s q) := by
  unfold qDrop
  try dsimp only
  with_reducible repeat' (
    first
    | assumption | refine keeps_fst ?_ (by assumption) | refine State.count_keeps ?_
    | refine State.setQueue_keeps ?_ | refine qCheck_keeps ?_ | refine qMarks_keeps ?_
    | refine qSettle_keeps ?_ | split | intro _ | refine keeps_mk ?_)

end Sys2Proof.Machine
end

