-- ==== Sys2Proof/Laws/KeepsMemCmds.lean ====
section
/-!
SUPPORT. The operations of MemCmds keep the waiting commands and the canonical memories.
-/

-- The declarations of this file are elaborated in turn, so that checking the package as one text needs few threads.
set_option Elab.async false

namespace Sys2Proof.Machine

theorem memAnswer_keeps {pq : List Instr} {s : State} {g : CtrlId} {r : MemReq} {code : Nat} {data : List Byte} (hq : Keeps pq s) :
    Keeps pq (memAnswer s g r code data) := by
  unfold memAnswer
  try dsimp only
  with_reducible repeat' (
    first
    | assumption | refine keeps_fst ?_ (by assumption) | refine State.setCtrl_keeps ?_
    | refine qReset_keeps ?_ | split | intro _ | refine keeps_mk ?_)

theorem memAdmit_keeps {pq : List Instr} {s : State} {r : MemReq} (hq : Keeps pq s) :
    Keeps pq (memAdmit s r).1 := by
  unfold memAdmit
  try dsimp only
  with_reducible repeat' (
    first
    | assumption | refine keeps_fst ?_ (by assumption) | refine memCheck_keeps ?_ | split | intro _
    | refine keeps_mk ?_)

theorem memRequest_keeps {pq : List Instr} {s : State} {g : CtrlId} {r : MemReq} (hq : Keeps pq s) :
    Keeps pq (memRequest s g r) := by
  unfold memRequest
  try dsimp only
  with_reducible repeat' (
    first
    | assumption | refine keeps_fst ?_ (by assumption) | refine State.failStep_keeps ?_
    | refine State.setCtrl_keeps ?_ | refine memAdmit_keeps ?_ | refine memAnswer_keeps ?_ | split | intro _
    | refine keeps_mk ?_)

theorem memComplete_keeps {pq : List Instr} {s : State} {g : CtrlId} {crc odecc i : Nat} (hq : Keeps pq s) :
    Keeps pq (memComplete s g crc odecc i) := by
  unfold memComplete
  try dsimp only
  with_reducible repeat' (
    first
    | assumption | refine keeps_fst ?_ (by assumption) | refine State.setCtrl_keeps ?_
    | refine gddrNow_keeps ?_ | refine memAnswer_keeps ?_ | refine strikeCrc_keeps ?_
    | refine strikeOnDie_keeps ?_ | refine trainFailed_keeps ?_ | split | intro _ | refine keeps_mk ?_)

theorem execMemRequest_keeps {pq : List Instr} {g : CtrlId} {a : Asker} {job : JobId} {addr len : Nat} {data : Option (List Byte)} {us : List Upset} {s : State} {t' : State} (hq : Keeps pq s)
    (he : execMemRequest g a job addr len data us s = .next t') : Keeps pq t' := by
  unfold execMemRequest at he
  injection he with he
  rw [← he]
  try dsimp only
  with_reducible repeat' (
    first
    | assumption | refine keeps_fst ?_ (by assumption) | refine State.live_keeps ?_ ?_ 
    | refine memRequest_keeps ?_ | refine strike_keeps ?_ | split | intro _ | refine keeps_mk ?_)

theorem execMemRequestComplete_keeps {pq : List Instr} {g : CtrlId} {crc odecc : Nat} {us : List Upset} {s : State} {i : Nat} {t' : State} (hq : Keeps pq s)
    (he : execMemRequestComplete g crc odecc us s i = .next t') : Keeps pq t' := by
  unfold execMemRequestComplete at he
  injection he with he
  rw [← he]
  try dsimp only
  with_reducible repeat' (
    first
    | assumption | refine keeps_fst ?_ (by assumption) | refine State.live_keeps ?_ ?_ 
    | refine memComplete_keeps ?_ | refine strike_keeps ?_ | split | intro _ | refine keeps_mk ?_)

theorem failHeld_keeps {pq : List Instr} {s : State} {g : CtrlId} (hq : Keeps pq s) :
    Keeps pq (failHeld s g) := by
  unfold failHeld
  try dsimp only
  with_reducible repeat' (
    first
    | assumption | refine keeps_fst ?_ (by assumption) | refine keeps_foldl ?_ ?_
    | refine keeps_foldl_pair ?_ ?_ | refine State.failStep_keeps ?_ | refine State.setCtrl_keeps ?_
    | refine memAnswer_keeps ?_ | split | intro _ | refine keeps_mk ?_)

theorem retrain_keeps {pq : List Instr} {s : State} {g : CtrlId} {ok : Bool} (hq : Keeps pq s) :
    Keeps pq (retrain s g ok) := by
  unfold retrain
  try dsimp only
  with_reducible repeat' (
    first
    | assumption | refine keeps_fst ?_ (by assumption) | refine State.raiseIf_keeps ?_
    | refine State.setCtrl_keeps ?_ | refine failHeld_keeps ?_ | split | intro _ | refine keeps_mk ?_)

theorem scrubRead_keeps {pq : List Instr} {s : State} {g : CtrlId} (hq : Keeps pq s) :
    Keeps pq (scrubRead s g) := by
  unfold scrubRead
  try dsimp only
  with_reducible repeat' (
    first
    | assumption | refine keeps_fst ?_ (by assumption) | refine State.setCtrl_keeps ?_
    | refine gddrCrc_keeps ?_ | refine marksRead_keeps ?_ | split | intro _ | refine keeps_mk ?_)

theorem selfRefresh_keeps {pq : List Instr} {s : State} {g : CtrlId} {by_ : Sender} {on : Bool} (hq : Keeps pq s) :
    Keeps pq (selfRefresh s g by_ on) := by
  unfold selfRefresh
  try dsimp only
  with_reducible repeat' (
    first
    | assumption | refine keeps_fst ?_ (by assumption) | refine State.setCtrl_keeps ?_
    | refine State.wr_keeps ?_ | split | intro _ | refine keeps_mk ?_)

theorem execGddr7Retrain_keeps {pq : List Instr} {g : CtrlId} {ok : Bool} {s : State} {t' : State} (hq : Keeps pq s)
    (he : execGddr7Retrain g ok s = .next t') : Keeps pq t' := by
  unfold execGddr7Retrain at he
  injection he with he
  rw [← he]
  try dsimp only
  with_reducible repeat' (
    first
    | assumption | refine keeps_fst ?_ (by assumption) | refine retrain_keeps ?_ | split | intro _
    | refine keeps_mk ?_)

theorem execScrubRead_keeps {pq : List Instr} {g : CtrlId} {us : List Upset} {s : State} {t' : State} (hq : Keeps pq s)
    (he : execScrubRead g us s = .next t') : Keeps pq t' := by
  unfold execScrubRead at he
  injection he with he
  rw [← he]
  try dsimp only
  with_reducible repeat' (
    first
    | assumption | refine keeps_fst ?_ (by assumption) | refine scrubRead_keeps ?_ | refine strike_keeps ?_
    | split | intro _ | refine keeps_mk ?_)

theorem execGddr7SelfRefresh_keeps {pq : List Instr} {g : CtrlId} {by_ : Sender} {on : Bool} {s : State} {t' : State} (hq : Keeps pq s)
    (he : execGddr7SelfRefresh g by_ on s = .next t') : Keeps pq t' := by
  unfold execGddr7SelfRefresh at he
  injection he with he
  rw [← he]
  try dsimp only
  with_reducible repeat' (
    first
    | assumption | refine keeps_fst ?_ (by assumption) | refine keeps_snd ?_ (by assumption)
    | refine selfRefresh_keeps ?_ | split | intro _ | refine keeps_mk ?_)

theorem cxlFailed_keeps {pq : List Instr} {s : State} {p : PortId} {r : CxlReq} (hq : Keeps pq s) :
    Keeps pq (cxlFailed s p r) := by
  unfold cxlFailed
  try dsimp only
  with_reducible repeat' (
    first
    | assumption | refine keeps_fst ?_ (by assumption) | refine State.wr_keeps ?_ | refine dmaTier_keeps ?_
    | split | intro _ | refine keeps_mk ?_)

theorem cxlDrop_keeps {pq : List Instr} {s : State} {p : PortId} {devB : Bool} (hq : Keeps pq s) :
    Keeps pq (cxlDrop s p devB) := by
  unfold cxlDrop
  try dsimp only
  with_reducible repeat' (
    first
    | assumption | refine keeps_fst ?_ (by assumption) | refine keeps_foldl ?_ ?_
    | refine keeps_foldl_pair ?_ ?_ | refine State.failStep_keeps ?_ | refine State.setCxl_keeps ?_
    | refine cxlFailed_keeps ?_ | split | intro _ | refine keeps_mk ?_)

theorem cxlDown_keeps {pq : List Instr} {s : State} {p : PortId} {devB : Bool} (hq : Keeps pq s) :
    Keeps pq (cxlDown s p devB) := by
  unfold cxlDown
  try dsimp only
  with_reducible repeat' (
    first
    | assumption | refine keeps_fst ?_ (by assumption) | refine State.raiseIf_keeps ?_
    | refine State.setCxl_keeps ?_ | refine cxlDrop_keeps ?_ | split | intro _ | refine keeps_mk ?_)

theorem cxlPins_keeps {pq : List Instr} {s : State} {p : PortId} {a b : Bool} (hq : Keeps pq s) :
    Keeps pq (cxlPins s p a b) := by
  unfold cxlPins
  try dsimp only
  with_reducible repeat' (
    first
    | assumption | refine keeps_fst ?_ (by assumption) | split | intro _ | refine keeps_mk ?_)

theorem cxlRelease_keeps {pq : List Instr} {s : State} {p : PortId} (hq : Keeps pq s) :
    Keeps pq (cxlRelease s p) := by
  unfold cxlRelease
  try dsimp only
  with_reducible repeat' (
    first
    | assumption | refine keeps_fst ?_ (by assumption) | refine cxlPins_keeps ?_ | split | intro _
    | refine keeps_mk ?_)

theorem cxlEnable_keeps {pq : List Instr} {s : State} {p : PortId} {en : Bool} (hq : Keeps pq s) :
    Keeps pq (cxlEnable s p en) := by
  unfold cxlEnable
  try dsimp only
  with_reducible repeat' (
    first
    | assumption | refine keeps_fst ?_ (by assumption) | refine State.setCxl_keeps ?_
    | refine State.wr_keeps ?_ | refine cxlDown_keeps ?_ | refine cxlPins_keeps ?_
    | refine cxlRelease_keeps ?_ | split | intro _ | refine keeps_mk ?_)

theorem ilvSettle_keeps {pq : List Instr} {s : State} (hq : Keeps pq s) :
    Keeps pq (ilvSettle s) := by
  unfold ilvSettle
  try dsimp only
  with_reducible repeat' (
    first
    | assumption | refine keeps_fst ?_ (by assumption) | refine State.wr_keeps ?_ | split | intro _
    | refine keeps_mk ?_)

theorem cxlDevice_keeps {pq : List Instr} {s : State} {p : PortId} {devB : Bool} {range : Option Nat} (hq : Keeps pq s) :
    Keeps pq (cxlDevice s p devB range) := by
  unfold cxlDevice
  try dsimp only
  with_reducible repeat' (
    first
    | assumption | refine keeps_fst ?_ (by assumption) | refine State.raise_keeps ?_
    | refine State.setCxl_keeps ?_ | refine State.wr_keeps ?_ | split | intro _ | refine keeps_mk ?_)

theorem cxlEnumerated_keeps {pq : List Instr} {s : State} {p : PortId} {a b : Option Nat} (hq : Keeps pq s) :
    Keeps pq (cxlEnumerated s p a b) := by
  unfold cxlEnumerated
  try dsimp only
  with_reducible repeat' (
    first
    | assumption | refine keeps_fst ?_ (by assumption) | refine State.setCxl_keeps ?_
    | refine cxlDevice_keeps ?_ | refine ilvSettle_keeps ?_ | split | intro _ | refine keeps_mk ?_)

theorem cxlRespond_keeps {pq : List Instr} {s : State} {p : PortId} {i : Nat} {poison : Bool} (h : Keeps pq s) :
    Keeps pq (cxlRespond s p i poison) := by
  unfold cxlRespond
  dsimp only
  split
  · exact h
  · have h1 (k : Cxl) : Keeps pq (s.setCxl p k) := State.setCxl_keeps h
    split
    · exact State.raiseIf_keeps (cxlFailed_keeps (State.count_keeps (h1 _)))
    · have hd (x : State × List Byte) (r : CxlReq) (hx : Keeps pq x.1) :
          Keeps pq (match r.owner with
            | none => x.1
            | some (c, ch, seq, off) => dmaTier x.1 c ch seq off 0 r.len x.2 (tierAddr r.t)) := by
        split
        · exact hx
        · exact dmaTier_keeps hx
      refine hd _ _ ?_
      split
      · exact State.count_keeps (keeps_tier (h1 _) (memory_write_wf _ _ _ (h1 _).2.2.1))
      · exact State.count_keeps (h1 _)

theorem cxlTimeout_keeps {pq : List Instr} {s : State} {p : PortId} {i : Nat} (hq : Keeps pq s) :
    Keeps pq (cxlTimeout s p i) := by
  unfold cxlTimeout
  try dsimp only
  with_reducible repeat' (
    first
    | assumption | refine keeps_fst ?_ (by assumption) | refine State.raiseIf_keeps ?_
    | refine State.setCxl_keeps ?_ | refine cxlFailed_keeps ?_ | split | intro _ | refine keeps_mk ?_)

theorem cxlConfig_keeps {pq : List Instr} {s : State} {p : PortId} {write : Option (BitVec 32)} {reply : BitVec 32} (hq : Keeps pq s) :
    Keeps pq (cxlConfig s p write reply) := by
  unfold cxlConfig
  try dsimp only
  with_reducible repeat' (
    first
    | assumption | refine keeps_fst ?_ (by assumption) | split | intro _ | refine keeps_mk ?_)

theorem execCxlPortEn_keeps {pq : List Instr} {p : PortId} {en : Bool} {s : State} {t' : State} (hq : Keeps pq s)
    (he : execCxlPortEn p en s = .next t') : Keeps pq t' := by
  unfold execCxlPortEn at he
  injection he with he
  rw [← he]
  try dsimp only
  with_reducible repeat' (
    first
    | assumption | refine keeps_fst ?_ (by assumption) | refine State.ifOn_keeps ?_ ?_ 
    | refine cxlEnable_keeps ?_ | split | intro _ | refine keeps_mk ?_)

theorem execCxlEnumComplete_keeps {pq : List Instr} {p : PortId} {a b : Option Nat} {s : State} {t' : State} (hq : Keeps pq s)
    (he : execCxlEnumComplete p a b s = .next t') : Keeps pq t' := by
  unfold execCxlEnumComplete at he
  injection he with he
  rw [← he]
  try dsimp only
  with_reducible repeat' (
    first
    | assumption | refine keeps_fst ?_ (by assumption) | refine State.live_keeps ?_ ?_ 
    | refine cxlEnumerated_keeps ?_ | split | intro _ | refine keeps_mk ?_)

theorem execCxlResponse_keeps {pq : List Instr} {p : PortId} {i : Nat} {poison : Bool} {s : State} {t' : State} (hq : Keeps pq s)
    (he : execCxlResponse p i poison s = .next t') : Keeps pq t' := by
  unfold execCxlResponse at he
  injection he with he
  rw [← he]
  try dsimp only
  with_reducible repeat' (
    first
    | assumption | refine keeps_fst ?_ (by assumption) | refine State.live_keeps ?_ ?_ 
    | refine cxlRespond_keeps ?_ | split | intro _ | refine keeps_mk ?_)

theorem execCxlTimeoutExpiry_keeps {pq : List Instr} {p : PortId} {i : Nat} {s : State} {t' : State} (hq : Keeps pq s)
    (he : execCxlTimeoutExpiry p i s = .next t') : Keeps pq t' := by
  unfold execCxlTimeoutExpiry at he
  injection he with he
  rw [← he]
  try dsimp only
  with_reducible repeat' (
    first
    | assumption | refine keeps_fst ?_ (by assumption) | refine State.live_keeps ?_ ?_ 
    | refine cxlTimeout_keeps ?_ | split | intro _ | refine keeps_mk ?_)

theorem execCxlLinkLoss_keeps {pq : List Instr} {p : PortId} {devB : Bool} {s : State} {t' : State} (hq : Keeps pq s)
    (he : execCxlLinkLoss p devB s = .next t') : Keeps pq t' := by
  unfold execCxlLinkLoss at he
  injection he with he
  rw [← he]
  try dsimp only
  with_reducible repeat' (
    first
    | assumption | refine keeps_fst ?_ (by assumption) | refine State.live_keeps ?_ ?_ 
    | refine cxlDown_keeps ?_ | split | intro _ | refine keeps_mk ?_)

theorem execCxlCfgDataAccess_keeps {pq : List Instr} {p : PortId} {write : Option (BitVec 32)} {reply : BitVec 32} {s : State} {t' : State} (hq : Keeps pq s)
    (he : execCxlCfgDataAccess p write reply s = .next t') : Keeps pq t' := by
  unfold execCxlCfgDataAccess at he
  injection he with he
  rw [← he]
  try dsimp only
  with_reducible repeat' (
    first
    | assumption | refine keeps_fst ?_ (by assumption) | refine State.ifOn_keeps ?_ ?_ 
    | refine cxlConfig_keeps ?_ | split | intro _ | refine keeps_mk ?_)

theorem tierCount_keeps {pq : List Instr} {s : State} {t len reg : Nat} (hq : Keeps pq s) :
    Keeps pq (tierCount s t len reg) := by
  unfold tierCount
  try dsimp only
  with_reducible repeat' (
    first
    | assumption | refine keeps_fst ?_ (by assumption) | refine keeps_foldl ?_ ?_
    | refine keeps_foldl_pair ?_ ?_ | refine State.count_keeps ?_ | split | intro _ | refine keeps_mk ?_)

theorem tierDo_keeps {pq : List Instr} {s : State} {job : Option Nat} {t len : Nat} {data : Option (List Byte)}
    {err : Option CxlErr} (h : Keeps pq s) : Keeps pq (tierDo s job t len data err).1 := by
  unfold tierDo
  dsimp only
  split
  · exact h
  · split
    · exact State.raiseIf_keeps (State.wr_keeps (State.count_keeps h))
    · exact State.raiseIf_keeps (State.wr_keeps h)
    · split
      · exact tierCount_keeps (keeps_tier h (memory_write_wf _ _ _ h.2.2.1))
      · exact tierCount_keeps h

end Sys2Proof.Machine
end

