-- ==== Sys2Proof/Laws/KeepsQueueOps.lean ====
section
/-!
SUPPORT. The operations of QueueOps keep the waiting commands and the canonical memories.
-/

-- The declarations of this file are elaborated in turn, so that checking the package as one text needs few threads.
set_option Elab.async false

namespace Sys2Proof.Machine

theorem qopFinish_keeps {pq : List Instr} {s : State} {c : CoreId} {e : Entry} (hq : Keeps pq s) :
    Keeps pq (qopFinish s c e) := by
  unfold qopFinish
  try dsimp only
  with_reducible repeat' (
    first
    | assumption | refine keeps_fst ?_ (by assumption) | refine State.setUnit_keeps ?_
    | refine setGuard_keeps ?_ | refine wake_keeps ?_ | split | intro _ | refine keeps_mk ?_)

theorem qopStart_keeps {pq : List Instr} {s : State} {c : CoreId} {e : Entry} {rest : List Entry} (hq : Keeps pq s) :
    Keeps pq (qopStart s c e rest) := by
  unfold qopStart
  try dsimp only
  with_reducible repeat' (
    first
    | assumption | refine keeps_fst ?_ (by assumption) | refine State.setUnit_keeps ?_
    | refine faultHaltEv_keeps ?_ | refine popHead_keeps ?_ | refine qEv_keeps ?_ | refine qopFinish_keeps ?_
    | split | intro _ | refine keeps_mk ?_)

theorem pushEnd_keeps {pq : List Instr} {s : State} {c : CoreId} {e : Entry} {done : Nat} (hq : Keeps pq s) :
    Keeps pq (pushEnd s c e done) := by
  unfold pushEnd
  try dsimp only
  with_reducible repeat' (
    first
    | assumption | refine keeps_fst ?_ (by assumption) | refine qopFinish_keeps ?_ | split | intro _
    | refine keeps_mk ?_)

theorem pushCell_keeps {pq : List Instr} {s : State} {c : CoreId} (hq : Keeps pq s) :
    Keeps pq (pushCell s c) := by
  unfold pushCell
  try dsimp only
  with_reducible repeat' (
    first
    | assumption | refine keeps_fst ?_ (by assumption) | refine State.setUnit_keeps ?_
    | refine pushEnd_keeps ?_ | refine qOffer_keeps ?_ | refine spReadAny_keeps ?_ | split | intro _
    | refine keeps_mk ?_)

theorem pushCells_keeps {pq : List Instr} {c : CoreId} {x0 : Nat} {x1 : State} (hq : Keeps pq x1) :
    Keeps pq (pushCells c x0 x1) := by
  induction x0 generalizing x1 with
  | zero => simp only [pushCells]; exact hq
  | succ n ih =>
    unfold pushCells
    try dsimp only
    with_reducible repeat' (
      first
      | assumption | refine keeps_fst ?_ (by assumption) | refine ih ?_ | refine pushCell_keeps ?_ | split
      | intro _ | refine keeps_mk ?_)

theorem popCells_keeps {pq : List Instr} {q : QId} {c : CoreId} {off : Nat} {x0 : Nat} {x1 : Nat} {x2 : State} (hq : Keeps pq x2) :
    Keeps pq (popCells q c off x0 x1 x2).1 := by
  induction x0 generalizing x1 x2 with
  | zero => simp only [popCells]; exact hq
  | succ n ih =>
    unfold popCells
    try dsimp only
    with_reducible repeat' (
      first
      | assumption | refine keeps_fst ?_ (by assumption) | refine ih ?_ | refine popCell_keeps ?_
      | refine spWriteAny_keeps ?_ | split | intro _ | refine keeps_mk ?_)

theorem qopEffect_keeps {pq : List Instr} {s : State} {c : CoreId} {e : Entry} (hq : Keeps pq s) :
    Keeps pq (qopEffect s c e) := by
  unfold qopEffect
  try dsimp only
  with_reducible repeat' (
    first
    | assumption | refine keeps_fst ?_ (by assumption) | refine State.setCore_keeps ?_
    | refine popCells_keeps ?_ | refine qDrop_keeps ?_ | refine qEv_keeps ?_ | refine qOffer_keeps ?_
    | refine qopFinish_keeps ?_ | split | intro _ | refine keeps_mk ?_)

theorem dispStart_keeps {pq : List Instr} {s : State} {c : CoreId} {e : Entry} {rest : List Entry} (hq : Keeps pq s) :
    Keeps pq (dispStart s c e rest) := by
  unfold dispStart
  try dsimp only
  with_reducible repeat' (
    first
    | assumption | refine keeps_fst ?_ (by assumption) | refine State.setDu_keeps ?_
    | refine State.setUnit_keeps ?_ | refine popHead_keeps ?_ | split | intro _ | refine keeps_mk ?_)

theorem fabStart_keeps {pq : List Instr} {s : State} {c : CoreId} (hq : Keeps pq s) :
    Keeps pq (fabStart s c) := by
  unfold fabStart
  try dsimp only
  with_reducible repeat' (
    first
    | assumption | refine keeps_fst ?_ (by assumption) | refine dispStart_keeps ?_ | refine qopStart_keeps ?_
    | split | intro _ | refine keeps_mk ?_)

theorem fabComplete_keeps {pq : List Instr} {s : State} {c : CoreId} (hq : Keeps pq s) :
    Keeps pq (fabComplete s c) := by
  unfold fabComplete
  try dsimp only
  with_reducible repeat' (
    first
    | assumption | refine keeps_fst ?_ (by assumption) | refine pushEnd_keeps ?_ | refine qopEffect_keeps ?_
    | refine slotSync_keeps ?_ | split | intro _ | refine keeps_mk ?_)

theorem qopIssue_keeps {pq : List Instr} {c : CoreId} {now : Bool} {us : List Upset} {o : Op} {s : State} (hq : Keeps pq s) :
    Keeps pq (qopIssue c now us o s) := by
  unfold qopIssue
  try dsimp only
  with_reducible repeat' (
    first
    | assumption | refine keeps_fst ?_ (by assumption) | refine keeps_snd ?_ (by assumption)
    | refine State.now_keeps ?_ | refine fabComplete_keeps ?_ | refine fabStart_keeps ?_
    | refine issueTo_keeps ?_ | refine pushCells_keeps ?_ | split | intro _ | refine keeps_mk ?_)

theorem execQopPush_keeps {pq : List Instr} {c : CoreId} {now : Bool} {us : List Upset} {s : State} {t' : State} (hq : Keeps pq s)
    (he : execQopPush c now us s = .next t') : Keeps pq t' := by
  unfold execQopPush at he
  injection he with he
  rw [← he]
  try dsimp only
  with_reducible repeat' (
    first
    | assumption | refine keeps_fst ?_ (by assumption) | refine keeps_snd ?_ (by assumption)
    | refine State.now_keeps ?_ | refine qopIssue_keeps ?_ | split | intro _ | refine keeps_mk ?_)

theorem execQopPop_keeps {pq : List Instr} {c : CoreId} {now : Bool} {us : List Upset} {s : State} {t' : State} (hq : Keeps pq s)
    (he : execQopPop c now us s = .next t') : Keeps pq t' := by
  unfold execQopPop at he
  injection he with he
  rw [← he]
  try dsimp only
  with_reducible repeat' (
    first
    | assumption | refine keeps_fst ?_ (by assumption) | refine keeps_snd ?_ (by assumption)
    | refine State.now_keeps ?_ | refine qopIssue_keeps ?_ | split | intro _ | refine keeps_mk ?_)

theorem execQopDrop_keeps {pq : List Instr} {c : CoreId} {now : Bool} {us : List Upset} {s : State} {t' : State} (hq : Keeps pq s)
    (he : execQopDrop c now us s = .next t') : Keeps pq t' := by
  unfold execQopDrop at he
  injection he with he
  rw [← he]
  try dsimp only
  with_reducible repeat' (
    first
    | assumption | refine keeps_fst ?_ (by assumption) | refine keeps_snd ?_ (by assumption)
    | refine State.now_keeps ?_ | refine qopIssue_keeps ?_ | split | intro _ | refine keeps_mk ?_)

theorem execQopStat_keeps {pq : List Instr} {c : CoreId} {now : Bool} {us : List Upset} {s : State} {t' : State} (hq : Keeps pq s)
    (he : execQopStat c now us s = .next t') : Keeps pq t' := by
  unfold execQopStat at he
  injection he with he
  rw [← he]
  try dsimp only
  with_reducible repeat' (
    first
    | assumption | refine keeps_fst ?_ (by assumption) | refine keeps_snd ?_ (by assumption)
    | refine State.now_keeps ?_ | refine qopIssue_keeps ?_ | split | intro _ | refine keeps_mk ?_)

theorem execQopCommit_keeps {pq : List Instr} {c : CoreId} {now : Bool} {us : List Upset} {s : State} {t' : State} (hq : Keeps pq s)
    (he : execQopCommit c now us s = .next t') : Keeps pq t' := by
  unfold execQopCommit at he
  injection he with he
  rw [← he]
  try dsimp only
  with_reducible repeat' (
    first
    | assumption | refine keeps_fst ?_ (by assumption) | refine keeps_snd ?_ (by assumption)
    | refine State.now_keeps ?_ | refine qopIssue_keeps ?_ | split | intro _ | refine keeps_mk ?_)

theorem execQopCancel_keeps {pq : List Instr} {c : CoreId} {now : Bool} {us : List Upset} {s : State} {t' : State} (hq : Keeps pq s)
    (he : execQopCancel c now us s = .next t') : Keeps pq t' := by
  unfold execQopCancel at he
  injection he with he
  rw [← he]
  try dsimp only
  with_reducible repeat' (
    first
    | assumption | refine keeps_fst ?_ (by assumption) | refine keeps_snd ?_ (by assumption)
    | refine State.now_keeps ?_ | refine qopIssue_keeps ?_ | split | intro _ | refine keeps_mk ?_)

theorem returnCredit_keeps {pq : List Instr} {s : State} {l : LinkId} {vc job units : Nat} {pooled : Bool} (hq : Keeps pq s) :
    Keeps pq (returnCredit s l vc job units pooled) := by
  unfold returnCredit
  try dsimp only
  with_reducible repeat' (
    first
    | assumption | refine keeps_fst ?_ (by assumption) | refine State.setLink_keeps ?_ | split | intro _
    | refine keeps_mk ?_)

theorem offerOne_keeps {pq : List Instr} {s : State} {q : QId} {o : Offer} {marker : Bool} (h : Keeps pq s) :
    Keeps pq (offerOne s q o marker) := by
  have ht : ∀ cell job took, offered s q o = some (cell, job, took) → ∀ s, Keeps pq s → Keeps pq (took s) := by
    intro cell job took e s hs
    unfold offered at e
    dsimp only at e
    split at e
    · cases e
    · split at e
      · split at e
        · cases e
        · injection e with e; injection e with _ e; injection e with _ e; subst e
          dsimp only
          split
          · exact returnCredit_keeps (State.setLink_keeps hs)
          · exact State.setLink_keeps hs
      · cases e
    · rw [Option.map_eq_some_iff] at e
      obtain ⟨⟨n, c, run⟩, -, e⟩ := e
      injection e with _ e; injection e with _ e; subst e
      exact State.setRing_keeps hs
    · split at e
      · split at e
        · cases e
        · injection e with e; injection e with _ e; injection e with _ e; subst e
          exact State.setDu_keeps hs
      · cases e
  unfold offerOne
  split
  · split
    · split
      · exact pushCell_keeps h
      · exact h
    · exact h
  · split
    · exact h
    · rename_i cell job took e
      split
      · exact h
      · split
        · exact keeps_fst (qOffer_keeps h) (by assumption)
        · exact ht _ _ _ e _ (keeps_fst (qOffer_keeps h) (by assumption))

theorem execQueueCellAccept_keeps {pq : List Instr} {q : QId} {o : Offer} {us : List Upset} {s : State} {t' : State} (hq : Keeps pq s)
    (he : execQueueCellAccept q o us s = .next t') : Keeps pq t' := by
  unfold execQueueCellAccept at he
  injection he with he
  rw [← he]
  try dsimp only
  with_reducible repeat' (
    first
    | assumption | refine keeps_fst ?_ (by assumption) | refine State.live_keeps ?_ ?_ 
    | refine offerOne_keeps ?_ | refine strike_keeps ?_ | split | intro _ | refine keeps_mk ?_)

theorem execQueuePoolRefill_keeps {pq : List Instr} {q : QId} {us : List Upset} {s : State} {t' : State} (hq : Keeps pq s)
    (he : execQueuePoolRefill q us s = .next t') : Keeps pq t' := by
  unfold execQueuePoolRefill at he
  injection he with he
  rw [← he]
  try dsimp only
  with_reducible repeat' (
    first
    | assumption | refine keeps_fst ?_ (by assumption) | refine State.live_keeps ?_ ?_ 
    | refine qRefill_keeps ?_ | refine strike_keeps ?_ | split | intro _ | refine keeps_mk ?_)

theorem execQueueMarkerApply_keeps {pq : List Instr} {q : QId} {o : Offer} {us : List Upset} {s : State} {t' : State} (hq : Keeps pq s)
    (he : execQueueMarkerApply q o us s = .next t') : Keeps pq t' := by
  unfold execQueueMarkerApply at he
  injection he with he
  rw [← he]
  try dsimp only
  with_reducible repeat' (
    first
    | assumption | refine keeps_fst ?_ (by assumption) | refine State.live_keeps ?_ ?_ 
    | refine offerOne_keeps ?_ | refine strike_keeps ?_ | split | intro _ | refine keeps_mk ?_)

theorem forwarded_keeps {pq : List Instr} {s : State} {q : QId} {n : Nat} (hq : Keeps pq s) :
    Keeps pq (forwarded s q n) := by
  unfold forwarded
  try dsimp only
  with_reducible repeat' (
    first
    | assumption | refine keeps_fst ?_ (by assumption) | refine State.count_keeps ?_
    | refine State.setQueue_keeps ?_ | refine qMarks_keeps ?_ | refine qSettle_keeps ?_ | split | intro _
    | refine keeps_mk ?_)

theorem forwardSend_keeps {pq : List Instr} {s : State} {q : QId} (hq : Keeps pq s) :
    Keeps pq (forwardSend s q) := by
  unfold forwardSend
  try dsimp only
  with_reducible repeat' (
    first
    | assumption | refine keeps_fst ?_ (by assumption) | refine State.failStep_keeps ?_
    | refine forwarded_keeps ?_ | refine qCheck_keeps ?_ | refine qOffer_keeps ?_ | refine qRefill_keeps ?_
    | refine sendPkt_keeps ?_ | refine unreachable_keeps ?_ | split | intro _ | refine keeps_mk ?_)

theorem execQueueForwardSend_keeps {pq : List Instr} {q : QId} {us : List Upset} {s : State} {t' : State} (hq : Keeps pq s)
    (he : execQueueForwardSend q us s = .next t') : Keeps pq t' := by
  unfold execQueueForwardSend at he
  injection he with he
  rw [← he]
  try dsimp only
  with_reducible repeat' (
    first
    | assumption | refine keeps_fst ?_ (by assumption) | refine State.live_keeps ?_ ?_ 
    | refine forwardSend_keeps ?_ | refine strike_keeps ?_ | split | intro _ | refine keeps_mk ?_)

theorem execQfcInRise_keeps {pq : List Instr} {pin : Fin 8} {seen : Bool} {s : State} {t' : State} (hq : Keeps pq s)
    (he : execQfcInRise pin seen s = .next t') : Keeps pq t' := by
  unfold execQfcInRise at he
  injection he with he
  rw [← he]
  try dsimp only
  with_reducible repeat' (
    first
    | assumption | refine keeps_fst ?_ (by assumption) | refine keeps_foldl ?_ ?_
    | refine keeps_foldl_pair ?_ ?_ | refine qNotify_keeps ?_ | split | intro _ | refine keeps_mk ?_)

theorem queueEn_keeps {pq : List Instr} {s : State} {q : QId} {on : Bool} (hq : Keeps pq s) :
    Keeps pq (queueEn s q on) := by
  unfold queueEn
  try dsimp only
  with_reducible repeat' (
    first
    | assumption | refine keeps_fst ?_ (by assumption) | refine State.setQueue_keeps ?_
    | refine State.wr_keeps ?_ | refine qEv_keeps ?_ | refine qFlush_keeps ?_ | split | intro _
    | refine keeps_mk ?_)

theorem execQueueEn_keeps {pq : List Instr} {q : QId} {on : Bool} {s : State} {t' : State} (hq : Keeps pq s)
    (he : execQueueEn q on s = .next t') : Keeps pq t' := by
  unfold execQueueEn at he
  injection he with he
  rw [← he]
  try dsimp only
  with_reducible repeat' (
    first
    | assumption | refine keeps_fst ?_ (by assumption) | refine State.ifOn_keeps ?_ ?_ 
    | refine queueEn_keeps ?_ | split | intro _ | refine keeps_mk ?_)

theorem execQueueFlush_keeps {pq : List Instr} {q : QId} {s : State} {t' : State} (hq : Keeps pq s)
    (he : execQueueFlush q s = .next t') : Keeps pq t' := by
  unfold execQueueFlush at he
  injection he with he
  rw [← he]
  try dsimp only
  with_reducible repeat' (
    first
    | assumption | refine keeps_fst ?_ (by assumption) | refine State.ifOn_keeps ?_ ?_ 
    | refine qFlush_keeps ?_ | split | intro _ | refine keeps_mk ?_)

theorem qClear_keeps {pq : List Instr} {s : State} {q : QId} (hq : Keeps pq s) :
    Keeps pq (qClear s q) := by
  unfold qClear
  try dsimp only
  with_reducible repeat' (
    first
    | assumption | refine keeps_fst ?_ (by assumption) | refine State.setQueue_keeps ?_ | split | intro _
    | refine keeps_mk ?_)

theorem execQueueClr_keeps {pq : List Instr} {q : QId} {s : State} {t' : State} (hq : Keeps pq s)
    (he : execQueueClr q s = .next t') : Keeps pq t' := by
  unfold execQueueClr at he
  injection he with he
  rw [← he]
  try dsimp only
  with_reducible repeat' (
    first
    | assumption | refine keeps_fst ?_ (by assumption) | refine State.ifOn_keeps ?_ ?_ 
    | refine qClear_keeps ?_ | split | intro _ | refine keeps_mk ?_)

theorem execQWmWrite_keeps {pq : List Instr} {q : QId} {v : W64} {s : State} {t' : State} (hq : Keeps pq s)
    (he : execQWmWrite q v s = .next t') : Keeps pq t' := by
  unfold execQWmWrite at he
  injection he with he
  rw [← he]
  try dsimp only
  with_reducible repeat' (
    first
    | assumption | refine keeps_fst ?_ (by assumption) | refine State.ifOn_keeps ?_ ?_ 
    | refine State.wr_keeps ?_ | refine qMarks_keeps ?_ | split | intro _ | refine keeps_mk ?_)

theorem windowPush_keeps {pq : List Instr} {s : State} {q : QId} {v : W64} (hq : Keeps pq s) :
    Keeps pq (windowPush s q v) := by
  unfold windowPush
  try dsimp only
  with_reducible repeat' (
    first
    | assumption | refine keeps_fst ?_ (by assumption) | refine qEv_keeps ?_ | refine qOffer_keeps ?_ | split
    | intro _ | refine keeps_mk ?_)

theorem execQueueWindowPush_keeps {pq : List Instr} {q : QId} {v : W64} {s : State} {t' : State} (hq : Keeps pq s)
    (he : execQueueWindowPush q v s = .next t') : Keeps pq t' := by
  unfold execQueueWindowPush at he
  injection he with he
  rw [← he]
  try dsimp only
  with_reducible repeat' (
    first
    | assumption | refine keeps_fst ?_ (by assumption) | refine State.ifOn_keeps ?_ ?_ 
    | refine windowPush_keeps ?_ | split | intro _ | refine keeps_mk ?_)

end Sys2Proof.Machine
end

