-- ==== Sys2Proof/Laws/KeepsLinks.lean ====
section
/-!
SUPPORT. The operations of Links keep the waiting commands and the canonical memories.
-/

-- The declarations of this file are elaborated in turn, so that checking the package as one text needs few threads.
set_option Elab.async false

namespace Sys2Proof.Machine

theorem linkEv_keeps {pq : List Instr} {s : State} {l : LinkId} {code a1 : Nat} (hq : Keeps pq s) :
    Keeps pq (linkEv s l code a1) := by
  unfold linkEv
  try dsimp only
  with_reducible repeat' (
    first
    | assumption | refine keeps_fst ?_ (by assumption) | refine State.record_keeps ?_ | split | intro _
    | refine keeps_mk ?_)

theorem cairnAnswer_keeps {pq : List Instr} {s : State} {job tag code : Nat} (hq : Keeps pq s) :
    Keeps pq (cairnAnswer s job tag code) := by
  unfold cairnAnswer
  try dsimp only
  with_reducible repeat' (
    first
    | assumption | refine keeps_fst ?_ (by assumption) | refine State.setRclJob_keeps ?_ | split | intro _
    | refine keeps_mk ?_)

theorem ringAnswer_keeps {pq : List Instr} {s : State} {r : RingId} {tag code : Nat} {data : List Byte} (hq : Keeps pq s) :
    Keeps pq (ringAnswer s r tag code data) := by
  unfold ringAnswer
  try dsimp only
  with_reducible repeat' (
    first
    | assumption | refine keeps_fst ?_ (by assumption) | refine State.setRing_keeps ?_ | split | intro _
    | refine keeps_mk ?_)

theorem reqAnswer_keeps {pq : List Instr} {s : State} {r : NetReq} {code : Nat} {data : List Byte} (hq : Keeps pq s) :
    Keeps pq (reqAnswer s r code data) := by
  unfold reqAnswer
  try dsimp only
  with_reducible repeat' (
    first
    | assumption | refine keeps_fst ?_ (by assumption) | refine cairnAnswer_keeps ?_
    | refine dmaAnswer_keeps ?_ | refine ringAnswer_keeps ?_ | split | intro _ | refine keeps_mk ?_)

theorem reqStrand_keeps {pq : List Instr} {s : State} {r : NetReq} (hq : Keeps pq s) :
    Keeps pq (reqStrand s r) := by
  unfold reqStrand
  try dsimp only
  with_reducible repeat' (
    first
    | assumption | refine keeps_fst ?_ (by assumption) | refine State.failStep_keeps ?_
    | refine reqAnswer_keeps ?_ | split | intro _ | refine keeps_mk ?_)

theorem collDrop_keeps {pq : List Instr} {s : State} {job dst xid : Nat} (hq : Keeps pq s) :
    Keeps pq (collDrop s job dst xid) := by
  unfold collDrop
  try dsimp only
  with_reducible repeat' (
    first
    | assumption | refine keeps_fst ?_ (by assumption) | refine State.failStep_keeps ?_ | split | intro _
    | refine keeps_mk ?_)

theorem strandPkt_keeps {pq : List Instr} {s : State} {t : TxPkt} (hq : Keeps pq s) :
    Keeps pq (strandPkt s t).1 := by
  unfold strandPkt
  try dsimp only
  with_reducible repeat' (
    first
    | assumption | refine keeps_fst ?_ (by assumption) | refine State.failStep_keeps ?_
    | refine collDrop_keeps ?_ | refine reqStrand_keeps ?_ | refine unreachable_keeps ?_ | split | intro _
    | refine keeps_mk ?_)

theorem strand_keeps {pq : List Instr} {s : State} {l : LinkId} (hq : Keeps pq s) :
    Keeps pq (strand s l) := by
  unfold strand
  try dsimp only
  with_reducible repeat' (
    first
    | assumption | refine keeps_fst ?_ (by assumption) | refine keeps_foldl ?_ ?_
    | refine keeps_foldl_pair ?_ ?_ | refine State.setLink_keeps ?_ | refine strandPkt_keeps ?_ | split
    | intro _ | refine keeps_mk ?_)

theorem placeFront_keeps {pq : List Instr} {s : State} {n : LinkId} {ts : List TxPkt} (hq : Keeps pq s) :
    Keeps pq (placeFront s n ts) := by
  unfold placeFront
  try dsimp only
  with_reducible repeat' (
    first
    | assumption | refine keeps_fst ?_ (by assumption) | refine State.setLink_keeps ?_ | split | intro _
    | refine keeps_mk ?_)

theorem repinFlow_keeps {pq : List Instr} {s : State} {key old : Nat} (hq : Keeps pq s) :
    Keeps pq (repinFlow s key old) := by
  unfold repinFlow
  try dsimp only
  with_reducible repeat' (
    first
    | assumption | refine keeps_fst ?_ (by assumption) | refine State.setLink_keeps ?_
    | refine placeFront_keeps ?_ | split | intro _ | refine keeps_mk ?_)

theorem restripe_keeps {pq : List Instr} {s : State} {ts : List TxPkt} (hq : Keeps pq s) :
    Keeps pq (restripe s ts).1 := by
  unfold restripe
  try dsimp only
  with_reducible repeat' (
    first
    | assumption | refine keeps_fst ?_ (by assumption) | refine keeps_foldl ?_ ?_
    | refine keeps_foldl_pair ?_ ?_ | split | intro _ | refine keeps_mk ?_)

theorem restripeLink_keeps {pq : List Instr} {s : State} {l : LinkId} (hq : Keeps pq s) :
    Keeps pq (restripeLink s l) := by
  unfold restripeLink
  try dsimp only
  with_reducible repeat' (
    first
    | assumption | refine keeps_fst ?_ (by assumption) | refine keeps_foldl ?_ ?_
    | refine keeps_foldl_pair ?_ ?_ | refine State.setLink_keeps ?_ | refine placeFront_keeps ?_
    | refine restripe_keeps ?_ | split | intro _ | refine keeps_mk ?_)

theorem repin_keeps {pq : List Instr} {s : State} (hq : Keeps pq s) :
    Keeps pq (repin s) := by
  unfold repin
  try dsimp only
  with_reducible repeat' (
    first
    | assumption | refine keeps_fst ?_ (by assumption) | refine keeps_foldl ?_ ?_
    | refine keeps_foldl_pair ?_ ?_ | refine repinFlow_keeps ?_ | refine restripeLink_keeps ?_ | split
    | intro _ | refine keeps_mk ?_)

theorem rejoinFlows_keeps {pq : List Instr} {s : State} {l : LinkId} (hq : Keeps pq s) :
    Keeps pq (rejoinFlows s l) := by
  unfold rejoinFlows
  try dsimp only
  with_reducible repeat' (
    first
    | assumption | refine keeps_fst ?_ (by assumption) | refine keeps_foldl ?_ ?_
    | refine keeps_foldl_pair ?_ ?_ | refine State.setLink_keeps ?_ | refine placeFront_keeps ?_ | split
    | intro _ | refine keeps_mk ?_)

theorem reachAgain_keeps {pq : List Instr} {s : State} (hq : Keeps pq s) :
    Keeps pq (reachAgain s) := by
  unfold reachAgain
  try dsimp only
  with_reducible repeat' (
    first
    | assumption | refine keeps_fst ?_ (by assumption) | refine duFlush_keeps ?_ | refine repin_keeps ?_
    | refine retryQflow_keeps ?_ | split | intro _ | refine keeps_mk ?_)

theorem holdOver_keeps {pq : List Instr} {s : State} {key : Nat} (hq : Keeps pq s) :
    Keeps pq (holdOver s key) := by
  unfold holdOver
  try dsimp only
  with_reducible repeat' (
    first
    | assumption | refine keeps_fst ?_ (by assumption) | refine keeps_foldl ?_ ?_
    | refine keeps_foldl_pair ?_ ?_ | refine State.setLink_keeps ?_ | split | intro _ | refine keeps_mk ?_)

theorem linkLeave_keeps {pq : List Instr} {s : State} {l : LinkId} (hq : Keeps pq s) :
    Keeps pq (linkLeave s l) := by
  unfold linkLeave
  try dsimp only
  with_reducible repeat' (
    first
    | assumption | refine keeps_fst ?_ (by assumption) | refine State.count_keeps ?_
    | refine State.record_keeps ?_ | refine State.setLink_keeps ?_ | refine linkEv_keeps ?_
    | refine rejoinFlows_keeps ?_ | refine repin_keeps ?_ | refine strand_keeps ?_ | split | intro _
    | refine keeps_mk ?_)

theorem linkFail_keeps {pq : List Instr} {s : State} {l : LinkId} {code : Nat} (hq : Keeps pq s) :
    Keeps pq (linkFail s l code) := by
  unfold linkFail
  try dsimp only
  with_reducible repeat' (
    first
    | assumption | refine keeps_fst ?_ (by assumption) | refine State.setLink_keeps ?_
    | refine linkEv_keeps ?_ | split | intro _ | refine keeps_mk ?_)

theorem linkEnable_keeps {pq : List Instr} {s : State} {l : LinkId} {on : Bool} (hq : Keeps pq s) :
    Keeps pq (linkEnable s l on) := by
  unfold linkEnable
  try dsimp only
  with_reducible repeat' (
    first
    | assumption | refine keeps_fst ?_ (by assumption) | refine State.setLink_keeps ?_
    | refine State.wr_keeps ?_ | refine linkLeave_keeps ?_ | split | intro _ | refine keeps_mk ?_)

theorem laneLock_keeps {pq : List Instr} {s : State} {l : LinkId} {lanes : BitVec 2} (hq : Keeps pq s) :
    Keeps pq (laneLock s l lanes) := by
  unfold laneLock
  try dsimp only
  with_reducible repeat' (
    first
    | assumption | refine keeps_fst ?_ (by assumption) | refine State.setLink_keeps ?_ | split | intro _
    | refine keeps_mk ?_)

theorem laneAlign_keeps {pq : List Instr} {s : State} {l : LinkId} (hq : Keeps pq s) :
    Keeps pq (laneAlign s l) := by
  unfold laneAlign
  try dsimp only
  with_reducible repeat' (
    first
    | assumption | refine keeps_fst ?_ (by assumption) | refine State.setLink_keeps ?_ | split | intro _
    | refine keeps_mk ?_)

theorem stateTimeout_keeps {pq : List Instr} {s : State} {l : LinkId} (hq : Keeps pq s) :
    Keeps pq (stateTimeout s l) := by
  unfold stateTimeout
  try dsimp only
  with_reducible repeat' (
    first
    | assumption | refine keeps_fst ?_ (by assumption) | refine linkFail_keeps ?_ | split | intro _
    | refine keeps_mk ?_)

theorem failedRetry_keeps {pq : List Instr} {s : State} {l : LinkId} (hq : Keeps pq s) :
    Keeps pq (failedRetry s l) := by
  unfold failedRetry
  try dsimp only
  with_reducible repeat' (
    first
    | assumption | refine keeps_fst ?_ (by assumption) | refine State.setLink_keeps ?_ | split | intro _
    | refine keeps_mk ?_)

theorem lockLoss_keeps {pq : List Instr} {s : State} {l : LinkId} {lane : Fin 2} (hq : Keeps pq s) :
    Keeps pq (lockLoss s l lane) := by
  unfold lockLoss
  try dsimp only
  with_reducible repeat' (
    first
    | assumption | refine keeps_fst ?_ (by assumption) | refine State.setLink_keeps ?_
    | refine linkLeave_keeps ?_ | split | intro _ | refine keeps_mk ?_)

theorem linkUp_keeps {pq : List Instr} {s : State} {l : LinkId} (hq : Keeps pq s) :
    Keeps pq (linkUp s l) := by
  unfold linkUp
  try dsimp only
  with_reducible repeat' (
    first
    | assumption | refine keeps_fst ?_ (by assumption) | refine State.record_keeps ?_
    | refine State.setLink_keeps ?_ | refine linkEv_keeps ?_ | refine reachAgain_keeps ?_ | split | intro _
    | refine keeps_mk ?_)

theorem takePeer_keeps {pq : List Instr} {s : State} {l : LinkId} {f : List Byte} (hq : Keeps pq s) :
    Keeps pq (takePeer s l f) := by
  unfold takePeer
  try dsimp only
  with_reducible repeat' (
    first
    | assumption | refine keeps_fst ?_ (by assumption) | refine State.wr_keeps ?_ | split | intro _
    | refine keeps_mk ?_)

theorem takeParam_keeps {pq : List Instr} {s : State} {l : LinkId} {f : List Byte} (hq : Keeps pq s) :
    Keeps pq (takeParam s l f) := by
  unfold takeParam
  try dsimp only
  with_reducible repeat' (
    first
    | assumption | refine keeps_fst ?_ (by assumption) | refine keeps_foldl ?_ ?_
    | refine keeps_foldl_pair ?_ ?_ | refine State.setLink_keeps ?_ | refine State.wr_keeps ?_
    | refine takePeer_keeps ?_ | split | intro _ | refine keeps_mk ?_)

theorem paramIn_keeps {pq : List Instr} {s : State} {l : LinkId} {f : List Byte} {accepts : Bool} (hq : Keeps pq s) :
    Keeps pq (paramIn s l f accepts) := by
  unfold paramIn
  try dsimp only
  with_reducible repeat' (
    first
    | assumption | refine keeps_fst ?_ (by assumption) | refine keeps_foldl ?_ ?_
    | refine keeps_foldl_pair ?_ ?_ | refine linkFail_keeps ?_ | refine linkUp_keeps ?_
    | refine takeParam_keeps ?_ | split | intro _ | refine keeps_mk ?_)

theorem linkCfgWrite_keeps {pq : List Instr} {s : State} {l : LinkId} {off : Nat} {v : W64} (hq : Keeps pq s) :
    Keeps pq (linkCfgWrite s l off v) := by
  unfold linkCfgWrite
  try dsimp only
  with_reducible repeat' (
    first
    | assumption | refine keeps_fst ?_ (by assumption) | refine State.wr_keeps ?_ | refine linkEv_keeps ?_
    | split | intro _ | refine keeps_mk ?_)

theorem linkCtrlWrite_keeps {pq : List Instr} {s : State} {l : LinkId} {v : W64} (hq : Keeps pq s) :
    Keeps pq (linkCtrlWrite s l v) := by
  unfold linkCtrlWrite
  try dsimp only
  with_reducible repeat' (
    first
    | assumption | refine keeps_fst ?_ (by assumption) | refine State.wr_keeps ?_
    | refine linkEnable_keeps ?_ | split | intro _ | refine keeps_mk ?_)

theorem timeOut_keeps {pq : List Instr} {s : State} {h : BitVec 256} (hq : Keeps pq s) :
    Keeps pq (timeOut s h).1 := by
  unfold timeOut
  try dsimp only
  with_reducible repeat' (
    first
    | assumption | refine keeps_fst ?_ (by assumption) | refine keeps_snd ?_ (by assumption)
    | refine State.now_keeps ?_ | split | intro _ | refine keeps_mk ?_)

theorem stamp_keeps {pq : List Instr} {s : State} {t : TxPkt} {pool : Bool} (hq : Keeps pq s) :
    Keeps pq (stamp s t pool).1 := by
  unfold stamp
  try dsimp only
  with_reducible repeat' (
    first
    | assumption | refine keeps_fst ?_ (by assumption) | refine timeOut_keeps ?_ | split | intro _
    | refine keeps_mk ?_)

theorem packetStart_keeps {pq : List Instr} {s : State} {l : LinkId} (hq : Keeps pq s) :
    Keeps pq (packetStart s l) := by
  unfold packetStart
  try dsimp only
  with_reducible repeat' (
    first
    | assumption | refine keeps_fst ?_ (by assumption) | refine State.count_keeps ?_
    | refine State.setLink_keeps ?_ | refine stamp_keeps ?_ | split | intro _ | refine keeps_mk ?_)

theorem replay_keeps {pq : List Instr} {s : State} {l : LinkId} (hq : Keeps pq s) :
    Keeps pq (replay s l) := by
  unfold replay
  try dsimp only
  with_reducible repeat' (
    first
    | assumption | refine keeps_fst ?_ (by assumption) | refine keeps_foldl ?_ ?_
    | refine keeps_foldl_pair ?_ ?_ | refine State.count_keeps ?_ | refine State.setLink_keeps ?_
    | refine linkEv_keeps ?_ | refine linkLeave_keeps ?_ | split | intro _ | refine keeps_mk ?_)

theorem creditFault_keeps {pq : List Instr} {s : State} {l : LinkId} (hq : Keeps pq s) :
    Keeps pq (creditFault s l) := by
  unfold creditFault
  try dsimp only
  with_reducible repeat' (
    first
    | assumption | refine keeps_fst ?_ (by assumption) | refine linkEv_keeps ?_ | refine linkLeave_keeps ?_
    | split | intro _ | refine keeps_mk ?_)

theorem creditIn_keeps {pq : List Instr} {s : State} {l : LinkId} {r : CreditRet} (hq : Keeps pq s) :
    Keeps pq (creditIn s l r) := by
  unfold creditIn
  try dsimp only
  with_reducible repeat' (
    first
    | assumption | refine keeps_fst ?_ (by assumption) | refine State.setLink_keeps ?_
    | refine creditFault_keeps ?_ | split | intro _ | refine keeps_mk ?_)

theorem timeIn_keeps {pq : List Instr} {s : State} {p : Pkt} (hq : Keeps pq s) :
    Keeps pq (timeIn s p).2 := by
  unfold timeIn
  try dsimp only
  with_reducible repeat' (
    first
    | assumption | refine keeps_fst ?_ (by assumption) | refine keeps_snd ?_ (by assumption)
    | refine State.now_keeps ?_ | split | intro _ | refine keeps_mk ?_)

theorem pktArrived_keeps {pq : List Instr} {s : State} {l : LinkId} {p : Pkt} (hq : Keeps pq s) :
    Keeps pq (pktArrived s l p) := by
  unfold pktArrived
  try dsimp only
  with_reducible repeat' (
    first
    | assumption | refine keeps_fst ?_ (by assumption) | refine State.count_keeps ?_
    | refine State.setLink_keeps ?_ | refine creditFault_keeps ?_ | refine timeIn_keeps ?_ | split | intro _
    | refine keeps_mk ?_)

theorem parsePkts_keeps {pq : List Instr} {l : LinkId} {x0 : Nat} {x1 : State} (hq : Keeps pq x1) :
    Keeps pq (parsePkts l x0 x1) := by
  induction x0 generalizing x1 with
  | zero => simp only [parsePkts]; exact hq
  | succ n ih =>
    unfold parsePkts
    try dsimp only
    with_reducible repeat' (
      first
      | assumption | refine keeps_fst ?_ (by assumption) | refine ih ?_ | refine State.setLink_keeps ?_
      | refine pktArrived_keeps ?_ | split | intro _ | refine keeps_mk ?_)

theorem fecIn_keeps {pq : List Instr} {s : State} {l : LinkId} {corr uncorr : Nat} (hq : Keeps pq s) :
    Keeps pq (fecIn s l corr uncorr) := by
  unfold fecIn
  try dsimp only
  with_reducible repeat' (
    first
    | assumption | refine keeps_fst ?_ (by assumption) | refine State.count_keeps ?_ | refine linkEv_keeps ?_
    | split | intro _ | refine keeps_mk ?_)

theorem badFlit_keeps {pq : List Instr} {s : State} {l : LinkId} (hq : Keeps pq s) :
    Keeps pq (badFlit s l) := by
  unfold badFlit
  try dsimp only
  with_reducible repeat' (
    first
    | assumption | refine keeps_fst ?_ (by assumption) | refine State.count_keeps ?_
    | refine State.setLink_keeps ?_ | split | intro _ | refine keeps_mk ?_)

theorem flitIn_keeps {pq : List Instr} {s : State} {l : LinkId} {f : List Byte} {corr uncorr : Nat} {more : Bool} {want : Nat} {body : State → State} (hq : Keeps pq s) (hf1 : ∀ (a0 : State), Keeps pq a0 → Keeps pq (body a0)) :
    Keeps pq (flitIn s l f corr uncorr more want body) := by
  unfold flitIn
  try dsimp only
  with_reducible repeat' (
    first
    | assumption | refine keeps_fst ?_ (by assumption) | refine badFlit_keeps ?_ | refine fecIn_keeps ?_
    | refine hf1 _ ?_ | refine hf1 _ _ ?_ | refine hf1 _ _ _ ?_ | split | intro _ | refine keeps_mk ?_)

theorem dataIn_keeps {pq : List Instr} {s : State} {l : LinkId} {f : List Byte} (hq : Keeps pq s) :
    Keeps pq (dataIn s l f) := by
  unfold dataIn
  try dsimp only
  with_reducible repeat' (
    first
    | assumption | refine keeps_fst ?_ (by assumption) | refine State.setLink_keeps ?_
    | refine creditIn_keeps ?_ | refine parsePkts_keeps ?_ | split | intro _ | refine keeps_mk ?_)

theorem takeAck_keeps {pq : List Instr} {s : State} {l : LinkId} {f : List Byte} (hq : Keeps pq s) :
    Keeps pq (takeAck s l f) := by
  unfold takeAck
  try dsimp only
  with_reducible repeat' (
    first
    | assumption | refine keeps_fst ?_ (by assumption) | refine State.setLink_keeps ?_ | split | intro _
    | refine keeps_mk ?_)

theorem execLaneLock_keeps {pq : List Instr} {l : LinkId} {s : State} {lanes : BitVec 2} {t' : State} (hq : Keeps pq s)
    (he : execLaneLock l s lanes = .next t') : Keeps pq t' := by
  unfold execLaneLock at he
  injection he with he
  rw [← he]
  try dsimp only
  with_reducible repeat' (
    first
    | assumption | refine keeps_fst ?_ (by assumption) | refine State.live_keeps ?_ ?_ 
    | refine laneLock_keeps ?_ | split | intro _ | refine keeps_mk ?_)

theorem execLaneAlign_keeps {pq : List Instr} {l : LinkId} {s : State} {t' : State} (hq : Keeps pq s)
    (he : execLaneAlign l s = .next t') : Keeps pq t' := by
  unfold execLaneAlign at he
  injection he with he
  rw [← he]
  try dsimp only
  with_reducible repeat' (
    first
    | assumption | refine keeps_fst ?_ (by assumption) | refine State.live_keeps ?_ ?_ 
    | refine laneAlign_keeps ?_ | split | intro _ | refine keeps_mk ?_)

theorem execParamFlit_keeps {pq : List Instr} {l : LinkId} {f : List Byte} {corr uncorr : Nat} {accepts : Bool} {s : State} {more : Bool} {t' : State} (hq : Keeps pq s)
    (he : execParamFlit l f corr uncorr accepts s more = .next t') : Keeps pq t' := by
  unfold execParamFlit at he
  injection he with he
  rw [← he]
  try dsimp only
  with_reducible repeat' (
    first
    | assumption | refine keeps_fst ?_ (by assumption) | refine State.live_keeps ?_ ?_ 
    | refine flitIn_keeps ?_ ?_  | refine paramIn_keeps ?_ | refine takeAck_keeps ?_
    | refine takePeer_keeps ?_ | split | intro _ | refine keeps_mk ?_)

theorem execLinkStateTimeout_keeps {pq : List Instr} {l : LinkId} {s : State} {t' : State} (hq : Keeps pq s)
    (he : execLinkStateTimeout l s = .next t') : Keeps pq t' := by
  unfold execLinkStateTimeout at he
  injection he with he
  rw [← he]
  try dsimp only
  with_reducible repeat' (
    first
    | assumption | refine keeps_fst ?_ (by assumption) | refine State.live_keeps ?_ ?_ 
    | refine stateTimeout_keeps ?_ | split | intro _ | refine keeps_mk ?_)

theorem execLinkFailedRetry_keeps {pq : List Instr} {l : LinkId} {s : State} {t' : State} (hq : Keeps pq s)
    (he : execLinkFailedRetry l s = .next t') : Keeps pq t' := by
  unfold execLinkFailedRetry at he
  injection he with he
  rw [← he]
  try dsimp only
  with_reducible repeat' (
    first
    | assumption | refine keeps_fst ?_ (by assumption) | refine failedRetry_keeps ?_ | split | intro _
    | refine keeps_mk ?_)

theorem execLaneLockLoss_keeps {pq : List Instr} {l : LinkId} {lane : Fin 2} {s : State} {t' : State} (hq : Keeps pq s)
    (he : execLaneLockLoss l lane s = .next t') : Keeps pq t' := by
  unfold execLaneLockLoss at he
  injection he with he
  rw [← he]
  try dsimp only
  with_reducible repeat' (
    first
    | assumption | refine keeps_fst ?_ (by assumption) | refine State.live_keeps ?_ ?_ 
    | refine lockLoss_keeps ?_ | split | intro _ | refine keeps_mk ?_)

theorem execDataFlit_keeps {pq : List Instr} {l : LinkId} {f : List Byte} {corr uncorr : Nat} {s : State} {more : Bool} {t' : State} (hq : Keeps pq s)
    (he : execDataFlit l f corr uncorr s more = .next t') : Keeps pq t' := by
  unfold execDataFlit at he
  injection he with he
  rw [← he]
  try dsimp only
  with_reducible repeat' (
    first
    | assumption | refine keeps_fst ?_ (by assumption) | refine State.live_keeps ?_ ?_ 
    | refine dataIn_keeps ?_ | refine flitIn_keeps ?_ ?_  | split | intro _ | refine keeps_mk ?_)

theorem execIdleFlit_keeps {pq : List Instr} {l : LinkId} {f : List Byte} {corr uncorr : Nat} {s : State} {more : Bool} {t' : State} (hq : Keeps pq s)
    (he : execIdleFlit l f corr uncorr s more = .next t') : Keeps pq t' := by
  unfold execIdleFlit at he
  injection he with he
  rw [← he]
  try dsimp only
  with_reducible repeat' (
    first
    | assumption | refine keeps_fst ?_ (by assumption) | refine State.live_keeps ?_ ?_ 
    | refine flitIn_keeps ?_ ?_  | refine takeAck_keeps ?_ | split | intro _ | refine keeps_mk ?_)

theorem execNakFlit_keeps {pq : List Instr} {l : LinkId} {f : List Byte} {corr uncorr : Nat} {s : State} {more : Bool} {t' : State} (hq : Keeps pq s)
    (he : execNakFlit l f corr uncorr s more = .next t') : Keeps pq t' := by
  unfold execNakFlit at he
  injection he with he
  rw [← he]
  try dsimp only
  with_reducible repeat' (
    first
    | assumption | refine keeps_fst ?_ (by assumption) | refine State.live_keeps ?_ ?_ 
    | refine flitIn_keeps ?_ ?_  | refine replay_keeps ?_ | refine takeAck_keeps ?_ | split | intro _
    | refine keeps_mk ?_)

theorem execAckTimeoutExpiry_keeps {pq : List Instr} {l : LinkId} {s : State} {t' : State} (hq : Keeps pq s)
    (he : execAckTimeoutExpiry l s = .next t') : Keeps pq t' := by
  unfold execAckTimeoutExpiry at he
  injection he with he
  rw [← he]
  try dsimp only
  with_reducible repeat' (
    first
    | assumption | refine keeps_fst ?_ (by assumption) | refine State.live_keeps ?_ ?_ 
    | refine replay_keeps ?_ | split | intro _ | refine keeps_mk ?_)

theorem execLinkPacketStart_keeps {pq : List Instr} {l : LinkId} {s : State} {t' : State} (hq : Keeps pq s)
    (he : execLinkPacketStart l s = .next t') : Keeps pq t' := by
  unfold execLinkPacketStart at he
  injection he with he
  rw [← he]
  try dsimp only
  with_reducible repeat' (
    first
    | assumption | refine keeps_fst ?_ (by assumption) | refine State.live_keeps ?_ ?_ 
    | refine packetStart_keeps ?_ | split | intro _ | refine keeps_mk ?_)

theorem execRepinHoldExpiry_keeps {pq : List Instr} {dst : DevId} {job : JobId} {tc : Fin 4} {s : State} {t' : State} (hq : Keeps pq s)
    (he : execRepinHoldExpiry dst job tc s = .next t') : Keeps pq t' := by
  unfold execRepinHoldExpiry at he
  injection he with he
  rw [← he]
  try dsimp only
  with_reducible repeat' (
    first
    | assumption | refine keeps_fst ?_ (by assumption) | refine State.live_keeps ?_ ?_ 
    | refine holdOver_keeps ?_ | split | intro _ | refine keeps_mk ?_)

theorem routeWrite_keeps {pq : List Instr} {s : State} {dst : Nat} {v : W64} (hq : Keeps pq s) :
    Keeps pq (routeWrite s dst v) := by
  unfold routeWrite
  try dsimp only
  with_reducible repeat' (
    first
    | assumption | refine keeps_fst ?_ (by assumption) | refine State.count_keeps ?_
    | refine State.wr_keeps ?_ | refine reachAgain_keeps ?_ | split | intro _ | refine keeps_mk ?_)

theorem planeEnWrite_keeps {pq : List Instr} {s : State} {v : W64} (hq : Keeps pq s) :
    Keeps pq (planeEnWrite s v) := by
  unfold planeEnWrite
  try dsimp only
  with_reducible repeat' (
    first
    | assumption | refine keeps_fst ?_ (by assumption) | refine State.wr_keeps ?_
    | refine reachAgain_keeps ?_ | split | intro _ | refine keeps_mk ?_)

theorem execRouteEntryWrite_keeps {pq : List Instr} {dst : DevId} {v : W64} {s : State} {t' : State} (hq : Keeps pq s)
    (he : execRouteEntryWrite dst v s = .next t') : Keeps pq t' := by
  unfold execRouteEntryWrite at he
  injection he with he
  rw [← he]
  try dsimp only
  with_reducible repeat' (
    first
    | assumption | refine keeps_fst ?_ (by assumption) | refine State.ifOn_keeps ?_ ?_ 
    | refine routeWrite_keeps ?_ | split | intro _ | refine keeps_mk ?_)

theorem execPlaneEnWrite_keeps {pq : List Instr} {v : W64} {s : State} {t' : State} (hq : Keeps pq s)
    (he : execPlaneEnWrite v s = .next t') : Keeps pq t' := by
  unfold execPlaneEnWrite at he
  injection he with he
  rw [← he]
  try dsimp only
  with_reducible repeat' (
    first
    | assumption | refine keeps_fst ?_ (by assumption) | refine State.ifOn_keeps ?_ ?_ 
    | refine planeEnWrite_keeps ?_ | split | intro _ | refine keeps_mk ?_)

end Sys2Proof.Machine
end

