-- ==== Sys2Proof/Laws/KeepsColl.lean ====
section
/-!
SUPPORT. The operations of Coll keep the waiting commands and the canonical memories.
-/

-- The declarations of this file are elaborated in turn, so that checking the package as one text needs few threads.
set_option Elab.async false

namespace Sys2Proof.Machine

theorem sendStripe_keeps {pq : List Instr} {s : State} {c : CollTx} {i : Nat} (hq : Keeps pq s) :
    Keeps pq (sendStripe s c i).1 := by
  unfold sendStripe
  try dsimp only
  with_reducible repeat' (
    first
    | assumption | refine keeps_fst ?_ (by assumption) | refine State.setLink_keeps ?_ | split | intro _
    | refine keeps_mk ?_)

theorem sendStripes_keeps {pq : List Instr} {s : State} {c : CollTx} {x0 : List Nat} (hq : Keeps pq s) :
    Keeps pq (sendStripes s c x0) := by
  induction x0 generalizing s with
  | nil => simp only [sendStripes]; exact hq
  | cons x l ih =>
    unfold sendStripes
    try dsimp only
    with_reducible repeat' (
      first
      | assumption | refine keeps_fst ?_ (by assumption) | refine ih ?_ | refine collDrop_keeps ?_
      | refine sendStripe_keeps ?_ | refine unreachable_keeps ?_ | split | intro _ | refine keeps_mk ?_)

theorem collBegin_keeps {pq : List Instr} {s : State} {c : CollTx} (hq : Keeps pq s) :
    Keeps pq (collBegin s c) := by
  unfold collBegin
  try dsimp only
  with_reducible repeat' (
    first
    | assumption | refine keeps_fst ?_ (by assumption) | refine State.count_keeps ?_
    | refine sendStripes_keeps ?_ | split | intro _ | refine keeps_mk ?_)

theorem collStart_keeps {pq : List Instr} {s : State} {job dst : Nat} {info stream : List Byte} (hq : Keeps pq s) :
    Keeps pq (collStart s job dst info stream).1 := by
  unfold collStart
  try dsimp only
  with_reducible repeat' (
    first
    | assumption | refine keeps_fst ?_ (by assumption) | refine askTag_keeps ?_ | refine collBegin_keeps ?_
    | split | intro _ | refine keeps_mk ?_)

theorem collKick_keeps {pq : List Instr} {s : State} (hq : Keeps pq s) :
    Keeps pq (collKick s) := by
  unfold collKick
  try dsimp only
  with_reducible repeat' (
    first
    | assumption | refine keeps_fst ?_ (by assumption) | refine keeps_foldl ?_ ?_
    | refine keeps_foldl_pair ?_ ?_ | refine askTag_keeps ?_ | refine collBegin_keeps ?_ | split | intro _
    | refine keeps_mk ?_)

end Sys2Proof.Machine
end

