-- ==== Sys2Proof/Laws/KeepsDispatchUnit.lean ====
section
/-!
SUPPORT. The operations of DispatchUnit keep the waiting commands and the canonical memories.
-/

-- The declarations of this file are elaborated in turn, so that checking the package as one text needs few threads.
set_option Elab.async false

namespace Sys2Proof.Machine

theorem sendExpert_keeps {pq : List Instr} {u : DuId} {c : CoreId} {job mbtag : Nat} {d : List Byte} {w : W64} {e : Nat} {list : List Nat} {s : State} {acc : SendAcc} (hq : Keeps pq s) :
    Keeps pq (sendExpert u c job mbtag d w e list s acc).1 := by
  unfold sendExpert
  try dsimp only
  with_reducible repeat' (
    first
    | assumption | refine keeps_fst ?_ (by assumption) | refine keeps_foldl ?_ ?_
    | refine keeps_foldl_pair ?_ ?_ | refine duPush_keeps ?_ | refine spReadAny_keeps ?_ | split | intro _
    | refine keeps_mk ?_)

theorem sendExperts_keeps {pq : List Instr} {u : DuId} {c : CoreId} {job mbtag : Nat} {d : List Byte} {entries : List W64} {cs : List Choice} {s : State} (hq : Keeps pq s) :
    Keeps pq (sendExperts u c job mbtag d entries cs s).1 := by
  unfold sendExperts
  try dsimp only
  with_reducible repeat' (
    first
    | assumption | refine keeps_fst ?_ (by assumption) | refine keeps_foldl ?_ ?_
    | refine keeps_foldl_pair ?_ ?_ | refine sendExpert_keeps ?_ | split | intro _ | refine keeps_mk ?_)

theorem geckoFault_keeps {pq : List Instr} {s : State} {c : CoreId} {off : Nat} (hq : Keeps pq s) :
    Keeps pq (geckoFault s c off) := by
  unfold geckoFault
  try dsimp only
  with_reducible repeat' (
    first
    | assumption | refine keeps_fst ?_ (by assumption) | refine State.raise_keeps ?_ | split | intro _
    | refine keeps_mk ?_)

theorem geckoRegions_keeps {pq : List Instr} {s : State} {u : DuId} {c : CoreId} {d : Option (List Byte)} (hq : Keeps pq s) :
    Keeps pq (geckoRegions s u c d) := by
  unfold geckoRegions
  try dsimp only
  with_reducible repeat' (
    first
    | assumption | refine keeps_fst ?_ (by assumption) | refine geckoFault_keeps ?_ | split | intro _
    | refine keeps_mk ?_)

theorem readDpb_keeps {pq : List Instr} {s : State} {c : CoreId} {off : Nat} (hq : Keeps pq s) :
    Keeps pq (readDpb s c off).1 := by
  unfold readDpb
  try dsimp only
  with_reducible repeat' (
    first
    | assumption | refine keeps_fst ?_ (by assumption) | refine geckoFault_keeps ?_
    | refine spReadAny_keeps ?_ | split | intro _ | refine keeps_mk ?_)

theorem readScores_keeps {pq : List Instr} {s : State} {c : CoreId} {d : List Byte} (hq : Keeps pq s) :
    Keeps pq (readScores s c d).1 := by
  unfold readScores
  try dsimp only
  with_reducible repeat' (
    first
    | assumption | refine keeps_fst ?_ (by assumption) | refine keeps_foldl ?_ ?_
    | refine keeps_foldl_pair ?_ ?_ | refine spReadAny_keeps ?_ | split | intro _ | refine keeps_mk ?_)

theorem routeWork_keeps {pq : List Instr} {s : State} {u : DuId} {req : DispReq} {d : List Byte} {scores : List (List Nat)} (hq : Keeps pq s) :
    Keeps pq (routeWork s u req d scores) := by
  unfold routeWork
  try dsimp only
  with_reducible repeat' (
    first
    | assumption | refine keeps_fst ?_ (by assumption) | refine keeps_foldl ?_ ?_
    | refine keeps_foldl_pair ?_ ?_ | refine State.record_keeps ?_ | refine State.setDu_keeps ?_
    | refine duFlush_keeps ?_ | refine sendExperts_keeps ?_ | split | intro _ | refine keeps_mk ?_)

theorem resolveStart_keeps {pq : List Instr} {s : State} {u : DuId} {req : DispReq} {commit : Bool} (hq : Keeps pq s) :
    Keeps pq (resolveStart s u req commit) := by
  unfold resolveStart
  try dsimp only
  with_reducible repeat' (
    first
    | assumption | refine keeps_fst ?_ (by assumption) | refine State.record_keeps ?_
    | refine State.setDu_keeps ?_ | refine sendMarkers_keeps ?_ | split | intro _ | refine keeps_mk ?_)

theorem setAside_keeps {pq : List Instr} {s : State} {u : DuId} (hq : Keeps pq s) :
    Keeps pq (setAside s u) := by
  unfold setAside
  try dsimp only
  with_reducible repeat' (
    first
    | assumption | refine keeps_fst ?_ (by assumption) | refine State.setDu_keeps ?_
    | refine duFlush_keeps ?_ | split | intro _ | refine keeps_mk ?_)

theorem requestStart_keeps {pq : List Instr} {s t : State} {u : DuId} (h : Keeps pq s)
    (he : requestStart s u = .next t) : Keeps pq t := by
  have key : ∀ x : Out, x = requestStart s u → ∀ t, x = .next t → Keeps pq t := by
    intro x hx
    subst hx
    unfold requestStart
    dsimp only
    split
    · intro t e; injection e with e; exact e ▸ h
    · split
      · intro t e; injection e with e; exact e ▸ h
      · have h1 (k : Dispatch) : Keeps pq (s.setDu u k) := State.setDu_keeps h
        split
        · split
          · intro t e; injection e with e; rw [← e]
            exact State.setDu_keeps (geckoRegions_keeps (readDpb_keeps (h1 _)))
          · intro t e; injection e with e; rw [← e]
            exact geckoRegions_keeps (readDpb_keeps (h1 _))
          · split
            · intro t e; cases e
            · split
              · intro t e; injection e with e; rw [← e]
                exact State.setDu_keeps (readScores_keeps (geckoRegions_keeps (readDpb_keeps (h1 _))))
              · intro t e; injection e with e; rw [← e]
                exact routeWork_keeps (readScores_keeps (geckoRegions_keeps (readDpb_keeps (h1 _))))
        · intro t e; injection e with e; rw [← e]; exact resolveStart_keeps (h1 _)
        · intro t e; injection e with e; rw [← e]; exact resolveStart_keeps (h1 _)
        · intro t e; injection e with e; rw [← e]; exact State.setDu_keeps (h1 _)
  exact key _ rfl t he

theorem dispatchStart_keeps {pq : List Instr} {s t : State} {u : DuId} (h : Keeps pq s)
    (he : dispatchStart s u = .next t) : Keeps pq t := by
  unfold dispatchStart at he
  refine requestStart_keeps ?_ he
  split
  · exact setAside_keeps h
  · exact h

theorem orHits_keeps {pq : List Instr} {s : State} {u : DuId} {t : Nat} {h : BitVec 256} (hq : Keeps pq s) :
    Keeps pq (orHits s u t h) := by
  unfold orHits
  try dsimp only
  with_reducible repeat' (
    first
    | assumption | refine keeps_fst ?_ (by assumption) | refine keeps_foldl ?_ ?_
    | refine keeps_foldl_pair ?_ ?_ | refine State.orReg_keeps ?_ | split | intro _ | refine keeps_mk ?_)

theorem openEntry_keeps {pq : List Instr} {s : State} {u : DuId} {r : DispRun} (hq : Keeps pq s) :
    Keeps pq (openEntry s u r) := by
  unfold openEntry
  try dsimp only
  with_reducible repeat' (
    first
    | assumption | refine keeps_fst ?_ (by assumption) | refine State.setDu_keeps ?_
    | refine forceCancel_keeps ?_ | split | intro _ | refine keeps_mk ?_)

theorem countRun_keeps {pq : List Instr} {s : State} {u : DuId} {r : DispRun} (hq : Keeps pq s) :
    Keeps pq (countRun s u r) := by
  unfold countRun
  try dsimp only
  with_reducible repeat' (
    first
    | assumption | refine keeps_fst ?_ (by assumption) | refine State.count_keeps ?_
    | refine State.setDu_keeps ?_ | refine orHits_keeps ?_ | split | intro _ | refine keeps_mk ?_)

theorem runEvents_keeps {pq : List Instr} {s : State} {u : DuId} {r : DispRun} (hq : Keeps pq s) :
    Keeps pq (runEvents s u r) := by
  unfold runEvents
  try dsimp only
  with_reducible repeat' (
    first
    | assumption | refine keeps_fst ?_ (by assumption) | refine State.raise_keeps ?_
    | refine State.record_keeps ?_ | split | intro _ | refine keeps_mk ?_)

theorem runGone_keeps {pq : List Instr} {s : State} {u : DuId} {r : DispRun} (hq : Keeps pq s) :
    Keeps pq (runGone s u r) := by
  unfold runGone
  try dsimp only
  with_reducible repeat' (
    first
    | assumption | refine keeps_fst ?_ (by assumption) | refine State.setDu_keeps ?_
    | refine State.wr_keeps ?_ | split | intro _ | refine keeps_mk ?_)

theorem dispatchEffect_keeps {pq : List Instr} {s : State} {u : DuId} (hq : Keeps pq s) :
    Keeps pq (dispatchEffect s u) := by
  unfold dispatchEffect
  try dsimp only
  with_reducible repeat' (
    first
    | assumption | refine keeps_fst ?_ (by assumption) | refine keeps_foldl ?_ ?_
    | refine keeps_foldl_pair ?_ ?_ | refine State.record_keeps ?_ | refine State.setCore_keeps ?_
    | refine State.setUnit_keeps ?_ | refine countRun_keeps ?_ | refine duFlush_keeps ?_
    | refine openEntry_keeps ?_ | refine runEvents_keeps ?_ | refine runGone_keeps ?_
    | refine spWriteAny_keeps ?_ | refine wake_keeps ?_ | split | intro _ | refine keeps_mk ?_)

theorem tableIgnored_keeps {pq : List Instr} {s : State} {u : DuId} (hq : Keeps pq s) :
    Keeps pq (tableIgnored s u) := by
  unfold tableIgnored
  try dsimp only
  with_reducible repeat' (
    first
    | assumption | refine keeps_fst ?_ (by assumption) | refine State.raise_keeps ?_ | split | intro _
    | refine keeps_mk ?_)

theorem duCancel_keeps {pq : List Instr} {s : State} {u : DuId} {v : W64} (hq : Keeps pq s) :
    Keeps pq (duCancel s u v) := by
  unfold duCancel
  try dsimp only
  with_reducible repeat' (
    first
    | assumption | refine keeps_fst ?_ (by assumption) | refine keeps_foldl ?_ ?_
    | refine keeps_foldl_pair ?_ ?_ | refine cancelRun_keeps ?_ | refine forceCancel_keeps ?_ | split
    | intro _ | refine keeps_mk ?_)

theorem duStatclr_keeps {pq : List Instr} {s : State} {u : DuId} {v : W64} (hq : Keeps pq s) :
    Keeps pq (duStatclr s u v) := by
  unfold duStatclr
  try dsimp only
  with_reducible repeat' (
    first
    | assumption | refine keeps_fst ?_ (by assumption) | refine keeps_foldl ?_ ?_
    | refine keeps_foldl_pair ?_ ?_ | refine State.wr_keeps ?_ | split | intro _ | refine keeps_mk ?_)

theorem duOwner_keeps {pq : List Instr} {s : State} {u : DuId} {v : W64} (hq : Keeps pq s) :
    Keeps pq (duOwner s u v) := by
  unfold duOwner
  try dsimp only
  with_reducible repeat' (
    first
    | assumption | refine keeps_fst ?_ (by assumption) | refine keeps_foldl ?_ ?_
    | refine keeps_foldl_pair ?_ ?_ | refine State.wr_keeps ?_ | refine tableIgnored_keeps ?_ | split
    | intro _ | refine keeps_mk ?_)

theorem duTblEn_keeps {pq : List Instr} {s : State} {u : DuId} {v : W64} (hq : Keeps pq s) :
    Keeps pq (duTblEn s u v) := by
  unfold duTblEn
  try dsimp only
  with_reducible repeat' (
    first
    | assumption | refine keeps_fst ?_ (by assumption) | refine keeps_foldl ?_ ?_
    | refine keeps_foldl_pair ?_ ?_ | refine State.setDu_keeps ?_ | refine State.wr_keeps ?_ | split
    | intro _ | refine keeps_mk ?_)

theorem dtEntryWrite_keeps {pq : List Instr} {s : State} {u : DuId} {t e : Nat} {v : W64} (hq : Keeps pq s) :
    Keeps pq (dtEntryWrite s u t e v) := by
  unfold dtEntryWrite
  try dsimp only
  with_reducible repeat' (
    first
    | assumption | refine keeps_fst ?_ (by assumption) | refine State.wr_keeps ?_
    | refine tableIgnored_keeps ?_ | split | intro _ | refine keeps_mk ?_)

theorem dispIssue_keeps {pq : List Instr} {c : CoreId} {now : Bool} {us : List Upset} {o : Op} {s : State} (hq : Keeps pq s) :
    Keeps pq (dispIssue c now us o s) := by
  unfold dispIssue
  try dsimp only
  with_reducible repeat' (
    first
    | assumption | refine keeps_fst ?_ (by assumption) | refine keeps_snd ?_ (by assumption)
    | refine State.now_keeps ?_ | refine fabStart_keeps ?_ | refine issueTo_keeps ?_ | split | intro _
    | refine keeps_mk ?_)

theorem execDispRoute_keeps {pq : List Instr} {c : CoreId} {now : Bool} {us : List Upset} {s : State} {t' : State} (hq : Keeps pq s)
    (he : execDispRoute c now us s = .next t') : Keeps pq t' := by
  unfold execDispRoute at he
  injection he with he
  rw [← he]
  try dsimp only
  with_reducible repeat' (
    first
    | assumption | refine keeps_fst ?_ (by assumption) | refine keeps_snd ?_ (by assumption)
    | refine State.now_keeps ?_ | refine dispIssue_keeps ?_ | split | intro _ | refine keeps_mk ?_)

theorem execDispCommit_keeps {pq : List Instr} {c : CoreId} {now : Bool} {us : List Upset} {s : State} {t' : State} (hq : Keeps pq s)
    (he : execDispCommit c now us s = .next t') : Keeps pq t' := by
  unfold execDispCommit at he
  injection he with he
  rw [← he]
  try dsimp only
  with_reducible repeat' (
    first
    | assumption | refine keeps_fst ?_ (by assumption) | refine keeps_snd ?_ (by assumption)
    | refine State.now_keeps ?_ | refine dispIssue_keeps ?_ | split | intro _ | refine keeps_mk ?_)

theorem execDispCancel_keeps {pq : List Instr} {c : CoreId} {now : Bool} {us : List Upset} {s : State} {t' : State} (hq : Keeps pq s)
    (he : execDispCancel c now us s = .next t') : Keeps pq t' := by
  unfold execDispCancel at he
  injection he with he
  rw [← he]
  try dsimp only
  with_reducible repeat' (
    first
    | assumption | refine keeps_fst ?_ (by assumption) | refine keeps_snd ?_ (by assumption)
    | refine State.now_keeps ?_ | refine dispIssue_keeps ?_ | split | intro _ | refine keeps_mk ?_)

theorem execDispStat_keeps {pq : List Instr} {c : CoreId} {now : Bool} {us : List Upset} {s : State} {t' : State} (hq : Keeps pq s)
    (he : execDispStat c now us s = .next t') : Keeps pq t' := by
  unfold execDispStat at he
  injection he with he
  rw [← he]
  try dsimp only
  with_reducible repeat' (
    first
    | assumption | refine keeps_fst ?_ (by assumption) | refine keeps_snd ?_ (by assumption)
    | refine State.now_keeps ?_ | refine dispIssue_keeps ?_ | split | intro _ | refine keeps_mk ?_)

theorem execDispatchRequestStart_keeps {pq : List Instr} {u : DuId} {us : List Upset} {s : State} {t : State}
    (h : Keeps pq s) (he : execDispatchRequestStart u us s = .next t) : Keeps pq t :=
  dispatchStart_keeps (strike_keeps h) he

theorem execDispatchRequestEffect_keeps {pq : List Instr} {u : DuId} {us : List Upset} {s : State} {t' : State} (hq : Keeps pq s)
    (he : execDispatchRequestEffect u us s = .next t') : Keeps pq t' := by
  unfold execDispatchRequestEffect at he
  injection he with he
  rw [← he]
  try dsimp only
  with_reducible repeat' (
    first
    | assumption | refine keeps_fst ?_ (by assumption) | refine dispatchEffect_keeps ?_
    | refine strike_keeps ?_ | split | intro _ | refine keeps_mk ?_)

theorem execDuCancel_keeps {pq : List Instr} {u : DuId} {v : W64} {s : State} {t' : State} (hq : Keeps pq s)
    (he : execDuCancel u v s = .next t') : Keeps pq t' := by
  unfold execDuCancel at he
  injection he with he
  rw [← he]
  try dsimp only
  with_reducible repeat' (
    first
    | assumption | refine keeps_fst ?_ (by assumption) | refine State.ifOn_keeps ?_ ?_ 
    | refine duCancel_keeps ?_ | split | intro _ | refine keeps_mk ?_)

theorem execDuStatclr_keeps {pq : List Instr} {u : DuId} {v : W64} {s : State} {t' : State} (hq : Keeps pq s)
    (he : execDuStatclr u v s = .next t') : Keeps pq t' := by
  unfold execDuStatclr at he
  injection he with he
  rw [← he]
  try dsimp only
  with_reducible repeat' (
    first
    | assumption | refine keeps_fst ?_ (by assumption) | refine State.ifOn_keeps ?_ ?_ 
    | refine duStatclr_keeps ?_ | split | intro _ | refine keeps_mk ?_)

theorem execDuTblOwnerWrite_keeps {pq : List Instr} {u : DuId} {v : W64} {s : State} {t' : State} (hq : Keeps pq s)
    (he : execDuTblOwnerWrite u v s = .next t') : Keeps pq t' := by
  unfold execDuTblOwnerWrite at he
  injection he with he
  rw [← he]
  try dsimp only
  with_reducible repeat' (
    first
    | assumption | refine keeps_fst ?_ (by assumption) | refine State.ifOn_keeps ?_ ?_ 
    | refine duOwner_keeps ?_ | split | intro _ | refine keeps_mk ?_)

theorem execDuTblEnWrite_keeps {pq : List Instr} {u : DuId} {v : W64} {s : State} {t' : State} (hq : Keeps pq s)
    (he : execDuTblEnWrite u v s = .next t') : Keeps pq t' := by
  unfold execDuTblEnWrite at he
  injection he with he
  rw [← he]
  try dsimp only
  with_reducible repeat' (
    first
    | assumption | refine keeps_fst ?_ (by assumption) | refine State.ifOn_keeps ?_ ?_ 
    | refine duTblEn_keeps ?_ | split | intro _ | refine keeps_mk ?_)

theorem execDtEntryWrite_keeps {pq : List Instr} {u : DuId} {t : Fin 16} {e : QId} {v : W64} {s : State} {t' : State} (hq : Keeps pq s)
    (he : execDtEntryWrite u t e v s = .next t') : Keeps pq t' := by
  unfold execDtEntryWrite at he
  injection he with he
  rw [← he]
  try dsimp only
  with_reducible repeat' (
    first
    | assumption | refine keeps_fst ?_ (by assumption) | refine State.ifOn_keeps ?_ ?_ 
    | refine dtEntryWrite_keeps ?_ | split | intro _ | refine keeps_mk ?_)

end Sys2Proof.Machine
end

