-- ==== Sys2Proof/Laws/KeepsCoreSave.lean ====
section
/-!
SUPPORT. The operations of CoreSave keep the waiting commands and the canonical memories.
-/

-- The declarations of this file are elaborated in turn, so that checking the package as one text needs few threads.
set_option Elab.async false

namespace Sys2Proof.Machine

theorem regionOut_keeps {pq : List Instr} {job : Option Nat} {a n : Nat} {x : State × List Byte} (h : Keeps pq x.1) :
    Keeps pq (regionOut job a n x) := gddrOwn_keeps h

theorem saveRegion_keeps {pq : List Instr} {c : CoreId} {job : Option Nat} {base : Nat} {s : State} {r : Nat}
    (h : Keeps pq s) : Keeps pq (saveRegion c job base s r) := by
  unfold saveRegion
  exact regionOut_keeps (spReadAny_keeps h)

theorem saveImage_keeps {pq : List Instr} {s : State} {c : CoreId} {j k : Nat} {mask : W64} {status : BitVec 16} (hq : Keeps pq s) :
    Keeps pq (saveImage s c j k mask status) := by
  unfold saveImage
  try dsimp only
  with_reducible repeat' (
    first
    | assumption | refine keeps_fst ?_ (by assumption) | refine keeps_foldl ?_ ?_
    | refine keeps_foldl_pair ?_ ?_ | refine gddrOwn_keeps ?_ | refine saveRegion_keeps ?_ | split | intro _
    | refine keeps_mk ?_)

theorem clearSpan_keeps {pq : List Instr} {s : State} {c : CoreId} {a len : Nat} (h : Keeps pq s) :
    Keeps pq (clearSpan s c a len) := by
  unfold clearSpan
  exact dirtySp_keeps (keeps_loc h (memory_zero_wf _ _ _ (keeps_sp h c)))

theorem clearRegions_keeps {pq : List Instr} {s : State} {c : CoreId} {regions : List Nat} (h : Keeps pq s) :
    Keeps pq (clearRegions s c regions) := by
  unfold clearRegions
  refine keeps_foldl h ?_
  intro s r h
  dsimp only
  split
  · exact clearSpan_keeps h
  · exact keeps_foldl (spSomeOff_keeps h) (fun _ _ h => clearSpan_keeps h)

theorem handOver_keeps {pq : List Instr} {s : State} {c : CoreId} {v : Victim} (hq : Keeps pq s) :
    Keeps pq (handOver s c v) := by
  unfold handOver
  try dsimp only
  with_reducible repeat' (
    first
    | assumption | refine keeps_fst ?_ (by assumption) | refine State.count_keeps ?_
    | refine State.orReg_keeps ?_ | refine keeps_loc_same ?_ rfl | refine keeps_loc ?_ (keeps_sp ?_ _)
    | refine State.wr_keeps ?_ | refine clearRegions_keeps ?_ | refine preemptCheck_keeps ?_ | split
    | intro _ | refine keeps_mk ?_)

theorem saveComplete_keeps {pq : List Instr} {s : State} {c : CoreId} (hq : Keeps pq s) :
    Keeps pq (saveComplete s c) := by
  unfold saveComplete
  try dsimp only
  with_reducible repeat' (
    first
    | assumption | refine keeps_fst ?_ (by assumption) | refine keeps_foldl ?_ ?_
    | refine keeps_foldl_pair ?_ ?_ | refine State.coreEv_keeps ?_ | refine State.setUnit_keeps ?_
    | refine State.wr_keeps ?_ | refine enterHalted_keeps ?_ | refine handOver_keeps ?_
    | refine preemptCheck_keeps ?_ | refine saveImage_keeps ?_ | split | intro _ | refine keeps_mk ?_)

theorem restoreFixed_keeps {pq : List Instr} {s : State} {c : CoreId} {sv : Saved} {img : List Byte}
    (h : Keeps pq s) : Keeps pq (restoreFixed s c sv img) := by
  have key (k : Core) (u : Units) (l : Local) (hl : l.sp = (s.loc c).sp) :
      Keeps pq (((s.setCore c k).setUnit c u).setLoc c l) :=
    keeps_loc (State.setUnit_keeps (State.setCore_keeps h)) (hl ▸ keeps_sp h c)
  unfold restoreFixed
  dsimp only
  exact key _ _ _ rfl

theorem regionIn_keeps {pq : List Instr} {c : CoreId} {job : Option Nat} {off : Nat} {x : State × AccEnd}
    (h : Keeps pq x.1) : Keeps pq (regionIn c job off x) := by
  unfold regionIn
  split
  · exact spWriteAny_keeps h
  · exact h

theorem restoreRegion_keeps {pq : List Instr} {c : CoreId} {job : Option Nat} {base : Nat} {s : State} {r : Nat}
    (h : Keeps pq s) : Keeps pq (restoreRegion c job base s r) := by
  unfold restoreRegion
  exact regionIn_keeps (gddrOwn_keeps h)

theorem restoreRead_keeps {pq : List Instr} {s : State} {job : Option Nat} {base n : Nat} (hq : Keeps pq s) :
    Keeps pq (restoreRead s job base n).1 := by
  unfold restoreRead
  try dsimp only
  with_reducible repeat' (
    first
    | assumption | refine keeps_fst ?_ (by assumption) | refine keeps_snd ?_ (by assumption)
    | refine State.fresh_keeps ?_ | refine gddrOwn_keeps ?_ | split | intro _ | refine keeps_mk ?_)

theorem restoreRest_keeps {pq : List Instr} {s : State} {c : CoreId} {sv : Saved} {base : Nat} {step : Bool} {img : List Byte}
    (h : Keeps pq s) : Keeps pq (restoreRest s c sv base step img) := by
  unfold restoreRest
  generalize 0x12E00 = n
  dsimp only
  have h1 : ∀ rs, Keeps pq (List.foldl (restoreRegion c (some sv.job) base) (restoreFixed s c sv img) rs) := fun rs =>
    keeps_foldl (restoreFixed_keeps h) (fun _ _ hx => restoreRegion_keeps hx)
  have h2 (x : State) (hx : Keeps pq x) (saved : Table Saved) : Keeps pq { x with jobs := { x.jobs with saved := saved } } :=
    keeps_mk hx
  have h3 : ∀ (x : State) (k : Core), Keeps pq x → Keeps pq (retryHeld c 16 (x.setCore c k)) := fun _ _ hx =>
    retryHeld_keeps (State.setCore_keeps hx)
  split
  · exact startDrain_keeps (h3 _ _ (h2 _ (h1 _) _))
  · exact h3 _ _ (h2 _ (h1 _) _)

theorem restoreFrom_keeps {pq : List Instr} {n : Nat} {s : State} {c : CoreId} (h : Keeps pq s) : Keeps pq (restoreFrom n s c) := by
  have key (sv : Saved) (base : Nat) (step : Bool) (x : State × List Byte) (hx : Keeps pq x.1) :
      Keeps pq (restoreRest x.1 c sv base step x.2) := restoreRest_keeps hx
  have h2 (j : Option Nat) (b : Nat) : Keeps pq (restoreRead s j b n).1 := restoreRead_keeps h
  unfold restoreFrom
  generalize (s.core c).run = ru
  generalize savedOf s c = sa
  cases sa with
  | none => cases ru <;> exact h
  | some sv =>
    cases ru
    all_goals try exact h
    dsimp only
    have hr := h2 (some sv.job) (bivAddr s sv.job sv.slot)
    generalize restoreRead s (some sv.job) (bivAddr s sv.job sv.slot) n = back at hr ⊢
    split
    · exact h
    · exact key _ _ _ _ hr

theorem restoreComplete_keeps {pq : List Instr} {s : State} {c : CoreId} (h : Keeps pq s) : Keeps pq (restoreComplete s c) :=
  restoreFrom_keeps h

theorem coreGo_keeps {pq : List Instr} {s : State} {c : CoreId} {step : Bool} (hq : Keeps pq s) :
    Keeps pq (coreGo s c step) := by
  unfold coreGo
  try dsimp only
  with_reducible repeat' (
    first
    | assumption | refine keeps_fst ?_ (by assumption) | refine State.setCore_keeps ?_
    | refine beginBeat_keeps ?_ | split | intro _ | refine keeps_mk ?_)

theorem coreStop_keeps {pq : List Instr} {s : State} {c : CoreId} (hq : Keeps pq s) :
    Keeps pq (coreStop s c) := by
  unfold coreStop
  try dsimp only
  with_reducible repeat' (
    first
    | assumption | refine keeps_fst ?_ (by assumption) | refine State.setCore_keeps ?_
    | refine State.setUnit_keeps ?_ | refine startDrain_keeps ?_ | split | intro _ | refine keeps_mk ?_)

theorem yieldReq_keeps {pq : List Instr} {s : State} {c : CoreId} {on : Bool} (hq : Keeps pq s) :
    Keeps pq (yieldReq s c on) := by
  unfold yieldReq
  try dsimp only
  with_reducible repeat' (
    first
    | assumption | refine keeps_fst ?_ (by assumption) | refine State.wr_keeps ?_ | split | intro _
    | refine keeps_mk ?_)

theorem coreCtlWrite_keeps {pq : List Instr} {s : State} {c : CoreId} {v : W64} (hq : Keeps pq s) :
    Keeps pq (coreCtlWrite s c v) := by
  unfold coreCtlWrite
  try dsimp only
  with_reducible repeat' (
    first
    | assumption | refine keeps_fst ?_ (by assumption) | refine coreGo_keeps ?_ | refine coreStop_keeps ?_
    | refine yieldReq_keeps ?_ | split | intro _ | refine keeps_mk ?_)

theorem execCoreStart_keeps {pq : List Instr} {c : CoreId} {s : State} {t' : State} (hq : Keeps pq s)
    (he : execCoreStart c s = .next t') : Keeps pq t' := by
  unfold execCoreStart at he
  injection he with he
  rw [← he]
  try dsimp only
  with_reducible repeat' (
    first
    | assumption | refine keeps_fst ?_ (by assumption) | refine State.ifOn_keeps ?_ ?_ 
    | refine coreGo_keeps ?_ | split | intro _ | refine keeps_mk ?_)

theorem execCoreStop_keeps {pq : List Instr} {c : CoreId} {s : State} {t' : State} (hq : Keeps pq s)
    (he : execCoreStop c s = .next t') : Keeps pq t' := by
  unfold execCoreStop at he
  injection he with he
  rw [← he]
  try dsimp only
  with_reducible repeat' (
    first
    | assumption | refine keeps_fst ?_ (by assumption) | refine State.ifOn_keeps ?_ ?_ 
    | refine coreStop_keeps ?_ | split | intro _ | refine keeps_mk ?_)

theorem execCoreStep_keeps {pq : List Instr} {c : CoreId} {s : State} {t' : State} (hq : Keeps pq s)
    (he : execCoreStep c s = .next t') : Keeps pq t' := by
  unfold execCoreStep at he
  injection he with he
  rw [← he]
  try dsimp only
  with_reducible repeat' (
    first
    | assumption | refine keeps_fst ?_ (by assumption) | refine State.ifOn_keeps ?_ ?_ 
    | refine coreGo_keeps ?_ | split | intro _ | refine keeps_mk ?_)

theorem execYieldReq_keeps {pq : List Instr} {c : CoreId} {s : State} {t' : State} (hq : Keeps pq s)
    (he : execYieldReq c s = .next t') : Keeps pq t' := by
  unfold execYieldReq at he
  injection he with he
  rw [← he]
  try dsimp only
  with_reducible repeat' (
    first
    | assumption | refine keeps_fst ?_ (by assumption) | refine State.ifOn_keeps ?_ ?_ 
    | refine yieldReq_keeps ?_ | split | intro _ | refine keeps_mk ?_)

theorem execCoreSaveComplete_keeps {pq : List Instr} {c : CoreId} {us : List Upset} {s : State} {t' : State} (hq : Keeps pq s)
    (he : execCoreSaveComplete c us s = .next t') : Keeps pq t' := by
  unfold execCoreSaveComplete at he
  injection he with he
  rw [← he]
  try dsimp only
  with_reducible repeat' (
    first
    | assumption | refine keeps_fst ?_ (by assumption) | refine State.live_keeps ?_ ?_ 
    | refine saveComplete_keeps ?_ | refine strike_keeps ?_ | split | intro _ | refine keeps_mk ?_)

theorem execCoreRestoreComplete_keeps {pq : List Instr} {c : CoreId} {us : List Upset} {s : State} {t' : State} (hq : Keeps pq s)
    (he : execCoreRestoreComplete c us s = .next t') : Keeps pq t' := by
  unfold execCoreRestoreComplete at he
  injection he with he
  rw [← he]
  try dsimp only
  with_reducible repeat' (
    first
    | assumption | refine keeps_fst ?_ (by assumption) | refine State.live_keeps ?_ ?_ 
    | refine restoreComplete_keeps ?_ | refine strike_keeps ?_ | split | intro _ | refine keeps_mk ?_)

end Sys2Proof.Machine
end

