-- ==== Sys2Proof/Laws/KeepsCoreCmds.lean ====
section
/-!
SUPPORT. The operations of CoreCmds keep the waiting commands and the canonical memories.
-/

-- The declarations of this file are elaborated in turn, so that checking the package as one text needs few threads.
set_option Elab.async false

namespace Sys2Proof.Machine

theorem veIssue_keeps {pq : List Instr} {c : CoreId} {now : Bool} {us : List Upset} {o : Op} {s : State} (hq : Keeps pq s) :
    Keeps pq (veIssue c now us o s) := by
  unfold veIssue
  try dsimp only
  with_reducible repeat' (
    first
    | assumption | refine keeps_fst ?_ (by assumption) | refine keeps_snd ?_ (by assumption)
    | refine State.now_keeps ?_ | refine State.setCore_keeps ?_ | refine enqueue_keeps ?_
    | refine issue_keeps ?_ ?_  | refine retire_keeps ?_ | refine veComplete_keeps ?_
    | refine veStart_keeps ?_ | split | intro _ | refine keeps_mk ?_)

theorem execVld_keeps {pq : List Instr} {c : CoreId} {now : Bool} {us : List Upset} {s : State} {t' : State} (hq : Keeps pq s)
    (he : execVld c now us s = .next t') : Keeps pq t' := by
  unfold execVld at he
  injection he with he
  rw [← he]
  try dsimp only
  with_reducible repeat' (
    first
    | assumption | refine keeps_fst ?_ (by assumption) | refine keeps_snd ?_ (by assumption)
    | refine State.now_keeps ?_ | refine veIssue_keeps ?_ | split | intro _ | refine keeps_mk ?_)

theorem execVst_keeps {pq : List Instr} {c : CoreId} {now : Bool} {us : List Upset} {s : State} {t' : State} (hq : Keeps pq s)
    (he : execVst c now us s = .next t') : Keeps pq t' := by
  unfold execVst at he
  injection he with he
  rw [← he]
  try dsimp only
  with_reducible repeat' (
    first
    | assumption | refine keeps_fst ?_ (by assumption) | refine keeps_snd ?_ (by assumption)
    | refine State.now_keeps ?_ | refine veIssue_keeps ?_ | split | intro _ | refine keeps_mk ?_)

theorem execVadd_keeps {pq : List Instr} {c : CoreId} {now : Bool} {us : List Upset} {s : State} {t' : State} (hq : Keeps pq s)
    (he : execVadd c now us s = .next t') : Keeps pq t' := by
  unfold execVadd at he
  injection he with he
  rw [← he]
  try dsimp only
  with_reducible repeat' (
    first
    | assumption | refine keeps_fst ?_ (by assumption) | refine keeps_snd ?_ (by assumption)
    | refine State.now_keeps ?_ | refine veIssue_keeps ?_ | split | intro _ | refine keeps_mk ?_)

theorem execVsub_keeps {pq : List Instr} {c : CoreId} {now : Bool} {us : List Upset} {s : State} {t' : State} (hq : Keeps pq s)
    (he : execVsub c now us s = .next t') : Keeps pq t' := by
  unfold execVsub at he
  injection he with he
  rw [← he]
  try dsimp only
  with_reducible repeat' (
    first
    | assumption | refine keeps_fst ?_ (by assumption) | refine keeps_snd ?_ (by assumption)
    | refine State.now_keeps ?_ | refine veIssue_keeps ?_ | split | intro _ | refine keeps_mk ?_)

theorem execVmul_keeps {pq : List Instr} {c : CoreId} {now : Bool} {us : List Upset} {s : State} {t' : State} (hq : Keeps pq s)
    (he : execVmul c now us s = .next t') : Keeps pq t' := by
  unfold execVmul at he
  injection he with he
  rw [← he]
  try dsimp only
  with_reducible repeat' (
    first
    | assumption | refine keeps_fst ?_ (by assumption) | refine keeps_snd ?_ (by assumption)
    | refine State.now_keeps ?_ | refine veIssue_keeps ?_ | split | intro _ | refine keeps_mk ?_)

theorem execVfma_keeps {pq : List Instr} {c : CoreId} {now : Bool} {us : List Upset} {s : State} {t' : State} (hq : Keeps pq s)
    (he : execVfma c now us s = .next t') : Keeps pq t' := by
  unfold execVfma at he
  injection he with he
  rw [← he]
  try dsimp only
  with_reducible repeat' (
    first
    | assumption | refine keeps_fst ?_ (by assumption) | refine keeps_snd ?_ (by assumption)
    | refine State.now_keeps ?_ | refine veIssue_keeps ?_ | split | intro _ | refine keeps_mk ?_)

theorem execVmax_keeps {pq : List Instr} {c : CoreId} {now : Bool} {us : List Upset} {s : State} {t' : State} (hq : Keeps pq s)
    (he : execVmax c now us s = .next t') : Keeps pq t' := by
  unfold execVmax at he
  injection he with he
  rw [← he]
  try dsimp only
  with_reducible repeat' (
    first
    | assumption | refine keeps_fst ?_ (by assumption) | refine keeps_snd ?_ (by assumption)
    | refine State.now_keeps ?_ | refine veIssue_keeps ?_ | split | intro _ | refine keeps_mk ?_)

theorem execVmin_keeps {pq : List Instr} {c : CoreId} {now : Bool} {us : List Upset} {s : State} {t' : State} (hq : Keeps pq s)
    (he : execVmin c now us s = .next t') : Keeps pq t' := by
  unfold execVmin at he
  injection he with he
  rw [← he]
  try dsimp only
  with_reducible repeat' (
    first
    | assumption | refine keeps_fst ?_ (by assumption) | refine keeps_snd ?_ (by assumption)
    | refine State.now_keeps ?_ | refine veIssue_keeps ?_ | split | intro _ | refine keeps_mk ?_)

theorem execVcvt_keeps {pq : List Instr} {c : CoreId} {now : Bool} {us : List Upset} {s : State} {t' : State} (hq : Keeps pq s)
    (he : execVcvt c now us s = .next t') : Keeps pq t' := by
  unfold execVcvt at he
  injection he with he
  rw [← he]
  try dsimp only
  with_reducible repeat' (
    first
    | assumption | refine keeps_fst ?_ (by assumption) | refine keeps_snd ?_ (by assumption)
    | refine State.now_keeps ?_ | refine veIssue_keeps ?_ | split | intro _ | refine keeps_mk ?_)

theorem execVquant_keeps {pq : List Instr} {c : CoreId} {now : Bool} {us : List Upset} {s : State} {t' : State} (hq : Keeps pq s)
    (he : execVquant c now us s = .next t') : Keeps pq t' := by
  unfold execVquant at he
  injection he with he
  rw [← he]
  try dsimp only
  with_reducible repeat' (
    first
    | assumption | refine keeps_fst ?_ (by assumption) | refine keeps_snd ?_ (by assumption)
    | refine State.now_keeps ?_ | refine veIssue_keeps ?_ | split | intro _ | refine keeps_mk ?_)

theorem execVdeq_keeps {pq : List Instr} {c : CoreId} {now : Bool} {us : List Upset} {s : State} {t' : State} (hq : Keeps pq s)
    (he : execVdeq c now us s = .next t') : Keeps pq t' := by
  unfold execVdeq at he
  injection he with he
  rw [← he]
  try dsimp only
  with_reducible repeat' (
    first
    | assumption | refine keeps_fst ?_ (by assumption) | refine keeps_snd ?_ (by assumption)
    | refine State.now_keeps ?_ | refine veIssue_keeps ?_ | split | intro _ | refine keeps_mk ?_)

theorem execVhad_keeps {pq : List Instr} {c : CoreId} {now : Bool} {us : List Upset} {s : State} {t' : State} (hq : Keeps pq s)
    (he : execVhad c now us s = .next t') : Keeps pq t' := by
  unfold execVhad at he
  injection he with he
  rw [← he]
  try dsimp only
  with_reducible repeat' (
    first
    | assumption | refine keeps_fst ?_ (by assumption) | refine keeps_snd ?_ (by assumption)
    | refine State.now_keeps ?_ | refine veIssue_keeps ?_ | split | intro _ | refine keeps_mk ?_)

theorem execVred_keeps {pq : List Instr} {c : CoreId} {now : Bool} {us : List Upset} {s : State} {t' : State} (hq : Keeps pq s)
    (he : execVred c now us s = .next t') : Keeps pq t' := by
  unfold execVred at he
  injection he with he
  rw [← he]
  try dsimp only
  with_reducible repeat' (
    first
    | assumption | refine keeps_fst ?_ (by assumption) | refine keeps_snd ?_ (by assumption)
    | refine State.now_keeps ?_ | refine veIssue_keeps ?_ | split | intro _ | refine keeps_mk ?_)

theorem execVcbld_keeps {pq : List Instr} {c : CoreId} {now : Bool} {us : List Upset} {s : State} {t' : State} (hq : Keeps pq s)
    (he : execVcbld c now us s = .next t') : Keeps pq t' := by
  unfold execVcbld at he
  injection he with he
  rw [← he]
  try dsimp only
  with_reducible repeat' (
    first
    | assumption | refine keeps_fst ?_ (by assumption) | refine keeps_snd ?_ (by assumption)
    | refine State.now_keeps ?_ | refine veIssue_keeps ?_ | split | intro _ | refine keeps_mk ?_)

theorem execVhist_keeps {pq : List Instr} {c : CoreId} {now : Bool} {us : List Upset} {s : State} {t' : State} (hq : Keeps pq s)
    (he : execVhist c now us s = .next t') : Keeps pq t' := by
  unfold execVhist at he
  injection he with he
  rw [← he]
  try dsimp only
  with_reducible repeat' (
    first
    | assumption | refine keeps_fst ?_ (by assumption) | refine keeps_snd ?_ (by assumption)
    | refine State.now_keeps ?_ | refine veIssue_keeps ?_ | split | intro _ | refine keeps_mk ?_)

theorem execVste_keeps {pq : List Instr} {c : CoreId} {now : Bool} {us : List Upset} {s : State} {t' : State} (hq : Keeps pq s)
    (he : execVste c now us s = .next t') : Keeps pq t' := by
  unfold execVste at he
  injection he with he
  rw [← he]
  try dsimp only
  with_reducible repeat' (
    first
    | assumption | refine keeps_fst ?_ (by assumption) | refine keeps_snd ?_ (by assumption)
    | refine State.now_keeps ?_ | refine veIssue_keeps ?_ | split | intro _ | refine keeps_mk ?_)

theorem execVfix_keeps {pq : List Instr} {c : CoreId} {now : Bool} {us : List Upset} {s : State} {t' : State} (hq : Keeps pq s)
    (he : execVfix c now us s = .next t') : Keeps pq t' := by
  unfold execVfix at he
  injection he with he
  rw [← he]
  try dsimp only
  with_reducible repeat' (
    first
    | assumption | refine keeps_fst ?_ (by assumption) | refine keeps_snd ?_ (by assumption)
    | refine State.now_keeps ?_ | refine veIssue_keeps ?_ | split | intro _ | refine keeps_mk ?_)

theorem execVaddx_keeps {pq : List Instr} {c : CoreId} {now : Bool} {us : List Upset} {s : State} {t' : State} (hq : Keeps pq s)
    (he : execVaddx c now us s = .next t') : Keeps pq t' := by
  unfold execVaddx at he
  injection he with he
  rw [← he]
  try dsimp only
  with_reducible repeat' (
    first
    | assumption | refine keeps_fst ?_ (by assumption) | refine keeps_snd ?_ (by assumption)
    | refine State.now_keeps ?_ | refine veIssue_keeps ?_ | split | intro _ | refine keeps_mk ?_)

theorem execVsel_keeps {pq : List Instr} {c : CoreId} {now : Bool} {us : List Upset} {s : State} {t' : State} (hq : Keeps pq s)
    (he : execVsel c now us s = .next t') : Keeps pq t' := by
  unfold execVsel at he
  injection he with he
  rw [← he]
  try dsimp only
  with_reducible repeat' (
    first
    | assumption | refine keeps_fst ?_ (by assumption) | refine keeps_snd ?_ (by assumption)
    | refine State.now_keeps ?_ | refine veIssue_keeps ?_ | split | intro _ | refine keeps_mk ?_)

theorem execVbcast_keeps {pq : List Instr} {c : CoreId} {now : Bool} {us : List Upset} {s : State} {t' : State} (hq : Keeps pq s)
    (he : execVbcast c now us s = .next t') : Keeps pq t' := by
  unfold execVbcast at he
  injection he with he
  rw [← he]
  try dsimp only
  with_reducible repeat' (
    first
    | assumption | refine keeps_fst ?_ (by assumption) | refine keeps_snd ?_ (by assumption)
    | refine State.now_keeps ?_ | refine veIssue_keeps ?_ | split | intro _ | refine keeps_mk ?_)

theorem execVmovs_keeps {pq : List Instr} {c : CoreId} {now : Bool} {us : List Upset} {s : State} {t' : State} (hq : Keeps pq s)
    (he : execVmovs c now us s = .next t') : Keeps pq t' := by
  unfold execVmovs at he
  injection he with he
  rw [← he]
  try dsimp only
  with_reducible repeat' (
    first
    | assumption | refine keeps_fst ?_ (by assumption) | refine keeps_snd ?_ (by assumption)
    | refine State.now_keeps ?_ | refine veIssue_keeps ?_ | split | intro _ | refine keeps_mk ?_)

theorem execPass_keeps {pq : List Instr} {c : CoreId} {us : List Upset} {s : State} {t' : State} (hq : Keeps pq s)
    (he : execPass c us s = .next t') : Keeps pq t' := by
  unfold execPass at he
  injection he with he
  rw [← he]
  try dsimp only
  with_reducible repeat' (
    first
    | assumption | refine keeps_fst ?_ (by assumption) | refine enqueue_keeps ?_ | refine issue_keeps ?_ ?_ 
    | refine pairUp_keeps ?_ | refine retire_keeps ?_ | split | intro _ | refine keeps_mk ?_)

theorem execPassStart_keeps {pq : List Instr} {c : CoreId} {u : MuId} {us : List Upset} {s : State} {t' : State} (hq : Keeps pq s)
    (he : execPassStart c u us s = .next t') : Keeps pq t' := by
  unfold execPassStart at he
  injection he with he
  rw [← he]
  try dsimp only
  with_reducible repeat' (
    first
    | assumption | refine keeps_fst ?_ (by assumption) | refine passStart_keeps ?_ | refine strike_keeps ?_
    | refine wake_keeps ?_ | split | intro _ | refine keeps_mk ?_)

theorem execPassComplete_keeps {pq : List Instr} {c : CoreId} {u : MuId} {f : CheckFault} {us : List Upset} {s : State} {t' : State} (hq : Keeps pq s)
    (he : execPassComplete c u f us s = .next t') : Keeps pq t' := by
  unfold execPassComplete at he
  injection he with he
  rw [← he]
  try dsimp only
  with_reducible repeat' (
    first
    | assumption | refine keeps_fst ?_ (by assumption) | refine State.live_keeps ?_ ?_ 
    | refine passComplete_keeps ?_ | refine strike_keeps ?_ | refine wake_keeps ?_ | split | intro _
    | refine keeps_mk ?_)

theorem unitStart_keeps {pq : List Instr} {s : State} {c : CoreId} {u : UnitSel} (hq : Keeps pq s) :
    Keeps pq (unitStart s c u) := by
  unfold unitStart
  try dsimp only
  with_reducible repeat' (
    first
    | assumption | refine keeps_fst ?_ (by assumption) | refine dmaStart_keeps ?_ | refine fabStart_keeps ?_
    | refine passStart_keeps ?_ | refine veStart_keeps ?_ | split | intro _ | refine keeps_mk ?_)

theorem unitComplete_keeps {pq : List Instr} {s : State} {c : CoreId} {u : UnitSel} (hq : Keeps pq s) :
    Keeps pq (unitComplete s c u) := by
  unfold unitComplete
  try dsimp only
  with_reducible repeat' (
    first
    | assumption | refine keeps_fst ?_ (by assumption) | refine keeps_foldl ?_ ?_
    | refine keeps_foldl_pair ?_ ?_ | refine dmaComplete_keeps ?_ | refine fabComplete_keeps ?_
    | refine passComplete_keeps ?_ | refine veComplete_keeps ?_ | split | intro _ | refine keeps_mk ?_)

theorem execUnitInstrStart_keeps {pq : List Instr} {c : CoreId} {u : UnitSel} {us : List Upset} {s : State} {t' : State} (hq : Keeps pq s)
    (he : execUnitInstrStart c u us s = .next t') : Keeps pq t' := by
  unfold execUnitInstrStart at he
  injection he with he
  rw [← he]
  try dsimp only
  with_reducible repeat' (
    first
    | assumption | refine keeps_fst ?_ (by assumption) | refine strike_keeps ?_ | refine unitStart_keeps ?_
    | refine wake_keeps ?_ | split | intro _ | refine keeps_mk ?_)

theorem execUnitInstrComplete_keeps {pq : List Instr} {c : CoreId} {u : UnitSel} {us : List Upset} {s : State} {t' : State} (hq : Keeps pq s)
    (he : execUnitInstrComplete c u us s = .next t') : Keeps pq t' := by
  unfold execUnitInstrComplete at he
  injection he with he
  rw [← he]
  try dsimp only
  with_reducible repeat' (
    first
    | assumption | refine keeps_fst ?_ (by assumption) | refine State.live_keeps ?_ ?_ 
    | refine strike_keeps ?_ | refine unitComplete_keeps ?_ | refine wake_keeps ?_ | split | intro _
    | refine keeps_mk ?_)

theorem imemRunning_keeps {pq : List Instr} {s : State} {c : CoreId} (hq : Keeps pq s) :
    Keeps pq (imemRunning s c) := by
  unfold imemRunning
  try dsimp only
  with_reducible repeat' (
    first
    | assumption | refine keeps_fst ?_ (by assumption) | refine State.coreEv_keeps ?_ | split | intro _
    | refine keeps_mk ?_)

theorem imemNext_keeps {pq : List Instr} {s : State} {c : CoreId} (hq : Keeps pq s) :
    Keeps pq (imemNext s c) := by
  unfold imemNext
  try dsimp only
  with_reducible repeat' (
    first
    | assumption | refine keeps_fst ?_ (by assumption) | refine State.wr_keeps ?_ | split | intro _
    | refine keeps_mk ?_)

theorem imemStore_keeps {pq : List Instr} {s : State} {c : CoreId} {i : Nat} {w : W128} (hq : Keeps pq s) :
    Keeps pq (imemStore s c i w) := by
  unfold imemStore
  try dsimp only
  with_reducible repeat' (
    first
    | assumption | refine keeps_fst ?_ (by assumption) | refine State.setCore_keeps ?_ | split | intro _
    | refine keeps_mk ?_)

theorem imemLo_keeps {pq : List Instr} {s : State} {c : CoreId} {v : W64} (hq : Keeps pq s) :
    Keeps pq (imemLo s c v) := by
  unfold imemLo
  try dsimp only
  with_reducible repeat' (
    first
    | assumption | refine keeps_fst ?_ (by assumption) | refine State.wr_keeps ?_
    | refine imemRunning_keeps ?_ | split | intro _ | refine keeps_mk ?_)

theorem imemHi_keeps {pq : List Instr} {s : State} {c : CoreId} {v : W64} (hq : Keeps pq s) :
    Keeps pq (imemHi s c v) := by
  unfold imemHi
  try dsimp only
  with_reducible repeat' (
    first
    | assumption | refine keeps_fst ?_ (by assumption) | refine imemNext_keeps ?_
    | refine imemRunning_keeps ?_ | refine imemStore_keeps ?_ | split | intro _ | refine keeps_mk ?_)

theorem answer_keeps {pq : List Instr} {s : State} {o : HostOut} (hq : Keeps pq s) :
    Keeps pq (answer s o) := by
  unfold answer
  try dsimp only
  with_reducible repeat' (
    first
    | assumption | refine keeps_fst ?_ (by assumption) | split | intro _ | refine keeps_mk ?_)

theorem execImemDataLoWrite_keeps {pq : List Instr} {c : CoreId} {v : W64} {s : State} {t' : State} (hq : Keeps pq s)
    (he : execImemDataLoWrite c v s = .next t') : Keeps pq t' := by
  unfold execImemDataLoWrite at he
  injection he with he
  rw [← he]
  try dsimp only
  with_reducible repeat' (
    first
    | assumption | refine keeps_fst ?_ (by assumption) | refine State.ifOn_keeps ?_ ?_ 
    | refine imemLo_keeps ?_ | split | intro _ | refine keeps_mk ?_)

theorem execImemDataHiWrite_keeps {pq : List Instr} {c : CoreId} {v : W64} {s : State} {t' : State} (hq : Keeps pq s)
    (he : execImemDataHiWrite c v s = .next t') : Keeps pq t' := by
  unfold execImemDataHiWrite at he
  injection he with he
  rw [← he]
  try dsimp only
  with_reducible repeat' (
    first
    | assumption | refine keeps_fst ?_ (by assumption) | refine State.ifOn_keeps ?_ ?_ 
    | refine imemHi_keeps ?_ | split | intro _ | refine keeps_mk ?_)

theorem execImemDataHiRead_keeps {pq : List Instr} {c : CoreId} {s : State} {t' : State} (hq : Keeps pq s)
    (he : execImemDataHiRead c s = .next t') : Keeps pq t' := by
  unfold execImemDataHiRead at he
  injection he with he
  rw [← he]
  try dsimp only
  with_reducible repeat' (
    first
    | assumption | refine keeps_fst ?_ (by assumption) | refine answer_keeps ?_ | refine imemNext_keeps ?_
    | split | intro _ | refine keeps_mk ?_)

theorem muSpare_keeps {pq : List Instr} {s : State} {c : CoreId} {u : MuId} {v : W64} (hq : Keeps pq s) :
    Keeps pq (muSpare s c u v) := by
  unfold muSpare
  try dsimp only
  with_reducible repeat' (
    first
    | assumption | refine keeps_fst ?_ (by assumption) | refine State.wr_keeps ?_ | refine muEv_keeps ?_
    | split | intro _ | refine keeps_mk ?_)

theorem muRepair_keeps {pq : List Instr} {s : State} {c : CoreId} {u : MuId} {v : W64} (h : Keeps pq s) :
    Keeps pq (muRepair s c u v) := by
  have ht : Keeps pq (muSpare s c u v) := muSpare_keeps h
  unfold muRepair
  dsimp only
  split
  · exact ht
  · exact keeps_sec ht (memory_write_wf _ _ _ ht.2.2.2.2.1) ht.2.2.2.2.2

theorem repairCore_keeps {pq : List Instr} {s : State} {c : CoreId} (hq : Keeps pq s) :
    Keeps pq (repairCore s c) := by
  unfold repairCore
  try dsimp only
  with_reducible repeat' (
    first
    | assumption | refine keeps_fst ?_ (by assumption) | refine keeps_foldl ?_ ?_
    | refine keeps_foldl_pair ?_ ?_ | refine State.wr_keeps ?_ | split | intro _ | refine keeps_mk ?_)

theorem execMuSpareWrite_keeps {pq : List Instr} {c : CoreId} {u : MuId} {v : W64} {s : State} {t' : State} (hq : Keeps pq s)
    (he : execMuSpareWrite c u v s = .next t') : Keeps pq t' := by
  unfold execMuSpareWrite at he
  injection he with he
  rw [← he]
  try dsimp only
  with_reducible repeat' (
    first
    | assumption | refine keeps_fst ?_ (by assumption) | refine State.ifOn_keeps ?_ ?_ 
    | refine muRepair_keeps ?_ | split | intro _ | refine keeps_mk ?_)

theorem vqClr_keeps {pq : List Instr} {s : State} {c : CoreId} {v : W64} (hq : Keeps pq s) :
    Keeps pq (vqClr s c v) := by
  unfold vqClr
  try dsimp only
  with_reducible repeat' (
    first
    | assumption | refine keeps_fst ?_ (by assumption) | refine keeps_foldl ?_ ?_
    | refine keeps_foldl_pair ?_ ?_ | refine keeps_loc_same ?_ rfl | refine keeps_loc ?_ (keeps_sp ?_ _)
    | refine State.wr_keeps ?_ | split | intro _ | refine keeps_mk ?_)

theorem execVqClr_keeps {pq : List Instr} {c : CoreId} {v : W64} {s : State} {t' : State} (hq : Keeps pq s)
    (he : execVqClr c v s = .next t') : Keeps pq t' := by
  unfold execVqClr at he
  injection he with he
  rw [← he]
  try dsimp only
  with_reducible repeat' (
    first
    | assumption | refine keeps_fst ?_ (by assumption) | refine State.ifOn_keeps ?_ ?_ 
    | refine vqClr_keeps ?_ | split | intro _ | refine keeps_mk ?_)

theorem laneRewrite_keeps {pq : List Instr} {s : State} {c : CoreId} (hq : Keeps pq s) :
    Keeps pq (laneRewrite s c) := by
  unfold laneRewrite
  try dsimp only
  with_reducible repeat' (
    first
    | assumption | refine keeps_fst ?_ (by assumption) | refine keeps_loc_same ?_ rfl
    | refine keeps_loc ?_ (keeps_sp ?_ _) | split | intro _ | refine keeps_mk ?_)

theorem execSpLaneRewrite_keeps {pq : List Instr} {c : CoreId} {us : List Upset} {s : State} {t' : State} (hq : Keeps pq s)
    (he : execSpLaneRewrite c us s = .next t') : Keeps pq t' := by
  unfold execSpLaneRewrite at he
  injection he with he
  rw [← he]
  try dsimp only
  with_reducible repeat' (
    first
    | assumption | refine keeps_fst ?_ (by assumption) | refine State.live_keeps ?_ ?_ 
    | refine laneRewrite_keeps ?_ | refine strike_keeps ?_ | split | intro _ | refine keeps_mk ?_)

theorem spClear_keeps {pq : List Instr} {s : State} {c : CoreId} {v : W64} (hq : Keeps pq s) :
    Keeps pq (spClear s c v) := by
  unfold spClear
  try dsimp only
  with_reducible repeat' (
    first
    | assumption | refine keeps_fst ?_ (by assumption) | refine keeps_loc_same ?_ rfl
    | refine keeps_loc ?_ (keeps_sp ?_ _) | split | intro _ | refine keeps_mk ?_)

theorem spClearDone_keeps {pq : List Instr} {s : State} {c : CoreId} (hq : Keeps pq s) :
    Keeps pq (spClearDone s c) := by
  unfold spClearDone
  try dsimp only
  with_reducible repeat' (
    first
    | assumption | refine keeps_fst ?_ (by assumption) | refine State.coreEv_keeps ?_
    | refine keeps_loc_same ?_ rfl | refine keeps_loc ?_ (keeps_sp ?_ _) | refine clearRegions_keeps ?_
    | split | intro _ | refine keeps_mk ?_)

theorem execSpClear_keeps {pq : List Instr} {c : CoreId} {v : W64} {s : State} {t' : State} (hq : Keeps pq s)
    (he : execSpClear c v s = .next t') : Keeps pq t' := by
  unfold execSpClear at he
  injection he with he
  rw [← he]
  try dsimp only
  with_reducible repeat' (
    first
    | assumption | refine keeps_fst ?_ (by assumption) | refine State.ifOn_keeps ?_ ?_ 
    | refine spClear_keeps ?_ | split | intro _ | refine keeps_mk ?_)

theorem execSpClearComplete_keeps {pq : List Instr} {c : CoreId} {us : List Upset} {s : State} {t' : State} (hq : Keeps pq s)
    (he : execSpClearComplete c us s = .next t') : Keeps pq t' := by
  unfold execSpClearComplete at he
  injection he with he
  rw [← he]
  try dsimp only
  with_reducible repeat' (
    first
    | assumption | refine keeps_fst ?_ (by assumption) | refine State.live_keeps ?_ ?_ 
    | refine spClearDone_keeps ?_ | refine strike_keeps ?_ | split | intro _ | refine keeps_mk ?_)

theorem bankPwr_keeps {pq : List Instr} {s : State} {c : CoreId} {w : Nat} {v : W64} (hq : Keeps pq s) :
    Keeps pq (bankPwr s c w v) := by
  unfold bankPwr
  try dsimp only
  with_reducible repeat' (
    first
    | assumption | refine keeps_fst ?_ (by assumption) | refine keeps_loc_same ?_ rfl
    | refine keeps_loc ?_ (keeps_sp ?_ _) | refine State.wr_keeps ?_ | split | intro _ | refine keeps_mk ?_)

theorem bankLose_keeps {pq : List Instr} {s : State} {c : CoreId} {b : Nat} (h : Keeps pq s) :
    Keeps pq (bankLose s c b) := by
  unfold bankLose
  exact keeps_loc h (memory_filter_wf _ _ (keeps_sp h c))

theorem bankDone_keeps {pq : List Instr} {s : State} {c : CoreId} {b : Fin 64} (hq : Keeps pq s) :
    Keeps pq (bankDone s c b) := by
  unfold bankDone
  try dsimp only
  with_reducible repeat' (
    first
    | assumption | refine keeps_fst ?_ (by assumption) | refine State.coreEv_keeps ?_
    | refine keeps_loc_same ?_ rfl | refine keeps_loc ?_ (keeps_sp ?_ _) | refine bankLose_keeps ?_ | split
    | intro _ | refine keeps_mk ?_)

theorem execSpBankPwr_keeps {pq : List Instr} {c : CoreId} {w : Fin 2} {v : W64} {s : State} {t' : State} (hq : Keeps pq s)
    (he : execSpBankPwr c w v s = .next t') : Keeps pq t' := by
  unfold execSpBankPwr at he
  injection he with he
  rw [← he]
  try dsimp only
  with_reducible repeat' (
    first
    | assumption | refine keeps_fst ?_ (by assumption) | refine State.ifOn_keeps ?_ ?_ 
    | refine bankPwr_keeps ?_ | split | intro _ | refine keeps_mk ?_)

theorem execBankTransitionComplete_keeps {pq : List Instr} {c : CoreId} {b : Fin 64} {s : State} {t' : State} (hq : Keeps pq s)
    (he : execBankTransitionComplete c b s = .next t') : Keeps pq t' := by
  unfold execBankTransitionComplete at he
  injection he with he
  rw [← he]
  try dsimp only
  with_reducible repeat' (
    first
    | assumption | refine keeps_fst ?_ (by assumption) | refine State.live_keeps ?_ ?_ 
    | refine bankDone_keeps ?_ | split | intro _ | refine keeps_mk ?_)

end Sys2Proof.Machine
end

