-- ==== Sys2Proof/Laws/KeepsExport.lean ====
section
/-!
SUPPORT. The operations of Export keep the waiting commands and the canonical memories.
-/

-- The declarations of this file are elaborated in turn, so that checking the package as one text needs few threads.
set_option Elab.async false

namespace Sys2Proof.Machine

theorem telTrigger_keeps {pq : List Instr} {s : State} {j kind step attempt : Nat} (hq : Keeps pq s) :
    Keeps pq (telTrigger s j kind step attempt) := by
  unfold telTrigger
  try dsimp only
  with_reducible repeat' (
    first
    | assumption | refine keeps_fst ?_ (by assumption) | refine State.count_keeps ?_ | split | intro _
    | refine keeps_mk ?_)

theorem telAuto_keeps {pq : List Instr} {s : State} {j kind step attempt : Nat} (hq : Keeps pq s) :
    Keeps pq (telAuto s j kind step attempt) := by
  unfold telAuto
  try dsimp only
  with_reducible repeat' (
    first
    | assumption | refine keeps_fst ?_ (by assumption) | refine telTrigger_keeps ?_ | split | intro _
    | refine keeps_mk ?_)

theorem telExportWrite_keeps {pq : List Instr} {s : State} {v : W64} (hq : Keeps pq s) :
    Keeps pq (telExportWrite s v) := by
  unfold telExportWrite
  try dsimp only
  with_reducible repeat' (
    first
    | assumption | refine keeps_fst ?_ (by assumption) | refine telTrigger_keeps ?_ | split | intro _
    | refine keeps_mk ?_)

theorem snapCore_keeps {pq : List Instr} {j : Nat} {clr : Bool} {x : Snap} {c : CoreId} (h : Keeps pq x.s) :
    Keeps pq (snapCore j clr x c).s := by
  have h1 : Keeps pq ((x.s.wr (coreBase c + 0x3000 + 0x20) 0#64).wr (coreBase c + 0x3000 + 0x28) 0#64) :=
    State.wr_keeps (State.wr_keeps h)
  unfold snapCore
  dsimp only
  split
  · exact h
  · dsimp only
    split
    · exact State.wr_keeps (State.wr_keeps (keeps_loc_same h1 rfl))
    · exact h1

theorem snapHist_keeps {pq : List Instr} {j : Nat} {clr : Bool} {x : Snap} {ent : Nat} (h : Keeps pq x.s) :
    Keeps pq (snapHist j clr x ent).s := by
  unfold snapHist
  split
  · exact h
  · dsimp only
    split
    · exact h
    · split
      · exact h
      · split
        · exact h
        · split
          · exact keeps_fst (spEcc_keeps h) (by assumption)
          · dsimp only
            split
            · exact spMerge_keeps (keeps_fst (spEcc_keeps h) (by assumption))
            · exact keeps_fst (spEcc_keeps h) (by assumption)

theorem histList_keeps {pq : List Instr} {s : State} {j : Nat} (hq : Keeps pq s) :
    Keeps pq (histList s j).1 := by
  unfold histList
  try dsimp only
  with_reducible repeat' (
    first
    | assumption | refine keeps_fst ?_ (by assumption) | refine gddrNow_keeps ?_ | split | intro _
    | refine keeps_mk ?_)

theorem exportRun_keeps {pq : List Instr} {s : State} (h : Keeps pq s) : Keeps pq (exportRun s) := by
  have fold {α : Type} (f : Snap → α → Snap) (hf : ∀ x a, Keeps pq x.s → Keeps pq (f x a).s) (l : List α) (x : Snap)
      (hx : Keeps pq x.s) : Keeps pq (l.foldl f x).s := by
    induction l generalizing x with
    | nil => exact hx
    | cons a l ih => exact ih _ (hf x a hx)
  unfold exportRun
  split
  · dsimp only
    split
    · exact h
    · split
      · exact keeps_mk h
      · split
        · exact h
        · split
          · exact keeps_mk (keeps_fst (gddrNow_keeps h) (by assumption))
          · have h1 := keeps_fst (gddrNow_keeps h) (by assumption)
            split
            · exact keeps_mk (keeps_fst (histList_keeps h1) (by assumption))
            · have h2 := keeps_fst (histList_keeps h1) (by assumption)
              have h3 (j : Nat) (clr : Bool) (es : List Nat) (x : Snap) (hx : Keeps pq x.s) :
                  Keeps pq (es.foldl (snapHist j clr) x).s := fold _ (fun _ _ => snapHist_keeps) es x hx
              have h4 (j : Nat) (clr : Bool) (x : Snap) (hx : Keeps pq x.s) :
                  Keeps pq ((allFin 48).foldl (snapCore j clr) x).s := fold _ (fun _ _ => snapCore_keeps) (allFin 48) x hx
              refine keeps_mk ?_
              split
              · exact State.wr_keeps (h3 _ _ _ _ (h4 _ _ _ (State.now_keeps h2)))
              · exact h3 _ _ _ _ (h4 _ _ _ (State.now_keeps h2))
  · exact h

theorem exportDone_keeps {pq : List Instr} {s : State} (hq : Keeps pq s) :
    Keeps pq (exportDone s) := by
  unfold exportDone
  try dsimp only
  with_reducible repeat' (
    first
    | assumption | refine keeps_fst ?_ (by assumption) | refine State.wr_keeps ?_ | refine gddrDo_keeps ?_
    | refine gddrNow_keeps ?_ | split | intro _ | refine keeps_mk ?_)

theorem setTel_keeps {pq : List Instr} {s : State} {f : Telemetry → Telemetry} (hq : Keeps pq s) :
    Keeps pq (setTel s f) := by
  unfold setTel
  try dsimp only
  with_reducible repeat' (
    first
    | assumption | refine keeps_fst ?_ (by assumption) | split | intro _ | refine keeps_mk ?_)

theorem stepBegin_keeps {pq : List Instr} {s : State} {j : JobId} (hq : Keeps pq s) :
    Keeps pq (stepBegin s j) := by
  unfold stepBegin
  try dsimp only
  with_reducible repeat' (
    first
    | assumption | refine keeps_fst ?_ (by assumption) | refine keeps_snd ?_ (by assumption)
    | refine State.now_keeps ?_ | refine setTel_keeps ?_ | split | intro _ | refine keeps_mk ?_)

theorem roundBegin_keeps {pq : List Instr} {s : State} {j : JobId} (hq : Keeps pq s) :
    Keeps pq (roundBegin s j) := by
  unfold roundBegin
  try dsimp only
  with_reducible repeat' (
    first
    | assumption | refine keeps_fst ?_ (by assumption) | refine keeps_snd ?_ (by assumption)
    | refine State.now_keeps ?_ | refine setTel_keeps ?_ | split | intro _ | refine keeps_mk ?_)

theorem roundMark_keeps {pq : List Instr} {s : State} {j : JobId} (hq : Keeps pq s) :
    Keeps pq (roundMark s j) := by
  unfold roundMark
  try dsimp only
  with_reducible repeat' (
    first
    | assumption | refine keeps_fst ?_ (by assumption) | refine keeps_snd ?_ (by assumption)
    | refine State.now_keeps ?_ | refine setTel_keeps ?_ | split | intro _ | refine keeps_mk ?_)

theorem readyMark_keeps {pq : List Instr} {s : State} {j : JobId} (hq : Keeps pq s) :
    Keeps pq (readyMark s j) := by
  unfold readyMark
  try dsimp only
  with_reducible repeat' (
    first
    | assumption | refine keeps_fst ?_ (by assumption) | refine keeps_snd ?_ (by assumption)
    | refine State.now_keeps ?_ | refine setTel_keeps ?_ | split | intro _ | refine keeps_mk ?_)

theorem stepEnd_keeps {pq : List Instr} {s : State} {j : JobId} (hq : Keeps pq s) :
    Keeps pq (stepEnd s j) := by
  unfold stepEnd
  try dsimp only
  with_reducible repeat' (
    first
    | assumption | refine keeps_fst ?_ (by assumption) | refine keeps_snd ?_ (by assumption)
    | refine State.now_keeps ?_ | refine State.orReg_keeps ?_ | refine State.wr_keeps ?_
    | refine setTel_keeps ?_ | split | intro _ | refine keeps_mk ?_)

theorem execTelExport_keeps {pq : List Instr} {v : W64} {s : State} {t' : State} (hq : Keeps pq s)
    (he : execTelExport v s = .next t') : Keeps pq t' := by
  unfold execTelExport at he
  injection he with he
  rw [← he]
  try dsimp only
  with_reducible repeat' (
    first
    | assumption | refine keeps_fst ?_ (by assumption) | refine State.ifOn_keeps ?_ ?_ 
    | refine telExportWrite_keeps ?_ | split | intro _ | refine keeps_mk ?_)

theorem execTelExportRun_keeps {pq : List Instr} {us : List Upset} {s : State} {t' : State} (hq : Keeps pq s)
    (he : execTelExportRun us s = .next t') : Keeps pq t' := by
  unfold execTelExportRun at he
  injection he with he
  rw [← he]
  try dsimp only
  with_reducible repeat' (
    first
    | assumption | refine keeps_fst ?_ (by assumption) | refine exportRun_keeps ?_ | refine strike_keeps ?_
    | split | intro _ | refine keeps_mk ?_)

theorem execTelExportDone_keeps {pq : List Instr} {us : List Upset} {s : State} {t' : State} (hq : Keeps pq s)
    (he : execTelExportDone us s = .next t') : Keeps pq t' := by
  unfold execTelExportDone at he
  injection he with he
  rw [← he]
  try dsimp only
  with_reducible repeat' (
    first
    | assumption | refine keeps_fst ?_ (by assumption) | refine State.live_keeps ?_ ?_ 
    | refine exportDone_keeps ?_ | refine strike_keeps ?_ | split | intro _ | refine keeps_mk ?_)

end Sys2Proof.Machine
end

