-- ==== Sys2Proof/Laws/KeepsRcl.lean ====
section
/-!
SUPPORT. The operations of Rcl keep the waiting commands and the canonical memories.
-/

-- The declarations of this file are elaborated in turn, so that checking the package as one text needs few threads.
set_option Elab.async false

namespace Sys2Proof.Machine

theorem redEv_keeps {pq : List Instr} {s : State} {fails : Bool} {code : Nat} {j : JobId} {bidx shard step member n : Nat} {dev : Option Nat} (hq : Keeps pq s) :
    Keeps pq (redEv s fails code j bidx shard step member n dev) := by
  unfold redEv
  try dsimp only
  with_reducible repeat' (
    first
    | assumption | refine keeps_fst ?_ (by assumption) | refine State.raiseDev_keeps ?_ | split | intro _
    | refine keeps_mk ?_)

theorem bktEv_keeps {pq : List Instr} {s : State} {code : Nat} {j : JobId} {e : QId} {shard member : Nat} {dev : Option Nat} (hq : Keeps pq s) :
    Keeps pq (bktEv s code j e shard member dev) := by
  unfold bktEv
  try dsimp only
  with_reducible repeat' (
    first
    | assumption | refine keeps_fst ?_ (by assumption) | refine redEv_keeps ?_ | split | intro _
    | refine keeps_mk ?_)

theorem stale_keeps {pq : List Instr} {s : State} (hq : Keeps pq s) :
    Keeps pq (stale s) := by
  unfold stale
  try dsimp only
  with_reducible repeat' (
    first
    | assumption | refine keeps_fst ?_ (by assumption) | refine State.count_keeps ?_ | split | intro _
    | refine keeps_mk ?_)

theorem say_keeps {pq : List Instr} {s : State} {j : JobId} {m rsp : Nat} {tf : List Byte} {excl : List Nat} (hq : Keeps pq s) :
    Keeps pq (say s j m rsp tf excl) := by
  unfold say
  try dsimp only
  with_reducible repeat' (
    first
    | assumption | refine keeps_fst ?_ (by assumption) | refine State.failStep_keeps ?_
    | refine sendSync_keeps ?_ | split | intro _ | refine keeps_mk ?_)

theorem modBkt_keeps {pq : List Instr} {s : State} {e : QId} {f : Bucket → Bucket} (hq : Keeps pq s) :
    Keeps pq (modBkt s e f) := by
  unfold modBkt
  try dsimp only
  with_reducible repeat' (
    first
    | assumption | refine keeps_fst ?_ (by assumption) | refine State.setBkt_keeps ?_ | split | intro _
    | refine keeps_mk ?_)

theorem countFlush_keeps {pq : List Instr} {s : State} {j : JobId} {e : QId} {shard n : Nat} (hq : Keeps pq s) :
    Keeps pq (countFlush s j e shard n) := by
  unfold countFlush
  try dsimp only
  with_reducible repeat' (
    first
    | assumption | refine keeps_fst ?_ (by assumption) | refine State.count_keeps ?_ | refine bktEv_keeps ?_
    | refine modBkt_keeps ?_ | split | intro _ | refine keeps_mk ?_)

theorem drainGuard_keeps {pq : List Instr} {s : State} {j : JobId} {c : CoreId} {g : Nat} (hq : Keeps pq s) :
    Keeps pq (drainGuard s j c g) := by
  unfold drainGuard
  try dsimp only
  with_reducible repeat' (
    first
    | assumption | refine keeps_fst ?_ (by assumption) | refine State.setRclJob_keeps ?_
    | refine setGuard_keeps ?_ | refine wake_keeps ?_ | split | intro _ | refine keeps_mk ?_)

theorem drainHand_keeps {pq : List Instr} {s : State} {e : QId} (hq : Keeps pq s) :
    Keeps pq (drainHand s e) := by
  unfold drainHand
  try dsimp only
  with_reducible repeat' (
    first
    | assumption | refine keeps_fst ?_ (by assumption) | refine drainGuard_keeps ?_ | refine modBkt_keeps ?_
    | split | intro _ | refine keeps_mk ?_)

theorem rclGet_keeps {pq : List Instr} {s : State} {j : JobId} {a n : Nat} (hq : Keeps pq s) :
    Keeps pq (rclGet s j a n).1 := by
  unfold rclGet
  try dsimp only
  with_reducible repeat' (
    first
    | assumption | refine keeps_fst ?_ (by assumption) | refine gddrOwn_keeps ?_ | split | intro _
    | refine keeps_mk ?_)

theorem rclPut_keeps {pq : List Instr} {s : State} {j : JobId} {a : Nat} {bs : List Byte} (hq : Keeps pq s) :
    Keeps pq (rclPut s j a bs).1 := by
  unfold rclPut
  try dsimp only
  with_reducible repeat' (
    first
    | assumption | refine keeps_fst ?_ (by assumption) | refine gddrOwn_keeps ?_ | split | intro _
    | refine keeps_mk ?_)

theorem rclSignal_keeps {pq : List Instr} {s : State} {j : JobId} {core sem : Nat} (hq : Keeps pq s) :
    Keeps pq (rclSignal s j core sem) := by
  unfold rclSignal
  try dsimp only
  with_reducible repeat' (
    first
    | assumption | refine keeps_fst ?_ (by assumption) | refine State.raise_keeps ?_
    | refine State.setRclJob_keeps ?_ | refine sigSend_keeps ?_ ?_ (by assumption) | split | intro _
    | refine keeps_mk ?_)

theorem postWork_keeps {pq : List Instr} {s : State} {j : JobId} {w : Work} (hq : Keeps pq s) :
    Keeps pq (postWork s j w).1 := by
  unfold postWork
  try dsimp only
  with_reducible repeat' (
    first
    | assumption | refine keeps_fst ?_ (by assumption) | refine State.setRclJob_keeps ?_
    | refine rclSignal_keeps ?_ | refine spWriteAny_keeps ?_ | split | intro _ | refine keeps_mk ?_)

theorem postDue_keeps {pq : List Instr} {s : State} {j : JobId} (hq : Keeps pq s) :
    Keeps pq (postDue s j) := by
  unfold postDue
  try dsimp only
  with_reducible repeat' (
    first
    | assumption | refine keeps_fst ?_ (by assumption) | refine keeps_foldl ?_ ?_
    | refine keeps_foldl_pair ?_ ?_ | refine State.due_keeps ?_ | refine State.setRclJob_keeps ?_
    | refine postWork_keeps ?_ | split | intro _ | refine keeps_mk ?_)

theorem addWork_keeps {pq : List Instr} {s : State} {j : JobId} {w : Work} (hq : Keeps pq s) :
    Keeps pq (addWork s j w) := by
  unfold addWork
  try dsimp only
  with_reducible repeat' (
    first
    | assumption | refine keeps_fst ?_ (by assumption) | refine State.due_keeps ?_
    | refine State.setRclJob_keeps ?_ | split | intro _ | refine keeps_mk ?_)

theorem setDv_keeps {pq : List Instr} {s : State} {e : QId} {v : DataVertex} (hq : Keeps pq s) :
    Keeps pq (setDv s e v) := by
  unfold setDv
  try dsimp only
  with_reducible repeat' (
    first
    | assumption | refine keeps_fst ?_ (by assumption) | refine modBkt_keeps ?_ | split | intro _
    | refine keeps_mk ?_)

theorem sendPartial_keeps {pq : List Instr} {s : State} {j : JobId} {e : QId} {sh m level : Nat} {d : Decision} {r : DataIn} {img : List Byte} (hq : Keeps pq s) :
    Keeps pq (sendPartial s j e sh m level d r img) := by
  unfold sendPartial
  try dsimp only
  with_reducible repeat' (
    first
    | assumption | refine keeps_fst ?_ (by assumption) | refine collStart_keeps ?_ | split | intro _
    | refine keeps_mk ?_)

theorem dataEv_keeps {pq : List Instr} {s : State} {code : Nat} {j : JobId} {e : QId} {sh : Nat} {r : DataIn} (hq : Keeps pq s) :
    Keeps pq (dataEv s code j e sh r) := by
  unfold dataEv
  try dsimp only
  with_reducible repeat' (
    first
    | assumption | refine keeps_fst ?_ (by assumption) | refine bktEv_keeps ?_ | split | intro _
    | refine keeps_mk ?_)

theorem deliver_keeps {pq : List Instr} {s : State} {j : JobId} {e : QId} {sh : Nat} {d : Decision} {r : DataIn} {buf : Nat} (hq : Keeps pq s) :
    Keeps pq (deliver s j e sh d r buf) := by
  unfold deliver
  try dsimp only
  with_reducible repeat' (
    first
    | assumption | refine keeps_fst ?_ (by assumption) | refine addWork_keeps ?_ | refine dataEv_keeps ?_
    | refine modBkt_keeps ?_ | refine rclPut_keeps ?_ | split | intro _ | refine keeps_mk ?_)

theorem putInput_keeps {pq : List Instr} {s : State} {j : JobId} {e : QId} {sh : Nat} {v : DataVertex} {lo : Nat} {r : DataIn} (hq : Keeps pq s) :
    Keeps pq (putInput s j e sh v lo r).1 := by
  unfold putInput
  try dsimp only
  with_reducible repeat' (
    first
    | assumption | refine keeps_fst ?_ (by assumption) | refine keeps_foldl ?_ ?_
    | refine keeps_foldl_pair ?_ ?_ | refine addWork_keeps ?_ | refine setDv_keeps ?_ | split | intro _
    | refine keeps_mk ?_)

theorem onward_keeps {pq : List Instr} {j : JobId} {e : QId} {sh : Nat} {d : Decision} {x0 : Nat} {x1 : State} {x2 : Nat} {x3 : Nat} {x4 : DataIn} {x5 : Nat} (hq : Keeps pq x1) :
    Keeps pq (onward j e sh d x0 x1 x2 x3 x4 x5) := by
  induction x0 generalizing x1 x2 x3 x4 x5 with
  | zero => simp only [onward]; exact hq
  | succ n ih =>
    unfold onward
    try dsimp only
    with_reducible repeat' (
      first
      | assumption | refine keeps_fst ?_ (by assumption) | refine ih ?_ | refine dataEv_keeps ?_
      | refine deliver_keeps ?_ | refine putInput_keeps ?_ | refine rclGet_keeps ?_
      | refine sendPartial_keeps ?_ | split | intro _ | refine keeps_mk ?_)

theorem inputIn_keeps {pq : List Instr} {s : State} {j : JobId} {e : QId} {sh level i : Nat} {d : Decision} {r : DataIn} (hq : Keeps pq s) :
    Keeps pq (inputIn s j e sh level i d r) := by
  unfold inputIn
  try dsimp only
  with_reducible repeat' (
    first
    | assumption | refine keeps_fst ?_ (by assumption) | refine onward_keeps ?_ | refine putInput_keeps ?_
    | refine stale_keeps ?_ | split | intro _ | refine keeps_mk ?_)

theorem fillBuf_keeps {pq : List Instr} {s : State} {j : JobId} {a : Nat} {hdr img : List Byte} (hq : Keeps pq s) :
    Keeps pq (fillBuf s j a hdr img).1 := by
  unfold fillBuf
  try dsimp only
  with_reducible repeat' (
    first
    | assumption | refine keeps_fst ?_ (by assumption) | refine rclPut_keeps ?_ | split | intro _
    | refine keeps_mk ?_)

theorem takeContrib_keeps {pq : List Instr} {s : State} {j : JobId} {e : QId} {sh level i : Nat} {d : Decision}
    {dev : Option Nat} {hdr rec_ codes ents : List Byte} {csum : W64} (hq : Keeps pq s) :
    Keeps pq (takeContrib s j e sh level i d dev hdr rec_ codes ents csum) := by
  unfold takeContrib
  generalize contribImage rec_ codes ents d.eb = x
  obtain ⟨ws, n⟩ := x
  dsimp only
  have h1 : Keeps pq (countFlush s j e sh n) := countFlush_keeps hq
  generalize ws.flatMap (fun w => leBytes 8 w.toNat) = img
  with_reducible
    split
    · exact bktEv_keeps h1
    · split
      · exact keeps_fst (fillBuf_keeps h1) (by assumption)
      · exact inputIn_keeps (keeps_fst (fillBuf_keeps h1) (by assumption))

theorem takeData_keeps {pq : List Instr} {s : State} {j : JobId} {e : QId} {src : Nat} {info stream : List Byte} (hq : Keeps pq s) :
    Keeps pq (takeData s j e src info stream) := by
  unfold takeData
  try dsimp only
  with_reducible repeat' (
    first
    | assumption | refine keeps_fst ?_ (by assumption) | refine fillBuf_keeps ?_ | refine inputIn_keeps ?_
    | refine stale_keeps ?_ | refine takeContrib_keeps ?_ | split | intro _ | refine keeps_mk ?_)

theorem takeParams_keeps {pq : List Instr} {s : State} {j : JobId} {e : QId} {sh src : Nat} {stream : List Byte} (hq : Keeps pq s) :
    Keeps pq (takeParams s j e sh src stream) := by
  unfold takeParams
  try dsimp only
  with_reducible repeat' (
    first
    | assumption | refine keeps_fst ?_ (by assumption) | refine bktEv_keeps ?_ | refine modBkt_keeps ?_
    | refine rclPut_keeps ?_ | split | intro _ | refine keeps_mk ?_)

theorem takeCome_keeps {pq : List Instr} {s : State} {j : JobId} {e : QId} {x : Early} (hq : Keeps pq s) :
    Keeps pq (takeCome s j e x) := by
  unfold takeCome
  try dsimp only
  with_reducible repeat' (
    first
    | assumption | refine keeps_fst ?_ (by assumption) | refine takeData_keeps ?_
    | refine takeParams_keeps ?_ | split | intro _ | refine keeps_mk ?_)

theorem takeEarly_keeps {pq : List Instr} {s : State} {j : JobId} {e : QId} (hq : Keeps pq s) :
    Keeps pq (takeEarly s j e) := by
  unfold takeEarly
  try dsimp only
  with_reducible repeat' (
    first
    | assumption | refine keeps_fst ?_ (by assumption) | refine keeps_foldl ?_ ?_
    | refine keeps_foldl_pair ?_ ?_ | refine modBkt_keeps ?_ | refine takeCome_keeps ?_ | split | intro _
    | refine keeps_mk ?_)

theorem collArrived_keeps {pq : List Instr} {s : State} {src job : Nat} {info stream : List Byte} (hq : Keeps pq s) :
    Keeps pq (collArrived s src job info stream) := by
  unfold collArrived
  try dsimp only
  with_reducible repeat' (
    first
    | assumption | refine keeps_fst ?_ (by assumption) | refine State.count_keeps ?_ | refine modBkt_keeps ?_
    | refine postDue_keeps ?_ | refine redEv_keeps ?_ | refine stale_keeps ?_ | refine takeCome_keeps ?_
    | split | intro _ | refine keeps_mk ?_)

/-- The two reads of a shard of `n` bytes. -/
theorem readShard_keeps {pq : List Instr} {s : State} {j : JobId} {h : Hand} {sh n : Nat} (hq : Keeps pq s) :
    Keeps pq (if h.empty.getLsbD sh then (s, some [])
  else
    match rclGet s j h.cbaddr 576 with
    | (s, none) => (s, none)
    | (s, some cb) =>
      match rclGet s j (h.caddr + sh * n) n with
      | (s, none) => (s, none)
      | (s, some bs) => (s, some (cb ++ bs)) : State × Option (List Byte)).1 := by
  cases h.empty.getLsbD sh with
  | true => exact hq
  | false =>
    have h1 : Keeps pq (rclGet s j h.cbaddr 576).1 := rclGet_keeps hq
    revert h1
    rcases rclGet s j h.cbaddr 576 with ⟨s1, _ | cb⟩ <;> intro h1
    · exact h1
    · have h2 : Keeps pq (rclGet s1 j (h.caddr + sh * n) n).1 := rclGet_keeps h1
      revert h2
      simp only [Bool.false_eq_true, ↓reduceIte]
      rcases rclGet s1 j (h.caddr + sh * n) n with ⟨s2, _ | bs⟩ <;> exact fun h2 => h2

theorem readContrib_keeps {pq : List Instr} {s : State} {j : JobId} {h : Hand} {sh : Nat} (hq : Keeps pq s) :
    Keeps pq (readContrib s j h sh).1 := readShard_keeps hq

theorem sendContrib_keeps {pq : List Instr} {s : State} {j : JobId} {e : QId} {d : Decision} {empty : Bool} {sh level t : Nat} {data : List Byte} (hq : Keeps pq s) :
    Keeps pq (sendContrib s j e d empty sh level t data) := by
  unfold sendContrib
  try dsimp only
  with_reducible repeat' (
    first
    | assumption | refine keeps_fst ?_ (by assumption) | refine collStart_keeps ?_ | refine inputIn_keeps ?_
    | refine modBkt_keeps ?_ | refine takeContrib_keeps ?_ | split | intro _ | refine keeps_mk ?_)

theorem contribute_keeps {pq : List Instr} {s : State} {j : JobId} {e : QId} {d : Decision} {h : Hand} {sh : Nat} (hq : Keeps pq s) :
    Keeps pq (contribute s j e d h sh) := by
  unfold contribute
  try dsimp only
  with_reducible repeat' (
    first
    | assumption | refine keeps_fst ?_ (by assumption) | refine readContrib_keeps ?_
    | refine sendContrib_keeps ?_ | split | intro _ | refine keeps_mk ?_)

theorem sendShards_keeps {pq : List Instr} {s : State} {j : JobId} {e : QId} (hq : Keeps pq s) :
    Keeps pq (sendShards s j e) := by
  unfold sendShards
  try dsimp only
  with_reducible repeat' (
    first
    | assumption | refine keeps_fst ?_ (by assumption) | refine keeps_foldl ?_ ?_
    | refine keeps_foldl_pair ?_ ?_ | refine contribute_keeps ?_ | refine drainHand_keeps ?_
    | refine modBkt_keeps ?_ | split | intro _ | refine keeps_mk ?_)

theorem applyDecide_keeps {pq : List Instr} {s : State} {j : JobId} {e : QId} {d : Decision} (hq : Keeps pq s) :
    Keeps pq (applyDecide s j e d) := by
  unfold applyDecide
  try dsimp only
  with_reducible repeat' (
    first
    | assumption | refine keeps_fst ?_ (by assumption) | refine bktEv_keeps ?_ | refine drainHand_keeps ?_
    | refine modBkt_keeps ?_ | refine postDue_keeps ?_ | refine roundMark_keeps ?_
    | refine sendShards_keeps ?_ | refine takeEarly_keeps ?_ | split | intro _ | refine keeps_mk ?_)

theorem sendParams_keeps {pq : List Instr} {s : State} {j : JobId} {e : QId} {sh : Nat} (hq : Keeps pq s) :
    Keeps pq (sendParams s j e sh) := by
  unfold sendParams
  try dsimp only
  with_reducible repeat' (
    first
    | assumption | refine keeps_fst ?_ (by assumption) | refine keeps_foldl ?_ ?_
    | refine keeps_foldl_pair ?_ ?_ | refine collStart_keeps ?_ | refine modBkt_keeps ?_
    | refine rclGet_keeps ?_ | split | intro _ | refine keeps_mk ?_)

theorem workResult_keeps {pq : List Instr} {s : State} {j : JobId} {c : CoreId} {i : Nat} (hq : Keeps pq s) :
    Keeps pq (workResult s j c i) := by
  unfold workResult
  try dsimp only
  with_reducible repeat' (
    first
    | assumption | refine keeps_fst ?_ (by assumption) | refine keeps_foldl ?_ ?_
    | refine keeps_foldl_pair ?_ ?_ | refine State.setRclJob_keeps ?_ | refine onward_keeps ?_
    | refine postDue_keeps ?_ | refine sendParams_keeps ?_ | refine setGuard_keeps ?_ | refine wake_keeps ?_
    | split | intro _ | refine keeps_mk ?_)

theorem collDone_keeps {pq : List Instr} {s : State} {job dst xid : Nat} (hq : Keeps pq s) :
    Keeps pq (collDone s job dst xid) := by
  unfold collDone
  try dsimp only
  with_reducible repeat' (
    first
    | assumption | refine keeps_fst ?_ (by assumption) | refine keeps_foldl ?_ ?_
    | refine keeps_foldl_pair ?_ ?_ | refine State.setBkt_keeps ?_ | refine drainHand_keeps ?_ | split
    | intro _ | refine keeps_mk ?_)

theorem setEv_keeps {pq : List Instr} {s : State} {e : QId} {v : ExpVertex} (hq : Keeps pq s) :
    Keeps pq (setEv s e v) := by
  unfold setEv
  try dsimp only
  with_reducible repeat' (
    first
    | assumption | refine keeps_fst ?_ (by assumption) | refine modBkt_keeps ?_ | split | intro _
    | refine keeps_mk ?_)

theorem decide__keeps {pq : List Instr} {s : State} {j : JobId} {e : QId} {top : Vtx} {emax : Int} {n : Nat} {excl : List Nat} (hq : Keeps pq s) :
    Keeps pq (decide_ s j e top emax n excl) := by
  unfold decide_
  try dsimp only
  with_reducible repeat' (
    first
    | assumption | refine keeps_fst ?_ (by assumption) | refine keeps_foldl ?_ ?_
    | refine keeps_foldl_pair ?_ ?_ | refine redEv_keeps ?_ | refine say_keeps ?_ | split | intro _
    | refine keeps_mk ?_)

theorem expComplete_keeps {pq : List Instr} {s : State} {j : JobId} {e : QId} {v : Vtx} (hq : Keeps pq s) :
    Keeps pq (expComplete s j e v) := by
  unfold expComplete
  try dsimp only
  with_reducible repeat' (
    first
    | assumption | refine keeps_fst ?_ (by assumption) | refine keeps_foldl ?_ ?_
    | refine keeps_foldl_pair ?_ ?_ | refine decide__keeps ?_ | refine redEv_keeps ?_ | refine say_keeps ?_
    | refine setEv_keeps ?_ | split | intro _ | refine keeps_mk ?_)

theorem expStart_keeps {pq : List Instr} {s : State} {j : JobId} {e : QId} {v : Vtx} (hq : Keeps pq s) :
    Keeps pq (expStart s j e v) := by
  unfold expStart
  try dsimp only
  with_reducible repeat' (
    first
    | assumption | refine keeps_fst ?_ (by assumption) | refine say_keeps ?_ | refine setEv_keeps ?_ | split
    | intro _ | refine keeps_mk ?_)

theorem expIn_keeps {pq : List Instr} {s : State} {j : JobId} {p : Pkt} (hq : Keeps pq s) :
    Keeps pq (expIn s j p) := by
  unfold expIn
  try dsimp only
  with_reducible repeat' (
    first
    | assumption | refine keeps_fst ?_ (by assumption) | refine bktEv_keeps ?_ | refine expComplete_keeps ?_
    | refine expStart_keeps ?_ | refine setEv_keeps ?_ | refine stale_keeps ?_ | split | intro _
    | refine keeps_mk ?_)

theorem pendingIn_keeps {pq : List Instr} {s : State} {j : JobId} {p : Pkt} (hq : Keeps pq s) :
    Keeps pq (pendingIn s j p) := by
  unfold pendingIn
  try dsimp only
  with_reducible repeat' (
    first
    | assumption | refine keeps_fst ?_ (by assumption) | refine expStart_keeps ?_ | refine setEv_keeps ?_
    | refine stale_keeps ?_ | split | intro _ | refine keeps_mk ?_)

theorem deadline_keeps {pq : List Instr} {s : State} {e : QId} {level : Nat} (hq : Keeps pq s) :
    Keeps pq (deadline s e level) := by
  unfold deadline
  try dsimp only
  with_reducible repeat' (
    first
    | assumption | refine keeps_fst ?_ (by assumption) | refine keeps_foldl ?_ ?_
    | refine keeps_foldl_pair ?_ ?_ | refine State.count_keeps ?_ | refine bktEv_keeps ?_
    | refine expComplete_keeps ?_ | refine setEv_keeps ?_ | split | intro _ | refine keeps_mk ?_)

theorem decideIn_keeps {pq : List Instr} {s : State} {j : JobId} {p : Pkt} (hq : Keeps pq s) :
    Keeps pq (decideIn s j p) := by
  unfold decideIn
  try dsimp only
  with_reducible repeat' (
    first
    | assumption | refine keeps_fst ?_ (by assumption) | refine keeps_foldl ?_ ?_
    | refine keeps_foldl_pair ?_ ?_ | refine applyDecide_keeps ?_ | refine say_keeps ?_
    | refine stale_keeps ?_ | split | intro _ | refine keeps_mk ?_)

theorem handEmax_keeps {pq : List Instr} {s : State} {j : JobId} {e : QId} {caddr : Nat} {empty : BitVec 128} (hq : Keeps pq s) :
    Keeps pq (handEmax s j e caddr empty).1 := by
  unfold handEmax
  try dsimp only
  with_reducible repeat' (
    first
    | assumption | refine keeps_fst ?_ (by assumption) | refine keeps_foldl ?_ ?_
    | refine keeps_foldl_pair ?_ ?_ | refine rclGet_keeps ?_ | split | intro _ | refine keeps_mk ?_)

theorem handover_keeps {pq : List Instr} {s : State} {e : QId} (hq : Keeps pq s) :
    Keeps pq (handover s e) := by
  unfold handover
  try dsimp only
  with_reducible repeat' (
    first
    | assumption | refine keeps_fst ?_ (by assumption) | refine bktEv_keeps ?_ | refine drainHand_keeps ?_
    | refine handEmax_keeps ?_ | refine modBkt_keeps ?_ | refine rclGet_keeps ?_ | refine roundBegin_keeps ?_
    | refine say_keeps ?_ | refine spReadAny_keeps ?_ | split | intro _ | refine keeps_mk ?_)

end Sys2Proof.Machine
end

