-- ==== Sys2Proof/Laws/KeepsCommit.lean ====
section
/-!
SUPPORT. The operations of Commit keep the waiting commands and the canonical memories.
-/

-- The declarations of this file are elaborated in turn, so that checking the package as one text needs few threads.
set_option Elab.async false

namespace Sys2Proof.Machine

theorem belayPin_keeps {pq : List Instr} {s : State} (hq : Keeps pq s) :
    Keeps pq (belayPin s) := by
  unfold belayPin
  try dsimp only
  with_reducible repeat' (
    first
    | assumption | refine keeps_fst ?_ (by assumption) | split | intro _ | refine keeps_mk ?_)

theorem sendReady_keeps {pq : List Instr} {s : State} {j : JobId} {n : Nat} (hq : Keeps pq s) :
    Keeps pq (sendReady s j n) := by
  unfold sendReady
  try dsimp only
  with_reducible repeat' (
    first
    | assumption | refine keeps_fst ?_ (by assumption) | refine State.setRclJob_keeps ?_
    | refine readyMark_keeps ?_ | refine say_keeps ?_ | split | intro _ | refine keeps_mk ?_)

theorem readyReached_keeps {pq : List Instr} {s : State} {j : JobId} (hq : Keeps pq s) :
    Keeps pq (readyReached s j) := by
  unfold readyReached
  try dsimp only
  with_reducible repeat' (
    first
    | assumption | refine keeps_fst ?_ (by assumption) | refine State.setRclJob_keeps ?_
    | refine belayPin_keeps ?_ | refine sendReady_keeps ?_ | split | intro _ | refine keeps_mk ?_)

theorem belayRelease_keeps {pq : List Instr} {s : State} {j : JobId} (hq : Keeps pq s) :
    Keeps pq (belayRelease s j) := by
  unfold belayRelease
  try dsimp only
  with_reducible repeat' (
    first
    | assumption | refine keeps_fst ?_ (by assumption) | refine State.setRclJob_keeps ?_
    | refine sendReady_keeps ?_ | split | intro _ | refine keeps_mk ?_)

theorem sendOutcome_keeps {pq : List Instr} {s : State} {j : JobId} {kind : Nat} (hq : Keeps pq s) :
    Keeps pq (sendOutcome s j kind) := by
  unfold sendOutcome
  try dsimp only
  with_reducible repeat' (
    first
    | assumption | refine keeps_fst ?_ (by assumption) | refine keeps_foldl ?_ ?_
    | refine keeps_foldl_pair ?_ ?_ | refine say_keeps ?_ | split | intro _ | refine keeps_mk ?_)

theorem abandonNow_keeps {pq : List Instr} {s : State} {j : JobId} (hq : Keeps pq s) :
    Keeps pq (abandonNow s j) := by
  unfold abandonNow
  try dsimp only
  with_reducible repeat' (
    first
    | assumption | refine keeps_fst ?_ (by assumption) | refine State.setRclJob_keeps ?_
    | refine sendOutcome_keeps ?_ | split | intro _ | refine keeps_mk ?_)

theorem readyIn_keeps {pq : List Instr} {s : State} {j : JobId} {p : Pkt} (hq : Keeps pq s) :
    Keeps pq (readyIn s j p) := by
  unfold readyIn
  try dsimp only
  with_reducible repeat' (
    first
    | assumption | refine keeps_fst ?_ (by assumption) | refine State.setRclJob_keeps ?_
    | refine sendOutcome_keeps ?_ | refine stale_keeps ?_ | split | intro _ | refine keeps_mk ?_)

theorem failIn_keeps {pq : List Instr} {s : State} {j : JobId} {p : Pkt} (hq : Keeps pq s) :
    Keeps pq (failIn s j p) := by
  unfold failIn
  try dsimp only
  with_reducible repeat' (
    first
    | assumption | refine keeps_fst ?_ (by assumption) | refine abandonNow_keeps ?_ | refine stale_keeps ?_
    | split | intro _ | refine keeps_mk ?_)

theorem commitTimeout_keeps {pq : List Instr} {s : State} {j : JobId} (hq : Keeps pq s) :
    Keeps pq (commitTimeout s j) := by
  unfold commitTimeout
  try dsimp only
  with_reducible repeat' (
    first
    | assumption | refine keeps_fst ?_ (by assumption) | refine abandonNow_keeps ?_ | refine redEv_keeps ?_
    | split | intro _ | refine keeps_mk ?_)

theorem commitWait_keeps {pq : List Instr} {s : State} {j : JobId} (hq : Keeps pq s) :
    Keeps pq (commitWait s j) := by
  unfold commitWait
  try dsimp only
  with_reducible repeat' (
    first
    | assumption | refine keeps_fst ?_ (by assumption) | refine State.setRclJob_keeps ?_
    | refine redEv_keeps ?_ | split | intro _ | refine keeps_mk ?_)

theorem stateBytes_keeps {pq : List Instr} {s : State} {a n : Nat} {err : Option CxlErr} (hq : Keeps pq s) :
    Keeps pq (stateBytes s a n err).1 := by
  unfold stateBytes
  try dsimp only
  with_reducible repeat' (
    first
    | assumption | refine keeps_fst ?_ (by assumption) | refine gddrDo_keeps ?_ | refine tierDo_keeps ?_
    | split | intro _ | refine keeps_mk ?_)

theorem cairnPump_keeps {pq : List Instr} {j : JobId} {x0 : Nat} {x1 : State} (hq : Keeps pq x1) :
    Keeps pq (cairnPump j x0 x1) := by
  induction x0 generalizing x1 with
  | zero => simp only [cairnPump]; exact hq
  | succ n ih =>
    unfold cairnPump
    try dsimp only
    with_reducible repeat' (
      first
      | assumption | refine keeps_fst ?_ (by assumption) | refine ih ?_ | refine State.setRclJob_keeps ?_
      | refine peerSend_keeps ?_ | split | intro _ | refine keeps_mk ?_)

theorem cairnsGo_keeps {pq : List Instr} {s : State} (hq : Keeps pq s) :
    Keeps pq (cairnsGo s) := by
  unfold cairnsGo
  try dsimp only
  with_reducible repeat' (
    first
    | assumption | refine keeps_fst ?_ (by assumption) | refine keeps_foldl ?_ ?_
    | refine keeps_foldl_pair ?_ ?_ | refine cairnPump_keeps ?_ | split | intro _ | refine keeps_mk ?_)

theorem cairnPut_keeps {pq : List Instr} {s : State} {a size : Nat} {bs : List Byte} {err : Option CxlErr} (hq : Keeps pq s) :
    Keeps pq (cairnPut s a size bs err).1 := by
  unfold cairnPut
  try dsimp only
  with_reducible repeat' (
    first
    | assumption | refine keeps_fst ?_ (by assumption) | refine tierDo_keeps ?_ | split | intro _
    | refine keeps_mk ?_)

theorem cairnStart_keeps {pq : List Instr} {s : State} {j : JobId} {step : Nat} (hq : Keeps pq s) :
    Keeps pq (cairnStart s j step) := by
  unfold cairnStart
  try dsimp only
  with_reducible repeat' (
    first
    | assumption | refine keeps_fst ?_ (by assumption) | refine State.setRclJob_keeps ?_
    | refine State.wr_keeps ?_ | split | intro _ | refine keeps_mk ?_)

theorem cairnHalf_keeps {pq : List Instr} {r : CairnRead} {x : Nat × Nat × Nat × Nat} (h : Keeps pq r.st) :
    Keeps pq (cairnHalf r x).st := by
  unfold cairnHalf
  split
  rename_i e
  exact keeps_fst (stateBytes_keeps h) e

theorem cairnHalves_keeps {pq : List Instr} {l : List (Nat × Nat × Nat × Nat)} {r : CairnRead} (h : Keeps pq r.st) :
    Keeps pq (l.foldl cairnHalf r).st := by
  induction l generalizing r with
  | nil => exact h
  | cons x l ih => exact ih (cairnHalf_keeps h)

theorem cairnBegin_keeps {pq : List Instr} {s : State} {j : JobId} {c : Cairn} {err : Option CxlErr} (h : Keeps pq s) :
    Keeps pq (cairnBegin s j c err) := by
  have h1 : Keeps pq (c.spans.foldl cairnHalf { st := s, err := err }).st := cairnHalves_keeps h
  have key (n : Nat) (t : State) (k : RclJob) (ht : Keeps pq t) : Keeps pq (cairnPump j n (t.setRclJob j k)) :=
    cairnPump_keeps (State.setRclJob_keeps ht)
  unfold cairnBegin
  generalize c.spans.foldl cairnHalf { st := s, err := err } = r at h1 ⊢
  split
  · exact h
  · dsimp only
    have h2 := cairnPut_keeps (a := (s.rd (rclBase j + 0x48)).toNat) (size := (cairnImage s j c.step r.recs).length)
      (bs := notValid ((cairnImage s j c.step r.recs).take 4096)) (err := r.err) h1
    generalize cairnPut r.st _ _ _ _ = x at h2 ⊢
    exact key _ _ _ h2

theorem cairnStray_keeps {pq : List Instr} {s : State} {t : Nat} {c : Cairn} (h : Keeps pq s) :
    Keeps pq (cairnStray s t c) := by
  unfold cairnStray
  have hf : Keeps pq s.fresh.2 := State.fresh_keeps h
  refine keeps_tier hf (memory_foldl_wf _ _ _ hf.2.2.1 ?_)
  intro m i hm
  split
  · exact memory_set_wf _ _ _ hm
  · exact hm

theorem cairnFailed_keeps {pq : List Instr} {s : State} {j : JobId} {c : Cairn} {code : Nat} (hq : Keeps pq s) :
    Keeps pq (cairnFailed s j c code) := by
  unfold cairnFailed
  try dsimp only
  with_reducible repeat' (
    first
    | assumption | refine keeps_fst ?_ (by assumption) | refine State.setRclJob_keeps ?_
    | refine State.wr_keeps ?_ | refine cairnStray_keeps ?_ | refine postDue_keeps ?_ | refine redEv_keeps ?_
    | split | intro _ | refine keeps_mk ?_)

theorem cairnDone_keeps {pq : List Instr} {s : State} {j : JobId} {c : Cairn} (hq : Keeps pq s) :
    Keeps pq (cairnDone s j c) := by
  unfold cairnDone
  try dsimp only
  with_reducible repeat' (
    first
    | assumption | refine keeps_fst ?_ (by assumption) | refine State.setRclJob_keeps ?_
    | refine State.wr_keeps ?_ | refine postDue_keeps ?_ | refine redEv_keeps ?_ | split | intro _
    | refine keeps_mk ?_)

theorem cairnComplete_keeps {pq : List Instr} {s : State} {j : JobId} {err : Option CxlErr} (hq : Keeps pq s) :
    Keeps pq (cairnComplete s j err) := by
  unfold cairnComplete
  try dsimp only
  with_reducible repeat' (
    first
    | assumption | refine keeps_fst ?_ (by assumption) | refine State.setRclJob_keeps ?_
    | refine cairnBegin_keeps ?_ | refine cairnDone_keeps ?_ | refine cairnFailed_keeps ?_
    | refine cairnPump_keeps ?_ | refine cairnPut_keeps ?_ | split | intro _ | refine keeps_mk ?_)

theorem postNotes_keeps {pq : List Instr} {s : State} {j : JobId} (hq : Keeps pq s) :
    Keeps pq (postNotes s j) := by
  unfold postNotes
  try dsimp only
  with_reducible repeat' (
    first
    | assumption | refine keeps_fst ?_ (by assumption) | refine keeps_foldl ?_ ?_
    | refine keeps_foldl_pair ?_ ?_ | refine State.setRclJob_keeps ?_ | refine rclSignal_keeps ?_
    | refine spWriteAny_keeps ?_ | split | intro _ | refine keeps_mk ?_)

theorem notifyStep_keeps {pq : List Instr} {s : State} {j : JobId} {kind step attempt next : Nat} (hq : Keeps pq s) :
    Keeps pq (notifyStep s j kind step attempt next) := by
  unfold notifyStep
  try dsimp only
  with_reducible repeat' (
    first
    | assumption | refine keeps_fst ?_ (by assumption) | refine State.setRclJob_keeps ?_
    | refine postNotes_keeps ?_ | refine rclSignal_keeps ?_ | split | intro _ | refine keeps_mk ?_)

theorem flipEpoch_keeps {pq : List Instr} {s : State} {e : QId} (hq : Keeps pq s) :
    Keeps pq (flipEpoch s e) := by
  unfold flipEpoch
  try dsimp only
  with_reducible repeat' (
    first
    | assumption | refine keeps_fst ?_ (by assumption) | refine State.wr_keeps ?_ | split | intro _
    | refine keeps_mk ?_)

theorem freshBkts_keeps {pq : List Instr} {s : State} {j : Nat} {phase : Nat} (hq : Keeps pq s) :
    Keeps pq (freshBkts s j phase) := by
  unfold freshBkts
  try dsimp only
  with_reducible repeat' (
    first
    | assumption | refine keeps_fst ?_ (by assumption) | refine keeps_foldl ?_ ?_
    | refine keeps_foldl_pair ?_ ?_ | refine State.setBkt_keeps ?_ | split | intro _ | refine keeps_mk ?_)

theorem lateFail_keeps {pq : List Instr} {s : State} {j : JobId} {late : Bool} (hq : Keeps pq s) :
    Keeps pq (lateFail s j late) := by
  unfold lateFail
  try dsimp only
  with_reducible repeat' (
    first
    | assumption | refine keeps_fst ?_ (by assumption) | refine State.failStep_keeps ?_ | split | intro _
    | refine keeps_mk ?_)

theorem nextStep_keeps {pq : List Instr} {s : State} {j : JobId} {attempt : BitVec 8} (hq : Keeps pq s) :
    Keeps pq (nextStep s j attempt) := by
  unfold nextStep
  try dsimp only
  with_reducible repeat' (
    first
    | assumption | refine keeps_fst ?_ (by assumption) | refine State.setRclJob_keeps ?_ | split | intro _
    | refine keeps_mk ?_)

theorem applyCommit_keeps {pq : List Instr} {s : State} {j : JobId} (hq : Keeps pq s) :
    Keeps pq (applyCommit s j) := by
  unfold applyCommit
  try dsimp only
  with_reducible repeat' (
    first
    | assumption | refine keeps_fst ?_ (by assumption) | refine keeps_snd ?_ (by assumption)
    | refine keeps_foldl ?_ ?_ | refine keeps_foldl_pair ?_ ?_ | refine State.wr_keeps ?_
    | refine belayPin_keeps ?_ | refine cairnStart_keeps ?_ | refine flipEpoch_keeps ?_
    | refine freshBkts_keeps ?_ | refine lateFail_keeps ?_ | refine nextStep_keeps ?_
    | refine notifyStep_keeps ?_ | refine redEv_keeps ?_ | refine stepEnd_keeps ?_ | refine telAuto_keeps ?_
    | split | intro _ | refine keeps_mk ?_)

theorem dropHands_keeps {pq : List Instr} {s : State} {j : Nat} (hq : Keeps pq s) :
    Keeps pq (dropHands s j) := by
  unfold dropHands
  try dsimp only
  with_reducible repeat' (
    first
    | assumption | refine keeps_fst ?_ (by assumption) | refine keeps_foldl ?_ ?_
    | refine keeps_foldl_pair ?_ ?_ | refine drainHand_keeps ?_ | split | intro _ | refine keeps_mk ?_)

theorem freeWork_keeps {pq : List Instr} {s : State} {j : JobId} (hq : Keeps pq s) :
    Keeps pq (freeWork s j) := by
  unfold freeWork
  try dsimp only
  with_reducible repeat' (
    first
    | assumption | refine keeps_fst ?_ (by assumption) | refine keeps_foldl ?_ ?_
    | refine keeps_foldl_pair ?_ ?_ | refine drainGuard_keeps ?_ | split | intro _ | refine keeps_mk ?_)

theorem applyAbandon_keeps {pq : List Instr} {s : State} {j : JobId} (hq : Keeps pq s) :
    Keeps pq (applyAbandon s j) := by
  unfold applyAbandon
  try dsimp only
  with_reducible repeat' (
    first
    | assumption | refine keeps_fst ?_ (by assumption) | refine keeps_snd ?_ (by assumption)
    | refine belayPin_keeps ?_ | refine dropHands_keeps ?_ | refine freeWork_keeps ?_
    | refine freshBkts_keeps ?_ | refine lateFail_keeps ?_ | refine nextStep_keeps ?_
    | refine notifyStep_keeps ?_ | refine redEv_keeps ?_ | refine stepEnd_keeps ?_ | refine telAuto_keeps ?_
    | split | intro _ | refine keeps_mk ?_)

theorem outcomeIn_keeps {pq : List Instr} {s : State} {j : JobId} {p : Pkt} {commit : Bool} (hq : Keeps pq s) :
    Keeps pq (outcomeIn s j p commit) := by
  unfold outcomeIn
  try dsimp only
  with_reducible repeat' (
    first
    | assumption | refine keeps_fst ?_ (by assumption) | refine keeps_foldl ?_ ?_
    | refine keeps_foldl_pair ?_ ?_ | refine applyAbandon_keeps ?_ | refine applyCommit_keeps ?_
    | refine say_keeps ?_ | refine stale_keeps ?_ | split | intro _ | refine keeps_mk ?_)

theorem groupRead_keeps {pq : List Instr} {s : State} {j : JobId} (hq : Keeps pq s) :
    Keeps pq (groupRead s j) := by
  unfold groupRead
  try dsimp only
  with_reducible repeat' (
    first
    | assumption | refine keeps_fst ?_ (by assumption) | refine State.failStep_keeps ?_
    | refine gddrRead_keeps ?_ | refine trainFailed_keeps ?_ | split | intro _ | refine keeps_mk ?_)

theorem jobEn_keeps {pq : List Instr} {s : State} {j : JobId} {on : Bool} (hq : Keeps pq s) :
    Keeps pq (jobEn s j on) := by
  unfold jobEn
  try dsimp only
  with_reducible repeat' (
    first
    | assumption | refine keeps_fst ?_ (by assumption) | refine keeps_snd ?_ (by assumption)
    | refine State.setRclJob_keeps ?_ | refine State.wr_keeps ?_ | refine belayPin_keeps ?_
    | refine freshBkts_keeps ?_ | refine groupRead_keeps ?_ | refine stepBegin_keeps ?_ | split | intro _
    | refine keeps_mk ?_)

theorem jobBelay_keeps {pq : List Instr} {s : State} {j : JobId} {on : Bool} (hq : Keeps pq s) :
    Keeps pq (jobBelay s j on) := by
  unfold jobBelay
  try dsimp only
  with_reducible repeat' (
    first
    | assumption | refine keeps_fst ?_ (by assumption) | refine State.wr_keeps ?_ | refine belayPin_keeps ?_
    | split | intro _ | refine keeps_mk ?_)

theorem jobCtrlWrite_keeps {pq : List Instr} {s : State} {j : JobId} {v : W64} (hq : Keeps pq s) :
    Keeps pq (jobCtrlWrite s j v) := by
  unfold jobCtrlWrite
  try dsimp only
  with_reducible repeat' (
    first
    | assumption | refine keeps_fst ?_ (by assumption) | refine State.failStep_keeps ?_
    | refine jobBelay_keeps ?_ | refine jobEn_keeps ?_ | split | intro _ | refine keeps_mk ?_)

theorem rclCfgWrite_keeps {pq : List Instr} {s : State} {j : JobId} {off : Nat} {v : W64} (hq : Keeps pq s) :
    Keeps pq (rclCfgWrite s j off v) := by
  unfold rclCfgWrite
  try dsimp only
  with_reducible repeat' (
    first
    | assumption | refine keeps_fst ?_ (by assumption) | refine State.wr_keeps ?_ | refine redEv_keeps ?_
    | split | intro _ | refine keeps_mk ?_)

theorem bktWrite_keeps {pq : List Instr} {s : State} {e : QId} {off : Nat} {v : W64} (hq : Keeps pq s) :
    Keeps pq (bktWrite s e off v) := by
  unfold bktWrite
  try dsimp only
  with_reducible repeat' (
    first
    | assumption | refine keeps_fst ?_ (by assumption) | refine State.wr_keeps ?_ | refine redEv_keeps ?_
    | split | intro _ | refine keeps_mk ?_)

theorem rclRetry_keeps {pq : List Instr} {s : State} {j : JobId} (hq : Keeps pq s) :
    Keeps pq (rclRetry s j) := by
  unfold rclRetry
  try dsimp only
  with_reducible repeat' (
    first
    | assumption | refine keeps_fst ?_ (by assumption) | refine keeps_foldl ?_ ?_
    | refine keeps_foldl_pair ?_ ?_ | refine State.setRclJob_keeps ?_ | refine drainGuard_keeps ?_
    | refine postDue_keeps ?_ | refine postNotes_keeps ?_ | refine sendShards_keeps ?_
    | refine takeEarly_keeps ?_ | split | intro _ | refine keeps_mk ?_)

theorem retrySigs_keeps {pq : List Instr} {s : State} {j : JobId} (hq : Keeps pq s) :
    Keeps pq (retrySigs s j) := by
  unfold retrySigs
  try dsimp only
  with_reducible repeat' (
    first
    | assumption | refine keeps_fst ?_ (by assumption) | refine keeps_foldl ?_ ?_
    | refine keeps_foldl_pair ?_ ?_ | refine State.setRclJob_keeps ?_ | refine rclSignal_keeps ?_ | split
    | intro _ | refine keeps_mk ?_)

theorem execHandoverAccept_keeps {pq : List Instr} {e : QId} {us : List Upset} {s : State} {t' : State} (hq : Keeps pq s)
    (he : execHandoverAccept e us s = .next t') : Keeps pq t' := by
  unfold execHandoverAccept at he
  injection he with he
  rw [← he]
  try dsimp only
  with_reducible repeat' (
    first
    | assumption | refine keeps_fst ?_ (by assumption) | refine handover_keeps ?_ | refine strike_keeps ?_
    | split | intro _ | refine keeps_mk ?_)

theorem execDeadlineExpiry_keeps {pq : List Instr} {e : QId} {level : Fin 16} {s : State} {t' : State} (hq : Keeps pq s)
    (he : execDeadlineExpiry e level s = .next t') : Keeps pq t' := by
  unfold execDeadlineExpiry at he
  injection he with he
  rw [← he]
  try dsimp only
  with_reducible repeat' (
    first
    | assumption | refine keeps_fst ?_ (by assumption) | refine State.live_keeps ?_ ?_ 
    | refine deadline_keeps ?_ | split | intro _ | refine keeps_mk ?_)

theorem execRclWorkResult_keeps {pq : List Instr} {j : JobId} {c : CoreId} {i : Nat} {us : List Upset} {s : State} {t' : State} (hq : Keeps pq s)
    (he : execRclWorkResult j c i us s = .next t') : Keeps pq t' := by
  unfold execRclWorkResult at he
  injection he with he
  rw [← he]
  try dsimp only
  with_reducible repeat' (
    first
    | assumption | refine keeps_fst ?_ (by assumption) | refine strike_keeps ?_ | refine workResult_keeps ?_
    | split | intro _ | refine keeps_mk ?_)

theorem execRclReadyReached_keeps {pq : List Instr} {j : JobId} {s : State} {t' : State} (hq : Keeps pq s)
    (he : execRclReadyReached j s = .next t') : Keeps pq t' := by
  unfold execRclReadyReached at he
  injection he with he
  rw [← he]
  try dsimp only
  with_reducible repeat' (
    first
    | assumption | refine keeps_fst ?_ (by assumption) | refine State.live_keeps ?_ ?_ 
    | refine readyReached_keeps ?_ | split | intro _ | refine keeps_mk ?_)

theorem execBelayRelease_keeps {pq : List Instr} {j : JobId} {s : State} {t' : State} (hq : Keeps pq s)
    (he : execBelayRelease j s = .next t') : Keeps pq t' := by
  unfold execBelayRelease at he
  injection he with he
  rw [← he]
  try dsimp only
  with_reducible repeat' (
    first
    | assumption | refine keeps_fst ?_ (by assumption) | refine State.live_keeps ?_ ?_ 
    | refine belayRelease_keeps ?_ | split | intro _ | refine keeps_mk ?_)

theorem execCommitTimeoutExpiry_keeps {pq : List Instr} {j : JobId} {s : State} {t' : State} (hq : Keeps pq s)
    (he : execCommitTimeoutExpiry j s = .next t') : Keeps pq t' := by
  unfold execCommitTimeoutExpiry at he
  injection he with he
  rw [← he]
  try dsimp only
  with_reducible repeat' (
    first
    | assumption | refine keeps_fst ?_ (by assumption) | refine State.live_keeps ?_ ?_ 
    | refine commitTimeout_keeps ?_ | split | intro _ | refine keeps_mk ?_)

theorem execCommitWaitExpiry_keeps {pq : List Instr} {j : JobId} {s : State} {t' : State} (hq : Keeps pq s)
    (he : execCommitWaitExpiry j s = .next t') : Keeps pq t' := by
  unfold execCommitWaitExpiry at he
  injection he with he
  rw [← he]
  try dsimp only
  with_reducible repeat' (
    first
    | assumption | refine keeps_fst ?_ (by assumption) | refine State.live_keeps ?_ ?_ 
    | refine commitWait_keeps ?_ | split | intro _ | refine keeps_mk ?_)

theorem execCairnComplete_keeps {pq : List Instr} {j : JobId} {err : Option CxlErr} {s : State} {t' : State} (hq : Keeps pq s)
    (he : execCairnComplete j err s = .next t') : Keeps pq t' := by
  unfold execCairnComplete at he
  injection he with he
  rw [← he]
  try dsimp only
  with_reducible repeat' (
    first
    | assumption | refine keeps_fst ?_ (by assumption) | refine State.live_keeps ?_ ?_ 
    | refine cairnComplete_keeps ?_ | split | intro _ | refine keeps_mk ?_)

theorem execJobEn_keeps {pq : List Instr} {j : JobId} {on : Bool} {s : State} {t' : State} (hq : Keeps pq s)
    (he : execJobEn j on s = .next t') : Keeps pq t' := by
  unfold execJobEn at he
  injection he with he
  rw [← he]
  try dsimp only
  with_reducible repeat' (
    first
    | assumption | refine keeps_fst ?_ (by assumption) | refine State.ifOn_keeps ?_ ?_ 
    | refine jobEn_keeps ?_ | split | intro _ | refine keeps_mk ?_)

theorem execJobBelayEn_keeps {pq : List Instr} {j : JobId} {on : Bool} {s : State} {t' : State} (hq : Keeps pq s)
    (he : execJobBelayEn j on s = .next t') : Keeps pq t' := by
  unfold execJobBelayEn at he
  injection he with he
  rw [← he]
  try dsimp only
  with_reducible repeat' (
    first
    | assumption | refine keeps_fst ?_ (by assumption) | refine State.ifOn_keeps ?_ ?_ 
    | refine jobBelay_keeps ?_ | split | intro _ | refine keeps_mk ?_)

theorem execJobFail_keeps {pq : List Instr} {j : JobId} {s : State} {t' : State} (hq : Keeps pq s)
    (he : execJobFail j s = .next t') : Keeps pq t' := by
  unfold execJobFail at he
  injection he with he
  rw [← he]
  try dsimp only
  with_reducible repeat' (
    first
    | assumption | refine keeps_fst ?_ (by assumption) | refine State.failStep_keeps ?_
    | refine State.ifOn_keeps ?_ ?_  | split | intro _ | refine keeps_mk ?_)

theorem execHeldSignalRetry_keeps {pq : List Instr} {h : Holder} {s : State} {t' : State} (hq : Keeps pq s)
    (he : execHeldSignalRetry h s = .next t') : Keeps pq t' := by
  unfold execHeldSignalRetry at he
  injection he with he
  rw [← he]
  try dsimp only
  with_reducible repeat' (
    first
    | assumption | refine keeps_fst ?_ (by assumption) | refine State.live_keeps ?_ ?_ 
    | refine rclRetry_keeps ?_ | refine retryHeld_keeps ?_ | refine retryNotify_keeps ?_
    | refine retrySigs_keeps ?_ | refine wake_keeps ?_ | split | intro _ | refine keeps_mk ?_)

end Sys2Proof.Machine
end

