-- ==== Sys2Proof/Laws/KeepsModels.lean ====
section
/-!
SUPPORT. The operations of Models keep the waiting commands and the canonical memories.
-/

-- The declarations of this file are elaborated in turn, so that checking the package as one text needs few threads.
set_option Elab.async false

namespace Sys2Proof.Machine

theorem setRmt_keeps {pq : List Instr} {s : State} {e : Nat} {v : W64} (hq : Keeps pq s) :
    Keeps pq (setRmt s e v) := by
  unfold setRmt
  try dsimp only
  with_reducible repeat' (
    first
    | assumption | refine keeps_fst ?_ (by assumption) | refine State.wr_keeps ?_ | split | intro _
    | refine keeps_mk ?_)

theorem setRmtRec_keeps {pq : List Instr} {s : State} {e : Nat} {rec_ : List Byte} (hq : Keeps pq s) :
    Keeps pq (setRmtRec s e rec_) := by
  unfold setRmtRec
  try dsimp only
  with_reducible repeat' (
    first
    | assumption | refine keeps_fst ?_ (by assumption) | refine keeps_foldl ?_ ?_
    | refine keeps_foldl_pair ?_ ?_ | refine State.wr_keeps ?_ | split | intro _ | refine keeps_mk ?_)

theorem imageDo_keeps {pq : List Instr} {s : State} {job a len : Nat} {data : Option (List Byte)} {err : Option CxlErr} (hq : Keeps pq s) :
    Keeps pq (imageDo s job a len data err).1 := by
  unfold imageDo
  try dsimp only
  with_reducible repeat' (
    first
    | assumption | refine keeps_fst ?_ (by assumption) | refine gddrDo_keeps ?_ | refine tierDo_keeps ?_
    | split | intro _ | refine keeps_mk ?_)

theorem pieceRead_keeps {pq : List Instr} {s : State} {c : CoreId} {job off len : Nat} (hq : Keeps pq s) :
    Keeps pq (pieceRead s c job off len).1 := by
  unfold pieceRead
  try dsimp only
  with_reducible repeat' (
    first
    | assumption | refine keeps_fst ?_ (by assumption) | refine spReadAny_keeps ?_ | split | intro _
    | refine keeps_mk ?_)

theorem copyIn_keeps {pq : List Instr} {s : State} {job : Nat} {r : List Byte} {err : Option CxlErr} (hq : Keeps pq s) :
    Keeps pq (copyIn s job r err).1 := by
  unfold copyIn
  try dsimp only
  with_reducible repeat' (
    first
    | assumption | refine keeps_fst ?_ (by assumption) | refine keeps_foldl ?_ ?_
    | refine keeps_foldl_pair ?_ ?_ | refine imageDo_keeps ?_ | refine spWriteAny_keeps ?_ | split | intro _
    | refine keeps_mk ?_)

theorem copyOut_keeps {pq : List Instr} {s : State} {job : Nat} {r : List Byte} {err : Option CxlErr} (hq : Keeps pq s) :
    Keeps pq (copyOut s job r err).1 := by
  unfold copyOut
  try dsimp only
  with_reducible repeat' (
    first
    | assumption | refine keeps_fst ?_ (by assumption) | refine keeps_foldl ?_ ?_
    | refine keeps_foldl_pair ?_ ?_ | refine imageDo_keeps ?_ | refine pieceRead_keeps ?_ | split | intro _
    | refine keeps_mk ?_)

theorem copyFailed_keeps {pq : List Instr} {s : State} {e job : Nat} (hq : Keeps pq s) :
    Keeps pq (copyFailed s e job) := by
  unfold copyFailed
  try dsimp only
  with_reducible repeat' (
    first
    | assumption | refine keeps_fst ?_ (by assumption) | refine State.raise_keeps ?_ | split | intro _
    | refine keeps_mk ?_)

theorem setGecko_keeps {pq : List Instr} {s : State} {r : List Byte} {on : Bool} {job : Nat} (hq : Keeps pq s) :
    Keeps pq (setGecko s r on job) := by
  unfold setGecko
  try dsimp only
  with_reducible repeat' (
    first
    | assumption | refine keeps_fst ?_ (by assumption) | refine keeps_foldl ?_ ?_
    | refine keeps_foldl_pair ?_ ?_ | refine State.orReg_keeps ?_ | refine State.wr_keeps ?_ | split
    | intro _ | refine keeps_mk ?_)

theorem rmtEvict_keeps {pq : List Instr} {s : State} {e : Nat} {err : Option CxlErr} (hq : Keeps pq s) :
    Keeps pq (rmtEvict s e err).1 := by
  unfold rmtEvict
  try dsimp only
  with_reducible repeat' (
    first
    | assumption | refine keeps_fst ?_ (by assumption) | refine copyFailed_keeps ?_ | refine copyOut_keeps ?_
    | refine setGecko_keeps ?_ | refine setRmt_keeps ?_ | split | intro _ | refine keeps_mk ?_)

theorem makeRoom_keeps {pq : List Instr} {s : State} {e : Nat} {r : List Byte} {err : Option CxlErr} (hq : Keeps pq s) :
    Keeps pq (makeRoom s e r err).1 := by
  unfold makeRoom
  try dsimp only
  with_reducible repeat' (
    first
    | assumption | refine keeps_fst ?_ (by assumption) | refine keeps_foldl ?_ ?_
    | refine keeps_foldl_pair ?_ ?_ | refine State.raise_keeps ?_ | refine rmtEvict_keeps ?_ | split
    | intro _ | refine keeps_mk ?_)

theorem rmtInstall_keeps {pq : List Instr} {s : State} {e job prio : Nat} {r : List Byte} {err : Option CxlErr} (hq : Keeps pq s) :
    Keeps pq (rmtInstall s e job prio r err).1 := by
  unfold rmtInstall
  try dsimp only
  with_reducible repeat' (
    first
    | assumption | refine keeps_fst ?_ (by assumption) | refine copyFailed_keeps ?_ | refine copyIn_keeps ?_
    | refine makeRoom_keeps ?_ | refine rmtEvict_keeps ?_ | refine setGecko_keeps ?_ | refine setRmt_keeps ?_
    | refine setRmtRec_keeps ?_ | split | intro _ | refine keeps_mk ?_)

theorem rmtClose_keeps {pq : List Instr} {s : State} {job : Nat} {err : Option CxlErr} (hq : Keeps pq s) :
    Keeps pq (rmtClose s job err).1 := by
  unfold rmtClose
  try dsimp only
  with_reducible repeat' (
    first
    | assumption | refine keeps_fst ?_ (by assumption) | refine keeps_foldl ?_ ?_
    | refine keeps_foldl_pair ?_ ?_ | refine rmtEvict_keeps ?_ | refine setRmt_keeps ?_
    | refine setRmtRec_keeps ?_ | split | intro _ | refine keeps_mk ?_)

end Sys2Proof.Machine
end

