-- ==== Sys2Proof/Laws/KeepsRings.lean ====
section
/-!
SUPPORT. The operations of Rings keep the waiting commands and the canonical memories.
-/

-- The declarations of this file are elaborated in turn, so that checking the package as one text needs few threads.
set_option Elab.async false

namespace Sys2Proof.Machine

theorem ringError_keeps {pq : List Instr} {s : State} {r : RingId} {cause : Nat} (hq : Keeps pq s) :
    Keeps pq (ringError s r cause) := by
  unfold ringError
  try dsimp only
  with_reducible repeat' (
    first
    | assumption | refine keeps_fst ?_ (by assumption) | refine State.raise_keeps ?_
    | refine State.setRing_keeps ?_ | split | intro _ | refine keeps_mk ?_)

theorem dbIgnored_keeps {pq : List Instr} {s : State} {r : RingId} (hq : Keeps pq s) :
    Keeps pq (dbIgnored s r) := by
  unfold dbIgnored
  try dsimp only
  with_reducible repeat' (
    first
    | assumption | refine keeps_fst ?_ (by assumption) | refine State.raise_keeps ?_ | split | intro _
    | refine keeps_mk ?_)

theorem writeHeld_keeps {pq : List Instr} {r : RingId} {x0 : Nat} {x1 : State} (hq : Keeps pq x1) :
    Keeps pq (writeHeld r x0 x1) := by
  induction x0 generalizing x1 with
  | zero => simp only [writeHeld]; exact hq
  | succ n ih =>
    unfold writeHeld
    try dsimp only
    with_reducible repeat' (
      first
      | assumption | refine keeps_fst ?_ (by assumption) | refine ih ?_ | refine State.putRecord_keeps ?_
      | refine State.setRing_keeps ?_ | split | intro _ | refine keeps_mk ?_)

theorem ringFlow_keeps {pq : List Instr} {s : State} {r : RingId} (hq : Keeps pq s) :
    Keeps pq (ringFlow s r) := by
  unfold ringFlow
  try dsimp only
  with_reducible repeat' (
    first
    | assumption | refine keeps_fst ?_ (by assumption) | refine State.evtLost_keeps ?_
    | refine writeHeld_keeps ?_ | split | intro _ | refine keeps_mk ?_)

theorem postCompl_keeps {pq : List Instr} {s : State} {r : RingId} {bytes : List Byte} {irq : Bool} (hq : Keeps pq s) :
    Keeps pq (postCompl s r bytes irq) := by
  unfold postCompl
  try dsimp only
  with_reducible repeat' (
    first
    | assumption | refine keeps_fst ?_ (by assumption) | refine State.setRing_keeps ?_
    | refine ringFlow_keeps ?_ | split | intro _ | refine keeps_mk ?_)

theorem complete_keeps {pq : List Instr} {s : State} {r : RingId} {d : Desc} {status : BitVec 8} {result : BitVec 32} {info : BitVec 16} (hq : Keeps pq s) :
    Keeps pq (complete s r d status result info) := by
  unfold complete
  try dsimp only
  with_reducible repeat' (
    first
    | assumption | refine keeps_fst ?_ (by assumption) | refine keeps_snd ?_ (by assumption)
    | refine State.now_keeps ?_ | refine State.orReg_keeps ?_ | refine postCompl_keeps ?_ | split | intro _
    | refine keeps_mk ?_)

theorem setRun1_keeps {pq : List Instr} {s : State} {r : RingId} {i : Nat} {run : DescRun} (hq : Keeps pq s) :
    Keeps pq (setRun1 s r i run) := by
  unfold setRun1
  try dsimp only
  with_reducible repeat' (
    first
    | assumption | refine keeps_fst ?_ (by assumption) | refine State.setRing_keeps ?_ | split | intro _
    | refine keeps_mk ?_)

theorem dueDesc_keeps {pq : List Instr} {s : State} {r : RingId} {i : Nat} {status : BitVec 8} {result : Nat} {info : Nat} (hq : Keeps pq s) :
    Keeps pq (dueDesc s r i status result info) := by
  unfold dueDesc
  try dsimp only
  with_reducible repeat' (
    first
    | assumption | refine keeps_fst ?_ (by assumption) | refine State.due_keeps ?_ | refine setRun1_keeps ?_
    | split | intro _ | refine keeps_mk ?_)

theorem descComplete_keeps {pq : List Instr} {s : State} {r : RingId} {i : Nat} (hq : Keeps pq s) :
    Keeps pq (descComplete s r i) := by
  unfold descComplete
  try dsimp only
  with_reducible repeat' (
    first
    | assumption | refine keeps_fst ?_ (by assumption) | refine State.due_keeps ?_
    | refine State.setRing_keeps ?_ | refine complete_keeps ?_ | split | intro _ | refine keeps_mk ?_)

theorem prodWrite_keeps {pq : List Instr} {s : State} {r : RingId} {v : BitVec 32} (hq : Keeps pq s) :
    Keeps pq (prodWrite s r v) := by
  unfold prodWrite
  try dsimp only
  with_reducible repeat' (
    first
    | assumption | refine keeps_fst ?_ (by assumption) | refine State.setRing_keeps ?_
    | refine ringError_keeps ?_ | split | intro _ | refine keeps_mk ?_)

theorem consWrite_keeps {pq : List Instr} {s : State} {r : RingId} {v : BitVec 32} (hq : Keeps pq s) :
    Keeps pq (consWrite s r v) := by
  unfold consWrite
  try dsimp only
  with_reducible repeat' (
    first
    | assumption | refine keeps_fst ?_ (by assumption) | refine State.setRing_keeps ?_
    | refine ringError_keeps ?_ | refine ringFlow_keeps ?_ | split | intro _ | refine keeps_mk ?_)

theorem doorbell_keeps {pq : List Instr} {s : State} {r : RingId} {b : Sender} {v : W64} {act : State → RingId → BitVec 32 → State} (hq : Keeps pq s) (hf1 : ∀ (a0 : State) (a1 : RingId) (a2 : BitVec 32), Keeps pq a0 → Keeps pq (act a0 a1 a2)) :
    Keeps pq (doorbell s r b v act) := by
  unfold doorbell
  try dsimp only
  with_reducible repeat' (
    first
    | assumption | refine keeps_fst ?_ (by assumption) | refine dbIgnored_keeps ?_ | refine hf1 _ ?_
    | refine hf1 _ _ ?_ | refine hf1 _ _ _ ?_ | split | intro _ | refine keeps_mk ?_)

theorem execSqDoorbell_keeps {pq : List Instr} {r : RingId} {b : Sender} {v : W64} {s : State} {t' : State} (hq : Keeps pq s)
    (he : execSqDoorbell r b v s = .next t') : Keeps pq t' := by
  unfold execSqDoorbell at he
  injection he with he
  rw [← he]
  try dsimp only
  with_reducible repeat' (
    first
    | assumption | refine keeps_fst ?_ (by assumption) | refine doorbell_keeps ?_ ?_ 
    | refine prodWrite_keeps ?_ | split | intro _ | refine keeps_mk ?_)

theorem execCqDoorbell_keeps {pq : List Instr} {r : RingId} {b : Sender} {v : W64} {s : State} {t' : State} (hq : Keeps pq s)
    (he : execCqDoorbell r b v s = .next t') : Keeps pq t' := by
  unfold execCqDoorbell at he
  injection he with he
  rw [← he]
  try dsimp only
  with_reducible repeat' (
    first
    | assumption | refine keeps_fst ?_ (by assumption) | refine consWrite_keeps ?_
    | refine doorbell_keeps ?_ ?_  | split | intro _ | refine keeps_mk ?_)

theorem descFetch_keeps {pq : List Instr} {s : State} {r : RingId} {n : Nat} {reply : HostReply} (hq : Keeps pq s) :
    Keeps pq (descFetch s r n reply) := by
  unfold descFetch
  try dsimp only
  with_reducible repeat' (
    first
    | assumption | refine keeps_fst ?_ (by assumption) | refine keeps_snd ?_ (by assumption)
    | refine State.now_keeps ?_ | refine State.setRing_keeps ?_ | refine ringError_keeps ?_ | split | intro _
    | refine keeps_mk ?_)

theorem execDescriptorFetch_keeps {pq : List Instr} {r : RingId} {n : Nat} {reply : HostReply} {s : State} {t' : State} (hq : Keeps pq s)
    (he : execDescriptorFetch r n reply s = .next t') : Keeps pq t' := by
  unfold execDescriptorFetch at he
  injection he with he
  rw [← he]
  try dsimp only
  with_reducible repeat' (
    first
    | assumption | refine keeps_fst ?_ (by assumption) | refine descFetch_keeps ?_ | split | intro _
    | refine keeps_mk ?_)

theorem execDescriptorComplete_keeps {pq : List Instr} {r : RingId} {i : Nat} {s : State} {t' : State} (hq : Keeps pq s)
    (he : execDescriptorComplete r i s = .next t') : Keeps pq t' := by
  unfold execDescriptorComplete at he
  injection he with he
  rw [← he]
  try dsimp only
  with_reducible repeat' (
    first
    | assumption | refine keeps_fst ?_ (by assumption) | refine descComplete_keeps ?_ | split | intro _
    | refine keeps_mk ?_)

theorem queueRejects_keeps {pq : List Instr} {s : State} {j : Nat} {d : Desc} (hq : Keeps pq s) :
    Keeps pq (queueRejects s j d) := by
  unfold queueRejects
  try dsimp only
  with_reducible repeat' (
    first
    | assumption | refine keeps_fst ?_ (by assumption) | refine qEv_keeps ?_ | split | intro _
    | refine keeps_mk ?_)

theorem descStart_keeps {pq : List Instr} {s : State} {r : RingId} (hq : Keeps pq s) :
    Keeps pq (descStart s r) := by
  unfold descStart
  try dsimp only
  with_reducible repeat' (
    first
    | assumption | refine keeps_fst ?_ (by assumption) | refine dueDesc_keeps ?_
    | refine queueRejects_keeps ?_ | refine setRun1_keeps ?_ | split | intro _ | refine keeps_mk ?_)

theorem execDescriptorStart_keeps {pq : List Instr} {r : RingId} {s : State} {t' : State} (hq : Keeps pq s)
    (he : execDescriptorStart r s = .next t') : Keeps pq t' := by
  unfold execDescriptorStart at he
  injection he with he
  rw [← he]
  try dsimp only
  with_reducible repeat' (
    first
    | assumption | refine keeps_fst ?_ (by assumption) | refine descStart_keeps ?_ | split | intro _
    | refine keeps_mk ?_)

theorem abortUnstarted_keeps {pq : List Instr} {s : State} {r : RingId} (hq : Keeps pq s) :
    Keeps pq (abortUnstarted s r) := by
  unfold abortUnstarted
  try dsimp only
  with_reducible repeat' (
    first
    | assumption | refine keeps_fst ?_ (by assumption) | refine State.due_keeps ?_
    | refine State.setRing_keeps ?_ | split | intro _ | refine keeps_mk ?_)

theorem ringEnable_keeps {pq : List Instr} {s : State} {r : RingId} {on : Bool} (hq : Keeps pq s) :
    Keeps pq (ringEnable s r on) := by
  unfold ringEnable
  try dsimp only
  with_reducible repeat' (
    first
    | assumption | refine keeps_fst ?_ (by assumption) | refine State.raise_keeps ?_
    | refine State.setRing_keeps ?_ | refine State.wr_keeps ?_ | refine abortUnstarted_keeps ?_
    | refine ringFlow_keeps ?_ | split | intro _ | refine keeps_mk ?_)

theorem ringCfgWrite_keeps {pq : List Instr} {s : State} {r : RingId} {pf : Bool} {v : W64} (hq : Keeps pq s) :
    Keeps pq (ringCfgWrite s r pf v) := by
  unfold ringCfgWrite
  try dsimp only
  with_reducible repeat' (
    first
    | assumption | refine keeps_fst ?_ (by assumption) | refine State.wr_keeps ?_
    | refine ringEnable_keeps ?_ | split | intro _ | refine keeps_mk ?_)

theorem ringBaseWrite_keeps {pq : List Instr} {s : State} {r : RingId} {v : W64} (hq : Keeps pq s) :
    Keeps pq (ringBaseWrite s r v) := by
  unfold ringBaseWrite
  try dsimp only
  with_reducible repeat' (
    first
    | assumption | refine keeps_fst ?_ (by assumption) | refine State.wr_keeps ?_ | split | intro _
    | refine keeps_mk ?_)

theorem execRingEn_keeps {pq : List Instr} {r : RingId} {b : Sender} {on : Bool} {s : State} {t' : State} (hq : Keeps pq s)
    (he : execRingEn r b on s = .next t') : Keeps pq t' := by
  unfold execRingEn at he
  injection he with he
  rw [← he]
  try dsimp only
  with_reducible repeat' (
    first
    | assumption | refine keeps_fst ?_ (by assumption) | refine ringEnable_keeps ?_ | split | intro _
    | refine keeps_mk ?_)

theorem msixDelay_keeps {pq : List Instr} {s : State} {r : RingId} (hq : Keeps pq s) :
    Keeps pq (msixDelay s r) := by
  unfold msixDelay
  try dsimp only
  with_reducible repeat' (
    first
    | assumption | refine keeps_fst ?_ (by assumption) | refine State.setRing_keeps ?_
    | refine State.vector_keeps ?_ | split | intro _ | refine keeps_mk ?_)

theorem msixFlush_keeps {pq : List Instr} {s : State} {fn : Nat} (hq : Keeps pq s) :
    Keeps pq (msixFlush s fn) := by
  unfold msixFlush
  try dsimp only
  with_reducible repeat' (
    first
    | assumption | refine keeps_fst ?_ (by assumption) | refine keeps_foldl ?_ ?_
    | refine keeps_foldl_pair ?_ ?_ | refine State.message_keeps ?_ | split | intro _ | refine keeps_mk ?_)

theorem msixMask_keeps {pq : List Instr} {s : State} {fn vec : Nat} {masked : Bool} (hq : Keeps pq s) :
    Keeps pq (msixMask s fn vec masked) := by
  unfold msixMask
  try dsimp only
  with_reducible repeat' (
    first
    | assumption | refine keeps_fst ?_ (by assumption) | refine msixFlush_keeps ?_ | split | intro _
    | refine keeps_mk ?_)

theorem execMsixDelayExpiry_keeps {pq : List Instr} {r : RingId} {s : State} {t' : State} (hq : Keeps pq s)
    (he : execMsixDelayExpiry r s = .next t') : Keeps pq t' := by
  unfold execMsixDelayExpiry at he
  injection he with he
  rw [← he]
  try dsimp only
  with_reducible repeat' (
    first
    | assumption | refine keeps_fst ?_ (by assumption) | refine State.live_keeps ?_ ?_ 
    | refine msixDelay_keeps ?_ | split | intro _ | refine keeps_mk ?_)

theorem execMsixUnmask_keeps {pq : List Instr} {fn : Fin 17} {vec : Fin 2048} {s : State} {t' : State} (hq : Keeps pq s)
    (he : execMsixUnmask fn vec s = .next t') : Keeps pq t' := by
  unfold execMsixUnmask at he
  injection he with he
  rw [← he]
  try dsimp only
  with_reducible repeat' (
    first
    | assumption | refine keeps_fst ?_ (by assumption) | refine msixMask_keeps ?_ | split | intro _
    | refine keeps_mk ?_)

end Sys2Proof.Machine
end

