-- ==== Sys2Proof/Laws/KeepsHostOps.lean ====
section
/-!
SUPPORT. The operations of HostOps keep the waiting commands and the canonical memories.
-/

-- The declarations of this file are elaborated in turn, so that checking the package as one text needs few threads.
set_option Elab.async false

namespace Sys2Proof.Machine

theorem pieceOf_keeps {pq : List Instr} {x : State × AccEnd} (h : Keeps pq x.1) : Keeps pq (pieceOf x).1 := by
  unfold pieceOf
  split <;> exact h

theorem spPlain_keeps {pq : List Instr} {s : State} {t : CoreId} {job : Option Nat} {off len : Nat} {data : Option (List Byte)} (hq : Keeps pq s) :
    Keeps pq (spPlain s t job off len data).1 := by
  unfold spPlain
  try dsimp only
  with_reducible repeat' (
    first
    | assumption | refine keeps_fst ?_ (by assumption) | refine State.raise_keeps ?_ | refine spEcc_keeps ?_
    | refine spMerge_keeps ?_ | split | intro _ | refine keeps_mk ?_)

theorem ringDevice_keeps {pq : List Instr} {s : State} {r : RingId} {a len : Nat} {data : Option (List Byte)} {err : Option CxlErr} (hq : Keeps pq s) :
    Keeps pq (ringDevice s r a len data err).1 := by
  unfold ringDevice
  try dsimp only
  with_reducible repeat' (
    first
    | assumption | refine keeps_fst ?_ (by assumption) | refine gddrDo_keeps ?_ | refine gddrOutside_keeps ?_
    | refine memCheck_keeps ?_ | refine peerSend_keeps ?_ | refine pieceOf_keeps ?_
    | refine spOutside_keeps ?_ | refine spPlain_keeps ?_ | refine tierDo_keeps ?_ | split | intro _
    | refine keeps_mk ?_)

theorem ringAsk_keeps {pq : List Instr} {s : State} {r : RingId} {a off len : Nat} {ordered : Bool} (hq : Keeps pq s) :
    Keeps pq (ringAsk s r a off len ordered).1 := by
  unfold ringAsk
  try dsimp only
  with_reducible repeat' (
    first
    | assumption | refine keeps_fst ?_ (by assumption) | refine keeps_snd ?_ (by assumption)
    | refine State.fresh_keeps ?_ | refine hostSend_keeps ?_ | split | intro _ | refine keeps_mk ?_)

theorem ringWrite_keeps {pq : List Instr} {s : State} {r : RingId} {a : Nat} {host : Bool} {bs : List Byte} {err : Option CxlErr} (hq : Keeps pq s) :
    Keeps pq (ringWrite s r a host bs err).1 := by
  unfold ringWrite
  try dsimp only
  with_reducible repeat' (
    first
    | assumption | refine keeps_fst ?_ (by assumption) | refine hostPut_keeps ?_ | refine ringDevice_keeps ?_
    | split | intro _ | refine keeps_mk ?_)

theorem xferGo_keeps {pq : List Instr} {r : RingId} {p : XferPath} {stop : Nat} {err : Option CxlErr} {x0 : Nat} {x1 : State} {x2 : Xfer} (hq : Keeps pq x1) :
    Keeps pq (xferGo r p stop err x0 x1 x2).1 := by
  induction x0 generalizing x1 x2 with
  | zero => simp only [xferGo]; exact hq
  | succ n ih =>
    unfold xferGo
    try dsimp only
    with_reducible repeat' (
      first
      | assumption | refine keeps_fst ?_ (by assumption) | refine ih ?_ | refine ringAsk_keeps ?_
      | refine ringDevice_keeps ?_ | refine ringWrite_keeps ?_ | split | intro _ | refine keeps_mk ?_)

theorem hostAnswer_keeps {pq : List Instr} {s : State} {r : RingId} {x : Xfer} {reply : HostReply} (hq : Keeps pq s) :
    Keeps pq (hostAnswer s r x reply).1 := by
  unfold hostAnswer
  try dsimp only
  with_reducible repeat' (
    first
    | assumption | refine keeps_fst ?_ (by assumption) | refine hostError_keeps ?_ | split | intro _
    | refine keeps_mk ?_)

theorem xferRun_keeps {pq : List Instr} {r : RingId} {p : XferPath} {stop fuel : Nat} {err : Option CxlErr}
    {x0 : List HostReply} {x1 : State} {x2 : Xfer} (hq : Keeps pq x1) :
    Keeps pq (xferRun r p stop fuel err x0 x1 x2).1 := by
  induction x0 generalizing x1 x2 with
  | nil => simp only [xferRun]; exact xferGo_keeps hq
  | cons x l ih => unfold xferRun; exact ih (hostAnswer_keeps (xferGo_keeps hq))

theorem xferStray_keeps {pq : List Instr} {s : State} {r : RingId} {dst : Nat × Bool} {x : Xfer} (hq : Keeps pq s) :
    Keeps pq (xferStray s r dst x) := by
  unfold xferStray
  try dsimp only
  with_reducible repeat' (
    first
    | assumption | refine keeps_fst ?_ (by assumption) | refine keeps_snd ?_ (by assumption)
    | refine keeps_foldl ?_ ?_ | refine keeps_foldl_pair ?_ ?_ | refine State.fresh_keeps ?_
    | refine ringWrite_keeps ?_ | split | intro _ | refine keeps_mk ?_)

theorem portTurn_keeps {pq : List Instr} {s : State} {r : RingId} {d : Desc} {act : State → State} (hq : Keeps pq s) (hf1 : ∀ (a0 : State), Keeps pq a0 → Keeps pq (act a0)) :
    Keeps pq (portTurn s r d act) := by
  unfold portTurn
  try dsimp only
  with_reducible repeat' (
    first
    | assumption | refine keeps_fst ?_ (by assumption) | refine hf1 _ ?_ | refine hf1 _ _ ?_
    | refine hf1 _ _ _ ?_ | split | intro _ | refine keeps_mk ?_)

theorem xferSettle_keeps {pq : List Instr} {s : State} {r : RingId} {i : Nat} {dst : Option (Nat × Bool)} {x : Xfer} (hq : Keeps pq s) :
    Keeps pq (xferSettle s r i dst x) := by
  unfold xferSettle
  try dsimp only
  with_reducible repeat' (
    first
    | assumption | refine keeps_fst ?_ (by assumption) | refine dueDesc_keeps ?_ | refine setRun1_keeps ?_
    | refine xferStray_keeps ?_ | split | intro _ | refine keeps_mk ?_)

theorem execHostNop_keeps {pq : List Instr} {r : RingId} {s : State} {i : Nat} {t' : State} (hq : Keeps pq s)
    (he : execHostNop r s i = .next t') : Keeps pq t' := by
  unfold execHostNop at he
  injection he with he
  rw [← he]
  try dsimp only
  with_reducible repeat' (
    first
    | assumption | refine keeps_fst ?_ (by assumption) | refine dueDesc_keeps ?_ | split | intro _
    | refine keeps_mk ?_)

theorem fetchBuf_keeps {pq : List Instr} {s : State} {r : RingId} {i : Nat} {d : Desc} {src : Nat × Bool} {len : Nat} {h : Answers} (hq : Keeps pq s) :
    Keeps pq (fetchBuf s r i d src len h).1 := by
  unfold fetchBuf
  try dsimp only
  with_reducible repeat' (
    first
    | assumption | refine keeps_fst ?_ (by assumption) | refine dueDesc_keeps ?_ | refine setRun1_keeps ?_
    | refine xferRun_keeps ?_ | refine xferSettle_keeps ?_ | split | intro _ | refine keeps_mk ?_)

theorem loadCore_keeps {pq : List Instr} {c : CoreId} {start : Nat} {bs : List Byte} {count : Nat} {s : State} (hq : Keeps pq s) :
    Keeps pq (loadCore c start bs count s) := by
  unfold loadCore
  try dsimp only
  with_reducible repeat' (
    first
    | assumption | refine keeps_fst ?_ (by assumption) | refine keeps_foldl ?_ ?_
    | refine keeps_foldl_pair ?_ ?_ | refine State.count_keeps ?_ | refine imemStore_keeps ?_ | split
    | intro _ | refine keeps_mk ?_)

theorem loadProg_keeps {pq : List Instr} {s : State} {r : RingId} {i : Nat} {h : Answers} (hq : Keeps pq s) :
    Keeps pq (loadProg s r i h) := by
  unfold loadProg
  try dsimp only
  with_reducible repeat' (
    first
    | assumption | refine keeps_fst ?_ (by assumption) | refine keeps_foldl ?_ ?_
    | refine keeps_foldl_pair ?_ ?_ | refine dueDesc_keeps ?_ | refine fetchBuf_keeps ?_
    | refine loadCore_keeps ?_ | refine portTurn_keeps ?_ ?_  | split | intro _ | refine keeps_mk ?_)

theorem execLoadProg_keeps {pq : List Instr} {r : RingId} {us : List Upset} {hs : List HostReply} {err : Option CxlErr} {s : State} {i : Nat} {t' : State} (hq : Keeps pq s)
    (he : execLoadProg r us hs err s i = .next t') : Keeps pq t' := by
  unfold execLoadProg at he
  injection he with he
  rw [← he]
  try dsimp only
  with_reducible repeat' (
    first
    | assumption | refine keeps_fst ?_ (by assumption) | refine loadProg_keeps ?_ | refine strike_keeps ?_
    | split | intro _ | refine keeps_mk ?_)

theorem copyRun_keeps {pq : List Instr} {s : State} {r : RingId} {i : Nat} {h : Answers} (hq : Keeps pq s) :
    Keeps pq (copyRun s r i h) := by
  unfold copyRun
  try dsimp only
  with_reducible repeat' (
    first
    | assumption | refine keeps_fst ?_ (by assumption) | refine dueDesc_keeps ?_
    | refine portTurn_keeps ?_ ?_  | refine xferRun_keeps ?_ | refine xferSettle_keeps ?_ | split | intro _
    | refine keeps_mk ?_)

theorem execCopy_keeps {pq : List Instr} {r : RingId} {us : List Upset} {hs : List HostReply} {err : Option CxlErr} {s : State} {i : Nat} {t' : State} (hq : Keeps pq s)
    (he : execCopy r us hs err s i = .next t') : Keeps pq t' := by
  unfold execCopy at he
  injection he with he
  rw [← he]
  try dsimp only
  with_reducible repeat' (
    first
    | assumption | refine keeps_fst ?_ (by assumption) | refine copyRun_keeps ?_ | refine strike_keeps ?_
    | split | intro _ | refine keeps_mk ?_)

theorem ringTimeout_keeps {pq : List Instr} {s : State} {r : RingId} (hq : Keeps pq s) :
    Keeps pq (ringTimeout s r) := by
  unfold ringTimeout
  try dsimp only
  with_reducible repeat' (
    first
    | assumption | refine keeps_fst ?_ (by assumption) | refine hostAnswer_keeps ?_ | refine setRun1_keeps ?_
    | split | intro _ | refine keeps_mk ?_)

theorem runStart_keeps {pq : List Instr} {s : State} {r : RingId} {i : Nat} (hq : Keeps pq s) :
    Keeps pq (runStart s r i) := by
  unfold runStart
  try dsimp only
  with_reducible repeat' (
    first
    | assumption | refine keeps_fst ?_ (by assumption) | refine keeps_foldl ?_ ?_
    | refine keeps_foldl_pair ?_ ?_ | refine State.setCore_keeps ?_ | refine coreGo_keeps ?_
    | refine setRun1_keeps ?_ | split | intro _ | refine keeps_mk ?_)

theorem runComplete_keeps {pq : List Instr} {s : State} {r : RingId} {i : Nat} (hq : Keeps pq s) :
    Keeps pq (runComplete s r i) := by
  unfold runComplete
  try dsimp only
  with_reducible repeat' (
    first
    | assumption | refine keeps_fst ?_ (by assumption) | refine dueDesc_keeps ?_ | split | intro _
    | refine keeps_mk ?_)

theorem runTimeout_keeps {pq : List Instr} {s : State} {r : RingId} {i : Nat} (hq : Keeps pq s) :
    Keeps pq (runTimeout s r i) := by
  unfold runTimeout
  try dsimp only
  with_reducible repeat' (
    first
    | assumption | refine keeps_fst ?_ (by assumption) | refine keeps_foldl ?_ ?_
    | refine keeps_foldl_pair ?_ ?_ | refine coreStop_keeps ?_ | refine setRun1_keeps ?_ | split | intro _
    | refine keeps_mk ?_)

theorem execRun_keeps {pq : List Instr} {r : RingId} {s : State} {i : Nat} {t' : State} (hq : Keeps pq s)
    (he : execRun r s i = .next t') : Keeps pq t' := by
  unfold execRun at he
  injection he with he
  rw [← he]
  try dsimp only
  with_reducible repeat' (
    first
    | assumption | refine keeps_fst ?_ (by assumption) | refine runStart_keeps ?_ | split | intro _
    | refine keeps_mk ?_)

theorem execRunComplete_keeps {pq : List Instr} {r : RingId} {i : Nat} {s : State} {t' : State} (hq : Keeps pq s)
    (he : execRunComplete r i s = .next t') : Keeps pq t' := by
  unfold execRunComplete at he
  injection he with he
  rw [← he]
  try dsimp only
  with_reducible repeat' (
    first
    | assumption | refine keeps_fst ?_ (by assumption) | refine runComplete_keeps ?_ | split | intro _
    | refine keeps_mk ?_)

theorem execRunTimeoutExpiry_keeps {pq : List Instr} {r : RingId} {i : Nat} {s : State} {t' : State} (hq : Keeps pq s)
    (he : execRunTimeoutExpiry r i s = .next t') : Keeps pq t' := by
  unfold execRunTimeoutExpiry at he
  injection he with he
  rw [← he]
  try dsimp only
  with_reducible repeat' (
    first
    | assumption | refine keeps_fst ?_ (by assumption) | refine runTimeout_keeps ?_ | split | intro _
    | refine keeps_mk ?_)

theorem qpush_keeps {pq : List Instr} {s : State} {r : RingId} {i : Nat} {hs : List HostReply} (hq : Keeps pq s) :
    Keeps pq (qpush s r i hs) := by
  unfold qpush
  try dsimp only
  with_reducible repeat' (
    first
    | assumption | refine keeps_fst ?_ (by assumption) | refine fetchBuf_keeps ?_
    | refine portTurn_keeps ?_ ?_  | refine setRun1_keeps ?_ | split | intro _ | refine keeps_mk ?_)

theorem readPool_keeps {pq : List Instr} {q : QId} {n : Nat} {cs : List Chunk} {s : State} (h : Keeps pq s) :
    Keeps pq (readPool q n cs s).1 := by
  induction cs generalizing n s with
  | nil => cases n <;> exact h
  | cons c rest ih =>
    unfold readPool
    with_reducible repeat' (
      first
      | assumption | refine keeps_fst ?_ (by assumption) | refine ih ?_ | refine poolRead_keeps ?_
      | refine qReset_keeps ?_ | split | intro _ | refine keeps_mk ?_)

theorem packetCells_keeps {pq : List Instr} {s : State} {q : QId} {n : Nat} (hq : Keeps pq s) :
    Keeps pq (packetCells s q n).1 := by
  unfold packetCells
  try dsimp only
  with_reducible repeat' (
    first
    | assumption | refine keeps_fst ?_ (by assumption) | refine readPool_keeps ?_ | split | intro _
    | refine keeps_mk ?_)

theorem packetGone_keeps {pq : List Instr} {s : State} {q : QId} {n : Nat} {last : List Byte} (hq : Keeps pq s) :
    Keeps pq (packetGone s q n last) := by
  unfold packetGone
  try dsimp only
  with_reducible repeat' (
    first
    | assumption | refine keeps_fst ?_ (by assumption) | refine State.count_keeps ?_
    | refine State.setQueue_keeps ?_ | refine qMarks_keeps ?_ | refine qSettle_keeps ?_ | split | intro _
    | refine keeps_mk ?_)

theorem qpop_keeps {pq : List Instr} {s : State} {r : RingId} {i : Nat} (hq : Keeps pq s) :
    Keeps pq (qpop s r i) := by
  unfold qpop
  try dsimp only
  with_reducible repeat' (
    first
    | assumption | refine keeps_fst ?_ (by assumption) | refine dueDesc_keeps ?_ | refine setRun1_keeps ?_
    | split | intro _ | refine keeps_mk ?_)

theorem packetCopy_keeps {pq : List Instr} {s : State} {r : RingId} {i : Nat} (hq : Keeps pq s) :
    Keeps pq (packetCopy s r i) := by
  unfold packetCopy
  try dsimp only
  with_reducible repeat' (
    first
    | assumption | refine keeps_fst ?_ (by assumption) | refine copyOut_keeps ?_ | refine dueDesc_keeps ?_
    | refine hostPut_keeps ?_ | refine packetGone_keeps ?_ | refine setRun1_keeps ?_ | split | intro _
    | refine keeps_mk ?_)

theorem qpopComplete_keeps {pq : List Instr} {s : State} {r : RingId} {i : Nat} (hq : Keeps pq s) :
    Keeps pq (qpopComplete s r i) := by
  unfold qpopComplete
  try dsimp only
  with_reducible repeat' (
    first
    | assumption | refine keeps_fst ?_ (by assumption) | refine copyOut_keeps ?_ | refine dueDesc_keeps ?_
    | refine packetCells_keeps ?_ | refine packetCopy_keeps ?_ | refine qCheck_keeps ?_
    | refine setRun1_keeps ?_ | split | intro _ | refine keeps_mk ?_)

theorem qpopTimeout_keeps {pq : List Instr} {s : State} {r : RingId} {i : Nat} (hq : Keeps pq s) :
    Keeps pq (qpopTimeout s r i) := by
  unfold qpopTimeout
  try dsimp only
  with_reducible repeat' (
    first
    | assumption | refine keeps_fst ?_ (by assumption) | refine dueDesc_keeps ?_ | split | intro _
    | refine keeps_mk ?_)

theorem execQpush_keeps {pq : List Instr} {r : RingId} {hs : List HostReply} {s : State} {i : Nat} {t' : State} (hq : Keeps pq s)
    (he : execQpush r hs s i = .next t') : Keeps pq t' := by
  unfold execQpush at he
  injection he with he
  rw [← he]
  try dsimp only
  with_reducible repeat' (
    first
    | assumption | refine keeps_fst ?_ (by assumption) | refine qpush_keeps ?_ | split | intro _
    | refine keeps_mk ?_)

theorem execQpop_keeps {pq : List Instr} {r : RingId} {s : State} {i : Nat} {t' : State} (hq : Keeps pq s)
    (he : execQpop r s i = .next t') : Keeps pq t' := by
  unfold execQpop at he
  injection he with he
  rw [← he]
  try dsimp only
  with_reducible repeat' (
    first
    | assumption | refine keeps_fst ?_ (by assumption) | refine qpop_keeps ?_ | split | intro _
    | refine keeps_mk ?_)

theorem execQpopComplete_keeps {pq : List Instr} {r : RingId} {i : Nat} {us : List Upset} {s : State} {t' : State} (hq : Keeps pq s)
    (he : execQpopComplete r i us s = .next t') : Keeps pq t' := by
  unfold execQpopComplete at he
  injection he with he
  rw [← he]
  try dsimp only
  with_reducible repeat' (
    first
    | assumption | refine keeps_fst ?_ (by assumption) | refine qpopComplete_keeps ?_
    | refine strike_keeps ?_ | split | intro _ | refine keeps_mk ?_)

theorem execQpopTimeoutExpiry_keeps {pq : List Instr} {r : RingId} {i : Nat} {s : State} {t' : State} (hq : Keeps pq s)
    (he : execQpopTimeoutExpiry r i s = .next t') : Keeps pq t' := by
  unfold execQpopTimeoutExpiry at he
  injection he with he
  rw [← he]
  try dsimp only
  with_reducible repeat' (
    first
    | assumption | refine keeps_fst ?_ (by assumption) | refine qpopTimeout_keeps ?_ | split | intro _
    | refine keeps_mk ?_)

theorem hostSignal_keeps {pq : List Instr} {s : State} {r : RingId} {i : Nat} (hq : Keeps pq s) :
    Keeps pq (hostSignal s r i) := by
  unfold hostSignal
  try dsimp only
  with_reducible repeat' (
    first
    | assumption | refine keeps_fst ?_ (by assumption) | refine dueDesc_keeps ?_ | refine semAdd_keeps ?_
    | split | intro _ | refine keeps_mk ?_)

theorem execHostSignal_keeps {pq : List Instr} {r : RingId} {s : State} {i : Nat} {t' : State} (hq : Keeps pq s)
    (he : execHostSignal r s i = .next t') : Keeps pq t' := by
  unfold execHostSignal at he
  injection he with he
  rw [← he]
  try dsimp only
  with_reducible repeat' (
    first
    | assumption | refine keeps_fst ?_ (by assumption) | refine hostSignal_keeps ?_ | split | intro _
    | refine keeps_mk ?_)

theorem copyDue_keeps {pq : List Instr} {s : State} {r : RingId} {i : Nat} {ok : Bool} (hq : Keeps pq s) :
    Keeps pq (copyDue s r i ok) := by
  unfold copyDue
  try dsimp only
  with_reducible repeat' (
    first
    | assumption | refine keeps_fst ?_ (by assumption) | refine dueDesc_keeps ?_ | split | intro _
    | refine keeps_mk ?_)

theorem modelInstall_keeps {pq : List Instr} {s : State} {r : RingId} {i : Nat} {h : Answers} (hq : Keeps pq s) :
    Keeps pq (modelInstall s r i h) := by
  unfold modelInstall
  try dsimp only
  with_reducible repeat' (
    first
    | assumption | refine keeps_fst ?_ (by assumption) | refine copyDue_keeps ?_ | refine dueDesc_keeps ?_
    | refine fetchBuf_keeps ?_ | refine portTurn_keeps ?_ ?_  | refine rmtInstall_keeps ?_ | split | intro _
    | refine keeps_mk ?_)

theorem modelEvict_keeps {pq : List Instr} {s : State} {r : RingId} {i : Nat} {err : Option CxlErr} (hq : Keeps pq s) :
    Keeps pq (modelEvict s r i err) := by
  unfold modelEvict
  try dsimp only
  with_reducible repeat' (
    first
    | assumption | refine keeps_fst ?_ (by assumption) | refine copyDue_keeps ?_ | refine dueDesc_keeps ?_
    | refine rmtEvict_keeps ?_ | split | intro _ | refine keeps_mk ?_)

theorem modelSet_keeps {pq : List Instr} {s : State} {r : RingId} {i : Nat} {action : Nat} {f : W64 → Desc → W64} (hq : Keeps pq s) :
    Keeps pq (modelSet s r i action f) := by
  unfold modelSet
  try dsimp only
  with_reducible repeat' (
    first
    | assumption | refine keeps_fst ?_ (by assumption) | refine dueDesc_keeps ?_ | refine setRmt_keeps ?_
    | split | intro _ | refine keeps_mk ?_)

theorem execModelInstall_keeps {pq : List Instr} {r : RingId} {us : List Upset} {hs : List HostReply} {err : Option CxlErr} {s : State} {i : Nat} {t' : State} (hq : Keeps pq s)
    (he : execModelInstall r us hs err s i = .next t') : Keeps pq t' := by
  unfold execModelInstall at he
  injection he with he
  rw [← he]
  try dsimp only
  with_reducible repeat' (
    first
    | assumption | refine keeps_fst ?_ (by assumption) | refine modelInstall_keeps ?_
    | refine strike_keeps ?_ | split | intro _ | refine keeps_mk ?_)

theorem execModelEvict_keeps {pq : List Instr} {r : RingId} {us : List Upset} {err : Option CxlErr} {s : State} {i : Nat} {t' : State} (hq : Keeps pq s)
    (he : execModelEvict r us err s i = .next t') : Keeps pq t' := by
  unfold execModelEvict at he
  injection he with he
  rw [← he]
  try dsimp only
  with_reducible repeat' (
    first
    | assumption | refine keeps_fst ?_ (by assumption) | refine modelEvict_keeps ?_ | refine strike_keeps ?_
    | split | intro _ | refine keeps_mk ?_)

theorem execModelPin_keeps {pq : List Instr} {r : RingId} {s : State} {i : Nat} {t' : State} (hq : Keeps pq s)
    (he : execModelPin r s i = .next t') : Keeps pq t' := by
  unfold execModelPin at he
  injection he with he
  rw [← he]
  try dsimp only
  with_reducible repeat' (
    first
    | assumption | refine keeps_fst ?_ (by assumption) | refine modelSet_keeps ?_ | split | intro _
    | refine keeps_mk ?_)

theorem execModelUnpin_keeps {pq : List Instr} {r : RingId} {s : State} {i : Nat} {t' : State} (hq : Keeps pq s)
    (he : execModelUnpin r s i = .next t') : Keeps pq t' := by
  unfold execModelUnpin at he
  injection he with he
  rw [← he]
  try dsimp only
  with_reducible repeat' (
    first
    | assumption | refine keeps_fst ?_ (by assumption) | refine modelSet_keeps ?_ | split | intro _
    | refine keeps_mk ?_)

theorem execModelSetPriority_keeps {pq : List Instr} {r : RingId} {s : State} {i : Nat} {t' : State} (hq : Keeps pq s)
    (he : execModelSetPriority r s i = .next t') : Keeps pq t' := by
  unfold execModelSetPriority at he
  injection he with he
  rw [← he]
  try dsimp only
  with_reducible repeat' (
    first
    | assumption | refine keeps_fst ?_ (by assumption) | refine modelSet_keeps ?_ | split | intro _
    | refine keeps_mk ?_)

theorem refill_keeps {pq : List Instr} {s : State} {e j : Nat} {err : Option CxlErr} (hq : Keeps pq s) :
    Keeps pq (refill s e j err).1 := by
  unfold refill
  try dsimp only
  with_reducible repeat' (
    first
    | assumption | refine keeps_fst ?_ (by assumption) | refine rmtInstall_keeps ?_ | refine setRmt_keeps ?_
    | split | intro _ | refine keeps_mk ?_)

theorem generate_keeps {pq : List Instr} {s : State} {r : RingId} {i : Nat} {err : Option CxlErr} (hq : Keeps pq s) :
    Keeps pq (generate s r i err) := by
  unfold generate
  try dsimp only
  with_reducible repeat' (
    first
    | assumption | refine keeps_fst ?_ (by assumption) | refine deadline_keeps ?_ | refine dueDesc_keeps ?_
    | refine refill_keeps ?_ | refine setMonitor_keeps ?_ | refine setRun1_keeps ?_
    | refine writeWord_keeps ?_ | split | intro _ | refine keeps_mk ?_)

theorem execGenerate_keeps {pq : List Instr} {r : RingId} {us : List Upset} {err : Option CxlErr} {s : State} {i : Nat} {t' : State} (hq : Keeps pq s)
    (he : execGenerate r us err s i = .next t') : Keeps pq t' := by
  unfold execGenerate at he
  injection he with he
  rw [← he]
  try dsimp only
  with_reducible repeat' (
    first
    | assumption | refine keeps_fst ?_ (by assumption) | refine generate_keeps ?_ | refine strike_keeps ?_
    | split | intro _ | refine keeps_mk ?_)

end Sys2Proof.Machine
end

