-- ==== Sys2Proof/Laws/KeepsJobCmds.lean ====
section
/-!
SUPPORT. The operations of JobCmds keep the waiting commands and the canonical memories.
-/

-- The declarations of this file are elaborated in turn, so that checking the package as one text needs few threads.
set_option Elab.async false

namespace Sys2Proof.Machine

theorem openJob_keeps {pq : List Instr} {s : State} {i : Nat} (hq : Keeps pq s) :
    Keeps pq (openJob s i) := by
  unfold openJob
  try dsimp only
  with_reducible repeat' (
    first
    | assumption | refine keeps_fst ?_ (by assumption) | refine State.wr_keeps ?_ | refine dueDesc_keeps ?_
    | split | intro _ | refine keeps_mk ?_)

theorem execJobOpen_keeps {pq : List Instr} {s : State} {i : Nat} {t' : State} (hq : Keeps pq s)
    (he : execJobOpen s i = .next t') : Keeps pq t' := by
  unfold execJobOpen at he
  injection he with he
  rw [← he]
  try dsimp only
  with_reducible repeat' (
    first
    | assumption | refine keeps_fst ?_ (by assumption) | refine openJob_keeps ?_ | split | intro _
    | refine keeps_mk ?_)

theorem holdCore_keeps {pq : List Instr} {s : State} {c : CoreId} {j : Nat} (hq : Keeps pq s) :
    Keeps pq (holdCore s c j) := by
  unfold holdCore
  try dsimp only
  with_reducible repeat' (
    first
    | assumption | refine keeps_fst ?_ (by assumption) | refine State.orReg_keeps ?_
    | refine State.wr_keeps ?_ | split | intro _ | refine keeps_mk ?_)

theorem jobPlace_keeps {pq : List Instr} {s : State} {j : JobId} {v : W64} (hq : Keeps pq s) :
    Keeps pq (jobPlace s j v) := by
  unfold jobPlace
  try dsimp only
  with_reducible repeat' (
    first
    | assumption | refine keeps_fst ?_ (by assumption) | refine keeps_foldl ?_ ?_
    | refine keeps_foldl_pair ?_ ?_ | refine State.raise_keeps ?_ | refine State.wr_keeps ?_
    | refine holdCore_keeps ?_ | split | intro _ | refine keeps_mk ?_)

theorem freeCore_keeps {pq : List Instr} {s : State} {c : CoreId} {j : Nat} (hq : Keeps pq s) :
    Keeps pq (freeCore s c j) := by
  unfold freeCore
  try dsimp only
  with_reducible repeat' (
    first
    | assumption | refine keeps_fst ?_ (by assumption) | refine State.raise_keeps ?_
    | refine State.setCore_keeps ?_ | refine State.wr_keeps ?_ | refine holdCore_keeps ?_ | split | intro _
    | refine keeps_mk ?_)

theorem jobRelease_keeps {pq : List Instr} {s : State} {j : JobId} {m : W64} (hq : Keeps pq s) :
    Keeps pq (jobRelease s j m) := by
  unfold jobRelease
  try dsimp only
  with_reducible repeat' (
    first
    | assumption | refine keeps_fst ?_ (by assumption) | refine keeps_foldl ?_ ?_
    | refine keeps_foldl_pair ?_ ?_ | refine freeCore_keeps ?_ | split | intro _ | refine keeps_mk ?_)

theorem execJobPlace_keeps {pq : List Instr} {j : JobId} {v : W64} {s : State} {t' : State} (hq : Keeps pq s)
    (he : execJobPlace j v s = .next t') : Keeps pq t' := by
  unfold execJobPlace at he
  injection he with he
  rw [← he]
  try dsimp only
  with_reducible repeat' (
    first
    | assumption | refine keeps_fst ?_ (by assumption) | refine State.ifOn_keeps ?_ ?_ 
    | refine jobPlace_keeps ?_ | split | intro _ | refine keeps_mk ?_)

theorem execJobRelease_keeps {pq : List Instr} {j : JobId} {m : W64} {s : State} {t' : State} (hq : Keeps pq s)
    (he : execJobRelease j m s = .next t') : Keeps pq t' := by
  unfold execJobRelease at he
  injection he with he
  rw [← he]
  try dsimp only
  with_reducible repeat' (
    first
    | assumption | refine keeps_fst ?_ (by assumption) | refine State.ifOn_keeps ?_ ?_ 
    | refine jobRelease_keeps ?_ | split | intro _ | refine keeps_mk ?_)

theorem preempt_keeps {pq : List Instr} {s : State} {i : Nat} (hq : Keeps pq s) :
    Keeps pq (preempt s i) := by
  unfold preempt
  try dsimp only
  with_reducible repeat' (
    first
    | assumption | refine keeps_fst ?_ (by assumption) | refine keeps_snd ?_ (by assumption)
    | refine keeps_foldl ?_ ?_ | refine keeps_foldl_pair ?_ ?_ | refine State.fresh_keeps ?_
    | refine dueDesc_keeps ?_ | refine preemptCheck_keeps ?_ | refine setRun1_keeps ?_
    | refine yieldReq_keeps ?_ | split | intro _ | refine keeps_mk ?_)

theorem preemptTimeout_keeps {pq : List Instr} {s : State} {c : CoreId} (hq : Keeps pq s) :
    Keeps pq (preemptTimeout s c) := by
  unfold preemptTimeout
  try dsimp only
  with_reducible repeat' (
    first
    | assumption | refine keeps_fst ?_ (by assumption) | refine startDrain_keeps ?_
    | refine stopBeat_keeps ?_ | split | intro _ | refine keeps_mk ?_)

theorem execPreempt_keeps {pq : List Instr} {s : State} {i : Nat} {t' : State} (hq : Keeps pq s)
    (he : execPreempt s i = .next t') : Keeps pq t' := by
  unfold execPreempt at he
  injection he with he
  rw [← he]
  try dsimp only
  with_reducible repeat' (
    first
    | assumption | refine keeps_fst ?_ (by assumption) | refine preempt_keeps ?_ | split | intro _
    | refine keeps_mk ?_)

theorem execPreemptTimeoutExpiry_keeps {pq : List Instr} {c : CoreId} {s : State} {t' : State} (hq : Keeps pq s)
    (he : execPreemptTimeoutExpiry c s = .next t') : Keeps pq t' := by
  unfold execPreemptTimeoutExpiry at he
  injection he with he
  rw [← he]
  try dsimp only
  with_reducible repeat' (
    first
    | assumption | refine keeps_fst ?_ (by assumption) | refine State.live_keeps ?_ ?_ 
    | refine preemptTimeout_keeps ?_ | split | intro _ | refine keeps_mk ?_)

theorem endMonitor_keeps {pq : List Instr} {s : State} {i : Fin 64} {status : BitVec 8} {result : BitVec 32} (hq : Keeps pq s) :
    Keeps pq (endMonitor s i status result) := by
  unfold endMonitor
  try dsimp only
  with_reducible repeat' (
    first
    | assumption | refine keeps_fst ?_ (by assumption) | refine monitorDue_keeps ?_
    | refine setMonitor_keeps ?_ | refine writeWord_keeps ?_ | split | intro _ | refine keeps_mk ?_)

theorem abortMonitor_keeps {pq : List Instr} {s : State} {i : Fin 64} (hq : Keeps pq s) :
    Keeps pq (abortMonitor s i) := by
  unfold abortMonitor
  try dsimp only
  with_reducible repeat' (
    first
    | assumption | refine keeps_fst ?_ (by assumption) | refine endMonitor_keeps ?_ | split | intro _
    | refine keeps_mk ?_)

theorem closeJob_keeps {pq : List Instr} {s : State} {j : Nat} {err : Option CxlErr} (hq : Keeps pq s) :
    Keeps pq (closeJob s j err).1 := by
  unfold closeJob
  try dsimp only
  with_reducible repeat' (
    first
    | assumption | refine keeps_fst ?_ (by assumption) | refine keeps_foldl ?_ ?_
    | refine keeps_foldl_pair ?_ ?_ | refine State.wr_keeps ?_ | refine abortMonitor_keeps ?_
    | refine cancelRun_keeps ?_ | refine clearRegions_keeps ?_ | refine forceCancel_keeps ?_
    | refine freeCore_keeps ?_ | refine rmtClose_keeps ?_ | split | intro _ | refine keeps_mk ?_)

theorem closeRun_keeps {pq : List Instr} {s : State} {i : Nat} {err : Option CxlErr} (hq : Keeps pq s) :
    Keeps pq (closeRun s i err) := by
  unfold closeRun
  try dsimp only
  with_reducible repeat' (
    first
    | assumption | refine keeps_fst ?_ (by assumption) | refine keeps_foldl ?_ ?_
    | refine keeps_foldl_pair ?_ ?_ | refine closeJob_keeps ?_ | refine coreStop_keeps ?_
    | refine dueDesc_keeps ?_ | refine setRun1_keeps ?_ | split | intro _ | refine keeps_mk ?_)

theorem execJobClose_keeps {pq : List Instr} {us : List Upset} {err : Option CxlErr} {s : State} {i : Nat} {t' : State} (hq : Keeps pq s)
    (he : execJobClose us err s i = .next t') : Keeps pq t' := by
  unfold execJobClose at he
  injection he with he
  rw [← he]
  try dsimp only
  with_reducible repeat' (
    first
    | assumption | refine keeps_fst ?_ (by assumption) | refine closeRun_keeps ?_ | refine strike_keeps ?_
    | split | intro _ | refine keeps_mk ?_)

end Sys2Proof.Machine
end

