-- ==== Sys2Proof/Laws/KeepsPower.lean ====
section
/-!
SUPPORT. The operations of Power keep the waiting commands and the canonical memories.
-/

-- The declarations of this file are elaborated in turn, so that checking the package as one text needs few threads.
set_option Elab.async false

namespace Sys2Proof.Machine

theorem setPd_keeps {pq : List Instr} {s : State} {d : Nat} {on : Bool} (hq : Keeps pq s) :
    Keeps pq (setPd s d on) := by
  unfold setPd
  try dsimp only
  with_reducible repeat' (
    first
    | assumption | refine keeps_fst ?_ (by assumption) | refine State.wr_keeps ?_ | split | intro _
    | refine keeps_mk ?_)

theorem pwrEv_keeps {pq : List Instr} {s : State} {code d : Nat} (hq : Keeps pq s) :
    Keeps pq (pwrEv s code d) := by
  unfold pwrEv
  try dsimp only
  with_reducible repeat' (
    first
    | assumption | refine keeps_fst ?_ (by assumption) | refine State.record_keeps ?_ | split | intro _
    | refine keeps_mk ?_)

theorem clearDomain_keeps {pq : List Instr} {s : State} {d : Nat} (hq : Keeps pq s) :
    Keeps pq (clearDomain s d) := by
  unfold clearDomain
  try dsimp only
  with_reducible repeat' (
    first
    | assumption | refine keeps_fst ?_ (by assumption) | split | intro _ | refine keeps_mk ?_)

theorem pdrReset_keeps {pq : List Instr} {s : State} {d : Nat} (hq : Keeps pq s) :
    Keeps pq (pdrReset s d) := by
  unfold pdrReset
  try dsimp only
  with_reducible repeat' (
    first
    | assumption | refine keeps_fst ?_ (by assumption) | refine clearDomain_keeps ?_ | split | intro _
    | refine keeps_mk ?_)

theorem failJobs_keeps {pq : List Instr} {s : State} {which : Nat → Bool} (hq : Keeps pq s) :
    Keeps pq (failJobs s which) := by
  unfold failJobs
  try dsimp only
  with_reducible repeat' (
    first
    | assumption | refine keeps_fst ?_ (by assumption) | refine keeps_foldl ?_ ?_
    | refine keeps_foldl_pair ?_ ?_ | refine State.failStep_keeps ?_ | split | intro _ | refine keeps_mk ?_)

theorem coreOff_keeps {pq : List Instr} {s : State} {c : CoreId} (h : Keeps pq s) : Keeps pq (coreOff s c) := by
  unfold coreOff
  refine keeps_loc (State.setUnit_keeps (State.setCore_keeps (clearDomain_keeps ?_))) rfl
  split
  · exact h
  · exact onHalted_keeps h

theorem fabricOff_keeps {pq : List Instr} {s : State} {die : Nat} (hq : Keeps pq s) :
    Keeps pq (fabricOff s die) := by
  unfold fabricOff
  try dsimp only
  with_reducible repeat' (
    first
    | assumption | refine keeps_fst ?_ (by assumption) | refine keeps_foldl ?_ ?_
    | refine keeps_foldl_pair ?_ ?_ | refine State.setDu_keeps ?_ | refine State.setQueue_keeps ?_
    | refine clearDomain_keeps ?_ | refine failJobs_keeps ?_ | split | intro _ | refine keeps_mk ?_)

theorem ringFails_keeps {pq : List Instr} {lost : Desc → Bool} {r : RingId} {x0 : Nat} {x1 : Nat} {x2 : State} (hq : Keeps pq x2) :
    Keeps pq (ringFails lost r x0 x1 x2) := by
  induction x0 generalizing x1 x2 with
  | zero => simp only [ringFails]; exact hq
  | succ n ih =>
    unfold ringFails
    try dsimp only
    with_reducible repeat' (
      first
      | assumption | refine keeps_fst ?_ (by assumption) | refine ih ?_ | refine descComplete_keeps ?_
      | refine dueDesc_keeps ?_ | refine endMonitor_keeps ?_ | split | intro _ | refine keeps_mk ?_)

theorem ringsFail_keeps {pq : List Instr} {s : State} {lost : Desc → Bool} (hq : Keeps pq s) :
    Keeps pq (ringsFail s lost) := by
  unfold ringsFail
  try dsimp only
  with_reducible repeat' (
    first
    | assumption | refine keeps_fst ?_ (by assumption) | refine keeps_foldl ?_ ?_
    | refine keeps_foldl_pair ?_ ?_ | refine ringFails_keeps ?_ | split | intro _ | refine keeps_mk ?_)

theorem readsFail_keeps {pq : List Instr} {s : State} (hq : Keeps pq s) :
    Keeps pq (readsFail s) := by
  unfold readsFail
  try dsimp only
  with_reducible repeat' (
    first
    | assumption | refine keeps_fst ?_ (by assumption) | refine keeps_foldl ?_ ?_
    | refine keeps_foldl_pair ?_ ?_ | refine dmaHostTimeout_keeps ?_ | refine ringTimeout_keeps ?_ | split
    | intro _ | refine keeps_mk ?_)

theorem setPort_keeps {pq : List Instr} {s : State} {owner : Bool} {p : PortFn} (hq : Keeps pq s) :
    Keeps pq (setPort s owner p) := by
  unfold setPort
  try dsimp only
  with_reducible repeat' (
    first
    | assumption | refine keeps_fst ?_ (by assumption) | split | intro _ | refine keeps_mk ?_)

theorem fnReset_keeps {pq : List Instr} {s : State} {which : Nat → Bool} (hq : Keeps pq s) :
    Keeps pq (fnReset s which) := by
  unfold fnReset
  try dsimp only
  with_reducible repeat' (
    first
    | assumption | refine keeps_fst ?_ (by assumption) | split | intro _ | refine keeps_mk ?_)

theorem portReset_keeps {pq : List Instr} {s : State} {hb : Bool} (hq : Keeps pq s) :
    Keeps pq (portReset s hb) := by
  unfold portReset
  try dsimp only
  with_reducible repeat' (
    first
    | assumption | refine keeps_fst ?_ (by assumption) | refine fnReset_keeps ?_ | refine setPort_keeps ?_
    | split | intro _ | refine keeps_mk ?_)

theorem opticsOff_keeps {pq : List Instr} {s : State} {k : Nat} (hq : Keeps pq s) :
    Keeps pq (opticsOff s k) := by
  unfold opticsOff
  try dsimp only
  with_reducible repeat' (
    first
    | assumption | refine keeps_fst ?_ (by assumption) | refine keeps_foldl ?_ ?_
    | refine keeps_foldl_pair ?_ ?_ | refine State.setLink_keeps ?_ | refine clearDomain_keeps ?_
    | refine linkLeave_keeps ?_ | split | intro _ | refine keeps_mk ?_)

theorem gddrLost_keeps {pq : List Instr} {s : State} {die : Nat} (h : Keeps pq s) : Keeps pq (gddrLost s die) :=
  keeps_mk (keeps_gddr h (memory_filter_wf _ _ h.2.1))

theorem memoryOff_keeps {pq : List Instr} {s : State} {die : Nat} {keep : Bool} (hq : Keeps pq s) :
    Keeps pq (memoryOff s die keep) := by
  unfold memoryOff
  try dsimp only
  with_reducible repeat' (
    first
    | assumption | refine keeps_fst ?_ (by assumption) | refine keeps_foldl ?_ ?_
    | refine keeps_foldl_pair ?_ ?_ | refine State.setCtrl_keeps ?_ | refine clearDomain_keeps ?_
    | refine failHeld_keeps ?_ | refine gddrLost_keeps ?_ | split | intro _ | refine keeps_mk ?_)

theorem cxlOff_keeps {pq : List Instr} {s : State} {die : Nat} (hq : Keeps pq s) :
    Keeps pq (cxlOff s die) := by
  unfold cxlOff
  try dsimp only
  with_reducible repeat' (
    first
    | assumption | refine keeps_fst ?_ (by assumption) | refine keeps_foldl ?_ ?_
    | refine keeps_foldl_pair ?_ ?_ | refine State.setCxl_keeps ?_ | refine clearDomain_keeps ?_
    | refine cxlDown_keeps ?_ | refine cxlPins_keeps ?_ | split | intro _ | refine keeps_mk ?_)

theorem portDown_keeps {pq : List Instr} {s : State} {hb : Bool} (hq : Keeps pq s) :
    Keeps pq (portDown s hb) := by
  unfold portDown
  try dsimp only
  with_reducible repeat' (
    first
    | assumption | refine keeps_fst ?_ (by assumption) | refine State.raise_keeps ?_ | split | intro _
    | refine keeps_mk ?_)

theorem domainOff_keeps {pq : List Instr} {s : State} {d : Nat} {keep : Bool} (hq : Keeps pq s) :
    Keeps pq (domainOff s d keep) := by
  unfold domainOff
  try dsimp only
  with_reducible repeat' (
    first
    | assumption | refine keeps_fst ?_ (by assumption) | refine coreOff_keeps ?_ | refine cxlOff_keeps ?_
    | refine fabricOff_keeps ?_ | refine memoryOff_keeps ?_ | refine opticsOff_keeps ?_
    | refine portDown_keeps ?_ | refine portReset_keeps ?_ | refine readsFail_keeps ?_
    | refine setPd_keeps ?_ | split | intro _ | refine keeps_mk ?_)

theorem domainsOff_keeps {pq : List Instr} {s : State} {ds : List Nat} {keep : Bool} (hq : Keeps pq s) :
    Keeps pq (domainsOff s ds keep) := by
  unfold domainsOff
  try dsimp only
  with_reducible repeat' (
    first
    | assumption | refine keeps_fst ?_ (by assumption) | refine keeps_foldl ?_ ?_
    | refine keeps_foldl_pair ?_ ?_ | refine domainOff_keeps ?_ | split | intro _ | refine keeps_mk ?_)

theorem domainOn1_keeps {pq : List Instr} {s : State} {d : Nat} (h : Keeps pq s) : Keeps pq (domainOn1 s d) := by
  have key (x : State) (c : CoreId) (hx : Keeps pq x) : Keeps pq (repairCore (((x.setCore c {}).setUnit c {}).setLoc c {}) c) :=
    repairCore_keeps (keeps_loc (State.setUnit_keeps (State.setCore_keeps hx)) rfl)
  have hx : Keeps pq (pdrReset (setPd s d true) d) := pdrReset_keeps (setPd_keeps h)
  unfold domainOn1
  generalize pdrReset (setPd s d true) d = x at hx ⊢
  generalize fin? 48 d = o
  cases o with
  | none => exact hx
  | some c => exact key x c hx

theorem bootOn_keeps {pq : List Instr} {s : State} {d : Nat} (hq : Keeps pq s) :
    Keeps pq (bootOn s d) := by
  unfold bootOn
  try dsimp only
  with_reducible repeat' (
    first
    | assumption | refine keeps_fst ?_ (by assumption) | refine domainOn1_keeps ?_ | split | intro _
    | refine keeps_mk ?_)

theorem switchedOn_keeps {pq : List Instr} {s : State} {d : Nat} (hq : Keeps pq s) :
    Keeps pq (switchedOn s d) := by
  unfold switchedOn
  try dsimp only
  with_reducible repeat' (
    first
    | assumption | refine keeps_fst ?_ (by assumption) | refine domainOn1_keeps ?_ | split | intro _
    | refine keeps_mk ?_)

theorem pdRefused_keeps {pq : List Instr} {s : State} {d : Nat} {r : Bool} (hq : Keeps pq s) :
    Keeps pq (pdRefused s d r) := by
  unfold pdRefused
  try dsimp only
  with_reducible repeat' (
    first
    | assumption | refine keeps_fst ?_ (by assumption) | refine State.wr_keeps ?_ | split | intro _
    | refine keeps_mk ?_)

theorem pdRequest_keeps {pq : List Instr} {before : State} {v : W64} {s : State} {d : Nat} (hq : Keeps pq before) (hs : Keeps pq s) :
    Keeps pq (pdRequest before v s d) := by
  unfold pdRequest
  try dsimp only
  with_reducible repeat' (
    first
    | assumption | refine keeps_fst ?_ (by assumption) | refine domainOff_keeps ?_
    | refine pdRefused_keeps ?_ | split | intro _ | refine keeps_mk ?_)

theorem pdReqWrite_keeps {pq : List Instr} {s : State} {v : W64} {ds : List Nat} (hq : Keeps pq s) :
    Keeps pq (pdReqWrite s v ds) := by
  unfold pdReqWrite
  try dsimp only
  with_reducible repeat' (
    first
    | assumption | refine keeps_fst ?_ (by assumption) | refine keeps_foldl ?_ ?_
    | refine keeps_foldl_pair ?_ ?_ | refine State.wr_keeps ?_ | refine pdRequest_keeps ?_ ?_  | split
    | intro _ | refine keeps_mk ?_)

theorem execPdReqWrite_keeps {pq : List Instr} {b : Sender} {v : W64} {s : State} {t' : State} (hq : Keeps pq s)
    (he : execPdReqWrite b v s = .next t') : Keeps pq t' := by
  unfold execPdReqWrite at he
  injection he with he
  rw [← he]
  try dsimp only
  with_reducible repeat' (
    first
    | assumption | refine keeps_fst ?_ (by assumption) | refine pdReqWrite_keeps ?_ | split | intro _
    | refine keeps_mk ?_)

theorem execPdSwitchOnComplete_keeps {pq : List Instr} {d : Fin 64} {s : State} {t' : State} (hq : Keeps pq s)
    (he : execPdSwitchOnComplete d s = .next t') : Keeps pq t' := by
  unfold execPdSwitchOnComplete at he
  injection he with he
  rw [← he]
  try dsimp only
  with_reducible repeat' (
    first
    | assumption | refine keeps_fst ?_ (by assumption) | refine switchedOn_keeps ?_ | split | intro _
    | refine keeps_mk ?_)

theorem stageFault_keeps {pq : List Instr} {s : State} {d : Nat} (hq : Keeps pq s) :
    Keeps pq (stageFault s d) := by
  unfold stageFault
  try dsimp only
  with_reducible repeat' (
    first
    | assumption | refine keeps_fst ?_ (by assumption) | refine State.orReg_keeps ?_
    | refine domainsOff_keeps ?_ | refine failJobs_keeps ?_ | refine pwrEv_keeps ?_
    | refine ringsFail_keeps ?_ | split | intro _ | refine keeps_mk ?_)

theorem execPowerStageFault_keeps {pq : List Instr} {d : Fin 64} {s : State} {t' : State} (hq : Keeps pq s)
    (he : execPowerStageFault d s = .next t') : Keeps pq t' := by
  unfold execPowerStageFault at he
  injection he with he
  rw [← he]
  try dsimp only
  with_reducible repeat' (
    first
    | assumption | refine keeps_fst ?_ (by assumption) | refine stageFault_keeps ?_ | split | intro _
    | refine keeps_mk ?_)

theorem secEv_keeps {pq : List Instr} {s : State} {code status : Nat} (hq : Keeps pq s) :
    Keeps pq (secEv s code status) := by
  unfold secEv
  try dsimp only
  with_reducible repeat' (
    first
    | assumption | refine keeps_fst ?_ (by assumption) | refine State.record_keeps ?_ | split | intro _
    | refine keeps_mk ?_)

theorem verifyBoot_keeps {pq : List Instr} {s : State} (hq : Keeps pq s) :
    Keeps pq (verifyBoot s).1 := by
  unfold verifyBoot
  try dsimp only
  with_reducible repeat' (
    first
    | assumption | refine keeps_fst ?_ (by assumption) | refine keeps_foldl ?_ ?_
    | refine keeps_foldl_pair ?_ ?_ | refine State.wr_keeps ?_ | refine secEv_keeps ?_ | split | intro _
    | refine keeps_mk ?_)

theorem setCause_keeps {pq : List Instr} {s : State} {cause : Nat} (hq : Keeps pq s) :
    Keeps pq (setCause s cause) := by
  unfold setCause
  try dsimp only
  with_reducible repeat' (
    first
    | assumption | refine keeps_fst ?_ (by assumption) | refine State.wr_keeps ?_ | split | intro _
    | refine keeps_mk ?_)

theorem setBootDone_keeps {pq : List Instr} {s : State} {on : Bool} (hq : Keeps pq s) :
    Keeps pq (setBootDone s on) := by
  unfold setBootDone
  try dsimp only
  with_reducible repeat' (
    first
    | assumption | refine keeps_fst ?_ (by assumption) | refine State.wr_keeps ?_ | split | intro _
    | refine keeps_mk ?_)

theorem latchStraps_keeps {pq : List Instr} {s : State} {x : Straps} (hq : Keeps pq s) :
    Keeps pq (latchStraps s x) := by
  unfold latchStraps
  try dsimp only
  with_reducible repeat' (
    first
    | assumption | refine keeps_fst ?_ (by assumption) | refine State.wr_keeps ?_ | split | intro _
    | refine keeps_mk ?_)

theorem resetAll_keeps {pq : List Instr} {s : State} {keep : Nat → Bool} (h : Keeps pq s) :
    Keeps pq (resetAll s keep) := by
  refine keeps_fresh h rfl h.2.1 rfl ?_ rfl h.2.2.2.2.2
  intro c
  unfold resetAll State.loc
  simp only [Fin.getElem_fin, Vector.getElem_ofFn]
  split <;> rfl

theorem modReset_keeps {pq : List Instr} {s : State} {cause : Nat} {x : Straps} (h : Keeps pq s) :
    Keeps pq (modReset s cause x) := by
  unfold modReset
  have h1 := resetAll_keeps (keep := fun a => inDomain 63 a || (inDomain 62 a && a != secBase + 0x88)) h
  refine latchStraps_keeps (setBootDone_keeps (setCause_keeps ?_))
  exact keeps_fresh h1 rfl (memory_filter_wf _ _ h.2.1) rfl (fun c => keeps_sp h1 c) rfl h1.2.2.2.2.2

theorem mgrReset_keeps {pq : List Instr} {s : State} {why : Nat} (h : Keeps pq s) : Keeps pq (mgrReset s why) :=
  keeps_fresh h rfl h.2.1 rfl (fun c => keeps_sp h c) rfl rfl

theorem inputValid_keeps {pq : List Instr} {s : State} (h : Keeps pq s) : Keeps pq (inputValid s) := by
  unfold inputValid
  split
  · exact h
  · exact State.wr_keeps (keeps_fresh h rfl rfl rfl reset_sp rfl h.2.2.2.2.2)

theorem ponReset_keeps {pq : List Instr} {s : State} (h : Keeps pq s) : Keeps pq (ponReset s) := by
  unfold ponReset
  split
  · exact h
  · have h1 : Keeps pq (resetAll s (inDomain 63)) := resetAll_keeps h
    refine setBootDone_keeps (setCause_keeps (setPd_keeps (keeps_fresh h1 rfl ?_ rfl (fun c => keeps_sp h1 c) rfl rfl)))
    dsimp only
    split
    · exact h.2.1
    · rfl

theorem clockReady_keeps {pq : List Instr} {s : State} {x : Straps} (hq : Keeps pq s) :
    Keeps pq (clockReady s x) := by
  unfold clockReady
  try dsimp only
  with_reducible repeat' (
    first
    | assumption | refine keeps_fst ?_ (by assumption) | refine keeps_foldl ?_ ?_
    | refine keeps_foldl_pair ?_ ?_ | refine State.wr_keeps ?_ | refine bootOn_keeps ?_
    | refine latchStraps_keeps ?_ | refine verifyBoot_keeps ?_ | split | intro _ | refine keeps_mk ?_)

theorem bringUp_keeps {pq : List Instr} {s : State} {d : Nat} (hq : Keeps pq s) :
    Keeps pq (bringUp s d) := by
  unfold bringUp
  try dsimp only
  with_reducible repeat' (
    first
    | assumption | refine keeps_fst ?_ (by assumption) | refine bootOn_keeps ?_ | split | intro _
    | refine keeps_mk ?_)

theorem bootDone_keeps {pq : List Instr} {s : State} (hq : Keeps pq s) :
    Keeps pq (bootDone s) := by
  unfold bootDone
  try dsimp only
  with_reducible repeat' (
    first
    | assumption | refine keeps_fst ?_ (by assumption) | refine keeps_foldl ?_ ?_
    | refine keeps_foldl_pair ?_ ?_ | refine State.setCtrl_keeps ?_ | refine State.wr_keeps ?_
    | refine bootOn_keeps ?_ | refine bringUp_keeps ?_ | refine repairCore_keeps ?_
    | refine setBootDone_keeps ?_ | split | intro _ | refine keeps_mk ?_)

theorem inputLost_keeps {pq : List Instr} {s : State} (h : Keeps pq s) : Keeps pq (inputLost s) := by
  unfold inputLost
  exact State.wr_keeps (keeps_fresh h rfl rfl rfl reset_sp rfl rfl)

theorem execPowerInputValid_keeps {pq : List Instr} {s : State} {t' : State} (hq : Keeps pq s)
    (he : execPowerInputValid s = .next t') : Keeps pq t' := by
  unfold execPowerInputValid at he
  injection he with he
  rw [← he]
  try dsimp only
  with_reducible repeat' (
    first
    | assumption | refine keeps_fst ?_ (by assumption) | refine inputValid_keeps ?_ | split | intro _
    | refine keeps_mk ?_)

theorem execPonTimerExpiry_keeps {pq : List Instr} {s : State} {t' : State} (hq : Keeps pq s)
    (he : execPonTimerExpiry s = .next t') : Keeps pq t' := by
  unfold execPonTimerExpiry at he
  injection he with he
  rw [← he]
  try dsimp only
  with_reducible repeat' (
    first
    | assumption | refine keeps_fst ?_ (by assumption) | refine ponReset_keeps ?_ | split | intro _
    | refine keeps_mk ?_)

theorem execBootClockReady_keeps {pq : List Instr} {x : Straps} {s : State} {t' : State} (hq : Keeps pq s)
    (he : execBootClockReady x s = .next t') : Keeps pq t' := by
  unfold execBootClockReady at he
  injection he with he
  rw [← he]
  try dsimp only
  with_reducible repeat' (
    first
    | assumption | refine keeps_fst ?_ (by assumption) | refine clockReady_keeps ?_ | split | intro _
    | refine keeps_mk ?_)

theorem execBootDone_keeps {pq : List Instr} {s : State} {t' : State} (hq : Keeps pq s)
    (he : execBootDone s = .next t') : Keeps pq t' := by
  unfold execBootDone at he
  injection he with he
  rw [← he]
  try dsimp only
  with_reducible repeat' (
    first
    | assumption | refine keeps_fst ?_ (by assumption) | refine bootDone_keeps ?_ | split | intro _
    | refine keeps_mk ?_)

theorem execPowerInputLost_keeps {pq : List Instr} {s : State} {t' : State} (hq : Keeps pq s)
    (he : execPowerInputLost s = .next t') : Keeps pq t' := by
  unfold execPowerInputLost at he
  injection he with he
  rw [← he]
  try dsimp only
  with_reducible repeat' (
    first
    | assumption | refine keeps_fst ?_ (by assumption) | refine inputLost_keeps ?_ | split | intro _
    | refine keeps_mk ?_)

theorem execModReset_keeps {pq : List Instr} {b : Sender} {x : Straps} {s : State} {t' : State} (hq : Keeps pq s)
    (he : execModReset b x s = .next t') : Keeps pq t' := by
  unfold execModReset at he
  injection he with he
  rw [← he]
  try dsimp only
  with_reducible repeat' (
    first
    | assumption | refine keeps_fst ?_ (by assumption) | refine modReset_keeps ?_ | split | intro _
    | refine keeps_mk ?_)

theorem setPerst_keeps {pq : List Instr} {s : State} {hb on : Bool} (hq : Keeps pq s) :
    Keeps pq (setPerst s hb on) := by
  unfold setPerst
  try dsimp only
  with_reducible repeat' (
    first
    | assumption | refine keeps_fst ?_ (by assumption) | split | intro _ | refine keeps_mk ?_)

theorem execPerstNOwner_keeps {pq : List Instr} {x : Straps} {s : State} {t' : State} (hq : Keeps pq s)
    (he : execPerstNOwner x s = .next t') : Keeps pq t' := by
  unfold execPerstNOwner at he
  injection he with he
  rw [← he]
  try dsimp only
  with_reducible repeat' (
    first
    | assumption | refine keeps_fst ?_ (by assumption) | refine modReset_keeps ?_ | refine setPerst_keeps ?_
    | split | intro _ | refine keeps_mk ?_)

theorem execPerstNRelease_keeps {pq : List Instr} {hb : Bool} {s : State} {t' : State} (hq : Keeps pq s)
    (he : execPerstNRelease hb s = .next t') : Keeps pq t' := by
  unfold execPerstNRelease at he
  injection he with he
  rw [← he]
  try dsimp only
  with_reducible repeat' (
    first
    | assumption | refine keeps_fst ?_ (by assumption) | refine setPerst_keeps ?_ | split | intro _
    | refine keeps_mk ?_)

theorem mgrDone_keeps {pq : List Instr} {s : State} (hq : Keeps pq s) :
    Keeps pq (mgrDone s) := by
  unfold mgrDone
  try dsimp only
  with_reducible repeat' (
    first
    | assumption | refine keeps_fst ?_ (by assumption) | refine keeps_foldl ?_ ?_
    | refine keeps_foldl_pair ?_ ?_ | refine cxlRelease_keeps ?_ | refine pwrEv_keeps ?_
    | refine setCause_keeps ?_ | refine verifyBoot_keeps ?_ | split | intro _ | refine keeps_mk ?_)

theorem wdtKick_keeps {pq : List Instr} {s : State} (hq : Keeps pq s) :
    Keeps pq (wdtKick s) := by
  unfold wdtKick
  try dsimp only
  with_reducible repeat' (
    first
    | assumption | refine keeps_fst ?_ (by assumption) | refine keeps_snd ?_ (by assumption)
    | refine State.now_keeps ?_ | split | intro _ | refine keeps_mk ?_)

theorem execMgrResetComplete_keeps {pq : List Instr} {s : State} {t' : State} (hq : Keeps pq s)
    (he : execMgrResetComplete s = .next t') : Keeps pq t' := by
  unfold execMgrResetComplete at he
  injection he with he
  rw [← he]
  try dsimp only
  with_reducible repeat' (
    first
    | assumption | refine keeps_fst ?_ (by assumption) | refine mgrDone_keeps ?_ | split | intro _
    | refine keeps_mk ?_)

theorem execWdtKick_keeps {pq : List Instr} {b : Sender} {s : State} {t' : State} (hq : Keeps pq s)
    (he : execWdtKick b s = .next t') : Keeps pq t' := by
  unfold execWdtKick at he
  injection he with he
  rw [← he]
  try dsimp only
  with_reducible repeat' (
    first
    | assumption | refine keeps_fst ?_ (by assumption) | refine secEv_keeps ?_ | refine wdtKick_keeps ?_
    | split | intro _ | refine keeps_mk ?_)

theorem execWdtTimeoutExpiry_keeps {pq : List Instr} {s : State} {t' : State} (hq : Keeps pq s)
    (he : execWdtTimeoutExpiry s = .next t') : Keeps pq t' := by
  unfold execWdtTimeoutExpiry at he
  injection he with he
  rw [← he]
  try dsimp only
  with_reducible repeat' (
    first
    | assumption | refine keeps_fst ?_ (by assumption) | refine mgrReset_keeps ?_ | split | intro _
    | refine keeps_mk ?_)

theorem setClk_keeps {pq : List Instr} {s : State} {i : Nat} {on : Bool} (hq : Keeps pq s) :
    Keeps pq (setClk s i on) := by
  unfold setClk
  try dsimp only
  with_reducible repeat' (
    first
    | assumption | refine keeps_fst ?_ (by assumption) | refine State.wr_keeps ?_ | split | intro _
    | refine keeps_mk ?_)

theorem pllUnlock_keeps {pq : List Instr} {s : State} {d : Nat} (hq : Keeps pq s) :
    Keeps pq (pllUnlock s d) := by
  unfold pllUnlock
  try dsimp only
  with_reducible repeat' (
    first
    | assumption | refine keeps_fst ?_ (by assumption) | refine pwrEv_keeps ?_ | split | intro _
    | refine keeps_mk ?_)

theorem sclkLoss_keeps {pq : List Instr} {s : State} {sclk : Bool} (h : Keeps pq s) : Keeps pq (sclkLoss s sclk) := by
  have key (p : Prop) [Decidable p] (x y : State) (hx : Keeps pq x) (hy : Keeps pq y) : Keeps pq (if p then x else y) := by
    split <;> assumption
  have h2 (x : State) (hx : Keeps pq x) : Keeps pq { x with
      gddr := [], gddrErr := [], mem := { x.mem with crc := [], checks := none }, power := { x.power with held := true } } :=
    keeps_fresh hx rfl rfl rfl (fun c => keeps_sp hx c) rfl hx.2.2.2.2.2
  unfold sclkLoss
  exact key _ _ _ h (h2 _ (State.orReg_keeps (State.wr_keeps (setClk_keeps (key _ _ _ (setClk_keeps h) h)))))

theorem clockBack_keeps {pq : List Instr} {s : State} {x : Straps} (hq : Keeps pq s) :
    Keeps pq (clockBack s x) := by
  unfold clockBack
  try dsimp only
  with_reducible repeat' (
    first
    | assumption | refine keeps_fst ?_ (by assumption) | refine keeps_snd ?_ (by assumption)
    | refine State.now_keeps ?_ | refine State.wr_keeps ?_ | refine modReset_keeps ?_
    | refine postCompl_keeps ?_ | refine setClk_keeps ?_ | split | intro _ | refine keeps_mk ?_)

theorem execSclkLoss_keeps {pq : List Instr} {sclk : Bool} {s : State} {t' : State} (hq : Keeps pq s)
    (he : execSclkLoss sclk s = .next t') : Keeps pq t' := by
  unfold execSclkLoss at he
  injection he with he
  rw [← he]
  try dsimp only
  with_reducible repeat' (
    first
    | assumption | refine keeps_fst ?_ (by assumption) | refine sclkLoss_keeps ?_ | split | intro _
    | refine keeps_mk ?_)

theorem execClockRecoveryTimer_keeps {pq : List Instr} {x : Straps} {s : State} {t' : State} (hq : Keeps pq s)
    (he : execClockRecoveryTimer x s = .next t') : Keeps pq t' := by
  unfold execClockRecoveryTimer at he
  injection he with he
  rw [← he]
  try dsimp only
  with_reducible repeat' (
    first
    | assumption | refine keeps_fst ?_ (by assumption) | refine clockBack_keeps ?_ | split | intro _
    | refine keeps_mk ?_)

theorem execKclkPllLoss_keeps {pq : List Instr} {s : State} {t' : State} (hq : Keeps pq s)
    (he : execKclkPllLoss s = .next t') : Keeps pq t' := by
  unfold execKclkPllLoss at he
  injection he with he
  rw [← he]
  try dsimp only
  with_reducible repeat' (
    first
    | assumption | refine keeps_fst ?_ (by assumption) | refine pllUnlock_keeps ?_ | refine setClk_keeps ?_
    | split | intro _ | refine keeps_mk ?_)

theorem execKclkPllRelock_keeps {pq : List Instr} {s : State} {t' : State} (hq : Keeps pq s)
    (he : execKclkPllRelock s = .next t') : Keeps pq t' := by
  unfold execKclkPllRelock at he
  injection he with he
  rw [← he]
  try dsimp only
  with_reducible repeat' (
    first
    | assumption | refine keeps_fst ?_ (by assumption) | refine mgrReset_keeps ?_ | refine setClk_keeps ?_
    | split | intro _ | refine keeps_mk ?_)

theorem dieReady_keeps {pq : List Instr} {s : State} {die : Fin 2} {on : Bool} (hq : Keeps pq s) :
    Keeps pq (dieReady s die on) := by
  unfold dieReady
  try dsimp only
  with_reducible repeat' (
    first
    | assumption | refine keeps_fst ?_ (by assumption) | refine keeps_foldl ?_ ?_
    | refine keeps_foldl_pair ?_ ?_ | refine State.setCtrl_keeps ?_ | split | intro _ | refine keeps_mk ?_)

theorem execMclkPllLoss_keeps {pq : List Instr} {die : Fin 2} {s : State} {t' : State} (hq : Keeps pq s)
    (he : execMclkPllLoss die s = .next t') : Keeps pq t' := by
  unfold execMclkPllLoss at he
  injection he with he
  rw [← he]
  try dsimp only
  with_reducible repeat' (
    first
    | assumption | refine keeps_fst ?_ (by assumption) | refine dieReady_keeps ?_ | refine gddrLost_keeps ?_
    | refine pllUnlock_keeps ?_ | refine setClk_keeps ?_ | split | intro _ | refine keeps_mk ?_)

theorem execMclkPllRelock_keeps {pq : List Instr} {die : Fin 2} {s : State} {t' : State} (hq : Keeps pq s)
    (he : execMclkPllRelock die s = .next t') : Keeps pq t' := by
  unfold execMclkPllRelock at he
  injection he with he
  rw [← he]
  try dsimp only
  with_reducible repeat' (
    first
    | assumption | refine keeps_fst ?_ (by assumption) | refine dieReady_keeps ?_ | refine gddrLost_keeps ?_
    | refine setClk_keeps ?_ | split | intro _ | refine keeps_mk ?_)

theorem lclkLoss_keeps {pq : List Instr} {s : State} {k : Fin 6} (hq : Keeps pq s) :
    Keeps pq (lclkLoss s k) := by
  unfold lclkLoss
  try dsimp only
  with_reducible repeat' (
    first
    | assumption | refine keeps_fst ?_ (by assumption) | refine keeps_foldl ?_ ?_
    | refine keeps_foldl_pair ?_ ?_ | refine State.setLink_keeps ?_ | refine linkLeave_keeps ?_
    | refine pllUnlock_keeps ?_ | refine setClk_keeps ?_ | split | intro _ | refine keeps_mk ?_)

theorem lclkRelock_keeps {pq : List Instr} {s : State} {k : Fin 6} (hq : Keeps pq s) :
    Keeps pq (lclkRelock s k) := by
  unfold lclkRelock
  try dsimp only
  with_reducible repeat' (
    first
    | assumption | refine keeps_fst ?_ (by assumption) | refine keeps_foldl ?_ ?_
    | refine keeps_foldl_pair ?_ ?_ | refine State.setLink_keeps ?_ | refine setClk_keeps ?_ | split
    | intro _ | refine keeps_mk ?_)

theorem execLclkPllLoss_keeps {pq : List Instr} {k : Fin 6} {s : State} {t' : State} (hq : Keeps pq s)
    (he : execLclkPllLoss k s = .next t') : Keeps pq t' := by
  unfold execLclkPllLoss at he
  injection he with he
  rw [← he]
  try dsimp only
  with_reducible repeat' (
    first
    | assumption | refine keeps_fst ?_ (by assumption) | refine lclkLoss_keeps ?_ | split | intro _
    | refine keeps_mk ?_)

theorem execLclkPllRelock_keeps {pq : List Instr} {k : Fin 6} {s : State} {t' : State} (hq : Keeps pq s)
    (he : execLclkPllRelock k s = .next t') : Keeps pq t' := by
  unfold execLclkPllRelock at he
  injection he with he
  rw [← he]
  try dsimp only
  with_reducible repeat' (
    first
    | assumption | refine keeps_fst ?_ (by assumption) | refine lclkRelock_keeps ?_ | split | intro _
    | refine keeps_mk ?_)

theorem execHostRefclkLoss_keeps {pq : List Instr} {hb : Bool} {s : State} {t' : State} (hq : Keeps pq s)
    (he : execHostRefclkLoss hb s = .next t') : Keeps pq t' := by
  unfold execHostRefclkLoss at he
  injection he with he
  rw [← he]
  try dsimp only
  with_reducible repeat' (
    first
    | assumption | refine keeps_fst ?_ (by assumption) | refine pllUnlock_keeps ?_ | refine portDown_keeps ?_
    | refine setClk_keeps ?_ | split | intro _ | refine keeps_mk ?_)

theorem execCxlRefclkLoss_keeps {pq : List Instr} {p : PortId} {s : State} {t' : State} (hq : Keeps pq s)
    (he : execCxlRefclkLoss p s = .next t') : Keeps pq t' := by
  unfold execCxlRefclkLoss at he
  injection he with he
  rw [← he]
  try dsimp only
  with_reducible repeat' (
    first
    | assumption | refine keeps_fst ?_ (by assumption) | refine State.setCxl_keeps ?_
    | refine cxlDown_keeps ?_ | refine cxlPins_keeps ?_ | refine pllUnlock_keeps ?_ | refine setClk_keeps ?_
    | split | intro _ | refine keeps_mk ?_)

theorem execCxlRefclkRestored_keeps {pq : List Instr} {p : PortId} {s : State} {t' : State} (hq : Keeps pq s)
    (he : execCxlRefclkRestored p s = .next t') : Keeps pq t' := by
  unfold execCxlRefclkRestored at he
  injection he with he
  rw [← he]
  try dsimp only
  with_reducible repeat' (
    first
    | assumption | refine keeps_fst ?_ (by assumption) | refine State.setCxl_keeps ?_
    | refine cxlRelease_keeps ?_ | refine setClk_keeps ?_ | split | intro _ | refine keeps_mk ?_)

theorem dropRequests_keeps {pq : List Instr} {s : State} (hq : Keeps pq s) :
    Keeps pq (dropRequests s) := by
  unfold dropRequests
  try dsimp only
  with_reducible repeat' (
    first
    | assumption | refine keeps_fst ?_ (by assumption) | split | intro _ | refine keeps_mk ?_)

theorem overtemp_keeps {pq : List Instr} {s : State} (hq : Keeps pq s) :
    Keeps pq (overtemp s) := by
  unfold overtemp
  try dsimp only
  with_reducible repeat' (
    first
    | assumption | refine keeps_fst ?_ (by assumption) | refine domainsOff_keeps ?_
    | refine dropRequests_keeps ?_ | refine failJobs_keeps ?_ | refine pwrEv_keeps ?_ | split | intro _
    | refine keeps_mk ?_)

theorem thermalBack_keeps {pq : List Instr} {s : State} {x : Straps} (hq : Keeps pq s) :
    Keeps pq (thermalBack s x) := by
  unfold thermalBack
  try dsimp only
  with_reducible repeat' (
    first
    | assumption | refine keeps_fst ?_ (by assumption) | refine modReset_keeps ?_ | split | intro _
    | refine keeps_mk ?_)

theorem execJunctionOvertemp_keeps {pq : List Instr} {s : State} {t' : State} (hq : Keeps pq s)
    (he : execJunctionOvertemp s = .next t') : Keeps pq t' := by
  unfold execJunctionOvertemp at he
  injection he with he
  rw [← he]
  try dsimp only
  with_reducible repeat' (
    first
    | assumption | refine keeps_fst ?_ (by assumption) | refine overtemp_keeps ?_ | split | intro _
    | refine keeps_mk ?_)

theorem execThermalRecoveryTimer_keeps {pq : List Instr} {x : Straps} {s : State} {t' : State} (hq : Keeps pq s)
    (he : execThermalRecoveryTimer x s = .next t') : Keeps pq t' := by
  unfold execThermalRecoveryTimer at he
  injection he with he
  rw [← he]
  try dsimp only
  with_reducible repeat' (
    first
    | assumption | refine keeps_fst ?_ (by assumption) | refine thermalBack_keeps ?_ | split | intro _
    | refine keeps_mk ?_)

theorem brumGo_keeps {pq : List Instr} {s : State} {v : W64} (hq : Keeps pq s) :
    Keeps pq (brumGo s v) := by
  unfold brumGo
  try dsimp only
  with_reducible repeat' (
    first
    | assumption | refine keeps_fst ?_ (by assumption) | refine keeps_snd ?_ (by assumption)
    | refine keeps_foldl ?_ ?_ | refine keeps_foldl_pair ?_ ?_ | refine State.orReg_keeps ?_
    | refine State.wr_keeps ?_ | refine cxlEnable_keeps ?_ | refine linkEnable_keeps ?_
    | refine selfRefresh_keeps ?_ | split | intro _ | refine keeps_mk ?_)

theorem brumDark_keeps {pq : List Instr} {s : State} (hq : Keeps pq s) :
    Keeps pq (brumDark s) := by
  unfold brumDark
  try dsimp only
  with_reducible repeat' (
    first
    | assumption | refine keeps_fst ?_ (by assumption) | refine domainsOff_keeps ?_
    | refine gddrLost_keeps ?_ | split | intro _ | refine keeps_mk ?_)

theorem wakeFrom_keeps {pq : List Instr} {s : State} (hq : Keeps pq s) :
    Keeps pq (wakeFrom s) := by
  unfold wakeFrom
  try dsimp only
  with_reducible repeat' (
    first
    | assumption | refine keeps_fst ?_ (by assumption) | split | intro _ | refine keeps_mk ?_)

theorem brumEnd_keeps {pq : List Instr} {s : State} {wake : Bool} (hq : Keeps pq s) :
    Keeps pq (brumEnd s wake) := by
  unfold brumEnd
  try dsimp only
  with_reducible repeat' (
    first
    | assumption | refine keeps_fst ?_ (by assumption) | refine brumDark_keeps ?_ | refine domainOff_keeps ?_
    | refine setBootDone_keeps ?_ | refine setCause_keeps ?_ | refine wake_keeps ?_
    | refine wakeFrom_keeps ?_ | split | intro _ | refine keeps_mk ?_)

theorem wakeUp_keeps {pq : List Instr} {s : State} (hq : Keeps pq s) :
    Keeps pq (wakeUp s) := by
  unfold wakeUp
  try dsimp only
  with_reducible repeat' (
    first
    | assumption | refine keeps_fst ?_ (by assumption) | refine wakeFrom_keeps ?_ | split | intro _
    | refine keeps_mk ?_)

theorem wakeDone_keeps {pq : List Instr} {s : State} (hq : Keeps pq s) :
    Keeps pq (wakeDone s) := by
  unfold wakeDone
  try dsimp only
  with_reducible repeat' (
    first
    | assumption | refine keeps_fst ?_ (by assumption) | refine State.wr_keeps ?_ | refine pwrEv_keeps ?_
    | split | intro _ | refine keeps_mk ?_)

theorem execBrumationGo_keeps {pq : List Instr} {b : Sender} {v : W64} {s : State} {t' : State} (hq : Keeps pq s)
    (he : execBrumationGo b v s = .next t') : Keeps pq t' := by
  unfold execBrumationGo at he
  injection he with he
  rw [← he]
  try dsimp only
  with_reducible repeat' (
    first
    | assumption | refine keeps_fst ?_ (by assumption) | refine brumGo_keeps ?_ | split | intro _
    | refine keeps_mk ?_)

theorem execBrumationEntryEnd_keeps {pq : List Instr} {s : State} {wake : Bool} {t' : State} (hq : Keeps pq s)
    (he : execBrumationEntryEnd s wake = .next t') : Keeps pq t' := by
  unfold execBrumationEntryEnd at he
  injection he with he
  rw [← he]
  try dsimp only
  with_reducible repeat' (
    first
    | assumption | refine keeps_fst ?_ (by assumption) | refine brumEnd_keeps ?_ | refine wake_keeps ?_
    | split | intro _ | refine keeps_mk ?_)

theorem execWakeN_keeps {pq : List Instr} {s : State} {t' : State} (hq : Keeps pq s)
    (he : execWakeN s = .next t') : Keeps pq t' := by
  unfold execWakeN at he
  injection he with he
  rw [← he]
  try dsimp only
  with_reducible repeat' (
    first
    | assumption | refine keeps_fst ?_ (by assumption) | refine wakeUp_keeps ?_ | split | intro _
    | refine keeps_mk ?_)

theorem execWakeComplete_keeps {pq : List Instr} {s : State} {t' : State} (hq : Keeps pq s)
    (he : execWakeComplete s = .next t') : Keeps pq t' := by
  unfold execWakeComplete at he
  injection he with he
  rw [← he]
  try dsimp only
  with_reducible repeat' (
    first
    | assumption | refine keeps_fst ?_ (by assumption) | refine wakeDone_keeps ?_ | split | intro _
    | refine keeps_mk ?_)

end Sys2Proof.Machine
end

