-- ==== Sys2Proof/Laws/KeepsGovernor.lean ====
section
/-!
SUPPORT. The operations of Governor keep the waiting commands and the canonical memories.
-/

-- The declarations of this file are elaborated in turn, so that checking the package as one text needs few threads.
set_option Elab.async false

namespace Sys2Proof.Machine

theorem setGov_keeps {pq : List Instr} {s : State} {v : W64} (hq : Keeps pq s) :
    Keeps pq (setGov s v) := by
  unfold setGov
  try dsimp only
  with_reducible repeat' (
    first
    | assumption | refine keeps_fst ?_ (by assumption) | refine State.wr_keeps ?_ | split | intro _
    | refine keeps_mk ?_)

theorem govFlags_keeps {pq : List Instr} {s : State} (hq : Keeps pq s) :
    Keeps pq (govFlags s) := by
  unfold govFlags
  try dsimp only
  with_reducible repeat' (
    first
    | assumption | refine keeps_fst ?_ (by assumption) | refine setGov_keeps ?_ | split | intro _
    | refine keeps_mk ?_)

theorem powerNow_keeps {pq : List Instr} {s : State} {x : Sensors} (hq : Keeps pq s) :
    Keeps pq (powerNow s x) := by
  unfold powerNow
  try dsimp only
  with_reducible repeat' (
    first
    | assumption | refine keeps_fst ?_ (by assumption) | refine keeps_foldl ?_ ?_
    | refine keeps_foldl_pair ?_ ?_ | refine State.count_keeps ?_ | refine State.wr_keeps ?_ | split
    | intro _ | refine keeps_mk ?_)

theorem stepDown_keeps {pq : List Instr} {s : State} {code : Nat} (hq : Keeps pq s) :
    Keeps pq (stepDown s code) := by
  unfold stepDown
  try dsimp only
  with_reducible repeat' (
    first
    | assumption | refine keeps_fst ?_ (by assumption) | refine State.record_keeps ?_
    | refine setGov_keeps ?_ | split | intro _ | refine keeps_mk ?_)

theorem govern_keeps {pq : List Instr} {s : State} {x : Sensors} (hq : Keeps pq s) :
    Keeps pq (govern s x) := by
  unfold govern
  try dsimp only
  with_reducible repeat' (
    first
    | assumption | refine keeps_fst ?_ (by assumption) | refine govFlags_keeps ?_ | refine powerNow_keeps ?_
    | refine setGov_keeps ?_ | refine stepDown_keeps ?_ | split | intro _ | refine keeps_mk ?_)

theorem govCfgWrite_keeps {pq : List Instr} {s : State} {v : W64} (hq : Keeps pq s) :
    Keeps pq (govCfgWrite s v) := by
  unfold govCfgWrite
  try dsimp only
  with_reducible repeat' (
    first
    | assumption | refine keeps_fst ?_ (by assumption) | refine State.wr_keeps ?_ | refine govFlags_keeps ?_
    | refine setGov_keeps ?_ | split | intro _ | refine keeps_mk ?_)

theorem execGovCfgWrite_keeps {pq : List Instr} {b : Sender} {v : W64} {s : State} {t' : State} (hq : Keeps pq s)
    (he : execGovCfgWrite b v s = .next t') : Keeps pq t' := by
  unfold execGovCfgWrite at he
  injection he with he
  rw [← he]
  try dsimp only
  with_reducible repeat' (
    first
    | assumption | refine keeps_fst ?_ (by assumption) | refine govCfgWrite_keeps ?_ | split | intro _
    | refine keeps_mk ?_)

theorem limitsWrite_keeps {pq : List Instr} {s : State} {v : W64} {host : Bool} (hq : Keeps pq s) :
    Keeps pq (limitsWrite s v host) := by
  unfold limitsWrite
  try dsimp only
  with_reducible repeat' (
    first
    | assumption | refine keeps_fst ?_ (by assumption) | refine State.wr_keeps ?_ | split | intro _
    | refine keeps_mk ?_)

theorem throttleWrite_keeps {pq : List Instr} {s : State} {v : W64} {host : Bool} (hq : Keeps pq s) :
    Keeps pq (throttleWrite s v host) := by
  unfold throttleWrite
  try dsimp only
  with_reducible repeat' (
    first
    | assumption | refine keeps_fst ?_ (by assumption) | refine State.wr_keeps ?_ | split | intro _
    | refine keeps_mk ?_)

theorem currentWrite_keeps {pq : List Instr} {s : State} {v : W64} (hq : Keeps pq s) :
    Keeps pq (currentWrite s v) := by
  unfold currentWrite
  try dsimp only
  with_reducible repeat' (
    first
    | assumption | refine keeps_fst ?_ (by assumption) | refine State.wr_keeps ?_ | split | intro _
    | refine keeps_mk ?_)

theorem wdtCfgWrite_keeps {pq : List Instr} {s : State} {v : W64} (hq : Keeps pq s) :
    Keeps pq (wdtCfgWrite s v) := by
  unfold wdtCfgWrite
  try dsimp only
  with_reducible repeat' (
    first
    | assumption | refine keeps_fst ?_ (by assumption) | refine State.wr_keeps ?_ | split | intro _
    | refine keeps_mk ?_)

theorem shelfOn_keeps {pq : List Instr} {s : State} (hq : Keeps pq s) :
    Keeps pq (shelfOn s) := by
  unfold shelfOn
  try dsimp only
  with_reducible repeat' (
    first
    | assumption | refine keeps_fst ?_ (by assumption) | refine State.wr_keeps ?_ | split | intro _
    | refine keeps_mk ?_)

theorem shelfOff_keeps {pq : List Instr} {s : State} (hq : Keeps pq s) :
    Keeps pq (shelfOff s) := by
  unfold shelfOff
  try dsimp only
  with_reducible repeat' (
    first
    | assumption | refine keeps_fst ?_ (by assumption) | refine State.wr_keeps ?_ | split | intro _
    | refine keeps_mk ?_)

theorem coolantOn_keeps {pq : List Instr} {s : State} (hq : Keeps pq s) :
    Keeps pq (coolantOn s) := by
  unfold coolantOn
  try dsimp only
  with_reducible repeat' (
    first
    | assumption | refine keeps_fst ?_ (by assumption) | refine State.wr_keeps ?_ | split | intro _
    | refine keeps_mk ?_)

theorem coolantOff_keeps {pq : List Instr} {s : State} (hq : Keeps pq s) :
    Keeps pq (coolantOff s) := by
  unfold coolantOff
  try dsimp only
  with_reducible repeat' (
    first
    | assumption | refine keeps_fst ?_ (by assumption) | refine State.wr_keeps ?_ | split | intro _
    | refine keeps_mk ?_)

theorem sampleAlerts_keeps {pq : List Instr} {s : State} (hq : Keeps pq s) :
    Keeps pq (sampleAlerts s) := by
  unfold sampleAlerts
  try dsimp only
  with_reducible repeat' (
    first
    | assumption | refine keeps_fst ?_ (by assumption) | refine coolantOff_keeps ?_
    | refine coolantOn_keeps ?_ | refine shelfOff_keeps ?_ | refine shelfOn_keeps ?_ | split | intro _
    | refine keeps_mk ?_)

theorem execGovernorEvaluation_keeps {pq : List Instr} {x : Sensors} {s : State} {t' : State} (hq : Keeps pq s)
    (he : execGovernorEvaluation x s = .next t') : Keeps pq t' := by
  unfold execGovernorEvaluation at he
  injection he with he
  rw [← he]
  try dsimp only
  with_reducible repeat' (
    first
    | assumption | refine keeps_fst ?_ (by assumption) | refine govern_keeps ?_
    | refine sampleAlerts_keeps ?_ | split | intro _ | refine keeps_mk ?_)

theorem execShelfAlertAssert_keeps {pq : List Instr} {s : State} {t' : State} (hq : Keeps pq s)
    (he : execShelfAlertAssert s = .next t') : Keeps pq t' := by
  unfold execShelfAlertAssert at he
  injection he with he
  rw [← he]
  try dsimp only
  with_reducible repeat' (
    first
    | assumption | refine keeps_fst ?_ (by assumption) | refine shelfOn_keeps ?_ | split | intro _
    | refine keeps_mk ?_)

theorem execShelfAlertRelease_keeps {pq : List Instr} {s : State} {t' : State} (hq : Keeps pq s)
    (he : execShelfAlertRelease s = .next t') : Keeps pq t' := by
  unfold execShelfAlertRelease at he
  injection he with he
  rw [← he]
  try dsimp only
  with_reducible repeat' (
    first
    | assumption | refine keeps_fst ?_ (by assumption) | refine shelfOff_keeps ?_ | split | intro _
    | refine keeps_mk ?_)

theorem execCoolantAlertAssert_keeps {pq : List Instr} {s : State} {t' : State} (hq : Keeps pq s)
    (he : execCoolantAlertAssert s = .next t') : Keeps pq t' := by
  unfold execCoolantAlertAssert at he
  injection he with he
  rw [← he]
  try dsimp only
  with_reducible repeat' (
    first
    | assumption | refine keeps_fst ?_ (by assumption) | refine coolantOn_keeps ?_ | split | intro _
    | refine keeps_mk ?_)

theorem execCoolantAlertRelease_keeps {pq : List Instr} {s : State} {t' : State} (hq : Keeps pq s)
    (he : execCoolantAlertRelease s = .next t') : Keeps pq t' := by
  unfold execCoolantAlertRelease at he
  injection he with he
  rw [← he]
  try dsimp only
  with_reducible repeat' (
    first
    | assumption | refine keeps_fst ?_ (by assumption) | refine coolantOff_keeps ?_ | split | intro _
    | refine keeps_mk ?_)

end Sys2Proof.Machine
end

