-- ==== Sys2Proof/Laws/KeepsNet.lean ====
section
/-!
SUPPORT. The operations of Net keep the waiting commands and the canonical memories.
-/

-- The declarations of this file are elaborated in turn, so that checking the package as one text needs few threads.
set_option Elab.async false

namespace Sys2Proof.Machine

theorem noteOrder_keeps {pq : List Instr} {s : State} {p : Pkt} (hq : Keeps pq s) :
    Keeps pq (noteOrder s p) := by
  unfold noteOrder
  try dsimp only
  with_reducible repeat' (
    first
    | assumption | refine keeps_fst ?_ (by assumption) | split | intro _ | refine keeps_mk ?_)

theorem pktEv_keeps {pq : List Instr} {s : State} {fails : Bool} {code : Nat} {p : Pkt} (hq : Keeps pq s) :
    Keeps pq (pktEv s fails code p) := by
  unfold pktEv
  try dsimp only
  with_reducible repeat' (
    first
    | assumption | refine keeps_fst ?_ (by assumption) | refine State.raiseDev_keeps ?_ | split | intro _
    | refine keeps_mk ?_)

theorem leaveBuffer_keeps {pq : List Instr} {s : State} {l : LinkId} {r : RxWait} (hq : Keeps pq s) :
    Keeps pq (leaveBuffer s l r) := by
  unfold leaveBuffer
  try dsimp only
  with_reducible repeat' (
    first
    | assumption | refine keeps_fst ?_ (by assumption) | refine returnCredit_keeps ?_ | split | intro _
    | refine keeps_mk ?_)

theorem intake_keeps {pq : List Instr} {s : State} {l : LinkId} {want : Pkt → Bool} {body : State → RxWait → State} (hq : Keeps pq s) (hf1 : ∀ (a0 : State) (a1 : RxWait), Keeps pq a0 → Keeps pq (body a0 a1)) :
    Keeps pq (intake s l want body) := by
  unfold intake
  try dsimp only
  with_reducible repeat' (
    first
    | assumption | refine keeps_fst ?_ (by assumption) | refine State.setLink_keeps ?_
    | refine leaveBuffer_keeps ?_ | refine noteOrder_keeps ?_ | refine pktEv_keeps ?_ | refine hf1 _ ?_
    | refine hf1 _ _ ?_ | refine hf1 _ _ _ ?_ | split | intro _ | refine keeps_mk ?_)

theorem take_keeps {pq : List Instr} {s : State} {l : LinkId} {ptype : Nat} {body : State → Pkt → State} (hq : Keeps pq s) (hf1 : ∀ (a0 : State) (a1 : Pkt), Keeps pq a0 → Keeps pq (body a0 a1)) :
    Keeps pq (take s l ptype body) := by
  unfold take
  try dsimp only
  with_reducible repeat' (
    first
    | assumption | refine keeps_fst ?_ (by assumption) | refine intake_keeps ?_ ?_ 
    | refine leaveBuffer_keeps ?_ | refine hf1 _ ?_ | refine hf1 _ _ ?_ | refine hf1 _ _ _ ?_ | split
    | intro _ | refine keeps_mk ?_)

theorem qcellsIn_keeps {pq : List Instr} {s : State} {l : LinkId} (hq : Keeps pq s) :
    Keeps pq (qcellsIn s l) := by
  unfold qcellsIn
  try dsimp only
  with_reducible repeat' (
    first
    | assumption | refine keeps_fst ?_ (by assumption) | refine State.setLink_keeps ?_
    | refine intake_keeps ?_ ?_  | split | intro _ | refine keeps_mk ?_)

theorem qflowIn_keeps {pq : List Instr} {s : State} {p : Pkt} (hq : Keeps pq s) :
    Keeps pq (qflowIn s p) := by
  unfold qflowIn
  try dsimp only
  with_reducible repeat' (
    first
    | assumption | refine keeps_fst ?_ (by assumption) | refine flowIn_keeps ?_ | split | intro _
    | refine keeps_mk ?_)

theorem serveReq_keeps {pq : List Instr} {s : State} {p : Pkt} {err : Option CxlErr} (hq : Keeps pq s) :
    Keeps pq (serveReq s p err).1 := by
  unfold serveReq
  try dsimp only
  with_reducible repeat' (
    first
    | assumption | refine keeps_fst ?_ (by assumption) | refine gddrOutside_keeps ?_
    | refine memCheck_keeps ?_ | refine spOutside_keeps ?_ | refine tierDo_keeps ?_ | split | intro _
    | refine keeps_mk ?_)

theorem answerReq_keeps {pq : List Instr} {s : State} {l : LinkId} {p : Pkt} {e : AccEnd} (hq : Keeps pq s) :
    Keeps pq (answerReq s l p e) := by
  unfold answerReq
  try dsimp only
  with_reducible repeat' (
    first
    | assumption | refine keeps_fst ?_ (by assumption) | refine State.failStep_keeps ?_
    | refine sendPkt_keeps ?_ | refine unreachable_keeps ?_ | split | intro _ | refine keeps_mk ?_)

theorem reqGo_keeps {pq : List Instr} {s : State} {l : LinkId} {r : RxWait} {err : Option CxlErr} (hq : Keeps pq s) :
    Keeps pq (reqGo s l r err) := by
  unfold reqGo
  try dsimp only
  with_reducible repeat' (
    first
    | assumption | refine keeps_fst ?_ (by assumption) | refine State.setLink_keeps ?_
    | refine answerReq_keeps ?_ | refine leaveBuffer_keeps ?_ | refine serveReq_keeps ?_ | split | intro _
    | refine keeps_mk ?_)

theorem reqIn_keeps {pq : List Instr} {s : State} {l : LinkId} {ptype : Nat} {err : Option CxlErr} (hq : Keeps pq s) :
    Keeps pq (reqIn s l ptype err) := by
  unfold reqIn
  try dsimp only
  with_reducible repeat' (
    first
    | assumption | refine keeps_fst ?_ (by assumption) | refine intake_keeps ?_ ?_  | refine reqGo_keeps ?_
    | split | intro _ | refine keeps_mk ?_)

theorem sendCollAck_keeps {pq : List Instr} {s : State} {c : CollRx} {kind base mask : Nat} (hq : Keeps pq s) :
    Keeps pq (sendCollAck s c kind base mask) := by
  unfold sendCollAck
  try dsimp only
  with_reducible repeat' (
    first
    | assumption | refine keeps_fst ?_ (by assumption) | refine State.failStep_keeps ?_
    | refine sendPkt_keeps ?_ | refine unreachable_keeps ?_ | split | intro _ | refine keeps_mk ?_)

theorem dropColl_keeps {pq : List Instr} {s : State} {c : CollRx} (hq : Keeps pq s) :
    Keeps pq (dropColl s c) := by
  unfold dropColl
  try dsimp only
  with_reducible repeat' (
    first
    | assumption | refine keeps_fst ?_ (by assumption) | split | intro _ | refine keeps_mk ?_)

theorem collPart_keeps {pq : List Instr} {s : State} {c : CollRx} {p : Pkt} (hq : Keeps pq s) :
    Keeps pq (collPart s c p) := by
  unfold collPart
  try dsimp only
  with_reducible repeat' (
    first
    | assumption | refine keeps_fst ?_ (by assumption) | refine collArrived_keeps ?_
    | refine dropColl_keeps ?_ | refine sendCollAck_keeps ?_ | split | intro _ | refine keeps_mk ?_)

theorem collGo_keeps {pq : List Instr} {s : State} {l : LinkId} {r : RxWait} (hq : Keeps pq s) :
    Keeps pq (collGo s l r) := by
  unfold collGo
  try dsimp only
  with_reducible repeat' (
    first
    | assumption | refine keeps_fst ?_ (by assumption) | refine State.setLink_keeps ?_
    | refine collPart_keeps ?_ | refine leaveBuffer_keeps ?_ | split | intro _ | refine keeps_mk ?_)

theorem retryWaits_keeps {pq : List Instr} {s : State} {l : LinkId} {err : Option CxlErr} (hq : Keeps pq s) :
    Keeps pq (retryWaits s l err) := by
  unfold retryWaits
  try dsimp only
  with_reducible repeat' (
    first
    | assumption | refine keeps_fst ?_ (by assumption) | refine keeps_foldl ?_ ?_
    | refine keeps_foldl_pair ?_ ?_ | refine State.setLink_keeps ?_ | refine collGo_keeps ?_
    | refine reqGo_keeps ?_ | split | intro _ | refine keeps_mk ?_)

theorem retryColl_keeps {pq : List Instr} {s : State} (hq : Keeps pq s) :
    Keeps pq (retryColl s) := by
  unfold retryColl
  try dsimp only
  with_reducible repeat' (
    first
    | assumption | refine keeps_fst ?_ (by assumption) | refine keeps_foldl ?_ ?_
    | refine keeps_foldl_pair ?_ ?_ | refine State.setLink_keeps ?_ | refine collGo_keeps ?_ | split
    | intro _ | refine keeps_mk ?_)

theorem stripeGap_keeps {pq : List Instr} {s : State} {job dev : Nat} {p : Pkt} (hq : Keeps pq s) :
    Keeps pq (stripeGap s job dev p) := by
  unfold stripeGap
  try dsimp only
  with_reducible repeat' (
    first
    | assumption | refine keeps_fst ?_ (by assumption) | refine State.raiseDev_keeps ?_ | split | intro _
    | refine keeps_mk ?_)

theorem e2eFail_keeps {pq : List Instr} {s : State} {job dev : Nat} {p : Pkt} (hq : Keeps pq s) :
    Keeps pq (e2eFail s job dev p) := by
  unfold e2eFail
  try dsimp only
  with_reducible repeat' (
    first
    | assumption | refine keeps_fst ?_ (by assumption) | refine State.raiseDev_keeps ?_ | split | intro _
    | refine keeps_mk ?_)

theorem collAckIn_keeps {pq : List Instr} {s : State} {p : Pkt} (hq : Keeps pq s) :
    Keeps pq (collAckIn s p) := by
  unfold collAckIn
  try dsimp only
  with_reducible repeat' (
    first
    | assumption | refine keeps_fst ?_ (by assumption) | refine collDone_keeps ?_ | refine collDrop_keeps ?_
    | refine collKick_keeps ?_ | refine e2eFail_keeps ?_ | refine sendStripes_keeps ?_ | split | intro _
    | refine keeps_mk ?_)

theorem nakTimer_keeps {pq : List Instr} {s : State} {src job xid : Nat} (hq : Keeps pq s) :
    Keeps pq (nakTimer s src job xid) := by
  unfold nakTimer
  try dsimp only
  with_reducible repeat' (
    first
    | assumption | refine keeps_fst ?_ (by assumption) | refine keeps_foldl ?_ ?_
    | refine keeps_foldl_pair ?_ ?_ | refine dropColl_keeps ?_ | refine e2eFail_keeps ?_
    | refine retryColl_keeps ?_ | refine sendCollAck_keeps ?_ | refine stripeGap_keeps ?_ | split | intro _
    | refine keeps_mk ?_)

theorem resendTimer_keeps {pq : List Instr} {s : State} {dst job xid : Nat} (hq : Keeps pq s) :
    Keeps pq (resendTimer s dst job xid) := by
  unfold resendTimer
  try dsimp only
  with_reducible repeat' (
    first
    | assumption | refine keeps_fst ?_ (by assumption) | refine collDrop_keeps ?_ | refine collKick_keeps ?_
    | refine e2eFail_keeps ?_ | refine sendStripes_keeps ?_ | refine stripeGap_keeps ?_ | split | intro _
    | refine keeps_mk ?_)

theorem answerIn_keeps {pq : List Instr} {s : State} {p : Pkt} (hq : Keeps pq s) :
    Keeps pq (answerIn s p) := by
  unfold answerIn
  try dsimp only
  with_reducible repeat' (
    first
    | assumption | refine keeps_fst ?_ (by assumption) | refine cairnsGo_keeps ?_ | refine collKick_keeps ?_
    | refine reqAnswer_keeps ?_ | split | intro _ | refine keeps_mk ?_)

theorem e2eTimeout_keeps {pq : List Instr} {s : State} {tag : Nat} (hq : Keeps pq s) :
    Keeps pq (e2eTimeout s tag) := by
  unfold e2eTimeout
  try dsimp only
  with_reducible repeat' (
    first
    | assumption | refine keeps_fst ?_ (by assumption) | refine collKick_keeps ?_ | refine reqAnswer_keeps ?_
    | refine reqStrand_keeps ?_ | refine sendPkt_keeps ?_ | refine unreachable_keeps ?_ | split | intro _
    | refine keeps_mk ?_)

theorem syncLost_keeps {pq : List Instr} {s : State} {p : Pkt} (hq : Keeps pq s) :
    Keeps pq (syncLost s p) := by
  unfold syncLost
  try dsimp only
  with_reducible repeat' (
    first
    | assumption | refine keeps_fst ?_ (by assumption) | refine State.raiseDev_keeps ?_ | split | intro _
    | refine keeps_mk ?_)

theorem timeExchange_keeps {pq : List Instr} {s : State} (hq : Keeps pq s) :
    Keeps pq (timeExchange s) := by
  unfold timeExchange
  try dsimp only
  with_reducible repeat' (
    first
    | assumption | refine keeps_fst ?_ (by assumption) | refine sendPkt_keeps ?_ | refine syncLost_keeps ?_
    | refine unreachable_keeps ?_ | split | intro _ | refine keeps_mk ?_)

theorem timeRequest_keeps {pq : List Instr} {s : State} {t2 : W64} {p : Pkt} (hq : Keeps pq s) :
    Keeps pq (timeRequest s t2 p) := by
  unfold timeRequest
  try dsimp only
  with_reducible repeat' (
    first
    | assumption | refine keeps_fst ?_ (by assumption) | refine sendPkt_keeps ?_
    | refine unreachable_keeps ?_ | split | intro _ | refine keeps_mk ?_)

theorem timeReply_keeps {pq : List Instr} {s : State} {t4 : W64} {p : Pkt} (hq : Keeps pq s) :
    Keeps pq (timeReply s t4 p) := by
  unfold timeReply
  try dsimp only
  with_reducible repeat' (
    first
    | assumption | refine keeps_fst ?_ (by assumption) | refine State.wr_keeps ?_ | refine syncLost_keeps ?_
    | split | intro _ | refine keeps_mk ?_)

theorem syncBody_keeps {pq : List Instr} {kind : Nat} {s : State} {j : JobId} {p : Pkt} (hq : Keeps pq s) :
    Keeps pq (syncBody kind s j p) := by
  unfold syncBody
  try dsimp only
  with_reducible repeat' (
    first
    | assumption | refine keeps_fst ?_ (by assumption) | refine decideIn_keeps ?_ | refine expIn_keeps ?_
    | refine failIn_keeps ?_ | refine outcomeIn_keeps ?_ | refine pendingIn_keeps ?_
    | refine readyIn_keeps ?_ | split | intro _ | refine keeps_mk ?_)

theorem syncBad_keeps {pq : List Instr} {s : State} {p : Pkt} (hq : Keeps pq s) :
    Keeps pq (syncBad s p) := by
  unfold syncBad
  try dsimp only
  with_reducible repeat' (
    first
    | assumption | refine keeps_fst ?_ (by assumption) | refine redEv_keeps ?_ | split | intro _
    | refine keeps_mk ?_)

theorem syncIn_keeps {pq : List Instr} {s : State} {src : Option LinkId} {kind : Nat} (hq : Keeps pq s) :
    Keeps pq (syncIn s src kind) := by
  unfold syncIn
  try dsimp only
  with_reducible repeat' (
    first
    | assumption | refine keeps_fst ?_ (by assumption) | refine intake_keeps ?_ ?_ 
    | refine leaveBuffer_keeps ?_ | refine syncBad_keeps ?_ | refine syncBody_keeps ?_ | split | intro _
    | refine keeps_mk ?_)

theorem execQcells_keeps {pq : List Instr} {l : LinkId} {s : State} {t' : State} (hq : Keeps pq s)
    (he : execQcells l s = .next t') : Keeps pq t' := by
  unfold execQcells at he
  injection he with he
  rw [← he]
  try dsimp only
  with_reducible repeat' (
    first
    | assumption | refine keeps_fst ?_ (by assumption) | refine State.live_keeps ?_ ?_ 
    | refine qcellsIn_keeps ?_ | split | intro _ | refine keeps_mk ?_)

theorem execWrite_keeps {pq : List Instr} {l : LinkId} {us : List Upset} {err : Option CxlErr} {s : State} {t' : State} (hq : Keeps pq s)
    (he : execWrite l us err s = .next t') : Keeps pq t' := by
  unfold execWrite at he
  injection he with he
  rw [← he]
  try dsimp only
  with_reducible repeat' (
    first
    | assumption | refine keeps_fst ?_ (by assumption) | refine State.live_keeps ?_ ?_ 
    | refine reqIn_keeps ?_ | refine strike_keeps ?_ | split | intro _ | refine keeps_mk ?_)

theorem execRead_keeps {pq : List Instr} {l : LinkId} {us : List Upset} {err : Option CxlErr} {s : State} {t' : State} (hq : Keeps pq s)
    (he : execRead l us err s = .next t') : Keeps pq t' := by
  unfold execRead at he
  injection he with he
  rw [← he]
  try dsimp only
  with_reducible repeat' (
    first
    | assumption | refine keeps_fst ?_ (by assumption) | refine State.live_keeps ?_ ?_ 
    | refine reqIn_keeps ?_ | refine strike_keeps ?_ | split | intro _ | refine keeps_mk ?_)

theorem execReadRsp_keeps {pq : List Instr} {l : LinkId} {s : State} {t' : State} (hq : Keeps pq s)
    (he : execReadRsp l s = .next t') : Keeps pq t' := by
  unfold execReadRsp at he
  injection he with he
  rw [← he]
  try dsimp only
  with_reducible repeat' (
    first
    | assumption | refine keeps_fst ?_ (by assumption) | refine State.live_keeps ?_ ?_ 
    | refine answerIn_keeps ?_ | refine take_keeps ?_ ?_  | split | intro _ | refine keeps_mk ?_)

theorem execWriteAck_keeps {pq : List Instr} {l : LinkId} {s : State} {t' : State} (hq : Keeps pq s)
    (he : execWriteAck l s = .next t') : Keeps pq t' := by
  unfold execWriteAck at he
  injection he with he
  rw [← he]
  try dsimp only
  with_reducible repeat' (
    first
    | assumption | refine keeps_fst ?_ (by assumption) | refine State.live_keeps ?_ ?_ 
    | refine answerIn_keeps ?_ | refine take_keeps ?_ ?_  | split | intro _ | refine keeps_mk ?_)

theorem execE2eTimeoutExpiry_keeps {pq : List Instr} {tag : BitVec 13} {s : State} {t' : State} (hq : Keeps pq s)
    (he : execE2eTimeoutExpiry tag s = .next t') : Keeps pq t' := by
  unfold execE2eTimeoutExpiry at he
  injection he with he
  rw [← he]
  try dsimp only
  with_reducible repeat' (
    first
    | assumption | refine keeps_fst ?_ (by assumption) | refine State.live_keeps ?_ ?_ 
    | refine e2eTimeout_keeps ?_ | split | intro _ | refine keeps_mk ?_)

theorem execColl_keeps {pq : List Instr} {l : LinkId} {us : List Upset} {s : State} {t' : State} (hq : Keeps pq s)
    (he : execColl l us s = .next t') : Keeps pq t' := by
  unfold execColl at he
  injection he with he
  rw [← he]
  try dsimp only
  with_reducible repeat' (
    first
    | assumption | refine keeps_fst ?_ (by assumption) | refine State.live_keeps ?_ ?_ 
    | refine collGo_keeps ?_ | refine intake_keeps ?_ ?_  | refine retryColl_keeps ?_
    | refine strike_keeps ?_ | split | intro _ | refine keeps_mk ?_)

theorem execCollAck_keeps {pq : List Instr} {l : LinkId} {s : State} {t' : State} (hq : Keeps pq s)
    (he : execCollAck l s = .next t') : Keeps pq t' := by
  unfold execCollAck at he
  injection he with he
  rw [← he]
  try dsimp only
  with_reducible repeat' (
    first
    | assumption | refine keeps_fst ?_ (by assumption) | refine State.live_keeps ?_ ?_ 
    | refine collAckIn_keeps ?_ | refine take_keeps ?_ ?_  | split | intro _ | refine keeps_mk ?_)

theorem execCollNakTimerExpiry_keeps {pq : List Instr} {src : DevId} {job : JobId} {xid : BitVec 16} {s : State} {t' : State} (hq : Keeps pq s)
    (he : execCollNakTimerExpiry src job xid s = .next t') : Keeps pq t' := by
  unfold execCollNakTimerExpiry at he
  injection he with he
  rw [← he]
  try dsimp only
  with_reducible repeat' (
    first
    | assumption | refine keeps_fst ?_ (by assumption) | refine State.live_keeps ?_ ?_ 
    | refine nakTimer_keeps ?_ | split | intro _ | refine keeps_mk ?_)

theorem execCollResendTimerExpiry_keeps {pq : List Instr} {dst : DevId} {job : JobId} {xid : BitVec 16} {s : State} {t' : State} (hq : Keeps pq s)
    (he : execCollResendTimerExpiry dst job xid s = .next t') : Keeps pq t' := by
  unfold execCollResendTimerExpiry at he
  injection he with he
  rw [← he]
  try dsimp only
  with_reducible repeat' (
    first
    | assumption | refine keeps_fst ?_ (by assumption) | refine State.live_keeps ?_ ?_ 
    | refine resendTimer_keeps ?_ | split | intro _ | refine keeps_mk ?_)

theorem execQflow_keeps {pq : List Instr} {l : LinkId} {s : State} {t' : State} (hq : Keeps pq s)
    (he : execQflow l s = .next t') : Keeps pq t' := by
  unfold execQflow at he
  injection he with he
  rw [← he]
  try dsimp only
  with_reducible repeat' (
    first
    | assumption | refine keeps_fst ?_ (by assumption) | refine State.live_keeps ?_ ?_ 
    | refine qflowIn_keeps ?_ | refine take_keeps ?_ ?_  | split | intro _ | refine keeps_mk ?_)

theorem execTimeExchange_keeps {pq : List Instr} {s : State} {t' : State} (hq : Keeps pq s)
    (he : execTimeExchange s = .next t') : Keeps pq t' := by
  unfold execTimeExchange at he
  injection he with he
  rw [← he]
  try dsimp only
  with_reducible repeat' (
    first
    | assumption | refine keeps_fst ?_ (by assumption) | refine State.live_keeps ?_ ?_ 
    | refine timeExchange_keeps ?_ | split | intro _ | refine keeps_mk ?_)

theorem execTimeRequest_keeps {pq : List Instr} {l : LinkId} {s : State} {t' : State} (hq : Keeps pq s)
    (he : execTimeRequest l s = .next t') : Keeps pq t' := by
  unfold execTimeRequest at he
  injection he with he
  rw [← he]
  try dsimp only
  with_reducible repeat' (
    first
    | assumption | refine keeps_fst ?_ (by assumption) | refine State.live_keeps ?_ ?_ 
    | refine intake_keeps ?_ ?_  | refine leaveBuffer_keeps ?_ | refine timeRequest_keeps ?_ | split
    | intro _ | refine keeps_mk ?_)

theorem execTimeReply_keeps {pq : List Instr} {l : LinkId} {s : State} {t' : State} (hq : Keeps pq s)
    (he : execTimeReply l s = .next t') : Keeps pq t' := by
  unfold execTimeReply at he
  injection he with he
  rw [← he]
  try dsimp only
  with_reducible repeat' (
    first
    | assumption | refine keeps_fst ?_ (by assumption) | refine State.live_keeps ?_ ?_ 
    | refine intake_keeps ?_ ?_  | refine leaveBuffer_keeps ?_ | refine timeReply_keeps ?_ | split | intro _
    | refine keeps_mk ?_)

theorem execExp_keeps {pq : List Instr} {src : Option LinkId} {s : State} {t' : State} (hq : Keeps pq s)
    (he : execExp src s = .next t') : Keeps pq t' := by
  unfold execExp at he
  injection he with he
  rw [← he]
  try dsimp only
  with_reducible repeat' (
    first
    | assumption | refine keeps_fst ?_ (by assumption) | refine State.live_keeps ?_ ?_ 
    | refine syncIn_keeps ?_ | split | intro _ | refine keeps_mk ?_)

theorem execPending_keeps {pq : List Instr} {src : Option LinkId} {s : State} {t' : State} (hq : Keeps pq s)
    (he : execPending src s = .next t') : Keeps pq t' := by
  unfold execPending at he
  injection he with he
  rw [← he]
  try dsimp only
  with_reducible repeat' (
    first
    | assumption | refine keeps_fst ?_ (by assumption) | refine State.live_keeps ?_ ?_ 
    | refine syncIn_keeps ?_ | split | intro _ | refine keeps_mk ?_)

theorem execDecide_keeps {pq : List Instr} {src : Option LinkId} {us : List Upset} {s : State} {t' : State} (hq : Keeps pq s)
    (he : execDecide src us s = .next t') : Keeps pq t' := by
  unfold execDecide at he
  injection he with he
  rw [← he]
  try dsimp only
  with_reducible repeat' (
    first
    | assumption | refine keeps_fst ?_ (by assumption) | refine State.live_keeps ?_ ?_ 
    | refine strike_keeps ?_ | refine syncIn_keeps ?_ | split | intro _ | refine keeps_mk ?_)

theorem execReady_keeps {pq : List Instr} {src : Option LinkId} {s : State} {t' : State} (hq : Keeps pq s)
    (he : execReady src s = .next t') : Keeps pq t' := by
  unfold execReady at he
  injection he with he
  rw [← he]
  try dsimp only
  with_reducible repeat' (
    first
    | assumption | refine keeps_fst ?_ (by assumption) | refine State.live_keeps ?_ ?_ 
    | refine syncIn_keeps ?_ | split | intro _ | refine keeps_mk ?_)

theorem execFail_keeps {pq : List Instr} {src : Option LinkId} {s : State} {t' : State} (hq : Keeps pq s)
    (he : execFail src s = .next t') : Keeps pq t' := by
  unfold execFail at he
  injection he with he
  rw [← he]
  try dsimp only
  with_reducible repeat' (
    first
    | assumption | refine keeps_fst ?_ (by assumption) | refine State.live_keeps ?_ ?_ 
    | refine syncIn_keeps ?_ | split | intro _ | refine keeps_mk ?_)

theorem execCommit_keeps {pq : List Instr} {src : Option LinkId} {s : State} {t' : State} (hq : Keeps pq s)
    (he : execCommit src s = .next t') : Keeps pq t' := by
  unfold execCommit at he
  injection he with he
  rw [← he]
  try dsimp only
  with_reducible repeat' (
    first
    | assumption | refine keeps_fst ?_ (by assumption) | refine State.live_keeps ?_ ?_ 
    | refine syncIn_keeps ?_ | split | intro _ | refine keeps_mk ?_)

theorem execAbandon_keeps {pq : List Instr} {src : Option LinkId} {s : State} {t' : State} (hq : Keeps pq s)
    (he : execAbandon src s = .next t') : Keeps pq t' := by
  unfold execAbandon at he
  injection he with he
  rw [← he]
  try dsimp only
  with_reducible repeat' (
    first
    | assumption | refine keeps_fst ?_ (by assumption) | refine State.live_keeps ?_ ?_ 
    | refine syncIn_keeps ?_ | split | intro _ | refine keeps_mk ?_)

end Sys2Proof.Machine
end

