-- ==== Sys2Proof/Laws/KeepsHandover.lean ====
section
/-!
SUPPORT. The operations of Handover keep the waiting commands and the canonical memories.
-/

-- The declarations of this file are elaborated in turn, so that checking the package as one text needs few threads.
set_option Elab.async false

namespace Sys2Proof.Machine

theorem abortDesc_keeps {pq : List Instr} {s : State} {r : RingId} {i : Nat} (hq : Keeps pq s) :
    Keeps pq (abortDesc s r i) := by
  unfold abortDesc
  try dsimp only
  with_reducible repeat' (
    first
    | assumption | refine keeps_fst ?_ (by assumption) | refine State.due_keeps ?_
    | refine abortMonitor_keeps ?_ | refine dueDesc_keeps ?_ | split | intro _ | refine keeps_mk ?_)

theorem stopRing_keeps {pq : List Instr} {s : State} {r : RingId} {answers : Bool} (hq : Keeps pq s) :
    Keeps pq (stopRing s r answers) := by
  unfold stopRing
  try dsimp only
  with_reducible repeat' (
    first
    | assumption | refine keeps_fst ?_ (by assumption) | refine keeps_foldl ?_ ?_
    | refine keeps_foldl_pair ?_ ?_ | refine State.setRing_keeps ?_ | refine abortDesc_keeps ?_
    | refine descComplete_keeps ?_ | split | intro _ | refine keeps_mk ?_)

theorem ringOff_keeps {pq : List Instr} {s : State} {r : RingId} (hq : Keeps pq s) :
    Keeps pq (ringOff s r) := by
  unfold ringOff
  try dsimp only
  with_reducible repeat' (
    first
    | assumption | refine keeps_fst ?_ (by assumption) | refine State.wr_keeps ?_ | split | intro _
    | refine keeps_mk ?_)

theorem windowsOff_keeps {pq : List Instr} {s : State} {dead : Bool} (hq : Keeps pq s) :
    Keeps pq (windowsOff s dead) := by
  unfold windowsOff
  try dsimp only
  with_reducible repeat' (
    first
    | assumption | refine keeps_fst ?_ (by assumption) | refine keeps_foldl ?_ ?_
    | refine keeps_foldl_pair ?_ ?_ | refine State.wr_keeps ?_ | split | intro _ | refine keeps_mk ?_)

theorem quiesce_keeps {pq : List Instr} {s : State} {answers dead : Bool} (hq : Keeps pq s) :
    Keeps pq (quiesce s answers dead) := by
  unfold quiesce
  try dsimp only
  with_reducible repeat' (
    first
    | assumption | refine keeps_fst ?_ (by assumption) | refine keeps_foldl ?_ ?_
    | refine keeps_foldl_pair ?_ ?_ | refine ringOff_keeps ?_ | refine setPort_keeps ?_
    | refine stopRing_keeps ?_ | refine windowsOff_keeps ?_ | split | intro _ | refine keeps_mk ?_)

theorem beginHandover_keeps {pq : List Instr} {s : State} {h : Handover} (hq : Keeps pq s) :
    Keeps pq (beginHandover s h) := by
  unfold beginHandover
  try dsimp only
  with_reducible repeat' (
    first
    | assumption | refine keeps_fst ?_ (by assumption) | refine keeps_foldl ?_ ?_
    | refine keeps_foldl_pair ?_ ?_ | refine abortUnstarted_keeps ?_ | split | intro _ | refine keeps_mk ?_)

theorem release_keeps {pq : List Instr} {s : State} (hq : Keeps pq s) :
    Keeps pq (release s) := by
  unfold release
  try dsimp only
  with_reducible repeat' (
    first
    | assumption | refine keeps_fst ?_ (by assumption) | refine beginHandover_keeps ?_ | split | intro _
    | refine keeps_mk ?_)

theorem take__keeps {pq : List Instr} {s : State} (hq : Keeps pq s) :
    Keeps pq (take_ s) := by
  unfold take_
  try dsimp only
  with_reducible repeat' (
    first
    | assumption | refine keeps_fst ?_ (by assumption) | refine State.raise_keeps ?_
    | refine beginHandover_keeps ?_ | refine take_keeps ?_ ?_  | split | intro _ | refine keeps_mk ?_)

theorem handoverDone_keeps {pq : List Instr} {s : State} {answers : Bool} (hq : Keeps pq s) :
    Keeps pq (handoverDone s answers) := by
  unfold handoverDone
  try dsimp only
  with_reducible repeat' (
    first
    | assumption | refine keeps_fst ?_ (by assumption) | refine keeps_snd ?_ (by assumption)
    | refine State.now_keeps ?_ | refine State.orReg_keeps ?_ | refine State.raise_keeps ?_
    | refine State.setRing_keeps ?_ | refine quiesce_keeps ?_ | refine release_keeps ?_
    | refine ringFlow_keeps ?_ | refine take_keeps ?_ ?_  | split | intro _ | refine keeps_mk ?_)

theorem heartbeat_keeps {pq : List Instr} {s : State} (hq : Keeps pq s) :
    Keeps pq (heartbeat s) := by
  unfold heartbeat
  try dsimp only
  with_reducible repeat' (
    first
    | assumption | refine keeps_fst ?_ (by assumption) | split | intro _ | refine keeps_mk ?_)

theorem ownerGone_keeps {pq : List Instr} {s : State} (hq : Keeps pq s) :
    Keeps pq (ownerGone s) := by
  unfold ownerGone
  try dsimp only
  with_reducible repeat' (
    first
    | assumption | refine keeps_fst ?_ (by assumption) | refine State.raise_keeps ?_ | split | intro _
    | refine keeps_mk ?_)

theorem execHoRelease_keeps {pq : List Instr} {b : Sender} {s : State} {t' : State} (hq : Keeps pq s)
    (he : execHoRelease b s = .next t') : Keeps pq t' := by
  unfold execHoRelease at he
  injection he with he
  rw [← he]
  try dsimp only
  with_reducible repeat' (
    first
    | assumption | refine keeps_fst ?_ (by assumption) | refine release_keeps ?_ | split | intro _
    | refine keeps_mk ?_)

theorem execHoTake_keeps {pq : List Instr} {b : Sender} {s : State} {t' : State} (hq : Keeps pq s)
    (he : execHoTake b s = .next t') : Keeps pq t' := by
  unfold execHoTake at he
  injection he with he
  rw [← he]
  try dsimp only
  with_reducible repeat' (
    first
    | assumption | refine keeps_fst ?_ (by assumption) | refine take__keeps ?_ | split | intro _
    | refine keeps_mk ?_)

theorem execHoHeartbeat_keeps {pq : List Instr} {b : Sender} {s : State} {t' : State} (hq : Keeps pq s)
    (he : execHoHeartbeat b s = .next t') : Keeps pq t' := by
  unfold execHoHeartbeat at he
  injection he with he
  rw [← he]
  try dsimp only
  with_reducible repeat' (
    first
    | assumption | refine keeps_fst ?_ (by assumption) | refine heartbeat_keeps ?_ | split | intro _
    | refine keeps_mk ?_)

theorem execHbTimeoutExpiry_keeps {pq : List Instr} {s : State} {t' : State} (hq : Keeps pq s)
    (he : execHbTimeoutExpiry s = .next t') : Keeps pq t' := by
  unfold execHbTimeoutExpiry at he
  injection he with he
  rw [← he]
  try dsimp only
  with_reducible repeat' (
    first
    | assumption | refine keeps_fst ?_ (by assumption) | refine ownerGone_keeps ?_ | split | intro _
    | refine keeps_mk ?_)

theorem execOwnerLinkDownTimer_keeps {pq : List Instr} {s : State} {t' : State} (hq : Keeps pq s)
    (he : execOwnerLinkDownTimer s = .next t') : Keeps pq t' := by
  unfold execOwnerLinkDownTimer at he
  injection he with he
  rw [← he]
  try dsimp only
  with_reducible repeat' (
    first
    | assumption | refine keeps_fst ?_ (by assumption) | refine ownerGone_keeps ?_ | split | intro _
    | refine keeps_mk ?_)

theorem execHandoverComplete_keeps {pq : List Instr} {answers : Bool} {s : State} {t' : State} (hq : Keeps pq s)
    (he : execHandoverComplete answers s = .next t') : Keeps pq t' := by
  unfold execHandoverComplete at he
  injection he with he
  rw [← he]
  try dsimp only
  with_reducible repeat' (
    first
    | assumption | refine keeps_fst ?_ (by assumption) | refine State.live_keeps ?_ ?_ 
    | refine handoverDone_keeps ?_ | split | intro _ | refine keeps_mk ?_)

theorem flrPf_keeps {pq : List Instr} {s : State} {hb answers : Bool} (hq : Keeps pq s) :
    Keeps pq (flrPf s hb answers) := by
  unfold flrPf
  try dsimp only
  with_reducible repeat' (
    first
    | assumption | refine keeps_fst ?_ (by assumption) | refine portReset_keeps ?_ | refine quiesce_keeps ?_
    | split | intro _ | refine keeps_mk ?_)

theorem flrVf_keeps {pq : List Instr} {s : State} {n : Fin 16} {answers : Bool} (hq : Keeps pq s) :
    Keeps pq (flrVf s n answers) := by
  unfold flrVf
  try dsimp only
  with_reducible repeat' (
    first
    | assumption | refine keeps_fst ?_ (by assumption) | refine keeps_foldl ?_ ?_
    | refine keeps_foldl_pair ?_ ?_ | refine fnReset_keeps ?_ | refine ringOff_keeps ?_
    | refine setPort_keeps ?_ | refine stopRing_keeps ?_ | split | intro _ | refine keeps_mk ?_)

theorem pcieWrite_keeps {pq : List Instr} {s : State} {hb : Bool} {fn : Fin 17} {c : PcieCfg} (hq : Keeps pq s) :
    Keeps pq (pcieWrite s hb fn c) := by
  unfold pcieWrite
  try dsimp only
  with_reducible repeat' (
    first
    | assumption | refine keeps_fst ?_ (by assumption) | refine msixFlush_keeps ?_ | refine setPort_keeps ?_
    | split | intro _ | refine keeps_mk ?_)

theorem portUp_keeps {pq : List Instr} {s : State} {hb : Bool} (hq : Keeps pq s) :
    Keeps pq (portUp s hb) := by
  unfold portUp
  try dsimp only
  with_reducible repeat' (
    first
    | assumption | refine keeps_fst ?_ (by assumption) | refine setClk_keeps ?_ | split | intro _
    | refine keeps_mk ?_)

theorem execPortDataLinkDown_keeps {pq : List Instr} {hb : Bool} {s : State} {t' : State} (hq : Keeps pq s)
    (he : execPortDataLinkDown hb s = .next t') : Keeps pq t' := by
  unfold execPortDataLinkDown at he
  injection he with he
  rw [← he]
  try dsimp only
  with_reducible repeat' (
    first
    | assumption | refine keeps_fst ?_ (by assumption) | refine portDown_keeps ?_ | split | intro _
    | refine keeps_mk ?_)

theorem execPortDataLinkUp_keeps {pq : List Instr} {hb : Bool} {s : State} {t' : State} (hq : Keeps pq s)
    (he : execPortDataLinkUp hb s = .next t') : Keeps pq t' := by
  unfold execPortDataLinkUp at he
  injection he with he
  rw [← he]
  try dsimp only
  with_reducible repeat' (
    first
    | assumption | refine keeps_fst ?_ (by assumption) | refine portUp_keeps ?_ | split | intro _
    | refine keeps_mk ?_)

theorem execFlrPf_keeps {pq : List Instr} {hb answers : Bool} {s : State} {t' : State} (hq : Keeps pq s)
    (he : execFlrPf hb answers s = .next t') : Keeps pq t' := by
  unfold execFlrPf at he
  injection he with he
  rw [← he]
  try dsimp only
  with_reducible repeat' (
    first
    | assumption | refine keeps_fst ?_ (by assumption) | refine flrPf_keeps ?_ | split | intro _
    | refine keeps_mk ?_)

theorem execFlrVf_keeps {pq : List Instr} {n : Fin 16} {answers : Bool} {s : State} {t' : State} (hq : Keeps pq s)
    (he : execFlrVf n answers s = .next t') : Keeps pq t' := by
  unfold execFlrVf at he
  injection he with he
  rw [← he]
  try dsimp only
  with_reducible repeat' (
    first
    | assumption | refine keeps_fst ?_ (by assumption) | refine flrVf_keeps ?_ | split | intro _
    | refine keeps_mk ?_)

theorem execPerstNStandby_keeps {pq : List Instr} {s : State} {t' : State} (hq : Keeps pq s)
    (he : execPerstNStandby s = .next t') : Keeps pq t' := by
  unfold execPerstNStandby at he
  injection he with he
  rw [← he]
  try dsimp only
  with_reducible repeat' (
    first
    | assumption | refine keeps_fst ?_ (by assumption) | refine portReset_keeps ?_ | refine setPerst_keeps ?_
    | split | intro _ | refine keeps_mk ?_)

theorem execPcieConfigWrite_keeps {pq : List Instr} {hb : Bool} {fn : Fin 17} {c : PcieCfg} {s : State} {t' : State} (hq : Keeps pq s)
    (he : execPcieConfigWrite hb fn c s = .next t') : Keeps pq t' := by
  unfold execPcieConfigWrite at he
  injection he with he
  rw [← he]
  try dsimp only
  with_reducible repeat' (
    first
    | assumption | refine keeps_fst ?_ (by assumption) | refine pcieWrite_keeps ?_ | split | intro _
    | refine keeps_mk ?_)

theorem execCompletionTimeoutExpiry_keeps {pq : List Instr} {w : HostWait} {s : State} {t' : State} (hq : Keeps pq s)
    (he : execCompletionTimeoutExpiry w s = .next t') : Keeps pq t' := by
  unfold execCompletionTimeoutExpiry at he
  injection he with he
  rw [← he]
  try dsimp only
  with_reducible repeat' (
    first
    | assumption | refine keeps_fst ?_ (by assumption) | refine State.live_keeps ?_ ?_ 
    | refine dmaHostTimeout_keeps ?_ | refine ringTimeout_keeps ?_ | split | intro _ | refine keeps_mk ?_)

theorem dropWrite_keeps {pq : List Instr} {s : State} {b : Sender} {o : Nat} {e : Tlp} (hq : Keeps pq s) :
    Keeps pq (dropWrite s b o e) := by
  unfold dropWrite
  try dsimp only
  with_reducible repeat' (
    first
    | assumption | refine keeps_fst ?_ (by assumption) | refine hostError_keeps ?_ | refine setPort_keeps ?_
    | split | intro _ | refine keeps_mk ?_)

theorem reply_keeps {pq : List Instr} {s : State} {write : Bool} {o : HostOut} (hq : Keeps pq s) :
    Keeps pq (reply s write o) := by
  unfold reply
  try dsimp only
  with_reducible repeat' (
    first
    | assumption | refine keeps_fst ?_ (by assumption) | refine answer_keeps ?_ | split | intro _
    | refine keeps_mk ?_)

theorem barGo_keeps {pq : List Instr} {s : State} {c : CoreId} {job : Option Nat} {off len : Nat} {data : Option (List Byte)} (hq : Keeps pq s) :
    Keeps pq (barGo s c job off len data) := by
  unfold barGo
  try dsimp only
  with_reducible repeat' (
    first
    | assumption | refine keeps_fst ?_ (by assumption) | refine answer_keeps ?_ | refine spReadAny_keeps ?_
    | refine spWriteAny_keeps ?_ | split | intro _ | refine keeps_mk ?_)

theorem barChecked_keeps {pq : List Instr} {s : State} {w : BarWait} (hq : Keeps pq s) :
    Keeps pq (barChecked s w) := by
  unfold barChecked
  try dsimp only
  with_reducible repeat' (
    first
    | assumption | refine keeps_fst ?_ (by assumption) | refine State.count_keeps ?_
    | refine State.raise_keeps ?_ | refine barGo_keeps ?_ | refine reply_keeps ?_ | refine winReject_keeps ?_
    | split | intro _ | refine keeps_mk ?_)

theorem barTry_keeps {pq : List Instr} {s : State} {w : BarWait} (hq : Keeps pq s) :
    Keeps pq (barTry s w) := by
  unfold barTry
  try dsimp only
  with_reducible repeat' (
    first
    | assumption | refine keeps_fst ?_ (by assumption) | refine barChecked_keeps ?_ | split | intro _
    | refine keeps_mk ?_)

theorem retryHost_keeps {pq : List Instr} {s : State} (hq : Keeps pq s) :
    Keeps pq (retryHost s) := by
  unfold retryHost
  try dsimp only
  with_reducible repeat' (
    first
    | assumption | refine keeps_fst ?_ (by assumption) | refine keeps_foldl ?_ ?_
    | refine keeps_foldl_pair ?_ ?_ | refine barTry_keeps ?_ | refine retryWords_keeps ?_ | split | intro _
    | refine keeps_mk ?_)

theorem bar4_keeps {pq : List Instr} {s : State} {b : Sender} {o len : Nat} {data : Option (List Byte)} (hq : Keeps pq s) :
    Keeps pq (bar4 s b o len data) := by
  unfold bar4
  try dsimp only
  with_reducible repeat' (
    first
    | assumption | refine keeps_fst ?_ (by assumption) | refine barGo_keeps ?_ | refine barTry_keeps ?_
    | refine reply_keeps ?_ | split | intro _ | refine keeps_mk ?_)

theorem execBar4Access_keeps {pq : List Instr} {b : Sender} {o len : Nat} {data : Option (List Byte)} {us : List Upset} {s : State} {e : Tlp} {t' : State} (hq : Keeps pq s)
    (he : execBar4Access b o len data us s e = .next t') : Keeps pq t' := by
  unfold execBar4Access at he
  injection he with he
  rw [← he]
  try dsimp only
  with_reducible repeat' (
    first
    | assumption | refine keeps_fst ?_ (by assumption) | refine bar4_keeps ?_ | refine dropWrite_keeps ?_
    | refine strike_keeps ?_ | split | intro _ | refine keeps_mk ?_)

theorem execWindowAccessRetry_keeps {pq : List Instr} {w : Waiter} {us : List Upset} {err : Option CxlErr} {s : State} {t' : State} (hq : Keeps pq s)
    (he : execWindowAccessRetry w us err s = .next t') : Keeps pq t' := by
  unfold execWindowAccessRetry at he
  injection he with he
  rw [← he]
  try dsimp only
  with_reducible repeat' (
    first
    | assumption | refine keeps_fst ?_ (by assumption) | refine State.live_keeps ?_ ?_ 
    | refine dmaGo_keeps ?_ | refine retryHost_keeps ?_ | refine retryWaits_keeps ?_ | refine strike_keeps ?_
    | split | intro _ | refine keeps_mk ?_)

end Sys2Proof.Machine
end

