-- ==== Sys2Proof/Laws/KeepsSecurity.lean ====
section
/-!
SUPPORT. The operations of Security keep the waiting commands and the canonical memories.
-/

-- The declarations of this file are elaborated in turn, so that checking the package as one text needs few threads.
set_option Elab.async false

namespace Sys2Proof.Machine

theorem secBufWrite_keeps {pq : List Instr} {s : State} {bs : List Byte} (hq : Keeps pq s) :
    Keeps pq (secBufWrite s bs) := by
  unfold secBufWrite
  try dsimp only
  with_reducible repeat' (
    first
    | assumption | refine keeps_fst ?_ (by assumption) | refine keeps_foldl ?_ ?_
    | refine keeps_foldl_pair ?_ ?_ | refine State.wr_keeps ?_ | refine take_keeps ?_ ?_  | split | intro _
    | refine keeps_mk ?_)

theorem secResult_keeps {pq : List Instr} {s : State} {status : Nat} {busy : Bool} {len : Nat} (hq : Keeps pq s) :
    Keeps pq (secResult s status busy len) := by
  unfold secResult
  try dsimp only
  with_reducible repeat' (
    first
    | assumption | refine keeps_fst ?_ (by assumption) | refine State.wr_keeps ?_ | split | intro _
    | refine keeps_mk ?_)

theorem secDone_keeps {pq : List Instr} {s : State} {status : Nat} {data : List Byte} (hq : Keeps pq s) :
    Keeps pq (secDone s status data) := by
  unfold secDone
  try dsimp only
  with_reducible repeat' (
    first
    | assumption | refine keeps_fst ?_ (by assumption) | refine secBufWrite_keeps ?_
    | refine secResult_keeps ?_ | split | intro _ | refine keeps_mk ?_)

theorem secSettle_keeps {pq : List Instr} {x0 : Nat} {x1 : State} (hq : Keeps pq x1) :
    Keeps pq (secSettle x0 x1) := by
  induction x0 generalizing x1 with
  | zero => simp only [secSettle]; exact hq
  | succ n ih =>
    unfold secSettle
    try dsimp only
    with_reducible repeat' (
      first
      | assumption | refine keeps_fst ?_ (by assumption) | refine keeps_snd ?_ (by assumption) | refine ih ?_
      | refine secDone_keeps ?_ | split | intro _ | refine keeps_mk ?_)

theorem secTrim_keeps {pq : List Instr} {s : State} (hq : Keeps pq s) :
    Keeps pq (secTrim s) := by
  unfold secTrim
  try dsimp only
  with_reducible repeat' (
    first
    | assumption | refine keeps_fst ?_ (by assumption) | refine secSettle_keeps ?_ | split | intro _
    | refine keeps_mk ?_)

theorem secEnqueue_keeps {pq : List Instr} {s : State} {c : SecCmd} (hq : Keeps pq s) :
    Keeps pq (secEnqueue s c) := by
  unfold secEnqueue
  try dsimp only
  with_reducible repeat' (
    first
    | assumption | refine keeps_fst ?_ (by assumption) | refine secResult_keeps ?_ | refine secTrim_keeps ?_
    | split | intro _ | refine keeps_mk ?_)

theorem secCmdWrite_keeps {pq : List Instr} {s : State} {v : W64} (hq : Keeps pq s) :
    Keeps pq (secCmdWrite s v) := by
  unfold secCmdWrite
  try dsimp only
  with_reducible repeat' (
    first
    | assumption | refine keeps_fst ?_ (by assumption) | refine State.wr_keeps ?_
    | refine secEnqueue_keeps ?_ | split | intro _ | refine keeps_mk ?_)

theorem secRun_keeps {pq : List Instr} {code : Nat} {m : Option (Nat × List Byte)} {p : Via} {run : SecCmd → State → State × Nat × List Byte} {s : State} (hq : Keeps pq s) (hf1 : ∀ (a0 : SecCmd) (a1 : State), Keeps pq a1 → Keeps pq (run a0 a1).1) :
    Keeps pq (secRun code m p run s) := by
  unfold secRun
  try dsimp only
  with_reducible repeat' (
    first
    | assumption | refine keeps_fst ?_ (by assumption) | refine secDone_keeps ?_ | refine secEnqueue_keeps ?_
    | refine secTrim_keeps ?_ | refine hf1 _ ?_ | refine hf1 _ _ ?_ | refine hf1 _ _ _ ?_ | split | intro _
    | refine keeps_mk ?_)

theorem attest_keeps {pq : List Instr} {c : SecCmd} {s : State} (hq : Keeps pq s) :
    Keeps pq (attest c s).1 := by
  unfold attest
  try dsimp only
  with_reducible repeat' (
    first
    | assumption | refine keeps_fst ?_ (by assumption) | refine keeps_snd ?_ (by assumption)
    | refine State.fresh_keeps ?_ | refine State.now_keeps ?_ | refine secEv_keeps ?_ | split | intro _
    | refine keeps_mk ?_)

theorem execAttest_keeps {pq : List Instr} {m : Option (Nat × List Byte)} {s : State} {p : Via} {t' : State} (hq : Keeps pq s)
    (he : execAttest m s p = .next t') : Keeps pq t' := by
  unfold execAttest at he
  injection he with he
  rw [← he]
  try dsimp only
  with_reducible repeat' (
    first
    | assumption | refine keeps_fst ?_ (by assumption) | refine attest_keeps ?_ | refine secRun_keeps ?_ ?_ 
    | split | intro _ | refine keeps_mk ?_)

theorem getCert_keeps {pq : List Instr} {c : SecCmd} {s : State} (hq : Keeps pq s) :
    Keeps pq (getCert c s).1 := by
  unfold getCert
  try dsimp only
  with_reducible repeat' (
    first
    | assumption | refine keeps_fst ?_ (by assumption) | split | intro _ | refine keeps_mk ?_)

theorem execGetCert_keeps {pq : List Instr} {m : Option (Nat × List Byte)} {s : State} {p : Via} {t' : State} (hq : Keeps pq s)
    (he : execGetCert m s p = .next t') : Keeps pq t' := by
  unfold execGetCert at he
  injection he with he
  rw [← he]
  try dsimp only
  with_reducible repeat' (
    first
    | assumption | refine keeps_fst ?_ (by assumption) | refine getCert_keeps ?_ | refine secRun_keeps ?_ ?_ 
    | split | intro _ | refine keeps_mk ?_)

theorem enrol_keeps {pq : List Instr} {c : SecCmd} {s : State} (h : Keeps pq s) : Keeps pq (enrol c s).1 := by
  have hf := h.2.2.2.2.1
  have hs := h.2.2.2.2.2
  unfold enrol
  generalize 0x1010000 = top
  dsimp only
  split
  · exact h
  · dsimp only
    with_reducible exact secEv_keeps (keeps_sec h (memory_write_wf _ _ _ hf) hs)

theorem revoke_keeps {pq : List Instr} {c : SecCmd} {s : State} (h : Keeps pq s) : Keeps pq (revoke c s).1 := by
  have hf := h.2.2.2.2.1
  have hs := h.2.2.2.2.2
  unfold revoke
  generalize 0x1010000 = top
  split
  · exact h
  · dsimp only
    with_reducible exact secEv_keeps (keeps_sec h (memory_zero_wf _ _ _ hf) hs)

theorem execEnrol_keeps {pq : List Instr} {m : Option (Nat × List Byte)} {s : State} {p : Via} {t' : State} (hq : Keeps pq s)
    (he : execEnrol m s p = .next t') : Keeps pq t' := by
  unfold execEnrol at he
  injection he with he
  rw [← he]
  try dsimp only
  with_reducible repeat' (
    first
    | assumption | refine keeps_fst ?_ (by assumption) | refine enrol_keeps ?_ | refine secRun_keeps ?_ ?_ 
    | split | intro _ | refine keeps_mk ?_)

theorem execRevoke_keeps {pq : List Instr} {m : Option (Nat × List Byte)} {s : State} {p : Via} {t' : State} (hq : Keeps pq s)
    (he : execRevoke m s p = .next t') : Keeps pq t' := by
  unfold execRevoke at he
  injection he with he
  rw [← he]
  try dsimp only
  with_reducible repeat' (
    first
    | assumption | refine keeps_fst ?_ (by assumption) | refine revoke_keeps ?_ | refine secRun_keeps ?_ ?_ 
    | split | intro _ | refine keeps_mk ?_)

theorem stage_keeps {pq : List Instr} {c : SecCmd} {s : State} (h : Keeps pq s) : Keeps pq (stage c s).1 := by
  unfold stage
  split
  · exact h
  · exact keeps_sec h h.2.2.2.2.1 (memory_write_wf _ _ _ h.2.2.2.2.2)

theorem writeSlot_keeps {pq : List Instr} {s : State} (h : Keeps pq s) : Keeps pq (writeSlot s) := by
  unfold writeSlot
  generalize 0x1000000 = top
  refine keeps_sec h (memory_append_wf _ _ top (memory_filter_wf _ _ h.2.2.2.2.2) (memory_filter_wf _ _ h.2.2.2.2.1)
    ?_ ?_) h.2.2.2.2.2
  · intro e he
    have := (List.mem_filter.mp he).2
    simp only [decide_eq_true_eq] at this
    exact Nat.lt_of_lt_of_le this (Nat.min_le_right _ _)
  · intro e he
    have := (List.mem_filter.mp he).2
    simpa only [decide_eq_true_eq] using this

theorem commitImage_keeps {pq : List Instr} {s : State} {flashOk : Bool} (h : Keeps pq s) :
    Keeps pq (commitImage s flashOk).1 := by
  unfold commitImage
  generalize 0x1000000 = top
  split
  · with_reducible exact secEv_keeps h
  · split
    · have h1 : Keeps pq s.fresh.2 := State.fresh_keeps h
      have hf := h1.2.2.2.2.1
      have hs := h1.2.2.2.2.2
      dsimp only
      with_reducible exact keeps_sec h1 (memory_write_wf _ _ _ (memory_filter_wf _ _ hf)) hs
    · dsimp only
      split
      · with_reducible exact writeSlot_keeps h
      · with_reducible exact secEv_keeps (writeSlot_keeps h)

theorem commitFw_keeps {pq : List Instr} {flashOk : Bool} {u_ : SecCmd} {s : State} (hq : Keeps pq s) :
    Keeps pq (commitFw flashOk u_ s).1 := by
  unfold commitFw
  try dsimp only
  with_reducible repeat' (
    first
    | assumption | refine keeps_fst ?_ (by assumption) | refine commitImage_keeps ?_
    | refine mgrReset_keeps ?_ | split | intro _ | refine keeps_mk ?_)

theorem activate_keeps {pq : List Instr} {u_ : SecCmd} {s : State} (hq : Keeps pq s) :
    Keeps pq (activate u_ s).1 := by
  unfold activate
  try dsimp only
  with_reducible repeat' (
    first
    | assumption | refine keeps_fst ?_ (by assumption) | refine mgrReset_keeps ?_ | split | intro _
    | refine keeps_mk ?_)

theorem execStage_keeps {pq : List Instr} {s : State} {t' : State} (hq : Keeps pq s)
    (he : execStage s = .next t') : Keeps pq t' := by
  unfold execStage at he
  injection he with he
  rw [← he]
  try dsimp only
  with_reducible repeat' (
    first
    | assumption | refine keeps_fst ?_ (by assumption) | refine secRun_keeps ?_ ?_  | refine stage_keeps ?_
    | split | intro _ | refine keeps_mk ?_)

theorem execCommitFw_keeps {pq : List Instr} {flashOk : Bool} {s : State} {t' : State} (hq : Keeps pq s)
    (he : execCommitFw flashOk s = .next t') : Keeps pq t' := by
  unfold execCommitFw at he
  injection he with he
  rw [← he]
  try dsimp only
  with_reducible repeat' (
    first
    | assumption | refine keeps_fst ?_ (by assumption) | refine commitFw_keeps ?_
    | refine secRun_keeps ?_ ?_  | split | intro _ | refine keeps_mk ?_)

theorem execActivate_keeps {pq : List Instr} {s : State} {t' : State} (hq : Keeps pq s)
    (he : execActivate s = .next t') : Keeps pq t' := by
  unfold execActivate at he
  injection he with he
  rw [← he]
  try dsimp only
  with_reducible repeat' (
    first
    | assumption | refine keeps_fst ?_ (by assumption) | refine activate_keeps ?_
    | refine secRun_keeps ?_ ?_  | split | intro _ | refine keeps_mk ?_)

end Sys2Proof.Machine
end

