-- ==== Sys2Proof/Laws/KeepsMctp.lean ====
section
/-!
SUPPORT. The operations of Mctp keep the waiting commands and the canonical memories.
-/

-- The declarations of this file are elaborated in turn, so that checking the package as one text needs few threads.
set_option Elab.async false

namespace Sys2Proof.Machine

theorem fdSends_keeps {pq : List Instr} {s : State} {p : Via} {code : Nat} {bs : List Byte} (hq : Keeps pq s) :
    Keeps pq (fdSends s p code bs) := by
  unfold fdSends
  try dsimp only
  with_reducible repeat' (
    first
    | assumption | refine keeps_fst ?_ (by assumption) | split | intro _ | refine keeps_mk ?_)

theorem mctp_keeps {pq : List Instr} {code : Nat} {p : Via} {body : State → State × List Byte} {s : State} (hq : Keeps pq s) (hf1 : ∀ (a0 : State), Keeps pq a0 → Keeps pq (body a0).1) :
    Keeps pq (mctp code p body s) := by
  unfold mctp
  try dsimp only
  with_reducible repeat' (
    first
    | assumption | refine keeps_fst ?_ (by assumption) | refine fdSends_keeps ?_ | refine hf1 _ ?_
    | refine hf1 _ _ ?_ | refine hf1 _ _ _ ?_ | split | intro _ | refine keeps_mk ?_)

theorem answers_keeps {pq : List Instr} {bs : State → List Byte} {s : State} (hq : Keeps pq s) :
    Keeps pq (answers bs s).1 := by
  unfold answers
  try dsimp only
  with_reducible repeat' (
    first
    | assumption | refine keeps_fst ?_ (by assumption) | split | intro _ | refine keeps_mk ?_)

theorem setEid_keeps {pq : List Instr} {op eid : Nat} {s : State} (hq : Keeps pq s) :
    Keeps pq (setEid op eid s).1 := by
  unfold setEid
  try dsimp only
  with_reducible repeat' (
    first
    | assumption | refine keeps_fst ?_ (by assumption) | split | intro _ | refine keeps_mk ?_)

theorem execSetEndpointId_keeps {pq : List Instr} {op eid : Byte} {s : State} {p : Via} {t' : State} (hq : Keeps pq s)
    (he : execSetEndpointId op eid s p = .next t') : Keeps pq t' := by
  unfold execSetEndpointId at he
  injection he with he
  rw [← he]
  try dsimp only
  with_reducible repeat' (
    first
    | assumption | refine keeps_fst ?_ (by assumption) | refine mctp_keeps ?_ ?_  | refine setEid_keeps ?_
    | split | intro _ | refine keeps_mk ?_)

theorem execGetEndpointId_keeps {pq : List Instr} {s : State} {p : Via} {t' : State} (hq : Keeps pq s)
    (he : execGetEndpointId s p = .next t') : Keeps pq t' := by
  unfold execGetEndpointId at he
  injection he with he
  rw [← he]
  try dsimp only
  with_reducible repeat' (
    first
    | assumption | refine keeps_fst ?_ (by assumption) | refine answers_keeps ?_ | refine mctp_keeps ?_ ?_ 
    | split | intro _ | refine keeps_mk ?_)

theorem execGetMctpVersionSupport_keeps {pq : List Instr} {typ : Byte} {s : State} {p : Via} {t' : State} (hq : Keeps pq s)
    (he : execGetMctpVersionSupport typ s p = .next t') : Keeps pq t' := by
  unfold execGetMctpVersionSupport at he
  injection he with he
  rw [← he]
  try dsimp only
  with_reducible repeat' (
    first
    | assumption | refine keeps_fst ?_ (by assumption) | refine answers_keeps ?_ | refine mctp_keeps ?_ ?_ 
    | split | intro _ | refine keeps_mk ?_)

theorem execGetMessageTypeSupport_keeps {pq : List Instr} {s : State} {p : Via} {t' : State} (hq : Keeps pq s)
    (he : execGetMessageTypeSupport s p = .next t') : Keeps pq t' := by
  unfold execGetMessageTypeSupport at he
  injection he with he
  rw [← he]
  try dsimp only
  with_reducible repeat' (
    first
    | assumption | refine keeps_fst ?_ (by assumption) | refine answers_keeps ?_ | refine mctp_keeps ?_ ?_ 
    | split | intro _ | refine keeps_mk ?_)

theorem execGetVendorDefinedMessageSupport_keeps {pq : List Instr} {sel : Byte} {s : State} {p : Via} {t' : State} (hq : Keeps pq s)
    (he : execGetVendorDefinedMessageSupport sel s p = .next t') : Keeps pq t' := by
  unfold execGetVendorDefinedMessageSupport at he
  injection he with he
  rw [← he]
  try dsimp only
  with_reducible repeat' (
    first
    | assumption | refine keeps_fst ?_ (by assumption) | refine answers_keeps ?_ | refine mctp_keeps ?_ ?_ 
    | split | intro _ | refine keeps_mk ?_)

theorem execGetTid_keeps {pq : List Instr} {s : State} {p : Via} {t' : State} (hq : Keeps pq s)
    (he : execGetTid s p = .next t') : Keeps pq t' := by
  unfold execGetTid at he
  injection he with he
  rw [← he]
  try dsimp only
  with_reducible repeat' (
    first
    | assumption | refine keeps_fst ?_ (by assumption) | refine answers_keeps ?_ | refine mctp_keeps ?_ ?_ 
    | split | intro _ | refine keeps_mk ?_)

theorem execGetPldmVersion_keeps {pq : List Instr} {typ : Byte} {s : State} {p : Via} {t' : State} (hq : Keeps pq s)
    (he : execGetPldmVersion typ s p = .next t') : Keeps pq t' := by
  unfold execGetPldmVersion at he
  injection he with he
  rw [← he]
  try dsimp only
  with_reducible repeat' (
    first
    | assumption | refine keeps_fst ?_ (by assumption) | refine answers_keeps ?_ | refine mctp_keeps ?_ ?_ 
    | split | intro _ | refine keeps_mk ?_)

theorem execGetPldmTypes_keeps {pq : List Instr} {s : State} {p : Via} {t' : State} (hq : Keeps pq s)
    (he : execGetPldmTypes s p = .next t') : Keeps pq t' := by
  unfold execGetPldmTypes at he
  injection he with he
  rw [← he]
  try dsimp only
  with_reducible repeat' (
    first
    | assumption | refine keeps_fst ?_ (by assumption) | refine answers_keeps ?_ | refine mctp_keeps ?_ ?_ 
    | split | intro _ | refine keeps_mk ?_)

theorem execGetPldmCommands_keeps {pq : List Instr} {typ : Byte} {version : BitVec 32} {s : State} {p : Via} {t' : State} (hq : Keeps pq s)
    (he : execGetPldmCommands typ version s p = .next t') : Keeps pq t' := by
  unfold execGetPldmCommands at he
  injection he with he
  rw [← he]
  try dsimp only
  with_reducible repeat' (
    first
    | assumption | refine keeps_fst ?_ (by assumption) | refine answers_keeps ?_ | refine mctp_keeps ?_ ?_ 
    | split | intro _ | refine keeps_mk ?_)

theorem execGetSensorReading_keeps {pq : List Instr} {id : BitVec 16} {s : State} {p : Via} {t' : State} (hq : Keeps pq s)
    (he : execGetSensorReading id s p = .next t') : Keeps pq t' := by
  unfold execGetSensorReading at he
  injection he with he
  rw [← he]
  try dsimp only
  with_reducible repeat' (
    first
    | assumption | refine keeps_fst ?_ (by assumption) | refine answers_keeps ?_ | refine mctp_keeps ?_ ?_ 
    | split | intro _ | refine keeps_mk ?_)

theorem execGetStateSensorReadings_keeps {pq : List Instr} {id : BitVec 16} {s : State} {p : Via} {t' : State} (hq : Keeps pq s)
    (he : execGetStateSensorReadings id s p = .next t') : Keeps pq t' := by
  unfold execGetStateSensorReadings at he
  injection he with he
  rw [← he]
  try dsimp only
  with_reducible repeat' (
    first
    | assumption | refine keeps_fst ?_ (by assumption) | refine answers_keeps ?_ | refine mctp_keeps ?_ ?_ 
    | split | intro _ | refine keeps_mk ?_)

theorem execGetPdrRepositoryInfo_keeps {pq : List Instr} {s : State} {p : Via} {t' : State} (hq : Keeps pq s)
    (he : execGetPdrRepositoryInfo s p = .next t') : Keeps pq t' := by
  unfold execGetPdrRepositoryInfo at he
  injection he with he
  rw [← he]
  try dsimp only
  with_reducible repeat' (
    first
    | assumption | refine keeps_fst ?_ (by assumption) | refine answers_keeps ?_ | refine mctp_keeps ?_ ?_ 
    | split | intro _ | refine keeps_mk ?_)

theorem execGetPdr_keeps {pq : List Instr} {handle : BitVec 32} {s : State} {p : Via} {t' : State} (hq : Keeps pq s)
    (he : execGetPdr handle s p = .next t') : Keeps pq t' := by
  unfold execGetPdr at he
  injection he with he
  rw [← he]
  try dsimp only
  with_reducible repeat' (
    first
    | assumption | refine keeps_fst ?_ (by assumption) | refine answers_keeps ?_ | refine mctp_keeps ?_ ?_ 
    | split | intro _ | refine keeps_mk ?_)

theorem setUpd_keeps {pq : List Instr} {s : State} {u : Update} (hq : Keeps pq s) :
    Keeps pq (setUpd s u) := by
  unfold setUpd
  try dsimp only
  with_reducible repeat' (
    first
    | assumption | refine keeps_fst ?_ (by assumption) | split | intro _ | refine keeps_mk ?_)

theorem requestUpdate_keeps {pq : List Instr} {size : Nat} {s : State} (hq : Keeps pq s) :
    Keeps pq (requestUpdate size s).1 := by
  unfold requestUpdate
  try dsimp only
  with_reducible repeat' (
    first
    | assumption | refine keeps_fst ?_ (by assumption) | refine setUpd_keeps ?_ | split | intro _
    | refine keeps_mk ?_)

theorem passTable_keeps {pq : List Instr} {s : State} (hq : Keeps pq s) :
    Keeps pq (passTable s).1 := by
  unfold passTable
  try dsimp only
  with_reducible repeat' (
    first
    | assumption | refine keeps_fst ?_ (by assumption) | refine setUpd_keeps ?_ | split | intro _
    | refine keeps_mk ?_)

theorem requestData_keeps {pq : List Instr} {s : State} {p : Via} {len : Nat} (hq : Keeps pq s) :
    Keeps pq (requestData s p len) := by
  unfold requestData
  try dsimp only
  with_reducible repeat' (
    first
    | assumption | refine keeps_fst ?_ (by assumption) | refine keeps_foldl ?_ ?_
    | refine keeps_foldl_pair ?_ ?_ | refine fdSends_keeps ?_ | split | intro _ | refine keeps_mk ?_)

theorem updateComponent_keeps {pq : List Instr} {p : Via} {image : List Byte} {flashOk : Bool} {s : State} (h : Keeps pq s) :
    Keeps pq (updateComponent p image flashOk s).1 := by
  unfold updateComponent
  generalize 0x1000000 = top
  split
  · exact h
  · exact h
  · have h1 : ∀ n, Keeps pq (requestData s p n) := fun n => requestData_keeps h
    have h2 : Keeps pq (commitImage (fdSends { requestData s p (image.take top).length with
        sec := { (requestData s p (image.take top).length).sec with staging := Memory.write [] 0 (image.take top) } }
        p 0x16 (leBytes 1 0)) flashOk).1 :=
      commitImage_keeps (fdSends_keeps (keeps_sec (h1 _) (h1 _).2.2.2.2.1 (memory_write_wf _ _ _ rfl)))
    dsimp only
    split
    · exact setUpd_keeps (fdSends_keeps (fdSends_keeps (keeps_fst h2 (by assumption))))
    · exact keeps_mk (setUpd_keeps (fdSends_keeps (fdSends_keeps (keeps_fst h2 (by assumption)))))
    · exact keeps_mk (setUpd_keeps (fdSends_keeps (keeps_fst h2 (by assumption))))

theorem activateFirmware_keeps {pq : List Instr} {s : State} (hq : Keeps pq s) :
    Keeps pq (activateFirmware s).1 := by
  unfold activateFirmware
  try dsimp only
  with_reducible repeat' (
    first
    | assumption | refine keeps_fst ?_ (by assumption) | refine mgrReset_keeps ?_ | split | intro _
    | refine keeps_mk ?_)

theorem cancelUpdate_keeps {pq : List Instr} {s : State} (hq : Keeps pq s) :
    Keeps pq (cancelUpdate s).1 := by
  unfold cancelUpdate
  try dsimp only
  with_reducible repeat' (
    first
    | assumption | refine keeps_fst ?_ (by assumption) | refine setUpd_keeps ?_ | split | intro _
    | refine keeps_mk ?_)

theorem execQueryDeviceIdentifiers_keeps {pq : List Instr} {s : State} {p : Via} {t' : State} (hq : Keeps pq s)
    (he : execQueryDeviceIdentifiers s p = .next t') : Keeps pq t' := by
  unfold execQueryDeviceIdentifiers at he
  injection he with he
  rw [← he]
  try dsimp only
  with_reducible repeat' (
    first
    | assumption | refine keeps_fst ?_ (by assumption) | refine answers_keeps ?_ | refine mctp_keeps ?_ ?_ 
    | split | intro _ | refine keeps_mk ?_)

theorem execGetFirmwareParameters_keeps {pq : List Instr} {s : State} {p : Via} {t' : State} (hq : Keeps pq s)
    (he : execGetFirmwareParameters s p = .next t') : Keeps pq t' := by
  unfold execGetFirmwareParameters at he
  injection he with he
  rw [← he]
  try dsimp only
  with_reducible repeat' (
    first
    | assumption | refine keeps_fst ?_ (by assumption) | refine answers_keeps ?_ | refine mctp_keeps ?_ ?_ 
    | split | intro _ | refine keeps_mk ?_)

theorem execRequestUpdate_keeps {pq : List Instr} {size : BitVec 32} {s : State} {p : Via} {t' : State} (hq : Keeps pq s)
    (he : execRequestUpdate size s p = .next t') : Keeps pq t' := by
  unfold execRequestUpdate at he
  injection he with he
  rw [← he]
  try dsimp only
  with_reducible repeat' (
    first
    | assumption | refine keeps_fst ?_ (by assumption) | refine mctp_keeps ?_ ?_ 
    | refine requestUpdate_keeps ?_ | split | intro _ | refine keeps_mk ?_)

theorem execPassComponentTable_keeps {pq : List Instr} {s : State} {p : Via} {t' : State} (hq : Keeps pq s)
    (he : execPassComponentTable s p = .next t') : Keeps pq t' := by
  unfold execPassComponentTable at he
  injection he with he
  rw [← he]
  try dsimp only
  with_reducible repeat' (
    first
    | assumption | refine keeps_fst ?_ (by assumption) | refine mctp_keeps ?_ ?_  | refine passTable_keeps ?_
    | split | intro _ | refine keeps_mk ?_)

theorem execUpdateComponent_keeps {pq : List Instr} {image : List Byte} {flashOk : Bool} {s : State} {p : Via} {t' : State} (hq : Keeps pq s)
    (he : execUpdateComponent image flashOk s p = .next t') : Keeps pq t' := by
  unfold execUpdateComponent at he
  injection he with he
  rw [← he]
  try dsimp only
  with_reducible repeat' (
    first
    | assumption | refine keeps_fst ?_ (by assumption) | refine mctp_keeps ?_ ?_ 
    | refine updateComponent_keeps ?_ | split | intro _ | refine keeps_mk ?_)

theorem execActivateFirmware_keeps {pq : List Instr} {s : State} {p : Via} {t' : State} (hq : Keeps pq s)
    (he : execActivateFirmware s p = .next t') : Keeps pq t' := by
  unfold execActivateFirmware at he
  injection he with he
  rw [← he]
  try dsimp only
  with_reducible repeat' (
    first
    | assumption | refine keeps_fst ?_ (by assumption) | refine activateFirmware_keeps ?_
    | refine mctp_keeps ?_ ?_  | split | intro _ | refine keeps_mk ?_)

theorem execGetStatus_keeps {pq : List Instr} {s : State} {p : Via} {t' : State} (hq : Keeps pq s)
    (he : execGetStatus s p = .next t') : Keeps pq t' := by
  unfold execGetStatus at he
  injection he with he
  rw [← he]
  try dsimp only
  with_reducible repeat' (
    first
    | assumption | refine keeps_fst ?_ (by assumption) | refine answers_keeps ?_ | refine mctp_keeps ?_ ?_ 
    | split | intro _ | refine keeps_mk ?_)

theorem execCancelUpdate_keeps {pq : List Instr} {s : State} {p : Via} {t' : State} (hq : Keeps pq s)
    (he : execCancelUpdate s p = .next t') : Keeps pq t' := by
  unfold execCancelUpdate at he
  injection he with he
  rw [← he]
  try dsimp only
  with_reducible repeat' (
    first
    | assumption | refine keeps_fst ?_ (by assumption) | refine cancelUpdate_keeps ?_
    | refine mctp_keeps ?_ ?_  | split | intro _ | refine keeps_mk ?_)

end Sys2Proof.Machine
end

