-- ==== Sys2Proof/Laws/KeepsRegAccess.lean ====
section
/-!
SUPPORT. The operations of RegAccess keep the waiting commands and the canonical memories.
-/

-- The declarations of this file are elaborated in turn, so that checking the package as one text needs few threads.
set_option Elab.async false

namespace Sys2Proof.Machine

theorem coreRead_keeps {pq : List Instr} {s t : State} {c : CoreId} {o : Nat} {v : W64} (h : Keeps pq s)
    (e : coreRead s c o = some (t, v)) : Keeps pq t := by
  unfold coreRead at e
  split at e
  · injection e with e; injection e with e _; subst e
    exact readCycles_keeps h
  · injection e with e; injection e with e _; subst e
    exact State.count_keeps (State.fresh_keeps h)
  · injection e with e; injection e with e _; subst e
    exact imemNext_keeps h
  · cases e

theorem regValue_keeps {pq : List Instr} {s : State} {a : Nat} {x : RegExt} (h : Keeps pq s) :
    Keeps pq (regValue s a x).1 := by
  unfold regValue
  split
  · exact State.now_keeps h
  · split
    · exact h
    · split
      · rename_i r e
        obtain ⟨p, -, e⟩ := Option.bind_eq_some_iff.mp e
        exact coreRead_keeps h e
      · exact h

theorem regRead_keeps {pq : List Instr} {s : State} {a : Nat} {w : Width} {x : RegExt} (h : Keeps pq s) :
    Keeps pq (regRead s a w x).1 := by
  have h1 : Keeps pq (regValue s a x).1 := regValue_keeps h
  unfold regRead
  dsimp only
  split
  · exact h
  · split
    · exact h1
    · exact h1
    · exact keeps_ite h1 (State.wr_keeps h1)

theorem plainWrite_keeps {pq : List Instr} {s : State} {a : Nat} {v : W64} (hq : Keeps pq s) :
    Keeps pq (plainWrite s a v) := by
  unfold plainWrite
  try dsimp only
  with_reducible repeat' (
    first
    | assumption | refine keeps_fst ?_ (by assumption) | refine State.wr_keeps ?_ | split | intro _
    | refine keeps_mk ?_)

theorem hoCtrl_keeps {pq : List Instr} {s : State} {b : Sender} {v : W64} (hq : Keeps pq s) :
    Keeps pq (hoCtrl s b v) := by
  unfold hoCtrl
  try dsimp only
  with_reducible repeat' (
    first
    | assumption | refine keeps_fst ?_ (by assumption) | refine heartbeat_keeps ?_ | refine release_keeps ?_
    | refine take__keeps ?_ | split | intro _ | refine keeps_mk ?_)

theorem windowWrite_keeps {pq : List Instr} {s : State} {h o : Nat} {v : W64} (hq : Keeps pq s) :
    Keeps pq (windowWrite s h o v) := by
  unfold windowWrite
  try dsimp only
  with_reducible repeat' (
    first
    | assumption | refine keeps_fst ?_ (by assumption) | refine State.live_keeps ?_ ?_ 
    | refine plainWrite_keeps ?_ | split | intro _ | refine keeps_mk ?_)

theorem duWrite_keeps {pq : List Instr} {s : State} {u : DuId} {o : Nat} {v : W64} {w : Width} (hq : Keeps pq s) :
    Keeps pq (duWrite s u o v w) := by
  unfold duWrite
  try dsimp only
  with_reducible repeat' (
    first
    | assumption | refine keeps_fst ?_ (by assumption) | refine dtEntryWrite_keeps ?_
    | refine duCancel_keeps ?_ | refine duOwner_keeps ?_ | refine duStatclr_keeps ?_
    | refine duTblEn_keeps ?_ | refine plainWrite_keeps ?_ | split | intro _ | refine keeps_mk ?_)

theorem memCfgWrite_keeps {pq : List Instr} {s : State} {b : Sender} {v : W64} (hq : Keeps pq s) :
    Keeps pq (memCfgWrite s b v) := by
  unfold memCfgWrite
  try dsimp only
  with_reducible repeat' (
    first
    | assumption | refine keeps_fst ?_ (by assumption) | refine State.wr_keeps ?_ | split | intro _
    | refine keeps_mk ?_)

theorem rclWrite_keeps {pq : List Instr} {s : State} {j : JobId} {o : Nat} {v : W64} (hq : Keeps pq s) :
    Keeps pq (rclWrite s j o v) := by
  unfold rclWrite
  try dsimp only
  with_reducible repeat' (
    first
    | assumption | refine keeps_fst ?_ (by assumption) | refine jobCtrlWrite_keeps ?_
    | refine plainWrite_keeps ?_ | refine rclCfgWrite_keeps ?_ | split | intro _ | refine keeps_mk ?_)

theorem globalWrite_keeps {pq : List Instr} {s : State} {b : Sender} {a : Nat} {v : W64} {w : Width} {x : RegExt} (h : Keeps pq s) :
    Keeps pq (globalWrite s b a v w x) := by
  unfold globalWrite
  refine keeps_ite (hoCtrl_keeps h) (keeps_ite (keeps_ite (modReset_keeps h) h) (keeps_ite ?_ (keeps_ite
    (windowWrite_keeps h) (keeps_ite ?_ (keeps_ite ?_ (keeps_ite ?_ (keeps_ite (memCfgWrite_keeps h) (keeps_ite
    (planeEnWrite_keeps h) (keeps_ite ?_ (keeps_ite ?_ (keeps_ite (routeWrite_keeps h) (plainWrite_keeps h))))))))))))
  all_goals split
  all_goals first
    | exact h | exact jobPlace_keeps h | exact jobRelease_keeps h | exact duWrite_keeps h | exact rclWrite_keeps h
    | exact keeps_ite (bktWrite_keeps h) h | skip
  split
  · exact ringBaseWrite_keeps h
  · exact ringCfgWrite_keeps h
  · exact h

theorem execLinkEn_keeps {pq : List Instr} {l : LinkId} {on : Bool} {s : State} {b : Sender} {t' : State} (hq : Keeps pq s)
    (he : execLinkEn l on s b = .next t') : Keeps pq t' := by
  unfold execLinkEn at he
  injection he with he
  rw [← he]
  try dsimp only
  with_reducible repeat' (
    first
    | assumption | refine keeps_fst ?_ (by assumption) | refine State.ifOn_keeps ?_ ?_ 
    | refine linkEnable_keeps ?_ | split | intro _ | refine keeps_mk ?_)

theorem linkWrite_keeps {pq : List Instr} {s : State} {b : Sender} {l : LinkId} {o : Nat} {v : W64} {w : Width} (hq : Keeps pq s) :
    Keeps pq (linkWrite s b l o v w) := by
  unfold linkWrite
  try dsimp only
  with_reducible repeat' (
    first
    | assumption | refine keeps_fst ?_ (by assumption) | refine linkCfgWrite_keeps ?_
    | refine linkCtrlWrite_keeps ?_ | refine plainWrite_keeps ?_ | split | intro _ | refine keeps_mk ?_)

theorem queueCtrl_keeps {pq : List Instr} {s : State} {q : QId} {v : W64} (hq : Keeps pq s) :
    Keeps pq (queueCtrl s q v) := by
  unfold queueCtrl
  try dsimp only
  with_reducible repeat' (
    first
    | assumption | refine keeps_fst ?_ (by assumption) | refine qClear_keeps ?_ | refine qFlush_keeps ?_
    | refine queueEn_keeps ?_ | split | intro _ | refine keeps_mk ?_)

theorem queueWrite_keeps {pq : List Instr} {s : State} {q : QId} {o : Nat} {v : W64} {w : Width} (hq : Keeps pq s) :
    Keeps pq (queueWrite s q o v w) := by
  unfold queueWrite
  try dsimp only
  with_reducible repeat' (
    first
    | assumption | refine keeps_fst ?_ (by assumption) | refine State.setQueue_keeps ?_
    | refine State.wr_keeps ?_ | refine plainWrite_keeps ?_ | refine qEv_keeps ?_ | refine qMarks_keeps ?_
    | refine queueCtrl_keeps ?_ | refine windowPush_keeps ?_ | split | intro _ | refine keeps_mk ?_)

theorem ctrlWrite_keeps {pq : List Instr} {s : State} {b : Sender} {g : CtrlId} {o : Nat} {v : W64} (hq : Keeps pq s) :
    Keeps pq (ctrlWrite s b g o v) := by
  unfold ctrlWrite
  try dsimp only
  with_reducible repeat' (
    first
    | assumption | refine keeps_fst ?_ (by assumption) | refine keeps_snd ?_ (by assumption)
    | refine State.wr_keeps ?_ | refine plainWrite_keeps ?_ | refine selfRefresh_keeps ?_ | split | intro _
    | refine keeps_mk ?_)

theorem cxlWrite_keeps {pq : List Instr} {s : State} {p : PortId} {o : Nat} {v : W64} {w : Width} (hq : Keeps pq s) :
    Keeps pq (cxlWrite s p o v w) := by
  unfold cxlWrite
  try dsimp only
  with_reducible repeat' (
    first
    | assumption | refine keeps_fst ?_ (by assumption) | refine State.wr_keeps ?_ | refine cxlConfig_keeps ?_
    | refine cxlEnable_keeps ?_ | refine plainWrite_keeps ?_ | split | intro _ | refine keeps_mk ?_)

theorem denied_keeps {pq : List Instr} {s : State} (hq : Keeps pq s) :
    Keeps pq (denied s) := by
  unfold denied
  try dsimp only
  with_reducible repeat' (
    first
    | assumption | refine keeps_fst ?_ (by assumption) | refine secEv_keeps ?_ | split | intro _
    | refine keeps_mk ?_)

theorem powerWrite_keeps {pq : List Instr} {s : State} {b : Sender} {o : Nat} {v : W64} {w : Width} (hq : Keeps pq s) :
    Keeps pq (powerWrite s b o v w) := by
  unfold powerWrite
  try dsimp only
  with_reducible repeat' (
    first
    | assumption | refine keeps_fst ?_ (by assumption) | refine brumGo_keeps ?_
    | refine currentWrite_keeps ?_ | refine denied_keeps ?_ | refine govCfgWrite_keeps ?_
    | refine limitsWrite_keeps ?_ | refine pdReqWrite_keeps ?_ | refine plainWrite_keeps ?_
    | refine throttleWrite_keeps ?_ | refine wdtCfgWrite_keeps ?_ | refine wdtKick_keeps ?_ | split | intro _
    | refine keeps_mk ?_)

theorem telWrite_keeps {pq : List Instr} {s : State} {o : Nat} {v : W64} (hq : Keeps pq s) :
    Keeps pq (telWrite s o v) := by
  unfold telWrite
  try dsimp only
  with_reducible repeat' (
    first
    | assumption | refine keeps_fst ?_ (by assumption) | refine plainWrite_keeps ?_
    | refine telExportWrite_keeps ?_ | split | intro _ | refine keeps_mk ?_)

theorem secWrite_keeps {pq : List Instr} {s : State} {o : Nat} {v : W64} (hq : Keeps pq s) :
    Keeps pq (secWrite s o v) := by
  unfold secWrite
  try dsimp only
  with_reducible repeat' (
    first
    | assumption | refine keeps_fst ?_ (by assumption) | refine plainWrite_keeps ?_
    | refine secCmdWrite_keeps ?_ | split | intro _ | refine keeps_mk ?_)

theorem haltedWrite_keeps {pq : List Instr} {s : State} {c : CoreId} {o : Nat} {v : W64} (hq : Keeps pq s) :
    Keeps pq (haltedWrite s c o v) := by
  unfold haltedWrite
  try dsimp only
  with_reducible repeat' (
    first
    | assumption | refine keeps_fst ?_ (by assumption) | refine State.setCore_keeps ?_
    | refine keeps_loc_same ?_ rfl | refine keeps_loc ?_ (keeps_sp ?_ _) | refine plainWrite_keeps ?_
    | refine semSet_keeps ?_ | split | intro _ | refine keeps_mk ?_)

theorem winLimitWrite_keeps {pq : List Instr} {s : State} {a : Nat} {v : W64} (hq : Keeps pq s) :
    Keeps pq (winLimitWrite s a v) := by
  unfold winLimitWrite
  try dsimp only
  with_reducible repeat' (
    first
    | assumption | refine keeps_fst ?_ (by assumption) | refine plainWrite_keeps ?_ | split | intro _
    | refine keeps_mk ?_)

theorem coreWrite_keeps {pq : List Instr} {s : State} {b : Sender} {c : CoreId} {o : Nat} {v : W64} (hq : Keeps pq s) :
    Keeps pq (coreWrite s b c o v) := by
  unfold coreWrite
  try dsimp only
  with_reducible repeat' (
    first
    | assumption | refine keeps_fst ?_ (by assumption) | refine bankPwr_keeps ?_
    | refine coreCtlWrite_keeps ?_ | refine haltedWrite_keeps ?_ | refine imemHi_keeps ?_
    | refine imemLo_keeps ?_ | refine muRepair_keeps ?_ | refine muSpare_keeps ?_
    | refine plainWrite_keeps ?_ | refine spClear_keeps ?_ | refine vqClr_keeps ?_
    | refine winLimitWrite_keeps ?_ | split | intro _ | refine keeps_mk ?_)

theorem regWrite_keeps {pq : List Instr} {s : State} {b : Sender} {a : Nat} {v : W64} {w : Width} {x : RegExt}
    (h : Keeps pq s) : Keeps pq (regWrite s b a v w x) := by
  unfold regWrite
  refine keeps_ite (globalWrite_keeps h) (keeps_ite ?_ (keeps_ite ?_ (keeps_ite ?_ (keeps_ite ?_
    (keeps_ite (powerWrite_keeps h) (keeps_ite (telWrite_keeps h) (keeps_ite (secWrite_keeps h) ?_)))))))
  all_goals split
  all_goals first
    | exact h | exact linkWrite_keeps h | exact queueWrite_keeps h | exact ctrlWrite_keeps h | exact cxlWrite_keeps h
    | exact coreWrite_keeps h

theorem regStore_keeps {pq : List Instr} {s : State} {b : Sender} {a : Nat} {w : Width} {v : W64} {x : RegExt} (hq : Keeps pq s) :
    Keeps pq (regStore s b a w v x) := by
  unfold regStore
  try dsimp only
  with_reducible repeat' (
    first
    | assumption | refine keeps_fst ?_ (by assumption) | refine regWrite_keeps ?_ | split | intro _
    | refine keeps_mk ?_)

theorem msixWrite_keeps {pq : List Instr} {s : State} {fn : Nat} {p : MsixPlace} {w : Width} {v : W64} (hq : Keeps pq s) :
    Keeps pq (msixWrite s fn p w v) := by
  unfold msixWrite
  try dsimp only
  with_reducible repeat' (
    first
    | assumption | refine keeps_fst ?_ (by assumption) | refine msixMask_keeps ?_ | split | intro _
    | refine keeps_mk ?_)

theorem bar2Write_keeps {pq : List Instr} {s : State} {b : Sender} {o : Nat} {w : Width} {v : W64} (hq : Keeps pq s) :
    Keeps pq (bar2Write s b o w v) := by
  unfold bar2Write
  try dsimp only
  with_reducible repeat' (
    first
    | assumption | refine keeps_fst ?_ (by assumption) | refine consWrite_keeps ?_
    | refine doorbell_keeps ?_ ?_  | refine msixWrite_keeps ?_ | refine prodWrite_keeps ?_ | split | intro _
    | refine keeps_mk ?_)

theorem portRead_keeps {pq : List Instr} {s : State} {b : Sender} {bar2 : Bool} {o : Nat} {w : Width} {x : RegExt} (hq : Keeps pq s) :
    Keeps pq (portRead s b bar2 o w x) := by
  unfold portRead
  try dsimp only
  with_reducible repeat' (
    first
    | assumption | refine keeps_fst ?_ (by assumption) | refine answer_keeps ?_ | refine denied_keeps ?_
    | refine regRead_keeps ?_ | split | intro _ | refine keeps_mk ?_)

theorem portWrite_keeps {pq : List Instr} {s : State} {b : Sender} {bar2 : Bool} {o : Nat} {w : Width} {v : W64} {x : RegExt} (hq : Keeps pq s) :
    Keeps pq (portWrite s b bar2 o w v x) := by
  unfold portWrite
  try dsimp only
  with_reducible repeat' (
    first
    | assumption | refine keeps_fst ?_ (by assumption) | refine bar2Write_keeps ?_ | refine denied_keeps ?_
    | refine hoCtrl_keeps ?_ | refine regStore_keeps ?_ | refine ringBaseWrite_keeps ?_
    | refine ringCfgWrite_keeps ?_ | split | intro _ | refine keeps_mk ?_)

theorem anyWrite_keeps {pq : List Instr} {s : State} {b : Sender} {bar2 : Bool} {o : Nat} {w : Width} {v : W64} {x : RegExt} (hq : Keeps pq s) :
    Keeps pq (anyWrite s b bar2 o w v x) := by
  unfold anyWrite
  try dsimp only
  with_reducible repeat' (
    first
    | assumption | refine keeps_fst ?_ (by assumption) | refine portWrite_keeps ?_ | refine regStore_keeps ?_
    | split | intro _ | refine keeps_mk ?_)

theorem anyRead_keeps {pq : List Instr} {s : State} {b : Sender} {bar2 : Bool} {o : Nat} {w : Width} {x : RegExt} (hq : Keeps pq s) :
    Keeps pq (anyRead s b bar2 o w x) := by
  unfold anyRead
  try dsimp only
  with_reducible repeat' (
    first
    | assumption | refine keeps_fst ?_ (by assumption) | refine answer_keeps ?_ | refine portRead_keeps ?_
    | refine regRead_keeps ?_ | split | intro _ | refine keeps_mk ?_)

theorem execRegisterWrite_keeps {pq : List Instr} {b : Sender} {bar2 : Bool} {o : Nat} {w : Width} {v : W64} {x : RegExt} {s : State} {e : Tlp} {t' : State} (hq : Keeps pq s)
    (he : execRegisterWrite b bar2 o w v x s e = .next t') : Keeps pq t' := by
  unfold execRegisterWrite at he
  injection he with he
  rw [← he]
  try dsimp only
  with_reducible repeat' (
    first
    | assumption | refine keeps_fst ?_ (by assumption) | refine anyWrite_keeps ?_ | refine dropWrite_keeps ?_
    | split | intro _ | refine keeps_mk ?_)

theorem execRcRegisterRead_keeps {pq : List Instr} {b : Sender} {bar2 : Bool} {o : Nat} {w : Width} {x : RegExt} {s : State} {t' : State} (hq : Keeps pq s)
    (he : execRcRegisterRead b bar2 o w x s = .next t') : Keeps pq t' := by
  unfold execRcRegisterRead at he
  injection he with he
  rw [← he]
  try dsimp only
  with_reducible repeat' (
    first
    | assumption | refine keeps_fst ?_ (by assumption) | refine anyRead_keeps ?_ | split | intro _
    | refine keeps_mk ?_)

end Sys2Proof.Machine
end

