-- ==== Sys2Proof/Laws/KeepsTap.lean ====
section
/-!
SUPPORT. The operations of Tap keep the waiting commands and the canonical memories.
-/

-- The declarations of this file are elaborated in turn, so that checking the package as one text needs few threads.
set_option Elab.async false

namespace Sys2Proof.Machine

theorem tapLoad_keeps {pq : List Instr} {s : State} {ir : Byte} {capture : BitVec 64} {driven highz : Bool} (hq : Keeps pq s) :
    Keeps pq (tapLoad s ir capture driven highz) := by
  unfold tapLoad
  try dsimp only
  with_reducible repeat' (
    first
    | assumption | refine keeps_fst ?_ (by assumption) | split | intro _ | refine keeps_mk ?_)

theorem tapShift_keeps {pq : List Instr} {s : State} {v : BitVec 64} (hq : Keeps pq s) :
    Keeps pq (tapShift s v) := by
  unfold tapShift
  try dsimp only
  with_reducible repeat' (
    first
    | assumption | refine keeps_fst ?_ (by assumption) | split | intro _ | refine keeps_mk ?_)

theorem dbgRun_keeps {pq : List Instr} {s : State} {v : BitVec 96} {x : RegExt} (hq : Keeps pq s) :
    Keeps pq (dbgRun s v x) := by
  unfold dbgRun
  try dsimp only
  with_reducible repeat' (
    first
    | assumption | refine keeps_fst ?_ (by assumption) | refine anyWrite_keeps ?_ | refine regRead_keeps ?_
    | refine tapLoad_keeps ?_ | split | intro _ | refine keeps_mk ?_)

theorem execTapReset_keeps {pq : List Instr} {s : State} {t' : State} (hq : Keeps pq s)
    (he : execTapReset s = .next t') : Keeps pq t' := by
  unfold execTapReset at he
  injection he with he
  rw [← he]
  try dsimp only
  with_reducible repeat' (
    first
    | assumption | refine keeps_fst ?_ (by assumption) | refine tapLoad_keeps ?_ | split | intro _
    | refine keeps_mk ?_)

theorem execExtest_keeps {pq : List Instr} {v : BitVec 64} {s : State} {outer : BitVec 64} {t' : State} (hq : Keeps pq s)
    (he : execExtest v s outer = .next t') : Keeps pq t' := by
  unfold execExtest at he
  injection he with he
  rw [← he]
  try dsimp only
  with_reducible repeat' (
    first
    | assumption | refine keeps_fst ?_ (by assumption) | refine tapLoad_keeps ?_ | refine tapShift_keeps ?_
    | split | intro _ | refine keeps_mk ?_)

theorem execIdcode_keeps {pq : List Instr} {s : State} {t' : State} (hq : Keeps pq s)
    (he : execIdcode s = .next t') : Keeps pq t' := by
  unfold execIdcode at he
  injection he with he
  rw [← he]
  try dsimp only
  with_reducible repeat' (
    first
    | assumption | refine keeps_fst ?_ (by assumption) | refine tapLoad_keeps ?_ | split | intro _
    | refine keeps_mk ?_)

theorem execSamplePreload_keeps {pq : List Instr} {v : BitVec 64} {s : State} {outer : BitVec 64} {t' : State} (hq : Keeps pq s)
    (he : execSamplePreload v s outer = .next t') : Keeps pq t' := by
  unfold execSamplePreload at he
  injection he with he
  rw [← he]
  try dsimp only
  with_reducible repeat' (
    first
    | assumption | refine keeps_fst ?_ (by assumption) | refine tapLoad_keeps ?_ | refine tapShift_keeps ?_
    | split | intro _ | refine keeps_mk ?_)

theorem execClamp_keeps {pq : List Instr} {s : State} {t' : State} (hq : Keeps pq s)
    (he : execClamp s = .next t') : Keeps pq t' := by
  unfold execClamp at he
  injection he with he
  rw [← he]
  try dsimp only
  with_reducible repeat' (
    first
    | assumption | refine keeps_fst ?_ (by assumption) | refine tapLoad_keeps ?_ | split | intro _
    | refine keeps_mk ?_)

theorem execHighz_keeps {pq : List Instr} {s : State} {t' : State} (hq : Keeps pq s)
    (he : execHighz s = .next t') : Keeps pq t' := by
  unfold execHighz at he
  injection he with he
  rw [← he]
  try dsimp only
  with_reducible repeat' (
    first
    | assumption | refine keeps_fst ?_ (by assumption) | refine tapLoad_keeps ?_ | split | intro _
    | refine keeps_mk ?_)

theorem execDbg_keeps {pq : List Instr} {v : BitVec 96} {x : RegExt} {s : State} {t' : State} (hq : Keeps pq s)
    (he : execDbg v x s = .next t') : Keeps pq t' := by
  unfold execDbg at he
  injection he with he
  rw [← he]
  try dsimp only
  with_reducible repeat' (
    first
    | assumption | refine keeps_fst ?_ (by assumption) | refine dbgRun_keeps ?_ | split | intro _
    | refine keeps_mk ?_)

theorem execBypass_keeps {pq : List Instr} {ir : Byte} {s : State} {t' : State} (hq : Keeps pq s)
    (he : execBypass ir s = .next t') : Keeps pq t' := by
  unfold execBypass at he
  injection he with he
  rw [← he]
  try dsimp only
  with_reducible repeat' (
    first
    | assumption | refine keeps_fst ?_ (by assumption) | refine tapLoad_keeps ?_ | split | intro _
    | refine keeps_mk ?_)

end Sys2Proof.Machine
end

