-- ==== Sys2Proof/Laws/Quiet.lean ====
section
/-!
SUPPORT. What the recording and raising of an event and the sending of a packet leave as it was: everything but the
counter of free values, the clock, the registers, the host ports, the reduction and commit logic, the network and the
links.
-/

-- The declarations of this file are elaborated in turn, so that checking the package as one text needs few threads.
set_option Elab.async false

namespace Sys2Proof.Machine

theorem quiet_refl (s : State) : Quiet s s := rfl

theorem quiet_trans {s t u : State} (h : Quiet s t) (k : Quiet t u) : Quiet s u := by
  unfold Quiet at *
  rw [k, h]

/-- A state written out that takes all else from another. -/
theorem quiet_mk {r s : State} {a : Nat} {b : W64} {d : Table W64} {e : HostPorts} {f : Rcl} {g : Net}
    {l : Vector Link 24} (h : Quiet r s) :
    Quiet r { s with tick := a, ts := b, regs := d, host := e, rcl := f, net := g, links := l } := by
  unfold Quiet at *
  rw [h]

theorem quiet_fst {r : State} {β : Type} {x : State × β} {a : State} {b : β} (h : Quiet r x.1) (he : x = (a, b)) :
    Quiet r a := by rw [he] at h; exact h

theorem quiet_snd {r : State} {β : Type} {x : β × State} {a : State} {b : β} (h : Quiet r x.2) (he : x = (b, a)) :
    Quiet r a := by rw [he] at h; exact h

theorem State.wr_quiet {r0 : State} {s : State} {a : Nat} {v : W64} (hq : Quiet r0 s) :
    Quiet r0 (State.wr s a v) := by
  unfold State.wr
  try dsimp only
  with_reducible repeat' (
    first
    | assumption | refine quiet_fst ?_ (by assumption) | split | intro _ | refine quiet_mk ?_)

theorem State.count_quiet {r0 : State} {s : State} {a width k : Nat} (hq : Quiet r0 s) :
    Quiet r0 (State.count s a width k) := by
  unfold State.count
  try dsimp only
  with_reducible repeat' (
    first
    | assumption | refine quiet_fst ?_ (by assumption) | refine State.wr_quiet ?_ | split | intro _
    | refine quiet_mk ?_)

theorem State.orReg_quiet {r0 : State} {s : State} {a : Nat} {v : W64} (hq : Quiet r0 s) :
    Quiet r0 (State.orReg s a v) := by
  unfold State.orReg
  try dsimp only
  with_reducible repeat' (
    first
    | assumption | refine quiet_fst ?_ (by assumption) | refine State.wr_quiet ?_ | split | intro _
    | refine quiet_mk ?_)

theorem State.fresh_quiet {r0 : State} {s : State} (hq : Quiet r0 s) :
    Quiet r0 (State.fresh s).2 := by
  unfold State.fresh
  try dsimp only
  with_reducible repeat' (
    first
    | assumption | refine quiet_fst ?_ (by assumption) | split | intro _ | refine quiet_mk ?_)

theorem State.now_quiet {r0 : State} {s : State} (hq : Quiet r0 s) :
    Quiet r0 (State.now s).2 := by
  unfold State.now
  try dsimp only
  with_reducible repeat' (
    first
    | assumption | refine quiet_fst ?_ (by assumption) | refine quiet_snd ?_ (by assumption)
    | refine State.fresh_quiet ?_ | split | intro _ | refine quiet_mk ?_)

theorem State.setLink_quiet {r0 : State} {s : State} {l : LinkId} {k : Link} (hq : Quiet r0 s) :
    Quiet r0 (State.setLink s l k) := by
  unfold State.setLink
  try dsimp only
  with_reducible repeat' (
    first
    | assumption | refine quiet_fst ?_ (by assumption) | split | intro _ | refine quiet_mk ?_)

theorem State.setRing_quiet {r0 : State} {s : State} {r : RingId} {k : Ring} (hq : Quiet r0 s) :
    Quiet r0 (State.setRing s r k) := by
  unfold State.setRing
  try dsimp only
  with_reducible repeat' (
    first
    | assumption | refine quiet_fst ?_ (by assumption) | split | intro _ | refine quiet_mk ?_)

theorem State.setRclJob_quiet {r0 : State} {s : State} {j : JobId} {k : RclJob} (hq : Quiet r0 s) :
    Quiet r0 (State.setRclJob s j k) := by
  unfold State.setRclJob
  try dsimp only
  with_reducible repeat' (
    first
    | assumption | refine quiet_fst ?_ (by assumption) | split | intro _ | refine quiet_mk ?_)

theorem State.setBkt_quiet {r0 : State} {s : State} {e : QId} {k : Bucket} (hq : Quiet r0 s) :
    Quiet r0 (State.setBkt s e k) := by
  unfold State.setBkt
  try dsimp only
  with_reducible repeat' (
    first
    | assumption | refine quiet_fst ?_ (by assumption) | split | intro _ | refine quiet_mk ?_)

theorem State.message_quiet {r0 : State} {s : State} {fn vec : Nat} (hq : Quiet r0 s) :
    Quiet r0 (State.message s fn vec) := by
  unfold State.message
  try dsimp only
  with_reducible repeat' (
    first
    | assumption | refine quiet_fst ?_ (by assumption) | split | intro _ | refine quiet_mk ?_)

theorem State.vector_quiet {r0 : State} {s : State} {fn vec : Nat} (hq : Quiet r0 s) :
    Quiet r0 (State.vector s fn vec) := by
  unfold State.vector
  try dsimp only
  with_reducible repeat' (
    first
    | assumption | refine quiet_fst ?_ (by assumption) | refine State.message_quiet ?_ | split | intro _
    | refine quiet_mk ?_)

theorem State.due_quiet {r0 : State} {s : State} {r : RingId} (hq : Quiet r0 s) :
    Quiet r0 (State.due s r) := by
  unfold State.due
  try dsimp only
  with_reducible repeat' (
    first
    | assumption | refine quiet_fst ?_ (by assumption) | refine State.setRing_quiet ?_
    | refine State.vector_quiet ?_ | split | intro _ | refine quiet_mk ?_)

theorem State.putRecord_quiet {r0 : State} {s : State} {r : RingId} {bytes : List Byte} {phaseAt : Nat} {irq : Bool} (hq : Quiet r0 s) :
    Quiet r0 (State.putRecord s r bytes phaseAt irq) := by
  unfold State.putRecord
  try dsimp only
  with_reducible repeat' (
    first
    | assumption | refine quiet_fst ?_ (by assumption) | refine State.due_quiet ?_ | split | intro _
    | refine quiet_mk ?_)

theorem State.evtLost_quiet {r0 : State} {s : State} (hq : Quiet r0 s) :
    Quiet r0 (State.evtLost s) := by
  unfold State.evtLost
  try dsimp only
  with_reducible repeat' (
    first
    | assumption | refine quiet_fst ?_ (by assumption) | refine quiet_snd ?_ (by assumption)
    | refine State.now_quiet ?_ | refine State.orReg_quiet ?_ | refine State.putRecord_quiet ?_ | split
    | intro _ | refine quiet_mk ?_)

theorem State.evtRecord_quiet {r0 : State} {s : State} {bytes : List Byte} (hq : Quiet r0 s) :
    Quiet r0 (State.evtRecord s bytes) := by
  unfold State.evtRecord
  try dsimp only
  with_reducible repeat' (
    first
    | assumption | refine quiet_fst ?_ (by assumption) | refine State.count_quiet ?_
    | refine State.evtLost_quiet ?_ | refine State.putRecord_quiet ?_ | split | intro _ | refine quiet_mk ?_)

theorem State.record_quiet {r0 : State} {s : State} {code inst sub : Nat} {job dev : Option Nat} {a0 a1 : Nat} (hq : Quiet r0 s) :
    Quiet r0 (State.record s code inst sub job dev a0 a1) := by
  unfold State.record
  try dsimp only
  with_reducible repeat' (
    first
    | assumption | refine quiet_fst ?_ (by assumption) | refine quiet_snd ?_ (by assumption)
    | refine State.evtRecord_quiet ?_ | refine State.now_quiet ?_ | refine State.orReg_quiet ?_ | split
    | intro _ | refine quiet_mk ?_)

theorem sendPkt_quiet {r0 : State} {s : State} {die vc job dst : Nat} {p : Pkt} (hq : Quiet r0 s) :
    Quiet r0 (sendPkt s die vc job dst p).1 := by
  unfold sendPkt
  try dsimp only
  with_reducible repeat' (
    first
    | assumption | refine quiet_fst ?_ (by assumption) | refine State.setLink_quiet ?_ | split | intro _
    | refine quiet_mk ?_)

theorem unreachable_quiet {r0 : State} {s : State} {job : Option Nat} {dst : Nat} {p : Pkt} (hq : Quiet r0 s) :
    Quiet r0 (unreachable s job dst p) := by
  unfold unreachable
  try dsimp only
  with_reducible repeat' (
    first
    | assumption | refine quiet_fst ?_ (by assumption) | refine State.record_quiet ?_ | split | intro _
    | refine quiet_mk ?_)

theorem sendSync_quiet {r0 : State} {s : State} {job dst rsp : Nat} {tf : List Byte} {excl : List Nat} (hq : Quiet r0 s) :
    Quiet r0 (sendSync s job dst rsp tf excl).1 := by
  unfold sendSync
  try dsimp only
  with_reducible repeat' (
    first
    | assumption | refine quiet_fst ?_ (by assumption) | refine sendPkt_quiet ?_
    | refine unreachable_quiet ?_ | split | intro _ | refine quiet_mk ?_)

theorem sendFail_quiet {r0 : State} {s : State} {j : JobId} (hq : Quiet r0 s) :
    Quiet r0 (sendFail s j) := by
  unfold sendFail
  try dsimp only
  with_reducible repeat' (
    first
    | assumption | refine quiet_fst ?_ (by assumption) | refine sendSync_quiet ?_ | split | intro _
    | refine quiet_mk ?_)

theorem State.failStep_quiet {r0 : State} {s : State} {job : Option Nat} (hq : Quiet r0 s) :
    Quiet r0 (State.failStep s job) := by
  unfold State.failStep
  try dsimp only
  with_reducible repeat' (
    first
    | assumption | refine quiet_fst ?_ (by assumption) | refine State.setRclJob_quiet ?_
    | refine sendFail_quiet ?_ | split | intro _ | refine quiet_mk ?_)

theorem State.raiseDev_quiet {r0 : State} {s : State} {fails : Bool} {code inst sub : Nat} {job dev : Option Nat} {a0 a1 : Nat} (hq : Quiet r0 s) :
    Quiet r0 (State.raiseDev s fails code inst sub job dev a0 a1) := by
  unfold State.raiseDev
  try dsimp only
  with_reducible repeat' (
    first
    | assumption | refine quiet_fst ?_ (by assumption) | refine State.failStep_quiet ?_
    | refine State.record_quiet ?_ | split | intro _ | refine quiet_mk ?_)

theorem State.raiseIf_quiet {r0 : State} {s : State} {fails : Bool} {code inst sub : Nat} {job : Option Nat} {a0 a1 : Nat} (hq : Quiet r0 s) :
    Quiet r0 (State.raiseIf s fails code inst sub job a0 a1) := by
  unfold State.raiseIf
  try dsimp only
  with_reducible repeat' (
    first
    | assumption | refine quiet_fst ?_ (by assumption) | refine State.raiseDev_quiet ?_ | split | intro _
    | refine quiet_mk ?_)

theorem State.raise_quiet {r0 : State} {s : State} {code inst sub : Nat} {job : Option Nat} {a0 a1 : Nat} (hq : Quiet r0 s) :
    Quiet r0 (State.raise s code inst sub job a0 a1) := by
  unfold State.raise
  try dsimp only
  with_reducible repeat' (
    first
    | assumption | refine quiet_fst ?_ (by assumption) | refine State.raiseIf_quiet ?_ | split | intro _
    | refine quiet_mk ?_)

theorem State.coreEv_quiet {r0 : State} {s : State} {c : CoreId} {code a0 a1 : Nat} (hq : Quiet r0 s) :
    Quiet r0 (State.coreEv s c code a0 a1) := by
  unfold State.coreEv
  try dsimp only
  with_reducible repeat' (
    first
    | assumption | refine quiet_fst ?_ (by assumption) | refine State.raise_quiet ?_ | split | intro _
    | refine quiet_mk ?_)

/-! What an event leaves as it was. -/

@[simp] theorem State.raise_pending (s : State) (code inst sub : Nat) (job : Option Nat) (a0 a1 : Nat) : (s.raise code inst sub job a0 a1).pending = s.pending := by
  rw [State.raise_quiet (r0 := s) (s := s) rfl]
@[simp] theorem State.raise_cores (s : State) (code inst sub : Nat) (job : Option Nat) (a0 a1 : Nat) : (s.raise code inst sub job a0 a1).cores = s.cores := by
  rw [State.raise_quiet (r0 := s) (s := s) rfl]
@[simp] theorem State.raise_units (s : State) (code inst sub : Nat) (job : Option Nat) (a0 a1 : Nat) : (s.raise code inst sub job a0 a1).units = s.units := by
  rw [State.raise_quiet (r0 := s) (s := s) rfl]
@[simp] theorem State.raise_locals (s : State) (code inst sub : Nat) (job : Option Nat) (a0 a1 : Nat) : (s.raise code inst sub job a0 a1).locals = s.locals := by
  rw [State.raise_quiet (r0 := s) (s := s) rfl]
@[simp] theorem State.raise_queues (s : State) (code inst sub : Nat) (job : Option Nat) (a0 a1 : Nat) : (s.raise code inst sub job a0 a1).queues = s.queues := by
  rw [State.raise_quiet (r0 := s) (s := s) rfl]
@[simp] theorem State.raise_dus (s : State) (code inst sub : Nat) (job : Option Nat) (a0 a1 : Nat) : (s.raise code inst sub job a0 a1).dus = s.dus := by
  rw [State.raise_quiet (r0 := s) (s := s) rfl]
@[simp] theorem State.raise_gddr (s : State) (code inst sub : Nat) (job : Option Nat) (a0 a1 : Nat) : (s.raise code inst sub job a0 a1).gddr = s.gddr := by
  rw [State.raise_quiet (r0 := s) (s := s) rfl]
@[simp] theorem State.raise_gddrErr (s : State) (code inst sub : Nat) (job : Option Nat) (a0 a1 : Nat) : (s.raise code inst sub job a0 a1).gddrErr = s.gddrErr := by
  rw [State.raise_quiet (r0 := s) (s := s) rfl]
@[simp] theorem State.raise_ctrls (s : State) (code inst sub : Nat) (job : Option Nat) (a0 a1 : Nat) : (s.raise code inst sub job a0 a1).ctrls = s.ctrls := by
  rw [State.raise_quiet (r0 := s) (s := s) rfl]
@[simp] theorem State.raise_tier (s : State) (code inst sub : Nat) (job : Option Nat) (a0 a1 : Nat) : (s.raise code inst sub job a0 a1).tier = s.tier := by
  rw [State.raise_quiet (r0 := s) (s := s) rfl]
@[simp] theorem State.raise_cxl (s : State) (code inst sub : Nat) (job : Option Nat) (a0 a1 : Nat) : (s.raise code inst sub job a0 a1).cxl = s.cxl := by
  rw [State.raise_quiet (r0 := s) (s := s) rfl]
@[simp] theorem State.raise_cxlCfg (s : State) (code inst sub : Nat) (job : Option Nat) (a0 a1 : Nat) : (s.raise code inst sub job a0 a1).cxlCfg = s.cxlCfg := by
  rw [State.raise_quiet (r0 := s) (s := s) rfl]
@[simp] theorem State.raise_jobs (s : State) (code inst sub : Nat) (job : Option Nat) (a0 a1 : Nat) : (s.raise code inst sub job a0 a1).jobs = s.jobs := by
  rw [State.raise_quiet (r0 := s) (s := s) rfl]
@[simp] theorem State.raise_tel (s : State) (code inst sub : Nat) (job : Option Nat) (a0 a1 : Nat) : (s.raise code inst sub job a0 a1).tel = s.tel := by
  rw [State.raise_quiet (r0 := s) (s := s) rfl]
@[simp] theorem State.raise_power (s : State) (code inst sub : Nat) (job : Option Nat) (a0 a1 : Nat) : (s.raise code inst sub job a0 a1).power = s.power := by
  rw [State.raise_quiet (r0 := s) (s := s) rfl]
@[simp] theorem State.raise_sec (s : State) (code inst sub : Nat) (job : Option Nat) (a0 a1 : Nat) : (s.raise code inst sub job a0 a1).sec = s.sec := by
  rw [State.raise_quiet (r0 := s) (s := s) rfl]
@[simp] theorem State.raise_pins (s : State) (code inst sub : Nat) (job : Option Nat) (a0 a1 : Nat) : (s.raise code inst sub job a0 a1).pins = s.pins := by
  rw [State.raise_quiet (r0 := s) (s := s) rfl]
@[simp] theorem State.raise_tap (s : State) (code inst sub : Nat) (job : Option Nat) (a0 a1 : Nat) : (s.raise code inst sub job a0 a1).tap = s.tap := by
  rw [State.raise_quiet (r0 := s) (s := s) rfl]
@[simp] theorem State.raiseIf_pending (s : State) (fails : Bool) (code inst sub : Nat) (job : Option Nat) (a0 a1 : Nat) : (s.raiseIf fails code inst sub job a0 a1).pending = s.pending := by
  rw [State.raiseIf_quiet (r0 := s) (s := s) rfl]
@[simp] theorem State.raiseIf_cores (s : State) (fails : Bool) (code inst sub : Nat) (job : Option Nat) (a0 a1 : Nat) : (s.raiseIf fails code inst sub job a0 a1).cores = s.cores := by
  rw [State.raiseIf_quiet (r0 := s) (s := s) rfl]
@[simp] theorem State.raiseIf_units (s : State) (fails : Bool) (code inst sub : Nat) (job : Option Nat) (a0 a1 : Nat) : (s.raiseIf fails code inst sub job a0 a1).units = s.units := by
  rw [State.raiseIf_quiet (r0 := s) (s := s) rfl]
@[simp] theorem State.raiseIf_locals (s : State) (fails : Bool) (code inst sub : Nat) (job : Option Nat) (a0 a1 : Nat) : (s.raiseIf fails code inst sub job a0 a1).locals = s.locals := by
  rw [State.raiseIf_quiet (r0 := s) (s := s) rfl]
@[simp] theorem State.raiseIf_queues (s : State) (fails : Bool) (code inst sub : Nat) (job : Option Nat) (a0 a1 : Nat) : (s.raiseIf fails code inst sub job a0 a1).queues = s.queues := by
  rw [State.raiseIf_quiet (r0 := s) (s := s) rfl]
@[simp] theorem State.raiseIf_dus (s : State) (fails : Bool) (code inst sub : Nat) (job : Option Nat) (a0 a1 : Nat) : (s.raiseIf fails code inst sub job a0 a1).dus = s.dus := by
  rw [State.raiseIf_quiet (r0 := s) (s := s) rfl]
@[simp] theorem State.raiseIf_gddr (s : State) (fails : Bool) (code inst sub : Nat) (job : Option Nat) (a0 a1 : Nat) : (s.raiseIf fails code inst sub job a0 a1).gddr = s.gddr := by
  rw [State.raiseIf_quiet (r0 := s) (s := s) rfl]
@[simp] theorem State.raiseIf_gddrErr (s : State) (fails : Bool) (code inst sub : Nat) (job : Option Nat) (a0 a1 : Nat) : (s.raiseIf fails code inst sub job a0 a1).gddrErr = s.gddrErr := by
  rw [State.raiseIf_quiet (r0 := s) (s := s) rfl]
@[simp] theorem State.raiseIf_ctrls (s : State) (fails : Bool) (code inst sub : Nat) (job : Option Nat) (a0 a1 : Nat) : (s.raiseIf fails code inst sub job a0 a1).ctrls = s.ctrls := by
  rw [State.raiseIf_quiet (r0 := s) (s := s) rfl]
@[simp] theorem State.raiseIf_tier (s : State) (fails : Bool) (code inst sub : Nat) (job : Option Nat) (a0 a1 : Nat) : (s.raiseIf fails code inst sub job a0 a1).tier = s.tier := by
  rw [State.raiseIf_quiet (r0 := s) (s := s) rfl]
@[simp] theorem State.raiseIf_cxl (s : State) (fails : Bool) (code inst sub : Nat) (job : Option Nat) (a0 a1 : Nat) : (s.raiseIf fails code inst sub job a0 a1).cxl = s.cxl := by
  rw [State.raiseIf_quiet (r0 := s) (s := s) rfl]
@[simp] theorem State.raiseIf_cxlCfg (s : State) (fails : Bool) (code inst sub : Nat) (job : Option Nat) (a0 a1 : Nat) : (s.raiseIf fails code inst sub job a0 a1).cxlCfg = s.cxlCfg := by
  rw [State.raiseIf_quiet (r0 := s) (s := s) rfl]
@[simp] theorem State.raiseIf_jobs (s : State) (fails : Bool) (code inst sub : Nat) (job : Option Nat) (a0 a1 : Nat) : (s.raiseIf fails code inst sub job a0 a1).jobs = s.jobs := by
  rw [State.raiseIf_quiet (r0 := s) (s := s) rfl]
@[simp] theorem State.raiseIf_tel (s : State) (fails : Bool) (code inst sub : Nat) (job : Option Nat) (a0 a1 : Nat) : (s.raiseIf fails code inst sub job a0 a1).tel = s.tel := by
  rw [State.raiseIf_quiet (r0 := s) (s := s) rfl]
@[simp] theorem State.raiseIf_power (s : State) (fails : Bool) (code inst sub : Nat) (job : Option Nat) (a0 a1 : Nat) : (s.raiseIf fails code inst sub job a0 a1).power = s.power := by
  rw [State.raiseIf_quiet (r0 := s) (s := s) rfl]
@[simp] theorem State.raiseIf_sec (s : State) (fails : Bool) (code inst sub : Nat) (job : Option Nat) (a0 a1 : Nat) : (s.raiseIf fails code inst sub job a0 a1).sec = s.sec := by
  rw [State.raiseIf_quiet (r0 := s) (s := s) rfl]
@[simp] theorem State.raiseIf_pins (s : State) (fails : Bool) (code inst sub : Nat) (job : Option Nat) (a0 a1 : Nat) : (s.raiseIf fails code inst sub job a0 a1).pins = s.pins := by
  rw [State.raiseIf_quiet (r0 := s) (s := s) rfl]
@[simp] theorem State.raiseIf_tap (s : State) (fails : Bool) (code inst sub : Nat) (job : Option Nat) (a0 a1 : Nat) : (s.raiseIf fails code inst sub job a0 a1).tap = s.tap := by
  rw [State.raiseIf_quiet (r0 := s) (s := s) rfl]
@[simp] theorem State.raiseDev_pending (s : State) (fails : Bool) (code inst sub : Nat) (job dev : Option Nat) (a0 a1 : Nat) : (s.raiseDev fails code inst sub job dev a0 a1).pending = s.pending := by
  rw [State.raiseDev_quiet (r0 := s) (s := s) rfl]
@[simp] theorem State.raiseDev_cores (s : State) (fails : Bool) (code inst sub : Nat) (job dev : Option Nat) (a0 a1 : Nat) : (s.raiseDev fails code inst sub job dev a0 a1).cores = s.cores := by
  rw [State.raiseDev_quiet (r0 := s) (s := s) rfl]
@[simp] theorem State.raiseDev_units (s : State) (fails : Bool) (code inst sub : Nat) (job dev : Option Nat) (a0 a1 : Nat) : (s.raiseDev fails code inst sub job dev a0 a1).units = s.units := by
  rw [State.raiseDev_quiet (r0 := s) (s := s) rfl]
@[simp] theorem State.raiseDev_locals (s : State) (fails : Bool) (code inst sub : Nat) (job dev : Option Nat) (a0 a1 : Nat) : (s.raiseDev fails code inst sub job dev a0 a1).locals = s.locals := by
  rw [State.raiseDev_quiet (r0 := s) (s := s) rfl]
@[simp] theorem State.raiseDev_queues (s : State) (fails : Bool) (code inst sub : Nat) (job dev : Option Nat) (a0 a1 : Nat) : (s.raiseDev fails code inst sub job dev a0 a1).queues = s.queues := by
  rw [State.raiseDev_quiet (r0 := s) (s := s) rfl]
@[simp] theorem State.raiseDev_dus (s : State) (fails : Bool) (code inst sub : Nat) (job dev : Option Nat) (a0 a1 : Nat) : (s.raiseDev fails code inst sub job dev a0 a1).dus = s.dus := by
  rw [State.raiseDev_quiet (r0 := s) (s := s) rfl]
@[simp] theorem State.raiseDev_gddr (s : State) (fails : Bool) (code inst sub : Nat) (job dev : Option Nat) (a0 a1 : Nat) : (s.raiseDev fails code inst sub job dev a0 a1).gddr = s.gddr := by
  rw [State.raiseDev_quiet (r0 := s) (s := s) rfl]
@[simp] theorem State.raiseDev_gddrErr (s : State) (fails : Bool) (code inst sub : Nat) (job dev : Option Nat) (a0 a1 : Nat) : (s.raiseDev fails code inst sub job dev a0 a1).gddrErr = s.gddrErr := by
  rw [State.raiseDev_quiet (r0 := s) (s := s) rfl]
@[simp] theorem State.raiseDev_ctrls (s : State) (fails : Bool) (code inst sub : Nat) (job dev : Option Nat) (a0 a1 : Nat) : (s.raiseDev fails code inst sub job dev a0 a1).ctrls = s.ctrls := by
  rw [State.raiseDev_quiet (r0 := s) (s := s) rfl]
@[simp] theorem State.raiseDev_tier (s : State) (fails : Bool) (code inst sub : Nat) (job dev : Option Nat) (a0 a1 : Nat) : (s.raiseDev fails code inst sub job dev a0 a1).tier = s.tier := by
  rw [State.raiseDev_quiet (r0 := s) (s := s) rfl]
@[simp] theorem State.raiseDev_cxl (s : State) (fails : Bool) (code inst sub : Nat) (job dev : Option Nat) (a0 a1 : Nat) : (s.raiseDev fails code inst sub job dev a0 a1).cxl = s.cxl := by
  rw [State.raiseDev_quiet (r0 := s) (s := s) rfl]
@[simp] theorem State.raiseDev_cxlCfg (s : State) (fails : Bool) (code inst sub : Nat) (job dev : Option Nat) (a0 a1 : Nat) : (s.raiseDev fails code inst sub job dev a0 a1).cxlCfg = s.cxlCfg := by
  rw [State.raiseDev_quiet (r0 := s) (s := s) rfl]
@[simp] theorem State.raiseDev_jobs (s : State) (fails : Bool) (code inst sub : Nat) (job dev : Option Nat) (a0 a1 : Nat) : (s.raiseDev fails code inst sub job dev a0 a1).jobs = s.jobs := by
  rw [State.raiseDev_quiet (r0 := s) (s := s) rfl]
@[simp] theorem State.raiseDev_tel (s : State) (fails : Bool) (code inst sub : Nat) (job dev : Option Nat) (a0 a1 : Nat) : (s.raiseDev fails code inst sub job dev a0 a1).tel = s.tel := by
  rw [State.raiseDev_quiet (r0 := s) (s := s) rfl]
@[simp] theorem State.raiseDev_power (s : State) (fails : Bool) (code inst sub : Nat) (job dev : Option Nat) (a0 a1 : Nat) : (s.raiseDev fails code inst sub job dev a0 a1).power = s.power := by
  rw [State.raiseDev_quiet (r0 := s) (s := s) rfl]
@[simp] theorem State.raiseDev_sec (s : State) (fails : Bool) (code inst sub : Nat) (job dev : Option Nat) (a0 a1 : Nat) : (s.raiseDev fails code inst sub job dev a0 a1).sec = s.sec := by
  rw [State.raiseDev_quiet (r0 := s) (s := s) rfl]
@[simp] theorem State.raiseDev_pins (s : State) (fails : Bool) (code inst sub : Nat) (job dev : Option Nat) (a0 a1 : Nat) : (s.raiseDev fails code inst sub job dev a0 a1).pins = s.pins := by
  rw [State.raiseDev_quiet (r0 := s) (s := s) rfl]
@[simp] theorem State.raiseDev_tap (s : State) (fails : Bool) (code inst sub : Nat) (job dev : Option Nat) (a0 a1 : Nat) : (s.raiseDev fails code inst sub job dev a0 a1).tap = s.tap := by
  rw [State.raiseDev_quiet (r0 := s) (s := s) rfl]
@[simp] theorem State.record_pending (s : State) (code inst sub : Nat) (job dev : Option Nat) (a0 a1 : Nat) : (s.record code inst sub job dev a0 a1).pending = s.pending := by
  rw [State.record_quiet (r0 := s) (s := s) rfl]
@[simp] theorem State.record_cores (s : State) (code inst sub : Nat) (job dev : Option Nat) (a0 a1 : Nat) : (s.record code inst sub job dev a0 a1).cores = s.cores := by
  rw [State.record_quiet (r0 := s) (s := s) rfl]
@[simp] theorem State.record_units (s : State) (code inst sub : Nat) (job dev : Option Nat) (a0 a1 : Nat) : (s.record code inst sub job dev a0 a1).units = s.units := by
  rw [State.record_quiet (r0 := s) (s := s) rfl]
@[simp] theorem State.record_locals (s : State) (code inst sub : Nat) (job dev : Option Nat) (a0 a1 : Nat) : (s.record code inst sub job dev a0 a1).locals = s.locals := by
  rw [State.record_quiet (r0 := s) (s := s) rfl]
@[simp] theorem State.record_queues (s : State) (code inst sub : Nat) (job dev : Option Nat) (a0 a1 : Nat) : (s.record code inst sub job dev a0 a1).queues = s.queues := by
  rw [State.record_quiet (r0 := s) (s := s) rfl]
@[simp] theorem State.record_dus (s : State) (code inst sub : Nat) (job dev : Option Nat) (a0 a1 : Nat) : (s.record code inst sub job dev a0 a1).dus = s.dus := by
  rw [State.record_quiet (r0 := s) (s := s) rfl]
@[simp] theorem State.record_gddr (s : State) (code inst sub : Nat) (job dev : Option Nat) (a0 a1 : Nat) : (s.record code inst sub job dev a0 a1).gddr = s.gddr := by
  rw [State.record_quiet (r0 := s) (s := s) rfl]
@[simp] theorem State.record_gddrErr (s : State) (code inst sub : Nat) (job dev : Option Nat) (a0 a1 : Nat) : (s.record code inst sub job dev a0 a1).gddrErr = s.gddrErr := by
  rw [State.record_quiet (r0 := s) (s := s) rfl]
@[simp] theorem State.record_ctrls (s : State) (code inst sub : Nat) (job dev : Option Nat) (a0 a1 : Nat) : (s.record code inst sub job dev a0 a1).ctrls = s.ctrls := by
  rw [State.record_quiet (r0 := s) (s := s) rfl]
@[simp] theorem State.record_tier (s : State) (code inst sub : Nat) (job dev : Option Nat) (a0 a1 : Nat) : (s.record code inst sub job dev a0 a1).tier = s.tier := by
  rw [State.record_quiet (r0 := s) (s := s) rfl]
@[simp] theorem State.record_cxl (s : State) (code inst sub : Nat) (job dev : Option Nat) (a0 a1 : Nat) : (s.record code inst sub job dev a0 a1).cxl = s.cxl := by
  rw [State.record_quiet (r0 := s) (s := s) rfl]
@[simp] theorem State.record_cxlCfg (s : State) (code inst sub : Nat) (job dev : Option Nat) (a0 a1 : Nat) : (s.record code inst sub job dev a0 a1).cxlCfg = s.cxlCfg := by
  rw [State.record_quiet (r0 := s) (s := s) rfl]
@[simp] theorem State.record_jobs (s : State) (code inst sub : Nat) (job dev : Option Nat) (a0 a1 : Nat) : (s.record code inst sub job dev a0 a1).jobs = s.jobs := by
  rw [State.record_quiet (r0 := s) (s := s) rfl]
@[simp] theorem State.record_tel (s : State) (code inst sub : Nat) (job dev : Option Nat) (a0 a1 : Nat) : (s.record code inst sub job dev a0 a1).tel = s.tel := by
  rw [State.record_quiet (r0 := s) (s := s) rfl]
@[simp] theorem State.record_power (s : State) (code inst sub : Nat) (job dev : Option Nat) (a0 a1 : Nat) : (s.record code inst sub job dev a0 a1).power = s.power := by
  rw [State.record_quiet (r0 := s) (s := s) rfl]
@[simp] theorem State.record_sec (s : State) (code inst sub : Nat) (job dev : Option Nat) (a0 a1 : Nat) : (s.record code inst sub job dev a0 a1).sec = s.sec := by
  rw [State.record_quiet (r0 := s) (s := s) rfl]
@[simp] theorem State.record_pins (s : State) (code inst sub : Nat) (job dev : Option Nat) (a0 a1 : Nat) : (s.record code inst sub job dev a0 a1).pins = s.pins := by
  rw [State.record_quiet (r0 := s) (s := s) rfl]
@[simp] theorem State.record_tap (s : State) (code inst sub : Nat) (job dev : Option Nat) (a0 a1 : Nat) : (s.record code inst sub job dev a0 a1).tap = s.tap := by
  rw [State.record_quiet (r0 := s) (s := s) rfl]
@[simp] theorem State.coreEv_pending (s : State) (c : CoreId) (code a0 a1 : Nat) : (s.coreEv c code a0 a1).pending = s.pending := by
  rw [State.coreEv_quiet (r0 := s) (s := s) rfl]
@[simp] theorem State.coreEv_cores (s : State) (c : CoreId) (code a0 a1 : Nat) : (s.coreEv c code a0 a1).cores = s.cores := by
  rw [State.coreEv_quiet (r0 := s) (s := s) rfl]
@[simp] theorem State.coreEv_units (s : State) (c : CoreId) (code a0 a1 : Nat) : (s.coreEv c code a0 a1).units = s.units := by
  rw [State.coreEv_quiet (r0 := s) (s := s) rfl]
@[simp] theorem State.coreEv_locals (s : State) (c : CoreId) (code a0 a1 : Nat) : (s.coreEv c code a0 a1).locals = s.locals := by
  rw [State.coreEv_quiet (r0 := s) (s := s) rfl]
@[simp] theorem State.coreEv_queues (s : State) (c : CoreId) (code a0 a1 : Nat) : (s.coreEv c code a0 a1).queues = s.queues := by
  rw [State.coreEv_quiet (r0 := s) (s := s) rfl]
@[simp] theorem State.coreEv_dus (s : State) (c : CoreId) (code a0 a1 : Nat) : (s.coreEv c code a0 a1).dus = s.dus := by
  rw [State.coreEv_quiet (r0 := s) (s := s) rfl]
@[simp] theorem State.coreEv_gddr (s : State) (c : CoreId) (code a0 a1 : Nat) : (s.coreEv c code a0 a1).gddr = s.gddr := by
  rw [State.coreEv_quiet (r0 := s) (s := s) rfl]
@[simp] theorem State.coreEv_gddrErr (s : State) (c : CoreId) (code a0 a1 : Nat) : (s.coreEv c code a0 a1).gddrErr = s.gddrErr := by
  rw [State.coreEv_quiet (r0 := s) (s := s) rfl]
@[simp] theorem State.coreEv_ctrls (s : State) (c : CoreId) (code a0 a1 : Nat) : (s.coreEv c code a0 a1).ctrls = s.ctrls := by
  rw [State.coreEv_quiet (r0 := s) (s := s) rfl]
@[simp] theorem State.coreEv_tier (s : State) (c : CoreId) (code a0 a1 : Nat) : (s.coreEv c code a0 a1).tier = s.tier := by
  rw [State.coreEv_quiet (r0 := s) (s := s) rfl]
@[simp] theorem State.coreEv_cxl (s : State) (c : CoreId) (code a0 a1 : Nat) : (s.coreEv c code a0 a1).cxl = s.cxl := by
  rw [State.coreEv_quiet (r0 := s) (s := s) rfl]
@[simp] theorem State.coreEv_cxlCfg (s : State) (c : CoreId) (code a0 a1 : Nat) : (s.coreEv c code a0 a1).cxlCfg = s.cxlCfg := by
  rw [State.coreEv_quiet (r0 := s) (s := s) rfl]
@[simp] theorem State.coreEv_jobs (s : State) (c : CoreId) (code a0 a1 : Nat) : (s.coreEv c code a0 a1).jobs = s.jobs := by
  rw [State.coreEv_quiet (r0 := s) (s := s) rfl]
@[simp] theorem State.coreEv_tel (s : State) (c : CoreId) (code a0 a1 : Nat) : (s.coreEv c code a0 a1).tel = s.tel := by
  rw [State.coreEv_quiet (r0 := s) (s := s) rfl]
@[simp] theorem State.coreEv_power (s : State) (c : CoreId) (code a0 a1 : Nat) : (s.coreEv c code a0 a1).power = s.power := by
  rw [State.coreEv_quiet (r0 := s) (s := s) rfl]
@[simp] theorem State.coreEv_sec (s : State) (c : CoreId) (code a0 a1 : Nat) : (s.coreEv c code a0 a1).sec = s.sec := by
  rw [State.coreEv_quiet (r0 := s) (s := s) rfl]
@[simp] theorem State.coreEv_pins (s : State) (c : CoreId) (code a0 a1 : Nat) : (s.coreEv c code a0 a1).pins = s.pins := by
  rw [State.coreEv_quiet (r0 := s) (s := s) rfl]
@[simp] theorem State.coreEv_tap (s : State) (c : CoreId) (code a0 a1 : Nat) : (s.coreEv c code a0 a1).tap = s.tap := by
  rw [State.coreEv_quiet (r0 := s) (s := s) rfl]
@[simp] theorem State.failStep_pending (s : State) (job : Option Nat) : (s.failStep job).pending = s.pending := by
  rw [State.failStep_quiet (r0 := s) (s := s) rfl]
@[simp] theorem State.failStep_cores (s : State) (job : Option Nat) : (s.failStep job).cores = s.cores := by
  rw [State.failStep_quiet (r0 := s) (s := s) rfl]
@[simp] theorem State.failStep_units (s : State) (job : Option Nat) : (s.failStep job).units = s.units := by
  rw [State.failStep_quiet (r0 := s) (s := s) rfl]
@[simp] theorem State.failStep_locals (s : State) (job : Option Nat) : (s.failStep job).locals = s.locals := by
  rw [State.failStep_quiet (r0 := s) (s := s) rfl]
@[simp] theorem State.failStep_queues (s : State) (job : Option Nat) : (s.failStep job).queues = s.queues := by
  rw [State.failStep_quiet (r0 := s) (s := s) rfl]
@[simp] theorem State.failStep_dus (s : State) (job : Option Nat) : (s.failStep job).dus = s.dus := by
  rw [State.failStep_quiet (r0 := s) (s := s) rfl]
@[simp] theorem State.failStep_gddr (s : State) (job : Option Nat) : (s.failStep job).gddr = s.gddr := by
  rw [State.failStep_quiet (r0 := s) (s := s) rfl]
@[simp] theorem State.failStep_gddrErr (s : State) (job : Option Nat) : (s.failStep job).gddrErr = s.gddrErr := by
  rw [State.failStep_quiet (r0 := s) (s := s) rfl]
@[simp] theorem State.failStep_ctrls (s : State) (job : Option Nat) : (s.failStep job).ctrls = s.ctrls := by
  rw [State.failStep_quiet (r0 := s) (s := s) rfl]
@[simp] theorem State.failStep_tier (s : State) (job : Option Nat) : (s.failStep job).tier = s.tier := by
  rw [State.failStep_quiet (r0 := s) (s := s) rfl]
@[simp] theorem State.failStep_cxl (s : State) (job : Option Nat) : (s.failStep job).cxl = s.cxl := by
  rw [State.failStep_quiet (r0 := s) (s := s) rfl]
@[simp] theorem State.failStep_cxlCfg (s : State) (job : Option Nat) : (s.failStep job).cxlCfg = s.cxlCfg := by
  rw [State.failStep_quiet (r0 := s) (s := s) rfl]
@[simp] theorem State.failStep_jobs (s : State) (job : Option Nat) : (s.failStep job).jobs = s.jobs := by
  rw [State.failStep_quiet (r0 := s) (s := s) rfl]
@[simp] theorem State.failStep_tel (s : State) (job : Option Nat) : (s.failStep job).tel = s.tel := by
  rw [State.failStep_quiet (r0 := s) (s := s) rfl]
@[simp] theorem State.failStep_power (s : State) (job : Option Nat) : (s.failStep job).power = s.power := by
  rw [State.failStep_quiet (r0 := s) (s := s) rfl]
@[simp] theorem State.failStep_sec (s : State) (job : Option Nat) : (s.failStep job).sec = s.sec := by
  rw [State.failStep_quiet (r0 := s) (s := s) rfl]
@[simp] theorem State.failStep_pins (s : State) (job : Option Nat) : (s.failStep job).pins = s.pins := by
  rw [State.failStep_quiet (r0 := s) (s := s) rfl]
@[simp] theorem State.failStep_tap (s : State) (job : Option Nat) : (s.failStep job).tap = s.tap := by
  rw [State.failStep_quiet (r0 := s) (s := s) rfl]

@[simp] theorem State.raise_core (s : State) (code inst sub : Nat) (job : Option Nat) (a0 a1 : Nat) (c : CoreId) : (s.raise code inst sub job a0 a1).core c = s.core c := by
  simp [State.core]
@[simp] theorem State.raise_unit (s : State) (code inst sub : Nat) (job : Option Nat) (a0 a1 : Nat) (c : CoreId) : (s.raise code inst sub job a0 a1).unit c = s.unit c := by
  simp [State.unit]
@[simp] theorem State.raise_loc (s : State) (code inst sub : Nat) (job : Option Nat) (a0 a1 : Nat) (c : CoreId) : (s.raise code inst sub job a0 a1).loc c = s.loc c := by
  simp [State.loc]
@[simp] theorem State.raiseIf_core (s : State) (fails : Bool) (code inst sub : Nat) (job : Option Nat) (a0 a1 : Nat) (c : CoreId) : (s.raiseIf fails code inst sub job a0 a1).core c = s.core c := by
  simp [State.core]
@[simp] theorem State.raiseIf_unit (s : State) (fails : Bool) (code inst sub : Nat) (job : Option Nat) (a0 a1 : Nat) (c : CoreId) : (s.raiseIf fails code inst sub job a0 a1).unit c = s.unit c := by
  simp [State.unit]
@[simp] theorem State.raiseIf_loc (s : State) (fails : Bool) (code inst sub : Nat) (job : Option Nat) (a0 a1 : Nat) (c : CoreId) : (s.raiseIf fails code inst sub job a0 a1).loc c = s.loc c := by
  simp [State.loc]
@[simp] theorem State.raiseDev_core (s : State) (fails : Bool) (code inst sub : Nat) (job dev : Option Nat) (a0 a1 : Nat) (c : CoreId) : (s.raiseDev fails code inst sub job dev a0 a1).core c = s.core c := by
  simp [State.core]
@[simp] theorem State.raiseDev_unit (s : State) (fails : Bool) (code inst sub : Nat) (job dev : Option Nat) (a0 a1 : Nat) (c : CoreId) : (s.raiseDev fails code inst sub job dev a0 a1).unit c = s.unit c := by
  simp [State.unit]
@[simp] theorem State.raiseDev_loc (s : State) (fails : Bool) (code inst sub : Nat) (job dev : Option Nat) (a0 a1 : Nat) (c : CoreId) : (s.raiseDev fails code inst sub job dev a0 a1).loc c = s.loc c := by
  simp [State.loc]
@[simp] theorem State.record_core (s : State) (code inst sub : Nat) (job dev : Option Nat) (a0 a1 : Nat) (c : CoreId) : (s.record code inst sub job dev a0 a1).core c = s.core c := by
  simp [State.core]
@[simp] theorem State.record_unit (s : State) (code inst sub : Nat) (job dev : Option Nat) (a0 a1 : Nat) (c : CoreId) : (s.record code inst sub job dev a0 a1).unit c = s.unit c := by
  simp [State.unit]
@[simp] theorem State.record_loc (s : State) (code inst sub : Nat) (job dev : Option Nat) (a0 a1 : Nat) (c : CoreId) : (s.record code inst sub job dev a0 a1).loc c = s.loc c := by
  simp [State.loc]
@[simp] theorem State.coreEv_core (s : State) (d : CoreId) (code a0 a1 : Nat) (c : CoreId) : (s.coreEv d code a0 a1).core c = s.core c := by
  simp [State.core]
@[simp] theorem State.coreEv_unit (s : State) (d : CoreId) (code a0 a1 : Nat) (c : CoreId) : (s.coreEv d code a0 a1).unit c = s.unit c := by
  simp [State.unit]
@[simp] theorem State.coreEv_loc (s : State) (d : CoreId) (code a0 a1 : Nat) (c : CoreId) : (s.coreEv d code a0 a1).loc c = s.loc c := by
  simp [State.loc]
@[simp] theorem State.failStep_core (s : State) (job : Option Nat) (c : CoreId) : (s.failStep job).core c = s.core c := by
  simp [State.core]
@[simp] theorem State.failStep_unit (s : State) (job : Option Nat) (c : CoreId) : (s.failStep job).unit c = s.unit c := by
  simp [State.unit]
@[simp] theorem State.failStep_loc (s : State) (job : Option Nat) (c : CoreId) : (s.failStep job).loc c = s.loc c := by
  simp [State.loc]

end Sys2Proof.Machine
end

