-- ==== Sys2Proof/WellFormed.lean ====
section
/-!
DEFINITION. Which commands are well-formed: the operands are ones that the outside can present. A command that is not
well-formed is still total in the machine, which takes no more of an operand than the hardware has places for.
-/

namespace Sys2Proof

/-- An upset strikes a place that exists (R30, R226, R251) and turns at least one bit round. -/
def Upset.wf : Upset → Bool
  | .imem _ i _ => decide (i < 32768)
  | .sp _ lane flip => decide (lane < 0x200000) && flip != 0#64
  | .gddr line flip => decide (line < 0x60000000) && flip != 0#512
  | .queuePtr _ => true
  | .crc line bursts => decide (line < 0x60000000 ∧ 0 < bursts ∧ bursts ≤ 5)
  | .onDie _ n => decide (0 < n)
  | .aer _ errs => errs != 0#32

/-- A host answers a read with no more than 4,096 bytes, the largest Max Read Request Size (R331). -/
def HostReply.wf : HostReply → Bool
  | .ok data => decide (data.length ≤ 4096)
  | .ur => true
  | .ca => true
  | .poison => true
  | .timeout => true

/-- A residue error names a row that exists, at most the 4,096 streamed steps of R66, a cube-column and an element of the
block (R85). -/
def CubeErr.wf (e : CubeErr) : Bool := decide (e.row < 4096 ∧ e.col < 5 ∧ e.el < 64)

/-- Every error of a pass and of its retry exists. -/
def CheckFault.wf (f : CheckFault) : Bool := f.first.all CubeErr.wf && f.again.all CubeErr.wf

/-- A flit is 256 bytes (R274). -/
def flitWf (f : List Byte) : Bool := f.length == 256

/-- A request over MCTP has an ARG of 24 bits and a buffer of 4 KiB (R419, R420). -/
def requestWf : Option (Nat × List Byte) → Bool
  | none => true
  | some (arg, buf) => decide (arg < 2 ^ 24 ∧ buf.length ≤ 4096)

/-- A configuration write of sizes and timeouts that their fields can hold (R331). -/
def PcieCfg.wf : PcieCfg → Bool
  | .vfEnable _ => true
  | .power _ => true
  | .control mps mrrs _ => decide (mps < 8 ∧ mrrs < 8)
  | .timeout v => decide (v < 16)
  | .tags _ => true
  | .msix _ _ => true
  | .aer _ => true
  | .aerUnc _ => true
  | .ecrc _ _ => true

/-- An access of a controller lies within one granule of 256 bytes, and a write brings as many bytes (R249, R254). -/
def memWf (addr len : Nat) (data : Option (List Byte)) : Bool :=
  decide (0 < len ∧ addr / 256 = (addr + len - 1) / 256) && data.all (fun bs => bs.length == len)

/-- An access through BAR4 lies within its 1 GiB and within a packet (R331, R337). -/
def bar4Wf (o len : Nat) (data : Option (List Byte)) : Bool :=
  decide (o < 0x40000000 ∧ len ≤ 4096) && data.all (fun bs => decide (bs.length ≤ 4096))

/-- Whether a command is well-formed. -/
def Instr.wf : Instr → Bool
  | .registerWrite _ _ o _ _ _ _ => Nat.blt o 0x2000000
  | .rcRegisterRead _ _ o _ _ => Nat.blt o 0x2000000
  | .nop _ us => us.all Upset.wf
  | .halt _ us => us.all Upset.wf
  | .yield _ us => us.all Upset.wf
  | .jmp _ us => us.all Upset.wf
  | .call _ us => us.all Upset.wf
  | .ret _ us => us.all Upset.wf
  | .loop _ us => us.all Upset.wf
  | .add _ us => us.all Upset.wf
  | .sub _ us => us.all Upset.wf
  | .and _ us => us.all Upset.wf
  | .or _ us => us.all Upset.wf
  | .xor _ us => us.all Upset.wf
  | .shl _ us => us.all Upset.wf
  | .shr _ us => us.all Upset.wf
  | .sra _ us => us.all Upset.wf
  | .mul _ us => us.all Upset.wf
  | .cmp _ us => us.all Upset.wf
  | .li _ us => us.all Upset.wf
  | .ld _ us => us.all Upset.wf
  | .st _ us => us.all Upset.wf
  | .getsys _ us => us.all Upset.wf
  | .vld _ _ us => us.all Upset.wf
  | .vst _ _ us => us.all Upset.wf
  | .vadd _ _ us => us.all Upset.wf
  | .vsub _ _ us => us.all Upset.wf
  | .vmul _ _ us => us.all Upset.wf
  | .vfma _ _ us => us.all Upset.wf
  | .vmax _ _ us => us.all Upset.wf
  | .vmin _ _ us => us.all Upset.wf
  | .vcvt _ _ us => us.all Upset.wf
  | .vquant _ _ us => us.all Upset.wf
  | .vdeq _ _ us => us.all Upset.wf
  | .vhad _ _ us => us.all Upset.wf
  | .vred _ _ us => us.all Upset.wf
  | .vcbld _ _ us => us.all Upset.wf
  | .vhist _ _ us => us.all Upset.wf
  | .vste _ _ us => us.all Upset.wf
  | .vfix _ _ us => us.all Upset.wf
  | .vaddx _ _ us => us.all Upset.wf
  | .vsel _ _ us => us.all Upset.wf
  | .vbcast _ _ us => us.all Upset.wf
  | .vmovs _ _ us => us.all Upset.wf
  | .xferCopy _ us => us.all Upset.wf
  | .pass _ us => us.all Upset.wf
  | .qopPush _ _ us => us.all Upset.wf
  | .qopPop _ _ us => us.all Upset.wf
  | .qopDrop _ _ us => us.all Upset.wf
  | .qopStat _ _ us => us.all Upset.wf
  | .qopCommit _ _ us => us.all Upset.wf
  | .qopCancel _ _ us => us.all Upset.wf
  | .dispRoute _ _ us => us.all Upset.wf
  | .dispCommit _ _ us => us.all Upset.wf
  | .dispCancel _ _ us => us.all Upset.wf
  | .dispStat _ _ us => us.all Upset.wf
  | .signal _ us => us.all Upset.wf
  | .wait _ us => us.all Upset.wf
  | .set _ us => us.all Upset.wf
  | .fence _ us => us.all Upset.wf
  | .slotFill _ _ us => us.all Upset.wf
  | .slotDrain _ _ us => us.all Upset.wf
  | .slotWaitf _ us => us.all Upset.wf
  | .slotWaite _ us => us.all Upset.wf
  | .unitInstrStart _ _ us => us.all Upset.wf
  | .unitInstrComplete _ _ us => us.all Upset.wf
  | .haltDrainComplete _ => true
  | .semaphoreSignalApply _ => true
  | .heldSignalRetry _ => true
  | .semTimeoutExpiry _ => true
  | .slotTimeoutExpiry _ _ => true
  | .coreStart _ => true
  | .coreStop _ => true
  | .coreStep _ => true
  | .yieldReq _ => true
  | .coreSaveComplete _ us => us.all Upset.wf
  | .coreRestoreComplete _ us => us.all Upset.wf
  | .imemDataLoWrite _ _ => true
  | .imemDataHiWrite _ _ => true
  | .imemDataHiRead _ => true
  | .passStart _ _ us => us.all Upset.wf
  | .passComplete _ _ f us => f.wf && us.all Upset.wf
  | .muSpareWrite _ _ _ => true
  | .vqClr _ _ => true
  | .dispatchRequestStart _ us => us.all Upset.wf
  | .dispatchRequestEffect _ us => us.all Upset.wf
  | .duCancel _ _ => true
  | .duStatclr _ _ => true
  | .duTblOwnerWrite _ _ => true
  | .duTblEnWrite _ _ => true
  | .dtEntryWrite _ _ _ _ => true
  | .queueCellAccept _ _ us => us.all Upset.wf
  | .queuePoolRefill _ us => us.all Upset.wf
  | .queueMarkerApply _ _ us => us.all Upset.wf
  | .queueForwardSend _ us => us.all Upset.wf
  | .qfcInRise _ _ => true
  | .queueEn _ _ => true
  | .queueFlush _ => true
  | .queueClr _ => true
  | .qWmWrite _ _ => true
  | .queueWindowPush _ _ => true
  | .spLaneRewrite _ us => us.all Upset.wf
  | .spClear _ _ => true
  | .spClearComplete _ us => us.all Upset.wf
  | .spBankPwr _ _ _ => true
  | .bankTransitionComplete _ _ => true
  | .dmaTransferStart _ us hs => us.all Upset.wf && hs.all HostReply.wf
  | .dmaTransferComplete _ _ us hs => us.all Upset.wf && hs.all HostReply.wf
  | .windowAccessRetry _ us _ => us.all Upset.wf
  | .memRequest _ _ _ addr len data us => memWf addr len data && us.all Upset.wf
  | .memRequestComplete _ _ _ us _ => us.all Upset.wf
  | .gddr7Retrain _ _ => true
  | .scrubRead _ us => us.all Upset.wf
  | .gddr7SelfRefresh _ _ _ => true
  | .cxlPortEn _ _ => true
  | .cxlEnumComplete _ _ _ => true
  | .cxlResponse _ i _ => Nat.blt i 1024
  | .cxlTimeoutExpiry _ i => Nat.blt i 1024
  | .cxlLinkLoss _ _ => true
  | .cxlCfgDataAccess _ _ _ => true
  | .linkEn _ _ _ => true
  | .laneLock _ _ => true
  | .laneAlign _ => true
  | .paramFlit _ f _ _ _ _ => flitWf f
  | .linkStateTimeout _ => true
  | .linkFailedRetry _ => true
  | .laneLockLoss _ _ => true
  | .dataFlit _ f _ _ _ => flitWf f
  | .idleFlit _ f _ _ _ => flitWf f
  | .nakFlit _ f _ _ _ => flitWf f
  | .ackTimeoutExpiry _ => true
  | .linkPacketStart _ => true
  | .qcells _ => true
  | .write _ us _ => us.all Upset.wf
  | .read _ us _ => us.all Upset.wf
  | .readRsp _ => true
  | .writeAck _ => true
  | .e2eTimeoutExpiry _ => true
  | .coll _ us => us.all Upset.wf
  | .collAck _ => true
  | .collNakTimerExpiry _ _ _ => true
  | .collResendTimerExpiry _ _ _ => true
  | .qflow _ => true
  | .repinHoldExpiry _ _ _ => true
  | .routeEntryWrite _ _ => true
  | .planeEnWrite _ => true
  | .timeExchange => true
  | .timeRequest _ => true
  | .timeReply _ => true
  | .handoverAccept _ us => us.all Upset.wf
  | .exp _ => true
  | .pending _ => true
  | .deadlineExpiry _ _ => true
  | .decide _ us => us.all Upset.wf
  | .rclWorkResult _ _ i us => Nat.blt i 255 && us.all Upset.wf
  | .rclReadyReached _ => true
  | .belayRelease _ => true
  | .ready _ => true
  | .fail _ => true
  | .commit _ => true
  | .abandon _ => true
  | .commitTimeoutExpiry _ => true
  | .commitWaitExpiry _ => true
  | .cairnComplete _ _ => true
  | .jobEn _ _ => true
  | .jobBelayEn _ _ => true
  | .jobFail _ => true
  | .sqDoorbell _ _ _ => true
  | .cqDoorbell _ _ _ => true
  | .descriptorFetch _ n reply => Nat.blt 0 n && Nat.ble n 16 && reply.wf
  | .descriptorStart _ => true
  | .descriptorComplete _ i => Nat.blt i 64
  | .hostNop _ i => Nat.blt i 64
  | .loadProg _ us hs _ i => Nat.blt i 64 && us.all Upset.wf && hs.all HostReply.wf
  | .run _ i => Nat.blt i 64
  | .runComplete _ i => Nat.blt i 64
  | .runTimeoutExpiry _ i => Nat.blt i 64
  | .copy _ us hs _ i => Nat.blt i 64 && us.all Upset.wf && hs.all HostReply.wf
  | .qpush _ hs i => Nat.blt i 64 && hs.all HostReply.wf
  | .qpop _ i => Nat.blt i 64
  | .qpopComplete _ i us => Nat.blt i 64 && us.all Upset.wf
  | .qpopTimeoutExpiry _ i => Nat.blt i 64
  | .hostSignal _ i => Nat.blt i 64
  | .generate _ us _ i => Nat.blt i 64 && us.all Upset.wf
  | .modelInstall _ us hs _ i => Nat.blt i 64 && us.all Upset.wf && hs.all HostReply.wf
  | .modelEvict _ us _ i => Nat.blt i 64 && us.all Upset.wf
  | .modelPin _ i => Nat.blt i 64
  | .modelUnpin _ i => Nat.blt i 64
  | .modelSetPriority _ i => Nat.blt i 64
  | .jobOpen i => Nat.blt i 64
  | .jobClose us _ i => Nat.blt i 64 && us.all Upset.wf
  | .preempt i => Nat.blt i 64
  | .preemptTimeoutExpiry _ => true
  | .jobPlace _ _ => true
  | .jobRelease _ _ => true
  | .msixDelayExpiry _ => true
  | .msixUnmask fn vec => fn == 0 || Nat.blt vec.val 64
  | .ringEn _ _ _ => true
  | .hoRelease _ => true
  | .hoTake _ => true
  | .hoHeartbeat _ => true
  | .hbTimeoutExpiry => true
  | .ownerLinkDownTimer => true
  | .handoverComplete _ => true
  | .portDataLinkDown _ => true
  | .flrPf _ _ => true
  | .flrVf _ _ => true
  | .bar4Access _ o len data us _ => bar4Wf o len data && us.all Upset.wf
  | .modReset _ _ => true
  | .perstNOwner _ => true
  | .perstNStandby => true
  | .telExport _ => true
  | .telExportRun us => us.all Upset.wf
  | .telExportDone us => us.all Upset.wf
  | .powerInputValid => true
  | .ponTimerExpiry => true
  | .bootClockReady _ => true
  | .bootDone => true
  | .powerInputLost => true
  | .pdReqWrite _ _ => true
  | .pdSwitchOnComplete _ => true
  | .powerStageFault _ => true
  | .sclkLoss _ => true
  | .clockRecoveryTimer _ => true
  | .kclkPllLoss => true
  | .kclkPllRelock => true
  | .mclkPllLoss _ => true
  | .mclkPllRelock _ => true
  | .lclkPllLoss _ => true
  | .lclkPllRelock _ => true
  | .hostRefclkLoss _ => true
  | .cxlRefclkLoss _ => true
  | .cxlRefclkRestored _ => true
  | .governorEvaluation _ => true
  | .govCfgWrite _ _ => true
  | .junctionOvertemp => true
  | .thermalRecoveryTimer _ => true
  | .brumationGo _ _ => true
  | .brumationEntryEnd _ => true
  | .wakeN => true
  | .wakeComplete => true
  | .wdtKick _ => true
  | .wdtTimeoutExpiry => true
  | .mgrResetComplete => true
  | .attest m _ => requestWf m
  | .getCert m _ => requestWf m
  | .enrol m _ => requestWf m
  | .revoke m _ => requestWf m
  | .stage => true
  | .commitFw _ => true
  | .activate => true
  | .setEndpointId _ _ _ => true
  | .getEndpointId _ => true
  | .getMctpVersionSupport _ _ => true
  | .getMessageTypeSupport _ => true
  | .getVendorDefinedMessageSupport _ _ => true
  | .getTid _ => true
  | .getPldmVersion _ _ => true
  | .getPldmTypes _ => true
  | .getPldmCommands _ _ _ => true
  | .getSensorReading _ _ => true
  | .getStateSensorReadings _ _ => true
  | .getPdrRepositoryInfo _ => true
  | .getPdr _ _ => true
  | .queryDeviceIdentifiers _ => true
  | .getFirmwareParameters _ => true
  | .requestUpdate _ _ => true
  | .passComponentTable _ => true
  | .updateComponent image _ _ => Nat.ble image.length 0x1000000
  | .activateFirmware _ => true
  | .getStatus _ => true
  | .cancelUpdate _ => true
  | .shelfAlertAssert => true
  | .shelfAlertRelease => true
  | .coolantAlertAssert => true
  | .coolantAlertRelease => true
  | .tapReset => true
  | .extest _ _ => true
  | .idcode => true
  | .samplePreload _ _ => true
  | .clamp => true
  | .highz => true
  | .dbg _ _ => true
  | .bypass _ => true
  | .perstNRelease _ => true
  | .portDataLinkUp _ => true
  | .pcieConfigWrite _ _ c => c.wf
  | .completionTimeoutExpiry _ => true

end Sys2Proof
end

