-- ==== Sys2Proof/Tests/Slice0.lean ====
section
/-!
SUPPORT. Tests. `test_` theorems check single operations against values worked out from the spec or from the published test
vectors of the algorithms it names; `test_wf_` shows an ill-formed command that each check refuses. `wit_` theorems show a
concrete state and operands that meet the hypotheses of the statement they are named after, each clause at a boundary of its
range.
-/

-- The declarations of this file are elaborated in turn, so that checking the package as one text needs few threads.
set_option Elab.async false

open Sys2Proof Sys2Proof.Machine
namespace Sys2Proof.Tests

/-! ### Well-formedness -/

theorem test_wf_offset : (Instr.registerWrite .mgmt false 0x1FFFFF8 .whole 0 ⟨⟨[0]⟩, 0⟩).wf = true ∧
    (Instr.registerWrite .mgmt false 0x2000000 .whole 0 ⟨⟨[0]⟩, 0⟩).wf = false ∧
    (Instr.rcRegisterRead .mgmt false 0x2000000 .whole ⟨⟨[0]⟩, 0⟩).wf = false := by decide
theorem test_wf_upset_imem : (Instr.nop 0 [.imem 47 32767 true]).wf = true ∧ (Instr.nop 0 [.imem 47 32768 true]).wf = false := by decide
theorem test_wf_upset_sp : (Instr.nop 0 [.sp 0 0x1FFFFF 1#64]).wf = true ∧ (Instr.nop 0 [.sp 0 0x200000 1#64]).wf = false ∧
    (Instr.nop 0 [.sp 0 0 0#64]).wf = false := by decide +kernel
theorem test_wf_upset_gddr : (Instr.nop 0 [.gddr 0x5FFFFFFF 1#512]).wf = true ∧ (Instr.nop 0 [.gddr 0x60000000 1#512]).wf = false ∧
    (Instr.nop 0 [.gddr 0 0#512]).wf = false := by decide +kernel
theorem test_wf_upset_aer : (Instr.nop 0 [.aer true 1#32]).wf = true ∧ (Instr.nop 0 [.aer true 0#32]).wf = false := by decide
theorem test_wf_hostReply : (HostReply.ok (List.replicate 4096 0#8)).wf = true ∧ (HostReply.ok (List.replicate 4097 0#8)).wf = false := by
  decide +kernel
theorem test_wf_cubeErr : (CubeErr.mk 4095 4 63 1#24).wf = true ∧ (CubeErr.mk 4096 0 0 1#24).wf = false ∧
    (CubeErr.mk 0 5 0 1#24).wf = false ∧ (CubeErr.mk 0 0 64 1#24).wf = false := by decide
theorem test_wf_checkFault : ({ first := [⟨0, 0, 0, 1#24⟩] } : CheckFault).wf = true ∧
    ({ first := [⟨4096, 0, 0, 1#24⟩] } : CheckFault).wf = false ∧ ({ again := [⟨0, 5, 0, 1#24⟩] } : CheckFault).wf = false := by decide
theorem test_wf_flit : flitWf (List.replicate 256 0#8) = true ∧ flitWf (List.replicate 255 0#8) = false := by decide +kernel
theorem test_wf_request : requestWf (some (0xFFFFFF, [])) = true ∧ requestWf (some (0x1000000, [])) = false ∧
    requestWf (some (0, List.replicate 4097 0#8)) = false := by decide +kernel
theorem test_wf_pcieCfg : (PcieCfg.control 7 7 false).wf = true ∧ (PcieCfg.control 8 0 false).wf = false ∧
    (PcieCfg.control 0 8 false).wf = false ∧ (PcieCfg.timeout 16).wf = false := by decide
theorem test_wf_mem : memWf 0x1FC 4 none = true ∧ memWf 0x1FD 4 none = false ∧ memWf 0 0 none = false ∧ memWf 0 2 (some [1#8]) = false := by
  decide
theorem test_wf_bar4 : bar4Wf 0x3FFFFFFF 4096 none = true ∧ bar4Wf 0x40000000 1 none = false ∧ bar4Wf 0 4097 none = false := by decide
/-- The opcode table gives no row bits, so no word spells a command. -/
theorem test_decodeTableWord : decodeTableWord 64 0x1234 = none := rfl

/-- A running module: every domain on, controllers READY, links ACTIVE, job 0 open and holding C0 and C1. -/
def up : State :=
  { State.reset with
    power := { boot := .up }, locals := Vector.replicate 48 {}, ctrls := Vector.replicate 24 { ready := true }
    links := Vector.replicate 24 { st := .active }, host := { upA := true }
    regs := [(0x8000, 1#64), (0x8008, 3#64), (0x8010, 3#64), (0xA00060, 0xFFFFFFFFFFFFFFFF#64), (0x1000030, 0x100#64),
             (0x1010030, 0x100#64)] }

def at0 (w : W128) : State := up.setCore 0 { run := .running, imem := [(0, w)] }

def canIssue (s : State) (c : CoreId) (w : W128) (o : Op) : Bool :=
  s.domainOn c.val && fetch (s.core c) == .word w o false && !sdPending (s.core c) w && destRoom s c w o &&
  ((s.core c).pget (fPred w) != fPinv w) && !(s.core c).stepping

theorem issues_of {s : State} {c : CoreId} {w : W128} {o : Op} (h : canIssue s c w o = true) : Issues s c w o := by
  simp only [canIssue, Bool.and_eq_true, Bool.not_eq_true', bne_iff_ne, beq_iff_eq] at h
  obtain ⟨⟨⟨⟨⟨a, b⟩, d⟩, e⟩, f⟩, g⟩ := h
  exact ⟨⟨a, b, d, e⟩, f, g⟩

def ctlWords : List (Op × W128) := [
  (.nop, 0x0#128), (.halt, 0x100#128), (.yield, 0x200#128), (.jmp, 0x300#128), (.call, 0x400#128), (.ret, 0x500#128),
  (.loop, 0x1000000000000000000000600#128), (.add, 0x1000#128), (.sub, 0x1100#128), (.and, 0x1200#128), (.or, 0x1300#128),
  (.xor, 0x1400#128), (.shl, 0x1500#128), (.shr, 0x1600#128), (.sra, 0x1700#128), (.mul, 0x1800#128), (.cmp, 0x1900#128),
  (.li, 0x1A00#128), (.ld, 0x1B00#128), (.st, 0x1C00#128), (.getsys, 0x1D00#128)]

def vopWords : List (Op × W128) := [
  (.vld, 0x002#128), (.vst, 0x102#128), (.vadd, 0x202#128), (.vsub, 0x302#128), (.vmul, 0x402#128), (.vfma, 0x502#128),
  (.vmax, 0x602#128), (.vmin, 0x702#128), (.vcvt, 0x100000000802#128), (.vquant, 0x600000000902#128), (.vdeq, 0xA02#128),
  (.vhad, 0xB02#128), (.vred, 0xC02#128), (.vcbld, 0xD02#128), (.vhist, 0xE02#128), (.vste, 0x600000000F02#128),
  (.vfix, 0x80000001002#128), (.vaddx, 0x80000001102#128), (.vsel, 0x1202#128), (.vbcast, 0x1302#128), (.vmovs, 0x1402#128)]

def unitWords : List (Op × W128) := [
  (.xferCopy, 0x4000000003#128), (.pass, 0x000FFF0006600001#128), (.qopPush, 0x1000000000004#128), (.qopPop, 0x1000000000104#128),
  (.qopDrop, 0x204#128), (.qopStat, 0x304#128), (.qopCommit, 0x404#128), (.qopCancel, 0x504#128),
  (.dispRoute, 0x006#128), (.dispCommit, 0x106#128), (.dispCancel, 0x206#128), (.dispStat, 0x306#128),
  (.signal, 0x10000000000000005#128), (.wait, 0x1000000000FC00105#128), (.set, 0x1000000000FC00205#128), (.fence, 0xF0FC00305#128),
  (.slotFill, 0xFC00405#128), (.slotDrain, 0xFC00505#128), (.slotWaitf, 0xFC00605#128), (.slotWaite, 0xFC00705#128)]
theorem test_ctlWords : (ctlWords.all fun p => canIssue (at0 p.2) 0 p.2 p.1) = true := by decide +kernel
theorem test_vopWords : (vopWords.all fun p => canIssue (at0 p.2) 0 p.2 p.1) = true := by decide +kernel
theorem test_unitWords : (unitWords.all fun p => canIssue (at0 p.2) 0 p.2 p.1) = true := by decide +kernel

/-- A word of each operation, at the PC of a core that issues it: what the statements about core instructions assume. -/
theorem wit_issues : ∀ p ∈ ctlWords ++ vopWords ++ unitWords, Issues (strike (at0 p.2) []) 0 p.2 p.1 := by
  intro p hp
  rcases List.mem_append.mp hp with hp | hp
  · rcases List.mem_append.mp hp with hp | hp
    · exact issues_of (List.all_eq_true.mp test_ctlWords p hp)
    · exact issues_of (List.all_eq_true.mp test_vopWords p hp)
  · exact issues_of (List.all_eq_true.mp test_unitWords p hp)

/-! ### The machine as a whole -/

theorem wit_StepRunsTheFrontCommand : State.reset.pending = [] := rfl

theorem wit_StepLeavesTheWaitingCommands :
    let s := { State.reset with pending := [.coreStart 0, .coreStep 0] }
    s.pending = .coreStart 0 :: [.coreStep 0] ∧ step s = .next { State.reset with pending := [.coreStep 0] } :=
  ⟨rfl, rfl⟩

theorem wit_StepKeepsMemoriesCanonical :
    let s := { State.reset with pending := [.coreStart 0] }
    MemOk s ∧ s.pending = .coreStart 0 :: [] ∧ step s = .next State.reset := by
  refine ⟨⟨rfl, rfl, by decide +kernel, rfl, rfl⟩, rfl, rfl⟩

/-! ### Control -/

theorem wit_ScalarResult : Issues (strike (at0 0x1D00#128) []) 0 0x1D00#128 .getsys ∧ fld 0x1D00#128 64 4 = 0 ∧
    Issues (strike (at0 0x10000000000001D00#128) []) 0 0x10000000000001D00#128 .getsys ∧ fld 0x10000000000001D00#128 64 4 = 1 ∧
    ctlCond 0x1900#128 = 0 ∧ ctlCond 0x500001900#128 = 5 ∧ Issues (strike (at0 0x500001900#128) []) 0 0x500001900#128 .cmp :=
  ⟨issues_of (by decide +kernel), by decide +kernel, issues_of (by decide +kernel), by decide +kernel, by decide +kernel, by decide +kernel, issues_of (by decide +kernel)⟩

theorem wit_HardwiredScalarAndPredicate : fPred 0#128 = 0 ∧ fPinv 0#128 = false := by decide +kernel

def looping (n : W64) : Core := { loops := Vector.replicate 4 { count := n, first := 1, last := 5 } }
theorem wit_BranchResult : ((at0 0x400#128).core 0).calls.length < 16 ∧
    (∃ t rest, ((at0 0x500#128).setCore 0 { (at0 0x500#128).core 0 with calls := [7] } |>.core 0).calls = t :: rest) ∧
    Issues (strike ((at0 0x500#128).setCore 0 { (at0 0x500#128).core 0 with calls := [7] }) []) 0 0x500#128 .ret ∧
    (3 : Fin 4).val = fld 0x1000000000000000000030600#128 16 2 ∧
    Issues (strike (at0 0x1000000000000000000030600#128) []) 0 0x1000000000000000000030600#128 .loop :=
  ⟨by decide +kernel, ⟨7, [], by decide +kernel⟩, issues_of (by decide +kernel), by decide +kernel, issues_of (by decide +kernel)⟩

theorem wit_LoopEnd :
    (∀ l : Fin 4, (looping 1#64).loops[l].last = 5 → (looping 1#64).loops[l].count.toNat ≤ 1) ∧
    (let k : Core := { loops := (Vector.replicate 4 { }).set 2 { count := 2#64, first := 1, last := 5 } }
     k.loops[(2 : Fin 4)].last = 5 ∧ 1 < k.loops[(2 : Fin 4)].count.toNat ∧
     ∀ m : Fin 4, m ≠ 2 → k.loops[m].last = 5 → k.loops[m].count.toNat ≤ 1) := by decide +kernel

theorem wit_CallStackFaults :
    let s := at0 0x400#128
    let f := s.setCore 0 { s.core 0 with calls := List.replicate 16 1 }
    Issues (strike f []) 0 0x400#128 .call ∧ 16 ≤ ((strike f []).core 0).calls.length ∧
    Issues (strike (at0 0x500#128) []) 0 0x500#128 .ret ∧ ((strike (at0 0x500#128) []).core 0).calls = [] :=
  ⟨issues_of (by decide +kernel), by decide +kernel, issues_of (by decide +kernel), by decide +kernel⟩

/-- ADD under the inverted P0, which is false. -/
theorem wit_FalsePredicateOnlyAdvances :
    AtPc (strike (at0 0x1080#128) []) 0 0x1080#128 .add ∧ ¬ PredTrue (strike (at0 0x1080#128) []) 0 0x1080#128 ∧
    Flowing (strike (at0 0x1080#128) []) 0 :=
  ⟨⟨by decide +kernel, by decide +kernel, by decide +kernel, by decide +kernel⟩, by unfold PredTrue; decide, by unfold Flowing; decide +kernel⟩

theorem wit_NoIssueAndBadFetch :
    let s := at0 0#128
    let far := s.setCore 0 { s.core 0 with pc := 32768 }
    let err := s.setCore 0 { s.core 0 with pc := 32767, imemErr := [(32767, true)] }
    let ill := at0 0xF#128
    (State.reset.core 0).run ≠ .running ∧
    (far.domainOn 0 = true ∧ (far.core 0).run = .running ∧ (far.core 0).blocked = none ∧ 32768 ≤ (far.core 0).pc) ∧
    (err.domainOn 0 = true ∧ (err.core 0).run = .running ∧ (err.core 0).blocked = none ∧ (err.core 0).pc < 32768 ∧
      tget (err.core 0).imemErr (err.core 0).pc = some true) ∧
    (ill.domainOn 0 = true ∧ (ill.core 0).run = .running ∧ (ill.core 0).blocked = none ∧ (ill.core 0).pc < 32768 ∧
      tget (ill.core 0).imemErr (ill.core 0).pc ≠ some true ∧ decodeOp (ill.core 0).pc ((ill.core 0).word (ill.core 0).pc) = none) := by
  decide +kernel

/-! ### Scratchpad, halting -/

/-- LD and ST at the last 8 bytes of the scratchpad, at a misaligned address and beyond the end. -/
theorem wit_LoadStoreResult :
    let ok := at0 0xFFFFF80000000000001B00#128
    let odd := at0 0x40000000000001B00#128
    let far := at0 0x10000000000000000001C00#128
    let st := at0 0xFFFFF80000000000001C00#128
    (Issues (strike ok []) 0 0xFFFFF80000000000001B00#128 .ld ∧ SpFree (strike ok []) 0 0xFFFFF8 8 ∧
      (((strike ok []).core 0).sget (ctlSa 0xFFFFF80000000000001B00#128) + fImm 0xFFFFF80000000000001B00#128).toNat = 0xFFFFF8) ∧
    (Issues (strike odd []) 0 0x40000000000001B00#128 .ld ∧
      (((strike odd []).core 0).sget (ctlSa 0x40000000000001B00#128) + fImm 0x40000000000001B00#128).toNat % 8 ≠ 0) ∧
    (Issues (strike far []) 0 0x10000000000000000001C00#128 .st ∧
      0x1000000 ≤ (((strike far []).core 0).sget (ctlSa 0x10000000000000000001C00#128) + fImm 0x10000000000000000001C00#128).toNat) ∧
    (Issues (strike st []) 0 0xFFFFF80000000000001C00#128 .st ∧ SpFree (strike st []) 0 0xFFFFF8 8 ∧ MemOk (strike st []) ∧
      (((strike st []).core 0).sget (ctlSa 0xFFFFF80000000000001C00#128) + fImm 0xFFFFF80000000000001C00#128).toNat = 0xFFFFF8) := by
  unfold Issues AtPc PredTrue Flowing SpFree MemOk
  decide +kernel

/-- A core with an instruction outstanding on its vector engine. -/
def busy (s : State) : State := s.setUnit 0 { s.unit 0 with ve := [{ pc := 0 }] }

theorem wit_HaltAndYieldResult :
    (Issues (strike (busy (at0 0x100#128)) []) 0 0x100#128 .halt ∧ drained ((strike (busy (at0 0x100#128)) []).unit 0) = false) ∧
    (Issues (strike (at0 0x100#128) []) 0 0x100#128 .halt ∧ drained ((strike (at0 0x100#128) []).unit 0) = true) ∧
    (Issues (strike (at0 0x200#128) []) 0 0x200#128 .yield ∧ bit ((strike (at0 0x200#128) []).rd (coreBase (0 : CoreId) + 8)) 3 = false) ∧
    (let s := (busy (at0 0x200#128)).wr 0x1000008 8#64
     Issues (strike s []) 0 0x200#128 .yield ∧ bit ((strike s []).rd (coreBase (0 : CoreId) + 8)) 3 = true ∧ drained ((strike s []).unit 0) = false) := by
  unfold Issues AtPc PredTrue Flowing
  decide +kernel

theorem wit_UnitInstructionEntersItsQueue :
    (∀ p ∈ vopWords, destOf p.2 p.1 = some .ve) ∧ destOf 0x000FFF0006600001#128 .pass = some .mu0 ∧
    destOf 0x000FFF0006610001#128 .pass = some .mu1 ∧ destOf 0x4000000003#128 .xferCopy = some .dma ∧
    destOf 0x10000000000000005#128 .signal = some .fab := by decide +kernel

/-- The word of a WS pass of MU0 and that of an OS pass of MU1 on the same A codes. -/
def pairWords : W128 × W128 := (0x000FFF0006620001#128, 0x000FFF0006610001#128)

/-- An MU1 pass that pairs with the MU0 pass issued directly before it, and one whose B codes lie elsewhere. -/
theorem wit_PassPairs :
    let e (s1 : List W64) : Entry :=
      { pc := 1, word := pairWords.2, s := s1, after := some (0, pairWords.1, List.replicate 32 0#64) }
    let k0 : Core := { run := .running, imem := [(1, pairWords.2)], pc := 1, lastMu0 := some (0, pairWords.1, List.replicate 32 0#64) }
    let m : Entry := { pc := 0, word := pairWords.1, s := List.replicate 32 0#64 }
    let s := (up.setCore 0 k0).setUnit 0 { q := (Vector.replicate 5 []).set 0 [m] }
    pairing (e k0.snap) = some (some 0) ∧ Issues (strike s []) 0 pairWords.2 .pass ∧ qOf s 0 .mu0 = [] ++ [m] ∧
    pairing (e (List.replicate 32 64#64)) = none := by
  unfold Issues AtPc PredTrue Flowing
  decide +kernel

theorem wit_VectorRegisterResult :
    (∀ p ∈ vopWords, unitIdle ((at0 p.2).unit 0) .ve = true) ∧ (∀ p ∈ vopWords, vAux p.2 % 2 = 0) ∧
    (vSd 0xC02#128 = 0 ∧ fld 0x1402#128 64 11 = 0) := by decide +kernel

/-- VLD, VST, VCBLD and VHIST at the last address each may have. -/
theorem wit_VectorMemoryResult :
    let s (w : W128) := strike (at0 w) []
    let v : W128 := 0xFFFC000000000000000002#128
    let u : W128 := 0xFFFC000000000000000102#128
    let c : W128 := 0xFFFDC00000000000000D02#128
    let h : W128 := 0xFFFF000000000000000E02#128
    let a (w : W128) : Nat := (((s w).core 0).sget (vSa w) + fImm w).toNat
    (Issues (s v) 0 v .vld ∧ a v = 0x1000000 - 1024 ∧ SpFree (s v) 0 (0x1000000 - 1024) 1024 ∧ MemOk (s v)) ∧
    (Issues (s u) 0 u .vst ∧ a u = 0x1000000 - 1024) ∧
    (Issues (s h) 0 h .vhist ∧ (((s h).core 0).sget (vSa h) + BitVec.ofNat 64 (qOfs h)).toNat = 0x1000000 - 256 ∧
      SpFree (s h) 0 (0x1000000 - 256) 256) ∧
    (Issues (s c) 0 c .vcbld ∧ a c = 0x1000000 - 576 ∧ SpFree (s c) 0 (0x1000000 - 576) 576) := by
  unfold Issues AtPc PredTrue Flowing SpFree MemOk
  decide +kernel

/-- The record of a C4 codebook with the identity levels. -/
def c4Record : List Byte :=
  1#8 :: List.replicate 63 0#8 ++ (List.range 16).flatMap (fun u => leBytes 2 (if u < 8 then u else 65520 + u)) ++ List.replicate 480 0#8

theorem wit_VectorMemoryRecord :
    let m := Memory.write [] (0x1000000 - 576) c4Record
    (slotOfRecord ((List.range 576).map (fun i => m.get (0x1000000 - 576 + i)))).isSome = true := by decide +kernel

theorem wit_VectorQuantiseResult :
    let w : W128 := 0xFFFFF00000600000000902#128
    let v : W128 := 0xFFFFF00000600000000F02#128
    let h (w : W128) : Nat := (((strike (at0 w) []).core 0).sget (vSa w) + BitVec.ofNat 64 (qOfs w)).toNat
    (Issues (strike (at0 w) []) 0 w .vquant ∧ h w = 0xFFFFF0 ∧ 0xFFFFF0 % 16 = 0 ∧ 0xFFFFF0 + 2 * (256 / quantGsz w) ≤ 0x1000000 ∧
      SpFree (strike (at0 w) []) 0 0xFFFFF0 (2 * (256 / quantGsz w)) ∧ unitIdle ((at0 w).unit 0) .ve = true ∧ MemOk (strike (at0 w) [])) ∧
    (Issues (strike (at0 v) []) 0 v .vste ∧ h v = 0xFFFFF0) := by
  unfold Issues AtPc PredTrue Flowing SpFree MemOk
  decide +kernel

/-! ### Synchronisation -/

/-- A core whose semaphore 63 holds 1 and whose guard 0 is FILLED. -/
def synced (w : W128) : State :=
  (at0 w).setLoc 0 { sems := (Vector.replicate 64 0#16).set 63 1#16, guards := 1#4096 }

theorem wit_BlockingSyncResult :
    let set : W128 := 0xFFFF000000000FFF0205#128
    let wait : W128 := 0x1000000007FFF0105#128
    let more : W128 := 0xFFFF000000007FFF0105#128
    let fence : W128 := 0x1F0FC00305#128
    (Issues (strike (synced set) []) 0 set .set ∧ (63 : Fin 64).val = sySem set ∧ syValue set = 0xFFFF) ∧
    (Issues (strike (synced wait) []) 0 wait .wait ∧ (63 : Fin 64).val = sySem wait ∧
      syValue wait ≤ (((strike (synced wait) []).loc 0).sems[(63 : Fin 64)]).toNat) ∧
    (Issues (strike (synced more) []) 0 more .wait ∧ (63 : Fin 64).val = sySem more ∧
      (((strike (synced more) []).loc 0).sems[(63 : Fin 64)]).toNat < syValue more) ∧
    (Issues (strike (synced fence) []) 0 fence .fence ∧ syFab fence = true ∧ syUnits fence = 15 ∧
      (∀ u : UnitSel, unitIdle ((strike (synced fence) []).unit 0) u = true) ∧
      unitIdle ((strike (busy (synced fence)) []).unit 0) .ve = false ∧ Issues (strike (busy (synced fence)) []) 0 fence .fence) ∧
    (Issues (strike (synced 0xFC00605#128) []) 0 0xFC00605#128 .slotWaitf ∧ guardFilled (strike (synced 0xFC00605#128) []) 0 0 = true ∧
      sySlot 0xFC00605#128 = 0) ∧
    (Issues (strike (synced 0x0FFF00000FC00705#128) []) 0 0x0FFF00000FC00705#128 .slotWaite ∧
      guardFilled (strike (synced 0x0FFF00000FC00705#128) []) 0 4095 = false ∧ sySlot 0x0FFF00000FC00705#128 = 4095) := by
  unfold Issues AtPc PredTrue Flowing
  refine ⟨by decide +kernel, by decide +kernel, by decide +kernel, ⟨by decide +kernel, by decide +kernel, by decide +kernel, ?_, by decide +kernel, by decide +kernel⟩, by decide +kernel, by decide +kernel⟩
  intro u; cases u <;> decide +kernel

theorem wit_SlotGuardResult :
    Issues (strike (at0 0x0FFF00000FC00405#128) []) 0 0x0FFF00000FC00405#128 .slotFill ∧
    unitIdle ((strike (at0 0x0FFF00000FC00405#128) []).unit 0) .fab = true ∧
    ((strike (at0 0x0FFF00000FC00405#128) []).unit 0).held = [] ∧ sySlot 0x0FFF00000FC00405#128 = 4095 ∧
    Issues (strike (at0 0xFC00505#128) []) 0 0xFC00505#128 .slotDrain := by
  unfold Issues AtPc PredTrue Flowing
  decide +kernel

/-- C0 with a SIGNAL to core `t` at the head of its fabric queue. -/
def signalling (w : W128) (d : Run) : State :=
  let s := (at0 0#128).setUnit 0 { q := (Vector.replicate 5 []).set 4 [{ pc := 0, word := w, s := [] }] }
  s.setCore 1 { run := d }

theorem wit_SignalResult :
    let w : W128 := 0xFFFF0000000000400005#128 ||| 0x3F0000#128
    let far : W128 := 0xFFFF000000000BC00005#128
    let s := signalling w .running
    let holds (x : State) (d : Run) : Prop := x.inSet 0 1 = true ∧ x.domainOn 1 = true ∧ (x.core 1).run = d
    let drains := (signalling w (.draining (.halt 0#16))).setUnit 1 { ve := [{ pc := 0 }] }
    let rests (x : BitVec 16) := s.setCore 1 { run := .halted, status := x }
    let lent := (s.wr 0x8010 1#64).wr 0x8018 2#64
    (qOf s 0 .fab = { pc := 0, word := w, s := [] } :: [] ∧ decodeOp 0 w = some .signal ∧ canStart s 0 = true ∧ (s.unit 0).fab = none ∧
      (s.unit 0).held = [] ∧ (s.core 0).run = .running ∧ (s.core 0).blocked = none) ∧
    (s.jobOf 0 = some 0 ∧ (1 : CoreId).val = syTcore w ∧ (63 : Fin 64).val = sySem w ∧ bit (s.heldBy 0) 1 = true ∧
      (s.core 1).run = .running ∧ (s.core 1).blocked = none) ∧
    (holds drains (.draining (.halt 0#16)) ∧ drainDone (drains.unit 1) (.halt 0#16) = false ∧ holds (rests 0xEFFF#16) .halted) ∧
    (decodeOp 0 far = some .signal ∧ s.inSet 0 (syTcore far) = false) ∧
    (holds (signalling w (.saving .forced)) (.saving .forced) ∧ holds (signalling w (.restoring true)) (.restoring true) ∧
      holds (rests 0xF009#16) .halted ∧ holds (rests 0xF00A#16) .halted ∧ holds lent .running ∧ bit (lent.heldBy 0) 1 = false) ∧ s.domainOn 1 = true ∧
    (let own : W128 := 0xFFFF000000000FC00005#128 ||| 0x3F0000#128
     let o := signalling own .running
     syTcore own = 0x3F ∧ qOf o 0 .fab = { pc := 0, word := own, s := [] } :: [] ∧ decodeOp 0 own = some .signal ∧
       bit (o.heldBy 0) 0 = true ∧ o.domainOn 0 = true) := by
  refine ⟨?_, ?_, ?_, ?_, ?_, ?_, ?_⟩ <;> decide +kernel

theorem wit_DrainEndsAndWaitsTimeOut :
    let s := (at0 0#128).setCore 0 { run := .draining (.halt 0xEFFF#16) }
    let w (pt : Nat) := ((at0 0#128).setCore 0 { run := .running, blocked := some (.wait 63 0xFFFF pt) }).wr 0x1000038 1#64
    let g := ((at0 0#128).setCore 0 { run := .running, blocked := some (.slot 4095 true 7) }).wr 0x1004008 1#64
    ((s.core 0).run = .draining (.halt 0xEFFF#16) ∧ drained (s.unit 0) = true ∧ drained ((busy s).unit 0) = false) ∧
    (((w 1).core 0).run = .running ∧ Flowing (w 1) 0 ∧ ((w 1).core 0).blocked = some (.wait 63 0xFFFF 1) ∧
      fld ((w 1).rd (coreBase (0 : CoreId) + 0x38)) 0 32 ≠ 0 ∧ ((w 0).core 0).blocked = some (.wait 63 0xFFFF 0)) ∧
    fld ((at0 0#128).rd (coreBase (0 : CoreId) + 0x38)) 0 32 = 0 ∧
    ((g.core 0).run = .running ∧ Flowing g 0 ∧ g.domainOn 0 = true ∧ fld (g.rd (coreBase (0 : CoreId) + 0x4008)) 0 32 ≠ 0 ∧
      bit (g.rd (coreBase (0 : CoreId) + 0x4000)) 0 = false ∧ bit (g.unit 0).told 5 = false ∧
      (g.core 0).blocked = some (.slot 4095 true 7) ∧ guardFilled g 0 4095 = !true) := by
  unfold Flowing
  decide +kernel

/-! ### Units -/

/-- A running C0 with one entry at the head of a unit queue. -/
def queued (u : Fin 5) (w : W128) (regs : List W64) : State :=
  up.setCore 0 { run := .running } |>.setUnit 0 { q := (Vector.replicate 5 []).set u [{ pc := 0, word := w, s := regs }] }

theorem wit_UnitEventsResult :
    let s := queued 2 0x1302#128 []
    let v := (s.setUnit 0 { ve := [{ pc := 0, sd := some (31, 1#64) }] })
    let m := queued 0 0x000FFF0006600001#128 (List.replicate 32 0#64)
    let e : Entry := { pc := 0, word := 0x000FFF0006600001#128, s := List.replicate 32 0#64 }
    ((s.core 0).run = .running ∧ (s.core 0).blocked = none ∧ qOf s 0 .ve = { pc := 0, word := 0x1302#128, s := [] } :: [] ∧
      canStart s 0 = true ∧ decodeOp 0 0x1302#128 = some .vbcast) ∧
    (v.unit 0).ve = { pc := 0, sd := some (31, 1#64) } :: [] ∧
    ((m.core 0).run = .running ∧ (m.core 0).blocked = none ∧ canStart m 0 = true ∧ qOf m 0 (muSel 0) = e :: [] ∧
      (m.core 0).lastMu0 = none ∧ e.mate = false ∧ passReady m 0 0 e = true) ∧
    (let x : PassRun := { entry := { pc := 9, word := 0x000FFF0006620001#128, s := [] }, ending := .normal }
     let n := m.setUnit 0 { m.unit 0 with mu := (Vector.replicate 2 {}).set 0 { runs := [x] } }
     passReady n 0 0 e = false) ∧
    (let e0 : Entry := { pc := 0, word := pairWords.1, s := List.replicate 32 0#64, mate := true }
     let e1 : Entry := { pc := 1, word := pairWords.2, s := List.replicate 32 0#64, mate := true }
     let p := up.setCore 0 { run := .running } |>.setUnit 0 { q := ((Vector.replicate 5 []).set 0 [e0]).set 1 [e1] }
     canStart p 0 = true ∧ qOf p 0 .mu0 = e0 :: [] ∧ qOf p 0 .mu1 = e1 :: [] ∧ passReady p 0 0 e0 = true ∧ passReady p 0 1 e1 = true) := by
  decide +kernel

/-- A pass of MU1 of one element, which drains A and B slots 0 and fills C slot 4095, or of another word. -/
def passRun (e : PassEnd) (w : W128) : PassRun :=
  { entry := { pc := 0, word := w, s := [] }, place := { sac := 0xFFE000 }, ending := e, slotc := some 4095
    ppb := List.replicate 35 0#8 ++ [1#8, 1#8] ++ List.replicate 27 0#8 }
/-- C0 with a started pass of MU1, checks on and retry off. -/
def passing (x : PassRun) : State :=
  ((at0 0#128).wr 0x1002000 1#64).setUnit 0 { mu := (Vector.replicate 2 {}).set 1 { runs := [x] } }
/-- The word of the pass of one element. -/
def oneWord : W128 := 0x0C000000000000000091010006610001#128

theorem wit_PassOut : passOut (passRun .normal oneWord) [] = [(0xFFE000, List.replicate 4 0#8)] := by decide +kernel

theorem wit_PassCompleteResult :
    let x (e : PassEnd) := passRun e oneWord
    let n := passing (x .normal)
    (((n.core 0).run = .running ∧ (n.core 0).blocked = none ∧ ((n.unit 0).mu[(1 : MuId)]).runs = x .normal :: [] ∧ MemOk n) ∧
      passChecks n 0 1 (x .normal) [] = none ∧ (∀ o ∈ drainReads oneWord (x .normal).ppb, SpFree n 0 o.1 o.2) ∧
      (n.loc 0).sp = [] ∧ SpFree n 0 0xFFE000 4 ∧ mArel oneWord = true ∧ mBrel oneWord = true ∧ mSlota oneWord = 0 ∧ mSlotb oneWord = 0) ∧
    (((passing (x .param)).unit 0).mu[(1 : MuId)]).runs = x .param :: [] ∧
    (let y := passRun .normal 0x000FFF0006630001#128
     passChecks (passing y) 0 1 y [⟨0, 3, 0, 1#24⟩] = some (0xF, 0xF) ∧ bit ((passing y).rd (muBase 0 1)) 1 = false) := by
  unfold MemOk SpFree
  decide +kernel

/-! ### Cores -/

/-- A saved image of job 0 on C0. -/
def savedImage : Saved := { job := 0, slot := 0, status := 0xF009#16, loops := [], depth := 0, queues := [], heldPcs := [] }

theorem wit_CoreControlResult :
    let s := up.setCore 0 { status := 0#16 }
    let v := { up.setCore 0 { status := 0xF009#16 } with jobs := { saved := [(0, savedImage)] } }
    let r := busy (at0 0#128)
    (s.domainOn 0 = true ∧ (s.core 0).run = .halted ∧ (s.core 0).status ≠ 0xF009#16 ∧ (s.core 0).status ≠ 0xF00A#16) ∧
    ((v.core 0).run = .halted ∧ (v.core 0).status = 0xF009#16 ∧ v.jobOf 0 = some 0 ∧
      tget v.jobs.saved ((0 : CoreId).val * 16 + 0) = some savedImage) ∧
    ((r.core 0).run = .running ∧ (r.core 0).blocked = none ∧ drained (r.unit 0) = false) ∧
    (let b := r.setCore 0 { r.core 0 with blocked := some (.fence 15 true) }
     (b.core 0).run = .running ∧ (b.core 0).blocked.isSome = true ∧ drained (b.unit 0) = false) ∧ Memory.wf s.sec.flash = true ∧
    (((at0 0#128).core 0).run = .running ∧ drained ((at0 0#128).unit 0) = true) ∧
    (fld ((s.wr 0x1000040 0x7FFF#64).rd (coreBase (0 : CoreId) + 0x40)) 0 15 = 32767 ∧ fld 0x11#64 1 4 ≤ 8 ∧ ¬ fld 0x13#64 1 4 ≤ 8) := by
  decide +kernel

theorem readyAt (s : State) (a len : Nat) (hd : ∀ g : CtrlId, s.domainOn (ctrlDomain g) = true)
    (hr : ∀ g : CtrlId, (s.ctrls[g]).ready = true ∧ (s.ctrls[g]).trainFail = false) : gddrReady s a len = .yes := by
  have h1 : ∀ l : List Nat, (l.map (fun l => ctrlOf (64 * l))).any (fun g => !s.domainOn (ctrlDomain g)) = false := by
    intro l; simp [hd]
  have h2 : ∀ l : List Nat, ((l.map (fun l => ctrlOf (64 * l))).map (fun g => s.ctrls[g])).any (fun g => g.trainFail) = false := by
    intro l; simp only [List.any_map, List.any_eq_false, Function.comp]; intro x _; simpa using (hr _).2
  have h3 : ∀ l : List Nat, ((l.map (fun l => ctrlOf (64 * l))).map (fun g => s.ctrls[g])).any (fun g => !g.ready) = false := by
    intro l; simp only [List.any_map, List.any_eq_false, Function.comp]; intro x _; simpa using (hr _).1
  unfold gddrReady; simp only [h1, h2, h3]; rfl

theorem top_of {s : State} {n : Nat} (h : n ≤ 0x1740000000) : n ≤ gddrTop s := by unfold gddrTop; split <;> omega
theorem plain (s : State) (a len : Nat) (ht : a + len ≤ gddrTop s) (he : s.gddrErr = [] ∧ s.mem.crc = [] ∧ s.mem.checks = none) : GddrPlain s a len :=
  ⟨ht, by unfold gddrMarks; simp [he.1], by simp [he.2.1], .inr he.2.2⟩

/-- Every controller is READY with nothing before it. -/
abbrev IdleCtrls (s : State) : Prop :=
  ∀ g : CtrlId, (s.ctrls[g]).ready = true ∧ (s.ctrls[g]).trainFail = false ∧ (s.ctrls[g]).reqs = []

theorem served (s : State) (a len : Nat) (ht : a + len ≤ gddrTop s) (hd : ∀ g : CtrlId, s.domainOn (ctrlDomain g) = true) (hr : IdleCtrls s)
    (he : s.gddrErr = [] ∧ s.mem.crc = [] ∧ s.mem.checks = none) : GddrFree s a len := by
  have hs := readyAt s a len hd (fun g => ⟨(hr g).1, (hr g).2.1⟩)
  have hb : gddrBusy s a len = false := by
    unfold gddrBusy; simp only [List.any_eq_false]; intro l _; rw [(hr _).2.2]; simp
  exact ⟨by unfold gddrServe; rw [hs, hb]; rfl, plain s a len ht he⟩

theorem leBytes_length (n x : Nat) : (leBytes n x).length = n := by
  induction n generalizing x with
  | zero => rfl
  | succ n ih => simp [leBytes, ih]

theorem flatMap_length {α : Type} (f : α → List Byte) (n : Nat) (l : List α) (h : ∀ x, (f x).length = n) :
    (l.flatMap f).length = l.length * n := by
  induction l with
  | nil => simp
  | cons a l ih => simp [List.flatMap_cons, ih, h, Nat.succ_mul, Nat.add_comm]

/-- C0 saving for an honoured YIELD, with a bivouac slot at 0. -/
def saving : State := (up.setCore 0 { run := .saving (.yield 7 1#64) }).wr 0x40908 1#64

theorem padTo_length (n : Nat) (bs : List Byte) (h : bs.length ≤ n) : (padTo n bs).length = n := by
  unfold padTo; simp; omega

theorem recordOf_length (b : CbSlot) : (recordOf b).length = 576 := by
  unfold recordOf
  simp only [List.length_append, List.length_cons, List.length_nil, leBytes_length, List.length_replicate]
  rw [flatMap_length _ 2 _ (fun x => leBytes_length 2 _)]
  simp

/-- The image of a core with no call, no held signal and empty queues has the length of the fixed state. -/
theorem fixedImage_length (s : State) (c : CoreId) (m : W64) (st : BitVec 16) (hk : (s.core c).calls = [])
    (hu : (s.unit c).held = []) (hq : unitQueues (s.unit c) = List.replicate 5 []) : (fixedImage s c m st).length = 0x20000 := by
  have h : ∃ bs : List Byte, bs.length ≤ 80000 ∧ fixedImage s c m st = padTo 0x20000 bs := by
    refine ⟨_, ?_, rfl⟩
    simp only [hk, hu, hq, List.length_append, flatMap_length _ 1024 _ (fun v => leBytes_length 1024 _),
      flatMap_length _ 576 _ (fun b => padTo_length _ _ (Nat.le_of_eq (recordOf_length b))),
      flatMap_length _ 8 _ (fun v => leBytes_length 8 _), flatMap_length _ 2 _ (fun v => leBytes_length 2 _), leBytes_length,
      List.flatMap_nil, List.length_nil, List.flatMap_replicate, Vector.length_toList, List.length_range, List.length_flatten]
    rw [padTo_length 256 _ (by
      simp [leBytes_length, flatMap_length _ 8 _ (fun v => leBytes_length 8 _), padTo_length]), padTo_length 128 [] (by simp)]
    simp [padTo_length, leBytes_length]
  obtain ⟨bs, h, e⟩ := h
  rw [e]
  exact padTo_length _ _ (by omega)

theorem saving_image : (fixedImage saving 0 1#64 0xF009#16).length = 0x20000 := fixedImage_length _ _ _ _ rfl rfl rfl

/-- C0 being restored from its saved image. -/
def restoring : State := { (up.setCore 0 { run := .restoring false }) with jobs := { saved := [(0, savedImage)] } }

theorem saving_served (a len : Nat) (h : a + len ≤ 0x1740000000) : GddrFree saving a len :=
  served saving a len (top_of h) (by decide +kernel) (by decide +kernel) ⟨rfl, rfl, rfl⟩
theorem restoring_served (a len : Nat) (h : a + len ≤ 0x1740000000) : GddrFree restoring a len :=
  served restoring a len (top_of h) (by decide +kernel) (by decide +kernel) ⟨rfl, rfl, rfl⟩
theorem bivReady_of {s : State} {b : Nat} (h : GddrFree s b 16908288) : bivReady s b = true := by
  unfold bivReady; rw [h.1]; decide

theorem wit_SaveResult :
    ((up.setCore 2 { run := .saving .forced }).core 2).run = .saving .forced ∧
    (up.setCore 2 { run := .saving .forced }).jobOf 2 = none ∧
    (saving.core 0).run = .saving (.yield 7 1#64) ∧ saving.jobs.victims = [] ∧ saving.jobOf 0 = some 0 ∧
    bivSlot saving 0 0 < bivSlots saving 0 ∧ MemOk saving := by
  unfold MemOk; decide +kernel

theorem wit_SaveReady : bivReady saving (bivAddr saving 0 (bivSlot saving 0 0)) = true ∧
    GddrFree saving (bivAddr saving 0 (bivSlot saving 0 0)) 0x20000 :=
  ⟨bivReady_of (saving_served _ _ (by decide +kernel)), saving_served _ _ (by decide +kernel)⟩

theorem wit_RestoreResult :
    (restoring.core 0).run = .restoring false ∧ (restoring.core 0).stopReq = false ∧ restoring.jobOf 0 = some 0 ∧
    tget restoring.jobs.saved ((0 : CoreId).val * 16 + 0) = some savedImage ∧ savedImage.job = 0 ∧ savedImage.heldPcs = [] := by
  decide +kernel

theorem wit_RestoreReady : bivReady restoring (bivAddr restoring savedImage.job savedImage.slot) = true ∧
    GddrFree restoring (bivAddr restoring savedImage.job savedImage.slot) 0x20000 :=
  ⟨bivReady_of (restoring_served _ _ (by decide +kernel)), restoring_served _ _ (by decide +kernel)⟩

/-! ### The spec's worked examples, and test vectors of the algorithms it names -/

/-- The worked example under R254: address 0x1_2345_6780 is line 0x30_8B92 of G11. -/
theorem test_address : ctrlOf 0x123456780 = 11 ∧ localAddr 0x123456780 = 0x0C22E480 ∧ localAddr 0x123456780 / 64 = 0x308B92 ∧
    lineAddr 11 0x308B92 = 0x123456780 := by decide +kernel
/-- The example under R262: with X1 bifurcated, T = 1,536 GiB lies in device B of X1. -/
theorem test_tierDevice : tierDev (up.wr 0x904008 2#64) (1536 * 2 ^ 30) = (1, true) := by decide +kernel
/-- The worked example under R103: both groups, the scale and the drain. -/
theorem test_narrowElement : ((({} : Acc).unit 12345 (-7) 0).unit (-2000) (-12) 0).acc = 393040 * 2 ^ 36 ∧
    rne32 (((FVal.fin false (393040 * 2 ^ 36) (-48)).mul (val32 0x3F400000#32)).add (val32 0x3F000000#32)) = 0x4290EF80#32 ∧
    rne16 (val32 0x4290EF80#32) = 0x4291#16 := by decide +kernel
/-- The worked example under R113: 3.1, -7.5, 9.3, 7.96, -0.02 and 0.03 quantised to I8 at E = -4. -/
theorem test_quantise : ([0x40466666#32, 0xC0F00000#32, 0x4114CCCD#32, 0x40FEB852#32, 0xBCA3D70A#32, 0x3CF5C28F#32].map fun x =>
    quantOne 6 (codeLevels 6 {}) (val32 x) (-4) 0) = [(50, false), (136, false), (127, true), (127, true), (0, false), (0, false)] := by
  decide +kernel
/-- The worked example under R136: acc = 1 and s = 3 × 2⁻²⁵ under two values of rnd. -/
theorem test_stochastic : sr32 (.fin false (2 ^ 25 + 3) (-25)) 0x60000000 = 0x3F800001#32 ∧
    sr32 (.fin false (2 ^ 25 + 3) (-25)) 0x30000000 = 0x3F800000#32 := by decide +kernel
/-- The worked example under R163: six tokens, four experts, K = 2, CAP = 3, POLICY NEXT. -/
theorem test_route :
    let cand := [[0, 1, 2, 3], [0, 1, 2, 3], [0, 2, 1, 3], [0, 3, 2, 1], [1, 2, 0, 3], [0, 1, 3, 2]]
    let cs := routeChoices 3 true cand 2
    (List.range 4).map (fun e => (cs.filter (fun c => c.e == some e)).map (fun c => (c.t, c.r, c.how))) =
      [[(0, 0, 1), (1, 0, 1), (2, 0, 1)], [(4, 0, 1), (0, 1, 1), (1, 1, 1)], [(2, 1, 1), (4, 1, 1), (3, 0, 2)], [(3, 1, 1), (5, 0, 2)]] ∧
    cs.filter (fun c => c.e.isNone) = [{ t := 5, r := 1, e := none, how := 3 }] := by decide +kernel
/-- The candidates of token t5 of that example: 0.5, 0.5, 0.3, 0.4, where the tie goes to e0. -/
theorem test_candidates : candidates [0x3F000000, 0x3F000000, 0x3E99999A, 0x3ECCCCCD] = [0, 1, 3, 2] := by decide +kernel
/-- The members of the worked example under R312: devices 208 to 223 and 232 to 239. -/
def group24 : List Nat := (List.range 16).map (208 + ·) ++ (List.range 8).map (232 + ·)
/-- The summit and the vertex of nodes 26 and 27 under r = 640 and r = 647, and the quad to which 237's contribution passes. -/
theorem test_tree : ((chain group24 20).head?).map (fun v => (v.lo, v.hi, hostOf v 640)) = some (0, 24, 16) ∧
    ((chain group24 0)[1]?).map (fun v => (v.lo, v.hi, hostOf v 640, hostOf v 647)) = some (0, 16, 0, 7) ∧
    ((workChain [20] 23 (chain group24 21)).getLast?).map (fun v => (v.level, v.lo, v.hi)) = some (2, 20, 24) := by decide +kernel
/-- The example of R362: with an allowed mask of 0xFF00, C11 uses slot 3. -/
theorem test_slot : bivSlot (up.wr 0x8008 0xFF00#64) 0 11 = 3 := by decide +kernel
/-- The worked example under R345: the phases of entries 60 and 64 of a ring of 64. -/
theorem test_phase : phaseOf 60#32 6 = 1 ∧ phaseOf 64#32 6 = 0 := by decide
/-- The worked example under R376: the projection is on time at token 10 and late at token 11. -/
theorem test_projection :
    let m : Monitor := { job := 0, ring := 2, mbtag := 0, qin := 0, qout := 1, tokens := 64, deadline := 2000, t0 := 0#64
                         t1 := BitVec.ofNat 64 (usUnits 200), entry := 0, fallback := 1 }
    projMiss m 10 (BitVec.ofNat 64 (usUnits 452)) = false ∧ projMiss m 11 (BitVec.ofNat 64 (usUnits 492)) = true := by decide +kernel
/-- The worked example under R404: the first breach steps down from 3,300 MHz; the one below FLOOR clears ARMED. -/
theorem test_governor :
    let x : Sensors := { window := none, cur := (0, 0), tj := (95, 0) }
    let s (a : W64) := { up with regs := [(0xA00028, 0x0BB80CE4#64), (0xA00030, a), (0xA00038, 0x038403E8#64), (0xA00040, 95#64),
                                          (0xA00048, 0x00640064#64), (0xA00060, 0xFFFFFFFFFFFFFFFF#64)] }
    let after (s : State) : Nat × Nat × Bool × Bool :=
      match exec (.governorEvaluation x) s with
      | .next t => (aclk t, fld (govStat t) 12 3, bit (govStat t) 16, bit (govStat t) 17)
      | _ => (0, 0, false, false)
    after (s 0x20CE4#64) = (3275, 4, false, true) ∧ after (s 0x20BB8#64) = (2975, 4, true, false) := by decide +kernel
/-- The check value of the CRC-32 of IEEE 802.3, over "123456789" (R274, R280). -/
theorem test_crc32 : crc32 (leBytes 9 0x393837363534333231) = 0xCBF43926 := by decide +kernel
/-- The test vector of FIPS 180-4 for "abc" (R411). -/
theorem test_sha256 : sha256 [0x61#8, 0x62#8, 0x63#8] =
    beBytes 32 0xba7816bf8f01cfea414140de5dae2223b00361a396177a9cb410ff61f20015ad := by decide +kernel

theorem wit_ScratchpadCommandResult :
    let s := up.setLoc 0 { spErr := [(0xFFFFF8, false)], fixes := [0xFFFFF8] }
    let b (x : Bank) := up.setLoc 0 { bank := (Vector.replicate 64 .on).set 63 x, clearing := some 1#64 }
    (s.domainOn 0 = true ∧ (s.loc 0).fixes = 0xFFFFF8 :: [] ∧ tget (s.loc 0).spErr 0xFFFFF8 = some false) ∧
    ((s.core 0).run = .halted ∧ (s.loc 0).clearing = none) ∧ ((b .on).loc 0).clearing = some 1#64 ∧ (∀ x : Fin 64, ((b .on).loc 0).bank[x] = .on) ∧
    ((b (.trans 0#2)).loc 0).bank[(63 : Fin 64)] = .trans 0#2 ∧ ((b (.trans 1#2)).loc 0).bank[(63 : Fin 64)] = .trans 1#2 ∧
    ((b (.trans 2#2)).loc 0).bank[(63 : Fin 64)] = .trans 2#2 := by decide +kernel

/-! ### DMA -/

/-- A COPY of the last 64 bytes of the scratchpad to the first at the head of C0's queue. -/
def copying : State :=
  let e : Entry := { pc := 0, word := 0x4001070003#128, s := [0#64, 0x10000FFFFC0#64, 0x10000000000#64] }
  up.setCore 0 { run := .running } |>.setUnit 0 { q := (Vector.replicate 5 []).set 3 [e] }
/-- The entry of `copying`. -/
def copyEntry : Entry := { pc := 0, word := 0x4001070003#128, s := [0#64, 0x10000FFFFC0#64, 0x10000000000#64] }

theorem wit_DmaResult :
    let w := copyEntry.word
    let s := copying
    let x : DmaRun := { seq := 0, pc := 0, word := 0x1FFF0000004000000003#128, job := some 0, writing := true }
    let d (x : DmaRun) := up.setCore 0 { run := .running } |>.setUnit 0 { chan := (Vector.replicate 4 []).set 3 [x] }
    ((∀ y ∈ s.host.reads, y.who ≠ .dma 0 3) ∧ RunsFree s 0 ∧ canStart s 0 = true ∧ MemOk s ∧ qOf s 0 .dma = copyEntry :: [] ∧ fClass w = 3 ∧ xMode w = 0 ∧ xLen w = 64 ∧
      xCh w = (3 : Fin 4).val ∧ xSfill w = false ∧ (s.unit 0).chan[(3 : Fin 4)] = [] ∧
      (snapGet copyEntry.s (xSsrc w)).toNat = 0x10000000000 + (0 : CoreId).val * 0x1000000 + 0xFFFFC0 ∧
      (snapGet copyEntry.s (xSdst w)).toNat = 0x10000000000 + (0 : CoreId).val * 0x1000000 + 0 ∧ SpFree s 0 0xFFFFC0 64 ∧ SpFree s 0 0 64) ∧
    (RunsFree (d x) 0 ∧ ((d x).unit 0).chan[(3 : Fin 4)] = [x] ∧ x.todo = [] ∧ x.writing = true ∧ x.fail = none ∧ x.out = [] ∧ x.cxl = 0 ∧
      x.hreads = 0 ∧ xSfill x.word = true ∧ xSlot x.word = 4095) ∧
    (let y := { x with cxl := 1 }
     ((d y).unit 0).chan[(3 : Fin 4)] = [y] ∧ y.todo = [] ∧ (y.out ≠ [] ∨ y.cxl ≠ 0 ∨ y.hreads ≠ 0)) ∧
    (let y := { x with hreads := 1 }
     (y.out ≠ [] ∨ y.cxl ≠ 0 ∨ y.hreads ≠ 0) ∧ RunsFree (d y) 0) := by
  unfold RunsFree MemOk SpFree
  decide +kernel

/-! ### Dispatch -/

/-- The bytes of a dispatch parameter block: one token, one choice, one expert, `status` its STATUS offset. -/
def dpb (status : Nat) : List Byte :=
  leBytes 2 1 ++ leBytes 1 0 ++ leBytes 1 1 ++ leBytes 2 4096 ++ leBytes 2 0 ++ leBytes 4 0x1000 ++ leBytes 4 64 ++ leBytes 4 0 ++
  leBytes 4 0 ++ leBytes 4 0x2000 ++ leBytes 4 0x10000 ++ leBytes 4 0x4000 ++ leBytes 4 0x5000 ++ leBytes 4 status ++ List.replicate 20 0#8

/-- DU0 with a request of C0 waiting, its table 0 enabled for job 0 with a self expert, and a DPB at offset 0. -/
def routing (w : W128) (status : Nat) : State :=
  let s := ((((up.wr 0x20000 1#64).wr 0x20018 1#64).wr 0x28000 1#64).setCore 0 { run := .running }).setDu 0
    { waiting := [{ core := 0, pc := 0, word := w, s := [0#64, 0x1000#64] }] }
  s.setLoc 0 { sp := Memory.write [] 0 (dpb status) }

/-- The request that waits, as DU0 takes it. -/
def taken (w : W128) (status : Nat) : State :=
  let k := (routing w status).dus[(0 : DuId)]
  (routing w status).setDu 0 { k with waiting := k.waiting.erase { core := 0, pc := 0, word := w, s := [0#64, 0x1000#64] }, rr := 0 }

theorem wit_RouteStart (status : Nat) (h : status = 0x6000 ∨ status = 0x4000) :
    let w : W128 := 0x010006#128
    let s := routing w status
    let q := (readDpb (taken w status) 0 (snapGet [0#64, 0x1000#64] (dispSp w)).toNat).1
    let d := dpbWithTile (dpb status) (snapGet [0#64, 0x1000#64] (dispSa w)).toNat
    let q' := geckoRegions q 0 0 (some d)
    s.domainOn 48 = true ∧ (s.dus[(0 : DuId)]).run = none ∧
    nextReq (freeReqs s s.dus[(0 : DuId)]) = some { core := 0, pc := 0, word := w, s := [0#64, 0x1000#64] } ∧ fOp w = 0 ∧
    (readDpb (taken w status) 0 (snapGet [0#64, 0x1000#64] (dispSp w)).toNat).2 = (some (dpb status), false) ∧
    routeCheck q' 0 0 (dispTable w) (BitVec.ofNat 16 (dispMbtag w)) (some d) false = none ∧
    dpbOverlaps (dpbRegions d) = decide (status = 0x4000) ∧ (readScores q' 0 d).2.2 = false := by
  rcases h with rfl | rfl <;> decide +kernel

/-- DU0 with a tentative entry of C0, and one with the last request's effect to come. -/
theorem wit_DispatchRequestResult :
    let e : Tentative := { core := 0, table := 15, mbtag := 0xFFFF#16, dests := [], hits := 0#256 }
    let w : W128 := 0xFFFFF00000106#128
    let v : W128 := 0xC000306#128
    let req (w : W128) : DispReq := { core := 0, pc := 0, word := w, s := [] }
    let s (w : W128) := up.setDu 0 { waiting := [req w], entries := [e] }
    let x : DispRun := { req := req v, job := some 0, table := 0, mbtag := 0#16, status := 0#8,
                         out := [(0, [1#8]), (0xFFFFFF, [2#8])], statusAt := some 64, record := [1#8, 2#8] }
    let r := (up.setCore 0 { run := .running }).setDu 0 { run := some x }
    let aside := (up.setCore 0 { run := .running }).setDu 0 { stuck := [x] }
    (nextReq (freeReqs (s w) (s w).dus[(0 : DuId)]) = some (req w) ∧ fOp w = 1 ∧
      findEntry (s w).dus[(0 : DuId)] 0 (dispTable w) (BitVec.ofNat 16 (dispMbtag w)) = some e) ∧
    (nextReq (freeReqs (s v) (s v).dus[(0 : DuId)]) = some (req v) ∧ 3 ≤ fOp v) ∧
    ((aside.dus[(0 : DuId)]).stuck = x :: [] ∧ (aside.dus[(0 : DuId)]).run ≠ some x ∧ (r.dus[(0 : DuId)]).stuck = []) ∧
    (r.domainOn 48 = true ∧ (r.dus[(0 : DuId)]).run = some x ∧ (r.dus[(0 : DuId)]).outs = [] ∧ x.tent = false ∧ RunsFree r 0 ∧ MemOk r ∧
      (let all := x.out ++ (match x.statusAt with | some a => [(a, x.record)] | none => [])
       (∀ o ∈ all, SpFree r 0 o.1 o.2.length) ∧ all.Pairwise (fun a b => a.1 + a.2.length ≤ b.1 ∨ b.1 + b.2.length ≤ a.1))) := by
  unfold RunsFree MemOk SpFree
  decide +kernel

theorem wit_DispatchAndQueueRegisterResult :
    let x : DispRun := { req := { core := 0, pc := 0, word := 6#128, s := [] }, job := some 0, table := 15, mbtag := 0#16, status := 0#8,
                         out := [(0, [1#8])] }
    let s := (up.wr 0x20018 0x8000#64).setDu 0 { run := some x }
    let all := up.wr 0x20018 0xFFFF#64
    let q := (up.wr 0x600028 0x10#64).wr 0x600038 32#64 |>.wr 0x600040 0x800#64
    let on := (up.wr 0x600008 1#64).wr 0x600038 32#64
    (up.domainOn (48 + (0 : DuId).val) = true ∧ bit 0x1F#64 4 = true ∧ bit 0xF#64 4 = false ∧ (∀ i, i < 16 → tableOn up 0 i = false)) ∧
    ((∀ i, i < 16 → tableOn all 0 i = true) ∧ 1#64 ≠ all.rd (duBase (0 : DuId) + 0x10)) ∧
    ((up.dus[(0 : DuId)]).run = none ∧ (up.dus[(0 : DuId)]).stuck = [] ∧ x ∈ ((up.setDu 0 { stuck := [x] }).dus[(0 : DuId)]).stuck) ∧
    ((s.dus[(0 : DuId)]).run = some x ∧ fOp x.req.word = 0 ∧ x.out ≠ [] ∧ x.table < 16 ∧ bit (s.rd (duBase (0 : DuId) + 0x18)) x.table = true ∧
      bit 0#64 x.table = false) ∧
    (up.domainOn (queueDomain 0) = true ∧ qOn q 0 = false ∧ qCfgOk q 0 = true ∧ qCfgOk up 0 = false) ∧
    (qOn on 0 = true ∧ QPlain on 0 ∧ (on.queues[(0 : QId)]).head.length < 1024) := by
  unfold QPlain
  decide +kernel

/-! ### Micro-batch queues -/

/-- An enabled queue Q0 of job 0 with 32 chunks and some cells. -/
def q0 (s : State) (cells : List Cell) : State :=
  (((s.wr 0x600008 1#64).wr 0x600028 0x10#64).wr 0x600038 32#64).setQueue 0 { head := cells }

/-- C0 runs with a word at the head of a queue, which the queue's unit can start. -/
def canGo (u : Fin 5) (sel : UnitSel) (w : W128) (o : Op) : Bool :=
  let s := queued u w []
  (s.core 0).run == .running && (s.core 0).blocked.isNone && !s.power.held && canStart s 0 && (s.unit 0).fab.isNone &&
    (s.unit 0).held.isEmpty && qOf s 0 sel == [{ pc := 0, word := w, s := [] }] && decodeOp 0 w == some o

/-- The other operations that UNIT_INSTR_START and UNIT_INSTR_COMPLETE act on, each at the head of its queue. -/
theorem wit_UnitStarts :
    [(Op.vaddx, 0x80000001102#128), (.vsel, 0x1202#128), (.vmovs, 0x3E0000000001402#128)].all (fun p => canGo 2 .ve p.2 p.1) = true ∧
    vSd 0x3E0000000001402#128 = 31 ∧
    [(Op.dispRoute, 0x006#128), (.qopStat, 0x304#128), (.slotFill, 0x0FFF00000FC00405#128), (.slotDrain, 0x0FFF00000FC00505#128)].all
      (fun p => canGo 4 .fab p.2 p.1) = true ∧
    (let s := q0 (queued 4 0x304#128 []) []
     qOn s 0 = true ∧ s.jobOf 0 = some (qJob s 0)) ∧
    (fClass 0x006#128 = 6 ∧ fClass 0x304#128 = 4 ∧ fOp 0x304#128 = 3 ∧ qopQ 0x304#128 = (0 : QId).val) ∧
    (let e : Entry := { pc := 0, word := 0x304#128, s := [] }
     let s := (up.setCore 0 { run := .running }).setUnit 0 { fab := some (.qop e 0) }
     (s.core 0).run = .running ∧ (s.unit 0).fab = some (.qop e 0)) := by
  refine ⟨?_, ?_, ?_, ?_, ?_, ?_⟩ <;> decide +kernel

/-- C0 about to issue a QOP on `q0`. -/
def qop (w : W128) (cells : List Cell) : State :=
  q0 (at0 w) cells

/-- What a QOP on Q0 assumes. -/
def ready (s : State) (w : W128) (o : Op) : Prop :=
  Issues s 0 w o ∧ unitIdle (s.unit 0) .fab = true ∧ (s.unit 0).held = [] ∧ qopQ w = (0 : QId).val ∧ QPlain s 0 ∧
  s.jobOf 0 = some (qJob s 0) ∧ MemOk s

theorem ready_of {s : State} {w : W128} {o : Op} (h : canIssue s 0 w o = true)
    (k : unitIdle (s.unit 0) .fab = true ∧ (s.unit 0).held = [] ∧ qopQ w = (0 : QId).val ∧ QPlain s 0 ∧ s.jobOf 0 = some (qJob s 0))
    (m : MemOk s) : ready s w o :=
  ⟨issues_of h, k.1, k.2.1, k.2.2.1, k.2.2.2.1, k.2.2.2.2, m⟩

theorem wit_QueuePush :
    let push : W128 := 0xFFFF0001000400000004#128
    let s := qop push (List.replicate 1023 {})
    ready s push .qopPush ∧ qopTent push = false ∧ qopSen push = false ∧ SpFree s 0 0 64 ∧
      (s.queues[(0 : QId)]).head.length + qopCells push ≤ 1024 :=
  ⟨ready_of (by decide +kernel) (by unfold QPlain; decide +kernel) (by unfold MemOk; decide +kernel), by decide +kernel,
    by decide +kernel, by unfold SpFree; decide +kernel, by decide +kernel⟩

theorem wit_QueuePop :
    let pop : W128 := 0x2000000000104#128
    let p := qop pop [{}, { eop := true }]
    ready p pop .qopPop ∧ qopSen pop = false ∧ qopCells pop ≤ (p.queues[(0 : QId)]).head.length ∧ SpFree p 0 0 128 :=
  ⟨ready_of (by decide +kernel) (by unfold QPlain; decide +kernel) (by unfold MemOk; decide +kernel), by decide +kernel,
    by decide +kernel, by unfold SpFree; decide +kernel⟩

theorem wit_QueueInstructionResult (w : W128) (o : Op)
    (h : (w, o) ∈ [(0x204#128, Op.qopDrop), (0x304#128, .qopStat), (0x404#128, .qopCommit), (0x504#128, .qopCancel)]) :
    ready (qop w [{}, { eop := true }]) w o ∧ qForward (qop w [{}, { eop := true }]) 0 = false ∧
    ((qop w [{}, { eop := true }]).queues[(0 : QId)]).head = [({} : Cell)] ++ { eop := true } :: [] := by
  simp only [List.mem_cons, Prod.mk.injEq, List.not_mem_nil, or_false] at h
  rcases h with ⟨rfl, rfl⟩ | ⟨rfl, rfl⟩ | ⟨rfl, rfl⟩ | ⟨rfl, rfl⟩ <;>
    exact ⟨ready_of (by decide +kernel) (by unfold QPlain; decide +kernel) (by unfold MemOk; decide +kernel), by decide +kernel, by decide +kernel⟩

/-- A chunk of one cell. -/
def chunk0 : Chunk := { idx := 0, sides := [{}] }

theorem wit_QueueTrafficResult :
    let out (c : Cell) (d : QId) : DispOut := { dest := .here d, job := 0, cells := [c] }
    let m : Cell := { data := markerData 0xFFFF 2 0x40 0, mbtag := 0xFFFF#16, marker := true, agent := 0x40#7 }
    let k : HeldKey := { key := { src := 0#15, agent := 0x40#7, mbtag := some 0xFFFF#16 }, chunks := [] }
    let s := (q0 up (List.replicate 1023 {})).setDu 1 { outs := [out {} 0] }
    let t := ((q0 up []).setQueue 0 { held := [k] }).setDu 1 { outs := [out m 0] }
    let r := (q0 up []).setQueue 0 { head := List.replicate 992 {}, pool := [chunk0] }
    let f := ((((q0 up [{}]).wr 0x600028 0x120#64).wr 0x600408 1#64).wr 0x600428 0x10#64).wr 0x600438 32#64
    let n := ((q0 up []).wr 0x600050 0x3F03#64).setCore 0 { run := .running }
    (QPlain s 0 ∧ stopped s s.devid (0 : QId).val = false ∧ (s.dus[(1 : DuId)]).outs = [out {} 0] ∧ (out {} 0).job = qJob s 0 ∧ (s.queues[(0 : QId)]).head.length < 1024) ∧
    (qOn t 0 = true ∧ stopped t t.devid (0 : QId).val = false ∧ qForward t 0 = false ∧ (t.queues[(0 : QId)]).bad = false ∧ (t.queues[(0 : QId)]).tentLost = false ∧
      (t.queues[(0 : QId)]).held = [k] ∧ (t.dus[(1 : DuId)]).outs = [out m 0] ∧ (out m 0).job = qJob t 0 ∧ m.marker = true ∧
      k.key.mbtag = some m.mbtag ∧ m.data = markerData m.mbtag.toNat 2 k.key.agent.toNat k.key.src.toNat) ∧
    ((r.queues[(0 : QId)]).bad = false ∧ (r.queues[(0 : QId)]).pool = chunk0 :: [] ∧ (r.queues[(0 : QId)]).tail = [] ∧
      (r.queues[(0 : QId)]).head.length ≤ 992) ∧
    ((r.queues[(0 : QId)]).ready = []) ∧
    (QPlain f 0 ∧ qForward f 0 = true ∧ (f.queues[(0 : QId)]).paused = false ∧ (f.queues[(0 : QId)]).head = ({} : Cell) :: [] ∧
      qDestDev f 0 = f.devid ∧ qDestQ f 0 = (1 : QId).val ∧ (1 : QId) ≠ 0 ∧ QPlain f 1 ∧ qJob f 1 = qJob f 0 ∧ (f.queues[(1 : QId)]).head.length < 1024) ∧
    ((∀ x : QId, (qOn n x = true ∧ bit (n.rd (queueBase x + 0x50)) 0 = true ∧ bit (n.rd (queueBase x + 0x50)) 1 = true ∧
        fld (n.rd (queueBase x + 0x48)) 4 3 = (0 : Fin 8).val) ↔ x = 0) ∧ 0 = qJob n 0 ∧ fld (n.rd (queueBase (0 : QId) + 0x50)) 2 6 = (0 : CoreId).val ∧
      fld (n.rd (queueBase (0 : QId) + 0x50)) 8 6 = (63 : Fin 64).val ∧ bit (n.heldBy 0) (0 : CoreId).val = true ∧ RunsFree n 0 ∧
      ((n.loc 0).sems[(63 : Fin 64)]).toNat < 0xFFFF) := by
  unfold QPlain RunsFree
  refine ⟨?_, ?_, ?_, ?_, ?_, ?_⟩ <;> decide +kernel

theorem wit_RefillServed : GddrFree (q0 up []) 0 2176 := served _ _ _ (by decide +kernel) (by decide +kernel) (by decide +kernel) ⟨rfl, rfl, rfl⟩

theorem wit_EventsTouchNoStorage :
    let s := up.wr 0x1000018 0xFFFFFFFFFFFFFFFF#64
    let e := evtReg 0x103F 0 0
    bit (s.rd e.1) e.2.2 = true := by decide +kernel

/-! ### Memory, the CXL tier and links -/

/-- G0 with a request of a whole granule at address 0. -/
def requested (data : Option (List Byte)) : State :=
  up.setCtrl 0 { ready := true, reqs := [{ asker := .engine, job := some 0, addr := 0, len := 256, data := data }] }

theorem wit_MemoryControllerResult :
    let q (d : Option (List Byte)) : MemReq := { asker := .engine, job := some 0, addr := 0, len := 256, data := d }
    let s (d : Option (List Byte)) := requested d
    let d := up.setCtrl 23 { }
    let r := { up with mem := { up.mem with turn := 23 } }
    let e (u : Bool) := { (up.wr 0x800008 1#64) with gddrErr := [(0, u)] }
    (up.domainOn (ctrlDomain 0) = true ∧ (256 : Nat) ≠ 0 ∧ 0 / 256 = (0 + 256 - 1) / 256 ∧ ctrlOf 0 = 0 ∧
      (up.ctrls[(0 : CtrlId)]).reqs.length < 512 ∧ 0 + 256 ≤ gddrTop up) ∧
    (gddrTop up < gddrTop up + 256) ∧
    ((∀ d, ((s d).ctrls[(0 : CtrlId)]).reqs = q d :: [] ∧ ((s d).ctrls[(0 : CtrlId)]).ready = true ∧
      ((s d).ctrls[(0 : CtrlId)]).trainFail = false) ∧ MemOk (s none) ∧ (List.replicate 256 1#8).length = (q none).len) ∧
    (r.domainOn (ctrlDomain 23) = true ∧ (r.ctrls[(23 : CtrlId)]).selfRef = false ∧ (r.ctrls[(23 : CtrlId)]).ready = true ∧
      retrainNext r = some 23 ∧ retrainNext up ≠ some 23) ∧
    (d.domainOn (ctrlDomain 23) = true ∧ (d.ctrls[(23 : CtrlId)]).selfRef = false ∧ (d.ctrls[(23 : CtrlId)]).ready = false ∧
      bit ((d.wr 0xA00098 0x1FFFF#64).rd (pwrBase + 0x98)) 3 = true) ∧
    (∀ u, ((e u).ctrls[(0 : CtrlId)]).ready = true ∧ bit ((e u).rd (ctrlBase (0 : CtrlId) + 8)) 0 = true ∧
      lineAddr 0 ((e u).ctrls[(0 : CtrlId)]).scrub / 64 = 0 ∧ (e u).gddrErr = [(0, u)] ∧ bit ((e u).rd memBase) 0 = true) := by
  unfold MemOk
  refine ⟨?_, ?_, ⟨fun d => ⟨rfl, rfl, rfl⟩, ?_⟩, ?_, ?_, ?_⟩ <;> decide +kernel
theorem wit_MemoryServed (d : Option (List Byte)) : gddrReady (requested d) 0 256 = .yes ∧ GddrPlain (requested d) 0 256 := by
  have h : ∀ g : CtrlId, up.domainOn (ctrlDomain g) = true ∧ (up.ctrls[g]).ready = true ∧ (up.ctrls[g]).trainFail = false := by
    decide +kernel
  refine ⟨readyAt _ _ _ (fun g => (h g).1) (fun g => ?_), plain _ _ _ (top_of (by decide)) ⟨rfl, rfl, rfl⟩⟩
  simp only [requested, State.setCtrl, Fin.getElem_fin, Vector.getElem_set]
  split
  · exact ⟨rfl, rfl⟩
  · exact (h g).2

/-- Two requests of one controller to different lines: either may complete first. -/
theorem wit_EitherRequest :
    let q (a : Nat) : MemReq := { asker := .engine, job := some 0, addr := a, len := 64, data := none }
    let s := up.setCtrl 0 { ready := true, reqs := [q 0, q 64] }
    (s.ctrls[(0 : CtrlId)]).reqs[1]? = some (q 64) ∧ memFirst (s.ctrls[(0 : CtrlId)]).reqs 1 (q 64) = true ∧
      memFirst (s.ctrls[(0 : CtrlId)]).reqs 0 (q 0) = true ∧ s.mem.crc = [] := by decide +kernel

theorem wit_CxlPortResult :
    let q : CxlReq := { devB := true, t := 0, len := 64, data := some [1#8], owner := none, job := none }
    let on := up.wr 0x90C008 1#64
    let en := { up with cxl := up.cxl.set 3 { enum := true } }
    let rq (d : Option (List Byte)) := { up with cxl := up.cxl.set 3 { activeA := true, reqs := [{ q with data := d }] } }
    (up.domainOn (cxlDomain 3) = true ∧ bit (up.rd (cxlBase (3 : PortId) + 8)) 0 = false ∧ bit (on.rd (cxlBase (3 : PortId) + 8)) 0 = true) ∧
    ((en.cxl[(3 : PortId)]).enum = true ∧ en.power.rebooting = false ∧ en.power.recovery = false ∧ bit (en.rd (cxlBase (3 : PortId) + 8)) 1 = false) ∧
    (((rq (some [1#8])).cxl[(3 : PortId)]).reqs[0]? = some q ∧ q.owner = none ∧ Memory.wf (rq (some [1#8])).tier = true) ∧
    (((rq none).cxl[(3 : PortId)]).reqs[0]? = some { q with data := none }) := by
  decide +kernel

/-- A PARAM flit of L23 of device 0 that matches. -/
def paramFlit (l : Nat) : List Byte :=
  flitOf ftParam 0 none [] (leBytes 1 2 ++ leBytes 1 l ++ leBytes 1 0 ++ List.replicate 133 0#8 ++ leBytes 2 4096)

set_option maxRecDepth 100000 in
theorem wit_LinkBringUpResult :
    let s (x : LinkSt) (a b : Bool) := { (up.wr 0x45C008 3#64) with links := up.links.set 23 { st := x, lock0 := a, lock1 := b } }
    let f := paramFlit 23
    ((s .down false false).domainOn (linkDomain 23) = true ∧ ((s .down false false).links[(23 : LinkId)]).st = .down ∧
      ((s .align true true).links[(23 : LinkId)]).lock0 = true ∧ ((s .align true true).links[(23 : LinkId)]).lock1 = true) ∧
    (((s .optics true false).links[(23 : LinkId)]).st = .optics ∧ (2#2 : BitVec 2).getLsbD 1 = true ∧ (1#2 : BitVec 2).getLsbD 1 = false) ∧
    (((s .exchange true true).links[(23 : LinkId)]).st = .exchange ∧ flitOk f false = true ∧ fType f = ftParam ∧
      leAt f 0 1 = 2 ∧ leAt f 1 1 = (23 : LinkId).val ∧ leAt f 2 1 = (s .exchange true true).devid % 64 ∧
      (∀ i, i < 128 → leAt f (8 + i) 1 = 0) ∧ leAt f 136 2 ≤ 4096) ∧
    (flitOk (paramFlit 22) false = true ∧ fType (paramFlit 22) = ftParam ∧ leAt (paramFlit 22) 1 1 ≠ (23 : LinkId).val) ∧
    (((s .failed true true).links[(23 : LinkId)]).st = .failed ∧ ((s .active true true).links[(23 : LinkId)]).st = .active ∧
      linkEn (s .active true true) 23 = true ∧ linkAuto (s .active true true) 23 = true ∧ linkAuto (up.wr 0x45C008 1#64) 23 = false) := by
  refine ⟨?_, ?_, ?_, ?_, ?_⟩ <;> decide +kernel

/-- Who may set EN of a link, and the firmware while STRAP_UNSTABLE is 1. -/
theorem wit_LinkEnabled :
    (∀ b ∈ [Sender.owner, .mgmt], ownerOrMgmt b = true ∧ hears up b = true ∧ enBarred up b 23 = false) ∧
    enBarred (up.wr 0xA00090 0x10#64) .mgmt 23 = true ∧ hears (up.wr 0xA00090 0x10#64) .mgmt = true := by decide +kernel

set_option maxRecDepth 100000 in
/-- DATA flits with a packet of the reserved account and with a credit return. -/
theorem wit_DataFlit :
    let k : Link := { st := .active, rxSeq := 4095, rsv := (List.replicate 16 0#64).set 0 0x1#64, useRsv := [(6, 2)] }
    let s := up.setLink 0 k
    let p := mkPkt up 9 0 0 0 64 0 [] []
    let f := flitOf ftData 4095 none [] (leBytes 32 p.hdr.toNat)
    let c := flitOf ftData 4095 none [{ vc := 6, job := 0, pool := false, units := 2 }] []
    (k.st = .active ∧ (s.links[(0 : LinkId)]) = k) ∧
    (flitOk f false = true ∧ fType f = ftData ∧ fSeq f = k.rxSeq ∧ fAck f = none ∧ k.rxPart = [] ∧ (fRet f 248).units = 0 ∧ (fRet f 250).units = 0 ∧
      leAt f 0 4 ≠ 0 ∧ 32 + 64 * leAt f 6 1 ≤ 244 ∧ (∀ i, i < 244 → 32 + 64 * leAt f 6 1 ≤ i → getD f i 0#8 = 0#8)) ∧
    (let q : Pkt := { hdr := BitVec.ofNat 256 (leAt f 0 32), data := (f.take 32).drop 32 }
     pType q ≠ 10 ∧ pPooled q = false ∧ tnat k.rxRsv (pJob q * 8 + pVc q) + pSize q ≤ rsvOf k.rsv (pJob q * 8 + pVc q)) ∧
    (flitOk c false = true ∧ fType c = ftData ∧ fSeq c = k.rxSeq ∧ fAck c = none ∧ (∀ i, i < 244 → getD c i 0#8 = 0#8) ∧ (fRet c 250).units = 0 ∧
      (fRet c 248).pool = false ∧ 0 < (fRet c 248).units ∧ (fRet c 248).units ≤ tnat k.useRsv ((fRet c 248).job * 8 + (fRet c 248).vc)) := by
  refine ⟨?_, ?_, ?_, ?_⟩ <;> decide +kernel

set_option maxRecDepth 100000 in
theorem wit_LinkTrafficResult :
    let x : TxFlit := { seq := 4095, payload := [], rets := [] }
    let k : Link := { st := .active, rxSeq := 4095, retry := [x] }
    let s (k : Link) := { (up.wr 0x400030 4#64) with links := up.links.set 0 k }
    let d := flitOf ftData 4095 none [] []
    let i := flitOf ftIdle 0 (some 4095) [] []
    let n := flitOf ftNak 0 none [] []
    let p : TxPkt := { pkt := mkPkt up 8 3 0 0 64 0 [0#8, 1#8] [], vc := 6, job := 0, dst := 64 }
    (flitOk d false = true ∧ fType d = ftData ∧ fSeq d = k.rxSeq ∧ (∀ i, i < 244 → getD d i 0#8 = 0#8) ∧ (fRet d 248).units = 0 ∧
      (fRet d 250).units = 0 ∧ fAck d = none ∧ k.rxPart = []) ∧
    (flitOk i false = true ∧ fType i = ftIdle ∧ k.retry = [] ++ x :: [] ∧ fAck i = some x.seq) ∧
    (flitOk n false = true ∧ fType n = ftNak ∧ fAck n = none ∧ k.retry ≠ [] ∧ k.replays < fld ((s k).rd (linkBase (0 : LinkId) + 0x30)) 0 8) ∧
    (fld ((s k).rd (linkBase (0 : LinkId) + 0x30)) 0 8 ≤ 4 ∧ flitOk [] false = false ∧ k.nakSent = false ∧ k.tx = [] ∧ k.rets = []) ∧
    (flitOk (paramFlit 0) false = true ∧ fType (paramFlit 0) = ftParam ∧ fAck (paramFlit 0) = none) ∧
    (((s { st := .active, tx := [p] }).links[(0 : LinkId)]).tx = [p] ∧ p.vc < 8 ∧ p.job < 16 ∧ p.pkt.data.length ≤ 1024 ∧
      ((eligible (s { st := .active, tx := [p], peerPool := 4096 }) 0 p.vc p.job).map (·.1)) = some p) := by
  refine ⟨?_, ?_, ?_, ?_, ?_, ?_⟩ <;> decide +kernel

/-! ### Packets -/

/-- The module with a route to device 64. -/
def routed : State := (up.wr 0x50010 0xFFFFFF#64).wr 0x100200 0x0000FFFF80FFFFFF#64
/-- Device 64, which sends. -/
def peer : State := up.wr 0x50000 64#64
/-- A packet of device 64 to device 0, job 0. -/
def sentPkt (ptype tc rsp tag : Nat) (tf data : List Byte) : RxWait :=
  { pkt := withEcrc (mkPkt peer ptype tc rsp 0 0 tag tf data), units := 1 }
/-- It stands in the receive buffer of L0. -/
def withRx (s : State) (r : RxWait) : State := s.setLink 0 { s.links[(0 : LinkId)] with rxq := [r] }

theorem arrived_of {s : State} {l : LinkId} {r : RxWait} {rest : List RxWait}
    (h : (s.links[l]).rxq = r :: rest ∧ pEcrc r.pkt = crc32 (ecrcBytes r.pkt) ∧ headOk s r.pkt = true ∧ typeOk r.pkt = true ∧
      orderOk s r.pkt = true) : Arrived s l r rest := h

theorem wit_RoutingAndTimeResult :
    let s := routed.wr 0x50038 0x101#64
    let q := sentPkt 10 3 0 0 [] []
    let p := sentPkt 10 3 1 0 (leBytes 8 1 ++ leBytes 8 2) []
    let t := { withRx s p with net := { t1 := some 5#64, asking := true } }
    let x (rsp : Nat) : TxPkt := { pkt := mkPkt s 10 3 rsp 0 64 0 [] [], vc := if rsp = 0 then 6 else 7, job := 0, dst := 64 }
    let o (rsp : Nat) := s.setLink 0 { st := .active, tx := [x rsp], peerPool := 4096 }
    (bit (s.rd (lnkBase + 0x38)) 0 = true ∧ bit (s.rd (lnkBase + 0x38)) 1 = false ∧ s.net.asking = false ∧ s.net.missed < 4 ∧
      (choosePlane s 0 6 (fld (s.rd (lnkBase + 0x38)) 2 15) 0).isSome = true) ∧
    (∀ rsp ∈ [0, 1], ((o rsp).links[(0 : LinkId)]).st = .active ∧ ((o rsp).links[(0 : LinkId)]).tx = [x rsp] ∧ (x rsp).vc < 8 ∧
      (x rsp).job < 16 ∧ pType (x rsp).pkt = 10 ∧ pRsp (x rsp).pkt = rsp ∧
      (eligible (o rsp) 0 (x rsp).vc (x rsp).job).map (·.1) = some (x rsp)) ∧
    (Arrived (withRx s q) 0 q [] ∧ pType q.pkt = 10 ∧ pRsp q.pkt = 0 ∧ (choosePlane (withRx s q) 0 7 (pSrc q.pkt) (pJob q.pkt)).isSome = true) ∧
    (Arrived t 0 p [] ∧ pType p.pkt = 10 ∧ pRsp p.pkt = 1 ∧ t.net.t1 = some 5#64 ∧ pSrc p.pkt = fld (t.rd (lnkBase + 0x38)) 2 15) ∧
    s.domainOn 48 = true := by
  unfold Arrived
  refine ⟨?_, ?_, ?_, ?_, ?_⟩ <;> decide +kernel

set_option maxRecDepth 100000 in
theorem wit_PeerRequestResult :
    let s := ((routed.wr 0x40100 0#64).wr 0x40108 0x1000#64).wr 0x40110 0x7E1#64
    let w := sentPkt 2 2 0 7 (leBytes 6 0xFC0) (List.replicate 64 1#8)
    let r := sentPkt 3 2 0 7 (leBytes 6 0xFC0 ++ leBytes 1 1) []
    let h (x : RxWait) := s.setLink 0 { st := .active, waits := [x] }
    (placeLocal s (pByte w.pkt 12 6) (reqLen w.pkt) = .gddr 0xFC0 ∧ Memory.wf s.gddr = true ∧
      (choosePlane s (linkDie 0) 5 (pSrc w.pkt) (pJob w.pkt)).isSome = true) ∧
    (pType w.pkt = 2 ∧ w.pkt.data.length = reqLen w.pkt ∧
      (memWindow s (.peer (pSrc w.pkt)) (pJob w.pkt) 0xFC0 (reqLen w.pkt) true).isSome = true ∧
      Arrived (withRx s w) 0 w [] ∧ reqWaits (withRx s w).links[(0 : LinkId)] (pJob w.pkt) = false ∧ ((h w).links[(0 : LinkId)]).waits = [w]) ∧
    (pType r.pkt = 3 ∧ (memWindow s (.peer (pSrc r.pkt)) (pJob r.pkt) 0xFC0 (reqLen r.pkt) false).isSome = true ∧
      Arrived (withRx s r) 0 r [] ∧ reqWaits (withRx s r).links[(0 : LinkId)] (pJob r.pkt) = false ∧
      ((h r).links[(0 : LinkId)]).waits = [r] ∧ placeLocal s (pByte r.pkt 12 6) (reqLen r.pkt) = .gddr 0xFC0) ∧
    memWindow routed (.peer (pSrc w.pkt)) (pJob w.pkt) 0xFC0 (reqLen w.pkt) true = none := by
  unfold Arrived
  refine ⟨?_, ?_, ?_, ?_⟩ <;> decide +kernel
theorem wit_PeerServed (a n : Nat) (h : a + n ≤ 0x1740000000) : GddrFree routed a n := served _ a n (top_of h) (by decide +kernel) (by decide +kernel) ⟨rfl, rfl, rfl⟩

/-- A transfer of C0 with one request out to device 64. -/
def asking (writing : Bool) (resends : Nat) (r : RxWait) : State :=
  let q : NetReq := { tag := 8191, job := 0, pkt := mkPkt routed (if writing then 2 else 3) 2 0 0 64 8191 [] [],
                      owner := some (.dma 0 3 1), resends := resends }
  let d : DmaRun := { seq := 1, pc := 0, word := 0#128, job := some 0, writing := writing,
                      out := [{ tag := 8191, addr := 0, off := 0, len := 64 }] }
  let s := routed.setUnit 0 { chan := (Vector.replicate 4 []).set 3 [d] }
  withRx { s with net := { reqs := [q] } } r

set_option maxRecDepth 100000 in
theorem wit_PeerAnswerResult :
    let ok := sentPkt 4 2 1 8191 [0#8] (List.replicate 64 1#8)
    let bad := sentPkt 4 2 1 8191 [9#8] []
    let ack := sentPkt 5 2 1 8191 [0#8] []
    let cells := sentPkt 1 0 0 0 [255#8, 0x40#8] (List.replicate 64 1#8)
    let flow := sentPkt 8 3 0 0 [255#8, 1#8] []
    let q (w : Bool) (n : Nat) : NetReq := { tag := 8191, job := 0, pkt := mkPkt routed (if w then 2 else 3) 2 0 0 64 8191 [] [],
                                             owner := some (.dma 0 3 1), resends := n }
    let waiting (w : Bool) (n : Nat) (r : RxWait) : Bool :=
      let s := asking w n r
      decide (s.net.reqs = [q w n]) && (runOf s 0 3 1).any (fun d => (d.out.find? (fun x => x.tag == 8191)).isSome && d.fail.isNone && d.writing == w) &&
      s.net.collPend.isEmpty && (allFin 16).all (fun j => (s.rcl.jobs[j]).cairn.isNone)
    let dst (w : Bool) := pDst (q w 0).pkt
    (waiting false 0 ok = true ∧ pType ok.pkt = 4 ∧ pType (q false 0).pkt = 3 ∧ pByte ok.pkt 12 1 = 0 ∧ pByte bad.pkt 12 1 ≠ 0) ∧
    (Arrived (asking false 0 ok) 0 ok [] ∧ Arrived (asking false 0 bad) 0 bad [] ∧ 8191 = pTag ok.pkt ∧ 8191 = pTag bad.pkt ∧
      dst false = pSrc ok.pkt ∧ dst false = pSrc bad.pkt ∧ 0 = pJob ok.pkt ∧ 0 = pJob bad.pkt) ∧ (waiting true 0 ack = true ∧ Arrived (asking true 0 ack) 0 ack [] ∧ 8191 = pTag ack.pkt ∧ dst true = pSrc ack.pkt ∧ 0 = pJob ack.pkt ∧ pType ack.pkt = 5 ∧ pType (q true 0).pkt = 2) ∧
    (waiting true 4 ack = true ∧ (choosePlane (asking true 3 ack) 0 4 (pDst (q true 3).pkt) 0).isSome = true) ∧
    (Arrived (withRx routed cells) 0 cells [] ∧ pType cells.pkt = 1 ∧ pByte cells.pkt 12 1 = (255 : QId).val) ∧
    (Arrived (withRx routed flow) 0 flow [] ∧ pType flow.pkt = 8) ∧
    pEcrc (mkPkt peer 8 3 0 0 0 0 [] []) ≠ crc32 (ecrcBytes (mkPkt peer 8 3 0 0 0 0 [] [])) := by
  unfold Arrived
  refine ⟨?_, ?_, ?_, ?_, ?_, ?_, ?_⟩ <;> decide +kernel

set_option maxRecDepth 100000 in
theorem wit_CollTransferResult :
    let r := sentPkt 6 1 0 9 (leBytes 2 0xFFFF ++ leBytes 2 0 ++ leBytes 2 1 ++ [0#8, 4#8]) (List.replicate 64 1#8)
    let a (k : Byte) := sentPkt 7 1 1 9 (leBytes 2 0xFFFF ++ [k]) []
    let c (n : Nat) : CollTx := { xid := 0xFFFF, tag := 9, job := 0, dst := 64, info := [], stream := [], rounds := n }
    let x (n : Nat) : CollRx := { src := 64, job := 0, xid := 0xFFFF, tag := 9, stripes := 1, info := [], shared := false, rounds := n }
    let s (n : Nat) (k : Byte) := { withRx routed (a k) with net := { collTx := [c n], collRx := [x n] } }
    (Arrived (withRx routed r) 0 r [] ∧ pType r.pkt = 6 ∧ 2 ≤ pByte r.pkt 19 1 ∧ 1 ≤ pByte r.pkt 16 2 ∧ routed.net.collRx = [] ∧
      ∀ k : LinkId, (routed.links[k]).waits = []) ∧
    (Arrived (s 3 2#8) 0 (a 2#8) [] ∧ pType (a 2#8).pkt = 7 ∧ (c 3).dst = pSrc (a 2#8).pkt ∧ (c 3).job = pJob (a 2#8).pkt ∧
      (c 3).xid = pByte (a 2#8).pkt 12 2 ∧ pByte (a 2#8).pkt 14 1 = 2 ∧ (c 3).rounds < 4 ∧ usable (s 3 2#8) 64 0 ≠ 0 ∧
      (s 3 2#8).net.collTx = [c 3] ∧ (s 3 2#8).net.collPend = [] ∧ (s 3 2#8).net.collRx = [x 3]) ∧
    (Arrived (s 3 1#8) 0 (a 1#8) [] ∧ pByte (a 1#8).pkt 14 1 ≠ 2) ∧
    ((s 4 1#8).net.collTx = [c 4] ∧ 4 ≤ (c 4).rounds ∧ 4 ≤ (x 4).rounds) := by
  unfold Arrived
  refine ⟨?_, ?_, ?_, ?_⟩ <;> decide +kernel

set_option maxRecDepth 100000 in
/-- The last part of a transfer, the stripes that a COLL_ACK names, and the answer to a transfer of which parts are missing. -/
theorem wit_CollStripes :
    let r := sentPkt 6 1 0 9 (leBytes 2 0xFFFF ++ leBytes 2 0 ++ leBytes 2 1 ++ [0#8, 1#8]) (List.replicate 64 1#8)
    let c : CollRx := { src := 64, job := 0, xid := 0xFFFF, tag := 9, stripes := 1, info := [], shared := false }
    let z := { withRx routed r with net := { collRx := [c] } }
    let a := sentPkt 7 1 1 9 (leBytes 2 0xFFFF ++ [2#8, 0#8] ++ leBytes 2 0 ++ leBytes 8 1) []
    let b : CollTx := { xid := 0xFFFF, tag := 9, job := 0, dst := 64, info := [], stream := List.replicate 64 1#8, rounds := 3 }
    (Arrived z 0 r [] ∧ pType r.pkt = 6 ∧ z.net.collRx = [c] ∧ c.src = pSrc r.pkt ∧ c.job = pJob r.pkt ∧ c.xid = pByte r.pkt 12 2 ∧
      (∀ k : LinkId, (z.links[k]).waits = []) ∧ c.parts = [] ∧
      missing { c with parts := c.parts ++ [(pByte r.pkt 14 2, pByte r.pkt 18 1, pByte r.pkt 19 1, r.pkt.data)] } = [] ∧
      (∀ j : JobId, j.val = c.job → rclEn z j = false) ∧ (choosePlane z 0 3 c.src c.job).isSome = true) ∧
    ((pByte a.pkt 18 8).testBit 0 = true ∧ pByte a.pkt 16 2 + 0 < stripesOf b.stream ∧ usable z b.dst b.job ≠ 0) ∧
    (c.src < 32768 ∧ c.job < 16 ∧ c.xid < 65536 ∧ (∀ i ∈ missing c, i < 65536) ∧ missing c = [0]) := by
  unfold Arrived
  refine ⟨?_, ?_, ?_⟩ <;> decide +kernel

/-! ### Reduction and commit -/

/-- Job 0 is served: a group of this module, device 0, and device 64, at step 0, with bucket entry 0. -/
def serving : State :=
  { (((((up.wr 0x61000 1#64).wr 0x61018 1#64).wr 0x61020 0x2000#64).wr 0x61028 5#64).wr 0x61048 0x4000000000#64).wr 0x70000 1#64 with
    gddr := [(0, 2#8), (0x2002, 64#8)], rcl := { groups := (Vector.replicate 16 []).set 0 [0, 64] } }
/-- With bucket 0 and the job's state as given, and `p` first among the module's messages to itself. -/
def told (p : Pkt) (k : RclJob) (b : Bucket) : State :=
  { serving with net := { self := [p] }, rcl := { serving.rcl with jobs := serving.rcl.jobs.set 0 k, bkts := serving.rcl.bkts.set 0 b } }
/-- A SYNC message of device `dev` to job 0. -/
def syncPkt (dev : W64) (kind level : Nat) : Pkt :=
  mkPkt (up.wr 0x50000 dev) 9 3 0 0 0 0 (syncFields kind 0 0 0 level 0 1 false 0) []
/-- The bucket with the summit begun. -/
def begunBkt : Bucket := { phase := 1, ev := [{ level := 4, lo := 0, hi := 2 }] }

theorem own_of {s : State} {j : JobId} {kind : Nat} {p : Pkt} (r : List Pkt)
    (h : s.net.self = p :: r ∧ pType p = 9 ∧ pByte p 12 1 = kind ∧ pJob p = j.val ∧ syncFresh s j p = true) : OwnSync s j kind p :=
  ⟨⟨r, h.1⟩, h.2⟩

theorem wit_SyncOwn : OwnSync (told (syncPkt 64 2 3) { phase := 1 } begunBkt) 0 2 (syncPkt 64 2 3) ∧
    OwnSync (told (syncPkt 64 1 3) { phase := 1 } begunBkt) 0 1 (syncPkt 64 1 3) ∧
    OwnSync (told (syncPkt 0 3 1) { phase := 1 } {}) 0 3 (syncPkt 0 3 1) ∧
    OwnSync (told (syncPkt 64 4 0) { phase := 1 } {}) 0 4 (syncPkt 64 4 0) ∧
    OwnSync (told (syncPkt 64 7 0) { phase := 1 } {}) 0 7 (syncPkt 64 7 0) ∧
    OwnSync (told (syncPkt 0 5 0) { phase := 2 } {}) 0 5 (syncPkt 0 5 0) ∧
    OwnSync (told (syncPkt 0 6 0) { phase := 2 } {}) 0 6 (syncPkt 0 6 0) := by
  refine ⟨?_, ?_, ?_, ?_, ?_, ?_, ?_⟩ <;> refine own_of [] ?_ <;> decide +kernel

theorem wit_SyncMessageResult :
    let x : ExpVertex := { level := 4, lo := 0, hi := 2 }
    let p := syncPkt 64 1 3
    let s := told p { phase := 1 } begunBkt
    let z := told (syncPkt 0 3 1) { phase := 1 } {}
    (bktFor s 0 (pByte p 14 2) = some 0 ∧
      (parentOf s 0 0 (pSrc p) (pByte p 20 1)).any (fun v => decide (v.1.level = 4 ∧ v.2 = (1, 2) ∧ x.ins.length + 1 < v.1.kids.length)) = true ∧
      expVertex s 0 4 = some x ∧ x.done = false ∧ (∀ i ∈ x.ins, i.lo ≠ 1) ∧ (pByte p 24 1).testBit 0 = false) ∧
    (bktFor z 0 (pByte (syncPkt 0 3 1) 14 2) = some 0 ∧
      ((memberIx (membersOf z 0) (pSrc (syncPkt 0 3 1))).bind (fun i => vtxAt (chain (membersOf z 0) i) (pByte (syncPkt 0 3 1) 20 1))).any
        (fun v => (v.kids.find? (fun q => holds q.2 (groupSelf z 0))).any (fun c => decide (c.1 = 0))) = true ∧
      (z.rcl.bkts[(0 : QId)]).dec = none ∧ (z.rcl.bkts[(0 : QId)]).hand = none ∧ (z.rcl.bkts[(0 : QId)]).early = [] ∧
      (z.rcl.jobs[(0 : JobId)]).due = []) ∧
    (groupSelf z 0 = 0 ∧ (z.rcl.jobs[(0 : JobId)]).decided = false) := by
  refine ⟨?_, ?_, ?_⟩ <;> decide +kernel

/-- `serving` with C0's guard 0 filled, and the job's and the bucket's state as given. -/
def filled (k : RclJob) (b : Bucket) : State :=
  let s := serving.setLoc 0 { guards := 1#4096 }
  { s with rcl := { s.rcl with jobs := s.rcl.jobs.set 0 k, bkts := s.rcl.bkts.set 0 b } }

theorem wit_CommitServiceResult :
    let s := filled { phase := 1 } {}
    let x : ExpVertex := { level := 4, lo := 0, hi := 2 }
    let d := filled { phase := 1 } begunBkt
    let r := filled { phase := 1 } { accepted := true, got := 1#128 }
    (bValid s 0 = true ∧ bJob s 0 = (0 : JobId).val ∧ rclEn s 0 = true ∧ s.domainOn 48 = true ∧ bCore s 0 = (0 : CoreId).val ∧
      (s.rcl.bkts[(0 : QId)]).accepted = false ∧ (s.rcl.bkts[(0 : QId)]).dec = none ∧ guardFilled s 0 (bGuard s 0) = true ∧
      coreAway s 0 0 = false ∧ (s.rcl.jobs[(0 : JobId)]).drains = [] ∧ memServes s = true ∧
      spBankOff s 0 (s.rd (bktBase (0 : QId) + 8)).toNat 64 = none ∧ spMarks s 0 (s.rd (bktBase (0 : QId) + 8)).toNat 64 = [] ∧
      handOk s 0 0 (spBytes s 0 0 64) (s.gddr.read 0 576) = true) ∧
    ((vtxAt (selfChain d 0) 4).isSome = true ∧ expVertex d 0 4 = some x ∧ x.done = false ∧ fld (d.rd (rclBase (0 : JobId) + 0x28)) 0 32 ≠ 0) ∧
    (rclEn r 0 = true ∧ (r.rcl.jobs[(0 : JobId)]).phase = 1 ∧ (r.rcl.jobs[(0 : JobId)]).failed = false ∧ r.domainOn 48 = true ∧
      (∀ y ∈ jobBkts r 0, bktReady r y = true) ∧ belayEn r 0 = false ∧ belayEn (r.wr 0x61000 3#64) 0 = true ∧ member r 0 0 = r.devid) ∧
    groupSelf s 0 = 0 := by
  refine ⟨?_, ?_, ?_, ?_⟩ <;> decide +kernel

theorem filled_served (k : RclJob) (b : Bucket) (a n : Nat) (h : a + n ≤ 0x1740000000) : GddrFree (filled k b) a n := by
  have d : ∀ g : CtrlId, (filled {} {}).domainOn (ctrlDomain g) = true := by decide +kernel
  have r : IdleCtrls (filled {} {}) := by decide +kernel
  exact served _ a n (top_of h) d r ⟨rfl, rfl, rfl⟩

/-- The member table of a job that is about to be enabled. -/
theorem wit_MemberTable : (up.wr 0x61028 127#64).domainOn 48 = true ∧ rclEn (up.wr 0x61028 127#64) 0 = false ∧
    GddrFree (up.wr 0x61028 127#64) ((up.wr 0x61028 127#64).rd (rclBase (0 : JobId) + 0x20)).toNat (2 * groupG (up.wr 0x61028 127#64) 0) :=
  ⟨by decide +kernel, by decide +kernel, served _ _ _ (top_of (by decide +kernel)) (by decide +kernel) (by decide +kernel) ⟨rfl, rfl, rfl⟩⟩

/-- `filled` with work cores C0 alone and a ring of one entry with guard 0; an optimise record of shard 0 may wait. -/
def working (k : RclJob) (b : Bucket) : State := (filled k b).wr 0x61038 0x1000000000000#64
theorem wit_WorkResult :
    let w (o : Bool) : Work := { e := 0, s := 0, opt := o, level := 0, lo := 0, srcA := 0, srcB := 0, core := 0 }
    let dec : Decision := { n := 1, eb := 0, excl := [] }
    let q (k : RclJob) (b : Bucket) : Prop :=
      let z := working k b
      z.domainOn 48 = true ∧ rclEn z 0 = true ∧ 0 < fld (z.rd (rclBase (0 : JobId) + 0x38)) 48 8 ∧ coreAway z 0 0 = false ∧
      memServes z = true ∧ guardFilled z 0 ((fld (z.rd (rclBase (0 : JobId) + 0x38)) 36 12 + 0) % 4096) = true ∧
      (z.rcl.jobs[(0 : JobId)]).due = [] ∧ (z.rcl.jobs[(0 : JobId)]).wq = k.wq ∧ (z.rcl.bkts[(0 : QId)]).dec = b.dec
    (q { phase := 1 } {} ∧ (workCores (working { phase := 1 } {}) 0).contains (0 : CoreId).val = true) ∧
    (q { phase := 1, wq := [(0, w false)] } {} ∧ (w false).core = (0 : CoreId).val ∧ (w false).e = (0 : QId).val) ∧
    (q { phase := 1, wq := [(0, w true)] } { dec := some dec } ∧ (w true).s < 128 ∧ bJob (working {} {}) 0 = (0 : JobId).val) := by
  decide +kernel
theorem working_served (k : RclJob) (b : Bucket) (a n : Nat) (h : a + n ≤ 0x1740000000) : GddrFree (working k b) a n := by
  have d : ∀ g : CtrlId, (working {} {}).domainOn (ctrlDomain g) = true := by decide +kernel
  have r : IdleCtrls (working {} {}) := by decide +kernel
  exact served _ a n (top_of h) d r ⟨rfl, rfl, rfl⟩

theorem wit_CommitWaits :
    let b := filled { phase := 2, belayDue := true } {}
    let o := filled { phase := 2, readySent := true } {}
    let f := filled { phase := 1, firstReady := true } {}
    ((b.rcl.jobs[(0 : JobId)]).belayDue = true ∧ (b.rcl.jobs[(0 : JobId)]).phase = 2 ∧ (b.rcl.jobs[(0 : JobId)]).failed = false ∧
      b.pins.belayLow = false ∧ (b.rcl.jobs[(0 : JobId)]).readySent = false ∧ member b 0 0 = b.devid) ∧
    ((o.rcl.jobs[(0 : JobId)]).phase = 2 ∧ (o.rcl.jobs[(0 : JobId)]).readySent = true ∧ (o.rcl.jobs[(0 : JobId)]).waited = false) ∧
    (rclEn f 0 = true ∧ groupSelf f 0 = 0 ∧ (f.rcl.jobs[(0 : JobId)]).firstReady = true ∧ (f.rcl.jobs[(0 : JobId)]).decided = false) ∧
    o.domainOn 48 = true ∧ rclEn o 0 = true := by decide +kernel

theorem wit_NoteRetry :
    let n : Note := { core := 1, off := 0xFFFFC0, bytes := List.replicate 64 1#8, sem := 63 }
    let s := (filled { phase := 1, notes := [n] } {}).setCore 1 { run := .running }
    ((s.rcl.jobs[(0 : JobId)]).notes = [n] ∧ (s.rcl.jobs[(0 : JobId)]).sigs = [] ∧ (s.rcl.jobs[(0 : JobId)]).drains = [] ∧
      (s.rcl.jobs[(0 : JobId)]).due = [] ∧ coreAway s 0 n.core = false ∧ n.bytes.length = 64 ∧ Memory.wf (s.loc n.core).sp = true) ∧
    (n.off % 64 = 0 ∧ n.off + 64 ≤ spSize ∧ spBankOff s n.core n.off 64 = none ∧
      (∀ e ∈ jobBkts s 0, (s.rcl.bkts[e]).left = [] ∧ (s.rcl.bkts[e]).early = []) ∧
      sigPath s (some (0 : JobId).val) n.core = .apply n.core ∧ RunsFree s n.core ∧ n.sem < 64 ∧
      (semGet (s.loc n.core) n.sem).toNat < 0xFFFF) := by
  unfold RunsFree
  refine ⟨?_, ?_⟩ <;> decide +kernel

theorem wit_CairnComplete :
    let c : Cairn := { step := 0xFFFFFFFF, stage := 1, bytes := [1#8, 2#8], copy := false }
    let s := { filled { phase := 1, cairn := some c } {} with cxl := up.cxl.set 0 { activeA := true } }.wr 0x900028 1#64
    (s.rcl.jobs[(0 : JobId)]).cairn = some c ∧ c.fail = 0 ∧ c.copy = false ∧ c.stage ≠ 0 ∧ c.step < 2 ^ 32 ∧ (s.rcl.jobs[(0 : JobId)]).due = [] ∧
      placeLocal s (s.rd (rclBase (0 : JobId) + 0x48)).toNat c.bytes.length = .tier 0 ∧ Memory.wf s.tier = true := by
  decide +kernel

theorem wit_HeldSignalRetry :
    let h : HeldSig := { target := 1, sem := 63, value := 0xFFFF, pc := 0 }
    let s := ((up.setCore 0 { run := .running }).setCore 1 { run := .running }).setUnit 0 { held := [h] }
    (s.unit 0).held = [h] ∧ h.target = (1 : CoreId).val ∧ h.sem < 64 ∧ sigPath s (s.jobOf 0) h.target = .apply 1 ∧ RunsFree s 0 ∧
      RunsFree s 1 ∧ (semGet (s.loc 1) h.sem).toNat + h.value ≤ 0xFFFF := by
  unfold RunsFree
  decide +kernel

/-! ### Rings and descriptors -/

/-- A descriptor with fields given as offset, length and value. -/
def descOf (fs : List (Nat × Nat)) (run : Option DescRun) : Desc :=
  { bytes := leBytes 64 (fs.foldl (fun a (f : Nat × Nat) => a + f.2 * 2 ^ (8 * f.1)) 0), run := run }
/-- The module with rings 0 to 3 of 64 entries enabled, and `k` the state of ring `r`. -/
def ringed (r : RingId) (k : Ring) : State :=
  let s := (((up.wr 0x2008 0x106#64).wr 0x2048 0x106#64).wr 0x2088 0x106#64).wr 0x20C8 0x106#64
  s.setRing r k
/-- Ring 2, the descriptor ring of job 0, holds one descriptor. -/
def onRing (d : Desc) : State := ringed 2 { prod := 1#32, cons := 1#32, descs := [d] }

theorem wit_RingResult :
    let s := ringed 2 { prod := 64#32, cons := 0#32, descs := [] }
    let e := ringed 2 { prod := 0xFFFFFFF0#32, cons := 0xFFFFFFF0#32 }
    let c := ringed 3 { prod := 0#32, cons := 0xFFFFFFC0#32, timer := true }
    let n := onRing (descOf [(0, 0)] none)
    let x := onRing (descOf [(0, 0xFE)] none)
    let f := onRing (descOf [(1, 4)] (some (.due 0#8 0#32 0#16)))
    let off := s.wr 0x2088 0x10#64
    let v := { s with host := { s.host with fnA := { vfEn := true }, fnOn := [0], vecPending := [2047] } }
    (fnOf .owner = some 0 ∧ barGate s .owner = none ∧ sqRing 2 = true ∧ s.ringFn (2 : RingId) = 0) ∧
    ((0x30#32 : BitVec 32) ≠ 0xFFFFFFF0#32 ∧ ((0x30#32 : BitVec 32) - 0xFFFFFFF0#32).toNat ≤ e.ringSize (2 : RingId) ∧
      (0xFFFFFFF0#32 - 0xFFFFFFF0#32 : BitVec 32).toNat < ((0x30#32 : BitVec 32) - 0xFFFFFFF0#32).toNat ∧
      e.ringSize (2 : RingId) < ((0x31#32 : BitVec 32) - 0xFFFFFFF0#32).toNat) ∧
    (sqRing 3 = false ∧ c.ringFn (3 : RingId) = 0 ∧ ((0#32 : BitVec 32) - 0#32).toNat ≤ c.ringSize (3 : RingId) ∧
      ((0#32 : BitVec 32) - 0#32).toNat < ((0#32 : BitVec 32) - 0xFFFFFFC0#32).toNat ∧
      c.ringSize (3 : RingId) < ((0#32 : BitVec 32) - 1#32).toNat ∧ fnOf (.vf 15) = some 16 ∧
      barGate { s with host := { s.host with fnA := { vfEn := true } } } (.vf 15) = none) ∧
    (fetchable s 2 = 8 ∧ min 9 (fetchable s 2) ≠ 0) ∧
    (nextStart n 2 = some (0, descOf [(0, 0)] none) ∧ descCheck n 2 (descOf [(0, 0)] none) = none ∧ ringGoes n 2 = true ∧ ringGoes f 2 = true ∧
      nextStart x 2 = some (0, descOf [(0, 0xFE)] none) ∧ descCheck x 2 (descOf [(0, 0xFE)] none) = some 0x10#8) ∧
    ((f.host.rings[(2 : RingId)]).descs[0]? = some (descOf [(1, 4)] (some (.due 0#8 0#32 0#16))) ∧
      (dN (descOf [(1, 4)] none) 1 1).testBit 2 = true) ∧
    (ringBy s 2 .owner = true ∧ off.ringEn (2 : RingId) = false ∧ 6 ≤ fld (off.rd (ringBase (2 : RingId) + 8)) 0 5 ∧
      fld (off.rd (ringBase (2 : RingId) + 8)) 0 5 ≤ 16 ∧ s.ringEn (2 : RingId) = true ∧
      (off.host.rings[(2 : RingId)]).held = []) ∧
    (c.host.rings[(3 : RingId)]).timer = true ∧
    (s.ringFn (2 : RingId) ≠ 16 ∧ s.ringFn (3 : RingId) ≠ 16 ∧ hears s (fnSender 0) = true ∧ v.host.fnOn.contains (v.fnNo (0 : Fin 17).val) = true ∧
      v.fnNo (0 : Fin 17).val * 4096 + (2047 : Fin 2048).val ∈ v.host.vecPending ∧ hears v (fnSender 16) = true ∧ (63 : Fin 2048).val < 64) := by
  refine ⟨?_, ?_, ?_, ?_, ?_, ?_, ?_, ?_, ?_⟩ <;> decide +kernel

/-- LOAD_PROG of 32 words, the most that one read brings, to C0 from index 0x7FE0, out of host memory. -/
def loadDesc : Desc := descOf [(0, 1), (8, 1), (24, 1), (28, 0x7FE0), (32, 32)] (some .begun)
/-- COPY of a line of host memory to 0x1000. -/
def copyDesc : Desc := descOf [(0, 3), (16, 0x1000), (24, 64), (32, 1)] (some .begun)
/-- What a read of host memory for ring 2 assumes. -/
def asks (z : State) (a len : Nat) : Bool :=
  ownerOn z && z.host.ho == .none && hostRoom z (z.ringFn (2 : RingId)) && inTurn z 2 && z.host.reads.isEmpty &&
  decide (0 < len ∧ len ≤ min (128 * 2 ^ (portOf z true).mrrs) (4096 - a % 4096))
/-- SIGNAL of C1's semaphore 63. -/
def signalDesc : Desc := descOf [(0, 6), (8, 1), (9, 63), (10, 0xFFFF)] (some .begun)

theorem wit_DescriptorResult :
    let l := onRing loadDesc
    let c := onRing copyDesc
    let g := (onRing signalDesc).setCore 1 { run := .running }
    ((l.host.rings[(2 : RingId)]).descs = [loadDesc] ∧ loadDesc.run = some .begun ∧ dOp loadDesc = 1 ∧ (dN loadDesc 24 1).testBit 0 = true ∧
      asks l (dN loadDesc 16 8) (16 * dN loadDesc 32 4) = true ∧ dCores loadDesc 8 = [0] ∧
      ∀ x ∈ dCores loadDesc 8, (l.core x).run = .halted ∧ l.domainOn x.val = true) ∧
    (dOp copyDesc = 3 ∧ dN copyDesc 24 8 = 64 ∧ (dN copyDesc 32 1).testBit 0 = true ∧ (dN copyDesc 32 1).testBit 1 = false ∧
      asks c (dN copyDesc 8 8) 64 = true ∧ placeOf c (dN copyDesc 16 8) 64 = .gddr 0x1000 ∧ ringPf c 2 = true ∧ Memory.wf c.gddr = true) ∧
    (dOp signalDesc = 6 ∧ ringJob 2 = some 0 ∧ sigPath g (some 0) (dN signalDesc 8 1) = .apply 1 ∧
      dN signalDesc 9 1 = (63 : Fin 64).val ∧ RunsFree g 1 ∧ ((g.loc 1).sems[(63 : Fin 64)]).toNat + dN signalDesc 10 2 ≤ 0xFFFF) := by
  unfold RunsFree
  refine ⟨?_, ?_, ?_⟩ <;> decide +kernel

theorem wit_DescriptorServed (a n : Nat) (h : a + n ≤ 0x1740000000) : GddrFree (onRing copyDesc) a n := served _ a n (top_of h) (by decide +kernel) (by decide +kernel) ⟨rfl, rfl, rfl⟩

/-- RUN of C0 and C1 from 0x7FFF with a time limit. -/
def runDesc (run : DescRun) : Desc := descOf [(0, 2), (8, 3), (16, 0x7FFF), (20, 1)] (some run)
/-- QPUSH of two cells to Q0. -/
def pushDesc : Desc := descOf [(0, 4), (12, 2)] (some .begun)
/-- QPOP from Q0 into two cells at 0x40 of host memory. -/
def popDesc (limit : Nat) (run : DescRun) : Desc := descOf [(0, 5), (12, 2), (16, 0x40), (24, limit)] (some run)

theorem wit_RunAndQueueDescriptorResult :
    let ran (t : Bool) := runDesc (.run 3#48 t)
    let s := ((onRing (ran false)).setCore 0 { status := 0xDFFF#16 }).setCore 1 { status := 0#16 }
    let f := s.setCore 1 { status := 0xE000#16 }
    let busy := s.setCore 1 { run := .running }
    let q := q0 (onRing (popDesc 1 .begun)) [{}, { eop := true }]
    let p (n : Nat) := q0 (onRing (popDesc 1 (.pop 0 0x40 n))) [{}, { eop := true }]
    let only (x : State) (d : Desc) : Bool := (x.host.rings[(2 : RingId)]).descs == [d]
    let out (x : State) (n : Nat) : State := setRun1 x 2 0 (.copyOut 0 0x40 (List.replicate (64 * n) 0#8) n 0)
    let long := q0 (onRing (popDesc 1 (.pop 0 0x40 65))) (List.replicate 64 ({} : Cell) ++ [{ eop := true }])
    (only (onRing (runDesc .begun)) (runDesc .begun) = true ∧ dOp (ran false) = 2 ∧ dCores (ran false) 8 = [0, 1] ∧
      ∀ c ∈ dCores (ran false) 8, runHalted (onRing (runDesc .begun)) 2 c = true ∧ (onRing (runDesc .begun)).domainOn c.val = true) ∧
    (only s (ran false) = true ∧ runDone s 2 (ran false) = true ∧ (∀ c ∈ dCores (ran false) 8, (s.core c).status.toNat < 0xE000) ∧
      runDone f 2 (ran false) = true ∧
      (dCores (ran false) 8).filter (fun c => decide (0xDFFF < (f.core c).status.toNat)) = 1 :: [] ∧
      runDone (onRing (ran true)) 2 (ran true) = true) ∧
    (only busy (ran false) = true ∧ runDone busy 2 (ran false) = false ∧ dN (ran false) 20 4 ≠ 0) ∧
    (only (q0 (onRing pushDesc) []) pushDesc = true ∧ dOp pushDesc = 4 ∧ dN pushDesc 8 1 = (0 : QId).val ∧ 0 < dN pushDesc 12 4 ∧
      asks (q0 (onRing pushDesc) []) (dN pushDesc 16 8) (64 * dN pushDesc 12 4) = true) ∧
    (only q (popDesc 1 .begun) = true ∧ dOp (popDesc 1 .begun) = 5 ∧ dN (popDesc 1 .begun) 24 4 ≠ 0 ∧ dN (popDesc 0 .begun) 24 4 = 0 ∧
      firstLen (q0 (onRing (popDesc 0 .begun)) [{}]).queues[(0 : QId)] = none) ∧
    (only (p 1) (popDesc 1 (.pop 0 0x40 1)) = true ∧ firstLen (p 1).queues[(0 : QId)] = some 2 ∧ QPlain (p 2) 0 ∧
      ((p 2).queues[(0 : QId)]).bad = false ∧ (p 2).host.ho = .none ∧ visWaits (p 2) 0 = false ∧ lentOf (p 2) 2 0 = false ∧
      firstLen (q0 (onRing (popDesc 1 (.pop 0 0x40 2))) []).queues[(0 : QId)] = none) ∧
    (ringGoes s 2 = true ∧ ringGoes (p 1) 2 = true ∧ ownerOn (p 2) = true ∧ inTurn (out (p 2) 2) 2 = true ∧ 4096 < 64 * 65 ∧
      firstLen long.queues[(0 : QId)] = some 65 ∧ inTurn (out long 65) 2 = true ∧ QPlain long 0 ∧
      inTurn (out ({ p 2 with host := { (p 2).host with turn := 3 } }.setRing 4 { descs := [copyDesc] }) 2) 2 = false ∧
      ownerOn ((p 2).wr 0xA00060 0xEFFFFFFFFFFFFFFF#64) = false) := by
  unfold QPlain
  refine ⟨?_, ?_, ?_, ?_, ?_, ?_, ?_⟩ <;> decide +kernel

/-! ### Models and jobs -/

/-- A record of an image of 64 bytes at 0x1000, resident at 0x2000. -/
def modelRec : List Byte := (descOf [(0, 2), (4, 64), (8, 0x1000), (32, 0x2000)] none).bytes
/-- MODEL with an ACTION for entry 7, at priority 255. -/
def modelDesc (act : Nat) : Desc := descOf [(0, 8), (8, 7), (9, act), (10, 255), (24, 1)] (some .begun)
/-- GENERATE on entry 7 with Q0 and Q255. -/
def generateDesc : Desc := descOf [(0, 7), (8, 7), (9, 0xFF), (10, 0xFFFF), (12, 0), (13, 255), (16, 9)] (some .begun)

theorem wit_ModelResult :
    let s := onRing (modelDesc 1)
    let e := (onRing (modelDesc 2)).wr 0x91C0 1#64
    let g := (onRing generateDesc).wr 0x91C0 1#64
    (dOp (modelDesc 1) = 8 ∧ dN (modelDesc 1) 8 1 = 7 ∧ dN (modelDesc 1) 9 1 = 1 ∧ ringJob 2 = some 0 ∧ (dN (modelDesc 1) 24 1).testBit 0 = true ∧
      asks s (dN (modelDesc 1) 16 8) 64 = true ∧ entryStatus s 2 0 (modelDesc 1) = none ∧ modelRec.length = 64 ∧ recOk s modelRec = true ∧ mrTier modelRec = 2 ∧ rmtState s 7 ≠ 1 ∧ conflicts s 7 modelRec = [] ∧
      mrLen modelRec ≠ 0 ∧ placeOf s (mrHome modelRec) (mrLen modelRec) = .gddr 0x1000 ∧
      placeOf s (mrRaddr modelRec) (mrLen modelRec) = .gddr 0x2000 ∧ Memory.wf s.gddr = true) ∧
    (dN (modelDesc 2) 9 1 = 2 ∧ rmtState e 7 = 1 ∧ bit (e.rd (rmtBase 7)) 3 = false ∧ recServed e (rmtRec e 7) = true ∧
      entryStatus e 2 0 (modelDesc 2) = none) ∧
    (dN (modelDesc 3) 9 1 = 3 ∧ dN (modelDesc 4) 9 1 = 4 ∧ dN (modelDesc 5) 9 1 = 5 ∧
      (∀ a ∈ [3, 4, 5], entryStatus e 2 0 (modelDesc a) = none) ∧ ringGoes s 2 = true ∧ ringGoes e 2 = true ∧ ringGoes g 2 = true) ∧
    (dOp generateDesc = 7 ∧ dN generateDesc 8 1 = 7 ∧ rmtState g 7 ≠ 2 ∧ dN generateDesc 9 1 = 0xFF ∧
      entryStatus g 2 0 generateDesc = none ∧ g.jobs.monitors[(0 : Fin 64)] = none) := by
  refine ⟨?_, ?_, ?_, ?_⟩ <;> decide +kernel

theorem wit_ModelServed (a n : Nat) (h : a + n ≤ 0x1740000000) : GddrFree (onRing (modelDesc 1)) a n := served _ a n (top_of h) (by decide +kernel) (by decide +kernel) ⟨rfl, rfl, rfl⟩

/-- Ring 0 holds one descriptor. -/
def onManagement (d : Desc) : State := ringed 0 { prod := 1#32, cons := 1#32, descs := [d] }
/-- A management descriptor about job `j`. -/
def jobDesc (op j mask : Nat) (run : DescRun) : Desc := descOf [(0, op), (8, j), (16, mask)] (some run)

theorem wit_JobResult :
    let o := onManagement (jobDesc 0x41 15 0xC .begun)
    let f := (up.wr 0x8008 15#64)
    let a := { core := 0, job := 15, id := 1 : Victim }
    let p := ((((onManagement (jobDesc 0x43 15 1 .begun)).setCore 0 { run := .running }).wr 0x8780 3#64).wr 0x8788 1#64).wr 0x40908 1#64
    let v := { (up.setCore 0 { run := .running }) with jobs := { victims := [a] } }
    let c := onManagement (jobDesc 0x42 0 0 .begun)
    (dOp (jobDesc 0x41 15 0xC .begun) = 0x41 ∧ dN (jobDesc 0x41 15 0xC .begun) 8 1 = (15 : JobId).val ∧ o.jobOpen (15 : JobId) = false ∧
      fieldsOk o 0 (jobDesc 0x41 15 0xC .begun) = true ∧ ringGoes o 0 = true ∧ ringGoes p 0 = true ∧ ringGoes c 0 = true) ∧
    (f.domainOn 48 = true ∧ bit (0x42#64) 6 = true ∧
      fld (0x42#64) 0 6 ≤ ((allFin 48).filter (fun (c : CoreId) => bit (f.rd (jpBase 0 + 8)) c.val && coreFree f c)).length ∧
      ((allFin 48).filter (fun (c : CoreId) => bit (f.rd (jpBase 0 + 8)) c.val && coreFree f c)).length < fld (0x43#64) 0 6) ∧
    (∀ i : JobId, up.lentBy i = 0#64) ∧
    (dOp (jobDesc 0x43 15 1 .begun) = 0x43 ∧ p.jobOpen (15 : JobId) = true ∧ preemptStatus p (jobDesc 0x43 15 1 .begun) = none ∧ dCores (jobDesc 0x43 15 1 .begun) 16 = [0]) ∧
    (v.jobs.victims.any (fun x => x.core == (0 : CoreId)) = true ∧ (v.core 0).run = .running) ∧
    (dOp (jobDesc 0x42 0 0 .begun) = 0x42 ∧ (∀ x : CoreId, bit (c.heldBy (0 : JobId)) x.val = true → (c.core x).run = .halted) ∧
      c.lentBy (0 : JobId) = 0#64 ∧ (∀ i : Fin 64, c.jobs.monitors[i] = none) ∧ ∀ e, e < 8 → rmtState c e ≠ 1) := by
  refine ⟨?_, ?_, ?_, ?_, ?_, ?_⟩ <;> decide +kernel

/-! ### Telemetry, the governor, the host ports -/

theorem wit_TelemetryExportResult :
    let x : Export := { job := 15, kind := 3, step := 0, attempt := 0 }
    let s := { up with tel := { pending := [x] } }
    let r (code : Nat) : ExportRun := { job := 15, code := code, addr := 0x1000, bytes := [0#8, 0#8, 0#8, 0#8, 5#8] }
    let t (code : Nat) := { up with tel := { running := some (r code) } }
    (up.domainOn 48 = true ∧ bit (0x1F#64) 4 = true ∧ up.tel.pending.any (fun e => e.job == fld (0x1F#64) 0 4) = false) ∧
    (s.tel.running = none ∧ s.tel.pending = x :: [] ∧ gddrTop (s.wr 0xB004C8 0x1800000000#64) < telSlot (s.wr 0xB004C8 0x1800000000#64) 15 + 131072 ∧
      telSlot s 15 + 131072 ≤ gddrTop s ∧ telCount s 15 = 0 ∧ Memory.wf s.gddr = true) ∧
    ((t 1).tel.running = some (r 1) ∧ (r 1).code ≠ 0 ∧ (t 0).tel.running = some (r 0) ∧ (r 0).code = 0 ∧ 4 ≤ (r 0).bytes.length) := by
  refine ⟨?_, ?_, ?_⟩ <;> decide +kernel

theorem wit_TelemetryServed (a n : Nat) (h : a + n ≤ 0x1740000000) : GddrFree up a n := served _ a n (top_of h) (by decide +kernel) (by decide +kernel) ⟨rfl, rfl, rfl⟩

/-- `up` at ACLK 2,000 MHz with CEIL 3,300, FLOOR 1,200, limits of 1,000 W and 900 W, 100 A and 95 °C. -/
def governed : State :=
  { up with regs := [(0xA00028, 0x04B00CE4#64), (0xA00030, 2000#64), (0xA00038, 0x038403E8#64), (0xA00040, 95#64),
                     (0xA00048, 0x00640064#64), (0xA00060, 0xFFFFFFFFFFFFFFFF#64)] }

theorem wit_GovernorResult :
    let q (n : Nat) : Sensors := { window := some n, cur := (100, 100), tj := (94, 94) }
    let s := { governed with power := { boot := .up, head := 10, since := 10 } }
    let a : Alert := { peak := 4095, sust := 900 }
    let h := { governed with power := { boot := .up, shelf := some a } }
    let c := { governed with power := { boot := .up, coolant := some (95, false) } }
    let w (s : State) (n : Nat) := powerNow (sampleAlerts s) (q n)
    let high := { s with regs := (0xA00028, 0x04B004B0#64) :: s.regs.drop 1 }
    let low := s.wr 0xA00030 1200#64
    let ok (n : Nat) : Prop := n % 25 = 0 ∧ 1200 ≤ n ∧ n ≤ 3300
    (bit (pdState s) 63 = true ∧ breach (w low 1001) (q 1001) = some 1 ∧ aclk (w low 1001) = 1200 ∧ breach (w s 1001) (q 1001) = some 1 ∧ 1200 < aclk (w s 1001) ∧
      breach (w high 1000) (q 1000) = none ∧ govCeil (w high 1000) < aclk (w high 1000) ∧ 1200 < aclk (w high 1000) ∧
      breach (w s 1000) (q 1000) = none ∧ aclk (w s 1000) < govCeil (w s 1000) ∧
      10 ≤ (w s 1000).power.head ∧ 10 ≤ (w s 1000).power.since ∧ (w governed 1000).power.head < 10 ∧
      breach (w governed 1000) (q 1000) = none ∧ aclk (w governed 1000) ≤ govCeil (w governed 1000)) ∧
    (ownerOrMgmt .owner = true ∧ barGate up .owner = none ∧ ownerOrMgmt .standby = false ∧ fld (0x04B00CE4#64) 0 12 = 3300 ∧ fld (0x04B00CE4#64) 16 12 = 1200 ∧ 3300 % 25 = 0 ∧ 1200 % 25 = 0 ∧
      fld (0x04CA04B0#64) 0 12 < fld (0x04CA04B0#64) 16 12 ∧ ¬ ok (fld (0x04B00CE3#64) 0 12) ∧ ¬ ok (fld (0x04B00CFD#64) 0 12) ∧
      ¬ ok (fld (0x04970CE4#64) 16 12) ∧ ¬ ok (fld (0x04B10CE4#64) 16 12)) ∧
    (firmwareRuns governed = true ∧ governed.power.shelf = none ∧ governed.power.coolant = none) ∧
    (firmwareRuns h = true ∧ h.power.shelf = some a ∧ a.peakHost = false ∧ a.sustHost = false ∧ a.peak < 4096 ∧ a.sust < 4096) ∧
    (firmwareRuns c = true ∧ c.power.coolant = some (95, false) ∧ 95 < 256) := by
  refine ⟨?_, ?_, ?_, ?_, ?_⟩ <;> decide +kernel

theorem wit_HandoverResult :
    let s := up
    let r := { up with host := { upA := true, released := true } }
    let q (h : Handover) (rel : Bool) := { up with host := { upA := true, ho := h, released := rel } }
    (barGate s .owner = none ∧ barGate s .standby = none ∧ s.host.ho = .none ∧ s.host.released = false ∧ s.host.ho ≠ .take ∧ s.host.ownerLost = false ∧
      fld ((up.wr 0x1010 0x10000#64).rd 0x1010) 16 16 ≠ 0 ∧ ownerUp { up with host := {} } = false) ∧
    (r.host.released = true ∧ barGate r .standby = none ∧ r.host.ho ≠ .take) ∧
    ((q .release false).host.ho = .release ∧ (q .release false).host.reads = [] ∧ (q .take true).host.reads = [] ∧ (q .take true).host.ho = .take ∧ (q .take true).host.released = true) := by
  decide +kernel

theorem wit_HostPortResult :
    let x : Xfer := { reads := [5] }
    let d : Desc := descOf [(0, 4), (12, 2)] (some (.xfer x))
    let q : HostRead := { who := .ring 2, seq := 5, fn := 0, addr := 0, len := 128 }
    let s := { onRing d with host := { (onRing d).host with reads := [q] } }
    (up.host.upA = true ∧ cfgUp up false = true ∧ cfgUp up true = true ∧ bit (pdState up) 60 = true ∧ bit (pdState up) 61 = true ∧ up.host.ownerB = false ∧ up.host.ownerB = !true) ∧
    ((s.host.rings[(2 : RingId)]).descs = [d] ∧ d.run = some (.xfer x) ∧ s.host.reads = [q] ∧ q.who = .ring 2 ∧ x.reads = [q.seq] ∧
      x.fail = none ∧ ringGoes s 2 = true ∧ cfgUp up up.host.ownerB = true) ∧
    (barGate up .owner = none ∧ up.domainOn (47 : CoreId).val = true ∧ 0xFFFE00 + 512 ≤ 0x1000000 ∧ spBankOff up 47 0xFFFE00 512 = none ∧
      spMarks up 47 0xFFFE00 512 = [] ∧ Memory.wf (up.loc 47).sp = true ∧ barGate up .standby = none) := by
  decide +kernel

theorem wit_StandbyPortResult :
    barGate up .standby = none ∧ cfgUp up true = true ∧ up.host.ownerB = !true ∧ { up with host := { ownerB := true } }.host.ownerB = !false ∧
    inSec secBase = true ∧ secBase % 8 = 0 ∧ up.power.rebooting = false ∧ bit (pdState up) 62 = true ∧
    inSec 0 = false ∧ inSec 0x2000 = false ∧ 0x2000 % 8 = 0 ∧ regOn up 0x1000 = true := by decide +kernel

/-! ### Power, security, management, registers -/

/-- `up` with every clock present, and the power state as given. -/
def powered (p : Power) (v clk : W64) : State :=
  { up with power := p, regs := [(0x8000, 1#64), (0xA00060, v), (0xA00098, clk)] }

/-- R398: a try whose 16 samples do not agree is followed by another, and the final sample counts after the 64th. -/
theorem test_straps : strapSample 64 (1#15 :: List.replicate 31 0x4AB#15) = (0x4AB#15, true) ∧
    strapSample 2 (1#15 :: List.replicate 16 2#15 ++ List.replicate 15 3#15) = (3#15, false) ∧
    strapSample 64 [0x7FFF#15] = (0x7FFF#15, true) := by decide +kernel

theorem wit_BootAndResetResult :
    let s (b : Boot) := { up with power := { boot := b }, pins := {} }
    ((s .unpowered).power.boot = .unpowered ∧ (s .input).power.boot = .input ∧ (s .input).power.waking = false ∧
      (s .rom).power.boot = .rom ∧ (s .rom).power.recovery = false) ∧
    ({ s .firmware with pins := { perstA := false } }.power.boot = .firmware ∧ (s .firmware).power.rebooting = false ∧ (s .firmware).power.recovery = false ∧
      (if up.host.ownerB then up.pins.perstB else { s .firmware with pins := { perstA := false } }.pins.perstA) = false) ∧
    List.take 16 (List.replicate 17 0x7FFF#15) = List.replicate 16 0x7FFF#15 ∧
    barGate up .owner = none ∧ barGate up .standby = none ∧ barGate State.reset .owner ≠ none ∧ barGate State.reset .standby ≠ none ∧ Sender.tap ≠ .mgmt ∧ Sender.tap ≠ .owner ∧ Sender.tap ≠ .standby ∧ (s .firmware).power.held = false ∧
    (∀ b ∈ [Boot.rom, .firmware, .up, .tripped], bit (pdState (s b)) 62 = true) ∧ up.power.rebooting = false ∧
    { up with power := { boot := .up, rebooting := true } }.power.rebooting = true := by decide +kernel

theorem wit_PowerDomainResult :
    let s := powered { boot := .up } 0xFFFFFFFFFFFFFFFB#64 0x1FFFF#64
    let t := powered { boot := .up, switching := [2] } 0xFFFFFFFFFFFFFFFB#64 0x1FFFF#64
    (ownerOrMgmt .mgmt = true ∧ barGate up .mgmt = none ∧ ownerOrMgmt .owner = true ∧ barGate s .owner = none ∧ ownerOrMgmt (.vf 15) = false) ∧
    (bit (pdState up) (2 : CoreId).val = true ∧ offRefused up (2 : CoreId).val = false ∧ bit (pdState up) (0 : CoreId).val = true ∧
      offRefused up (0 : CoreId).val = true) ∧
    (bit (pdState s) (2 : CoreId).val = false ∧ pdParent (2 : CoreId).val = some 48 ∧ bit (pdState s) 48 = true ∧
      bit (s.rd (pwrBase + 0x78)) (2 : CoreId).val = false ∧ s.power.switching.contains (2 : CoreId).val = false) ∧
    (t.power.switching.contains (2 : Fin 64).val = true ∧ pdParent (2 : Fin 64).val = some 48 ∧ bit (pdState t) 48 = true ∧
      bit (pdState t) (2 : Fin 64).val = false) ∧
    (bit (pdState up) (62 : Fin 64).val = true ∧ (62 : Fin 64).val ≠ 63) := by decide +kernel

theorem wit_ClockResult :
    let s (clk : W64) := powered { boot := .up } 0xFFFFFFFFFFFFFFFF#64 clk
    let h := powered { boot := .up, held := true } 0xFFFFFFFFFFFFFFFF#64 0#64
    let c (n : W64) (i : Nat) := bit ((s n).rd (pwrBase + 0x98)) i
    (bit (pdState (s 0x1FFFF#64)) 62 = true ∧ (s 0x1FFFF#64).power.held = false ∧ c 0x1FFFF#64 1 = true ∧ h.power.held = true) ∧
    (c 0x1FFFF#64 10 = true ∧ c 0x1FFFF#64 0 = true ∧ c 0#64 10 = false ∧ bit (pdState (s 0#64)) 62 = true ∧ (s 0#64).power.boot ≠ .rom) ∧
    (c 0x1FFFF#64 (2 + (1 : Fin 2).val) = true ∧ c 0#64 (2 + (1 : Fin 2).val) = false ∧ (s 0#64).power.boot = .up) ∧
    (c 0x1FFFF#64 (4 + (5 : Fin 6).val) = true ∧ c 0#64 (4 + (5 : Fin 6).val) = false) ∧
    (bit ((up.wr 0x90C008 1#64).rd (cxlBase (3 : PortId) + 8)) 0 = true ∧ (up.wr 0x90C008 1#64).domainOn (cxlDomain (3 : PortId)) = true) := by
  decide +kernel

/-- A module that runs: its clocks are not held, PON recovery is not entered and every domain is on. -/
def awake (s : State) : Bool := !s.power.held && !s.power.recovery && !s.power.rebooting && (allFin 64).all (fun d => s.domainOn d.val)

/-- What the statements assume of the power state holds in the states that the witnesses are built on. -/
theorem wit_awake : [up, saving, restoring, copying, routed, serving, governed, requested none, routing 6#128 64, asking true 0 (sentPkt 5 2 1 8191 [0#8] []),
    onRing copyDesc, onManagement (jobDesc 0x41 15 0xC .begun), withRx routed (sentPkt 8 3 0 0 [255#8, 1#8] []), filled {} {}, working {} {},
    told (syncPkt 64 2 3) {} {}, q0 up [], passing (passRun .normal oneWord), queued 2 0x1302#128 [], synced 0#128].all awake = true := by decide +kernel

theorem wit_ThermalAndBrumationResult :
    let s (p : Power) := { up with power := p }
    let q := powered { boot := .up } 0xFFFFFFFFFFFFFFFF#64 0x1FFFF#64
    (∀ b ∈ [Boot.up, .firmware, .rom, .input], bit (pdState (s { boot := b })) 62 = true ∧ b ≠ .tripped) ∧ (s { boot := .tripped }).power.boot = .tripped ∧
    (s { boot := .tripped }).power.rebooting = false ∧ (s { boot := .tripped }).power.recovery = false ∧
    { s { boot := .tripped } with pins := { thermtrip := true } }.pins.thermtrip = true ∧ bit (1#64) 0 = true ∧ barGate up .owner = none ∧ barGate q .owner = none ∧ Sender.mgmt ≠ .owner ∧ up.power.brum = .none ∧
    anyOpen up = true ∧ anyOpen { q with regs := [(0xA00060, 0xFFFFFFFFFFFFFFFF#64)] } = false ∧ (∀ c : CoreId, (q.core c).run = .halted) ∧
    ((q.setCore 47 { run := .running }).core 47).run ≠ .halted ∧ barGate (q.setCore 47 { run := .running }) .owner = none ∧
    (s { boot := .up, brum := .entering }).power.brum = .entering ∧ Boot.up ≠ .asleep ∧ (s { boot := .asleep }).power.boot = .asleep ∧
    (s { boot := .up, waking := true }).power.waking = true := by decide +kernel

/-- `up` with one command in the queue of the security block. -/
def secured (code arg : Nat) (k : Security) : State :=
  { up with sec := { k with queue := [{ cmd := code, arg := arg }] } }
/-- An owner key whose signature of REVOKE is cheap to verify. -/
def ownerKey : List Byte :=
  leBytes 64 0x412bd0a4e229ee084a377528fb1aa874acd640576db8d2f87f1a7febe3c98bc0c325a728836074c7d88b635d084fcfe464d2cfdee30ca6752882baa3290932dc
/-- That key is enrolled, and REVOKE with its signature waits. -/
def revoking : State :=
  { secured 4 0 { flash := Memory.write [] 0x1010000 ownerKey, ownerMode := true,
                  ownerHash := leBytes 32 0x87c147531bb586a90e885c47f2cdc4d478ba20487ec8d8a15c6eff8b4aebc71b } with
    regs := [(0xA00060, 0xFFFFFFFFFFFFFFFF#64), (0xC01080, 0xd40a2c63aaaf9955#64), (0xC01088, 0xcaf27f00dcc78c2b#64),
             (0xC01090, 0x82d6eef48e5e9fd3#64), (0xC01098, 0x44249e6cff865143#64), (0xC010A0, 0x97ebfd0ce25b94e2#64),
             (0xC010A8, 0x2d487de4d69fb8e5#64), (0xC010B0, 0xd647a4fc2f74dff1#64), (0xC010B8, 0x6c0c34ceaa821b16#64)] }

theorem wit_SecurityCommandResult :
    let front (s : State) (code : Nat) : Bool := s.sec.queue.map (fun c => (c.cmd, c.mctp)) == [(code, none)] && secReady s
    let buf := List.replicate 4096 0#8
    (∀ code ∈ [1, 2, 3, 4, 5, 6, 7], front (secured code 0 {}) code = true) ∧
    (secured 5 4095 {}).sec.queue.all (fun c => decide (c.arg < 4096)) = true ∧ Memory.wf (secured 5 4095 {}).sec.staging = true ∧
    enrolCheck (secured 3 0 {}) 3 buf = some 6 ∧ enrolCheck { secured 3 0 {} with regs := [] } 3 buf = none ∧
    enrolCheck (secured 4 0 {}) 4 buf = some 2 ∧ enrolCheck (secured 4 0 { enrolUsed := 8 }) 4 buf = some 7 ∧
    front revoking 4 = true ∧ (secured 6 0 {}).power.recovery = false := by
  refine ⟨?_, ?_, ?_, ?_, ?_, ?_, ?_, ?_, ?_⟩ <;> decide +kernel

theorem wit_Revoke : enrolCheck revoking 4 (secBuf revoking 0 512) = none := by decide +kernel

theorem wit_ManagementResult :
    let s (u : Update) := { up with sec := { upd := u } }
    firmwareRuns up = true ∧ bit (pdState up) 62 = true ∧ viaOk up (.smbus 0x60 true) = true ∧ viaOk up (.vdm false) = true ∧
    viaOk up (.smbus 0x60 false) = false ∧ viaOk up (.smbus 0x61 true) = false ∧ viaOk up (.vdm true) = false ∧ (0x21#8).toNat % 4 < 2 ∧ (8#8 : Byte) ≠ 0#8 ∧ (8#8 : Byte) ≠ 0xFF#8 ∧
    (1#8 : Byte) ≠ 0xFF#8 ∧ (1#8 : Byte) ≠ 0#8 ∧ (numericSensor (up.wr 0xA00050 0x64#64) (1#16).toNat).isSome = true ∧
    (stateSensor up (80#16).toNat).isSome = true ∧ 71 < (72#32).toNat ∧ (s .idle).sec.upd = .idle ∧ (s .learn).sec.upd = .learn ∧
    (s .ready).sec.upd = .ready ∧ (s .applied).sec.upd = .applied ∧ Update.ready ≠ .idle ∧ (List.replicate 64 1#8).length ≤ 0x1000000 := by
  decide +kernel

theorem wit_RegisterAndTestAccessResult :
    regOn up 0x18 = true ∧ regOn up 0x20 = true ∧ barGate up .owner = none ∧ 0x1C % 8 ≠ 0 ∧ regOn up (coreBase (47 : CoreId) + 0x3020) = true ∧
    bit (pdState up) 62 = true ∧ (3#8 : Byte) ∉ [0#8, 1#8, 2#8, 4#8, 5#8, 0x10#8] ∧ fld (0x2000018FFFFFFFFFFFFFFFF#96) 64 25 = 0x18 ∧
    bit (0x2000018FFFFFFFFFFFFFFFF#96) 89 = true ∧ bit (0x18FFFFFFFFFFFFFFFF#96) 89 = false ∧ fld (0x18FFFFFFFFFFFFFFFF#96) 64 25 = 0x18 ∧
    up.sec.ownerMode = false ∧ up.power.recovery = false ∧ (regSpec 0xFF8).rw = 0#64 ∧ (regSpec 0xFF8).w1c = 0#64 := by
  refine ⟨?_, ?_, ?_, ?_, ?_, ?_, ?_, ?_, ?_, ?_, ?_, ?_, ?_, ?_, ?_⟩ <;> decide +kernel

end Sys2Proof.Tests
end

section
/-!
PROOF. An event touches no storage (O33): nothing that it does clears a bit of a register, but for the counter of lost
records, so the status bit that `State.record` sets still stands when the step has failed.
-/

namespace Sys2Proof.Machine

/-! ### Bits that an operation leaves set -/

/-- Every bit that is 1 in a register of `s` is 1 in `t`, but for those of RING_LOST of the event ring, which counts (R341,
R350). -/
def KeepsSetBits (s t : State) : Prop :=
  ∀ a i, a ≠ ringBase 1 + 0x28 → bit (s.rd a) i = true → bit (t.rd a) i = true

theorem keepsSetBits_trans {s t u : State} (h : KeepsSetBits s t) (k : KeepsSetBits t u) : KeepsSetBits s u :=
  fun a i ha hb => k a i ha (h a i ha hb)

theorem keepsSetBits_of_regs {s t : State} (h : t.regs = s.regs) : KeepsSetBits s t := by
  intro a i _ hb
  rwa [State.rd, h]

theorem keepsSetBits_refl (s : State) : KeepsSetBits s s := keepsSetBits_of_regs rfl

/-- What an operation that reads other parts of the state does to the registers, it does after them too. -/
theorem keepsSetBits_regs_left {s s' t : State} (h : s'.regs = s.regs) (k : KeepsSetBits s' t) : KeepsSetBits s t :=
  keepsSetBits_trans (keepsSetBits_of_regs h) k

theorem State.orReg_keepsSetBits (s : State) (a : Nat) (v : W64) : KeepsSetBits s (s.orReg a v) := by
  intro b i _ hb
  rw [State.orReg, State.rd_wr]
  split
  · next h =>
    subst h
    simpa [bit] using Or.inl hb
  · exact hb

/-- The bit of a register that is named by its place is set. -/
theorem State.bit_orReg_self (s : State) (a n : Nat) (h : n < 64) :
    bit ((s.orReg a (BitVec.ofNat 64 (2 ^ n))).rd a) n = true := by
  simp only [State.orReg, State.rd_wr_self, bit, BitVec.getLsbD_or, BitVec.getLsbD_ofNat, Nat.testBit_two_pow_self, h,
    decide_true, Bool.and_self, Bool.or_true]

theorem State.countLost_keepsSetBits (s : State) (k : Nat) : KeepsSetBits s (s.count (ringBase 1 + 0x28) 32 k) := by
  intro a i ha hb
  rwa [State.count, State.rd_wr_other s _ _ _ ha]

/-! ### Operations that write no register -/

@[simp] theorem State.now_regs (s : State) : s.now.2.regs = s.regs := rfl

@[simp] theorem State.message_regs (s : State) (fn vec : Nat) : (s.message fn vec).regs = s.regs := rfl

@[simp] theorem State.vector_regs (s : State) (fn vec : Nat) : (s.vector fn vec).regs = s.regs := by
  simp only [State.vector]
  split
  · rfl
  · split <;> rfl

@[simp] theorem State.due_regs (s : State) (r : RingId) : (s.due r).regs = s.regs := by
  simp only [State.due]
  split
  · exact State.vector_regs s _ _
  · rfl

@[simp] theorem State.putRecord_regs (s : State) (r : RingId) (bs : List Byte) (p : Nat) (irq : Bool) :
    (s.putRecord r bs p irq).regs = s.regs := by
  simp only [State.putRecord]
  split
  · exact State.due_regs _ r
  · rfl

@[simp] theorem sendPkt_regs (s : State) (die vc job dst : Nat) (p : Pkt) (q : Option QId) :
    (sendPkt s die vc job dst p q).1.regs = s.regs := by
  unfold sendPkt
  split <;> rfl

/-! ### The recording of an event -/

theorem State.evtLost_keepsSetBits (s : State) : KeepsSetBits s s.evtLost := by
  unfold State.evtLost
  split
  · exact keepsSetBits_refl s
  · have h := keepsSetBits_regs_left (State.now_regs s) (State.orReg_keepsSetBits s.now.2 0x20 1#64)
    dsimp only
    split
    · exact h
    · exact keepsSetBits_trans h (keepsSetBits_of_regs (State.putRecord_regs _ _ _ _ _))

theorem State.evtRecord_keepsSetBits (s : State) (bs : List Byte) : KeepsSetBits s (s.evtRecord bs) := by
  refine keepsSetBits_trans (State.evtLost_keepsSetBits s) ?_
  unfold State.evtRecord
  dsimp only
  split
  · exact keepsSetBits_of_regs (State.putRecord_regs _ _ _ _ _)
  · exact State.countLost_keepsSetBits s.evtLost 1

/-- Once the status bit of an event is set, its recording clears no bit. -/
theorem State.record_keepsStatus (s : State) (code inst sub : Nat) (job dev : Option Nat) (a0 a1 : Nat) :
    KeepsSetBits (s.orReg (evtReg code inst sub).2.1 (BitVec.ofNat 64 (2 ^ (evtReg code inst sub).2.2)))
      (s.record code inst sub job dev a0 a1) := by
  unfold State.record
  dsimp only
  split
  · exact keepsSetBits_refl _
  · exact keepsSetBits_regs_left (State.now_regs _) (State.evtRecord_keepsSetBits _ _)

theorem State.record_keepsSetBits (s : State) (code inst sub : Nat) (job dev : Option Nat) (a0 a1 : Nat) :
    KeepsSetBits s (s.record code inst sub job dev a0 a1) :=
  keepsSetBits_trans (State.orReg_keepsSetBits s _ _) (State.record_keepsStatus s code inst sub job dev a0 a1)

/-- A masked event only sets its status bit (R8). -/
theorem State.record_masked (s : State) (code inst sub : Nat) (job dev : Option Nat) (a0 a1 : Nat)
    (hne : (evtReg code inst sub).1 ≠ (evtReg code inst sub).2.1)
    (hm : bit (s.rd (evtReg code inst sub).1) (evtReg code inst sub).2.2 = true) :
    s.record code inst sub job dev a0 a1 =
      s.orReg (evtReg code inst sub).2.1 (BitVec.ofNat 64 (2 ^ (evtReg code inst sub).2.2)) := by
  unfold State.record
  dsimp only
  rw [if_pos]
  rwa [State.orReg, State.rd_wr_other s _ _ _ hne]

/-! ### The failing of a step -/

theorem unreachable_keepsSetBits (s : State) (job : Option Nat) (dst : Nat) (p : Pkt) :
    KeepsSetBits s (unreachable s job dst p) := State.record_keepsSetBits s _ _ _ _ _ _ _

theorem sendSync_keepsSetBits (s : State) (job dst rsp : Nat) (tf : List Byte) (excl : List Nat) :
    KeepsSetBits s (sendSync s job dst rsp tf excl).1 := by
  unfold sendSync
  dsimp only
  split
  · exact keepsSetBits_of_regs rfl
  · have hregs := sendPkt_regs s 0 (6 + rsp) job dst (mkPkt s 9 3 rsp job dst 0 tf (syncData excl)) none
    split
    · next t h =>
      rw [h] at hregs
      exact keepsSetBits_of_regs hregs
    · next t h =>
      rw [h] at hregs
      exact keepsSetBits_regs_left hregs (unreachable_keepsSetBits t _ _ _)

theorem sendFail_keepsSetBits (s : State) (j : JobId) : KeepsSetBits s (sendFail s j) :=
  sendSync_keepsSetBits s _ _ _ _ _

theorem State.failStep_keepsSetBits (s : State) (job : Option Nat) : KeepsSetBits s (s.failStep job) := by
  unfold State.failStep
  split
  · exact keepsSetBits_refl s
  · dsimp only
    split
    · exact keepsSetBits_refl s
    · split
      · exact keepsSetBits_of_regs (State.setRclJob_regs s _ _)
      · split
        · exact keepsSetBits_refl s
        · exact keepsSetBits_regs_left (State.setRclJob_regs s _ _) (sendFail_keepsSetBits _ _)

/-! ### The registers of an event -/

/-- A mask register, its status register and a bit: the status follows the mask, and it is none of the registers of the
rings. -/
def EvtPlaces (e : Nat × Nat × Nat) : Prop := e.2.1 = e.1 + 8 ∧ (e.2.1 = 0x20 ∨ 0x8818 ≤ e.2.1)

theorem evtPlaces_mk {m st b : Nat} (h : st = m + 8) (k : st = 0x20 ∨ 0x8818 ≤ st) : EvtPlaces (m, st, b) := ⟨h, k⟩

theorem evtReg_places (code inst sub : Nat) : EvtPlaces (evtReg code inst sub) := by
  unfold evtReg coreBase duBase queueBase ctrlBase cxlBase memBase linkBase lnkBase redBase pwrBase secBase
  repeat' refine iteInduction (motive := EvtPlaces) (fun _ => ?_) (fun _ => ?_)
  all_goals exact evtPlaces_mk (by omega) (by omega)

theorem evtReg_status_ne_lost (code inst sub : Nat) : (evtReg code inst sub).2.1 ≠ ringBase 1 + 0x28 := by
  obtain ⟨-, h⟩ := evtReg_places code inst sub
  unfold ringBase
  omega

theorem evtReg_mask_ne_status (code inst sub : Nat) : (evtReg code inst sub).1 ≠ (evtReg code inst sub).2.1 := by
  obtain ⟨h, -⟩ := evtReg_places code inst sub
  omega

/-- The status bit of an event is set when the event has been raised, masked or not (R8). -/
theorem State.raiseDev_status (s : State) (f : Bool) (code inst sub : Nat) (job dev : Option Nat) (a0 a1 : Nat)
    (h : (evtReg code inst sub).2.2 < 64) :
    bit ((s.raiseDev f code inst sub job dev a0 a1).rd (evtReg code inst sub).2.1) (evtReg code inst sub).2.2 = true := by
  have hst := evtReg_status_ne_lost code inst sub
  have hrec : bit ((s.record code inst sub job dev a0 a1).rd (evtReg code inst sub).2.1) (evtReg code inst sub).2.2 = true :=
    State.record_keepsStatus s code inst sub job dev a0 a1 _ _ hst (State.bit_orReg_self s _ _ h)
  cases f with
  | false => exact hrec
  | true => exact State.failStep_keepsSetBits _ job _ _ hst hrec

/-- Settles O33: the frame is `State.raiseDev_quiet`; the status bit stands because no part of the raising clears a bit of a
status register. -/
theorem eventsTouchNoStorage : Obligations.EventsTouchNoStorage := by
  unfold Obligations.EventsTouchNoStorage
  intro s code inst sub job dev a0 a1 f
  refine ⟨State.raiseDev_quiet (quiet_refl s), ?_, ?_⟩
  · exact State.raiseDev_status s f code inst sub job dev a0 a1
  · exact State.record_masked s code inst sub job dev a0 a1 (evtReg_mask_ne_status code inst sub)

end Sys2Proof.Machine
end

section
/-!
PROOF. The state after reset (O3): a register that reset leaves unlisted holds its reset value, and every other part of the
state is the same in all its places.
-/

namespace Sys2Proof.Machine

/-! ### Registers at reset -/

/-- Only RST_STAT differs from its reset value at reset (R13, R397). -/
theorem reset_rd (a : Nat) (h : a ≠ 0xA00090) : State.reset.rd a = (regSpec a).reset := by
  simp [State.rd, State.reset, tget, Ne.symm h]

theorem jobPartition_ne_rstStat (j : JobId) (o : Nat) (h : o < 0x80) : jpBase j + o ≠ 0xA00090 := by
  have := j.isLt
  unfold jpBase
  omega

theorem reset_heldBy (j : JobId) : State.reset.heldBy j = 0#64 := by
  rw [State.heldBy, reset_rd _ (jobPartition_ne_rstStat j _ (by omega))]
  revert j
  decide +kernel

theorem reset_jobOpen (j : JobId) : State.reset.jobOpen j = false := by
  rw [State.jobOpen, reset_rd (jpBase j) (jobPartition_ne_rstStat j 0 (by omega))]
  revert j
  decide +kernel

theorem reset_qOn (q : QId) : qOn State.reset q = false := by
  have hq := q.isLt
  rw [qOn, reset_rd _ (by unfold queueBase; omega)]
  revert q
  decide +kernel

theorem reset_ringEn (r : RingId) : State.reset.ringEn r = false := by
  have hr := r.isLt
  rw [State.ringEn, reset_rd _ (by unfold ringBase; omega)]
  revert r
  decide +kernel

/-- PD62 and PD63 alone are on (R394, R397). -/
theorem reset_pdState (d : Fin 64) : bit (pdState State.reset) d.val = decide (62 ≤ d.val) := by
  rw [pdState, reset_rd _ (by decide)]
  revert d
  decide +kernel

theorem reset_rstStat : fld (State.reset.rd (pwrBase + 0x90)) 0 4 = 1 := by decide +kernel

/-! ### The parts of the state at reset -/

theorem reset_core (c : CoreId) : State.reset.core c = {} := by simp [State.core, State.reset]

theorem reset_unit (c : CoreId) : State.reset.unit c = {} := by simp [State.unit, State.reset]

theorem reset_loc (c : CoreId) : State.reset.loc c = localOff := by simp [State.loc, State.reset]

theorem reset_qOf (c : CoreId) (u : UnitSel) : qOf State.reset c u = [] := by
  rw [qOf, reset_unit]
  cases u <;> rfl

/-- No semaphore is above 0 and no bank has power. -/
theorem localOff_idle (i : Fin 64) : localOff.sems[i] = 0#16 ∧ localOff.bank[i] = .off := by
  simp [localOff]

theorem reset_memOk : MemOk State.reset := by
  refine ⟨rfl, rfl, fun c => ?_, rfl, rfl⟩
  rw [reset_loc]
  rfl

/-- What reset makes of a core: HALTED with status 0xF000, with nothing queued, stored or signalled, and held by no job
(R27, R57, R227). -/
theorem reset_coreIdle (c : CoreId) :
    (State.reset.core c).run = .halted ∧ (State.reset.core c).status = 0xF000#16 ∧ (State.reset.core c).pc = 0 ∧
      (∀ u, qOf State.reset c u = []) ∧ (State.reset.loc c).sp = [] ∧ (State.reset.loc c).guards = 0#4096 ∧
      (∀ i : Fin 64, (State.reset.loc c).sems[i] = 0#16 ∧ (State.reset.loc c).bank[i] = .off) ∧
      ∀ j : JobId, bit (State.reset.heldBy j) c.val = false := by
  rw [reset_core, reset_loc]
  refine ⟨rfl, rfl, rfl, reset_qOf c, rfl, rfl, localOff_idle, fun j => ?_⟩
  rw [reset_heldBy]
  exact BitVec.getLsbD_zero

/-- Settles O3, part by part from the values that reset gives the registers, the cores and the other parts of the state. -/
theorem resetResult : Obligations.ResetResult := by
  unfold Obligations.ResetResult
  refine ⟨reset_memOk, rfl, rfl, rfl, rfl, reset_rstStat, reset_pdState, reset_coreIdle, fun q => ⟨?_, reset_qOn q⟩,
    fun r => ⟨?_, reset_ringEn r⟩, fun l => ?_, fun g => ?_, fun u => ?_, rfl, reset_jobOpen⟩
  all_goals simp [State.reset]

end Sys2Proof.Machine
end

section
/-!
PROOF. Register accesses by width and access type, and the instructions of the test access port (O60). The host block
(offsets below 0x1000) holds plain registers: a write that reaches one goes to `plainWrite`, a read to the stored value.
-/

namespace Sys2Proof.Machine

/-! ### Words and halves -/

/-- The mask of the lower half of a word. -/
def lowHalf : W64 := 0xFFFFFFFF#64
/-- The mask of the upper half of a word. -/
def highHalf : W64 := 0xFFFFFFFF00000000#64

theorem setFld_low (x v : W64) : setFld x 0 32 (fld v 0 32) = (x &&& ~~~lowHalf) ||| (v &&& lowHalf) := by
  have hv : BitVec.ofNat 64 ((fld v 0 32 % 2 ^ 32) <<< 0) = v &&& lowHalf := by
    apply BitVec.eq_of_toNat_eq
    rw [BitVec.toNat_and, show lowHalf.toNat = 2 ^ 32 - 1 from rfl, Nat.and_two_pow_sub_one_eq_mod]
    simp only [fld, BitVec.toNat_ofNat, Nat.shiftRight_zero, Nat.shiftLeft_zero]
    omega
  unfold setFld
  rw [hv]
  rfl

theorem setFld_high (x v : W64) : setFld x 32 32 (fld v 0 32) = (x &&& ~~~highHalf) ||| (v <<< 32 &&& highHalf) := by
  have hv : BitVec.ofNat 64 ((fld v 0 32 % 2 ^ 32) <<< 32) = v <<< 32 &&& highHalf := by
    apply BitVec.eq_of_getLsbD_eq
    intro i hi
    rw [show highHalf = BitVec.allOnes 64 <<< 32 from rfl]
    simp only [fld, BitVec.getLsbD_ofNat, BitVec.getLsbD_and, BitVec.getLsbD_shiftLeft, BitVec.getLsbD_allOnes, hi,
      Nat.testBit_shiftLeft, Nat.testBit_mod_two_pow, Nat.shiftRight_zero, BitVec.testBit_toNat, decide_true, Bool.true_and]
    by_cases h : i < 32
    · have hge : ¬ 32 ≤ i := by omega
      simp only [h, hge, decide_true, decide_false, Bool.false_and, Bool.not_true]
    · have hge : 32 ≤ i := by omega
      have hlow : i - 32 < 32 := by omega
      have hword : i - 32 < 64 := by omega
      simp only [h, hge, hlow, hword, decide_true, decide_false, Bool.true_and, Bool.and_true, Bool.not_false]
  unfold setFld
  rw [hv]
  rfl

/-! ### Plain writes -/

/-- What a plain write of `data` stores in a register that holds `old` (R9, R11). -/
def storedValue (p : RegSpec) (old data : W64) : W64 := ((old &&& ~~~p.rw) ||| (data &&& p.rw)) &&& ~~~(data &&& p.w1c)

theorem plainWrite_eq (s : State) (a : Nat) (v : W64) : plainWrite s a v = s.wr a (storedValue (regSpec a) (s.rd a) v) := rfl

/-- A register with no writable and no clearable bit keeps its value. -/
theorem storedValue_readOnly {p : RegSpec} (h : p.rw = 0#64) (k : p.w1c = 0#64) (old data : W64) :
    storedValue p old data = old := by
  apply BitVec.eq_of_getLsbD_eq
  intro i hi
  simp only [storedValue, h, k, BitVec.getLsbD_and, BitVec.getLsbD_or, BitVec.getLsbD_not, BitVec.getLsbD_zero, hi, decide_true,
    Bool.and_false, Bool.or_false, Bool.not_false, Bool.and_true]

/-- One bit of a write to one half of a register: `half` tells whether the bit lies in the half that is written. -/
theorem storedBit_half (rw w1c old data half : Bool) (h : (rw && w1c) = false) :
    (((old && !rw) || (((old && rw && !half) || (data && half)) && rw)) && !(((old && rw && !half) || (data && half)) && w1c)) =
      ((old && !half) || ((((old && !rw) || (data && rw)) && !(data && w1c)) && half)) := by
  revert rw w1c old data half
  decide

/-- A write to one half of a register, whose other half brings the writable bits as they are, leaves that other half and
stores the data in its own (R12). -/
theorem storedValue_half (p : RegSpec) (hp : p.rw &&& p.w1c = 0#64) (old data half : W64) :
    storedValue p old ((old &&& p.rw &&& ~~~half) ||| (data &&& half)) =
      (old &&& ~~~half) ||| (storedValue p old data &&& half) := by
  apply BitVec.eq_of_getLsbD_eq
  intro i hi
  have hbit : (p.rw.getLsbD i && p.w1c.getLsbD i) = false := by
    rw [← BitVec.getLsbD_and, hp, BitVec.getLsbD_zero]
  simp only [storedValue, BitVec.getLsbD_and, BitVec.getLsbD_or, BitVec.getLsbD_not, hi, decide_true, Bool.true_and]
  exact storedBit_half _ _ _ _ _ hbit

/-! ### Writes to the host block -/

theorem coreAt_none {a : Nat} (h : a < 0x1000000) : coreAt a = none := by
  unfold coreAt
  rw [if_neg (by omega)]

theorem oldHalf_hostBlock (s : State) {a : Nat} (h : a < 0x1000) : oldHalf s a = s.rd a &&& (regSpec a).rw := by
  unfold oldHalf
  rw [coreAt_none (by omega)]
  dsimp only
  rw [if_neg (by decide), if_neg (by omega)]

theorem widen_low (s : State) {a : Nat} (h : a < 0x1000) (v : W64) :
    widen s a .low v = (s.rd a &&& (regSpec a).rw &&& ~~~lowHalf) ||| (v &&& lowHalf) := by
  rw [← oldHalf_hostBlock s h]
  exact setFld_low _ v

theorem widen_high (s : State) {a : Nat} (h : a < 0x1000) (v : W64) :
    widen s a .high v = (s.rd a &&& (regSpec a).rw &&& ~~~highHalf) ||| (v <<< 32 &&& highHalf) := by
  rw [← oldHalf_hostBlock s h]
  exact setFld_high _ v

theorem globalWrite_hostBlock (s : State) (b : Sender) {a : Nat} (v : W64) (w : Width) (x : RegExt) (h : a < 0x1000) :
    globalWrite s b a v w x = plainWrite s a v := by
  unfold globalWrite memBase lnkBase
  repeat rw [if_neg (by omega)]

theorem regStore_hostBlock (s : State) (b : Sender) {a : Nat} (w : Width) (v : W64) (x : RegExt) (h : a < 0x1000)
    (hon : regOn s a = true) : regStore s b a w v x = plainWrite s a (widen s a w v) := by
  unfold regStore regWrite
  rw [if_pos hon, if_pos (by omega), globalWrite_hostBlock s b _ w x h]

theorem tlpDropped_good (s : State) (b : Sender) : tlpDropped s b .good = false := by
  cases b <;> simp [tlpDropped]

/-- A write that its port does not drop goes to the register space. -/
theorem exec_registerWrite (b : Sender) (bar2 : Bool) (o : Nat) (w : Width) (v : W64) (x : RegExt) (s : State) :
    exec (.registerWrite b bar2 o w v x) s = .next (anyWrite s b bar2 o w v x) := by
  change Host.Outcome.next (if tlpDropped s b .good = true then _ else _) = _
  rw [tlpDropped_good]
  rfl

theorem anyWrite_bad (s : State) (b : Sender) (bar2 : Bool) {o : Nat} {w : Width} (v : W64) (x : RegExt)
    (h : goodAccess o w = false) : anyWrite s b bar2 o w v x = s := by
  unfold anyWrite
  rw [h]
  rfl

theorem goodAccess_aligned {o : Nat} {w : Width} (ho : o % 8 = 0) (hw : w ≠ .other) : goodAccess o w = true := by
  simp [goodAccess, ho, hw]

theorem goodAccess_unaligned {o : Nat} (w : Width) (ho : o % 8 ≠ 0) : goodAccess o w = false := by
  simp [goodAccess, ho]

theorem goodAccess_other (o : Nat) : goodAccess o .other = false := rfl

theorem inSec_hostBlock {o : Nat} (h : o < 0x1000) : inSec o = false := by
  unfold inSec secBase
  simp only [decide_eq_false_iff_not]
  omega

/-- The management firmware and, where its port answers, the owner's PF reach the host block (R333). -/
theorem anyWrite_hostBlock (s : State) (q : Sender) {o : Nat} {w : Width} (v : W64) (x : RegExt)
    (hq : q = .mgmt ∨ (q = .owner ∧ barGate s .owner = none)) (ho : o < 0x1000) (hg : goodAccess o w = true) :
    anyWrite s q false o w v x = regStore s q o w v x := by
  unfold anyWrite
  rw [hg]
  obtain rfl | ⟨rfl, hgate⟩ := hq
  · rfl
  · simp [portWrite, portGate, inSec_hostBlock ho, hgate]

/-- What a write of an accepted width stores in a register of the host block (R9, R11, R12). -/
theorem exec_write_hostBlock (q : Sender) {o : Nat} {w : Width} (v : W64) (x : RegExt) (s : State)
    (hq : q = .mgmt ∨ (q = .owner ∧ barGate s .owner = none)) (ho : o < 0x1000) (hg : goodAccess o w = true)
    (hon : regOn s o = true) :
    exec (.registerWrite q false o w v x) s = .next (s.wr o (storedValue (regSpec o) (s.rd o) (widen s o w v))) := by
  rw [exec_registerWrite, anyWrite_hostBlock s q v x hq ho hg, regStore_hostBlock s q w v x ho hon, plainWrite_eq]

/-- A write by the management firmware of a register of the host block with no writable bit changes no register. -/
theorem exec_write_readOnly {o : Nat} (w : Width) (v : W64) (x : RegExt) (s : State) (ho : o < 0x1000) (ha : o % 8 = 0)
    (hrw : (regSpec o).rw = 0#64) (hw1c : (regSpec o).w1c = 0#64) :
    ∃ t, exec (.registerWrite .mgmt false o w v x) s = .next t ∧ (∀ a, t.rd a = s.rd a) ∧ t = { s with regs := t.regs } := by
  by_cases hw : w = .other
  · subst hw
    exact ⟨s, by rw [exec_registerWrite, anyWrite_bad s _ _ v x (goodAccess_other o)], fun _ => rfl, rfl⟩
  have hg := goodAccess_aligned ha hw
  cases hon : regOn s o with
  | false =>
    refine ⟨s, ?_, fun _ => rfl, rfl⟩
    rw [exec_registerWrite, anyWrite_hostBlock s _ v x (.inl rfl) ho hg, regStore, hon]
    rfl
  | true =>
    refine ⟨s.wr o (s.rd o), ?_, fun a => ?_, rfl⟩
    · rw [exec_write_hostBlock .mgmt v x s (.inl rfl) ho hg hon, storedValue_readOnly hrw hw1c]
    · rw [State.rd_wr]
      split
      · next h => rw [h]
      · rfl

/-! ### The event registers of the host block -/

section
variable {o : Nat} (ho : o = 0x18 ∨ o = 0x20)
include ho

theorem hostEvt_small : o < 0x1000 := by omega

theorem hostEvt_aligned : o % 8 = 0 := by omega

/-- No bit of an event register is both stored and cleared by a write. -/
theorem hostEvt_disjoint : (regSpec o).rw &&& (regSpec o).w1c = 0#64 := by
  obtain rfl | rfl := ho <;> decide

theorem hostEvt_rc : (regSpec o).rc = 0#64 := by
  obtain rfl | rfl := ho <;> decide

theorem exec_write_hostEvt_half (q : Sender) (v : W64) (x : RegExt) (s : State)
    (hq : q = .mgmt ∨ (q = .owner ∧ barGate s .owner = none)) (hon : regOn s o = true) :
    exec (.registerWrite q false o .low v x) s =
        .next (s.wr o ((s.rd o &&& ~~~lowHalf) ||| (storedValue (regSpec o) (s.rd o) v &&& lowHalf))) ∧
      exec (.registerWrite q false o .high v x) s =
        .next (s.wr o ((s.rd o &&& ~~~highHalf) ||| (storedValue (regSpec o) (s.rd o) (v <<< 32) &&& highHalf))) := by
  have hs := hostEvt_small ho
  have hd := hostEvt_disjoint ho
  have hg : ∀ w : Width, w ≠ .other → goodAccess o w = true := fun _ => goodAccess_aligned (hostEvt_aligned ho)
  constructor
  · rw [exec_write_hostBlock q v x s hq hs (hg .low (by decide)) hon, widen_low s hs, storedValue_half _ hd]
  · rw [exec_write_hostBlock q v x s hq hs (hg .high (by decide)) hon, widen_high s hs, storedValue_half _ hd]

theorem exec_write_hostEvt_whole (q : Sender) (v : W64) (x : RegExt) (s : State)
    (hq : q = .mgmt ∨ (q = .owner ∧ barGate s .owner = none)) (hon : regOn s o = true) :
    exec (.registerWrite q false o .whole v x) s = .next (s.wr o (storedValue (regSpec o) (s.rd o) v)) :=
  exec_write_hostBlock q v x s hq (hostEvt_small ho) (goodAccess_aligned (hostEvt_aligned ho) (by decide)) hon

end

/-! ### Reads -/

theorem cfgDataAt_none {a : Nat} (h : a < 0x900000 ∨ 0x910000 ≤ a) : cfgDataAt a = none := by
  unfold cfgDataAt
  rw [if_neg (by omega)]

theorem viewOf_hostBlock (s : State) {a : Nat} (h : a < 0x1000) (h0 : a ≠ 0) : viewOf s a = none := by
  unfold viewOf globalView lnkBase
  rw [if_pos (by omega)]
  repeat rw [if_neg (by omega)]

theorem regValue_hostBlock (s : State) {a : Nat} (x : RegExt) (h : a < 0x1000) (h0 : a ≠ 0) : regValue s a x = (s, s.rd a) := by
  unfold regValue lnkBase
  rw [if_neg (by omega), cfgDataAt_none (by omega), coreAt_none (by omega), viewOf_hostBlock s h h0]
  rfl

/-- A 64-bit read of a register that shows its stored value clears the bits that a read clears (R9, R12). -/
theorem regRead_whole (s : State) {a : Nat} (x : RegExt) (hon : regOn s a = true) (hv : regValue s a x = (s, s.rd a)) :
    regRead s a .whole x = (if (regSpec a).rc = 0#64 then s else s.wr a (s.rd a &&& ~~~(regSpec a).rc), s.rd a) := by
  unfold regRead
  rw [hon, hv]
  rfl

/-- A 32-bit read clears nothing. -/
theorem regRead_low_state (s : State) {a : Nat} (x : RegExt) (hv : regValue s a x = (s, s.rd a)) :
    (regRead s a .low x).1 = s := by
  unfold regRead
  rw [hv]
  split <;> rfl

/-- A read of a width that BAR0 does not accept is answered Unsupported Request (R12, R336). -/
theorem exec_read_other (bar2 : Bool) (o : Nat) (x : RegExt) (s : State) :
    exec (.rcRegisterRead .owner bar2 o .other x) s = .next (answer s .ur) := rfl

theorem exec_read_hostEvt {o : Nat} (ho : o = 0x18 ∨ o = 0x20) (x : RegExt) (s : State) (hon : regOn s o = true)
    (hgate : barGate s .owner = none) :
    exec (.rcRegisterRead .owner false o .whole x) s = .next (answer s (.reg (s.rd o))) := by
  have hs := hostEvt_small ho
  have hread := regRead_whole s x hon (regValue_hostBlock s x hs (by omega))
  rw [hostEvt_rc ho, if_pos rfl] at hread
  change Host.Outcome.next (anyRead s .owner false o .whole x) = _
  simp [anyRead, goodAccess_aligned (hostEvt_aligned ho) (by decide : Width.whole ≠ .other), portRead, portGate,
    inSec_hostBlock hs, hgate, hread]

/-! ### ACC_INEXACT_CNT of a core (R120) -/

theorem fin?_val {n : Nat} (i : Fin n) : fin? n i.val = some i := by
  unfold fin?
  rw [dif_pos i.isLt]

section
variable {c : CoreId} {o : Nat} (ho : o = coreBase c + 0x3020)
include ho

theorem accInexact_range : 0x1000000 ≤ o ∧ o < 0x1300000 := by
  have hc := c.isLt
  unfold coreBase at ho
  omega

theorem accInexact_aligned : o % 8 = 0 := by
  unfold coreBase at ho
  omega

theorem accInexact_place : (o - 0x1000000) / 0x10000 = c.val ∧ (o - 0x1000000) % 0x10000 = 0x3020 := by
  have hc := c.isLt
  unfold coreBase at ho
  omega

theorem coreAt_accInexact : coreAt o = some (c, 0x3020) := by
  obtain ⟨hlo, -⟩ := accInexact_range ho
  obtain ⟨hcore, hoff⟩ := accInexact_place ho
  unfold coreAt
  rw [if_pos hlo, hcore, hoff, fin?_val]
  rfl

theorem viewOf_accInexact (s : State) : viewOf s o = none := by
  obtain ⟨hlo, hhi⟩ := accInexact_range ho
  obtain ⟨hcore, hoff⟩ := accInexact_place ho
  unfold viewOf pwrBase telBase secBase
  rw [hcore, hoff, fin?_val]
  repeat rw [if_neg (by omega)]
  rw [if_pos ⟨hlo, hhi⟩]
  rfl

theorem regValue_accInexact (s : State) (x : RegExt) : regValue s o x = (s, s.rd o) := by
  obtain ⟨hlo, -⟩ := accInexact_range ho
  unfold regValue lnkBase
  rw [coreAt_accInexact ho, viewOf_accInexact ho, cfgDataAt_none (by omega), if_neg (by omega)]
  rfl

theorem accInexact_readClears : (regSpec o).rc ≠ 0#64 := by
  subst ho
  revert c
  decide +kernel

theorem exec_read_accInexact (x : RegExt) (s : State) (hon : regOn s o = true) :
    exec (.rcRegisterRead .mgmt false o .whole x) s = .next (s.wr o (s.rd o &&& ~~~(regSpec o).rc)) ∧
      exec (.rcRegisterRead .mgmt false o .low x) s = .next s := by
  have ha := accInexact_aligned ho
  have hv := regValue_accInexact ho s x
  constructor
  · change Host.Outcome.next (anyRead s .mgmt false o .whole x) = _
    simp [anyRead, goodAccess_aligned ha (by decide : Width.whole ≠ .other), regRead_whole s x hon hv, accInexact_readClears ho]
  · change Host.Outcome.next (anyRead s .mgmt false o .low x) = _
    simp [anyRead, goodAccess_aligned ha (by decide : Width.low ≠ .other), regRead_low_state s x hv]

end

/-! ### The test access port (R449) -/

section
variable {s : State} (hon : bit (pdState s) 62 = true)
include hon

theorem tapLoad_on (ir : Byte) (cap : BitVec 64) (driven hz : Bool) :
    tapLoad s ir cap driven hz = { s with tap := { s.tap with ir := ir, capture := cap, driven := driven, highz := hz } } := by
  simp [tapLoad, hon]

theorem tapShift_on (v : BitVec 64) : tapShift s v = { s with tap := { s.tap with cells := v } } := by
  simp [tapShift, hon]

/-- With HIGHZ loaded no output is driven. -/
theorem padDrive_highz (i : Nat) (h : s.tap.highz = true) : padDrive s i = .z := by
  simp [padDrive, hon, h]

/-- Where the cells drive the outputs, a pin of QFC_OUT takes the level of its cell. -/
theorem padDrive_cells (i : Nat) (hi : i < 8) (hz : s.tap.highz = false) (hd : s.tap.driven = true) :
    padDrive s i = pushPull (s.tap.cells.getLsbD i) := by
  simp [padDrive, cellDrive, hon, hz, hd, hi]

/-- Where they do not, it takes the level of the core logic. -/
theorem padDrive_core (i : Nat) (hi : i < 8) (hz : s.tap.highz = false) (hd : s.tap.driven = false) :
    padDrive s i = pushPull ((qfcOut s).testBit i) := by
  simp [padDrive, coreDrive, hon, hz, hd, hi]

theorem exec_extest (v outer : BitVec 64) :
    exec (.extest v outer) s = .next { s with tap := { s.tap with
      ir := 0#8, capture := pinLevels { s with tap := { s.tap with ir := 0#8, driven := true, highz := false } } outer,
      driven := true, highz := false, cells := v } } := by
  change Host.Outcome.next (tapShift (tapLoad s 0#8 (pinLevels (tapLoad s 0#8 s.tap.capture true false) outer) true false) v) = _
  rw [tapLoad_on hon, tapLoad_on hon, tapShift_on (by exact hon)]

theorem exec_samplePreload (v outer : BitVec 64) :
    exec (.samplePreload v outer) s = .next { s with tap := { s.tap with
      ir := 2#8, capture := pinLevels s outer, driven := false, highz := false, cells := v } } := by
  change Host.Outcome.next (tapShift (tapLoad s 2#8 (pinLevels s outer) false false) v) = _
  rw [tapLoad_on hon, tapShift_on (by exact hon)]

theorem exec_bypass (ir : Byte) (h : ir ∉ [0#8, 1#8, 2#8, 4#8, 5#8, 0x10#8]) :
    exec (.bypass ir) s = .next { s with tap := { s.tap with ir := ir, capture := 0#64, driven := false, highz := false } } := by
  change Host.Outcome.next (if [0#8, 1#8, 2#8, 4#8, 5#8, 0x10#8].contains ir = true then s else _) = _
  rw [if_neg (by rwa [List.contains_iff_mem]), tapLoad_on hon]

end

/-! ### DBG -/

theorem bit_setBit_self {n : Nat} (w : BitVec n) (i : Nat) (h : i < n) : bit (setBit w i) i = true := by
  simp only [bit, setBit, BitVec.getLsbD_or, BitVec.getLsbD_ofNat, Nat.testBit_two_pow_self, h, decide_true, Bool.and_self,
    Bool.or_true]

/-- DONE stands above DATA, and DATA is what was put there. -/
theorem dbg_data (w : BitVec 96) (v : W64) : fld (setBit (setFld w 0 64 v.toNat) 95) 0 64 = v.toNat := by
  have hlow : (setBit (setFld w 0 64 v.toNat) 95).setWidth 64 = v := by
    apply BitVec.eq_of_getLsbD_eq
    intro i hi
    have hdone : ¬ 95 = i := by omega
    have hdbg : i < 96 := by omega
    simp only [setBit, setFld, BitVec.getLsbD_setWidth, BitVec.getLsbD_or, BitVec.getLsbD_and, BitVec.getLsbD_not,
      BitVec.getLsbD_ofNat, Nat.shiftLeft_zero, Nat.testBit_two_pow, Nat.testBit_two_pow_sub_one, Nat.testBit_mod_two_pow,
      BitVec.testBit_toNat, hi, hdone, hdbg, decide_true, decide_false, Bool.true_and, Bool.not_true, Bool.and_false,
      Bool.false_or, Bool.or_false]
  rw [fld, Nat.shiftRight_zero, ← BitVec.toNat_setWidth, hlow]

/-- The state with DBG loaded. -/
def dbgLoaded (s : State) : State :=
  { s with tap := { s.tap with ir := 0x10#8, driven := false, highz := false } }

/-- While no owner is enrolled and the module is not in recovery, the TAP reaches the host block (R449). -/
theorem tapOk_hostBlock {s : State} {o : Nat} (ho : o < 0x1000) (howner : s.sec.ownerMode = false)
    (hrec : s.power.recovery = false) : tapOk s o = true := by
  simp [tapOk, inSec_hostBlock ho, howner, hrec]

section
variable {s : State} (hon : bit (pdState s) 62 = true) {w : BitVec 96} (ho : fld w 64 25 = 0x18)
  (howner : s.sec.ownerMode = false) (hrec : s.power.recovery = false) (hreg : regOn s 0x18 = true)
include hon ho howner hrec hreg

theorem exec_dbg_write (hw : bit w 89 = true) (x : RegExt) :
    exec (.dbg w x) s = .next { (dbgLoaded s).wr 0x18 (storedValue (regSpec 0x18) (s.rd 0x18) (BitVec.ofNat 64 (fld w 0 64))) with
      tap := { (dbgLoaded s).tap with dbg := setBit w 95 } } := by
  have hok : tapOk (dbgLoaded s) 0x18 = true := tapOk_hostBlock (by decide) howner hrec
  have hwrite : anyWrite (dbgLoaded s) .tap false 0x18 .whole (BitVec.ofNat 64 (fld w 0 64)) x =
      (dbgLoaded s).wr 0x18 (storedValue (regSpec 0x18) (s.rd 0x18) (BitVec.ofNat 64 (fld w 0 64))) := by
    have hgood : goodAccess 0x18 .whole = true := rfl
    simp only [anyWrite, hgood, hok, Bool.not_true, Bool.not_false, Bool.and_self, if_true, if_false, Bool.false_eq_true]
    exact regStore_hostBlock (dbgLoaded s) .owner .whole _ x (by decide) hreg
  have hload : tapLoad s 0x10#8 s.tap.capture false false = dbgLoaded s := tapLoad_on hon _ _ _ _
  have hpd : bit (pdState (dbgLoaded s)) 62 = true := hon
  change Host.Outcome.next (dbgRun s w x) = _
  simp only [dbgRun, hload, hpd, ho, hw, hwrite, Bool.not_true, Bool.false_eq_true, if_true, if_false, State.wr_tap]

theorem exec_dbg_read (hw : bit w 89 = false) (x : RegExt) :
    exec (.dbg w x) s = .next { dbgLoaded s with
      tap := { (dbgLoaded s).tap with dbg := setBit (setFld w 0 64 (s.rd 0x18).toNat) 95 } } := by
  have hok : tapOk (dbgLoaded s) 0x18 = true := tapOk_hostBlock (by decide) howner hrec
  have hgood : goodAccess 0x18 .whole = true := rfl
  have hread : regRead (dbgLoaded s) 0x18 .whole x = (dbgLoaded s, s.rd 0x18) := by
    rw [regRead_whole (dbgLoaded s) x hreg (regValue_hostBlock _ x (by decide) (by decide)), if_pos (hostEvt_rc (.inl rfl))]
    rfl
  have hload : tapLoad s 0x10#8 s.tap.capture false false = dbgLoaded s := tapLoad_on hon _ _ _ _
  have hpd : bit (pdState (dbgLoaded s)) 62 = true := hon
  change Host.Outcome.next (dbgRun s w x) = _
  simp only [dbgRun, hload, hpd, ho, hw, hok, hgood, hread, Bool.not_true, Bool.false_eq_true, Bool.and_self, if_true, if_false]

end

/-- Settles O60: the widths and access types from what a write and a read of the host block do, the TAP from what loading an
instruction makes of it. -/
theorem registerAndTestAccessResult : Obligations.RegisterAndTestAccessResult := by
  unfold Obligations.RegisterAndTestAccessResult
  refine ⟨fun b o v x s => ?_, fun v x s hon => ?_⟩
  · refine ⟨fun ho hon q hq => exec_write_hostEvt_half ho q v x s hq hon, fun ho ha hrw hw1c w =>
      exec_write_readOnly w v x s ho ha hrw hw1c, ⟨by decide, by decide⟩, fun ho hon => ⟨?_, fun hgate => ?_⟩,
      fun ho bar2 w => ?_, fun bar2 => ⟨?_, ?_⟩, fun ho hon hgate => exec_read_hostEvt ho x s hon hgate,
      fun c ho hon => exec_read_accInexact ho x s hon⟩
    · exact exec_write_hostEvt_whole ho .mgmt v x s (.inl rfl) hon
    · exact exec_write_hostEvt_whole ho .owner v x s (.inr ⟨rfl, hgate⟩) hon
    · rw [exec_registerWrite, anyWrite_bad s b bar2 v x (goodAccess_unaligned w ho)]
    · rw [exec_registerWrite, anyWrite_bad s b bar2 v x (goodAccess_other o)]
    · exact exec_read_other bar2 o x s
  · refine ⟨?_, ?_, fun outer => ⟨exec_extest hon v outer, exec_samplePreload hon v outer⟩,
      fun outer i hi => ⟨?_, ?_, ?_⟩, fun i => ?_, ?_, ?_, exec_bypass hon, fun w ho howner hrec hreg => ⟨fun hw => ?_, fun hw => ?_⟩⟩
    · exact congrArg _ (tapLoad_on hon _ _ _ _)
    · exact congrArg _ (tapLoad_on hon _ _ _ _)
    · exact padDrive_cells (by exact hon) i hi rfl rfl
    · exact padDrive_cells (by exact hon) i hi rfl rfl
    · exact padDrive_core (by exact hon) i hi rfl rfl
    · exact padDrive_highz (by exact hon) i rfl
    · exact congrArg _ (tapLoad_on hon _ _ _ _)
    · exact congrArg _ (tapLoad_on hon _ _ _ _)
    · refine ⟨_, exec_dbg_write hon ho howner hrec hreg hw x, bit_setBit_self w 95 (by decide), rfl, ?_⟩
      exact State.rd_wr_self (dbgLoaded s) _ _
    · exact ⟨_, exec_dbg_read hon ho howner hrec hreg hw x, bit_setBit_self _ 95 (by decide), dbg_data w (s.rd 0x18), rfl⟩

end Sys2Proof.Machine
end

section
/-!
SUPPORT. The scalar registers and predicates of a core (R28), the class of an operation (R32), and what the issue of an
instruction makes of the core (R34, R46): the rules that the statements about the core instructions go through.
-/

namespace Sys2Proof.Machine

/-! ### Updates of the state -/

theorem State.setCore_setCore (s : State) (c : CoreId) (k k' : Core) : (s.setCore c k).setCore c k' = s.setCore c k' := by
  simp [State.setCore]

theorem State.setUnit_setUnit (s : State) (c : CoreId) (k k' : Units) : (s.setUnit c k).setUnit c k' = s.setUnit c k' := by
  simp [State.setUnit]

theorem State.setCore_core (s : State) (c : CoreId) : s.setCore c (s.core c) = s := by
  simp [State.setCore, State.core]

theorem State.setUnit_unit (s : State) (c : CoreId) : s.setUnit c (s.unit c) = s := by
  simp [State.setUnit, State.unit]

theorem State.unit_setUnit_other (s : State) (c d : CoreId) (k : Units) (h : d ≠ c) : (s.setUnit c k).unit d = s.unit d :=
  State.setUnit_units_other s c d k h

theorem State.loc_setLoc_other (s : State) (c d : CoreId) (k : Local) (h : d ≠ c) : (s.setLoc c k).loc d = s.loc d :=
  State.setLoc_locals_other s c d k h

/-! ### Scalar registers and predicates (R28) -/

theorem Core.sget_lt (k : Core) {i : Nat} (h : i < 32) (h0 : i ≠ 0) : k.sget i = k.sreg[i] := by
  simp [Core.sget, fin?, h, h0]

theorem Core.sset_lt (k : Core) {i : Nat} (v : W64) (h : i < 32) (h0 : i ≠ 0) :
    k.sset i v = { k with sreg := k.sreg.set i v } := by
  simp [Core.sset, fin?, h, h0]

@[simp] theorem Core.sget_zero (k : Core) : k.sget 0 = 0#64 := by simp [Core.sget, fin?]

@[simp] theorem Core.sset_zero (k : Core) (v : W64) : k.sset 0 v = k := by simp [Core.sset, fin?]

/-- A register number beyond the last names no register. -/
theorem Core.sget_beyond (k : Core) {i : Nat} (h : 32 ≤ i) : k.sget i = 0#64 := by
  simp [Core.sget, fin?, Nat.not_lt.mpr h]

theorem Core.sset_beyond (k : Core) {i : Nat} (v : W64) (h : 32 ≤ i) : k.sset i v = k := by
  simp [Core.sset, fin?, Nat.not_lt.mpr h]

theorem Core.sget_sset_self (k : Core) {i : Nat} (v : W64) (h0 : 0 < i) (h : i < 32) : (k.sset i v).sget i = v := by
  rw [Core.sset_lt k v h (by omega), Core.sget_lt _ h (by omega)]
  simp

theorem Core.sget_sset_other (k : Core) {i j : Nat} (v : W64) (h : i ≠ j) : (k.sset i v).sget j = k.sget j := by
  rcases Nat.eq_zero_or_pos i with rfl | hi
  · rw [Core.sset_zero]
  · rcases Nat.lt_or_ge i 32 with hi32 | hi32
    · rcases Nat.eq_zero_or_pos j with rfl | hj
      · simp
      · rcases Nat.lt_or_ge j 32 with hj32 | hj32
        · rw [Core.sset_lt k v hi32 (by omega), Core.sget_lt _ hj32 (by omega), Core.sget_lt _ hj32 (by omega)]
          simp [Vector.getElem_set_ne, h]
        · rw [Core.sget_beyond _ hj32, Core.sget_beyond _ hj32]
    · rw [Core.sset_beyond k v hi32]

@[simp] theorem Core.pget_zero (k : Core) : k.pget 0 = true := rfl

@[simp] theorem Core.pset_zero (k : Core) (b : Bool) : k.pset 0 b = k := rfl

theorem ofNat_two_pow (n i : Nat) : BitVec.ofNat n (2 ^ i) = BitVec.twoPow n i := by
  apply BitVec.eq_of_toNat_eq
  rw [BitVec.toNat_ofNat, BitVec.toNat_twoPow]

theorem putBit_true {n : Nat} (w : BitVec n) (i : Nat) : putBit w i true = w ||| BitVec.twoPow n i := by
  rw [putBit, if_pos rfl, setBit, ofNat_two_pow]

theorem putBit_false {n : Nat} (w : BitVec n) (i : Nat) : putBit w i false = w &&& ~~~BitVec.twoPow n i := by
  rw [putBit, if_neg (by decide), clrBit, ofNat_two_pow]

/-- Writing one bit of a word leaves every other alone. -/
theorem getLsbD_putBit {n : Nat} (w : BitVec n) (i j : Nat) (b : Bool) (h : i < n) :
    (putBit w i b).getLsbD j = if j = i then b else w.getLsbD j := by
  rcases Nat.lt_or_ge j n with hj | hj
  · by_cases hij : j = i
    · subst hij
      cases b <;> simp [putBit_true, putBit_false, hj]
    · cases b <;> simp [putBit_true, putBit_false, hj, hij]
  · have hne : j ≠ i := by omega
    rw [BitVec.getLsbD_of_ge _ _ hj, BitVec.getLsbD_of_ge w _ hj, if_neg hne]

/-- A bit beyond a word is not written. -/
theorem putBit_beyond {n : Nat} (w : BitVec n) {i : Nat} (b : Bool) (h : n ≤ i) : putBit w i b = w := by
  have hz : BitVec.twoPow n i = 0#n := by
    apply BitVec.eq_of_toNat_eq
    rw [BitVec.toNat_twoPow, Nat.mod_eq_zero_of_dvd (Nat.pow_dvd_pow 2 h)]
    simp
  cases b
  · rw [putBit_false, hz, BitVec.not_zero, BitVec.and_allOnes]
  · rw [putBit_true, hz, BitVec.or_zero]

theorem Core.pget_pset_self (k : Core) {i : Nat} (b : Bool) (h0 : 0 < i) (h : i < 8) : (k.pset i b).pget i = b := by
  have hi : i ≠ 0 := by omega
  simp [Core.pset, Core.pget, hi, getLsbD_putBit _ _ _ _ h]

theorem Core.pget_pset_other (k : Core) {i j : Nat} (b : Bool) (h : i ≠ j) : (k.pset i b).pget j = k.pget j := by
  by_cases hi : i = 0
  · rw [hi, Core.pset_zero]
  · rcases Nat.lt_or_ge i 8 with h8 | h8
    · simp [Core.pset, Core.pget, hi, getLsbD_putBit _ _ _ _ h8, Ne.symm h]
    · rw [Core.pset, if_neg hi, putBit_beyond _ _ h8]

/-- Settles O7, from the rules of the registers: S0 and P0 take no write, and P0 without inversion is true. -/
theorem hardwiredScalarAndPredicate : Obligations.HardwiredScalarAndPredicate := by
  unfold Obligations.HardwiredScalarAndPredicate
  intro k i j v b
  refine ⟨k.sget_zero, k.sset_zero v, k.pget_zero, k.pset_zero b, k.sget_sset_self v, k.sget_sset_other v,
    k.pget_pset_self b, k.pget_pset_other b, ?_⟩
  intro s c w hp hi
  rw [PredTrue, hp, hi, Core.pget_zero]
  decide

/-! ### A core that issues freely -/

/-- The core runs, no instruction of it waits, and it does not run a single step (R51, R60). -/
def Core.Free (k : Core) : Prop := k.run = .running ∧ k.blocked = none ∧ k.stepping = false

/-- A write of a scalar register touches no other part of the core. -/
theorem Core.sset_eq (k : Core) (i : Nat) (v : W64) : k.sset i v = { k with sreg := (k.sset i v).sreg } := by
  unfold Core.sset
  split
  · split <;> rfl
  · rfl

/-- A write of a predicate touches no other part of the core. -/
theorem Core.pset_eq (k : Core) (i : Nat) (b : Bool) : k.pset i b = { k with preg := (k.pset i b).preg } := by
  unfold Core.pset
  split <;> rfl

@[simp] theorem Core.sset_pc (k : Core) (i : Nat) (v : W64) : (k.sset i v).pc = k.pc := by rw [Core.sset_eq]
@[simp] theorem Core.pset_pc (k : Core) (i : Nat) (b : Bool) : (k.pset i b).pc = k.pc := by rw [Core.pset_eq]

theorem Core.Free.sset {k : Core} (h : k.Free) (i : Nat) (v : W64) : (k.sset i v).Free := by
  rw [Core.sset_eq]; exact h

theorem Core.Free.pset {k : Core} (h : k.Free) (i : Nat) (b : Bool) : (k.pset i b).Free := by
  rw [Core.pset_eq]; exact h

/-- The innermost loop level whose body ends at an index with iterations left (R37). -/
def endingLoop (loops : Vector LoopLevel 4) (i : Nat) : Option (Fin 4) :=
  ((allFin 4).filter (fun l => loops[l].last == i && decide (1 < loops[l].count.toNat))).foldl
    (fun (b : Option (Fin 4)) l =>
      match b with
      | none => some l
      | some m => if loops[m].first < loops[l].first then some l else some m) none

/-- The step to the next index, by the loop level that ends there (R37). -/
theorem loopNext_ending (k : Core) (i : Nat) : loopNext k i =
    match endingLoop k.loops i with
    | none => { k with pc := i + 1 }
    | some l => { k with
        pc := k.loops[l].first
        loops := k.loops.set l { k.loops[l] with count := k.loops[l].count - 1 } } := rfl

theorem loopNext_none {k : Core} {i : Nat} (h : endingLoop k.loops i = none) : loopNext k i = { k with pc := i + 1 } := by
  rw [loopNext_ending, h]

theorem loopNext_some {k : Core} {i : Nat} {l : Fin 4} (h : endingLoop k.loops i = some l) : loopNext k i =
    { k with pc := k.loops[l].first
             loops := k.loops.set l { k.loops[l] with count := k.loops[l].count - 1 } } := by
  rw [loopNext_ending, h]

/-- The step to the next instruction touches the PC and the loop counters alone (R37). -/
theorem loopNext_eq (k : Core) (i : Nat) :
    loopNext k i = { k with pc := (loopNext k i).pc, loops := (loopNext k i).loops } := by
  cases h : endingLoop k.loops i with
  | none => rw [loopNext_none h]
  | some l => rw [loopNext_some h]

theorem Core.Free.loopNext {k : Core} (h : k.Free) (i : Nat) : (loopNext k i).Free := by
  rw [loopNext_eq]; exact h

/-- What the next index is depends on the loop counters alone (R37). -/
theorem loopNext_congr {k k' : Core} (h : k'.loops = k.loops) (i : Nat) :
    (loopNext k' i).pc = (loopNext k i).pc ∧ (loopNext k' i).loops = (loopNext k i).loops := by
  cases he : endingLoop k.loops i with
  | none => rw [loopNext_none he, loopNext_none (h ▸ he)]; exact ⟨rfl, h⟩
  | some l => rw [loopNext_some he, loopNext_some (h ▸ he), h]; exact ⟨rfl, rfl⟩

theorem issues_free {r : State} {c : CoreId} {w : W128} {o : Op} (h : Issues r c w o) : (r.core c).Free := by
  obtain ⟨⟨-, hfetch, -⟩, -, hflow⟩ := h
  obtain ⟨hrun, hblocked⟩ := fetch_running hfetch
  exact ⟨hrun, hblocked, hflow⟩

/-- An instruction retires in sequence on a core that has been replaced. -/
theorem retire_setCore (r : State) (c : CoreId) {k : Core} (h : k.Free) :
    retire (r.setCore c k) c = r.setCore c (loopNext k k.pc) := by
  obtain ⟨hrun, hblocked, hflow⟩ := h
  rw [retire_flowing (by simpa using hrun) (by simpa using hblocked) (by simpa [Flowing] using hflow)]
  simp [State.setCore_setCore]

/-- A branch retires at its target on a core that has been replaced. -/
theorem retireTo_setCore (r : State) (c : CoreId) {k : Core} (t : Nat) (h : k.Free) :
    retireTo (r.setCore c k) c t = r.setCore c { k with pc := t } := by
  obtain ⟨hrun, hblocked, hflow⟩ := h
  rw [retireTo_flowing (by simpa using hrun) (by simpa using hblocked) (by simpa [Flowing] using hflow)]
  simp [State.setCore_setCore]

/-- The state in which an instruction that is no pass acts: no MU0 pass is the one issued last any more (R189). -/
def issued (r : State) (c : CoreId) : State := r.setCore c { r.core c with lastMu0 := none }

@[simp] theorem issued_core (r : State) (c : CoreId) : (issued r c).core c = { r.core c with lastMu0 := none } :=
  State.core_setCore_self r c _

theorem issued_core_other (r : State) {c d : CoreId} (h : d ≠ c) : (issued r c).core d = r.core d :=
  State.core_setCore_other r c d _ h

theorem issued_setCore (r : State) (c : CoreId) (k : Core) : (issued r c).setCore c k = r.setCore c k :=
  State.setCore_setCore r c _ k

theorem retire_issued {r : State} {c : CoreId} (h : (r.core c).Free) :
    retire (issued r c) c = r.setCore c (loopNext { r.core c with lastMu0 := none } (r.core c).pc) :=
  retire_setCore r c (k := { r.core c with lastMu0 := none }) h

section
variable {s : State} {c : CoreId} {us : List Upset} {w : W128} {o : Op} {act : State → W128 → State}

/-- The instruction at the PC takes its action. -/
theorem issue_acts (h : Issues (strike s us) c w o) (ho : o ≠ .pass) :
    issue s c us o act = act (issued (strike s us) c) w := by
  obtain ⟨hat, hpred, -⟩ := h
  rw [issue_taken hat hpred]
  simp [ho, issued]

theorem issued_free (h : Issues (strike s us) c w o) : ((issued (strike s us) c).core c).Free := by
  rw [issued_core]
  exact issues_free h

/-- An instruction that only replaces the core and goes on (R35). -/
theorem issue_replaces (f : Core → W128 → Core) (h : Issues (strike s us) c w o) (ho : o ≠ .pass)
    (hf : ∀ k : Core, k.Free → (f k w).Free) (hpc : ∀ k : Core, (f k w).pc = k.pc) :
    issue s c us o (fun s w => retire (s.setCore c (f (s.core c) w)) c) =
      (strike s us).setCore c (loopNext (f { (strike s us).core c with lastMu0 := none } w) ((strike s us).core c).pc) := by
  rw [issue_acts h ho, retire_setCore _ _ (hf _ (issued_free h)), issued_setCore, issued_core, hpc]

end

end Sys2Proof.Machine
end

section
/-!
SUPPORT. The class and the code of an operation (R32, R35, R40 to R45), and what a fetched word says of them.
-/

namespace Sys2Proof.Machine

/-- The CLASS of an operation (R32). -/
def Op.cls : Op → Nat
  | .pass => 1
  | .vld | .vst | .vadd | .vsub | .vmul | .vfma | .vmax | .vmin | .vcvt | .vquant | .vdeq | .vhad | .vred | .vcbld
  | .vhist | .vste | .vfix | .vaddx | .vsel | .vbcast | .vmovs => 2
  | .xferCopy => 3
  | .qopPush | .qopPop | .qopDrop | .qopStat | .qopCommit | .qopCancel => 4
  | .signal | .wait | .set | .fence | .slotFill | .slotDrain | .slotWaitf | .slotWaite => 5
  | .dispRoute | .dispCommit | .dispCancel | .dispStat => 6
  | _ => 0

/-- The OP of an operation in its class (R35, R40 to R45). -/
def Op.code : Op → Nat
  | .nop => 0x00 | .halt => 0x01 | .yield => 0x02 | .jmp => 0x03 | .call => 0x04 | .ret => 0x05 | .loop => 0x06
  | .add => 0x10 | .sub => 0x11 | .and => 0x12 | .or => 0x13 | .xor => 0x14 | .shl => 0x15 | .shr => 0x16 | .sra => 0x17
  | .mul => 0x18 | .cmp => 0x19 | .li => 0x1A | .ld => 0x1B | .st => 0x1C | .getsys => 0x1D
  | .vld => 0x00 | .vst => 0x01 | .vadd => 0x02 | .vsub => 0x03 | .vmul => 0x04 | .vfma => 0x05 | .vmax => 0x06
  | .vmin => 0x07 | .vcvt => 0x08 | .vquant => 0x09 | .vdeq => 0x0A | .vhad => 0x0B | .vred => 0x0C | .vcbld => 0x0D
  | .vhist => 0x0E | .vste => 0x0F | .vfix => 0x10 | .vaddx => 0x11 | .vsel => 0x12 | .vbcast => 0x13 | .vmovs => 0x14
  | .xferCopy => 0 | .pass => 0
  | .qopPush => 0 | .qopPop => 1 | .qopDrop => 2 | .qopStat => 3 | .qopCommit => 4 | .qopCancel => 5
  | .dispRoute => 0 | .dispCommit => 1 | .dispCancel => 2 | .dispStat => 3
  | .signal => 0 | .wait => 1 | .set => 2 | .fence => 3 | .slotFill => 4 | .slotDrain => 5 | .slotWaitf => 6 | .slotWaite => 7

theorem ctlOp_some {n : Nat} {o : Op} (h : ctlOp n = some o) : o.cls = 0 ∧ o.code = n := by
  unfold ctlOp at h
  split at h <;> cases h <;> exact ⟨rfl, rfl⟩

theorem vopOp_some {n : Nat} {o : Op} (h : vopOp n = some o) : o.cls = 2 ∧ o.code = n := by
  unfold vopOp at h
  split at h <;> cases h <;> exact ⟨rfl, rfl⟩

theorem qopOp_some {n : Nat} {o : Op} (h : qopOp n = some o) : o.cls = 4 ∧ o.code = n := by
  unfold qopOp at h
  split at h <;> cases h <;> exact ⟨rfl, rfl⟩

theorem syncOp_some {n : Nat} {o : Op} (h : syncOp n = some o) : o.cls = 5 ∧ o.code = n := by
  unfold syncOp at h
  split at h <;> cases h <;> exact ⟨rfl, rfl⟩

theorem dispOp_some {n : Nat} {o : Op} (h : dispOp n = some o) : o.cls = 6 ∧ o.code = n := by
  unfold dispOp at h
  split at h <;> cases h <;> exact ⟨rfl, rfl⟩

/-- The class and the code of the operation that a word names stand in the word. -/
theorem opOf_some {w : W128} {o : Op} (h : opOf w = some o) : fClass w = o.cls ∧ fOp w = o.code := by
  unfold opOf at h
  split at h
  case h_1 hc => exact ⟨hc.trans (ctlOp_some h).1.symm, (ctlOp_some h).2.symm⟩
  case h_2 hc =>
    split at h
    · next h0 => cases h; exact ⟨hc, h0⟩
    · cases h
  case h_3 hc => exact ⟨hc.trans (vopOp_some h).1.symm, (vopOp_some h).2.symm⟩
  case h_4 hc =>
    split at h
    · next h0 => cases h; exact ⟨hc, h0⟩
    · cases h
  case h_5 hc => exact ⟨hc.trans (qopOp_some h).1.symm, (qopOp_some h).2.symm⟩
  case h_6 hc => exact ⟨hc.trans (syncOp_some h).1.symm, (syncOp_some h).2.symm⟩
  case h_7 hc => exact ⟨hc.trans (dispOp_some h).1.symm, (dispOp_some h).2.symm⟩
  case h_8 => cases h

theorem decodeOp_some {pc : Nat} {w : W128} {o : Op} (h : decodeOp pc w = some o) :
    opOf w = some o ∧ legalFor pc w o = true := by
  unfold decodeOp at h
  split at h
  · next p hp =>
    split at h
    · next hl => cases h; exact ⟨hp, hl⟩
    · cases h
  · cases h

theorem decodeOp_cls {pc : Nat} {w : W128} {o : Op} (h : decodeOp pc w = some o) : fClass w = o.cls :=
  (opOf_some (decodeOp_some h).1).1

theorem decodeOp_code {pc : Nat} {w : W128} {o : Op} (h : decodeOp pc w = some o) : fOp w = o.code :=
  (opOf_some (decodeOp_some h).1).2

/-- A fetched word stands at the PC and is a legal word of its operation (R30, R33). -/
theorem fetch_word {k : Core} {w : W128} {o : Op} {b : Bool} (h : fetch k = .word w o b) : decodeOp k.pc w = some o := by
  unfold fetch at h
  split at h
  · cases h
  · split at h
    · cases h
    · split at h
      · cases h
      · dsimp only at h
        split at h
        · cases h
        · next hd => cases h; exact hd

theorem issues_decode {r : State} {c : CoreId} {w : W128} {o : Op} (h : Issues r c w o) :
    decodeOp (r.core c).pc w = some o := by
  obtain ⟨⟨-, hfetch, -⟩, -⟩ := h
  exact fetch_word hfetch

/-- A CTL word that is fetched is legal by the rules of its class (R35 to R37). -/
theorem issues_ctlLegal {r : State} {c : CoreId} {w : W128} {o : Op} (h : Issues r c w o) (ho : o.cls = 0) :
    ctlLegal (r.core c).pc w o = true := by
  have hd := issues_decode h
  have hl := (decodeOp_some hd).2
  unfold legalFor at hl
  rwa [decodeOp_cls hd, ho] at hl

end Sys2Proof.Machine
end

section
/-!
PROOF. The arithmetic and logical instructions (O6) and the branches (O8).
-/

namespace Sys2Proof.Machine

/-! ### The scalar instructions (O6) -/

section
variable {s : State} {c : CoreId} {us : List Upset} {w : W128} {o : Op}

/-- An arithmetic or logical operation writes SD with its function of SA and B (R35). -/
theorem aluStep_result (f : W64 → W64 → W64) (h : Issues (strike s us) c w o) (ho : o ≠ .pass) :
    aluStep s c us o f = (strike s us).setCore c (loopNext
      ({ (strike s us).core c with lastMu0 := none }.sset (ctlSd w)
        (f (((strike s us).core c).sget (ctlSa w)) (ctlB ((strike s us).core c) w))) ((strike s us).core c).pc) :=
  issue_replaces (fun k w => k.sset (ctlSd w) (f (k.sget (ctlSa w)) (ctlB k w))) h ho (fun _ hk => hk.sset _ _)
    (fun k => k.sset_pc _ _)

/-- The low 6 bits of B are the distance of a shift (R35). -/
theorem fld_low_six (b : W64) : fld b 0 6 = b.toNat % 64 := by simp [fld]

theorem ofNat_sum (a b : W64) : a + b = BitVec.ofNat 64 (a.toNat + b.toNat) := by
  apply BitVec.eq_of_toNat_eq
  simp

theorem ofNat_difference (a b : W64) : a - b = BitVec.ofNat 64 (2 ^ 64 + a.toNat - b.toNat) := by
  apply BitVec.eq_of_toNat_eq
  have := b.isLt
  rw [BitVec.toNat_sub, BitVec.toNat_ofNat]
  congr 1
  omega

theorem ofNat_product (a b : W64) : a * b = BitVec.ofNat 64 (a.toNat * b.toNat) := by
  apply BitVec.eq_of_toNat_eq
  simp

theorem exec_nop (h : Issues (strike s us) c w .nop) : exec (.nop c us) s =
    .next ((strike s us).setCore c (loopNext { (strike s us).core c with lastMu0 := none } ((strike s us).core c).pc)) := by
  show Host.Outcome.next (issue s c us .nop fun s _ => retire s c) = _
  rw [issue_acts h (by decide), retire_issued (issues_free h)]

theorem exec_li (h : Issues (strike s us) c w .li) : exec (.li c us) s =
    .next ((strike s us).setCore c (loopNext ({ (strike s us).core c with lastMu0 := none }.sset (ctlSd w) (fImm w))
      ((strike s us).core c).pc)) :=
  congrArg Host.Outcome.next (issue_replaces (fun k w => k.sset (ctlSd w) (fImm w)) h (by decide) (fun _ hk => hk.sset _ _)
    (fun k => k.sset_pc _ _))

theorem exec_cmp (h : Issues (strike s us) c w .cmp) : exec (.cmp c us) s =
    .next ((strike s us).setCore c (loopNext ({ (strike s us).core c with lastMu0 := none }.pset (fld w 16 3)
      (cmpCond (ctlCond w) (((strike s us).core c).sget (ctlSa w)) (ctlB ((strike s us).core c) w)))
      ((strike s us).core c).pc)) :=
  congrArg Host.Outcome.next (issue_replaces
    (fun k w => k.pset (fld w 16 3) (cmpCond (ctlCond w) (k.sget (ctlSa w)) (ctlB k w))) h (by decide)
    (fun _ hk => hk.pset _ _) (fun k => k.pset_pc _ _))

/-- GETSYS with a selector that reads no counter writes SD with its value (R36). -/
theorem exec_getsys (v : W64) (h : Issues (strike s us) c w .getsys)
    (hv : ∀ t : State, t.jobOf c = (strike s us).jobOf c → sysValue t c (fld w 64 4) = (v, t)) : exec (.getsys c us) s =
    .next ((strike s us).setCore c (loopNext ({ (strike s us).core c with lastMu0 := none }.sset (ctlSd w) v)
      ((strike s us).core c).pc)) := by
  show Host.Outcome.next (issue s c us .getsys fun s w =>
    retire ((sysValue s c (fld w 64 4)).2.setCore c
      (((sysValue s c (fld w 64 4)).2.core c).sset (ctlSd w) (sysValue s c (fld w 64 4)).1)) c) = _
  rw [issue_acts h (by decide), hv (issued (strike s us) c) rfl, retire_setCore _ _ ((issued_free h).sset _ _),
    issued_setCore, issued_core, Core.sset_pc]

/-- The comparison of CMP is the one that its COND names, of the six that are legal (R36). -/
theorem cmpCond_of_named {a b : W64} {n : Nat} {p : Bool} (hn : n ≤ 5)
    (h0 : n = 0 → p = decide (a = b)) (h1 : n = 1 → p = decide (a ≠ b)) (h2 : n = 2 → p = decide (a.toInt < b.toInt))
    (h3 : n = 3 → p = decide (a.toInt ≤ b.toInt)) (h4 : n = 4 → p = decide (a.toNat < b.toNat))
    (h5 : n = 5 → p = decide (a.toNat ≤ b.toNat)) : cmpCond n a b = p := by
  have hcases : n = 0 ∨ n = 1 ∨ n = 2 ∨ n = 3 ∨ n = 4 ∨ n = 5 := by omega
  rcases hcases with rfl | rfl | rfl | rfl | rfl | rfl
  · exact (h0 rfl).symm
  · exact (h1 rfl).symm
  · exact (h2 rfl).symm
  · exact (h3 rfl).symm
  · exact (h4 rfl).symm
  · exact (h5 rfl).symm

theorem issues_cmp_cond {r : State} (h : Issues r c w .cmp) : ctlCond w ≤ 5 := by
  have hl := issues_ctlLegal h rfl
  simp only [ctlLegal, Bool.and_eq_true, decide_eq_true_eq] at hl
  exact hl.2.2

end

/-- Settles O6: each instruction is one write of the core, after which it goes on; the value written is the model's own
operation, brought to the form of the statement. -/
theorem scalarResult : Obligations.ScalarResult := by
  unfold Obligations.ScalarResult
  constructor
  · intro c us s w r k a b done
    refine ⟨fun h => ?_, fun h => ?_, fun h => ?_, fun h => ?_, fun h => ?_, fun h => ?_, fun h => ?_, fun h => ?_, fun h => ?_⟩
    · exact (congrArg Host.Outcome.next (aluStep_result _ h (by decide))).trans (congrArg done (ofNat_sum a b))
    · exact (congrArg Host.Outcome.next (aluStep_result _ h (by decide))).trans (congrArg done (ofNat_difference a b))
    · exact congrArg Host.Outcome.next (aluStep_result _ h (by decide))
    · exact congrArg Host.Outcome.next (aluStep_result _ h (by decide))
    · exact congrArg Host.Outcome.next (aluStep_result _ h (by decide))
    · exact (congrArg Host.Outcome.next (aluStep_result _ h (by decide))).trans
        (congrArg (fun n => done (a <<< n)) (fld_low_six b))
    · exact (congrArg Host.Outcome.next (aluStep_result _ h (by decide))).trans
        (congrArg (fun n => done (a >>> n)) (fld_low_six b))
    · exact (congrArg Host.Outcome.next (aluStep_result _ h (by decide))).trans
        (congrArg (fun n => done (a.sshiftRight n)) (fld_low_six b))
    · exact (congrArg Host.Outcome.next (aluStep_result _ h (by decide))).trans (congrArg done (ofNat_product a b))
  · intro c us s w r k a b go k0
    refine ⟨exec_nop, fun h => ?_, fun h p h0 h1 h2 h3 h4 h5 => ?_, fun h hsel => ?_, fun h hsel => ?_⟩
    · rw [exec_li h]
      show _ = go (k0.sset (ctlSd w) (BitVec.ofNat 64 (w.toNat / 2 ^ 64)))
      have hi : fImm w = BitVec.ofNat 64 (w.toNat / 2 ^ 64) := by
        apply BitVec.eq_of_toNat_eq
        simp [fImm, fld, Nat.shiftRight_eq_div_pow]
      rw [hi]
    · rw [exec_cmp h, cmpCond_of_named (issues_cmp_cond h) h0 h1 h2 h3 h4 h5]
    · exact exec_getsys _ h (fun t _ => by rw [hsel]; rfl)
    · exact exec_getsys _ h (fun t ht => by rw [hsel, ← ht]; rfl)

end Sys2Proof.Machine
end

section
/-!
PROOF. The branches and the loops (O8): a branch replaces the core and sets its PC; the step to the next index goes by the
one loop level that ends there with iterations left.
-/

namespace Sys2Proof.Machine

section
variable {s : State} {c : CoreId} {us : List Upset} {w : W128}

theorem exec_jmp (h : Issues (strike s us) c w .jmp) : exec (.jmp c us) s =
    .next ((strike s us).setCore c { (strike s us).core c with lastMu0 := none, pc := ctlTarget w }) := by
  show Host.Outcome.next (issue s c us .jmp fun s w => retireTo s c (ctlTarget w)) = _
  rw [issue_acts h (by decide), issued, retireTo_setCore _ _ _ (k := { (strike s us).core c with lastMu0 := none })
    (issues_free h)]

/-- What CALL does where it acts (R35, R38). -/
def callAct (c : CoreId) (s : State) (w : W128) : State :=
  if 16 ≤ (s.core c).calls.length then faultHaltEv s c 0xF005#16 (s.core c).pc 0x1008 0
  else retireTo (s.setCore c { s.core c with calls := ((s.core c).pc + 1) :: (s.core c).calls }) c (ctlTarget w)

theorem exec_call_acts (h : Issues (strike s us) c w .call) :
    exec (.call c us) s = .next (callAct c (issued (strike s us) c) w) :=
  congrArg Host.Outcome.next (issue_acts (act := callAct c) h (by decide))

/-- CALL with room on the call stack pushes the index after it (R35). -/
theorem callAct_pushes {r : State} (h : (r.core c).Free) (hroom : (r.core c).calls.length < 16) :
    callAct c (issued r c) w = r.setCore c { r.core c with
      lastMu0 := none, calls := ((r.core c).pc + 1) :: (r.core c).calls, pc := ctlTarget w } := by
  rw [callAct, issued_core, if_neg (Nat.not_le.mpr hroom), issued_setCore]
  exact retireTo_setCore r c _ (k := { r.core c with lastMu0 := none, calls := ((r.core c).pc + 1) :: (r.core c).calls }) h

/-- What RET does where it acts (R35, R38). -/
def retAct (c : CoreId) (s : State) (_ : W128) : State :=
  match (s.core c).calls with
  | [] => faultHaltEv s c 0xF005#16 (s.core c).pc 0x1008 0
  | t :: rest => retireTo (s.setCore c { s.core c with calls := rest }) c t

theorem exec_ret_acts (h : Issues (strike s us) c w .ret) :
    exec (.ret c us) s = .next (retAct c (issued (strike s us) c) w) :=
  congrArg Host.Outcome.next (issue_acts (act := retAct c) h (by decide))

/-- RET pops the index it goes to (R35). -/
theorem retAct_pops {r : State} {t : Nat} {rest : List Nat} (h : (r.core c).Free) (hcalls : (r.core c).calls = t :: rest) :
    retAct c (issued r c) w = r.setCore c { r.core c with lastMu0 := none, calls := rest, pc := t } := by
  simp only [retAct, issued_core, hcalls, issued_setCore]
  exact retireTo_setCore r c t (k := { r.core c with lastMu0 := none, calls := rest }) h

/-- What LOOP does where it acts (R37). -/
def loopAct (c : CoreId) (l : Fin 4) (s : State) (w : W128) : State :=
  let k := s.core c
  retireTo (s.setCore c { k with
    loops := k.loops.set l { count := loopCount k w, first := k.pc + 1, last := fld w 96 15 } }) c
    (if loopCount k w = 0#64 then fld w 96 15 + 1 else k.pc + 1)

theorem exec_loop_acts (h : Issues (strike s us) c w .loop) (l : Fin 4) (hl : l.val = fld w 16 2) :
    exec (.loop c us) s = .next (loopAct c l (issued (strike s us) c) w) := by
  have hact := issue_acts (act := fun s w => loopAct c ⟨fld w 16 2, Nat.mod_lt _ (by decide)⟩ s w) h (by decide)
  rw [show (⟨fld w 16 2, Nat.mod_lt _ (by decide)⟩ : Fin 4) = l from Fin.ext hl.symm] at hact
  exact congrArg Host.Outcome.next hact

/-- LOOP loads its level, and skips the body where the count is zero (R37). -/
theorem loopAct_loads {r : State} (l : Fin 4) (h : (r.core c).Free) :
    let k : Core := { r.core c with lastMu0 := none }
    loopAct c l (issued r c) w = r.setCore c { k with
      loops := k.loops.set l { count := loopCount k w, first := k.pc + 1, last := fld w 96 15 }
      pc := if loopCount k w = 0#64 then fld w 96 15 + 1 else k.pc + 1 } := by
  intro k
  simp only [loopAct, issued_core, issued_setCore]
  exact retireTo_setCore r c _
    (k := { k with loops := k.loops.set l { count := loopCount k w, first := k.pc + 1, last := fld w 96 15 } }) h

end

/-! ### The end of a loop body (R37) -/

/-- No level ends at an index where none that ends there has iterations left. -/
theorem endingLoop_none {loops : Vector LoopLevel 4} {i : Nat}
    (h : ∀ l : Fin 4, loops[l].last = i → loops[l].count.toNat ≤ 1) : endingLoop loops i = none := by
  have hfilter : (allFin 4).filter (fun l => loops[l].last == i && decide (1 < loops[l].count.toNat)) = [] := by
    rw [List.filter_eq_nil_iff]
    intro l _ hl
    rw [Bool.and_eq_true, beq_iff_eq, decide_eq_true_eq] at hl
    exact absurd hl.2 (Nat.not_lt.mpr (h l hl.1))
  rw [endingLoop, hfilter]
  rfl

/-- The level that ends at an index is the one level that ends there with iterations left. -/
theorem endingLoop_one {loops : Vector LoopLevel 4} {i : Nat} {l : Fin 4} (hlast : loops[l].last = i)
    (hcount : 1 < loops[l].count.toNat)
    (hother : ∀ m : Fin 4, m ≠ l → loops[m].last = i → loops[m].count.toNat ≤ 1) : endingLoop loops i = some l := by
  have honly : ∀ m ∈ allFin 4, (loops[m].last == i && decide (1 < loops[m].count.toNat)) = (m == l) := by
    intro m _
    by_cases hm : m = l
    · rw [hm, hlast, decide_eq_true hcount]
      simp
    · rw [show (m == l) = false from by simpa using hm, Bool.eq_false_iff]
      intro hl
      rw [Bool.and_eq_true, beq_iff_eq, decide_eq_true_eq] at hl
      exact absurd hl.2 (Nat.not_lt.mpr (hother m hm hl.1))
  have hone : ∀ l : Fin 4, (allFin 4).filter (fun m => m == l) = [l] := by decide
  rw [endingLoop, List.filter_congr honly, hone]
  rfl

/-- Settles O8: each branch is one update of the core that issues freely, and the end of a body goes by the level that
`endingLoop` finds. -/
theorem branchResult : Obligations.BranchResult := by
  unfold Obligations.BranchResult
  constructor
  · intro c us s w r k target
    refine ⟨exec_jmp, fun h hroom => ?_, fun h t rest hcalls => ?_, fun h l hl => ?_⟩
    · rw [exec_call_acts h, callAct_pushes (issues_free h) hroom]
      rfl
    · rw [exec_ret_acts h, retAct_pops (issues_free h) hcalls]
    · rw [exec_loop_acts h l hl, loopAct_loads l (issues_free h)]
  · intro k i
    exact ⟨fun h => loopNext_none (endingLoop_none h), fun l hlast hcount hother =>
      loopNext_some (endingLoop_one hlast hcount hother)⟩

end Sys2Proof.Machine
end

section
/-!
SUPPORT. What hangs on a halt of a core and on an event, and what it leaves as it was (R57, R167, R322, R364): every core,
unit, memory, queue and scratchpad, and every bit that is set in a register of a core.
-/

namespace Sys2Proof.Machine

/-- The state `t` differs from `s` at most in the clock, the registers, the host ports, the reduction and commit logic, the
network, the links, the dispatch units and the list of preemption victims, and no bit of a register of a core has been
cleared: all that the halting of a core touches besides the core (R57, R167, R364). -/
def Aside (s t : State) : Prop :=
  t = { s with tick := t.tick, ts := t.ts, regs := t.regs, host := t.host, rcl := t.rcl, net := t.net, links := t.links,
               dus := t.dus, jobs := { s.jobs with victims := t.jobs.victims } } ∧
  ∀ a i, 0x1000000 ≤ a → bit (s.rd a) i = true → bit (t.rd a) i = true

theorem aside_refl (s : State) : Aside s s := ⟨rfl, fun _ _ _ h => h⟩

theorem aside_trans {s t u : State} (h : Aside s t) (k : Aside t u) : Aside s u := by
  obtain ⟨hf, hb⟩ := h
  obtain ⟨kf, kb⟩ := k
  refine ⟨?_, fun a i ha hi => kb a i ha (hb a i ha hi)⟩
  rw [kf, hf]

/-- An event and all that is no more than one (R8). -/
theorem aside_of_quiet {s t : State} (h : Quiet s t) (k : KeepsSetBits s t) : Aside s t := by
  refine ⟨?_, fun a i ha hi => k a i (by unfold ringBase; omega) hi⟩
  rw [h]

theorem aside_of_regs {s t : State} (hr : t.regs = s.regs)
    (h : t = { s with tick := t.tick, ts := t.ts, regs := t.regs, host := t.host, rcl := t.rcl, net := t.net,
                      links := t.links, dus := t.dus, jobs := { s.jobs with victims := t.jobs.victims } }) : Aside s t :=
  ⟨h, fun a i _ hi => by rwa [State.rd, hr]⟩

theorem aside_foldl {α : Type} {f : State → α → State} (hf : ∀ s x, Aside s (f s x)) (l : List α) (s : State) :
    Aside s (l.foldl f s) := by
  induction l generalizing s with
  | nil => exact aside_refl s
  | cons x l ih => exact aside_trans (hf s x) (ih (f s x))

theorem aside_foldl_pair {α β : Type} {f : State × β → α → State × β} (hf : ∀ x a, Aside x.1 (f x a).1) (l : List α)
    (x : State × β) : Aside x.1 (l.foldl f x).1 := by
  induction l generalizing x with
  | nil => exact aside_refl x.1
  | cons a l ih => exact aside_trans (hf x a) (ih (f x a))

/-! ### Events -/

theorem State.wr_aside (s : State) {a : Nat} (v : W64) (h : a < 0x1000000) : Aside s (s.wr a v) := by
  refine ⟨rfl, fun b i hb hi => ?_⟩
  rwa [State.rd_wr_other s a b v (by omega)]

theorem State.count_aside (s : State) {a : Nat} (w k : Nat) (h : a < 0x1000000) : Aside s (s.count a w k) :=
  State.wr_aside s _ h

theorem State.raiseDev_keepsSetBits (s : State) (f : Bool) (code inst sub : Nat) (job dev : Option Nat) (a0 a1 : Nat) :
    KeepsSetBits s (s.raiseDev f code inst sub job dev a0 a1) := by
  have hrec := State.record_keepsSetBits s code inst sub job dev a0 a1
  cases f with
  | false => exact hrec
  | true => exact keepsSetBits_trans hrec (State.failStep_keepsSetBits _ job)

theorem State.raiseDev_aside (s : State) (f : Bool) (code inst sub : Nat) (job dev : Option Nat) (a0 a1 : Nat) :
    Aside s (s.raiseDev f code inst sub job dev a0 a1) :=
  aside_of_quiet (State.raiseDev_quiet (quiet_refl s)) (State.raiseDev_keepsSetBits s f code inst sub job dev a0 a1)

theorem State.raiseIf_aside (s : State) (f : Bool) (code inst sub : Nat) (job : Option Nat) (a0 a1 : Nat) :
    Aside s (s.raiseIf f code inst sub job a0 a1) := State.raiseDev_aside s f code inst sub job none a0 a1

theorem State.raise_aside (s : State) (code inst sub : Nat) (job : Option Nat) (a0 a1 : Nat) :
    Aside s (s.raise code inst sub job a0 a1) := State.raiseIf_aside s _ code inst sub job a0 a1

theorem State.coreEv_aside (s : State) (c : CoreId) (code a0 a1 : Nat) : Aside s (s.coreEv c code a0 a1) :=
  State.raise_aside s code c 0 (s.jobOf c) a0 a1

/-! ### Dispatch units (R167) -/

theorem State.setDu_aside (s : State) (u : DuId) (k : Dispatch) : Aside s (s.setDu u k) := aside_of_regs rfl rfl

theorem sendPkt_aside (s : State) (die vc job dst : Nat) (p : Pkt) : Aside s (sendPkt s die vc job dst p).1 :=
  aside_of_quiet (sendPkt_quiet (quiet_refl s)) (keepsSetBits_of_regs (sendPkt_regs s die vc job dst p none))

theorem sendCells_aside (die job dst q : Nat) (fuel : Nat) (s : State) (cells : List Cell) :
    Aside s (sendCells s die job dst q fuel cells).1 := by
  induction fuel generalizing s cells with
  | zero => exact aside_refl s
  | succ n ih =>
    have hsend := sendPkt_aside s die 0 job dst (qcellsPkt s job dst q (cells.take (packetLen cells)))
    unfold sendCells
    dsimp only
    split
    · exact aside_refl s
    · split
      · next t ht =>
        rw [ht] at hsend
        exact aside_trans hsend (ih t _)
      · next t ht =>
        rw [ht] at hsend
        exact hsend

theorem unreachable_aside (s : State) (job : Option Nat) (dst : Nat) (p : Pkt) : Aside s (unreachable s job dst p) :=
  aside_of_quiet (unreachable_quiet (quiet_refl s)) (unreachable_keepsSetBits s job dst p)

theorem State.failStep_aside (s : State) (job : Option Nat) : Aside s (s.failStep job) :=
  aside_of_quiet (State.failStep_quiet (quiet_refl s)) (State.failStep_keepsSetBits s job)

theorem duFlushOne_aside (s : State) (u : DuId) (o : DispOut) : Aside s (duFlushOne s u o).1 := by
  unfold duFlushOne
  split
  · exact aside_refl s
  · next dev q _ =>
    have hsend := sendCells_aside u.val o.job dev.toNat q.val o.cells.length s o.cells
    split
    · exact aside_refl s
    · split
      · next t ht =>
        rw [ht] at hsend
        exact hsend
      · next t x rest ht =>
        rw [ht] at hsend
        dsimp only
        split
        · exact hsend
        · exact aside_trans hsend (aside_trans (unreachable_aside t _ _ _) (State.failStep_aside _ _))

theorem duFlush_aside (s : State) (u : DuId) : Aside s (duFlush s u) := by
  unfold duFlush
  refine aside_trans ?_ (State.setDu_aside _ u _)
  refine aside_foldl_pair (fun x o => ?_) _ (s, [])
  have hone := duFlushOne_aside x.1 u o
  split <;> next ht => rw [ht] at hone; exact hone

theorem sendMarkers_aside (s : State) (u : DuId) (job : Nat) (mbtag : BitVec 16) (kind : Nat) (dests : List DispDest) :
    Aside s (sendMarkers s u job mbtag kind dests) :=
  aside_trans (aside_foldl (fun s _ => State.setDu_aside s u _) dests s) (duFlush_aside _ u)

theorem forceCancel_aside (s : State) (u : DuId) (job core : Nat) (which : Tentative → Bool) :
    Aside s (forceCancel s u job core which) := by
  unfold forceCancel
  dsimp only
  split
  · exact aside_refl s
  · have hu : duBase u + 0x50 < 0x1000000 := by unfold duBase; omega
    refine aside_trans ?_ (State.raise_aside _ _ _ _ _ _ _)
    refine aside_trans ?_ (State.count_aside _ _ _ hu)
    refine aside_trans (State.setDu_aside s u { s.dus[u] with entries := (s.dus[u]).entries.filter (fun e => !which e) }) ?_
    exact aside_foldl (fun s (e : Tentative) => sendMarkers_aside s u job e.mbtag 2 e.dests) _ _

theorem cancelRun_aside (s : State) (u : DuId) (which : DispRun → Bool) : Aside s (cancelRun s u which) :=
  State.setDu_aside s u _

/-! ### Preemption (R364) -/

theorem preemptCheck_aside (s : State) (id : Nat) : Aside s (preemptCheck s id) := by
  unfold preemptCheck
  split
  · exact aside_refl s
  · dsimp only
    split
    · exact aside_refl s
    · exact aside_trans (aside_of_regs rfl rfl) (State.raise_aside _ _ _ _ _ _ _)

theorem victimHalted_aside (s : State) (c : CoreId) : Aside s (victimHalted s c) := by
  unfold victimHalted
  split
  · exact aside_refl s
  · refine aside_trans ?_ (aside_foldl (fun s (v : Victim) => preemptCheck_aside s v.id) _ _)
    exact aside_trans (aside_of_regs rfl rfl) (State.raise_aside _ _ _ _ _ _ _)

theorem onHalted_aside (s : State) (c : CoreId) : Aside s (onHalted s c) := by
  unfold onHalted
  refine aside_trans ?_ (victimHalted_aside _ c)
  refine aside_trans ?_ (cancelRun_aside _ _ _)
  split <;> exact forceCancel_aside s _ _ _ _

end Sys2Proof.Machine
end

section
/-!
SUPPORT. The halting of a core (R57, R60, R384): what the core holds once it is HALTED or drains, and that nothing else but
what an event touches has changed.
-/

namespace Sys2Proof.Machine

/-- A field is less than the power of its width. -/
theorem fld_lt {n : Nat} (w : BitVec n) (lo len : Nat) : fld w lo len < 2 ^ len := Nat.mod_lt _ (Nat.two_pow_pos len)

theorem State.jobOf_lt {s : State} {c : CoreId} {j : Nat} (h : s.jobOf c = some j) : j < 16 := by
  unfold State.jobOf at h
  dsimp only at h
  split at h
  · obtain rfl := Option.some.inj h
    exact fld_lt _ 0 4
  · exact absurd h (by simp)

/-! ### The beat (R387) -/

theorem State.now_aside (s : State) : Aside s s.now.2 := aside_of_regs rfl rfl

/-- The registers of telemetry lie below those of the cores. -/
theorem telBase_below {n : Nat} (h : n < 0x1000) : telBase + 0x1000 + n < 0x1000000 := by unfold telBase; omega

theorem State.orReg_aside (s : State) {a : Nat} (v : W64) (h : a < 0x1000000) : Aside s (s.orReg a v) :=
  State.wr_aside s _ h

theorem noteBeat_aside (s : State) (c : CoreId) (d : W64) : Aside s (noteBeat s c d) := by
  have hc : ∀ i, i < 0x20 → telBase + 0x1000 + 0x20 * c.val + i < 0x1000000 := fun i hi => by
    rw [Nat.add_assoc]; exact telBase_below (by omega)
  have hlast : Aside s (s.wr (telBase + 0x1000 + 0x20 * c.val) d) := State.wr_aside s d (hc 0 (by omega))
  have hmax : ∀ t : State, Aside t
      (if (t.rd (telBase + 0x1000 + 0x20 * c.val + 8)).toNat < d.toNat then t.wr (telBase + 0x1000 + 0x20 * c.val + 8) d
       else t) := by
    intro t
    split
    · exact State.wr_aside t d (hc 8 (by omega))
    · exact aside_refl t
  unfold noteBeat
  dsimp only
  refine aside_trans (aside_trans hlast (hmax _)) ?_
  generalize @ite State (_ < _) (Nat.decLt _ _) _ _ = t
  split
  · exact aside_refl t
  · next j hj =>
    have hjob : telBase + 0x130 + 0x40 * j < 0x1000000 := by
      have := State.jobOf_lt hj
      unfold telBase; omega
    split
    · exact aside_trans (State.count_aside t 32 1 (hc 0x10 (by omega))) (State.orReg_aside _ _ hjob)
    · exact aside_refl t

/-- What the end of a beat leaves of the core. -/
def Core.beatless (k : Core) : Core := { k with beat := none, beatHeld := none }

theorem Core.beatless_of_stopped {k : Core} (h : k.beat = none) : k.beatless = { k with beatHeld := none } := by
  unfold Core.beatless
  rw [← h]

theorem Core.beatless_of_none {k : Core} (h : k.beat = none) (hh : k.beatHeld = none) : k.beatless = k := by
  cases k
  cases h
  cases hh
  rfl

theorem stopBeat_cases (s : State) (c : CoreId) :
    ((s.core c).beat = none ∧ stopBeat s c = s) ∨
    ∃ t0, stopBeat s c = s.now.2.setCore c { s.core c with beat := none, beatHeld := some t0 } := by
  unfold stopBeat
  cases h : (s.core c).beat with
  | none => exact .inl ⟨rfl, rfl⟩
  | some t0 => exact .inr ⟨_, rfl⟩

theorem endBeat_aside (s : State) (c : CoreId) : Aside (s.setCore c (s.core c).beatless) (endBeat s c) := by
  unfold endBeat
  dsimp only
  obtain ⟨hnone, hstop⟩ | ⟨t0, hstop⟩ := stopBeat_cases s c
  · rw [hstop]
    cases hheld : (s.core c).beatHeld with
    | none =>
      rw [Core.beatless_of_none hnone hheld, State.setCore_core]
      exact aside_refl s
    | some d =>
      rw [Core.beatless_of_stopped hnone]
      exact noteBeat_aside _ c d
  · rw [hstop]
    simp only [State.core_setCore_self, State.setCore_setCore]
    exact aside_trans (aside_of_regs rfl rfl) (noteBeat_aside _ c t0)

/-! ### Entry into HALTED (R57) -/

/-- What a core holds once it is HALTED. -/
def Core.haltedAs (k : Core) (st : BitVec 16) : Core :=
  { k with run := .halted, status := st, stepping := false, stopReq := false, blocked := none, pendSd := [],
           lastMu0 := none, beat := none, beatHeld := none }

/-- The state in which a core has just been HALTED, before what hangs on it is told. -/
def haltedAt (s : State) (c : CoreId) (st : BitVec 16) : State :=
  (s.setCore c ((s.core c).haltedAs st)).wr (coreBase c + 8) (clrBit (s.rd (coreBase c + 8)) 3)

theorem enterHalted_aside (s : State) (c : CoreId) (st : BitVec 16) : Aside (haltedAt s c st) (enterHalted s c st) := by
  unfold enterHalted
  dsimp only
  refine aside_trans ?_ (onHalted_aside _ c)
  refine aside_trans ?_ (State.raiseIf_aside _ _ _ _ _ _ _ _)
  refine aside_trans ?_ (endBeat_aside _ c)
  have heq : haltedAt s c st =
      ((s.setCore c { s.core c with run := .halted, status := st, stepping := false, stopReq := false, blocked := none,
                                    pendSd := [], lastMu0 := none }).wr (coreBase c + 8)
        (clrBit (s.rd (coreBase c + 8)) 3)).setCore c ((s.core c).haltedAs st) := by
    unfold haltedAt
    rw [← State.setCore_setCore s c _ ((s.core c).haltedAs st)]
    rfl
  rw [heq]
  simp only [State.core_wr, State.core_setCore_self]
  exact aside_refl _

theorem enterHalted_core (s : State) (c : CoreId) (st : BitVec 16) :
    (enterHalted s c st).core c = (s.core c).haltedAs st := by
  rw [(enterHalted_aside s c st).1]
  exact State.core_setCore_self s c _

theorem enterHalted_core_other (s : State) {c d : CoreId} (st : BitVec 16) (h : d ≠ c) :
    (enterHalted s c st).core d = s.core d := by
  rw [(enterHalted_aside s c st).1]
  exact State.core_setCore_other s c d _ h

/-! ### Drains (R55, R57) -/

theorem settle_halts {s : State} {c : CoreId} {d : Drain} (h : (s.core c).run = .draining d)
    (hdone : drainDone (s.unit c) d = true) (hy : ∀ pc m, d ≠ .yield pc m) (hf : d ≠ .forced) :
    settle s c = enterHalted s c (drainStatus d) := by
  unfold settle
  rw [h]
  simp only [hdone, if_true]

theorem settle_waits {s : State} {c : CoreId} {d : Drain} (h : (s.core c).run = .draining d)
    (hdone : drainDone (s.unit c) d = false) : settle s c = s := by
  unfold settle
  simp [h, hdone]

/-! ### A fault halt (R57, R384) -/

/-- The state in which a core drains towards a fault halt. -/
def faultStage (s : State) (c : CoreId) (st : BitVec 16) (pc : Nat) : State :=
  (s.setUnit c { s.unit c with q := Vector.replicate 5 [], told := 0#6 }).setCore c
    { s.core c with pc := pc, blocked := none, run := .draining (.fault st), stopReq := false, stepping := false }

theorem faultHalt_running {s : State} {c : CoreId} {st : BitVec 16} {pc : Nat} (h : (s.core c).run = .running) :
    faultHalt s c st pc = settle (faultStage s c st pc) c := by
  unfold faultHalt startDrain faultStage
  simp [h, State.setCore_setCore]

theorem faultStage_run (s : State) (c : CoreId) (st : BitVec 16) (pc : Nat) :
    ((faultStage s c st pc).core c).run = .draining (.fault st) := by simp [faultStage]

theorem faultStage_done (s : State) (c : CoreId) (st : BitVec 16) (pc : Nat) :
    drainDone ((faultStage s c st pc).unit c) (.fault st) = startedDone (s.unit c) := by
  unfold faultStage drainDone
  rw [State.unit_setCore, State.unit_setUnit_self]
  rfl

theorem qOf_faultStage (s : State) (c : CoreId) (st : BitVec 16) (pc : Nat) (u : UnitSel) :
    qOf (faultStage s c st pc) c u = [] := by
  unfold qOf faultStage
  rw [State.unit_setCore, State.unit_setUnit_self]
  exact Vector.getElem_replicate _

theorem faultHalt_cases {s : State} {c : CoreId} (st : BitVec 16) (pc : Nat) (h : (s.core c).run = .running) :
    (startedDone (s.unit c) = false ∧ faultHalt s c st pc = faultStage s c st pc) ∨
    (startedDone (s.unit c) = true ∧ Aside (haltedAt (faultStage s c st pc) c st) (faultHalt s c st pc)) := by
  have hrun := faultStage_run s c st pc
  have hdone := faultStage_done s c st pc
  rw [faultHalt_running h]
  cases hs : startedDone (s.unit c) with
  | false =>
    exact .inl ⟨rfl, settle_waits hrun (hdone.trans hs)⟩
  | true =>
    rw [settle_halts hrun (hdone.trans hs) (by simp) (by simp)]
    exact .inr ⟨rfl, enterHalted_aside _ c st⟩

/-- The status bit of an event of a core (R60). -/
theorem evtReg_core {code : Nat} (c sub : Nat) (hlo : 0x1000 ≤ code) (hhi : code < 0x2000) :
    evtReg code c sub = (coreBase c + 0x18, coreBase c + 0x20, code - 0x1000) := by
  unfold evtReg
  rw [if_neg (by omega), if_neg (by omega), if_pos hhi]

/-- A state that agrees on the core's units and registers, and on all else a fault leaves alone, is halted by the fault
likewise. -/
theorem Faulted.of_agrees {r s t : State} {c : CoreId} {st : BitVec 16} {pc code : Nat} (h : Faulted r t c st pc code)
    (hunit : r.unit c = s.unit c) (hs : (r.core c).sreg = (s.core c).sreg) (hv : (r.core c).vreg = (s.core c).vreg)
    (hp : (r.core c).preg = (s.core c).preg) (hloc : r.locals = s.locals) (hg : r.gddr = s.gddr)
    (hcore : ∀ d, d ≠ c → r.core d = s.core d) : Faulted s t c st pc code := by
  obtain ⟨h1, h2, h3, h4, h5, h6, h7, h8, h9, h10, h11⟩ := h
  exact ⟨h1, h2, hunit ▸ h3, hunit ▸ h4, h5, h6.trans hs, h7.trans hv, h8.trans hp, h9.trans hloc, h10.trans hg,
    fun d hd => (h11 d hd).trans (hcore d hd)⟩

theorem faulted_of_issued {r t : State} {c : CoreId} {st : BitVec 16} {pc code : Nat}
    (h : Faulted (issued r c) t c st pc code) : Faulted r t c st pc code :=
  h.of_agrees rfl (by simp) (by simp) (by simp) rfl rfl fun _ hd => issued_core_other r hd

theorem faultStage_core (s : State) (c : CoreId) (st : BitVec 16) (pc : Nat) : (faultStage s c st pc).core c =
    { s.core c with pc := pc, blocked := none, run := .draining (.fault st), stopReq := false, stepping := false } :=
  State.core_setCore_self _ c _

theorem faultStage_core_other (s : State) {c d : CoreId} (st : BitVec 16) (pc : Nat) (h : d ≠ c) :
    (faultStage s c st pc).core d = s.core d := State.core_setCore_other _ c d _ h

theorem haltedAt_core (s : State) (c : CoreId) (st : BitVec 16) : (haltedAt s c st).core c = (s.core c).haltedAs st :=
  State.core_setCore_self s c _

theorem haltedAt_core_other (s : State) {c d : CoreId} (st : BitVec 16) (h : d ≠ c) :
    (haltedAt s c st).core d = s.core d := State.core_setCore_other s c d _ h

theorem haltedAt_rd (s : State) (c : CoreId) (st : BitVec 16) {a : Nat} (h : a ≠ coreBase c + 8) :
    (haltedAt s c st).rd a = s.rd a := State.rd_wr_other _ _ _ _ h

section
variable {s t : State} (h : Aside s t)
include h

theorem Aside.core (d : CoreId) : t.core d = s.core d := by rw [h.1]; rfl
theorem Aside.unit (d : CoreId) : t.unit d = s.unit d := by rw [h.1]; rfl
theorem Aside.locals : t.locals = s.locals := by rw [h.1]
theorem Aside.gddr : t.gddr = s.gddr := by rw [h.1]
theorem Aside.queues : t.queues = s.queues := by rw [h.1]
theorem Aside.qOf (d : CoreId) (u : UnitSel) : qOf t d u = qOf s d u := by unfold Machine.qOf; rw [h.unit]

end

theorem faultHalt_faulted {s : State} {c : CoreId} (st : BitVec 16) (pc : Nat) {code : Nat}
    (h : (s.core c).run = .running) (hlo : 0x1000 ≤ code) (hhi : code < 0x2000)
    (hbit : bit (s.rd (evtReg code c 0).2.1) (evtReg code c 0).2.2 = true) :
    Faulted s (faultHalt s c st pc) c st pc code := by
  obtain ⟨hs, ht⟩ | ⟨hs, ht⟩ := faultHalt_cases st pc h
  · rw [ht]
    have hc := faultStage_core s c st pc
    exact ⟨by rw [hc], qOf_faultStage s c st pc, fun hd => absurd hd (by simp [hs]), fun _ => by rw [hc], hbit,
      by rw [hc], by rw [hc], by rw [hc], rfl, rfl, fun d hd => faultStage_core_other s st pc hd⟩
  · have hc : (faultHalt s c st pc).core c = (faultStage s c st pc |>.core c).haltedAs st :=
      (ht.core c).trans (haltedAt_core _ c st)
    rw [faultStage_core] at hc
    refine ⟨by rw [hc]; rfl, fun u => (ht.qOf c u).trans (qOf_faultStage s c st pc u), fun _ => by rw [hc]; exact ⟨rfl, rfl⟩,
      fun hd => absurd hd (by simp [hs]), ?_, by rw [hc]; rfl, by rw [hc]; rfl, by rw [hc]; rfl, ht.locals, ht.gddr, ?_⟩
    · rw [evtReg_core c 0 hlo hhi] at hbit ⊢
      refine ht.2 _ _ (show 0x1000000 ≤ coreBase c + 0x20 by unfold coreBase; omega) ?_
      rw [haltedAt_rd _ c st (show coreBase c + 0x20 ≠ coreBase c + 8 by omega)]
      exact hbit
    · intro d hd
      rw [ht.core d, haltedAt_core_other _ st hd, faultStage_core_other s st pc hd]

/-- A fault of a core that runs, with its event (R57, R384). -/
theorem faultHaltEv_faulted {s : State} {c : CoreId} (st : BitVec 16) (pc : Nat) {code : Nat} (a1 : Nat)
    (h : (s.core c).run = .running) (hlo : 0x1000 ≤ code) (hhi : code < 0x1040) :
    Faulted s (faultHaltEv s c st pc code a1) c st pc code := by
  have hsmall : (evtReg code c 0).2.2 < 64 := by
    rw [evtReg_core c 0 hlo (by omega)]
    show code - 0x1000 < 64
    omega
  have hf := faultHalt_faulted (s := s.raiseIf (statusFails st.toNat) code c 0 (s.jobOf c) pc a1) (c := c) st pc
    (by rw [State.raiseIf_core]; exact h) hlo (by omega) (State.raiseDev_status s _ code c 0 _ none pc a1 hsmall)
  have hcore := State.raiseIf_core s (statusFails st.toNat) code c 0 (s.jobOf c) pc a1
  exact hf.of_agrees (State.raiseIf_unit ..) (by rw [hcore]) (by rw [hcore]) (by rw [hcore]) (State.raiseIf_locals ..)
    (State.raiseIf_gddr ..) fun d _ => hcore d

end Sys2Proof.Machine
end

section
/-!
PROOF. The call stack's faults (O9): an action that is a fault halt and nothing else.
-/

namespace Sys2Proof.Machine

section
variable {r : State} {c : CoreId} {w : W128}

/-- An action that halts by a fault halts the state it was issued in. -/
theorem issued_faulted (st : BitVec 16) {code : Nat} (a1 : Nat) (h : (r.core c).Free) (hlo : 0x1000 ≤ code)
    (hhi : code < 0x1040) :
    Faulted r (faultHaltEv (issued r c) c st (r.core c).pc code a1) c st (r.core c).pc code :=
  faulted_of_issued (faultHaltEv_faulted st _ a1 (by rw [issued_core]; exact h.1) hlo hhi)

theorem callAct_faults (h : (r.core c).Free) (hfull : 16 ≤ (r.core c).calls.length) :
    Faulted r (callAct c (issued r c) w) c 0xF005#16 (r.core c).pc 0x1008 := by
  rw [callAct, issued_core, if_pos hfull]
  exact issued_faulted _ 0 h (by decide) (by decide)

theorem retAct_faults (h : (r.core c).Free) (hempty : (r.core c).calls = []) :
    Faulted r (retAct c (issued r c) w) c 0xF005#16 (r.core c).pc 0x1008 := by
  simp only [retAct, issued_core, hempty]
  exact issued_faulted _ 0 h (by decide) (by decide)

end

/-- Settles O9: both instructions act by a fault halt with CALL_STACK_FAULT. -/
theorem callStackFaults : Obligations.CallStackFaults := by
  unfold Obligations.CallStackFaults
  intro c us s w r
  exact ⟨fun h hfull => ⟨_, exec_call_acts h, callAct_faults (issues_free h) hfull⟩,
    fun h hempty => ⟨_, exec_ret_acts h, retAct_faults (issues_free h) hempty⟩⟩

end Sys2Proof.Machine
end

section
/-!
PROOF. The issue of any instruction (O10, O11): every operation issues its word, and then the unit it goes to may run it; a
unit that holds nothing runs nothing.
-/

namespace Sys2Proof.Machine

/-! ### What follows the issue -/

/-- Whether an operation that goes to unit `u` runs in the command that issues it: `now` asks for it, and the unit held
nothing (R46). -/
def idleNow (s : State) (c : CoreId) (now : Bool) (u : UnitSel) : Bool := now && unitIdle (s.unit c) u

/-- What a command does after the issue of its operation, where `s0` is the state before (R40, R42, R43, R45). -/
def follow (o : Op) (c : CoreId) (now : Bool) (s0 s : State) : State :=
  match o with
  | .vld | .vst | .vadd | .vsub | .vmul | .vfma | .vmax | .vmin | .vcvt | .vquant | .vdeq | .vhad | .vred | .vcbld | .vhist
  | .vste | .vfix | .vaddx | .vsel | .vbcast | .vmovs =>
    if idleNow s0 c now .ve then veComplete (veStart s c) c else s
  | .qopPush | .qopPop | .qopDrop | .qopStat | .qopCommit | .qopCancel =>
    if !idleNow s0 c now .fab then s
    else
      let s := fabStart s c
      match (s.unit c).fab with
      | some (.qop e _) => if o = .qopPush then pushCells c (qopCells e.word) s else fabComplete s c
      | _ => s
  | .dispRoute | .dispCommit | .dispCancel | .dispStat => if idleNow s0 c now .fab then fabStart s c else s
  | .slotFill | .slotDrain => if idleNow s0 c now .fab then slotSync s c else s
  | _ => s

/-- Every operation issues, and its unit may then run it (R35, R40 to R45). -/
theorem exec_instrOf (o : Op) (c : CoreId) (now : Bool) (us : List Upset) (s : State) :
    ∃ act, exec (instrOf o c now us) s = .next (follow o c now s (issue s c us o act)) := by
  unfold follow
  cases o <;> exact ⟨_, rfl⟩

/-! ### Units that hold nothing -/

theorem unitIdle_ve {k : Units} (h : unitIdle k .ve = true) : k.q[2] = [] ∧ k.ve = [] := by
  simpa [unitIdle] using h

theorem unitIdle_fab {k : Units} (h : unitIdle k .fab = true) : k.q[4] = [] ∧ k.fab = none := by
  simpa [unitIdle] using h

theorem veStart_empty {t : State} {c : CoreId} (h : qOf t c .ve = []) : veStart t c = t := by
  unfold veStart
  rw [h, ite_self]

theorem veComplete_empty {t : State} {c : CoreId} (h : (t.unit c).ve = []) : veComplete t c = t := by
  unfold veComplete
  simp only [h]

theorem fabHead_empty {t : State} {c : CoreId} (h : qOf t c .fab = []) : fabHead t c = none := by
  unfold fabHead
  rw [h, ite_self]

theorem fabStart_empty {t : State} {c : CoreId} (h : qOf t c .fab = []) : fabStart t c = t := by
  unfold fabStart
  rw [fabHead_empty h]

theorem slotSync_empty {t : State} {c : CoreId} (h : qOf t c .fab = []) : slotSync t c = t := by
  unfold slotSync
  rw [fabHead_empty h]

theorem idleNow_iff {s : State} {c : CoreId} {now : Bool} {u : UnitSel} :
    idleNow s c now u = true ↔ now = true ∧ unitIdle (s.unit c) u = true := Bool.and_eq_true_iff

/-- Where the units are as before the issue, none of them runs anything. -/
theorem follow_still {o : Op} {c : CoreId} {now : Bool} {s0 t : State} (h : t.unit c = s0.unit c) :
    follow o c now s0 t = t := by
  have hvec : (if idleNow s0 c now .ve then veComplete (veStart t c) c else t) = t := by
    split
    · next hi =>
      obtain ⟨hq, hrun⟩ := unitIdle_ve (idleNow_iff.mp hi).2
      rw [← h] at hq hrun
      rw [veStart_empty hq, veComplete_empty hrun]
    · rfl
  cases hi : idleNow s0 c now .fab with
  | false => cases o <;> simp only [follow, hvec, hi, Bool.false_eq_true, if_false, Bool.not_false, if_true]
  | true =>
    obtain ⟨hq, hnone⟩ := unitIdle_fab (idleNow_iff.mp hi).2
    rw [← h] at hq hnone
    have hstart : fabStart t c = t := fabStart_empty hq
    have hslot : slotSync t c = t := slotSync_empty hq
    cases o <;> simp only [follow, hvec, hslot, hi, hstart, hnone, Bool.not_true, Bool.false_eq_true, if_false, if_true]

/-- A command whose issue leaves a state with the units as before does nothing else. -/
theorem exec_instrOf_still {o : Op} {c : CoreId} {now : Bool} {us : List Upset} {s t : State}
    (h : ∀ act, issue s c us o act = t) (hu : t.unit c = s.unit c) : exec (instrOf o c now us) s = .next t := by
  obtain ⟨act, hact⟩ := exec_instrOf o c now us s
  rw [hact, h act, follow_still hu]

/-- Without `now` a command is the issue of its operation. -/
theorem exec_instrOf_issue (o : Op) (c : CoreId) (us : List Upset) (s : State) :
    ∃ act, exec (instrOf o c false us) s = .next (issue s c us o act) := by
  obtain ⟨act, hact⟩ := exec_instrOf o c false us s
  refine ⟨act, hact.trans (congrArg _ ?_)⟩
  cases o <;> rfl

theorem strike_unit (s : State) (us : List Upset) (c : CoreId) : (strike s us).unit c = s.unit c := by
  rw [State.unit, strike_units]
  rfl

/-- Settles O10: the issue only retires, and no unit has anything to run that it had not before. -/
theorem falsePredicateOnlyAdvances : Obligations.FalsePredicateOnlyAdvances := by
  unfold Obligations.FalsePredicateOnlyAdvances
  intro o c now us s w r hat hpred hflow
  have hfree : (r.core c).Free := by
    obtain ⟨-, hfetch, -⟩ := hat
    obtain ⟨hrun, hblocked⟩ := fetch_running hfetch
    exact ⟨hrun, hblocked, hflow⟩
  exact exec_instrOf_still (fun act => (issue_skipped hat hpred).trans (retire_issued hfree)) (strike_unit s us c)

/-! ### No issue, and a bad fetch (R30, R33) -/

theorem fetch_idle {k : Core} (h : k.run ≠ .running ∨ k.blocked.isSome) : fetch k = .idle := if_pos h

section
variable {s : State} {c : CoreId} {us : List Upset} {o : Op} {act : State → W128 → State}

theorem issue_none (h : ((strike s us).core c).run ≠ .running ∨ ((strike s us).core c).blocked.isSome ∨
    (strike s us).domainOn c.val = false) : issue s c us o act = strike s us := by
  have hidle : (if (strike s us).domainOn c.val then fetch ((strike s us).core c) else .idle) = .idle := by
    split
    · next hon =>
      obtain hrun | hblocked | hoff := h
      · exact fetch_idle (.inl hrun)
      · exact fetch_idle (.inr hblocked)
      · exact absurd hon (by simp [hoff])
    · rfl
  unfold issue
  simp only [hidle]

/-- A fetch that finds no word to issue halts the core by a fault. -/
theorem issue_beyond (hon : (strike s us).domainOn c.val = true) (h : fetch ((strike s us).core c) = .beyond) :
    issue s c us o act = faultHaltEv (strike s us) c 0xF001#16 ((strike s us).core c).pc 0x1001 0 := by
  unfold issue
  simp only [hon, if_true, h]

theorem issue_uncorr (hon : (strike s us).domainOn c.val = true) (h : fetch ((strike s us).core c) = .uncorr) :
    issue s c us o act = faultHaltEv (strike s us) c 0xF002#16 ((strike s us).core c).pc 0x1003 0 := by
  unfold issue
  simp only [hon, if_true, h]

theorem issue_illegal {corrected : Bool} (hon : (strike s us).domainOn c.val = true)
    (h : fetch ((strike s us).core c) = .illegal corrected) : issue s c us o act =
      faultHaltEv (fetchCorrected (strike s us) c corrected) c 0xF001#16 ((strike s us).core c).pc 0x1001 0 := by
  unfold issue
  simp only [hon, if_true, h]

/-- What the count and the event of a corrected fetch leave as it was (R30). -/
theorem fetchCorrected_quiet (r : State) (c : CoreId) (corrected : Bool) : Quiet r (fetchCorrected r c corrected) := by
  unfold fetchCorrected
  split
  · exact State.coreEv_quiet (State.count_quiet (quiet_refl r))
  · exact quiet_refl r

/-- A fault after no more than an event halts the state before it. -/
theorem Faulted.of_quiet {r s t : State} {c : CoreId} {st : BitVec 16} {pc code : Nat} (h : Faulted r t c st pc code)
    (hq : Quiet s r) : Faulted s t c st pc code := by
  have hcore : ∀ d, r.core d = s.core d := fun d => by rw [State.core, hq]; rfl
  exact h.of_agrees (by rw [State.unit, hq]; rfl) (by rw [hcore]) (by rw [hcore]) (by rw [hcore]) (by rw [hq]) (by rw [hq])
    fun d _ => hcore d

end

/-- Settles O11: without a fetch the issue leaves the struck state; a bad fetch is a fault halt of it. -/
theorem noIssueAndBadFetch : Obligations.NoIssueAndBadFetch := by
  unfold Obligations.NoIssueAndBadFetch
  refine ⟨?_, ?_⟩
  · intro o c now us s r h
    exact exec_instrOf_still (fun _ => issue_none h) (strike_unit s us c)
  intro o c us s r k hon hrun hblocked halts
  have hruns : ¬ (k.run ≠ .running ∨ k.blocked.isSome = true) := by simp [hrun, hblocked]
  obtain ⟨act, hact⟩ := exec_instrOf_issue o c us s
  refine ⟨fun hpc => ?_, fun hpc herr => ?_, fun hpc herr hword => ?_⟩
  · have hf : fetch k = .beyond := by unfold fetch; rw [if_neg hruns, if_pos hpc]
    exact ⟨_, hact, issue_beyond (act := act) (o := o) hon hf ▸ faultHaltEv_faulted _ _ _ hrun (by decide) (by decide)⟩
  · have hf : fetch k = .uncorr := by unfold fetch; rw [if_neg hruns, if_neg (Nat.not_le.mpr hpc), if_pos herr]
    exact ⟨_, hact, issue_uncorr (act := act) (o := o) hon hf ▸ faultHaltEv_faulted _ _ _ hrun (by decide) (by decide)⟩
  · have hf : fetch k = .illegal (tget k.imemErr k.pc == some false) := by
      unfold fetch
      rw [if_neg hruns, if_neg (Nat.not_le.mpr hpc), if_neg herr]
      simp only [hword]
    have hq := fetchCorrected_quiet r c (tget k.imemErr k.pc == some false)
    have hrun' : ((fetchCorrected r c (tget k.imemErr k.pc == some false)).core c).run = .running := by
      rw [State.core, hq]; exact hrun
    exact ⟨_, hact, issue_illegal (act := act) (o := o) hon hf ▸
      (faultHaltEv_faulted _ _ _ hrun' (by decide) (by decide)).of_quiet hq⟩

end Sys2Proof.Machine
end

section
/-!
PROOF. HALT with work outstanding (O13): the drain that it starts gives up a STOP that was asked for during a restore, so
that one more part of the core changes than the statement allows.
-/

namespace Sys2Proof.Machine

/-- A drain that has to wait leaves the core DRAINING, with a STOP asked for and a single step given up (R57). -/
theorem startDrain_waits {s : State} {c : CoreId} {d : Drain} (h : drainDone (s.unit c) d = false) :
    startDrain s c d = s.setCore c { s.core c with run := .draining d, stopReq := false, stepping := false } :=
  settle_waits (by simp) h

/-- What HALT does where it acts (R35, R57). -/
def haltAct (c : CoreId) (s : State) (w : W128) : State :=
  startDrain (s.setCore c { s.core c with pc := (s.core c).pc + 1 }) c (.halt (BitVec.ofNat 16 (fld w 64 16)))

theorem exec_halt_acts {s : State} {c : CoreId} {us : List Upset} {w : W128} (h : Issues (strike s us) c w .halt) :
    exec (.halt c us) s = .next (haltAct c (issued (strike s us) c) w) :=
  congrArg Host.Outcome.next (issue_acts (act := haltAct c) h (by decide))

/-- HALT with unit instructions outstanding (R57). -/
theorem haltAct_waits {r : State} {c : CoreId} (w : W128) (h : drained (r.unit c) = false) :
    haltAct c (issued r c) w = r.setCore c { r.core c with
      lastMu0 := none, pc := (r.core c).pc + 1, run := .draining (.halt (BitVec.ofNat 16 (fld w 64 16))), stopReq := false,
      stepping := false } := by
  refine (startDrain_waits (d := .halt _) ?_).trans ?_
  · exact h
  · simp [issued, State.setCore_setCore]

/-- A core at a HALT with a vector operation still running, whose STOP was asked for before. -/
def haltWithStopAsked : State :=
  { State.reset with
    regs := [(pwrBase + 0x60, 0xFFFFFFFFFFFFFFFF#64)]
    cores := State.reset.cores.set 0 { run := .running, stopReq := true, imem := [(0, 0x100#128)] }
    units := State.reset.units.set 0 { ve := [{ pc := 0 }] }
    power := { boot := .up } }

theorem haltWithStopAsked_issues : Issues haltWithStopAsked 0 0x100#128 .halt := by
  unfold Issues AtPc PredTrue Flowing
  decide +kernel

/-- Refutes O13: on a running core whose `stopReq` is set, HALT with work outstanding clears it, where the statement leaves
it as it was. -/
theorem not_haltAndYieldResult : ¬ Obligations.HaltAndYieldResult := by
  unfold Obligations.HaltAndYieldResult
  rintro ⟨h, -⟩
  have hissues : Issues (strike haltWithStopAsked []) 0 0x100#128 .halt := haltWithStopAsked_issues
  have hbusy : drained ((strike haltWithStopAsked []).unit 0) = false := by decide +kernel
  have hstated := (h 0 [] haltWithStopAsked 0x100#128 hissues).1 hbusy
  rw [exec_halt_acts hissues, haltAct_waits _ hbusy] at hstated
  have hcore := congrArg (fun t : State => (t.core 0).stopReq) (Host.Outcome.next.inj hstated)
  simp only [State.core_setCore_self] at hcore
  exact absurd hcore (by decide +kernel)

end Sys2Proof.Machine
end

section
/-!
PROOF. The entry of a unit instruction into its queue (O14): one action for every operation that a unit runs, and the
pairing of a matrix pass (R189).
-/

namespace Sys2Proof.Machine

/-- The unit queue that an operation other than a pass goes to (R46). -/
def Op.queue : Op → Option UnitSel
  | .vld | .vst | .vadd | .vsub | .vmul | .vfma | .vmax | .vmin | .vcvt | .vquant | .vdeq | .vhad | .vred | .vcbld | .vhist
  | .vste | .vfix | .vaddx | .vsel | .vbcast | .vmovs => some .ve
  | .xferCopy => some .dma
  | .qopPush | .qopPop | .qopDrop | .qopStat | .qopCommit | .qopCancel | .dispRoute | .dispCommit | .dispCancel | .dispStat
  | .signal | .slotFill | .slotDrain => some .fab
  | _ => none

theorem destOf_queue {w : W128} {o : Op} {u : UnitSel} (hcls : fClass w = o.cls) (h : destOf w o = some u) (ho : o ≠ .pass) :
    o.queue = some u := by
  unfold destOf at h
  rw [hcls] at h
  cases o
  case pass => exact absurd rfl ho
  all_goals exact h

theorem destOf_pass {w : W128} {u : UnitSel} (hcls : fClass w = 1) (h : destOf w .pass = some u) :
    u = if mUnit w = 0 then .mu0 else .mu1 := by
  unfold destOf at h
  rw [hcls] at h
  exact (Option.some.inj h).symm

/-- The core once an operation has left its write of SD outstanding (R47). -/
def Core.owing (k : Core) (o : Op) (w : W128) : Core :=
  { k with pendSd := if (o = .vred ∨ o = .vmovs) ∧ vSd w ≠ 0 then k.pendSd ++ [vSd w] else k.pendSd }

/-- The entry of an instruction in its queue: its index, its word and the scalar registers as they stand (R46, R47). -/
def Core.entry (k : Core) (w : W128) : Entry := { pc := k.pc, word := w, s := k.snap }

/-- The state with an entry added at the end of a unit queue. -/
def addEntry (s : State) (c : CoreId) (u : UnitSel) (e : Entry) : State := setQ s c u (qOf s c u ++ [e])

/-- What an operation other than a pass does where it acts: it enters its queue, and issue goes on (R46). -/
def queueAct (o : Op) (u : UnitSel) (c : CoreId) (s : State) (w : W128) : State :=
  let s := enqueue s c w u none
  retire (if (o = .vred ∨ o = .vmovs) ∧ vSd w ≠ 0 then
    s.setCore c { s.core c with pendSd := (s.core c).pendSd ++ [vSd w] } else s) c

theorem exec_queued {o : Op} {u : UnitSel} (h : o.queue = some u) (c : CoreId) (us : List Upset) (s : State) :
    exec (instrOf o c false us) s = .next (issue s c us o (queueAct o u c)) := by
  cases o <;> cases h <;> rfl

theorem enqueue_setCore (r : State) (c : CoreId) (k : Core) (w : W128) (u : UnitSel)
    (after : Option (Nat × W128 × List W64)) :
    enqueue (r.setCore c k) c w u after = (addEntry r c u { k.entry w with after := after }).setCore c k := by
  unfold enqueue
  rw [State.core_setCore_self]
  rfl

theorem queueAct_enters (o : Op) (u : UnitSel) (r : State) (c : CoreId) (w : W128) {k : Core} (hk : k.Free) :
    queueAct o u c (r.setCore c k) w =
      (addEntry r c u (k.entry w)).setCore c (loopNext (k.owing o w) k.pc) := by
  have hfree : (k.owing o w).Free := hk
  unfold queueAct
  rw [enqueue_setCore]
  simp only [State.core_setCore_self, State.setCore_setCore, ← apply_ite (State.setCore _ c)]
  have howing : (if (o = .vred ∨ o = .vmovs) ∧ vSd w ≠ 0 then { k with pendSd := k.pendSd ++ [vSd w] } else k) =
      k.owing o w := by
    unfold Core.owing
    split <;> rfl
  rw [howing, retire_setCore _ c hfree]
  rfl

/-! ### Matrix passes (R189) -/

@[simp] theorem qOf_setCore (s : State) (c : CoreId) (k : Core) (d : CoreId) (u : UnitSel) :
    qOf (s.setCore c k) d u = qOf s d u := rfl

theorem qOf_setQ_self (s : State) (c : CoreId) (u : UnitSel) (l : List Entry) : qOf (setQ s c u l) c u = l := by
  unfold qOf setQ
  rw [State.unit_setUnit_self]
  exact Vector.getElem_set_self _

theorem unitIx_ne {u v : UnitSel} (h : v ≠ u) : (unitIx u).val ≠ (unitIx v).val := by
  revert h
  cases u <;> cases v <;> simp [unitIx]

theorem qOf_setQ_other (s : State) (c : CoreId) {u v : UnitSel} (l : List Entry) (h : v ≠ u) :
    qOf (setQ s c u l) c v = qOf s c v := by
  unfold qOf setQ
  rw [State.unit_setUnit_self]
  exact Vector.getElem_set_ne (unitIx u).isLt (unitIx v).isLt (unitIx_ne h)

theorem qOf_addEntry (r : State) (c : CoreId) (u : UnitSel) (e : Entry) (k : Core) :
    qOf ((addEntry r c u e).setCore c k) c u = qOf r c u ++ [e] := qOf_setQ_self r c u _

/-- A pass that is not paired stays as it is. -/
theorem pairUp_unpaired {s : State} {c : CoreId} {q1 : List Entry} {e : Entry} (hq : qOf s c .mu1 = q1 ++ [e])
    (h : ∀ h, pairing e ≠ some (some h)) : pairUp s c = s := by
  unfold pairUp
  rw [hq, List.reverse_concat]
  split
  · next he =>
    cases he
    split
    · next hp => exact absurd hp (h _)
    · rfl
  · rfl

/-- A pass that is paired marks itself and the last pass of the other queue. -/
theorem pairUp_paired {s : State} {c : CoreId} {q0 q1 : List Entry} {m e : Entry} {h : Nat}
    (hq0 : qOf s c .mu0 = q0 ++ [m]) (hq1 : qOf s c .mu1 = q1 ++ [e]) (hp : pairing e = some (some h)) :
    pairUp s c = setQ (setQ s c .mu0 (q0 ++ [{ m with mate := true }])) c .mu1 (q1 ++ [{ e with mate := true }]) := by
  unfold pairUp
  simp only [hq0, hq1, List.reverse_concat, hp, List.reverse_cons, List.reverse_reverse]

/-- What a pass does where it acts (R46, R189). -/
def passAct (prev : Option (Nat × W128 × List W64)) (c : CoreId) (s : State) (w : W128) : State :=
  if mUnit w = 0 then retire (enqueue s c w .mu0 none) c else retire (pairUp (enqueue s c w .mu1 prev) c) c

theorem exec_pass (c : CoreId) (us : List Upset) (s : State) :
    exec (.pass c us) s = .next (issue s c us .pass (passAct (s.core c).lastMu0 c)) := rfl

theorem mUnit_one {w : W128} (h : mUnit w ≠ 0) : mUnit w = 1 := by
  have : mUnit w < 2 := fld_lt w 16 1
  omega

/-- The MU0 pass issued last, once a pass has issued (R189). -/
def Core.markPass (k : Core) (w : W128) : Core :=
  { k with lastMu0 := if mUnit w = 0 then some (k.pc, w, k.snap) else none }

section
variable {r : State} {c : CoreId} {w : W128} {k : Core}

theorem passAct_mu0 (prev : Option (Nat × W128 × List W64)) (hk : k.Free) (h : mUnit w = 0) :
    passAct prev c (r.setCore c k) w = (addEntry r c .mu0 (k.entry w)).setCore c (loopNext k k.pc) := by
  unfold passAct
  rw [if_pos h, enqueue_setCore, retire_setCore _ c hk]
  rfl

theorem passAct_unpaired {prev : Option (Nat × W128 × List W64)} (hk : k.Free) (h : mUnit w ≠ 0)
    (hp : ∀ x, pairing { k.entry w with after := prev } ≠ some (some x)) : passAct prev c (r.setCore c k) w =
      (addEntry r c .mu1 { k.entry w with after := prev }).setCore c (loopNext k k.pc) := by
  unfold passAct
  rw [if_neg h, enqueue_setCore, pairUp_unpaired (qOf_addEntry r c .mu1 _ k) hp, retire_setCore _ c hk]

theorem passAct_paired {prev : Option (Nat × W128 × List W64)} {x : Nat} {q0 : List Entry} {m : Entry} (hk : k.Free)
    (h : mUnit w ≠ 0) (hp : pairing { k.entry w with after := prev } = some (some x)) (hq : qOf r c .mu0 = q0 ++ [m]) :
    passAct prev c (r.setCore c k) w =
      (r.setUnit c { r.unit c with
        q := ((r.unit c).q.set (unitIx .mu0) (q0 ++ [{ m with mate := true }])).set (unitIx .mu1)
          ((r.unit c).q[unitIx .mu1] ++ [{ k.entry w with after := prev, mate := true }]) }).setCore c
        (loopNext k k.pc) := by
  have hq0 : qOf ((addEntry r c .mu1 { k.entry w with after := prev }).setCore c k) c .mu0 = q0 ++ [m] :=
    (qOf_setQ_other r c _ (by decide)).trans hq
  unfold passAct
  rw [if_neg h, enqueue_setCore, pairUp_paired hq0 (qOf_addEntry r c .mu1 _ k) hp]
  have hset : ∀ (v : Vector (List Entry) 5) (x y z : List Entry), ((v.set 1 x).set 0 y).set 1 z = (v.set 0 y).set 1 z :=
    fun v x y z => by rw [Vector.set_comm (i := 1) (j := 0) _ _ (by decide), Vector.set_set]
  have hstate : setQ (setQ ((addEntry r c .mu1 { k.entry w with after := prev }).setCore c k) c .mu0
      (q0 ++ [{ m with mate := true }])) c .mu1 (qOf r c .mu1 ++ [{ k.entry w with after := prev, mate := true }]) =
      (r.setUnit c { r.unit c with
        q := ((r.unit c).q.set (unitIx .mu0) (q0 ++ [{ m with mate := true }])).set (unitIx .mu1)
          ((r.unit c).q[unitIx .mu1] ++ [{ k.entry w with after := prev, mate := true }]) }).setCore c k := by
    unfold setQ addEntry setQ
    simp only [State.unit_setCore, State.unit_setUnit_self]
    show (((r.setUnit c _).setUnit c _).setUnit c _).setCore c k = _
    rw [State.setUnit_setUnit, State.setUnit_setUnit]
    exact congrArg (fun q => (r.setUnit c { r.unit c with q := q }).setCore c k) (hset _ _ _ _)
  exact (congrArg (fun t => retire t c) hstate).trans (retire_setCore _ c hk)

end

theorem issue_pass {s : State} {c : CoreId} {us : List Upset} {w : W128} {act : State → W128 → State}
    (h : Issues (strike s us) c w .pass) :
    issue s c us .pass act = act ((strike s us).setCore c (((strike s us).core c).markPass w)) w := by
  obtain ⟨hat, hpred, -⟩ := h
  rw [issue_taken hat hpred]
  simp [Core.markPass]

/-- Without a pass before it no entry is paired. -/
theorem pairing_alone (k : Core) (w : W128) : pairing (k.entry w) = none := rfl

/-- Settles O14: the action of the operation that issues adds its entry and goes on, and an MU1 pass pairs itself then. -/
theorem unitInstructionEntersItsQueue : Obligations.UnitInstructionEntersItsQueue := by
  unfold Obligations.UnitInstructionEntersItsQueue
  intro o u c us s w r k e k' h hdest
  have hfree : k.Free := issues_free h
  have hcls := decodeOp_cls (issues_decode h)
  by_cases ho : o = .pass
  · subst ho
    have hact : exec (instrOf .pass c false us) s =
        .next (passAct (s.core c).lastMu0 c (r.setCore c (k.markPass w)) w) :=
      congrArg Host.Outcome.next (issue_pass h)
    have hmark : (k.markPass w).Free := hfree
    have hk' : k' = k.markPass w := by simp [k', Core.markPass]
    obtain rfl := destOf_pass hcls hdest
    rw [hact, hk']
    by_cases hu : mUnit w = 0
    · have he : e = k.entry w := by simp [e, Core.entry, hu]
      rw [if_pos hu, he, passAct_mu0 _ hmark hu]
      exact ⟨fun _ => rfl, fun _ _ _ hp => absurd hp (by simp [pairing_alone])⟩
    · have he : e = { k.entry w with after := (s.core c).lastMu0 } := by simp [e, Core.entry, mUnit_one hu]
      rw [if_neg hu, he]
      exact ⟨fun hp => congrArg _ (passAct_unpaired hmark hu hp),
        fun x q0 m hp hq => congrArg _ (passAct_paired hmark hu hp hq)⟩
  · have hact : exec (instrOf o c false us) s = .next (queueAct o u c (issued r c) w) :=
      (exec_queued (destOf_queue hcls hdest ho) c us s).trans (congrArg _ (issue_acts h ho))
    have he : e = k.entry w := by simp [e, Core.entry, ho]
    have hk' : k' = ({ k with lastMu0 := none } : Core).owing o w := by simp [k', Core.owing, ho]
    rw [hact, he, hk', issued, queueAct_enters o u r c w (k := { k with lastMu0 := none }) hfree]
    exact ⟨fun _ => rfl, fun _ _ _ hp => absurd hp (by simp [pairing_alone])⟩

end Sys2Proof.Machine
end

section
/-!
PROOF. The blocking SYNC instructions (O18): the instruction blocks the core, and the test that every change of a semaphore, a
guard or a unit makes either lets it go at once or leaves it blocked (R51, R53, R227).
-/

namespace Sys2Proof.Machine

theorem settle_running {s : State} {c : CoreId} (h : (s.core c).run = .running) : settle s c = s := by
  unfold settle
  rw [h]

/-- The units of a core whose wait is over (R229). -/
def Units.heard (k : Units) : Units := { k with told := clrBit k.told 5 }

section
variable {s : State} {c : CoreId} {k : Core}

/-- A core that waits and is let go: PT is written, and issue goes on behind the instruction (R53, R229). -/
theorem unblock_goes {b : Blocked} (hs : s.core c = { k with blocked := some b }) (hk : k.Free) (pt : Nat) (ok : Bool) :
    unblock s c pt ok = (s.setUnit c (s.unit c).heard).setCore c (loopNext (k.pset pt ok) k.pc) := by
  have hclear : ({ s.core c with blocked := none } : Core) = k := by
    obtain ⟨-, hblocked, -⟩ := hk
    rw [hs, ← hblocked]
  unfold unblock
  simp only [State.core_setUnit, hclear]
  rw [retire_setCore _ c (hk.pset pt ok), Core.pset_pc]
  rfl

/-- The state in which an instruction has blocked the core. -/
def blockedAt (s : State) (c : CoreId) (k : Core) (b : Blocked) : State := s.setCore c { k with blocked := some b }

@[simp] theorem blockedAt_core (s : State) (c : CoreId) (k : Core) (b : Blocked) :
    (blockedAt s c k b).core c = { k with blocked := some b } := State.core_setCore_self s c _

/-- The state in which a blocking instruction of a core `k` has completed. -/
def letGo (s : State) (c : CoreId) (k : Core) (pt : Nat) : State :=
  (s.setUnit c (s.unit c).heard).setCore c (loopNext (k.pset pt true) k.pc)

theorem unblock_blockedAt (b : Blocked) (hk : k.Free) (pt : Nat) : unblock (blockedAt s c k b) c pt true = letGo s c k pt := by
  rw [unblock_goes (blockedAt_core s c k b) hk]
  exact State.setCore_setCore (s.setUnit c (s.unit c).heard) c _ _

theorem settle_letGo (hk : k.Free) (pt : Nat) : settle (letGo s c k pt) c = letGo s c k pt := by
  refine settle_running ?_
  obtain ⟨hrun, -⟩ := (hk.pset pt true).loopNext k.pc
  rw [letGo, State.core_setCore_self]
  exact hrun

theorem settle_blockedAt (b : Blocked) (hk : k.Free) : settle (blockedAt s c k b) c = blockedAt s c k b := by
  refine settle_running ?_
  rw [blockedAt_core]
  exact hk.1

/-! ### WAIT (R53) -/

theorem semSet_eq (s : State) (c : CoreId) (i : Fin 64) (v : BitVec 16) :
    semSet s c i.val v = s.setLoc c { s.loc c with sems := (s.loc c).sems.set i v } := by
  unfold semSet
  rw [fin?_val]

theorem semGet_eq (l : Local) (i : Fin 64) : semGet l i.val = l.sems[i] := by
  unfold semGet
  rw [fin?_val]

theorem wake_wait_short (hk : k.Free) {sem v pt : Nat} (h : (semGet (s.loc c) sem).toNat < v) :
    wake (blockedAt s c k (.wait sem v pt)) c = blockedAt s c k (.wait sem v pt) := by
  unfold wake
  simp only [blockedAt_core, hk.1, if_true]
  split
  · next hm => exact absurd hm (Nat.not_le.mpr h)
  · exact settle_blockedAt _ hk

theorem wake_wait_met (hk : k.Free) {sem v pt : Nat} (h : v ≤ (semGet (s.loc c) sem).toNat) :
    wake (blockedAt s c k (.wait sem v pt)) c =
      letGo (semSet s c sem (BitVec.ofNat 16 ((semGet (s.loc c) sem).toNat - v))) c k pt := by
  have hset : ∀ x, semSet (blockedAt s c k (.wait sem v pt)) c sem x = blockedAt (semSet s c sem x) c k (.wait sem v pt) := by
    intro x
    unfold semSet blockedAt
    split <;> rfl
  unfold wake
  simp only [blockedAt_core, hk.1, if_true]
  split
  · rw [hset, unblock_blockedAt _ hk, settle_letGo hk]
    rfl
  · next hm => exact absurd h hm

/-! ### FENCE (R51) -/

/-- What a FENCE waits for: the units it names, and with FAB the fabric queue, hold nothing (R51). -/
def fenceMet (u : Units) (units : Nat) (fab : Bool) : Prop :=
  (∀ x ∈ [(0, UnitSel.mu0), (1, .mu1), (2, .ve), (3, .dma)], units.testBit x.1 = true → unitIdle u x.2 = true) ∧
  (fab = true → unitIdle u .fab = true)

theorem fenceMet_iff (u : Units) (units : Nat) (fab : Bool) : fenceMet u units fab ↔
    ((!units.testBit 0 || unitIdle u .mu0) && (!units.testBit 1 || unitIdle u .mu1) &&
     (!units.testBit 2 || unitIdle u .ve) && (!units.testBit 3 || unitIdle u .dma) && (!fab || unitIdle u .fab)) = true := by
  unfold fenceMet
  simp only [List.forall_mem_cons, List.not_mem_nil, false_imp_iff, forall_true_iff, and_true]
  simp only [imp_iff_not_or, Bool.and_eq_true, Bool.or_eq_true, Bool.not_eq_true', Bool.not_eq_true, and_assoc]

theorem wake_fence_met (hk : k.Free) {units : Nat} {fab : Bool} (h : fenceMet (s.unit c) units fab) :
    wake (blockedAt s c k (.fence units fab)) c = letGo s c k 0 := by
  unfold wake
  simp only [blockedAt_core, hk.1, if_true]
  split
  · rw [unblock_blockedAt _ hk, settle_letGo hk]
  · next hm => exact absurd ((fenceMet_iff _ _ _).mp h) hm

theorem wake_fence_short (hk : k.Free) {units : Nat} {fab : Bool} (h : ¬ fenceMet (s.unit c) units fab) :
    wake (blockedAt s c k (.fence units fab)) c = blockedAt s c k (.fence units fab) := by
  unfold wake
  simp only [blockedAt_core, hk.1, if_true]
  split
  · next hm => exact absurd ((fenceMet_iff _ _ _).mpr hm) h
  · exact settle_blockedAt _ hk

/-! ### SLOT_WAITF and SLOT_WAITE (R227) -/

theorem wake_slot_met (hk : k.Free) {g pt : Nat} {f : Bool} (h : guardFilled s c g = f) :
    wake (blockedAt s c k (.slot g f pt)) c = letGo s c k pt := by
  unfold wake
  simp only [blockedAt_core, hk.1, if_true]
  split
  · rw [unblock_blockedAt _ hk, settle_letGo hk]
  · next hm => exact absurd (beq_iff_eq.mpr h) hm

theorem wake_slot_short (hk : k.Free) {g pt : Nat} {f : Bool} (h : guardFilled s c g ≠ f) :
    wake (blockedAt s c k (.slot g f pt)) c = blockedAt s c k (.slot g f pt) := by
  unfold wake
  simp only [blockedAt_core, hk.1, if_true]
  split
  · next hm => exact absurd (beq_iff_eq.mp hm) h
  · exact settle_blockedAt _ hk

end

/-! ### The instructions -/

section
variable {s : State} {c : CoreId} {us : List Upset} {w : W128}

/-- A blocking instruction blocks the core, and what it waits for is tested (R51, R53, R227). -/
def blockAct (b : W128 → Blocked) (c : CoreId) (s : State) (w : W128) : State :=
  wake (s.setCore c { s.core c with blocked := some (b w) }) c

theorem blockAct_issued (b : W128 → Blocked) (r : State) :
    blockAct b c (issued r c) w = wake (blockedAt r c { r.core c with lastMu0 := none } (b w)) c := by
  unfold blockAct
  rw [issued_core, issued_setCore]
  rfl

theorem issue_blocks {o : Op} (b : W128 → Blocked) (h : Issues (strike s us) c w o) (ho : o ≠ .pass) :
    issue s c us o (blockAct b c) =
      wake (blockedAt (strike s us) c { (strike s us).core c with lastMu0 := none } (b w)) c := by
  rw [issue_acts h ho, blockAct_issued]

theorem exec_wait (h : Issues (strike s us) c w .wait) : exec (.wait c us) s = .next
    (wake (blockedAt (strike s us) c { (strike s us).core c with lastMu0 := none } (.wait (sySem w) (syValue w) (syPt w))) c) :=
  congrArg Host.Outcome.next (issue_blocks (fun w => .wait (sySem w) (syValue w) (syPt w)) h (by decide))

theorem exec_fence (h : Issues (strike s us) c w .fence) : exec (.fence c us) s = .next
    (wake (blockedAt (strike s us) c { (strike s us).core c with lastMu0 := none } (.fence (syUnits w) (syFab w))) c) :=
  congrArg Host.Outcome.next (issue_blocks (fun w => .fence (syUnits w) (syFab w)) h (by decide))

theorem exec_slotWaitf (h : Issues (strike s us) c w .slotWaitf) : exec (.slotWaitf c us) s = .next
    (wake (blockedAt (strike s us) c { (strike s us).core c with lastMu0 := none } (.slot (sySlot w) true (syPt w))) c) :=
  congrArg Host.Outcome.next (issue_blocks (fun w => .slot (sySlot w) true (syPt w)) h (by decide))

theorem exec_slotWaite (h : Issues (strike s us) c w .slotWaite) : exec (.slotWaite c us) s = .next
    (wake (blockedAt (strike s us) c { (strike s us).core c with lastMu0 := none } (.slot (sySlot w) false (syPt w))) c) :=
  congrArg Host.Outcome.next (issue_blocks (fun w => .slot (sySlot w) false (syPt w)) h (by decide))

theorem retire_setLoc_issued {r : State} (l : Local) (h : (r.core c).Free) : retire ((issued r c).setLoc c l) c =
    (r.setLoc c l).setCore c (loopNext { r.core c with lastMu0 := none } (r.core c).pc) :=
  retire_setCore (r.setLoc c l) c (k := { r.core c with lastMu0 := none }) h

theorem exec_set {i : Fin 64} (h : Issues (strike s us) c w .set) (hi : i.val = sySem w) : exec (.set c us) s = .next
    (((strike s us).setLoc c { (strike s us).loc c with
        sems := ((strike s us).loc c).sems.set i (BitVec.ofNat 16 (syValue w)) }).setCore c
      (loopNext { (strike s us).core c with lastMu0 := none } ((strike s us).core c).pc)) := by
  show Host.Outcome.next (issue s c us .set fun s w => retire (semSet s c (sySem w) (BitVec.ofNat 16 (syValue w))) c) = _
  rw [issue_acts h (by decide), ← hi, semSet_eq]
  exact congrArg Host.Outcome.next (retire_setLoc_issued _ (issues_free h))

end

/-- Settles O18: each instruction completes or blocks by the test of what it waits for. -/
theorem blockingSyncResult : Obligations.BlockingSyncResult := by
  unfold Obligations.BlockingSyncResult
  intro c us s w r k u go block l met
  have hk : ∀ {o}, Issues r c w o → k.Free := fun h => issues_free h
  refine ⟨fun i hi => ⟨fun h => exec_set h hi, fun h hv => ?_, fun h hv => ?_⟩, fun h hm => ?_, fun h hm => ?_, fun h hg => ?_,
    fun h hg => ?_, fun h hg => ?_, fun h hg => ?_⟩
  · have hget : semGet (r.loc c) (sySem w) = l.sems[i] := by rw [← hi]; exact semGet_eq _ i
    have hsub : BitVec.ofNat 16 (l.sems[i].toNat - syValue w) = l.sems[i] - BitVec.ofNat 16 (syValue w) := by
      bv_omega
    rw [exec_wait h, wake_wait_met (hk h) (by rw [hget]; exact hv), hget, hsub, ← hi, semSet_eq]
    rfl
  · have hget : semGet (r.loc c) (sySem w) = l.sems[i] := by rw [← hi]; exact semGet_eq _ i
    rw [exec_wait h, wake_wait_short (hk h) (by rw [hget]; exact hv)]
    rfl
  · rw [exec_fence h, wake_fence_met (hk h) hm]
    rfl
  · rw [exec_fence h, wake_fence_short (hk h) hm]
    rfl
  · rw [exec_slotWaitf h, wake_slot_met (hk h) hg]
    rfl
  · rw [exec_slotWaitf h, wake_slot_short (hk h) (fun he => absurd (hg.symm.trans he) (by decide))]
    rfl
  · rw [exec_slotWaite h, wake_slot_met (hk h) hg]
    rfl
  · rw [exec_slotWaite h, wake_slot_short (hk h) (fun he => absurd (hg.symm.trans he) (by decide))]
    rfl

end Sys2Proof.Machine
end

section
/-!
SUPPORT. What no more than an event leaves as it was (R8), the head of the fabric queue (R48), and the guards of a core
(R227).
-/

namespace Sys2Proof.Machine

section
variable {s t : State} (h : Quiet s t)
include h

theorem Quiet.cores : t.cores = s.cores := by rw [h]
theorem Quiet.units : t.units = s.units := by rw [h]
theorem Quiet.locals : t.locals = s.locals := by rw [h]
theorem Quiet.queues : t.queues = s.queues := by rw [h]
theorem Quiet.dus : t.dus = s.dus := by rw [h]
theorem Quiet.gddr : t.gddr = s.gddr := by rw [h]
theorem Quiet.tier : t.tier = s.tier := by rw [h]
theorem Quiet.sec : t.sec = s.sec := by rw [h]
theorem Quiet.jobs : t.jobs = s.jobs := by rw [h]
theorem Quiet.power : t.power = s.power := by rw [h]
theorem Quiet.core (d : CoreId) : t.core d = s.core d := by rw [State.core, h.cores]; rfl
theorem Quiet.unit (d : CoreId) : t.unit d = s.unit d := by rw [State.unit, h.units]; rfl
theorem Quiet.loc (d : CoreId) : t.loc d = s.loc d := by rw [State.loc, h.locals]; rfl

end

theorem State.coreEv_quiet' (s : State) (c : CoreId) (code a0 a1 : Nat) : Quiet s (s.coreEv c code a0 a1) :=
  State.coreEv_quiet (quiet_refl s)

/-! ### Guards (R227) -/

theorem setGuard_cases (s : State) (c : CoreId) (g : Nat) (f : Bool) :
    (guardFilled s c g = f ∧ Quiet s (setGuard s c g f)) ∨
    setGuard s c g f = s.setLoc c { s.loc c with guards := putBit (s.loc c).guards g f } := by
  unfold setGuard
  dsimp only
  split
  · next h => exact .inl ⟨h, State.coreEv_quiet' s c _ _ _⟩
  · exact .inr rfl

theorem guardFilled_setGuard_self (s : State) (c : CoreId) {g : Nat} (f : Bool) (h : g < 4096) :
    guardFilled (setGuard s c g f) c g = f := by
  obtain ⟨hg, hq⟩ | ht := setGuard_cases s c g f
  · rw [guardFilled, hq.loc]
    exact hg
  · rw [ht, guardFilled, State.loc_setLoc_self, getLsbD_putBit _ _ _ _ h]
    simp

theorem guardFilled_setGuard_other (s : State) (c : CoreId) {g i : Nat} (f : Bool) (h : i ≠ g) :
    guardFilled (setGuard s c g f) c i = guardFilled s c i := by
  obtain ⟨-, hq⟩ | ht := setGuard_cases s c g f
  · rw [guardFilled, hq.loc]
    rfl
  · rw [ht, guardFilled, State.loc_setLoc_self]
    by_cases hg : g < 4096
    · rw [getLsbD_putBit _ _ _ _ hg, if_neg h]
      rfl
    · rw [putBit_beyond _ _ (Nat.not_lt.mp hg)]
      rfl

/-- All that the setting of a guard leaves as it was. -/
theorem setGuard_frame (s : State) (c : CoreId) (g : Nat) (f : Bool) :
    let t := setGuard s c g f
    t.cores = s.cores ∧ t.units = s.units ∧ t.queues = s.queues ∧ t.gddr = s.gddr ∧ t.tier = s.tier ∧ t.sec = s.sec ∧
    t.dus = s.dus ∧ t.loc c = { s.loc c with guards := (t.loc c).guards } ∧ ∀ d, d ≠ c → t.loc d = s.loc d := by
  intro t
  obtain ⟨-, hq⟩ | ht := setGuard_cases s c g f
  · exact ⟨hq.cores, hq.units, hq.queues, hq.gddr, hq.tier, hq.sec, hq.dus, by rw [hq.loc], fun d _ => hq.loc d⟩
  · have htc : t.loc c = { s.loc c with guards := putBit (s.loc c).guards g f } := by
      rw [show t = _ from ht, State.loc_setLoc_self]
    refine ⟨?_, ?_, ?_, ?_, ?_, ?_, ?_, by rw [htc], fun d hd => ?_⟩
    case refine_8 => rw [show t = _ from ht, State.loc_setLoc_other _ _ _ _ hd]
    all_goals rw [show t = _ from ht]; rfl

/-! ### The head of the fabric queue (R48) -/

theorem canStart_running {s : State} {c : CoreId} (hon : s.domainOn c.val = true) (h : (s.core c).run = .running) :
    canStart s c = true := by
  unfold canStart
  rw [hon, h]
  rfl

theorem fabHead_some {s : State} {c : CoreId} {e : Entry} {rest : List Entry} (hstart : canStart s c = true)
    (hfab : (s.unit c).fab = none) (hheld : (s.unit c).held = []) (hq : qOf s c .fab = e :: rest) :
    fabHead s c = some (e, rest) := by
  unfold fabHead
  rw [hstart, hfab, hheld, hq]
  rfl

theorem popHead_unit (s : State) (c : CoreId) (u : UnitSel) (rest : List Entry) : (popHead s c u rest).unit c =
    { s.unit c with q := (s.unit c).q.set (unitIx u) rest, told := clrBit (s.unit c).told (unitIx u).val } :=
  State.unit_setUnit_self s c _

theorem popHead_unit_other (s : State) {c d : CoreId} (u : UnitSel) (rest : List Entry) (h : d ≠ c) :
    (popHead s c u rest).unit d = s.unit d := State.unit_setUnit_other s c d _ h

theorem qOf_popHead_self (s : State) (c : CoreId) (u : UnitSel) (rest : List Entry) :
    qOf (popHead s c u rest) c u = rest := by
  unfold qOf
  rw [popHead_unit]
  exact Vector.getElem_set_self _

@[simp] theorem popHead_core (s : State) (c d : CoreId) (u : UnitSel) (rest : List Entry) :
    (popHead s c u rest).core d = s.core d := rfl

@[simp] theorem popHead_loc (s : State) (c d : CoreId) (u : UnitSel) (rest : List Entry) :
    (popHead s c u rest).loc d = s.loc d := rfl

end Sys2Proof.Machine
end

section
/-!
PROOF. The SYNC instructions of the fabric queue and the timeouts of waits (O19, O20, O21).
-/

namespace Sys2Proof.Machine

/-! ### SLOT_FILL and SLOT_DRAIN (R227) -/

/-- The operation that sets a guard to a state. -/
def slotOp (f : Bool) : Op := if f then .slotFill else .slotDrain

theorem slotSync_sets {s : State} {c : CoreId} {e : Entry} {rest : List Entry} {f : Bool}
    (hhead : fabHead s c = some (e, rest)) (hop : decodeOp e.pc e.word = some (slotOp f)) :
    slotSync s c = wake (setGuard (popHead s c .fab rest) c (sySlot e.word) f) c := by
  unfold slotSync
  rw [hhead]
  cases f <;> simp only [hop, slotOp, if_true, Bool.false_eq_true, if_false]

/-- What the SLOT_FILL or SLOT_DRAIN at the head of the fabric queue does, on a core that waits for nothing. -/
theorem slotSync_result {s : State} {c : CoreId} {e : Entry} {rest : List Entry} {f : Bool}
    (hhead : fabHead s c = some (e, rest)) (hop : decodeOp e.pc e.word = some (slotOp f)) (hrun : RunsFree s c) :
    slotSync s c = setGuard (popHead s c .fab rest) c (sySlot e.word) f := by
  have hcore : (setGuard (popHead s c .fab rest) c (sySlot e.word) f).core c = s.core c := by
    obtain ⟨hcores, -⟩ := setGuard_frame (popHead s c .fab rest) c (sySlot e.word) f
    rw [State.core, hcores]
    rfl
  rw [slotSync_sets hhead hop]
  exact wake_running (by rw [hcore]; exact hrun.1) (by rw [hcore]; exact hrun.2)

/-- The effect of a SLOT_FILL or SLOT_DRAIN: one guard takes the state, and nothing else changes but the queue (R227). -/
theorem slotSync_effect {s : State} {c : CoreId} {e : Entry} {rest : List Entry} {f : Bool}
    (hhead : fabHead s c = some (e, rest)) (hop : decodeOp e.pc e.word = some (slotOp f)) (hrun : RunsFree s c) :
    let t := slotSync s c
    guardFilled t c (sySlot e.word) = f ∧ (∀ g, g ≠ sySlot e.word → guardFilled t c g = guardFilled s c g) ∧
    qOf t c .fab = rest ∧ t.cores = s.cores ∧ (t.loc c).sp = (s.loc c).sp ∧ (t.loc c).sems = (s.loc c).sems ∧
    (∀ d, d ≠ c → t.loc d = s.loc d ∧ t.unit d = s.unit d) ∧ t.gddr = s.gddr ∧ t.queues = s.queues := by
  intro t
  have ht : t = setGuard (popHead s c .fab rest) c (sySlot e.word) f := slotSync_result hhead hop hrun
  have hframe := setGuard_frame (popHead s c .fab rest) c (sySlot e.word) f
  rw [← ht] at hframe
  obtain ⟨hcores, hunits, hqueues, hgddr, -, -, -, hloc, hlocs⟩ := hframe
  have hunit : ∀ d, t.unit d = (popHead s c .fab rest).unit d := fun d => by rw [State.unit, hunits]; rfl
  refine ⟨?_, fun g hg => ?_, ?_, hcores, by rw [hloc]; rfl, by rw [hloc]; rfl, fun d hd => ⟨hlocs d hd, ?_⟩,
    hgddr, hqueues⟩
  · rw [ht]
    exact guardFilled_setGuard_self _ c f (fld_lt _ 48 12)
  · rw [ht]
    exact guardFilled_setGuard_other _ c f hg
  · rw [qOf, hunit]
    exact qOf_popHead_self s c .fab rest
  · rw [hunit, popHead_unit_other _ _ _ hd]

/-- Where the unit of an operation other than a pass held nothing, the operation stands alone in its queue once it has
issued, and the core goes on. -/
def queuedAlone (r : State) (c : CoreId) (w : W128) (o : Op) (u : UnitSel) : State :=
  (addEntry r c u ((r.core c).entry w)).setCore c
    (loopNext (({ r.core c with lastMu0 := none } : Core).owing o w) (r.core c).pc)

theorem issue_queues {s : State} {c : CoreId} {us : List Upset} {w : W128} {o : Op} {u : UnitSel}
    (h : Issues (strike s us) c w o) (ho : o ≠ .pass) :
    issue s c us o (queueAct o u c) = queuedAlone (strike s us) c w o u := by
  rw [issue_acts h ho, issued, queueAct_enters o u _ c w (k := { (strike s us).core c with lastMu0 := none }) (issues_free h)]
  rfl

section
variable {r : State} {c : CoreId} {w : W128} {o : Op} {u : UnitSel}

theorem queuedAlone_core : (queuedAlone r c w o u).core c =
    loopNext (({ r.core c with lastMu0 := none } : Core).owing o w) (r.core c).pc := State.core_setCore_self _ c _

theorem queuedAlone_free (h : (r.core c).Free) : ((queuedAlone r c w o u).core c).Free := by
  rw [queuedAlone_core]
  exact Core.Free.loopNext (k := ({ r.core c with lastMu0 := none } : Core).owing o w) h _

theorem queuedAlone_runsFree (h : (r.core c).Free) : RunsFree (queuedAlone r c w o u) c := by
  obtain ⟨hrun, hblocked, -⟩ := queuedAlone_free (w := w) (o := o) (u := u) h
  exact ⟨hrun, hblocked⟩

theorem qOf_queuedAlone (h : qOf r c u = []) : qOf (queuedAlone r c w o u) c u = [(r.core c).entry w] := by
  rw [queuedAlone, qOf_addEntry, h]
  rfl

theorem queuedAlone_canStart (hon : r.domainOn c.val = true) (h : (r.core c).Free) :
    canStart (queuedAlone r c w o u) c = true :=
  canStart_running hon (queuedAlone_free h).1

theorem queuedAlone_core_other {d : CoreId} (h : d ≠ c) : (queuedAlone r c w o u).core d = r.core d :=
  State.core_setCore_other _ c d _ h

theorem queuedAlone_unit_other {d : CoreId} (h : d ≠ c) : (queuedAlone r c w o u).unit d = r.unit d :=
  State.unit_setUnit_other r c d _ h

theorem queuedAlone_unit : (queuedAlone r c w o u).unit c =
    { r.unit c with q := (r.unit c).q.set (unitIx u) (qOf r c u ++ [(r.core c).entry w]) } :=
  State.unit_setUnit_self r c _

/-- What the entry into a queue leaves of the core: all but the PC, the loop counters, the pass issued last and the scalar
writes that are out. -/
theorem queuedAlone_regs : ((queuedAlone r c w o u).core c).sreg = (r.core c).sreg ∧
    ((queuedAlone r c w o u).core c).preg = (r.core c).preg ∧ ((queuedAlone r c w o u).core c).vreg = (r.core c).vreg ∧
    ((queuedAlone r c w o u).core c).cbs = (r.core c).cbs ∧
    ((queuedAlone r c w o u).core c).pc = (loopNext (r.core c) (r.core c).pc).pc := by
  have hnext := loopNext_congr (k := r.core c) (k' := ({ r.core c with lastMu0 := none } : Core).owing o w) rfl (r.core c).pc
  rw [queuedAlone_core, loopNext_eq]
  exact ⟨rfl, rfl, rfl, rfl, hnext.1⟩

end

theorem exec_slot {s : State} {c : CoreId} {us : List Upset} {w : W128} (f : Bool)
    (h : Issues (strike s us) c w (slotOp f)) (hidle : unitIdle ((strike s us).unit c) .fab = true) :
    exec (if f then .slotFill c true us else .slotDrain c true us) s =
      .next (slotSync (queuedAlone (strike s us) c w (slotOp f) .fab) c) := by
  rw [strike_unit] at hidle
  have hissue := issue_queues (u := .fab) h (by cases f <;> decide)
  cases f
  all_goals
    rw [← hissue]
    exact congrArg Host.Outcome.next (if_pos (idleNow_iff.mpr ⟨rfl, hidle⟩))

/-- Settles O19: the instruction stands alone in the fabric queue, and its effect is one guard. -/
theorem slotGuardResult : Obligations.SlotGuardResult := by
  unfold Obligations.SlotGuardResult
  intro c us s w f r k h hidle hheld
  have hissues : Issues r c w (slotOp f) := h
  have hfree := issues_free hissues
  obtain ⟨hq, hfab⟩ := unitIdle_fab hidle
  obtain ⟨⟨hon, -⟩, -⟩ := hissues
  have hunit := queuedAlone_unit (r := r) (c := c) (w := w) (o := slotOp f) (u := .fab)
  have hhead : fabHead (queuedAlone r c w (slotOp f) .fab) c = some (k.entry w, []) :=
    fabHead_some (queuedAlone_canStart hon hfree) (by rw [hunit]; exact hfab) (by rw [hunit]; exact hheld)
      (qOf_queuedAlone hq)
  obtain ⟨hsreg, hpreg, -, -, hpc⟩ := queuedAlone_regs (r := r) (c := c) (w := w) (o := slotOp f) (u := .fab)
  obtain ⟨hset, hothers, -, hcores, hsp, hsems, hrest, hgddr, hqueues⟩ :=
    slotSync_effect hhead (issues_decode h) (queuedAlone_runsFree hfree)
  have hcore : ∀ d, (slotSync (queuedAlone r c w (slotOp f) .fab) c).core d = (queuedAlone r c w (slotOp f) .fab).core d :=
    fun d => by rw [State.core, hcores]; rfl
  refine ⟨_, exec_slot f h hidle, hset, hothers, by rw [hcore]; exact hpc, by rw [hcore]; exact hsreg,
    by rw [hcore]; exact hpreg, hsp, hsems, fun d hd => ⟨(hrest d hd).1, ?_, ?_⟩, hgddr, hqueues⟩
  · rw [hcore, queuedAlone_core_other hd]
  · exact (hrest d hd).2.trans (queuedAlone_unit_other hd)

end Sys2Proof.Machine
end

section
/-!
PROOF. Signals (O20): where a SIGNAL finds its target (R54), and the addition to a semaphore (R52).
-/

namespace Sys2Proof.Machine

/-! ### Where a SIGNAL finds its target (R54) -/

/-- A core that takes a SIGNAL of a job that holds it: it runs, drains, or is HALTED with a status of its own (R54). -/
def takesSignal (k : Core) : Prop :=
  k.run = .running ∨ (∃ y, k.run = .draining y) ∨ (k.run = .halted ∧ k.status ≠ 0xF009#16 ∧ k.status ≠ 0xF00A#16)

/-- A core that is being saved or restored, or whose job's image is in the bivouac (R54). -/
def awaySignal (k : Core) : Prop :=
  (∃ y, k.run = .saving y) ∨ (∃ y, k.run = .restoring y) ∨ (k.run = .halted ∧ (k.status = 0xF009#16 ∨ k.status = 0xF00A#16))

theorem fin?_beyond {n x : Nat} (h : n ≤ x) : fin? n x = none := dif_neg (Nat.not_lt.mpr h)

theorem inSet_of_held {s : State} {j c : Nat} (h : bit (s.heldBy j) c = true) : s.inSet j c = true := by
  unfold State.inSet bit at *
  rw [BitVec.getLsbD_or, h, Bool.true_or]

section
variable {s : State} {j : Nat} {d : CoreId}

theorem sigPath_drop (h : s.inSet j d.val = false ∨ s.domainOn d.val = false) : sigPath s (some j) d.val = .drop := by
  unfold sigPath
  rw [fin?_val]
  dsimp only
  rw [if_pos (by simpa using h)]

theorem sigPath_beyond {x : Nat} (h : 48 ≤ x) : sigPath s (some j) x = .drop := by
  unfold sigPath
  rw [fin?_beyond h]

theorem sigPath_apply (hin : bit (s.heldBy j) d.val = true) (hon : s.domainOn d.val = true) (h : takesSignal (s.core d)) :
    sigPath s (some j) d.val = .apply d := by
  unfold sigPath
  rw [fin?_val]
  dsimp only
  rw [if_neg (by simp [inSet_of_held hin, hon])]
  obtain hrun | ⟨y, hrun⟩ | ⟨hrun, hy, hf⟩ := h
  · rw [hrun]; exact if_pos hin
  · rw [hrun]; exact if_pos hin
  · rw [hrun]; exact if_pos ⟨hin, fun hs => hs.elim hy hf⟩

theorem sigPath_hold (hin : s.inSet j d.val = true) (hon : s.domainOn d.val = true)
    (h : awaySignal (s.core d) ∨ bit (s.heldBy j) d.val = false) : sigPath s (some j) d.val = .hold := by
  unfold sigPath
  rw [fin?_val]
  dsimp only
  rw [if_neg (by simp [hin, hon])]
  obtain (⟨y, hrun⟩ | ⟨y, hrun⟩ | ⟨hrun, hst⟩) | hheld := h
  · rw [hrun]
  · rw [hrun]
  · rw [hrun]
    exact if_neg fun hc => hc.2 hst
  · rw [hheld]
    cases (s.core d).run
    case running => exact if_neg (by decide)
    case draining => exact if_neg (by decide)
    case halted => exact if_neg fun hc => absurd hc.1 (by decide)
    all_goals rfl

end

/-! ### The addition to a semaphore (R52) -/

/-- A core that a command on one of its semaphores wakes to nothing: it runs and waits for nothing, it drains and has
something to wait for, or it is HALTED. -/
def Undisturbed (s : State) (c : CoreId) : Prop :=
  RunsFree s c ∨ (∃ y, (s.core c).run = .draining y ∧ drainDone (s.unit c) y = false) ∨ (s.core c).run = .halted

theorem wake_stopped {s : State} {c : CoreId} (h : (s.core c).run ≠ .running) : wake s c = settle s c := by
  unfold wake
  simp only [h, if_false]

theorem settle_still {s : State} {c : CoreId} (h : ∀ d, (s.core c).run ≠ .draining d) : settle s c = s := by
  unfold settle
  split
  · next d hd => exact absurd hd (h d)
  · rfl

theorem wake_undisturbed {s : State} {c : CoreId} (h : Undisturbed s c) : wake s c = s := by
  obtain ⟨hrun, hblocked⟩ | ⟨y, hrun, hdone⟩ | hrun := h
  · exact wake_running hrun hblocked
  · rw [wake_stopped (by simp [hrun])]
    exact settle_waits hrun hdone
  · rw [wake_stopped (by simp [hrun])]
    exact settle_still (by simp [hrun])

theorem Undisturbed.of_eq {s t : State} {c : CoreId} (h : Undisturbed s c) (hc : t.core c = s.core c)
    (hu : t.unit c = s.unit c) : Undisturbed t c := by
  unfold Undisturbed RunsFree at *
  rw [hc, hu]
  exact h

/-- The event of an addition that overflows. -/
def semEv (s : State) (c : CoreId) (n : Nat) : State := if 0xFFFF < n then s.coreEv c 0x1005 (s.core c).pc 0 else s

theorem semEv_quiet (s : State) (c : CoreId) (n : Nat) : Quiet s (semEv s c n) := by
  unfold semEv
  split
  · exact State.coreEv_quiet' s c _ _ _
  · exact quiet_refl s

/-- A SIGNAL that is applied adds to the one semaphore, saturating, and changes nothing else but the event (R52). -/
theorem semAdd_effect {s : State} {c : CoreId} (i : Fin 64) (v : Nat) (h : Undisturbed s c) :
    let n := (s.loc c).sems[i].toNat + v
    Quiet (s.setLoc c { s.loc c with sems := (s.loc c).sems.set i (BitVec.ofNat 16 (min n 0xFFFF)) }) (semAdd s c i.val v) := by
  intro n
  have hget : (semGet (s.loc c) i.val).toNat + v = n := by rw [semGet_eq]
  have hq := semEv_quiet (s.setLoc c { s.loc c with sems := (s.loc c).sems.set i (BitVec.ofNat 16 (min n 0xFFFF)) }) c n
  have hsame : Undisturbed (semEv (s.setLoc c { s.loc c with
      sems := (s.loc c).sems.set i (BitVec.ofNat 16 (min n 0xFFFF)) }) c n) c := h.of_eq (hq.core c) (hq.unit c)
  unfold semAdd
  simp only [hget, semSet_eq]
  exact (wake_undisturbed hsame).symm ▸ hq

theorem semAdd_sems {s t : State} {c : CoreId} {i : Fin 64} {x : BitVec 16}
    (h : Quiet (s.setLoc c { s.loc c with sems := (s.loc c).sems.set i x }) t) :
    (t.loc c).sems[i] = x ∧ (∀ m : Fin 64, m ≠ i → (t.loc c).sems[m] = (s.loc c).sems[m]) ∧
    (∀ d, d ≠ c → t.loc d = s.loc d) ∧ t.cores = s.cores ∧ t.units = s.units ∧ t.gddr = s.gddr := by
  have hl : (t.loc c).sems = (s.loc c).sems.set i x := by rw [h.loc, State.loc_setLoc_self]
  refine ⟨?_, fun m hm => ?_, fun d hd => ?_, h.cores, h.units, h.gddr⟩
  · rw [hl]
    exact Vector.getElem_set_self _
  · rw [hl]
    exact Vector.getElem_set_ne _ _ fun he => hm (Fin.ext he.symm)
  · rw [h.loc, State.loc_setLoc_other _ _ _ _ hd]

/-! ### The SIGNAL at the head of a fabric queue -/

section
variable {s : State} {c : CoreId} {e : Entry} {rest : List Entry}

theorem signalApply_sends {t : State}
    (hhead : fabHead s c = some (e, rest)) (hop : decodeOp e.pc e.word = some .signal)
    (hsend : sigSend (popHead s c .fab rest) (s.jobOf c) (signalTarget c e.word) (sySem e.word) (syValue e.word)
      (sigReject c e.pc) = some t) : signalApply s c = wake t c := by
  unfold signalApply
  rw [hhead]
  dsimp only
  rw [if_neg (by simp [hop])]
  have hjob : (popHead s c .fab rest).jobOf c = s.jobOf c := rfl
  rw [hjob, hsend]

theorem signalApply_holds (hhead : fabHead s c = some (e, rest)) (hop : decodeOp e.pc e.word = some .signal)
    (hsend : sigSend (popHead s c .fab rest) (s.jobOf c) (signalTarget c e.word) (sySem e.word) (syValue e.word)
      (sigReject c e.pc) = none) : signalApply s c =
    wake ((popHead s c .fab rest).setUnit c { (popHead s c .fab rest).unit c with
      held := ((popHead s c .fab rest).unit c).held ++
        [{ target := signalTarget c e.word, sem := sySem e.word, value := syValue e.word, pc := e.pc }] }) c := by
  unfold signalApply
  rw [hhead]
  dsimp only
  rw [if_neg (by simp [hop])]
  have hjob : (popHead s c .fab rest).jobOf c = s.jobOf c := rfl
  rw [hjob, hsend]

end

theorem held_of_domainOn {s : State} {c : CoreId} (h : s.domainOn c.val = true) : s.power.held = false := by
  have hc : decide (c.val < 60) = true := decide_eq_true (by omega)
  unfold State.domainOn at h
  rw [hc, Bool.and_true, Bool.and_eq_true, Bool.not_eq_true'] at h
  exact h.2

theorem canStart_domainOn {s : State} {c : CoreId} (h : canStart s c = true) : s.domainOn c.val = true :=
  (Bool.and_eq_true_iff.mp h).1

theorem live_of_on {s t : State} {c : CoreId} (h : s.domainOn c.val = true) : s.live t = t := by
  unfold State.live
  rw [held_of_domainOn h]
  rfl

/-- Settles O20: the table of R54 decides, and each way is one of the three effects. -/
theorem signalResult : Obligations.SignalResult := by
  unfold Obligations.SignalResult
  intro c s e rest w dst popped hq hop hstart hfab hheld hrun hblocked
  have hhead : fabHead s c = some (e, rest) := fabHead_some hstart hfab hheld hq
  have hexec : exec (.semaphoreSignalApply c) s = .next (signalApply s c) :=
    congrArg Host.Outcome.next (live_of_on (canStart_domainOn hstart))
  have hwake : ∀ t : State, t.core c = s.core c → wake t c = t := fun t ht =>
    wake_running (by rw [ht]; exact hrun) (by rw [ht]; exact hblocked)
  refine ⟨fun j d i hj hd hi hin hon htakes => ?_, fun j hj hdrop => ?_, fun j d hj hd hin hon haway => ?_⟩
  · have htakes' : takesSignal (s.core d) := by
      obtain ⟨hr, -⟩ | ⟨y, hr, -⟩ | hr := htakes
      · exact .inl hr
      · exact .inr (.inl ⟨y, hr⟩)
      · exact .inr (.inr hr)
    have hund : Undisturbed popped d := by
      obtain hr | ⟨y, hr, hdone⟩ | hr := htakes
      · exact .inl hr
      · have hne : d ≠ c := fun hdc => by rw [hdc, hrun] at hr; cases hr
        exact .inr (.inl ⟨y, hr, by rw [show popped.unit d = s.unit d from popHead_unit_other _ _ _ hne]; exact hdone⟩)
      · exact .inr (.inr hr.1)
    have hpath : sigPath popped (s.jobOf c) dst = .apply d := by
      rw [hj, ← hd]
      exact sigPath_apply (s := popped) hin hon htakes'
    have hsend : sigSend popped (s.jobOf c) dst (sySem w) (syValue w) (sigReject c e.pc) =
        some (semAdd popped d i.val (syValue w)) := by
      unfold sigSend
      rw [hpath, hi]
    have heff := semAdd_effect i (syValue w) hund
    obtain ⟨hsem, hothers, hlocs, hcores, hunits, hgddr⟩ := semAdd_sems heff
    have happly := (signalApply_sends hhead hop hsend).trans
      (hwake _ (by rw [State.core, hcores]; rfl))
    refine ⟨_, hexec.trans (congrArg _ happly), ?_, hothers, hlocs, hunits, hcores, hgddr⟩
    rw [hsem, BitVec.toNat_ofNat, Nat.min_comm]
    exact Nat.mod_eq_of_lt (by omega)
  · have hpath : sigPath popped (s.jobOf c) dst = .drop := by
      rw [hj]
      by_cases hlt : dst < 48
      · exact sigPath_drop (s := popped) (d := ⟨dst, hlt⟩)
          (hdrop.imp_right fun h => h.resolve_right (Nat.not_le.mpr hlt))
      · exact sigPath_beyond (Nat.not_lt.mp hlt)
    have hsend : sigSend popped (s.jobOf c) dst (sySem w) (syValue w) (sigReject c e.pc) =
        some (sigReject c e.pc popped) := by
      unfold sigSend
      rw [hpath]
    exact hexec.trans (congrArg _ ((signalApply_sends hhead hop hsend).trans
      (hwake _ ((State.coreEv_quiet' popped c 0x1006 e.pc 0).core c))))
  · have hpath : sigPath popped (s.jobOf c) dst = .hold := by
      rw [hj, ← hd]
      refine sigPath_hold (s := popped) hin hon ?_
      obtain h | h | h | h := haway
      · exact .inl (.inl h)
      · exact .inl (.inr (.inl h))
      · exact .inl (.inr (.inr h))
      · exact .inr h
    have hsend : sigSend popped (s.jobOf c) dst (sySem w) (syValue w) (sigReject c e.pc) = none := by
      unfold sigSend
      rw [hpath]
    have hnone : (popped.unit c).held = [] := by
      rw [show popped.unit c = _ from popHead_unit s c .fab rest]
      exact hheld
    have happly := (signalApply_holds hhead hop hsend).trans (hwake _ rfl)
    rw [show ((popHead s c .fab rest).unit c).held = [] from hnone] at happly
    exact hexec.trans (congrArg _ happly)

end Sys2Proof.Machine
end

section
/-!
PROOF. The end of a drain and the timeouts of waits (O21).
-/

namespace Sys2Proof.Machine

theorem live_of_held {s t : State} (h : s.power.held = false) : s.live t = t := by
  unfold State.live
  rw [h]
  rfl

theorem enterHalted_locals (s : State) (c : CoreId) (st : BitVec 16) : (enterHalted s c st).locals = s.locals :=
  (enterHalted_aside s c st).locals

theorem exec_haltDrainComplete {s : State} (c : CoreId) (h : s.power.held = false) :
    exec (.haltDrainComplete c) s = .next (settle s c) := congrArg Host.Outcome.next (live_of_held h)

theorem exec_semTimeoutExpiry {s : State} (c : CoreId) (h : s.power.held = false) :
    exec (.semTimeoutExpiry c) s = .next (semTimeout s c) := congrArg Host.Outcome.next (live_of_held h)

/-! ### A wait that times out (R53, R229) -/

section
variable {s t : State} {c : CoreId}

/-- A wait that ends with 0 in PT, after no more than an event: the core goes on behind the instruction. -/
theorem unblock_fails {b : Blocked} {pt : Nat} (hq : Quiet s t) (hrun : (s.core c).run = .running) (hflow : Flowing s c)
    (hb : (s.core c).blocked = some b) (h0 : 0 < pt) (h8 : pt < 8) :
    let u := unblock t c pt false
    (u.core c).pget pt = false ∧ (u.core c).blocked = none ∧ (u.core c).pc = (loopNext (s.core c) (s.core c).pc).pc ∧
    (u.core c).sreg = (s.core c).sreg ∧ u.locals = s.locals := by
  intro u
  have hk : ({ s.core c with blocked := none } : Core).Free := ⟨hrun, rfl, hflow⟩
  have hs : t.core c = { ({ s.core c with blocked := none } : Core) with blocked := some b } := by rw [hq.core, ← hb]
  have hu : u.core c = loopNext (({ s.core c with blocked := none } : Core).pset pt false) (s.core c).pc := by
    rw [show u = _ from unblock_goes hs hk pt false]
    exact State.core_setCore_self _ c _
  have hnext := loopNext_congr (k := s.core c) (k' := ({ s.core c with blocked := none } : Core).pset pt false)
    (by rw [Core.pset_eq]) (s.core c).pc
  have hget := Core.pget_pset_self ({ s.core c with blocked := none } : Core) false h0 h8
  refine ⟨?_, ?_, ?_, ?_, ?_⟩
  · rw [hu, loopNext_eq]
    exact hget
  · rw [hu, loopNext_eq, Core.pset_eq]
  · rw [hu]
    exact hnext.1
  · rw [hu, loopNext_eq, Core.pset_eq]
  · rw [show u = _ from unblock_goes hs hk pt false]
    exact hq.locals

theorem semTimeout_fires {sem v pt : Nat} (hlim : fld (s.rd (coreBase c + 0x38)) 0 32 ≠ 0)
    (hrun : (s.core c).run = .running) (hb : (s.core c).blocked = some (.wait sem v pt)) : semTimeout s c =
      if pt = 0 then faultHaltEv s c 0xF003#16 (s.core c).pc 0x1004 0
      else unblock (s.coreEv c 0x1004 (s.core c).pc 0) c pt false := by
  unfold semTimeout
  dsimp only
  rw [if_neg (by simp [hlim, hrun]), hb]

theorem semTimeout_disabled (hlim : fld (s.rd (coreBase c + 0x38)) 0 32 = 0) : semTimeout s c = s := by
  unfold semTimeout
  dsimp only
  rw [if_pos (.inl hlim)]

theorem slotTimeoutEv_quiet (s : State) (c : CoreId) (g u : Nat) (f : Bool) : Quiet s (slotTimeoutEv s c g u f) :=
  State.raiseIf_quiet (State.count_quiet (State.wr_quiet (quiet_refl s)))

theorem slotTimeout_passes {g pt : Nat} {f : Bool} (hlim : fld (s.rd (coreBase c + 0x4008)) 0 32 ≠ 0)
    (hon : s.domainOn c.val = true) (hfatal : bit (s.rd (coreBase c + 0x4000)) 0 = false)
    (hrun : (s.core c).run = .running) (hb : (s.core c).blocked = some (.slot g f pt)) (htold : bit (s.unit c).told 5 = false)
    (hg : guardFilled s c g = !f) (hpt : 0 < pt) :
    slotTimeout s c none = unblock (slotTimeoutEv s c g 4 false) c pt false := by
  have hheld : ¬ (guardFilled s c g = f ∨ bit (s.unit c).told 5 = true) := by
    rw [hg, htold]
    cases f <;> decide
  unfold slotTimeout
  dsimp only
  rw [if_neg (by simp [hlim, hon]), if_pos hrun, hb]
  dsimp only
  rw [if_neg hheld, hfatal, if_neg (by decide), if_pos (by omega)]

end

/-- Settles O21: a drain with nothing outstanding enters HALTED, and an expired wait fails its predicate or faults. -/
theorem drainEndsAndWaitsTimeOut : Obligations.DrainEndsAndWaitsTimeOut := by
  unfold Obligations.DrainEndsAndWaitsTimeOut
  intro c s k hheld
  refine ⟨fun st hrun hdone => ?_, fun st hrun hdone => ?_, fun hrun hflow sem v pt hb hlim => ⟨fun h0 h8 => ?_, fun h0 => ?_⟩,
    fun hlim => ?_, fun hrun hflow hon hlim hfatal htold g f pt hb hg h0 h8 => ?_⟩
  · have hhalt : settle s c = enterHalted s c st := settle_halts (d := .halt st) hrun hdone (by simp) (by simp)
    have hcore := enterHalted_core s c st
    exact ⟨_, (exec_haltDrainComplete c hheld).trans (congrArg Host.Outcome.next hhalt), by rw [hcore]; rfl, by rw [hcore]; rfl,
      by rw [hcore]; rfl, by rw [hcore]; rfl, by rw [hcore]; rfl, enterHalted_locals s c st,
      fun e he => enterHalted_core_other s st he⟩
  · rw [exec_haltDrainComplete c hheld, settle_waits hrun hdone]
  · have hfire := semTimeout_fires hlim hrun hb
    rw [if_neg (by omega)] at hfire
    exact ⟨_, (exec_semTimeoutExpiry c hheld).trans (congrArg Host.Outcome.next hfire),
      unblock_fails (State.coreEv_quiet' s c 0x1004 k.pc 0) hrun hflow hb h0 h8⟩
  · have hfire := semTimeout_fires hlim hrun hb
    rw [if_pos h0] at hfire
    exact ⟨_, (exec_semTimeoutExpiry c hheld).trans (congrArg Host.Outcome.next hfire),
      faultHaltEv_faulted _ _ _ hrun (by decide) (by decide)⟩
  · rw [exec_semTimeoutExpiry c hheld, semTimeout_disabled hlim]
  · have hpass := slotTimeout_passes hlim hon hfatal hrun hb htold hg h0
    obtain ⟨hpt, hblocked, hpc, -, hloc⟩ := unblock_fails (slotTimeoutEv_quiet s c g 4 false) hrun hflow hb h0 h8
    exact ⟨_, congrArg Host.Outcome.next hpass, hpt, hblocked, hpc, hloc⟩

end Sys2Proof.Machine
end

section
/-!
SUPPORT. Access to a scratchpad that nothing stands in the way of (R226, R233, R236): reads change nothing, and a write changes
the bytes named and marks of resident models alone.
-/

namespace Sys2Proof.Machine

/-! ### Byte strings (R4) -/

theorem getElem_leBytes (n x : Nat) {i : Nat} (h : i < (leBytes n x).length) :
    (leBytes n x)[i] = BitVec.ofNat 8 (x / 2 ^ (8 * i)) := by
  induction n generalizing x i with
  | zero => simp [leBytes] at h
  | succ n ih =>
    cases i with
    | zero => simp [leBytes]
    | succ i =>
      have hdiv : x / 256 / 2 ^ (8 * i) = x / 2 ^ (8 * (i + 1)) := by
        rw [Nat.div_div_eq_div_mul, show 8 * (i + 1) = 8 + 8 * i by ring, Nat.pow_add]
      exact (ih (x / 256) (by simpa [leBytes] using h)).trans (by rw [hdiv])

theorem length_leBytes (n x : Nat) : (leBytes n x).length = n := by
  induction n generalizing x with
  | zero => rfl
  | succ n ih => rw [leBytes, List.length_cons, ih]

/-- A byte of a memory after a write, by whether the write covers it. -/
theorem memory_get_write (bs : List Byte) (m : Memory) (a x : Nat) (h : Memory.wf m = true) :
    (m.write a bs).get x = if hx : a ≤ x ∧ x < a + bs.length then bs[x - a]'(by omega) else m.get x := by
  split
  · next hx =>
    have hin := memory_get_write_inside bs m a (x - a) h (by omega)
    rwa [show a + (x - a) = x by omega] at hin
  · next hx => exact memory_get_write_outside bs m a x h (by omega)

/-- A byte after the write of a number, least significant byte first. -/
theorem memory_get_write_leBytes (n v : Nat) (m : Memory) (a x : Nat) (h : Memory.wf m = true) :
    (m.write a (leBytes n v)).get x =
      if a ≤ x ∧ x < a + n then BitVec.ofNat 8 (v / 2 ^ (8 * (x - a))) else m.get x := by
  rw [memory_get_write _ _ _ _ h]
  simp only [length_leBytes, getElem_leBytes, dite_eq_ite]

/-! ### Access without any obstacle -/

section
variable {s : State} {c : CoreId} {off len : Nat}

theorem spAllow_free (h : SpFree s c off len) : spAllow s c (s.jobOf c) off len = (s, none) := by
  obtain ⟨hgecko, hbank, -⟩ := h
  unfold spAllow
  rw [hgecko, hbank]
  rfl

theorem spEcc_clean (job : Option Nat) (h : spMarks s c off len = []) : spEcc s c job off len = (s, none) := by
  unfold spEcc
  rw [h]
  rfl

theorem spRead_free (h : SpFree s c off len) : spRead s c (s.jobOf c) off len = (s, none) := by
  unfold spRead
  rw [spAllow_free h]
  exact spEcc_clean _ h.2.2

theorem spReadAny_free (job : Option Nat) (h : SpFree s c off len) :
    spReadAny s c job off len = (s, spBytes s c off len) := by
  obtain ⟨-, hbank, hmarks⟩ := h
  unfold spReadAny
  rw [hbank]
  dsimp only
  rw [spEcc_clean job hmarks]

end

/-- The state with bytes of a scratchpad written, and nothing else. -/
def putSp (s : State) (c : CoreId) (off : Nat) (bs : List Byte) : State :=
  s.setLoc c { s.loc c with sp := (s.loc c).sp.write off bs }

/-- The state after a write of bytes of a scratchpad: the resident models that hold a region of them are dirty (R370). -/
def wroteSp (s : State) (c : CoreId) (off : Nat) (bs : List Byte) : State := dirtySp (putSp s c off bs) c off bs.length

section
variable {s : State} {c : CoreId} {off : Nat} {bs : List Byte}

theorem spMerge_clean (job : Option Nat) (h : spMarks s c off bs.length = []) :
    spMerge s c job off bs = (wroteSp s c off bs, none) := by
  have hkeep : (s.loc c).spErr.filter (fun e => !([] : List (Nat × Bool)).contains e || ([] : List (Nat × Bool)).contains e) =
      (s.loc c).spErr := List.filter_eq_self.mpr fun _ _ => rfl
  unfold spMerge
  dsimp only
  rw [h]
  simp only [spCorrected, spUncorrs, List.filter_nil, List.foldl_nil, List.isEmpty_nil, List.head?_nil, Option.map_none]
  rw [hkeep]
  rfl

theorem spWrite_free (h : SpFree s c off bs.length) : spWrite s c (s.jobOf c) off bs = (wroteSp s c off bs, none) := by
  unfold spWrite
  rw [spAllow_free h]
  exact spMerge_clean _ h.2.2

theorem spWriteAny_free (job : Option Nat) (h : SpFree s c off bs.length) :
    spWriteAny s c job off bs = wroteSp s c off bs := by
  obtain ⟨-, hbank, hmarks⟩ := h
  unfold spWriteAny
  rw [hbank]
  dsimp only
  rw [spMerge_clean job hmarks]

end

/-- Marking resident models dirty writes registers alone, and none of a core. -/
theorem dirtySp_quiet (s : State) (c off len : Nat) :
    Quiet s (dirtySp s c off len) ∧ ∀ a, 0x1000000 ≤ a → (dirtySp s c off len).rd a = s.rd a := by
  have hfold : ∀ l : List Nat, (∀ e ∈ l, e < 8) → ∀ t : State,
      let f := fun (s : State) (e : Nat) =>
        if fld (s.rd (rmtBase e)) 0 2 = 1 ∧ fld (s.rd (rmtBase e + 8)) 0 8 = 1 ∧ bit (s.rd (rmtBase e + 8 + 16)) c ∧ len ≠ 0 ∧
          (List.range ((off + len - 1) / 0x40000 + 1 - off / 0x40000)).any
            (fun i => bit (s.rd (rmtBase e + 8 + 24)) (off / 0x40000 + i))
        then s.wr (rmtBase e) (setBit (s.rd (rmtBase e)) 3) else s
      Quiet t (l.foldl f t) ∧ ∀ a, 0x1000000 ≤ a → (l.foldl f t).rd a = t.rd a := by
    intro l hl t f
    induction l generalizing t with
    | nil => exact ⟨quiet_refl t, fun _ _ => rfl⟩
    | cons e l ih =>
      have he : e < 8 := hl e List.mem_cons_self
      have hstep : Quiet t (f t e) ∧ ∀ a, 0x1000000 ≤ a → (f t e).rd a = t.rd a := by
        unfold f
        split
        · refine ⟨State.wr_quiet (quiet_refl t), fun a ha => State.rd_wr_other _ _ _ _ ?_⟩
          unfold rmtBase
          omega
        · exact ⟨quiet_refl t, fun _ _ => rfl⟩
      obtain ⟨hq, hrd⟩ := ih (fun x hx => hl x (List.mem_cons_of_mem _ hx)) (f t e)
      exact ⟨quiet_trans hstep.1 hq, fun a ha => (hrd a ha).trans (hstep.2 a ha)⟩
  exact hfold (List.range 8) (fun e he => List.mem_range.mp he) s

section
variable (s : State) (c : CoreId) (off : Nat) (bs : List Byte)

theorem wroteSp_quiet : Quiet (putSp s c off bs) (wroteSp s c off bs) := (dirtySp_quiet _ _ _ _).1

/-- Every register of a core keeps its value. -/
theorem wroteSp_rd {a : Nat} (h : 0x1000000 ≤ a) : (wroteSp s c off bs).rd a = s.rd a := (dirtySp_quiet _ _ _ _).2 a h

theorem wroteSp_loc : (wroteSp s c off bs).loc c = { s.loc c with sp := (s.loc c).sp.write off bs } := by
  rw [(wroteSp_quiet s c off bs).loc]
  exact State.loc_setLoc_self s c _

theorem wroteSp_loc_other {d : CoreId} (h : d ≠ c) : (wroteSp s c off bs).loc d = s.loc d := by
  rw [(wroteSp_quiet s c off bs).loc]
  exact State.loc_setLoc_other s c d _ h

theorem wroteSp_core (d : CoreId) : (wroteSp s c off bs).core d = s.core d := (wroteSp_quiet s c off bs).core d
theorem wroteSp_unit (d : CoreId) : (wroteSp s c off bs).unit d = s.unit d := (wroteSp_quiet s c off bs).unit d

theorem wroteSp_jobOf (d : CoreId) : (wroteSp s c off bs).jobOf d = s.jobOf d := by
  have hrd := wroteSp_rd s c off bs (a := coreBase d + 0x30) (by unfold coreBase; omega)
  unfold State.jobOf
  rw [hrd]

end

/-- What stands in the way of an access does not depend on the bytes. -/
theorem spFree_congr {s t : State} {c : CoreId} {off len : Nat} (hb : (t.loc c).bank = (s.loc c).bank)
    (he : (t.loc c).spErr = (s.loc c).spErr) (hr : ∀ a, coreBase c ≤ a → t.rd a = s.rd a) (h : SpFree s c off len) :
    SpFree t c off len := by
  have hjob : t.jobOf c = s.jobOf c := by unfold State.jobOf; rw [hr _ (by omega)]
  have hgecko : geckoDenied t c = geckoDenied s c := by
    funext job r
    unfold geckoDenied
    rw [hr _ (by omega), hr _ (by omega)]
  have hword : wordOff t c = wordOff s c := by
    funext w
    unfold wordOff
    rw [hb]
  obtain ⟨h1, h2, h3⟩ := h
  refine ⟨?_, ?_, ?_⟩
  · rw [← h1, hjob, spGecko, spGecko, hgecko]
  · rw [← h2, spBankOff, spBankOff, hword]
  · rw [← h3, spMarks, spMarks, he]

theorem spFree_wroteSp {s : State} {c d : CoreId} {off len o : Nat} {bs : List Byte} (h : SpFree s d off len) :
    SpFree (wroteSp s c o bs) d off len := by
  have hr : ∀ a, coreBase d ≤ a → (wroteSp s c o bs).rd a = s.rd a := fun a ha =>
    wroteSp_rd s c o bs (by unfold coreBase at ha; omega)
  by_cases hd : d = c
  · subst hd
    exact spFree_congr (by rw [wroteSp_loc]) (by rw [wroteSp_loc]) hr h
  · exact spFree_congr (by rw [wroteSp_loc_other _ _ _ _ hd]) (by rw [wroteSp_loc_other _ _ _ _ hd]) hr h

end Sys2Proof.Machine
end

section
/-!
PROOF. LD and ST (O12): one checked access to eight bytes of the own scratchpad, or a fault.
-/

namespace Sys2Proof.Machine

theorem spFree_issued {r : State} {c d : CoreId} {off len : Nat} (h : SpFree r d off len) : SpFree (issued r c) d off len :=
  spFree_congr rfl rfl (fun _ _ => rfl) h

theorem ldstOk_iff (a : Nat) : ldstOk a = true ↔ a % 8 = 0 ∧ a < 0x1000000 := by
  unfold ldstOk spSize
  rw [Bool.and_eq_true, beq_iff_eq, decide_eq_true_eq]

/-- What LD does where it acts (R39). -/
def ldAct (c : CoreId) (s : State) (w : W128) : State :=
  let k := s.core c
  let a := ldstAddr k w
  if !ldstOk a then faultHaltEv s c 0xF004#16 k.pc 0x1007 a
  else
    let v := BitVec.ofNat 64 (leNat (spBytes s c a 8))
    match spRead s c (s.jobOf c) a 8 with
    | (s, some _) => faultHalt s c 0xF004#16 k.pc
    | (s, none) => retire (s.setCore c ((s.core c).sset (ctlSd w) v)) c

/-- What ST does where it acts (R39). -/
def stAct (c : CoreId) (s : State) (w : W128) : State :=
  let k := s.core c
  let a := ldstAddr k w
  if !ldstOk a then faultHaltEv s c 0xF004#16 k.pc 0x1007 a
  else
    match spWrite s c (s.jobOf c) a (leBytes 8 (k.sget (ctlSb w)).toNat) with
    | (s, some _) => faultHalt s c 0xF004#16 k.pc
    | (s, none) => retire s c

section
variable {s : State} {c : CoreId} {us : List Upset} {w : W128}

theorem exec_ld_acts (h : Issues (strike s us) c w .ld) :
    exec (.ld c us) s = .next (ldAct c (issued (strike s us) c) w) :=
  congrArg Host.Outcome.next (issue_acts (act := ldAct c) h (by decide))

theorem exec_st_acts (h : Issues (strike s us) c w .st) :
    exec (.st c us) s = .next (stAct c (issued (strike s us) c) w) :=
  congrArg Host.Outcome.next (issue_acts (act := stAct c) h (by decide))

end

section
variable {r : State} {c : CoreId} {w : W128} {k : Core}

/-- An address that LD and ST may not access (R39). -/
theorem ldstOk_false {a : Nat} (h : a % 8 ≠ 0 ∨ 0x1000000 ≤ a) : ldstOk a = false := by
  rw [Bool.eq_false_iff, ne_eq, ldstOk_iff]
  omega

theorem ldAct_faults (hk : (r.core c).Free) (hbad : ldstOk (ldstAddr ((issued r c).core c) w) = false) :
    Faulted r (ldAct c (issued r c) w) c 0xF004#16 (r.core c).pc 0x1007 := by
  unfold ldAct
  dsimp only
  rw [hbad, Bool.not_false, if_pos rfl, issued_core]
  exact issued_faulted _ _ hk (by decide) (by decide)

theorem stAct_faults (hk : (r.core c).Free) (hbad : ldstOk (ldstAddr ((issued r c).core c) w) = false) :
    Faulted r (stAct c (issued r c) w) c 0xF004#16 (r.core c).pc 0x1007 := by
  unfold stAct
  dsimp only
  rw [hbad, Bool.not_false, if_pos rfl, issued_core]
  exact issued_faulted _ _ hk (by decide) (by decide)

theorem ldAct_loads {a : Nat} (hk : (r.core c).Free) (ha : ldstAddr ((issued r c).core c) w = a) (hok : ldstOk a = true)
    (hfree : SpFree r c a 8) : ldAct c (issued r c) w = r.setCore c (loopNext
      (({ r.core c with lastMu0 := none } : Core).sset (ctlSd w) (BitVec.ofNat 64 (leNat (spBytes r c a 8)))) (r.core c).pc) := by
  have hread := spRead_free (spFree_issued (c := c) hfree)
  have hnext := retire_setCore r c
    (Core.Free.sset (k := { r.core c with lastMu0 := none }) hk (ctlSd w) (BitVec.ofNat 64 (leNat (spBytes r c a 8))))
  unfold ldAct
  dsimp only
  rw [ha, hok, Bool.not_true, if_neg (by decide), hread]
  dsimp only
  rw [issued_core, issued_setCore]
  rwa [Core.sset_pc] at hnext

theorem stAct_stores {a : Nat} (ha : ldstAddr ((issued r c).core c) w = a) (hok : ldstOk a = true)
    (hfree : SpFree r c a 8) : stAct c (issued r c) w =
      retire (wroteSp (issued r c) c a (leBytes 8 (((issued r c).core c).sget (ctlSb w)).toNat)) c := by
  have hlen := length_leBytes 8 (((issued r c).core c).sget (ctlSb w)).toNat
  have hwrite := spWrite_free (bs := leBytes 8 (((issued r c).core c).sget (ctlSb w)).toNat)
    (by rw [hlen]; exact spFree_issued (c := c) hfree)
  unfold stAct
  dsimp only
  rw [ha, hok, Bool.not_true, if_neg (by decide), hwrite]

end

/-- An instruction that retires in a state in which its core is the one issued. -/
theorem retire_of_issued {r t : State} {c : CoreId} (h : (r.core c).Free) (ht : t.core c = (issued r c).core c) :
    retire t c = t.setCore c (loopNext { r.core c with lastMu0 := none } (r.core c).pc) := by
  have hk : t.core c = { r.core c with lastMu0 := none } := ht.trans (issued_core r c)
  have hnext := retire_setCore t c (k := t.core c) (by rw [hk]; exact h)
  rwa [State.setCore_core, hk] at hnext

/-- Settles O12: both instructions make one access without obstacle, or act by a fault halt. -/
theorem loadStoreResult : Obligations.LoadStoreResult := by
  unfold Obligations.LoadStoreResult
  constructor
  · intro c us s w r k a h
    have hk : (r.core c).Free := issues_free h
    have ha : ldstAddr ((issued r c).core c) w = a := by rw [issued_core]; rfl
    refine ⟨fun h8 hlt hfree => ?_, fun hbad => ?_⟩
    · rw [exec_ld_acts h, ldAct_loads hk ha ((ldstOk_iff a).mpr ⟨h8, hlt⟩) hfree]
      rfl
    · exact ⟨_, exec_ld_acts h, ldAct_faults hk (ha ▸ ldstOk_false hbad)⟩
  · intro c us s w r k a h
    have hk : (r.core c).Free := issues_free h
    have ha : ldstAddr ((issued r c).core c) w = a := by rw [issued_core]; rfl
    refine ⟨fun hbad => ?_, fun hmem h8 hlt hfree => ?_⟩
    · exact ⟨_, exec_st_acts h, stAct_faults hk (ha ▸ ldstOk_false hbad)⟩
    · have hact := stAct_stores ha ((ldstOk_iff a).mpr ⟨h8, hlt⟩) hfree
      rw [retire_of_issued hk (wroteSp_core _ _ _ _ c)] at hact
      rw [issued_core] at hact
      have hq := wroteSp_quiet (issued r c) c a (leBytes 8 (k.sget (ctlSb w)).toNat)
      have hloc := wroteSp_loc (issued r c) c a (leBytes 8 (k.sget (ctlSb w)).toNat)
      refine ⟨_, (exec_st_acts h).trans (congrArg Host.Outcome.next hact), fun x => ?_, State.core_setCore_self _ c _,
        fun d hd => ⟨?_, ?_⟩, ?_, ?_,
        (State.setCore_units _ _ _).trans hq.units, (State.setCore_gddr _ _ _).trans hq.gddr,
        (State.setCore_tier _ _ _).trans hq.tier, (State.setCore_queues _ _ _).trans hq.queues,
        (State.setCore_sec _ _ _).trans hq.sec⟩
      · rw [State.loc_setCore, hloc]
        exact memory_get_write_leBytes 8 _ _ a x (hmem.2.2.1 c)
      · rw [State.core_setCore_other _ _ _ _ hd, wroteSp_core, issued_core_other _ hd]
      · rw [State.loc_setCore, wroteSp_loc_other _ _ _ _ hd]
        rfl
      · rw [State.loc_setCore, hloc]
        rfl
      · rw [State.loc_setCore, hloc]
        rfl

end Sys2Proof.Machine
end

section
/-!
SUPPORT. Vector registers, and the run of a vector operation in the command that issues it (R40, R47, R48).
-/

namespace Sys2Proof.Machine

/-! ### Vector registers (R29) -/

section
variable (s : State) (c : CoreId)

theorem vget_eq (j : Fin 64) : vget s c j.val = (s.core c).vreg[j] := by
  unfold vget
  rw [fin?_val]

theorem vget_beyond {i : Nat} (h : 64 ≤ i) : vget s c i = 0#8192 := by
  unfold vget
  rw [fin?_beyond h]

theorem vset_eq (j : Fin 64) (v : VReg) : vset s c j.val v = s.setCore c { s.core c with vreg := (s.core c).vreg.set j v } := by
  unfold vset
  rw [fin?_val]

theorem vset_beyond {i : Nat} (v : VReg) (h : 64 ≤ i) : vset s c i v = s := by
  unfold vset
  rw [fin?_beyond h]

/-- A write of a V register touches the V registers of its core alone. -/
theorem vset_frame (i : Nat) (v : VReg) :
    vset s c i v = s.setCore c { s.core c with vreg := ((vset s c i v).core c).vreg } := by
  by_cases h : i < 64
  · rw [show i = (⟨i, h⟩ : Fin 64).val from rfl, vset_eq, State.core_setCore_self]
  · rw [vset_beyond s c v (Nat.not_lt.mp h)]
    exact (State.setCore_core s c).symm

theorem vget_vset_self {i : Nat} (v : VReg) (h : i < 64) : vget (vset s c i v) c i = v := by
  rw [show i = (⟨i, h⟩ : Fin 64).val from rfl, vset_eq, vget_eq, State.core_setCore_self]
  exact Vector.getElem_set_self _

theorem vget_vset_other {i j : Nat} (v : VReg) (h : j ≠ i) : vget (vset s c i v) c j = vget s c j := by
  by_cases hi : i < 64
  · by_cases hj : j < 64
    · rw [show i = (⟨i, hi⟩ : Fin 64).val from rfl, show j = (⟨j, hj⟩ : Fin 64).val from rfl, vset_eq, vget_eq, vget_eq,
        State.core_setCore_self]
      exact Vector.getElem_set_ne hi hj (Ne.symm h)
    · rw [vget_beyond _ _ (Nat.not_lt.mp hj), vget_beyond _ _ (Nat.not_lt.mp hj)]
  · rw [vset_beyond s c v (Nat.not_lt.mp hi)]

end

theorem vget_congr {s t : State} {c : CoreId} (h : (t.core c).vreg = (s.core c).vreg) (i : Nat) :
    vget t c i = vget s c i := by
  unfold vget
  rw [h]

theorem cbGet_congr {s t : State} {c : CoreId} (h : (t.core c).cbs = (s.core c).cbs) (i : Nat) :
    cbGet t c i = cbGet s c i := by
  unfold cbGet
  rw [h]

/-- A captured scalar register is what the register read at issue (R47). -/
theorem snapGet_snap (k : Core) {i : Nat} (h : i < 32) : snapGet k.snap i = k.sget i := by
  unfold snapGet getD Core.snap
  rw [List.getElem?_map, List.getElem?_range h]
  rfl

/-! ### The run of a vector operation in the command that issues it -/

theorem exec_vec {o : Op} (h : o.queue = some .ve) (c : CoreId) (now : Bool) (us : List Upset) (s : State) :
    exec (instrOf o c now us) s = .next (veIssue c now us o s) := by
  cases o <;> cases h <;> rfl

theorem exec_vec_now {o : Op} (ho : o.queue = some .ve) {c : CoreId} {us : List Upset} {s : State} {w : W128}
    (h : Issues (strike s us) c w o) (hidle : unitIdle (s.unit c) .ve = true) :
    exec (instrOf o c true us) s = .next (veComplete (veStart (queuedAlone (strike s us) c w o .ve) c) c) := by
  have hp : o ≠ .pass := by rintro rfl; cases ho
  rw [exec_vec ho, ← issue_queues (u := .ve) h hp]
  exact congrArg Host.Outcome.next (if_pos (idleNow_iff.mpr ⟨rfl, hidle⟩))

theorem veStart_done {t x : State} {c : CoreId} {e : Entry} {rest : List Entry} {o : Op} {sd : Option (Nat × W64)}
    (hstart : canStart t c = true) (hq : qOf t c .ve = e :: rest) (hop : decodeOp e.pc e.word = some o)
    (hdo : veDo (popHead t c .ve rest) c e o = (x, .done sd)) :
    veStart t c = x.setUnit c { x.unit c with ve := (x.unit c).ve ++ [{ pc := e.pc, sd := sd }] } := by
  unfold veStart
  rw [hstart, hq]
  simp only [if_true, hop, hdo]

/-- The state in which the vector operation at the head of an otherwise empty engine takes effect. -/
def vecReady (r : State) (c : CoreId) (w : W128) (o : Op) : State := popHead (queuedAlone r c w o .ve) c .ve []

/-- The state once a vector operation that took effect in `x` has completed (R47, R48). -/
def vecEnd (x : State) (c : CoreId) (sd : Option (Nat × W64)) : State :=
  match sd with
  | none => x.setUnit c { x.unit c with ve := [] }
  | some (i, v) => (x.setUnit c { x.unit c with ve := [] }).setCore c
      { (x.core c).sset i v with pendSd := (x.core c).pendSd.erase i }

theorem veComplete_alone {x : State} {c : CoreId} {pc : Nat} {sd : Option (Nat × W64)} (hve : (x.unit c).ve = [])
    (hrun : RunsFree x c) :
    veComplete (x.setUnit c { x.unit c with ve := (x.unit c).ve ++ [{ pc := pc, sd := sd }] }) c = vecEnd x c sd := by
  unfold veComplete
  simp only [State.unit_setUnit_self, hve, List.nil_append, State.setUnit_setUnit, State.core_setUnit]
  cases sd with
  | none => exact wake_running hrun.1 hrun.2
  | some p =>
    obtain ⟨i, v⟩ := p
    refine wake_running ?_ ?_
    · dsimp only
      rw [State.core_setCore_self, Core.sset_eq]
      exact hrun.1
    · dsimp only
      rw [State.core_setCore_self, Core.sset_eq]
      exact hrun.2

section
variable {r : State} {c : CoreId} {w : W128} {o : Op}

theorem vecReady_core (d : CoreId) : (vecReady r c w o).core d = (queuedAlone r c w o .ve).core d := rfl
theorem vecReady_loc (d : CoreId) : (vecReady r c w o).loc d = r.loc d := rfl
theorem vecReady_locals : (vecReady r c w o).locals = r.locals := rfl
theorem vecReady_regs : (vecReady r c w o).regs = r.regs := rfl

theorem vecReady_unit_other {d : CoreId} (h : d ≠ c) : (vecReady r c w o).unit d = r.unit d :=
  (popHead_unit_other _ _ _ h).trans (queuedAlone_unit_other h)

theorem vecReady_ve (h : unitIdle (r.unit c) .ve = true) : ((vecReady r c w o).unit c).ve = [] := by
  rw [vecReady, popHead_unit, queuedAlone_unit]
  exact (unitIdle_ve h).2

theorem vget_vecReady (i : Nat) : vget (vecReady r c w o) c i = vget r c i :=
  vget_congr queuedAlone_regs.2.2.1 i

theorem cbGet_vecReady (i : Nat) : cbGet (vecReady r c w o) c i = cbGet r c i :=
  cbGet_congr queuedAlone_regs.2.2.2.1 i

theorem vecReady_runsFree (h : (r.core c).Free) : RunsFree (vecReady r c w o) c := queuedAlone_runsFree h

theorem spFree_vecReady {off len : Nat} (h : SpFree r c off len) : SpFree (vecReady r c w o) c off len :=
  spFree_congr rfl rfl (fun _ _ => rfl) h

end

/-- A vector operation that is issued on an idle engine and does not fault runs and completes in the command. -/
theorem vec_runs {o : Op} (ho : o.queue = some .ve) {c : CoreId} {us : List Upset} {s x : State} {w : W128}
    {sd : Option (Nat × W64)} (h : Issues (strike s us) c w o) (hidle : unitIdle (s.unit c) .ve = true)
    (hdo : veDo (vecReady (strike s us) c w o) c (((strike s us).core c).entry w) o = (x, .done sd))
    (hve : (x.unit c).ve = []) (hrun : RunsFree x c) :
    exec (instrOf o c true us) s = .next (vecEnd x c sd) := by
  have hq : qOf (strike s us) c .ve = [] := by
    unfold qOf
    rw [strike_unit]
    exact (unitIdle_ve hidle).1
  obtain ⟨hon, -⟩ := h.1
  rw [exec_vec_now ho h hidle, veStart_done (queuedAlone_canStart hon (issues_free h)) (qOf_queuedAlone hq) (issues_decode h)
    hdo, veComplete_alone hve hrun]

end Sys2Proof.Machine
end

section
/-!
PROOF. The vector operations on registers (O15): each takes effect as one write of VD, after no more than an event, or as the
scalar register that it still has to write.
-/

namespace Sys2Proof.Machine

theorem vecReady_quiet_runsFree {r y : State} {c : CoreId} {w : W128} {o : Op} (h : (r.core c).Free)
    (hy : Quiet (vecReady r c w o) y) : RunsFree y c := by
  unfold RunsFree
  rw [hy.core]
  exact vecReady_runsFree h

theorem vset_core (s : State) (c : CoreId) (i : Nat) (v : VReg) :
    (vset s c i v).core c = { s.core c with vreg := ((vset s c i v).core c).vreg } := by
  conv_lhs => rw [vset_frame, State.core_setCore_self]

theorem vset_core_other (s : State) {c d : CoreId} (i : Nat) (v : VReg) (h : d ≠ c) : (vset s c i v).core d = s.core d := by
  rw [vset_frame, State.core_setCore_other _ _ _ _ h]

theorem vset_runsFree {s : State} {c : CoreId} (i : Nat) (v : VReg) (h : RunsFree s c) : RunsFree (vset s c i v) c := by
  unfold RunsFree
  rw [vset_core]
  exact h

theorem vset_unit (s : State) (c d : CoreId) (i : Nat) (v : VReg) : (vset s c i v).unit d = s.unit d := by
  rw [vset_frame]
  rfl

/-- The effect of a vector operation that writes VD, on all but the registers of the module. -/
structure PutsVd (r t : State) (c : CoreId) (w : W128) (v : VReg) : Prop where
  vd : vget t c (vVd w) = v
  others : ∀ i, i ≠ vVd w → vget t c i = vget r c i
  pc : (t.core c).pc = (loopNext (r.core c) (r.core c).pc).pc
  sreg : (t.core c).sreg = (r.core c).sreg
  preg : (t.core c).preg = (r.core c).preg
  run : (t.core c).run = .running
  locals : t.locals = r.locals
  gddr : t.gddr = r.gddr
  queues : t.queues = r.queues
  rest : ∀ d, d ≠ c → t.core d = r.core d ∧ t.unit d = r.unit d

section
variable {o : Op} {c : CoreId} {us : List Upset} {s y : State} {w : W128} {v : VReg}

theorem vecEnd_putsVd {r : State} (hfree : (r.core c).Free) (hy : Quiet (vecReady r c w o) y) :
    PutsVd r (vecEnd (vset y c (vVd w) v) c none) c w v := by
  have hcore : (vecEnd (vset y c (vVd w) v) c none).core c = (vset y c (vVd w) v).core c := rfl
  have hyc : y.core c = (queuedAlone r c w o .ve).core c := (hy.core c).trans (vecReady_core c)
  obtain ⟨hsreg, hpreg, -, -, hpc⟩ := queuedAlone_regs (r := r) (c := c) (w := w) (o := o) (u := .ve)
  have hframe := vset_frame y c (vVd w) v
  refine ⟨vget_vset_self y c v (fld_lt w 16 6), fun i hi => ?_, ?_, ?_, ?_, ?_, ?_, ?_, ?_, fun d hd => ⟨?_, ?_⟩⟩
  · calc vget (vset y c (vVd w) v) c i = vget y c i := vget_vset_other y c v hi
      _ = vget (vecReady r c w o) c i := vget_congr (by rw [hy.core]) i
      _ = vget r c i := vget_vecReady i
  · rw [hcore, vset_core, hyc]; exact hpc
  · rw [hcore, vset_core, hyc]; exact hsreg
  · rw [hcore, vset_core, hyc]; exact hpreg
  · rw [hcore, vset_core, hyc]; exact (queuedAlone_free hfree).1
  · show (vset y c (vVd w) v).locals = r.locals
    rw [hframe, State.setCore_locals, hy.locals, vecReady_locals]
  · show (vset y c (vVd w) v).gddr = r.gddr
    rw [hframe, State.setCore_gddr, hy.gddr]
    rfl
  · show (vset y c (vVd w) v).queues = r.queues
    rw [hframe, State.setCore_queues, hy.queues]
    rfl
  · show (vset y c (vVd w) v).core d = r.core d
    rw [vset_core_other _ _ _ hd, hy.core, vecReady_core, queuedAlone_core_other hd]
  · rw [vecEnd, State.unit_setUnit_other _ _ _ _ hd, vset_unit, hy.unit, vecReady_unit_other hd]

theorem vecEnd_regs (sd : Option (Nat × W64)) (x : State) : (vecEnd x c sd).regs = x.regs := by
  cases sd <;> rfl

theorem vset_regs (x : State) (i : Nat) : (vset x c i v).regs = x.regs := by
  rw [vset_frame]
  rfl

/-- A vector operation that takes effect as a write of VD after no more than an event. -/
theorem vec_puts (ho : o.queue = some .ve) (h : Issues (strike s us) c w o) (hidle : unitIdle (s.unit c) .ve = true)
    (hy : Quiet (vecReady (strike s us) c w o) y)
    (hdo : veDo (vecReady (strike s us) c w o) c (((strike s us).core c).entry w) o = (vset y c (vVd w) v, .done none)) :
    ∃ t, exec (instrOf o c true us) s = .next t ∧ PutsVd (strike s us) t c w v ∧ t.regs = y.regs := by
  have hve : (y.unit c).ve = [] := by rw [hy.unit]; exact vecReady_ve (by rw [strike_unit]; exact hidle)
  exact ⟨_, vec_runs ho h hidle hdo (by rw [vset_unit]; exact hve)
    (vset_runsFree _ _ (vecReady_quiet_runsFree (issues_free h) hy)), vecEnd_putsVd (issues_free h) hy,
    (vecEnd_regs none _).trans (vset_regs y _)⟩

/-- A vector operation that takes effect as a write of VD alone. -/
theorem vec_puts_still (ho : o.queue = some .ve) (h : Issues (strike s us) c w o) (hidle : unitIdle (s.unit c) .ve = true)
    (hdo : veDo (vecReady (strike s us) c w o) c (((strike s us).core c).entry w) o =
      (vset (vecReady (strike s us) c w o) c (vVd w) v, .done none)) :
    ∃ t, exec (instrOf o c true us) s = .next t ∧ PutsVd (strike s us) t c w v ∧ t.regs = (strike s us).regs :=
  vec_puts (y := vecReady (strike s us) c w o) ho h hidle (quiet_refl _) hdo

end

/-! ### The effects, operation by operation (R40) -/

section
variable (s : State) (c : CoreId) (e : Entry)

theorem veSrd_none (h : vAux e.word % 2 = 0) : veSrd s c e = (s, some none) := by
  unfold veSrd
  rw [if_neg (by omega)]

theorem veArith_lanes (kind : Nat) (h : kind = 2 ∨ vAux e.word % 2 = 0) (h3 : kind ≠ 3) :
    let b := fmtBits (vFmt e.word)
    let va := vget s c (vVa e.word)
    let vb := vget s c (vVb e.word)
    veArith s c e kind = (vset s c (vVd e.word) (laneReg e.word va vb 0#8192 (fun i =>
      arithLane kind (vFmt e.word) (lane b va i) (lane b vb i) (e4m3Nan e.word (lane b va i) (lane b vb i)) none)),
      .done none) := by
  have hsrd : (if kind = 2 then (s, some none) else veSrd s c e) = (s, some none) := by
    split
    · rfl
    · next hk => exact veSrd_none s c e (h.resolve_left hk)
  unfold veArith
  simp only [hsrd, h3, if_false]
  rfl

theorem veArith_fma (h : vAux e.word % 2 = 0) :
    let b := fmtBits (vFmt e.word)
    let va := vget s c (vVa e.word)
    let vb := vget s c (vVb e.word)
    let vc := vget s c (vVc e.word)
    veArith s c e 3 = (vset s c (vVd e.word) (laneReg e.word va vb vc (fun i =>
      fmaLane (vFmt e.word) (lane b va i) (lane b vb i) (lane b vc i) (e4m3Nan e.word (lane b va i) (lane b vb i)) none)),
      .done none) := by
  have hsrd : (if 3 = 2 then (s, some none) else veSrd s c e) = (s, some none) := veSrd_none s c e h
  unfold veArith
  simp only [hsrd, if_true]
  rfl

/-- The first slot of another kind that VDEQ meets, an event of its own (R98). -/
def deqEv : State :=
  match ((List.range (fmtLanes (vFmt2 e.word))).map (fun i => (vAux e.word + entCb (deqEntry s c e i)) % 16)).find?
      (fun i => kindMismatch (vFmt e.word) (cbGet s c i)) with
  | some i => numEv s c 0x3004 i e.pc
  | none => s

theorem deqEv_quiet : Quiet s (deqEv s c e) := by
  unfold deqEv
  split
  · exact State.raise_quiet (quiet_refl s)
  · exact quiet_refl s

theorem deqEv_none (h : ∀ i, i < fmtLanes (vFmt2 e.word) →
    kindMismatch (vFmt e.word) (cbGet s c ((vAux e.word + entCb (deqEntry s c e i)) % 16)) = false) : deqEv s c e = s := by
  have hfind : ((List.range (fmtLanes (vFmt2 e.word))).map (fun i => (vAux e.word + entCb (deqEntry s c e i)) % 16)).find?
      (fun i => kindMismatch (vFmt e.word) (cbGet s c i)) = none := by
    rw [List.find?_eq_none]
    intro x hx
    obtain ⟨i, hi, rfl⟩ := List.mem_map.mp hx
    rw [h i (List.mem_range.mp hi)]
    exact Bool.false_ne_true
  unfold deqEv
  rw [hfind]

theorem veDeq_eq : veDeq s c e = (vset (deqEv s c e) c (vVd e.word) (deqReg s c e), .done none) := rfl

theorem veAddx_eq : veDo s c e .vaddx = (vset s c (vVd e.word) (ofLanes 64 ((List.range 128).map (fun i =>
    (addFx (BitVec.ofNat 64 (lane 64 (vget s c (vVa e.word)) i))
      (BitVec.ofNat 64 (lane 64 (vget s c (vVb e.word)) i))).toNat))), .done none) := by
  have hzip : ∀ a b : VReg, List.zipWith (fun a b => (addFx (BitVec.ofNat 64 a) (BitVec.ofNat 64 b)).toNat) (lanes 8 a)
      (lanes 8 b) = (List.range 128).map (fun i =>
        (addFx (BitVec.ofNat 64 (lane 64 a i)) (BitVec.ofNat 64 (lane 64 b i))).toNat) := by
    intro a b
    unfold lanes
    rw [List.zipWith_map]
    exact List.zipWith_self
  show (vset s c (vVd e.word) (ofLanes 64 (List.zipWith _ _ _)), VeEnd.done none) = _
  rw [hzip]

end

section
variable {r : State} {c : CoreId} {w : W128} {o : Op}

theorem deqEntry_vecReady (i : Nat) :
    deqEntry (vecReady r c w o) c ((r.core c).entry w) i = deqEntry r c ((r.core c).entry w) i := rfl

theorem deqReg_vecReady : deqReg (vecReady r c w o) c ((r.core c).entry w) = deqReg r c ((r.core c).entry w) := by
  unfold deqReg
  simp only [vget_vecReady, cbGet_vecReady]
  rfl

end

/-! ### The scalar results of VRED and VMOVS (R47) -/

theorem Core.sset_sreg_congr {k k' : Core} (h : k'.sreg = k.sreg) (i : Nat) (v : W64) :
    (k'.sset i v).sreg = (k.sset i v).sreg := by
  unfold Core.sset
  split
  · split
    · exact h
    · rw [h]
  · exact h

/-- The completion of an operation that owes a scalar register writes it, where it is not S0. -/
theorem vecEnd_owed (x : State) (c : CoreId) (i : Nat) (v : W64) :
    let t := vecEnd x c (if i = 0 then none else some (i, v))
    (t.core c).sreg = ((x.core c).sset i v).sreg ∧ (t.core c).pc = (x.core c).pc ∧ (t.core c).vreg = (x.core c).vreg ∧
    t.locals = x.locals ∧ t.regs = x.regs := by
  intro t
  by_cases hi : i = 0
  · have ht : t = x.setUnit c { x.unit c with ve := [] } := by simp only [t, hi, if_true, vecEnd]
    rw [ht, hi, Core.sset_zero]
    exact ⟨rfl, rfl, rfl, rfl, rfl⟩
  · have ht : t = (x.setUnit c { x.unit c with ve := [] }).setCore c
        { (x.core c).sset i v with pendSd := (x.core c).pendSd.erase i } := by simp only [t, hi, if_false, vecEnd]
    rw [ht, State.core_setCore_self]
    refine ⟨rfl, ?_, ?_, rfl, rfl⟩
    · rw [Core.sset_eq]
    · rw [Core.sset_eq]

/-- Settles O15: the operation takes effect in the state that its issue leaves, whose V registers are those before. -/
theorem vectorRegisterResult : Obligations.VectorRegisterResult := by
  unfold Obligations.VectorRegisterResult
  constructor
  · intro c us s w o r k va vb vc vd f b e fits put h hidle
    have hput : ∀ v, (∃ t, exec (instrOf o c true us) s = .next t ∧ PutsVd r t c w v ∧ (fits → t.regs = r.regs)) → put v := by
      rintro v ⟨t, hexec, ht, hregs⟩
      exact ⟨t, hexec, ht.vd, ht.others, ht.pc, ht.sreg, ht.preg, ht.run, ht.locals, ht.gddr, hregs, ht.queues, ht.rest⟩
    have hstill : ∀ v, o.queue = some .ve → veDo (vecReady r c w o) c e o = (vset (vecReady r c w o) c (vVd w) v, .done none) →
        put v := by
      intro v ho hdo
      obtain ⟨t, hexec, ht, hregs⟩ := vec_puts_still ho h hidle hdo
      exact hput v ⟨t, hexec, ht, fun _ => hregs⟩
    have hsa : snapGet e.s (vSa e.word) = k.sget (vSa w) := snapGet_snap k (fld_lt w 48 5)
    refine ⟨?_, ?_, ?_, ?_, ?_, ?_, ?_, ?_, ?_, ?_, ?_, ?_, ?_⟩
    · rintro rfl haux
      refine hstill _ rfl ((veArith_lanes _ c e 0 (.inr haux) (by decide)).trans ?_)
      simp only [vget_vecReady]
      rfl
    · rintro rfl haux
      refine hstill _ rfl ((veArith_lanes _ c e 1 (.inr haux) (by decide)).trans ?_)
      simp only [vget_vecReady]
      rfl
    · rintro rfl
      refine hstill _ rfl ((veArith_lanes _ c e 2 (.inl rfl) (by decide)).trans ?_)
      simp only [vget_vecReady]
      rfl
    · rintro rfl haux
      refine hstill _ rfl ((veArith_fma _ c e haux).trans ?_)
      simp only [vget_vecReady]
      rfl
    · rintro rfl
      refine hstill _ rfl ?_
      unfold veDo veMax
      simp only [vget_vecReady]
      rfl
    · rintro rfl
      refine hstill _ rfl ?_
      unfold veDo veMax
      simp only [vget_vecReady]
      rfl
    · rintro rfl
      refine hstill _ rfl ?_
      unfold veDo
      simp only [vget_vecReady]
      rfl
    · rintro rfl
      have hdo : veDo (vecReady r c w .vdeq) c e .vdeq =
          (vset (deqEv (vecReady r c w .vdeq) c e) c (vVd w) (deqReg r c e), .done none) := by
        have hreg : deqReg (vecReady r c w .vdeq) c e = deqReg r c e := deqReg_vecReady
        rw [← hreg]
        exact veDeq_eq _ c e
      obtain ⟨t, hexec, ht, hregs⟩ := vec_puts rfl h hidle (deqEv_quiet _ c e) hdo
      refine hput _ ⟨t, hexec, ht, fun hfits => ?_⟩
      rw [hregs, deqEv_none _ c e fun i hi => ?_]
      · rfl
      · rw [cbGet_vecReady]
        exact hfits rfl i hi
    · rintro rfl
      refine hstill _ rfl ?_
      unfold veDo veHad
      simp only [vget_vecReady]
      rfl
    · rintro rfl
      refine hstill _ rfl ?_
      unfold veDo
      simp only [vget_vecReady, hsa]
      rfl
    · rintro rfl
      refine hstill _ rfl ((veAddx_eq _ c e).trans ?_)
      simp only [vget_vecReady]
      rfl
    · rintro rfl
      refine hstill _ rfl ?_
      unfold veDo
      simp only [vget_vecReady]
      rfl
    · rintro rfl
      refine hstill _ rfl ?_
      unfold veDo
      simp only [hsa]
      rfl
  · intro c us s w r k va f x hidle
    have hve : ∀ o, ((vecReady r c w o).unit c).ve = [] := fun o => vecReady_ve (by rw [strike_unit]; exact hidle)
    constructor
    · intro h
      obtain ⟨hsreg, -, -, -, hpc⟩ := queuedAlone_regs (r := r) (c := c) (w := w) (o := .vred) (u := .ve)
      have hdo : veDo (vecReady r c w .vred) c (k.entry w) .vred =
          (vset (vecReady r c w .vred) c (vVd w) (BitVec.ofNat 8192 (vredVal f va)),
            .done (if vSd w = 0 then none else some (vSd w, BitVec.ofNat 64 (vredVal f va)))) := by
        unfold veDo veRed
        simp only [vget_vecReady]
        rfl
      have hexec := vec_runs rfl h hidle hdo ((congrArg Units.ve (vset_unit _ c c _ _)).trans (hve _))
        (vset_runsFree _ _ (vecReady_runsFree (issues_free h)))
      obtain ⟨h1, h2, h3, h4, h5⟩ := vecEnd_owed
        (vset (vecReady r c w .vred) c (vVd w) (BitVec.ofNat 8192 (vredVal f va))) c (vSd w) (BitVec.ofNat 64 (vredVal f va))
      refine ⟨_, hexec, ?_, fun i hi => ?_, ?_, ?_, ?_, ?_⟩
      · rw [vget_congr h3]
        exact vget_vset_self _ c _ (fld_lt w 16 6)
      · rw [vget_congr h3, vget_vset_other _ c _ hi]
        exact vget_vecReady i
      · rw [h1]
        exact Core.sset_sreg_congr (by rw [vset_core]; exact hsreg) _ _
      · rw [h2, vset_core]
        exact hpc
      · rw [h4, vset_frame]
        rfl
      · rw [h5, vset_regs]
        rfl
    · intro h
      obtain ⟨hsreg, -, hvreg, -, hpc⟩ := queuedAlone_regs (r := r) (c := c) (w := w) (o := .vmovs) (u := .ve)
      have hdo : veDo (vecReady r c w .vmovs) c (k.entry w) .vmovs =
          (vecReady r c w .vmovs, .done (if vSd w = 0 then none else some (vSd w, BitVec.ofNat 64
            (if f = 6 ∨ f = 7 then ofInt 64 (sext (fmtBits f) x) else x)))) := by
        unfold veDo veMovs
        simp only [vget_vecReady]
        rfl
      have hexec := vec_runs rfl h hidle hdo (hve _) (vecReady_runsFree (issues_free h))
      obtain ⟨h1, h2, h3, h4, h5⟩ := vecEnd_owed (vecReady r c w .vmovs) c (vSd w) (BitVec.ofNat 64
        (if f = 6 ∨ f = 7 then ofInt 64 (sext (fmtBits f) x) else x))
      exact ⟨_, hexec, h3.trans hvreg, h1.trans (Core.sset_sreg_congr hsreg _ _), h2.trans hpc, h4, h5⟩

end Sys2Proof.Machine
end

section
/-!
PROOF. The vector operations on the scratchpad (O16): one checked read and at most one write, of the bytes named.
-/

namespace Sys2Proof.Machine

/-! ### Little-endian numbers (R4) -/

theorem leNat_leBytes (n x : Nat) : leNat (leBytes n x) = x % 256 ^ n := by
  induction n generalizing x with
  | zero => simp [leBytes, leNat, Nat.mod_one]
  | succ n ih =>
    have hbyte : (BitVec.ofNat 8 x).toNat = x % 256 := BitVec.toNat_ofNat x 8
    rw [leBytes, leNat, ih, hbyte, Nat.pow_succ', Nat.mod_mul]

/-- An element of a list put together from pieces of one length. -/
theorem getElem?_flatMap_pieces {α : Type} (f : Nat → List α) {n : Nat} (hlen : ∀ b, (f b).length = n) {m b i : Nat}
    (hb : b < m) (hi : i < n) : ((List.range m).flatMap f)[n * b + i]? = (f b)[i]? := by
  have hall : ∀ m, ((List.range m).flatMap f).length = n * m := fun m => by
    rw [List.length_flatMap, List.map_congr_left fun x _ => hlen x, List.map_const', List.length_range, List.sum_replicate,
      smul_eq_mul, Nat.mul_comm]
  induction m with
  | zero => exact absurd hb (Nat.not_lt_zero b)
  | succ m ih =>
    rw [List.range_succ, List.flatMap_append]
    rcases Nat.lt_succ_iff_lt_or_eq.mp hb with hlt | heq
    · have hin : n * b + i < ((List.range m).flatMap f).length := by
        rw [hall]
        calc n * b + i < n * b + n := by omega
          _ = n * (b + 1) := by ring
          _ ≤ n * m := Nat.mul_le_mul_left n hlt
      rw [List.getElem?_append_left hin, ih hlt]
    · subst heq
      rw [List.getElem?_append_right (by rw [hall]; omega), hall, Nat.add_sub_cancel_left, List.flatMap_singleton]

theorem length_flatMap_pieces {α : Type} (f : Nat → List α) {n : Nat} (hlen : ∀ b, (f b).length = n) (m : Nat) :
    ((List.range m).flatMap f).length = n * m := by
  rw [List.length_flatMap, List.map_congr_left fun x _ => hlen x, List.map_const', List.length_range, List.sum_replicate,
    smul_eq_mul, Nat.mul_comm]

/-- The piece of a written string that one of its parts is. -/
theorem memory_read_write_piece (f : Nat → List Byte) {n : Nat} (hlen : ∀ b, (f b).length = n) (mem : Memory) (a : Nat)
    {m b : Nat} (hb : b < m) (hm : Memory.wf mem = true) :
    (mem.write a ((List.range m).flatMap f)).read (a + n * b) n = f b := by
  refine List.ext_getElem ?_ fun i hi hi' => ?_
  · rw [Memory.read, List.length_map, List.length_range, hlen]
  · have hin : i < n := by rwa [hlen] at hi'
    have hpos : n * b + i < ((List.range m).flatMap f).length := by
      rw [length_flatMap_pieces f hlen]
      calc n * b + i < n * b + n := by omega
        _ = n * (b + 1) := by ring
        _ ≤ n * m := Nat.mul_le_mul_left n hb
    have hget := memory_get_write_inside _ mem a (n * b + i) hm hpos
    have hpiece := getElem?_flatMap_pieces f hlen hb hin
    rw [List.getElem?_eq_getElem hpos, List.getElem?_eq_getElem hi'] at hpiece
    simp only [Memory.read, List.getElem_map, List.getElem_range]
    rw [Nat.add_assoc, hget]
    exact Option.some.inj hpiece

/-- A part of a read is a read of its own. -/
theorem memory_read_part (m : Memory) (a : Nat) {n i j : Nat} (h : i + j ≤ n) :
    ((m.read a n).drop i).take j = m.read (a + i) j := by
  refine List.ext_getElem ?_ fun x hx hx' => ?_
  · simp only [Memory.read, List.length_take, List.length_drop, List.length_map, List.length_range]
    omega
  · simp only [Memory.read, List.getElem_take, List.getElem_drop, List.getElem_map, List.getElem_range, Nat.add_assoc]

theorem satAdd_eq_min (w x k : Nat) : satAdd w x k = min (2 ^ w - 1) (x + k) := by
  have hpos : 0 < 2 ^ w := Nat.two_pow_pos w
  unfold satAdd
  split <;> omega

/-! ### Reads and writes of a vector operation -/

theorem veRead_free {s : State} {c : CoreId} (e : Entry) {off align len : Nat} (ha : off % align = 0)
    (hlen : off + len ≤ 0x1000000) (h : SpFree s c off len) :
    veRead s c e off align len = (s, some (spBytes s c off len)) := by
  unfold veRead
  rw [if_neg (by unfold spSize; omega), spRead_free h]

theorem veWrite_free {s : State} {c : CoreId} {off : Nat} {bs : List Byte} (h : SpFree s c off bs.length) :
    veWrite s c off bs = (wroteSp s c off bs, .done none) := by
  unfold veWrite
  rw [spWrite_free h]

theorem veOff_entry (k : Core) (w : W128) : veOff (k.entry w) = (k.sget (vSa w) + fImm w).toNat := by
  show (snapGet k.snap (vSa w) + fImm w).toNat = _
  rw [snapGet_snap k (i := vSa w) (fld_lt w 48 5)]

theorem veOfs_entry (k : Core) (w : W128) : veOfs (k.entry w) = (k.sget (vSa w) + BitVec.ofNat 64 (qOfs w)).toNat := by
  show (snapGet k.snap (vSa w) + BitVec.ofNat 64 (qOfs w)).toNat = _
  rw [snapGet_snap k (i := vSa w) (fld_lt w 48 5)]

section
variable {o : Op} {c : CoreId} {us : List Upset} {s : State} {w : W128}

/-- A vector operation that takes effect as a write of its own scratchpad. -/
theorem vec_writes {off : Nat} {bs : List Byte} (ho : o.queue = some .ve) (h : Issues (strike s us) c w o)
    (hidle : unitIdle (s.unit c) .ve = true)
    (hdo : veDo (vecReady (strike s us) c w o) c (((strike s us).core c).entry w) o =
      (wroteSp (vecReady (strike s us) c w o) c off bs, .done none)) :
    ∃ t, exec (instrOf o c true us) s = .next t ∧ (t.core c).vreg = ((strike s us).core c).vreg ∧
      (t.core c).pc = (loopNext ((strike s us).core c) ((strike s us).core c).pc).pc ∧
      (t.loc c).sp = ((strike s us).loc c).sp.write off bs := by
  have hunit := wroteSp_unit (vecReady (strike s us) c w o) c off bs c
  have hcore := wroteSp_core (vecReady (strike s us) c w o) c off bs c
  have hve : ((vecReady (strike s us) c w o).unit c).ve = [] := vecReady_ve (by rw [strike_unit]; exact hidle)
  have hrun : RunsFree (wroteSp (vecReady (strike s us) c w o) c off bs) c := by
    unfold RunsFree
    rw [hcore]
    exact vecReady_runsFree (issues_free h)
  obtain ⟨-, -, hvreg, -, hpc⟩ := queuedAlone_regs (r := strike s us) (c := c) (w := w) (o := o) (u := .ve)
  refine ⟨_, vec_runs ho h hidle hdo (by rw [hunit]; exact hve) hrun, ?_, ?_, ?_⟩
  · rw [vecEnd, State.core_setUnit, hcore]
    exact hvreg
  · rw [vecEnd, State.core_setUnit, hcore]
    exact hpc
  · rw [vecEnd, State.loc_setUnit, wroteSp_loc]
    rfl

end

/-- A vector operation that takes effect as a new codebook slot. -/
theorem vec_loads {o : Op} {c : CoreId} {us : List Upset} {s : State} {w : W128} {j : Fin 16} {slot : CbSlot}
    (ho : o.queue = some .ve) (h : Issues (strike s us) c w o) (hidle : unitIdle (s.unit c) .ve = true)
    (hdo : veDo (vecReady (strike s us) c w o) c (((strike s us).core c).entry w) o =
      ((vecReady (strike s us) c w o).setCore c { (vecReady (strike s us) c w o).core c with
        cbs := ((vecReady (strike s us) c w o).core c).cbs.set j slot }, .done none)) :
    ∃ t, exec (instrOf o c true us) s = .next t ∧ (t.core c).cbs = ((strike s us).core c).cbs.set j slot ∧
      (t.core c).pc = (loopNext ((strike s us).core c) ((strike s us).core c).pc).pc ∧
      (t.loc c).sp = ((strike s us).loc c).sp := by
  have hve : ((vecReady (strike s us) c w o).unit c).ve = [] := vecReady_ve (by rw [strike_unit]; exact hidle)
  have hrun : RunsFree ((vecReady (strike s us) c w o).setCore c { (vecReady (strike s us) c w o).core c with
      cbs := ((vecReady (strike s us) c w o).core c).cbs.set j slot }) c := by
    unfold RunsFree
    rw [State.core_setCore_self]
    exact vecReady_runsFree (issues_free h)
  obtain ⟨-, -, -, hcbs, hpc⟩ := queuedAlone_regs (r := strike s us) (c := c) (w := w) (o := o) (u := .ve)
  refine ⟨_, vec_runs ho h hidle hdo hve hrun, ?_, ?_, rfl⟩
  · rw [vecEnd, State.core_setUnit, State.core_setCore_self]
    exact congrArg (fun v => Vector.set v j slot) hcbs
  · rw [vecEnd, State.core_setUnit, State.core_setCore_self]
    exact hpc

/-- The bins of a histogram that fall on a number. -/
theorem length_filter_map_eq {α : Type} (l : List α) (f : α → Nat) (b : Nat) :
    ((l.map f).filter (fun x => x == b)).length = (l.filter (fun i => f i = b)).length := by
  rw [List.filter_map, List.length_map]
  rfl

/-- The counts that VHIST leaves (R142). -/
def histBytes (bs : List Byte) (bins : List Nat) (b : Nat) : List Byte :=
  leBytes 4 (satAdd 32 (leAt bs (4 * b) 4) (bins.filter (fun x => x == b)).length)

theorem leNat_histBytes (m : Memory) (a : Nat) (bins : List Nat) {b : Nat} (hb : b < 64) :
    leNat (histBytes (m.read a 256) bins b) =
      min (2 ^ 32 - 1) (leNat (m.read (a + 4 * b) 4) + (bins.filter (fun x => x == b)).length) := by
  unfold histBytes leAt
  rw [leNat_leBytes, memory_read_part m a (by omega), satAdd_eq_min]
  exact Nat.mod_eq_of_lt (by omega)

/-- Settles O16: each operation reads its bytes from the state that its issue leaves, and writes VD, a slot or the bytes. -/
theorem vectorMemoryResult : Obligations.VectorMemoryResult := by
  unfold Obligations.VectorMemoryResult
  intro c us s w r k a h bytes hidle hmem
  have hoff : veOff (k.entry w) = a := veOff_entry k w
  have hofs : veOfs (k.entry w) = h := veOfs_entry k w
  have hwf : Memory.wf (r.loc c).sp = true := hmem.2.2.1 c
  refine ⟨fun hi ha hlen hfree => ?_, fun hi ha hlen hfree => ?_, fun hi ha hlen hfree slot hslot => ?_,
    fun hi ha hlen hfree => ?_⟩
  · have hread := veRead_free (k.entry w) ha hlen (spFree_vecReady (w := w) (o := .vld) hfree)
    have hdo : veDo (vecReady r c w .vld) c (k.entry w) .vld =
        (vset (vecReady r c w .vld) c (vVd w) (vregOf (bytes 1024)), .done none) := by
      unfold veDo
      rw [hoff]
      simp only [hread]
      rfl
    obtain ⟨t, hexec, ht, -⟩ := vec_puts_still rfl hi hidle hdo
    exact ⟨t, hexec, ht.vd, ht.others, ht.pc, by rw [State.loc, ht.locals]; rfl⟩
  · have hwrite := veWrite_free (s := vecReady r c w .vst) (c := c) (off := a)
      (bs := leBytes 1024 (vget r c (vVa w)).toNat) (by rw [length_leBytes]; exact spFree_vecReady hfree)
    have hdo : veDo (vecReady r c w .vst) c (k.entry w) .vst =
        (wroteSp (vecReady r c w .vst) c a (leBytes 1024 (vget r c (vVa w)).toNat), .done none) := by
      unfold veDo
      rw [hoff]
      dsimp only
      rw [if_neg (by unfold spSize; omega), vget_vecReady]
      exact hwrite
    obtain ⟨t, hexec, hvreg, hpc, hsp⟩ := vec_writes rfl hi hidle hdo
    refine ⟨t, hexec, hvreg, hpc, fun x => ?_⟩
    rw [hsp]
    exact memory_get_write_leBytes 1024 _ _ a x hwf
  · have hread := veRead_free (k.entry w) ha hlen (spFree_vecReady (w := w) (o := .vcbld) hfree)
    have hbytes : spBytes (vecReady r c w .vcbld) c a 576 = bytes 576 := rfl
    have hdo : veDo (vecReady r c w .vcbld) c (k.entry w) .vcbld =
        ((vecReady r c w .vcbld).setCore c { (vecReady r c w .vcbld).core c with
          cbs := ((vecReady r c w .vcbld).core c).cbs.set (⟨vAux w % 16, Nat.mod_lt _ (by decide)⟩ : Fin 16) slot },
          .done none) := by
      unfold veDo veCbld
      rw [hoff]
      simp only [hread, hbytes, hslot]
      rfl
    obtain ⟨t, hexec, hcbs, hpc, hsp⟩ := vec_loads rfl hi hidle hdo
    refine ⟨t, hexec, ?_, fun i hne => ?_, hpc, hsp⟩
    · unfold cbGet
      rw [hcbs]
      exact Vector.getElem_set_self _
    · unfold cbGet
      rw [hcbs]
      exact Vector.getElem_set_ne _ _ (Ne.symm hne)
  · have hread := veRead_free (k.entry w) ha hlen (spFree_vecReady (w := w) (o := .vhist) hfree)
    let bins := (List.range (if fld w 96 10 = 0 then fmtLanes (vFmt w) else fld w 96 10)).map (fun i =>
      histBin (vFmt w) (lane (fmtBits (vFmt w)) (vget r c (vVa w)) i) (sext 8 (fld w 88 8)))
    have hpieces : ∀ b, (histBytes ((r.loc c).sp.read h 256) bins b).length = 4 := fun b => length_leBytes 4 _
    have hlen256 := length_flatMap_pieces _ hpieces 64
    have hwrite := veWrite_free (s := vecReady r c w .vhist) (c := c) (off := h)
      (bs := (List.range 64).flatMap (histBytes ((r.loc c).sp.read h 256) bins))
      (by rw [hlen256]; exact spFree_vecReady hfree)
    have hdo : veDo (vecReady r c w .vhist) c (k.entry w) .vhist =
        (wroteSp (vecReady r c w .vhist) c h ((List.range 64).flatMap (histBytes ((r.loc c).sp.read h 256) bins)),
          .done none) := by
      unfold veDo veHist
      rw [hofs]
      simp only [hread, vget_vecReady]
      exact hwrite
    obtain ⟨t, hexec, hvreg, hpc, hsp⟩ := vec_writes rfl hi hidle hdo
    refine ⟨t, hexec, hvreg, hpc, fun b hb => ?_, fun x hx => ?_⟩
    · have hpiece := memory_read_write_piece _ hpieces (r.loc c).sp h hb hwf
      have hcount := leNat_histBytes (r.loc c).sp h bins hb
      rw [← hpiece, ← hsp, length_filter_map_eq] at hcount
      exact hcount
    · rw [hsp]
      exact memory_get_write_outside _ _ h x hwf (by rw [hlen256]; exact hx)

end Sys2Proof.Machine
end

section
/-!
PROOF. Starting and stopping a core, and the windows on its instruction memory (O24).
-/

namespace Sys2Proof.Machine

/-! ### START and STEP (R60, R361) -/

theorem ifOn_on {s t : State} {d : Nat} (hon : s.domainOn d = true) (hrec : s.power.recovery = false) : s.ifOn d t = t := by
  unfold State.ifOn
  rw [hon, hrec]
  rfl

/-- What the begin of a core's run leaves as it was, and what it makes of the core. -/
def Begun (s t : State) (c : CoreId) (run : Run) (stepping : Bool) : Prop :=
  (t.core c).run = run ∧ (t.core c).stepping = stepping ∧ (t.core c).pc = (s.core c).pc ∧
  (t.core c).sreg = (s.core c).sreg ∧ (t.core c).vreg = (s.core c).vreg ∧ (t.core c).status = (s.core c).status ∧
  t.units = s.units ∧ t.locals = s.locals ∧ t.regs = s.regs ∧ ∀ d, d ≠ c → t.core d = s.core d

theorem beginBeat_core (s : State) (c : CoreId) : ∃ b, (beginBeat s c).core c = { s.core c with beat := b } :=
  ⟨_, State.core_setCore_self _ c _⟩

/-- The begin of a beat on a core that has just been replaced. -/
theorem begun_of_setCore {s : State} {c : CoreId} {k : Core} {run : Run} {stepping : Bool} (hrun : k.run = run)
    (hst : k.stepping = stepping) (hpc : k.pc = (s.core c).pc) (hsreg : k.sreg = (s.core c).sreg)
    (hvreg : k.vreg = (s.core c).vreg) (hstatus : k.status = (s.core c).status) :
    Begun s (beginBeat (s.setCore c k) c) c run stepping := by
  obtain ⟨b, hcore⟩ := beginBeat_core (s.setCore c k) c
  rw [State.core_setCore_self] at hcore
  refine ⟨?_, ?_, ?_, ?_, ?_, ?_, rfl, rfl, rfl, fun d hd => ?_⟩
  · rw [hcore]; exact hrun
  · rw [hcore]; exact hst
  · rw [hcore]; exact hpc
  · rw [hcore]; exact hsreg
  · rw [hcore]; exact hvreg
  · rw [hcore]; exact hstatus
  · exact (State.core_setCore_other _ c d _ hd).trans (State.core_setCore_other s c d _ hd)

section
variable {s : State} {c : CoreId} (step : Bool)

/-- The status of a core whose job's image is in the bivouac (R361). -/
def savedStatus (k : Core) : Prop := k.status = 0xF009#16 ∨ k.status = 0xF00A#16

theorem coreGo_still (h : (s.core c).run ≠ .halted) : coreGo s c step = s := if_pos (.inl h)

theorem coreGo_starts (hon : s.domainOn c.val = true) (hrun : (s.core c).run = .halted) (hst : ¬ savedStatus (s.core c)) :
    Begun s (coreGo s c step) c .running step := by
  have hgo : coreGo s c step = beginBeat (s.setCore c { s.core c with run := .running, stepping := step, stopReq := false,
                                                                        blocked := none }) c := by
    unfold coreGo
    dsimp only
    rw [if_neg (by simp [hrun, hon]), if_neg (fun h => hst h.1)]
  rw [hgo]
  exact begun_of_setCore rfl rfl rfl rfl rfl rfl

theorem coreGo_restores {j : Nat} {sv : Saved} (hon : s.domainOn c.val = true) (hrun : (s.core c).run = .halted)
    (hst : savedStatus (s.core c)) (hj : s.jobOf c = some j) (hsv : tget s.jobs.saved (c.val * 16 + j) = some sv) :
    Begun s (coreGo s c step) c (.restoring step) (s.core c).stepping := by
  have hsaved : savedOf s c = some sv := by
    unfold savedOf
    rw [hj]
    exact hsv
  have hgo : coreGo s c step = beginBeat (s.setCore c { s.core c with run := .restoring step, stopReq := false }) c := by
    unfold coreGo
    dsimp only
    rw [if_neg (by simp [hrun, hon]), if_pos ⟨hst, by rw [hsaved]; rfl⟩]
  rw [hgo]
  exact begun_of_setCore rfl rfl rfl rfl rfl rfl

/-! ### STOP (R60) -/

theorem coreStop_halted (h : (s.core c).run = .halted) : coreStop s c = s := by
  unfold coreStop
  simp only [h]

theorem coreStop_running (h : (s.core c).run = .running) : coreStop s c =
    startDrain ((s.setUnit c (s.unit c).heard).setCore c { s.core c with blocked := none }) c .stop := by
  unfold coreStop
  simp only [h]
  rfl

theorem coreStop_waits (h : (s.core c).run = .running) (hd : drained (s.unit c) = false) : coreStop s c =
    (s.setUnit c (s.unit c).heard).setCore c
      { s.core c with run := .draining .stop, blocked := none, stopReq := false, stepping := false } := by
  have hwait : drainDone (((s.setUnit c (s.unit c).heard).setCore c { s.core c with blocked := none }).unit c) .stop = false := by
    rw [State.unit_setCore, State.unit_setUnit_self]
    exact hd
  rw [coreStop_running h, startDrain_waits hwait, State.core_setCore_self, State.setCore_setCore]

/-- The state in which a core drains towards a halt with nothing to wait for. -/
theorem startDrain_halts {d : Drain} (hdone : drainDone (s.unit c) d = true) (hy : ∀ pc m, d ≠ .yield pc m) (hf : d ≠ .forced) :
    startDrain s c d =
      enterHalted (s.setCore c { s.core c with run := .draining d, stopReq := false, stepping := false }) c (drainStatus d) :=
  settle_halts (by rw [State.core_setCore_self]) hdone hy hf

/-- The state in which a STOP has begun a drain. -/
def stopStage (s : State) (c : CoreId) : State :=
  (s.setUnit c (s.unit c).heard).setCore c
    { s.core c with run := .draining .stop, blocked := none, stopReq := false, stepping := false }

theorem coreStop_enters (h : (s.core c).run = .running) (hd : drained (s.unit c) = true) :
    coreStop s c = enterHalted (stopStage s c) c 0xF007#16 := by
  have hdone : drainDone (((s.setUnit c (s.unit c).heard).setCore c { s.core c with blocked := none }).unit c) .stop = true := by
    rw [State.unit_setCore, State.unit_setUnit_self]
    exact hd
  rw [coreStop_running h, startDrain_halts hdone (by simp) (by simp), State.core_setCore_self, State.setCore_setCore]
  rfl

theorem coreStop_halts (h : (s.core c).run = .running) (hd : drained (s.unit c) = true) :
    let t := coreStop s c
    (t.core c).run = .halted ∧ (t.core c).status = 0xF007#16 ∧ (t.core c).pc = (s.core c).pc ∧
    (t.core c).sreg = (s.core c).sreg ∧ (t.core c).vreg = (s.core c).vreg ∧ t.locals = s.locals ∧ t.gddr = s.gddr ∧
    ∀ d, d ≠ c → t.core d = s.core d := by
  intro t
  have ht : t = enterHalted (stopStage s c) c 0xF007#16 := coreStop_enters h hd
  have hcore : t.core c = (stopStage s c |>.core c).haltedAs 0xF007#16 := by rw [ht]; exact enterHalted_core _ c _
  rw [stopStage, State.core_setCore_self] at hcore
  have haside := enterHalted_aside (stopStage s c) c 0xF007#16
  rw [← ht] at haside
  refine ⟨?_, ?_, ?_, ?_, ?_, haside.locals, haside.gddr, fun d hd => ?_⟩
  · rw [hcore]; rfl
  · rw [hcore]; rfl
  · rw [hcore]; rfl
  · rw [hcore]; rfl
  · rw [hcore]; rfl
  · rw [ht, enterHalted_core_other _ _ hd, stopStage, State.core_setCore_other _ _ _ _ hd]
    rfl

end

/-! ### Instruction memory (R31, R59) -/

theorem imemStore_word (s : State) (c : CoreId) (i : Nat) (w : W128) :
    ((imemStore s c i w).core c).word i = w ∧ (∀ j, j ≠ i → ((imemStore s c i w).core c).word j = (s.core c).word j) ∧
    tget ((imemStore s c i w).core c).imemErr i = none := by
  unfold imemStore Core.word
  dsimp only
  rw [State.core_setCore_self]
  dsimp only
  refine ⟨?_, fun j hj => ?_, ?_⟩
  · split
    · next h => rw [tget_tdel, if_pos rfl, h]; rfl
    · rw [tget_tset, if_pos rfl]; rfl
  · split
    · rw [tget_tdel, if_neg hj]
    · rw [tget_tset, if_neg hj]
  · rw [tget_tdel, if_pos rfl]

/-! ### Bits and fields of registers -/

theorem fld_congr {n m : Nat} {v : BitVec n} {w : BitVec m} {lo len : Nat}
    (h : ∀ i, i < len → v.getLsbD (lo + i) = w.getLsbD (lo + i)) : fld v lo len = fld w lo len := by
  refine Nat.eq_of_testBit_eq fun i => ?_
  unfold fld
  rw [Nat.testBit_mod_two_pow, Nat.testBit_mod_two_pow]
  by_cases hi : i < len
  · rw [Nat.testBit_shiftRight, Nat.testBit_shiftRight]
    exact congrArg _ (h i hi)
  · rw [decide_eq_false hi, Bool.false_and, Bool.false_and]

/-! ### Repair records (R88) -/

/-- The value that a write of MU_SPARE leaves: EN, and ROW where it is 0 to 8 (R90). -/
def spareValue (old v : W64) : W64 := if fld v 1 4 ≤ 8 then v &&& 0x1F#64 else putBit old 0 (bit v 0)

theorem getLsbD_spareMask (v : W64) (i : Nat) (h : i < 5) : (v &&& 0x1F#64).getLsbD i = v.getLsbD i := by
  have hm : (0x1F#64).getLsbD i = true := by
    obtain rfl | rfl | rfl | rfl | rfl : i = 0 ∨ i = 1 ∨ i = 2 ∨ i = 3 ∨ i = 4 := by omega
    all_goals rfl
  rw [BitVec.getLsbD_and, hm, Bool.and_true]

theorem spareValue_en (old v : W64) : bit (spareValue old v) 0 = bit v 0 := by
  unfold spareValue bit
  split
  · exact getLsbD_spareMask v 0 (by decide)
  · rw [getLsbD_putBit _ _ _ _ (by decide), if_pos rfl]

theorem spareValue_row (old v : W64) :
    fld (spareValue old v) 1 4 = if fld v 1 4 ≤ 8 then fld v 1 4 else fld old 1 4 := by
  unfold spareValue
  split
  · exact fld_congr fun i hi => getLsbD_spareMask v (1 + i) (by omega)
  · refine fld_congr fun i _ => ?_
    rw [getLsbD_putBit _ _ _ _ (by decide), if_neg (by omega)]

theorem muSpare_halted {s : State} {c : CoreId} (u : MuId) (v : W64) (h : (s.core c).run = .halted) :
    muSpare s c u v = s.wr (muBase c u + 0x10) (spareValue (s.rd (muBase c u + 0x10)) v) := by
  unfold muSpare spareValue
  dsimp only
  rw [if_neg (by simp [h])]
  split <;> rfl

theorem muSpare_running {s : State} {c : CoreId} (u : MuId) (v : W64) (h : (s.core c).run ≠ .halted) :
    muSpare s c u v = muEv s c u 0x2005 := if_pos h

theorem muRepair_running {s : State} {c : CoreId} (u : MuId) (v : W64) (h : (s.core c).run ≠ .halted) :
    muRepair s c u v = muEv s c u 0x2005 := (if_pos h).trans (muSpare_running u v h)

/-- The repair record of a value of MU_SPARE (log entry 64). -/
def spareRecord (x : W64) : List Byte := [1#8, BitVec.ofNat 8 (fld x 0 5)]

/-- The repair record that a write of MU_SPARE leaves (R88; log entry 64). -/
theorem muRepair_halted {s : State} {c : CoreId} (u : MuId) (v : W64) (h : (s.core c).run = .halted) :
    let x := spareValue (s.rd (muBase c u + 0x10)) v
    let t := muRepair s c u v
    t.rd (muBase c u + 0x10) = x ∧ (∀ a, a ≠ muBase c u + 0x10 → t.rd a = s.rd a) ∧ t.cores = s.cores ∧ t.units = s.units ∧
    t.locals = s.locals ∧ t.sec.flash = s.sec.flash.write (repairAt c u) (spareRecord x) := by
  intro x t
  have hm : muSpare s c u v = s.wr (muBase c u + 0x10) x := muSpare_halted u v h
  have ht : t = { s.wr (muBase c u + 0x10) x with
      sec := { s.sec with flash := s.sec.flash.write (repairAt c u) (spareRecord
                                     ((s.wr (muBase c u + 0x10) x).rd (muBase c u + 0x10))) } } := by
    show muRepair s c u v = _
    unfold muRepair
    rw [hm]
    exact if_neg (by simp [h])
  rw [State.rd_wr_self] at ht
  rw [ht]
  exact ⟨State.rd_wr_self _ _ _, fun a ha => State.rd_wr_other s _ _ _ ha, rfl, rfl, rfl, rfl⟩

theorem memory_get_write_pair (m : Memory) (a : Nat) (x y : Byte) (h : Memory.wf m = true) :
    (m.write a [x, y]).get a = x ∧ (m.write a [x, y]).get (a + 1) = y ∧
    ∀ b, b ≠ a → b ≠ a + 1 → (m.write a [x, y]).get b = m.get b :=
  ⟨memory_get_write_inside [x, y] m a 0 h Nat.zero_lt_two, memory_get_write_inside [x, y] m a 1 h Nat.one_lt_two,
    fun b h0 h1 => memory_get_write_outside [x, y] m a b h (by simp only [List.length_cons, List.length_nil]; omega)⟩

/-- Settles O24: each command of BLK_CTRL is one move of the core's run state, and each window one word or register. -/
theorem coreControlResult : Obligations.CoreControlResult := by
  unfold Obligations.CoreControlResult
  constructor
  · intro c s k u begun hon hrec
    have hgo : ∀ step, s.ifOn c.val (coreGo s c step) = coreGo s c step := fun step => ifOn_on hon hrec
    have hstop : exec (.coreStop c) s = .next (coreStop s c) := congrArg Host.Outcome.next (ifOn_on hon hrec)
    refine ⟨fun hrun h9 hA => ⟨⟨_, congrArg Host.Outcome.next (hgo false), ?_⟩, ⟨_, congrArg Host.Outcome.next (hgo true), ?_⟩⟩,
      fun j sv hrun hst hj hsv => ⟨⟨_, congrArg Host.Outcome.next (hgo false), ?_⟩,
        ⟨_, congrArg Host.Outcome.next (hgo true), ?_⟩⟩,
      fun hrun => ⟨?_, ?_⟩, fun hrun hd => ?_, fun hrun hd => ⟨_, hstop, coreStop_halts hrun hd⟩, fun hrun => ?_, ?_⟩
    · exact coreGo_starts false hon hrun (fun h => h.elim h9 hA)
    · exact coreGo_starts true hon hrun (fun h => h.elim h9 hA)
    · exact coreGo_restores false hon hrun hst hj hsv
    · exact coreGo_restores true hon hrun hst hj hsv
    · exact congrArg Host.Outcome.next ((hgo false).trans (coreGo_still false hrun))
    · exact congrArg Host.Outcome.next ((hgo true).trans (coreGo_still true hrun))
    · rw [hstop, coreStop_waits hrun hd]
      rfl
    · rw [hstop, coreStop_halted hrun]
    · exact congrArg Host.Outcome.next (ifOn_on hon hrec)
  · intro c v s k a i hon hrec
    refine ⟨fun hrun => ?_, fun hrun => ?_, ?_, fun u hrun => ?_, fun hrun => ⟨?_, ?_, fun u => ?_⟩⟩
    · exact congrArg Host.Outcome.next ((ifOn_on hon hrec).trans (if_neg (not_not_intro hrun)))
    · have hhi : imemHi s c v = imemNext (imemStore s c i (v ++ s.rd (coreBase c + 0x48))) c :=
        if_neg (not_not_intro hrun)
      obtain ⟨hword, hothers, herr⟩ := imemStore_word s c i (v ++ s.rd (coreBase c + 0x48))
      refine ⟨_, congrArg Host.Outcome.next ((ifOn_on hon hrec).trans hhi), hword, hothers, herr, State.rd_wr_self _ _ _, ?_,
        rfl, fun d hd => State.core_setCore_other s c d _ hd⟩
      show ((imemStore s c i (v ++ s.rd (coreBase c + 0x48))).core c).pc = _
      rw [imemStore, State.core_setCore_self]
    · have hread : exec (.imemDataHiRead c) s = .next (imemNext (answer s (.reg (imemHiValue s c))) c) :=
        congrArg Host.Outcome.next (if_pos (by rw [hon, hrec]; rfl))
      exact ⟨_, hread, rfl, State.rd_wr_self _ _ _, rfl⟩
    · have hexec : exec (.muSpareWrite c u v) s = .next (muRepair s c u v) := congrArg Host.Outcome.next (ifOn_on hon hrec)
      obtain ⟨hrd, hothers, hcores, hunits, hlocals, hflash⟩ := muRepair_halted u v hrun
      refine ⟨_, hexec, ?_, ?_, hothers, hcores, hunits, hlocals, fun hwf => ?_⟩
      · rw [hrd, spareValue_en]
      · rw [hrd, spareValue_row]
      · obtain ⟨h0, h1, hout⟩ := memory_get_write_pair s.sec.flash (repairAt c u) 1#8
          (BitVec.ofNat 8 (fld (spareValue (s.rd (muBase c u + 0x10)) v) 0 5)) hwf
        rw [hflash, hrd]
        refine ⟨h0, (congrArg BitVec.toNat h1).trans ?_, hout⟩
        rw [BitVec.toNat_ofNat]
        have hlt := fld_lt (spareValue (s.rd (muBase c u + 0x10)) v) 0 5
        exact Nat.mod_eq_of_lt (by omega)
    · exact congrArg Host.Outcome.next ((ifOn_on hon hrec).trans (if_pos hrun))
    · exact congrArg Host.Outcome.next ((ifOn_on hon hrec).trans (if_pos hrun))
    · exact congrArg Host.Outcome.next ((ifOn_on hon hrec).trans (muRepair_running u v hrun))

end Sys2Proof.Machine
end

section
/-!
SUPPORT. What an access to module memory or to a scratchpad outside the checks of a program touches (R226, R236, R250 to R257):
the frame of both, and that an access leaves the bytes below it as they were.
-/

namespace Sys2Proof.Machine

/-- The state `t` differs from `s` at most in what an event touches, in module memory with its errors, and in the bytes and
error marks of the scratchpad of `c`: all that the save and restore engines of the core touch (R55, R226, R250). -/
def Beside (c : CoreId) (s t : State) : Prop :=
  t = { s with tick := t.tick, ts := t.ts, regs := t.regs, host := t.host, rcl := t.rcl, net := t.net, links := t.links,
               gddr := t.gddr, gddrErr := t.gddrErr, mem := t.mem, locals := t.locals } ∧
  t.loc c = { s.loc c with sp := (t.loc c).sp, spErr := (t.loc c).spErr, fixes := (t.loc c).fixes } ∧
  ∀ d, d ≠ c → t.loc d = s.loc d

/-- The same with the bytes of module memory as they were, and no burst marked to fail that was not marked. -/
def BesideGddr (c : CoreId) (s t : State) : Prop :=
  Beside c s t ∧ t.gddr = s.gddr ∧ t.mem.checks = s.mem.checks ∧ ∀ e ∈ t.mem.crc, e ∈ s.mem.crc

section
variable {c : CoreId} {s t u : State}

theorem beside_refl (c : CoreId) (s : State) : Beside c s s := ⟨rfl, rfl, fun _ _ => rfl⟩

theorem beside_trans (h : Beside c s t) (k : Beside c t u) : Beside c s u := by
  obtain ⟨hf, hc, ho⟩ := h
  obtain ⟨kf, kc, ko⟩ := k
  refine ⟨?_, ?_, fun d hd => (ko d hd).trans (ho d hd)⟩
  · rw [kf, hf]
  · rw [kc, hc]

theorem beside_of_quiet (c : CoreId) (h : Quiet s t) : Beside c s t := by
  refine ⟨?_, by rw [h.loc], fun d _ => h.loc d⟩
  rw [h]

theorem Beside.cores (h : Beside c s t) : t.cores = s.cores := by rw [h.1]
theorem Beside.units (h : Beside c s t) : t.units = s.units := by rw [h.1]
theorem Beside.jobs (h : Beside c s t) : t.jobs = s.jobs := by rw [h.1]
theorem Beside.core (h : Beside c s t) (d : CoreId) : t.core d = s.core d := by rw [State.core, h.cores]; rfl
theorem Beside.unit (h : Beside c s t) (d : CoreId) : t.unit d = s.unit d := by rw [State.unit, h.units]; rfl

theorem besideGddr_refl (c : CoreId) (s : State) : BesideGddr c s s :=
  ⟨beside_refl c s, rfl, rfl, fun _ h => h⟩

theorem besideGddr_trans (h : BesideGddr c s t) (k : BesideGddr c t u) : BesideGddr c s u :=
  ⟨beside_trans h.1 k.1, k.2.1.trans h.2.1, k.2.2.1.trans h.2.2.1, fun e he => h.2.2.2 e (k.2.2.2 e he)⟩

theorem Quiet.mem (h : Quiet s t) : t.mem = s.mem := by rw [h]

theorem besideGddr_of_quiet (c : CoreId) (h : Quiet s t) : BesideGddr c s t :=
  ⟨beside_of_quiet c h, h.gddr, by rw [h.mem], fun _ he => by rwa [h.mem] at he⟩

theorem beside_foldl {α : Type} {f : State → α → State} (hf : ∀ s x, Beside c s (f s x)) (l : List α) (s : State) :
    Beside c s (l.foldl f s) := by
  induction l generalizing s with
  | nil => exact beside_refl c s
  | cons x l ih => exact beside_trans (hf s x) (ih (f s x))

theorem besideGddr_foldl {α : Type} {f : State → α → State} (hf : ∀ s x, BesideGddr c s (f s x)) (l : List α) (s : State) :
    BesideGddr c s (l.foldl f s) := by
  induction l generalizing s with
  | nil => exact besideGddr_refl c s
  | cons x l ih => exact besideGddr_trans (hf s x) (ih (f s x))

end

theorem quiet_foldl {α : Type} {f : State → α → State} (hf : ∀ s x, Quiet s (f s x)) (l : List α) (s : State) :
    Quiet s (l.foldl f s) := by
  induction l generalizing s with
  | nil => exact quiet_refl s
  | cons x l ih => exact quiet_trans (hf s x) (ih (f s x))

/-! ### The scratchpad (R226, R236) -/

section
variable (s : State) (c : CoreId) (job : Option Nat)

theorem State.raise_quiet' (code inst sub : Nat) (a0 a1 : Nat) : Quiet s (s.raise code inst sub job a0 a1) :=
  State.raise_quiet (quiet_refl s)

theorem spSomeOff_quiet (off len : Nat) : Quiet s (spSomeOff s c job off len) :=
  quiet_foldl (fun s _ => State.raise_quiet' s job _ _ _ _ _) _ s

theorem spUncorrs_quiet (ms : List (Nat × Bool)) : Quiet s (spUncorrs s c job ms) :=
  quiet_foldl (fun s _ => State.raise_quiet (State.wr_quiet (quiet_refl s))) _ s

/-- The scratchpad of a core with other bytes and other marks. -/
theorem setSp_beside (m : Memory) (e : Table Bool) (f : List Nat) :
    BesideGddr c s (s.setLoc c { s.loc c with sp := m, spErr := e, fixes := f }) :=
  ⟨⟨rfl, by rw [State.loc_setLoc_self], fun d hd => State.loc_setLoc_other s c d _ hd⟩, rfl, rfl,
    fun _ he => he⟩

theorem spCorrected_beside (ms : List (Nat × Bool)) : BesideGddr c s (spCorrected s c job ms) := by
  refine besideGddr_foldl (fun s e => ?_) _ s
  have hcount : Quiet s (s.count (coreBase c + 0x4068) 32 1) := State.count_quiet (quiet_refl s)
  exact besideGddr_trans (besideGddr_of_quiet c hcount) (besideGddr_trans (setSp_beside _ c _ _ _)
    (besideGddr_of_quiet c (State.raise_quiet (quiet_refl _))))

theorem spEcc_beside (off len : Nat) : BesideGddr c s (spEcc s c job off len).1 :=
  besideGddr_trans (spCorrected_beside s c job _) (besideGddr_of_quiet c (spUncorrs_quiet _ c job _))

theorem spReadAny_beside (off len : Nat) : BesideGddr c s (spReadAny s c job off len).1 := by
  unfold spReadAny
  split
  · exact spEcc_beside s c job off len
  · exact besideGddr_trans (besideGddr_of_quiet c (spSomeOff_quiet s c job off len))
      (besideGddr_foldl (fun s (p : Nat × Nat) => spEcc_beside s c job p.1 p.2) _ _)

theorem putSp_beside (m : Memory) (e : Table Bool) (off len : Nat) (bad : List (Nat × Bool)) :
    BesideGddr c s (spUncorrs (dirtySp (s.setLoc c { s.loc c with sp := m, spErr := e }) c off len) c job bad) :=
  besideGddr_trans (setSp_beside s c m e (s.loc c).fixes)
    (besideGddr_of_quiet c (quiet_trans (dirtySp_quiet _ _ _ _).1 (spUncorrs_quiet _ c job _)))

theorem spMerge_beside (off : Nat) (bs : List Byte) : BesideGddr c s (spMerge s c job off bs).1 :=
  besideGddr_trans (spCorrected_beside s c job _) (putSp_beside _ c job _ _ _ _ _)

theorem spWriteAny_beside (off : Nat) (bs : List Byte) : BesideGddr c s (spWriteAny s c job off bs) := by
  unfold spWriteAny
  split
  · exact spMerge_beside s c job off bs
  · exact besideGddr_trans (besideGddr_of_quiet c (spSomeOff_quiet s c job off bs.length))
      (besideGddr_foldl (fun s (p : Nat × Nat) => spMerge_beside s c job p.1 ((bs.drop (p.1 - off)).take p.2)) _ _)

end

/-! ### Module memory (R250 to R257) -/

/-- The `n` bytes at `a` of module memory are `bs`; no burst of them is marked to fail its CRC, and they are no check entries. -/
def Holds (a n : Nat) (bs : List Byte) (s : State) : Prop :=
  Memory.wf s.gddr = true ∧ s.gddr.read a n = bs ∧ s.mem.crc.filter (fun e => touches a n e.1) = [] ∧
  (a + n ≤ 0x1740000000 ∨ s.mem.checks = none)

section
variable {a n : Nat} {bs : List Byte} {s t : State}

theorem Holds.of_agrees (h : Holds a n bs s) (hg : Memory.wf t.gddr = true ∧ t.gddr.read a n = s.gddr.read a n)
    (hcrc : ∀ e ∈ t.mem.crc, e ∈ s.mem.crc) (hck : a + n ≤ 0x1740000000 ∨ t.mem.checks = none) : Holds a n bs t := by
  obtain ⟨_, hread, hclean, _⟩ := h
  refine ⟨hg.1, hg.2.trans hread, ?_, hck⟩
  rw [List.filter_eq_nil_iff] at hclean ⊢
  exact fun e he => hclean e (hcrc e he)

theorem Holds.of_beside {c : CoreId} (h : Holds a n bs s) (k : BesideGddr c s t) : Holds a n bs t := by
  obtain ⟨-, hg, hck, hcrc⟩ := k
  refine h.of_agrees ⟨by rw [hg]; exact h.1, by rw [hg]⟩ hcrc ?_
  rw [hck]
  exact h.2.2.2

theorem Holds.of_quiet (h : Holds a n bs s) (hq : Quiet s t) : Holds a n bs t := h.of_beside (besideGddr_of_quiet 0 hq)

theorem holds_foldl {α : Type} {f : State → α → State} (hf : ∀ s x, Holds a n bs s → Holds a n bs (f s x)) (l : List α)
    (h : Holds a n bs s) : Holds a n bs (l.foldl f s) := by
  induction l generalizing s with
  | nil => exact h
  | cons x l ih => exact ih (hf s x h)

theorem memory_read_congr {m k : Memory} (h : ∀ x, a ≤ x → x < a + n → k.get x = m.get x) : k.read a n = m.read a n :=
  List.map_congr_left fun i hi => h (a + i) (Nat.le_add_right a i) (Nat.add_lt_add_left (List.mem_range.mp hi) a)

/-- A memory in canonical form that agrees with another one on some bytes. -/
def Agrees (a n : Nat) (m k : Memory) : Prop := Memory.wf m = true → Memory.wf k = true ∧ k.read a n = m.read a n

theorem agrees_refl (a n : Nat) (m : Memory) : Agrees a n m m := fun h => ⟨h, rfl⟩

theorem agrees_trans {m k l : Memory} (h : Agrees a n m k) (g : Agrees a n k l) : Agrees a n m l := fun hm =>
  ⟨(g (h hm).1).1, (g (h hm).1).2.trans (h hm).2⟩

theorem agrees_foldl {α : Type} {f : Memory → α → Memory} (l : List α) (hf : ∀ x ∈ l, ∀ m, Agrees a n m (f m x))
    (m : Memory) : Agrees a n m (l.foldl f m) := by
  induction l generalizing m with
  | nil => exact agrees_refl a n m
  | cons x l ih =>
    exact agrees_trans (hf x List.mem_cons_self m) (ih (fun y hy => hf y (List.mem_cons_of_mem x hy)) (f m x))

theorem agrees_write {b : Nat} (h : a + n ≤ b) (m : Memory) (ds : List Byte) : Agrees a n m (m.write b ds) := fun hm =>
  ⟨memory_write_wf ds m b hm, memory_read_congr fun x _ hx => memory_get_write_outside ds m b x hm (by omega)⟩

theorem agrees_set {b : Nat} (h : a + n ≤ b) (m : Memory) (v : Byte) : Agrees a n m (Memory.set m b v) := fun hm =>
  ⟨memory_set_wf m b v hm, memory_read_congr fun x _ hx => by rw [memory_get_set m b x v hm, if_neg (by omega)]⟩

end

section
variable (c : CoreId) (s : State) (job : Option Nat)

theorem gddrCount_quiet (a len reg : Nat) : Quiet s (gddrCount s a len reg) :=
  quiet_foldl (fun _ _ => State.count_quiet (quiet_refl _)) _ s

theorem lineFailed_quiet (code l : Nat) : Quiet s (lineFailed s code l job) :=
  State.raiseIf_quiet (State.wr_quiet (quiet_refl s))

theorem crcRetries_quiet (g : CtrlId) (n : Nat) : Quiet s (crcRetries g n s) := by
  induction n generalizing s with
  | zero => exact quiet_refl s
  | succ n ih => exact quiet_trans (State.raise_quiet (State.count_quiet (quiet_refl s))) (ih _)

theorem setGddrErr_beside (e : Table Bool) : BesideGddr c s { s with gddrErr := e } :=
  ⟨⟨rfl, rfl, fun _ _ => rfl⟩, rfl, rfl, fun _ h => h⟩

theorem marksRead_beside (ms : List (Nat × Bool)) : BesideGddr c s (marksRead s job ms) := by
  refine besideGddr_trans (besideGddr_foldl (fun s e => ?_) _ s)
    (besideGddr_of_quiet c (quiet_foldl (fun s _ => lineFailed_quiet s job 0x5001 _) _ _))
  exact besideGddr_trans (besideGddr_of_quiet c (State.raise_quiet (State.count_quiet (quiet_refl s))))
    (setGddrErr_beside c _ _)

/-- What a marked burst of an access does (R257). -/
def crcBurst (job : Option Nat) (acc : State × List Nat) (e : Nat × Nat) : State × List Nat :=
  let s := { acc.1 with mem := { acc.1.mem with crc := tdel acc.1.mem.crc e.1 } }
  let s := crcRetries (ctrlOf (64 * e.1)) (min e.2 4) s
  if e.2 ≤ 4 then (s, acc.2) else (lineFailed s 0x5003 e.1 job, acc.2 ++ [e.1])

theorem gddrCrc_eq (a len : Nat) :
    gddrCrc s job a len = (s.mem.crc.filter (fun e => touches a len e.1)).foldl (crcBurst job) (s, []) := rfl

theorem crcBurst_beside (acc : State × List Nat) (e : Nat × Nat) :
    BesideGddr c acc.1 (crcBurst job acc e).1 ∧ ∀ l ∈ (crcBurst job acc e).2, l ∈ acc.2 ∨ l = e.1 := by
  have hdel : BesideGddr c acc.1 { acc.1 with mem := { acc.1.mem with crc := tdel acc.1.mem.crc e.1 } } :=
    ⟨⟨rfl, rfl, fun _ _ => rfl⟩, rfl, rfl, fun _ h => List.mem_of_mem_filter h⟩
  have hretry := besideGddr_trans hdel (besideGddr_of_quiet c (crcRetries_quiet _ (ctrlOf (64 * e.1)) (min e.2 4)))
  unfold crcBurst
  dsimp only
  split
  · exact ⟨hretry, fun l hl => .inl hl⟩
  · exact ⟨besideGddr_trans hretry (besideGddr_of_quiet c (lineFailed_quiet _ job _ _)),
      fun l hl => by simpa using hl⟩

theorem crcBursts_beside (es : List (Nat × Nat)) (acc : State × List Nat) :
    BesideGddr c acc.1 (es.foldl (crcBurst job) acc).1 ∧
    ∀ l ∈ (es.foldl (crcBurst job) acc).2, l ∈ acc.2 ∨ ∃ e ∈ es, l = e.1 := by
  induction es generalizing acc with
  | nil => exact ⟨besideGddr_refl c acc.1, fun l hl => .inl hl⟩
  | cons e es ih =>
    obtain ⟨hone, hls⟩ := crcBurst_beside c job acc e
    obtain ⟨hrest, hrs⟩ := ih (crcBurst job acc e)
    refine ⟨besideGddr_trans hone hrest, fun l hl => ?_⟩
    obtain h | ⟨x, hx, h⟩ := hrs l hl
    · exact (hls l h).imp_right fun h => ⟨e, List.mem_cons_self, h⟩
    · exact .inr ⟨x, List.mem_cons_of_mem e hx, h⟩

/-- The bursts that fail are of the lines that the access touches and that were marked. -/
theorem gddrCrc_beside (a len : Nat) :
    BesideGddr c s (gddrCrc s job a len).1 ∧
    ∀ l ∈ (gddrCrc s job a len).2, ∃ e ∈ s.mem.crc, e.1 = l ∧ touches a len l = true := by
  rw [gddrCrc_eq]
  obtain ⟨hb, hls⟩ := crcBursts_beside c job (s.mem.crc.filter (fun e => touches a len e.1)) (s, [])
  refine ⟨hb, fun l hl => ?_⟩
  obtain h | ⟨e, he, rfl⟩ := hls l hl
  · exact absurd h List.not_mem_nil
  · exact ⟨e, List.mem_of_mem_filter he, rfl, (List.mem_filter.mp he).2⟩

theorem gddrRead_beside (a len : Nat) : BesideGddr c s (gddrRead s job a len).1 :=
  besideGddr_trans (gddrCrc_beside c s job a len).1 (besideGddr_trans (marksRead_beside c _ job _)
    (besideGddr_of_quiet c (gddrCount_quiet _ _ _ _)))

theorem trainFailed_quiet (a : Nat) : Quiet s (trainFailed s a job) := by
  unfold trainFailed
  dsimp only
  split
  · exact State.failStep_quiet (quiet_refl s)
  · exact State.raiseIf_quiet (quiet_refl s)

theorem gddrNow_read_beside (a len : Nat) : BesideGddr c s (gddrNow s job a len none).1 := by
  have hread := gddrRead_beside c s job a len
  unfold gddrNow
  split
  · exact besideGddr_refl c s
  · split
    · exact besideGddr_refl c s
    · exact besideGddr_of_quiet c (trainFailed_quiet s job a)
    · dsimp only
      split <;> next h => rwa [h] at hread

theorem gddrOwn_now (a len : Nat) (data : Option (List Byte)) :
    Quiet (gddrNow s job a len data).1 (gddrOwn s job a len data).1 := by
  unfold gddrOwn
  split
  · next h => rw [h]; exact State.failStep_quiet (quiet_refl _)
  · exact quiet_refl _

theorem gddrOwn_read_beside (a len : Nat) : BesideGddr c s (gddrOwn s job a len none).1 :=
  besideGddr_trans (gddrNow_read_beside c s job a len) (besideGddr_of_quiet c (gddrOwn_now s job a len none))

theorem dirtyGddr_quiet (a len : Nat) : Quiet s (dirtyGddr s a len) := by
  refine quiet_foldl (fun s _ => ?_) _ s
  dsimp only
  split
  · exact State.wr_quiet (quiet_refl s)
  · exact quiet_refl s

/-- The state with other bytes of module memory. -/
def withGddr (s : State) (m : Memory) : State := { s with gddr := m }

theorem withGddr_beside (m : Memory) : Beside c s (withGddr s m) := ⟨rfl, rfl, fun _ _ => rfl⟩

theorem setGddr_beside (m : Memory) (a len : Nat) : Beside c s (dirtyGddr (withGddr s m) a len) :=
  beside_trans (withGddr_beside c s m) (beside_of_quiet c (dirtyGddr_quiet _ a len))

theorem checksSettle_beside (a len : Nat) : Beside c s (checksSettle s a len) := by
  unfold checksSettle
  split
  · exact beside_refl c s
  · exact ⟨rfl, rfl, fun _ _ => rfl⟩

/-- The state in which the bytes of a write arrive: its failed bursts are known, its marked lines read or rewritten, and the
write is counted (R253, R256, R257). -/
def writeStage (s : State) (job : Option Nat) (a : Nat) (bs : List Byte) : State :=
  let len := bs.length
  let whole (l : Nat) : Bool := a ≤ 64 * l && 64 * l + 64 ≤ a + len
  let s := (gddrCrc (checksSettle s a len) job a len).1
  let ms := gddrMarks s a len
  let s := marksRead s job (ms.filter (fun e => !whole e.1))
  gddrCount { s with gddrErr := s.gddrErr.filter (fun e => !(ms.contains e && whole e.1)) } a len 0x60

theorem writeStage_beside (a : Nat) (bs : List Byte) :
    BesideGddr c (checksSettle s a bs.length) (writeStage s job a bs) :=
  besideGddr_trans (gddrCrc_beside c _ job _ _).1 (besideGddr_trans (marksRead_beside c _ job _)
    (besideGddr_trans (setGddrErr_beside c _ _) (besideGddr_of_quiet c (gddrCount_quiet _ _ _ _))))

/-- The lines of a write that keep their content (R253). -/
def keptLines (s : State) (job : Option Nat) (a : Nat) (bs : List Byte) : List Nat :=
  let len := bs.length
  let whole (l : Nat) : Bool := a ≤ 64 * l && 64 * l + 64 ≤ a + len
  let ms := gddrMarks (gddrCrc (checksSettle s a len) job a len).1 a len
  ((ms.filter (fun e => !whole e.1)).filter (·.2)).map (·.1)

/-- The bytes of module memory after a write: `bad` are the lines that keep their content, `crc` those whose burst failed. -/
def writtenGddr (m : Memory) (a : Nat) (bs : List Byte) (bad crc : List Nat) (k : Nat) : Memory :=
  let m := if bad.isEmpty then m.write a bs
    else (List.range bs.length).foldl (fun m i =>
      if bad.contains ((a + i) / 64) then m else Memory.set m (a + i) (getD bs i 0#8)) m
  crc.foldl (fun m l => Memory.write m (64 * l) (leBytes 64 (Config.crcLine (k + l)).toNat)) m

/-- A free value where one is called for (R257). -/
def freshIf (b : Bool) (s : State) : Nat × State := if b then (0, s) else s.fresh

theorem freshIf_quiet (b : Bool) : Quiet s (freshIf b s).2 := by
  cases b with
  | true => exact quiet_refl s
  | false => exact State.fresh_quiet (quiet_refl s)

theorem gddrWrite_eq (a : Nat) (bs : List Byte) :
    ∃ k u, Quiet (writeStage s job a bs) u ∧ gddrWrite s job a bs =
      (dirtyGddr (withGddr u (writtenGddr (writeStage s job a bs).gddr a bs (keptLines s job a bs)
        (gddrCrc (checksSettle s a bs.length) job a bs.length).2 k)) a bs.length,
      (((gddrCrc (checksSettle s a bs.length) job a bs.length).2 ++ keptLines s job a bs).head?).map (64 * ·)) :=
  let x := freshIf (gddrCrc (checksSettle s a bs.length) job a bs.length).2.isEmpty (writeStage s job a bs)
  ⟨x.1, x.2, freshIf_quiet _ _, rfl⟩

theorem gddrWrite_beside (a : Nat) (bs : List Byte) : Beside c s (gddrWrite s job a bs).1 := by
  obtain ⟨k, u, hq, heq⟩ := gddrWrite_eq s job a bs
  rw [heq]
  dsimp only
  refine beside_trans (checksSettle_beside c s a bs.length) (beside_trans (writeStage_beside c s job a bs).1 ?_)
  exact beside_trans (beside_of_quiet c hq) (setGddr_beside c u _ a bs.length)

theorem gddrNow_beside (a len : Nat) (data : Option (List Byte)) : Beside c s (gddrNow s job a len data).1 := by
  cases data with
  | none => exact (gddrNow_read_beside c s job a len).1
  | some bs =>
    have hwrite := gddrWrite_beside c s job a bs
    unfold gddrNow
    split
    · exact beside_refl c s
    · split
      · exact beside_refl c s
      · exact beside_of_quiet c (trainFailed_quiet s job a)
      · dsimp only
        split <;> next h => rwa [h] at hwrite

theorem gddrOwn_beside (a len : Nat) (data : Option (List Byte)) : Beside c s (gddrOwn s job a len data).1 :=
  beside_trans (gddrNow_beside c s job a len data) (beside_of_quiet c (gddrOwn_now s job a len data))

end

/-! ### A write leaves the bytes below it as they were -/

section
variable {a n b : Nat} {bs : List Byte} {s : State} (hab : a + n ≤ b)
include hab

theorem agrees_writtenGddr (m : Memory) (ds : List Byte) (bad : List Nat) {crc : List Nat} (k : Nat)
    (hcrc : ∀ l ∈ crc, a + n ≤ 64 * l) : Agrees a n m (writtenGddr m b ds bad crc k) := by
  refine agrees_trans ?_ (agrees_foldl crc (fun l hl m => agrees_write (hcrc l hl) m _) _)
  split
  · exact agrees_write hab m ds
  · refine agrees_foldl _ (fun i _ m => ?_) m
    split
    · exact agrees_refl a n m
    · exact agrees_set (by omega) m _

omit hab in
theorem checksSettle_holds (len : Nat) (h : Holds a n bs s) : Holds a n bs (checksSettle s b len) := by
  unfold checksSettle
  split
  · exact h
  · next m written hck =>
    obtain ⟨hwf, -, -, hbelow | hnone⟩ := id h
    · refine h.of_agrees ?_ (fun _ he => he) (.inl hbelow)
      refine agrees_foldl _ (fun l hl g => agrees_write ?_ g _) s.gddr hwf
      have hline := (List.mem_filter.mp hl).2
      unfold holdsChecks at hline
      simp only [Bool.and_eq_true, decide_eq_true_eq] at hline
      omega
    · split at hck
      · exact absurd hck (by simp)
      · rw [hnone] at hck
        exact absurd hck (by simp)

theorem crc_above (job : Option Nat) (len : Nat) (h : Holds a n bs s) :
    ∀ l ∈ (gddrCrc s job b len).2, a + n ≤ 64 * l := by
  intro l hl
  obtain ⟨e, he, rfl, ht⟩ := (gddrCrc_beside 0 s job b len).2 l hl
  have hclean := (List.filter_eq_nil_iff.mp h.2.2.1) e he
  unfold touches at ht hclean
  simp only [decide_eq_true_eq] at ht hclean
  omega

omit hab in
theorem Holds.withGddr (h : Holds a n bs s) {m : Memory} (hm : Agrees a n s.gddr m) : Holds a n bs (withGddr s m) :=
  h.of_agrees (hm h.1) (fun _ he => he) h.2.2.2

theorem gddrWrite_holds (job : Option Nat) (ds : List Byte) (h : Holds a n bs s) : Holds a n bs (gddrWrite s job b ds).1 := by
  have hset := checksSettle_holds (b := b) ds.length h
  have habove := crc_above hab job ds.length hset
  have hstage := hset.of_beside (writeStage_beside 0 s job b ds)
  obtain ⟨k, u, hq, heq⟩ := gddrWrite_eq s job b ds
  have hagree := agrees_writtenGddr hab (writeStage s job b ds).gddr ds (keptLines s job b ds) k habove
  have hwith := (hstage.of_quiet hq).withGddr (by rw [hq.gddr]; exact hagree)
  rw [heq]
  dsimp only
  exact hwith.of_quiet (dirtyGddr_quiet _ b ds.length)

theorem gddrOwn_holds (job : Option Nat) (len : Nat) (data : Option (List Byte)) (h : Holds a n bs s) :
    Holds a n bs (gddrOwn s job b len data).1 := by
  cases data with
  | none => exact h.of_beside (gddrOwn_read_beside 0 s job b len)
  | some ds =>
    refine Holds.of_quiet ?_ (gddrOwn_now s job b len (some ds))
    have hwrite := gddrWrite_holds hab job ds h
    unfold gddrNow
    split
    · exact h
    · split
      · exact h
      · exact h.of_quiet (trainFailed_quiet s job b)
      · dsimp only
        split <;> next hw => rwa [hw] at hwrite

end

/-! ### An access with nothing wrong (R250) -/

section
variable {s : State} {a n : Nat} (h : GddrFree s a n)
include h

theorem gddrServe_ready : gddrReady s a n = .yes := by
  have hs := h.1
  unfold gddrServe at hs
  split at hs
  · assumption
  · next x hx => exact absurd hs (hx · )

theorem gddrCrc_free (job : Option Nat) : gddrCrc s job a n = (s, []) := by
  rw [gddrCrc_eq, h.2.2.2.1]
  rfl

theorem checksSettle_free : checksSettle s a n = s := by
  unfold checksSettle
  obtain ⟨-, -, -, hbelow | hnone⟩ := h.2
  · rw [if_pos hbelow]
  · rw [hnone, ite_self]

theorem gddrPeek_free : gddrPeek s a n = s.gddr.read a n := by
  unfold gddrPeek
  obtain ⟨-, -, -, hbelow | hnone⟩ := h.2
  · rw [if_pos hbelow]
  · rw [hnone, ite_self]

end

end Sys2Proof.Machine
end

section
/-!
SUPPORT AND SETTLEMENT. The saves and restores of a core (R55, R56, R258, R361).
-/

namespace Sys2Proof.Machine

/-! ### Module memory that serves (R250, R253) -/

theorem memory_read_write_self (m : Memory) (a : Nat) (bs : List Byte) (h : Memory.wf m = true) :
    (m.write a bs).read a bs.length = bs := by
  refine List.ext_getElem (by simp [Memory.read]) fun i _ hi => ?_
  simp only [Memory.read, List.getElem_map, List.getElem_range]
  exact memory_get_write_inside bs m a i h hi

section
variable {s : State} {a n : Nat} (h : GddrFree s a n)
include h

theorem keptLines_free (job : Option Nat) {bs : List Byte} (hn : bs.length = n) : keptLines s job a bs = [] := by
  unfold keptLines
  dsimp only
  rw [hn, checksSettle_free h, gddrCrc_free h, h.2.2.1]
  rfl

theorem gddrWrite_free (job : Option Nat) {bs : List Byte} (hn : bs.length = n) (hwf : Memory.wf s.gddr = true) :
    Holds a n bs (gddrWrite s job a bs).1 ∧ (gddrWrite s job a bs).2 = none := by
  have hstage := writeStage_beside 0 s job a bs
  obtain ⟨k, u, hq, heq⟩ := gddrWrite_eq s job a bs
  rw [hn, checksSettle_free h] at hstage heq
  rw [heq, gddrCrc_free h, keptLines_free h job hn]
  dsimp only
  have hold : Holds a n (s.gddr.read a n) u :=
    Holds.of_quiet (Holds.of_beside ⟨hwf, rfl, h.2.2.2.1, h.2.2.2.2⟩ hstage) hq
  have hself := memory_read_write_self s.gddr a bs hwf
  rw [hstage.2.1]
  have hnew : Holds a n bs (withGddr u (s.gddr.write a bs)) :=
    ⟨memory_write_wf bs _ a hwf, by rwa [hn] at hself, hold.2.2.1, hold.2.2.2⟩
  exact ⟨hnew.of_quiet (dirtyGddr_quiet _ a n), rfl⟩

theorem gddrOwn_writes (job : Option Nat) {bs : List Byte} (hn : bs.length = n) (hwf : Memory.wf s.gddr = true) :
    Holds a n bs (gddrOwn s job a n (some bs)).1 := by
  obtain ⟨hold, hok⟩ := gddrWrite_free h job hn hwf
  refine Holds.of_quiet ?_ (gddrOwn_now s job a n (some bs))
  unfold gddrNow
  rw [if_neg (Nat.not_lt.mpr h.2.1), gddrServe_ready h]
  dsimp only
  split <;> next hw => rwa [hw] at hold

theorem gddrRead_free (job : Option Nat) :
    (gddrRead s job a n).2 = (s.gddr.read a n, none) := by
  have hb := gddrRead_beside 0 s job a n
  have hpeek : gddrPeek (gddrRead s job a n).1 a n = s.gddr.read a n := by
    unfold gddrPeek
    rw [hb.2.1, hb.2.2.1]
    obtain ⟨-, -, -, hbelow | hnone⟩ := h.2
    · rw [if_pos hbelow]
    · rw [hnone, ite_self]
  refine Prod.ext hpeek ?_
  unfold gddrRead
  rw [gddrCrc_free h]
  dsimp only
  rw [h.2.2.1]
  rfl

theorem gddrOwn_reads (job : Option Nat) :
    gddrOwn s job a n none = ((gddrRead s job a n).1, .ok (s.gddr.read a n)) := by
  have hread := gddrRead_free h job
  have hnow : gddrNow s job a n none = ((gddrRead s job a n).1, .ok (s.gddr.read a n)) := by
    unfold gddrNow
    rw [if_neg (Nat.not_lt.mpr h.2.1), gddrServe_ready h]
    dsimp only
    split
    · next hw => rw [hw] at hread ⊢; cases hread; rfl
    · next hw => rw [hw] at hread; cases hread
  unfold gddrOwn
  rw [hnow]

end

/-! ### A save (R55, R56) -/

theorem regionOut_beside {c : CoreId} {job : Option Nat} {s : State} {a n : Nat} {x : State × List Byte}
    (h : Beside c s x.1) : Beside c s (regionOut job a n x) := beside_trans h (gddrOwn_beside c x.1 job _ _ _)

theorem regionOut_holds {job : Option Nat} {a n b len : Nat} {x : State × List Byte} {bs : List Byte} (hab : a + n ≤ b)
    (h : Holds a n bs x.1) : Holds a n bs (regionOut job b len x) := gddrOwn_holds hab job _ _ h

theorem saveRegion_beside (c : CoreId) (job : Option Nat) (base : Nat) (s : State) (r : Nat) :
    Beside c s (saveRegion c job base s r) := by
  unfold saveRegion
  exact regionOut_beside (spReadAny_beside s c job (r * 0x40000) 0x40000).1

theorem saveRegion_holds {c : CoreId} {job : Option Nat} {base : Nat} {s : State} {r : Nat} {bs : List Byte}
    (h : Holds base 0x20000 bs s) : Holds base 0x20000 bs (saveRegion c job base s r) := by
  unfold saveRegion
  exact regionOut_holds (by omega) (h.of_beside (spReadAny_beside s c job (r * 0x40000) 0x40000))

/-- The state whose module memory holds an image, before the image is listed. -/
def imageWritten (s : State) (c : CoreId) (j k : Nat) (mask : W64) (status : BitVec 16) : State :=
  let base := bivAddr s j k
  let t := (gddrOwn s (some j) base 0x20000 (some (fixedImage s c mask status))).1
  (saveRegions t c mask).foldl (saveRegion c (some j) base) t

theorem imageWritten_beside (s : State) (c : CoreId) (j k : Nat) (mask : W64) (status : BitVec 16) :
    Beside c s (imageWritten s c j k mask status) :=
  beside_trans (gddrOwn_beside c s _ _ _ _) (beside_foldl (saveRegion_beside c _ _) _ _)

theorem imageWritten_holds {s : State} {c : CoreId} {j k : Nat} {mask : W64} {status : BitVec 16}
    (h : GddrFree s (bivAddr s j k) 0x20000) (hm : MemOk s) (hlen : (fixedImage s c mask status).length = 0x20000) :
    Holds (bivAddr s j k) 0x20000 (fixedImage s c mask status) (imageWritten s c j k mask status) :=
  holds_foldl (fun _ _ => saveRegion_holds) _ (gddrOwn_writes h _ hlen hm.1)

theorem saveImage_written (s : State) (c : CoreId) (j k : Nat) (mask : W64) (status : BitVec 16) : ∃ sv,
    saveImage s c j k mask status =
      { imageWritten s c j k mask status with jobs := { (imageWritten s c j k mask status).jobs with
          saved := tset (imageWritten s c j k mask status).jobs.saved (c.val * 16 + j) sv } } := ⟨_, rfl⟩

/-- The part of the core's memory that a save stores in its header (R55). -/
def saveMask : Drain → W64
  | .yield _ m => m
  | _ => all64

/-- The event of a save (R55, R56). -/
def saveEv (s : State) (c : CoreId) : Drain → State
  | .yield pc m => ((s.wr (coreBase c + 0x58) (BitVec.ofNat 64 pc)).wr (coreBase c + 0x60) m).coreEv c 0x100A pc 0
  | _ => s.coreEv c 0x100B (s.core c).pc 0

theorem saveEv_quiet (s : State) (c : CoreId) (d : Drain) : Quiet s (saveEv s c d) := by
  unfold saveEv
  split
  · exact State.coreEv_quiet (State.wr_quiet (State.wr_quiet (quiet_refl s)))
  · exact State.coreEv_quiet' s c _ _ _

/-- The state of a save in which its event has been raised, no victim being listed. -/
def saveTold (s : State) (c : CoreId) (d : Drain) : State :=
  let t := saveEv (s.setUnit c { s.unit c with q := Vector.replicate 5 [], held := [], told := 0#6 }) c d
  { t with jobs := { t.jobs with victims := t.jobs.victims.filter (fun v => v.core != c) } }

theorem saveTold_unit (s : State) (c : CoreId) (d : Drain) : (saveTold s c d).unit c =
    { s.unit c with q := Vector.replicate 5 [], held := [], told := 0#6 } :=
  ((saveEv_quiet _ c d).unit c).trans (State.unit_setUnit_self s c _)

/-- What a core that was saved is found to be. -/
structure SavedCore (s t : State) (c : CoreId) (d : Drain) : Prop where
  run : (t.core c).run = .halted
  status : (t.core c).status = drainStatus d
  queues : ∀ u, qOf t c u = []
  held : (t.unit c).held = []
  gddr : t.gddr = s.gddr
  saved : t.jobs.saved = s.jobs.saved

theorem Aside.saved {s t : State} (h : Aside s t) : t.jobs.saved = s.jobs.saved := by rw [h.1]

theorem saveTold_halts (s : State) (c : CoreId) (d : Drain) :
    SavedCore s (enterHalted (saveTold s c d) c (drainStatus d)) c d := by
  have hside := enterHalted_aside (saveTold s c d) c (drainStatus d)
  have hunit := (hside.unit c).trans (saveTold_unit s c d)
  have hq := saveEv_quiet (s.setUnit c { s.unit c with q := Vector.replicate 5 [], held := [], told := 0#6 }) c d
  refine ⟨by rw [enterHalted_core]; rfl, by rw [enterHalted_core]; rfl, fun u => ?_, by rw [hunit], ?_, ?_⟩
  · rw [qOf, hunit]
    exact Vector.getElem_replicate _
  · exact hside.gddr.trans hq.gddr
  · have hsaved := congrArg Jobs.saved hq.jobs
    exact hside.saved.trans hsaved

/-- What a save does behind its image: the event, the halt, and the hand-over of a victim (R55, R56, R364). -/
def saveAfter (s : State) (c : CoreId) (d : Drain) : State :=
  let t := saveEv (s.setUnit c { s.unit c with q := Vector.replicate 5 [], held := [], told := 0#6 }) c d
  let t' := enterHalted (saveTold s c d) c (drainStatus d)
  match t.jobs.victims.filter (fun v => v.core == c) with
  | [] => t'
  | v :: rest => rest.foldl (fun s v => preemptCheck s v.id) (handOver t' c v)

theorem saveAfter_alone {s : State} (h : s.jobs.victims = []) (c : CoreId) (d : Drain) :
    saveAfter s c d = enterHalted (saveTold s c d) c (drainStatus d) := by
  have hnone : (saveEv (s.setUnit c { s.unit c with q := Vector.replicate 5 [], held := [], told := 0#6 }) c d).jobs.victims
      = [] := by
    rw [(saveEv_quiet _ c d).jobs]
    exact h
  unfold saveAfter
  dsimp only
  rw [hnone]
  rfl

/-- Where the image of a core goes: its job and slot (R362). -/
def saveSlot (s : State) (c : CoreId) : Option (Nat × Nat) :=
  match s.jobOf c with
  | none => none
  | some j => if bivSlot s j c < bivSlots s j then some (j, bivSlot s j c) else none

/-- A save whose image goes to a slot, or to none. -/
def saveFrom (s : State) (c : CoreId) (d : Drain) (slot : Option (Nat × Nat)) : State :=
  if slot.any (fun x => !bivReady s (bivAddr s x.1 x.2)) then s
  else
    saveAfter (match slot with
      | none => s
      | some (j, k) => saveImage s c j k (saveMask d) (drainStatus d)) c d

theorem saveComplete_from {s : State} {c : CoreId} {d : Drain} (hrun : (s.core c).run = .saving d)
    (hd : d = .forced ∨ ∃ pc m, d = .yield pc m) : saveComplete s c = saveFrom s c d (saveSlot s c) := by
  obtain rfl | ⟨pc, m, rfl⟩ := hd <;>
  · unfold saveComplete
    rw [hrun]
    rfl

theorem saveComplete_none {s : State} {c : CoreId} {d : Drain} (hrun : (s.core c).run = .saving d)
    (hd : d = .forced ∨ ∃ pc m, d = .yield pc m) (hj : s.jobOf c = none) : saveComplete s c = saveAfter s c d := by
  rw [saveComplete_from hrun hd, saveSlot, hj]
  rfl

theorem saveComplete_slot {s : State} {c : CoreId} {d : Drain} {j : Nat} (hrun : (s.core c).run = .saving d)
    (hd : d = .forced ∨ ∃ pc m, d = .yield pc m) (hj : s.jobOf c = some j) (hlt : bivSlot s j c < bivSlots s j)
    (hready : bivReady s (bivAddr s j (bivSlot s j c)) = true) :
    saveComplete s c = saveAfter (saveImage s c j (bivSlot s j c) (saveMask d) (drainStatus d)) c d := by
  have hslot : saveSlot s c = some (j, bivSlot s j c) := by
    rw [saveSlot, hj]
    exact if_pos hlt
  rw [saveComplete_from hrun hd, hslot, saveFrom, Option.any_some, hready]
  rfl

/-! ### A restore (R55, R361) -/

theorem regionIn_beside {c : CoreId} {job : Option Nat} {off : Nat} {s : State} {x : State × AccEnd}
    (h : BesideGddr c s x.1) : BesideGddr c s (regionIn c job off x) := by
  obtain ⟨t, e⟩ := x
  cases e with
  | ok bs => exact besideGddr_trans h (spWriteAny_beside t c job off bs)
  | fail n => exact h
  | wait => exact h

theorem restoreRegion_beside (c : CoreId) (job : Option Nat) (base : Nat) (s : State) (r : Nat) :
    BesideGddr c s (restoreRegion c job base s r) := by
  unfold restoreRegion
  exact regionIn_beside (gddrOwn_read_beside c s job _ _)

theorem retryHeld_none {s : State} {c : CoreId} (h : (s.unit c).held = []) (n : Nat) : retryHeld c n s = s := by
  cases n with
  | zero => rfl
  | succ n =>
    unfold retryHeld
    rw [h]

/-- The state of a restore in which the fixed state and the regions have come back. -/
def restoredAt (s : State) (c : CoreId) (sv : Saved) (base : Nat) (img : List Byte) : State :=
  let t := restoreFixed s c sv img
  (saveRegions t c (BitVec.ofNat 64 (leAt img 0x12E00 8))).foldl (restoreRegion c (some sv.job) base) t

theorem restoredAt_beside (s : State) (c : CoreId) (sv : Saved) (base : Nat) (img : List Byte) :
    BesideGddr c (restoreFixed s c sv img) (restoredAt s c sv base img) :=
  besideGddr_foldl (restoreRegion_beside c _ _) _ _

/-- The state of a restore in which the image is used up and the core runs. -/
def resumedAt (s : State) (c : CoreId) (sv : Saved) (base : Nat) (step : Bool) (img : List Byte) : State :=
  let t := restoredAt s c sv base img
  State.setCore { t with jobs := { t.jobs with saved := tdel t.jobs.saved (c.val * 16 + sv.job) } } c
    { t.core c with run := .running, stepping := step, blocked := none }

section
variable (s : State) (c : CoreId) (sv : Saved) (base : Nat) (step : Bool) (img : List Byte)

theorem restoreFixed_core : ∃ k : Core, (restoreFixed s c sv img).core c = k ∧ k.pc = leAt img 0x12500 8 ∧
    (∀ i : Fin 32, k.sreg[i] = BitVec.ofNat 64 (leAt img (0x12400 + 8 * i.val) 8)) ∧ k.stopReq = (s.core c).stopReq := by
  refine ⟨_, State.core_setCore_self s c _, rfl, fun i => ?_, rfl⟩
  exact Vector.getElem_ofFn i.isLt

theorem restoreFixed_loc : ∃ l : Local, (restoreFixed s c sv img).loc c = l ∧
    (∀ i : Fin 64, l.sems[i] = BitVec.ofNat 16 (leAt img (0x12600 + 2 * i.val) 2)) ∧
    l.guards = BitVec.ofNat 4096 (leAt img 0x12700 512) := by
  refine ⟨_, State.loc_setLoc_self _ c _, fun i => ?_, rfl⟩
  exact Vector.getElem_ofFn i.isLt

theorem restoreFixed_held (h : sv.heldPcs = []) : ((restoreFixed s c sv img).unit c).held = [] := by
  unfold restoreFixed
  dsimp only
  rw [State.unit_setLoc, State.unit_setUnit_self, h]
  rfl

theorem restoreFixed_other {d : CoreId} (h : d ≠ c) :
    (restoreFixed s c sv img).core d = s.core d ∧ (restoreFixed s c sv img).loc d = s.loc d :=
  ⟨State.core_setCore_other s c d _ h, State.loc_setLoc_other _ c d _ h⟩

theorem resumedAt_core : (resumedAt s c sv base step img).core c =
    { (restoreFixed s c sv img).core c with run := .running, stepping := step, blocked := none } := by
  rw [← (restoredAt_beside s c sv base img).1.core c]
  exact State.core_setCore_self _ c _

theorem resumedAt_beside : (resumedAt s c sv base step img).loc = (restoredAt s c sv base img).loc ∧
    (resumedAt s c sv base step img).gddr = s.gddr ∧
    (resumedAt s c sv base step img).unit = (restoreFixed s c sv img).unit :=
  ⟨rfl, (restoredAt_beside s c sv base img).2.1, funext fun d => (restoredAt_beside s c sv base img).1.unit d⟩

theorem restoreRest_resumes (hstop : (s.core c).stopReq = false) (hheld : sv.heldPcs = []) :
    restoreRest s c sv base step img = resumedAt s c sv base step img := by
  have hunit : ((resumedAt s c sv base step img).unit c).held = [] := by
    rw [(resumedAt_beside s c sv base step img).2.2]
    exact restoreFixed_held s c sv img hheld
  obtain ⟨k, hk, -, -, hks⟩ := restoreFixed_core s c sv img
  have hgo : ((resumedAt s c sv base step img).core c).stopReq = false := by
    rw [resumedAt_core, hk]
    exact hks.trans hstop
  have hret := retryHeld_none hunit 16
  have heq : restoreRest s c sv base step img =
      (if ((retryHeld c 16 (resumedAt s c sv base step img)).core c).stopReq then
        startDrain (retryHeld c 16 (resumedAt s c sv base step img)) c .stop
       else retryHeld c 16 (resumedAt s c sv base step img)) := rfl
  rw [heq, hret, hgo]
  rfl

end

theorem restoreRead_free {s t : State} {job : Option Nat} {a n : Nat} {bs : List Byte}
    (h : gddrOwn s job a n none = (t, .ok bs)) : restoreRead s job a n = (t, bs) := by
  unfold restoreRead
  rw [h]

theorem restoreFrom_resumes {n : Nat} {s t : State} {c : CoreId} {sv : Saved} {step : Bool} {img : List Byte}
    (hrun : (s.core c).run = .restoring step) (hsv : savedOf s c = some sv)
    (hready : bivReady s (bivAddr s sv.job sv.slot) = true)
    (hread : gddrOwn s (some sv.job) (bivAddr s sv.job sv.slot) n none = (t, .ok img))
    (hstop : (t.core c).stopReq = false) (hheld : sv.heldPcs = []) :
    restoreFrom n s c = resumedAt t c sv (bivAddr s sv.job sv.slot) step img := by
  unfold restoreFrom
  rw [hrun, hsv]
  dsimp only
  rw [hready, restoreRead_free hread]
  exact restoreRest_resumes t c sv _ step img hstop hheld

theorem restoreComplete_resumes {s : State} {c : CoreId} {sv : Saved} {step : Bool} (hrun : (s.core c).run = .restoring step)
    (hsv : savedOf s c = some sv) (hready : bivReady s (bivAddr s sv.job sv.slot) = true)
    (hfree : GddrFree s (bivAddr s sv.job sv.slot) 0x20000) (hstop : (s.core c).stopReq = false) (hheld : sv.heldPcs = []) :
    ∃ t, BesideGddr c s t ∧ restoreComplete s c =
      resumedAt t c sv (bivAddr s sv.job sv.slot) step (s.gddr.read (bivAddr s sv.job sv.slot) 0x20000) := by
  have hbeside := gddrRead_beside c s (some sv.job) (bivAddr s sv.job sv.slot) 0x20000
  refine ⟨_, hbeside, ?_⟩
  unfold restoreComplete
  refine restoreFrom_resumes hrun hsv hready (gddrOwn_reads hfree (some sv.job)) ?_ hheld
  rw [hbeside.1.core c]
  exact hstop

/-! ### Upsets (R249) -/

theorem strikeOne_power (s : State) (u : Upset) : (strikeOne s u).power = s.power := by
  cases u with
  | imem c i d => rfl
  | sp c l f =>
    simp only [strikeOne]
    generalize (l % 0x200000) * 8 = o
    split
    · rfl
    · split <;> rfl
  | gddr l f =>
    simp only [strikeOne, strikeLine]
    generalize l % 0x60000000 = o
    split
    · rfl
    · split
      · rfl
      · split <;> rfl
  | queuePtr q => rfl
  | crc l n =>
    simp only [strikeOne, strikeCrc]
    split <;> rfl
  | onDie g n => rfl
  | aer hb e => rfl

theorem strike_power (s : State) (us : List Upset) : (strike s us).power = s.power := by
  unfold strike
  induction us generalizing s with
  | nil => rfl
  | cons u us ih => rw [List.foldl_cons, ih, strikeOne_power]

theorem live_of_struck {s t : State} {us : List Upset} (h : (strike s us).power.held = false) : s.live t = t :=
  live_of_held (by rwa [strike_power] at h)

theorem exec_coreSaveComplete {s : State} (c : CoreId) {us : List Upset} (h : (strike s us).power.held = false) :
    exec (.coreSaveComplete c us) s = .next (saveComplete (strike s us) c) := congrArg Host.Outcome.next (live_of_struck h)

theorem exec_coreRestoreComplete {s : State} (c : CoreId) {us : List Upset} (h : (strike s us).power.held = false) :
    exec (.coreRestoreComplete c us) s = .next (restoreComplete (strike s us) c) :=
  congrArg Host.Outcome.next (live_of_struck h)

/-- The state in which an image is listed (R361). -/
def listed (v : State) (i : Nat) (sv : Saved) : State :=
  { v with jobs := { v.jobs with saved := tset v.jobs.saved i sv } }

section
variable {s : State} {c : CoreId}

theorem saved_slot {d : Drain} {j : Nat} (hrun : (s.core c).run = .saving d) (hd : d = .forced ∨ ∃ pc m, d = .yield pc m)
    (hv : s.jobs.victims = []) (hj : s.jobOf c = some j) (hlt : bivSlot s j c < bivSlots s j)
    (hready : bivReady s (bivAddr s j (bivSlot s j c)) = true) : ∃ sv,
    let v := imageWritten s c j (bivSlot s j c) (saveMask d) (drainStatus d)
    SavedCore (listed v (c.val * 16 + j) sv) (saveComplete s c) c d := by
  obtain ⟨sv, hsv⟩ := saveImage_written s c j (bivSlot s j c) (saveMask d) (drainStatus d)
  have hjobs := (imageWritten_beside s c j (bivSlot s j c) (saveMask d) (drainStatus d)).jobs
  refine ⟨sv, ?_⟩
  dsimp only
  rw [saveComplete_slot hrun hd hj hlt hready, hsv]
  generalize imageWritten s c j (bivSlot s j c) (saveMask d) (drainStatus d) = v at hjobs ⊢
  have hvl : (listed v (c.val * 16 + j) sv).jobs.victims = [] := (congrArg Jobs.victims hjobs).trans hv
  have halone := saveAfter_alone hvl c d
  rw [listed] at halone
  rw [halone]
  exact saveTold_halts (listed v (c.val * 16 + j) sv) c d

theorem resumed_core {t : State} (sv : Saved) (step : Bool) (a : Nat) (img : List Byte) (hb : BesideGddr c s t) :
    let u := resumedAt t c sv a step img
    (u.core c).run = .running ∧ (u.core c).stepping = step ∧ (u.core c).pc = leAt img 0x12500 8 ∧
    (∀ i : Fin 32, (u.core c).sreg[i] = BitVec.ofNat 64 (leAt img (0x12400 + 8 * i.val) 8)) ∧
    ∀ d, d ≠ c → u.core d = s.core d := by
  obtain ⟨k, hk, hpc, hsreg, -⟩ := restoreFixed_core t c sv img
  have hback := restoredAt_beside t c sv a img
  have hcore := resumedAt_core t c sv a step img
  rw [hk] at hcore
  refine ⟨by rw [hcore], by rw [hcore], by rw [hcore]; exact hpc, fun i => by rw [hcore]; exact hsreg i, fun d hd => ?_⟩
  exact (State.core_setCore_other _ c d _ hd).trans
    ((hback.1.core d).trans ((restoreFixed_other t c sv img hd).1.trans (hb.1.core d)))

theorem resumed_loc {t : State} (sv : Saved) (step : Bool) (a : Nat) (img : List Byte) (hb : BesideGddr c s t) :
    let u := resumedAt t c sv a step img
    (∀ i : Fin 64, (u.loc c).sems[i] = BitVec.ofNat 16 (leAt img (0x12600 + 2 * i.val) 2)) ∧
    (u.loc c).guards = BitVec.ofNat 4096 (leAt img 0x12700 512) ∧ ∀ d, d ≠ c → u.loc d = s.loc d := by
  obtain ⟨l, hl, hsems, hguards⟩ := restoreFixed_loc t c sv img
  have hback := restoredAt_beside t c sv a img
  obtain ⟨hloc, -, -⟩ := resumedAt_beside t c sv a step img
  have hlc := hback.1.2.1
  rw [hl] at hlc
  dsimp only
  rw [hloc, hlc]
  exact ⟨hsems, hguards, fun d hd => (hback.1.2.2 d hd).trans
    ((restoreFixed_other t c sv img hd).2.trans (hb.1.2.2 d hd))⟩

theorem resumed_saved (t : State) (sv : Saved) (step : Bool) (a : Nat) (img : List Byte) :
    tget (resumedAt t c sv a step img).jobs.saved (c.val * 16 + sv.job) = none := (tget_tdel _ _ _).trans (if_pos rfl)

end

/-- Settles O25: a save ends in `saveTold_halts` behind an image that `imageWritten_holds` keeps in place, and a restore is
`resumedAt` of that image. -/
theorem saveAndRestoreResult : Obligations.SaveAndRestoreResult := by
  unfold Obligations.SaveAndRestoreResult
  constructor
  · intro c us s d r mask hpower hrun hd hvictims
    have hexec := exec_coreSaveComplete c hpower
    constructor
    · intro hj
      have hsaved := saveTold_halts r c d
      rw [← saveAfter_alone hvictims c d, ← saveComplete_none hrun hd hj] at hsaved
      exact ⟨_, hexec, hsaved.run, hsaved.status, hsaved.queues, hsaved.held, hsaved.gddr⟩
    · intro j hj hlt hready a hfree
      have hmask : saveMask d = mask := by obtain rfl | ⟨pc, m, rfl⟩ := hd <;> rfl
      obtain ⟨sv, hsaved⟩ := saved_slot hrun hd hvictims hj hlt hready
      rw [hmask] at hsaved
      have hlist : (saveComplete r c).jobs.saved = tset _ (c.val * 16 + j) sv := hsaved.saved
      refine ⟨_, hexec, hsaved.run, hsaved.status, hsaved.queues, hsaved.held, ?_, fun hm hlen => ?_⟩
      · rw [hlist, tget_tset, if_pos rfl]
        rfl
      · rw [hsaved.gddr]
        exact (imageWritten_holds hfree hm hlen).2.1
  · intro c us s stepping j sv r a img hpower hrun hstop hj hsv hjob hready hfree hheld
    subst hjob
    have hof : savedOf r c = some sv := by
      unfold savedOf
      rw [hj]
      exact hsv
    obtain ⟨t, hb, ht⟩ := restoreComplete_resumes hrun hof hready hfree hstop hheld
    have hexec := exec_coreRestoreComplete c hpower
    rw [ht] at hexec
    obtain ⟨hr, hst, hpc, hsreg, hcores⟩ := resumed_core sv stepping a img hb
    obtain ⟨hsems, hguards, hlocs⟩ := resumed_loc sv stepping a img hb
    exact ⟨_, hexec, hr, hst, hpc, hsreg, hsems, hguards, resumed_saved t sv stepping a img,
      (resumedAt_beside t c sv a stepping img).2.1.trans hb.2.1, fun d hd => ⟨hcores d hd, hlocs d hd⟩⟩

end Sys2Proof.Machine
end

section
/-!
SUPPORT AND SETTLEMENT. A linear copy within a scratchpad and the completion of a transfer (R237, R239, R241, R246).
-/

namespace Sys2Proof.Machine

/-! ### Places and spans (R237, R239) -/

/-- A span of a core's scratchpad, by its device address. -/
theorem placeOf_sp (s : State) (c : CoreId) {a len : Nat} (hpos : 0 < len) (h : a + len ≤ 0x1000000) :
    placeOf s (spDev c + a) len = .sp c a := by
  have hc := c.isLt
  have htop : spDev c + a < 2 ^ 63 := by unfold spDev; omega
  have hcore : (spDev c + a - 0x10000000000) / 0x1000000 = c.val := by unfold spDev; omega
  have hoff : (spDev c + a - 0x10000000000) % 0x1000000 = a := by unfold spDev; omega
  have hrange : 0x10000000000 ≤ spDev c + a ∧ spDev c + a + len ≤ 0x10030000000 := by unfold spDev; omega
  unfold placeOf
  rw [Nat.testBit_lt_two_pow htop, if_neg Bool.false_ne_true]
  unfold placeLocal
  dsimp only
  rw [if_neg (by omega), if_neg (by omega), if_pos hrange, hcore, hoff, fin?_val]
  exact if_pos h

theorem splitReads_unit {s : State} {a : Nat} {c : CoreId} {o : Nat} (off : Nat) (hp : placeOf s a 64 = .sp c o)
    (ha : a % 64 = 0) : splitReads s a 64 off = [.read a 64 off] := by
  have hone : (a + 64 - 1) / 64 + 1 - a / 64 = 1 := by omega
  have hlo : a / 64 * 64 = a := by omega
  have hhi : (a / 64 + 1) * 64 = a + 64 := by omega
  unfold splitReads
  rw [hp]
  dsimp only
  rw [if_neg (by decide), hone, List.range_one, List.map_singleton, Nat.add_zero, Nat.add_zero, hlo, hhi, Nat.max_self,
    Nat.min_self, Nat.sub_self, Nat.add_sub_cancel_left]
  rfl

theorem splitWrites_unit {s : State} {a : Nat} {c : CoreId} {o : Nat} {bs : List Byte} (hp : placeOf s a 64 = .sp c o)
    (ha : a % 64 = 0) (hbs : bs.length = 64) : splitWrites s a bs = [.write a bs] := by
  unfold splitWrites
  rw [hbs, splitReads_unit 0 hp ha]
  simp only [List.map_singleton, List.drop_zero]
  rw [List.take_of_length_le (Nat.le_of_eq hbs)]

theorem runStream_whole (r : DmaRun) {bs : List Byte} (h : r.parts = [(0, bs)]) : runStream r bs.length = bs := by
  unfold runStream
  rw [h]
  exact memory_read_write_self [] 0 bs rfl

/-! ### The progress of the one run of a channel (R239) -/

/-- The state with the runs of a channel and the channels that wait replaced. -/
def setChan (s : State) (c : CoreId) (ch : Fin 4) (rs : List DmaRun) (pw : List (Fin 4)) : State :=
  s.setUnit c { s.unit c with chan := (s.unit c).chan.set ch rs, poolWait := pw }

section
variable (s : State) (c : CoreId) (ch : Fin 4) (rs : List DmaRun) (pw : List (Fin 4))

theorem setChan_unit : (setChan s c ch rs pw).unit c =
    { s.unit c with chan := (s.unit c).chan.set ch rs, poolWait := pw } := State.unit_setUnit_self s c _

theorem setChan_chan : ((setChan s c ch rs pw).unit c).chan[ch] = rs := by
  rw [setChan_unit]
  exact Vector.getElem_set_self _

theorem setChan_qOf (u : UnitSel) : qOf (setChan s c ch rs pw) c u = qOf s c u := by
  unfold qOf
  rw [setChan_unit]

theorem setChan_setChan (rs' : List DmaRun) (pw' : List (Fin 4)) :
    setChan (setChan s c ch rs pw) c ch rs' pw' = setChan s c ch rs' pw' := by
  unfold setChan
  rw [State.setUnit_setUnit, State.unit_setUnit_self]
  simp only [Vector.set_set]

end

section
variable {s : State} {c : CoreId} {ch : Fin 4} {x : DmaRun} {pw : List (Fin 4)}

theorem runOf_setChan : runOf (setChan s c ch [x] pw) c ch x.seq = some x := by
  unfold runOf
  rw [setChan_chan]
  exact List.find?_cons_of_pos (by simp)

theorem setRun_setChan {y : DmaRun} (h : x.seq = y.seq) : setRun (setChan s c ch [x] pw) c ch y = setChan s c ch [y] pw := by
  have hmap : ((setChan s c ch [x] pw).unit c).chan[ch].map (fun z => if z.seq == y.seq then y else z) = [y] := by
    rw [setChan_chan, List.map_singleton, h, beq_self_eq_true, if_pos rfl]
  unfold setRun
  dsimp only
  rw [hmap, setChan_unit]
  unfold setChan
  rw [State.setUnit_setUnit]
  simp only [Vector.set_set]

theorem chanAsk_setChan {n : Nat} (h : runOut x + n ≤ 128) :
    ∃ pw', chanAsk (setChan s c ch [x] pw) c ch n = (setChan s c ch [x] pw', true) := by
  have hout : chanOut (setChan s c ch [x] pw) c ch = runOut x := by
    unfold chanOut
    rw [setChan_chan]
    exact Nat.zero_add _
  unfold chanAsk
  dsimp only
  rw [hout, if_pos (.inl h), setChan_unit]
  refine ⟨(poolQueue (setChan s c ch [x] pw) c).erase ch, ?_⟩
  unfold setChan
  rw [State.setUnit_setUnit]

/-- A transfer whose source has been read, with its writes laid out. -/
def DmaRun.laying (x : DmaRun) (ws : List DmaReq) : DmaRun := { x with writing := true, todo := ws, parts := [] }

/-- A run that has made its requests waits for its completion. -/
theorem dmaIssue_rests (htodo : x.todo = []) (hw : x.writing = true) (n : Nat) :
    dmaIssue c ch x.seq n (setChan s c ch [x] pw) = setChan s c ch [x] pw := by
  cases n with
  | zero => rfl
  | succ n =>
    unfold dmaIssue
    rw [runOf_setChan]
    dsimp only
    rw [htodo]
    dsimp only
    rw [if_pos (.inl hw)]

theorem dmaIssue_reads {a len off : Nat} {rest : List DmaReq} {bs : List Byte} (htodo : x.todo = .read a len off :: rest)
    (hask : runOut x + unitsOf a len ≤ 128)
    (hread : ∀ pw', dmaRead (setChan s c ch [x] pw') c ch x a len off = (setChan s c ch [x] pw', .got bs)) (n : Nat) :
    ∃ pw', dmaIssue c ch x.seq (n + 1) (setChan s c ch [x] pw) = dmaIssue c ch x.seq n
      (setChan s c ch [{ x with todo := rest, parts := x.parts ++ [(off, bs)] }] pw') := by
  obtain ⟨pw', hpw⟩ := chanAsk_setChan (s := s) (c := c) (ch := ch) (pw := pw) hask
  refine ⟨pw', ?_⟩
  conv_lhs => unfold dmaIssue
  rw [runOf_setChan]
  dsimp only
  rw [htodo]
  dsimp only [reqUnits]
  rw [hpw]
  dsimp only
  rw [hread pw']
  dsimp only
  rw [setRun_setChan]
  rfl

theorem dmaIssue_lays (htodo : x.todo = []) (hw : x.writing = false) (hf : x.fail = none) (hout : x.out = []) (hcxl : x.cxl = 0)
    (hh : x.hreads = 0) (n : Nat) :
    dmaIssue c ch x.seq (n + 1) (setChan s c ch [x] pw) = dmaIssue c ch x.seq n (setChan s c ch
      [x.laying (dmaWrites (setChan s c ch [x] pw) x.word x.dst (spDev c) (runStream x (streamLen x.word x.parts)))] pw) := by
  conv_lhs => unfold dmaIssue
  rw [runOf_setChan]
  dsimp only
  rw [htodo]
  dsimp only
  rw [if_neg (by simp [hw, hf, hout, hcxl, hh]), setRun_setChan] <;> rfl

/-- A write that arrives: the bytes of `u` are the transfer's doing. -/
theorem dmaIssue_writes {a : Nat} {bs : List Byte} {u : State} (htodo : x.todo = [.write a bs])
    (hask : runOut x + unitsOf a bs.length ≤ 128)
    (hwrite : ∀ pw', dmaWrite (setChan s c ch [x] pw') c ch x a bs = (setChan u c ch [x] pw', .got [])) (n : Nat) :
    ∃ pw', dmaIssue c ch x.seq (n + 1) (setChan s c ch [x] pw) = dmaIssue c ch x.seq n
      (setChan (dmaCount u c ch bs.length) c ch [{ x with todo := [] }] pw') := by
  obtain ⟨pw', hpw⟩ := chanAsk_setChan (s := s) (c := c) (ch := ch) (pw := pw) hask
  refine ⟨pw', ?_⟩
  conv_lhs => unfold dmaIssue
  rw [runOf_setChan]
  dsimp only
  rw [htodo]
  dsimp only [reqUnits]
  rw [hpw]
  dsimp only
  rw [hwrite pw']
  dsimp only
  rw [setRun_setChan] <;> rfl

end

theorem dmaNext_setChan (s : State) (c : CoreId) (ch : Fin 4) (x : DmaRun) (pw : List (Fin 4)) :
    dmaNext (setChan s c ch [x] pw) c ch = dmaIssue c ch x.seq (dmaFuel x) (setChan s c ch [x] pw) := by
  unfold dmaNext
  rw [setChan_chan]
  rfl

/-- No answer of the host comes to a channel that waits for none. -/
theorem dmaHostAnswer_none {s : State} {c : CoreId} {ch : Fin 4} (h : ∀ x ∈ s.host.reads, x.who ≠ .dma c ch) (y : HostReply) :
    dmaHostAnswer s c ch y = s := by
  have hfind : s.host.reads.find? (fun x => x.who == .dma c ch) = none :=
    List.find?_eq_none.mpr fun x hx hw => h x hx (eq_of_beq hw)
  unfold dmaHostAnswer takeRead
  rw [hfind]

/-- A transfer that rests after its requests is at rest whatever the host answers. -/
theorem dmaGo_settles {s t : State} {c : CoreId} {ch : Fin 4} (hgo : dmaNext s c ch = t) (hrest : dmaNext t c ch = t)
    (h : ∀ x ∈ t.host.reads, x.who ≠ .dma c ch) (hs : List HostReply) : dmaGo s c ch hs = t := by
  induction hs generalizing s with
  | nil => exact hgo
  | cons y ys ih =>
    unfold dmaGo
    rw [hgo, dmaHostAnswer_none h]
    exact ih hrest

/-! ### A write of a scratchpad besides the units and the host -/

theorem dirtySp_setUnit (s : State) (c : CoreId) (k : Units) (d off len : Nat) :
    dirtySp (s.setUnit c k) d off len = (dirtySp s d off len).setUnit c k := by
  unfold dirtySp
  generalize List.range 8 = l
  induction l generalizing s with
  | nil => rfl
  | cons e l ih =>
    rw [List.foldl_cons, List.foldl_cons, ← ih]
    refine congrArg (List.foldl _ · l) ?_
    dsimp only [State.rd_setUnit]
    split
    · next h => exact if_pos h
    · next h => exact if_neg h

theorem dirtySp_host (s : State) (d off len : Nat) : (dirtySp s d off len).host = s.host := by
  unfold dirtySp
  generalize List.range 8 = l
  induction l generalizing s with
  | nil => rfl
  | cons e l ih =>
    rw [List.foldl_cons, ih]
    dsimp only
    split <;> rfl

theorem wroteSp_setChan (s : State) (c : CoreId) (ch : Fin 4) (rs : List DmaRun) (pw : List (Fin 4)) (off : Nat)
    (bs : List Byte) : wroteSp (setChan s c ch rs pw) c off bs = setChan (wroteSp s c off bs) c ch rs pw := by
  have hunit := wroteSp_unit s c off bs c
  unfold setChan
  rw [hunit]
  exact dirtySp_setUnit (putSp s c off bs) c _ c off bs.length

/-! ### A linear copy within the own scratchpad (R241) -/

theorem dmaRead_sp {s : State} {c : CoreId} {a len o : Nat} (h : placeOf s a len = .sp c o) (ch : Fin 4) (x : DmaRun)
    (off : Nat) : dmaRead s c ch x a len off = fromAcc (spDo s c x.job o len none) := by
  unfold dmaRead
  rw [h]
  exact congrArg fromAcc (if_pos rfl)

theorem dmaWrite_sp {s : State} {c : CoreId} {a o : Nat} {bs : List Byte} (h : placeOf s a bs.length = .sp c o) (ch : Fin 4)
    (x : DmaRun) : dmaWrite s c ch x a bs = fromAcc (spDo s c x.job o bs.length (some bs)) := by
  unfold dmaWrite
  dsimp only
  rw [h]
  exact congrArg fromAcc (if_pos rfl)

theorem fromAcc_ok (s : State) (bs : List Byte) : fromAcc (s, .ok bs) = (s, .got bs) := rfl

theorem setChan_jobOf (s : State) (c : CoreId) (ch : Fin 4) (rs : List DmaRun) (pw : List (Fin 4)) (d : CoreId) :
    (setChan s c ch rs pw).jobOf d = s.jobOf d := rfl

theorem spDo_reads {s : State} {c : CoreId} {o len : Nat} (h : SpFree s c o len) :
    spDo s c (s.jobOf c) o len none = (s, .ok (spBytes s c o len)) := by
  unfold spDo
  dsimp only
  rw [spRead_free h]

theorem spDo_writes {s : State} {c : CoreId} {o : Nat} {bs : List Byte} (h : SpFree s c o bs.length) (n : Nat) :
    spDo s c (s.jobOf c) o n (some bs) = (wroteSp s c o bs, .ok []) := by
  unfold spDo
  dsimp only
  rw [spWrite_free h]

theorem spFree_setChan {s : State} {c : CoreId} {a len : Nat} (h : SpFree s c a len) (ch : Fin 4) (rs : List DmaRun)
    (pw : List (Fin 4)) : SpFree (setChan s c ch rs pw) c a len := spFree_congr rfl rfl (fun _ _ => rfl) h

section
variable {s : State} {c : CoreId} {ch : Fin 4} {x : DmaRun} {pw : List (Fin 4)} {a : Nat} (hjob : x.job = s.jobOf c)
include hjob

theorem dmaRead_own {len : Nat} (hpos : 0 < len) (hfree : SpFree s c a len) (ha : a + len ≤ 0x1000000) :
    dmaRead (setChan s c ch [x] pw) c ch x (spDev c + a) len 0 = (setChan s c ch [x] pw, .got (spBytes s c a len)) := by
  have hread := spDo_reads (spFree_setChan hfree ch [x] pw)
  rw [setChan_jobOf] at hread
  rw [dmaRead_sp (placeOf_sp _ c hpos ha), hjob, hread, fromAcc_ok]
  rfl

theorem dmaWrite_own {bs : List Byte} (hpos : 0 < bs.length) (hfree : SpFree s c a bs.length)
    (ha : a + bs.length ≤ 0x1000000) :
    dmaWrite (setChan s c ch [x] pw) c ch x (spDev c + a) bs = (setChan (wroteSp s c a bs) c ch [x] pw, .got []) := by
  have hwrite := spDo_writes (spFree_setChan hfree ch [x] pw) bs.length
  rw [wroteSp_setChan, setChan_jobOf] at hwrite
  rw [dmaWrite_sp (placeOf_sp _ c hpos ha), hjob, hwrite, fromAcc_ok]

end

theorem unitsOf_unit {a : Nat} (h : a % 64 = 0) : unitsOf a 64 = 1 := by
  unfold unitsOf
  omega

theorem dmaWrites_linear (s : State) {w : W128} (h : xMode w = 0) (dst core : Nat) (bs : List Byte) :
    dmaWrites s w dst core bs = splitWrites s dst bs := by
  unfold dmaWrites
  dsimp only
  rw [h]
  rfl

theorem streamLen_linear {w : W128} (h : xMode w = 0) (ps : List (Nat × List Byte)) : streamLen w ps = xLen w := by
  unfold streamLen
  rw [h]
  rfl

/-- The run of a linear transfer of one line as it starts. -/
def lineRun (s : State) (c : CoreId) (e : Entry) (src dst : Nat) : DmaRun :=
  { seq := s.tick, pc := e.pc, word := e.word, dst := dst, job := s.jobOf c, todo := [.read src 64 0] }

/-- The run of a linear transfer of one line whose source has come. -/
def lineRead (s : State) (c : CoreId) (e : Entry) (dst : Nat) (bs : List Byte) : DmaRun :=
  { seq := s.tick, pc := e.pc, word := e.word, dst := dst, job := s.jobOf c, parts := [(0, bs)] }

/-- The run of a linear transfer of one line that has made its requests. -/
def lineDone (s : State) (c : CoreId) (e : Entry) (dst : Nat) : DmaRun :=
  { seq := s.tick, pc := e.pc, word := e.word, dst := dst, job := s.jobOf c, writing := true }

section
variable {r s : State} {c : CoreId} {ch : Fin 4} {e : Entry} {a b : Nat} {pw : List (Fin 4)}

/-- A line of a scratchpad as it stands. -/
theorem length_spBytes (s : State) (c : CoreId) (a n : Nat) : (spBytes s c a n).length = n := by
  simp [spBytes, Memory.read]

theorem spDev_aligned (h : a % 64 = 0) : (spDev c + a) % 64 = 0 := by unfold spDev; omega

theorem lineRun_reads (hs : s.jobOf c = r.jobOf c) (ha : a % 64 = 0) (hat : a + 64 ≤ 0x1000000) (hfa : SpFree s c a 64)
    (dst n : Nat) : ∃ pw',
    dmaIssue c ch r.tick (n + 1) (setChan s c ch [lineRun r c e (spDev c + a) dst] pw) =
      dmaIssue c ch r.tick n (setChan s c ch [lineRead r c e dst (spBytes s c a 64)] pw') :=
  dmaIssue_reads (x := lineRun r c e (spDev c + a) dst) (rest := []) (bs := spBytes s c a 64) rfl
    (by rw [unitsOf_unit (spDev_aligned ha)]; exact Nat.le_of_ble_eq_true rfl)
    (fun _ => dmaRead_own hs.symm (Nat.succ_pos 63) hfa hat) n

theorem lineRead_lays {bs : List Byte} (hmode : xMode e.word = 0) (hlen : xLen e.word = 64) (hb : b % 64 = 0)
    (hbt : b + 64 ≤ 0x1000000) (hbs : bs.length = 64) (n : Nat) :
    dmaIssue c ch r.tick (n + 1) (setChan s c ch [lineRead r c e (spDev c + b) bs] pw) =
      dmaIssue c ch r.tick n (setChan s c ch [(lineRead r c e (spDev c + b) bs).laying [.write (spDev c + b) bs]] pw) := by
  have hlay := dmaIssue_lays (s := s) (c := c) (ch := ch) (x := lineRead r c e (spDev c + b) bs) (pw := pw) rfl rfl rfl rfl rfl
    rfl n
  have hstream := runStream_whole (lineRead r c e (spDev c + b) bs) (bs := bs) rfl
  have hws : dmaWrites (setChan s c ch [lineRead r c e (spDev c + b) bs] pw) e.word (spDev c + b) (spDev c)
      (runStream (lineRead r c e (spDev c + b) bs) (streamLen e.word (lineRead r c e (spDev c + b) bs).parts)) =
      [.write (spDev c + b) bs] := by
    rw [dmaWrites_linear _ hmode, streamLen_linear hmode, hlen, ← hbs, hstream]
    exact splitWrites_unit (placeOf_sp _ c (Nat.succ_pos 63) hbt) (spDev_aligned hb) hbs
  exact hlay.trans (congrArg (fun ws => dmaIssue c ch r.tick n
    (setChan s c ch [(lineRead r c e (spDev c + b) bs).laying ws] pw)) hws)

theorem lineRead_writes {bs : List Byte} (hs : s.jobOf c = r.jobOf c) (hb : b % 64 = 0) (hbt : b + 64 ≤ 0x1000000)
    (hbs : bs.length = 64) (hfb : SpFree s c b 64) (n : Nat) : ∃ pw',
    dmaIssue c ch r.tick (n + 1)
        (setChan s c ch [(lineRead r c e (spDev c + b) bs).laying [.write (spDev c + b) bs]] pw) =
      dmaIssue c ch r.tick n (setChan (dmaCount (wroteSp s c b bs) c ch bs.length) c ch [lineDone r c e (spDev c + b)] pw') :=
  dmaIssue_writes (x := (lineRead r c e (spDev c + b) bs).laying [.write (spDev c + b) bs]) rfl
    (by rw [hbs, unitsOf_unit (spDev_aligned hb)]; exact Nat.le_of_ble_eq_true rfl)
    (fun _ => dmaWrite_own hs.symm (by omega) (by rwa [hbs]) (by rwa [hbs])) n

theorem lineDone_rests (dst : Nat) : dmaNext (setChan s c ch [lineDone r c e dst] pw) c ch =
    setChan s c ch [lineDone r c e dst] pw := by
  rw [dmaNext_setChan]
  exact dmaIssue_rests rfl rfl _

/-- The whole way of a linear transfer of one line, from its first request to its rest. -/
theorem lineRun_goes (hmode : xMode e.word = 0) (hlen : xLen e.word = 64) (ha : a % 64 = 0) (hb : b % 64 = 0)
    (hat : a + 64 ≤ 0x1000000) (hbt : b + 64 ≤ 0x1000000) (hs : s.jobOf c = r.jobOf c) (hfa : SpFree s c a 64)
    (hfb : SpFree s c b 64) : ∃ pw',
    dmaNext (setChan s c ch [lineRun r c e (spDev c + a) (spDev c + b)] pw) c ch =
      setChan (dmaCount (wroteSp s c b (spBytes s c a 64)) c ch 64) c ch [lineDone r c e (spDev c + b)] pw' := by
  have hbs := length_spBytes s c a 64
  obtain ⟨n, hfuel⟩ : ∃ n, dmaFuel (lineRun r c e (spDev c + a) (spDev c + b)) = n + 3 :=
    ⟨_, (Nat.sub_add_cancel (by unfold dmaFuel; omega)).symm⟩
  obtain ⟨pw1, h1⟩ := lineRun_reads (e := e) (ch := ch) (pw := pw) hs ha hat hfa (spDev c + b) (n + 2)
  have h2 := lineRead_lays (r := r) (s := s) (c := c) (ch := ch) (pw := pw1) hmode hlen hb hbt hbs (n + 1)
  obtain ⟨pw2, h3⟩ := lineRead_writes (e := e) (ch := ch) (pw := pw1) hs hb hbt hbs hfb n
  refine ⟨pw2, ?_⟩
  rw [dmaNext_setChan, hfuel]
  refine h1.trans (h2.trans (h3.trans ?_))
  rw [hbs]
  exact dmaIssue_rests (x := lineDone r c e (spDev c + b)) rfl rfl n

end

/-! ### The start and the end of a transfer (R239, R246) -/

section
variable {r : State} {c : CoreId} {ch : Fin 4} {e : Entry} {rest : List Entry} {a b : Nat}

/-- The state in which a transfer has left its queue and has its number. -/
def takenDma (r : State) (c : CoreId) (rest : List Entry) : State := (popHead r c .dma rest).fresh.2

theorem dmaCheck_linear {s : State} {w : W128} {src dst : Nat} (hmode : xMode w = 0) (hsrc : spanOk s src (srcSpan w) = true)
    (hdst : spanOk s dst (dstSpan w) = true) (ha : src % 64 = 0) (hb : dst % 64 = 0) : dmaCheck s c w src dst = none := by
  unfold dmaCheck
  dsimp only
  rw [hsrc, hdst, hmode, if_neg (by simp), if_neg (by simp), if_pos (.inl rfl), if_neg (by simp [ha]), if_neg (by simp [hb])]

theorem dmaReads_linear {s : State} {w : W128} {src dst : Nat} (job : Option Nat) (hmode : xMode w = 0)
    (hcheck : dmaCheck s c w src dst = none) : dmaReads s c w src dst job = (s, .inl (splitReads s src (xLen w) 0)) := by
  unfold dmaReads
  dsimp only
  rw [hcheck, hmode]
  rfl

theorem srcSpan_linear {w : W128} (h : xMode w = 0) : srcSpan w = xLen w := by
  unfold srcSpan
  dsimp only
  rw [h]
  rfl

theorem dstSpan_linear {w : W128} (h : xMode w = 0) : dstSpan w = xLen w := by
  unfold dstSpan
  dsimp only
  rw [h]
  rfl

theorem spanOk_sp {s : State} {a' len o : Nat} (h : placeOf s a' len = .sp c o) : spanOk s a' len = true := by
  unfold spanOk
  rw [h]
  exact bne_iff_ne.mpr (by simp)

theorem dmaReads_line {s : State} {w : W128} (job : Option Nat) (hmode : xMode w = 0) (hlen : xLen w = 64)
    (ha : a % 64 = 0) (hb : b % 64 = 0) (hat : a + 64 ≤ 0x1000000) (hbt : b + 64 ≤ 0x1000000) :
    dmaReads s c w (spDev c + a) (spDev c + b) job = (s, .inl [.read (spDev c + a) 64 0]) := by
  have hpa := placeOf_sp s c (Nat.succ_pos 63) hat
  have hpb := placeOf_sp s c (Nat.succ_pos 63) hbt
  have hcheck := dmaCheck_linear (c := c) hmode (by rw [srcSpan_linear hmode, hlen]; exact spanOk_sp hpa)
    (by rw [dstSpan_linear hmode, hlen]; exact spanOk_sp hpb) (spDev_aligned ha) (spDev_aligned hb)
  rw [dmaReads_linear job hmode hcheck, hlen, splitReads_unit 0 hpa (spDev_aligned ha)]

/-- The run of a transfer as it starts, with its requests. -/
def startedRun (s : State) (c : CoreId) (e : Entry) (dst : Nat) (todo : List DmaReq) : DmaRun :=
  { seq := s.tick, pc := e.pc, word := e.word, dst := dst, job := s.jobOf c, todo := todo }

theorem takenDma_unit (r : State) (c : CoreId) (rest : List Entry) :
    ((takenDma r c rest).unit c).chan = (r.unit c).chan ∧ ((takenDma r c rest).unit c).poolWait = (r.unit c).poolWait :=
  have h := popHead_unit r c .dma rest
  have hchan := congrArg Units.chan h
  have hwait := congrArg Units.poolWait h
  ⟨hchan, hwait⟩

theorem dmaStart_plan {todo : List DmaReq} (hstart : canStart r c = true) (hq : qOf r c .dma = e :: rest)
    (hch : xCh e.word = ch.val) (hguard : holdingGuard r c e = none) (hchan : (r.unit c).chan[ch] = [])
    (hplan : dmaReads (takenDma r c rest) c e.word (snapGet e.s (xSsrc e.word)).toNat (snapGet e.s (xSdst e.word)).toNat
      ((takenDma r c rest).jobOf c) = (takenDma r c rest, .inl todo)) (hs : List HostReply) :
    dmaStart r c hs = dmaGo (setChan (takenDma r c rest) c ch [startedRun r c e (snapGet e.s (xSdst e.word)).toNat todo]
      ((takenDma r c rest).unit c).poolWait) c ch hs := by
  have hidle : chanIdle r c ch = true := by unfold chanIdle; rw [hchan]; rfl
  have hpop : (popHead r c .dma rest).fresh = (r.tick, takenDma r c rest) := rfl
  have hempty : ((takenDma r c rest).unit c).chan[ch] = [] := by rw [(takenDma_unit r c rest).1]; exact hchan
  unfold dmaStart
  rw [hstart, if_pos rfl, hq]
  dsimp only
  rw [hch, fin?_val]
  dsimp only
  rw [hidle, hguard, if_neg (by simp), hpop]
  dsimp only
  rw [hplan]
  dsimp only
  rw [hempty]
  rfl

theorem setChan_same {x : DmaRun} (h : (r.unit c).chan[ch] = [x]) : setChan r c ch [x] (r.unit c).poolWait = r := by
  have hset : (r.unit c).chan.set ch [x] = (r.unit c).chan := by
    rw [← h]
    exact Vector.set_getElem_self _
  unfold setChan
  rw [hset]
  exact State.setUnit_unit r c

/-- A transfer that has made its requests does not move. -/
theorem dmaGo_rests {x : DmaRun} {hs : List HostReply} (h : (r.unit c).chan[ch] = [x]) (htodo : x.todo = [])
    (hw : x.writing = true) (hhost : hs = [] ∨ ∀ y ∈ r.host.reads, y.who ≠ .dma c ch) : dmaGo r c ch hs = r := by
  have hnext : dmaNext r c ch = r := by
    rw [← setChan_same h, dmaNext_setChan]
    exact dmaIssue_rests htodo hw _
  obtain rfl | hreads := hhost
  · exact hnext
  · exact dmaGo_settles hnext hnext hreads hs

theorem dmaFinish_waits {x : DmaRun} (h : (r.unit c).chan[ch] = [x]) (hout : x.out ≠ [] ∨ x.cxl ≠ 0 ∨ x.hreads ≠ 0) :
    dmaFinish r c ch = r := by
  unfold dmaFinish
  dsimp only
  rw [h]
  refine if_pos (.inr (.inr (hout.imp_left fun ho => ?_)))
  rw [List.isEmpty_eq_false_iff.mpr ho]
  rfl

/-- The slot action of a transfer. -/
def fillOf (s : State) (c : CoreId) (x : DmaRun) : State := if xSfill x.word then setGuard s c (xSlot x.word) true else s

theorem dmaFinish_ends {x : DmaRun} (h : (r.unit c).chan[ch] = [x]) (htodo : x.todo = []) (hw : x.writing = true)
    (hf : x.fail = none) (hout : x.out = []) (hcxl : x.cxl = 0) (hh : x.hreads = 0) :
    dmaFinish r c ch = wake (fillOf (setChan r c ch [] (r.unit c).poolWait) c x) c := by
  unfold dmaFinish
  dsimp only
  rw [h]
  dsimp only
  rw [if_neg (by simp [htodo, hw, hf, hout, hcxl, hh]), hf]
  rfl

/-- All that the slot action of a transfer leaves as it was. -/
theorem fillOf_frame (s : State) (c : CoreId) (x : DmaRun) :
    let t := fillOf s c x
    t.cores = s.cores ∧ t.units = s.units ∧ t.gddr = s.gddr ∧ t.tier = s.tier ∧ t.sec = s.sec ∧ (t.loc c).sp = (s.loc c).sp ∧
    (xSfill x.word = true → guardFilled t c (xSlot x.word) = true) ∧
    ∀ g, g ≠ xSlot x.word ∨ xSfill x.word = false → guardFilled t c g = guardFilled s c g := by
  intro t
  cases hfill : xSfill x.word with
  | false =>
    have ht : t = s := if_neg (by simp [hfill])
    rw [ht]
    exact ⟨rfl, rfl, rfl, rfl, rfl, rfl, fun h => absurd h Bool.false_ne_true, fun _ _ => rfl⟩
  | true =>
    have ht : t = setGuard s c (xSlot x.word) true := if_pos hfill
    obtain ⟨hc, hu, -, hg, hti, hsec, -, hl, -⟩ := setGuard_frame s c (xSlot x.word) true
    rw [ht]
    refine ⟨hc, hu, hg, hti, hsec, by rw [hl], fun _ => ?_, fun g hg => ?_⟩
    · exact guardFilled_setGuard_self s c true (fld_lt x.word 64 12)
    · exact guardFilled_setGuard_other s c true (hg.resolve_right (by simp))

end

theorem exec_dmaTransferComplete {s : State} (c : CoreId) (ch : Fin 4) {us : List Upset} (hs : List HostReply)
    (h : (strike s us).power.held = false) :
    exec (.dmaTransferComplete c ch us hs) s = .next (dmaComplete (strike s us) c ch hs) :=
  congrArg Host.Outcome.next (live_of_struck h)

/-- All that the count of a transfer's bytes and the state of its run leave as it was. -/
theorem counted_frame (u : State) (c : CoreId) (ch : Fin 4) (n : Nat) (rs : List DmaRun) (pw : List (Fin 4)) :
    let t := setChan (dmaCount u c ch n) c ch rs pw
    t.cores = u.cores ∧ t.gddr = u.gddr ∧ t.tier = u.tier ∧ t.sec = u.sec ∧ t.host = u.host ∧ t.loc = u.loc ∧
    (∀ x, qOf t c x = qOf u c x) ∧ (t.unit c).chan[ch] = rs :=
  ⟨rfl, rfl, rfl, rfl, rfl, rfl, setChan_qOf (dmaCount u c ch n) c ch rs pw, setChan_chan (dmaCount u c ch n) c ch rs pw⟩

theorem takenDma_frame (r : State) (c : CoreId) (rest : List Entry) :
    let t := takenDma r c rest
    t.cores = r.cores ∧ t.gddr = r.gddr ∧ t.tier = r.tier ∧ t.sec = r.sec ∧ t.host = r.host ∧ t.loc = r.loc ∧
    qOf t c .dma = rest := ⟨rfl, rfl, rfl, rfl, rfl, rfl, qOf_popHead_self r c .dma rest⟩

theorem wroteSp_host (s : State) (c : CoreId) (off : Nat) (bs : List Byte) : (wroteSp s c off bs).host = s.host :=
  dirtySp_host (putSp s c off bs) c off bs.length

theorem wroteSp_frame (s : State) (c : CoreId) (off : Nat) (bs : List Byte) :
    let t := wroteSp s c off bs
    t.cores = s.cores ∧ t.gddr = s.gddr ∧ t.tier = s.tier ∧ t.sec = s.sec := by
  have hq := wroteSp_quiet s c off bs
  exact ⟨hq.cores, hq.gddr, hq.tier, hq.sec⟩

theorem holdingGuard_xfer (s : State) (c : CoreId) {e : Entry} (h : fClass e.word = 3) (hfill : xSfill e.word = false) :
    holdingGuard s c e = none := by
  unfold holdingGuard
  dsimp only
  rw [h]
  exact if_neg (by simp [hfill])

/-- What the copy of a line leaves: its run at rest and the bytes in place. -/
theorem lineCopied {r : State} {c : CoreId} {ch : Fin 4} {rest : List Entry} {x : DmaRun} {b : Nat} {bs : List Byte}
    {pw : List (Fin 4)} (hbs : bs.length = 64) (hm : Memory.wf (r.loc c).sp = true) :
    let t := setChan (dmaCount (wroteSp (takenDma r c rest) c b bs) c ch 64) c ch [x] pw
    qOf t c .dma = rest ∧ (t.unit c).chan[ch] = [x] ∧
    (∀ y, (t.loc c).sp.get y = if h : b ≤ y ∧ y < b + 64 then bs[y - b] else (r.loc c).sp.get y) ∧
    (t.loc c).guards = (r.loc c).guards ∧ t.cores = r.cores ∧ t.gddr = r.gddr ∧ t.tier = r.tier ∧ t.sec = r.sec ∧
    t.host = r.host ∧ ∀ d, d ≠ c → t.loc d = r.loc d := by
  intro t
  obtain ⟨hc, hg, hti, hs, hh, hl, hq, hch⟩ := counted_frame (wroteSp (takenDma r c rest) c b bs) c ch 64 [x] pw
  obtain ⟨kc, kg, kt, ks⟩ := wroteSp_frame (takenDma r c rest) c b bs
  obtain ⟨mc, mg, mt, ms, mh, ml, mq⟩ := takenDma_frame r c rest
  have hloc : t.loc c = { r.loc c with sp := (r.loc c).sp.write b bs } := by
    rw [hl, wroteSp_loc, ml]
  have hqueue : qOf (wroteSp (takenDma r c rest) c b bs) c .dma = rest := by
    rw [qOf, wroteSp_unit]
    exact mq
  refine ⟨(hq .dma).trans hqueue, hch, fun y => ?_, by rw [hloc], hc.trans (kc.trans mc), hg.trans (kg.trans mg),
    hti.trans (kt.trans mt), hs.trans (ks.trans ms), hh.trans ((wroteSp_host _ c b bs).trans mh), fun d hd => ?_⟩
  · rw [hloc]
    have hget := memory_get_write bs (r.loc c).sp b y hm
    rw [hget]
    simp only [hbs]
  · rw [hl, wroteSp_loc_other _ _ _ _ hd, ml]

/-- Settles O27: the copy of a line goes through `lineRun_goes`, and a transfer with nothing out ends in `dmaFinish_ends`. -/
theorem dmaResult : Obligations.DmaResult := by
  unfold Obligations.DmaResult
  constructor
  · intro c us hs s e rest ch a b r hhost hfree hstart hm hq hclass hmode hlen hch hfill hchan hsrc hdst ha hb hat hbt hfa hfb
    have hsrc' : (snapGet e.s (xSsrc e.word)).toNat = spDev c + a := hsrc
    have hdst' : (snapGet e.s (xSdst e.word)).toNat = spDev c + b := hdst
    have hplan := dmaReads_line (s := takenDma r c rest) (c := c) ((takenDma r c rest).jobOf c) hmode hlen ha hb hat hbt
    rw [← hsrc', ← hdst'] at hplan
    have hgo := dmaStart_plan hstart hq hch (holdingGuard_xfer r c hclass hfill) hchan hplan hs
    rw [hsrc', hdst'] at hgo
    have hfa' : SpFree (takenDma r c rest) c a 64 := spFree_congr rfl rfl (fun _ _ => rfl) hfa
    have hfb' : SpFree (takenDma r c rest) c b 64 := spFree_congr rfl rfl (fun _ _ => rfl) hfb
    obtain ⟨pw, hline⟩ := lineRun_goes (r := r) (s := takenDma r c rest) (ch := ch) (e := e)
      (pw := ((takenDma r c rest).unit c).poolWait) hmode hlen ha hb hat hbt rfl hfa' hfb'
    obtain ⟨tq, tch, tsp, tg, tc, tgd, tti, tsec, th, tl⟩ := lineCopied (r := r) (c := c) (ch := ch) (rest := rest)
      (x := lineDone r c e (spDev c + b)) (b := b) (pw := pw) (length_spBytes (takenDma r c rest) c a 64) (hm.2.2.1 c)
    have hstartEq := hgo.trans (dmaGo_settles hline (lineDone_rests _) (by rw [th]; exact hhost) hs)
    have hexec : exec (.dmaTransferStart c us hs) s = .next (wake (dmaStart r c hs) c) := rfl
    rw [hstartEq, wake_running (by rw [State.core, tc]; exact hfree.1) (by rw [State.core, tc]; exact hfree.2)] at hexec
    refine ⟨_, _, hexec, tq, tch, rfl, rfl, rfl, rfl, fun y => ?_, tg, tc, tgd, tti, tsec, tl⟩
    rw [tsp]
    split
    · simp only [spBytes, Memory.read, List.getElem_map, List.getElem_range]
      rfl
    · rfl
  · intro c ch us hs s x r hhost hpower hfree hchan htodo hw hf
    have hexec := exec_dmaTransferComplete c ch hs hpower
    have hgo : dmaComplete r c ch hs = dmaFinish r c ch := congrArg (dmaFinish · c ch) (dmaGo_rests hchan htodo hw hhost)
    rw [hgo] at hexec
    refine ⟨fun hout hcxl hh => ?_, fun hout => ?_⟩
    · have hcores := fillOf_frame (setChan r c ch [] (r.unit c).poolWait) c x
      dsimp only at hcores
      obtain ⟨hc, hu, hg, ht, hsec, hsp, hself, hother⟩ := hcores
      have hend := dmaFinish_ends hchan htodo hw hf hout hcxl hh
      have hcore : (fillOf (setChan r c ch [] (r.unit c).poolWait) c x).core c = r.core c := by
        rw [State.core, hc]
        rfl
      rw [wake_running (by rw [hcore]; exact hfree.1) (by rw [hcore]; exact hfree.2)] at hend
      rw [hend] at hexec
      refine ⟨_, hexec, ?_, hself, fun g h => hother g h, hsp, hc, hg, ht, hsec⟩
      rw [State.unit, hu]
      exact setChan_chan r c ch [] _
    · rw [hexec, dmaFinish_waits hchan hout]

end Sys2Proof.Machine
end

section
/-!
PROOF. A PUSH on a plain queue (O31): while a control word of its micro-batch waits to be written, the PUSH whose cells are all
accepted does not complete (R375), and the fabric queue is not free, as the statement says that it is.
-/

namespace Sys2Proof.Machine

/-- A PUSH of one cell of micro-batch 0xFFFF on Q0 under S0. -/
def pushWord : W128 := 0xFFFF0001000400000004#128

/-- C0 about to issue the PUSH on the plain queue Q0 of its job 0, with a control word of the micro-batch waiting. -/
def pushBeforeItsWord : State :=
  { State.reset with
    regs := [(0x600008, 1#64), (0x600028, 0x10#64), (0x600038, 32#64), (pwrBase + 0x60, 0xFFFFFFFFFFFFFFFF#64),
             (0x1000030, 0x100#64)]
    cores := State.reset.cores.set 0 { run := .running, imem := [(0, pushWord)] }
    locals := State.reset.locals.set 0 {}
    jobs := { words := [{ slot := 0, job := 0, qout := 0, mbtag := 0xFFFF#16, word := 0#64 }] }
    power := { boot := .up } }

theorem pushBeforeItsWord_issues : Issues pushBeforeItsWord 0 pushWord .qopPush := by
  unfold Issues AtPc PredTrue Flowing
  decide +kernel

theorem pushBeforeItsWord_plain : QPlain pushBeforeItsWord 0 := by
  unfold QPlain
  decide +kernel

theorem pushBeforeItsWord_memOk : MemOk pushBeforeItsWord := by
  unfold MemOk
  decide +kernel

theorem pushBeforeItsWord_free : SpFree pushBeforeItsWord 0 0 64 := by
  unfold SpFree
  decide +kernel

/-- The PUSH is accepted and stays started. -/
theorem pushBeforeItsWord_stays :
    ((qopIssue 0 true [] .qopPush pushBeforeItsWord).unit 0).fab = some (.qop { pc := 0, word := pushWord, s := (pushBeforeItsWord.core 0).snap } 1) := by
  decide +kernel

/-- Refutes O31: a PUSH whose micro-batch has a control word waiting keeps the fabric queue of its core. -/
theorem not_queueInstructionResult : ¬ Obligations.QueueInstructionResult := by
  unfold Obligations.QueueInstructionResult
  intro h
  obtain ⟨hpush, -⟩ := h 0 [] pushBeforeItsWord pushWord 0
  obtain ⟨t, hexec, -, hfab, -⟩ := hpush
    ⟨pushBeforeItsWord_issues, by decide +kernel, by decide +kernel, by decide +kernel, pushBeforeItsWord_plain,
      by decide +kernel, pushBeforeItsWord_memOk⟩
    (by decide +kernel) (by decide +kernel) (by decide +kernel) (by decide +kernel) pushBeforeItsWord_free (by decide +kernel)
  obtain rfl := Host.Outcome.next.inj hexec
  exact absurd (pushBeforeItsWord_stays.symm.trans hfab) (by simp)

end Sys2Proof.Machine
end

section
/-!
SUPPORT. The fetched descriptors of the rings, and a transfer of a descriptor that reads host memory in one piece (R331, R342, R349).
-/

namespace Sys2Proof.Machine

/-! ### An event takes no fetched descriptor (R342, R350) -/

/-- The fetched descriptors of every ring. -/
def ringDescs (s : State) : Vector (List Desc) 34 := s.host.rings.map (·.descs)

section
variable (s : State)

theorem descs_of_ringDescs {s t : State} (h : ringDescs t = ringDescs s) (r : RingId) :
    (t.host.rings[r]).descs = (s.host.rings[r]).descs := by
  have hr := congrArg (fun v : Vector (List Desc) 34 => v[r]) h
  simpa [ringDescs] using hr

theorem ringDescs_setRing {r : RingId} {k : Ring} (h : k.descs = (s.host.rings[r]).descs) :
    ringDescs (s.setRing r k) = ringDescs s := by
  refine Vector.ext fun i hi => ?_
  simp only [ringDescs, State.setRing, Vector.getElem_map, Vector.getElem_set]
  split
  · next he => subst he; exact h
  · rfl

theorem ringDescs_vector (fn vec : Nat) : ringDescs (s.vector fn vec) = ringDescs s := by
  unfold State.vector
  dsimp only
  split
  · rfl
  · split <;> rfl

theorem ringDescs_due (r : RingId) : ringDescs (s.due r) = ringDescs s := by
  unfold State.due
  dsimp only
  split
  · exact ringDescs_vector s _ _
  · exact ringDescs_setRing s rfl

theorem ringDescs_putRecord (r : RingId) (bytes : List Byte) (at_ : Nat) (irq : Bool) :
    ringDescs (s.putRecord r bytes at_ irq) = ringDescs s := by
  have hput (o : List HostOut) : ringDescs { s with host := { s.host with
      out := o, rings := s.host.rings.set r { s.host.rings[r] with prod := (s.host.rings[r]).prod + 1 } } } = ringDescs s :=
    ringDescs_setRing s (k := { s.host.rings[r] with prod := (s.host.rings[r]).prod + 1 }) rfl
  unfold State.putRecord
  dsimp only
  split
  · exact (ringDescs_due _ r).trans (hput _)
  · exact hput _

theorem ringDescs_evtLost : ringDescs s.evtLost = ringDescs s := by
  unfold State.evtLost
  split
  · rfl
  · dsimp only
    split
    · rfl
    · exact ringDescs_putRecord _ _ _ _ _

theorem ringDescs_evtRecord (bytes : List Byte) : ringDescs (s.evtRecord bytes) = ringDescs s := by
  unfold State.evtRecord
  dsimp only
  split
  · exact (ringDescs_putRecord _ _ _ _ _).trans (ringDescs_evtLost s)
  · exact ringDescs_evtLost s

theorem ringDescs_record (code inst sub : Nat) (job dev : Option Nat) (a0 a1 : Nat) :
    ringDescs (s.record code inst sub job dev a0 a1) = ringDescs s := by
  unfold State.record
  dsimp only
  split
  · rfl
  · exact ringDescs_evtRecord _ _

theorem host_sendPkt (die vc job dst : Nat) (p : Pkt) (q : Option QId) : (sendPkt s die vc job dst p q).1.host = s.host := by
  unfold sendPkt
  split
  · rfl
  · dsimp only
    split <;> rfl

theorem ringDescs_unreachable (job : Option Nat) (dst : Nat) (p : Pkt) :
    ringDescs (unreachable s job dst p) = ringDescs s := by
  unfold unreachable
  exact ringDescs_record s _ _ _ _ _ _ _

theorem ringDescs_of_host {t : State} (h : t.host = s.host) : ringDescs t = ringDescs s := by
  unfold ringDescs
  rw [h]

theorem ringDescs_sendSync (job dst rsp : Nat) (tf : List Byte) (excl : List Nat) :
    ringDescs (sendSync s job dst rsp tf excl).1 = ringDescs s := by
  unfold sendSync
  dsimp only
  split
  · rfl
  · have hsent := ringDescs_of_host s
      (host_sendPkt s 0 (6 + rsp) job dst (mkPkt s 9 3 rsp job dst 0 tf (syncData excl)) none)
    split
    · next h =>
      rw [h] at hsent
      dsimp only at hsent ⊢
      exact hsent
    · next h =>
      rw [h] at hsent
      dsimp only at hsent ⊢
      exact (ringDescs_unreachable _ _ _ _).trans hsent

theorem ringDescs_failStep (job : Option Nat) : ringDescs (s.failStep job) = ringDescs s := by
  unfold State.failStep
  split
  · rfl
  · dsimp only
    split
    · rfl
    · split
      · rfl
      · split
        · rfl
        · exact ringDescs_sendSync _ _ _ _ _ _

theorem ringDescs_raise (code inst sub : Nat) (job : Option Nat) (a0 a1 : Nat) :
    ringDescs (s.raise code inst sub job a0 a1) = ringDescs s := by
  have hrec := ringDescs_record s code inst sub job none a0 a1
  unfold State.raise State.raiseIf State.raiseDev
  dsimp only
  split
  · exact (ringDescs_failStep _ job).trans hrec
  · exact hrec

theorem ringDescs_hostError (ring win err : Nat) (job : Option Nat) (addr : Nat) :
    ringDescs (hostError s ring win err job addr) = ringDescs s := by
  unfold hostError
  exact ringDescs_raise _ _ _ _ _ _ _

theorem hostError_quiet (ring win err : Nat) (job : Option Nat) (addr : Nat) :
    Quiet s (hostError s ring win err job addr) := by
  unfold hostError
  exact State.raise_quiet (State.wr_quiet (quiet_refl s))

end

/-! ### A ring with one descriptor (R342) -/

section
variable {s : State} {r : RingId} {d : Desc} (hd : (s.host.rings[r]).descs = [d])
include hd

theorem setRun1_only (run : DescRun) : ((setRun1 s r 0 run).host.rings[r]).descs = [{ d with run := some run }] := by
  unfold setRun1 State.setRing
  dsimp only
  rw [hd]
  simp only [Fin.getElem_fin, Vector.getElem_set_self]
  rfl

theorem dueDesc_only (st : BitVec 8) (res info : Nat) : ((dueDesc s r 0 st res info).host.rings[r]).descs =
    [{ d with run := some (.due st (BitVec.ofNat 32 res) (BitVec.ofNat 16 info)) }] := setRun1_only hd _

theorem findDesc_only (hg : ringGoes s r = true) {p : Desc → Bool} (hp : p d = true) : findDesc s r 0 p = some d := by
  have hat : goingDesc s r 0 = some d := by
    unfold goingDesc descAt
    rw [if_pos hg, hd]
    rfl
  unfold findDesc
  rw [hat]
  exact if_pos hp

end

/-- The state in which it is a ring's turn at the owner port. -/
def atTurn (s : State) (r : RingId) : State := { s with host := { s.host with turn := r.val } }

theorem portTurn_own {s : State} {r : RingId} {d : Desc} (hport : usesPort d = true) (hin : inTurn s r = true)
    (act : State → State) : portTurn s r d act = act (atTurn s r) := by
  unfold portTurn
  rw [hport, hin]
  rfl

/-! ### One read of host memory (R331) -/

/-- The read of a descriptor that takes its data in one piece. -/
def wholeRead (s : State) (r : RingId) (a len : Nat) (ordered : Bool) : HostRead :=
  { who := .ring r, fn := s.ringFn r, addr := a + 0, len := len, off := 0, seq := s.tick, ordered := ordered }

/-- The state in which a read of host memory has been answered. -/
def readAnswered (s : State) (q : HostRead) : State :=
  let t := hostSend s.fresh.2 q
  { t with host := { t.host with reads := t.host.reads.erase q } }

section
variable {s : State} {r : RingId} {p : XferPath} {err : Option CxlErr}

theorem xferGo_rests {x : Xfer} {stop : Nat} (hparts : p.dst = none ∨ x.parts = []) (hnext : stop ≤ x.next) (fuel : Nat) :
    xferGo r p stop err fuel s x = (s, x) := by
  cases fuel with
  | zero => rfl
  | succ fuel =>
    unfold xferGo
    split
    · rfl
    · rw [Nat.sub_eq_zero_of_le hnext, Nat.min_zero]
      dsimp only
      split
      · next hdst hx => simp [hdst, hx] at hparts
      · rfl

theorem xferGo_failed {x : Xfer} (h : x.fail.isSome = true) (stop fuel : Nat) : xferGo r p stop err fuel s x = (s, x) := by
  cases fuel with
  | zero => rfl
  | succ fuel =>
    unfold xferGo
    exact if_pos h

theorem ringAsk_asks {a len : Nat} {ordered : Bool} (hon : ownerOn s = true) (hho : s.host.ho = .none)
    (hroom : hostRoom s (s.ringFn r) = true) :
    ringAsk s r a 0 len ordered = (hostSend s.fresh.2 (wholeRead s r a len ordered), .asked s.tick) := by
  unfold ringAsk
  rw [hon, hho, hroom]
  rfl

/-- A transfer asks for its data in one read. -/
theorem xferGo_asks {a len : Nat} (hsrc : p.src = (a, true)) (hon : ownerOn s = true) (hho : s.host.ho = .none)
    (hroom : hostRoom s (s.ringFn r) = true) (hpos : 0 < len)
    (hlen : len ≤ min (128 * 2 ^ (portOf s true).mrrs) (4096 - a % 4096)) (fuel : Nat) :
    xferGo r p len err (fuel + 1) s {} =
      (hostSend s.fresh.2 (wholeRead s r a len p.copy), { next := len, reads := [s.tick] }) := by
  have hsize : min (pieceSize s (a + 0) true false) (len - 0) = len := by
    unfold pieceSize
    rw [if_pos rfl, if_neg Bool.false_ne_true, Nat.add_zero, Nat.sub_zero]
    exact Nat.min_eq_right hlen
  rw [xferGo, hsrc]
  dsimp only
  rw [hsize, if_neg (by decide), if_neg (Nat.ne_of_gt hpos), if_pos rfl, ringAsk_asks hon hho hroom]
  dsimp only
  split
  · next h => cases h
  · rw [Nat.zero_add, List.nil_append]
    exact xferGo_rests (x := { next := len, reads := [s.tick] }) (.inr rfl) (Nat.le_refl _) fuel

/-- The answer comes to the read of this transfer: no other read of the ring is out. -/
theorem hostAnswer_whole {x : Xfer} {q : HostRead} (hwho : ∀ y ∈ s.host.reads, y.who ≠ .ring r) (hq : q.who = .ring r)
    (hx : x.reads = [q.seq]) (reply : HostReply) :
    hostAnswer (hostSend s.fresh.2 q) r x reply =
      match reply, replyError reply with
      | .ok bs, _ => (readAnswered s q,
          { x with reads := [], parts := x.parts ++ [(q.off, (List.range q.len).map (fun i => getD bs i 0#8))] })
      | _, e => (hostError (readAnswered s q) r 0 (e.getD 0) (ringJob r) q.addr,
          { x with reads := [], fail := x.fail.or (some (0x16#8, 0#32)) }) := by
  have hfind : (s.host.reads ++ [q]).find? (fun y => y.who == .ring r && x.reads.contains y.seq) = some q := by
    rw [List.find?_append, List.find?_eq_none.mpr fun y hy => by simp [hwho y hy]]
    simp [hq, hx]
  unfold hostAnswer
  have hreads : (hostSend s.fresh.2 q).host.reads = s.host.reads ++ [q] := rfl
  rw [hreads, hfind]
  dsimp only
  rw [hx, List.erase_cons_head]
  cases reply <;> rfl

end

theorem map_getD_range (bs : List Byte) : (List.range bs.length).map (fun i => getD bs i 0#8) = bs := by
  refine List.ext_getElem (by simp) fun i hi hb => ?_
  simp [getD, List.getElem?_eq_getElem hb]

/-! ### A transfer into the Mehrox's own buffer (R342, R349) -/

/-- What lets a ring read its data at `a` of host memory in one piece. -/
structure AsksWhole (s : State) (r : RingId) (a len : Nat) : Prop where
  on : ownerOn s = true
  ho : s.host.ho = .none
  room : hostRoom s (s.ringFn r) = true
  alone : ∀ q ∈ s.host.reads, q.who ≠ .ring r
  pos : 0 < len
  fits : len ≤ min (128 * 2 ^ (portOf s true).mrrs) (4096 - a % 4096)

section
variable {s : State} {r : RingId} {a len : Nat} (h : AsksWhole s r a len) {p : XferPath} {err : Option CxlErr}
include h

theorem AsksWhole.len_le : len ≤ 4096 :=
  Nat.le_trans h.fits (Nat.le_trans (Nat.min_le_right _ _) (Nat.sub_le _ _))

theorem turnEnd_whole (hsrc : p.src = (a, true)) : turnEnd p {} len = len := by
  unfold turnEnd
  rw [if_pos (.inl (by rw [hsrc]))]
  exact Nat.min_eq_left (by simpa using h.len_le)

theorem xferRun_answers (hsrc : p.src = (a, true)) {bs : List Byte} (hbs : bs.length = len) (fuel : Nat) :
    xferRun r p len (fuel + 1) err [.ok bs] s {} =
      xferGo r p len err (fuel + 1) (readAnswered s (wholeRead s r a len p.copy)) { next := len, parts := [(0, bs)] } := by
  rw [xferRun, xferGo_asks hsrc h.on h.ho h.room h.pos h.fits]
  dsimp only
  rw [hostAnswer_whole h.alone rfl rfl]
  dsimp only
  rw [xferRun]
  have hpart : (List.range (wholeRead s r a len p.copy).len).map (fun i => getD bs i 0#8) = bs := by
    rw [show (wholeRead s r a len p.copy).len = bs.length from hbs.symm]
    exact map_getD_range bs
  rw [hpart]
  rfl

theorem xferRun_refused (hsrc : p.src = (a, true)) (fuel : Nat) :
    xferRun r p len (fuel + 1) err [.ur] s {} =
      (hostError (readAnswered s (wholeRead s r a len p.copy)) r 0 1 (ringJob r) (a + 0),
        { next := len, fail := some (0x16#8, 0#32) }) := by
  rw [xferRun, xferGo_asks hsrc h.on h.ho h.room h.pos h.fits]
  dsimp only
  rw [hostAnswer_whole h.alone rfl rfl]
  dsimp only
  rw [xferRun, xferGo_failed rfl]
  rfl

end

end Sys2Proof.Machine
end

section
/-!
SETTLEMENT. The descriptors NOP, LOAD_PROG, COPY and SIGNAL (R31, R52, R344, R346, R349).
-/

namespace Sys2Proof.Machine

/-! ### LOAD_PROG (R31, R346) -/

/-- The first words of a program stand in a core's instruction memory. -/
def HasWords (c : CoreId) (start : Nat) (bs : List Byte) (n : Nat) (s : State) : Prop :=
  ∀ i, i < n → (s.core c).word (start + i) = BitVec.ofNat 128 (leAt bs (16 * i) 16)

section
variable (s : State) (c : CoreId) (start : Nat) (bs : List Byte)

theorem loadCore_succ (n : Nat) : loadCore c start bs (n + 1) s =
    imemStore (loadCore c start bs n s) c (start + n) (BitVec.ofNat 128 (leAt bs (16 * n) 16)) := by
  unfold loadCore
  rw [List.range_succ, List.foldl_append]
  rfl

theorem loadCore_frame (n : Nat) : loadCore c start bs n s = { s with cores := (loadCore c start bs n s).cores } := by
  induction n with
  | zero => rfl
  | succ n ih => rw [loadCore_succ, ih]; rfl

theorem loadCore_words (n : Nat) : HasWords c start bs n (loadCore c start bs n s) := by
  induction n with
  | zero => exact fun i hi => absurd hi (Nat.not_lt_zero i)
  | succ n ih =>
    intro i hi
    obtain ⟨hsame, hother, -⟩ := imemStore_word (loadCore c start bs n s) c (start + n) (BitVec.ofNat 128 (leAt bs (16 * n) 16))
    rw [loadCore_succ]
    obtain rfl | hlt := Nat.eq_or_lt_of_le (Nat.le_of_lt_succ hi)
    · exact hsame
    · rw [hother _ (by omega)]
      exact ih i hlt

theorem loadCore_other {d : CoreId} (h : d ≠ c) (n : Nat) : (loadCore c start bs n s).core d = s.core d := by
  induction n with
  | zero => rfl
  | succ n ih =>
    rw [loadCore_succ]
    exact (State.core_setCore_other _ c d _ h).trans ih

end

/-- What LOAD_PROG does at one of the cores it names. -/
def loadNamed (start : Nat) (bs : List Byte) (n : Nat) (s : State) (c : CoreId) : State :=
  if s.domainOn c.val then loadCore c start bs n s else s

section
variable {s : State} {c : CoreId} {start n : Nat} {bs : List Byte}

theorem loadNamed_frame (s : State) (c : CoreId) :
    loadNamed start bs n s c = { s with cores := (loadNamed start bs n s c).cores } := by
  unfold loadNamed
  split
  · exact loadCore_frame s c start bs n
  · rfl

theorem loadNamed_keeps {e : CoreId} (h : HasWords e start bs n s) : HasWords e start bs n (loadNamed start bs n s c) := by
  unfold loadNamed
  split
  · obtain rfl | hne := eq_or_ne e c
    · exact loadCore_words s e start bs n
    · intro i hi
      rw [loadCore_other s c start bs hne]
      exact h i hi
  · exact h

theorem loadAll_keeps {e : CoreId} (cs : List CoreId) (h : HasWords e start bs n s) :
    HasWords e start bs n (cs.foldl (loadNamed start bs n) s) := by
  induction cs generalizing s with
  | nil => exact h
  | cons c cs ih => exact ih (loadNamed_keeps h)

theorem loadAll_frame (cs : List CoreId) (s : State) :
    cs.foldl (loadNamed start bs n) s = { s with cores := (cs.foldl (loadNamed start bs n) s).cores } := by
  induction cs generalizing s with
  | nil => rfl
  | cons c cs ih =>
    rw [List.foldl_cons, ih (loadNamed start bs n s c), loadNamed_frame s c]

theorem loadAll_words {cs : List CoreId} (hon : ∀ c ∈ cs, s.domainOn c.val = true) :
    ∀ c ∈ cs, HasWords c start bs n (cs.foldl (loadNamed start bs n) s) := by
  induction cs generalizing s with
  | nil => exact fun c hc => absurd hc List.not_mem_nil
  | cons e cs ih =>
    intro c hc
    have hstep : ∀ x ∈ cs, (loadNamed start bs n s e).domainOn x.val = true := by
      intro x hx
      rw [loadNamed_frame s e]
      exact hon x (List.mem_cons_of_mem e hx)
    obtain rfl | htail := List.mem_cons.mp hc
    · refine loadAll_keeps cs ?_
      unfold loadNamed
      rw [if_pos (hon c List.mem_cons_self)]
      exact loadCore_words s c start bs n
    · exact ih hstep c htail

end

section
variable {s : State} {r : RingId} {d : Desc} {a len : Nat}

theorem xferOf_begun (h : d.run = some .begun) : xferOf d = some {} := by
  unfold xferOf
  rw [h]

theorem xferBytes_whole (bs : List Byte) : xferBytes { next := bs.length, parts := [(0, bs)] } bs.length = bs :=
  memory_read_write_self [] 0 bs rfl

/-- A path into the Mehrox's own buffer. -/
def bufPath (a : Nat) : XferPath := { src := (a, true), dst := none, copy := false }

/-- How a transfer into the buffer stands after it went on. -/
def bufGone (r : RingId) (len : Nat) (y : State × Xfer) : State × Option (List Byte) :=
  if y.2.fail.isNone && xferOver y.2 len true then (setRun1 y.1 r 0 (.xfer y.2), some (xferBytes y.2 len))
  else (xferSettle y.1 r 0 none y.2, none)

theorem fetchBuf_begun (h : AsksWhole s r a len) (hrun : d.run = some .begun) (hs : Answers) :
    fetchBuf s r 0 d (a, true) len hs = bufGone r len (xferRun r (bufPath a) len (len / 64 + 2) hs.err hs.hs s {}) := by
  have hgo : fetchBuf s r 0 d (a, true) len hs =
      bufGone r len (xferRun r (bufPath a) (turnEnd (bufPath a) {} len) (len / 64 + 2) hs.err hs.hs s {}) := by
    unfold fetchBuf
    rw [xferOf_begun hrun]
    exact if_neg (by simp)
  rw [hgo, turnEnd_whole h rfl]

theorem fetchBuf_answered (h : AsksWhole s r a len) (hrun : d.run = some .begun) {bs : List Byte} (hbs : bs.length = len)
    (err : Option CxlErr) : fetchBuf s r 0 d (a, true) len { hs := [.ok bs], err := err } =
      (setRun1 (readAnswered s (wholeRead s r a len false)) r 0 (.xfer { next := len, parts := [(0, bs)] }), some bs) := by
  rw [fetchBuf_begun h hrun, xferRun_answers h rfl hbs, xferGo_rests (.inl rfl) (Nat.le_refl len)]
  subst hbs
  have hover : xferOver { next := bs.length, parts := [(0, bs)] } bs.length true = true := by simp [xferOver]
  unfold bufGone
  dsimp only
  rw [hover, xferBytes_whole]
  rfl

theorem fetchBuf_refused (h : AsksWhole s r a len) (hrun : d.run = some .begun) (err : Option CxlErr) :
    fetchBuf s r 0 d (a, true) len { hs := [.ur], err := err } =
      (dueDesc (hostError (readAnswered s (wholeRead s r a len false)) r 0 1 (ringJob r) (a + 0)) r 0 0x16#8, none) := by
  rw [fetchBuf_begun h hrun, xferRun_refused h rfl]
  rfl

/-- A LOAD_PROG that has begun, whose turn it is. -/
structure LoadBegun (s : State) (r : RingId) (d : Desc) : Prop where
  only : (s.host.rings[r]).descs = [d]
  run : d.run = some .begun
  op : dOp d = 1
  goes : ringGoes s r = true
  host : (dN d 24 1).testBit 0 = true
  turn : inTurn s r = true
  asks : AsksWhole s r (dN d 16 8) (16 * dN d 32 4)

/-- LOAD_PROG with its program, or without one. -/
def loadWith (r : RingId) (d : Desc) : State × Option (List Byte) → State
  | (s, none) => s
  | (s, some bs) =>
    let cs := dCores d 8
    if cs.any (fun c => (s.core c).run != .halted) then dueDesc s r 0 0x14#8
    else dueDesc (cs.foldl (loadNamed (dN d 28 2) bs (dN d 32 4)) s) r 0 0#8

theorem AsksWhole.atTurn (h : AsksWhole s r a len) : AsksWhole (atTurn s r) r a len :=
  ⟨h.on, h.ho, h.room, h.alone, h.pos, h.fits⟩

theorem LoadBegun.loadProg (h : LoadBegun s r d) (hs : Answers) : loadProg s r 0 hs =
    loadWith r d (fetchBuf (Sys2Proof.Machine.atTurn s r) r 0 d (dN d 16 8, true) (16 * dN d 32 4) hs) := by
  have hport : usesPort d = true := by
    unfold usesPort
    rw [h.run]
    dsimp only
    rw [xferOf_begun h.run, h.op]
    exact h.host
  unfold Sys2Proof.Machine.loadProg
  rw [findDesc_only h.only h.goes (by rw [h.op, xferOf_begun h.run]; rfl)]
  dsimp only
  rw [portTurn_own hport h.turn, h.host]
  rfl

theorem LoadBegun.loads (h : LoadBegun s r d) (hcs : ∀ c ∈ dCores d 8, (s.core c).run = .halted ∧ s.domainOn c.val = true)
    {bs : List Byte} (hbs : bs.length = 16 * dN d 32 4) (err : Option CxlErr) :
    ((Sys2Proof.Machine.loadProg s r 0 { hs := [.ok bs], err := err }).host.rings[r]).descs =
      [{ d with run := some (.due 0#8 0#32 0#16) }] ∧
    ∀ c ∈ dCores d 8, HasWords c (dN d 28 2) bs (dN d 32 4) (Sys2Proof.Machine.loadProg s r 0 { hs := [.ok bs], err := err }) := by
  have hrow := setRun1_only (s := readAnswered (Sys2Proof.Machine.atTurn s r)
    (wholeRead (Sys2Proof.Machine.atTurn s r) r (dN d 16 8) (16 * dN d 32 4) false)) h.only
      (.xfer { next := 16 * dN d 32 4, parts := [(0, bs)] })
  rw [h.loadProg, fetchBuf_answered h.asks.atTurn h.run hbs err]
  generalize hu : setRun1 _ r 0 _ = u at hrow ⊢
  have hcores : u.cores = s.cores := by rw [← hu]; rfl
  have hon : ∀ c ∈ dCores d 8, u.domainOn c.val = true := fun c hc => by rw [← hu]; exact (hcs c hc).2
  have hhalted : ¬ (dCores d 8).any (fun c => (u.core c).run != .halted) = true := by
    rw [List.any_eq_true]
    rintro ⟨c, hc, hrun⟩
    have hsame : u.core c = s.core c := by unfold State.core; rw [hcores]
    rw [hsame, (hcs c hc).1] at hrun
    exact absurd hrun (by decide)
  unfold loadWith
  dsimp only
  rw [if_neg hhalted]
  refine ⟨?_, fun c hc => loadAll_words hon c hc⟩
  refine dueDesc_only (d := { d with run := some (.xfer { next := 16 * dN d 32 4, parts := [(0, bs)] }) }) ?_ 0#8 0 0
  rw [loadAll_frame]
  exact hrow

theorem LoadBegun.refused (h : LoadBegun s r d) (err : Option CxlErr) :
    ((Sys2Proof.Machine.loadProg s r 0 { hs := [.ur], err := err }).host.rings[r]).descs =
      [{ d with run := some (.due 0x16#8 0#32 0#16) }] ∧
    (Sys2Proof.Machine.loadProg s r 0 { hs := [.ur], err := err }).cores = s.cores := by
  rw [h.loadProg, fetchBuf_refused h.asks.atTurn h.run err]
  generalize hv : readAnswered (Sys2Proof.Machine.atTurn s r) _ = v
  have hrow : (v.host.rings[r]).descs = [d] := by rw [← hv]; exact h.only
  have hcores : v.cores = s.cores := by rw [← hv]; rfl
  unfold loadWith
  dsimp only
  refine ⟨dueDesc_only ((descs_of_ringDescs (ringDescs_hostError v r 0 1 _ _) r).trans hrow) _ _ _, ?_⟩
  exact (hostError_quiet v r 0 1 _ _).cores.trans hcores

end

/-! ### COPY (R346) -/

theorem host_foldl {α : Type} {f : State → α → State} (hf : ∀ s x, (f s x).host = s.host) (l : List α) (s : State) :
    (l.foldl f s).host = s.host := by
  induction l generalizing s with
  | nil => rfl
  | cons x l ih => exact (ih (f s x)).trans (hf s x)

theorem gddrCount_host (s : State) (a len reg : Nat) : (gddrCount s a len reg).host = s.host := by
  refine host_foldl (fun s l => ?_) _ s
  rfl

theorem dirtyGddr_host (s : State) (a len : Nat) : (dirtyGddr s a len).host = s.host := by
  unfold dirtyGddr
  refine host_foldl (fun s l => ?_) _ _
  dsimp only
  split <;> rfl

/-- What a write to module memory does, its failed bursts known. -/
def gddrWritten (s : State) (job : Option Nat) (a : Nat) (bs : List Byte) : State × Option Nat :=
  let crc := (gddrCrc (checksSettle s a bs.length) job a bs.length).2
  let x := freshIf crc.isEmpty (writeStage s job a bs)
  (dirtyGddr (withGddr x.2 (writtenGddr (writeStage s job a bs).gddr a bs (keptLines s job a bs) crc x.1)) a bs.length,
    ((crc ++ keptLines s job a bs).head?).map (64 * ·))

section
variable {s : State} {a n : Nat} (h : GddrFree s a n)
include h

/-- A write to module memory with nothing wrong, as a whole. -/
theorem gddrDo_writes (job : Option Nat) {bs : List Byte} (hn : bs.length = n) : ∃ t,
    gddrDo s job a n (some bs) = (t, .ok []) ∧ t.gddr = s.gddr.write a bs ∧ t.host = s.host ∧ t.cores = s.cores := by
  have hstage : writeStage s job a bs = gddrCount { s with gddrErr := s.gddrErr.filter (fun _ => true) } a n 0x60 := by
    unfold writeStage
    dsimp only
    rw [hn, checksSettle_free h, gddrCrc_free h, h.2.2.1]
    rfl
  have hwrite : gddrWrite s job a bs = (dirtyGddr (withGddr (writeStage s job a bs)
      ((writeStage s job a bs).gddr.write a bs)) a n, none) := by
    have heq : gddrWrite s job a bs = gddrWritten s job a bs := rfl
    rw [heq]
    unfold gddrWritten
    rw [hn, checksSettle_free h, gddrCrc_free h, keptLines_free h job hn]
    rfl
  have hgddr : (writeStage s job a bs).gddr = s.gddr := by
    rw [hstage]
    exact (gddrCount_quiet _ _ _ _).gddr
  have hhost : (writeStage s job a bs).host = s.host := by
    rw [hstage]
    exact gddrCount_host _ _ _ _
  have hcores : (writeStage s job a bs).cores = s.cores := by
    rw [hstage]
    exact (gddrCount_quiet _ _ _ _).cores
  refine ⟨dirtyGddr (withGddr (writeStage s job a bs) ((writeStage s job a bs).gddr.write a bs)) a n, ?_, ?_, ?_, ?_⟩
  · unfold gddrDo gddrNow
    rw [h.1, if_neg (Nat.not_lt.mpr h.2.1), gddrServe_ready h]
    dsimp only
    rw [hwrite]
  · rw [(dirtyGddr_quiet _ a n).gddr, ← hgddr]
    rfl
  · exact (dirtyGddr_host _ a n).trans hhost
  · exact (dirtyGddr_quiet _ a n).cores.trans hcores

end

/-- A COPY from the host that has begun, whose turn it is, to a line of module memory. -/
structure CopyBegun (s : State) (r : RingId) (d : Desc) (a : Nat) : Prop where
  only : (s.host.rings[r]).descs = [d]
  run : d.run = some .begun
  op : dOp d = 3
  goes : ringGoes s r = true
  len : dN d 24 8 = 64
  src : (dN d 32 1).testBit 0 = true
  dst : (dN d 32 1).testBit 1 = false
  turn : inTurn s r = true
  asks : AsksWhole s r (dN d 8 8) 64
  place : placeOf s (dN d 16 8) 64 = .gddr a
  pf : ringPf s r = true
  free : GddrFree s a 64

section
variable (s : State) (hh : HostPorts) (k : Nat)

theorem placeOf_host (a len : Nat) : placeOf { s with host := hh, tick := k } a len = placeOf s a len := rfl

theorem gddrFree_host (a len : Nat) : GddrFree { s with host := hh, tick := k } a len = GddrFree s a len := rfl

theorem ringPf_host (r : RingId) : ringPf { s with host := hh, tick := k } r = ringPf s r := rfl

end

section
variable {s : State} {r : RingId} {d : Desc} {a : Nat}

/-- The path of a COPY from the host. -/
def hostPath (d : Desc) : XferPath := { src := (dN d 8 8, true), dst := some (dN d 16 8, false), copy := true }

/-- How a COPY stands after it went on. -/
def copyGone (r : RingId) (d : Desc) (y : State × Xfer) : State :=
  if y.2.fail.isNone && xferOver y.2 (dN d 24 8) false then dueDesc y.1 r 0 0#8 (dN d 24 8 / 64)
  else xferSettle y.1 r 0 (some (dN d 16 8, false)) y.2

/-- A piece that has come is written in one access, which ends the transfer. -/
theorem xferGo_writes {p : XferPath} {stop : Nat} {err : Option CxlErr} {dst : Nat × Bool} {bs : List Byte} {t : State}
    {got : List Byte} (hdst : p.dst = some dst) (hsize : pieceSize s (dst.1 + 0) dst.2 true = bs.length)
    (hwrite : ringWrite s r (dst.1 + 0) dst.2 bs err = (t, .got got)) (fuel : Nat) :
    xferGo r p stop err (fuel + 1) s { next := stop, parts := [(0, bs)] } = (t, { next := stop }) := by
  unfold xferGo
  rw [hdst]
  dsimp only
  rw [hsize, List.take_length, if_pos (Nat.le_refl _), hwrite, if_neg (by decide)]
  exact xferGo_rests (.inr rfl) (Nat.le_refl stop) fuel

theorem CopyBegun.copyRun (h : CopyBegun s r d a) (hs : Answers) : copyRun s r 0 hs =
    copyGone r d (xferRun r (hostPath d) (turnEnd (hostPath d) {} (dN d 24 8)) (2 * (dN d 24 8 / 64) + 4) hs.err hs.hs
      (atTurn s r) {}) := by
  have hport : usesPort d = true := by
    unfold usesPort
    rw [h.run]
    dsimp only
    rw [xferOf_begun h.run, h.op]
    simp only [Option.isSome_some, Bool.true_and, bne_iff_ne, ne_eq]
    intro hzero
    have hbit := h.src
    rw [Nat.testBit_zero] at hbit
    simp only [decide_eq_true_eq] at hbit
    omega
  have hspan : spanOk (atTurn s r) (dN d 16 8) (dN d 24 8) = true := by
    have hplace : placeOf (atTurn s r) (dN d 16 8) (dN d 24 8) = .gddr a := by
      rw [h.len]
      exact h.place
    unfold spanOk
    rw [hplace]
    rfl
  unfold Sys2Proof.Machine.copyRun
  rw [findDesc_only h.only h.goes (by rw [h.op, xferOf_begun h.run]; rfl)]
  dsimp only
  rw [portTurn_own hport h.turn, h.src, h.dst, xferOf_begun h.run, hspan]
  rfl

/-- The write of the line that a COPY has read. -/
theorem CopyBegun.writes (h : CopyBegun s r d a) {bs : List Byte} (hbs : bs.length = 64) (hh : HostPorts) (k : Nat)
    (err : Option CxlErr) : ∃ t, ringWrite { s with host := hh, tick := k } r (dN d 16 8 + 0) false bs err = (t, .got []) ∧
      t.gddr = s.gddr.write a bs ∧ t.host = hh ∧ t.cores = s.cores := by
  have hfree : GddrFree { s with host := hh, tick := k } a 64 := by
    rw [gddrFree_host]
    exact h.free
  obtain ⟨t, hdo, hgddr, hhost, hcores⟩ := gddrDo_writes hfree (ringJob r) hbs
  have hplace : placeOf { s with host := hh, tick := k } (dN d 16 8 + 0) bs.length = .gddr a := by
    rw [placeOf_host, hbs, Nat.add_zero]
    exact h.place
  have hpf : ringPf { s with host := hh, tick := k } r = true := by
    rw [ringPf_host]
    exact h.pf
  refine ⟨t, ?_, hgddr, hhost, hcores⟩
  unfold ringWrite ringDevice
  rw [if_pos (by rfl), hplace]
  dsimp only
  rw [hpf, if_pos rfl, hbs, hdo]
  rfl

theorem CopyBegun.copies (h : CopyBegun s r d a) {bs : List Byte} (hbs : bs.length = 64)
    (err : Option CxlErr) : ∃ t, Sys2Proof.Machine.copyRun s r 0 { hs := [.ok bs], err := err } = t ∧
      (t.host.rings[r]).descs = [{ d with run := some (.due 0#8 1#32 0#16) }] ∧
      t.gddr = s.gddr.write a bs ∧ t.cores = s.cores := by
  have hasks : AsksWhole (atTurn s r) r (dN d 8 8) 64 := h.asks.atTurn
  have hrest : ∃ hh k, readAnswered (atTurn s r) (wholeRead (atTurn s r) r (dN d 8 8) 64 true) = { s with host := hh, tick := k } ∧
      hh.rings = s.host.rings := ⟨_, _, rfl, rfl⟩
  obtain ⟨hh, k, hread, hrings⟩ := hrest
  obtain ⟨t, hwrite, hgddr, hhost, hcores⟩ := h.writes hbs hh k err
  have hsize : pieceSize { s with host := hh, tick := k } (dN d 16 8 + 0) false true = bs.length := by
    have hplace : placeOf { s with host := hh, tick := k } (dN d 16 8 + 0) 64 = .gddr a := by
      rw [placeOf_host, Nat.add_zero]
      exact h.place
    unfold pieceSize
    rw [if_neg (by decide), hplace, hbs]
  have hgo := xferGo_writes (r := r) (p := hostPath d) (stop := 64) (err := err) rfl hsize hwrite 5
  refine ⟨dueDesc t r 0 0#8 1, ?_, dueDesc_only (by rw [hhost, hrings]; exact h.only) _ _ _, hgddr, hcores⟩
  rw [h.copyRun, h.len, turnEnd_whole hasks rfl, xferRun_answers hasks rfl hbs]
  change copyGone r d (xferGo r (hostPath d) 64 err 6
    (readAnswered (atTurn s r) (wholeRead (atTurn s r) r (dN d 8 8) 64 true)) { next := 64, parts := [(0, bs)] }) = _
  rw [hread, hgo]
  unfold copyGone
  rw [h.len]
  rfl

end

/-! ### SIGNAL (R52, R54) -/

/-- A signal that does not saturate, to a core that waits for nothing. -/
theorem semAdd_free {s : State} {c : CoreId} (h : RunsFree s c) (i : Fin 64) {v : Nat}
    (hfit : ((s.loc c).sems[i]).toNat + v ≤ 0xFFFF) : semAdd s c i.val v =
      s.setLoc c { s.loc c with sems := (s.loc c).sems.set i (BitVec.ofNat 16 (((s.loc c).sems[i]).toNat + v)) } := by
  unfold semAdd
  dsimp only
  rw [semGet_eq, semSet_eq, if_neg (Nat.not_lt.mpr hfit), Nat.min_eq_left hfit]
  exact wake_running h.1 h.2

theorem hostSignal_applies {s : State} {r : RingId} {d : Desc} {j : Nat} {c : CoreId}
    (hd : (s.host.rings[r]).descs = [d]) (hrun : d.run = some .begun) (hop : dOp d = 6) (hg : ringGoes s r = true)
    (hj : ringJob r = some j) (hpath : sigPath s (some j) (dN d 8 1) = .apply c) :
    hostSignal s r 0 = dueDesc (semAdd s c (dN d 9 1) (dN d 10 2)) r 0 0#8 := by
  unfold hostSignal
  rw [findDesc_only hd hg (by unfold begunOp; rw [hop, hrun]; rfl), hj]
  dsimp only
  rw [hpath]

/-- Settles O45. NOP is due at once; LOAD_PROG and COPY read the host once (`AsksWhole`), and what has come goes to the cores
named, in turn, or to the line of module memory; SIGNAL goes to a core that waits for nothing. -/
theorem descriptorResult : Obligations.DescriptorResult := by
  unfold Obligations.DescriptorResult
  intro r us s d bs
  dsimp only
  refine ⟨?_, ?_, ?_, ?_⟩
  · rintro ⟨hd, hrun, hop, hg⟩
    refine congrArg Host.Outcome.next ?_
    rw [findDesc_only hd hg (by unfold begunOp; rw [hop, hrun]; rfl)]
  · rintro ⟨hd, hrun, hop, hg⟩ hhost ⟨hon, hho, hroom, hin, halone, hpos, hfits⟩ hcs
    have hload : LoadBegun (strike s us) r d := ⟨hd, hrun, hop, hg, hhost, hin, ⟨hon, hho, hroom, halone, hpos, hfits⟩⟩
    refine ⟨fun hbs => ?_, ?_⟩
    · exact ⟨_, rfl, hload.loads hcs hbs none⟩
    · exact ⟨_, rfl, hload.refused none⟩
  · rintro a ⟨hd, hrun, hop, hg⟩ hlen hsrc hdst ⟨hon, hho, hroom, hin, halone, hpos, hfits⟩ hplace hpf hfree hwf hbs
    have hcopy : CopyBegun (strike s us) r d a :=
      ⟨hd, hrun, hop, hg, hlen, hsrc, hdst, hin, ⟨hon, hho, hroom, halone, hpos, hfits⟩, hplace, hpf, hfree⟩
    obtain ⟨t, ht, hdue, hgddr, hcores⟩ := hcopy.copies hbs none
    refine ⟨t, congrArg Host.Outcome.next ht, hdue, fun i hi => ?_, fun x hx => ?_, hcores⟩
    · rw [hgddr]
      exact memory_get_write_inside bs _ a i hwf hi
    · rw [hgddr]
      exact memory_get_write_outside bs _ a x hwf (by omega)
  · rintro j c i ⟨hd, hrun, hop, hg⟩ hj hpath hi hfree hfit
    refine ⟨_, rfl, ?_⟩
    rw [hostSignal_applies hd hrun hop hg hj hpath, hi, semAdd_free hfree i hfit]
    refine ⟨dueDesc_only hd _ _ _, ?_, rfl, rfl⟩
    change ((((s.setLoc c _).loc c).sems[i]).toNat) = _
    rw [State.loc_setLoc_self]
    simp only [Fin.getElem_fin, Vector.getElem_set_self, BitVec.toNat_ofNat]
    exact Nat.mod_eq_of_lt (Nat.lt_succ_of_le hfit)

end Sys2Proof.Machine
end

section
/-!
SUPPORT. The starts and completions of a core's vector engine and fabric queue (R40, R47, R48, R95, R131, R212).
-/

namespace Sys2Proof.Machine

/-! ### A vector operation starts (R40, R48) -/

/-- The state in which the operation at the head of the vector queue takes effect. -/
def vePopped (r : State) (c : CoreId) (rest : List Entry) : State := popHead r c .ve rest

/-- The state in which a vector operation that took effect in `x` has started. -/
def veStarted (x : State) (c : CoreId) (pc : Nat) (sd : Option (Nat × W64)) : State :=
  x.setUnit c { x.unit c with ve := (x.unit c).ve ++ [{ pc := pc, sd := sd }] }

theorem exec_unitInstrStart (s : State) (c : CoreId) (u : UnitSel) (us : List Upset) :
    exec (.unitInstrStart c u us) s = .next (wake (unitStart (strike s us) c u) c) := rfl

theorem vget_vePopped (r : State) (c : CoreId) (rest : List Entry) (i : Nat) : vget (vePopped r c rest) c i = vget r c i := rfl

section
variable {r x : State} {c : CoreId} {e : Entry} {rest : List Entry} {o : Op} {sd : Option (Nat × W64)}

theorem unitStart_ve (hstart : canStart r c = true) (hq : qOf r c .ve = e :: rest) (hop : decodeOp e.pc e.word = some o)
    (hdo : veDo (vePopped r c rest) c e o = (x, .done sd)) (hx : RunsFree x c) :
    wake (unitStart r c .ve) c = veStarted x c e.pc sd := by
  have hve : unitStart r c .ve = veStarted x c e.pc sd := veStart_done hstart hq hop hdo
  rw [hve]
  exact wake_running hx.1 hx.2

theorem qOf_veStarted : qOf (veStarted x c e.pc sd) c .ve = qOf x c .ve := by
  unfold qOf veStarted
  rw [State.unit_setUnit_self]

theorem veStarted_ve : ((veStarted x c e.pc sd).unit c).ve = (x.unit c).ve ++ [{ pc := e.pc, sd := sd }] := by
  unfold veStarted
  rw [State.unit_setUnit_self]

theorem qOf_vePopped (r : State) (c : CoreId) (rest : List Entry) : qOf (vePopped r c rest) c .ve = rest :=
  qOf_popHead_self r c .ve rest

theorem vePopped_ve (r : State) (c : CoreId) (rest : List Entry) : ((vePopped r c rest).unit c).ve = (r.unit c).ve := by
  rw [vePopped, popHead_unit]

/-- A vector operation whose effect is a write of VD starts. -/
theorem ve_starts_vd {us : List Upset} {s : State} {v : VReg} (hr : strike s us = r) (hrun : RunsFree r c)
    (hstart : canStart r c = true) (hq : qOf r c .ve = e :: rest) (hop : decodeOp e.pc e.word = some o)
    (hdo : veDo (vePopped r c rest) c e o = (vset (vePopped r c rest) c (vVd e.word) v, .done none)) :
    ∃ t, exec (.unitInstrStart c .ve us) s = .next t ∧ qOf t c .ve = rest ∧
      (t.unit c).ve = (r.unit c).ve ++ [{ pc := e.pc, sd := none }] ∧ vget t c (vVd e.word) = v ∧
      (∀ i, i ≠ vVd e.word → vget t c i = vget r c i) ∧ (t.core c).pc = (r.core c).pc ∧
      (t.core c).sreg = (r.core c).sreg ∧ t.locals = r.locals := by
  have hfree : RunsFree (vePopped r c rest) c := hrun
  have hunit := vset_unit (vePopped r c rest) c c (vVd e.word) v
  have hcore := vset_core (vePopped r c rest) c (vVd e.word) v
  refine ⟨veStarted (vset (vePopped r c rest) c (vVd e.word) v) c e.pc none, ?_, ?_, ?_, ?_, fun i hi => ?_, ?_, ?_, ?_⟩
  · rw [exec_unitInstrStart, hr, unitStart_ve hstart hq hop hdo (vset_runsFree _ _ hfree)]
  · rw [qOf_veStarted, qOf, hunit]
    exact qOf_vePopped r c rest
  · rw [veStarted_ve, hunit, vePopped_ve]
  · exact vget_vset_self _ c v (fld_lt _ _ 6)
  · exact vget_vset_other _ c v hi
  · change ((vset (vePopped r c rest) c (vVd e.word) v).core c).pc = _
    rw [hcore]
    rfl
  · change ((vset (vePopped r c rest) c (vVd e.word) v).core c).sreg = _
    rw [hcore]
    rfl
  · unfold veStarted
    rw [vset_frame]
    rfl

/-- A VMOVS starts with the value that SD waits for (R131). -/
theorem ve_starts_vmovs {us : List Upset} {s : State} (hr : strike s us = r) (hrun : RunsFree r c)
    (hstart : canStart r c = true) (hq : qOf r c .ve = e :: rest) (hop : decodeOp e.pc e.word = some .vmovs)
    (hsd : vSd e.word ≠ 0) :
    let x := lane (fmtBits (vFmt e.word)) (vget r c (vVa e.word)) (fld e.word 64 11)
    ∃ t, exec (.unitInstrStart c .ve us) s = .next t ∧ qOf t c .ve = rest ∧ t.cores = r.cores ∧ t.locals = r.locals ∧
      (t.unit c).ve = (r.unit c).ve ++ [{ pc := e.pc, sd := some (vSd e.word, BitVec.ofNat 64
        (if vFmt e.word = 6 ∨ vFmt e.word = 7 then ofInt 64 (sext (fmtBits (vFmt e.word)) x) else x)) }] := by
  intro x
  have hdo : veDo (vePopped r c rest) c e .vmovs = (vePopped r c rest, .done (some (vSd e.word, BitVec.ofNat 64
      (if vFmt e.word = 6 ∨ vFmt e.word = 7 then ofInt 64 (sext (fmtBits (vFmt e.word)) x) else x)))) := by
    unfold veDo veMovs
    dsimp only
    rw [if_neg hsd]
    rfl
  refine ⟨veStarted (vePopped r c rest) c e.pc (some (vSd e.word, BitVec.ofNat 64
    (if vFmt e.word = 6 ∨ vFmt e.word = 7 then ofInt 64 (sext (fmtBits (vFmt e.word)) x) else x))), ?_, ?_, rfl, rfl, ?_⟩
  · rw [exec_unitInstrStart, hr, unitStart_ve hstart hq hop hdo hrun]
  · rw [qOf_veStarted, qOf_vePopped]
  · rw [veStarted_ve, vePopped_ve]

end

/-! ### The fabric queue (R42, R43, R48) -/

section
variable {s r : State} {us : List Upset} {c : CoreId} {e : Entry} {rest : List Entry}

theorem unit_fabSet (r : State) (c : CoreId) (rest : List Entry) (f : FabRun) :
    let p := popHead r c .fab rest
    let t := p.setUnit c { p.unit c with fab := some f }
    qOf t c .fab = rest ∧ (t.unit c).fab = some f := by
  intro p t
  have hunit : t.unit c = { p.unit c with fab := some f } := State.unit_setUnit_self p c _
  refine ⟨?_, by rw [hunit]⟩
  unfold qOf
  rw [hunit]
  exact qOf_popHead_self r c .fab rest

theorem unitStart_fab (hr : strike s us = r) (hhead : fabHead r c = some (e, rest)) {t : State}
    (hclass : (fClass e.word = 6 ∧ dispStart r c e rest = t) ∨ (fClass e.word = 4 ∧ qopStart r c e rest = t))
    (ht : RunsFree t c) : exec (.unitInstrStart c .fab us) s = .next t := by
  have hfab : unitStart r c .fab = t := by
    unfold unitStart fabStart
    rw [hhead]
    dsimp only
    obtain ⟨hc, h⟩ | ⟨hc, h⟩ := hclass
    · rw [hc]; exact h
    · rw [hc]; exact h
  rw [exec_unitInstrStart, hr, hfab, wake_running ht.1 ht.2]

/-- A DISP starts: it waits at the dispatch unit of its die. -/
theorem fab_starts_disp (hr : strike s us = r) (hrun : RunsFree r c) (hhead : fabHead r c = some (e, rest))
    (hclass : fClass e.word = 6) : ∃ t, exec (.unitInstrStart c .fab us) s = .next t ∧ qOf t c .fab = rest ∧
      (t.unit c).fab = some (.disp e) ∧ t.cores = r.cores ∧ t.locals = r.locals ∧
      (t.dus[duOf c]).entries = (r.dus[duOf c]).entries ∧
      (t.dus[duOf c]).waiting = (r.dus[duOf c]).waiting ++ [{ core := c, pc := e.pc, word := e.word, s := e.s }] := by
  obtain ⟨hq, hfab⟩ := unit_fabSet r c rest (.disp e)
  refine ⟨dispStart r c e rest, unitStart_fab hr hhead (.inl ⟨hclass, rfl⟩) hrun, hq, hfab, rfl, rfl, ?_, ?_⟩
  · simp only [dispStart, State.setDu, Fin.getElem_fin, Vector.getElem_set_self]
    rfl
  · simp only [dispStart, State.setDu, Fin.getElem_fin, Vector.getElem_set_self]
    rfl

theorem holdingGuard_qop (hclass : fClass e.word = 4) (hop : 2 ≤ fOp e.word) : holdingGuard r c e = none := by
  have hnone : (match fOp e.word with
      | 0 => if guardFilled r c (qopSlot e.word) then none else some (qopSlot e.word)
      | 1 => if guardFilled r c (qopSlot e.word) then some (qopSlot e.word) else none
      | _ => none) = none := by
    split
    · omega
    · omega
    · rfl
  unfold holdingGuard
  dsimp only
  rw [hclass]
  exact (congrArg (fun x => if qopSen e.word = true then x else none) hnone).trans (ite_self none)

/-- A QOP that moves no cells starts on a queue of the core's own job. -/
theorem fab_starts_qop (hr : strike s us = r) (hrun : RunsFree r c) (hhead : fabHead r c = some (e, rest))
    (hclass : fClass e.word = 4) (hop : 2 ≤ fOp e.word) {q : QId} (hq : qopQ e.word = q.val) (hon : qOn r q = true)
    (hjob : r.jobOf c = some (qJob r q)) : ∃ t, exec (.unitInstrStart c .fab us) s = .next t ∧ qOf t c .fab = rest ∧
      (t.unit c).fab = some (.qop e 0) ∧ t.queues = r.queues ∧ t.cores = r.cores ∧ t.locals = r.locals := by
  obtain ⟨hrest, hfab⟩ := unit_fabSet r c rest (.qop e 0)
  have hmoves : (fOp e.word == 0 || fOp e.word == 1) = false := by
    rw [Bool.or_eq_false_iff, beq_eq_false_iff_ne, beq_eq_false_iff_ne]
    omega
  have hstart : qopStart r c e rest =
      let p := popHead r c .fab rest
      p.setUnit c { p.unit c with fab := some (.qop e 0) } := by
    have hon' : qOn ((popHead r c .fab rest).setUnit c { (popHead r c .fab rest).unit c with fab := some (.qop e 0) }) q = true := hon
    have hjob' : ((popHead r c .fab rest).setUnit c { (popHead r c .fab rest).unit c with fab := some (.qop e 0) }).jobOf c =
        some (qJob ((popHead r c .fab rest).setUnit c { (popHead r c .fab rest).unit c with fab := some (.qop e 0) }) q) := hjob
    unfold qopStart
    dsimp only
    rw [hmoves, holdingGuard_qop hclass hop, hq, fin?_val]
    dsimp only
    rw [hon', hjob']
    simp
  exact ⟨_, unitStart_fab hr hhead (.inr ⟨hclass, hstart⟩) hrun, hrest, hfab, rfl, rfl, rfl⟩

theorem exec_unitInstrComplete (hr : strike s us = r) (hheld : r.power.held = false) (u : UnitSel) :
    exec (.unitInstrComplete c u us) s = .next (wake (unitComplete r c u) c) := by
  subst hr
  have hlive := live_of_struck (t := wake (unitComplete (strike s us) c u) c) hheld
  exact congrArg Host.Outcome.next hlive

/-- A QOP that moves no cells completes: the fabric goes on. -/
theorem qopFinish_plain (s : State) (c : CoreId) (h0 : fOp e.word ≠ 0) (h1 : fOp e.word ≠ 1) :
    qopFinish s c e = wake (s.setUnit c { s.unit c with fab := none }) c := by
  unfold qopFinish
  simp only [ite_self]

/-- A started STAT completes: SD takes the status word (R212). -/
theorem fab_completes_stat (hr : strike s us = r) (hrun : RunsFree r c) (hheld : r.power.held = false) {n : Nat} {q : QId}
    (hfab : (r.unit c).fab = some (.qop e n)) (hop : fOp e.word = 3) (hq : qopQ e.word = q.val) :
    ∃ t, exec (.unitInstrComplete c .fab us) s = .next t ∧ (t.unit c).fab = none ∧ t.queues = r.queues ∧ t.locals = r.locals ∧
      (t.core c).sreg = ((r.core c).sset (qopSd e.word) (qStatWord r q)).sreg ∧ (t.core c).pc = (r.core c).pc := by
  let k := (r.core c).sset (qopSd e.word) (qStatWord r q)
  have hk := Core.sset_eq (r.core c) (qopSd e.word) (qStatWord r q)
  let t := (r.setCore c k).setUnit c { r.unit c with fab := none }
  have hcore : t.core c = k := State.core_setCore_self r c k
  have ht : RunsFree t c := by
    unfold RunsFree
    rw [hcore]
    rw [show k = _ from hk]
    exact hrun
  have heffect : unitComplete r c .fab = t := by
    unfold unitComplete fabComplete
    dsimp only
    rw [hfab]
    dsimp only
    rw [if_neg (by omega)]
    unfold qopEffect
    dsimp only
    rw [hq, fin?_val]
    dsimp only
    rw [hop]
    change qopFinish (r.setCore c k) c e = t
    rw [qopFinish_plain _ c (by rw [hop]; decide) (by rw [hop]; decide)]
    exact wake_running ht.1 ht.2
  refine ⟨t, ?_, ?_, rfl, rfl, ?_, ?_⟩
  · rw [exec_unitInstrComplete hr hheld, heffect, wake_running ht.1 ht.2]
  · rw [State.unit_setUnit_self]
  · rw [hcore]
  · rw [hcore]
    have hpc := congrArg Core.pc hk
    exact hpc

/-- The SLOT_FILL or SLOT_DRAIN at the head of the fabric queue completes: its guard takes the state (R227). -/
theorem fab_completes_slot (hr : strike s us = r) (hrun : RunsFree r c) (hheld : r.power.held = false)
    (hnone : (r.unit c).fab = none) (hhead : fabHead r c = some (e, rest)) {f : Bool}
    (hop : decodeOp e.pc e.word = some (if f then .slotFill else .slotDrain)) :
    ∃ t, exec (.unitInstrComplete c .fab us) s = .next t ∧ qOf t c .fab = rest ∧ guardFilled t c (sySlot e.word) = f ∧
      (∀ g, g ≠ sySlot e.word → guardFilled t c g = guardFilled r c g) ∧ t.cores = r.cores ∧ (t.loc c).sp = (r.loc c).sp := by
  obtain ⟨hset, hothers, hrest, hcores, hsp, -⟩ := slotSync_effect (f := f) hhead hop hrun
  have hsync : unitComplete r c .fab = slotSync r c := by
    unfold unitComplete fabComplete
    dsimp only
    rw [hnone]
  have ht : RunsFree (slotSync r c) c := by
    unfold RunsFree State.core
    rw [hcores]
    exact hrun
  refine ⟨slotSync r c, ?_, hrest, hset, hothers, hcores, hsp⟩
  rw [exec_unitInstrComplete hr hheld, hsync, wake_running ht.1 ht.2]

/-- The oldest started vector operation completes (R47, R48). -/
theorem ve_completes (hr : strike s us = r) (hrun : RunsFree r c) (hheld : r.power.held = false) {x : VeRun}
    {more : List VeRun} (hve : (r.unit c).ve = x :: more) : exec (.unitInstrComplete c .ve us) s = .next (
      let q := r.setUnit c { r.unit c with ve := more }
      match x.sd with
      | none => q
      | some (i, v) => q.setCore c { (r.core c).sset i v with pendSd := (r.core c).pendSd.erase i }) := by
  rw [exec_unitInstrComplete hr hheld]
  refine congrArg Host.Outcome.next ?_
  unfold unitComplete veComplete
  dsimp only
  rw [hve]
  dsimp only
  cases x.sd with
  | none =>
    have hfree : RunsFree (r.setUnit c { r.unit c with ve := more }) c := hrun
    dsimp only
    rw [wake_running hfree.1 hfree.2, wake_running hfree.1 hfree.2]
  | some p =>
    obtain ⟨i, v⟩ := p
    dsimp only
    have hfree : RunsFree ((r.setUnit c { r.unit c with ve := more }).setCore c
        { (r.core c).sset i v with pendSd := (r.core c).pendSd.erase i }) c := by
      unfold RunsFree
      rw [State.core_setCore_self, Core.sset_eq]
      exact hrun
    rw [State.core_setUnit, wake_running hfree.1 hfree.2, wake_running hfree.1 hfree.2]

end

end Sys2Proof.Machine
end

section
/-!
SETTLEMENT. The starts of matrix passes, and the events of the units (R40, R42, R43, R48, R49, R68, R189, R190, R212).
-/

namespace Sys2Proof.Machine

/-! ### What the reads of a pass touch (R68, R226) -/

/-- The state `t` differs from `s` at most in what an event touches, and in the corrected lanes noted at the scratchpad of `c`. -/
def Glances (c : CoreId) (s t : State) : Prop := BesideGddr c s t ∧ (t.loc c).sp = (s.loc c).sp

section
variable {c : CoreId} {s t u : State}

theorem glances_refl (c : CoreId) (s : State) : Glances c s s := ⟨besideGddr_refl c s, rfl⟩

theorem glances_trans (h : Glances c s t) (k : Glances c t u) : Glances c s u :=
  ⟨besideGddr_trans h.1 k.1, k.2.trans h.2⟩

theorem glances_of_quiet (c : CoreId) (h : Quiet s t) : Glances c s t :=
  ⟨besideGddr_of_quiet c h, by rw [h.loc]⟩

theorem glances_foldl {α : Type} {f : State → α → State} (hf : ∀ s x, Glances c s (f s x)) (l : List α) (s : State) :
    Glances c s (l.foldl f s) := by
  induction l generalizing s with
  | nil => exact glances_refl c s
  | cons x l ih => exact glances_trans (hf s x) (ih (f s x))

theorem glances_fst {β : Type} {x : State × β} {b : β} (h : Glances c s x.1) (he : x = (t, b)) : Glances c s t := by
  rw [he] at h
  exact h

end

section
variable (s : State) (c : CoreId)

theorem spFixed_glances (job : Option Nat) (off : Nat) : Glances c s (spFixed s c job off) := by
  have hcount : Quiet s (s.count (coreBase c + 0x4068) 32 1) := State.count_quiet (quiet_refl s)
  have hset (k : State) (f : List Nat) : Glances c k (k.setLoc c { k.loc c with fixes := f }) :=
    ⟨setSp_beside k c (k.loc c).sp (k.loc c).spErr f, by rw [State.loc_setLoc_self]⟩
  exact glances_trans (glances_of_quiet c hcount) (glances_trans (hset _ _)
    (glances_of_quiet c (State.raise_quiet (quiet_refl _))))

theorem spCorrected_glances (job : Option Nat) (ms : List (Nat × Bool)) : Glances c s (spCorrected s c job ms) :=
  glances_foldl (fun s _ => spFixed_glances s c job _) _ s

theorem eccAll_glances (l : List (Nat × Nat)) : Glances c s (eccAll s c l).1 :=
  glances_trans (spCorrected_glances s c _ _) (glances_of_quiet c (spUncorrs_quiet _ c _ _))

theorem spAllow_quiet' (job : Option Nat) (off len : Nat) : Quiet s (spAllow s c job off len).1 := by
  unfold spAllow
  split
  · dsimp only
    exact State.raise_quiet (quiet_refl s)
  · split
    · exact spSomeOff_quiet s c job off len
    · exact quiet_refl s

theorem allowAll_glances (l : List (Nat × Nat)) : Glances c s (allowAll s c l).1 := by
  unfold allowAll
  exact glances_of_quiet c (quiet_foldl (fun s (r : Nat × Nat) => spAllow_quiet' s c (s.jobOf c) r.1 r.2) _ s)

variable (u : MuId)

theorem paramFault_glances (pc : Nat) : Glances c s (paramFault s c u pc) := by
  unfold paramFault muEv
  exact glances_of_quiet c (State.raise_quiet (State.wr_quiet (quiet_refl s)))

theorem passEv_glances (code a0 pc : Nat) : Glances c s (passEv s c u code a0 pc) := by
  unfold passEv
  exact glances_of_quiet c (State.raise_quiet (quiet_refl s))

/-- The end of a pass's reads: `x` is what they have given, `good` whether every lane could be read (R86, R98). -/
def passRead (r : PassRun) (again : Bool) (x : PassSrc) (held : Option HeldOp) (shut good : Bool) :
    State × PassRun × Option HeldOp :=
  let w := r.entry.word
  let k := if again then r.cbs else (s.core c).cbs
  let s := match (if again || isBf (mAfmt w) then none else passMismatch k w r.ppb x) with
    | some i => passEv s c u 0x3004 i r.entry.pc
    | none => s
  let r := { r with src := x, cbs := k, ending := .normal }
  if !good || shut then (s, { r with ending := .operand }, held)
  else if metaBad w r.ppb x then (paramFault s c u r.entry.pc, { r with ending := .badInfo }, held)
  else (s, r, held)

theorem passRead_glances (r : PassRun) (again : Bool) (x : PassSrc) (held : Option HeldOp) (shut good : Bool) :
    Glances c s (passRead s c u r again x held shut good).1 ∧ (passRead s c u r again x held shut good).2.1.entry = r.entry := by
  have hev (o : Option Nat) : Glances c s (match o with
      | some i => passEv s c u 0x3004 i r.entry.pc
      | none => s) := by
    cases o with
    | none => exact glances_refl c s
    | some i => exact passEv_glances s c u _ i _
  unfold passRead
  dsimp only
  split
  · exact ⟨hev _, rfl⟩
  · split
    · exact ⟨glances_trans (hev _) (paramFault_glances _ c u _), rfl⟩
    · exact ⟨hev _, rfl⟩

/-- The reads `reads` of a pass, allowed or not (R226, R233, R236). -/
def passReading (r : PassRun) (old : Option HeldOp) (again : Bool) (x : PassSrc) (held : Option HeldOp) (shut : Bool × Bool)
    (reads : List (Nat × Nat)) : State × PassRun × Option HeldOp :=
  match allowAll s c reads with
  | (s, false) => (s, { r with ending := .denied }, keptOp r.entry.word old)
  | (s, true) =>
    if shut.1 then (s, { r with ending := .denied }, keptOp r.entry.word old)
    else passRead (eccAll s c reads).1 c u r again x held shut.2 (eccAll s c reads).2

theorem passReading_glances (r : PassRun) (old : Option HeldOp) (again : Bool) (x : PassSrc) (held : Option HeldOp)
    (shut : Bool × Bool) (reads : List (Nat × Nat)) :
    Glances c s (passReading s c u r old again x held shut reads).1 ∧
    (passReading s c u r old again x held shut reads).2.1.entry = r.entry := by
  unfold passReading
  split
  · next h => exact ⟨glances_fst (allowAll_glances s c reads) h, rfl⟩
  · next y h =>
    have hallow := glances_fst (allowAll_glances s c reads) h
    split
    · exact ⟨hallow, rfl⟩
    · obtain ⟨hread, hentry⟩ := passRead_glances (eccAll y c reads).1 c u r again x held shut.2 (eccAll y c reads).2
      exact ⟨glances_trans hallow (glances_trans (eccAll_glances y c reads) hread), hentry⟩

theorem passTake_reading (r : PassRun) (old : Option HeldOp) (again : Bool) :
    ∃ x held, passTake s c u r old again = passReading s c u r old again x held (pairShut s c r x)
      (passReads r.entry.word r.ppb r.place x) := ⟨_, _, rfl⟩

/-! ### A pass enters its unit (R68) -/

/-- The pass of the entry `e` has entered its unit after no more than its reads. -/
def Entered (s t : State) (c : CoreId) (u : MuId) (e : Entry) : Prop :=
  ∃ y x held, t = muPush y c u x held ∧ Glances c s y ∧ x.entry = e

theorem passBody_enters (e : Entry) (a : PassAt) (p : List Byte) (pairBad : Bool) :
    Entered s (passBody s c u e a p pairBad) c u e := by
  unfold passBody
  dsimp only
  split
  · exact ⟨_, _, _, rfl, paramFault_glances s c u _, rfl⟩
  · let run : PassRun := { entry := e, place := a, ppb := p, ending := .normal, slotc := if pSlotcen p then some (pSlotc p) else none }
    obtain ⟨x, held, heq⟩ := passTake_reading s c u run ((s.unit c).mu[u]).held false
    obtain ⟨hglances, hentry⟩ := passReading_glances s c u run ((s.unit c).mu[u]).held false x held (pairShut s c run x)
      (passReads run.entry.word run.ppb run.place x)
    rw [← heq] at hglances hentry
    exact ⟨_, _, _, rfl, hglances, hentry⟩

theorem Entered.after {s y t : State} {c : CoreId} {u : MuId} {e : Entry} (hy : Glances c s y) (h : Entered y t c u e) :
    Entered s t c u e := by
  obtain ⟨z, x, held, ht, hz, hx⟩ := h
  exact ⟨z, x, held, ht, glances_trans hy hz, hx⟩

theorem passGo_enters (e : Entry) (rest : List Entry) : Entered (popHead s c (muSel u) rest) (passGo s c u e rest) c u e := by
  unfold passGo
  dsimp only
  split
  · exact ⟨_, _, _, rfl, paramFault_glances _ c u _, rfl⟩
  · split
    · next h => exact ⟨_, _, _, rfl, glances_fst (allowAll_glances _ c _) h, rfl⟩
    · next y h =>
      have hallow := glances_fst (allowAll_glances _ c _) h
      split
      · next hecc => exact ⟨_, _, _, rfl, glances_trans hallow (glances_fst (eccAll_glances y c _) hecc), rfl⟩
      · next z hecc =>
        exact (passBody_enters z c u e _ _ _).after (glances_trans hallow (glances_fst (eccAll_glances y c _) hecc))

end

/-- What the start of a pass leaves as it was, beside its unit's queue and passes. -/
def StartStill (c : CoreId) (s t : State) : Prop :=
  (t.loc c).sp = (s.loc c).sp ∧ (t.loc c).guards = (s.loc c).guards ∧ t.gddr = s.gddr ∧ t.cores = s.cores ∧
  ∀ d, d ≠ c → t.unit d = s.unit d ∧ t.loc d = s.loc d

theorem startStill_trans {c : CoreId} {s t u : State} (h : StartStill c s t) (k : StartStill c t u) : StartStill c s u := by
  obtain ⟨hsp, hg, hgddr, hcores, hrest⟩ := h
  obtain ⟨ksp, kg, kgddr, kcores, krest⟩ := k
  exact ⟨ksp.trans hsp, kg.trans hg, kgddr.trans hgddr, kcores.trans hcores,
    fun d hd => ⟨(krest d hd).1.trans (hrest d hd).1, (krest d hd).2.trans (hrest d hd).2⟩⟩

section
variable {c : CoreId} {s y t : State} {u : MuId} {e : Entry}

theorem Glances.still (h : Glances c s y) : StartStill c s y := by
  obtain ⟨⟨hb, hgddr, -, -⟩, hsp⟩ := h
  obtain ⟨hframe, hloc, hlocs⟩ := id hb
  exact ⟨hsp, by rw [hloc], hgddr, hb.cores, fun d hd => ⟨hb.unit d, hlocs d hd⟩⟩

theorem setUnit_still (s : State) (c : CoreId) (k : Units) : StartStill c s (s.setUnit c k) :=
  ⟨rfl, rfl, rfl, rfl, fun _ hd => ⟨State.unit_setUnit_other s c _ _ hd, rfl⟩⟩

theorem muPush_still (s : State) (c : CoreId) (u : MuId) (x : PassRun) (held : Option HeldOp) :
    StartStill c s (muPush s c u x held) := setUnit_still s c _

/-- A pass as it stands among the started ones of its unit. -/
def startedRunOf (m : Mu) (x : PassRun) : PassRun := { x with shared := !m.runs.isEmpty, before := m.held }

/-- A unit that a pass has entered. -/
def enteredMu (m : Mu) (x : PassRun) (held : Option HeldOp) : Mu := { runs := m.runs ++ [startedRunOf m x], held := held }

/-- The unit of a pass that has entered. -/
theorem Entered.unit (h : Entered s t c u e) : StartStill c s t ∧ (t.unit c).q = (s.unit c).q ∧
    (∃ x, ((t.unit c).mu[u]).runs = ((s.unit c).mu[u]).runs ++ [x] ∧ x.entry = e) ∧
    ∀ v : MuId, v ≠ u → (t.unit c).mu[v] = (s.unit c).mu[v] := by
  obtain ⟨y, x, held, rfl, hy, hx⟩ := h
  have hunit : y.unit c = s.unit c := hy.1.1.unit c
  have hpush : (muPush y c u x held).unit c =
      { y.unit c with mu := (y.unit c).mu.set u (enteredMu ((y.unit c).mu[u]) x held) } := State.unit_setUnit_self y c _
  rw [hpush, hunit]
  refine ⟨startStill_trans hy.still (muPush_still y c u x held), rfl, ⟨startedRunOf ((s.unit c).mu[u]) x, ?_, hx⟩, fun v hv => ?_⟩
  · simp only [Fin.getElem_fin, Vector.getElem_set_self]
    rfl
  · exact Vector.getElem_set_ne u.isLt v.isLt (fun hne => hv (Fin.ext hne.symm))

/-- The pass at the head of a queue enters its unit. -/
theorem passGo_result (s : State) (c : CoreId) (u : MuId) (e : Entry) (rest : List Entry) :
    let t := passGo s c u e rest
    StartStill c s t ∧ qOf t c (muSel u) = rest ∧ (∀ v, v ≠ muSel u → qOf t c v = qOf s c v) ∧
    (∃ x, ((t.unit c).mu[u]).runs = ((s.unit c).mu[u]).runs ++ [x] ∧ x.entry = e) ∧
    ∀ v : MuId, v ≠ u → (t.unit c).mu[v] = (s.unit c).mu[v] := by
  intro t
  obtain ⟨hstill, hq, hrun, hmus⟩ := (passGo_enters s c u e rest).unit
  have hpop := popHead_unit s c (muSel u) rest
  refine ⟨startStill_trans (setUnit_still s c _) hstill, ?_, fun v hv => ?_, ?_, fun v hv => ?_⟩
  · exact (congrArg (fun q : Vector (List Entry) 5 => q[unitIx (muSel u)]) hq).trans (qOf_popHead_self s c (muSel u) rest)
  · refine (congrArg (fun q : Vector (List Entry) 5 => q[unitIx v]) hq).trans ?_
    rw [hpop]
    exact Vector.getElem_set_ne (unitIx (muSel u)).isLt (unitIx v).isLt (unitIx_ne hv)
  · rw [hpop] at hrun
    exact hrun
  · rw [hmus v hv, hpop]

theorem StartStill.runsFree (h : StartStill c s t) (hrun : RunsFree s c) : RunsFree t c := by
  obtain ⟨-, -, -, hcores, -⟩ := h
  unfold RunsFree State.core
  rw [hcores]
  exact hrun

/-! ### The start of a pass (R68, R189) -/

theorem pairUnknown_settled (h : (s.core c).lastMu0 = none) (last : Bool) : pairUnknown s c u e last = false := by
  unfold pairUnknown
  rw [h]
  exact Bool.and_false _

theorem exec_passStart (s : State) (c : CoreId) (u : MuId) (us : List Upset) :
    exec (.passStart c u us) s = .next (wake (passStart (strike s us) c u) c) := rfl

variable {rest : List Entry} (hstart : canStart s c = true) (hq : qOf s c (muSel u) = e :: rest)
  (hlast : (s.core c).lastMu0 = none)
include hstart hq hlast

theorem passStart_alone (hready : passReady s c u e = true) (hmate : e.mate = false) :
    passStart s c u = passGo s c u e rest := by
  unfold passStart
  rw [hstart, if_pos rfl, hq]
  dsimp only
  rw [pairUnknown_settled hlast, hready, hmate]
  rfl

theorem passStart_waits (hready : passReady s c u e = false) : passStart s c u = s := by
  unfold passStart
  rw [hstart, if_pos rfl, hq]
  dsimp only
  rw [pairUnknown_settled hlast, hready]
  rfl

omit hq in
theorem passStart_pair (hq : qOf s c .mu0 = e :: rest) (hready : passReady s c 0 e = true) (hmate : e.mate = true) {e1 : Entry}
    {rest1 : List Entry} (hq1 : qOf s c .mu1 = e1 :: rest1) (hmate1 : e1.mate = true) (hready1 : passReady s c 1 e1 = true) :
    passStart s c 0 = passGo (passGo s c 0 e rest) c 1 e1 rest1 := by
  have hq' : qOf s c (muSel 0) = e :: rest := hq
  unfold passStart
  rw [hstart, if_pos rfl, hq']
  dsimp only
  rw [pairUnknown_settled hlast, hready, hmate, hq1]
  have hboth : (e1.mate && passReady s c 1 e1) = true := by rw [hmate1, hready1]; rfl
  exact if_pos hboth

end


/-- Settles O22. A started operation is appended to what its unit holds; a pass enters its unit after no more than its reads
(`Glances`), and a pair is two such entries. -/
theorem unitEventsResult : Obligations.UnitEventsResult := by
  unfold Obligations.UnitEventsResult
  constructor
  · intro c us s r hrun hblocked hheld
    have hfree : RunsFree r c := ⟨hrun, hblocked⟩
    refine ⟨fun e rest hq hstart => ?_, fun e rest hq hstart hfab hnone => ?_, fun e n q hfab hop hq => ?_, fun x rest hve => ?_⟩
    · intro w b va vb vc starts
      refine ⟨fun hop => ?_, fun hop => ?_, fun hop => ?_, fun hop hsd => ?_⟩
      · exact ve_starts_vd rfl hfree hstart hq hop rfl
      · exact ve_starts_vd rfl hfree hstart hq hop (veAddx_eq _ c e)
      · exact ve_starts_vd rfl hfree hstart hq hop rfl
      · exact ve_starts_vmovs rfl hfree hstart hq hop hsd
    · have hhead := fabHead_some hstart hfab hnone hq
      refine ⟨fun hclass => ?_, fun hclass hop q hqop hon hjob => ?_, fun f hop => ?_⟩
      · exact fab_starts_disp rfl hfree hhead hclass
      · exact fab_starts_qop rfl hfree hhead hclass hop hqop hon hjob
      · exact fab_completes_slot rfl hfree hheld hfab hhead hop
    · exact fab_completes_stat rfl hfree hheld hfab hop hq
    · exact ve_completes rfl hfree hheld hve
  · intro c u us s e rest r still hrun hblocked hstart hq hlast
    have hfree : RunsFree r c := ⟨hrun, hblocked⟩
    refine ⟨fun hmate hready => ?_, ?_, fun hready => ?_⟩
    · obtain ⟨hstill, hrest, -, ⟨x, hruns, hx⟩, -⟩ := passGo_result r c u e rest
      have hgone := hstill.runsFree hfree
      refine ⟨passGo r c u e rest, x, ?_, hrest, hruns, hx, hstill⟩
      rw [exec_passStart, passStart_alone hstart hq hlast hready hmate, wake_running hgone.1 hgone.2]
    · rintro e1 rest1 rfl hmate hready hq1 hmate1 hready1
      obtain ⟨hstill, hrest, hother, ⟨x, hruns, hx⟩, hmus⟩ := passGo_result r c 0 e rest
      obtain ⟨hstill1, hrest1, hother1, ⟨y, hruns1, hy⟩, hmus1⟩ := passGo_result (passGo r c 0 e rest) c 1 e1 rest1
      have hboth := startStill_trans hstill hstill1
      have hgone := hboth.runsFree hfree
      refine ⟨passGo (passGo r c 0 e rest) c 1 e1 rest1, x, y, ?_, ?_, hrest1, ?_, hx, ?_, hy, hboth⟩
      · rw [exec_passStart, passStart_pair hstart hlast hq hready hmate hq1 hmate1 hready1, wake_running hgone.1 hgone.2]
      · exact (hother1 .mu0 (by decide)).trans hrest
      · exact (congrArg Mu.runs (hmus1 0 (by decide))).trans hruns
      · exact hruns1.trans (congrArg (fun m : Mu => m.runs ++ [y]) (hmus 1 (by decide)))
    · rw [exec_passStart, passStart_waits hstart hq hlast hready, wake_running hfree.1 hfree.2]

end Sys2Proof.Machine
end

section
/-!
SUPPORT. What a dispatch unit's sending and its start of a request leave as they were (R154, R163, R165, R167).
-/

namespace Sys2Proof.Machine

/-! ### Sending (R163, R217) -/

/-- A dispatch unit with other cells held for peers, and no more than an event around it. -/
def OutsOnly (u : DuId) (s t : State) : Prop :=
  t.dus[u] = { s.dus[u] with outs := (t.dus[u]).outs } ∧ t.cores = s.cores ∧ t.units = s.units ∧ t.locals = s.locals ∧
  t.queues = s.queues

section
variable {u : DuId} {s t v : State}

theorem outsOnly_refl (u : DuId) (s : State) : OutsOnly u s s := ⟨rfl, rfl, rfl, rfl, rfl⟩

theorem outsOnly_trans (h : OutsOnly u s t) (k : OutsOnly u t v) : OutsOnly u s v := by
  obtain ⟨hdu, hc, hu, hl, hq⟩ := h
  obtain ⟨kdu, kc, ku, kl, kq⟩ := k
  refine ⟨?_, kc.trans hc, ku.trans hu, kl.trans hl, kq.trans hq⟩
  rw [kdu, hdu]

theorem outsOnly_of_quiet (u : DuId) (h : Quiet s t) : OutsOnly u s t :=
  ⟨by rw [h.dus], h.cores, h.units, h.locals, h.queues⟩

theorem dus_setDu_self (s : State) (u : DuId) (k : Dispatch) : (s.setDu u k).dus[u] = k := Vector.getElem_set_self _

theorem setDu_same (s : State) (u : DuId) : s.setDu u s.dus[u] = s := by
  unfold State.setDu
  have hset : s.dus.set u s.dus[u] = s.dus := Vector.set_getElem_self _
  rw [hset]

theorem outsOnly_setDu (s : State) (u : DuId) (l : List DispOut) : OutsOnly u s (s.setDu u { s.dus[u] with outs := l }) :=
  ⟨by rw [dus_setDu_self], rfl, rfl, rfl, rfl⟩

theorem outsOnly_foldl {α : Type} {f : State → α → State} (hf : ∀ s x, OutsOnly u s (f s x)) (l : List α) (s : State) :
    OutsOnly u s (l.foldl f s) := by
  induction l generalizing s with
  | nil => exact outsOnly_refl u s
  | cons x l ih => exact outsOnly_trans (hf s x) (ih (f s x))

end

theorem sendCells_quiet (die job dst q : Nat) (fuel : Nat) (s : State) (cells : List Cell) :
    Quiet s (sendCells s die job dst q fuel cells).1 := by
  induction fuel generalizing s cells with
  | zero => exact quiet_refl s
  | succ n ih =>
    have hsend := sendPkt_quiet (die := die) (vc := 0) (job := job) (dst := dst)
      (p := qcellsPkt s job dst q (cells.take (packetLen cells))) (quiet_refl s)
    unfold sendCells
    dsimp only
    split
    · exact quiet_refl s
    · split
      · next t ht =>
        rw [ht] at hsend
        exact quiet_trans hsend (ih t _)
      · next t ht =>
        rw [ht] at hsend
        exact hsend

theorem duFlushOne_quiet (s : State) (u : DuId) (o : DispOut) : Quiet s (duFlushOne s u o).1 := by
  unfold duFlushOne
  split
  · exact quiet_refl s
  · next dev q _ =>
    have hsend := sendCells_quiet u.val o.job dev.toNat q.val o.cells.length s o.cells
    split
    · exact quiet_refl s
    · split
      · next t ht =>
        rw [ht] at hsend
        exact hsend
      · next t x rest ht =>
        rw [ht] at hsend
        dsimp only at hsend ⊢
        split
        · exact hsend
        · exact State.failStep_quiet (unreachable_quiet hsend)

/-- One step of a flush: the cells of one destination. -/
def flushStep (u : DuId) (acc : State × List DispOut) (o : DispOut) : State × List DispOut :=
  match duFlushOne acc.1 u o with
  | (s, some o) => (s, acc.2 ++ [o])
  | (s, none) => (s, acc.2)

theorem flushStep_quiet (u : DuId) (acc : State × List DispOut) (o : DispOut) : Quiet acc.1 (flushStep u acc o).1 := by
  have hone := duFlushOne_quiet acc.1 u o
  unfold flushStep
  split <;> next h => rwa [h] at hone

theorem duFlush_eq (s : State) (u : DuId) : duFlush s u =
    let x := (s.dus[u]).outs.foldl (flushStep u) (s, [])
    x.1.setDu u { x.1.dus[u] with outs := x.2 } := rfl

theorem flushSteps_quiet (u : DuId) (l : List DispOut) (acc : State × List DispOut) :
    Quiet acc.1 (l.foldl (flushStep u) acc).1 := by
  induction l generalizing acc with
  | nil => exact quiet_refl acc.1
  | cons o l ih => exact quiet_trans (flushStep_quiet u acc o) (ih _)

theorem duFlush_outs (s : State) (u : DuId) : OutsOnly u s (duFlush s u) := by
  rw [duFlush_eq]
  exact outsOnly_trans (outsOnly_of_quiet u (flushSteps_quiet u _ (s, []))) (outsOnly_setDu _ u _)

theorem duPush_outs (s : State) (u : DuId) (job : Nat) (d : DispDest) (cells : List Cell) :
    OutsOnly u s (duPush s u job d cells) := outsOnly_setDu s u _

theorem sendMarkers_outs (s : State) (u : DuId) (job : Nat) (mbtag : BitVec 16) (kind : Nat) (dests : List DispDest) :
    OutsOnly u s (sendMarkers s u job mbtag kind dests) :=
  outsOnly_trans (outsOnly_foldl (fun s d => duPush_outs s u job d _) dests s) (duFlush_outs _ u)

/-- A unit that holds nothing for a peer flushes nothing. -/
theorem duFlush_empty {s : State} {u : DuId} (h : (s.dus[u]).outs = []) : duFlush s u = s := by
  rw [duFlush_eq, h]
  dsimp only [List.foldl_nil]
  rw [← h]
  exact setDu_same s u

/-! ### A request starts (R154, R433) -/

section
variable {s : State} {u : DuId}

theorem setAside_idle (h : (s.dus[u]).run = none) : setAside s u = s := by
  obtain ⟨hdu, -⟩ := duFlush_outs s u
  have hrun : ((duFlush s u).dus[u]).run = none := (congrArg Dispatch.run hdu).trans h
  unfold setAside
  dsimp only
  rw [hrun]

theorem setAside_sent {x : DispRun} (hrun : (s.dus[u]).run = some x) (h : (s.dus[u]).outs = []) : setAside s u = s := by
  unfold setAside
  dsimp only
  rw [duFlush_empty h, hrun, h]
  rfl

theorem dispatchStart_idle (hon : s.domainOn (48 + u.val) = true) (h : (s.dus[u]).run = none) :
    dispatchStart s u = requestStart s u := by
  unfold dispatchStart
  rw [if_pos hon, setAside_idle h]

theorem dispatchStart_busy {x : DispRun} (hon : s.domainOn (48 + u.val) = true) (hrun : (s.dus[u]).run = some x)
    (h : (s.dus[u]).outs = []) : dispatchStart s u = .next s := by
  unfold dispatchStart requestStart
  rw [if_pos hon, setAside_sent hrun h]
  dsimp only
  rw [if_pos (.inl (by rw [hrun]; rfl))]

end

end Sys2Proof.Machine
end

section
/-!
SUPPORT. The start of a dispatch request: ROUTE, COMMIT, CANCEL and STAT (R154 to R167).
-/

namespace Sys2Proof.Machine

/-- The unit once it has taken a request out of its queue (R154). -/
def takenReq (s : State) (u : DuId) (req : DispReq) : State :=
  s.setDu u { s.dus[u] with waiting := (s.dus[u]).waiting.erase req, rr := req.core.val % 24 }

/-! ### The reads and packets of a ROUTE leave the cores as they were (R155, R163) -/

section
variable (s : State) (u : DuId) (c : CoreId)

theorem readDpb_cores (off : Nat) : (readDpb s c off).1.cores = s.cores := by
  have hread := (spReadAny_beside s c (s.jobOf c) off 64).1.cores
  unfold readDpb
  split
  · rfl
  · split
    · unfold geckoFault
      dsimp only
      exact (State.raise_quiet (quiet_refl s)).cores
    · dsimp only
      split
      · exact hread
      · exact hread

theorem geckoRegions_quiet (d : Option (List Byte)) : Quiet s (geckoRegions s u c d) := by
  unfold geckoRegions
  split
  · exact quiet_refl s
  · split
    · unfold geckoFault
      exact State.raise_quiet (quiet_refl s)
    · exact quiet_refl s

end

theorem cores_foldl_pair {α β : Type} {f : State × β → α → State × β} (hf : ∀ x a, (f x a).1.cores = x.1.cores) (l : List α)
    (x : State × β) : (l.foldl f x).1.cores = x.1.cores := by
  induction l generalizing x with
  | nil => rfl
  | cons a l ih => exact (ih (f x a)).trans (hf x a)

section
variable (s : State) (u : DuId) (c : CoreId)

theorem readScores_cores (d : List Byte) : (readScores s c d).1.cores = s.cores := by
  unfold readScores
  refine cores_foldl_pair (fun x t => ?_) _ (s, [], false)
  exact (spReadAny_beside x.1 c _ _ _).1.cores

theorem sendExpert_cores (job mbtag : Nat) (d : List Byte) (w : W64) (e : Nat) (list : List Nat) (acc : SendAcc) :
    (sendExpert u c job mbtag d w e list s acc).1.cores = s.cores := by
  unfold sendExpert
  split
  · rfl
  · next dest _ =>
    split
    next y rows bad hfold =>
    have hrows : y.cores = s.cores := by
      have hcores := cores_foldl_pair (f := fun (a : State × List Byte × Bool) (x : Nat) =>
        let off := dpbAct d + x % 0x10000 * dpbAstr d
        let len := 64 * dpbRowc d
        let hit := (spMarks a.1 c off len).any (·.2)
        let (s, bs) := spReadAny a.1 c (some job) off len
        (s, a.2.1 ++ bs, a.2.2 || hit)) (fun x t => (spReadAny_beside x.1 c _ _ _).1.cores) list (s, [], false)
      rw [hfold] at hcores
      exact hcores
    split
    · exact hrows
    · exact hrows

theorem sendExperts_cores (job mbtag : Nat) (d : List Byte) (entries : List W64) (cs : List Choice) :
    (sendExperts u c job mbtag d entries cs s).1.cores = s.cores := by
  unfold sendExperts
  refine cores_foldl_pair (fun x e => ?_) _ (s, ({} : SendAcc))
  dsimp only
  split
  · rfl
  · exact sendExpert_cores x.1 u c job mbtag d _ e _ _

end

/-! ### The run of a ROUTE (R157 to R165) -/

/-- The hit mask of some choices (R170). -/
def hitsOf (cs : List Choice) : BitVec 256 :=
  cs.foldl (fun h x => match x.e with | some e => setBit h e | none => h) 0#256

theorem getLsbD_setBit {n : Nat} (w : BitVec n) (i j : Nat) (h : j < n) :
    (setBit w i).getLsbD j = (w.getLsbD j || decide (i = j)) := by
  unfold setBit
  rw [BitVec.getLsbD_or, BitVec.getLsbD_ofNat, Nat.testBit_two_pow, decide_eq_true h, Bool.true_and]

theorem getLsbD_hits (cs : List Choice) (w : BitVec 256) (e : Fin 256) :
    (cs.foldl (fun h x => match x.e with | some e => setBit h e | none => h) w).getLsbD e.val =
      (w.getLsbD e.val || cs.any (fun y => y.e == some e.val)) := by
  induction cs generalizing w with
  | nil => simp
  | cons x cs ih =>
    rw [List.foldl_cons, ih, List.any_cons]
    cases hx : x.e with
    | none => simp
    | some i =>
      rw [getLsbD_setBit w i e.val e.isLt, Bool.or_assoc]
      congr 2

theorem getLsbD_hitsOf (cs : List Choice) (e : Fin 256) :
    (hitsOf cs).getLsbD e.val = cs.any (fun y => y.e == some e.val) := by
  unfold hitsOf
  rw [getLsbD_hits]
  simp

/-- The work of a ROUTE is a run with the outputs, and leaves the cores as they were. -/
theorem routeWork_run (s : State) (u : DuId) (req : DispReq) (d : List Byte) (scores : List (List Nat)) :
    let es := (List.range (dpbE d)).map (tableEntry s u (dispTable req.word))
    let cs := routeChoices (dpbCap d) (dpbNext d) (scores.map candidates) (dpbK d)
    let t := routeWork s u req d scores
    ∃ x, (t.dus[u]).run = some x ∧ x.req = req ∧ x.out = routeOutputs req.core d es scores cs ∧
      x.statusAt = some (dpbStatus d) ∧ x.tent = dpbTent d ∧ x.hits = hitsOf cs ∧ t.cores = s.cores := by
  intro es cs t
  have hsend := sendExperts_cores s u req.core ((s.jobOf req.core).getD 0) (dispMbtag req.word) d es cs
  obtain ⟨-, hflush, -⟩ := duFlush_outs (sendExperts u req.core ((s.jobOf req.core).getD 0) (dispMbtag req.word) d es cs s).1 u
  have hrun := dus_setDu_self (duFlush (sendExperts u req.core ((s.jobOf req.core).getD 0) (dispMbtag req.word) d es cs s).1 u) u
  refine ⟨_, congrArg Dispatch.run (hrun _), rfl, rfl, rfl, rfl, rfl, hflush.trans hsend⟩

/-! ### The start of each request -/

/-- The checks of a ROUTE whose DPB has been read, and what follows them. -/
def routeRead (u : DuId) (req : DispReq) (x : State × Option (List Byte) × Bool) : Out :=
  let w := req.word
  let d := x.2.1.map (fun d => dpbWithTile d (snapGet req.s (dispSa w)).toNat)
  let s := geckoRegions x.1 u req.core d
  match routeCheck s u req.core (dispTable w) (BitVec.ofNat 16 (dispMbtag w)) d x.2.2, d with
  | some st, d => .next (s.setDu u { s.dus[u] with run := some (routeFail s req d st) })
  | none, none => .next s
  | none, some d =>
    if dpbOverlaps (dpbRegions d) then .fault .dpbOverlap
    else
      let y := readScores s req.core d
      if y.2.2 then .next (y.1.setDu u { y.1.dus[u] with run := some (routeFail y.1 req (some d) 0x17) })
      else .next (routeWork y.1 u req d y.2.1)

/-- The start of a request that a unit has taken. -/
def reqStart (s : State) (u : DuId) (req : DispReq) : Out :=
  match fOp req.word with
  | 0 => routeRead u req (readDpb s req.core (snapGet req.s (dispSp req.word)).toNat)
  | 1 => .next (resolveStart s u req true)
  | 2 => .next (resolveStart s u req false)
  | _ => .next (s.setDu u { s.dus[u] with run := some (routeFail s req none 0) })

theorem requestStart_takes {s : State} {u : DuId} {req : DispReq} (hon : s.domainOn (48 + u.val) = true)
    (hrun : (s.dus[u]).run = none) (hnext : nextReq (freeReqs s s.dus[u]) = some req) :
    requestStart s u = reqStart (takenReq s u req) u req := by
  have hfree : ¬ ((s.dus[u]).run.isSome = true ∨ (!s.domainOn (48 + u.val)) = true) := by
    rw [hrun, hon]
    decide
  unfold requestStart
  dsimp only
  rw [if_neg hfree, hnext]
  rfl

section
variable {s : State} {u : DuId} {req : DispReq}

/-- A ROUTE whose checks pass ends the run, or does its work. -/
theorem reqStart_route {q0 : State} {d0 : List Byte} (hop : fOp req.word = 0)
    (hdpb : readDpb s req.core (snapGet req.s (dispSp req.word)).toNat = (q0, some d0, false)) :
    let d := dpbWithTile d0 (snapGet req.s (dispSa req.word)).toNat
    let q := geckoRegions q0 u req.core (some d)
    routeCheck q u req.core (dispTable req.word) (BitVec.ofNat 16 (dispMbtag req.word)) (some d) false = none →
    reqStart s u req =
      if dpbOverlaps (dpbRegions d) then .fault .dpbOverlap
      else
        let y := readScores q req.core d
        if y.2.2 then .next (y.1.setDu u { y.1.dus[u] with run := some (routeFail y.1 req (some d) 0x17) })
        else .next (routeWork y.1 u req d y.2.1) := by
  intro d q hcheck
  unfold reqStart
  rw [hop]
  dsimp only
  rw [hdpb]
  unfold routeRead
  dsimp only [Option.map_some]
  rw [hcheck]
  rfl

theorem reqStart_resolve (hop : fOp req.word = 1 ∨ fOp req.word = 2) :
    reqStart s u req = .next (resolveStart s u req (decide (fOp req.word = 1))) := by
  unfold reqStart
  obtain hop | hop := hop
  · rw [hop]; rfl
  · rw [hop]; rfl

theorem reqStart_other (hop : 3 ≤ fOp req.word) :
    reqStart s u req = .next (s.setDu u { s.dus[u] with run := some (routeFail s req none 0) }) := by
  unfold reqStart
  split
  · omega
  · omega
  · omega
  · rfl

end

/-- A COMMIT or CANCEL of an open entry closes it (R167). -/
theorem resolveStart_closes {s : State} {u : DuId} {req : DispReq} {e : Tentative} {commit : Bool}
    (hfind : findEntry s.dus[u] req.core (dispTable req.word) (BitVec.ofNat 16 (dispMbtag req.word)) = some e) :
    let t := resolveStart s u req commit
    ∃ x, (t.dus[u]).run = some x ∧ x.req = req ∧ x.status = 0#8 ∧ x.hits = (if commit then e.hits else 0#256) ∧
      (t.dus[u]).entries = (s.dus[u]).entries.erase e ∧ t.locals = s.locals := by
  intro t
  let mb := BitVec.ofNat 16 (dispMbtag req.word)
  let run : DispRun := { req := req, job := s.jobOf req.core, table := e.table, mbtag := mb, status := 0#8,
                         record := statusRecord 0 mb.toNat 0 0 0, hits := if commit then e.hits else 0#256 }
  let y := s.setDu u { s.dus[u] with run := some run, entries := (s.dus[u]).entries.erase e }
  have ht : t = sendMarkers y u ((s.jobOf req.core).getD 0) mb (if commit then 1 else 2) e.dests := by
    change resolveStart s u req commit = _
    unfold resolveStart
    dsimp only
    rw [hfind]
    rfl
  have hy : y.dus[u] = { s.dus[u] with run := some run, entries := (s.dus[u]).entries.erase e } := dus_setDu_self s u _
  obtain ⟨hdu, -, -, hlocals, -⟩ := sendMarkers_outs y u ((s.jobOf req.core).getD 0) mb (if commit then 1 else 2) e.dests
  rw [← ht] at hdu hlocals
  rw [hy] at hdu
  exact ⟨run, congrArg Dispatch.run hdu, rfl, rfl, rfl, congrArg Dispatch.entries hdu, hlocals⟩

end Sys2Proof.Machine
end

section
/-!
SETTLEMENT. The start and effect of a dispatch request (R43, R154 to R156, R159, R165, R167, R172).
-/

namespace Sys2Proof.Machine

/-! ### Writes of disjoint regions -/

/-- A memory after some writes. -/
def writeAll (m : Memory) (l : List (Nat × List Byte)) : Memory := l.foldl (fun m o => m.write o.1 o.2) m

/-- A byte lies outside a region. -/
def Outside (a : Nat) (o : Nat × List Byte) : Prop := a < o.1 ∨ o.1 + o.2.length ≤ a

theorem writeAll_get_outside {a : Nat} (l : List (Nat × List Byte)) {m : Memory} (hwf : Memory.wf m = true)
    (h : ∀ o ∈ l, Outside a o) : (writeAll m l).get a = m.get a := by
  induction l generalizing m with
  | nil => rfl
  | cons o l ih =>
    have hrest := ih (memory_write_wf o.2 m o.1 hwf) fun x hx => h x (List.mem_cons_of_mem o hx)
    exact hrest.trans (memory_get_write_outside o.2 m o.1 a hwf (h o List.mem_cons_self))

/-- Of writes of disjoint regions, each leaves its bytes. -/
theorem writeAll_get_inside (l : List (Nat × List Byte)) {m : Memory} (hwf : Memory.wf m = true)
    (hdis : l.Pairwise (fun a b => a.1 + a.2.length ≤ b.1 ∨ b.1 + b.2.length ≤ a.1)) :
    ∀ o ∈ l, ∀ i, (h : i < o.2.length) → (writeAll m l).get (o.1 + i) = o.2[i] := by
  induction l generalizing m with
  | nil => exact fun o ho => absurd ho List.not_mem_nil
  | cons x l ih =>
    obtain ⟨hx, hl⟩ := List.pairwise_cons.mp hdis
    have hwx := memory_write_wf x.2 m x.1 hwf
    intro o ho i hi
    obtain rfl | hmem := List.mem_cons.mp ho
    · have hout : ∀ y ∈ l, Outside (o.1 + i) y := by
        intro y hy
        have hxy := hx y hy
        unfold Outside
        omega
      exact (writeAll_get_outside l hwx hout).trans (memory_get_write_inside o.2 m o.1 i hwf hi)
    · exact ih hwx hl o hmem i hi

/-! ### The outputs of a request (R156, R159) -/

/-- The state after some writes of a scratchpad with nothing in their way. -/
def wroteAll (s : State) (c : CoreId) (l : List (Nat × List Byte)) : State := l.foldl (fun s o => wroteSp s c o.1 o.2) s

section
variable {s : State} {c : CoreId}

theorem wroteSp_beside (s : State) (c : CoreId) (off : Nat) (bs : List Byte) : Beside c s (wroteSp s c off bs) :=
  beside_trans (setSp_beside s c _ (s.loc c).spErr (s.loc c).fixes).1 (beside_of_quiet c (wroteSp_quiet s c off bs))

theorem wroteAll_beside (l : List (Nat × List Byte)) (s : State) : Beside c s (wroteAll s c l) :=
  beside_foldl (fun s (o : Nat × List Byte) => wroteSp_beside s c o.1 o.2) l s

theorem wroteAll_cons (s : State) (o : Nat × List Byte) (l : List (Nat × List Byte)) :
    wroteAll s c (o :: l) = wroteAll (wroteSp s c o.1 o.2) c l := by
  unfold wroteAll
  rw [List.foldl_cons]

theorem wroteAll_sp (l : List (Nat × List Byte)) (s : State) :
    ((wroteAll s c l).loc c).sp = writeAll (s.loc c).sp l := by
  induction l generalizing s with
  | nil => rfl
  | cons o l ih =>
    rw [wroteAll_cons, ih, wroteSp_loc, writeAll, writeAll, List.foldl_cons]

theorem foldl_spWriteAny (job : Option Nat) (l : List (Nat × List Byte)) (h : ∀ o ∈ l, SpFree s c o.1 o.2.length) :
    l.foldl (fun s o => spWriteAny s c job o.1 o.2) s = wroteAll s c l := by
  induction l generalizing s with
  | nil => rw [wroteAll, List.foldl_nil, List.foldl_nil]
  | cons o l ih =>
    rw [List.foldl_cons, spWriteAny_free job (h o List.mem_cons_self), wroteAll_cons,
      ih fun x hx => spFree_wroteSp (h x (List.mem_cons_of_mem o hx))]

end

/-- What a request writes: its outputs, then its STATUS record. -/
def runWrites (x : DispRun) : List (Nat × List Byte) :=
  x.out ++ (match x.statusAt with | some a => [(a, x.record)] | none => [])

/-- The writes of a request that takes effect. -/
def runWritten (s : State) (x : DispRun) : State :=
  let s := x.out.foldl (fun s o => spWriteAny s x.req.core x.job o.1 o.2) s
  match x.statusAt with
  | some a => spWriteAny s x.req.core x.job a x.record
  | none => s

theorem runWritten_free {s : State} {x : DispRun} (h : ∀ o ∈ runWrites x, SpFree s x.req.core o.1 o.2.length) :
    runWritten s x = wroteAll s x.req.core (runWrites x) := by
  have hall := foldl_spWriteAny x.job (runWrites x) h
  rw [← hall]
  unfold runWritten runWrites
  rw [List.foldl_append]
  dsimp only
  split <;> rfl

/-! ### The effect of a request (R154, R170, R172) -/

/-- The state `t` differs from `s` at most in what an event touches and in the dispatch units. -/
def DuAside (s t : State) : Prop :=
  t = { s with tick := t.tick, ts := t.ts, regs := t.regs, host := t.host, rcl := t.rcl, net := t.net, links := t.links,
               dus := t.dus }

section
variable {s t v : State}

theorem duAside_trans (h : DuAside s t) (k : DuAside t v) : DuAside s v := by
  unfold DuAside at h k ⊢
  rw [k, h]

theorem duAside_of_quiet (h : Quiet s t) : DuAside s t := by
  unfold DuAside
  rw [h]

theorem DuAside.cores (h : DuAside s t) : t.cores = s.cores := by rw [h]
theorem DuAside.units (h : DuAside s t) : t.units = s.units := by rw [h]
theorem DuAside.locals (h : DuAside s t) : t.locals = s.locals := by rw [h]

end

section
variable (s : State) (u : DuId)

theorem orHits_quiet (t : Nat) (h : BitVec 256) : Quiet s (orHits s u t h) :=
  quiet_foldl (fun _ _ => State.orReg_quiet (quiet_refl _)) _ s

/-- What a request counts, without its last record (R156, R170). -/
def counted (x : DispRun) : State :=
  let b := duBase u
  let s := if fOp x.req.word = 0 then
      (((s.count (b + 0x30) 32 1).count (b + 0x38) 32 x.dropped).count (b + 0x40) 32 x.nexts).count (b + 0x48) 32 x.packets
    else s
  let s := if fOp x.req.word = 2 ∧ x.status = 0#8 then s.count (b + 0x50) 32 1 else s
  if x.tent then s else orHits s u x.table x.hits

theorem counted_quiet (x : DispRun) : Quiet s (counted s u x) := by
  have hroute : Quiet s (if fOp x.req.word = 0 then
      (((s.count (duBase u + 0x30) 32 1).count (duBase u + 0x38) 32 x.dropped).count (duBase u + 0x40) 32 x.nexts).count
        (duBase u + 0x48) 32 x.packets else s) := by
    split
    · exact State.count_quiet (State.count_quiet (State.count_quiet (State.count_quiet (quiet_refl s))))
    · exact quiet_refl s
  unfold counted
  dsimp only
  refine quiet_trans hroute ?_
  generalize (if fOp x.req.word = 0 then _ else s) = y
  have hcancel : Quiet y (if fOp x.req.word = 2 ∧ x.status = 0#8 then y.count (duBase u + 0x50) 32 1 else y) := by
    split
    · exact State.count_quiet (quiet_refl y)
    · exact quiet_refl y
  split
  · exact hcancel
  · exact quiet_trans hcancel (orHits_quiet _ u _ _)

/-- A unit with another last request of a core (R172). -/
def lastSet (k : Dispatch) (i : Fin 24) (l : DispLast) : Dispatch := { k with last := k.last.set i l }

/-- The record that STAT reads of the request (R172). -/
def recorded (x : DispRun) : State :=
  if fOp x.req.word = 3 then s
  else
    match fin? 24 (x.req.core.val % 24) with
    | none => s
    | some i => s.setDu u (lastSet s.dus[u] i { status := x.status, op := BitVec.ofNat 8 (fOp x.req.word), mbtag := x.mbtag })

theorem countRun_eq (x : DispRun) : countRun s u x = recorded (counted s u x) u x := rfl

theorem recorded_frame (x : DispRun) : DuAside s (recorded s u x) ∧
    (recorded s u x).dus[u] = { s.dus[u] with last := ((recorded s u x).dus[u]).last } := by
  unfold recorded
  split
  · exact ⟨rfl, rfl⟩
  · split
    · exact ⟨rfl, rfl⟩
    · exact ⟨rfl, by rw [dus_setDu_self]; rfl⟩

theorem countRun_frame (x : DispRun) : DuAside s (countRun s u x) ∧
    (countRun s u x).dus[u] = { s.dus[u] with last := ((countRun s u x).dus[u]).last } := by
  obtain ⟨hframe, hdu⟩ := recorded_frame (counted s u x) u x
  have hq := counted_quiet s u x
  rw [countRun_eq]
  refine ⟨duAside_trans (duAside_of_quiet hq) hframe, ?_⟩
  rw [hdu, hq.dus]

/-- The unit without a request that has taken effect. -/
def withoutRun (k : Dispatch) (x : DispRun) : Dispatch :=
  if k.run = some x then { k with run := none } else { k with stuck := k.stuck.erase x }

/-- The unit without a request that has taken effect, which has disabled a table or not. -/
def goneDu (k : Dispatch) (x : DispRun) (off : Bool) : Dispatch :=
  if off then { withoutRun k x with disabling := clrBit (withoutRun k x).disabling x.table } else withoutRun k x

theorem runGone_eq (x : DispRun) : runGone s u x =
    let off := ranRoute x && bit (s.dus[u]).disabling x.table
    let t := s.setDu u (goneDu s.dus[u] x off)
    if off then t.wr (duBase u + 0x18) (clrBit (t.rd (duBase u + 0x18)) x.table) else t := rfl

theorem goneDu_frame (k : Dispatch) (x : DispRun) (off : Bool) :
    goneDu k x off = { withoutRun k x with disabling := (goneDu k x off).disabling } := by
  unfold goneDu
  split <;> rfl

theorem runGone_frame (x : DispRun) : DuAside s (runGone s u x) ∧
    (runGone s u x).dus[u] = { withoutRun s.dus[u] x with disabling := ((runGone s u x).dus[u]).disabling } := by
  rw [runGone_eq]
  dsimp only
  generalize (ranRoute x && bit (s.dus[u]).disabling x.table) = off
  have hset : DuAside s (s.setDu u (goneDu s.dus[u] x off)) := rfl
  have hself := dus_setDu_self s u (goneDu s.dus[u] x off)
  have hquiet : Quiet (s.setDu u (goneDu s.dus[u] x off)) (if off = true then
      (s.setDu u (goneDu s.dus[u] x off)).wr (duBase u + 0x18)
        (clrBit ((s.setDu u (goneDu s.dus[u] x off)).rd (duBase u + 0x18)) x.table)
      else s.setDu u (goneDu s.dus[u] x off)) := by
    split
    · exact State.wr_quiet (quiet_refl _)
    · exact quiet_refl _
  refine ⟨duAside_trans hset (duAside_of_quiet hquiet), ?_⟩
  rw [hquiet.dus, hself]
  exact goneDu_frame _ x off

theorem runEvents_quiet (x : DispRun) : Quiet s (runEvents s u x) := by
  have hnan : Quiet s (if x.nan ∧ x.status ≠ 1#8 then
      s.raise (0x3103 + 8 * u.val) u.val 0 x.job (leNat (x.record.take 8)) x.req.core.val else s) := by
    split
    · exact State.raise_quiet (quiet_refl s)
    · exact quiet_refl s
  unfold runEvents
  dsimp only
  refine quiet_trans hnan ?_
  generalize (if x.nan ∧ x.status ≠ 1#8 then _ else s) = y
  have hdrop : Quiet y (if x.dropped ≠ 0 then
      y.raise (0x3104 + 8 * u.val) u.val 0 x.job (leNat (x.record.take 8)) x.req.core.val else y) := by
    split
    · exact State.raise_quiet (quiet_refl y)
    · exact quiet_refl y
  split
  · exact State.raise_quiet hdrop
  · exact hdrop

end

/-- The word that STAT writes to SD, where the request is one (R172). -/
def statSet (s : State) (u : DuId) (x : DispRun) : State :=
  if fOp x.req.word = 3 then
    s.setCore x.req.core ((s.core x.req.core).sset (dispSd x.req.word) (dispStatWord s.dus[u] x.req.core))
  else s

/-- The effect of a request up to its leaving of the fabric queue. -/
def runTook (s : State) (u : DuId) (x : DispRun) : State :=
  runEvents (runGone (countRun (statSet (runWritten s x) u x) u x) u x) u x

theorem statSet_frame (s : State) (u : DuId) (x : DispRun) :
    statSet s u x = { s with cores := (statSet s u x).cores } ∧
    (statSet s u x).core x.req.core = { s.core x.req.core with sreg := (if fOp x.req.word = 3 then
      (s.core x.req.core).sset (dispSd x.req.word) (dispStatWord s.dus[u] x.req.core) else s.core x.req.core).sreg } := by
  unfold statSet
  split
  · refine ⟨rfl, ?_⟩
    rw [State.core_setCore_self]
    exact Core.sset_eq _ _ _
  · exact ⟨rfl, rfl⟩

/-- A request that leaves nothing behind: all that follows its writes and its SD. -/
theorem runTook_frame (s : State) (u : DuId) (x : DispRun) :
    let w := statSet (runWritten s x) u x
    DuAside w (runTook s u x) ∧ ∃ l off, (runTook s u x).dus[u] = { withoutRun (w.dus[u]) x with last := l, disabling := off } := by
  intro w
  obtain ⟨hcount, hlast⟩ := countRun_frame w u x
  obtain ⟨hgone, hrun⟩ := runGone_frame (countRun w u x) u x
  have hev := runEvents_quiet (runGone (countRun w u x) u x) u x
  refine ⟨duAside_trans hcount (duAside_trans hgone (duAside_of_quiet hev)), ((countRun w u x).dus[u]).last,
    ((runGone (countRun w u x) u x).dus[u]).disabling, ?_⟩
  unfold runTook
  rw [hev.dus, hrun, hlast]
  unfold withoutRun
  dsimp only
  split <;> rfl

/-- A unit whose next request to take effect is a plain one. -/
theorem dispatchEffect_plain {s : State} {u : DuId} {x : DispRun} (hon : s.domainOn (48 + u.val) = true)
    (houts : (s.dus[u]).outs = []) (hnext : effectRun s.dus[u] = some x) (htent : x.tent = false) :
    dispatchEffect s u = wake ((runTook s u x).setUnit x.req.core { (runTook s u x).unit x.req.core with fab := none })
      x.req.core := by
  unfold dispatchEffect
  dsimp only
  rw [duFlush_empty houts, hnext]
  dsimp only
  rw [hon, htent]
  rfl

theorem outsLeft_empty {k : Dispatch} (h : k.outs = []) (x : DispRun) : outsLeft k x = false := by
  unfold outsLeft
  rw [h]
  rfl

/-- Of a unit that holds no cells, the oldest request set aside takes effect, or else the one that runs; it leaves the unit. -/
theorem effectRun_next {k : Dispatch} {x : DispRun} (houts : k.outs = [])
    (h : (k.stuck = [] ∧ k.run = some x) ∨ ∃ rest, k.stuck = x :: rest ∧ k.run ≠ some x) :
    effectRun k = some x ∧ (withoutRun k x).stuck = k.stuck.tail ∧
    (withoutRun k x).run = (if k.stuck = [] then none else k.run) ∧ (withoutRun k x).entries = k.entries := by
  unfold effectRun withoutRun
  obtain ⟨hstuck, hrun⟩ | ⟨rest, hstuck, hrun⟩ := h
  · rw [hstuck, hrun, if_pos rfl]
    exact ⟨List.find?_cons_of_pos (by rw [outsLeft_empty houts]; rfl), rfl, rfl, rfl⟩
  · rw [hstuck, if_neg hrun]
    refine ⟨List.find?_cons_of_pos (by rw [outsLeft_empty houts]; rfl), List.erase_cons_head x rest, ?_, rfl⟩
    rw [if_neg (List.cons_ne_nil x rest)]

theorem Beside.dus {c : CoreId} {s t : State} (h : Beside c s t) : t.dus = s.dus := by rw [h.1]

theorem exec_dispatchRequestStart (s : State) (u : DuId) (us : List Upset) :
    exec (.dispatchRequestStart u us) s = dispatchStart (strike s us) u := rfl

theorem exec_dispatchRequestEffect (s : State) (u : DuId) (us : List Upset) :
    exec (.dispatchRequestEffect u us) s = .next (dispatchEffect (strike s us) u) := rfl

/-- The effect of a request that has nothing to send (R154, R156, R159, R172). -/
theorem dispatchEffect_result {r : State} {u : DuId} {x : DispRun} (hon : r.domainOn (48 + u.val) = true)
    (hk : ((r.dus[u]).stuck = [] ∧ (r.dus[u]).run = some x) ∨ ∃ rest, (r.dus[u]).stuck = x :: rest ∧ (r.dus[u]).run ≠ some x)
    (houts : (r.dus[u]).outs = []) (htent : x.tent = false) (hfree : RunsFree r x.req.core)
    (hsp : ∀ o ∈ runWrites x, SpFree r x.req.core o.1 o.2.length) :
    let c := x.req.core
    let t := dispatchEffect r u
    (t.dus[u]).stuck = (r.dus[u]).stuck.tail ∧
    (t.dus[u]).run = (if (r.dus[u]).stuck = [] then none else (r.dus[u]).run) ∧ (t.dus[u]).entries = (r.dus[u]).entries ∧
    (t.unit c).fab = none ∧ (t.loc c).sp = writeAll (r.loc c).sp (runWrites x) ∧ (∀ d, d ≠ c → t.loc d = r.loc d) ∧
    (t.core c).sreg = (if fOp x.req.word = 3 then (r.core c).sset (dispSd x.req.word) (dispStatWord r.dus[u] c)
      else r.core c).sreg ∧ (t.core c).pc = (r.core c).pc := by
  intro c t
  obtain ⟨hnext, hstuck, hrun, hentries⟩ := effectRun_next houts hk
  have hwritten := runWritten_free hsp
  have hbeside : Beside c r (runWritten r x) := by
    rw [hwritten]
    exact wroteAll_beside _ r
  obtain ⟨hstat, hcore⟩ := statSet_frame (runWritten r x) u x
  obtain ⟨hframe, l, off, hdu⟩ := runTook_frame r u x
  have hdus : (statSet (runWritten r x) u x).dus = r.dus := by rw [hstat]; exact hbeside.dus
  have hlocals : (runTook r u x).locals = (runWritten r x).locals := by rw [hframe.locals, hstat]
  rw [hdus] at hdu
  rw [hbeside.core, hbeside.dus] at hcore
  have hcore' : (runTook r u x).core c = { r.core c with sreg := (if fOp x.req.word = 3 then
      (r.core c).sset (dispSd x.req.word) (dispStatWord r.dus[u] c) else r.core c).sreg } := by
    rw [State.core, hframe.cores]
    exact hcore
  let y := (runTook r u x).setUnit c { (runTook r u x).unit c with fab := none }
  have ht : t = y := by
    have hwake : RunsFree y c := by
      unfold RunsFree
      rw [State.core_setUnit, hcore']
      exact hfree
    change dispatchEffect r u = y
    rw [dispatchEffect_plain hon houts hnext htent]
    exact wake_running hwake.1 hwake.2
  have hydu : y.dus[u] = { withoutRun r.dus[u] x with last := l, disabling := off } := hdu
  have hyloc (d : CoreId) : y.loc d = (runWritten r x).loc d := by
    change (runTook r u x).locals[d] = _
    rw [hlocals]
    rfl
  have hycore : y.core c = (runTook r u x).core c := rfl
  rw [ht]
  refine ⟨?_, ?_, ?_, by rw [State.unit_setUnit_self], ?_, fun d hd => ?_, ?_, ?_⟩
  · rw [hydu]; exact hstuck
  · rw [hydu]; exact hrun
  · rw [hydu]; exact hentries
  · rw [hyloc, hwritten]
    exact wroteAll_sp _ r
  · rw [hyloc]
    exact hbeside.2.2 d hd
  · rw [hycore, hcore']
  · rw [hycore, hcore']

/-- Settles O28. A start takes the request out of its unit (`takenReq`) and leaves a run; an effect writes the run's regions
(`writeAll`), which do not overlap. -/
theorem dispatchRequestResult : Obligations.DispatchRequestResult := by
  unfold Obligations.DispatchRequestResult
  intro u us s r k hon
  refine ⟨fun x hrun houts => ?_, fun req hidle hnext => ?_, fun x hk houts htent hfree hmem => ?_⟩
  · exact dispatchStart_busy hon hrun houts
  · intro c w q
    have hstart : exec (.dispatchRequestStart u us) s = reqStart q u req := by
      rw [exec_dispatchRequestStart, dispatchStart_idle hon hidle]
      exact requestStart_takes hon hidle hnext
    have hdu : q.dus[u] = { k with waiting := k.waiting.erase req, rr := c.val % 24 } := dus_setDu_self r u _
    refine ⟨?_, fun e hop hfind => ?_, fun hop => ?_⟩
    · intro q0 q'' d0 scores hop hdpb d q' hcheck
      have hroute := reqStart_route (s := q) hop hdpb hcheck
      rw [hstart, hroute]
      refine ⟨fun hover => if_pos hover, fun hover hscores => ?_⟩
      intro es cs
      obtain ⟨x, hrun, hreq, hout, hat, htent, hhits, hcores⟩ := routeWork_run q'' u req d scores
      refine ⟨routeWork q'' u req d scores, x, ?_, hrun, hreq, hout, hat, htent, fun e => ?_, ?_⟩
      · rw [if_neg (by rw [hover]; decide), hscores]
        rfl
      · rw [hhits]
        exact getLsbD_hitsOf _ e
      · have hread := readDpb_cores q c (snapGet req.s (dispSp w)).toNat
        rw [hdpb] at hread
        have hscored := readScores_cores q' c d
        rw [hscores] at hscored
        exact hcores.trans (hscored.trans ((geckoRegions_quiet q0 u c (some d)).cores.trans hread))
    · have hfind' : findEntry q.dus[u] req.core (dispTable req.word) (BitVec.ofNat 16 (dispMbtag req.word)) = some e := by
        rw [hdu]
        exact hfind
      obtain ⟨x, hrun, hreq, hstatus, hhits, hentries, hlocals⟩ :=
        resolveStart_closes (commit := decide (fOp req.word = 1)) hfind'
      refine ⟨_, x, hstart.trans (reqStart_resolve hop), hrun, hreq, hstatus, ?_, ?_, hlocals⟩
      · rw [hhits]
        simp only [decide_eq_true_eq]
        rfl
      · rw [hentries, hdu]
    · exact ⟨_, _, hstart.trans (reqStart_other hop), by rw [dus_setDu_self], rfl, by rw [dus_setDu_self, hdu], rfl, rfl⟩
  · intro c all hsp hdis
    obtain ⟨-, -, hwf, -⟩ := hmem
    obtain ⟨hstuck, hrun, hentries, hfab, hmemory, hlocs, hsreg, hpc⟩ :=
      dispatchEffect_result hon hk houts htent hfree hsp
    refine ⟨dispatchEffect r u, exec_dispatchRequestEffect s u us, hstuck, hrun, hfab, fun o ho i hi => ?_, fun a ha => ?_, hsreg,
      hpc, hentries, hlocs⟩
    · rw [hmemory]
      exact writeAll_get_inside _ (hwf c) hdis o ho i hi
    · rw [hmemory]
      exact writeAll_get_outside _ (hwf c) ha

end Sys2Proof.Machine
end

section
/-!
SUPPORT. The registers of a core that an event leaves as they were (R8, R322): it writes its own status register, and besides
that registers of no core.
-/

namespace Sys2Proof.Machine

section
variable {a : Nat} (ha : 0x1000000 ≤ a)
include ha

theorem State.evtLost_rd (s : State) : s.evtLost.rd a = s.rd a := by
  have hstatus : (s.now.2.orReg 0x20 1#64).rd a = s.rd a := State.rd_wr_other _ _ _ _ (by omega)
  unfold State.evtLost
  split
  · rfl
  · dsimp only
    split
    · exact hstatus
    · rw [State.rd, State.putRecord_regs]
      exact hstatus

theorem State.evtRecord_rd (s : State) (bs : List Byte) : (s.evtRecord bs).rd a = s.rd a := by
  refine Eq.trans ?_ (State.evtLost_rd ha s)
  unfold State.evtRecord
  dsimp only
  split
  · rw [State.rd, State.putRecord_regs]
    rfl
  · exact State.rd_wr_other _ _ _ _ (by unfold ringBase; omega)

theorem State.record_rd (s : State) {code inst sub : Nat} (hne : a ≠ (evtReg code inst sub).2.1) (job dev : Option Nat)
    (a0 a1 : Nat) : (s.record code inst sub job dev a0 a1).rd a = s.rd a := by
  have hstatus : (s.orReg (evtReg code inst sub).2.1 (BitVec.ofNat 64 (2 ^ (evtReg code inst sub).2.2))).rd a = s.rd a :=
    State.rd_wr_other s _ a _ hne
  unfold State.record
  dsimp only
  split
  · exact hstatus
  · exact (State.evtRecord_rd ha _ _).trans hstatus

theorem unreachable_rd (s : State) (job : Option Nat) (dst : Nat) (p : Pkt) : (unreachable s job dst p).rd a = s.rd a := by
  refine State.record_rd ha s ?_ _ _ _ _
  have hplace : (evtReg 0x6102 0 0).2.1 = 0x50060 := by decide
  omega

theorem sendSync_rd (s : State) (job dst rsp : Nat) (tf : List Byte) (excl : List Nat) :
    (sendSync s job dst rsp tf excl).1.rd a = s.rd a := by
  unfold sendSync
  dsimp only
  split
  · rfl
  · have hregs := sendPkt_regs s 0 (6 + rsp) job dst (mkPkt s 9 3 rsp job dst 0 tf (syncData excl)) none
    split
    · next t h =>
      rw [h] at hregs
      rw [State.rd, hregs, State.rd]
    · next t h =>
      rw [h] at hregs
      rw [unreachable_rd ha, State.rd, hregs, State.rd]

theorem State.failStep_rd (s : State) (job : Option Nat) : (s.failStep job).rd a = s.rd a := by
  unfold State.failStep
  split
  · rfl
  · dsimp only
    split
    · rfl
    · split
      · rfl
      · split
        · rfl
        · exact sendSync_rd ha _ _ _ _ _ _

/-- An event writes its own status register and no other of a core. -/
theorem State.raise_rd (s : State) {code inst sub : Nat} (hne : a ≠ (evtReg code inst sub).2.1) (job : Option Nat)
    (a0 a1 : Nat) : (s.raise code inst sub job a0 a1).rd a = s.rd a := by
  have hrec := State.record_rd ha s hne job none a0 a1
  unfold State.raise State.raiseIf State.raiseDev
  dsimp only
  split
  · exact (State.failStep_rd ha _ job).trans hrec
  · exact hrec

end

end Sys2Proof.Machine
end

section
/-!
SETTLEMENT. The completion of a matrix pass (R67, R68, R79, R86, R89, R227): its drain writes its outputs, its counters and
events touch no storage, and its slot actions follow.
-/

namespace Sys2Proof.Machine

/-! ### Drains with nothing in their way (R79, R226, R233, R236) -/

section
variable {s : State} {c : CoreId}

theorem spShut_free {o : Nat × Nat} (h : SpFree s c o.1 o.2) : spShut s c o = false := by
  obtain ⟨hgecko, hbank, -⟩ := h
  unfold spShut
  rw [hgecko, hbank]
  rfl

theorem allowAll_free {l : List (Nat × Nat)} (h : ∀ o ∈ l, SpFree s c o.1 o.2) : allowAll s c l = (s, true) := by
  have hnone : l.filter (spShut s c) = [] :=
    List.filter_eq_nil_iff.mpr fun o ho => by rw [spShut_free (h o ho)]; exact Bool.false_ne_true
  unfold allowAll
  rw [hnone]
  rfl

theorem eccAll_free {l : List (Nat × Nat)} (h : ∀ o ∈ l, SpFree s c o.1 o.2) : eccAll s c l = (s, true) := by
  have hnone : (s.loc c).spErr.filter (fun e => l.any (fun r => r.1 < e.1 + 8 && e.1 < r.1 + r.2)) = [] := by
    refine List.filter_eq_nil_iff.mpr fun e he hany => ?_
    obtain ⟨o, ho, hmark⟩ := List.any_eq_true.mp hany
    obtain ⟨-, -, hclean⟩ := h o ho
    exact List.filter_eq_nil_iff.mp hclean e he hmark
  unfold eccAll
  rw [hnone]
  rfl

theorem foldl_spMerge (l : List (Nat × List Byte)) (h : ∀ o ∈ l, SpFree s c o.1 o.2.length) :
    l.foldl (fun s o => (spMerge s c (s.jobOf c) o.1 o.2).1) s = wroteAll s c l := by
  induction l generalizing s with
  | nil => rw [wroteAll, List.foldl_nil, List.foldl_nil]
  | cons o l ih =>
    obtain ⟨-, -, hclean⟩ := h o List.mem_cons_self
    rw [List.foldl_cons, spMerge_clean _ hclean, wroteAll_cons,
      ih fun x hx => spFree_wroteSp (h x (List.mem_cons_of_mem o hx))]

theorem wroteAll_besideGddr (l : List (Nat × List Byte)) (s : State) : BesideGddr c s (wroteAll s c l) :=
  besideGddr_foldl (fun s (o : Nat × List Byte) => besideGddr_trans (setSp_beside s c _ (s.loc c).spErr (s.loc c).fixes)
    (besideGddr_of_quiet c (wroteSp_quiet s c o.1 o.2))) l s

variable (u : MuId) (x : PassRun)

/-- The output of a pass whose bytes are free: no lane has to be merged, and every byte is written. -/
theorem passWrite_free {out : List (Nat × List Byte)} (h : ∀ o ∈ out, SpFree s c o.1 o.2.length) :
    passWrite s c u x out = (wroteAll s c out, true) := by
  have hallow : allowAll s c (out.map (fun o => (o.1, o.2.length))) = (s, true) := by
    refine allowAll_free fun o ho => ?_
    obtain ⟨b, hb, rfl⟩ := List.mem_map.mp ho
    exact h b hb
  have hpart : out.flatMap (fun o => (spMarks s c o.1 o.2.length).filter (fun e => !laneWhole o.1 o.2.length e.1)) = [] := by
    refine List.flatMap_eq_nil_iff.mpr fun o ho => ?_
    obtain ⟨-, -, hclean⟩ := h o ho
    rw [hclean, List.filter_nil]
  unfold passWrite
  rw [hallow]
  dsimp only
  rw [hpart, foldl_spMerge out h]
  rfl

end

/-! ### Counters and events (R90, R91, R103, R105, R106, R121) -/

/-- A step that is no more than an event, taken or not. -/
theorem quiet_ite {s t : State} (b : Prop) [Decidable b] (h : Quiet s t) : Quiet s (if b then t else s) := by
  split
  · exact h
  · exact quiet_refl s

section
variable (s : State) (c : CoreId) (u : MuId) (x : PassRun)

theorem muLog_quiet (kind row col pc : Nat) (retried : Bool) : Quiet s (muLog s c u kind row col pc retried) :=
  State.wr_quiet (quiet_refl s)

theorem muEv_quiet (code : Nat) : Quiet s (muEv s c u code) := State.raise_quiet (quiet_refl s)

theorem passEv_quiet (code a0 pc : Nat) : Quiet s (passEv s c u code a0 pc) := State.raise_quiet (quiet_refl s)

theorem operandError_quiet : Quiet s (operandError s c u x) := quiet_trans (muLog_quiet s c u _ _ _ _ _) (muEv_quiet _ c u _)

theorem passCount_quiet (times : Nat) (fault : Bool) : Quiet s (passCount s c u x times fault) := by
  have hcounts (b i j k : Nat) : Quiet s
      (((s.fresh.2.count (b + 0x20) 64 i).count (b + 0x28) 64 j).count (b + 0x30) 64 k) :=
    State.count_quiet (State.count_quiet (State.count_quiet (State.fresh_quiet (quiet_refl s))))
  unfold passCount
  dsimp only
  split
  · exact State.count_quiet (hcounts _ _ _ _)
  · exact hcounts _ _ _ _

theorem passFlags_quiet (ds : List Drained) : Quiet s (passFlags s c u x ds) := by
  have hcount (s : State) (a : Nat) : Quiet s (s.count a 32 1) := State.count_quiet (quiet_refl s)
  unfold passFlags
  dsimp only
  exact quiet_trans (quiet_ite _ (hcount s _)) (quiet_trans
    (quiet_ite _ (quiet_trans (hcount _ _) (passEv_quiet _ c u 0x3005 0 _)))
    (quiet_trans (quiet_ite _ (passEv_quiet _ c u 0x3006 0 _)) (quiet_ite _ (passEv_quiet _ c u 0x3007 0 _))))

/-- The drain of a pass with nothing in its way writes its outputs, and besides that does no more than an event. -/
theorem passFinish_free (times : Nat) (hreads : ∀ o ∈ drainReads x.entry.word x.ppb, SpFree s c o.1 o.2)
    (hout : ∀ o ∈ passOut x (s.loc c).sp, SpFree s c o.1 o.2.length) :
    Quiet (wroteAll s c (passOut x (s.loc c).sp)) (passFinish s c u x times) := by
  have hwrite : passWrite s c u x ((passDrain x (s.loc c).sp).filterMap (·.1)) =
    (wroteAll s c (passOut x (s.loc c).sp), true) := passWrite_free u x hout
  unfold passFinish
  dsimp only
  rw [allowAll_free hreads]
  dsimp only
  rw [eccAll_free hreads]
  dsimp only
  rw [hwrite]
  exact quiet_trans (passCount_quiet _ c u x _ _) (passFlags_quiet _ c u x _)

end

/-! ### Slot actions (R68, R227) -/

/-- A guard that a pass releases or not. -/
def releaseSlot (s : State) (c : CoreId) (g : Nat) (b : Bool) : State := if b then setGuard s c g false else s

/-- The guard of the C slot of a pass, where it names one. -/
def fillSlot (s : State) (c : CoreId) (o : Option Nat) : State :=
  match o with
  | some g => setGuard s c g true
  | none => s

theorem passSlots_eq (s : State) (c : CoreId) (x : PassRun) : passSlots s c x =
    fillSlot (releaseSlot (releaseSlot s c (mSlota x.entry.word) (mArel x.entry.word)) c (mSlotb x.entry.word)
      (mBrel x.entry.word)) c x.slotc := rfl

/-- Cores, units, module memory and the bytes of the scratchpad of `c` are as they were. -/
def SlotStill (c : CoreId) (s t : State) : Prop :=
  t.cores = s.cores ∧ t.units = s.units ∧ t.gddr = s.gddr ∧ (t.loc c).sp = (s.loc c).sp

section
variable {s t v : State} {c : CoreId}

theorem slotStill_refl (c : CoreId) (s : State) : SlotStill c s s := ⟨rfl, rfl, rfl, rfl⟩

theorem slotStill_trans (h : SlotStill c s t) (k : SlotStill c t v) : SlotStill c s v := by
  obtain ⟨hcores, hunits, hgddr, hsp⟩ := h
  obtain ⟨kcores, kunits, kgddr, ksp⟩ := k
  exact ⟨kcores.trans hcores, kunits.trans hunits, kgddr.trans hgddr, ksp.trans hsp⟩

theorem setGuard_still (s : State) (c : CoreId) (g : Nat) (f : Bool) : SlotStill c s (setGuard s c g f) := by
  obtain ⟨hcores, hunits, -, hgddr, -, -, -, hloc, -⟩ := setGuard_frame s c g f
  exact ⟨hcores, hunits, hgddr, by rw [hloc]⟩

theorem releaseSlot_still (s : State) (c : CoreId) (g : Nat) (b : Bool) : SlotStill c s (releaseSlot s c g b) := by
  cases b with
  | false => exact slotStill_refl c s
  | true => exact setGuard_still s c g false

theorem fillSlot_still (s : State) (c : CoreId) (o : Option Nat) : SlotStill c s (fillSlot s c o) := by
  cases o with
  | none => exact slotStill_refl c s
  | some g => exact setGuard_still s c g true

theorem passSlots_still (s : State) (c : CoreId) (x : PassRun) : SlotStill c s (passSlots s c x) :=
  slotStill_trans (releaseSlot_still s c _ _) (slotStill_trans (releaseSlot_still _ c _ _) (fillSlot_still _ c _))

theorem guardFilled_releaseSlot_self (s : State) (c : CoreId) {g : Nat} (h : g < 4096) :
    guardFilled (releaseSlot s c g true) c g = false := guardFilled_setGuard_self s c false h

/-- A guard that is DRAINED stays so when another, or the same, is released. -/
theorem guardFilled_releaseSlot_drained {i g : Nat} (b : Bool) (hg : g < 4096) (h : guardFilled s c i = false) :
    guardFilled (releaseSlot s c g b) c i = false := by
  cases b with
  | false => exact h
  | true =>
    by_cases hi : i = g
    · subst hi
      exact guardFilled_releaseSlot_self s c hg
    · exact (guardFilled_setGuard_other s c false hi).trans h

theorem guardFilled_fillSlot_other {o : Option Nat} {i : Nat} (h : o ≠ some i) :
    guardFilled (fillSlot s c o) c i = guardFilled s c i := by
  cases o with
  | none => rfl
  | some g => exact guardFilled_setGuard_other s c true fun hi => h (congrArg some hi.symm)

/-- The guards after the slot actions of a pass: the C slot is FILLED, and what else it releases is DRAINED. -/
theorem passSlots_guards (s : State) (c : CoreId) (x : PassRun) :
    (∀ g, x.slotc = some g → g < 4096 → guardFilled (passSlots s c x) c g = true) ∧
    (x.slotc ≠ some (mSlota x.entry.word) → mArel x.entry.word = true →
      guardFilled (passSlots s c x) c (mSlota x.entry.word) = false) ∧
    (x.slotc ≠ some (mSlotb x.entry.word) → mBrel x.entry.word = true →
      guardFilled (passSlots s c x) c (mSlotb x.entry.word) = false) := by
  have ha : mSlota x.entry.word < 4096 := fld_lt _ 96 12
  have hb : mSlotb x.entry.word < 4096 := fld_lt _ 108 12
  rw [passSlots_eq]
  refine ⟨fun g hslot hg => ?_, fun hslot hrel => ?_, fun hslot hrel => ?_⟩
  · rw [hslot]
    exact guardFilled_setGuard_self _ c true hg
  · rw [guardFilled_fillSlot_other hslot, hrel]
    exact guardFilled_releaseSlot_drained _ hb (guardFilled_releaseSlot_self s c ha)
  · rw [guardFilled_fillSlot_other hslot, hrel]
    exact guardFilled_releaseSlot_self _ c hb

end

/-! ### The ways in which a pass completes (R86, R89) -/

/-- The oldest started pass has left its unit, with `rest` behind it. -/
def passLeft (s : State) (c : CoreId) (u : MuId) (rest : List PassRun) : State :=
  s.setUnit c { s.unit c with mu := (s.unit c).mu.set u { (s.unit c).mu[u] with runs := rest } }

section
variable {s : State} {c : CoreId} {u : MuId} {x : PassRun} {rest : List PassRun} {f : CheckFault}

theorem passLeft_runs : (((passLeft s c u rest).unit c).mu[u]).runs = rest := by
  unfold passLeft
  rw [State.unit_setUnit_self]
  exact congrArg Mu.runs (Vector.getElem_set_self _)

variable (hruns : ((s.unit c).mu[u]).runs = x :: rest)
include hruns

theorem passComplete_checked (hend : x.ending = .normal) (hchecks : passChecks s c u x f.first = none) :
    passComplete s c u f = passSlots (passFinish (passLeft s c u rest) c u x 1) c x := by
  have hleft : passChecks (passLeft s c u rest) c u x f.first = none := hchecks
  unfold passComplete
  dsimp only
  rw [hruns]
  dsimp only
  rw [hend]
  unfold passLeft at hleft ⊢
  dsimp only
  rw [hleft]

/-- A pass whose check fails, of a unit with retry off, does no more than an event before its slot actions: the events leave
the register that holds the retry bit alone. -/
theorem passComplete_failed {pl : Nat × Nat} (hend : x.ending = .normal) (hchecks : passChecks s c u x f.first = some pl)
    (hretry : bit (s.rd (muBase c u)) 1 = false) :
    ∃ y, Quiet (passLeft s c u rest) y ∧ passComplete s c u f = passSlots y c x := by
  let q := passLeft s c u rest
  let l := muLog q c u 1 pl.1 pl.2 x.entry.pc false
  let e := muEv l c u 0x2000
  have hleft : passChecks (passLeft s c u rest) c u x f.first = some pl := hchecks
  have hplace : muBase c u ≠ (evtReg 0x2000 c.val u.val).2.1 := by
    change muBase c u ≠ coreBase c + 0x1050 + 0x1000 * u.val
    unfold muBase
    omega
  have hlog : l.rd (muBase c u) = s.rd (muBase c u) := State.rd_wr_other q _ _ _ (by omega)
  have hrd : e.rd (muBase c u) = s.rd (muBase c u) :=
    (State.raise_rd (by unfold muBase coreBase; omega) l hplace _ _ _).trans hlog
  have hoff : (!bit (e.rd (muBase c u)) 1) = true := by
    rw [hrd, hretry]
    rfl
  have hquiet : Quiet q e := quiet_trans (muLog_quiet q c u _ _ _ _ _) (muEv_quiet l c u 0x2000)
  refine ⟨passCount (muEv e c u 0x2002) c u x 1 true,
    quiet_trans hquiet (quiet_trans (muEv_quiet e c u 0x2002) (passCount_quiet _ c u x 1 true)), ?_⟩
  unfold passComplete
  dsimp only
  rw [hruns]
  dsimp only
  rw [hend]
  unfold passLeft at hleft
  dsimp only
  rw [hleft]
  exact if_pos hoff

/-- A pass that could not run does no more than an event before its slot actions. -/
theorem passComplete_unrun (hend : x.ending ≠ .normal) :
    ∃ y, Quiet (passLeft s c u rest) y ∧ passComplete s c u f = passSlots y c x := by
  have hcount := passCount_quiet (passLeft s c u rest) c u x 1 true
  have herror := quiet_trans (operandError_quiet (passLeft s c u rest) c u x) (passCount_quiet _ c u x 1 true)
  unfold passComplete
  dsimp only
  rw [hruns]
  dsimp only
  cases hx : x.ending with
  | normal => exact absurd hx hend
  | param => exact ⟨_, hcount, rfl⟩
  | denied => exact ⟨_, hcount, rfl⟩
  | badInfo => exact ⟨_, hcount, rfl⟩
  | operand => exact ⟨_, herror, rfl⟩

end

/-- The command in a core that runs and waits for nothing: what has completed the pass changes the scratchpad at most, and the
slot actions are the end. -/
theorem passComplete_ends {s : State} {c : CoreId} {u : MuId} {us : List Upset} {f : CheckFault} {x : PassRun}
    {rest : List PassRun} {y : State} (hrun : RunsFree (strike s us) c) (hheld : (strike s us).power.held = false)
    (hy : BesideGddr c (passLeft (strike s us) c u rest) y) (hdone : passComplete (strike s us) c u f = passSlots y c x) :
    let t := passSlots y c x
    exec (.passComplete c u f us) s = .next t ∧ ((t.unit c).mu[u]).runs = rest ∧ t.cores = (strike s us).cores ∧
      t.gddr = (strike s us).gddr ∧ (t.loc c).sp = (y.loc c).sp := by
  intro t
  obtain ⟨hbeside, hgddr, -⟩ := hy
  obtain ⟨tcores, tunits, tgddr, tsp⟩ := passSlots_still y c x
  have hcores : t.cores = (strike s us).cores := tcores.trans hbeside.cores
  have hunits : t.unit c = (passLeft (strike s us) c u rest).unit c := by
    rw [State.unit, tunits, hbeside.units]
    rfl
  have hfree : RunsFree t c := by
    unfold RunsFree State.core
    rw [hcores]
    exact hrun
  refine ⟨?_, by rw [hunits]; exact passLeft_runs, hcores, tgddr.trans hgddr, tsp⟩
  have hlive := live_of_struck (t := wake (passComplete (strike s us) c u f) c) hheld
  rw [hdone, wake_running hfree.1 hfree.2] at hlive
  refine congrArg Host.Outcome.next ?_
  rw [hdone, wake_running hfree.1 hfree.2]
  exact hlive

/-- Settles O23. A pass that passes its checks writes its outputs (`passFinish_free`), which do not overlap (`writeAll`); every
other way to complete leaves the scratchpad as it was (`passComplete_failed`, `passComplete_unrun`). -/
theorem passCompleteResult : Obligations.PassCompleteResult := by
  unfold Obligations.PassCompleteResult
  intro c u us s x rest f r w out ends hrunning hblocked hheld hruns hmem
  have hrun : RunsFree r c := ⟨hrunning, hblocked⟩
  have hstill : (∃ y, Quiet (passLeft r c u rest) y ∧ passComplete r c u f = passSlots y c x) →
      ends (fun t => (t.loc c).sp = (r.loc c).sp) := by
    rintro ⟨y, hquiet, hdone⟩
    obtain ⟨hexec, hrest, hcores, hgddr, hsp⟩ := passComplete_ends hrun hheld (besideGddr_of_quiet c hquiet) hdone
    have hloc : y.loc c = r.loc c := hquiet.loc c
    exact ⟨_, hexec, hrest, hcores, hgddr, hsp.trans (congrArg Local.sp hloc)⟩
  refine ⟨fun hend hchecks hreads hfree hdis => ?_, fun pl hend hchecks hretry => ?_, fun hend => ?_⟩
  · obtain ⟨-, -, hwf, -⟩ := hmem
    have hquiet : Quiet (wroteAll (passLeft r c u rest) c out) (passFinish (passLeft r c u rest) c u x 1) :=
      passFinish_free (passLeft r c u rest) c u x 1 hreads hfree
    have hbeside := besideGddr_trans (wroteAll_besideGddr out (passLeft r c u rest)) (besideGddr_of_quiet c hquiet)
    obtain ⟨hexec, hrest, hcores, hgddr, hsp⟩ :=
      passComplete_ends hrun hheld hbeside (passComplete_checked hruns hend hchecks)
    have hwrote : ((wroteAll (passLeft r c u rest) c out).loc c).sp = writeAll (r.loc c).sp out := wroteAll_sp out _
    have hmemory := hsp.trans ((congrArg Local.sp (hquiet.loc c)).trans hwrote)
    refine ⟨_, hexec, hrest, hcores, hgddr, fun o ho i hi => ?_, fun a ha => ?_, passSlots_guards _ c x⟩
    · rw [hmemory]
      exact writeAll_get_inside out (hwf c) (hdis.imp Or.inl) o ho i hi
    · rw [hmemory]
      exact writeAll_get_outside out (hwf c) ha
  · exact hstill (passComplete_failed hruns hend hchecks hretry)
  · exact hstill (passComplete_unrun hruns hend)

end Sys2Proof.Machine
end

section
/-!
PROOF. The quantiser (O17). VQUANT reads its entries, writes them back, and then writes VD and steps a counter set; the events
between touch no storage, so its effect is that of the three writes. VSTE is a write of VD after no more than an event.
-/

namespace Sys2Proof.Machine

/-! ### Writes after an event -/

section
variable {s t : State}

theorem Quiet.setLoc (h : Quiet s t) (c : CoreId) (k : Local) : Quiet (s.setLoc c k) (t.setLoc c k) := by
  unfold Quiet State.setLoc at *
  rw [h]

theorem Quiet.setCore (h : Quiet s t) (c : CoreId) (k : Core) : Quiet (s.setCore c k) (t.setCore c k) := by
  unfold Quiet State.setCore at *
  rw [h]

theorem Quiet.vset (h : Quiet s t) (c : CoreId) (i : Nat) (v : VReg) : Quiet (vset s c i v) (vset t c i v) := by
  unfold Machine.vset
  split
  · rw [h.core c]
    exact h.setCore c _
  · exact h

end

/-! ### The counter sets (R118) -/

/-- A counter set that has counted the 256 elements of one VQUANT, and those that saturated, were flushed or were not finite. -/
def QuantSet.counted (q : QuantSet) (sat ufl nonfin : Nat) : QuantSet :=
  { elem := BitVec.ofNat 64 (satAdd 64 q.elem.toNat 256), sat := BitVec.ofNat 64 (satAdd 64 q.sat.toNat sat)
    ufl := BitVec.ofNat 64 (satAdd 64 q.ufl.toNat ufl), nonfin := BitVec.ofNat 64 (satAdd 64 q.nonfin.toNat nonfin) }

/-- The counter set of a number as the model names it. -/
def setIx (n : Nat) : Fin 16 := ⟨n % 16, Nat.mod_lt _ (by decide)⟩

theorem setIx_eq_iff {n : Nat} (h : n < 16) (i : Fin 16) : setIx n = i ↔ i.val = n := by
  rw [Fin.ext_iff, eq_comm]
  exact Eq.congr_right (Nat.mod_eq_of_lt h)

/-- The state with one counter set stepped, its thresholds untested. -/
def setCounted (s : State) (c : CoreId) (set sat ufl nonfin : Nat) : State :=
  s.setLoc c { s.loc c with sets := (s.loc c).sets.set (setIx set) ((s.loc c).sets[setIx set].counted sat ufl nonfin) }

section
variable (s : State) (c : CoreId)

theorem numEv_quiet (code a0 pc : Nat) : Quiet s (numEv s c code a0 pc) := State.raise_quiet (quiet_refl s)

/-- An event after a status bit of its own. -/
theorem markedEv_quiet (a : Nat) (v : W64) (code a0 pc : Nat) : Quiet s (numEv (s.orReg a v) c code a0 pc) :=
  quiet_trans (State.orReg_quiet (quiet_refl s)) (numEv_quiet _ c code a0 pc)

/-- The thresholds of a counter set do no more than raise events. -/
theorem quantCount_quiet (pc set sat ufl nonfin : Nat) :
    Quiet (setCounted s c set sat ufl nonfin) (quantCount s c pc set sat ufl nonfin) := by
  unfold quantCount
  dsimp only
  exact quiet_trans (quiet_ite _ (markedEv_quiet _ c _ _ _ _ _)) (quiet_ite _ (markedEv_quiet _ c _ _ _ _ _))

end

theorem Quiet.setCounted {s t : State} (h : Quiet s t) (c : CoreId) (set sat ufl nonfin : Nat) :
    Quiet (setCounted s c set sat ufl nonfin) (setCounted t c set sat ufl nonfin) := by
  unfold Machine.setCounted
  rw [h.loc c]
  exact h.setLoc c _

/-- A write of a V register and a step of a counter set do not meet. -/
theorem setCounted_vset (s : State) (c : CoreId) (i : Nat) (v : VReg) (set sat ufl nonfin : Nat) :
    setCounted (vset s c i v) c set sat ufl nonfin = vset (setCounted s c set sat ufl nonfin) c i v := by
  unfold vset
  split <;> rfl

/-! ### The parts of VQUANT and VSTE (R98, R109 to R113) -/

/-- The zero point of a VQUANT or VSTE. -/
def quantZero (w : W128) : Int := if qZpq w then qZp w else 0

/-- The groups of a VQUANT, quantised. -/
def quantGroups (s : State) (c : CoreId) (w : W128) (es : List Nat) : List QGroup :=
  (List.range (256 / quantGsz w)).map (fun i =>
    quantGroup (vFmt2 w) (codeLevels (vFmt2 w) (cbGet s c (vAux w + entCb (getD es i 0))))
      ((((lanes 0 (vget s c (vVa w))).map (fun x => val32 (BitVec.ofNat 32 x))).drop (quantGsz w * i)).take (quantGsz w))
      (getD es i 0) (quantZero w) (qEmode w) (bit (s.rd (coreBase c + 0x3000)) 0))

/-- The entries that quantised groups write back. -/
def quantBytes (gs : List QGroup) : List Byte := gs.flatMap (fun q => leBytes 2 q.entry)

/-- VD with the codes of quantised groups in its named part. -/
def quantVd (w : W128) (vd : VReg) (gs : List QGroup) : VReg :=
  putBytes vd (qPlace w * (256 * fmtBits (vFmt2 w) / 8)) (256 * fmtBits (vFmt2 w) / 8)
    (lanesNat (fmtBits (vFmt2 w)) (gs.flatMap (·.codes)))

/-- A count over all groups of a VQUANT. -/
def quantSum (gs : List QGroup) (p : QGroup → Nat) : Nat := gs.foldl (fun a q => a + p q) 0

/-- The gradients of a VSTE (R115, R135). -/
def steReg (s : State) (c : CoreId) (w : W128) (es : List Nat) : VReg :=
  ofLanes 32 ((List.range 256).map (fun i =>
    (steOne (vFmt2 w) (codeLevels (vFmt2 w) (cbGet s c (vAux w + entCb (getD es (i / quantGsz w) 0))))
      (BitVec.ofNat 32 (lane 32 (vget s c (vVa w)) i)) (BitVec.ofNat 32 (lane 32 (vget s c (vVb w)) i))
      (entE (getD es (i / quantGsz w) 0)) (quantZero w) (qOut w)).toNat))

/-- The event of the first group of a VQUANT or VSTE that meets a slot of the other kind (R98). -/
def mismatchEv (s : State) (c : CoreId) (w : W128) (es : List Nat) (pc : Nat) : State :=
  match quantMismatch s c w es with
  | some i => numEv s c 0x3004 i pc
  | none => s

/-- The event of a VQUANT that met elements that are not finite (R113). -/
def nonfinEv (s : State) (c : CoreId) (w : W128) (pc n : Nat) : State :=
  if n = 0 then s
  else numEv (s.orReg (coreBase c + 0x3010) (BitVec.ofNat 64 (2 ^ (32 + qCset w)))) c 0x3002 (qCset w) pc

section
variable (s : State) (c : CoreId) (w : W128)

theorem mismatchEv_quiet (es : List Nat) (pc : Nat) : Quiet s (mismatchEv s c w es pc) := by
  unfold mismatchEv
  split
  · exact numEv_quiet s c _ _ _
  · exact quiet_refl s

theorem nonfinEv_quiet (pc n : Nat) : Quiet s (nonfinEv s c w pc n) := by
  unfold nonfinEv
  split
  · exact quiet_refl s
  · exact markedEv_quiet s c _ _ _ _ _

theorem length_quantBytes (es : List Nat) : (quantBytes (quantGroups s c w es)).length = 2 * (256 / quantGsz w) := by
  unfold quantBytes quantGroups
  rw [List.flatMap_map]
  exact length_flatMap_pieces _ (fun _ => length_leBytes 2 _) _

end

/-! ### The effects (R109, R115) -/

/-- The state after the writes of a VQUANT outside the V registers: the entries at `off`, and the counter set. -/
def quantStored (s : State) (c : CoreId) (w : W128) (off : Nat) (gs : List QGroup) : State :=
  setCounted (putSp s c off (quantBytes gs)) c (qCset w) (quantSum gs (·.sat)) (quantSum gs (·.ufl))
    (quantSum gs (·.nonfin))

section
variable {s : State} {c : CoreId} {e : Entry}
variable (halign : veOfs e % 16 = 0) (hend : veOfs e + 2 * (256 / quantGsz e.word) ≤ 0x1000000)
variable (hfree : SpFree s c (veOfs e) (2 * (256 / quantGsz e.word)))
variable {es : List Nat} (hes : entries (spBytes s c (veOfs e) (2 * (256 / quantGsz e.word))) = es)
include halign hend hfree hes

theorem veQuant_free : ∃ x, veQuant s c e = (x, .done none) ∧
    Quiet (vset (quantStored s c e.word (veOfs e) (quantGroups s c e.word es)) c (vVd e.word)
      (quantVd e.word (vget s c (vVd e.word)) (quantGroups s c e.word es))) x := by
  let gs := quantGroups s c e.word es
  let y := nonfinEv (vset (mismatchEv (wroteSp s c (veOfs e) (quantBytes gs)) c e.word es e.pc) c (vVd e.word)
    (quantVd e.word (vget s c (vVd e.word)) gs)) c e.word e.pc (quantSum gs (·.nonfin))
  have hread := veRead_free e halign hend hfree
  have hwrite : veWrite s c (veOfs e) (quantBytes gs) = (wroteSp s c (veOfs e) (quantBytes gs), .done none) :=
    veWrite_free (by rw [length_quantBytes]; exact hfree)
  refine ⟨quantCount y c e.pc (qCset e.word) (quantSum gs (·.sat)) (quantSum gs (·.ufl)) (quantSum gs (·.nonfin)), ?_, ?_⟩
  · unfold veQuant
    simp only [hread, hes]
    simp only [gs, quantBytes, quantGroups, quantZero] at hwrite
    rw [hwrite]
    rfl
  · have hy : Quiet (vset (putSp s c (veOfs e) (quantBytes gs)) c (vVd e.word)
        (quantVd e.word (vget s c (vVd e.word)) gs)) y :=
      quiet_trans ((quiet_trans (wroteSp_quiet s c _ _) (mismatchEv_quiet _ c _ es e.pc)).vset c _ _)
        (nonfinEv_quiet _ c _ _ _)
    rw [quantStored, ← setCounted_vset]
    exact quiet_trans (hy.setCounted c _ _ _ _) (quantCount_quiet _ c _ _ _ _ _)

theorem veSte_free : veSte s c e =
    (vset (mismatchEv s c e.word es e.pc) c (vVd e.word) (steReg s c e.word es), .done none) := by
  have hread := veRead_free e halign hend hfree
  have hslots : ∀ i, cbGet (mismatchEv s c e.word es e.pc) c i = cbGet s c i :=
    cbGet_congr (congrArg Core.cbs ((mismatchEv_quiet s c e.word es e.pc).core c))
  unfold steReg
  simp only [← hslots]
  unfold veSte
  simp only [hread, hes]
  rfl

end

/-! ### What the writes leave -/

section
variable {s : State} {c : CoreId} {w : W128} {off : Nat} {gs : List QGroup}

theorem quantStored_loc : (quantStored s c w off gs).loc c = { s.loc c with
    sp := (s.loc c).sp.write off (quantBytes gs)
    sets := (s.loc c).sets.set (setIx (qCset w)) ((s.loc c).sets[setIx (qCset w)].counted (quantSum gs (·.sat))
      (quantSum gs (·.ufl)) (quantSum gs (·.nonfin))) } := by
  rw [quantStored, setCounted, State.loc_setLoc_self, putSp, State.loc_setLoc_self]

theorem quantGroups_vecReady {r : State} {x : W128} {o : Op} (es : List Nat) :
    quantGroups (vecReady r c w o) c x es = quantGroups r c x es := by
  unfold quantGroups
  simp only [vget_vecReady, cbGet_vecReady]
  rfl

theorem steReg_vecReady {r : State} {x : W128} {o : Op} (es : List Nat) :
    steReg (vecReady r c w o) c x es = steReg r c x es := by
  unfold steReg
  simp only [vget_vecReady, cbGet_vecReady]

end

/-- A byte of a string that has been written to a memory. -/
theorem memory_get_write_getD {bs : List Byte} (m : Memory) (a : Nat) {i : Nat} (h : Memory.wf m = true) (hi : i < bs.length) :
    (m.write a bs).get (a + i) = getD bs i 0#8 := by
  rw [memory_get_write_inside bs m a i h hi, getD, List.getElem?_eq_getElem hi]
  rfl

/-- A vector operation whose effect is, but for events, a write of VD in a state `y` that has the cores and units of the one that
its issue leaves. -/
theorem vec_puts_beside {o : Op} {c : CoreId} {us : List Upset} {s x y : State} {w : W128} {v : VReg}
    (ho : o.queue = some .ve) (h : Issues (strike s us) c w o) (hidle : unitIdle (s.unit c) .ve = true)
    (hcores : y.cores = (vecReady (strike s us) c w o).cores) (hunits : y.units = (vecReady (strike s us) c w o).units)
    (hx : Quiet (vset y c (vVd w) v) x)
    (hdo : veDo (vecReady (strike s us) c w o) c (((strike s us).core c).entry w) o = (x, .done none)) :
    ∃ t, exec (instrOf o c true us) s = .next t ∧ vget t c (vVd w) = v ∧
      (∀ i, i ≠ vVd w → vget t c i = vget (strike s us) c i) ∧
      (t.core c).pc = (loopNext ((strike s us).core c) ((strike s us).core c).pc).pc ∧
      t.loc c = y.loc c := by
  have hycore : y.core c = (vecReady (strike s us) c w o).core c := by unfold State.core; rw [hcores]
  have hve : (x.unit c).ve = [] := by
    rw [hx.unit, vset_unit, State.unit, hunits]
    exact vecReady_ve (by rw [strike_unit]; exact hidle)
  have hrun : RunsFree x c := by
    unfold RunsFree
    rw [hx.core]
    refine vset_runsFree _ _ ?_
    unfold RunsFree
    rw [hycore]
    exact vecReady_runsFree (issues_free h)
  obtain ⟨-, -, -, -, hpc⟩ := queuedAlone_regs (r := strike s us) (c := c) (w := w) (o := o) (u := .ve)
  have hregs : ∀ i, vget (vecEnd x c none) c i = vget (vset y c (vVd w) v) c i := 
    vget_congr (congrArg Core.vreg (hx.core c))
  refine ⟨_, vec_runs ho h hidle hdo hve hrun, ?_, fun i hi => ?_, ?_, ?_⟩
  · rw [hregs]
    exact vget_vset_self y c v (fld_lt w 16 6)
  · rw [hregs, vget_vset_other y c v hi, vget_congr (congrArg Core.vreg hycore), vget_vecReady]
  · rw [vecEnd, State.core_setUnit, hx.core, vset_core, hycore]
    exact hpc
  · rw [vecEnd, State.loc_setUnit, hx.loc, vset_frame, State.loc_setCore]

/-- Settles O17: VQUANT leaves the bytes and the counter set of `quantStored` and writes VD; VSTE writes VD alone. -/
theorem vectorQuantiseResult : Obligations.VectorQuantiseResult := by
  unfold Obligations.VectorQuantiseResult
  intro c us s w r k h n es f z xs gs len sum up hidle hmem halign hend hfree
  obtain ⟨-, -, hsp, -⟩ := hmem
  have hofs : veOfs (k.entry w) = h := veOfs_entry k w
  have hwf : Memory.wf (r.loc c).sp = true := hsp c
  have hup : ∀ (x : W64) (m : Nat), BitVec.ofNat 64 (satAdd 64 x.toNat m) = up x m := fun x m => by
    rw [satAdd_eq_min]
  have hread : entries (spBytes r c (veOfs (k.entry w)) (2 * n)) = es := by
    rw [hofs]
    rfl
  rw [← hofs] at halign hend hfree
  constructor
  · intro hi
    have hcset : qCset w < 16 := fld_lt w 111 4
    have hlen : (quantBytes gs).length = 2 * n := length_quantBytes r c w es
    obtain ⟨x, hdo, hx⟩ := veQuant_free (s := vecReady r c w .vquant) (e := k.entry w) halign hend
      (spFree_vecReady hfree) hread
    rw [quantGroups_vecReady, hofs] at hx
    obtain ⟨t, hexec, hvd, hothers, hpc, hloc⟩ := vec_puts_beside
      (y := quantStored (vecReady r c w .vquant) c w h gs) rfl hi hidle rfl rfl hx hdo
    have hset := hloc.trans quantStored_loc
    rw [vecReady_loc] at hset
    refine ⟨t, hexec, ?_, hothers, hpc, fun a ha => ?_, fun i hlt => ?_, fun i heq => ?_, fun i hne => ?_, ?_⟩
    · rw [hvd, vget_vecReady]
      rfl
    · rw [hset]
      exact memory_get_write_outside _ _ h a hwf (by rw [hlen]; exact ha)
    · rw [hset]
      exact memory_get_write_getD _ h hwf (by rw [hlen]; exact hlt)
    · obtain rfl := (setIx_eq_iff hcset i).mpr heq
      rw [hset]
      simp only [← hup]
      exact Vector.getElem_set_self _
    · rw [hset]
      exact Vector.getElem_set_ne (setIx (qCset w)).isLt i.isLt fun hix => hne ((setIx_eq_iff hcset i).mp (Fin.ext hix))
    · rw [hset]
  · intro hi
    have hdo := veSte_free (s := vecReady r c w .vste) (e := k.entry w) halign hend (spFree_vecReady hfree) hread
    rw [steReg_vecReady] at hdo
    obtain ⟨t, hexec, ht, -⟩ := vec_puts rfl hi hidle (mismatchEv_quiet _ c w _ _) hdo
    exact ⟨t, hexec, ht.vd, ht.others, ht.pc, by rw [State.loc, ht.locals]; rfl⟩

end Sys2Proof.Machine
end

section
/-!
PROOF. The scratchpad's commands (O26): each replaces parts of the `Local` of one core, and what else it does is no more than
an event or a write of registers.
-/

namespace Sys2Proof.Machine

/-! ### VQ_CLR (R118, R120) -/

/-- A counter set that a VQ_CLR names loses its counts, its hit bits and its invalid bit. -/
def clearSet (c : CoreId) (v : W64) (s : State) (i : Fin 16) : State :=
  if bit v i.val then
    (s.setLoc c { s.loc c with sets := (s.loc c).sets.set i {} }).wr (coreBase c + 0x3010)
      (clrBit (clrBit (clrBit (s.rd (coreBase c + 0x3010)) i.val) (16 + i.val)) (32 + i.val))
  else s

theorem vqClr_eq (s : State) (c : CoreId) (v : W64) : vqClr s c v = (allFin 16).foldl (clearSet c v) s := rfl

section
variable (c : CoreId) (v : W64) (s : State)

theorem clearSet_unnamed {j : Fin 16} (h : ¬ bit v j.val = true) : clearSet c v s j = s := if_neg h

theorem clearSet_loc {j : Fin 16} (h : bit v j.val = true) :
    (clearSet c v s j).loc c = { s.loc c with sets := (s.loc c).sets.set j {} } := by
  rw [clearSet, if_pos h, State.loc_wr, State.loc_setLoc_self]

theorem clearSet_sets (j i : Fin 16) : ((clearSet c v s j).loc c).sets[i] =
    if i = j ∧ bit v i.val then {} else (s.loc c).sets[i] := by
  by_cases hbit : bit v j.val = true
  · rw [clearSet_loc c v s hbit]
    by_cases hij : i = j
    · subst hij
      exact (Vector.getElem_set_self _).trans (if_pos ⟨rfl, hbit⟩).symm
    · exact (Vector.getElem_set_ne j.isLt i.isLt fun h => hij (Fin.ext h.symm)).trans (if_neg fun h => hij h.1).symm
  · rw [clearSet_unnamed c v s hbit]
    exact (if_neg fun h : i = j ∧ bit v i.val = true => hbit (h.1 ▸ h.2)).symm

theorem clearSet_frame (j : Fin 16) : ((clearSet c v s j).loc c).sp = (s.loc c).sp ∧ (clearSet c v s j).cores = s.cores := by
  by_cases hbit : bit v j.val = true
  · exact ⟨by rw [clearSet_loc c v s hbit], by rw [clearSet, if_pos hbit, State.wr_cores, State.setLoc_cores]⟩
  · rw [clearSet_unnamed c v s hbit]
    exact ⟨rfl, rfl⟩

theorem foldl_clearSet (l : List (Fin 16)) :
    (∀ i : Fin 16, ((l.foldl (clearSet c v) s).loc c).sets[i] = if i ∈ l ∧ bit v i.val then {} else (s.loc c).sets[i]) ∧
    ((l.foldl (clearSet c v) s).loc c).sp = (s.loc c).sp ∧ (l.foldl (clearSet c v) s).cores = s.cores := by
  induction l generalizing s with
  | nil => exact ⟨fun i => (if_neg fun h => List.not_mem_nil h.1).symm, rfl, rfl⟩
  | cons j l ih =>
    obtain ⟨hsets, hsp, hcores⟩ := ih (clearSet c v s j)
    obtain ⟨jsp, jcores⟩ := clearSet_frame c v s j
    refine ⟨fun i => ?_, hsp.trans jsp, hcores.trans jcores⟩
    rw [List.foldl_cons, hsets, clearSet_sets]
    by_cases hij : i = j
    · subst hij
      by_cases hbit : bit v i.val = true <;> simp [hbit]
    · simp only [List.mem_cons, hij, false_or, false_and, if_false]

theorem vqClr_effect : (∀ i : Fin 16, ((vqClr s c v).loc c).sets[i] = if bit v i.val then {} else (s.loc c).sets[i]) ∧
    ((vqClr s c v).loc c).sp = (s.loc c).sp ∧ (vqClr s c v).cores = s.cores := by
  obtain ⟨hsets, hframe⟩ := foldl_clearSet c v s (allFin 16)
  refine ⟨fun i => (hsets i).trans ?_, hframe⟩
  simp only [allFin, List.mem_finRange, true_and]

end

/-! ### Parts of a memory dropped -/

/-- A memory from which every byte has been dropped whose address fails a test. -/
theorem memory_get_filter (q : Nat → Bool) (m : Memory) (x : Nat) :
    Memory.get (m.filter (fun e => q e.1)) x = if q x then m.get x else 0#8 := by
  induction m with
  | nil => simp [Memory.get]
  | cons e m ih =>
    by_cases hq : q e.1 = true
    · rw [List.filter_cons_of_pos (by exact hq), Memory.get, Memory.get, ih]
      by_cases he : e.1 = x
      · rw [if_pos he, if_pos he, if_pos (he ▸ hq)]
      · rw [if_neg he, if_neg he]
    · rw [List.filter_cons_of_neg (by exact hq), ih, Memory.get]
      by_cases he : e.1 = x
      · rw [if_neg (he ▸ hq), if_neg (he ▸ hq)]
      · rw [if_neg he]

theorem memory_get_zero (m : Memory) (a n x : Nat) :
    (m.zero a n).get x = if a ≤ x ∧ x < a + n then 0#8 else m.get x := by
  have hget := memory_get_filter (fun b => b < a || a + n ≤ b) m x
  rw [Memory.zero, hget]
  by_cases hx : a ≤ x ∧ x < a + n
  · rw [if_pos hx, if_neg (by simp only [Bool.or_eq_true, decide_eq_true_eq]; omega)]
  · rw [if_neg hx, if_pos (by simp only [Bool.or_eq_true, decide_eq_true_eq]; omega)]

/-! ### SP_CLEAR (R234) -/

theorem bankOf_lt (o : Nat) : bankOf o < 64 := by
  have h3 : nfld o 21 3 < 8 := Nat.mod_lt _ (by decide)
  have h0 : nfld o 7 3 < 8 := Nat.mod_lt _ (by decide)
  unfold bankOf
  omega

section
variable {s : State} {c : CoreId}

theorem spBankOff_on (hon : ∀ b : Fin 64, (s.loc c).bank[b] = .on) (off len : Nat) : spBankOff s c off len = none := by
  refine List.find?_eq_none.mpr fun w _ => ?_
  have hfin : fin? 64 (bankOf w) = some ⟨bankOf w, bankOf_lt w⟩ := dif_pos (bankOf_lt w)
  unfold wordOff
  rw [hfin]
  dsimp only
  rw [hon]
  decide

/-- A cleared span is zero, and the power states, the guards and the cores are as they were. -/
theorem clearSpan_effect (a len : Nat) : (∀ x, ((clearSpan s c a len).loc c).sp.get x =
      if a ≤ x ∧ x < a + len then 0#8 else (s.loc c).sp.get x) ∧
    ((clearSpan s c a len).loc c).bank = (s.loc c).bank ∧ ((clearSpan s c a len).loc c).guards = (s.loc c).guards ∧
    (clearSpan s c a len).cores = s.cores := by
  have hq := (dirtySp_quiet (s.setLoc c { s.loc c with
    sp := (s.loc c).sp.zero a len
    spErr := (s.loc c).spErr.filter (fun e => e.1 < a || a + len ≤ e.1) }) c a len).1
  have hloc := (hq.loc c).trans (State.loc_setLoc_self s c _)
  unfold clearSpan
  dsimp only
  rw [hloc]
  exact ⟨memory_get_zero _ a len, rfl, rfl, hq.cores⟩

/-- With every bank on, the regions of a list are zeroed, and no other byte is. -/
theorem clearRegions_on (hon : ∀ b : Fin 64, (s.loc c).bank[b] = .on) (l : List Nat) :
    (∀ x, ((clearRegions s c l).loc c).sp.get x = if x / 0x40000 ∈ l then 0#8 else (s.loc c).sp.get x) ∧
    ((clearRegions s c l).loc c).guards = (s.loc c).guards ∧ (clearRegions s c l).cores = s.cores := by
  induction l generalizing s with
  | nil => exact ⟨fun x => (if_neg List.not_mem_nil).symm, rfl, rfl⟩
  | cons r l ih =>
    obtain ⟨rsp, rbank, rguards, rcores⟩ := clearSpan_effect (s := s) (c := c) (r * 0x40000) 0x40000
    obtain ⟨hsp, hguards, hcores⟩ := ih (s := clearSpan s c (r * 0x40000) 0x40000) (fun b => by rw [rbank]; exact hon b)
    have hcons : clearRegions s c (r :: l) = clearRegions (clearSpan s c (r * 0x40000) 0x40000) c l := by
      unfold clearRegions
      rw [List.foldl_cons]
      dsimp only
      rw [spBankOff_on hon]
    rw [hcons]
    refine ⟨fun x => ?_, hguards.trans rguards, hcores.trans rcores⟩
    have hregion : r * 0x40000 ≤ x ∧ x < r * 0x40000 + 0x40000 ↔ x / 0x40000 = r := by omega
    rw [hsp, rsp]
    simp only [hregion, List.mem_cons]
    by_cases hx : x / 0x40000 ∈ l <;> by_cases hr : x / 0x40000 = r <;> simp [hx, hr]

theorem spClear_halted (v : W64) (hdom : s.domainOn c.val = true) (hrun : (s.core c).run = .halted)
    (hidle : (s.loc c).clearing = none) : spClear s c v =
      s.setLoc c { s.loc c with clearing := some (v &&& ~~~(s.rd (coreBase c + 0x4018))) } := by
  unfold spClear
  rw [hdom, hrun, if_neg (by simp)]
  dsimp only
  rw [hidle]
  simp

theorem spClearDone_on {m : W64} (hclear : (s.loc c).clearing = some m) (hon : ∀ b : Fin 64, (s.loc c).bank[b] = .on) :
    ((spClearDone s c).loc c).clearing = none ∧
    (∀ x, ((spClearDone s c).loc c).sp.get x =
      if x < 0x1000000 ∧ bit m (x / 0x40000) = true then 0#8 else (s.loc c).sp.get x) ∧
    ((spClearDone s c).loc c).guards = (s.loc c).guards ∧ (spClearDone s c).cores = s.cores := by
  let t := clearRegions s c ((List.range 64).filter (fun r => bit m r))
  obtain ⟨hsp, hguards, hcores⟩ := clearRegions_on hon ((List.range 64).filter (fun r => bit m r))
  have hdone : Quiet (t.setLoc c { t.loc c with clearing := none }) (spClearDone s c) := by
    unfold spClearDone
    rw [hclear]
    exact State.coreEv_quiet' _ c _ _ _
  have hloc := (hdone.loc c).trans (State.loc_setLoc_self t c _)
  rw [hloc]
  refine ⟨rfl, fun x => (hsp x).trans ?_, hguards, hdone.cores.trans hcores⟩
  have hregion : x / 0x40000 ∈ (List.range 64).filter (fun r => bit m r) ↔ x < 0x1000000 ∧ bit m (x / 0x40000) = true := by
    rw [List.mem_filter, List.mem_range]
    exact and_congr_left fun _ => by omega
  simp only [hregion]

/-! ### The rewrite of a corrected lane (R226) -/

theorem laneRewrite_corrected {a : Nat} {rest : List Nat} (hfix : (s.loc c).fixes = a :: rest)
    (hmark : tget (s.loc c).spErr a = some false) : laneRewrite s c =
      s.setLoc c { s.loc c with spErr := tdel (s.loc c).spErr a, fixes := rest.filter (· != a) } := by
  unfold laneRewrite
  simp only [hfix, hmark, if_true]

/-! ### SP_BANK_PWR (R235, R236) -/

theorem bankAfter_eq (b : Bank) {r : Nat} (h : r < 4) : bankAfter b r =
    if r = 3 then b
    else if (r = 0 ∧ b = .on) ∨ (r = 1 ∧ b = .retain) ∨ (r = 2 ∧ b = .off) then b
    else .trans (BitVec.ofNat 2 r) := by
  interval_cases r <;> cases b <;> rfl

theorem bankPwr_loc (w : Nat) (v : W64) : (bankPwr s c w v).loc c = { s.loc c with
    bank := Vector.ofFn (fun b => bankAfter (s.loc c).bank[b] (if b.val / 32 = w then fld v (2 * (b.val % 32)) 2 else 3)) } :=
  State.loc_setLoc_self _ c _

theorem bankPwr_bank (w : Nat) (v : W64) (b : Fin 64) : ((bankPwr s c w v).loc c).bank[b] =
    if b.val / 32 ≠ w ∨ fld v (2 * (b.val % 32)) 2 = 3 then (s.loc c).bank[b]
    else if (fld v (2 * (b.val % 32)) 2 = 0 ∧ (s.loc c).bank[b] = .on) ∨
        (fld v (2 * (b.val % 32)) 2 = 1 ∧ (s.loc c).bank[b] = .retain) ∨
        (fld v (2 * (b.val % 32)) 2 = 2 ∧ (s.loc c).bank[b] = .off) then (s.loc c).bank[b]
    else .trans (BitVec.ofNat 2 (fld v (2 * (b.val % 32)) 2)) := by
  rw [bankPwr_loc]
  refine (Vector.getElem_ofFn b.isLt).trans ?_
  by_cases hw : b.val / 32 = w
  · rw [if_pos hw, bankAfter_eq _ (fld_lt v _ 2)]
    simp only [hw, ne_eq, not_true, false_or]
  · rw [if_neg hw, if_pos (.inl hw)]
    rfl

/-! ### The end of a bank's transition (R235, R236) -/

theorem bankLose_sp (n x : Nat) : ((bankLose s c n).loc c).sp.get x = if bankOf x = n then 0#8 else (s.loc c).sp.get x := by
  have hget := memory_get_filter (fun a => bankOf a != n) (s.loc c).sp x
  rw [bankLose, State.loc_setLoc_self, hget]
  by_cases hx : bankOf x = n <;> simp [hx]

/-- The contents that a bank has once it has reached a state (R236). -/
def bankKept (s : State) (c : CoreId) (b : Fin 64) (d : BitVec 2) : State := if d = 2#2 then bankLose s c b.val else s

/-- The power state that a transition leads to. -/
def bankReached (d : BitVec 2) : Bank :=
  match d.toNat with
  | 0 => .on
  | 1 => .retain
  | _ => .off

theorem bankDone_reached {b : Fin 64} {d : BitVec 2} (h : (s.loc c).bank[b] = .trans d) :
    ((bankDone s c b).loc c).bank[b] = bankReached d ∧ ((bankDone s c b).loc c).sp = ((bankKept s c b d).loc c).sp := by
  have hdone : Quiet ((bankKept s c b d).setLoc c { (bankKept s c b d).loc c with
      bank := ((bankKept s c b d).loc c).bank.set b (bankReached d) }) (bankDone s c b) := by
    unfold bankDone
    rw [h]
    exact State.coreEv_quiet' _ c _ _ _
  have hloc := (hdone.loc c).trans (State.loc_setLoc_self _ c _)
  rw [hloc]
  exact ⟨Vector.getElem_set_self _, rfl⟩

end

/-- Settles O26: every command runs in a domain that is on, and its effect on the scratchpad is that of its own lemma. -/
theorem scratchpadCommandResult : Obligations.ScratchpadCommandResult := by
  unfold Obligations.ScratchpadCommandResult
  intro c v s l hdom hrec
  have hwrite : ∀ t, Host.Outcome.next (s.ifOn c.val t) = (.next t : Out) := fun t =>
    congrArg Host.Outcome.next (ifOn_on hdom hrec)
  have hlive : ∀ t, Host.Outcome.next (s.live t) = (.next t : Out) := fun t => congrArg Host.Outcome.next (live_of_on hdom)
  refine ⟨⟨_, hwrite _, vqClr_effect c v s⟩, fun a rest hfix hmark => ⟨_, hlive _, ?_⟩, fun hrun hidle => ?_,
    fun m hclear hon => ⟨_, hlive _, spClearDone_on hclear hon⟩, fun w => ⟨_, hwrite _, ?_, bankPwr_bank w.val v⟩,
    fun b => ⟨_, hlive _, fun h => ?_, fun h => ?_, fun h => ?_⟩⟩
  · rw [show strike s [] = s from rfl, laneRewrite_corrected hfix hmark, State.loc_setLoc_self]
    exact ⟨by rw [tget_tdel, if_pos rfl], rfl, rfl, fun hmem => by simp at hmem⟩
  · rw [← spClear_halted v hdom hrun hidle]
    exact hwrite _
  · rw [bankPwr_loc]
  · exact bankDone_reached h
  · exact bankDone_reached h
  · obtain ⟨hbank, hsp⟩ := bankDone_reached h
    exact ⟨hbank, fun x => by rw [hsp]; exact bankLose_sp b.val x⟩

end Sys2Proof.Machine
end

section
/-!
PROOF. The commands that stop (O5): every command answers a next state, but for the start of a dispatch request, which takes the
next free request and stops at a ROUTE with overlapping regions.
-/

namespace Sys2Proof.Machine

/-- Why a ROUTE stops: its parameter block, read before the checks, names regions that overlap (R155). -/
def RouteStops (req : DispReq) (x : State × Option (List Byte) × Bool) : Prop :=
  ∃ d no, x.2 = (some d, no) ∧ dpbOverlaps (dpbRegions (dpbWithTile d (snapGet req.s (dispSa req.word)).toNat)) = true

theorem routeRead_stops (u : DuId) (req : DispReq) (x : State × Option (List Byte) × Bool) :
    (∃ t, routeRead u req x = .next t) ∨ (routeRead u req x = .fault .dpbOverlap ∧ RouteStops req x) := by
  obtain ⟨s, d, no⟩ := x
  unfold routeRead
  dsimp only
  split
  · exact .inl ⟨_, rfl⟩
  · exact .inl ⟨_, rfl⟩
  · next d' _ hd =>
    obtain ⟨d0, rfl, rfl⟩ := Option.map_eq_some_iff.mp hd
    split
    · next hover => exact .inr ⟨rfl, d0, no, rfl, hover⟩
    · split
      · exact .inl ⟨_, rfl⟩
      · exact .inl ⟨_, rfl⟩

theorem reqStart_stops (s : State) (u : DuId) (req : DispReq) :
    (∃ t, reqStart s u req = .next t) ∨ (reqStart s u req = .fault .dpbOverlap ∧ fOp req.word = 0 ∧
      RouteStops req (readDpb s req.core (snapGet req.s (dispSp req.word)).toNat)) := by
  unfold reqStart
  split
  · next hop =>
    obtain hnext | ⟨hfault, hstops⟩ := routeRead_stops u req (readDpb s req.core (snapGet req.s (dispSp req.word)).toNat)
    · exact .inl hnext
    · exact .inr ⟨hfault, hop, hstops⟩
  · exact .inl ⟨_, rfl⟩
  · exact .inl ⟨_, rfl⟩
  · exact .inl ⟨_, rfl⟩

theorem requestStart_stays {s : State} {u : DuId}
    (h : (s.dus[u]).run.isSome = true ∨ s.domainOn (48 + u.val) = false ∨ nextReq (freeReqs s s.dus[u]) = none) :
    requestStart s u = .next s := by
  unfold requestStart
  dsimp only
  split
  · rfl
  · next hfree =>
    have hnone : nextReq (freeReqs s s.dus[u]) = none := by
      obtain hrun | hoff | hnone := h
      · exact absurd (.inl hrun) hfree
      · exact absurd (.inr (by rw [hoff]; rfl)) hfree
      · exact hnone
    rw [hnone]

/-- The start of a request answers a next state, or the request that the unit takes is a ROUTE that stops. -/
theorem requestStart_stops (s : State) (u : DuId) :
    (∃ t, requestStart s u = .next t) ∨ (requestStart s u = .fault .dpbOverlap ∧
      ∃ req, nextReq (freeReqs s s.dus[u]) = some req ∧ fOp req.word = 0 ∧
        RouteStops req (readDpb (takenReq s u req) req.core (snapGet req.s (dispSp req.word)).toNat)) := by
  cases hon : s.domainOn (48 + u.val) with
  | false => exact .inl ⟨s, requestStart_stays (.inr (.inl hon))⟩
  | true =>
    cases hrun : (s.dus[u]).run with
    | some x => exact .inl ⟨s, requestStart_stays (.inl (by rw [hrun]; rfl))⟩
    | none =>
      cases hreq : nextReq (freeReqs s s.dus[u]) with
      | none => exact .inl ⟨s, requestStart_stays (.inr (.inr hreq))⟩
      | some req =>
        rw [requestStart_takes hon hrun hreq]
        obtain hnext | ⟨hfault, hop, hstops⟩ := reqStart_stops (takenReq s u req) u req
        · exact .inl hnext
        · exact .inr ⟨hfault, req, rfl, hop, hstops⟩

theorem dispatchStart_stops (s : State) (u : DuId) :
    (∃ t, dispatchStart s u = .next t) ∨ (dispatchStart s u = .fault .dpbOverlap ∧
      ∃ req, nextReq (freeReqs (setAside s u) (setAside s u).dus[u]) = some req ∧ fOp req.word = 0 ∧
        RouteStops req (readDpb (takenReq (setAside s u) u req) req.core (snapGet req.s (dispSp req.word)).toNat)) := by
  unfold dispatchStart
  split
  · exact requestStart_stops (setAside s u) u
  · next hoff => exact .inl ⟨s, requestStart_stays (.inr (.inl (Bool.eq_false_iff.mpr hoff)))⟩

/-- Every command but the start of a dispatch request answers a next state. -/
theorem exec_next (i : Instr) (s : State) (h : ∀ u us, i ≠ .dispatchRequestStart u us) : ∃ t, exec i s = .next t := by
  cases i
  case dispatchRequestStart u us => exact absurd rfl (h u us)
  all_goals exact ⟨_, rfl⟩

/-- Settles O5: the start of a dispatch request stops only at the ROUTE that it takes, and no other command stops. -/
theorem onlyAnOverlappingRouteStops : Obligations.OnlyAnOverlappingRouteStops := by
  unfold Obligations.OnlyAnOverlappingRouteStops
  intro i s
  by_cases h : ∃ u us, i = .dispatchRequestStart u us
  · obtain ⟨u, us, rfl⟩ := h
    obtain hnext | ⟨hfault, req, hreq, hop, d, no, hdpb, hover⟩ := dispatchStart_stops (strike s us) u
    · exact .inl hnext
    · exact .inr ⟨hfault, u, us, _, req, d, no, rfl, rfl, hreq, hop, hover, hdpb⟩
  · exact .inl (exec_next i s fun u us hi => h ⟨u, us, hi⟩)

end Sys2Proof.Machine
end

section
/-!
PROOF. The choices of a ROUTE (O29): each choice that the two passes add keeps the counts within CAP, and is of its own kind.
-/

namespace Sys2Proof.Machine

/-- A choice of a ROUTE: its status byte, with an expert unless it was dropped, its rank and its token (R158). -/
def ChoiceOk (k n : Nat) (x : Choice) : Prop :=
  (x.how = 1 ∨ x.how = 2 ∨ x.how = 3) ∧ (x.e = none ↔ x.how = 3) ∧ x.r < k ∧ x.t < n

/-- Choices settled so far: each is well formed, and no expert has more than CAP of them. -/
def ChoicesOk (cap k n : Nat) (cs : List Choice) : Prop :=
  (∀ e, choiceCount cs e ≤ cap) ∧ ∀ x ∈ cs, ChoiceOk k n x

/-- Settled choices, and choices left pending that name a token and a rank. -/
def FirstOk (cap k n : Nat) (acc : List Choice × List (Nat × Nat)) : Prop :=
  ChoicesOk cap k n acc.1 ∧ ∀ p ∈ acc.2, p.1 < n ∧ p.2 < k

section
variable {cap k n : Nat} {cs : List Choice} {x : Choice}

theorem choiceCount_append (cs : List Choice) (x : Choice) (e : Nat) :
    choiceCount (cs ++ [x]) e = choiceCount cs e + if x.e = some e then 1 else 0 := by
  unfold choiceCount
  rw [List.filter_append, List.length_append]
  by_cases h : x.e = some e <;> simp [h]

/-- A choice may be added where its expert, if it has one, is not full. -/
theorem choicesOk_append (h : ChoicesOk cap k n cs) (hx : ChoiceOk k n x)
    (hroom : ∀ e, x.e = some e → choiceCount cs e < cap) : ChoicesOk cap k n (cs ++ [x]) := by
  obtain ⟨hcount, hall⟩ := h
  refine ⟨fun e => ?_, fun y hy => ?_⟩
  · rw [choiceCount_append]
    split
    · next he => exact hroom e he
    · exact hcount e
  · obtain hy | hy := List.mem_append.mp hy
    · exact hall y hy
    · exact List.mem_singleton.mp hy ▸ hx

end

theorem routeFirst_ok (cap : Nat) (next : Bool) (cand : List (List Nat)) (k : Nat) :
    FirstOk cap k cand.length (routeFirst cap next cand k) := by
  refine List.foldlRecOn (motive := FirstOk cap k cand.length) _ _ ⟨⟨fun e => Nat.zero_le cap, by simp⟩, by simp⟩
    (fun acc hacc tr htr => ?_)
  obtain ⟨hcs, hpend⟩ := hacc
  have hbound : tr.1 < cand.length ∧ tr.2 < k := by
    obtain ⟨r, hr, hmem⟩ := List.mem_flatMap.mp htr
    obtain ⟨t, ht, rfl⟩ := List.mem_map.mp hmem
    exact ⟨List.mem_range.mp ht, List.mem_range.mp hr⟩
  dsimp only
  split
  · next hroom =>
    exact ⟨choicesOk_append hcs ⟨.inl rfl, by simp, hbound.2, hbound.1⟩ (fun e he => Option.some.inj he ▸ hroom), hpend⟩
  · split
    · refine ⟨hcs, fun p hp => ?_⟩
      obtain hp | hp := List.mem_append.mp hp
      · exact hpend p hp
      · exact List.mem_singleton.mp hp ▸ hbound
    · exact ⟨choicesOk_append hcs ⟨.inr (.inr rfl), by simp, hbound.2, hbound.1⟩ (by simp), hpend⟩

theorem routeNext_ok {cap k : Nat} {cand : List (List Nat)} {cs : List Choice} {pend : List (Nat × Nat)}
    (h : FirstOk cap k cand.length (cs, pend)) : ChoicesOk cap k cand.length (routeNext cap cand k cs pend) := by
  obtain ⟨hcs, hpend⟩ := h
  refine List.foldlRecOn (motive := ChoicesOk cap k cand.length) _ _ hcs (fun cs hcs tr htr => ?_)
  obtain ⟨ht, hr⟩ := hpend tr htr
  dsimp only
  split
  · next e hfind =>
    have hfree := List.find?_some hfind
    rw [Bool.and_eq_true] at hfree
    exact choicesOk_append hcs ⟨.inr (.inl rfl), by simp, hr, ht⟩
      (fun e' he => Option.some.inj he ▸ of_decide_eq_true hfree.2)
  · exact choicesOk_append hcs ⟨.inr (.inr rfl), by simp, hr, ht⟩ (by simp)

/-- Settles O29: the first pass gives choices that are well formed and within CAP, and the second keeps them so. -/
theorem routeKeepsToItsCapacity : Obligations.RouteKeepsToItsCapacity := by
  unfold Obligations.RouteKeepsToItsCapacity
  intro cap k next cand
  exact routeNext_ok (routeFirst_ok cap next cand k)

end Sys2Proof.Machine
end

section
/-!
PROOF. The last cell of a packet that is a token of a monitored request (O30, O32): where a plain queue accepts it, the monitor writes
the request's control word to the scratchpad of the job's GEN_CORE (R374, R375), which the statements leave as it was.
-/

namespace Sys2Proof.Machine

/-- A packet's last cell of micro-batch 0xFFFF, held by a dispatch unit for Q0 under job 0. -/
def tokenOut : DispOut := { dest := .here 0, job := 0, cells := [{ mbtag := 0xFFFF#16, eop := true }] }

/-- The plain queue Q0 of job 0, which holds C0, its GEN_CORE; the request of monitor slot 0 sends its tokens of micro-batch 0xFFFF
there, and the first is about to come. -/
def beforeToken : State :=
  { State.reset with
    regs := [(0x8000, 1#64), (0x8008, 1#64), (0x8010, 1#64), (0x600008, 1#64), (0x600028, 0x10#64), (0x600038, 32#64),
             (0x600040, 0x400#64), (pwrBase + 0x60, 0xFFFFFFFFFFFFFFFF#64), (0x1000030, 0x100#64)]
    locals := State.reset.locals.set 0 {}
    dus := State.reset.dus.set 0 { outs := [tokenOut] }
    jobs := { monitors := (Vector.replicate 64 none).set 0 (some
      { job := 0, ring := 2, mbtag := 0xFFFF#16, qin := 1, qout := 0, tokens := 2, deadline := 1, t0 := 0#64, entry := 0,
        fallback := 0xFF }) }
    power := { boot := .up } }

theorem beforeToken_plain : QPlain beforeToken 0 := by
  unfold QPlain
  decide +kernel

/-- The token's control word comes to stand where the scratchpad held zeros, whichever way the token comes. -/
theorem token_writesItsWord :
    (beforeToken.loc 0).sp.get 0 = 0#8 ∧ ((windowPush beforeToken 0 0x1FFFF#64).loc 0).sp.get 0 = 0x10#8 ∧
    ((offerOne beforeToken 0 (.du 0) false).loc 0).sp.get 0 = 0x10#8 := by
  decide +kernel

/-- A state in which the control word stands has other scratchpads. -/
theorem locals_ne_of_word {t : State} (hword : (t.loc 0).sp.get 0 = 0x10#8) : t.locals ≠ beforeToken.locals := by
  intro hlocals
  have hloc : t.loc 0 = beforeToken.loc 0 := congrArg (fun l => l[(0 : CoreId)]) hlocals
  rw [hloc, token_writesItsWord.1] at hword
  exact absurd hword (by decide)

/-- Refutes O30: the push of a monitored request's token through the window of a plain queue changes a scratchpad. -/
theorem not_dispatchAndQueueRegisterResult : ¬ Obligations.DispatchAndQueueRegisterResult := by
  unfold Obligations.DispatchAndQueueRegisterResult
  rintro ⟨-, h⟩
  have hdom : beforeToken.domainOn (queueDomain 0) = true := by decide +kernel
  obtain ⟨-, -, -, -, -, -, hpush⟩ := h 0 0x1FFFF#64 beforeToken hdom rfl
  obtain ⟨t, hexec, -, -, hlocals⟩ := hpush beforeToken_plain (by decide +kernel)
  obtain rfl := Host.Outcome.next.inj hexec
  rw [ifOn_on hdom rfl] at hlocals
  exact locals_ne_of_word token_writesItsWord.2.1 hlocals

/-- Refutes O32: the acceptance of a monitored request's token from a dispatch unit changes a scratchpad. -/
theorem not_queueTrafficResult : ¬ Obligations.QueueTrafficResult := by
  unfold Obligations.QueueTrafficResult
  intro h
  obtain ⟨haccept, -⟩ := h 0 [] beforeToken rfl
  obtain ⟨t, hexec, -, -, -, hlocals⟩ := haccept 0 tokenOut _ beforeToken_plain (by decide +kernel) rfl rfl rfl (by decide +kernel)
    rfl rfl (by decide +kernel)
  obtain rfl := Host.Outcome.next.inj hexec
  exact locals_ne_of_word token_writesItsWord.2.2 hlocals

end Sys2Proof.Machine
end

section
/-!
SUPPORT. What the raising of an event and the sending of packets leave as it was of the receive buffers and of the STOPs in
force (R8, R217, R285).
-/

namespace Sys2Proof.Machine

/-- The receive buffers of `t` hold the packets that those of `s` hold, and the same STOPs are in force. -/
def KeepsArrivals (s t : State) : Prop :=
  t.net.stops = s.net.stops ∧ ∀ l : LinkId, (t.links[l]).rxq = (s.links[l]).rxq

section
variable {s t v : State}

theorem keepsArrivals_refl (s : State) : KeepsArrivals s s := ⟨rfl, fun _ => rfl⟩

theorem keepsArrivals_trans (h : KeepsArrivals s t) (k : KeepsArrivals t v) : KeepsArrivals s v :=
  ⟨k.1.trans h.1, fun l => (k.2 l).trans (h.2 l)⟩

theorem keepsArrivals_of_eq (hnet : t.net = s.net) (hlinks : t.links = s.links) : KeepsArrivals s t :=
  ⟨by rw [hnet], fun _ => by rw [hlinks]⟩

theorem setLink_keepsArrivals {l : LinkId} {k : Link} (h : k.rxq = (s.links[l]).rxq) : KeepsArrivals s (s.setLink l k) := by
  refine ⟨rfl, fun m => ?_⟩
  by_cases hm : m = l
  · subst hm
    rw [State.setLink_links_self, h]
  · rw [State.setLink_links_other s l m k hm]

end

/-! ### The recording of an event (R8, R350) -/

section
variable (s : State)

theorem State.vector_keepsArrivals (fn vec : Nat) : KeepsArrivals s (s.vector fn vec) := by
  unfold State.vector
  dsimp only
  split
  · exact keepsArrivals_of_eq rfl rfl
  · split <;> exact keepsArrivals_of_eq rfl rfl

theorem State.due_keepsArrivals (r : RingId) : KeepsArrivals s (s.due r) := by
  unfold State.due
  dsimp only
  split
  · exact State.vector_keepsArrivals s _ _
  · exact keepsArrivals_of_eq rfl rfl

theorem State.putRecord_keepsArrivals (r : RingId) (bytes : List Byte) (phaseAt : Nat) (irq : Bool) :
    KeepsArrivals s (s.putRecord r bytes phaseAt irq) := by
  have hput (h : HostPorts) : KeepsArrivals s { s with host := h } := keepsArrivals_of_eq rfl rfl
  unfold State.putRecord
  dsimp only
  split
  · exact keepsArrivals_trans (hput _) (State.due_keepsArrivals _ r)
  · exact hput _

theorem State.evtLost_keepsArrivals : KeepsArrivals s s.evtLost := by
  unfold State.evtLost
  split
  · exact keepsArrivals_refl s
  · dsimp only
    split
    · exact keepsArrivals_of_eq rfl rfl
    · refine keepsArrivals_trans ?_ (State.putRecord_keepsArrivals _ _ _ _ _)
      exact keepsArrivals_of_eq rfl rfl

theorem State.evtRecord_keepsArrivals (bytes : List Byte) : KeepsArrivals s (s.evtRecord bytes) := by
  have hlost := State.evtLost_keepsArrivals s
  unfold State.evtRecord
  dsimp only
  split
  · exact keepsArrivals_trans hlost (State.putRecord_keepsArrivals _ _ _ _ _)
  · exact keepsArrivals_trans hlost (keepsArrivals_of_eq rfl rfl)

theorem State.record_keepsArrivals (code inst sub : Nat) (job dev : Option Nat) (a0 a1 : Nat) :
    KeepsArrivals s (s.record code inst sub job dev a0 a1) := by
  unfold State.record
  dsimp only
  split
  · exact keepsArrivals_of_eq rfl rfl
  · exact keepsArrivals_trans (keepsArrivals_of_eq rfl rfl) (State.evtRecord_keepsArrivals _ _)

theorem unreachable_keepsArrivals (job : Option Nat) (dst : Nat) (p : Pkt) : KeepsArrivals s (unreachable s job dst p) :=
  State.record_keepsArrivals s _ _ _ _ _ _ _

/-! ### Packets that leave, and the failing of a step (R285, R322) -/

theorem sendPkt_keepsArrivals (die vc job dst : Nat) (p : Pkt) (q : Option QId) :
    KeepsArrivals s (sendPkt s die vc job dst p q).1 := by
  unfold sendPkt
  split
  · exact keepsArrivals_refl s
  · next n _ =>
    have hnet (net : Net) (h : net.stops = s.net.stops) : KeepsArrivals s { s with net := net } := ⟨h, fun _ => rfl⟩
    dsimp only
    split <;> exact keepsArrivals_trans (hnet _ rfl) (setLink_keepsArrivals rfl)

theorem sendSync_keepsArrivals (job dst rsp : Nat) (tf : List Byte) (excl : List Nat) :
    KeepsArrivals s (sendSync s job dst rsp tf excl).1 := by
  have hsend := sendPkt_keepsArrivals s 0 (6 + rsp) job dst (mkPkt s 9 3 rsp job dst 0 tf (syncData excl)) none
  unfold sendSync
  dsimp only
  split
  · exact ⟨rfl, fun _ => rfl⟩
  · split
    · next t ht =>
      rw [ht] at hsend
      exact hsend
    · next t ht =>
      rw [ht] at hsend
      exact keepsArrivals_trans hsend (unreachable_keepsArrivals t _ _ _)

theorem State.failStep_keepsArrivals (job : Option Nat) : KeepsArrivals s (s.failStep job) := by
  unfold State.failStep
  split
  · exact keepsArrivals_refl s
  · dsimp only
    split
    · exact keepsArrivals_refl s
    · split
      · exact keepsArrivals_of_eq rfl rfl
      · split
        · exact keepsArrivals_refl s
        · exact keepsArrivals_trans (keepsArrivals_of_eq rfl rfl) (sendSync_keepsArrivals _ _ _ _ _ _)

theorem State.raiseDev_keepsArrivals (fails : Bool) (code inst sub : Nat) (job dev : Option Nat) (a0 a1 : Nat) :
    KeepsArrivals s (s.raiseDev fails code inst sub job dev a0 a1) := by
  have hrec := State.record_keepsArrivals s code inst sub job dev a0 a1
  cases fails with
  | false => exact hrec
  | true => exact keepsArrivals_trans hrec (State.failStep_keepsArrivals _ job)

end

/-! ### A dispatch unit sends what it holds (R217, R287) -/

theorem sendCells_keepsArrivals (die job dst q fuel : Nat) (s : State) (cells : List Cell) :
    KeepsArrivals s (sendCells s die job dst q fuel cells).1 := by
  induction fuel generalizing s cells with
  | zero => exact keepsArrivals_refl s
  | succ n ih =>
    have hsend := sendPkt_keepsArrivals s die 0 job dst (qcellsPkt s job dst q (cells.take (packetLen cells))) none
    unfold sendCells
    dsimp only
    split
    · exact keepsArrivals_refl s
    · split
      · next t ht =>
        rw [ht] at hsend
        exact keepsArrivals_trans hsend (ih t _)
      · next t ht =>
        rw [ht] at hsend
        exact hsend

theorem duFlushOne_keepsArrivals (s : State) (u : DuId) (o : DispOut) : KeepsArrivals s (duFlushOne s u o).1 := by
  unfold duFlushOne
  split
  · exact keepsArrivals_refl s
  · next dev q _ =>
    have hsend := sendCells_keepsArrivals u.val o.job dev.toNat q.val o.cells.length s o.cells
    split
    · exact keepsArrivals_refl s
    · split
      · next t ht =>
        rw [ht] at hsend
        exact hsend
      · next t x rest ht =>
        rw [ht] at hsend
        dsimp only
        split
        · exact hsend
        · exact keepsArrivals_trans hsend
            (keepsArrivals_trans (unreachable_keepsArrivals t _ _ _) (State.failStep_keepsArrivals _ _))

theorem flushSteps_keepsArrivals (u : DuId) (l : List DispOut) (acc : State × List DispOut) :
    KeepsArrivals acc.1 (l.foldl (flushStep u) acc).1 := by
  induction l generalizing acc with
  | nil => exact keepsArrivals_refl acc.1
  | cons o l ih =>
    have hone : KeepsArrivals acc.1 (flushStep u acc o).1 := by
      have h := duFlushOne_keepsArrivals acc.1 u o
      unfold flushStep
      split <;> next he => rwa [he] at h
    exact keepsArrivals_trans hone (ih _)

theorem duFlush_keepsArrivals (s : State) (u : DuId) : KeepsArrivals s (duFlush s u) := by
  rw [duFlush_eq]
  exact keepsArrivals_trans (flushSteps_keepsArrivals u _ (s, [])) (keepsArrivals_of_eq rfl rfl)

end Sys2Proof.Machine
end

section
/-!
SUPPORT. How a packet leaves the receive buffer (R278, R283): taken by its command, or discarded at its first failed check.
-/

namespace Sys2Proof.Machine

/-! ### What the intake leaves alone -/

theorem State.setLink_same (s : State) (l : LinkId) : s.setLink l s.links[l] = s := by
  unfold State.setLink
  have hset : s.links.set l s.links[l] = s.links := Vector.set_getElem_self _
  rw [hset]

/-- The order sequence of a packet is noted in the network's state alone (R283). -/
theorem noteOrder_frame (s : State) (p : Pkt) :
    ∃ a b, noteOrder s p = { s with net := { s.net with oseqRx0 := a, oseqRx1 := b } } := by
  unfold noteOrder
  dsimp only
  split
  · exact ⟨_, _, rfl⟩
  · split <;> exact ⟨_, _, rfl⟩

/-- The units that a packet gives back change the link that it came over, but for its packets (R278). -/
theorem leaveBuffer_frame (s : State) (l : LinkId) (r : RxWait) :
    ∃ k : Link, leaveBuffer s l r = s.setLink l k ∧ k.rxq = (s.links[l]).rxq := by
  unfold leaveBuffer returnCredit
  split
  · exact ⟨s.links[l], (State.setLink_same s l).symm, rfl⟩
  · dsimp only
    refine ⟨_, rfl, ?_⟩
    split <;> rfl

theorem leaveBuffer_quiet (s : State) (l : LinkId) (r : RxWait) : Quiet s (leaveBuffer s l r) := by
  obtain ⟨k, hk, -⟩ := leaveBuffer_frame s l r
  rw [hk]
  exact State.setLink_quiet (quiet_refl s)

theorem leaveBuffer_net (s : State) (l : LinkId) (r : RxWait) : (leaveBuffer s l r).net = s.net := by
  obtain ⟨k, hk, -⟩ := leaveBuffer_frame s l r
  rw [hk, State.setLink_net]

theorem leaveBuffer_keepsArrivals (s : State) (l : LinkId) (r : RxWait) : KeepsArrivals s (leaveBuffer s l r) := by
  obtain ⟨k, hk, hrxq⟩ := leaveBuffer_frame s l r
  rw [hk]
  exact setLink_keepsArrivals hrxq

/-! ### A packet that passes its checks (R283) -/

/-- The state in which the first packet of a receive buffer has been taken out. -/
def takenOut (s : State) (l : LinkId) (rest : List RxWait) : State := s.setLink l { s.links[l] with rxq := rest }

/-- The state in which the first packet has been taken out and its order sequence noted. -/
def accepted (s : State) (l : LinkId) (r : RxWait) (rest : List RxWait) : State := noteOrder (takenOut s l rest) r.pkt

theorem takenOut_rxq (s : State) (l : LinkId) (rest : List RxWait) : ((takenOut s l rest).links[l]).rxq = rest := by
  unfold takenOut
  rw [State.setLink_links_self]

theorem accepted_frame (s : State) (l : LinkId) (r : RxWait) (rest : List RxWait) : ∃ a b, accepted s l r rest =
    { takenOut s l rest with net := { s.net with oseqRx0 := a, oseqRx1 := b } } := noteOrder_frame (takenOut s l rest) r.pkt

theorem accepted_quiet (s : State) (l : LinkId) (r : RxWait) (rest : List RxWait) : Quiet s (accepted s l r rest) := by
  obtain ⟨a, b, h⟩ := accepted_frame s l r rest
  rw [h]
  exact quiet_mk (State.setLink_quiet (quiet_refl s))

theorem accepted_link (s : State) (l : LinkId) (r : RxWait) (rest : List RxWait) :
    (accepted s l r rest).links[l] = { s.links[l] with rxq := rest } := by
  obtain ⟨a, b, h⟩ := accepted_frame s l r rest
  rw [h]
  exact State.setLink_links_self s l _

theorem accepted_regs (s : State) (l : LinkId) (r : RxWait) (rest : List RxWait) : (accepted s l r rest).regs = s.regs := by
  obtain ⟨a, b, h⟩ := accepted_frame s l r rest
  rw [h]
  rfl

section
variable {s : State} {l : LinkId} {r : RxWait} {rest : List RxWait} {want : Pkt → Bool} {body : State → RxWait → State}

theorem intake_takes (h : Arrived s l r rest) (hwant : want r.pkt = true) :
    intake s l want body = body (accepted s l r rest) r := by
  obtain ⟨hrxq, hecrc, hhead, htype, horder⟩ := h
  unfold intake
  dsimp only
  rw [hrxq]
  dsimp only
  rw [if_neg (not_not_intro hecrc), hhead, htype, horder, hwant]
  rfl

theorem take_takes {ptype : Nat} {act : State → Pkt → State} (h : Arrived s l r rest) (ht : pType r.pkt = ptype) :
    take s l ptype act = leaveBuffer (act (accepted s l r rest) r.pkt) l r :=
  intake_takes h (beq_iff_eq.mpr ht)

/-! ### A packet with a wrong ECRC (R280, R283) -/

theorem intake_wrongEcrc (hrxq : (s.links[l]).rxq = r :: rest) (hecrc : pEcrc r.pkt ≠ crc32 (ecrcBytes r.pkt)) :
    intake s l want body = leaveBuffer (pktEv (takenOut s l rest) (pType r.pkt != 6) 0x6106 r.pkt) l r := by
  unfold intake
  dsimp only
  rw [hrxq]
  exact if_pos hecrc

/-- A packet with a wrong ECRC leaves the receive buffer with no more than an event. -/
theorem intake_discards (hrxq : (s.links[l]).rxq = r :: rest) (hecrc : pEcrc r.pkt ≠ crc32 (ecrcBytes r.pkt)) :
    Quiet s (intake s l want body) ∧ ((intake s l want body).links[l]).rxq = rest := by
  rw [intake_wrongEcrc hrxq hecrc]
  have hout : Quiet s (takenOut s l rest) := State.setLink_quiet (quiet_refl s)
  refine ⟨quiet_trans (State.raiseDev_quiet hout) (leaveBuffer_quiet _ l r), ?_⟩
  have hkeep := keepsArrivals_trans (State.raiseDev_keepsArrivals (takenOut s l rest) _ _ _ _ _ _ _ _)
    (leaveBuffer_keepsArrivals (pktEv (takenOut s l rest) (pType r.pkt != 6) 0x6106 r.pkt) l r)
  exact (hkeep.2 l).trans (takenOut_rxq s l rest)

end

end Sys2Proof.Machine
end

section
/-!
SUPPORT. The answer to a READ or WRITE of a transfer, and the request that is sent again (R281, R282).
-/

namespace Sys2Proof.Machine

/-! ### The run of a transfer -/

theorem runOf_seq {s : State} {c : CoreId} {ch : Fin 4} {seq : Nat} {d : DmaRun} (h : runOf s c ch seq = some d) :
    d.seq = seq := by
  unfold runOf at h
  have hseq : (d.seq == seq) = true := List.find?_some (p := fun r : DmaRun => r.seq == seq) h
  exact beq_iff_eq.mp hseq

theorem find?_map_replaced {l : List DmaRun} {d x : DmaRun} (h : l.find? (fun r => r.seq == x.seq) = some d) :
    (l.map (fun r => if r.seq == x.seq then x else r)).find? (fun r => r.seq == x.seq) = some x := by
  induction l with
  | nil => simp at h
  | cons r l ih =>
    by_cases hr : r.seq = x.seq
    · simp [hr]
    · rw [List.find?_cons_of_neg (by simpa using hr)] at h
      rw [List.map_cons, if_neg (by simpa using hr), List.find?_cons_of_neg (by simpa using hr)]
      exact ih h

/-- A run that has been replaced is found by its number. -/
theorem runOf_setRun {s : State} {c : CoreId} {ch : Fin 4} {d x : DmaRun} (h : runOf s c ch x.seq = some d) :
    runOf (setRun s c ch x) c ch x.seq = some x := by
  unfold runOf at h ⊢
  have hchan : ((setRun s c ch x).unit c).chan[ch] =
      ((s.unit c).chan[ch]).map (fun r => if r.seq == x.seq then x else r) := by
    unfold setRun
    rw [State.unit_setUnit_self]
    exact Vector.getElem_set_self _
  rw [hchan]
  exact find?_map_replaced h

/-- What an answer makes of the run of its transfer: a failure, bytes that have come, or a write that is out no more (R281). -/
def DmaRun.answered (d : DmaRun) (o : DmaOut) (code : Nat) (data : List Byte) : DmaRun :=
  let r := { d with out := d.out.erase o }
  if code ≠ 0 then runFail r code o.addr
  else if d.writing then r
  else { r with parts := d.parts ++ [(o.off, (data.drop (o.addr % 64)).take o.len)] }

theorem DmaRun.answered_failed (d : DmaRun) (o : DmaOut) {code : Nat} (data : List Byte) (hcode : code ≠ 0) :
    d.answered o code data = runFail { d with out := d.out.erase o } code o.addr := if_pos hcode

theorem DmaRun.answered_write {d : DmaRun} (o : DmaOut) (data : List Byte) (hw : d.writing = true) :
    d.answered o 0 data = { d with out := d.out.erase o } := if_pos hw

theorem DmaRun.answered_read {d : DmaRun} (o : DmaOut) (data : List Byte) (hw : d.writing = false) :
    d.answered o 0 data = { d with out := d.out.erase o
                                   parts := d.parts ++ [(o.off, (data.drop (o.addr % 64)).take o.len)] } :=
  if_neg (Bool.eq_false_iff.mp hw)

theorem DmaRun.answered_seq (d : DmaRun) (o : DmaOut) (code : Nat) (data : List Byte) :
    (d.answered o code data).seq = d.seq := by
  unfold DmaRun.answered
  dsimp only
  split
  · rfl
  · split <;> rfl

/-- An answer replaces the run of its transfer, and counts the bytes of a write (R247). -/
theorem dmaAnswer_replaces {s : State} {c : CoreId} {ch : Fin 4} {seq tag : Nat} {d : DmaRun} {o : DmaOut}
    (hrun : runOf s c ch seq = some d) (hout : d.out.find? (fun x => x.tag == tag) = some o) (code : Nat) (data : List Byte) :
    ∃ regs, dmaAnswer s c ch seq tag code data = { setRun s c ch (d.answered o code data) with regs := regs } := by
  unfold dmaAnswer
  rw [hrun]
  dsimp only
  rw [hout]
  dsimp only
  unfold DmaRun.answered
  split
  · exact ⟨_, rfl⟩
  · dsimp only
    split <;> exact ⟨_, rfl⟩

/-! ### The one request out -/

/-- One request is out, of a transfer whose run knows it by `o`; nobody waits for a tag, and no cairn is in progress. -/
structure OneOut (s : State) (q : NetReq) (c : CoreId) (ch : Fin 4) (seq : Nat) (d : DmaRun) (o : DmaOut) : Prop where
  reqs : s.net.reqs = [q]
  owner : q.owner = some (.dma c ch seq)
  run : runOf s c ch seq = some d
  out : d.out.find? (fun x => x.tag == q.tag) = some o
  pend : s.net.collPend = []
  cairn : ∀ j : JobId, (s.rcl.jobs[j]).cairn = none

/-- The tag is free and the run of the transfer has been answered; the rest named here is as in `s`. -/
structure AnsweredIn (s : State) (c : CoreId) (ch : Fin 4) (seq : Nat) (x : DmaRun) (t : State) : Prop where
  reqs : t.net.reqs = []
  run : runOf t c ch seq = some x
  gddr : t.gddr = s.gddr
  links : t.links = s.links
  pend : t.net.collPend = s.net.collPend
  rcl : t.rcl = s.rcl

theorem collKick_idle {s : State} (h : s.net.collPend = []) : collKick s = s := by
  unfold collKick
  rw [h]
  rfl

theorem cairnPump_idle {s : State} {j : JobId} (h : (s.rcl.jobs[j]).cairn = none) (fuel : Nat) : cairnPump j fuel s = s := by
  cases fuel with
  | zero => rfl
  | succ n =>
    unfold cairnPump
    dsimp only
    rw [h]

theorem cairnsGo_idle {s : State} (h : ∀ j : JobId, (s.rcl.jobs[j]).cairn = none) : cairnsGo s = s := by
  unfold cairnsGo
  have hall (l : List JobId) : l.foldl (fun (s : State) (j : JobId) => cairnPump j 4352 s) s = s := by
    induction l with
    | nil => rfl
    | cons j l ih => rw [List.foldl_cons, cairnPump_idle (h j), ih]
  exact hall _

section
variable {s : State} {q : NetReq} {c : CoreId} {ch : Fin 4} {seq : Nat} {d : DmaRun} {o : DmaOut}

theorem OneOut.answer (h : OneOut s q c ch seq d o) (code : Nat) (data : List Byte) :
    AnsweredIn s c ch seq (d.answered o code data) (reqAnswer s q code data) := by
  have hfree : s.net.reqs.filter (fun x => x.tag != q.tag) = [] := by simp [h.reqs]
  let s' : State := { s with net := { s.net with reqs := [] } }
  have hans : reqAnswer s q code data = dmaAnswer s' c ch seq q.tag code data := by
    unfold reqAnswer
    rw [h.owner, hfree]
  obtain ⟨regs, hrep⟩ := dmaAnswer_replaces (s := s') h.run h.out code data
  have hseq : (d.answered o code data).seq = seq := (d.answered_seq o code data).trans (runOf_seq h.run)
  rw [hans, hrep]
  refine ⟨rfl, ?_, rfl, rfl, rfl, rfl⟩
  have hrun : runOf s' c ch (d.answered o code data).seq = some d := by rw [hseq]; exact h.run
  have hfound := runOf_setRun hrun
  rw [hseq] at hfound
  exact hfound

/-- Nothing else waits for the answer. -/
theorem OneOut.answer_alone (h : OneOut s q c ch seq d o) (code : Nat) (data : List Byte) :
    cairnsGo (collKick (reqAnswer s q code data)) = reqAnswer s q code data := by
  have hans := h.answer code data
  rw [collKick_idle (hans.pend.trans h.pend)]
  exact cairnsGo_idle fun j => by rw [hans.rcl]; exact h.cairn j

theorem OneOut.accepted (h : OneOut s q c ch seq d o) (l : LinkId) (r : RxWait) (rest : List RxWait) :
    OneOut (accepted s l r rest) q c ch seq d o := by
  obtain ⟨a, b, hacc⟩ := accepted_frame s l r rest
  rw [hacc]
  exact ⟨h.reqs, h.owner, h.run, h.out, h.pend, h.cairn⟩

/-- An answer that names the request out completes it (R282). -/
theorem OneOut.answerIn (h : OneOut s q c ch seq d o) {p : Pkt} (htag : q.tag = pTag p) (hdev : pDst q.pkt = pSrc p)
    (hjob : q.job = pJob p) (hkind : (pType q.pkt == 2) = (pType p == 5)) :
    answerIn s p = reqAnswer s q (pByte p 12 1) p.data := by
  unfold Machine.answerIn
  rw [h.reqs, List.find?_cons_of_pos (by simp [htag, hdev, hjob, hkind])]
  exact h.answer_alone _ _

/-- The command of an answer's type completes the request that the answer names. -/
theorem OneOut.take {l : LinkId} {r : RxWait} {rest : List RxWait} (h : OneOut s q c ch seq d o) (harr : Arrived s l r rest)
    (htag : q.tag = pTag r.pkt) (hdev : pDst q.pkt = pSrc r.pkt) (hjob : q.job = pJob r.pkt) {ptype : Nat}
    (ht : pType r.pkt = ptype) (hkind : (pType q.pkt == 2) = (ptype == 5)) :
    let t := Machine.take s l ptype Machine.answerIn
    (t.links[l]).rxq = rest ∧ t.net.reqs = [] ∧ runOf t c ch seq = some (d.answered o (pByte r.pkt 12 1) r.pkt.data) ∧
      t.gddr = s.gddr := by
  have hacc := h.accepted l r rest
  have hans := hacc.answer (pByte r.pkt 12 1) r.pkt.data
  have hleave := leaveBuffer_quiet (reqAnswer (Machine.accepted s l r rest) q (pByte r.pkt 12 1) r.pkt.data) l r
  dsimp only
  rw [take_takes harr ht, hacc.answerIn htag hdev hjob (ht.symm ▸ hkind)]
  refine ⟨?_, ?_, ?_, ?_⟩
  · rw [(leaveBuffer_keepsArrivals _ l r).2 l, hans.links, accepted_link]
  · rw [leaveBuffer_net]
    exact hans.reqs
  · unfold runOf
    rw [hleave.unit c]
    exact hans.run
  · rw [hleave.gddr, hans.gddr, (accepted_quiet s l r rest).gddr]

end

/-! ### The timer of a request (R282) -/

/-- A packet of a striped channel enters the transmit queue of the plane that it chooses (R285). -/
theorem sendPkt_striped {s : State} {die vc job dst : Nat} {n : LinkId} (p : Pkt) (hvc : pinnedVc vc = false)
    (hplane : choosePlane s die vc dst job = some n) : sendPkt s die vc job dst p =
      (State.setLink { s with net := { s.net with lastPlane := tset s.net.lastPlane (die * 8 + vc) n.val } } n
        { s.links[n] with tx := (s.links[n]).tx ++ [{ pkt := p, vc := vc, job := job, dst := dst, die := die }] }, true) := by
  unfold sendPkt
  rw [hplane]
  dsimp only
  rw [hvc]
  rfl

section
variable {s : State} {q : NetReq} {c : CoreId} {ch : Fin 4} {seq : Nat} {d : DmaRun} {o : DmaOut}

theorem OneOut.e2eTimeout_resends (h : OneOut s q c ch seq d o) (hfew : q.resends < 4) {m : LinkId}
    (hplane : choosePlane s (duOf c).val 4 (pDst q.pkt) q.job = some m) :
    let t := e2eTimeout s q.tag
    t.net.reqs = [{ q with resends := q.resends + 1 }] ∧ ∃ y ∈ (t.links[m]).tx, y.pkt = q.pkt := by
  unfold e2eTimeout
  rw [h.reqs, List.find?_cons_of_pos (by simp)]
  dsimp only
  rw [if_neg (by omega), h.owner]
  dsimp only
  rw [sendPkt_striped q.pkt rfl hplane]
  refine ⟨?_, ?_⟩
  · dsimp only
    rw [State.setLink_net, h.reqs]
    simp [h.owner]
  · dsimp only
    rw [State.setLink_links_self]
    exact ⟨_, List.mem_append_right _ (List.mem_singleton.mpr rfl), rfl⟩

theorem OneOut.e2eTimeout_fails (h : OneOut s q c ch seq d o) (hmany : 4 ≤ q.resends) :
    e2eTimeout s q.tag = reqAnswer s q 8 [] := by
  unfold e2eTimeout
  rw [h.reqs, List.find?_cons_of_pos (by simp)]
  dsimp only
  rw [if_pos hmany]
  exact collKick_idle ((h.answer 8 []).pend.trans h.pend)

end

end Sys2Proof.Machine
end

section
/-!
SETTLEMENT. The answers of peers, the timer of a request, QCELLS and QFLOW (R209, R217, R281, R282, R283).
-/

namespace Sys2Proof.Machine

/-! ### QCELLS (R209) -/

theorem qcellsIn_takes {s : State} {l : LinkId} {r : RxWait} {rest : List RxWait} {v : QId} (harr : Arrived s l r rest)
    (ht : pType r.pkt = 1) (hv : pByte r.pkt 12 1 = v.val) :
    qcellsIn s l = (accepted s l r rest).setLink l { s.links[l] with rxq := rest
                                                                     cells := (s.links[l]).cells ++ [{
      q := v, job := pJob r.pkt, cells := cellsOf r.pkt, units := r.units, pooled := pPooled r.pkt }] } := by
  unfold qcellsIn
  rw [intake_takes (want := fun p => pType p == 1) harr (beq_iff_eq.mpr ht), hv, fin?_val]
  dsimp only
  rw [accepted_link]

/-! ### QFLOW (R217) -/

/-- One queue pauses or resumes where it sends to queue `q` of device `dev`. -/
def pauseStep (dev q : Nat) (stop : Bool) (s : State) (p : QId) : State :=
  if qForward s p && qDestDev s p == dev && qDestQ s p == q then s.setQueue p { s.queues[p] with paused := stop } else s

theorem pauseFor_eq (s : State) (dev q : Nat) (stop : Bool) :
    pauseFor s dev q stop = (allFin 256).foldl (pauseStep dev q stop) s := rfl

theorem pauseStep_frame (dev q : Nat) (stop : Bool) (s : State) (p : QId) :
    ∃ qs, pauseStep dev q stop s p = { s with queues := qs } := by
  unfold pauseStep
  split <;> exact ⟨_, rfl⟩

theorem pauseSteps_frame (dev q : Nat) (stop : Bool) (l : List QId) (s : State) :
    ∃ qs, l.foldl (pauseStep dev q stop) s = { s with queues := qs } := by
  induction l generalizing s with
  | nil => exact ⟨s.queues, rfl⟩
  | cons p l ih =>
    obtain ⟨qs, hstep⟩ := pauseStep_frame dev q stop s p
    obtain ⟨qs', hrest⟩ := ih (pauseStep dev q stop s p)
    exact ⟨qs', by rw [List.foldl_cons, hrest, hstep]⟩

/-- The forwarding queue `v` sends to queue `q` of device `dev` (R217). -/
def SendsTo (s : State) (v : QId) (dev q : Nat) : Prop := qForward s v = true ∧ qDestDev s v = dev ∧ qDestQ s v = q

section
variable {s t : State} {v : QId} {dev q : Nat}

theorem SendsTo.of_regs (h : SendsTo s v dev q) (hregs : t.regs = s.regs) : SendsTo t v dev q := by
  unfold SendsTo qForward qDestDev qDestQ State.rd at *
  rwa [hregs]

theorem pauseStep_paused (h : SendsTo s v dev q) {stop : Bool} {p : QId}
    (hv : v = p ∨ (s.queues[v]).paused = stop) : ((pauseStep dev q stop s p).queues[v]).paused = stop := by
  obtain ⟨hfwd, hdev, hq⟩ := h
  by_cases hp : v = p
  · subst hp
    unfold pauseStep
    rw [if_pos (by simp [hfwd, hdev, hq]), State.setQueue_queues_self]
  · have hkept := hv.resolve_left hp
    unfold pauseStep
    split
    · rwa [State.setQueue_queues_other s p v _ hp]
    · exact hkept

theorem pauseSteps_paused {stop : Bool} (l : List QId) (h : SendsTo s v dev q)
    (hv : v ∈ l ∨ (s.queues[v]).paused = stop) : ((l.foldl (pauseStep dev q stop) s).queues[v]).paused = stop := by
  induction l generalizing s with
  | nil => exact hv.resolve_left (List.not_mem_nil)
  | cons p l ih =>
    obtain ⟨qs, hstep⟩ := pauseStep_frame dev q stop s p
    refine ih (h.of_regs (by rw [hstep])) ?_
    by_cases hl : v ∈ l
    · exact .inl hl
    · refine .inr (pauseStep_paused h (hv.imp_left fun hm => ?_))
      exact (List.mem_cons.mp hm).resolve_right hl

end

/-- Every queue that sends to the queue named pauses or resumes (R217). -/
theorem pauseFor_paused {s : State} {v : QId} {dev q : Nat} (h : SendsTo s v dev q) (stop : Bool) :
    ((pauseFor s dev q stop).queues[v]).paused = stop :=
  pauseSteps_paused (allFin 256) h (.inl (List.mem_finRange v))

/-- The STOPs in force once a STOP or GO of a queue has come. -/
def stopsAfter (s : State) (key : Nat × Nat) (stop : Bool) : List (Nat × Nat) :=
  if stop then s.net.stops.filter (· != key) ++ [key] else s.net.stops.filter (· != key)

theorem mem_stopsAfter (s : State) (key : Nat × Nat) (stop : Bool) : key ∈ stopsAfter s key stop ↔ stop = true := by
  cases stop <;> simp [stopsAfter]

/-- The forwarding queues have paused or resumed, and the dispatch units have not sent yet. -/
def flowed (s : State) (dev q : Nat) (stop : Bool) : State :=
  pauseFor { s with net := { s.net with stops := stopsAfter s (dev, q) stop } } dev q stop

theorem flowIn_eq (s : State) (dev q : Nat) (stop : Bool) : flowIn s dev q stop =
    if stop then flowed s dev q stop else duFlush (duFlush (flowed s dev q stop) 0) 1 := rfl

/-- What a STOP or GO does but for the sending of the dispatch units. -/
theorem flowIn_flowed (s : State) (dev q : Nat) (stop : Bool) :
    KeepsArrivals (flowed s dev q stop) (flowIn s dev q stop) ∧ (flowIn s dev q stop).queues = (flowed s dev q stop).queues := by
  rw [flowIn_eq]
  split
  · exact ⟨keepsArrivals_refl _, rfl⟩
  · obtain ⟨-, -, -, -, hqueues⟩ := duFlush_outs (flowed s dev q stop) 0
    obtain ⟨-, -, -, -, hqueues'⟩ := duFlush_outs (duFlush (flowed s dev q stop) 0) 1
    exact ⟨keepsArrivals_trans (duFlush_keepsArrivals _ 0) (duFlush_keepsArrivals _ 1), hqueues'.trans hqueues⟩

theorem flowIn_rxq (s : State) (dev q : Nat) (stop : Bool) (l : LinkId) :
    ((flowIn s dev q stop).links[l]).rxq = (s.links[l]).rxq := by
  obtain ⟨qs, hframe⟩ := pauseSteps_frame dev q stop (allFin 256)
    { s with net := { s.net with stops := stopsAfter s (dev, q) stop } }
  rw [(flowIn_flowed s dev q stop).1.2 l, flowed, pauseFor_eq, hframe]

theorem mem_stops_flowIn (s : State) (dev q : Nat) (stop : Bool) :
    (dev, q) ∈ (flowIn s dev q stop).net.stops ↔ stop = true := by
  obtain ⟨qs, hframe⟩ := pauseSteps_frame dev q stop (allFin 256)
    { s with net := { s.net with stops := stopsAfter s (dev, q) stop } }
  rw [(flowIn_flowed s dev q stop).1.1, flowed, pauseFor_eq, hframe]
  exact mem_stopsAfter s (dev, q) stop

theorem flowIn_paused {s : State} {v : QId} {dev q : Nat} (h : SendsTo s v dev q) (stop : Bool) :
    ((flowIn s dev q stop).queues[v]).paused = stop := by
  rw [(flowIn_flowed s dev q stop).2, flowed]
  refine pauseFor_paused ?_ stop
  exact h.of_regs rfl

/-- QFLOW on its own packet (R217). -/
theorem take_qflowIn {s : State} {l : LinkId} {r : RxWait} {rest : List RxWait} (harr : Arrived s l r rest)
    (ht : pType r.pkt = 8) :
    let stop := pByte r.pkt 13 1 == 1
    let t := take s l 8 qflowIn
    (t.links[l]).rxq = rest ∧ ((pSrc r.pkt, pByte r.pkt 12 1) ∈ t.net.stops ↔ stop = true) ∧
      ∀ v, SendsTo s v (pSrc r.pkt) (pByte r.pkt 12 1) → (t.queues[v]).paused = stop := by
  dsimp only
  rw [take_takes harr ht]
  refine ⟨?_, ?_, fun v hv => ?_⟩
  · rw [(leaveBuffer_keepsArrivals _ l r).2 l]
    unfold qflowIn
    rw [flowIn_rxq, accepted_link]
  · rw [leaveBuffer_net]
    exact mem_stops_flowIn _ _ _ _
  · rw [(leaveBuffer_quiet _ l r).queues]
    exact flowIn_paused (hv.of_regs (accepted_regs s l r rest)) _

/-! ### The discards (R283) -/

/-- Each command of a packet type but COLL, READ and WRITE takes in the first packet of the receive buffer. -/
theorem exec_intake {s : State} {l : LinkId} {i : Instr} (hheld : s.power.held = false)
    (hi : i ∈ [Instr.qcells l, .readRsp l, .writeAck l, .collAck l, .qflow l, .timeRequest l, .timeReply l]) :
    ∃ want body, exec i s = .next (intake s l want body) := by
  simp only [List.mem_cons, List.not_mem_nil, or_false] at hi
  have hlive (want : Pkt → Bool) (body : State → RxWait → State) :
      Host.Outcome.next (s.live (intake s l want body)) = (.next (intake s l want body) : Out) := by
    rw [live_of_held hheld]
  rcases hi with rfl | rfl | rfl | rfl | rfl | rfl | rfl <;> exact ⟨_, _, hlive _ _⟩

/-- Settles O40: an answer replaces the run of the transfer that waits for it, and the other commands act on the packet that they
take out of the receive buffer. -/
theorem peerAnswerResult : Obligations.PeerAnswerResult := by
  unfold Obligations.PeerAnswerResult
  intro l s r rest q c ch seq d o p waiting mine d' done hheld
  have hone : waiting → OneOut s q c ch seq d o := fun ⟨hreqs, howner, hrun, hout, _, hpend, hcairn⟩ =>
    ⟨hreqs, howner, hrun, hout, hpend, hcairn⟩
  have hnext {t : State} : Host.Outcome.next (s.live t) = (.next t : Out) := by rw [live_of_held hheld]
  have hdone {i : Instr} {ptype : Nat} (hi : exec i s = .next (s.live (take s l ptype answerIn))) :
      mine → pType p = ptype → (pType q.pkt == 2) = (ptype == 5) → done i (d.answered o (pByte p 12 1) p.data) :=
    fun ⟨hwait, harr, htag, hdev, hjob⟩ htype hkind =>
      ⟨_, hi.trans hnext, (hone hwait).take harr htag hdev hjob htype hkind⟩
  refine ⟨?_, ?_, ?_, ?_, ?_, ?_, ?_⟩
  · intro hmine htype hread hcode hwriting
    have h := hdone (i := .readRsp l) rfl hmine htype (by simp [hread])
    rwa [hcode, DmaRun.answered_read o p.data hwriting] at h
  · intro hmine htype hread hcode
    have h := hdone (i := .readRsp l) rfl hmine htype (by simp [hread])
    rwa [d.answered_failed o p.data hcode] at h
  · intro hmine htype hwrite hcode hwriting
    have h := hdone (i := .writeAck l) rfl hmine htype (by simp [hwrite])
    rwa [hcode, DmaRun.answered_write o p.data hwriting] at h
  · intro tag hwait htag
    refine ⟨fun m hfew hplane => ⟨_, hnext, ?_⟩, fun hmany => ⟨_, hnext, ?_⟩⟩
    · rw [← htag]
      exact (hone hwait).e2eTimeout_resends hfew hplane
    · have hans := (hone hwait).answer 8 []
      rw [← htag, (hone hwait).e2eTimeout_fails hmany]
      exact ⟨hans.reqs, hans.run⟩
  · intro v harr htype hv
    refine ⟨_, hnext, ?_⟩
    rw [qcellsIn_takes harr htype hv, State.setLink_links_self]
    exact ⟨rfl, rfl, (accepted_quiet s l r rest).queues⟩
  · intro harr htype key
    obtain ⟨hrxq, hstops, hpaused⟩ := take_qflowIn harr htype
    refine ⟨_, hnext, hrxq, hstops.trans beq_iff_eq, fun v hfwd hdest => hpaused v ⟨hfwd, ?_, ?_⟩⟩
    · exact congrArg Prod.fst hdest
    · exact congrArg Prod.snd hdest
  · intro hrxq hecrc i hi
    obtain ⟨want, body, hexec⟩ := exec_intake hheld hi
    obtain ⟨hquiet, hrest⟩ := intake_discards (want := want) (body := body) hrxq hecrc
    exact ⟨_, hexec, hrest, hquiet.gddr, hquiet.queues, hquiet.cores⟩

end Sys2Proof.Machine
end

section
/-!
SETTLEMENT. The memories stay canonical (O4): every command keeps the waiting commands and the canonical form of every byte
memory, each by the law of its own meaning (R224, R246, R249, R253, R259, R262, R410, R413).
-/

namespace Sys2Proof.Machine

/-- Every command that answers a next state keeps the waiting commands and the canonical memories. -/
theorem exec_keeps {pq : List Instr} {i : Instr} {s t : State} (hq : Keeps pq s) (he : exec i s = .next t) : Keeps pq t := by
  cases i with
  | registerWrite => exact execRegisterWrite_keeps hq he | rcRegisterRead => exact execRcRegisterRead_keeps hq he
  | nop => exact execNop_keeps hq he | halt => exact execHalt_keeps hq he | yield => exact execYield_keeps hq he
  | jmp => exact execJmp_keeps hq he | call => exact execCall_keeps hq he | ret => exact execRet_keeps hq he
  | loop => exact execLoop_keeps hq he | add => exact execAdd_keeps hq he | sub => exact execSub_keeps hq he
  | and => exact execAnd_keeps hq he | or => exact execOr_keeps hq he | xor => exact execXor_keeps hq he
  | shl => exact execShl_keeps hq he | shr => exact execShr_keeps hq he | sra => exact execSra_keeps hq he
  | mul => exact execMul_keeps hq he | cmp => exact execCmp_keeps hq he | li => exact execLi_keeps hq he
  | ld => exact execLd_keeps hq he | st => exact execSt_keeps hq he | getsys => exact execGetsys_keeps hq he
  | vld => exact execVld_keeps hq he | vst => exact execVst_keeps hq he | vadd => exact execVadd_keeps hq he
  | vsub => exact execVsub_keeps hq he | vmul => exact execVmul_keeps hq he | vfma => exact execVfma_keeps hq he
  | vmax => exact execVmax_keeps hq he | vmin => exact execVmin_keeps hq he | vcvt => exact execVcvt_keeps hq he
  | vquant => exact execVquant_keeps hq he | vdeq => exact execVdeq_keeps hq he | vhad => exact execVhad_keeps hq he
  | vred => exact execVred_keeps hq he | vcbld => exact execVcbld_keeps hq he | vhist => exact execVhist_keeps hq he
  | vste => exact execVste_keeps hq he | vfix => exact execVfix_keeps hq he | vaddx => exact execVaddx_keeps hq he
  | vsel => exact execVsel_keeps hq he | vbcast => exact execVbcast_keeps hq he | vmovs => exact execVmovs_keeps hq he
  | xferCopy => exact execXferCopy_keeps hq he | pass => exact execPass_keeps hq he
  | qopPush => exact execQopPush_keeps hq he | qopPop => exact execQopPop_keeps hq he
  | qopDrop => exact execQopDrop_keeps hq he | qopStat => exact execQopStat_keeps hq he
  | qopCommit => exact execQopCommit_keeps hq he | qopCancel => exact execQopCancel_keeps hq he
  | dispRoute => exact execDispRoute_keeps hq he | dispCommit => exact execDispCommit_keeps hq he
  | dispCancel => exact execDispCancel_keeps hq he | dispStat => exact execDispStat_keeps hq he
  | signal => exact execSignal_keeps hq he | wait => exact execWait_keeps hq he | set => exact execSet_keeps hq he
  | fence => exact execFence_keeps hq he | slotFill => exact execSlotFill_keeps hq he
  | slotDrain => exact execSlotDrain_keeps hq he | slotWaitf => exact execSlotWaitf_keeps hq he
  | slotWaite => exact execSlotWaite_keeps hq he | unitInstrStart => exact execUnitInstrStart_keeps hq he
  | unitInstrComplete => exact execUnitInstrComplete_keeps hq he
  | haltDrainComplete => exact execHaltDrainComplete_keeps hq he
  | semaphoreSignalApply => exact execSemaphoreSignalApply_keeps hq he
  | heldSignalRetry => exact execHeldSignalRetry_keeps hq he
  | semTimeoutExpiry => exact execSemTimeoutExpiry_keeps hq he
  | slotTimeoutExpiry => exact execSlotTimeoutExpiry_keeps hq he | coreStart => exact execCoreStart_keeps hq he
  | coreStop => exact execCoreStop_keeps hq he | coreStep => exact execCoreStep_keeps hq he
  | yieldReq => exact execYieldReq_keeps hq he | coreSaveComplete => exact execCoreSaveComplete_keeps hq he
  | coreRestoreComplete => exact execCoreRestoreComplete_keeps hq he
  | imemDataLoWrite => exact execImemDataLoWrite_keeps hq he | imemDataHiWrite => exact execImemDataHiWrite_keeps hq he
  | imemDataHiRead => exact execImemDataHiRead_keeps hq he | passStart => exact execPassStart_keeps hq he
  | passComplete => exact execPassComplete_keeps hq he | muSpareWrite => exact execMuSpareWrite_keeps hq he
  | vqClr => exact execVqClr_keeps hq he | dispatchRequestStart => exact execDispatchRequestStart_keeps hq he
  | dispatchRequestEffect => exact execDispatchRequestEffect_keeps hq he | duCancel => exact execDuCancel_keeps hq he
  | duStatclr => exact execDuStatclr_keeps hq he | duTblOwnerWrite => exact execDuTblOwnerWrite_keeps hq he
  | duTblEnWrite => exact execDuTblEnWrite_keeps hq he | dtEntryWrite => exact execDtEntryWrite_keeps hq he
  | queueCellAccept => exact execQueueCellAccept_keeps hq he | queuePoolRefill => exact execQueuePoolRefill_keeps hq he
  | queueMarkerApply => exact execQueueMarkerApply_keeps hq he
  | queueForwardSend => exact execQueueForwardSend_keeps hq he | qfcInRise => exact execQfcInRise_keeps hq he
  | queueEn => exact execQueueEn_keeps hq he | queueFlush => exact execQueueFlush_keeps hq he
  | queueClr => exact execQueueClr_keeps hq he | qWmWrite => exact execQWmWrite_keeps hq he
  | queueWindowPush => exact execQueueWindowPush_keeps hq he | spLaneRewrite => exact execSpLaneRewrite_keeps hq he
  | spClear => exact execSpClear_keeps hq he | spClearComplete => exact execSpClearComplete_keeps hq he
  | spBankPwr => exact execSpBankPwr_keeps hq he
  | bankTransitionComplete => exact execBankTransitionComplete_keeps hq he
  | dmaTransferStart => exact execDmaTransferStart_keeps hq he
  | dmaTransferComplete => exact execDmaTransferComplete_keeps hq he
  | windowAccessRetry => exact execWindowAccessRetry_keeps hq he | memRequest => exact execMemRequest_keeps hq he
  | memRequestComplete => exact execMemRequestComplete_keeps hq he | gddr7Retrain => exact execGddr7Retrain_keeps hq he
  | scrubRead => exact execScrubRead_keeps hq he | gddr7SelfRefresh => exact execGddr7SelfRefresh_keeps hq he
  | cxlPortEn => exact execCxlPortEn_keeps hq he | cxlEnumComplete => exact execCxlEnumComplete_keeps hq he
  | cxlResponse => exact execCxlResponse_keeps hq he | cxlTimeoutExpiry => exact execCxlTimeoutExpiry_keeps hq he
  | cxlLinkLoss => exact execCxlLinkLoss_keeps hq he | cxlCfgDataAccess => exact execCxlCfgDataAccess_keeps hq he
  | linkEn => exact execLinkEn_keeps hq he | laneLock => exact execLaneLock_keeps hq he
  | laneAlign => exact execLaneAlign_keeps hq he | paramFlit => exact execParamFlit_keeps hq he
  | linkStateTimeout => exact execLinkStateTimeout_keeps hq he
  | linkFailedRetry => exact execLinkFailedRetry_keeps hq he | laneLockLoss => exact execLaneLockLoss_keeps hq he
  | dataFlit => exact execDataFlit_keeps hq he | idleFlit => exact execIdleFlit_keeps hq he
  | nakFlit => exact execNakFlit_keeps hq he | ackTimeoutExpiry => exact execAckTimeoutExpiry_keeps hq he
  | linkPacketStart => exact execLinkPacketStart_keeps hq he | qcells => exact execQcells_keeps hq he
  | write => exact execWrite_keeps hq he | read => exact execRead_keeps hq he
  | readRsp => exact execReadRsp_keeps hq he | writeAck => exact execWriteAck_keeps hq he
  | e2eTimeoutExpiry => exact execE2eTimeoutExpiry_keeps hq he | coll => exact execColl_keeps hq he
  | collAck => exact execCollAck_keeps hq he | collNakTimerExpiry => exact execCollNakTimerExpiry_keeps hq he
  | collResendTimerExpiry => exact execCollResendTimerExpiry_keeps hq he | qflow => exact execQflow_keeps hq he
  | repinHoldExpiry => exact execRepinHoldExpiry_keeps hq he | routeEntryWrite => exact execRouteEntryWrite_keeps hq he
  | planeEnWrite => exact execPlaneEnWrite_keeps hq he | timeExchange => exact execTimeExchange_keeps hq he
  | timeRequest => exact execTimeRequest_keeps hq he | timeReply => exact execTimeReply_keeps hq he
  | handoverAccept => exact execHandoverAccept_keeps hq he | exp => exact execExp_keeps hq he
  | pending => exact execPending_keeps hq he | deadlineExpiry => exact execDeadlineExpiry_keeps hq he
  | decide => exact execDecide_keeps hq he | rclWorkResult => exact execRclWorkResult_keeps hq he
  | rclReadyReached => exact execRclReadyReached_keeps hq he | belayRelease => exact execBelayRelease_keeps hq he
  | ready => exact execReady_keeps hq he | fail => exact execFail_keeps hq he | commit => exact execCommit_keeps hq he
  | abandon => exact execAbandon_keeps hq he | commitTimeoutExpiry => exact execCommitTimeoutExpiry_keeps hq he
  | commitWaitExpiry => exact execCommitWaitExpiry_keeps hq he | cairnComplete => exact execCairnComplete_keeps hq he
  | jobEn => exact execJobEn_keeps hq he | jobBelayEn => exact execJobBelayEn_keeps hq he
  | jobFail => exact execJobFail_keeps hq he | sqDoorbell => exact execSqDoorbell_keeps hq he
  | cqDoorbell => exact execCqDoorbell_keeps hq he | descriptorFetch => exact execDescriptorFetch_keeps hq he
  | descriptorStart => exact execDescriptorStart_keeps hq he
  | descriptorComplete => exact execDescriptorComplete_keeps hq he | hostNop => exact execHostNop_keeps hq he
  | loadProg => exact execLoadProg_keeps hq he | run => exact execRun_keeps hq he
  | runComplete => exact execRunComplete_keeps hq he | runTimeoutExpiry => exact execRunTimeoutExpiry_keeps hq he
  | copy => exact execCopy_keeps hq he | qpush => exact execQpush_keeps hq he | qpop => exact execQpop_keeps hq he
  | qpopComplete => exact execQpopComplete_keeps hq he | qpopTimeoutExpiry => exact execQpopTimeoutExpiry_keeps hq he
  | hostSignal => exact execHostSignal_keeps hq he | generate => exact execGenerate_keeps hq he
  | modelInstall => exact execModelInstall_keeps hq he | modelEvict => exact execModelEvict_keeps hq he
  | modelPin => exact execModelPin_keeps hq he | modelUnpin => exact execModelUnpin_keeps hq he
  | modelSetPriority => exact execModelSetPriority_keeps hq he | jobOpen => exact execJobOpen_keeps hq he
  | jobClose => exact execJobClose_keeps hq he | preempt => exact execPreempt_keeps hq he
  | preemptTimeoutExpiry => exact execPreemptTimeoutExpiry_keeps hq he | jobPlace => exact execJobPlace_keeps hq he
  | jobRelease => exact execJobRelease_keeps hq he | msixDelayExpiry => exact execMsixDelayExpiry_keeps hq he
  | msixUnmask => exact execMsixUnmask_keeps hq he | ringEn => exact execRingEn_keeps hq he
  | hoRelease => exact execHoRelease_keeps hq he | hoTake => exact execHoTake_keeps hq he
  | hoHeartbeat => exact execHoHeartbeat_keeps hq he | hbTimeoutExpiry => exact execHbTimeoutExpiry_keeps hq he
  | ownerLinkDownTimer => exact execOwnerLinkDownTimer_keeps hq he
  | handoverComplete => exact execHandoverComplete_keeps hq he
  | portDataLinkDown => exact execPortDataLinkDown_keeps hq he | flrPf => exact execFlrPf_keeps hq he
  | flrVf => exact execFlrVf_keeps hq he | bar4Access => exact execBar4Access_keeps hq he
  | modReset => exact execModReset_keeps hq he | perstNOwner => exact execPerstNOwner_keeps hq he
  | perstNStandby => exact execPerstNStandby_keeps hq he | telExport => exact execTelExport_keeps hq he
  | telExportRun => exact execTelExportRun_keeps hq he | telExportDone => exact execTelExportDone_keeps hq he
  | powerInputValid => exact execPowerInputValid_keeps hq he | ponTimerExpiry => exact execPonTimerExpiry_keeps hq he
  | bootClockReady => exact execBootClockReady_keeps hq he | bootDone => exact execBootDone_keeps hq he
  | powerInputLost => exact execPowerInputLost_keeps hq he | pdReqWrite => exact execPdReqWrite_keeps hq he
  | pdSwitchOnComplete => exact execPdSwitchOnComplete_keeps hq he
  | powerStageFault => exact execPowerStageFault_keeps hq he | sclkLoss => exact execSclkLoss_keeps hq he
  | clockRecoveryTimer => exact execClockRecoveryTimer_keeps hq he | kclkPllLoss => exact execKclkPllLoss_keeps hq he
  | kclkPllRelock => exact execKclkPllRelock_keeps hq he | mclkPllLoss => exact execMclkPllLoss_keeps hq he
  | mclkPllRelock => exact execMclkPllRelock_keeps hq he | lclkPllLoss => exact execLclkPllLoss_keeps hq he
  | lclkPllRelock => exact execLclkPllRelock_keeps hq he | hostRefclkLoss => exact execHostRefclkLoss_keeps hq he
  | cxlRefclkLoss => exact execCxlRefclkLoss_keeps hq he | cxlRefclkRestored => exact execCxlRefclkRestored_keeps hq he
  | governorEvaluation => exact execGovernorEvaluation_keeps hq he | govCfgWrite => exact execGovCfgWrite_keeps hq he
  | junctionOvertemp => exact execJunctionOvertemp_keeps hq he
  | thermalRecoveryTimer => exact execThermalRecoveryTimer_keeps hq he
  | brumationGo => exact execBrumationGo_keeps hq he | brumationEntryEnd => exact execBrumationEntryEnd_keeps hq he
  | wakeN => exact execWakeN_keeps hq he | wakeComplete => exact execWakeComplete_keeps hq he
  | wdtKick => exact execWdtKick_keeps hq he | wdtTimeoutExpiry => exact execWdtTimeoutExpiry_keeps hq he
  | mgrResetComplete => exact execMgrResetComplete_keeps hq he | attest => exact execAttest_keeps hq he
  | getCert => exact execGetCert_keeps hq he | enrol => exact execEnrol_keeps hq he
  | revoke => exact execRevoke_keeps hq he | stage => exact execStage_keeps hq he
  | commitFw => exact execCommitFw_keeps hq he | activate => exact execActivate_keeps hq he
  | setEndpointId => exact execSetEndpointId_keeps hq he | getEndpointId => exact execGetEndpointId_keeps hq he
  | getMctpVersionSupport => exact execGetMctpVersionSupport_keeps hq he
  | getMessageTypeSupport => exact execGetMessageTypeSupport_keeps hq he
  | getVendorDefinedMessageSupport => exact execGetVendorDefinedMessageSupport_keeps hq he
  | getTid => exact execGetTid_keeps hq he | getPldmVersion => exact execGetPldmVersion_keeps hq he
  | getPldmTypes => exact execGetPldmTypes_keeps hq he | getPldmCommands => exact execGetPldmCommands_keeps hq he
  | getSensorReading => exact execGetSensorReading_keeps hq he
  | getStateSensorReadings => exact execGetStateSensorReadings_keeps hq he
  | getPdrRepositoryInfo => exact execGetPdrRepositoryInfo_keeps hq he | getPdr => exact execGetPdr_keeps hq he
  | queryDeviceIdentifiers => exact execQueryDeviceIdentifiers_keeps hq he
  | getFirmwareParameters => exact execGetFirmwareParameters_keeps hq he
  | requestUpdate => exact execRequestUpdate_keeps hq he
  | passComponentTable => exact execPassComponentTable_keeps hq he
  | updateComponent => exact execUpdateComponent_keeps hq he
  | activateFirmware => exact execActivateFirmware_keeps hq he | getStatus => exact execGetStatus_keeps hq he
  | cancelUpdate => exact execCancelUpdate_keeps hq he | shelfAlertAssert => exact execShelfAlertAssert_keeps hq he
  | shelfAlertRelease => exact execShelfAlertRelease_keeps hq he
  | coolantAlertAssert => exact execCoolantAlertAssert_keeps hq he
  | coolantAlertRelease => exact execCoolantAlertRelease_keeps hq he | tapReset => exact execTapReset_keeps hq he
  | extest => exact execExtest_keeps hq he | idcode => exact execIdcode_keeps hq he
  | samplePreload => exact execSamplePreload_keeps hq he | clamp => exact execClamp_keeps hq he
  | highz => exact execHighz_keeps hq he | dbg => exact execDbg_keeps hq he | bypass => exact execBypass_keeps hq he
  | perstNRelease => exact execPerstNRelease_keeps hq he | portDataLinkUp => exact execPortDataLinkUp_keeps hq he
  | pcieConfigWrite => exact execPcieConfigWrite_keeps hq he
  | completionTimeoutExpiry => exact execCompletionTimeoutExpiry_keeps hq he

/-- Settles O4: an idle step changes nothing, and any other runs one command behind which the rest of the queue waits. -/
theorem stepKeepsMemoriesCanonical : Obligations.StepKeepsMemoriesCanonical := by
  unfold Obligations.StepKeepsMemoriesCanonical
  intro s t hs hstep
  unfold step at hstep
  split at hstep
  · obtain rfl := Host.Outcome.next.inj hstep
    exact hs
  · next i rest _ =>
    have hrest : Keeps rest { s with pending := rest } := ⟨rfl, hs⟩
    obtain ⟨-, ht⟩ := exec_keeps hrest hstep
    exact ht

end Sys2Proof.Machine
end

section
/-!
SUPPORT. What decides where a packet goes and whose it is (R270, R284, R285): registers, planes and the states of the links. An
event, the failing of a step and the counting of an access leave it as it was.
-/

namespace Sys2Proof.Machine

/-- A register that decides where a packet goes and which device sends it, or whether module memory serves (R250, R251, R270,
R285). -/
def SteersAccess (a : Nat) : Prop :=
  a = memBase ∨ a = pwrBase + 0x60 ∨ a = lnkBase ∨ a = lnkBase + 0x10 ∨ ∃ d, d < 0x8000 ∧ a = routeAddr d

/-- The registers that steer an access, the planes used last and the states of the links are in `t` as in `s`. -/
structure SteersAlike (s t : State) : Prop where
  regs : ∀ a, SteersAccess a → t.rd a = s.rd a
  last : t.net.lastPlane = s.net.lastPlane
  live : ∀ l : LinkId, (t.links[l]).st = (s.links[l]).st

section
variable {s t v : State}

theorem steersAlike_trans (h : SteersAlike s t) (k : SteersAlike t v) : SteersAlike s v :=
  ⟨fun a ha => (k.regs a ha).trans (h.regs a ha), k.last.trans h.last, fun l => (k.live l).trans (h.live l)⟩

theorem steersAlike_of_eq (hregs : t.regs = s.regs) (hnet : t.net = s.net) (hlinks : t.links = s.links) :
    SteersAlike s t :=
  ⟨fun a _ => by rw [State.rd, State.rd, hregs], by rw [hnet], fun _ => by rw [hlinks]⟩

theorem steersAlike_refl (s : State) : SteersAlike s s := steersAlike_of_eq rfl rfl rfl

theorem State.wr_steersAlike (s : State) {a : Nat} (v : W64) (h : ¬ SteersAccess a) : SteersAlike s (s.wr a v) :=
  ⟨fun b hb => State.rd_wr_other s a b v fun e => h (e ▸ hb), rfl, fun _ => rfl⟩

theorem State.setLink_steersAlike (s : State) {l : LinkId} {k : Link} (h : k.st = (s.links[l]).st) :
    SteersAlike s (s.setLink l k) := by
  refine ⟨fun _ _ => rfl, rfl, fun m => ?_⟩
  by_cases hm : m = l
  · subst hm
    rw [State.setLink_links_self, h]
  · rw [State.setLink_links_other s l m k hm]

theorem choosePlane_alike (h : SteersAlike s t) {die vc dst job : Nat} (hvc : pinnedVc vc = false) (hd : dst < 0x8000) :
    choosePlane t die vc dst job = choosePlane s die vc dst job := by
  have hlive : liveMask t = liveMask s := by
    unfold liveMask
    simp only [h.live]
  have husable : usable t dst job = usable s dst job := by
    unfold usable
    rw [hlive, h.regs _ (.inr (.inr (.inr (.inl rfl)))), h.regs _ (.inr (.inr (.inr (.inr ⟨dst, hd, rfl⟩))))]
  unfold choosePlane
  rw [hvc, husable, h.last]
  rfl

theorem mkPkt_alike (h : SteersAlike s t) (ptype tc rsp job dst tag : Nat) (tf data : List Byte) :
    mkPkt t ptype tc rsp job dst tag tf data = mkPkt s ptype tc rsp job dst tag tf data := by
  unfold mkPkt State.devid
  rw [h.regs _ (.inr (.inr (.inl rfl)))]

end

/-! ### Events (R8, R350) -/

section
variable (s : State)

theorem lowRegs_steerNothing {a : Nat} (h : a < 0x40000) : ¬ SteersAccess a := by
  unfold SteersAccess memBase pwrBase lnkBase routeAddr
  omega

theorem State.vector_steersAlike (fn vec : Nat) : SteersAlike s (s.vector fn vec) := by
  unfold State.vector
  dsimp only
  split
  · exact steersAlike_of_eq rfl rfl rfl
  · split <;> exact steersAlike_of_eq rfl rfl rfl

theorem State.due_steersAlike (r : RingId) : SteersAlike s (s.due r) := by
  unfold State.due
  dsimp only
  split
  · exact State.vector_steersAlike s _ _
  · exact steersAlike_of_eq rfl rfl rfl

theorem State.putRecord_steersAlike (r : RingId) (bytes : List Byte) (phaseAt : Nat) (irq : Bool) :
    SteersAlike s (s.putRecord r bytes phaseAt irq) := by
  have hput (h : HostPorts) : SteersAlike s { s with host := h } := steersAlike_of_eq rfl rfl rfl
  unfold State.putRecord
  dsimp only
  split
  · exact steersAlike_trans (hput _) (State.due_steersAlike _ r)
  · exact hput _

theorem State.now_steersAlike : SteersAlike s s.now.2 := steersAlike_of_eq rfl rfl rfl

theorem State.evtLost_steersAlike : SteersAlike s s.evtLost := by
  unfold State.evtLost
  split
  · exact steersAlike_refl s
  · have hor : SteersAlike s (s.now.2.orReg 0x20 1#64) :=
      steersAlike_trans (State.now_steersAlike s) (State.wr_steersAlike _ _ (lowRegs_steerNothing (a := 0x20) (by decide)))
    dsimp only
    split
    · exact steersAlike_trans hor (steersAlike_of_eq rfl rfl rfl)
    · refine steersAlike_trans (steersAlike_trans hor ?_) (State.putRecord_steersAlike _ _ _ _ _)
      exact steersAlike_of_eq rfl rfl rfl

theorem State.evtRecord_steersAlike (bytes : List Byte) : SteersAlike s (s.evtRecord bytes) := by
  refine steersAlike_trans (State.evtLost_steersAlike s) ?_
  unfold State.evtRecord
  dsimp only
  split
  · exact State.putRecord_steersAlike _ _ _ _ _
  · exact steersAlike_trans (State.wr_steersAlike _ _ (lowRegs_steerNothing (by decide))) (steersAlike_of_eq rfl rfl rfl)

theorem State.record_steersAlike {code inst sub : Nat} (h : ¬ SteersAccess (evtReg code inst sub).2.1)
    (job dev : Option Nat) (a0 a1 : Nat) : SteersAlike s (s.record code inst sub job dev a0 a1) := by
  have hor := State.wr_steersAlike s (s.rd (evtReg code inst sub).2.1 ||| BitVec.ofNat 64 (2 ^ (evtReg code inst sub).2.2)) h
  unfold State.record
  dsimp only
  split
  · exact hor
  · exact steersAlike_trans hor (steersAlike_trans (State.now_steersAlike _) (State.evtRecord_steersAlike _ _))

/-! ### The failing of a step (R322) -/

/-- A packet of a pinned channel leaves the striped channels' planes as they were (R285). -/
theorem sendPkt_steersAlike (die : Nat) {vc : Nat} (hvc : pinnedVc vc = true) (job dst : Nat) (p : Pkt) (q : Option QId) :
    SteersAlike s (sendPkt s die vc job dst p q).1 := by
  unfold sendPkt
  split
  · exact steersAlike_refl s
  · dsimp only
    rw [hvc, if_pos rfl]
    refine steersAlike_trans ?_ (State.setLink_steersAlike _ rfl)
    exact ⟨fun _ _ => rfl, rfl, fun _ => rfl⟩

theorem unreachable_steersAlike (job : Option Nat) (dst : Nat) (p : Pkt) : SteersAlike s (unreachable s job dst p) := by
  refine State.record_steersAlike s ?_ _ _ _ _
  show ¬ SteersAccess (lnkBase + 0x60)
  unfold SteersAccess memBase pwrBase lnkBase routeAddr
  omega

theorem sendFail_steersAlike (j : JobId) : SteersAlike s (sendFail s j) := by
  unfold sendFail sendSync
  dsimp only
  split
  · exact ⟨fun _ _ => rfl, rfl, fun _ => rfl⟩
  · have hsend (p : Pkt) := sendPkt_steersAlike s 0 (vc := 6) rfl j (member s j 0) p none
    split
    · next t ht =>
      have hsent := congrArg Prod.fst ht ▸ hsend _
      exact hsent
    · next t ht =>
      have hsent := congrArg Prod.fst ht ▸ hsend _
      exact steersAlike_trans hsent (unreachable_steersAlike t _ _ _)

theorem State.setRclJob_steersAlike (j : JobId) (k : RclJob) : SteersAlike s (s.setRclJob j k) :=
  steersAlike_of_eq rfl rfl rfl

theorem State.failStep_steersAlike (job : Option Nat) : SteersAlike s (s.failStep job) := by
  unfold State.failStep
  split
  · exact steersAlike_refl s
  · dsimp only
    split
    · exact steersAlike_refl s
    · split
      · exact State.setRclJob_steersAlike s _ _
      · split
        · exact steersAlike_refl s
        · exact steersAlike_trans (State.setRclJob_steersAlike s _ _) (sendFail_steersAlike _ _)

end

end Sys2Proof.Machine
end

section
/-!
SUPPORT. An access of a peer to module memory that serves (R250, R253, R259): one that a window admits reads or writes exactly
its bytes, and one that none admits is logged.
-/

namespace Sys2Proof.Machine

/-! ### What a served access changes -/

/-- `t` is `s` with other bytes and error marks of module memory and other registers, none of them one that steers an access. -/
def Accessed (s t : State) : Prop :=
  t = { s with regs := t.regs, gddr := t.gddr, gddrErr := t.gddrErr } ∧ ∀ a, SteersAccess a → t.rd a = s.rd a

section
variable {s t v : State}

theorem accessed_refl (s : State) : Accessed s s := ⟨rfl, fun _ _ => rfl⟩

theorem accessed_trans (h : Accessed s t) (k : Accessed t v) : Accessed s v := by
  obtain ⟨hframe, hregs⟩ := h
  obtain ⟨kframe, kregs⟩ := k
  refine ⟨?_, fun a ha => (kregs a ha).trans (hregs a ha)⟩
  rw [kframe, hframe]

theorem accessed_foldl {α : Type} {f : State → α → State} {l : List α} (hf : ∀ x ∈ l, ∀ s, Accessed s (f s x))
    (s : State) : Accessed s (l.foldl f s) := by
  induction l generalizing s with
  | nil => exact accessed_refl s
  | cons x l ih =>
    exact accessed_trans (hf x List.mem_cons_self s) (ih (fun y hy => hf y (List.mem_cons_of_mem x hy)) (f s x))

theorem Accessed.links (h : Accessed s t) : t.links = s.links := by rw [h.1]

theorem Accessed.cores (h : Accessed s t) : t.cores = s.cores := by rw [h.1]

theorem Accessed.steersAlike (h : Accessed s t) : SteersAlike s t :=
  ⟨h.2, by rw [h.1], fun l => by rw [h.links]⟩

theorem State.wr_accessed (s : State) {a : Nat} (x : W64) (h : ¬ SteersAccess a) : Accessed s (s.wr a x) :=
  ⟨rfl, (State.wr_steersAlike s x h).regs⟩

theorem gddrCount_accessed (s : State) (a len : Nat) {reg : Nat} (h : reg < 0x1000) :
    Accessed s (gddrCount s a len reg) := by
  refine accessed_foldl (fun l _ s => State.wr_accessed s _ ?_) s
  have hg := (ctrlOf (64 * l)).isLt
  unfold SteersAccess memBase pwrBase lnkBase routeAddr ctrlBase
  omega

theorem dirtyGddr_accessed (s : State) (a len : Nat) : Accessed s (dirtyGddr s a len) := by
  refine accessed_foldl (fun e he s => ?_) s
  have he := List.mem_range.mp he
  dsimp only
  split
  · exact State.wr_accessed s _ (lowRegs_steerNothing (by unfold rmtBase; omega))
  · exact accessed_refl s

theorem GddrFree.wr {a n b : Nat} (h : GddrFree s a n) (x : W64) (hb : ¬ SteersAccess b) : GddrFree (s.wr b x) a n := by
  obtain ⟨hserve, htop, hmarks, hcrc, hchecks⟩ := h
  have hregs := (State.wr_steersAlike s x hb).regs
  have hprot := hregs memBase (.inl rfl)
  have hdom (d : Nat) : (s.wr b x).domainOn d = s.domainOn d := by
    unfold State.domainOn
    rw [hregs _ (.inr (.inl rfl))]
    rfl
  refine ⟨?_, ?_, ?_, hcrc, hchecks⟩
  · unfold gddrServe gddrReady at hserve ⊢
    simp only [hdom]
    exact hserve
  · unfold gddrTop at htop ⊢
    rwa [hprot]
  · unfold gddrMarks at hmarks ⊢
    rwa [hprot]

end

theorem withGddr_accessed (s : State) (m : Memory) : Accessed s (withGddr s m) := ⟨rfl, fun _ _ => rfl⟩

/-! ### One access (R250, R253) -/

theorem GddrFree.top {s : State} {a n : Nat} (h : GddrFree s a n) : a + n ≤ gddrTop s := h.2.1

theorem GddrFree.marks {s : State} {a n : Nat} (h : GddrFree s a n) : gddrMarks s a n = [] := h.2.2.1

/-- The bytes of module memory after an access that goes ahead, and the bytes that it gives back. -/
def accessEnds (m : Memory) (a n : Nat) : Option (List Byte) → Memory × List Byte
  | none => (m, m.read a n)
  | some bs => (m.write a bs, [])

section
variable {s : State} {a n : Nat} (h : GddrFree s a n)
include h

theorem gddrRead_accesses (job : Option Nat) :
    ∃ t, gddrRead s job a n = (t, s.gddr.read a n, none) ∧ Accessed s t ∧ t.gddr = s.gddr := by
  have hstate : (gddrRead s job a n).1 = gddrCount s a n 0x58 := by
    unfold gddrRead
    rw [gddrCrc_free h]
    dsimp only
    rw [h.marks]
    rfl
  exact ⟨gddrCount s a n 0x58, Prod.ext hstate (gddrRead_free h job), gddrCount_accessed s a n (by decide),
    (gddrCount_quiet s a n 0x58).gddr⟩

/-- A write with nothing wrong is counted before its bytes arrive (R264). -/
theorem writeStage_accessed (job : Option Nat) {bs : List Byte} (hn : bs.length = n) :
    Accessed s (writeStage s job a bs) ∧ (writeStage s job a bs).gddr = s.gddr := by
  have hbeside := writeStage_beside 0 s job a bs
  rw [hn, checksSettle_free h] at hbeside
  refine ⟨?_, hbeside.2.1⟩
  unfold writeStage
  dsimp only
  rw [hn, checksSettle_free h, gddrCrc_free h, h.marks]
  exact accessed_trans ⟨rfl, fun _ _ => rfl⟩ (gddrCount_accessed _ a n (by decide))

theorem gddrWrite_accesses (job : Option Nat) {bs : List Byte} (hn : bs.length = n) :
    ∃ t, gddrWrite s job a bs = (t, none) ∧ Accessed s t ∧ t.gddr = s.gddr.write a bs := by
  obtain ⟨hstage, hgddr⟩ := writeStage_accessed h job hn
  refine ⟨dirtyGddr (withGddr (writeStage s job a bs) (s.gddr.write a bs)) a n, ?_, ?_, (dirtyGddr_quiet _ a n).gddr⟩
  · rw [← hgddr]
    unfold gddrWrite writeStage
    dsimp only
    rw [hn, checksSettle_free h, gddrCrc_free h, h.marks]
    rfl
  · exact accessed_trans hstage (accessed_trans (withGddr_accessed _ _) (dirtyGddr_accessed _ a n))

theorem gddrNow_accesses (job : Option Nat) {data : Option (List Byte)} (hdata : ∀ bs ∈ data, bs.length = n) :
    ∃ t, gddrNow s job a n data = (t, .ok (accessEnds s.gddr a n data).2) ∧ Accessed s t ∧
      t.gddr = (accessEnds s.gddr a n data).1 := by
  unfold gddrNow
  rw [if_neg (Nat.not_lt.mpr h.top), gddrServe_ready h]
  cases data with
  | none =>
    obtain ⟨t, hread, hacc, hgddr⟩ := gddrRead_accesses h job
    exact ⟨t, by rw [hread]; rfl, hacc, hgddr⟩
  | some bs =>
    obtain ⟨t, hwrite, hacc, hgddr⟩ := gddrWrite_accesses h job (hdata bs rfl)
    exact ⟨t, by dsimp only; rw [hwrite]; rfl, hacc, hgddr⟩

/-! ### The windows (R259) -/

/-- An access that a window admits counts its hit and goes ahead. -/
theorem gddrOutside_admits {src : Source} {job : Nat} {data : Option (List Byte)} (hdata : ∀ bs ∈ data, bs.length = n)
    (hwin : (memWindow s src job a n data.isSome).isSome = true) :
    ∃ t, gddrOutside s src job a n data = (t, .ok (accessEnds s.gddr a n data).2) ∧ Accessed s t ∧
      t.gddr = (accessEnds s.gddr a n data).1 := by
  obtain ⟨w, hw⟩ := Option.isSome_iff_exists.mp hwin
  have hlt : w < 64 := List.mem_range.mp (List.mem_of_find?_eq_some hw)
  have hreg : ¬ SteersAccess (memBase + 0x118 + 0x20 * w) := by
    unfold SteersAccess memBase pwrBase lnkBase routeAddr
    omega
  have hhit := h.wr (BitVec.ofNat 64 (satAdd 32 (s.rd (memBase + 0x118 + 0x20 * w)).toNat 1)) hreg
  obtain ⟨t, hnow, hacc, hgddr⟩ := gddrNow_accesses hhit (some job) hdata
  refine ⟨t, ?_, accessed_trans (State.wr_accessed s _ hreg) hacc, hgddr⟩
  unfold gddrOutside memCheck
  rw [h.1, hw]
  dsimp only [State.count]
  unfold gddrDo
  rw [hhit.1]
  exact hnow

/-- An access that no window admits is rejected. -/
theorem gddrOutside_rejects {src : Source} {job : Nat} {data : Option (List Byte)}
    (hwin : memWindow s src job a n data.isSome = none) :
    gddrOutside s src job a n data = (mwinReject s src job a data.isSome, .fail 3) := by
  unfold gddrOutside memCheck
  rw [h.1, hwin]

end

section
variable (s : State) (src : Source) (job a : Nat) (write : Bool)

theorem mwinReject_quiet : Quiet s (mwinReject s src job a write) := by
  unfold mwinReject
  exact State.raiseDev_quiet (State.wr_quiet (quiet_refl s))

theorem mwinReject_steersAlike : SteersAlike s (mwinReject s src job a write) := by
  have hreg {b : Nat} (h : b = memBase + 0x18 ∨ b = memBase + 0x10) : ¬ SteersAccess b := by
    unfold SteersAccess pwrBase lnkBase routeAddr
    unfold memBase at *
    omega
  unfold mwinReject State.raiseDev
  dsimp only
  rw [if_pos rfl]
  refine steersAlike_trans (steersAlike_trans ?_ (State.record_steersAlike _ (hreg (.inr rfl)) _ _ _ _))
    (State.failStep_steersAlike _ _)
  exact State.wr_steersAlike s _ (hreg (.inl rfl))

/-- MWIN_REJ_LOG is valid after a rejection (R259). -/
theorem mwinReject_logs : bit ((mwinReject s src job a write).rd (memBase + 0x18)) 63 = true := by
  refine State.raiseDev_keepsSetBits _ _ _ _ _ _ _ _ _ _ _ (by decide) ?_
  rw [State.rd_wr_self, bit, BitVec.getLsbD_or]
  rfl

end

end Sys2Proof.Machine
end

section
/-!
SETTLEMENT. READ and WRITE of a peer (O39): a request that arrives, or that was held and is tried again, is served and answered
(R231, R232, R259, R281, R283).
-/

namespace Sys2Proof.Machine

/-! ### The answer (R281, R285) -/

/-- What the units given back change of a link (R278). -/
theorem leaveBuffer_link (s : State) (l : LinkId) (r : RxWait) : ∃ pool rsv rets, leaveBuffer s l r =
    s.setLink l { s.links[l] with rxPool := pool, rxRsv := rsv, rets := rets } := by
  unfold leaveBuffer returnCredit
  split
  · exact ⟨_, _, _, (State.setLink_same s l).symm⟩
  · dsimp only
    split <;> exact ⟨_, _, _, rfl⟩

/-- The packet `y` has entered the transmit queue of plane `m` in `t`; what the receive buffers hold and the registers are as in
`s`, and no more has changed than a packet that leaves changes. -/
structure Answered (m : LinkId) (y : Pkt) (s t : State) : Prop where
  sent : ∃ x ∈ (t.links[m]).tx, x.pkt = y
  waits : ∀ l : LinkId, (t.links[l]).rxq = (s.links[l]).rxq ∧ (t.links[l]).waits = (s.links[l]).waits
  regs : t.regs = s.regs
  quiet : Quiet s t

section
variable {s t v : State} {l m : LinkId} {y : Pkt}

theorem sendPkt_answers {die vc job dst : Nat} (y : Pkt) (hvc : pinnedVc vc = false)
    (hplane : choosePlane s die vc dst job = some m) :
    (sendPkt s die vc job dst y).2 = true ∧ Answered m y s (sendPkt s die vc job dst y).1 := by
  have hquiet : Quiet s (sendPkt s die vc job dst y).1 := sendPkt_quiet (quiet_refl s)
  have hregs := sendPkt_regs s die vc job dst y none
  rw [sendPkt_striped y hvc hplane] at hquiet hregs ⊢
  refine ⟨rfl, ?_, fun k => ?_, hregs, hquiet⟩
  · dsimp only
    rw [State.setLink_links_self]
    exact ⟨_, List.mem_append_right _ (List.mem_singleton.mpr rfl), rfl⟩
  · dsimp only
    by_cases hk : k = m
    · subst hk
      rw [State.setLink_links_self]
      exact ⟨rfl, rfl⟩
    · rw [State.setLink_links_other _ m k _ hk]
      exact ⟨rfl, rfl⟩

theorem Answered.leaveBuffer (h : Answered m y s t) (l : LinkId) (r : RxWait) : Answered m y s (leaveBuffer t l r) := by
  have hquiet := quiet_trans h.quiet (leaveBuffer_quiet t l r)
  obtain ⟨pool, rsv, rets, hleave⟩ := leaveBuffer_link t l r
  rw [hleave] at hquiet ⊢
  have hlink (k : LinkId) : ∃ a b c, (t.setLink l { t.links[l] with rxPool := pool, rxRsv := rsv, rets := rets }).links[k] =
      { t.links[k] with rxPool := a, rxRsv := b, rets := c } := by
    by_cases hk : k = l
    · subst hk
      exact ⟨_, _, _, State.setLink_links_self t k _⟩
    · exact ⟨_, _, _, State.setLink_links_other t l k _ hk⟩
  refine ⟨?_, fun k => ?_, h.regs, hquiet⟩
  · obtain ⟨a, b, c, hm⟩ := hlink m
    rw [hm]
    exact h.sent
  · obtain ⟨a, b, c, hk⟩ := hlink k
    rw [hk]
    exact h.waits k

/-- The code that an access ends with (R281). -/
def endCode : AccEnd → Nat
  | .fail k => k
  | _ => 0

/-- The bytes that an answer carries (R281). -/
def endData (p : Pkt) : AccEnd → List Byte
  | .ok bs => if pType p = 3 then bs else []
  | _ => []

/-- The answer to a request, as the module of state `s` writes it (R281). -/
def answerPkt (s : State) (p : Pkt) (e : AccEnd) : Pkt :=
  mkPkt s (if pType p = 2 then 5 else 4) 2 1 (pJob p) (pSrc p) (pTag p) (leBytes 1 (endCode e)) (endData p e)

theorem answerPkt_write (s : State) {p : Pkt} (h : pType p = 2) (e : AccEnd) :
    answerPkt s p e = mkPkt s 5 2 1 (pJob p) (pSrc p) (pTag p) (leBytes 1 (endCode e)) [] := by
  have hdata : endData p e = [] := by
    cases e with
    | ok bs => exact if_neg (by omega)
    | fail k => rfl
    | wait => rfl
  unfold answerPkt
  rw [hdata, if_pos h]

theorem answerPkt_read (s : State) {p : Pkt} (h : pType p = 3) (bs : List Byte) :
    answerPkt s p (.ok bs) = mkPkt s 4 2 1 (pJob p) (pSrc p) (pTag p) (leBytes 1 0) bs := by
  have hdata : endData p (.ok bs) = bs := if_pos h
  unfold answerPkt
  rw [hdata, if_neg (by omega)]
  rfl

theorem answerReq_sent {p : Pkt} {e : AccEnd}
    (h : sendPkt s (linkDie l) 5 (pJob p) (pSrc p) (answerPkt s p e) = (t, true)) : answerReq s l p e = t := by
  unfold answerReq
  dsimp only
  split
  · next u hu => exact congrArg Prod.fst (hu.symm.trans h)
  · next u hu => exact absurd (congrArg Prod.snd (hu.symm.trans h)) (by simp)

theorem answerReq_answers {p : Pkt} (h : SteersAlike s t)
    (hplane : choosePlane s (linkDie l) 5 (pSrc p) (pJob p) = some m) (e : AccEnd) :
    Answered m (answerPkt s p e) t (answerReq t l p e) := by
  have hsrc : pSrc p < 0x8000 := fld_lt _ _ _
  have hpkt : answerPkt t p e = answerPkt s p e := mkPkt_alike h _ _ _ _ _ _ _ _
  obtain ⟨hok, hans⟩ := sendPkt_answers (answerPkt s p e) rfl ((choosePlane_alike h rfl hsrc).trans hplane)
  rw [← hpkt] at hok hans
  rwa [answerReq_sent (Prod.ext rfl hok), ← hpkt]

end

/-! ### A request is served (R231, R232) -/

theorem reqGo_serves {s t : State} {l : LinkId} {r : RxWait} {err : Option CxlErr} {e : AccEnd}
    (hwaits : reqWaits s.links[l] (pJob r.pkt) = false) (hserve : serveReq s r.pkt err = (t, e)) (he : e ≠ .wait) :
    reqGo s l r err = leaveBuffer (answerReq t l r.pkt e) l r := by
  unfold reqGo
  dsimp only
  rw [hwaits, hserve]
  cases e with
  | wait => exact absurd rfl he
  | ok bs => rfl
  | fail k => rfl

/-- The request `p` that came over link `l` is for the bytes at `a` of module memory, which serves them, and plane `m` takes its
answer. -/
structure Reaches (s : State) (l m : LinkId) (p : Pkt) (a : Nat) : Prop where
  place : placeLocal s (pByte p 12 6) (reqLen p) = .gddr a
  free : GddrFree s a (reqLen p)
  plane : choosePlane s (linkDie l) 5 (pSrc p) (pJob p) = some m

/-- `v` is `s` with what the links and the network hold changed, but for what steers an access. -/
structure TakenIn (s v : State) : Prop where
  frame : v = { s with links := v.links, net := v.net }
  steers : SteersAlike s v

theorem accepted_takenIn (s : State) (l : LinkId) (r : RxWait) (rest : List RxWait) : TakenIn s (accepted s l r rest) := by
  have hout : SteersAlike s (takenOut s l rest) := State.setLink_steersAlike s rfl
  obtain ⟨a, b, h⟩ := accepted_frame s l r rest
  rw [h]
  exact ⟨rfl, steersAlike_trans hout ⟨fun _ _ => rfl, rfl, fun _ => rfl⟩⟩

/-- The state in which what waits in a receive buffer has been taken out to be tried again. -/
def unheld (s : State) (l : LinkId) : State := s.setLink l { s.links[l] with waits := [] }

theorem unheld_takenIn (s : State) (l : LinkId) : TakenIn s (unheld s l) := ⟨rfl, State.setLink_steersAlike s rfl⟩

/-- The window that an access of a peer goes through (R259). -/
def reqWindow (s : State) (p : Pkt) (a : Nat) : Option Nat :=
  memWindow s (.peer (pSrc p)) (pJob p) a (reqLen p) (reqData p).isSome

section
variable {s v : State} {l m : LinkId} {r : RxWait} {a : Nat} (h : Reaches s l m r.pkt a) (hv : TakenIn s v)
  (hwaits : reqWaits v.links[l] (pJob r.pkt) = false) (err : Option CxlErr)
include h hv

theorem serveReq_reaches : serveReq v r.pkt err =
    gddrOutside v (.peer (pSrc r.pkt)) (pJob r.pkt) a (reqLen r.pkt) (reqData r.pkt) := by
  have hplace : placeLocal v (pByte r.pkt 12 6) (reqLen r.pkt) = .gddr a := by rw [hv.frame]; exact h.place
  unfold serveReq
  dsimp only
  rw [hplace]

include hwaits

/-- A request that a window admits has exactly its effect on module memory and is answered with code 0. -/
theorem reqGo_admitted (hdata : ∀ bs ∈ reqData r.pkt, bs.length = reqLen r.pkt)
    (hwin : (reqWindow s r.pkt a).isSome = true) :
    let x := accessEnds s.gddr a (reqLen r.pkt) (reqData r.pkt)
    let t := reqGo v l r err
    t.gddr = x.1 ∧ t.cores = s.cores ∧ (∃ y ∈ (t.links[m]).tx, y.pkt = answerPkt s r.pkt (.ok x.2)) ∧
      (t.links[l]).rxq = (v.links[l]).rxq ∧ (t.links[l]).waits = (v.links[l]).waits := by
  have hfree : GddrFree v a (reqLen r.pkt) := by rw [hv.frame]; exact h.free
  have hwin' : (memWindow v (.peer (pSrc r.pkt)) (pJob r.pkt) a (reqLen r.pkt) (reqData r.pkt).isSome).isSome = true := by
    rw [hv.frame]; exact hwin
  obtain ⟨u, hout, hacc, hgddr⟩ := gddrOutside_admits hfree hdata hwin'
  have hv_gddr : v.gddr = s.gddr := by rw [hv.frame]
  have hv_cores : v.cores = s.cores := by rw [hv.frame]
  rw [hv_gddr] at hout hgddr
  dsimp only
  rw [reqGo_serves hwaits ((serveReq_reaches h hv err).trans hout) (by simp)]
  have hans := (answerReq_answers (steersAlike_trans hv.steers hacc.steersAlike) h.plane
    (.ok (accessEnds s.gddr a (reqLen r.pkt) (reqData r.pkt)).2)).leaveBuffer l r
  refine ⟨hans.quiet.gddr.trans hgddr, hans.quiet.cores.trans (hacc.cores.trans hv_cores), hans.sent, ?_, ?_⟩
  · rw [(hans.waits l).1, hacc.links]
  · rw [(hans.waits l).2, hacc.links]

/-- A request that no window admits leaves module memory as it was, is logged, and is answered with code 3. -/
theorem reqGo_rejected (hwin : reqWindow s r.pkt a = none) :
    let t := reqGo v l r err
    t.gddr = s.gddr ∧ (∃ y ∈ (t.links[m]).tx, y.pkt = answerPkt s r.pkt (.fail 3)) ∧
      bit (t.rd (memBase + 0x18)) 63 = true := by
  have hfree : GddrFree v a (reqLen r.pkt) := by rw [hv.frame]; exact h.free
  have hwin' : memWindow v (.peer (pSrc r.pkt)) (pJob r.pkt) a (reqLen r.pkt) (reqData r.pkt).isSome = none := by
    rw [hv.frame]; exact hwin
  have hv_gddr : v.gddr = s.gddr := by rw [hv.frame]
  have hserve := (serveReq_reaches h hv err).trans (gddrOutside_rejects hfree hwin')
  have hsteers := mwinReject_steersAlike v (.peer (pSrc r.pkt)) (pJob r.pkt) a (reqData r.pkt).isSome
  have hans := (answerReq_answers (steersAlike_trans hv.steers hsteers) h.plane (.fail 3)).leaveBuffer l r
  dsimp only
  rw [reqGo_serves hwaits hserve (by simp)]
  refine ⟨hans.quiet.gddr.trans ((mwinReject_quiet v _ _ _ _).gddr.trans hv_gddr), hans.sent, ?_⟩
  rw [State.rd, hans.regs]
  exact mwinReject_logs v _ _ _ _

end

/-! ### The commands -/

section
variable {s : State} {l : LinkId} {us : List Upset} {r : RxWait} {rest : List RxWait} {err : Option CxlErr}
  (hheld : (strike s us).power.held = false)
include hheld

theorem exec_write_goes (harr : Arrived (strike s us) l r rest) (ht : pType r.pkt = 2) :
    exec (.write l us err) s = .next (reqGo (accepted (strike s us) l r rest) l r err) := by
  have hgo := intake_takes (want := fun p => pType p == 2) (body := fun s r => reqGo s l r err) harr (beq_iff_eq.mpr ht)
  exact congrArg Host.Outcome.next ((live_of_struck hheld).trans hgo)

theorem exec_read_goes (harr : Arrived (strike s us) l r rest) (ht : pType r.pkt = 3) :
    exec (.read l us err) s = .next (reqGo (accepted (strike s us) l r rest) l r err) := by
  have hgo := intake_takes (want := fun p => pType p == 3) (body := fun s r => reqGo s l r err) harr (beq_iff_eq.mpr ht)
  exact congrArg Host.Outcome.next ((live_of_struck hheld).trans hgo)

theorem exec_retry_goes (hone : ((strike s us).links[l]).waits = [r]) (ht : pType r.pkt = 2 ∨ pType r.pkt = 3) :
    exec (.windowAccessRetry (.link l) us err) s = .next (reqGo (unheld (strike s us) l) l r err) := by
  have hgo : retryWaits (strike s us) l err = reqGo (unheld (strike s us) l) l r err := by
    unfold retryWaits
    rw [hone]
    exact if_neg (by omega)
  exact congrArg Host.Outcome.next ((live_of_struck hheld).trans hgo)

end

theorem unheld_waits (s : State) (l : LinkId) : ((unheld s l).links[l]).waits = [] := by
  unfold unheld
  rw [State.setLink_links_self]

theorem reqWaits_unheld (s : State) (l : LinkId) (job : Nat) : reqWaits (unheld s l).links[l] job = false := by
  unfold reqWaits
  rw [unheld_waits]
  rfl

theorem reqWaits_accepted {s : State} {l : LinkId} {job : Nat} (r : RxWait) (rest : List RxWait)
    (h : reqWaits s.links[l] job = false) : reqWaits (accepted s l r rest).links[l] job = false := by
  rw [accepted_link]
  exact h

theorem accepted_rxq (s : State) (l : LinkId) (r : RxWait) (rest : List RxWait) :
    ((accepted s l r rest).links[l]).rxq = rest := by rw [accepted_link]

/-- The bytes of a write stand at its place, and all others as before (R259). -/
theorem memory_write_exact {m : Memory} (h : Memory.wf m = true) (a : Nat) (bs : List Byte) :
    (∀ i, (hi : i < bs.length) → (m.write a bs).get (a + i) = bs[i]) ∧
      ∀ b, b < a ∨ a + bs.length ≤ b → (m.write a bs).get b = m.get b :=
  ⟨fun i hi => memory_get_write_inside bs m a i h hi, fun b hb => memory_get_write_outside bs m a b h hb⟩

/-- Settles O39: the packet is taken out of its buffer, `reqGo_admitted` serves it where a window admits it, and
`reqGo_rejected` logs it where none does. -/
theorem peerRequestResult : Obligations.PeerRequestResult := by
  unfold Obligations.PeerRequestResult
  intro l m us err s r rest a z p n win first held answered stored hheld hplace hfree hwf hplane
  have hreach : Reaches z l m p a := ⟨hplace, hfree, hplane⟩
  have harrives := accepted_takenIn z l r rest
  have hretries := unheld_takenIn z l
  have hidle := reqWaits_unheld z l (pJob p)
  refine ⟨fun hwrite hlen hwin => ?_, fun hread hwin => ?_, fun hwrite hwin hfirst => ?_⟩
  · have hdata : reqData p = some p.data := if_pos hwrite
    have hbytes : ∀ bs ∈ reqData p, bs.length = n := by rw [hdata]; rintro bs ⟨⟩; exact hlen
    have hsome : (reqWindow z p a).isSome = true := by unfold reqWindow; rw [hdata]; exact hwin
    have hstored {t : State} (ht : t.gddr = (accessEnds z.gddr a n (reqData p)).1) : stored t := by
      rw [hdata] at ht
      dsimp only [stored]
      rw [ht, ← hlen]
      exact memory_write_exact hwf a p.data
    have hsent {t : State} (h : ∃ y ∈ (t.links[m]).tx, y.pkt = answerPkt z p (.ok (accessEnds z.gddr a n (reqData p)).2)) :
        answered t 5 0 [] := by rwa [answerPkt_write z hwrite] at h
    refine ⟨fun ⟨harr, hfirst⟩ => ?_, fun hone => ?_⟩
    · obtain ⟨hgddr, hcores, hans, hrxq, -⟩ :=
        reqGo_admitted hreach harrives (reqWaits_accepted r rest hfirst) err hbytes hsome
      exact ⟨_, exec_write_goes hheld harr hwrite, hrxq.trans (accepted_rxq z l r rest), hstored hgddr, hsent hans, hcores⟩
    · obtain ⟨hgddr, -, hans, -, hwaits⟩ := reqGo_admitted hreach hretries hidle err hbytes hsome
      exact ⟨_, exec_retry_goes hheld hone (.inl hwrite), hwaits.trans (unheld_waits z l), hstored hgddr, hsent hans⟩
  · have hdata : reqData p = none := if_neg (by omega)
    have hbytes : ∀ bs ∈ reqData p, bs.length = n := by rw [hdata]; rintro bs ⟨⟩
    have hsome : (reqWindow z p a).isSome = true := by unfold reqWindow; rw [hdata]; exact hwin
    have hend : accessEnds z.gddr a n (reqData p) = (z.gddr, z.gddr.read a n) := by rw [hdata]; rfl
    have hsent {t : State} (h : ∃ y ∈ (t.links[m]).tx, y.pkt = answerPkt z p (.ok (accessEnds z.gddr a n (reqData p)).2)) :
        answered t 4 0 (z.gddr.read a n) := by rwa [answerPkt_read z hread, hend] at h
    refine ⟨fun ⟨harr, hfirst⟩ => ?_, fun hone => ?_⟩
    · obtain ⟨hgddr, hcores, hans, hrxq, -⟩ :=
        reqGo_admitted hreach harrives (reqWaits_accepted r rest hfirst) err hbytes hsome
      rw [hend] at hgddr
      exact ⟨_, exec_read_goes hheld harr hread, hrxq.trans (accepted_rxq z l r rest), hgddr, hsent hans, hcores⟩
    · obtain ⟨hgddr, -, hans, -, hwaits⟩ := reqGo_admitted hreach hretries hidle err hbytes hsome
      rw [hend] at hgddr
      exact ⟨_, exec_retry_goes hheld hone (.inr hread), hwaits.trans (unheld_waits z l), hgddr, hsent hans⟩
  · obtain ⟨harr, hfirst⟩ := hfirst
    have hnone : reqWindow z p a = none := by
      unfold reqWindow
      rw [show reqData p = some p.data from if_pos hwrite]
      exact hwin
    obtain ⟨hgddr, hans, hlog⟩ := reqGo_rejected hreach harrives (reqWaits_accepted r rest hfirst) err hnone
    exact ⟨_, exec_write_goes hheld harr hwrite, hgddr, by rwa [answerPkt_write z hwrite] at hans, hlog⟩

end Sys2Proof.Machine
end

section
/-!
PROOF. A completed request of a GDDR7 controller (O34): the write of a queue engine that a controller has held goes back to its
queue (R219, R250, R255), so that nothing is added to the answers of the controller.
-/

namespace Sys2Proof.Machine

/-- A module that is up, with G0 still training and the MCLK PLL of its die locked. -/
def trainingG0 : State :=
  { State.reset with
    regs := [(pwrBase + 0x60, 0xFFFFFFFFFFFFFFFF#64), (pwrBase + 0x98, 0x4#64)]
    power := { boot := .up } }

/-- The line that Q0 spills. -/
def spilledLine : List Byte := List.replicate 64 0xA5#8

/-- The write of the queue engine of Q0 that G0 holds while it trains. -/
def spillWrite : MemReq :=
  { asker := .engine, job := some 0, addr := 0, len := 64, data := some spilledLine, queue := some 0 }

/-- G0 is READY, after a training that held a write of Q0 to line 0. -/
def spillHeld : State := retrain (poolPut trainingG0 0 0 spilledLine).1 0 true

theorem spillHeld_reqs : (spillHeld.ctrls[(0 : CtrlId)]).reqs[0]? = some spillWrite := by decide +kernel

theorem spillHeld_serves : gddrReady spillHeld spillWrite.addr spillWrite.len = .yes ∧
    GddrPlain spillHeld spillWrite.addr spillWrite.len ∧ MemOk spillHeld := by
  unfold GddrPlain MemOk
  decide +kernel

/-- The write completes, and no answer stands at the controller. -/
theorem spillHeld_completes : ((memComplete spillHeld 0 0 0 0).ctrls[(0 : CtrlId)]).reqs = [] ∧
    ((memComplete spillHeld 0 0 0 0).ctrls[(0 : CtrlId)]).done = [] ∧
    (memComplete spillHeld 0 0 0 0).gddr.get 0 = 0xA5#8 := by decide +kernel

/-- Refutes O34: a held write of a queue engine completes without the answer that the statement puts among those of the
controller. -/
theorem not_memoryControllerResult : ¬ Obligations.MemoryControllerResult := by
  unfold Obligations.MemoryControllerResult
  intro h
  obtain ⟨-, hcomplete, -⟩ := h 0 [] spillHeld (by decide +kernel)
  obtain ⟨hready, hplain, hmem⟩ := spillHeld_serves
  obtain ⟨t, hexec, -, -, hwritten, -⟩ := hcomplete 0 spillWrite spillHeld_reqs (by decide +kernel) (by decide +kernel)
    (by decide +kernel) hready hplain hmem
  obtain rfl := Host.Outcome.next.inj hexec
  obtain ⟨hdone, -⟩ := hwritten spilledLine rfl (by decide +kernel)
  have hnone : (memComplete spillHeld 0 0 0 0).ctrls[(0 : CtrlId)].done = [] := spillHeld_completes.2.1
  exact absurd (hdone.symm.trans hnone) (by simp)

end Sys2Proof.Machine
end

section
/-!
SUPPORT. The registers of a port that an event leaves as they were (R8, R350): it writes its own status register, and besides that
registers of the owner's block and of the event ring alone.
-/

namespace Sys2Proof.Machine

section
variable {a : Nat} (ha : 0x3000 ≤ a)
include ha

theorem State.evtLost_rd_above (s : State) : s.evtLost.rd a = s.rd a := by
  have hstatus : (s.now.2.orReg 0x20 1#64).rd a = s.rd a := State.rd_wr_other _ _ _ _ (by omega)
  unfold State.evtLost
  split
  · rfl
  · dsimp only
    split
    · exact hstatus
    · rw [State.rd, State.putRecord_regs]
      exact hstatus

theorem State.evtRecord_rd_above (s : State) (bs : List Byte) : (s.evtRecord bs).rd a = s.rd a := by
  refine Eq.trans ?_ (State.evtLost_rd_above ha s)
  unfold State.evtRecord
  dsimp only
  split
  · rw [State.rd, State.putRecord_regs]
    rfl
  · exact State.rd_wr_other _ _ _ _ (by unfold ringBase; omega)

theorem State.record_rd_above (s : State) {code inst sub : Nat} (hne : a ≠ (evtReg code inst sub).2.1) (job dev : Option Nat)
    (a0 a1 : Nat) : (s.record code inst sub job dev a0 a1).rd a = s.rd a := by
  have hstatus : (s.orReg (evtReg code inst sub).2.1 (BitVec.ofNat 64 (2 ^ (evtReg code inst sub).2.2))).rd a = s.rd a :=
    State.rd_wr_other s _ a _ hne
  unfold State.record
  dsimp only
  split
  · exact hstatus
  · exact (State.evtRecord_rd_above ha _ _).trans hstatus

end

end Sys2Proof.Machine
end

section
/-!
SUPPORT. What the failing of the requests of a CXL port and the loss of its links touch (R260, R263).
-/

namespace Sys2Proof.Machine

/-- `t` is `s` but for what an event touches and for the queues of the units, where the transfers stand that wait for a port: all
that the failing of a request of a port changes besides the port (R246, R263). -/
def PortsAlike (s t : State) : Prop :=
  t = { s with tick := t.tick, ts := t.ts, regs := t.regs, host := t.host, rcl := t.rcl, net := t.net, links := t.links,
               units := t.units }

section
variable {s t u : State}

theorem portsAlike_refl (s : State) : PortsAlike s s := rfl

theorem portsAlike_trans (h : PortsAlike s t) (k : PortsAlike t u) : PortsAlike s u := by
  unfold PortsAlike at *
  rw [k, h]

theorem portsAlike_of_quiet (h : Quiet s t) : PortsAlike s t := by
  unfold PortsAlike
  rw [h]

theorem portsAlike_foldl {α : Type} {f : State → α → State} (hf : ∀ s x, PortsAlike s (f s x)) (l : List α) (s : State) :
    PortsAlike s (l.foldl f s) := by
  induction l generalizing s with
  | nil => exact portsAlike_refl s
  | cons x l ih => exact portsAlike_trans (hf s x) (ih (f s x))

theorem PortsAlike.cxl (h : PortsAlike s t) : t.cxl = s.cxl := by rw [h]
theorem PortsAlike.tier (h : PortsAlike s t) : t.tier = s.tier := by rw [h]
theorem PortsAlike.cores (h : PortsAlike s t) : t.cores = s.cores := by rw [h]

theorem PortsAlike.setCxl (h : PortsAlike s t) (p : PortId) (k : Cxl) : PortsAlike (s.setCxl p k) (t.setCxl p k) := by
  unfold PortsAlike at *
  rw [h]
  rfl

end

theorem State.setCxl_setCxl (s : State) (p : PortId) (k k' : Cxl) : (s.setCxl p k).setCxl p k' = s.setCxl p k' := by
  simp only [State.setCxl, Vector.set_set]

/-! ### Failing requests (R246, R263) -/

section
variable (s : State) (p : PortId)

theorem dmaTier_portsAlike (c : CoreId) (ch : Fin 4) (seq off code len : Nat) (data : List Byte) (addr : Nat) :
    PortsAlike s (dmaTier s c ch seq off code len data addr) := by
  unfold dmaTier
  split
  · exact portsAlike_refl s
  · dsimp only
    split
    · rfl
    · split <;> rfl

theorem cxlFailed_portsAlike (r : CxlReq) : PortsAlike s (cxlFailed s p r) := by
  have hlog : PortsAlike s (s.wr (cxlBase p + 0x40) (cxlLog r)) := rfl
  unfold cxlFailed
  dsimp only
  split
  · exact hlog
  · exact portsAlike_trans hlog (dmaTier_portsAlike _ _ _ _ _ _ _ _ _)

/-- A port without the requests of a device. -/
def withoutReqs (k : Cxl) (devB : Bool) : Cxl := { k with reqs := k.reqs.filter (fun r => r.devB != devB) }

/-- A port that has lost the link of a device. -/
def withoutLink (k : Cxl) (devB : Bool) : Cxl :=
  if devB then { withoutReqs k devB with activeB := false } else { withoutReqs k devB with activeA := false }

theorem withoutLink_reqs (k : Cxl) (devB : Bool) : (withoutLink k devB).reqs = k.reqs.filter (fun r => r.devB != devB) := by
  cases devB <;> rfl

theorem withoutLink_inactive (k : Cxl) (devB : Bool) :
    (if devB then (withoutLink k devB).activeB else (withoutLink k devB).activeA) = false := by
  cases devB <;> rfl

/-- A port that has lost both links has no active device and no request. -/
theorem withoutLinks_empty (k : Cxl) : (withoutLink (withoutLink k false) true).activeA = false ∧
    (withoutLink (withoutLink k false) true).activeB = false ∧ (withoutLink (withoutLink k false) true).reqs = [] := by
  refine ⟨rfl, rfl, ?_⟩
  simp only [withoutLink_reqs, List.filter_filter, List.filter_eq_nil_iff]
  intro r _
  cases r.devB <;> decide

theorem cxlDrop_portsAlike (devB : Bool) : PortsAlike (s.setCxl p (withoutReqs s.cxl[p] devB)) (cxlDrop s p devB) :=
  portsAlike_foldl (fun t r => portsAlike_trans (cxlFailed_portsAlike t p r)
    (portsAlike_of_quiet (State.failStep_quiet (quiet_refl _)))) _ _

theorem cxlDown_portsAlike (devB : Bool) : PortsAlike (s.setCxl p (withoutLink s.cxl[p] devB)) (cxlDown s p devB) := by
  have hdrop := cxlDrop_portsAlike s p devB
  have hport : (cxlDrop s p devB).cxl[p] = withoutReqs s.cxl[p] devB := by rw [hdrop.cxl, State.setCxl_cxl_self]
  have hset := hdrop.setCxl p (withoutLink s.cxl[p] devB)
  rw [State.setCxl_setCxl] at hset
  unfold cxlDown
  dsimp only
  rw [hport]
  refine portsAlike_trans hset ?_
  exact iteInduction (motive := PortsAlike _) (fun _ => portsAlike_of_quiet (State.raiseIf_quiet (quiet_refl _)))
    (fun _ => portsAlike_refl _)

/-- Both links of a port are lost. -/
theorem cxlDown_both : PortsAlike (s.setCxl p (withoutLink (withoutLink s.cxl[p] false) true))
    (cxlDown (cxlDown s p false) p true) := by
  have hfirst := cxlDown_portsAlike s p false
  have hport : (cxlDown s p false).cxl[p] = withoutLink s.cxl[p] false := by rw [hfirst.cxl, State.setCxl_cxl_self]
  have hsecond := cxlDown_portsAlike (cxlDown s p false) p true
  rw [hport] at hsecond
  have hset := hfirst.setCxl p (withoutLink (withoutLink s.cxl[p] false) true)
  rw [State.setCxl_setCxl] at hset
  exact portsAlike_trans hset hsecond

end

end Sys2Proof.Machine
end

section
/-!
SETTLEMENT. The CXL ports (O35): enabling and enumeration, responses, timeouts and losses of a link, and the configuration
space of a device (R260 to R263, R265).
-/

namespace Sys2Proof.Machine

section
variable {s : State} {p : PortId}

/-! ### EN of a port (R261, R440) -/

theorem cxlRelease_frame (s : State) (p : PortId) : cxlRelease s p = { s with pins := (cxlRelease s p).pins } := by
  unfold cxlRelease
  split <;> rfl

theorem cxlEnable_begins (hon : s.domainOn (cxlDomain p) = true) (hoff : bit (s.rd (cxlBase p + 8)) 0 = false) :
    cxlEnable s p true = cxlRelease ((s.wr (cxlBase p + 8) (setBit (s.rd (cxlBase p + 8)) 0)).setCxl p
      { s.cxl[p] with enum := true, enumFail := false }) p := by
  unfold cxlEnable
  dsimp only
  rw [hon, hoff]
  rfl

theorem cxlEnable_ends (hon : s.domainOn (cxlDomain p) = true) (hwas : bit (s.rd (cxlBase p + 8)) 0 = true) :
    cxlEnable s p false =
      (let t := cxlDown (cxlDown (s.wr (cxlBase p + 8) (clrBit (s.rd (cxlBase p + 8)) 0)) p false) p true
       cxlPins (t.setCxl p { t.cxl[p] with enum := false, enumFail := false }) p false false) := by
  unfold cxlEnable
  dsimp only
  rw [hon, hwas]
  rfl

/-! ### Enumeration (R261, R262) -/

/-- The events of an enumeration, CXL_LINK_UP and CXL_ENUM_FAIL, are recorded in the status register of their port (R8, R265). -/
theorem cxlEvent_places (p : PortId) {code : Nat} (hcode : code = 0x5100 ∨ code = 0x5102) :
    (evtReg code p 0).2.1 = cxlBase p + 0x20 := by
  rcases hcode with rfl | rfl <;> rfl

/-- An event of an enumeration leaves the registers of the port as they were, but for its status. -/
theorem cxlEvent_rd (s : State) (p : PortId) {code a : Nat} (hcode : code = 0x5100 ∨ code = 0x5102) (ha : 0x900000 ≤ a)
    (hne : a ≠ cxlBase p + 0x20) (a0 a1 : Nat) : (s.raise code p 0 none a0 a1).rd a = s.rd a := by
  have hquits : evFails code = false := by rcases hcode with rfl | rfl <;> decide
  have hrec := State.record_rd_above (a := a) (by omega) s (by rwa [cxlEvent_places p hcode]) none none a0 a1
  unfold State.raise State.raiseIf State.raiseDev
  rw [hquits]
  exact hrec

theorem ilvSettle_port {k : Cxl} {t : State} (h : Quiet (s.setCxl p k) t) : (ilvSettle t).cxl[p] = k := by
  have hquiet : Quiet (s.setCxl p k) (ilvSettle t) := State.wr_quiet h
  rw [(portsAlike_of_quiet hquiet).cxl, State.setCxl_cxl_self]

theorem ilvSettle_rd (s : State) {a : Nat} (h : a ≠ memBase) : (ilvSettle s).rd a = s.rd a := State.rd_wr_other s _ a _ h

/-- A device that answers becomes ACTIVE, its capacity in the register of the port. -/
theorem cxlDevice_found (hsplit : bit (s.rd (cxlBase p + 8)) 1 = false) (n : Nat) :
    Quiet (s.setCxl p { s.cxl[p] with activeA := true }) (cxlDevice s p false (some n)) ∧
    (cxlDevice s p false (some n)).rd (cxlBase p + 8) = s.rd (cxlBase p + 8) ∧
    (cxlDevice s p false (some n)).rd (cxlBase p + 0x28) = BitVec.ofNat 64 (min (n / 0x10000000) 4096) := by
  have hbase : 0x900000 ≤ cxlBase p := Nat.le_add_right _ _
  unfold cxlDevice
  rw [hsplit]
  dsimp only
  refine ⟨State.raise_quiet rfl, ?_, ?_⟩
  · rw [cxlEvent_rd _ p (.inl rfl) (by omega) (by omega), State.rd_setCxl]
    exact State.rd_wr_other s _ _ _ (by simp)
  · rw [cxlEvent_rd _ p (.inl rfl) (by omega) (by omega), State.rd_setCxl]
    exact State.rd_wr_self s _ _

/-- A device whose enumeration fails leaves CXL_ENUM_FAIL. -/
theorem cxlDevice_fails (s : State) (p : PortId) :
    Quiet (s.setCxl p { s.cxl[p] with enumFail := true }) (cxlDevice s p false none) ∧
    (cxlDevice s p false none).rd (cxlBase p + 8) = s.rd (cxlBase p + 8) := by
  have hbase : 0x900000 ≤ cxlBase p := Nat.le_add_right _ _
  unfold cxlDevice
  exact ⟨State.raise_quiet rfl, cxlEvent_rd _ p (.inr rfl) (by omega) (by omega) _ _⟩

/-- The state in which a port enumerates no more. -/
def enumOver (s : State) (p : PortId) : State := s.setCxl p { s.cxl[p] with enum := false }

/-- The enumeration of a port with one device. -/
theorem cxlEnumerated_single (henum : (s.cxl[p]).enum = true) (hboot : s.power.rebooting = false)
    (hrec : s.power.recovery = false) (a b : Option Nat)
    (hsplit : bit ((cxlDevice (enumOver s p) p false a).rd (cxlBase p + 8)) 1 = false) :
    cxlEnumerated s p a b = ilvSettle (cxlDevice (enumOver s p) p false a) := by
  unfold cxlEnumerated
  dsimp only
  rw [henum, hboot, hrec]
  exact congrArg ilvSettle (if_neg (Bool.eq_false_iff.mp hsplit))

end

/-! ### Answers (R263) -/

section
variable {s : State} {p : PortId} {i : Nat} {q : CxlReq} (hq : (s.cxl[p]).reqs[i]? = some q) (hown : q.owner = none)

/-- The state without request `i` of a port. -/
def reqGone (s : State) (p : PortId) (i : Nat) : State := s.setCxl p { s.cxl[p] with reqs := (s.cxl[p]).reqs.eraseIdx i }

theorem reqGone_reqs (s : State) (p : PortId) (i : Nat) :
    ((reqGone s p i).cxl[p]).reqs = (s.cxl[p]).reqs.eraseIdx i := by
  unfold reqGone
  rw [State.setCxl_cxl_self]

include hq

theorem cxlRespond_poison : PortsAlike (reqGone s p i) (cxlRespond s p i true) := by
  unfold cxlRespond
  dsimp only
  rw [hq]
  have hcount (t : State) : PortsAlike t (t.count (cxlBase p + 0x48) 32 1) :=
    portsAlike_of_quiet (State.count_quiet (quiet_refl t))
  exact portsAlike_trans (portsAlike_trans (hcount _) (cxlFailed_portsAlike _ p q))
    (portsAlike_of_quiet (State.raiseIf_quiet (quiet_refl _)))

theorem cxlTimeout_drops : PortsAlike (reqGone s p i) (cxlTimeout s p i) := by
  unfold cxlTimeout
  dsimp only
  rw [hq]
  exact portsAlike_trans (cxlFailed_portsAlike _ p q) (portsAlike_of_quiet (State.raiseIf_quiet (quiet_refl _)))

include hown

theorem cxlRespond_write {bs : List Byte} (hdata : q.data = some bs) :
    cxlRespond s p i false = { reqGone s p i with tier := s.tier.write q.t bs }.count (cxlBase p + 0x58) 64 q.len := by
  unfold cxlRespond
  dsimp only
  rw [hq]
  dsimp only
  rw [hdata, hown]
  rfl

theorem cxlRespond_read (hdata : q.data = none) :
    cxlRespond s p i false = (reqGone s p i).count (cxlBase p + 0x50) 64 q.len := by
  unfold cxlRespond
  dsimp only
  rw [hq]
  dsimp only
  rw [hdata, hown]
  rfl

end

/-! ### Commands -/

section
variable {s : State} {p : PortId} (hon : s.domainOn (cxlDomain p) = true)
include hon

/-- A clock loss does not hold a port whose domain is on (R401). -/
theorem cxl_unheld : s.power.held = false := by
  have hbelow : decide (cxlDomain p < 60) = true := by
    unfold cxlDomain
    split <;> rfl
  unfold State.domainOn at hon
  rw [hbelow, Bool.and_true, Bool.and_eq_true, Bool.not_eq_true'] at hon
  exact hon.2

theorem exec_cxlEnumComplete (a b : Option Nat) : exec (.cxlEnumComplete p a b) s = .next (cxlEnumerated s p a b) :=
  congrArg Host.Outcome.next (live_of_held (cxl_unheld hon))

theorem exec_cxlResponse (i : Nat) (poison : Bool) : exec (.cxlResponse p i poison) s = .next (cxlRespond s p i poison) :=
  congrArg Host.Outcome.next (live_of_held (cxl_unheld hon))

theorem exec_cxlTimeoutExpiry (i : Nat) : exec (.cxlTimeoutExpiry p i) s = .next (cxlTimeout s p i) :=
  congrArg Host.Outcome.next (live_of_held (cxl_unheld hon))

theorem exec_cxlLinkLoss (devB : Bool) : exec (.cxlLinkLoss p devB) s = .next (cxlDown s p devB) :=
  congrArg Host.Outcome.next (live_of_held (cxl_unheld hon))

variable (hrec : s.power.recovery = false)
include hrec

theorem exec_cxlPortEn (en : Bool) : exec (.cxlPortEn p en) s = .next (cxlEnable s p en) :=
  congrArg Host.Outcome.next (ifOn_on hon hrec)

theorem exec_cxlCfgDataAccess (w : Option (BitVec 32)) (x : BitVec 32) :
    exec (.cxlCfgDataAccess p w x) s = .next (cxlConfig s p w x) := congrArg Host.Outcome.next (ifOn_on hon hrec)

/-! ### What the commands do -/

theorem cxlPortEn_begins (hoff : bit (s.rd (cxlBase p + 8)) 0 = false) :
    ∃ t, exec (.cxlPortEn p true) s = .next t ∧ (t.cxl[p]).enum = true ∧ bit (t.rd (cxlBase p + 8)) 0 = true ∧
      t.tier = s.tier := by
  refine ⟨_, exec_cxlPortEn hon hrec true, ?_⟩
  rw [cxlEnable_begins hon hoff, cxlRelease_frame]
  refine ⟨?_, ?_, rfl⟩
  · exact congrArg Cxl.enum (State.setCxl_cxl_self _ p _)
  · exact (congrArg (bit · 0) (State.rd_wr_self s _ _)).trans (bit_setBit_self _ 0 (by decide))

theorem cxlPortEn_ends (hwas : bit (s.rd (cxlBase p + 8)) 0 = true) :
    ∃ t, exec (.cxlPortEn p false) s = .next t ∧ (t.cxl[p]).activeA = false ∧ (t.cxl[p]).activeB = false ∧
      (t.cxl[p]).reqs = [] ∧ (t.cxl[p]).enum = false ∧ t.tier = s.tier := by
  refine ⟨_, exec_cxlPortEn hon hrec false, ?_⟩
  rw [cxlEnable_ends hon hwas]
  have hdown := cxlDown_both (s.wr (cxlBase p + 8) (clrBit (s.rd (cxlBase p + 8)) 0)) p
  have hport := (congrArg (fun v : Vector Cxl 4 => v[p]) hdown.cxl).trans (State.setCxl_cxl_self _ p _)
  obtain ⟨ha, hb, hreqs⟩ := withoutLinks_empty s.cxl[p]
  dsimp only at hport ⊢
  unfold cxlPins
  dsimp only
  rw [State.setCxl_cxl_self, hport]
  exact ⟨ha, hb, hreqs, rfl, hdown.tier⟩

theorem cxlEnumComplete_ends (henum : (s.cxl[p]).enum = true) (hboot : s.power.rebooting = false)
    (hsplit : bit (s.rd (cxlBase p + 8)) 1 = false) :
    (∀ n b, ∃ t, exec (.cxlEnumComplete p (some n) b) s = .next t ∧ (t.cxl[p]).activeA = true ∧
      (t.cxl[p]).enum = false ∧ t.rd (cxlBase p + 0x28) = BitVec.ofNat 64 (min (n / 0x10000000) 4096)) ∧
    ∀ b, ∃ t, exec (.cxlEnumComplete p none b) s = .next t ∧ (t.cxl[p]).enumFail = true ∧ (t.cxl[p]).enum = false ∧
      (t.cxl[p]).activeA = (s.cxl[p]).activeA := by
  have hover : (enumOver s p).cxl[p] = { s.cxl[p] with enum := false } := State.setCxl_cxl_self s p _
  have hcap : cxlBase p + 0x28 ≠ memBase := by
    unfold cxlBase memBase
    omega
  refine ⟨fun n b => ?_, fun b => ?_⟩
  · obtain ⟨hquiet, hctl, hreg⟩ := cxlDevice_found (s := enumOver s p) (p := p) hsplit n
    refine ⟨_, exec_cxlEnumComplete hon (some n) b, ?_⟩
    rw [cxlEnumerated_single henum hboot hrec (some n) b ((congrArg (bit · 1) hctl).trans hsplit),
      ilvSettle_port hquiet, hover]
    exact ⟨rfl, rfl, (ilvSettle_rd _ hcap).trans hreg⟩
  · obtain ⟨hquiet, hctl⟩ := cxlDevice_fails (enumOver s p) p
    refine ⟨_, exec_cxlEnumComplete hon none b, ?_⟩
    rw [cxlEnumerated_single henum hboot hrec none b ((congrArg (bit · 1) hctl).trans hsplit),
      ilvSettle_port hquiet, hover]
    exact ⟨rfl, rfl, rfl⟩

end

/-- Settles O35, by what each command of a port does to the state: `cxlDown_portsAlike` for the loss of links,
`cxlFailed_portsAlike` for requests that fail. -/
theorem cxlPortResult : Obligations.CxlPortResult := by
  unfold Obligations.CxlPortResult
  intro p s k ctl hon hrec
  refine ⟨cxlPortEn_begins hon hrec, cxlPortEn_ends hon hrec, cxlEnumComplete_ends hon hrec,
    fun i q hq hown => ⟨?_, ?_, ?_, ?_⟩, fun devB => ?_, fun v => exec_cxlCfgDataAccess hon hrec none v, fun v x => ?_⟩
  · intro bs hdata hwf
    refine ⟨_, exec_cxlResponse hon i false, ?_⟩
    rw [cxlRespond_write hq hown hdata]
    exact ⟨reqGone_reqs s p i, memory_write_exact hwf q.t bs⟩
  · intro hdata
    refine ⟨_, exec_cxlResponse hon i false, ?_⟩
    rw [cxlRespond_read hq hown hdata]
    exact ⟨reqGone_reqs s p i, rfl⟩
  · have hdrop := cxlRespond_poison hq
    exact ⟨_, exec_cxlResponse hon i true, by rw [hdrop.cxl, reqGone_reqs], hdrop.tier, hdrop.cores⟩
  · have hdrop := cxlTimeout_drops hq
    exact ⟨_, exec_cxlTimeoutExpiry hon i, by rw [hdrop.cxl, reqGone_reqs], hdrop.tier, hdrop.cores⟩
  · have hdown := cxlDown_portsAlike s p devB
    refine ⟨_, exec_cxlLinkLoss hon devB, ?_⟩
    rw [hdown.cxl, State.setCxl_cxl_self]
    exact ⟨withoutLink_inactive _ devB, withoutLink_reqs _ devB, hdown.tier⟩
  · refine ⟨_, exec_cxlCfgDataAccess hon hrec (some v) x, ?_, rfl⟩
    exact (tget_tset _ _ _ v).trans (if_pos rfl)

end Sys2Proof.Machine
end

section
/-!
SUPPORT. What packets that leave, events and the halting of a core change of the links and of the network (R8, R57, R285, R322): they
add to the transmit queues and note the planes of flows, and write no register that decides where a packet goes.
-/

namespace Sys2Proof.Machine

/-! ### The frame of an event (R8, R350) -/

theorem State.vector_frame (s : State) (fn vec : Nat) : ∃ h, s.vector fn vec = { s with host := h } := by
  unfold State.vector
  dsimp only
  split
  · exact ⟨_, rfl⟩
  · split <;> exact ⟨_, rfl⟩

theorem State.due_frame (s : State) (r : RingId) : ∃ h, s.due r = { s with host := h } := by
  unfold State.due
  dsimp only
  split
  · exact State.vector_frame s _ _
  · exact ⟨_, rfl⟩

theorem State.putRecord_frame (s : State) (r : RingId) (bs : List Byte) (n : Nat) (irq : Bool) :
    ∃ h, s.putRecord r bs n irq = { s with host := h } := by
  unfold State.putRecord
  dsimp only
  split
  · obtain ⟨h, hdue⟩ := State.due_frame _ r
    exact ⟨h, hdue⟩
  · exact ⟨_, rfl⟩

theorem State.evtLost_frame (s : State) :
    ∃ k t rs h, s.evtLost = { s with tick := k, ts := t, regs := rs, host := h } := by
  unfold State.evtLost
  split
  · exact ⟨_, _, _, _, rfl⟩
  · dsimp only
    split
    · exact ⟨_, _, _, _, rfl⟩
    · obtain ⟨h, hput⟩ := State.putRecord_frame _ _ _ _ _
      rw [hput]
      exact ⟨_, _, _, _, rfl⟩

theorem State.evtRecord_frame (s : State) (bs : List Byte) :
    ∃ k t rs h, s.evtRecord bs = { s with tick := k, ts := t, regs := rs, host := h } := by
  obtain ⟨k, t, rs, h, hlost⟩ := State.evtLost_frame s
  unfold State.evtRecord
  dsimp only
  split
  · obtain ⟨h', hput⟩ := State.putRecord_frame s.evtLost _ _ _ _
    rw [hput, hlost]
    exact ⟨_, _, _, _, rfl⟩
  · rw [hlost]
    exact ⟨_, _, _, _, rfl⟩

/-- An event changes the counter of free values, the clock, registers and the host ports, and nothing else. -/
theorem State.record_frame (s : State) (code inst sub : Nat) (job dev : Option Nat) (a0 a1 : Nat) :
    ∃ k t rs h, s.record code inst sub job dev a0 a1 = { s with tick := k, ts := t, regs := rs, host := h } := by
  unfold State.record
  dsimp only
  split
  · exact ⟨_, _, _, _, rfl⟩
  · obtain ⟨k, t, rs, h, hrec⟩ := State.evtRecord_frame _ _
    rw [hrec]
    exact ⟨_, _, _, _, rfl⟩

theorem State.record_links (s : State) (code inst sub : Nat) (job dev : Option Nat) (a0 a1 : Nat) :
    (s.record code inst sub job dev a0 a1).links = s.links := by
  obtain ⟨k, t, rs, h, hrec⟩ := State.record_frame s code inst sub job dev a0 a1
  rw [hrec]

theorem State.record_net (s : State) (code inst sub : Nat) (job dev : Option Nat) (a0 a1 : Nat) :
    (s.record code inst sub job dev a0 a1).net = s.net := by
  obtain ⟨k, t, rs, h, hrec⟩ := State.record_frame s code inst sub job dev a0 a1
  rw [hrec]

/-! ### Packets that leave -/

/-- The registers that decide where a packet goes, and the count of their changes: LINK_ID, PLANE_EN, the routing entries and ROUTE_GEN
(R270, R284, R285). -/
def RouteReg (a : Nat) : Prop := a = lnkBase ∨ a = lnkBase + 0x10 ∨ (0x100000 ≤ a ∧ a < 0x140000) ∨ a = secBase + 0x88

/-- `t` is `s` with packets added to transmit queues, the planes of flows noted, and messages kept for peers or for the module itself, as
far as the links, the network and the routing registers go. -/
structure Sends (s t : State) : Prop where
  links : ∀ l : LinkId, ∃ new, t.links[l] = { s.links[l] with tx := (s.links[l]).tx ++ new }
  net : ∃ last pin hold self flow,
    t.net = { s.net with lastPlane := last, pinned := pin, holding := hold, self := self, qflow := flow }
  regs : ∀ a, RouteReg a → t.rd a = s.rd a

section
variable {s t v : State}

theorem sends_of_eq (hlinks : t.links = s.links) (hnet : t.net = s.net) (hregs : ∀ a, RouteReg a → t.rd a = s.rd a) :
    Sends s t :=
  ⟨fun l => ⟨[], by rw [hlinks, List.append_nil]⟩, ⟨_, _, _, _, _, by rw [hnet]⟩, hregs⟩

theorem sends_of_regs (hlinks : t.links = s.links) (hnet : t.net = s.net) (hregs : t.regs = s.regs) : Sends s t :=
  sends_of_eq hlinks hnet fun a _ => by rw [State.rd, State.rd, hregs]

theorem sends_refl (s : State) : Sends s s := sends_of_regs rfl rfl rfl

theorem sends_trans (h : Sends s t) (k : Sends t v) : Sends s v := by
  refine ⟨fun l => ?_, ?_, fun a ha => (k.regs a ha).trans (h.regs a ha)⟩
  · obtain ⟨new, hnew⟩ := h.links l
    obtain ⟨more, hmore⟩ := k.links l
    exact ⟨new ++ more, by rw [hmore, hnew, List.append_assoc]⟩
  · obtain ⟨_, _, _, _, _, hnet⟩ := h.net
    obtain ⟨_, _, _, _, _, knet⟩ := k.net
    exact ⟨_, _, _, _, _, by rw [knet, hnet]⟩

theorem sends_foldl {α : Type} {f : State → α → State} (hf : ∀ s x, Sends s (f s x)) (l : List α) (s : State) :
    Sends s (l.foldl f s) := by
  induction l generalizing s with
  | nil => exact sends_refl s
  | cons x l ih => exact sends_trans (hf s x) (ih (f s x))

theorem Sends.rxq (h : Sends s t) (l : LinkId) : (t.links[l]).rxq = (s.links[l]).rxq := by
  obtain ⟨new, hnew⟩ := h.links l
  rw [hnew]

theorem Sends.waits (h : Sends s t) (l : LinkId) : (t.links[l]).waits = (s.links[l]).waits := by
  obtain ⟨new, hnew⟩ := h.links l
  rw [hnew]

theorem Sends.queued (h : Sends s t) {l : LinkId} {x : TxPkt} (hx : x ∈ (s.links[l]).tx) : x ∈ (t.links[l]).tx := by
  obtain ⟨new, hnew⟩ := h.links l
  rw [hnew]
  exact List.mem_append_left new hx

theorem Sends.collTx (h : Sends s t) : t.net.collTx = s.net.collTx := by
  obtain ⟨_, _, _, _, _, hnet⟩ := h.net
  rw [hnet]

theorem Sends.collRx (h : Sends s t) : t.net.collRx = s.net.collRx := by
  obtain ⟨_, _, _, _, _, hnet⟩ := h.net
  rw [hnet]

theorem Sends.collPend (h : Sends s t) : t.net.collPend = s.net.collPend := by
  obtain ⟨_, _, _, _, _, hnet⟩ := h.net
  rw [hnet]

end

section
variable (s : State)

theorem State.wr_sends {a : Nat} (v : W64) (h : ¬ RouteReg a) : Sends s (s.wr a v) :=
  sends_of_eq rfl rfl fun b hb => State.rd_wr_other s a b v fun e => h (e ▸ hb)

theorem State.count_sends {a : Nat} (w k : Nat) (h : ¬ RouteReg a) : Sends s (s.count a w k) := State.wr_sends s _ h

theorem State.record_sends {code inst sub : Nat} (h : ¬ RouteReg (evtReg code inst sub).2.1) (job dev : Option Nat)
    (a0 a1 : Nat) : Sends s (s.record code inst sub job dev a0 a1) := by
  refine sends_of_eq (State.record_links s _ _ _ _ _ _ _) (State.record_net s _ _ _ _ _ _ _) fun a ha => ?_
  have hlow : 0x3000 ≤ a := by
    unfold RouteReg lnkBase secBase at ha
    omega
  exact State.record_rd_above hlow s (fun e => h (e ▸ ha)) job dev a0 a1

/-- The status register of the events of the network as a whole (R298). -/
theorem netEvent_place {code : Nat} (hlo : 0x6100 ≤ code) (hhi : code < 0x7000) (inst sub : Nat) :
    (evtReg code inst sub).2.1 = lnkBase + 0x60 := by
  unfold evtReg
  repeat rw [if_neg (by omega)]
  rw [if_pos (by omega)]

theorem netEvent_notRoute {code : Nat} (hlo : 0x6100 ≤ code) (hhi : code < 0x7000) (inst sub : Nat) :
    ¬ RouteReg (evtReg code inst sub).2.1 := by
  rw [netEvent_place hlo hhi]
  unfold RouteReg lnkBase secBase
  omega

theorem unreachable_sends (job : Option Nat) (dst : Nat) (p : Pkt) : Sends s (unreachable s job dst p) :=
  State.record_sends s (netEvent_notRoute (by decide) (by decide) 0 0) _ _ _ _

/-- A link with a packet added to its transmit queue. -/
theorem setLink_sends (l : LinkId) (new : List TxPkt) :
    Sends s (s.setLink l { s.links[l] with tx := (s.links[l]).tx ++ new }) := by
  refine ⟨fun m => ?_, ⟨_, _, _, _, _, rfl⟩, fun _ _ => rfl⟩
  by_cases hm : m = l
  · subst hm
    exact ⟨new, State.setLink_links_self s m _⟩
  · exact ⟨[], by rw [State.setLink_links_other s l m _ hm, List.append_nil]⟩

/-- The network with the planes of flows noted. -/
theorem planes_sends {net : Net} (h : ∃ last pin hold self flow,
    net = { s.net with lastPlane := last, pinned := pin, holding := hold, self := self, qflow := flow }) :
    Sends s { s with net := net } :=
  ⟨fun _ => ⟨[], by rw [List.append_nil]⟩, h, fun _ _ => rfl⟩

theorem sendPkt_sends (die vc job dst : Nat) (p : Pkt) (q : Option QId) : Sends s (sendPkt s die vc job dst p q).1 := by
  unfold sendPkt
  split
  · exact sends_refl s
  · dsimp only
    split
    · exact sends_trans (planes_sends s ⟨_, _, _, _, _, rfl⟩) (setLink_sends _ _ _)
    · exact sends_trans (planes_sends s ⟨_, _, _, _, _, rfl⟩) (setLink_sends _ _ _)

theorem sendSync_sends (job dst rsp : Nat) (tf : List Byte) (excl : List Nat) :
    Sends s (sendSync s job dst rsp tf excl).1 := by
  have hsend := sendPkt_sends s 0 (6 + rsp) job dst (mkPkt s 9 3 rsp job dst 0 tf (syncData excl)) none
  unfold sendSync
  dsimp only
  split
  · exact planes_sends s ⟨_, _, _, _, _, rfl⟩
  · split
    · next t ht =>
      rw [ht] at hsend
      exact hsend
    · next t ht =>
      rw [ht] at hsend
      exact sends_trans hsend (unreachable_sends t _ _ _)

theorem State.setRclJob_sends (j : JobId) (k : RclJob) : Sends s (s.setRclJob j k) := sends_of_regs rfl rfl rfl

theorem State.failStep_sends (job : Option Nat) : Sends s (s.failStep job) := by
  unfold State.failStep
  split
  · exact sends_refl s
  · dsimp only
    split
    · exact sends_refl s
    · split
      · exact sends_of_regs rfl rfl rfl
      · split
        · exact sends_refl s
        · exact sends_trans (State.setRclJob_sends s _ _) (sendSync_sends _ _ _ _ _ _)

theorem State.raiseDev_sends {code inst sub : Nat} (h : ¬ RouteReg (evtReg code inst sub).2.1) (fails : Bool)
    (job dev : Option Nat) (a0 a1 : Nat) : Sends s (s.raiseDev fails code inst sub job dev a0 a1) := by
  have hrec := State.record_sends s h job dev a0 a1
  cases fails with
  | false => exact hrec
  | true => exact sends_trans hrec (State.failStep_sends _ job)

end

/-! ### A dispatch unit sends what it holds (R217, R287) -/

theorem sendCells_sends (die job dst q fuel : Nat) (s : State) (cells : List Cell) :
    Sends s (sendCells s die job dst q fuel cells).1 := by
  induction fuel generalizing s cells with
  | zero => exact sends_refl s
  | succ n ih =>
    have hsend := sendPkt_sends s die 0 job dst (qcellsPkt s job dst q (cells.take (packetLen cells))) none
    unfold sendCells
    dsimp only
    split
    · exact sends_refl s
    · split
      · next t ht =>
        rw [ht] at hsend
        exact sends_trans hsend (ih t _)
      · next t ht =>
        rw [ht] at hsend
        exact hsend

theorem duFlushOne_sends (s : State) (u : DuId) (o : DispOut) : Sends s (duFlushOne s u o).1 := by
  unfold duFlushOne
  split
  · exact sends_refl s
  · next dev q _ =>
    have hsend := sendCells_sends u.val o.job dev.toNat q.val o.cells.length s o.cells
    split
    · exact sends_refl s
    · split
      · next t ht =>
        rw [ht] at hsend
        exact hsend
      · next t x rest ht =>
        rw [ht] at hsend
        dsimp only
        split
        · exact hsend
        · exact sends_trans hsend (sends_trans (unreachable_sends t _ _ _) (State.failStep_sends _ _))

theorem flushSteps_sends (u : DuId) (l : List DispOut) (acc : State × List DispOut) :
    Sends acc.1 (l.foldl (flushStep u) acc).1 := by
  induction l generalizing acc with
  | nil => exact sends_refl acc.1
  | cons o l ih =>
    have hone : Sends acc.1 (flushStep u acc o).1 := by
      have h := duFlushOne_sends acc.1 u o
      unfold flushStep
      split <;> next he => rwa [he] at h
    exact sends_trans hone (ih _)

theorem duFlush_sends (s : State) (u : DuId) : Sends s (duFlush s u) := by
  rw [duFlush_eq]
  exact sends_trans (flushSteps_sends u _ (s, [])) (sends_of_regs rfl rfl rfl)

end Sys2Proof.Machine
end

section
/-!
SUPPORT. What the halting of a core and the waking of one whose guard has been drained send (R57, R167, R302, R364).
-/

namespace Sys2Proof.Machine

/-! ### A core enters HALTED -/

theorem State.setCore_sends (s : State) (c : CoreId) (k : Core) : Sends s (s.setCore c k) := sends_of_regs rfl rfl rfl
theorem State.setUnit_sends (s : State) (c : CoreId) (k : Units) : Sends s (s.setUnit c k) := sends_of_regs rfl rfl rfl
theorem State.setLoc_sends (s : State) (c : CoreId) (k : Local) : Sends s (s.setLoc c k) := sends_of_regs rfl rfl rfl
theorem State.setDu_sends (s : State) (u : DuId) (k : Dispatch) : Sends s (s.setDu u k) := sends_of_regs rfl rfl rfl

/-- No register of a core decides where a packet goes. -/
theorem coreReg_notRoute (c : Nat) (n : Nat) : ¬ RouteReg (coreBase c + n) := by
  unfold RouteReg coreBase lnkBase secBase
  omega

theorem coreEvent_notRoute {code : Nat} (hlo : 0x1000 ≤ code) (hhi : code < 0x2000) (c sub : Nat) :
    ¬ RouteReg (evtReg code c sub).2.1 := by
  rw [evtReg_core c sub hlo hhi]
  exact coreReg_notRoute c 0x20

/-- No register of telemetry decides where a packet goes. -/
theorem telReg_notRoute {n : Nat} (h : n < 0x100000) : ¬ RouteReg (telBase + n) := by
  unfold RouteReg telBase lnkBase secBase
  omega

/-- No event of the host port or of a job decides where a packet goes. -/
theorem hostEvent_notRoute {code : Nat} (h : code < 0x1000) (inst sub : Nat) : ¬ RouteReg (evtReg code inst sub).2.1 := by
  have hplace : (evtReg code inst sub).2.1 < lnkBase := by
    unfold evtReg lnkBase
    by_cases hlow : code < 0x100
    · rw [if_pos hlow]
      show 0x20 < 0x50000
      omega
    · rw [if_neg hlow, if_pos h]
      show 0x8818 < 0x50000
      omega
  unfold RouteReg secBase
  unfold lnkBase at *
  omega

theorem dispatchEvent_notRoute {code : Nat} (hlo : 0x3100 ≤ code) (hhi : code < 0x4000) (u : DuId) (sub : Nat) :
    ¬ RouteReg (evtReg code u.val sub).2.1 := by
  have hplace : (evtReg code u.val sub).2.1 = duBase u.val + 0x60 := by
    unfold evtReg
    repeat rw [if_neg (by omega)]
    rw [if_pos (by omega)]
  rw [hplace]
  unfold RouteReg duBase lnkBase secBase
  omega

theorem State.raiseIf_sends (s : State) {code inst sub : Nat} (h : ¬ RouteReg (evtReg code inst sub).2.1) (fails : Bool)
    (job : Option Nat) (a0 a1 : Nat) : Sends s (s.raiseIf fails code inst sub job a0 a1) :=
  State.raiseDev_sends s h fails job none a0 a1

theorem State.raise_sends (s : State) {code inst sub : Nat} (h : ¬ RouteReg (evtReg code inst sub).2.1) (job : Option Nat)
    (a0 a1 : Nat) : Sends s (s.raise code inst sub job a0 a1) := State.raiseIf_sends s h _ job a0 a1

theorem noteBeat_sends (s : State) (c : CoreId) (d : W64) : Sends s (noteBeat s c d) := by
  have hplace (i : Nat) (hi : i < 0x20) : ¬ RouteReg (telBase + 0x1000 + 0x20 * c.val + i) := by
    rw [Nat.add_assoc, Nat.add_assoc]
    exact telReg_notRoute (by omega)
  have hlast : Sends s (s.wr (telBase + 0x1000 + 0x20 * c.val) d) := State.wr_sends s d (hplace 0 (by decide))
  have hmax (t : State) : Sends t (if (t.rd (telBase + 0x1000 + 0x20 * c.val + 8)).toNat < d.toNat then
      t.wr (telBase + 0x1000 + 0x20 * c.val + 8) d else t) := by
    split
    · exact State.wr_sends t d (hplace 8 (by decide))
    · exact sends_refl t
  unfold noteBeat
  dsimp only
  refine sends_trans (sends_trans hlast (hmax _)) ?_
  generalize @ite State (_ < _) (Nat.decLt _ _) _ _ = t
  split
  · exact sends_refl t
  · next j hj =>
    have hjob := State.jobOf_lt hj
    split
    · refine sends_trans (State.count_sends t 32 1 (hplace 0x10 (by decide))) (State.wr_sends _ _ ?_)
      rw [Nat.add_assoc]
      exact telReg_notRoute (by omega)
    · exact sends_refl t

theorem endBeat_sends (s : State) (c : CoreId) : Sends s (endBeat s c) := by
  have hstop : Sends s (stopBeat s c) := by
    obtain ⟨-, h⟩ | ⟨t0, h⟩ := stopBeat_cases s c <;> rw [h]
    · exact sends_refl s
    · exact sends_of_regs rfl rfl rfl
  refine sends_trans hstop ?_
  unfold endBeat
  dsimp only
  split
  · exact sends_refl _
  · exact sends_trans (State.setCore_sends _ c _) (noteBeat_sends _ c _)

theorem sendMarkers_sends (s : State) (u : DuId) (job : Nat) (mbtag : BitVec 16) (kind : Nat) (dests : List DispDest) :
    Sends s (sendMarkers s u job mbtag kind dests) :=
  sends_trans (sends_foldl (fun s _ => State.setDu_sends s u _) dests s) (duFlush_sends _ u)

theorem forceCancel_sends (s : State) (u : DuId) (job core : Nat) (which : Tentative → Bool) :
    Sends s (forceCancel s u job core which) := by
  have hcount : ¬ RouteReg (duBase u + 0x50) := by
    unfold RouteReg duBase lnkBase secBase
    omega
  have hevent := dispatchEvent_notRoute (code := 0x3107 + 8 * u.val) (by omega) (by omega) u 0
  unfold forceCancel
  dsimp only
  split
  · exact sends_refl s
  · refine sends_trans ?_ (State.raise_sends _ hevent _ _ _)
    refine sends_trans ?_ (State.count_sends _ _ _ hcount)
    exact sends_trans (State.setDu_sends s u _) (sends_foldl (fun s (e : Tentative) => sendMarkers_sends s u job e.mbtag 2 e.dests) _ _)

theorem preemptCheck_sends (s : State) (id : Nat) : Sends s (preemptCheck s id) := by
  unfold preemptCheck
  split
  · exact sends_refl s
  · dsimp only
    split
    · exact sends_refl s
    · refine sends_trans ?_ (State.raise_sends _ (hostEvent_notRoute (code := 0x0101) (by decide) 0 0) _ _ _)
      exact sends_of_regs rfl rfl rfl

theorem victimHalted_sends (s : State) (c : CoreId) : Sends s (victimHalted s c) := by
  unfold victimHalted
  split
  · exact sends_refl s
  · refine sends_trans ?_ (sends_foldl (fun s (v : Victim) => preemptCheck_sends s v.id) _ _)
    refine sends_trans ?_ (State.raise_sends _ (hostEvent_notRoute (code := 0x0102) (by decide) 0 0) _ _ _)
    exact sends_of_regs rfl rfl rfl

theorem onHalted_sends (s : State) (c : CoreId) : Sends s (onHalted s c) := by
  unfold onHalted
  refine sends_trans ?_ (victimHalted_sends _ c)
  refine sends_trans ?_ (State.setDu_sends _ _ _)
  split <;> exact forceCancel_sends s _ _ _ _

theorem enterHalted_sends (s : State) (c : CoreId) (st : BitVec 16) : Sends s (enterHalted s c st) := by
  unfold enterHalted
  refine sends_trans ?_ (onHalted_sends _ c)
  refine sends_trans ?_ (State.raiseIf_sends _ (coreEvent_notRoute (by decide) (by decide) c 0) _ _ _ _)
  refine sends_trans ?_ (endBeat_sends _ c)
  exact sends_trans (State.setCore_sends s c _) (State.wr_sends _ _ (coreReg_notRoute c 8))

theorem settle_sends (s : State) (c : CoreId) : Sends s (settle s c) := by
  unfold settle
  split
  · split
    · split
      · exact State.setCore_sends s c _
      · exact State.setCore_sends s c _
      · exact enterHalted_sends s c _
    · exact sends_refl s
  · exact sends_refl s

/-! ### A core is let go (R53, R227) -/

theorem retire_sends (s : State) (c : CoreId) : Sends s (retire s c) := by
  refine sends_trans (State.setCore_sends s c (loopNext (s.core c) (s.core c).pc)) ?_
  unfold retire afterIssue
  dsimp only
  split
  · exact sends_refl _
  · split
    · exact sends_trans (State.setCore_sends _ c _) (settle_sends _ c)
    · exact sends_refl _

theorem unblock_sends (s : State) (c : CoreId) (pt : Nat) (ok : Bool) : Sends s (unblock s c pt ok) := by
  unfold unblock
  exact sends_trans (sends_trans (State.setUnit_sends s c _) (State.setCore_sends _ c _)) (retire_sends _ c)

theorem semSet_sends (s : State) (c : CoreId) (i : Nat) (v : BitVec 16) : Sends s (semSet s c i v) := by
  unfold semSet
  split
  · exact State.setLoc_sends s c _
  · exact sends_refl s

theorem wake_sends (s : State) (c : CoreId) : Sends s (wake s c) := by
  unfold wake
  refine sends_trans ?_ (settle_sends _ c)
  dsimp only
  split
  · split
    · exact sends_refl s
    · split
      · exact sends_trans (semSet_sends s c _ _) (unblock_sends _ c _ _)
      · exact sends_refl s
    · split
      · exact unblock_sends s c _ _
      · exact sends_refl s
    · split
      · exact unblock_sends s c _ _
      · exact sends_refl s
  · exact sends_refl s

/-! ### A hand-over guard is drained (R302) -/

theorem setGuard_sends (s : State) (c : CoreId) (g : Nat) (f : Bool) : Sends s (setGuard s c g f) := by
  unfold setGuard
  dsimp only
  split
  · exact State.raise_sends s (coreEvent_notRoute (by decide) (by decide) c 0) _ _ _
  · exact State.setLoc_sends s c _

theorem drainGuard_sends (s : State) (j : JobId) (c : CoreId) (g : Nat) : Sends s (drainGuard s j c g) := by
  unfold drainGuard
  split
  · exact State.setRclJob_sends s j _
  · split
    · exact sends_trans (setGuard_sends s c g false) (wake_sends _ c)
    · exact sends_refl s

theorem State.setBkt_sends (s : State) (e : QId) (k : Bucket) : Sends s (s.setBkt e k) := sends_of_regs rfl rfl rfl

theorem drainHand_sends (s : State) (e : QId) : Sends s (drainHand s e) := by
  unfold drainHand
  split
  · exact sends_trans (State.setBkt_sends s e _) (drainGuard_sends _ _ _ _)
  · exact sends_refl s

/-- A COLL transfer that has completed is taken off the buckets that it is of, and begins no other (R302). -/
theorem collDone_sends (s : State) (job dst xid : Nat) : Sends s (collDone s job dst xid) := by
  unfold collDone
  refine sends_foldl (fun s e => ?_) _ s
  dsimp only
  split
  · exact sends_trans (State.setBkt_sends s e _) (drainHand_sends _ e)
  · exact State.setBkt_sends s e _

end Sys2Proof.Machine
end

section
/-!
SUPPORT. Packets that change planes (R285, R286, R287): what moves them changes of the links their transmit queues alone, and where they
do not fail it leaves the cores, module memory and the routing registers as they were.
-/

namespace Sys2Proof.Machine

/-! ### The links but for their transmit queues -/

/-- The links of `t` are those of `s` but for what their transmit queues hold. -/
def TxOnly (s t : State) : Prop := ∀ l : LinkId, ∃ tx, t.links[l] = { s.links[l] with tx := tx }

section
variable {s t v : State}

theorem txOnly_of_links (h : t.links = s.links) : TxOnly s t := fun l => ⟨(s.links[l]).tx, by rw [h]⟩

theorem txOnly_refl (s : State) : TxOnly s s := txOnly_of_links rfl

theorem txOnly_trans (h : TxOnly s t) (k : TxOnly t v) : TxOnly s v := by
  intro l
  obtain ⟨tx, ht⟩ := h l
  obtain ⟨tx', hv⟩ := k l
  exact ⟨tx', by rw [hv, ht]⟩

theorem txOnly_foldl_pair {α β : Type} {f : State × β → α → State × β} (hf : ∀ x a, TxOnly x.1 (f x a).1) (l : List α)
    (x : State × β) : TxOnly x.1 (l.foldl f x).1 := by
  induction l generalizing x with
  | nil => exact txOnly_refl x.1
  | cons a l ih => exact txOnly_trans (hf x a) (ih (f x a))

theorem setLink_txOnly (s : State) (l : LinkId) (tx : List TxPkt) : TxOnly s (s.setLink l { s.links[l] with tx := tx }) := by
  intro m
  by_cases hm : m = l
  · subst hm
    exact ⟨tx, State.setLink_links_self s m _⟩
  · exact ⟨(s.links[m]).tx, State.setLink_links_other s l m _ hm⟩

theorem Sends.txOnly (h : Sends s t) : TxOnly s t := fun l => (h.links l).imp' _ fun _ hnew => hnew

theorem TxOnly.st (h : TxOnly s t) (l : LinkId) : (t.links[l]).st = (s.links[l]).st := by
  obtain ⟨tx, ht⟩ := h l
  rw [ht]

end

/-! ### Packets that move -/

/-- The packets of `s` may have moved between transmit queues in `t` and others been added; the cores, module memory and the routing
registers are as they were. -/
structure Reroutes (s t : State) : Prop where
  txOnly : TxOnly s t
  regs : ∀ a, RouteReg a → t.rd a = s.rd a
  cores : t.cores = s.cores
  gddr : t.gddr = s.gddr

section
variable {s t v : State}

theorem reroutes_trans (h : Reroutes s t) (k : Reroutes t v) : Reroutes s v :=
  ⟨txOnly_trans h.txOnly k.txOnly, fun a ha => (k.regs a ha).trans (h.regs a ha), k.cores.trans h.cores, k.gddr.trans h.gddr⟩

theorem reroutes_of_quiet (hsends : Sends s t) (hquiet : Quiet s t) : Reroutes s t :=
  ⟨hsends.txOnly, hsends.regs, hquiet.cores, hquiet.gddr⟩

theorem reroutes_net (s : State) (net : Net) : Reroutes s { s with net := net } :=
  ⟨txOnly_of_links rfl, fun _ _ => rfl, rfl, rfl⟩

theorem reroutes_refl (s : State) : Reroutes s s := reroutes_net s s.net

theorem reroutes_foldl {α : Type} {f : State → α → State} (hf : ∀ s x, Reroutes s (f s x)) (l : List α) (s : State) :
    Reroutes s (l.foldl f s) := by
  induction l generalizing s with
  | nil => exact reroutes_refl s
  | cons x l ih => exact reroutes_trans (hf s x) (ih (f s x))

theorem setLink_reroutes (s : State) (l : LinkId) (tx : List TxPkt) : Reroutes s (s.setLink l { s.links[l] with tx := tx }) :=
  ⟨setLink_txOnly s l tx, fun _ _ => rfl, rfl, rfl⟩

theorem placeFront_reroutes (s : State) (n : LinkId) (ts : List TxPkt) : Reroutes s (placeFront s n ts) :=
  setLink_reroutes s n _

end

theorem repinFlow_reroutes (s : State) (key old : Nat) : Reroutes s (repinFlow s key old) := by
  unfold repinFlow
  split
  · dsimp only
    split
    · exact reroutes_refl s
    · exact reroutes_trans (reroutes_trans (setLink_reroutes s _ _) (reroutes_net _ _)) (placeFront_reroutes _ _ _)
  · exact reroutes_refl s

/-- One step of the placing of striped packets on new planes. -/
def restripeStep (acc : State × List (TxPkt × LinkId)) (t : TxPkt) : State × List (TxPkt × LinkId) :=
  let s := acc.1
  if pinnedVc t.vc then acc
  else
    match acc.2.find? (fun m => stripeOf t ≠ none ∧ stripeOf t = stripeOf m.1) with
    | some m => (s, acc.2 ++ [(t, m.2)])
    | none =>
      match choosePlane s t.die t.vc t.dst t.job with
      | none => acc
      | some n =>
        ({ s with net := { s.net with lastPlane := tset s.net.lastPlane (t.die * 8 + t.vc) n.val } }, acc.2 ++ [(t, n)])

theorem restripe_eq (s : State) (ts : List TxPkt) : restripe s ts = ts.foldl restripeStep (s, []) := rfl

theorem restripeStep_net (acc : State × List (TxPkt × LinkId)) (t : TxPkt) :
    ∃ net, (restripeStep acc t).1 = { acc.1 with net := net } := by
  unfold restripeStep
  dsimp only
  split
  · exact ⟨_, rfl⟩
  · split
    · exact ⟨_, rfl⟩
    · split <;> exact ⟨_, rfl⟩

/-- New planes are noted in the network's state alone. -/
theorem restripe_net (s : State) (ts : List TxPkt) : ∃ net, (restripe s ts).1 = { s with net := net } := by
  rw [restripe_eq]
  have hall (acc : State × List (TxPkt × LinkId)) : ∃ net, (ts.foldl restripeStep acc).1 = { acc.1 with net := net } := by
    induction ts generalizing acc with
    | nil => exact ⟨_, rfl⟩
    | cons t ts ih =>
      obtain ⟨net, hstep⟩ := restripeStep_net acc t
      obtain ⟨net', hrest⟩ := ih (restripeStep acc t)
      exact ⟨net', by rw [List.foldl_cons, hrest, hstep]⟩
  exact hall (s, [])

theorem restripeLink_reroutes (s : State) (l : LinkId) : Reroutes s (restripeLink s l) := by
  unfold restripeLink
  dsimp only
  split
  · exact reroutes_refl s
  · obtain ⟨net, hnet⟩ := restripe_net s (s.links[l]).tx
    have hkept (tx : List TxPkt) : Reroutes s (State.setLink { s with net := net } l { s.links[l] with tx := tx }) :=
      reroutes_trans (reroutes_net s net) (setLink_reroutes { s with net := net } l tx)
    rw [hnet]
    exact reroutes_trans (hkept _)
      (reroutes_foldl (fun s (m : TxPkt × LinkId) => placeFront_reroutes s m.2 [m.1]) _ _)

theorem repin_reroutes (s : State) : Reroutes s (repin s) := by
  have hpinned := reroutes_foldl (f := fun s (e : Nat × Nat) => repinFlow s e.1 e.2)
    (fun s e => repinFlow_reroutes s e.1 e.2) s.net.pinned s
  unfold repin
  exact reroutes_trans hpinned (reroutes_foldl restripeLink_reroutes (allFin 24) _)

theorem rejoinFlows_reroutes (s : State) (l : LinkId) : Reroutes s (rejoinFlows s l) := by
  unfold rejoinFlows
  dsimp only
  exact reroutes_trans (setLink_reroutes s l _)
    (reroutes_foldl (fun s (m : TxPkt × LinkId) => placeFront_reroutes s m.2 _) _ _)

/-! ### Destinations that can be reached again (R286, R287) -/

theorem sendQflow_reroutes (s : State) (job dev q : Nat) (stop : Bool) : Reroutes s (sendQflow s job dev q stop) := by
  have hsend {die : Nat} {p : Pkt} {t : State} {sent : Bool} (ht : sendPkt s die 6 job dev p = (t, sent)) : Reroutes s t := by
    have h := reroutes_of_quiet (sendPkt_sends s die 6 job dev p none) (sendPkt_quiet (quiet_refl s))
    rwa [ht] at h
  unfold sendQflow
  dsimp only
  split
  · next t ht => exact reroutes_trans (hsend ht) (reroutes_net t _)
  · next t ht =>
    exact reroutes_trans (reroutes_trans (hsend ht) (reroutes_net t _))
      (reroutes_of_quiet (unreachable_sends _ _ _ _) (unreachable_quiet (quiet_refl _)))

theorem retryQflow_reroutes (s : State) : Reroutes s (retryQflow s) := by
  unfold retryQflow
  refine reroutes_foldl (fun s m => ?_) _ s
  split
  · exact reroutes_refl s
  · exact sendQflow_reroutes s _ _ _ _

theorem duFlush_reroutes (s : State) (u : DuId) : Reroutes s (duFlush s u) := by
  rw [duFlush_eq]
  refine reroutes_trans (reroutes_of_quiet (flushSteps_sends u (s.dus[u]).outs (s, [])) (flushSteps_quiet u _ (s, []))) ?_
  exact ⟨txOnly_of_links rfl, fun _ _ => rfl, rfl, rfl⟩

theorem reachAgain_reroutes (s : State) : Reroutes s (reachAgain s) := by
  unfold reachAgain
  exact reroutes_trans (reroutes_trans (repin_reroutes s) (retryQflow_reroutes _))
    (reroutes_trans (duFlush_reroutes _ 0) (duFlush_reroutes _ 1))

/-! ### What waits at a link that has gone down (R287) -/

theorem dmaAnswer_links (s : State) (c : CoreId) (ch : Fin 4) (seq tag code : Nat) (data : List Byte) :
    (dmaAnswer s c ch seq tag code data).links = s.links := by
  unfold dmaAnswer
  split
  · rfl
  · split
    · rfl
    · dsimp only
      split
      · rfl
      · split <;> rfl

theorem cairnAnswer_links (s : State) (job tag code : Nat) : (cairnAnswer s job tag code).links = s.links := by
  unfold cairnAnswer
  split
  · rfl
  · dsimp only
    split <;> rfl

theorem reqAnswer_links (s : State) (r : NetReq) (code : Nat) (data : List Byte) : (reqAnswer s r code data).links = s.links := by
  unfold reqAnswer
  dsimp only
  split
  · rfl
  · exact dmaAnswer_links _ _ _ _ _ _ _
  · exact cairnAnswer_links _ _ _ _
  · rfl

theorem reqStrand_txOnly (s : State) (r : NetReq) : TxOnly s (reqStrand s r) := by
  have hans := txOnly_of_links (reqAnswer_links s r 8 [])
  unfold reqStrand
  split
  · exact hans
  · exact txOnly_trans hans (State.failStep_sends _ _).txOnly

theorem strandPkt_txOnly (s : State) (x : TxPkt) : TxOnly s (strandPkt s x).1 := by
  have hev (job : Option Nat) : TxOnly s (unreachable s job x.dst x.pkt) := (unreachable_sends s job x.dst x.pkt).txOnly
  have hfail (t : State) (job : Option Nat) : TxOnly t (t.failStep job) := (State.failStep_sends t job).txOnly
  unfold strandPkt
  refine txOnly_trans (hev (if pType x.pkt = 10 then none else some x.job)) ?_
  dsimp only
  generalize unreachable s (if pType x.pkt = 10 then none else some x.job) x.dst x.pkt = t
  split
  · exact hfail _ _
  · split
    · exact reqStrand_txOnly _ _
    · exact txOnly_refl _
  · split
    · exact reqStrand_txOnly _ _
    · exact txOnly_refl _
  · exact txOnly_trans (txOnly_of_links rfl) (hfail _ _)
  · exact txOnly_of_links rfl
  · exact txOnly_refl _
  · exact hfail _ _

theorem strand_txOnly (s : State) (l : LinkId) : TxOnly s (strand s l) := by
  unfold strand
  refine txOnly_trans ?_ (setLink_txOnly _ l _)
  refine txOnly_foldl_pair (β := List TxPkt) (fun x t => ?_) _ (s, [])
  exact strandPkt_txOnly x.1 t

/-! ### A link leaves ACTIVE (R273) -/

theorem linkEv_links (s : State) (l : LinkId) (code a1 : Nat) : (linkEv s l code a1).links = s.links :=
  State.record_links s _ _ _ _ _ _ _

/-- An ACTIVE link goes to OPTICS or DOWN as EN and AUTO_UP say. -/
theorem linkLeave_st {s : State} {l : LinkId} (h : (s.links[l]).st = .active) :
    ((linkLeave s l).links[l]).st = leaveFor s l := by
  unfold linkLeave
  rw [if_neg (not_not_intro h)]
  dsimp only
  have hmoves (t : State) : TxOnly t (strand (rejoinFlows (repin t) l) l) :=
    txOnly_trans (repin_reroutes t).txOnly (txOnly_trans (rejoinFlows_reroutes _ l).txOnly (strand_txOnly _ l))
  rw [(hmoves _).st, State.record_links, linkEv_links]
  exact congrArg Link.st (State.setLink_links_self s l _)

end Sys2Proof.Machine
end

section
/-!
SUPPORT. Byte strings, flits, and the flit that a link receives (R4, R271, R274).
-/

namespace Sys2Proof.Machine

/-! ### Byte strings (R4) -/

theorem leAt_append_right {as bs : List Byte} {off len : Nat} (h : as.length = off) : leAt (as ++ bs) off len = leAt bs 0 len := by
  unfold leAt
  rw [List.drop_left' h, List.drop_zero]

theorem leAt_leBytes (n x : Nat) (bs : List Byte) : leAt (leBytes n x ++ bs) 0 n = x % 256 ^ n := by
  unfold leAt
  rw [List.drop_zero, List.take_left' (length_leBytes n x), leNat_leBytes]

/-! ### The fields of a flit (R274) -/

theorem fType_flitOf {ty : Nat} (h : ty < 16) (seq : Nat) (ack : Option Nat) (rets : List CreditRet) (payload : List Byte) :
    fType (flitOf ty seq ack rets payload) = ty := by
  have hlen : (payload.take 244 ++ List.replicate (244 - payload.length) 0#8).length = 244 := by
    rw [List.length_append, List.length_take, List.length_replicate]
    omega
  have hword : leAt (flitOf ty seq ack rets payload) 244 2 = seq % 4096 + ty * 4096 := by
    unfold flitOf
    simp only [List.append_assoc]
    rw [← List.append_assoc, leAt_append_right hlen, leAt_leBytes]
    omega
  unfold fType nfld
  rw [hword, Nat.shiftRight_eq_div_pow]
  omega

/-! ### A flit reaches a link (R271, R275) -/

section
variable (s : State) (l : LinkId)

/-- With nothing corrected, the FEC counts stay as they were. -/
theorem fecIn_none : fecIn s l 0 0 = s.wr (linkBase l + 0x38) (s.rd (linkBase l + 0x38)) := by
  have hsame (w : W64) : BitVec.ofNat 64 (satAdd 64 w.toNat 0) = w := by
    rw [satAdd, if_pos (by have := w.isLt; omega), Nat.add_zero, BitVec.ofNat_toNat, BitVec.setWidth_eq]
  unfold fecIn State.count
  rw [hsame]
  rfl

theorem fecIn_rd (a : Nat) : (fecIn s l 0 0).rd a = s.rd a := by
  rw [fecIn_none, State.rd_wr]
  split
  · next h => rw [h]
  · rfl

theorem fecIn_links : (fecIn s l 0 0).links = s.links := by rw [fecIn_none, State.wr_links]
theorem fecIn_cores : (fecIn s l 0 0).cores = s.cores := by rw [fecIn_none, State.wr_cores]
theorem fecIn_gddr : (fecIn s l 0 0).gddr = s.gddr := by rw [fecIn_none, State.wr_gddr]

end

section
variable {s : State} {l : LinkId} {f : List Byte} (hst : (s.links[l]).st = .active ∨ (s.links[l]).st = .exchange)
include hst

theorem flitIn_good {want : Nat} (hok : flitOk f false = true) (hty : fType f = want) (body : State → State) :
    flitIn s l f 0 0 false want body = body (fecIn s l 0 0) := by
  unfold flitIn
  dsimp only
  rw [if_neg (fun h => hst.elim h.1 h.2), show (false || (0 : Nat) != 0) = false from rfl, hok, hty]
  simp

theorem flitIn_bad {want : Nat} (hok : flitOk f false = false) (body : State → State) :
    flitIn s l f 0 0 false want body = badFlit (fecIn s l 0 0) l := by
  unfold flitIn
  dsimp only
  rw [if_neg (fun h => hst.elim h.1 h.2), show (false || (0 : Nat) != 0) = false from rfl, hok]
  rfl

end

end Sys2Proof.Machine
end

section
/-!
SETTLEMENT. The states of a link from DOWN to ACTIVE and back (O36; R271, R272, R273, R296).
-/

namespace Sys2Proof.Machine

/-! ### EN (R272, R273) -/

/-- A domain besides those of the clocks and of the boot is off while a clock loss holds the module (R401). -/
theorem State.unheld_of_domainOn {s : State} {d : Nat} (hd : d < 60) (hon : s.domainOn d = true) : s.power.held = false := by
  unfold State.domainOn at hon
  rw [decide_eq_true hd, Bool.and_true, Bool.and_eq_true, Bool.not_eq_true'] at hon
  exact hon.2

theorem linkDomain_lt (l : LinkId) : linkDomain l < 60 := by unfold linkDomain; omega

section
variable {s : State} {l : LinkId} (hon : s.domainOn (linkDomain l) = true)
include hon

theorem linkEnable_begins (hst : (s.links[l]).st = .down) : linkEnable s l true =
    (s.wr (linkBase l + 8) (setBit (s.rd (linkBase l + 8)) 0)).setLink l { s.links[l] with st := .optics } := by
  unfold linkEnable
  rw [hon]
  exact if_pos hst

/-- EN 0 takes a link down from every state. -/
theorem linkEnable_ends : ((linkEnable s l false).links[l]).st = .down := by
  unfold linkEnable
  rw [hon]
  simp only [Bool.not_true, Bool.false_eq_true, if_false]
  split
  · next hst =>
    have hen : linkEn (s.wr (linkBase l + 8) (putBit (s.rd (linkBase l + 8)) 0 false)) l = false := by
      unfold linkEn bit
      rw [State.rd_wr_self, getLsbD_putBit _ _ _ _ (by decide), if_pos rfl]
    rw [linkLeave_st hst, leaveFor, hen]
    rfl
  · rw [State.setLink_links_self]
    rfl

end

/-! ### Bring-up (R272) -/

theorem linkFail_st (s : State) (l : LinkId) (code : Nat) : ((linkFail s l code).links[l]).st = .failed := by
  unfold linkFail
  rw [linkEv_links, State.setLink_links_self]
  rfl

theorem linkUp_st (s : State) (l : LinkId) : ((linkUp s l).links[l]).st = .active := by
  have hseen (b : Bool) (u : State) : (if b then u.record 0x6101 0 0 none none 0 0 else u).links = u.links := by
    cases b
    · rfl
    · rw [if_pos rfl, State.record_links]
  unfold linkUp
  dsimp only
  rw [(reachAgain_reroutes _).txOnly.st, hseen, linkEv_links, State.setLink_links_self]
  rfl

theorem stateTimeout_fails {s : State} {l : LinkId}
    (h : (s.links[l]).st = .optics ∨ (s.links[l]).st = .align ∨ (s.links[l]).st = .exchange) :
    ((stateTimeout s l).links[l]).st = .failed := by
  have hfails : stateTimeout s l = linkFail s l 0x6002 := by
    unfold stateTimeout
    rcases h with h | h | h <;> rw [h]
  rw [hfails, linkFail_st]

/-- LINK_RSV as it takes effect when EXCHANGE begins (R278). -/
def rsvTakenAt (s : State) (l : LinkId) : List W64 := (List.range 16).map (fun j => s.rd (linkBase l + 0x100 + 8 * j))

/-- The PARAM flit that the module sends (R273). -/
def paramSent (s : State) (l : LinkId) : List Byte := flitOf ftParam 0 none [] (paramPayload s l (rsvTakenAt s l))

theorem laneAlign_exchanges {s : State} {l : LinkId} (hst : (s.links[l]).st = .align) (h0 : (s.links[l]).lock0 = true)
    (h1 : (s.links[l]).lock1 = true) : laneAlign s l = s.setLink l { s.links[l] with
      st := .exchange, rsv := rsvTakenAt s l, sent := (s.links[l]).sent ++ [paramSent s l] } := if_pos ⟨hst, h0, h1⟩

/-! ### The PARAM flit of the leaf (R273, R296) -/

section
variable (s : State) (l : LinkId) (f : List Byte)

/-- No register of a link decides where a packet goes. -/
theorem linkReg_notRoute {n : Nat} (h : n < 0x4000) : ¬ RouteReg (linkBase l + n) := by
  unfold RouteReg linkBase lnkBase secBase
  omega

theorem takePeer_sends : Sends s (takePeer s l f) := State.wr_sends s _ (linkReg_notRoute l (by decide))

/-- The registers that a PARAM flit of the leaf fills (R296). -/
def paramRegs : State :=
  (List.range 16).foldl (fun s j => s.wr (linkBase l + 0x180 + 8 * j) (BitVec.ofNat 64 (leAt f (8 + 8 * j) 8))) (takePeer s l f)

theorem takeParam_eq : takeParam s l f =
    (paramRegs s l f).setLink l { (paramRegs s l f).links[l] with peerPool := leAt f 136 2 } := rfl

theorem paramRegs_sends : Sends s (paramRegs s l f) := by
  have hall (n : Nat) (hn : n ≤ 16) (t : State) : Sends t ((List.range n).foldl
      (fun s j => s.wr (linkBase l + 0x180 + 8 * j) (BitVec.ofNat 64 (leAt f (8 + 8 * j) 8))) t) := by
    induction n with
    | zero => exact sends_refl t
    | succ n ih =>
      rw [List.range_succ, List.foldl_append]
      refine sends_trans (ih (by omega)) (State.wr_sends _ _ ?_)
      rw [Nat.add_assoc]
      exact linkReg_notRoute l (by omega)
  exact sends_trans (takePeer_sends s l f) (hall 16 (le_refl 16) _)

theorem takeParam_st : ((takeParam s l f).links[l]).st = (s.links[l]).st := by
  rw [takeParam_eq, State.setLink_links_self]
  exact (paramRegs_sends s l f).txOnly.st l

theorem takeParam_devid : (takeParam s l f).devid = s.devid := by
  unfold State.devid
  rw [takeParam_eq, State.rd_setLink, (paramRegs_sends s l f).regs _ (.inl rfl)]

/-- A PARAM flit that comes from another place than this link's plane and module, or reserves too few units somewhere, fails the
bring-up. -/
theorem paramIn_mismatch (a : Bool)
    (h : leAt f 0 1 ≠ 2 ∨ leAt f 1 1 ≠ l.val ∨ leAt f 2 1 ≠ s.devid % 64 ∨ ∃ i, i < 128 ∧ 1 ≤ leAt f (8 + i) 1 ∧ leAt f (8 + i) 1 ≤ 16) :
    ((paramIn s l f a).links[l]).st = .failed := by
  unfold paramIn
  dsimp only
  rw [takeParam_devid]
  by_cases hplace : leAt f 0 1 ≠ 2 ∨ leAt f 1 1 ≠ l.val ∨ leAt f 2 1 ≠ s.devid % 64
  · rw [if_pos hplace]
    exact linkFail_st _ l _
  · obtain ⟨i, hi, hlo, hhi⟩ : ∃ i, i < 128 ∧ 1 ≤ leAt f (8 + i) 1 ∧ leAt f (8 + i) 1 ≤ 16 := by
      rcases h with h | h | h | h
      · exact absurd (.inl h) hplace
      · exact absurd (.inr (.inl h)) hplace
      · exact absurd (.inr (.inr h)) hplace
      · exact h
    have hany : (((List.range 128).map (fun i => leAt f (8 + i) 1)).any (fun v => 1 ≤ v && v ≤ 16)) = true :=
      List.any_eq_true.mpr ⟨_, List.mem_map.mpr ⟨i, List.mem_range.mpr hi, rfl⟩, by simp [hlo, hhi]⟩
    rw [if_neg hplace, if_pos (.inl hany)]
    exact linkFail_st _ l _

theorem paramIn_matches (a : Bool) (hrole : leAt f 0 1 = 2) (hplane : leAt f 1 1 = l.val) (hport : leAt f 2 1 = s.devid % 64)
    (hrsv : ∀ i, i < 128 → leAt f (8 + i) 1 = 0) (hpool : leAt f 136 2 ≤ 4096) :
    paramIn s l f a = if a then linkUp (takeParam s l f) l else takeParam s l f := by
  have hzero : (List.range 128).map (fun i => leAt f (8 + i) 1) = List.replicate 128 0 := by
    refine List.eq_replicate_iff.mpr ⟨by simp, fun v hv => ?_⟩
    obtain ⟨i, hi, rfl⟩ := List.mem_map.mp hv
    exact hrsv i (List.mem_range.mp hi)
  unfold paramIn
  dsimp only
  rw [takeParam_devid, hzero, if_neg (by simp [hrole, hplane, hport]), if_neg]
  have hsum : (List.replicate 128 0).foldl (· + ·) 0 = 0 := by rw [← List.sum_eq_foldl, List.sum_replicate, smul_zero]
  have hany : (List.replicate 128 0).any (fun v => decide (1 ≤ v) && decide (v ≤ 16)) = false := by
    rw [List.any_replicate]
    rfl
  rw [hsum, hany]
  simpa using hpool

end

/-! ### Losing the lock (R273) -/

theorem lockLoss_st {s : State} {l : LinkId} (lane : Fin 2) (h : (s.links[l]).st = .active) :
    ((lockLoss s l lane).links[l]).st = leaveFor s l := by
  have hkept (k : Link) (hk : k.st = .active) : ((s.setLink l k).links[l]).st = .active := by
    rw [State.setLink_links_self, hk]
  unfold lockLoss
  dsimp only
  split <;> exact linkLeave_st (hkept _ h)

/-- Settles O36: each event of a bring-up sets the state by its own equation, and `linkLeave_st` takes a link out of ACTIVE. -/
theorem linkBringUpResult : Obligations.LinkBringUpResult := by
  unfold Obligations.LinkBringUpResult
  intro l s k ctl st hon hrec
  have hheld := State.unheld_of_domainOn (linkDomain_lt l) hon
  have hnext {t : State} : Host.Outcome.next (s.live t) = (.next t : Out) := by rw [live_of_held hheld]
  have hdevid : s.devid = (fecIn s l 0 0).devid := by rw [State.devid, State.devid, fecIn_rd]
  have hparam (f : List Byte) (a : Bool) {x : LinkSt} (hst : k.st = .exchange) (hok : flitOk f false = true)
      (hty : fType f = ftParam) (hx : ((paramIn (fecIn s l 0 0) l f a).links[l]).st = x) : st (.paramFlit l f 0 0 a false) x := by
    refine ⟨_, hnext, ?_⟩
    rw [flitIn_good (.inr hst) hok hty, if_pos (by rw [fecIn_links]; exact hst)]
    exact hx
  refine ⟨fun b hsender hheard => ⟨fun hdown hfree => ?_, fun hbarred => ?_, ?_⟩, fun lanes => ⟨fun hst => ?_, fun hst => ?_⟩, ?_,
    fun f hst hok hty => ⟨fun hrole hplane hport hrsv hpool => ⟨?_, ?_⟩, fun hbad a => ?_⟩, fun hst => ?_, fun hst hauto => ?_,
    fun hst lane => ⟨fun hen hauto => ?_, fun hauto => ?_⟩⟩
  · show Host.Outcome.next _ = _
    rw [hsender, hheard, hfree, ifOn_on hon hrec]
    exact congrArg Host.Outcome.next (linkEnable_begins hon hdown)
  · show Host.Outcome.next _ = _
    rw [hsender, hheard, hbarred]
    rfl
  · refine ⟨linkEnable s l false, ?_, linkEnable_ends hon⟩
    show Host.Outcome.next _ = _
    rw [hsender, hheard, ifOn_on hon hrec]
    rfl
  · exact hnext.trans (congrArg Host.Outcome.next (if_pos hst))
  · exact hnext.trans (congrArg Host.Outcome.next (if_neg hst))
  · intro hst h0 h1
    refine ⟨_, paramSent s l, hnext, ?_⟩
    rw [laneAlign_exchanges hst h0 h1, State.setLink_links_self]
    exact ⟨rfl, rfl, fType_flitOf (by decide) 0 none [] _, rfl⟩
  · refine hparam f true hst hok hty ?_
    rw [paramIn_matches _ l f true hrole hplane (hdevid ▸ hport) hrsv hpool, if_pos rfl]
    exact linkUp_st _ l
  · refine hparam f false hst hok hty ?_
    rw [paramIn_matches _ l f false hrole hplane (hdevid ▸ hport) hrsv hpool, if_neg (by decide)]
    exact (takeParam_st _ l f).trans (by rw [fecIn_links]; exact hst)
  · exact hparam f a hst hok hty (paramIn_mismatch _ l f a (hdevid ▸ hbad))
  · exact ⟨_, hnext, stateTimeout_fails hst⟩
  · exact congrArg Host.Outcome.next (if_pos ⟨hst, hauto, hon⟩)
  · refine ⟨_, hnext, ?_⟩
    rw [lockLoss_st lane hst, leaveFor, hen, hon, hauto]
    rfl
  · refine ⟨_, hnext, ?_⟩
    rw [lockLoss_st lane hst, leaveFor, hauto, Bool.and_false]
    rfl

end Sys2Proof.Machine
end

section
/-!
SUPPORT. The transmitter of a link (R274, R275, R279): which packet starts where one is queued, and the flits that it leaves in.
-/

namespace Sys2Proof.Machine

/-! ### The packet that starts (R279) -/

/-- Of the numbers below a bound, a test that one alone passes leaves that one. -/
theorem filter_range_single {n i : Nat} {p : Nat → Bool} (hi : i < n) (hp : ∀ j, p j = true ↔ j = i) :
    (List.range n).filter p = [i] := by
  have heq : p = fun j => j == i := funext fun j => Bool.eq_iff_iff.mpr ((hp j).trans beq_iff_eq.symm)
  rw [heq, List.filter_beq, List.count_eq_one_of_mem List.nodup_range (List.mem_range.mpr hi)]
  rfl

theorem filter_range_none {n : Nat} {p : Nat → Bool} (hp : ∀ j, p j = false) : (List.range n).filter p = [] :=
  List.filter_eq_nil_iff.mpr fun j _ => by simp [hp j]

section
variable {s : State} {l : LinkId}

theorem eligible_none {vc job : Nat} (h : headPkt s.links[l] vc job = none) : eligible s l vc job = none := by
  unfold eligible
  dsimp only
  rw [h]

theorem pickJob_none {vc : Nat} (h : ∀ j, eligible s l vc j = none) : pickJob s l vc = none := by
  have hjs : (List.range 16).filter (fun j => (eligible s l vc j).isSome) = [] := filter_range_none fun j => by rw [h j]; rfl
  unfold pickJob
  dsimp only
  rw [hjs]
  rfl

theorem pickVc_none {cls : Nat} (h : ∀ vc j, vc / 2 = cls → eligible s l vc j = none) : pickVc s l cls = none := by
  unfold pickVc
  rw [pickJob_none fun j => h (2 * cls + 1) j (by omega), pickJob_none fun j => h (2 * cls) j (by omega)]
  rfl

theorem pickNext_none (h : ∀ vc j, eligible s l vc j = none) : pickNext s l = none := by
  have hvc (cls : Nat) : pickVc s l cls = none := pickVc_none fun vc j _ => h vc j
  have hcs : (List.range 3).filter (fun c => (pickVc s l c).isSome) = [] := filter_range_none fun c => by rw [hvc c]; rfl
  unfold pickNext pickClass
  dsimp only
  rw [hvc 3, hcs]
  rfl

end

/-- Of all (job, VC) of a link one alone has a packet that may start. -/
structure Alone (s : State) (l : LinkId) (vc job : Nat) : Prop where
  vc_lt : vc < 8
  job_lt : job < 16
  may : (eligible s l vc job).isSome = true
  others : ∀ v j, ¬ (v = vc ∧ j = job) → eligible s l v j = none

section
variable {s : State} {l : LinkId} {vc job : Nat} (h : Alone s l vc job)
include h

theorem Alone.isSome_iff (v j : Nat) : (eligible s l v j).isSome = true ↔ v = vc ∧ j = job := by
  by_cases hvj : v = vc ∧ j = job
  · obtain ⟨rfl, rfl⟩ := hvj
    simpa using h.may
  · simp [h.others v j hvj, hvj]

theorem Alone.pickJob : ∃ r, pickJob s l vc = some (job, r) := by
  have hjs : (List.range 16).filter (fun j => (eligible s l vc j).isSome) = [job] :=
    filter_range_single h.job_lt fun j => (h.isSome_iff vc j).trans (and_iff_right rfl)
  unfold Machine.pickJob
  dsimp only
  rw [hjs]
  split
  · next j js hfind =>
    obtain rfl := List.mem_singleton.mp (List.mem_of_find?_eq_some hfind)
    exact ⟨_, rfl⟩
  · next j rest hfind hcons =>
    obtain ⟨rfl, -⟩ := List.cons.inj hcons
    exact ⟨_, rfl⟩
  · next hnil => exact absurd hnil (List.cons_ne_nil _ _)

theorem Alone.pickVc : ∃ r, pickVc s l (vc / 2) = some (vc, job, r) := by
  obtain ⟨r, hr⟩ := h.pickJob
  have hother {v : Nat} (hv : v ≠ vc) : Machine.pickJob s l v = none := pickJob_none fun j => h.others v j fun e => hv e.1
  unfold Machine.pickVc
  rcases Nat.mod_two_eq_zero_or_one vc with heven | hodd
  · rw [hother (by omega), show 2 * (vc / 2) = vc by omega, hr]
    exact ⟨r, rfl⟩
  · rw [show 2 * (vc / 2) + 1 = vc by omega, hr]
    exact ⟨r, rfl⟩

theorem Alone.pickVc_other {cls : Nat} (hcls : cls ≠ vc / 2) : Machine.pickVc s l cls = none :=
  pickVc_none fun v j hv => h.others v j fun e => hcls (by rw [← hv, e.1])

theorem Alone.pickClass : Machine.pickClass s l = none ∧ vc / 2 = 3 ∨ ∃ r, Machine.pickClass s l = some (vc / 2, r) ∧ vc / 2 < 3 := by
  obtain ⟨r, hr⟩ := h.pickVc
  have hiff (c : Nat) : (Machine.pickVc s l c).isSome = true ↔ c = vc / 2 := by
    by_cases hc : c = vc / 2
    · simp [hc, hr]
    · simp [hc, h.pickVc_other hc]
  unfold Machine.pickClass
  dsimp only
  by_cases htop : vc / 2 < 3
  · refine .inr ?_
    rw [filter_range_single htop hiff]
    split
    · next c cs hfind =>
      obtain rfl := List.mem_singleton.mp (List.mem_of_find?_eq_some hfind)
      exact ⟨_, rfl, htop⟩
    · next c rest hfind hcons =>
      obtain ⟨rfl, -⟩ := List.cons.inj hcons
      exact ⟨_, rfl, htop⟩
    · next hnil => exact absurd hnil (List.cons_ne_nil _ _)
  · have hvc := h.vc_lt
    have hnone : (List.range 3).filter (fun c => (Machine.pickVc s l c).isSome) = [] :=
      List.filter_eq_nil_iff.mpr fun c hc => by
        have := List.mem_range.mp hc
        rw [hiff]
        omega
    rw [hnone]
    exact .inl ⟨rfl, by omega⟩

/-- The one packet that may start is next, whatever the counts of the round say. -/
theorem Alone.pickNext : ∃ tc3 round jobRound, Machine.pickNext s l =
    some (vc, job, { s.links[l] with tc3 := tc3, round := round, jobRound := jobRound }) := by
  obtain ⟨r, hr⟩ := h.pickVc
  unfold Machine.pickNext
  dsimp only
  obtain ⟨hclass, htop⟩ | ⟨c, hclass, hlow⟩ := h.pickClass
  · rw [htop] at hr
    rw [hr, hclass]
    exact ⟨_, _, _, rfl⟩
  · rw [h.pickVc_other (show 3 ≠ vc / 2 by omega), hclass]
    dsimp only
    rw [hr]
    exact ⟨_, _, _, rfl⟩

end

/-- With one packet queued, no other (job, VC) has any. -/
theorem alone_of_single {s : State} {l : LinkId} {x : TxPkt} {pool : Bool} (htx : (s.links[l]).tx = [x]) (hvc : x.vc < 8)
    (hjob : x.job < 16) (hmay : eligible s l x.vc x.job = some (x, pool)) : Alone s l x.vc x.job := by
  refine ⟨hvc, hjob, by rw [hmay]; rfl, fun v j hvj => eligible_none ?_⟩
  unfold headPkt
  rw [htx]
  refine List.find?_eq_none.mpr fun y hy => ?_
  rw [List.mem_singleton.mp hy]
  simp only [Bool.and_eq_true, beq_iff_eq]
  exact fun hmatch => hvj ⟨hmatch.1.1.symm, hmatch.1.2.symm⟩

/-! ### The flits of a packet (R274, R275) -/

/-- A string cut into pieces of `n` bytes, as many as there is room for. -/
theorem length_chunks {α : Type} {n : Nat} (hn : 0 < n) (fuel : Nat) (l : List α) (h : l.length ≤ n * fuel) :
    (chunks n fuel l).length = (l.length + n - 1) / n := by
  induction fuel generalizing l with
  | zero =>
    obtain rfl : l = [] := List.length_eq_zero_iff.mp (by omega)
    simp only [chunks, List.length_nil]
    exact (Nat.div_eq_of_lt (by omega)).symm
  | succ fuel ih =>
    rw [Nat.mul_succ] at h
    unfold chunks
    by_cases hl : l = []
    · subst hl
      simp only [List.isEmpty_nil, if_true, List.length_nil]
      exact (Nat.div_eq_of_lt (by omega)).symm
    · have hpos : 0 < l.length := List.length_pos_iff.mpr hl
      rw [if_neg (by simpa using hl), List.length_cons, ih _ (by rw [List.length_drop]; omega), List.length_drop,
        ← Nat.add_div_right _ hn]
      by_cases hle : n ≤ l.length
      · congr 1
        omega
      · rw [show l.length - n = 0 by omega, show 0 + n - 1 + n = (n - 1) + n by omega, Nat.add_div_right _ hn,
          Nat.div_eq_of_lt (show n - 1 < n by omega), show l.length + n - 1 = (l.length - 1) + n by omega, Nat.add_div_right _ hn,
          Nat.div_eq_of_lt (show l.length - 1 < n by omega)]

theorem length_pktBytes (p : Pkt) : (pktBytes p).length = 32 + p.data.length := by
  unfold pktBytes
  rw [List.length_append, length_leBytes]

/-- `n` flits of the packet `x` have left the link `k`, which is `j` after them. -/
structure FlitsSent (x : TxPkt) (n : Nat) (k j : Link) : Prop where
  tx : j.tx = k.tx
  retry : ∃ new, j.retry = k.retry ++ new ∧ new.length = n ∧ ∀ f ∈ new, f.pkt = some x
  sent : j.sent.length = k.sent.length + n
  seq : j.txSeq = if n = 0 then k.txSeq else (k.txSeq + n) % 4096

theorem flitsSent_none (x : TxPkt) (k : Link) : FlitsSent x 0 k k := ⟨rfl, ⟨[], by simp⟩, rfl, rfl⟩

theorem FlitsSent.next {x : TxPkt} {n : Nat} {k j : Link} (h : FlitsSent x n k j) (payload : List Byte) (last : Bool) :
    FlitsSent x (n + 1) k (sendFlit j payload (some x) last) := by
  obtain ⟨f, hf, hpkt⟩ : ∃ f, (sendFlit j payload (some x) last).retry = j.retry ++ [f] ∧ f.pkt = some x := ⟨_, rfl, rfl⟩
  obtain ⟨new, hretry, hlen, hnew⟩ := h.retry
  have hseq : (sendFlit j payload (some x) last).txSeq = (j.txSeq + 1) % 4096 := rfl
  refine ⟨h.tx, ⟨new ++ [f], by rw [hf, hretry, List.append_assoc], by simp [hlen], fun g hg => ?_⟩, ?_, ?_⟩
  · rcases List.mem_append.mp hg with hg | hg
    · exact hnew g hg
    · rw [List.mem_singleton.mp hg, hpkt]
  · show (j.sent ++ [_]).length = _
    rw [List.length_append, h.sent]
    rfl
  · rw [hseq, h.seq, if_neg (Nat.succ_ne_zero n)]
    split <;> omega

theorem sendFlits_sent (k : Link) (x : TxPkt) : FlitsSent x (chunks 244 8 (pktBytes x.pkt)).length k (sendFlits k x) := by
  have hall (ps : List (List Byte)) (m n : Nat) : FlitsSent x n k
      ((List.range n).foldl (fun k i => sendFlit k (getD ps i []) (some x) (i + 1 == m)) k) := by
    induction n with
    | zero => exact flitsSent_none x k
    | succ n ih =>
      rw [List.range_succ, List.foldl_append]
      exact ih.next _ _
  exact hall _ _ _

/-! ### The packet leaves (R278, R280, R283, R292) -/

theorem timeOut_frame (s : State) (h : BitVec 256) : ∃ k t net, (timeOut s h).1 = { s with tick := k, ts := t, net := net } := by
  unfold timeOut
  split
  · exact ⟨_, _, _, rfl⟩
  · dsimp only
    split <;> exact ⟨_, _, _, rfl⟩

/-- The stamping of a packet changes the time and the network, and its header alone. -/
theorem stamp_frame (s : State) (x : TxPkt) (pool : Bool) : ∃ k t net h ord, stamp s x pool =
    ({ s with tick := k, ts := t, net := net }, { x with pkt := { x.pkt with hdr := h }, ordered := ord }) := by
  obtain ⟨k, t, net, htime⟩ := timeOut_frame s (putBit x.pkt.hdr 13 pool)
  unfold stamp
  dsimp only
  rw [htime]
  split
  · exact ⟨_, _, _, _, _, rfl⟩
  · exact ⟨_, _, _, _, _, rfl⟩

/-- The one packet queued that may start leaves its queue in flits, each of which stands in the retry buffer. -/
theorem packetStart_single {s : State} {l : LinkId} {x : TxPkt} {pool : Bool} (hst : (s.links[l]).st = .active)
    (htx : (s.links[l]).tx = [x]) (hvc : x.vc < 8) (hjob : x.job < 16) (hmay : eligible s l x.vc x.job = some (x, pool)) :
    (packetStart s l).cores = s.cores ∧ (packetStart s l).net = (stamp s x pool).1.net ∧ ((packetStart s l).links[l]).tx = [] ∧
      ∃ j, j.retry = (s.links[l]).retry ∧ j.sent = (s.links[l]).sent ∧ j.txSeq = (s.links[l]).txSeq ∧
        FlitsSent (stamp s x pool).2 (chunks 244 8 (pktBytes (stamp s x pool).2.pkt)).length j ((packetStart s l).links[l]) := by
  obtain ⟨tc3, round, jobRound, hnext⟩ := (alone_of_single htx hvc hjob hmay).pickNext
  obtain ⟨k, t, net, h, ord, hstamp⟩ := stamp_frame s x pool
  have hgone : (s.links[l]).tx.erase x = [] := by
    rw [htx, List.erase_cons_head]
  unfold packetStart
  dsimp only
  rw [if_neg (not_not_intro hst), hnext]
  dsimp only
  rw [hmay]
  dsimp only
  rw [hstamp]
  dsimp only
  have hsent (j : Link) (y : TxPkt) := sendFlits_sent j y
  cases pool
  all_goals
    refine ⟨rfl, rfl, ?_, ?_⟩
    · rw [State.count, State.wr_links, State.setLink_links_self, (hsent _ _).tx]
      exact hgone
    · rw [State.count, State.wr_links, State.setLink_links_self]
      refine ⟨_, ?_, ?_, ?_, hsent _ _⟩ <;> rfl

/-- With nothing queued and no credits to return an IDLE flit leaves. -/
theorem packetStart_idle {s : State} {l : LinkId} (hst : (s.links[l]).st = .active) (htx : (s.links[l]).tx = [])
    (hrets : (s.links[l]).rets = []) : packetStart s l = s.setLink l (sendIdle s.links[l]) := by
  have hnone : pickNext s l = none := pickNext_none fun vc j => eligible_none (by unfold headPkt; rw [htx]; rfl)
  unfold packetStart
  dsimp only
  rw [if_neg (not_not_intro hst), hnone, hrets]
  rfl

end Sys2Proof.Machine
end

section
/-!
SUPPORT. What a flit of an ACTIVE link does (R274, R275, R278).
-/

namespace Sys2Proof.Machine

theorem State.setLink_setLink (s : State) (l : LinkId) (j k : Link) : (s.setLink l j).setLink l k = s.setLink l k := by
  unfold State.setLink
  simp

theorem leNat_zeros (n : Nat) : leNat (List.replicate n 0#8) = 0 := by
  induction n with
  | zero => rfl
  | succ n ih => rw [List.replicate_succ, leNat, ih]; rfl

theorem leAt_take {bs : List Byte} {off len n : Nat} (h : off + len ≤ n) : leAt (bs.take n) off len = leAt bs off len := by
  unfold leAt
  rw [List.drop_take, List.take_take, Nat.min_eq_left (by omega)]

theorem length_of_flitOk {f : List Byte} {hit : Bool} (h : flitOk f hit = true) : f.length = 256 := by
  unfold flitOk at h
  simp only [Bool.and_eq_true, beq_iff_eq] at h
  obtain ⟨⟨⟨hlen, -⟩, -⟩, -⟩ := h
  exact hlen

/-- The zero bytes of a flit from a place on. -/
theorem drop_payload_zeros {f : List Byte} {n : Nat} (hlen : f.length = 256) (hn : n ≤ 244)
    (hzero : ∀ i, n ≤ i → i < 244 → getD f i 0#8 = 0#8) : (f.take 244).drop n = List.replicate (244 - n) 0#8 := by
  refine List.ext_getElem (by simp [hlen]) fun i hi _ => ?_
  rw [List.length_drop, List.length_take, hlen] at hi
  have h := hzero (n + i) (by omega) (by omega)
  rw [getD, List.getElem?_eq_getElem (by omega), Option.getD_some] at h
  rw [List.getElem_drop, List.getElem_take, List.getElem_replicate, h]

/-! ### Credits that come back (R278) -/

section
variable {s : State} {l : LinkId} {r : CreditRet}

theorem creditIn_none (h : r.units = 0) : creditIn s l r = s := if_pos (.inl h)

theorem creditIn_reserved (hst : (s.links[l]).st = .active) (hpool : r.pool = false) (hpos : 0 < r.units)
    (huse : r.units ≤ tnat (s.links[l]).useRsv (r.job * 8 + r.vc)) : creditIn s l r = s.setLink l { s.links[l] with
      useRsv := tset (s.links[l]).useRsv (r.job * 8 + r.vc) (tnat (s.links[l]).useRsv (r.job * 8 + r.vc) - r.units) } := by
  unfold creditIn
  dsimp only
  rw [hpool, if_neg (by rw [hst]; simp; omega), if_neg (by simpa using huse)]
  rfl

end

theorem tnat_tset (t : Table Nat) (k j v : Nat) : tnat (tset t k v) j = if j = k then v else tnat t j := by
  unfold tnat
  rw [tget_tset]
  split <;> rfl

/-! ### Packets in the bytes that have come (R274) -/

/-- Padding is skipped to its end. -/
theorem parsePkts_padding {l : LinkId} {s : State} {m fuel : Nat} (hfuel : m < fuel)
    (hpart : (s.links[l]).rxPart = List.replicate (4 * m) 0#8) :
    parsePkts l fuel s = s.setLink l { s.links[l] with rxPart := [] } := by
  induction m generalizing s fuel with
  | zero =>
    obtain ⟨fuel, rfl⟩ := Nat.exists_eq_add_of_lt hfuel
    have hnil : (s.links[l]).rxPart = [] := hpart
    have hsame : { s.links[l] with rxPart := [] } = s.links[l] := by rw [← hnil]
    rw [hsame, State.setLink_same, Nat.zero_add]
    unfold parsePkts
    rw [if_pos (by rw [hnil]; decide)]
  | succ m ih =>
    obtain ⟨fuel, rfl⟩ : ∃ n, fuel = n + 1 := ⟨fuel - 1, by omega⟩
    have hzero : leAt (s.links[l]).rxPart 0 4 = 0 := by
      rw [hpart, leAt, List.drop_zero, List.take_replicate, leNat_zeros]
    unfold parsePkts
    dsimp only
    rw [if_neg (by rw [hpart, List.length_replicate]; omega), if_pos hzero, ih (by omega)]
    · rw [State.setLink_setLink, State.setLink_links_self]
    · rw [State.setLink_links_self, hpart, List.drop_replicate]
      rfl

/-- A packet that has come whole is taken out of the bytes. -/
theorem parsePkts_packet {l : LinkId} {s : State} {fuel : Nat} {b : List Byte} (hpart : (s.links[l]).rxPart = b)
    (hhead : leAt b 0 4 ≠ 0) (hlong : 7 ≤ b.length) (hwhole : 32 + 64 * leAt b 6 1 ≤ b.length) :
    parsePkts l (fuel + 1) s = parsePkts l fuel (pktArrived
      (s.setLink l { s.links[l] with rxPart := b.drop (32 + 64 * leAt b 6 1) }) l
      { hdr := BitVec.ofNat 256 (leAt b 0 32), data := (b.take (32 + 64 * leAt b 6 1)).drop 32 }) := by
  rw [parsePkts]
  dsimp only
  rw [hpart, if_neg (by omega), if_neg hhead, if_neg (by omega)]

/-- A packet of the reserved account within its units stands in the receive buffer. -/
theorem pktArrived_reserved {s : State} {l : LinkId} {p : Pkt} (hst : (s.links[l]).st = .active) (htime : pType p ≠ 10)
    (hpool : pPooled p = false)
    (hfits : tnat (s.links[l]).rxRsv (pJob p * 8 + pVc p) + pSize p ≤ rsvOf (s.links[l]).rsv (pJob p * 8 + pVc p)) :
    pktArrived s l p = (s.count (linkBase l + 0x60) 64 (32 + p.data.length)).setLink l { s.links[l] with
      rxRsv := tset (s.links[l]).rxRsv (pJob p * 8 + pVc p) (tnat (s.links[l]).rxRsv (pJob p * 8 + pVc p) + pSize p),
      rxq := (s.links[l]).rxq ++ [{ pkt := p, units := pSize p, came := 0#64 }] } := by
  unfold pktArrived timeIn
  dsimp only
  rw [if_neg htime]
  dsimp only
  rw [if_neg (not_not_intro hst), hpool, if_neg (by decide), if_neg (by omega)]

/-! ### A good DATA flit in sequence (R275) -/

/-- What a DATA flit does before its credits and packets are looked at, where it brings no ACK and no bytes wait. -/
def dataTaken (k : Link) (f : List Byte) : Link :=
  { k with rxSeq := (k.rxSeq + 1) % 4096, ack := some (fSeq f), nakSent := false, rxPart := f.take 244 }

theorem dataIn_takes {s t : State} {l : LinkId} {f : List Byte} (hst : (s.links[l]).st = .active) (hlen : f.length = 256)
    (hseq : fSeq f = (s.links[l]).rxSeq) (hack : fAck f = none) (hpart : (s.links[l]).rxPart = [])
    (hcredit : creditIn (creditIn (s.setLink l (dataTaken s.links[l] f)) l (fRet f 248)) l (fRet f 250) = t)
    (hkept : (t.links[l]).rxPart = f.take 244) : dataIn s l f = parsePkts l 62 t := by
  unfold dataIn
  dsimp only
  rw [if_neg (not_or.mpr ⟨not_not_intro hst, not_not_intro hseq⟩), hack]
  dsimp only [ackIn]
  rw [hpart, List.nil_append]
  have hfuel : ((t.links[l]).rxPart).length / 4 + 1 = 62 := by 
    rw [hkept, List.length_take, hlen]
    rfl
  rw [← hfuel, ← hcredit]
  rfl

/-! ### Acknowledgements (R275) -/

theorem ackIn_none (k : Link) : ackIn k none = k := rfl

/-- An ACK takes its flit and all older ones out of the retry buffer. -/
theorem ackIn_clears {k : Link} {pre post : List TxFlit} {x : TxFlit} (hretry : k.retry = pre ++ x :: post)
    (hnew : ∀ y ∈ pre, y.seq ≠ x.seq) : ackIn k (some x.seq) = { k with retry := post, replays := 0 } := by
  have hany : (k.retry.any fun f => f.seq == x.seq) = true := by
    rw [hretry]
    simp
  have hdrop : (k.retry.dropWhile fun f => f.seq != x.seq).drop 1 = post := by
    rw [hretry, List.dropWhile_append_of_pos (fun y hy => by simpa using hnew y hy), List.dropWhile_cons]
    simp
  unfold ackIn
  dsimp only
  rw [hany, if_pos rfl, hdrop]

theorem takeAck_none {s : State} {l : LinkId} {f : List Byte} (h : fAck f = none) : takeAck s l f = s := by
  unfold takeAck
  rw [h, ackIn_none, State.setLink_same]

/-! ### Replays (R275) -/

/-- The flits of the retry buffer as they leave again. -/
def resent (k : Link) : List (List Byte) := k.retry.map (fun x => flitOf ftData x.seq k.ack x.rets x.payload)

/-- Flits that leave change what has been sent alone. -/
theorem resend_all (k : Link) (rs : List TxFlit) :
    rs.foldl (fun (k : Link) (f : TxFlit) => emit k (flitOf ftData f.seq k.ack f.rets f.payload)) k =
      { k with sent := k.sent ++ rs.map (fun x => flitOf ftData x.seq k.ack x.rets x.payload) } := by
  induction rs generalizing k with
  | nil => rw [List.map_nil, List.append_nil]; rfl
  | cons r rs ih =>
    rw [List.foldl_cons, ih, List.map_cons]
    unfold emit
    dsimp only
    rw [List.append_assoc]
    rfl

section
variable {s : State} {l : LinkId} (hst : (s.links[l]).st = .active) (hretry : (s.links[l]).retry ≠ [])
include hst hretry

theorem replay_links (hmore : (s.links[l]).replays < fld (s.rd (linkBase l + 0x30)) 0 8) :
    (replay s l).links[l] = { s.links[l] with
      replays := (s.links[l]).replays + 1, sent := (s.links[l]).sent ++ resent s.links[l] } := by
  have hlive : ¬ ((s.links[l]).retry.isEmpty = true ∨ (s.links[l]).st ≠ .active) := fun h =>
    h.elim (fun h => hretry (List.isEmpty_iff.mp h)) fun h => h hst
  unfold replay
  dsimp only
  rw [if_neg hlive, if_neg (by omega), linkEv_links, State.count, State.wr_links, State.setLink_links_self,
    resend_all]
  rfl

/-- Where the replays have brought no progress the link leaves ACTIVE. -/
theorem replay_leaves (hlimit : fld (s.rd (linkBase l + 0x30)) 0 8 ≤ (s.links[l]).replays) :
    ((replay s l).links[l]).st ≠ .active := by
  have hlive : ¬ ((s.links[l]).retry.isEmpty = true ∨ (s.links[l]).st ≠ .active) := fun h =>
    h.elim (fun h => hretry (List.isEmpty_iff.mp h)) fun h => h hst
  unfold replay
  dsimp only
  rw [if_neg hlive, if_pos hlimit, linkLeave_st (by rw [linkEv_links]; exact hst)]
  unfold leaveFor
  split <;> decide

end

/-! ### A flit that fails the check (R275) -/

theorem badFlit_naks {s : State} {l : LinkId} (hst : (s.links[l]).st = .active) (hfirst : (s.links[l]).nakSent = false) :
    badFlit s l = (s.count (linkBase l + 0x48) 32 1).setLink l { s.links[l] with
      nakSent := true, sent := (s.links[l]).sent ++ [flitOf ftNak (s.links[l]).txSeq (s.links[l]).ack [] []] } := by
  unfold badFlit
  dsimp only
  have hnew : ¬ ((s.links[l]).nakSent = true ∨ (s.links[l]).st ≠ .active) := fun h =>
    h.elim (fun h => Bool.noConfusion (hfirst.symm.trans h)) fun h => h hst
  rw [State.count, State.wr_links, if_neg hnew]
  rfl

end Sys2Proof.Machine
end

section
/-!
SETTLEMENT. Flits with packets and credits, acknowledgements, replay and packet start on an ACTIVE link (O37; R274 to R279).
-/

namespace Sys2Proof.Machine

section
variable {s : State} {l : LinkId} {f : List Byte} (hst : (s.links[l]).st = .active) (hlen : f.length = 256)
  (hseq : fSeq f = (s.links[l]).rxSeq) (hack : fAck f = none) (hpart : (s.links[l]).rxPart = [])
include hst hlen hseq hack hpart

/-- A flit of padding leaves what its credit returns do. -/
theorem dataIn_padding {j : Link} (hzero : ∀ i, i < 244 → getD f i 0#8 = 0#8)
    (hcredit : creditIn (creditIn (s.setLink l (dataTaken s.links[l] f)) l (fRet f 248)) l (fRet f 250) = s.setLink l j)
    (hkept : j.rxPart = f.take 244) : dataIn s l f = s.setLink l { j with rxPart := [] } := by
  have hzeros : f.take 244 = List.replicate (4 * 61) 0#8 := drop_payload_zeros hlen (Nat.zero_le _) fun i _ hi => hzero i hi
  have hbytes : ((s.setLink l j).links[l]).rxPart = f.take 244 := by rw [State.setLink_links_self, hkept]
  rw [dataIn_takes hst hlen hseq hack hpart hcredit hbytes, parsePkts_padding (by decide) (hbytes.trans hzeros),
    State.setLink_setLink, State.setLink_links_self]

/-- The packet that a flit holds, followed by padding, stands in the receive buffer. -/
theorem dataIn_packet {p : Pkt} (hnone : (fRet f 248).units = 0) (hnone' : (fRet f 250).units = 0) (hhead : leAt f 0 4 ≠ 0)
    (hwhole : 32 + 64 * leAt f 6 1 ≤ 244) (hzero : ∀ i, 32 + 64 * leAt f 6 1 ≤ i → i < 244 → getD f i 0#8 = 0#8)
    (hp : p = { hdr := BitVec.ofNat 256 (leAt f 0 32), data := (f.take (32 + 64 * leAt f 6 1)).drop 32 })
    (htime : pType p ≠ 10) (hpool : pPooled p = false)
    (hfits : tnat (s.links[l]).rxRsv (pJob p * 8 + pVc p) + pSize p ≤ rsvOf (s.links[l]).rsv (pJob p * 8 + pVc p)) :
    dataIn s l f = (s.count (linkBase l + 0x60) 64 (32 + p.data.length)).setLink l { dataTaken s.links[l] f with
      rxPart := [],
      rxRsv := tset (s.links[l]).rxRsv (pJob p * 8 + pVc p) (tnat (s.links[l]).rxRsv (pJob p * 8 + pVc p) + pSize p),
      rxq := (s.links[l]).rxq ++ [{ pkt := p, units := pSize p, came := 0#64 }] } := by
  have hlong : (f.take 244).length = 244 := by rw [List.length_take, hlen]; rfl
  have hcredit : creditIn (creditIn (s.setLink l (dataTaken s.links[l] f)) l (fRet f 248)) l (fRet f 250) =
      s.setLink l (dataTaken s.links[l] f) := by rw [creditIn_none hnone, creditIn_none hnone']
  have hbytes : ((s.setLink l (dataTaken s.links[l] f)).links[l]).rxPart = f.take 244 := by rw [State.setLink_links_self]; rfl
  have hsize : leAt (f.take 244) 6 1 = leAt f 6 1 := leAt_take (by decide)
  rw [dataIn_takes hst hlen hseq hack hpart hcredit hbytes, parsePkts_packet hbytes (by rwa [leAt_take (by decide)]) (by omega)
    (by omega), hsize, leAt_take (by decide), List.take_take, Nat.min_eq_left hwhole, ← hp, State.setLink_setLink,
    State.setLink_links_self, drop_payload_zeros hlen hwhole hzero]
  have hsplit : 244 - (32 + 64 * leAt f 6 1) = 4 * (53 - 16 * leAt f 6 1) := by omega
  rw [hsplit]
  generalize hk : ({ dataTaken s.links[l] f with rxPart := List.replicate (4 * (53 - 16 * leAt f 6 1)) 0#8 } : Link) = j
  have harrived : pktArrived (s.setLink l j) l p = ((s.setLink l j).count (linkBase l + 0x60) 64 (32 + p.data.length)).setLink l
      { j with rxRsv := tset j.rxRsv (pJob p * 8 + pVc p) (tnat j.rxRsv (pJob p * 8 + pVc p) + pSize p),
               rxq := j.rxq ++ [{ pkt := p, units := pSize p, came := 0#64 }] } := by
    have hself := State.setLink_links_self s l j
    rw [pktArrived_reserved (by rw [hself, ← hk]; exact hst) htime hpool (by rw [hself, ← hk]; exact hfits), hself]
  rw [harrived, parsePkts_padding (m := 53 - 16 * leAt f 6 1) (by omega) (by rw [State.setLink_links_self, ← hk]),
    State.setLink_setLink, State.setLink_links_self, ← hk]
  exact State.setLink_setLink (s.count (linkBase l + 0x60) 64 (32 + p.data.length)) l _ _

end

/-- The stamping of a packet leaves it as many flits as it has (R274, R292). -/
theorem length_pieces (s : State) {x : TxPkt} (pool : Bool) (h : x.pkt.data.length ≤ 1024) :
    (chunks 244 8 (pktBytes (stamp s x pool).2.pkt)).length = flitsOf x.pkt := by
  obtain ⟨k, t, net, hdr, ord, hstamp⟩ := stamp_frame s x pool
  have hlen : (pktBytes (stamp s x pool).2.pkt).length = 32 + x.pkt.data.length := by rw [length_pktBytes, hstamp]
  rw [length_chunks (by decide) 8 _ (by omega), hlen]
  rfl

/-- Settles O37: a flit does to the link what its equation says (`dataIn_packet`, `dataIn_padding`, `ackIn_clears`, `replay_links`,
`badFlit_naks`), and the transmitter what `packetStart_single` and `packetStart_idle` say. -/
theorem linkTrafficResult : Obligations.LinkTrafficResult := by
  unfold Obligations.LinkTrafficResult
  intro l f s k good again taken hst hheld
  have hnext {t : State} : Host.Outcome.next (s.live t) = (.next t : Out) := by rw [live_of_held hheld]
  have hlinks := fecIn_links s l
  have hst' : ((fecIn s l 0 0).links[l]).st = .active := by rw [hlinks]; exact hst
  have hlimit : (fecIn s l 0 0).rd (linkBase l + 0x30) = s.rd (linkBase l + 0x30) := fecIn_rd s l _
  have hgood {ty : Nat} (hg : good ty) (body : State → State) : flitIn s l f 0 0 false ty body = body (fecIn s l 0 0) :=
    flitIn_good (.inl hst) hg.1 hg.2 body
  have hdata {t : State} (hg : good ftData) (hin : dataIn (fecIn s l 0 0) l f = t) : exec (.dataFlit l f 0 0 false) s = .next t := by
    rw [← hin, ← hgood hg (fun s => dataIn s l f)]
    exact hnext
  have htaken {p : State → Prop} {t : State} {j : Link} (hg : good ftData) (hin : dataIn (fecIn s l 0 0) l f = t.setLink l j)
      (hseq : j.rxSeq = (k.rxSeq + 1) % 4096) (hack : j.ack = some (fSeq f)) (hpart : j.rxPart = []) (hretry : j.retry = k.retry)
      (hp : p (t.setLink l j)) : taken p := by
    refine ⟨_, hdata hg hin, ?_⟩
    rw [State.setLink_links_self]
    exact ⟨hseq, hack, hpart, hretry, hp⟩
  refine ⟨?_, ?_, ?_, ?_, ?_, ?_, ?_, ?_, ?_, ?_, ?_⟩
  · intro hg hseq hack hpart hr hr' n p key hhead hwhole hzero htime hpool hfits
    have hin := dataIn_packet (s := fecIn s l 0 0) (p := p) hst' (length_of_flitOk hg.1) (by rw [hlinks]; exact hseq) hack
      (by rw [hlinks]; exact hpart) hr hr' hhead hwhole hzero rfl htime hpool (by rw [hlinks]; exact hfits)
    rw [hlinks] at hin
    exact htaken hg hin rfl rfl rfl rfl ⟨by rw [State.setLink_links_self], by rw [State.setLink_links_self, tnat_tset, if_pos rfl],
      fecIn_cores s l, fecIn_gddr s l⟩
  · intro hg hseq hack hpart hzero hr' x key hpool hpos huse
    have hin := dataIn_padding (s := fecIn s l 0 0) hst' (length_of_flitOk hg.1) (by rw [hlinks]; exact hseq) hack
      (by rw [hlinks]; exact hpart) hzero (j := { dataTaken k f with useRsv := tset k.useRsv key (tnat k.useRsv key - x.units) })
      (by
        have hself := State.setLink_links_self (fecIn s l 0 0) l (dataTaken k f)
        rw [creditIn_none hr', hlinks, creditIn_reserved (by rw [hself]; exact hst) hpool hpos (by rw [hself]; exact huse), hself,
          State.setLink_setLink]
        rfl) rfl
    refine htaken hg hin rfl rfl rfl rfl ?_
    dsimp only
    rw [State.setLink_links_self]
    exact ⟨rfl, rfl, fun i => tnat_tset _ _ i _⟩
  · intro hg hseq hzero hr hr' hack hpart
    have hin := dataIn_padding (s := fecIn s l 0 0) hst' (length_of_flitOk hg.1) (by rw [hlinks]; exact hseq) hack
      (by rw [hlinks]; exact hpart) hzero (by rw [creditIn_none hr, creditIn_none hr']) rfl
    rw [hlinks] at hin
    exact htaken hg hin rfl rfl rfl rfl (by rw [State.setLink_links_self]; rfl)
  · intro hg pre x post hretry hnew hack
    refine ⟨_, hnext, ?_⟩
    rw [hgood hg]
    unfold takeAck
    rw [hack, hlinks, ackIn_clears hretry hnew, State.setLink_links_self]
    exact ⟨rfl, rfl⟩
  · intro hg hack hretry hmore
    refine ⟨_, hnext, ?_⟩
    rw [hgood hg, takeAck_none hack, replay_links hst' (by rw [hlinks]; exact hretry) (by rw [hlinks, hlimit]; exact hmore), hlinks]
    exact ⟨rfl, rfl, rfl⟩
  · intro hretry hmore
    refine ⟨_, hnext, ?_⟩
    rw [replay_links hst hretry hmore]
    exact ⟨rfl, rfl⟩
  · intro hretry hfull
    exact ⟨_, hnext, replay_leaves hst hretry hfull⟩
  · intro hbad hfirst
    refine ⟨_, hnext, ?_⟩
    rw [flitIn_bad (.inl hst) hbad, badFlit_naks hst' (by rw [hlinks]; exact hfirst), State.setLink_links_self, State.rd_setLink,
      State.count, State.rd_wr_self, fecIn_rd, hlinks]
    exact ⟨rfl, rfl, rfl, rfl⟩
  · intro x pool htx hvc hjob hdata hmay
    obtain ⟨hcores, -, hgone, j, hretry, hsent, hseq, hflits⟩ := packetStart_single hst htx hvc hjob hmay
    obtain ⟨new, hnew, hlen, -⟩ := hflits.retry
    have hcount := length_pieces s pool hdata
    have hpos : flitsOf x.pkt ≠ 0 := by unfold flitsOf; omega
    rw [hcount] at hflits hlen
    refine ⟨_, hnext, hgone, ?_, ?_, ?_, hcores⟩
    · rw [hnew, List.length_append, hlen, hretry]
    · rw [hflits.sent, hsent]
    · rw [hflits.seq, if_neg hpos, hseq]
  · intro htx hrets
    exact hnext.trans (congrArg Host.Outcome.next (packetStart_idle hst htx hrets))
  · intro hg hack a
    refine ⟨_, hnext, ?_⟩
    have hno : ((fecIn s l 0 0).links[l]).st ≠ .exchange := by rw [hst']; decide
    rw [hgood hg, if_neg hno, takeAck_none hack]
    unfold takePeer
    rw [State.rd_wr_self, State.wr_links]
    exact ⟨rfl, hst', by rw [hlinks]⟩

end Sys2Proof.Machine
end

section
/-!
SUPPORT. Fields of words, and a packet that enters the transmit queue of a plane chosen in a state alike (R285).
-/

namespace Sys2Proof.Machine

/-! ### Fields of words -/

/-- A field that is written reads its value, and every other bit as before. -/
theorem getLsbD_setFld {n : Nat} (w : BitVec n) {lo len : Nat} (v i : Nat) (h : lo + len ≤ n) :
    (setFld w lo len v).getLsbD i = if lo ≤ i ∧ i < lo + len then v.testBit (i - lo) else w.getLsbD i := by
  unfold setFld
  simp only [BitVec.getLsbD_or, BitVec.getLsbD_and, BitVec.getLsbD_not, BitVec.getLsbD_ofNat, Nat.testBit_shiftLeft,
    Nat.testBit_two_pow_sub_one, Nat.testBit_mod_two_pow]
  rcases Nat.lt_or_ge i n with hi | hi
  · by_cases hlo : lo ≤ i
    · by_cases hin : i < lo + len
      · simp [hi, hlo, hin, show i - lo < len by omega]
      · simp [hi, hlo, hin, show ¬ i - lo < len by omega]
    · simp [hi, hlo]
  · rw [BitVec.getLsbD_of_ge w i hi, if_neg (by omega)]
    simp [show ¬ i < n by omega]

theorem testBit_fld {n : Nat} (w : BitVec n) (lo len i : Nat) :
    (fld w lo len).testBit i = (decide (i < len) && w.getLsbD (lo + i)) := by
  unfold fld
  rw [Nat.testBit_mod_two_pow, Nat.testBit_shiftRight]
  rfl

theorem fld_setFld_same {n : Nat} (w : BitVec n) {lo len : Nat} (v : Nat) (h : lo + len ≤ n) :
    fld (setFld w lo len v) lo len = v % 2 ^ len := by
  refine Nat.eq_of_testBit_eq fun i => ?_
  rw [testBit_fld, Nat.testBit_mod_two_pow]
  by_cases hi : i < len
  · rw [getLsbD_setFld w v _ h, if_pos (by omega), Nat.add_sub_cancel_left]
  · rw [decide_eq_false hi, Bool.false_and, Bool.false_and]

theorem fld_setFld_other {n : Nat} (w : BitVec n) {lo len lo' len' : Nat} (v : Nat) (h : lo + len ≤ n)
    (hoff : lo' + len' ≤ lo ∨ lo + len ≤ lo') : fld (setFld w lo len v) lo' len' = fld w lo' len' :=
  fld_congr fun i hi => by rw [getLsbD_setFld w v _ h, if_neg (by omega)]

theorem fld_one {n : Nat} (w : BitVec n) (i : Nat) : fld w i 1 = (bit w i).toNat := by
  refine Nat.eq_of_testBit_eq fun j => ?_
  rw [testBit_fld, bit]
  cases j with
  | zero => cases w.getLsbD i <;> simp
  | succ j => cases w.getLsbD i <;> simp [Nat.testBit_succ]

/-! ### Planes (R285) -/

section
variable {s t : State}

/-- The planes in use for a destination follow from the states of the links, from PLANE_EN and from its routing entry. -/
theorem usable_congr {dst : Nat} (job : Nat) (hlive : ∀ l : LinkId, (t.links[l]).st = (s.links[l]).st)
    (hen : t.rd (lnkBase + 0x10) = s.rd (lnkBase + 0x10)) (hentry : t.rd (routeAddr dst) = s.rd (routeAddr dst)) :
    usable t dst job = usable s dst job := by
  have hmask : liveMask t = liveMask s := by
    unfold liveMask
    simp only [hlive]
  unfold usable
  rw [hmask, hen, hentry]

theorem choosePlane_pinned_congr {die vc dst job : Nat} (hvc : pinnedVc vc = true) (husable : usable t dst job = usable s dst job)
    (hentry : t.rd (routeAddr dst) = s.rd (routeAddr dst)) : choosePlane t die vc dst job = choosePlane s die vc dst job := by
  unfold choosePlane pinPlane
  rw [if_pos hvc, if_pos hvc, husable, hentry]

theorem SteersAlike.route (h : SteersAlike s t) {dst : Nat} (hd : dst < 0x8000) : t.rd (routeAddr dst) = s.rd (routeAddr dst) :=
  h.regs _ (.inr (.inr (.inr (.inr ⟨dst, hd, rfl⟩))))

theorem usable_alike (h : SteersAlike s t) {dst : Nat} (job : Nat) (hd : dst < 0x8000) : usable t dst job = usable s dst job :=
  usable_congr job h.live (h.regs _ (.inr (.inr (.inr (.inl rfl))))) (h.route hd)

/-- The plane of a pinned flow is the same in states alike. -/
theorem choosePlane_alike_pinned (h : SteersAlike s t) {die vc dst job : Nat} (hvc : pinnedVc vc = true) (hd : dst < 0x8000) :
    choosePlane t die vc dst job = choosePlane s die vc dst job :=
  choosePlane_pinned_congr hvc (usable_alike h job hd) (h.route hd)

/-- A packet whose plane is chosen enters that plane's transmit queue. -/
theorem sendPkt_queues {die vc job dst : Nat} {m : LinkId} (y : Pkt) (hplane : choosePlane s die vc dst job = some m) :
    (sendPkt s die vc job dst y).2 = true ∧ ∃ x ∈ ((sendPkt s die vc job dst y).1.links[m]).tx, x.pkt = y := by
  unfold sendPkt
  rw [hplane]
  dsimp only
  rw [State.setLink_links_self]
  exact ⟨rfl, _, List.mem_append_right _ (List.mem_singleton.mpr rfl), rfl⟩

end

/-- Units that go back leave what waits to leave. -/
theorem leaveBuffer_tx (s : State) (l m : LinkId) (r : RxWait) : ((leaveBuffer s l r).links[m]).tx = (s.links[m]).tx := by
  obtain ⟨pool, rsv, rets, h⟩ := leaveBuffer_link s l r
  rw [h]
  by_cases hm : m = l
  · subst hm
    rw [State.setLink_links_self]
  · rw [State.setLink_links_other s l m _ hm]

theorem leaveBuffer_regs (s : State) (l : LinkId) (r : RxWait) : (leaveBuffer s l r).regs = s.regs := by
  obtain ⟨pool, rsv, rets, h⟩ := leaveBuffer_link s l r
  rw [h, State.setLink_regs]

end Sys2Proof.Machine
end

section
/-!
SETTLEMENT. Routing entries, PLANE_EN, the re-pin hold and the time exchange (O38; R284, R285, R286, R292, R293, R294, R297).
-/

namespace Sys2Proof.Machine

/-! ### The end of REPIN_HOLD (R286) -/

/-- A packet of the flow may start. -/
def unhold (key : Nat) (t : TxPkt) : TxPkt := if ofFlow key t then { t with hold := false } else t

/-- The packets of the flow in one transmit queue may start. -/
def unholdLink (key : Nat) (s : State) (n : LinkId) : State :=
  s.setLink n { s.links[n] with tx := (s.links[n]).tx.map (unhold key) }

theorem holdOver_eq (s : State) (key : Nat) : holdOver s key = (allFin 24).foldl (unholdLink key)
    { s with net := { s.net with holding := s.net.holding.filter (fun x => x != key) } } := rfl

theorem unhold_hold {key : Nat} {t : TxPkt} (h : ofFlow key (unhold key t) = true) : (unhold key t).hold = false := by
  unfold unhold at h ⊢
  split
  · rfl
  · next hno =>
    rw [if_neg hno] at h
    exact absurd h hno

/-- No packet of the flow is held in the queues of `done`, and every queue is as long as in `s`. -/
structure Unheld (key : Nat) (s t : State) (done : List LinkId) : Prop where
  free : ∀ n ∈ done, ∀ x ∈ (t.links[n]).tx, ofFlow key x = true → x.hold = false
  length : ∀ n : LinkId, (t.links[n]).tx.length = (s.links[n]).tx.length
  regs : t.regs = s.regs
  cores : t.cores = s.cores
  net : t.net = s.net

theorem Unheld.next {key : Nat} {s t : State} {done : List LinkId} (h : Unheld key s t done) (n : LinkId) :
    Unheld key s (unholdLink key t n) (done ++ [n]) := by
  have hself : ((unholdLink key t n).links[n]).tx = (t.links[n]).tx.map (unhold key) := by
    unfold unholdLink
    rw [State.setLink_links_self]
  have hother (m : LinkId) (hm : m ≠ n) : (unholdLink key t n).links[m] = t.links[m] := State.setLink_links_other t n m _ hm
  have hnew : ∀ x ∈ ((unholdLink key t n).links[n]).tx, ofFlow key x = true → x.hold = false := by
    intro x hx hflow
    rw [hself] at hx
    obtain ⟨y, -, rfl⟩ := List.mem_map.mp hx
    exact unhold_hold hflow
  refine ⟨fun m hm => ?_, fun m => ?_, h.regs, h.cores, h.net⟩
  · by_cases hmn : m = n
    · rw [hmn]
      exact hnew
    · rw [hother m hmn]
      refine h.free m ?_
      simpa [hmn] using hm
  · by_cases hmn : m = n
    · rw [hmn, hself, List.length_map, h.length]
    · rw [hother m hmn, h.length]

theorem unheld_foldl {key : Nat} {s t : State} {done : List LinkId} (h : Unheld key s t done) (ns : List LinkId) :
    Unheld key s (ns.foldl (unholdLink key) t) (done ++ ns) := by
  induction ns generalizing t done with
  | nil => rwa [List.append_nil]
  | cons n ns ih =>
    rw [List.append_cons]
    exact ih (h.next n)

/-! ### The stamps of departure (R292, R294) -/

/-- The time stamp of a TIME packet of the right direction: t1 is noted for a request, and a reply takes it as t3. -/
theorem timeOut_time (s : State) {h : BitVec 256} (htime : fld h 0 4 = 10) : timeOut s h =
    if bit h 6 then (s.now.2, setFld h 160 64 s.now.1.toNat) else ({ s.now.2 with net := { s.net with t1 := some s.now.1 } }, h) := by
  unfold timeOut
  rw [if_neg (not_not_intro htime)]
  rfl

/-- OSEQ and ECRC leave what the time stamp did. -/
theorem stamp_time (s : State) (x : TxPkt) (pool : Bool) :
    (stamp s x pool).1.net.t1 = (timeOut s (putBit x.pkt.hdr 13 pool)).1.net.t1 ∧
      fld (stamp s x pool).2.pkt.hdr 160 64 = fld (timeOut s (putBit x.pkt.hdr 13 pool)).2 160 64 := by
  unfold stamp withEcrc
  dsimp only
  generalize timeOut s (putBit x.pkt.hdr 13 pool) = o
  split
  · exact ⟨rfl, (fld_setFld_other _ _ (by decide) (.inl (by decide))).trans (fld_setFld_other _ _ (by decide) (.inr (by decide)))⟩
  · exact ⟨rfl, fld_setFld_other _ _ (by decide) (.inl (by decide))⟩

section
variable (s : State) {x : TxPkt} (pool : Bool) (htime : pType x.pkt = 10)
include htime

theorem stampOut_eq : timeOut s (putBit x.pkt.hdr 13 pool) =
    if pRsp x.pkt = 1 then (s.now.2, setFld (putBit x.pkt.hdr 13 pool) 160 64 s.now.1.toNat)
    else ({ s.now.2 with net := { s.net with t1 := some s.now.1 } }, putBit x.pkt.hdr 13 pool) := by
  have hbits (i : Nat) (hi : i ≠ 13) : (putBit x.pkt.hdr 13 pool).getLsbD i = x.pkt.hdr.getLsbD i := by
    rw [getLsbD_putBit _ _ _ _ (by decide), if_neg hi]
  have htype : fld (putBit x.pkt.hdr 13 pool) 0 4 = 10 := (fld_congr fun i hi => hbits _ (by omega)).trans htime
  have hdir : bit (putBit x.pkt.hdr 13 pool) 6 = true ↔ pRsp x.pkt = 1 := by
    rw [bit, hbits 6 (by decide), pRsp, fld_one, bit]
    cases x.pkt.hdr.getLsbD 6 <;> decide
  rw [timeOut_time s htype]
  simp only [hdir]

theorem stamp_request (h : pRsp x.pkt = 0) : (stamp s x pool).1.net.t1 = some s.now.1 := by
  rw [(stamp_time s x pool).1, stampOut_eq s pool htime, if_neg (by omega)]

theorem stamp_reply (h : pRsp x.pkt = 1) : fld (stamp s x pool).2.pkt.hdr 160 64 = s.now.1.toNat := by
  rw [(stamp_time s x pool).2, stampOut_eq s pool htime, if_pos h, fld_setFld_same _ _ (by decide),
    Nat.mod_eq_of_lt (BitVec.isLt _)]

end

/-- A packet that leaves takes one flit or more. -/
theorem FlitsSent.some_flit {x y : TxPkt} {k j : Link} (h : FlitsSent x (chunks 244 8 (pktBytes y.pkt)).length k j) :
    ∃ f ∈ j.retry, f.pkt = some x := by
  have hsome : (pktBytes y.pkt).isEmpty = false := by
    rw [List.isEmpty_eq_false_iff, ← List.length_pos_iff, length_pktBytes]
    omega
  obtain ⟨new, hretry, hlen, hnew⟩ := h.retry
  unfold chunks at hlen
  rw [hsome, if_neg (by decide), List.length_cons] at hlen
  obtain ⟨f, hf⟩ := List.exists_mem_of_length_pos (show 0 < new.length by omega)
  exact ⟨f, by rw [hretry]; exact List.mem_append_right _ hf, hnew f hf⟩

/-! ### The time exchange (R294) -/

/-- TIME_SYNC_LOST changes neither the links nor the network, and of the registers of the time exchange none. -/
theorem syncLost_frame (s : State) (p : Pkt) : (syncLost s p).links = s.links ∧ (syncLost s p).net = s.net ∧
    (syncLost s p).rd (lnkBase + 0x48) = s.rd (lnkBase + 0x48) := by
  have hevent : syncLost s p =
      s.record 0x6108 0 0 none (some (fld (timeCtrl s) 2 15)) (fld p.hdr 0 64) (fld p.hdr 64 64) := by
    unfold syncLost State.raiseDev
    rw [if_neg (by decide)]
  rw [hevent]
  refine ⟨State.record_links s _ _ _ _ _ _ _, State.record_net s _ _ _ _ _ _ _, State.record_rd_above ?_ s ?_ _ _ _ _⟩
  · unfold lnkBase
    omega
  · intro h
    rw [netEvent_place (by decide) (by decide)] at h
    exact absurd h (by decide)

/-- What a routing entry and the count of their writes read once they are written (R284). -/
theorem routeWrite_rd (s : State) (dst : DevId) (v : W64) :
    (routeWrite s dst.toNat v).rd (routeAddr dst.toNat) = v &&& (regSpec (routeAddr dst.toNat)).rw ∧
      (routeWrite s dst.toNat v).rd (secBase + 0x88) = BitVec.ofNat 64 (satAdd 64 (s.rd (secBase + 0x88)).toNat 1) := by
  have hdst := dst.isLt
  have hentry : RouteReg (routeAddr dst.toNat) := .inr (.inr (.inl (by unfold routeAddr; omega)))
  have hapart : secBase + 0x88 ≠ routeAddr dst.toNat := by unfold secBase routeAddr; omega
  have hregs := (reachAgain_reroutes ((s.count (secBase + 0x88) 64 1).wr (routeAddr dst.toNat)
    (v &&& (regSpec (routeAddr dst.toNat)).rw))).regs
  unfold routeWrite
  constructor
  · rw [hregs _ hentry, State.rd_wr_self]
  · rw [hregs _ (.inr (.inr (.inr rfl))), State.rd_wr_other _ _ _ _ hapart, State.count, State.rd_wr_self]

theorem planeEnWrite_rd (s : State) (v : W64) : (planeEnWrite s v).rd (lnkBase + 0x10) = v &&& 0xFFFFFF#64 := by
  unfold planeEnWrite
  rw [(reachAgain_reroutes _).regs _ (.inr (.inl rfl)), State.rd_wr_self]
  rfl

/-- The state in which the module waits for a reply of its parent. -/
def asked (s : State) : State := { s with net := { s.net with asking := true, t1 := none } }

/-- An exchange begins with a TIME request to the parent, unless one too many has gone without a reply. -/
theorem timeExchange_asks {s : State} (hon : bit (timeCtrl s) 0 = true) (hroot : bit (timeCtrl s) 1 = false)
    (hasking : s.net.asking = false) (hmissed : s.net.missed < 4)
    (hsent : (sendPkt (asked s) 0 6 0 (fld (timeCtrl s) 2 15)
      (mkPkt s 10 3 0 0 (fld (timeCtrl s) 2 15) 0 [] [])).2 = true) :
    timeExchange s = (sendPkt (asked s) 0 6 0 (fld (timeCtrl s) 2 15)
      (mkPkt s 10 3 0 0 (fld (timeCtrl s) 2 15) 0 [] [])).1 := by
  have hcount : (if s.net.asking = true then s.net.missed + 1 else s.net.missed) = s.net.missed := by rw [hasking]; rfl
  have hasked : asked s = { s with net := { s.net with missed := s.net.missed % 4, asking := true, t1 := none } } := by
    rw [Nat.mod_eq_of_lt hmissed]
    rfl
  unfold timeExchange
  dsimp only
  rw [hon, hroot, if_neg (by decide), hcount, if_neg (show s.net.missed ≠ 4 by omega), ← hasked]
  split
  · next t ht => exact congrArg Prod.fst ht.symm
  · next t ht => exact Bool.noConfusion ((congrArg Prod.snd ht).symm.trans hsent)

theorem isTime {p : Pkt} {n : Nat} (htime : pType p = 10) (hrsp : pRsp p = n) : (pType p == 10 && pRsp p == n) = true := by
  rw [htime, hrsp]
  simp

/-- A TIME request is answered with the stamp of its arrival. -/
theorem timeRequest_sends {s t : State} {t2 : W64} {p : Pkt} (h : SteersAlike s t)
    (hsent : (sendPkt t 0 7 (pJob p) (pSrc p) (mkPkt s 10 3 1 (pJob p) (pSrc p) (pTag p) (leBytes 8 t2.toNat) [])).2 = true) :
    timeRequest t t2 p =
      (sendPkt t 0 7 (pJob p) (pSrc p) (mkPkt s 10 3 1 (pJob p) (pSrc p) (pTag p) (leBytes 8 t2.toNat) [])).1 := by
  unfold timeRequest
  dsimp only
  rw [mkPkt_alike h]
  split
  · next u hu => exact congrArg Prod.fst hu.symm
  · next u hu => exact Bool.noConfusion ((congrArg Prod.snd hu).symm.trans hsent)

/-- The offset of the parent's clock that the four stamps of an exchange give (R294). -/
def timeOffset (t1 t4 : W64) (p : Pkt) : Int :=
  ((BitVec.ofNat 64 (pByte p 12 8) - t1).toInt - (t4 - BitVec.ofNat 64 (pByte p 20 8)).toInt) / 2

/-- The state in which an exchange has ended with an offset, the `off`-th beyond the limit in a row. -/
def exchanged (s : State) (th : Int) (off : Nat) : State :=
  let s := { s with net := { s.net with asking := false, t1 := none, missed := 0, offRun := off % 8 } }
  let s := s.wr (lnkBase + 0x48) (BitVec.ofInt 64 th)
  if 4096 < th.natAbs then { s with ts := s.ts + BitVec.ofInt 64 th } else s

/-- What the end of an exchange changes of the links, the network and TS_OFFSET. -/
structure Exchanged (th : Int) (s t : State) : Prop where
  links : t.links = s.links
  t1 : t.net.t1 = none
  asking : t.net.asking = false
  missed : t.net.missed = 0
  offset : t.rd (lnkBase + 0x48) = BitVec.ofInt 64 th

theorem exchanged_ends (s : State) (th : Int) (off : Nat) : Exchanged th s (exchanged s th off) := by
  unfold exchanged
  dsimp only
  split
  · exact ⟨rfl, rfl, rfl, rfl, State.rd_wr_self _ _ _⟩
  · exact ⟨rfl, rfl, rfl, rfl, State.rd_wr_self _ _ _⟩

theorem Exchanged.syncLost {th : Int} {s t : State} (h : Exchanged th s t) (p : Pkt) : Exchanged th s (Machine.syncLost t p) := by
  obtain ⟨hlinks, hnet, hrd⟩ := syncLost_frame t p
  exact ⟨hlinks.trans h.links, by rw [hnet, h.t1], by rw [hnet, h.asking], by rw [hnet, h.missed], hrd.trans h.offset⟩

/-- The parent's reply ends the exchange and gives TS_OFFSET. -/
theorem timeReply_ends {s : State} {t1 : W64} (t4 : W64) {p : Pkt} (ht1 : s.net.t1 = some t1) (hsrc : pSrc p = fld (timeCtrl s) 2 15) :
    Exchanged (timeOffset t1 t4 p) s (timeReply s t4 p) := by
  have hends (off : Nat) := exchanged_ends s (timeOffset t1 t4 p) off
  have hreply : timeReply s t4 p =
      let off := if 50 < (timeOffset t1 t4 p).natAbs then s.net.offRun + 1 else 0
      if off = 8 then syncLost (exchanged s (timeOffset t1 t4 p) off) p else exchanged s (timeOffset t1 t4 p) off := by
    unfold timeReply
    rw [ht1]
    exact if_neg (not_not_intro hsrc)
  rw [hreply]
  dsimp only
  generalize (if 50 < (timeOffset t1 t4 p).natAbs then s.net.offRun + 1 else 0) = off
  split
  · exact (hends off).syncLost p
  · exact hends off

/-- Settles O38: the end of REPIN_HOLD by a fold over the links (`unheld_foldl`), the routing registers because what packets move by
writes none (`reachAgain_reroutes`), and the time exchange by what each of its packets does (`timeExchange_asks`, `stamp_request`,
`stamp_reply`, `timeRequest_sends`, `timeReply_ends`). -/
theorem routingAndTimeResult : Obligations.RoutingAndTimeResult := by
  unfold Obligations.RoutingAndTimeResult
  refine ⟨?_, ?_⟩
  · intro dst job tc v s key hheld hrec
    refine ⟨?_, fun hon => ?_, fun hon => ?_⟩
    · have h := unheld_foldl (key := key) (s := { s with net := { s.net with holding := s.net.holding.filter (fun x => x != key) } })
        (done := []) ⟨fun _ hm => absurd hm List.not_mem_nil, fun _ => rfl, rfl, rfl, rfl⟩ (allFin 24)
      refine ⟨holdOver s key, congrArg Host.Outcome.next (live_of_held hheld), ?_⟩
      rw [holdOver_eq]
      refine ⟨?_, fun n => h.free n (List.mem_finRange n), h.length, h.regs, h.cores⟩
      rw [h.net]
      simp
    · obtain ⟨hentry, hgen⟩ := routeWrite_rd s dst v
      have h := reachAgain_reroutes ((s.count (secBase + 0x88) 64 1).wr (routeAddr dst.toNat)
        (v &&& (regSpec (routeAddr dst.toNat)).rw))
      exact ⟨routeWrite s dst.toNat v, congrArg Host.Outcome.next (ifOn_on hon hrec), hentry, hgen, h.cores, h.gddr⟩
    · have h := reachAgain_reroutes (s.wr (lnkBase + 0x10) (v &&& ones 24))
      exact ⟨planeEnWrite s v, congrArg Host.Outcome.next (ifOn_on hon hrec), planeEnWrite_rd s v, h.cores, h.gddr⟩
  · intro l m s r rest p ctl parent hheld
    have hnext {t : State} : Host.Outcome.next (s.live t) = (.next t : Out) := by rw [live_of_held hheld]
    refine ⟨?_, ?_, ?_, ?_⟩
    · intro hon hroot hasking hmissed hplane
      have halike : SteersAlike s (asked s) := ⟨fun _ _ => rfl, rfl, fun _ => rfl⟩
      obtain ⟨hsent, hqueued⟩ := sendPkt_queues (mkPkt s 10 3 0 0 parent 0 [] [])
        ((choosePlane_alike_pinned halike rfl (fld_lt ctl 2 15)).trans hplane)
      have hask : timeExchange s = (sendPkt (asked s) 0 6 0 parent (mkPkt s 10 3 0 0 parent 0 [] [])).1 :=
        timeExchange_asks hon hroot hasking hmissed hsent
      have hsends := sendPkt_sends (asked s) 0 6 0 parent
        (mkPkt s 10 3 0 0 parent 0 [] []) none
      have hquiet : Quiet _ (sendPkt (asked s) 0 6 0 parent
        (mkPkt s 10 3 0 0 parent 0 [] [])).1 := sendPkt_quiet (quiet_refl _)
      obtain ⟨_, _, _, _, _, hnet⟩ := hsends.net
      refine ⟨timeExchange s, hnext, ?_⟩
      rw [hask, hnet]
      exact ⟨rfl, rfl, rfl, hqueued, sendPkt_regs _ _ _ _ _ _ _, hquiet.cores⟩
    · intro x pool hst htx hvc hjob htime hmay
      obtain ⟨hcores, hnet, hgone, j, -, -, -, hflits⟩ := packetStart_single hst htx hvc hjob hmay
      refine ⟨packetStart s l, hnext, hgone, hcores, fun hreq => ?_, fun hrep => ?_⟩
      · rw [hnet, stamp_request s pool htime hreq]
      · obtain ⟨f, hf, hpkt⟩ := hflits.some_flit
        exact ⟨f, hf, _, hpkt, stamp_reply s pool htime hrep⟩
    · intro harr htime hreq hplane
      have hacc := (accepted_takenIn s l r rest).steers
      have hdev : pSrc p < 0x8000 := fld_lt p.hdr 32 15
      obtain ⟨hsent, y, hy, hpkt⟩ := sendPkt_queues (mkPkt s 10 3 1 (pJob p) (pSrc p) (pTag p) (leBytes 8 r.came.toNat) [])
        ((choosePlane_alike_pinned hacc rfl hdev).trans hplane)
      have hsends := sendPkt_sends (accepted s l r rest) 0 7 (pJob p) (pSrc p)
        (mkPkt s 10 3 1 (pJob p) (pSrc p) (pTag p) (leBytes 8 r.came.toNat) []) none
      refine ⟨_, hnext, ?_⟩
      rw [intake_takes harr (isTime htime hreq), timeRequest_sends hacc hsent]
      refine ⟨?_, ⟨y, by rwa [leaveBuffer_tx], hpkt⟩, ?_⟩
      · rw [(leaveBuffer_keepsArrivals _ l r).2 l, hsends.rxq, accepted_rxq]
      · rw [leaveBuffer_regs, sendPkt_regs, accepted_regs]
    · intro t1 harr htime hrep ht1 hsrc
      have hacc := accepted_regs s l r rest
      obtain ⟨a, b, hframe⟩ := accepted_frame s l r rest
      have hheard : (accepted s l r rest).net.t1 = some t1 := by rw [hframe]; exact ht1
      have hparent : pSrc p = fld (timeCtrl (accepted s l r rest)) 2 15 := by rw [timeCtrl, State.rd, hacc]; exact hsrc
      have hends := timeReply_ends r.came hheard hparent
      refine ⟨_, hnext, ?_⟩
      rw [intake_takes harr (isTime htime hrep), leaveBuffer_net, State.rd, leaveBuffer_regs]
      refine ⟨?_, hends.t1, hends.asking, hends.missed, hends.offset⟩
      rw [(leaveBuffer_keepsArrivals _ l r).2 l, hends.links, accepted_rxq]

end Sys2Proof.Machine
end

section
/-!
SUPPORT. The header fields of the packets of this module (R280, R281).
-/

namespace Sys2Proof.Machine

/-! ### Byte strings as numbers (R4) -/

theorem leNat_drop (bs : List Byte) (off : Nat) : leNat (bs.drop off) = leNat bs / 256 ^ off := by
  induction off generalizing bs with
  | zero => rw [List.drop_zero, Nat.pow_zero, Nat.div_one]
  | succ off ih =>
    cases bs with
    | nil => simp [leNat]
    | cons b bs =>
      have hb : b.toNat < 256 := b.isLt
      rw [List.drop_succ_cons, ih, leNat, Nat.pow_succ', ← Nat.div_div_eq_div_mul]
      congr 1
      omega

theorem leNat_take (bs : List Byte) (len : Nat) : leNat (bs.take len) = leNat bs % 256 ^ len := by
  induction len generalizing bs with
  | zero => rw [List.take_zero, Nat.pow_zero, Nat.mod_one, leNat]
  | succ len ih =>
    cases bs with
    | nil => simp [leNat]
    | cons b bs =>
      have hb : b.toNat < 256 := b.isLt
      have hhigh : (b.toNat + 256 * leNat bs) / 256 = leNat bs := by omega
      rw [List.take_succ_cons, leNat, ih, leNat, Nat.pow_succ', Nat.mod_mul, hhigh]
      omega

/-- The field of some bytes of a word that a byte string spells. -/
theorem fld_ofBytes {n off len : Nat} (bs : List Byte) (h : 8 * (off + len) ≤ n) :
    fld (BitVec.ofNat n (leNat bs)) (8 * off) (8 * len) = leAt bs off len := by
  have hword : leAt bs off len = fld (BitVec.ofNat (8 * (off + len)) (leNat bs)) (8 * off) (8 * len) := by
    have hsplit : 2 ^ (8 * (off + len)) = 256 ^ off * 256 ^ len := by
      rw [Nat.pow_mul, Nat.pow_add]
    rw [leAt, leNat_take, leNat_drop, fld, BitVec.toNat_ofNat, Nat.shiftRight_eq_div_pow, hsplit, Nat.pow_mul, Nat.pow_mul,
      Nat.mod_mul_right_div_self, Nat.mod_mod]
  rw [hword]
  refine fld_congr fun i hi => ?_
  rw [BitVec.getLsbD_ofNat, BitVec.getLsbD_ofNat, decide_eq_true (show 8 * off + i < n by omega),
    decide_eq_true (show 8 * off + i < 8 * (off + len) by omega)]

theorem leAt_append_shift (as bs : List Byte) (off len : Nat) : leAt (as ++ bs) (as.length + off) len = leAt bs off len := by
  unfold leAt
  rw [List.drop_append, List.drop_eq_nil_of_le (by omega), Nat.add_sub_cancel_left, List.nil_append]

/-- A number within a byte string. -/
theorem leAt_number {l as bs : List Byte} {n x off : Nat} (hl : l = as ++ (leBytes n x ++ bs)) (hoff : as.length = off) :
    leAt l off n = x % 256 ^ n := by
  rw [hl, ← hoff]
  exact (leAt_append_shift as (leBytes n x ++ bs) 0 n).trans (leAt_leBytes n x bs)

/-! ### The fields of a packet (R280) -/

section
variable (s : State) (ptype tc rsp job dst tag : Nat) (tf data : List Byte)

/-- The bytes of a header but OSEQ, POOLED and ECRC. -/
def headBytes : List Byte :=
  leBytes 1 (ptype + 16 * tc + 64 * rsp) ++ leBytes 1 job ++ leBytes 2 dst ++ leBytes 2 s.devid ++
    leBytes 1 (data.length / 64) ++ leBytes 3 0 ++ leBytes 2 tag ++ (tf ++ List.replicate (16 - tf.length) 0#8)

theorem mkPkt_hdr : (mkPkt s ptype tc rsp job dst tag tf data).hdr =
    BitVec.ofNat 256 (leNat (headBytes s ptype tc rsp job dst tag tf data)) := rfl

theorem pByte_mkPkt {off len : Nat} (h : off + len ≤ 32) : pByte (mkPkt s ptype tc rsp job dst tag tf data) off len =
    leAt (headBytes s ptype tc rsp job dst tag tf data) off len := by
  unfold pByte
  rw [mkPkt_hdr, fld_ofBytes _ (by omega)]

/-- A field of some bits from the lowest of a byte on. -/
theorem fld_bytes {n : Nat} (w : BitVec n) (lo : Nat) {len bytes : Nat} (h : len ≤ 8 * bytes) :
    fld w lo len = fld w lo (8 * bytes) % 2 ^ len := by
  unfold fld
  rw [Nat.mod_mod_of_dvd _ (Nat.pow_dvd_pow 2 h)]

theorem pType_mkPkt (hp : ptype < 16) : pType (mkPkt s ptype tc rsp job dst tag tf data) = ptype := by
  have hfield : pByte (mkPkt s ptype tc rsp job dst tag tf data) 0 1 = (ptype + 16 * tc + 64 * rsp) % 256 ^ 1 := by
    rw [pByte_mkPkt _ _ _ _ _ _ _ _ _ (by decide)]
    exact leAt_number (as := []) (by simp only [headBytes, List.append_assoc, List.nil_append]; rfl) rfl
  unfold pType
  rw [fld_bytes _ 0 (show 4 ≤ 8 * 1 by decide)]
  unfold pByte at hfield
  rw [hfield]
  omega

theorem pJob_mkPkt (hj : job < 16) : pJob (mkPkt s ptype tc rsp job dst tag tf data) = job := by
  have hfield : pByte (mkPkt s ptype tc rsp job dst tag tf data) 1 1 = job % 256 ^ 1 := by
    rw [pByte_mkPkt _ _ _ _ _ _ _ _ _ (by decide)]
    exact leAt_number (as := leBytes 1 _) (by simp only [headBytes, List.append_assoc]; rfl) rfl
  unfold pJob
  rw [fld_bytes _ 8 (show 4 ≤ 8 * 1 by decide)]
  unfold pByte at hfield
  rw [hfield]
  omega

theorem pDst_mkPkt (hd : dst < 0x8000) : pDst (mkPkt s ptype tc rsp job dst tag tf data) = dst := by
  have hfield : pByte (mkPkt s ptype tc rsp job dst tag tf data) 2 2 = dst % 256 ^ 2 := by
    rw [pByte_mkPkt _ _ _ _ _ _ _ _ _ (by decide)]
    exact leAt_number (as := leBytes 1 _ ++ leBytes 1 _) (by simp only [headBytes, List.append_assoc]; rfl) rfl
  unfold pDst
  rw [fld_bytes _ 16 (show 15 ≤ 8 * 2 by decide)]
  unfold pByte at hfield
  rw [hfield]
  omega

/-- The type fields, bytes 12 to 27. -/
theorem pByte_mkPkt_fields {off len : Nat} (h : off + len ≤ 16) :
    pByte (mkPkt s ptype tc rsp job dst tag tf data) (12 + off) len = leAt (tf ++ List.replicate (16 - tf.length) 0#8) off len := by
  rw [pByte_mkPkt _ _ _ _ _ _ _ _ _ (by omega)]
  exact leAt_append_shift (leBytes 1 (ptype + 16 * tc + 64 * rsp) ++ leBytes 1 job ++ leBytes 2 dst ++ leBytes 2 s.devid ++
    leBytes 1 (data.length / 64) ++ leBytes 3 0 ++ leBytes 2 tag) _ off len

end

/-! ### COLL_ACK (R281) -/

/-- The type fields of a COLL_ACK. -/
def collAckFields (xid kind base mask : Nat) : List Byte :=
  leBytes 2 xid ++ leBytes 1 kind ++ [0#8] ++ leBytes 2 base ++ leBytes 8 mask

/-- The packet of a COLL_ACK. -/
def collAckPkt (s : State) (c : CollRx) (kind base mask : Nat) : Pkt :=
  mkPkt s 7 1 1 c.job c.src c.tag (collAckFields c.xid kind base mask) []

section
variable (s : State) (c : CollRx) (kind base mask : Nat)

/-- A number among the type fields of a COLL_ACK. -/
theorem collAckPkt_number {as bs : List Byte} {n x off : Nat} (hoff : as.length = off) (hfits : off + n ≤ 16)
    (hl : collAckFields c.xid kind base mask = as ++ (leBytes n x ++ bs)) :
    pByte (collAckPkt s c kind base mask) (12 + off) n = x % 256 ^ n := by
  unfold collAckPkt
  rw [pByte_mkPkt_fields _ _ _ _ _ _ _ _ _ hfits, hl]
  exact leAt_number (by simp only [List.append_assoc]; rfl) hoff

theorem collAckPkt_type : pType (collAckPkt s c kind base mask) = 7 := pType_mkPkt _ _ _ _ _ _ _ _ _ (by decide)

theorem collAckPkt_dst (h : c.src < 0x8000) : pDst (collAckPkt s c kind base mask) = c.src := pDst_mkPkt _ _ _ _ _ _ _ _ _ h

theorem collAckPkt_job (h : c.job < 16) : pJob (collAckPkt s c kind base mask) = c.job := pJob_mkPkt _ _ _ _ _ _ _ _ _ h

theorem collAckPkt_xid (h : c.xid < 65536) : pByte (collAckPkt s c kind base mask) 12 2 = c.xid := by
  have hnum := collAckPkt_number s c kind base mask (as := []) (n := 2) (x := c.xid) rfl (by decide)
    (by simp only [collAckFields, List.append_assoc, List.nil_append]; rfl)
  exact hnum.trans (Nat.mod_eq_of_lt h)

theorem collAckPkt_kind (h : kind < 256) : pByte (collAckPkt s c kind base mask) 14 1 = kind := by
  have hnum := collAckPkt_number s c kind base mask (as := leBytes 2 c.xid) (off := 2) (n := 1) (x := kind) rfl (by decide)
    (by simp only [collAckFields, List.append_assoc]; rfl)
  exact hnum.trans (Nat.mod_eq_of_lt h)

/-- What every COLL_ACK names: its type, the sender of the transfer, the job and the transfer, and its kind. -/
theorem collAckPkt_names (hd : c.src < 0x8000) (hj : c.job < 16) (hx : c.xid < 65536) (hk : kind < 256) :
    let y := collAckPkt s c kind base mask
    pType y = 7 ∧ pDst y = c.src ∧ pJob y = c.job ∧ pByte y 12 2 = c.xid ∧ pByte y 14 1 = kind :=
  ⟨collAckPkt_type s c kind base mask, collAckPkt_dst s c kind base mask hd, collAckPkt_job s c kind base mask hj,
    collAckPkt_xid s c kind base mask hx, collAckPkt_kind s c kind base mask hk⟩

theorem collAckPkt_base (h : base < 65536) : pByte (collAckPkt s c kind base mask) 16 2 = base := by
  have hnum := collAckPkt_number s c kind base mask (as := leBytes 2 c.xid ++ leBytes 1 kind ++ [0#8]) (off := 4) (n := 2) (x := base) rfl
    (by decide) (by simp only [collAckFields, List.append_assoc]; rfl)
  exact hnum.trans (Nat.mod_eq_of_lt h)

theorem collAckPkt_mask : pByte (collAckPkt s c kind base mask) 18 8 = mask % 2 ^ 64 :=
  collAckPkt_number s c kind base mask (as := leBytes 2 c.xid ++ leBytes 1 kind ++ [0#8] ++ leBytes 2 base) (off := 6) (n := 8) (x := mask)
    (bs := []) rfl (by decide) (by simp only [collAckFields, List.append_assoc, List.append_nil])

end

end Sys2Proof.Machine
end

section
/-!
SUPPORT. COLL transfers of the sender (R285, R289, R290): a stripe leaves on one plane, and what a transfer that ends leaves behind.
-/

namespace Sys2Proof.Machine

/-! ### A plane is found (R285, R287) -/

theorem planeFrom_some {u : Nat} (hu : u ≠ 0) (hlow : u < 2 ^ 24) (start : Nat) : ∃ n, planeFrom u start = some n := by
  obtain ⟨b, hb⟩ := Nat.exists_testBit_of_ne_zero hu
  have hlt : b < 24 := by
    by_contra hge
    have hbig : 2 ^ 24 ≤ 2 ^ b := Nat.pow_le_pow_right (by decide) (by omega)
    rw [Nat.testBit_lt_two_pow (by omega)] at hb
    exact Bool.noConfusion hb
  have hmem : b ∈ (List.range 24).map (fun i => (start + i) % 24) :=
    List.mem_map.mpr ⟨(b + 24 - start % 24) % 24, List.mem_range.mpr (Nat.mod_lt _ (by decide)), by omega⟩
  unfold planeFrom
  cases hfind : ((List.range 24).map (fun i => (start + i) % 24)).find? (fun n => u.testBit n) with
  | none => exact absurd hb (List.find?_eq_none.mp hfind b hmem)
  | some n =>
    obtain ⟨i, -, rfl⟩ := List.mem_map.mp (List.mem_of_find?_eq_some hfind)
    exact ⟨_, fin?_val ⟨(start + i) % 24, Nat.mod_lt _ (by decide)⟩⟩

theorem usable_lt (s : State) (dst job : Nat) : usable s dst job < 2 ^ 24 := by
  unfold usable
  dsimp only
  split
  · exact lt_of_le_of_lt Nat.and_le_right (fld_lt _ _ _)
  · decide

/-- A striped channel finds a plane wherever the destination can be reached. -/
theorem choosePlane_striped {s : State} {die vc dst job : Nat} (hvc : pinnedVc vc = false) (h : usable s dst job ≠ 0) :
    ∃ n, choosePlane s die vc dst job = some n := by
  unfold choosePlane
  rw [hvc, if_neg (by decide)]
  dsimp only
  split <;> exact planeFrom_some h (usable_lt s dst job) _

/-! ### Stripes leave (R285, R289) -/

section
variable {s t : State}

theorem Sends.route (h : Sends s t) {dst : Nat} (hd : dst < 0x8000) : t.rd (routeAddr dst) = s.rd (routeAddr dst) :=
  h.regs _ (.inr (.inr (.inl (by unfold routeAddr; omega))))

theorem Sends.usable (h : Sends s t) {dst : Nat} (job : Nat) (hd : dst < 0x8000) :
    Machine.usable t dst job = Machine.usable s dst job :=
  usable_congr job h.txOnly.st (h.regs _ (.inr (.inl rfl))) (h.route hd)

/-- The plane of a pinned flow stays while packets leave. -/
theorem Sends.choosePlane_pinned (h : Sends s t) {die vc dst job : Nat} (hvc : pinnedVc vc = true) (hd : dst < 0x8000) :
    choosePlane t die vc dst job = choosePlane s die vc dst job :=
  choosePlane_pinned_congr hvc (h.usable job hd) (h.route hd)

theorem Sends.stripePkts (h : Sends s t) (c : CollTx) (i : Nat) : Machine.stripePkts t c i = Machine.stripePkts s c i := by
  unfold Machine.stripePkts mkPkt State.devid
  rw [h.regs _ (.inl rfl)]

/-- All parts of a stripe have entered the transmit queue of one plane. -/
def StripeOut (t : State) (ps : List Pkt) : Prop := ∃ m : LinkId, ∀ x ∈ ps, ∃ y ∈ (t.links[m]).tx, y.pkt = x

theorem StripeOut.sends {ps : List Pkt} (h : StripeOut s ps) (k : Sends s t) : StripeOut t ps := by
  obtain ⟨m, hm⟩ := h
  refine ⟨m, fun x hx => ?_⟩
  obtain ⟨y, hy, hpkt⟩ := hm x hx
  exact ⟨y, k.queued hy, hpkt⟩

theorem sendStripe_sends (s : State) (c : CollTx) (i : Nat) : Sends s (sendStripe s c i).1 := by
  unfold sendStripe
  split
  · exact sends_refl s
  · exact sends_trans (planes_sends s ⟨_, _, _, _, _, rfl⟩) (setLink_sends _ _ _)

theorem sendStripe_out {c : CollTx} (i : Nat) (h : usable s c.dst c.job ≠ 0) :
    (sendStripe s c i).2 = true ∧ StripeOut (sendStripe s c i).1 (stripePkts s c i) := by
  obtain ⟨n, hplane⟩ := choosePlane_striped (die := 0) (vc := 2) rfl h
  unfold sendStripe
  rw [hplane]
  refine ⟨rfl, n, fun x hx => ?_⟩
  dsimp only
  rw [State.setLink_links_self]
  exact ⟨_, List.mem_append_right _ (List.mem_map.mpr ⟨x, hx, rfl⟩), rfl⟩

/-- Stripes leave, each on one plane, where the destination can be reached. -/
theorem sendStripes_out {c : CollTx} (is : List Nat) (hd : c.dst < 0x8000) (h : usable s c.dst c.job ≠ 0) :
    Sends s (sendStripes s c is) ∧ ∀ i ∈ is, StripeOut (sendStripes s c is) (stripePkts s c i) := by
  induction is generalizing s with
  | nil => exact ⟨sends_refl s, fun i hi => absurd hi List.not_mem_nil⟩
  | cons i is ih =>
    have hsends := sendStripe_sends s c i
    obtain ⟨hsent, hout⟩ := sendStripe_out i h
    unfold sendStripes
    split
    · next t ht =>
      rw [ht] at hsends hout
      obtain ⟨hrest, hall⟩ := ih (s := t) (by rwa [hsends.usable c.job hd])
      refine ⟨sends_trans hsends hrest, fun j hj => ?_⟩
      rcases List.mem_cons.mp hj with rfl | hj
      · exact hout.sends hrest
      · rw [← hsends.stripePkts c j]
        exact hall j hj
    · next t ht => exact Bool.noConfusion ((congrArg Prod.snd ht).symm.trans hsent)

/-! ### A transfer ends (R287, R290) -/

theorem collDrop_txOnly (s : State) (job dst xid : Nat) : TxOnly s (collDrop s job dst xid) := by
  unfold collDrop
  exact txOnly_trans (txOnly_of_links rfl) (State.failStep_sends _ _).txOnly

theorem sendStripes_txOnly (s : State) (c : CollTx) (is : List Nat) : TxOnly s (sendStripes s c is) := by
  induction is generalizing s with
  | nil => exact txOnly_refl s
  | cons i is ih =>
    have hone := (sendStripe_sends s c i).txOnly
    unfold sendStripes
    split
    · next t ht =>
      rw [ht] at hone
      exact txOnly_trans hone (ih t)
    · next t ht =>
      rw [ht] at hone
      exact txOnly_trans hone (txOnly_trans (unreachable_sends t _ _ _).txOnly (collDrop_txOnly _ _ _ _))

theorem TxOnly.rxq (h : TxOnly s t) (l : LinkId) : (t.links[l]).rxq = (s.links[l]).rxq := by
  obtain ⟨tx, ht⟩ := h l
  rw [ht]

theorem sendStripes_quiet (s : State) (c : CollTx) (is : List Nat) : Quiet s (sendStripes s c is) := by
  induction is generalizing s with
  | nil => exact quiet_refl s
  | cons i is ih =>
    have hone : Quiet s (sendStripe s c i).1 := by
      unfold sendStripe
      split
      · exact quiet_refl s
      · exact State.setLink_quiet (quiet_mk (quiet_refl s))
    unfold sendStripes
    split
    · next t ht =>
      rw [ht] at hone
      exact quiet_trans hone (ih t)
    · next t ht =>
      rw [ht] at hone
      unfold collDrop
      exact State.failStep_quiet (quiet_mk (unreachable_quiet hone))

/-- The one transfer of a module is dropped, and no other begins. -/
theorem collKick_collDrop {c : CollTx} (htx : s.net.collTx = [c]) (hpend : s.net.collPend = []) :
    (collKick (collDrop s c.job c.dst c.xid)).net.collTx = [] ∧ TxOnly s (collKick (collDrop s c.job c.dst c.xid)) := by
  have hsends : Sends { s with net := { s.net with collTx := [] } } (collDrop s c.job c.dst c.xid) := by
    unfold collDrop
    dsimp only
    have hnone : s.net.collTx.filter (fun x => !(x.job == c.job && x.dst == c.dst && x.xid == c.xid)) = [] := by
      rw [htx]
      simp
    rw [hnone]
    exact State.failStep_sends _ _
  rw [collKick_idle (hsends.collPend.trans hpend)]
  exact ⟨hsends.collTx, collDrop_txOnly s _ _ _⟩

theorem e2eFail_sends (s : State) (job dev : Nat) (p : Pkt) : Sends s (e2eFail s job dev p) :=
  State.raiseDev_sends s (netEvent_notRoute (by decide) (by decide) 0 0) true _ _ _ _

theorem stripeGap_sends (s : State) (job dev : Nat) (p : Pkt) : Sends s (stripeGap s job dev p) :=
  State.raiseDev_sends s (netEvent_notRoute (by decide) (by decide) 0 0) false _ _ _ _

/-- The one transfer of a module fails, and no other begins. -/
theorem collFails {c : CollTx} (dev : Nat) (p : Pkt) (htx : s.net.collTx = [c]) (hpend : s.net.collPend = []) :
    (collKick (collDrop (e2eFail s c.job dev p) c.job c.dst c.xid)).net.collTx = [] ∧
      TxOnly s (collKick (collDrop (e2eFail s c.job dev p) c.job c.dst c.xid)) := by
  have hfail := e2eFail_sends s c.job dev p
  obtain ⟨hnone, hlinks⟩ := collKick_collDrop (hfail.collTx.trans htx) (hfail.collPend.trans hpend)
  exact ⟨hnone, txOnly_trans hfail.txOnly hlinks⟩

end

end Sys2Proof.Machine
end

section
/-!
SUPPORT. COLL transfers of the receiver (R289, R290): the parts of one, its COLL_ACKs, and what is missing.
-/

namespace Sys2Proof.Machine

/-! ### Parts that wait for an entry (R289) -/

/-- No COLL part waits in a receive buffer. -/
def NoPartWaits (s : State) : Prop := ∀ l : LinkId, ∀ w ∈ (s.links[l]).waits, pType w.pkt ≠ 6

theorem retryColl_idle {s : State} (h : NoPartWaits s) : retryColl s = s := by
  have hnone (l : LinkId) : ((s.links[l]).waits.any fun r => pType r.pkt == 6) = false :=
    List.any_eq_false.mpr fun w hw => by simpa using h l w hw
  unfold retryColl
  induction allFin 24 with
  | nil => rfl
  | cons l ls ih =>
    rw [List.foldl_cons, hnone l]
    exact ih

theorem Sends.noPartWaits {s t : State} (h : Sends s t) (hs : NoPartWaits s) : NoPartWaits t := by
  intro l w hw
  rw [h.waits l] at hw
  exact hs l w hw

theorem leaveBuffer_noPartWaits {s : State} (l : LinkId) (r : RxWait) (hs : NoPartWaits s) : NoPartWaits (leaveBuffer s l r) := by
  obtain ⟨pool, rsv, rets, h⟩ := leaveBuffer_link s l r
  intro m w hw
  rw [h] at hw
  by_cases hm : m = l
  · subst hm
    rw [State.setLink_links_self] at hw
    exact hs m w hw
  · rw [State.setLink_links_other s l m _ hm] at hw
    exact hs m w hw

theorem accepted_noPartWaits {s : State} (l : LinkId) (r : RxWait) (rest : List RxWait) (hs : NoPartWaits s) :
    NoPartWaits (accepted s l r rest) := by
  obtain ⟨a, b, h⟩ := accepted_frame s l r rest
  intro m w hw
  rw [h] at hw
  unfold takenOut at hw
  by_cases hm : m = l
  · subst hm
    rw [State.setLink_links_self] at hw
    exact hs m w hw
  · rw [State.setLink_links_other s l m _ hm] at hw
    exact hs m w hw

/-! ### A COLL_ACK leaves (R281, R289) -/

section
variable (s : State) (c : CollRx) (kind base mask : Nat)

/-- The COLL_ACK enters a transmit queue, or the step of its job fails. -/
theorem sendCollAck_cases : let x := sendPkt s 0 3 c.job c.src (collAckPkt s c kind base mask)
    x.2 = true ∧ sendCollAck s c kind base mask = x.1 ∨ x.2 = false ∧ sendCollAck s c kind base mask =
      (unreachable x.1 (some c.job) c.src (collAckPkt s c kind base mask)).failStep (some c.job) := by
  have hdef : sendCollAck s c kind base mask = match sendPkt s 0 3 c.job c.src (collAckPkt s c kind base mask) with
      | (t, true) => t
      | (t, false) => (unreachable t (some c.job) c.src (collAckPkt s c kind base mask)).failStep (some c.job) := rfl
  rw [hdef]
  generalize sendPkt s 0 3 c.job c.src (collAckPkt s c kind base mask) = x
  obtain ⟨t, sent⟩ := x
  cases sent
  · exact .inr ⟨rfl, rfl⟩
  · exact .inl ⟨rfl, rfl⟩

theorem sendCollAck_sends : Sends s (sendCollAck s c kind base mask) := by
  have hsend := sendPkt_sends s 0 3 c.job c.src (collAckPkt s c kind base mask) none
  obtain ⟨-, h⟩ | ⟨-, h⟩ := sendCollAck_cases s c kind base mask <;> rw [h]
  · exact hsend
  · exact sends_trans hsend (sends_trans (unreachable_sends _ _ _ _) (State.failStep_sends _ _))

theorem sendCollAck_quiet : Quiet s (sendCollAck s c kind base mask) := by
  have hsend : Quiet s (sendPkt s 0 3 c.job c.src (collAckPkt s c kind base mask)).1 := sendPkt_quiet (quiet_refl s)
  obtain ⟨-, h⟩ | ⟨-, h⟩ := sendCollAck_cases s c kind base mask <;> rw [h]
  · exact hsend
  · exact State.failStep_quiet (unreachable_quiet hsend)

theorem sendCollAck_queues {m : LinkId} (hplane : choosePlane s 0 3 c.src c.job = some m) :
    ∃ y ∈ ((sendCollAck s c kind base mask).links[m]).tx, y.pkt = collAckPkt s c kind base mask := by
  obtain ⟨hsent, hqueued⟩ := sendPkt_queues (collAckPkt s c kind base mask) hplane
  obtain ⟨-, h⟩ | ⟨hnone, -⟩ := sendCollAck_cases s c kind base mask
  · rw [h]
    exact hqueued
  · exact Bool.noConfusion (hnone.symm.trans hsent)

/-- Where no reduction of the transfer's job is under way, none begins by its COLL_ACK. -/
theorem sendCollAck_rclOff (hoff : ∀ j : JobId, j.val = c.job → rclEn s j = false) (j : JobId) (hj : j.val = c.job) :
    rclEn (sendCollAck s c kind base mask) j = false := by
  have hsame (t : State) (ht : t.rd (rclBase j) = s.rd (rclBase j)) : rclEn t j = false := by
    rw [← hoff j hj, rclEn, rclEn, ht]
  have hsent : (sendPkt s 0 3 c.job c.src (collAckPkt s c kind base mask)).1.rd (rclBase j) = s.rd (rclBase j) := by
    rw [State.rd, State.rd, sendPkt_regs]
  obtain ⟨-, h⟩ | ⟨-, h⟩ := sendCollAck_cases s c kind base mask <;> rw [h]
  · exact hsame _ hsent
  · have hevent := hsame _ (Eq.trans (State.record_rd_above (a := rclBase j) (by unfold rclBase; omega)
      (sendPkt s 0 3 c.job c.src (collAckPkt s c kind base mask)).1 (code := 0x6102) (inst := 0) (sub := 0)
      (by rw [netEvent_place (by decide) (by decide)]; unfold rclBase lnkBase; omega) (some c.job) (some c.src)
      (fld (collAckPkt s c kind base mask).hdr 0 64) (fld (collAckPkt s c kind base mask).hdr 64 64)) hsent)
    unfold unreachable
    generalize State.record _ _ _ _ _ _ _ _ = t at hevent
    unfold State.failStep
    rw [← hj, Option.bind_some, fin?_val]
    dsimp only
    rw [hevent]
    exact hevent

end

/-- A transfer for a job that the module does not serve is counted and changes no more. -/
theorem collArrived_counts {s : State} (src : Nat) {job : Nat} (info stream : List Byte)
    (h : ∀ j : JobId, j.val = job → rclEn s j = false) :
    Sends s (collArrived s src job info stream) ∧ Quiet s (collArrived s src job info stream) := by
  have hcount (t : State) (off w k : Nat) (hoff : off < 0x1000) : Sends t (t.count (redBase + off) w k) :=
    State.count_sends t w k (by unfold RouteReg redBase lnkBase secBase; omega)
  unfold collArrived
  dsimp only
  cases hjob : fin? 16 job with
  | none => exact ⟨hcount s _ _ _ (by decide), State.count_quiet (quiet_refl s)⟩
  | some j =>
    have hj : j.val = job := by
      unfold fin? at hjob
      split at hjob
      · exact congrArg Fin.val (Option.some.inj hjob).symm
      · cases hjob
    have hoff : rclEn (s.count (redBase + 0x30) 64 stream.length) j = false := by
      rw [← h j hj, rclEn, rclEn, State.count, State.rd_wr_other _ _ _ _ (by unfold rclBase redBase; omega)]
    dsimp only
    rw [hoff, if_pos (.inl rfl)]
    exact ⟨sends_trans (hcount s _ _ _ (by decide)) (hcount _ _ _ _ (by decide)),
      State.count_quiet (State.count_quiet (quiet_refl s))⟩

/-! ### The stripes that a NAK names (R281, R290) -/

theorem testBit_two_pow_add {n acc : Nat} (h : acc < 2 ^ n) (b : Nat) :
    (2 ^ n + acc).testBit b = (acc.testBit b || decide (b = n)) := by
  rcases Nat.lt_trichotomy b n with hb | rfl | hb
  · rw [Nat.testBit_two_pow_add_gt hb, decide_eq_false (by omega), Bool.or_false]
  · rw [Nat.testBit_two_pow_add_eq, Nat.testBit_lt_two_pow h, decide_eq_true rfl]
    rfl
  · have hpow : 2 ^ (n + 1) ≤ 2 ^ b := Nat.pow_le_pow_right (by decide) hb
    rw [Nat.pow_succ] at hpow
    rw [Nat.testBit_lt_two_pow (show 2 ^ n + acc < 2 ^ b by omega), Nat.testBit_lt_two_pow (show acc < 2 ^ b by omega),
      decide_eq_false (by omega)]
    rfl

/-- Distinct powers of 2, added in ascending order, set one bit each. -/
theorem testBit_powers {base k acc : Nat} {l : List Nat} (hacc : acc < 2 ^ k) (hsort : l.Pairwise (· < ·))
    (hlow : ∀ i ∈ l, base + k ≤ i) (b : Nat) :
    (l.foldl (fun n i => n + 2 ^ (i - base)) acc).testBit b = (acc.testBit b || decide (base + b ∈ l)) := by
  induction l generalizing k acc with
  | nil => simp
  | cons i l ih =>
    obtain ⟨hi, hsort⟩ := List.pairwise_cons.mp hsort
    have hge : base + k ≤ i := hlow i List.mem_cons_self
    have hsmall : acc < 2 ^ (i - base) := lt_of_lt_of_le hacc (Nat.pow_le_pow_right (by decide) (by omega))
    have hnew : acc + 2 ^ (i - base) < 2 ^ (i - base + 1) := by
      rw [Nat.pow_succ]
      omega
    rw [List.foldl_cons, ih hnew hsort (fun j hj => by have := hi j hj; omega), Nat.add_comm, testBit_two_pow_add hsmall,
      Bool.or_assoc]
    congr 1
    rw [← Bool.decide_or]
    simp only [List.mem_cons]
    exact decide_eq_decide.mpr (or_congr (by omega) Iff.rfl)

theorem missing_sorted (c : CollRx) : (missing c).Pairwise (· < ·) := List.pairwise_lt_range.filter _

/-- The first incomplete stripe of a transfer, or 0. -/
def nakBase (c : CollRx) : Nat := (missing c).head?.getD 0

/-- The mask of a NAK: the incomplete stripes from its base on. -/
def nakMask (c : CollRx) : Nat :=
  ((missing c).filter (fun i => i < nakBase c + 64)).foldl (fun n i => n + 2 ^ (i - nakBase c)) 0

theorem nakBase_le {c : CollRx} {i : Nat} (h : i ∈ missing c) : nakBase c ≤ i := by
  have hsort := missing_sorted c
  unfold nakBase
  cases hm : missing c with
  | nil => exact Nat.zero_le i
  | cons j l =>
    rw [hm] at h hsort
    obtain ⟨hj, -⟩ := List.pairwise_cons.mp hsort
    rcases List.mem_cons.mp h with rfl | h
    · exact le_refl _
    · exact (hj i h).le

theorem testBit_nakMask (c : CollRx) {i : Nat} (hi : i < 64) :
    (nakMask c).testBit i = true ↔ nakBase c + i ∈ missing c := by
  unfold nakMask
  rw [testBit_powers (base := nakBase c) (k := 0) (by decide) ((missing_sorted c).filter _)
    (fun j hj => nakBase_le (List.mem_filter.mp hj).1), Nat.zero_testBit, Bool.false_or, decide_eq_true_eq, List.mem_filter]
  simp [hi]

theorem nakBase_lt {c : CollRx} (h : ∀ i ∈ missing c, i < 65536) : nakBase c < 65536 := by
  unfold nakBase
  cases hm : missing c with
  | nil => decide
  | cons j l => exact h j (hm ▸ List.mem_cons_self)

end Sys2Proof.Machine
end

section
/-!
SETTLEMENT. A COLL transfer of several stripes completes, asks for what is missing, is sent again, or fails (O41; R289, R290, R291, R316).
-/

namespace Sys2Proof.Machine

/-! ### Parts arrive (R289) -/

/-- The part of a transfer that a packet brings. -/
def partOf (p : Pkt) : Nat × Nat × Nat × List Byte := (pByte p 14 2, pByte p 18 1, pByte p 19 1, p.data)

/-- A transfer with one more part, whose header is now the last that came. -/
def withPart (c : CollRx) (p : Pkt) : CollRx := { c with hdr := p.hdr, parts := c.parts ++ [partOf p] }

/-- The transfer that its first part begins. -/
def collFirst (p : Pkt) : CollRx := withPart
  { src := pSrc p, job := pJob p, xid := pByte p 12 2, tag := pTag p, stripes := pByte p 16 2, info := leBytes 8 (pByte p 20 8),
    shared := false } p

/-- A part that has not come before reaches its transfer. -/
theorem collPart_new (s : State) {c : CollRx} {p : Pkt}
    (hnew : (c.parts.any fun x => x.1 == pByte p 14 2 && x.2.1 == pByte p 18 1) = false) :
    collPart s c p = if (missing (withPart c p)).isEmpty then
        collArrived (sendCollAck (dropColl s (withPart c p)) (withPart c p) 1 0 0) c.src c.job c.info (collStream (withPart c p))
      else { s with net := { s.net with collRx := s.net.collRx.map (fun x =>
        if x.src == c.src && x.job == c.job && x.xid == c.xid then withPart c p else x) } } := by
  have hpart : (if (c.parts.any fun x => x.1 == pByte p 14 2 && x.2.1 == pByte p 18 1) = true then { c with hdr := p.hdr }
      else { c with hdr := p.hdr, parts := c.parts ++ [(pByte p 14 2, pByte p 18 1, pByte p 19 1, p.data)] }) = withPart c p := by
    rw [hnew]
    rfl
  unfold collPart
  dsimp only
  rw [hpart]
  rfl

/-- One part does not make up a stripe of several. -/
theorem collFirst_missing {p : Pkt} (hparts : 2 ≤ pByte p 19 1) (hstripes : 1 ≤ pByte p 16 2) :
    (missing (collFirst p)).isEmpty = false := by
  have hopen : stripeDone (collFirst p) 0 = false := by
    unfold stripeDone
    split
    · rfl
    · next i k n d hfind =>
      have hcount : n = pByte p 19 1 := congrArg (fun x => x.2.2.1) (List.mem_singleton.mp (List.mem_of_find?_eq_some hfind))
      refine List.all_eq_false.mpr ⟨1 - pByte p 18 1, List.mem_range.mpr (by omega), ?_⟩
      simp only [collFirst, withPart, partOf, List.nil_append, List.any_cons, List.any_nil, Bool.or_false, Bool.and_eq_true, beq_iff_eq]
      omega
  have hmem : 0 ∈ missing (collFirst p) :=
    List.mem_filter.mpr ⟨List.mem_range.mpr hstripes, by rw [hopen]; rfl⟩
  exact List.isEmpty_eq_false_iff.mpr (List.ne_nil_of_mem hmem)

/-- The state in which the first part of a transfer has taken an entry. -/
def entryTaken (s : State) (p : Pkt) : State := { s with net := { s.net with collRx := [collFirst p] } }

/-- The first part of a transfer of several takes an entry. -/
theorem collGo_first {s : State} {l : LinkId} {r : RxWait} (hrx : s.net.collRx = []) (hparts : 2 ≤ pByte r.pkt 19 1)
    (hstripes : 1 ≤ pByte r.pkt 16 2) :
    collGo s l r = leaveBuffer (entryTaken s r.pkt) l r := by
  have hnone : collOf s (pSrc r.pkt) (pJob r.pkt) (pByte r.pkt 12 2) = none := by
    unfold collOf
    rw [hrx]
    rfl
  have hentry : collEntry s (pJob r.pkt) = some false := by
    unfold collEntry
    rw [hrx]
    rfl
  unfold collGo
  dsimp only
  rw [hnone, hentry]
  dsimp only
  rw [collPart_new _ rfl, hrx, List.nil_append, List.map_singleton]
  refine congrArg (leaveBuffer · l r) ((if_neg ?_).trans ?_)
  · have hopen := collFirst_missing hparts hstripes
    unfold collFirst at hopen
    rw [hopen]
    decide
  · simp [entryTaken, collFirst]

/-- The state in which the entry of the one transfer that arrives is free. -/
def entryFreed (s : State) : State := { s with net := { s.net with collRx := [] } }

/-- The part that completes a transfer frees its entry and is answered. -/
theorem collGo_last {s : State} {l : LinkId} {r : RxWait} {c : CollRx} (hrx : s.net.collRx = [c]) (hsrc : c.src = pSrc r.pkt)
    (hjob : c.job = pJob r.pkt) (hxid : c.xid = pByte r.pkt 12 2)
    (hnew : (c.parts.all (fun x => !(x.1 == pByte r.pkt 14 2 && x.2.1 == pByte r.pkt 18 1))) = true)
    (hwhole : missing { c with parts := c.parts ++ [partOf r.pkt] } = []) :
    collGo s l r = leaveBuffer (collArrived (sendCollAck (entryFreed s) (withPart c r.pkt) 1 0 0)
      c.src c.job c.info (collStream (withPart c r.pkt))) l r := by
  have hfound : collOf s (pSrc r.pkt) (pJob r.pkt) (pByte r.pkt 12 2) = some c := by
    unfold collOf
    rw [hrx, ← hsrc, ← hjob, ← hxid]
    simp
  have hfresh : (c.parts.any fun x => x.1 == pByte r.pkt 14 2 && x.2.1 == pByte r.pkt 18 1) = false := by
    rw [List.any_eq_not_all_not, hnew]
    rfl
  have hfreed : dropColl s (withPart c r.pkt) = entryFreed s := by
    unfold dropColl withPart entryFreed
    rw [hrx]
    simp
  have hdone : (missing (withPart c r.pkt)).isEmpty = true := List.isEmpty_iff.mpr hwhole
  unfold collGo
  dsimp only
  rw [hfound]
  dsimp only
  rw [collPart_new s hfresh, if_pos hdone, hfreed]

/-! ### COLL_ACKs arrive and timers expire (R290) -/

/-- A transfer sent one more time. -/
def CollTx.again (c : CollTx) : CollTx := { c with rounds := c.rounds + 1 }

/-- The state in which the one transfer of the module is sent one more time. -/
def sentAgain (s : State) (c : CollTx) : State := { s with net := { s.net with collTx := [c.again] } }

theorem sentAgain_eq {s : State} {c : CollTx} (htx : s.net.collTx = [c]) :
    { s with net := { s.net with collTx := s.net.collTx.map (fun x => if x == c then { c with rounds := c.rounds + 1 } else x) } } =
      sentAgain s c := by
  rw [htx]
  simp [sentAgain, CollTx.again]

theorem stripePkts_alike {s t : State} (h : SteersAlike s t) (c : CollTx) (i : Nat) : stripePkts t c i = stripePkts s c i := by
  unfold stripePkts
  simp only [mkPkt_alike h]

/-- The stripes of a transfer that a COLL_ACK names. -/
def namedStripes (c : CollTx) (p : Pkt) : List Nat :=
  (((List.range 64).filter (fun i => (pByte p 18 8).testBit i)).map (pByte p 16 2 + ·)).filter (fun i => i < stripesOf c.stream)

theorem mem_namedStripes {c : CollTx} {p : Pkt} {i : Nat} (hi : i < 64) (hbit : (pByte p 18 8).testBit i = true)
    (hin : pByte p 16 2 + i < stripesOf c.stream) : pByte p 16 2 + i ∈ namedStripes c p :=
  List.mem_filter.mpr ⟨List.mem_map.mpr ⟨i, List.mem_filter.mpr ⟨List.mem_range.mpr hi, hbit⟩, rfl⟩, decide_eq_true hin⟩

/-- Stripes are sent again, each on one plane, where the destination can be reached. -/
theorem sentAgain_out {s t : State} {c : CollTx} (h : Sends (sentAgain s c) t) (is : List Nat) (hd : c.dst < 0x8000)
    (hreach : usable s c.dst c.job ≠ 0) : (sendStripes t c.again is).net.collTx = [c.again] ∧
      ∀ i ∈ is, StripeOut (sendStripes t c.again is) (stripePkts s c i) := by
  obtain ⟨hsends, hout⟩ := sendStripes_out (s := t) (c := c.again) is hd ((h.usable c.job hd).trans_ne hreach)
  refine ⟨hsends.collTx.trans h.collTx, fun i hi => ?_⟩
  have hstripe := hout i hi
  rw [h.stripePkts c.again i] at hstripe
  exact hstripe

section
variable {s : State} {c : CollTx} (htx : s.net.collTx = [c])
include htx

section
variable {p : Pkt} (hdst : c.dst = pSrc p) (hjob : c.job = pJob p) (hxid : c.xid = pByte p 12 2)
include hdst hjob hxid

theorem collTx_found : s.net.collTx.find? (fun x => x.dst == pSrc p && x.job == pJob p && x.xid == pByte p 12 2) = some c := by
  rw [htx, ← hdst, ← hjob, ← hxid]
  simp

/-- A COLL_ACK that names no stripes ends the transfer, and so does one more than there may be. -/
theorem collAckIn_ends (hpend : s.net.collPend = []) (h : pByte p 14 1 ≠ 2 ∨ 4 ≤ c.rounds) :
    (collAckIn s p).net.collTx = [] ∧ TxOnly s (collAckIn s p) := by
  have hfails := collFails c.dst p htx hpend
  unfold collAckIn
  rw [collTx_found htx hdst hjob hxid]
  dsimp only
  split
  · have hgone : s.net.collTx.erase c = [] := by rw [htx, List.erase_cons_head]
    have hdone := collDone_sends { s with net := { s.net with collTx := s.net.collTx.erase c } } c.job c.dst c.xid
    rw [collKick_idle (hdone.collPend.trans hpend)]
    exact ⟨hdone.collTx.trans hgone, txOnly_trans (txOnly_of_links rfl) hdone.txOnly⟩
  · next hkind =>
    rw [if_pos (h.resolve_left (not_not_intro hkind))]
    exact hfails
  · exact hfails

theorem collAckIn_resends (hkind : pByte p 14 1 = 2) (hfew : c.rounds < 4) :
    collAckIn s p = sendStripes (sentAgain s c) c.again (namedStripes c p) := by
  unfold collAckIn
  rw [collTx_found htx hdst hjob hxid, hkind]
  dsimp only
  rw [if_neg (by omega), sentAgain_eq htx]
  rfl

theorem collAckIn_txOnly (hpend : s.net.collPend = []) : TxOnly s (collAckIn s p) := by
  by_cases h : pByte p 14 1 ≠ 2 ∨ 4 ≤ c.rounds
  · exact (collAckIn_ends htx hdst hjob hxid hpend h).2
  · obtain ⟨hkind, hfew⟩ := not_or.mp h
    rw [collAckIn_resends htx hdst hjob hxid (not_not.mp hkind) (by omega)]
    exact txOnly_trans (txOnly_of_links rfl) (sendStripes_txOnly _ _ _)

end

theorem resendTimer_found :
    s.net.collTx.find? (fun x => x.dst == c.dst && x.job == c.job && x.xid == c.xid) = some c := by
  rw [htx]
  simp

theorem resendTimer_resends (hfew : c.rounds < 4) : resendTimer s c.dst c.job c.xid =
    sendStripes (stripeGap (sentAgain s c) c.job c.dst (collHead s c)) c.again (List.range (stripesOf c.stream)) := by
  unfold resendTimer
  rw [resendTimer_found htx]
  dsimp only
  rw [if_neg (by omega), sentAgain_eq htx]
  rfl

theorem resendTimer_fails (hpend : s.net.collPend = []) (hmany : 4 ≤ c.rounds) :
    (resendTimer s c.dst c.job c.xid).net.collTx = [] := by
  unfold resendTimer
  rw [resendTimer_found htx]
  dsimp only
  rw [if_pos hmany]
  exact (collFails c.dst (collHead s c) htx hpend).1

end

/-! The timer of the receiver. -/

/-- A transfer asked for one more time. -/
def CollRx.again (c : CollRx) : CollRx := { c with rounds := c.rounds + 1 }

/-- The state in which the one transfer that arrives is asked for one more time. -/
def askedAgain (s : State) (c : CollRx) : State := { s with net := { s.net with collRx := [c.again] } }

section
variable {s : State} {c : CollRx} (hrx : s.net.collRx = [c])
include hrx

theorem collOf_single : collOf s c.src c.job c.xid = some c := by
  unfold collOf
  rw [hrx]
  simp

theorem nakTimer_asks (hfew : c.rounds < 4) : nakTimer s c.src c.job c.xid =
    sendCollAck (stripeGap (askedAgain s c) c.job c.src { hdr := c.hdr }) c.again 2 (nakBase c) (nakMask c) := by
  have hagain : { s with
      net := { s.net with collRx := s.net.collRx.map (fun x => if x == c then { c with rounds := c.rounds + 1 } else x) } } =
        askedAgain s c := by
    rw [hrx]
    simp [askedAgain, CollRx.again]
  unfold nakTimer
  rw [collOf_single hrx]
  dsimp only
  rw [if_neg (by omega), hagain]
  rfl

theorem nakTimer_fails (hmany : 4 ≤ c.rounds) (hquiet : NoPartWaits s) : (nakTimer s c.src c.job c.xid).net.collRx = [] := by
  have hfail := e2eFail_sends s c.job c.src { hdr := c.hdr }
  have hack := sendCollAck_sends (dropColl (e2eFail s c.job c.src { hdr := c.hdr }) c) c 3 0 0
  have hdropped : (dropColl (e2eFail s c.job c.src { hdr := c.hdr }) c).net.collRx = [] := by
    unfold dropColl
    dsimp only
    rw [hfail.collRx, hrx]
    simp
  unfold nakTimer
  rw [collOf_single hrx]
  dsimp only
  rw [if_pos hmany, retryColl_idle (hack.noPartWaits (hfail.noPartWaits hquiet))]
  exact hack.collRx.trans hdropped

end

/-- A transfer that has come whole is answered and, for a job that the module does not serve, changes no more. -/
theorem collWhole_ends (s : State) (c : CollRx) (p : Pkt) (h : ∀ j : JobId, j.val = c.job → rclEn s j = false) :
    let t := collArrived (sendCollAck s (withPart c p) 1 0 0) c.src c.job c.info (collStream (withPart c p))
    Sends (sendCollAck s (withPart c p) 1 0 0) t ∧ Quiet s t := by
  obtain ⟨hsends, hquiet⟩ := collArrived_counts c.src c.info (collStream (withPart c p))
    (sendCollAck_rclOff s (withPart c p) 1 0 0 h)
  exact ⟨hsends, quiet_trans (sendCollAck_quiet s (withPart c p) 1 0 0) hquiet⟩

/-- The last part of a transfer whose job the module does not serve: the entry is free, and a COLL_ACK of completion leaves. -/
theorem coll_completes {s : State} {l : LinkId} {r : RxWait} {rest : List RxWait} {c : CollRx} (hrx : s.net.collRx = [c])
    (hsrc : c.src = pSrc r.pkt) (hjob : c.job = pJob r.pkt) (hxid : c.xid = pByte r.pkt 12 2) (hquiet : NoPartWaits s)
    (hnew : (c.parts.all (fun x => !(x.1 == pByte r.pkt 14 2 && x.2.1 == pByte r.pkt 18 1))) = true)
    (hwhole : missing { c with parts := c.parts ++ [partOf r.pkt] } = []) (hoff : ∀ j : JobId, j.val = c.job → rclEn s j = false) :
    let t := retryColl (collGo (accepted s l r rest) l r)
    (t.links[l]).rxq = rest ∧ t.net.collRx = [] ∧ t.gddr = s.gddr ∧ t.cores = s.cores ∧
      ∀ m : LinkId, choosePlane s 0 3 c.src c.job = some m → ∃ y ∈ (t.links[m]).tx,
        pType y.pkt = 7 ∧ pDst y.pkt = c.src ∧ pJob y.pkt = c.job ∧ pByte y.pkt 12 2 = c.xid ∧ pByte y.pkt 14 1 = 1 := by
  obtain ⟨a, b, hframe⟩ := accepted_frame s l r rest
  have hone : (accepted s l r rest).net.collRx = [c] := by rw [hframe]; exact hrx
  have hrcl : ∀ j : JobId, j.val = c.job → rclEn (entryFreed (accepted s l r rest)) j = false := fun j hj => by
    rw [← hoff j hj, rclEn, rclEn, State.rd, State.rd, entryFreed, accepted_regs]
  have hd : c.src < 0x8000 := hsrc ▸ fld_lt r.pkt.hdr 32 15
  have hj : c.job < 16 := hjob ▸ fld_lt r.pkt.hdr 8 4
  have hx : c.xid < 65536 := hxid ▸ fld_lt r.pkt.hdr (8 * 12) (8 * 2)
  have hack := sendCollAck_sends (entryFreed (accepted s l r rest)) (withPart c r.pkt) 1 0 0
  obtain ⟨hsends, hstays⟩ := collWhole_ends (entryFreed (accepted s l r rest)) c r.pkt hrcl
  have hall := sends_trans hack hsends
  have hlinks : NoPartWaits (entryFreed (accepted s l r rest)) := accepted_noPartWaits l r rest hquiet
  dsimp only
  rw [collGo_last hone hsrc hjob hxid hnew hwhole, retryColl_idle (leaveBuffer_noPartWaits l r (hall.noPartWaits hlinks)),
    leaveBuffer_net, (leaveBuffer_keepsArrivals _ l r).2 l, (leaveBuffer_quiet _ l r).gddr, (leaveBuffer_quiet _ l r).cores]
  refine ⟨(hall.rxq l).trans (accepted_rxq s l r rest), hall.collRx, hstays.gddr.trans (accepted_quiet s l r rest).gddr,
    hstays.cores.trans (accepted_quiet s l r rest).cores, fun m hplane => ?_⟩
  have hsame : choosePlane (entryFreed (accepted s l r rest)) 0 3 c.src c.job = some m :=
    (choosePlane_alike_pinned (accepted_takenIn s l r rest).steers rfl hd).trans hplane
  obtain ⟨y, hy, hpkt⟩ := sendCollAck_queues (entryFreed (accepted s l r rest)) (withPart c r.pkt) 1 0 0 hsame
  refine ⟨y, by rw [leaveBuffer_tx]; exact hsends.queued hy, ?_⟩
  rw [hpkt]
  exact collAckPkt_names _ (withPart c r.pkt) 1 0 0 hd hj hx (by decide)

/-- Settles O41: a part takes an entry or frees it (`collGo_first`, `collGo_last`), a COLL_ACK and the timers end a transfer or send it
again (`collAckIn_ends`, `sentAgain_out`, `nakTimer_asks`), and the header of a COLL_ACK is read back from its bytes. -/
theorem collTransferResult : Obligations.CollTransferResult := by
  unfold Obligations.CollTransferResult
  intro l us s r rest dev job xid z p quiet resent hheld
  have hnext {t : State} : Host.Outcome.next (s.live t) = (.next t : Out) := by rw [live_of_held hheld]
  have hdev : pSrc p < 0x8000 := fld_lt p.hdr 32 15
  refine ⟨?_, ?_, ?_, ?_⟩
  · intro harr htype hparts hstripes hrx hquiet
    obtain ⟨a, b, hframe⟩ := accepted_frame z l r rest
    have hnone : (accepted z l r rest).net.collRx = [] := by rw [hframe]; exact hrx
    have hlinks : NoPartWaits (entryTaken (accepted z l r rest) p) := accepted_noPartWaits l r rest hquiet
    refine ⟨_, hnext, ?_⟩
    rw [intake_takes (want := fun p => pType p == 6) harr (beq_iff_eq.mpr htype), collGo_first hnone hparts hstripes,
      retryColl_idle (leaveBuffer_noPartWaits l r hlinks), leaveBuffer_net, (leaveBuffer_keepsArrivals _ l r).2 l,
      (leaveBuffer_quiet _ l r).gddr]
    exact ⟨accepted_rxq z l r rest, rfl, (accepted_quiet z l r rest).gddr⟩
  · intro c harr htype hrx hsrc hjob hxid hquiet hnew hwhole hoff
    obtain ⟨hrxq, hfreed, hgddr, hcores, hack⟩ := coll_completes (l := l) (rest := rest) hrx hsrc hjob hxid hquiet hnew hwhole hoff
    refine ⟨_, hnext, ?_⟩
    rw [intake_takes (want := fun p => pType p == 6) harr (beq_iff_eq.mpr htype)]
    exact ⟨hrxq, hfreed, hgddr, hcores, hack⟩
  · intro c htx hpend
    refine ⟨fun harr htype hdst hjob hxid => ?_, fun hdst hjob hxid => ⟨fun hfew hreach => ?_, fun hmany => ?_⟩⟩
    · obtain ⟨a, b, hframe⟩ := accepted_frame s l r rest
      have htx' : (accepted s l r rest).net.collTx = [c] := by rw [hframe]; exact htx
      have hpend' : (accepted s l r rest).net.collPend = [] := by rw [hframe]; exact hpend
      have hacc := (accepted_takenIn s l r rest).steers
      have hd : c.dst < 0x8000 := hdst ▸ hdev
      refine ⟨_, hnext, ?_⟩
      rw [take_takes harr htype, leaveBuffer_net, (leaveBuffer_keepsArrivals _ l r).2 l,
        (collAckIn_txOnly htx' hdst hjob hxid hpend').rxq l]
      refine ⟨accepted_rxq s l r rest, fun hkind => (collAckIn_ends htx' hdst hjob hxid hpend' (.inl hkind)).1,
        fun hkind hfew hreach => ?_⟩
      rw [← usable_alike hacc c.job hd] at hreach
      obtain ⟨htx'', hout⟩ := sentAgain_out (sends_refl (sentAgain (accepted s l r rest) c)) (namedStripes c p) hd hreach
      rw [collAckIn_resends htx' hdst hjob hxid hkind hfew]
      refine ⟨htx'', fun i hi hbit hin => ?_⟩
      obtain ⟨m, hm⟩ := hout _ (mem_namedStripes hi hbit hin)
      refine ⟨m, fun x hx => ?_⟩
      rw [leaveBuffer_tx]
      exact hm x (by rwa [stripePkts_alike hacc])
    · have hd : c.dst < 0x8000 := hdst ▸ dev.isLt
      have htimer : exec (.collResendTimerExpiry dev job xid) s = .next (resendTimer s c.dst c.job c.xid) := by
        rw [hdst, hjob, hxid]
        exact hnext
      have hgap := stripeGap_sends (sentAgain s c) c.job c.dst (collHead s c)
      have hquiet : Quiet (sentAgain s c) (stripeGap (sentAgain s c) c.job c.dst (collHead s c)) :=
        State.raiseDev_quiet (quiet_refl _)
      obtain ⟨htx', hout⟩ := sentAgain_out hgap (List.range (stripesOf c.stream)) hd hreach
      refine ⟨_, htimer, ?_⟩
      rw [resendTimer_resends htx hfew]
      exact ⟨htx', (sendStripes_quiet _ _ _).gddr.trans hquiet.gddr, fun i hi => hout i (List.mem_range.mpr hi)⟩
    · refine ⟨resendTimer s c.dst c.job c.xid, ?_, resendTimer_fails htx hpend hmany⟩
      rw [hdst, hjob, hxid]
      exact hnext
  · intro c hrx hsrc hjob hxid
    have htimer : exec (.collNakTimerExpiry dev job xid) s = .next (nakTimer s c.src c.job c.xid) := by
      rw [hsrc, hjob, hxid]
      exact hnext
    refine ⟨fun hfew => ?_, fun hmany hquiet => ⟨_, htimer, nakTimer_fails hrx hmany hquiet⟩⟩
    have hack := sendCollAck_sends (stripeGap (askedAgain s c) c.job c.src { hdr := c.hdr }) c.again 2 (nakBase c) (nakMask c)
    have hgap := stripeGap_sends (askedAgain s c) c.job c.src { hdr := c.hdr }
    have hquiet : Quiet (askedAgain s c) (stripeGap (askedAgain s c) c.job c.src { hdr := c.hdr }) :=
      State.raiseDev_quiet (quiet_refl _)
    refine ⟨_, htimer, ?_⟩
    rw [nakTimer_asks hrx hfew]
    refine ⟨hack.collRx.trans hgap.collRx, (sendCollAck_quiet _ _ _ _ _).gddr.trans hquiet.gddr, fun hd hj hx hlow m hplane => ?_⟩
    have hsame : choosePlane (stripeGap (askedAgain s c) c.job c.src { hdr := c.hdr }) 0 3 c.again.src c.again.job = some m :=
      (hgap.choosePlane_pinned rfl hd).trans hplane
    obtain ⟨y, hy, hpkt⟩ := sendCollAck_queues _ c.again 2 (nakBase c) (nakMask c) hsame
    refine ⟨y, hy, ?_⟩
    rw [hpkt]
    obtain ⟨htype, hdst, hjob', hxid', hkind⟩ := collAckPkt_names (stripeGap (askedAgain s c) c.job c.src { hdr := c.hdr }) c.again 2
      (nakBase c) (nakMask c) hd hj hx (by decide)
    refine ⟨htype, hdst, hjob', hxid', hkind, collAckPkt_base _ _ _ _ _ (nakBase_lt hlow), fun i hi => ?_⟩
    rw [collAckPkt_mask, Nat.testBit_mod_two_pow, decide_eq_true hi, Bool.true_and]
    exact testBit_nakMask c hi

end Sys2Proof.Machine
end

section
/-!
PROOF. A notification that waited for its core (O43): the lane marks of a scratchpad are kept by offset, and the statement leaves
open where they stand. One that reaches across the start of the record keeps its bytes out of the write, as a lane that is written in
part and holds a double-bit error does (R226), so that the record does not come to stand whole.
-/

namespace Sys2Proof.Machine

/-- The record that waits for C1. -/
def waitingNote : Note := { core := 1, off := 64, bytes := List.replicate 64 1#8, sem := 0 }

/-- C1 of job 0 is back and runs; the uncorrectable mark of its scratchpad stands on bytes 60 to 67, off the grid of the lanes and
across the start of the record. -/
def noteAcrossMark : State :=
  { State.reset with
    regs := [(0x8010, 2#64), (pwrBase + 0x60, 0xFFFFFFFFFFFFFFFF#64)]
    cores := State.reset.cores.set 1 { run := .running }
    locals := State.reset.locals.set 1 { spErr := [(60, true)] }
    rcl := { jobs := State.reset.rcl.jobs.set 0 { notes := [waitingNote] } }
    power := { boot := .up } }

theorem noteAcrossMark_runsFree : RunsFree noteAcrossMark 1 := by
  unfold RunsFree
  decide +kernel

/-- The retry leaves the first four bytes of the record's place as they were. -/
theorem noteAcrossMark_keepsFour :
    spBytes (rclRetry (retrySigs noteAcrossMark 0) 0) 1 64 64 = List.replicate 4 0#8 ++ List.replicate 60 1#8 := by
  decide +kernel

/-- Refutes O43: a notification that waited for its core is not written whole where an uncorrectable mark of the scratchpad reaches
across its start. -/
theorem not_commitServiceResult : ¬ Obligations.CommitServiceResult := by
  unfold Obligations.CommitServiceResult
  rintro ⟨-, h⟩
  obtain ⟨-, -, -, -, hnote⟩ := h 0 true noteAcrossMark rfl rfl
  obtain ⟨t, hexec, -, hbytes, -⟩ := hnote waitingNote (by decide +kernel) (by decide +kernel) (by decide +kernel) (by decide +kernel)
    (by decide +kernel) (by decide +kernel) (by decide +kernel) (by decide +kernel) (by decide +kernel) (by decide +kernel)
    (by decide +kernel) (by decide +kernel) noteAcrossMark_runsFree (by decide +kernel) (by decide +kernel)
  obtain rfl := Host.Outcome.next.inj hexec
  exact absurd (noteAcrossMark_keepsFour.symm.trans hbytes) (by decide)

end Sys2Proof.Machine
end

section
/-!
SUPPORT. What events, packets and the waking of a core leave of the steps in progress (R8, R57, R287, R322): JOB_STEP, the registers
of the buckets, and how far each job is towards its outcome.
-/

namespace Sys2Proof.Machine

/-- JOB_STEP of a job, or a register of a bucket entry (R328, R329). -/
def StepReg (a : Nat) : Prop := (∃ j : JobId, a = rclBase j + 0x10) ∨ (0x70000 ≤ a ∧ a < 0x78000)

/-- How far a job is in its step: its phase and attempt, and what its summit has counted and decided (R318, R320). -/
def RclJob.progress (k : RclJob) : Nat × BitVec 8 × Nat × Bool × Bool := (k.phase, k.attempt, k.readyCnt, k.firstReady, k.decided)

/-- `t` is in the same steps as `s`: the registers that name them and the progress of every job are the same. -/
structure KeepsStep (s t : State) : Prop where
  regs : ∀ a, StepReg a → t.rd a = s.rd a
  jobs : ∀ j : JobId, (t.rcl.jobs[j]).progress = (s.rcl.jobs[j]).progress

/-! ### Registers that are of no step -/

theorem stepReg_range {a : Nat} (h : StepReg a) : 0x61000 ≤ a ∧ a < 0x78000 := by
  obtain ⟨j, rfl⟩ | h := h
  · have := j.isLt
    unfold rclBase
    omega
  · omega

theorem notStepReg_of_low {a : Nat} (h : a < 0x61000) : ¬ StepReg a := fun k => by
  have := stepReg_range k
  omega

theorem notStepReg_of_high {a : Nat} (h : 0x78000 ≤ a) : ¬ StepReg a := fun k => by
  have := stepReg_range k
  omega

theorem coreReg_notStep (c n : Nat) : ¬ StepReg (coreBase c + n) := notStepReg_of_high (by unfold coreBase; omega)

theorem telReg_notStep (n : Nat) : ¬ StepReg (telBase + n) := notStepReg_of_high (by unfold telBase; omega)

/-- Of the registers of a job only JOB_STEP names its step. -/
theorem jobReg_notStep (j : JobId) {n : Nat} (h : n < 0x100) (hne : n ≠ 0x10) : ¬ StepReg (rclBase j + n) := by
  have := j.isLt
  unfold StepReg rclBase
  rintro (⟨i, hi⟩ | hi) <;> omega

theorem bktReg_stepReg (e : QId) {n : Nat} (h : n < 0x80) : StepReg (bktBase e + n) := by
  have := e.isLt
  unfold StepReg bktBase
  omega

theorem coreEvent_notStep {code : Nat} (hlo : 0x1000 ≤ code) (hhi : code < 0x2000) (c sub : Nat) :
    ¬ StepReg (evtReg code c sub).2.1 := by
  rw [evtReg_core c sub hlo hhi]
  exact coreReg_notStep c 0x20

theorem netEvent_notStep {code : Nat} (hlo : 0x6100 ≤ code) (hhi : code < 0x7000) (inst sub : Nat) :
    ¬ StepReg (evtReg code inst sub).2.1 := by
  rw [netEvent_place hlo hhi]
  exact notStepReg_of_low (by decide)

theorem redEvent_notStep {code : Nat} (hlo : 0x7000 ≤ code) (hhi : code < 0x8000) (inst sub : Nat) :
    ¬ StepReg (evtReg code inst sub).2.1 := by
  have hplace : (evtReg code inst sub).2.1 = redBase + 8 := by
    unfold evtReg
    repeat rw [if_neg (by omega)]
    rw [if_pos hhi]
  rw [hplace]
  exact notStepReg_of_low (by decide)

theorem hostEvent_notStep {code : Nat} (h : code < 0x1000) (inst sub : Nat) : ¬ StepReg (evtReg code inst sub).2.1 := by
  refine notStepReg_of_low ?_
  unfold evtReg
  by_cases hlow : code < 0x100
  · rw [if_pos hlow]
    exact (by decide : 0x20 < 0x61000)
  · rw [if_neg hlow, if_pos h]
    exact (by decide : 0x8818 < 0x61000)

theorem dispatchEvent_notStep {code : Nat} (hlo : 0x3100 ≤ code) (hhi : code < 0x4000) (u : DuId) (sub : Nat) :
    ¬ StepReg (evtReg code u.val sub).2.1 := by
  have hplace : (evtReg code u.val sub).2.1 = duBase u.val + 0x60 := by
    unfold evtReg
    repeat rw [if_neg (by omega)]
    rw [if_pos (by omega)]
  rw [hplace]
  exact notStepReg_of_low (by unfold duBase; omega)

/-! ### The relation -/

section
variable {s t v : State}

theorem keepsStep_of_eq (hregs : t.regs = s.regs) (hjobs : t.rcl.jobs = s.rcl.jobs) : KeepsStep s t :=
  ⟨fun a _ => by rw [State.rd, State.rd, hregs], fun j => by rw [hjobs]⟩

theorem keepsStep_refl (s : State) : KeepsStep s s := keepsStep_of_eq rfl rfl

theorem keepsStep_trans (h : KeepsStep s t) (k : KeepsStep t v) : KeepsStep s v :=
  ⟨fun a ha => (k.regs a ha).trans (h.regs a ha), fun j => (k.jobs j).trans (h.jobs j)⟩

theorem keepsStep_foldl_mem {α : Type} {f : State → α → State} (l : List α) (hf : ∀ s, ∀ x ∈ l, KeepsStep s (f s x)) (s : State) :
    KeepsStep s (l.foldl f s) := by
  induction l generalizing s with
  | nil => exact keepsStep_refl s
  | cons x l ih =>
    exact keepsStep_trans (hf s x List.mem_cons_self) (ih (fun s y hy => hf s y (List.mem_cons_of_mem x hy)) (f s x))

theorem keepsStep_foldl {α : Type} {f : State → α → State} (hf : ∀ s x, KeepsStep s (f s x)) (l : List α) (s : State) :
    KeepsStep s (l.foldl f s) := keepsStep_foldl_mem l (fun s x _ => hf s x) s

theorem keepsStep_ite {b : Prop} [Decidable b] (ht : KeepsStep s t) (hv : KeepsStep s v) : KeepsStep s (if b then t else v) := by
  split
  · exact ht
  · exact hv

end

/-! ### Parts of the state -/

theorem State.setRclJob_job_self (s : State) (j : JobId) (k : RclJob) : (s.setRclJob j k).rcl.jobs[j] = k := by
  simp [State.setRclJob]

theorem State.setRclJob_job_other (s : State) {j i : JobId} (k : RclJob) (h : i ≠ j) :
    (s.setRclJob j k).rcl.jobs[i] = s.rcl.jobs[i] := by
  have h : j.val ≠ i.val := fun e => h (Fin.ext e.symm)
  simp [State.setRclJob, Vector.getElem_set_ne, h]

theorem State.setBkt_bkt_self (s : State) (e : QId) (b : Bucket) : (s.setBkt e b).rcl.bkts[e] = b := by
  simp [State.setBkt]

section
variable (s : State)

theorem State.setCore_keepsStep (c : CoreId) (k : Core) : KeepsStep s (s.setCore c k) := keepsStep_of_eq rfl rfl
theorem State.setUnit_keepsStep (c : CoreId) (k : Units) : KeepsStep s (s.setUnit c k) := keepsStep_of_eq rfl rfl
theorem State.setLoc_keepsStep (c : CoreId) (k : Local) : KeepsStep s (s.setLoc c k) := keepsStep_of_eq rfl rfl
theorem State.setDu_keepsStep (u : DuId) (k : Dispatch) : KeepsStep s (s.setDu u k) := keepsStep_of_eq rfl rfl
theorem State.setBkt_keepsStep (e : QId) (b : Bucket) : KeepsStep s (s.setBkt e b) := keepsStep_of_eq rfl rfl

theorem State.setRclJob_keepsStep (j : JobId) {k : RclJob} (h : k.progress = (s.rcl.jobs[j]).progress) :
    KeepsStep s (s.setRclJob j k) := by
  refine ⟨fun _ _ => rfl, fun i => ?_⟩
  by_cases hi : i = j
  · rw [hi, State.setRclJob_job_self, h]
  · rw [State.setRclJob_job_other s k hi]

theorem State.wr_keepsStep {a : Nat} (v : W64) (h : ¬ StepReg a) : KeepsStep s (s.wr a v) :=
  ⟨fun b hb => State.rd_wr_other s a b v fun e => h (e ▸ hb), fun _ => rfl⟩

theorem State.count_keepsStep {a : Nat} (w k : Nat) (h : ¬ StepReg a) : KeepsStep s (s.count a w k) := State.wr_keepsStep s _ h

/-! ### Events and packets (R8, R287, R322) -/

theorem State.record_rcl (code inst sub : Nat) (job dev : Option Nat) (a0 a1 : Nat) :
    (s.record code inst sub job dev a0 a1).rcl = s.rcl := by
  obtain ⟨k, t, rs, h, hrec⟩ := State.record_frame s code inst sub job dev a0 a1
  rw [hrec]

theorem State.record_keepsStep {code inst sub : Nat} (h : ¬ StepReg (evtReg code inst sub).2.1) (job dev : Option Nat) (a0 a1 : Nat) :
    KeepsStep s (s.record code inst sub job dev a0 a1) := by
  refine ⟨fun a ha => ?_, fun j => by rw [State.record_rcl]⟩
  have hlow : 0x3000 ≤ a := Nat.le_trans (by decide) (stepReg_range ha).1
  exact State.record_rd_above hlow s (fun e => h (e ▸ ha)) job dev a0 a1

theorem unreachable_keepsStep (job : Option Nat) (dst : Nat) (p : Pkt) : KeepsStep s (unreachable s job dst p) :=
  State.record_keepsStep s (netEvent_notStep (by decide) (by decide) 0 0) _ _ _ _

theorem unreachable_rcl (job : Option Nat) (dst : Nat) (p : Pkt) : (unreachable s job dst p).rcl = s.rcl :=
  State.record_rcl s _ _ _ _ _ _ _

theorem sendPkt_rcl (die vc job dst : Nat) (p : Pkt) (q : Option QId) : (sendPkt s die vc job dst p q).1.rcl = s.rcl := by
  unfold sendPkt
  split
  · rfl
  · dsimp only
    split <;> rfl

theorem sendPkt_keepsStep (die vc job dst : Nat) (p : Pkt) (q : Option QId) : KeepsStep s (sendPkt s die vc job dst p q).1 :=
  keepsStep_of_eq (sendPkt_regs s die vc job dst p q) (by rw [sendPkt_rcl])

theorem sendSync_rcl (job dst rsp : Nat) (tf : List Byte) (excl : List Nat) : (sendSync s job dst rsp tf excl).1.rcl = s.rcl := by
  have hsend := sendPkt_rcl s 0 (6 + rsp) job dst (mkPkt s 9 3 rsp job dst 0 tf (syncData excl)) none
  unfold sendSync
  dsimp only
  split
  · rfl
  · split
    · next t ht =>
      rw [ht] at hsend
      exact hsend
    · next t ht =>
      rw [ht] at hsend
      exact (unreachable_rcl t _ _ _).trans hsend

theorem sendSync_keepsStep (job dst rsp : Nat) (tf : List Byte) (excl : List Nat) :
    KeepsStep s (sendSync s job dst rsp tf excl).1 := by
  have hsend := sendPkt_keepsStep s 0 (6 + rsp) job dst (mkPkt s 9 3 rsp job dst 0 tf (syncData excl)) none
  unfold sendSync
  dsimp only
  split
  · exact keepsStep_of_eq rfl rfl
  · split
    · next t ht =>
      rw [ht] at hsend
      exact hsend
    · next t ht =>
      rw [ht] at hsend
      exact keepsStep_trans hsend (unreachable_keepsStep t _ _ _)

theorem sendFail_rcl (j : JobId) : (sendFail s j).rcl = s.rcl := sendSync_rcl s _ _ _ _ _

theorem sendFail_keepsStep (j : JobId) : KeepsStep s (sendFail s j) := sendSync_keepsStep s _ _ _ _ _

theorem State.failStep_keepsStep (job : Option Nat) : KeepsStep s (s.failStep job) := by
  unfold State.failStep
  split
  · exact keepsStep_refl s
  · dsimp only
    split
    · exact keepsStep_refl s
    · split
      · exact State.setRclJob_keepsStep s _ rfl
      · split
        · exact keepsStep_refl s
        · refine keepsStep_trans ?_ (sendFail_keepsStep _ _)
          exact State.setRclJob_keepsStep s _ rfl

/-- The failing of a step changes no bucket. -/
theorem State.failStep_bkts (job : Option Nat) : (s.failStep job).rcl.bkts = s.rcl.bkts := by
  unfold State.failStep
  split
  · rfl
  · dsimp only
    split
    · rfl
    · split
      · rfl
      · split
        · rfl
        · rw [sendFail_rcl]
          rfl

theorem State.raiseDev_keepsStep {code inst sub : Nat} (h : ¬ StepReg (evtReg code inst sub).2.1) (fails : Bool)
    (job dev : Option Nat) (a0 a1 : Nat) : KeepsStep s (s.raiseDev fails code inst sub job dev a0 a1) := by
  have hrec := State.record_keepsStep s h job dev a0 a1
  cases fails with
  | false => exact hrec
  | true => exact keepsStep_trans hrec (State.failStep_keepsStep _ job)

theorem State.raiseDev_bkts (fails : Bool) (code inst sub : Nat) (job dev : Option Nat) (a0 a1 : Nat) :
    (s.raiseDev fails code inst sub job dev a0 a1).rcl.bkts = s.rcl.bkts := by
  have hrec := congrArg Rcl.bkts (State.record_rcl s code inst sub job dev a0 a1)
  cases fails with
  | false => exact hrec
  | true => exact (State.failStep_bkts _ job).trans hrec

theorem State.raise_keepsStep {code inst sub : Nat} (h : ¬ StepReg (evtReg code inst sub).2.1) (job : Option Nat) (a0 a1 : Nat) :
    KeepsStep s (s.raise code inst sub job a0 a1) := State.raiseDev_keepsStep s h _ job none a0 a1

theorem State.coreEvent_keepsStep {code : Nat} (hlo : 0x1000 ≤ code) (hhi : code < 0x2000) (c : CoreId) (job : Option Nat) (a0 a1 : Nat) :
    KeepsStep s (s.raise code c 0 job a0 a1) := State.raise_keepsStep s (coreEvent_notStep hlo hhi c 0) job a0 a1

end

/-! ### A dispatch unit sends what it holds (R217, R287) -/

theorem sendCells_keepsStep (die job dst q fuel : Nat) (s : State) (cells : List Cell) :
    KeepsStep s (sendCells s die job dst q fuel cells).1 := by
  induction fuel generalizing s cells with
  | zero => exact keepsStep_refl s
  | succ n ih =>
    have hsend := sendPkt_keepsStep s die 0 job dst (qcellsPkt s job dst q (cells.take (packetLen cells))) none
    unfold sendCells
    dsimp only
    split
    · exact keepsStep_refl s
    · split
      · next t ht =>
        rw [ht] at hsend
        exact keepsStep_trans hsend (ih t _)
      · next t ht =>
        rw [ht] at hsend
        exact hsend

theorem duFlushOne_keepsStep (s : State) (u : DuId) (o : DispOut) : KeepsStep s (duFlushOne s u o).1 := by
  unfold duFlushOne
  split
  · exact keepsStep_refl s
  · next dev q _ =>
    have hsend := sendCells_keepsStep u.val o.job dev.toNat q.val o.cells.length s o.cells
    split
    · exact keepsStep_refl s
    · split
      · next t ht =>
        rw [ht] at hsend
        exact hsend
      · next t x rest ht =>
        rw [ht] at hsend
        refine keepsStep_trans hsend (keepsStep_ite (keepsStep_refl t) ?_)
        exact keepsStep_trans (unreachable_keepsStep t _ _ _) (State.failStep_keepsStep _ _)

theorem flushSteps_keepsStep (u : DuId) (l : List DispOut) (acc : State × List DispOut) :
    KeepsStep acc.1 (l.foldl (flushStep u) acc).1 := by
  induction l generalizing acc with
  | nil => exact keepsStep_refl acc.1
  | cons o l ih =>
    have hone : KeepsStep acc.1 (flushStep u acc o).1 := by
      have h := duFlushOne_keepsStep acc.1 u o
      unfold flushStep
      split <;> next he => rwa [he] at h
    exact keepsStep_trans hone (ih _)

theorem duFlush_keepsStep (s : State) (u : DuId) : KeepsStep s (duFlush s u) := by
  rw [duFlush_eq]
  exact keepsStep_trans (flushSteps_keepsStep u _ (s, [])) (State.setDu_keepsStep _ u _)

theorem sendMarkers_keepsStep (s : State) (u : DuId) (job : Nat) (mbtag : BitVec 16) (kind : Nat) (dests : List DispDest) :
    KeepsStep s (sendMarkers s u job mbtag kind dests) :=
  keepsStep_trans (keepsStep_foldl (fun s _ => State.setDu_keepsStep s u _) dests s) (duFlush_keepsStep _ u)

theorem forceCancel_keepsStep (s : State) (u : DuId) (job core : Nat) (which : Tentative → Bool) :
    KeepsStep s (forceCancel s u job core which) := by
  have hcount : ¬ StepReg (duBase u + 0x50) := notStepReg_of_low (by unfold duBase; omega)
  have hevent := dispatchEvent_notStep (code := 0x3107 + 8 * u.val) (by omega) (by omega) u 0
  unfold forceCancel
  refine keepsStep_ite (keepsStep_refl s) ?_
  refine keepsStep_trans ?_ (State.raise_keepsStep _ hevent _ _ _)
  refine keepsStep_trans ?_ (State.count_keepsStep _ _ _ hcount)
  exact keepsStep_trans (State.setDu_keepsStep s u _)
    (keepsStep_foldl (fun s (e : Tentative) => sendMarkers_keepsStep s u job e.mbtag 2 e.dests) _ _)

/-! ### A core enters HALTED (R57, R364, R387) -/

theorem noteBeat_keepsStep (s : State) (c : CoreId) (d : W64) : KeepsStep s (noteBeat s c d) := by
  have hplace (m : Nat) : ¬ StepReg (telBase + 0x1000 + 0x20 * c.val + m) := by
    rw [Nat.add_assoc, Nat.add_assoc]
    exact telReg_notStep _
  have hover (j : Nat) : ¬ StepReg (telBase + 0x130 + 0x40 * j) := by
    rw [Nat.add_assoc]
    exact telReg_notStep _
  have hlast : KeepsStep s (s.wr (telBase + 0x1000 + 0x20 * c.val) d) := State.wr_keepsStep s d (hplace 0)
  have hmax (t : State) : KeepsStep t (if (t.rd (telBase + 0x1000 + 0x20 * c.val + 8)).toNat < d.toNat then
      t.wr (telBase + 0x1000 + 0x20 * c.val + 8) d else t) :=
    keepsStep_ite (State.wr_keepsStep t d (hplace 8)) (keepsStep_refl t)
  unfold noteBeat
  dsimp only
  refine keepsStep_trans (keepsStep_trans hlast (hmax _)) ?_
  generalize @ite State (_ < _) (Nat.decLt _ _) _ _ = t
  split
  · exact keepsStep_refl t
  · refine keepsStep_ite ?_ (keepsStep_refl t)
    exact keepsStep_trans (State.count_keepsStep t 32 1 (hplace 0x10)) (State.wr_keepsStep _ _ (hover _))

theorem endBeat_keepsStep (s : State) (c : CoreId) : KeepsStep s (endBeat s c) := by
  have hstop : KeepsStep s (stopBeat s c) := by
    obtain ⟨-, h⟩ | ⟨t0, h⟩ := stopBeat_cases s c <;> rw [h]
    · exact keepsStep_refl s
    · exact keepsStep_of_eq rfl rfl
  refine keepsStep_trans hstop ?_
  unfold endBeat
  dsimp only
  split
  · exact keepsStep_refl _
  · exact keepsStep_trans (State.setCore_keepsStep _ c _) (noteBeat_keepsStep _ c _)

theorem preemptCheck_keepsStep (s : State) (id : Nat) : KeepsStep s (preemptCheck s id) := by
  unfold preemptCheck
  refine keepsStep_ite (keepsStep_refl s) ?_
  dsimp only
  split
  · exact keepsStep_refl s
  · refine keepsStep_trans ?_ (State.raise_keepsStep _ (hostEvent_notStep (code := 0x0101) (by decide) 0 0) _ _ _)
    exact keepsStep_of_eq rfl rfl

theorem victimHalted_keepsStep (s : State) (c : CoreId) : KeepsStep s (victimHalted s c) := by
  unfold victimHalted
  split
  · exact keepsStep_refl s
  · refine keepsStep_trans ?_ (keepsStep_foldl (fun s (v : Victim) => preemptCheck_keepsStep s v.id) _ _)
    refine keepsStep_trans ?_ (State.raise_keepsStep _ (hostEvent_notStep (code := 0x0102) (by decide) 0 0) _ _ _)
    exact keepsStep_of_eq rfl rfl

theorem onHalted_keepsStep (s : State) (c : CoreId) : KeepsStep s (onHalted s c) := by
  unfold onHalted
  refine keepsStep_trans ?_ (victimHalted_keepsStep _ c)
  refine keepsStep_trans ?_ (State.setDu_keepsStep _ _ _)
  split <;> exact forceCancel_keepsStep s _ _ _ _

theorem enterHalted_keepsStep (s : State) (c : CoreId) (st : BitVec 16) : KeepsStep s (enterHalted s c st) := by
  unfold enterHalted
  refine keepsStep_trans ?_ (onHalted_keepsStep _ c)
  refine keepsStep_trans ?_ (State.raiseDev_keepsStep _ (coreEvent_notStep (by decide) (by decide) c 0) _ _ none _ _)
  refine keepsStep_trans ?_ (endBeat_keepsStep _ c)
  exact keepsStep_trans (State.setCore_keepsStep s c _) (State.wr_keepsStep _ _ (coreReg_notStep c 8))

theorem settle_keepsStep (s : State) (c : CoreId) : KeepsStep s (settle s c) := by
  unfold settle
  split
  · refine keepsStep_ite ?_ (keepsStep_refl s)
    split
    · exact State.setCore_keepsStep s c _
    · exact State.setCore_keepsStep s c _
    · exact enterHalted_keepsStep s c _
  · exact keepsStep_refl s

/-! ### A core is let go, and a semaphore is added to (R52, R53, R227) -/

theorem retire_keepsStep (s : State) (c : CoreId) : KeepsStep s (retire s c) := by
  refine keepsStep_trans (State.setCore_keepsStep s c (loopNext (s.core c) (s.core c).pc)) ?_
  unfold retire afterIssue
  refine keepsStep_ite (keepsStep_refl _) (keepsStep_ite ?_ (keepsStep_refl _))
  exact keepsStep_trans (State.setCore_keepsStep _ c _) (settle_keepsStep _ c)

theorem unblock_keepsStep (s : State) (c : CoreId) (pt : Nat) (ok : Bool) : KeepsStep s (unblock s c pt ok) :=
  keepsStep_trans (keepsStep_trans (State.setUnit_keepsStep s c _) (State.setCore_keepsStep _ c _)) (retire_keepsStep _ c)

theorem semSet_keepsStep (s : State) (c : CoreId) (i : Nat) (v : BitVec 16) : KeepsStep s (semSet s c i v) := by
  unfold semSet
  split
  · exact State.setLoc_keepsStep s c _
  · exact keepsStep_refl s

theorem wake_keepsStep (s : State) (c : CoreId) : KeepsStep s (wake s c) := by
  unfold wake
  refine keepsStep_trans (keepsStep_ite ?_ (keepsStep_refl s)) (settle_keepsStep _ c)
  split
  · exact keepsStep_refl s
  · exact keepsStep_ite (keepsStep_trans (semSet_keepsStep s c _ _) (unblock_keepsStep _ c _ _)) (keepsStep_refl s)
  · exact keepsStep_ite (unblock_keepsStep s c _ _) (keepsStep_refl s)
  · exact keepsStep_ite (unblock_keepsStep s c _ _) (keepsStep_refl s)

theorem semAdd_keepsStep (s : State) (c : CoreId) (sem v : Nat) : KeepsStep s (semAdd s c sem v) := by
  unfold semAdd
  refine keepsStep_trans (semSet_keepsStep s c sem _) (keepsStep_trans (keepsStep_ite ?_ (keepsStep_refl _)) (wake_keepsStep _ c))
  exact State.coreEvent_keepsStep _ (by decide) (by decide) c _ _ _

/-! ### Guards (R227, R302) -/

theorem setGuard_keepsStep (s : State) (c : CoreId) (g : Nat) (f : Bool) : KeepsStep s (setGuard s c g f) := by
  unfold setGuard
  exact keepsStep_ite (State.coreEvent_keepsStep s (by decide) (by decide) c _ _ _) (State.setLoc_keepsStep s c _)

theorem drainGuard_keepsStep (s : State) (j : JobId) (c : CoreId) (g : Nat) : KeepsStep s (drainGuard s j c g) := by
  unfold drainGuard
  refine keepsStep_ite (State.setRclJob_keepsStep s j rfl) (keepsStep_ite ?_ (keepsStep_refl s))
  exact keepsStep_trans (setGuard_keepsStep s c g false) (wake_keepsStep _ c)

theorem drainHand_keepsStep (s : State) (e : QId) : KeepsStep s (drainHand s e) := by
  unfold drainHand
  split
  · exact keepsStep_trans (State.setBkt_keepsStep s e _) (drainGuard_keepsStep _ _ _ _)
  · exact keepsStep_refl s

end Sys2Proof.Machine
end

section
/-!
SUPPORT. The outcome of a step (R320, R321, R323): what its notification, its telemetry and its cairn leave of the step that has begun,
and what COMMIT and ABANDON make of JOB_STEP and of the EPOCH bits.
-/

namespace Sys2Proof.Machine

/-! ### Scratchpads (R226, R236, R370) -/

section
variable (s : State) (c : CoreId) (job : Option Nat)

theorem dirtySp_keepsStep (off len : Nat) : KeepsStep s (dirtySp s c off len) := by
  unfold dirtySp
  refine keepsStep_foldl_mem _ (fun t e he => keepsStep_ite (State.wr_keepsStep t _ ?_) (keepsStep_refl t)) s
  have := List.mem_range.mp he
  exact notStepReg_of_low (by unfold rmtBase; omega)

theorem spFixed_keepsStep (off : Nat) : KeepsStep s (spFixed s c job off) := by
  unfold spFixed
  refine keepsStep_trans (State.count_keepsStep s 32 1 (coreReg_notStep c 0x4068)) ?_
  exact keepsStep_trans (State.setLoc_keepsStep _ c _) (State.coreEvent_keepsStep _ (by decide) (by decide) c job _ _)

theorem spUncorr_keepsStep (off : Nat) : KeepsStep s (spUncorr s c job off) := by
  unfold spUncorr
  exact keepsStep_trans (State.wr_keepsStep s _ (coreReg_notStep c 0x4080))
    (State.coreEvent_keepsStep _ (by decide) (by decide) c job _ _)

theorem spCorrected_keepsStep (ms : List (Nat × Bool)) : KeepsStep s (spCorrected s c job ms) :=
  keepsStep_foldl (fun s (e : Nat × Bool) => spFixed_keepsStep s c job e.1) _ s

theorem spUncorrs_keepsStep (ms : List (Nat × Bool)) : KeepsStep s (spUncorrs s c job ms) :=
  keepsStep_foldl (fun s (e : Nat × Bool) => spUncorr_keepsStep s c job e.1) _ s

theorem spMerge_keepsStep (off : Nat) (bs : List Byte) : KeepsStep s (spMerge s c job off bs).1 := by
  refine keepsStep_trans ?_ (spUncorrs_keepsStep _ c job _)
  refine keepsStep_trans ?_ (dirtySp_keepsStep _ c off _)
  exact keepsStep_trans (spCorrected_keepsStep s c job _) (State.setLoc_keepsStep _ c _)

theorem spWriteAny_keepsStep (off : Nat) (bs : List Byte) : KeepsStep s (spWriteAny s c job off bs) := by
  unfold spWriteAny
  split
  · exact spMerge_keepsStep s c job off bs
  · refine keepsStep_trans ?_ (keepsStep_foldl (fun s (p : Nat × Nat) => spMerge_keepsStep s c job p.1 _) _ _)
    exact keepsStep_foldl (fun s w => State.coreEvent_keepsStep s (by decide) (by decide) c job _ w) _ s

end

/-! ### The notification of an outcome (R54, R321) -/

section
variable (s : State) (j : JobId)

theorem rclSignal_keepsStep (core sem : Nat) : KeepsStep s (rclSignal s j core sem) := by
  unfold rclSignal sigSend
  cases sigPath s (some j.val) core with
  | drop => exact State.raise_keepsStep s (coreEvent_notStep (by decide) (by decide) (core % 48) 0) _ _ _
  | apply t => exact semAdd_keepsStep s t sem 1
  | hold => exact State.setRclJob_keepsStep s j rfl

theorem postNotes_keepsStep : KeepsStep s (postNotes s j) := by
  unfold postNotes
  refine keepsStep_trans ?_ (keepsStep_foldl (fun s (n : Note) => ?_) _ _)
  · exact State.setRclJob_keepsStep s j rfl
  refine keepsStep_ite (State.setRclJob_keepsStep s j rfl) ?_
  exact keepsStep_trans (spWriteAny_keepsStep s n.core _ _ _) (rclSignal_keepsStep _ j _ _)

theorem notifyStep_keepsStep (kind step attempt next : Nat) : KeepsStep s (notifyStep s j kind step attempt next) := by
  unfold notifyStep
  dsimp only
  split
  · exact rclSignal_keepsStep s j _ _
  · refine keepsStep_trans ?_ (postNotes_keepsStep _ j)
    exact State.setRclJob_keepsStep s j rfl

/-! ### Timers, telemetry, cairns and BELAY_N (R319, R325, R388, R389) -/

theorem telCfg_notStep (n : Nat) : ¬ StepReg (telCfg j + n) := by
  unfold telCfg
  rw [Nat.add_assoc, Nat.add_assoc]
  exact telReg_notStep _

theorem setTel_keepsStep (f : Telemetry → Telemetry) : KeepsStep s (setTel s f) := keepsStep_of_eq rfl rfl

theorem State.now_keepsStep : KeepsStep s s.now.2 := keepsStep_of_eq s.now_regs rfl

theorem stepEnd_keepsStep : KeepsStep s (stepEnd s j) := by
  have hplace (n : Nat) : ¬ StepReg (telBase + 0x800 + 0x20 * j.val + n) := by
    rw [Nat.add_assoc, Nat.add_assoc]
    exact telReg_notStep _
  have htimer (t : State) (o : Option W64) (n : Nat) (f : W64 → W64) : KeepsStep t
      (match o with | none => t | some t0 => t.wr (telBase + 0x800 + 0x20 * j.val + n) (f t0)) := by
    cases o with
    | none => exact keepsStep_refl t
    | some t0 => exact State.wr_keepsStep t _ (hplace n)
  unfold stepEnd
  dsimp only
  refine keepsStep_trans ?_ (setTel_keepsStep _ _)
  refine keepsStep_trans ?_ (htimer _ _ 16 _)
  refine keepsStep_trans ?_ (htimer _ _ 8 _)
  split
  · exact State.now_keepsStep s
  · refine keepsStep_trans ?_ (keepsStep_ite (State.wr_keepsStep _ _ (telCfg_notStep j 0x30)) (keepsStep_refl _))
    exact keepsStep_trans (State.now_keepsStep s) (State.wr_keepsStep _ _ (hplace 0))

theorem telAuto_keepsStep (kind step attempt : Nat) : KeepsStep s (telAuto s j kind step attempt) := by
  unfold telAuto telTrigger
  refine keepsStep_ite (keepsStep_ite ?_ ?_) (keepsStep_refl s)
  · refine keepsStep_trans ?_ (State.count_keepsStep _ 32 1 (telCfg_notStep j 0x38))
    exact keepsStep_of_eq rfl rfl
  · exact keepsStep_of_eq rfl rfl

theorem cairnStart_keepsStep (step : Nat) : KeepsStep s (cairnStart s j step) := by
  unfold cairnStart
  refine keepsStep_ite (keepsStep_refl s) ?_
  dsimp only
  refine keepsStep_trans ?_ (State.setRclJob_keepsStep _ j rfl)
  refine keepsStep_trans ?_ (State.wr_keepsStep _ _ (jobReg_notStep j (n := 0x58) (by decide) (by decide)))
  exact State.wr_keepsStep s _ (jobReg_notStep j (n := 0x40) (by decide) (by decide))

theorem belayPin_keepsStep : KeepsStep s (belayPin s) := keepsStep_of_eq rfl rfl

theorem lateFail_keepsStep (late : Bool) : KeepsStep s (lateFail s j late) := by
  unfold lateFail
  exact keepsStep_ite (State.failStep_keepsStep s _) (keepsStep_refl s)

theorem redEv_keepsStep {code : Nat} (hlo : 0x7000 ≤ code) (hhi : code < 0x8000) (fails : Bool) (bidx shard step m n : Nat)
    (dev : Option Nat) :
    KeepsStep s (redEv s fails code j bidx shard step m n dev) :=
  State.raiseDev_keepsStep s (redEvent_notStep hlo hhi 0 0) fails _ dev _ _

/-! ### Messages to the members (R317, R320) -/

theorem say_keepsStep (m rsp : Nat) (tf : List Byte) (excl : List Nat) : KeepsStep s (say s j m rsp tf excl) := by
  have hsend := sendSync_keepsStep s j (member s j m) rsp tf excl
  unfold say
  split
  · next t ht => rwa [ht] at hsend
  · next t ht =>
    rw [ht] at hsend
    exact keepsStep_trans hsend (State.failStep_keepsStep t _)

theorem say_quiet (m rsp : Nat) (tf : List Byte) (excl : List Nat) : Quiet s (say s j m rsp tf excl) := by
  have hsend : Quiet s (sendSync s j (member s j m) rsp tf excl).1 := sendSync_quiet (quiet_refl s)
  unfold say
  split
  · next t ht => rwa [ht] at hsend
  · next t ht =>
    rw [ht] at hsend
    exact State.failStep_quiet hsend

theorem sendOutcome_keepsStep (kind : Nat) : KeepsStep s (sendOutcome s j kind) :=
  keepsStep_foldl (fun s m => say_keepsStep s j m _ _ _) _ s

theorem sendOutcome_quiet (kind : Nat) : Quiet s (sendOutcome s j kind) := quiet_foldl (fun s m => say_quiet s j m _ _ _) _ s

end

/-! ### What stays with the step -/

section
variable {s t : State} (h : KeepsStep s t)
include h

theorem KeepsStep.jobStep (j : JobId) : jobStep t j = jobStep s j := by
  unfold Machine.jobStep
  rw [h.regs _ (.inl ⟨j, rfl⟩)]

theorem KeepsStep.bktReg (e : QId) {n : Nat} (hn : n < 0x80) : t.rd (bktBase e + n) = s.rd (bktBase e + n) :=
  h.regs _ (bktReg_stepReg e hn)

theorem KeepsStep.bShards (e : QId) : bShards t e = bShards s e := by
  have hhead : t.rd (bktBase e) = s.rd (bktBase e) := h.bktReg e (n := 0) (by decide)
  unfold Machine.bShards
  rw [hhead]

theorem KeepsStep.jobBkts (j : Nat) : jobBkts t j = jobBkts s j := by
  have hhead (e : QId) : t.rd (bktBase e) = s.rd (bktBase e) := h.bktReg e (n := 0) (by decide)
  unfold Machine.jobBkts bValid bJob
  simp only [hhead]

theorem KeepsStep.bEpoch (e : QId) {sh : Nat} (hsh : sh < 128) : bEpoch t e sh = bEpoch s e sh := by
  unfold Machine.bEpoch
  rw [Nat.add_assoc, h.bktReg e (by omega)]

end

/-! ### EPOCH (R314, R321) -/

theorem bShards_le (s : State) (e : QId) : bShards s e ≤ 128 := by
  have := fld_lt (s.rd (bktBase e)) 21 7
  unfold bShards
  omega

/-- A flip writes the two EPOCH words of its own bucket alone. -/
theorem flipEpoch_rd_other (s : State) (e : QId) {a : Nat} (hlo : a ≠ bktBase e + 0x50) (hhi : a ≠ bktBase e + 0x58) :
    (flipEpoch s e).rd a = s.rd a :=
  (State.rd_wr_other _ _ a _ hhi).trans (State.rd_wr_other s _ a _ hlo)

theorem flipEpoch_jobStep (s : State) (e : QId) (j : JobId) : (flipEpoch s e).rd (rclBase j + 0x10) = s.rd (rclBase j + 0x10) := by
  have := j.isLt
  refine flipEpoch_rd_other s e ?_ ?_ <;> (unfold rclBase bktBase; omega)

theorem bShards_flipEpoch (s : State) (e x : QId) : bShards (flipEpoch s e) x = bShards s x := by
  unfold bShards
  rw [flipEpoch_rd_other] <;> (unfold bktBase; omega)

theorem bEpoch_flipEpoch_other (s : State) {e x : QId} {sh : Nat} (hne : x ≠ e) (hsh : sh < 128) :
    bEpoch (flipEpoch s e) x sh = bEpoch s x sh := by
  have : x.val ≠ e.val := fun h => hne (Fin.ext h)
  unfold bEpoch
  rw [flipEpoch_rd_other] <;> (unfold bktBase; omega)

/-- A bit of a word turns round where it is set in the other operand. -/
theorem bit_xor_of_set {v : W64} {i : Nat} (h : bit v i = true) (w : W64) : bit (w ^^^ v) i = !bit w i := by
  unfold bit at *
  rw [BitVec.getLsbD_xor, h, Bool.xor_true]

theorem bEpoch_flipEpoch_self (s : State) {e : QId} {sh : Nat} (hsh : sh < bShards s e) :
    bEpoch (flipEpoch s e) e sh = !bEpoch s e sh := by
  have hle := bShards_le s e
  have hbit : (2 ^ bShards s e - 1).testBit sh = true := by
    rw [Nat.testBit_two_pow_sub_one, decide_eq_true hsh]
  unfold bEpoch
  by_cases h : sh < 64
  · rw [Nat.div_eq_of_lt h, Nat.mod_eq_of_lt h]
    unfold flipEpoch
    refine (congrArg (bit · sh) ((State.rd_wr_other _ _ _ _ (by omega)).trans (State.rd_wr_self s _ _))).trans
      (bit_xor_of_set ?_ _)
    unfold bit
    rw [BitVec.getLsbD_ofNat, Nat.testBit_mod_two_pow, hbit, decide_eq_true h]
    rfl
  · obtain ⟨i, rfl⟩ : ∃ i, sh = i + 64 := ⟨sh - 64, by omega⟩
    have hi : i < 64 := by omega
    have hdiv : (i + 64) / 64 = 1 := by omega
    have hmod : (i + 64) % 64 = i := by omega
    rw [hdiv, hmod]
    unfold flipEpoch
    dsimp only
    rw [Nat.add_assoc (bktBase e.val), State.rd_wr_self, State.rd_wr_other s _ _ _ (by omega)]
    refine bit_xor_of_set ?_ _
    unfold bit
    rw [BitVec.getLsbD_ofNat, Nat.testBit_div_two_pow, hbit, decide_eq_true hi]
    rfl

/-- Every bucket of a list without repetitions is flipped once, and no other. -/
theorem bEpoch_foldl_flipEpoch {l : List QId} (hl : l.Nodup) (s : State) {x : QId} {sh : Nat} (hsh : sh < bShards s x) :
    bEpoch (l.foldl flipEpoch s) x sh = if x ∈ l then !bEpoch s x sh else bEpoch s x sh := by
  induction l generalizing s with
  | nil => rfl
  | cons e l ih =>
    obtain ⟨hnot, hrest⟩ := List.nodup_cons.mp hl
    have hle := bShards_le s x
    rw [List.foldl_cons, ih hrest _ (by rwa [bShards_flipEpoch])]
    by_cases hx : x = e
    · subst hx
      rw [if_neg hnot, if_pos List.mem_cons_self, bEpoch_flipEpoch_self s hsh]
    · rw [bEpoch_flipEpoch_other s hx (by omega)]
      simp [hx]

theorem jobBkts_nodup (s : State) (j : Nat) : (jobBkts s j).Nodup := (List.nodup_finRange 256).filter _

/-! ### The next step, or the next attempt (R321, R323) -/

section
variable (s : State) (j : JobId)

theorem freshBkts_keepsStep (phase : Nat) : KeepsStep s (freshBkts s j phase) :=
  keepsStep_foldl (fun s e => State.setBkt_keepsStep s e _) _ s

theorem dropHands_keepsStep : KeepsStep s (dropHands s j) :=
  keepsStep_foldl (fun s e => keepsStep_ite (drainHand_keepsStep s e) (keepsStep_refl s)) _ s

theorem freeWork_keepsStep : KeepsStep s (freeWork s j) := by
  refine keepsStep_foldl (fun s (x : Nat × Work) => ?_) _ s
  split
  · exact keepsStep_refl s
  · exact drainGuard_keepsStep s j _ _

theorem nextStep_progress (attempt : BitVec 8) : ((nextStep s j attempt).rcl.jobs[j]).progress = (1, attempt, 0, false, false) :=
  congrArg RclJob.progress (State.setRclJob_job_self s j _)

/-- The state with the step of a job committed: the EPOCH bits inverted, JOB_STEP moved on and everything else begun anew. -/
def committed : State :=
  let next := ((jobBkts s j).foldl flipEpoch s).wr (rclBase j + 0x10) (BitVec.ofNat 64 ((jobStep s j + 1) % 2 ^ 32))
  nextStep (freshBkts next j 1) j 0#8

theorem applyCommit_keepsStep : KeepsStep (committed s j) (applyCommit s j) := by
  unfold applyCommit
  refine keepsStep_trans ?_ (lateFail_keepsStep _ j _)
  refine keepsStep_trans ?_ (belayPin_keepsStep _)
  refine keepsStep_trans ?_ (cairnStart_keepsStep _ j _)
  refine keepsStep_trans ?_ (telAuto_keepsStep _ j _ _ _)
  refine keepsStep_trans ?_ (redEv_keepsStep _ j (by decide) (by decide) _ _ _ _ _ _ _)
  exact keepsStep_trans (stepEnd_keepsStep _ j) (notifyStep_keepsStep _ j _ _ _ _)

theorem committed_jobStep : (committed s j).rd (rclBase j + 0x10) = BitVec.ofNat 64 ((jobStep s j + 1) % 2 ^ 32) := by
  unfold committed
  dsimp only
  exact ((freshBkts_keepsStep _ j 1).regs _ (.inl ⟨j, rfl⟩)).trans (State.rd_wr_self _ _ _)

theorem committed_bEpoch {x : QId} (hx : x ∈ jobBkts s j) {sh : Nat} (hsh : sh < bShards s x) :
    bEpoch (committed s j) x sh = !bEpoch s x sh := by
  have hle := bShards_le s x
  have hflip := bEpoch_foldl_flipEpoch (jobBkts_nodup s j) s hsh
  rw [if_pos hx] at hflip
  refine ((freshBkts_keepsStep _ j 1).bEpoch x (by omega)).trans (Eq.trans ?_ hflip)
  have := j.isLt
  unfold bEpoch
  rw [State.rd_wr_other]
  unfold rclBase bktBase
  omega

/-- The state with the attempt of a job abandoned, and its next attempt begun. -/
def abandoned : State :=
  let s' := freshBkts (dropHands s j) j 1
  let s' := { s' with net := { s'.net with collPend := s'.net.collPend.filter (fun c => c.job != j.val) } }
  nextStep (freeWork s' j) j ((s.rcl.jobs[j]).attempt + 1)

theorem applyAbandon_keepsStep : KeepsStep (abandoned s j) (applyAbandon s j) := by
  unfold applyAbandon
  refine keepsStep_trans ?_ (lateFail_keepsStep _ j _)
  refine keepsStep_trans ?_ (belayPin_keepsStep _)
  refine keepsStep_trans ?_ (telAuto_keepsStep _ j _ _ _)
  refine keepsStep_trans ?_ (redEv_keepsStep _ j (by decide) (by decide) _ _ _ _ _ _ _)
  exact keepsStep_trans (stepEnd_keepsStep _ j) (notifyStep_keepsStep _ j _ _ _ _)

theorem abandoned_regs {a : Nat} (ha : StepReg a) : (abandoned s j).rd a = s.rd a := by
  have hdrop := keepsStep_trans (dropHands_keepsStep s j) (freshBkts_keepsStep _ j 1)
  exact ((freeWork_keepsStep _ j).regs a ha).trans (hdrop.regs a ha)

theorem abandoned_bEpoch (e : QId) {sh : Nat} (hsh : sh < 128) : bEpoch (abandoned s j) e sh = bEpoch s e sh := by
  unfold bEpoch
  rw [Nat.add_assoc, abandoned_regs s j (bktReg_stepReg e (by omega))]

end

end Sys2Proof.Machine
end

section
/-!
SETTLEMENT. The SYNC messages of a step (O42; R305, R307, R317, R318, R320 to R323), each as the module hears it from itself.
-/

namespace Sys2Proof.Machine

/-- The state with the first of the module's messages to itself taken off, `rest` behind it. -/
def heardSelf (s : State) (rest : List Pkt) : State := { s with net := { s.net with self := rest } }

theorem heardSelf_keepsStep (s : State) (rest : List Pkt) : KeepsStep s (heardSelf s rest) := keepsStep_of_eq rfl rfl

/-- The first message of the module to itself reaches the body of its kind. -/
theorem syncIn_own {s : State} {j : JobId} {kind : Nat} {p : Pkt} (h : OwnSync s j kind p) :
    ∃ rest, syncIn s none kind = syncBody kind (heardSelf s rest) j p := by
  obtain ⟨⟨rest, hself⟩, htype, hkind, hjob, -⟩ := h
  refine ⟨rest, ?_⟩
  unfold syncIn
  simp only [hself, htype, hkind, hjob, fin?_val, beq_self_eq_true, Bool.true_or, Bool.and_true, if_true, ne_eq, not_true_eq_false,
    if_false]
  rfl

/-! ### The exponent round (R305 to R307) -/

theorem modBkt_bkt_self (s : State) (e : QId) (f : Bucket → Bucket) : (modBkt s e f).rcl.bkts[e] = f s.rcl.bkts[e] :=
  State.setBkt_bkt_self s e _

theorem expVertex_level {s : State} {e : QId} {l : Nat} {x : ExpVertex} (h : expVertex s e l = some x) : x.level = l := by
  have := List.find?_some h
  simpa using this

theorem expVertex_setEv (s : State) (e : QId) (x : ExpVertex) : expVertex (setEv s e x) e x.level = some x := by
  have hothers : ((s.rcl.bkts[e]).ev.filter (fun y => y.level != x.level)).find? (fun v => v.level == x.level) = none := by
    rw [List.find?_eq_none]
    intro y hy
    simpa using (List.mem_filter.mp hy).2
  unfold expVertex setEv
  rw [modBkt_bkt_self, List.find?_append, hothers]
  simp

/-- A vertex that has begun is not begun again. -/
theorem expStart_begun {s : State} {e : QId} {v : Vtx} {x : ExpVertex} (h : expVertex s e v.level = some x) (j : JobId) :
    expStart s j e v = s := if_pos (by rw [h]; rfl)

/-- A vertex that still waits for a child once it has changed does not complete. -/
theorem expComplete_waits {v : Vtx} {x : ExpVertex} (hlevel : x.level = v.level) (hwait : x.ins.length < v.kids.length)
    (s : State) (j : JobId) (e : QId) : expComplete (setEv s e x) j e v = setEv s e x := by
  unfold expComplete
  simp only [← hlevel, expVertex_setEv, hwait, or_true, if_true]

/-- What an EXP without INVALID reports of the members `lo` to `hi` - 1. -/
def reportOf (p : Pkt) (lo hi : Nat) : ExpIn :=
  { lo := lo, hi := hi, emax := sext 8 (pByte p 21 1), n := pByte p 22 2, excl := syncExcl p }

theorem any_lo_of_new {l : List ExpIn} {lo : Nat} (h : ∀ i ∈ l, i.lo ≠ lo) : l.any (fun i => i.lo == lo) = false := by
  simpa using h

section
variable {s : State} {j : JobId} {p : Pkt} {e : QId} (hfresh : syncFresh s j p = true) (hbkt : bktFor s j (pByte p 14 2) = some e)
include hfresh hbkt

section
variable {v : Vtx} {lo hi : Nat} {x : ExpVertex} (hparent : parentOf s j e (pSrc p) (pByte p 20 1) = some (v, lo, hi))
  (hx : expVertex s e v.level = some x) (hopen : x.done = false) (hnew : ∀ i ∈ x.ins, i.lo ≠ lo)
include hparent hx hopen hnew

theorem pendingIn_marks : pendingIn s j p = setEv s e { x with pend := x.pend ++ [lo] } := by
  unfold pendingIn
  simp [hfresh, hbkt, hparent, expStart_begun hx, hx, hopen, any_lo_of_new hnew]

theorem expIn_adds (hvalid : (pByte p 24 1).testBit 0 = false) (hwait : x.ins.length + 1 < v.kids.length) :
    expIn s j p = setEv s e { x with ins := x.ins ++ [reportOf p lo hi] } := by
  have hgo : ¬ (x.done = true ∨ x.ins.any (fun i => i.lo == lo) = true) := by simp [hopen, any_lo_of_new hnew]
  unfold expIn
  simp only [hfresh, hbkt, hparent, expStart_begun hx, hx, hgo, hvalid, Bool.not_true, Bool.false_eq_true, if_false]
  have hlevel : x.level = v.level := expVertex_level hx
  exact expComplete_waits (x := { x with ins := x.ins ++ [reportOf p lo hi] }) hlevel (by simpa using hwait) s j e

end

theorem decideIn_applies {v : Vtx} {c : Nat × Nat × Nat}
    (habove : (memberIx (membersOf s j) (pSrc p)).bind (fun i => vtxAt (chain (membersOf s j) i) (pByte p 20 1)) = some v)
    (hkid : v.kids.find? (fun q => holds q.2 (groupSelf s j)) = some c) (hleaf : c.1 = 0) (hopen : (s.rcl.bkts[e]).dec = none) :
    decideIn s j p = applyDecide s j e { n := pByte p 22 2, eb := sext 8 (pByte p 21 1) + 8, excl := syncExcl p } := by
  unfold decideIn
  simp only [hfresh, hbkt, habove, hkid, hleaf, hopen, Option.bind_some, Bool.not_true, Bool.false_eq_true, if_false, if_true,
    Option.isSome_none]

end

/-! ### The data phase begins (R307, R311) -/

theorem sendShards_noHand {s : State} {e : QId} (h : (s.rcl.bkts[e]).hand = none) (j : JobId) : sendShards s j e = s := by
  unfold sendShards
  rw [h]

theorem takeEarly_none {s : State} {e : QId} (h : (s.rcl.bkts[e]).early = []) (j : JobId) :
    takeEarly s j e = modBkt s e (fun b => { b with early := [] }) := by
  unfold takeEarly
  rw [h]
  rfl

theorem roundMark_rcl (s : State) (j : JobId) : (roundMark s j).rcl = s.rcl := rfl

theorem postDue_none {s : State} {j : JobId} (h : (s.rcl.jobs[j]).due = []) :
    postDue s j = s.setRclJob j { s.rcl.jobs[j] with due := [] } := by
  unfold postDue
  rw [h]
  rfl

/-- A bucket without a hand-over and with nothing that came early takes its decision and enters the data phase. -/
theorem applyDecide_takes {s : State} {j : JobId} {e : QId} (d : Decision) (hhand : (s.rcl.bkts[e]).hand = none)
    (hearly : (s.rcl.bkts[e]).early = []) (hdue : (s.rcl.jobs[j]).due = []) :
    ((applyDecide s j e d).rcl.bkts[e]).phase = 3 ∧ ((applyDecide s j e d).rcl.bkts[e]).dec = some d := by
  unfold applyDecide
  generalize hostedVertices s j e d = hosted
  obtain ⟨a, b⟩ := hosted
  dsimp only
  generalize ht : roundMark (modBkt s e _) j = t
  obtain ⟨hphase, hdec, hnone, hempty⟩ : (t.rcl.bkts[e]).phase = 3 ∧ (t.rcl.bkts[e]).dec = some d ∧ (t.rcl.bkts[e]).hand = none ∧
      (t.rcl.bkts[e]).early = [] := by
    rw [← ht, roundMark_rcl, modBkt_bkt_self]
    exact ⟨rfl, rfl, hhand, hearly⟩
  have hjob : (t.rcl.jobs[j]).due = [] := by
    rw [← ht]
    exact hdue
  have hof {u : State} (h : u.rcl.bkts = t.rcl.bkts) : (u.rcl.bkts[e]).phase = 3 ∧ (u.rcl.bkts[e]).dec = some d := by
    rw [h]
    exact ⟨hphase, hdec⟩
  generalize (if d.n ≤ 1 then 0 else 2 * a.length) = need
  split
  · exact hof rfl
  · split
    · have hkept : (bktEv t 0x7004 j e 0 (groupSelf s j) none).rcl.bkts = t.rcl.bkts := State.raiseDev_bkts _ _ _ _ _ _ _ _ _
      exact hof hkept
    · have hstay : (if (d.excl.contains (groupSelf s j) && (t.rcl.bkts[e]).hand.isSome) = true then drainHand t e else t) = t :=
        if_neg (by rw [hnone, Option.isSome_none, Bool.and_false]; exact Bool.false_ne_true)
      have hpost := postDue_none (s := modBkt t e (fun b => { b with early := [] })) (j := j) hjob
      have hlast := modBkt_bkt_self t e (fun b => { b with early := [] })
      rw [hstay, sendShards_noHand hnone, takeEarly_none hempty, hpost]
      exact ⟨(congrArg Bucket.phase hlast).trans hphase, (congrArg Bucket.dec hlast).trans hdec⟩

/-! ### READY, FAIL and the outcome (R318, R320, R321, R323) -/

section
variable {s : State} {j : JobId} {p : Pkt} (hfresh : syncFresh s j p = true)
include hfresh

/-- A job with more members counted, `n` in all. -/
def RclJob.counted (k : RclJob) (n : Nat) : RclJob := { k with readyCnt := n, firstReady := true }

/-- A message of the step is for a summit that has not decided. -/
theorem summit_hears (hsummit : groupSelf s j = 0) (hopen : (s.rcl.jobs[j]).decided = false) :
    ¬ ((!syncFresh s j p) = true ∨ groupSelf s j ≠ 0 ∨ (s.rcl.jobs[j]).decided = true) := by
  rw [hfresh, hopen]
  simp [hsummit]

theorem readyIn_counts (hsummit : groupSelf s j = 0) (hopen : (s.rcl.jobs[j]).decided = false) :
    let n := satAdd 16 (s.rcl.jobs[j]).readyCnt (pByte p 22 2)
    let t := s.setRclJob j ((s.rcl.jobs[j]).counted n)
    readyIn s j p = if groupG s j ≤ n then sendOutcome (t.setRclJob j { t.rcl.jobs[j] with decided := true }) j skCommit else t := by
  unfold readyIn
  exact if_neg (summit_hears hfresh hsummit hopen)

theorem readyIn_progress (hsummit : groupSelf s j = 0) (hopen : (s.rcl.jobs[j]).decided = false) :
    let n := satAdd 16 (s.rcl.jobs[j]).readyCnt (pByte p 22 2)
    ((readyIn s j p).rcl.jobs[j]).progress =
      ((s.rcl.jobs[j]).phase, (s.rcl.jobs[j]).attempt, n, true, decide (groupG s j ≤ n)) ∧ Quiet s (readyIn s j p) := by
  intro n
  have hcount := readyIn_counts hfresh hsummit hopen
  dsimp only at hcount
  generalize ht : s.setRclJob j ((s.rcl.jobs[j]).counted n) = t at hcount
  have hjob : t.rcl.jobs[j] = (s.rcl.jobs[j]).counted n := by rw [← ht, State.setRclJob_job_self]
  have hquiet : Quiet s t := ht ▸ State.setRclJob_quiet (quiet_refl s)
  rw [hcount]
  by_cases hall : groupG s j ≤ n
  · rw [if_pos hall, decide_eq_true hall]
    refine ⟨((sendOutcome_keepsStep _ j _).jobs j).trans ?_, quiet_trans (State.setRclJob_quiet hquiet) (sendOutcome_quiet _ j _)⟩
    rw [State.setRclJob_job_self, hjob]
    rfl
  · rw [if_neg hall, decide_eq_false hall, hjob]
    exact ⟨congrArg (fun b => ((s.rcl.jobs[j]).phase, (s.rcl.jobs[j]).attempt, n, true, b)) hopen, hquiet⟩

theorem failIn_abandons (hsummit : groupSelf s j = 0) (hopen : (s.rcl.jobs[j]).decided = false) :
    failIn s j p = abandonNow s j := by
  unfold failIn
  exact if_neg (summit_hears hfresh hsummit hopen)

/-- An outcome is applied once a rack leader has forwarded it. -/
theorem outcomeIn_applies (commit : Bool) :
    ∃ u, KeepsStep s u ∧ outcomeIn s j p commit = if commit then applyCommit u j else applyAbandon u j := by
  unfold outcomeIn
  rw [hfresh]
  refine ⟨_, ?_, rfl⟩
  exact keepsStep_ite (keepsStep_foldl (fun s m => say_keepsStep s j m _ _ _) _ _) (keepsStep_refl s)

end

/-- The summit that abandons has decided, and leaves memory and cores as they are. -/
theorem abandonNow_decides (s : State) (j : JobId) :
    ((abandonNow s j).rcl.jobs[j]).progress = { s.rcl.jobs[j] with decided := true, phase := 3 }.progress ∧ Quiet s (abandonNow s j) :=
  ⟨((sendOutcome_keepsStep _ j _).jobs j).trans (congrArg RclJob.progress (State.setRclJob_job_self s j _)),
    quiet_trans (State.setRclJob_quiet (quiet_refl s)) (sendOutcome_quiet _ j _)⟩

/-- Settles O42: each message is heard by its body; the round's messages change one vertex, DECIDE goes to `applyDecide_takes`, and after
an outcome nothing that its application still does is of the step that has begun. -/
theorem syncMessageResult : Obligations.SyncMessageResult := by
  unfold Obligations.SyncMessageResult
  intro j us s p e
  dsimp only
  intro hheld
  have hnext {t : State} : Host.Outcome.next (s.live t) = (.next t : Out) := by rw [live_of_held hheld]
  refine ⟨fun v lo hi x hbkt hparent hx hopen hnew => ⟨fun hown => ?_, fun hown hvalid hwait => ?_⟩, ?_, ?_, ?_, ?_, ?_⟩
  · obtain ⟨rest, hin⟩ := syncIn_own hown
    refine ⟨_, hnext, ?_⟩
    have hbody := hin.trans (pendingIn_marks (s := heardSelf s rest) hown.2.2.2.2 hbkt hparent hx hopen hnew)
    rw [hbody]
    exact ⟨congrArg Bucket.ev (modBkt_bkt_self _ e _), rfl, rfl⟩
  · obtain ⟨rest, hin⟩ := syncIn_own hown
    refine ⟨_, hnext, ?_⟩
    have hbody := hin.trans (expIn_adds (s := heardSelf s rest) hown.2.2.2.2 hbkt hparent hx hopen hnew hvalid hwait)
    rw [hbody]
    exact ⟨rfl, rfl, congrArg Bucket.ev (modBkt_bkt_self _ e _)⟩
  · intro v c hown hbkt habove hkid hleaf hdec hhand hearly hdue
    obtain ⟨rest, hin⟩ := syncIn_own hown
    refine ⟨_, hnext, ?_⟩
    have hbody := hin.trans (decideIn_applies (s := heardSelf (strike s us) rest) hown.2.2.2.2 hbkt habove hkid hleaf hdec)
    rw [hbody]
    exact applyDecide_takes (s := heardSelf (strike s us) rest) _ hhand hearly hdue
  · intro hown hsummit hundecided
    obtain ⟨rest, hin⟩ := syncIn_own hown
    refine ⟨_, hnext, ?_⟩
    obtain ⟨hprogress, hquiet⟩ := readyIn_progress (s := heardSelf s rest) hown.2.2.2.2 hsummit hundecided
    rw [hin]
    exact ⟨congrArg (·.2.2.1) hprogress, congrArg (·.2.2.2.1) hprogress, congrArg (·.2.2.2.2) hprogress, hquiet.gddr, hquiet.cores⟩
  · intro hown hsummit hundecided
    obtain ⟨rest, hin⟩ := syncIn_own hown
    refine ⟨_, hnext, ?_⟩
    have hbody := hin.trans (failIn_abandons (s := heardSelf s rest) hown.2.2.2.2 hsummit hundecided)
    obtain ⟨hprogress, hquiet⟩ := abandonNow_decides (heardSelf s rest) j
    rw [hbody]
    exact ⟨congrArg (·.2.2.2.2) hprogress, congrArg (·.1) hprogress, hquiet.gddr, hquiet.cores⟩
  · intro hown
    obtain ⟨rest, hin⟩ := syncIn_own hown
    obtain ⟨u, hu, happly⟩ := outcomeIn_applies (s := heardSelf s rest) hown.2.2.2.2 true
    have hsu := keepsStep_trans (heardSelf_keepsStep s rest) hu
    have ht := applyCommit_keepsStep u j
    refine ⟨_, hnext, ?_⟩
    rw [hin.trans happly, if_pos rfl]
    have hprogress := (ht.jobs j).trans (nextStep_progress _ j 0#8)
    refine ⟨congrArg (·.1) hprogress, congrArg (·.2.1) hprogress, ?_, fun x hx sh hsh => ?_⟩
    · rw [ht.regs _ (.inl ⟨j, rfl⟩), committed_jobStep, hsu.jobStep]
    · have hle := bShards_le s x
      rw [ht.bEpoch x (by omega), committed_bEpoch u j (hsu.jobBkts j ▸ hx) (hsu.bShards x ▸ hsh), hsu.bEpoch x (by omega)]
  · intro hown
    obtain ⟨rest, hin⟩ := syncIn_own hown
    obtain ⟨u, hu, happly⟩ := outcomeIn_applies (s := heardSelf s rest) hown.2.2.2.2 false
    have hsu := keepsStep_trans (heardSelf_keepsStep s rest) hu
    have ht := applyAbandon_keepsStep u j
    refine ⟨_, hnext, ?_⟩
    rw [hin.trans happly, if_neg Bool.false_ne_true]
    have hprogress := (ht.jobs j).trans (nextStep_progress _ j _)
    have hattempt : (u.rcl.jobs[j]).attempt = (s.rcl.jobs[j]).attempt := congrArg (·.2.1) (hsu.jobs j)
    refine ⟨congrArg (·.1) hprogress, (congrArg (·.2.1) hprogress).trans (congrArg (· + 1) hattempt), ?_, fun x _ sh hsh => ?_⟩
    · rw [ht.regs _ (.inl ⟨j, rfl⟩), abandoned_regs u j (.inl ⟨j, rfl⟩), hsu.regs _ (.inl ⟨j, rfl⟩)]
    · have hle := bShards_le s x
      rw [ht.bEpoch x (by omega), abandoned_bEpoch u j x (by omega), hsu.bEpoch x (by omega)]

end Sys2Proof.Machine
end
